-- ==== Sys2Proof/Word.lean ====
section
/-! DEFINITION. The word types of the BR-1 module and their plainest conversions (spec/00_scope.md R5 to R11). -/

namespace Sys2Proof

/-- One byte. -/
abbrev Byte := BitVec 8

/-- A 64-bit word: a register, a recipe word, a G64. -/
abbrev Word := BitVec 64

/-- A string of bytes as it travels or lies in memory; element 0 is the byte at offset 0. -/
abbrev Bytes := List Byte

/-- A 256-bit symmetric key. -/
abbrev Key256 := BitVec 256

/-- A SHA-384 digest; byte 0 of the digest is bits 383 to 376. -/
abbrev Digest := BitVec 384

/-- A job number; VF j serves job j (R401). -/
abbrev JobId := Fin 16

/-- A host function: 0 to 15 are VF0 to VF15, 16 is PF0. -/
abbrev Func := Fin 17

/-- A field port (R453). -/
abbrev Port := Fin 16

/-- A front-end number (R91). -/
abbrev Fe := Fin 4096

/-- A queue-pair number (R459). -/
abbrev Qpn := Fin 1048576

/-- A job-relative client slot or a module-wide Roster entry number. -/
abbrev Slot := Fin 16777216

/-- A cohort number of one job. -/
abbrev CohortId := Fin 65536

/-- PF0 as a host function. -/
def pf0 : Func := 16

/-- The VF that serves a job (R401). -/
def vfOf (j : JobId) : Func := ⟨j.val, by omega⟩

/-- The job that a VF serves; none for PF0. -/
def jobOf (f : Func) : Option JobId := if h : f.val < 16 then some ⟨f.val, h⟩ else none

end Sys2Proof
end

