-- ==== Sys2Proof/Syntax.lean ====
section
/-! DEFINITION. The commands that the module takes from outside and the events that act on it: one constructor of `Instr` for each row of spec/opcode_table.json. The operands are the model's (assumption 3): the bytes on a wire, a register's write value, the number of the job, round or unit that the row acts on, and what a sensor or a test measured. -/

namespace Sys2Proof

/-- A TAI time in nanoseconds (R494). -/
abbrev Time := Nat

/-- A round number (R36). -/
abbrev RoundNo := Nat

/-- A Vat line, of the 6 GiB and of the firmware region above it (R152, R153). -/
abbrev VatLine := Fin 102760448

/-- A module Vat address (R152, R153). -/
abbrev VatAddr := Fin 6576668672

/-- The three rings of R11. -/
inductive Ring where
  | z16 | z24 | z32
  deriving DecidableEq, Repr

/-- The bits of a ring element. -/
def Ring.bits : Ring → Nat
  | .z16 => 16
  | .z24 => 24
  | .z32 => 32

/-- The bytes of a ring element in an accumulator (R167). -/
def Ring.slot : Ring → Nat
  | .z16 => 2
  | .z24 => 4
  | .z32 => 4

/-- The maximum and minimum operations of R183. -/
inductive MaxMinOp where
  | maxS32 | minS32 | maxS64 | minS64 | maxF32 | minF32
  deriving DecidableEq, Repr

/-- Who issued a Vat access: a unit of a fenceable class and the job whose work it serves; no job for firmware (R34, R575, R587). -/
structure Issuer where
  block : Fin 11
  unit : Nat
  job : Option JobId
  deriving DecidableEq, Repr

/-- What the SECDED code of a line found at a read (R154). -/
structure EccRead where
  corrected : Fin 9
  uncorrectable : Bool
  deriving DecidableEq, Repr

/-- A scan of the TAP's data register (R652, R654): the levels that the boundary cells capture, cell 0 first, and the bits shifted in at TDI, the first first. -/
structure TapScan where
  pins : BitVec 63
  tdi : List Bool
  deriving DecidableEq, Repr

/-- The engines with known-answer tests. -/
inductive KatEngine where
  | toll | culture | press | wrap | skim | rind | trier
  deriving DecidableEq, Repr

/-- An invocation context: a sequencer (code 1 to 7, here 0 to 6) and one of its 32 contexts (R354, R355). -/
structure CtxId where
  seq : Fin 7
  ctx : Fin 32
  deriving DecidableEq, Repr

/-- An inbound RC request packet (R467); `data` is the payload as it arrived, `sealing` the counter, associated data and tag of a sealed packet (R489). -/
structure Packet where
  q : Qpn
  port : Port
  psn : BitVec 24
  first : Bool
  last : Bool
  rkey : BitVec 32
  va : Nat
  len : Nat
  data : Bytes
  sealing : Option (Nat × Bytes × Bytes)
  deriving DecidableEq, Repr

/-- The layer-3 header of a frame (R454). -/
inductive Net where
  | ipv4 (dst : BitVec 32) (options fragment : Bool)
  | ipv6 (dst : BitVec 128) (extension : Bool)
  | other (ethertype : BitVec 16)
  deriving DecidableEq, Repr

/-- A frame at a field port (R454): its headers, its check sums and its destination queue pair. -/
structure Frame where
  fcsOk : Bool
  dmac : BitVec 48
  vlan : Option (BitVec 12)
  net : Net
  udpPort : Nat
  sumOk : Bool
  icrcOk : Bool
  q : Nat
  bytes : Nat
  fifoOcc : Nat
  parity : Bool
  deriving DecidableEq, Repr

/-- A UD datagram (R468). -/
structure Datagram where
  q : Qpn
  qkey : BitVec 32
  isSend : Bool
  src : BitVec 128
  data : Bytes
  deriving DecidableEq, Repr

/-- The negative acknowledgements of R467 and R468. -/
inductive Nak where
  | psn | access | invalid | operational
  deriving DecidableEq, Repr

/-- What a requester work request does (R457, R477). -/
inductive WorkKind where
  | send | write | writeImm | atomic | flush
  deriving DecidableEq, Repr

/-- A requester work request; `waitOn` names another queue pair and a target (R477). -/
structure WorkReq where
  kind : WorkKind
  data : Bytes
  va : Nat
  rkey : BitVec 32
  imm : BitVec 32
  waitOn : Option (Qpn × BitVec 32)
  deriving DecidableEq, Repr

/-- A PTP Announce message's dataset (R495). -/
structure Announce where
  domain : Byte
  priority1 : Byte
  clockClass : Byte
  accuracy : Byte
  variance : BitVec 16
  priority2 : Byte
  identity : Word
  steps : Nat
  deriving DecidableEq, Repr

/-- A Sync and its Follow_Up (R492, R495): the measured offset of module time from the grandmaster's, in nanoseconds. -/
structure SyncPair where
  domain : Byte
  identity : Word
  twoStep : Bool
  logInterval : Int
  offset : Int
  deriving DecidableEq, Repr

/-- What the DVFS loop finds of one cluster (R521): the lowest rate, in percent, that clears its pending work before its next need, whether that need is already due, and the pending work. -/
structure ClusterLoad where
  rate : Nat
  due : Bool
  work : Nat
  deriving DecidableEq, Repr

/-- The temperatures of R615 in thousandths of a degree Celsius: the hottest die sensor, the hottest HBM stack and the coolant inlet. -/
structure Temps where
  die : Int
  hbm : Int
  inlet : Int
  deriving DecidableEq, Repr

/-- What the throttle of R616 measures: input millivolts, milliamperes, watts, the temperatures, the case of each port's optical engine, and the clusters by power drawn, the largest first. -/
structure Limits where
  mv : Nat
  ma : Nat
  watts : Nat
  temps : Temps
  optics : Vector Int 16
  order : List (Fin 5)
  deriving DecidableEq, Repr

/-- An end of a Ferry channel pair at a host function: VF 0 to 15, PF0 with W0 (16), PF0 with WS (17) (R440, R451). -/
abbrev FerryEnd := Fin 18

/-- An IDE key that arrives through IDE_KM (R559). -/
structure IdeKey where
  session : Nat
  stream : Nat
  key : Bytes
  allStreams : Bool
  deriving DecidableEq, Repr

/-- What start-up finds (R533, R538, R547, R588): the two flash banks, the key slots that fail their patterns, and the units whose known-answer test fails. -/
structure Boot where
  badSlots : List (Fin 256)
  badUnits : List (Fin 11 × Nat)
  fwMs : Nat
  readyMs : Nat
  deriving DecidableEq, Repr

/-- How a sampled instruction ended (R607, R608). -/
structure SampleMeasure where
  latency : Nat
  queue : Nat
  faulted : Bool
  aborted : Bool
  replaced : Bool
  written : Bool
  deriving DecidableEq, Repr

/-- An invocation by a round core (R28): the recipe's slot, up to four arguments, and the round that it serves. -/
structure CoreInvoke where
  slot : Fin 1024
  args : List Nat
  round : Nat
  deriving DecidableEq, Repr

/-- One row of spec/opcode_table.json each. -/
inductive Instr where
  /-- JOIN_CHUNK (R64): A JOIN chunk arrives; Landing runs the order of checks, derives the client keys through Toll and records the client in the Roster. -/
  | joinChunk (q : Qpn) (stamp : Time) (c : Bytes)
  /-- SHARES_CHUNK (R66): A SHARES chunk arrives; Landing checks its bundle framing and stores the bundles without reading them. -/
  | sharesChunk (q : Qpn) (stamp : Time) (c : Bytes)
  /-- UPLOAD_CHUNK (R78): A masked UPLOAD chunk arrives; Landing checks and decrypts it and starts its admission transaction against the bitmap and the cohort accumulator. -/
  | uploadChunk (q : Qpn) (stamp : Time) (c : Bytes)
  /-- SEALED_UPLOAD_PIECE (R323): A sealed UPLOAD piece arrives and is admitted in one transaction, with Rind adding its residues into the cohort sum ciphertext. -/
  | sealedUploadPiece (q : Qpn) (stamp : Time) (c : Bytes)
  /-- UNMASK_SHARES_CHUNK (R67): An UNMASK_SHARES chunk arrives and its requested shares are admitted for reconstruction. -/
  | unmaskSharesChunk (q : Qpn) (stamp : Time) (c : Bytes)
  /-- MANIFEST (R345): A member's sealed-round manifest arrives; Landing revokes the member's write access to its import area before the area is hashed. -/
  | manifest (q : Qpn) (stamp : Time) (c : Bytes)
  /-- MANIFEST_HASH_DONE (R345): Rind's hash of an import area completes; the manifest is admitted, or write access is restored and the manifest is refused MALFORMED. -/
  | manifestHashDone (j : JobId) (r : RoundNo) (slot : Slot)
  /-- ABORT_CHUNK (R68): An ABORT chunk is admitted and the client's Roster state becomes WITHDRAWN. -/
  | abortChunk (q : Qpn) (stamp : Time) (c : Bytes)
  /-- FETCH_CHUNK (R72): A FETCH relayed to the module is dropped without an ACK and counted as MALFORMED for the relaying front-end. -/
  | fetchChunk (q : Qpn) (c : Bytes)
  /-- SHORT_SEND (R53): A SEND shorter than 32 bytes is discarded without an ACK, and the front-end's MALFORMED count is incremented. -/
  | shortSend (q : Qpn) (c : Bytes)
  /-- ADMISSION_COMMIT (R78): An admission transaction's last add is applied; the bitmap bit is set, the check value is added, the buffer is released and the ACK is sent. -/
  | admissionCommit (txn : Nat) (badRuns : Fin 3)
  /-- REINSTATE (R97): PF0 writes 1 to LND_FE_STATE.QUARANTINED; the quarantine ends and the front-end's error counts clear. -/
  | reinstate (v : BitVec 32)
  /-- CREDIT_RECOMPUTE (R93): Every 100 µs Landing recomputes each front-end's credit and pins it at a bound when needed. -/
  | creditRecompute
  /-- LND_FE_CFG_WRITE (R91): A write of LND_FE_CFG that sets VALID is judged for overlap against the job's Roster range. -/
  | lndFeCfgWrite (v : Word)
  /-- ROSTER_FLUSH (R107): A write of ROS_CTRL.FLUSH writes every dirty Roster cache entry back to HBM. -/
  | rosterFlush (v : BitVec 32)
  /-- CLOSE_DRAIN_EXPIRY (R85): The Close drain time expires; waiting chunks that have not begun a transaction are discarded and acknowledged LATE. -/
  | closeDrainExpiry (j : JobId) (r : RoundNo)
  /-- CLOSE_FIX (R130): The last admission transaction of Close ends; survivors, dropouts and void chunks are fixed and close records are written. -/
  | closeFix (j : JobId) (r : RoundNo)
  /-- COHORT_LINEAR_CHECK (R204): Trier's read of a cohort accumulator at Close completes; the four check lanes are compared and a mismatching cohort is abandoned. -/
  | cohortLinearCheck (j : JobId) (r : RoundNo) (c : CohortId)
  /-- OFFER_BEGIN (R61): The Offer PHASE event fires; the round key is drawn and the signed OFFER is sent to the job's front-ends. -/
  | offerBegin (j : JobId) (r : RoundNo)
  /-- JOIN_BEGIN (R84): The Join PHASE event fires and the JOIN and ABORT windows open. -/
  | joinBegin (j : JobId) (r : RoundNo)
  /-- NEIGHBOURS_BEGIN (R116): The Neighbours PHASE event fires; graphs are built, short cohorts are abandoned and NEIGHBOURS messages are sent. -/
  | neighboursBegin (j : JobId) (r : RoundNo)
  /-- SHARES_BEGIN (R124): The Shares PHASE event fires and the per-round bundle key is drawn. -/
  | sharesBegin (j : JobId) (r : RoundNo)
  /-- UPLOAD_BEGIN (R123): The Upload PHASE event fires; SHARE_BUNDLE messages are sent, the round accumulators are zeroed and the check keys are drawn. -/
  | uploadBegin (j : JobId) (r : RoundNo)
  /-- CLOSE_BEGIN (R85): The Close PHASE event fires; admission stops for chunks stamped at or after Close and the drain begins. -/
  | closeBegin (j : JobId) (r : RoundNo)
  /-- UNMASK_BEGIN (R134): The Unmask PHASE event fires and UNMASK_REQUEST messages are sent to survivors or to members. -/
  | unmaskBegin (j : JobId) (r : RoundNo)
  /-- UNMASK_DEADLINE (R137): The Unmask deadline fires; reconstructions use the shares held, and short cohorts are abandoned. -/
  | unmaskDeadline (j : JobId) (r : RoundNo)
  /-- SECRET_RECONSTRUCT (R138): Toll reconstructs and checks a needed secret once enough shares are held, then hands the derived keys to Culture. -/
  | secretReconstruct (j : JobId) (r : RoundNo) (about : Slot)
  /-- COHORT_UNMASK_DONE (R141): A cohort's mask adds all apply; its secrets are erased and its Settle may begin. -/
  | cohortUnmaskDone (j : JobId) (r : RoundNo) (c : CohortId)
  /-- COHORT_SETTLE (R171): A cohort's Settle converts its ring sum into G64 addends and counts, with a range check. -/
  | cohortSettle (j : JobId) (r : RoundNo) (c : CohortId)
  /-- SCREEN_DECISION (R291): Once every cohort is settled or abandoned, the screening procedure flags cohorts and excludes them under policy. -/
  | screenDecision (j : JobId) (r : RoundNo)
  /-- FINISH_BEGIN (R280): Finish is about to begin; the privacy charge is checked and recorded and the release path runs. -/
  | finishBegin (j : JobId) (r : RoundNo)
  /-- GATE_DECISION (R299): Held-out evaluation of the candidate completes and the gate accepts it or refuses it. -/
  | gateDecision (j : JobId) (r : RoundNo)
  /-- GATE_OVERRIDE (R302): PF0 writes the held round's number to WRP_JOB_OVERRIDE and the held candidate is released. -/
  | gateOverride (v : BitVec 32)
  /-- GATE_HOLD_EXPIRY (R302): A gate hold expires and the round ends with GATE_REJECTED. -/
  | gateHoldExpiry (j : JobId) (r : RoundNo)
  /-- RELEASE_POST (R304): After every covering check passes, the accepted delta is written, digested and the round is ended. -/
  | releasePost (j : JobId) (r : RoundNo)
  /-- PEER_WAIT_EXPIRY (R195): Peers have not all reported within WAIT_MS; the add window closes and the round ends PEER_INCOMPLETE. -/
  | peerWaitExpiry (j : JobId) (r : RoundNo)
  /-- PEER_DONE_WRITE (R193): A peer's WRITE with immediate to the peer-done line is counted in PEERS_DONE. -/
  | peerDoneWrite (p : Packet) (imm : BitVec 32)
  /-- STREAM (R586): A STREAM peer notice is received on a PEER queue pair. -/
  | stream (q : Qpn) (c : Bytes)
  /-- RETRACT (R586): A RETRACT peer notice is received and recorded in the job's log. -/
  | retract (q : Qpn) (c : Bytes)
  /-- RETRACT_DONE (R586): A RETRACT_DONE peer notice is received and recorded in the job's log. -/
  | retractDone (q : Qpn) (c : Bytes)
  /-- PATROL_SCRUB (R156): The patrol scrubber reads a line in an idle bank cycle within the scrub period. -/
  | patrolScrub (line : VatLine) (e : EccRead)
  /-- BERTH_WRITE (R160): A VAT_JOB_BERTHS write assigns berths, or is refused when a berth is held by another job. -/
  | berthWrite (n : Fin 6) (v : Word)
  /-- BANK_READ (R187): A bank reads a line, correcting single-bit errors or poisoning the line. -/
  | bankRead (i : Issuer) (line : VatLine) (e : EccRead)
  /-- LINE_WRITE (R155): A bank write stores data; a whole-line write clears poison. -/
  | lineWrite (i : Issuer) (addr : VatAddr) (d : Bytes) (e : EccRead)
  /-- RADD (R168): A bank applies a ring add to Z16, Z24 or Z32 elements. -/
  | radd (i : Issuer) (addr : VatAddr) (ring : Ring) (d : Bytes) (e : EccRead)
  /-- GADD (R180): A bank applies an exact G64 add, producing the marker on overflow. -/
  | gadd (i : Issuer) (addr : VatAddr) (x : Word) (ask : Bool) (e : EccRead)
  /-- ADD64 (R183): A bank applies a 64-bit add modulo 2^64. -/
  | add64 (i : Issuer) (addr : VatAddr) (x : Word) (ask : Bool) (e : EccRead)
  /-- FADD (R183): A bank applies a binary32 add rounded to nearest even. -/
  | fadd (i : Issuer) (addr : VatAddr) (d : Bytes) (e : EccRead)
  /-- MAX_MIN (R183): A bank applies a signed or binary32 maximum or minimum. -/
  | maxMin (i : Issuer) (addr : VatAddr) (op : MaxMinOp) (x : Word) (ask : Bool) (e : EccRead)
  /-- CAS64 (R183): A bank applies a 64-bit compare-and-swap and returns the previous value. -/
  | cas64 (i : Issuer) (addr : VatAddr) (cmp : Word) (swap : Word) (e : EccRead)
  /-- TILE_DRAIN (R243): After a MAC's final promotion, a tile drains column by column into Wrap. -/
  | tileDrain (array : Fin 8) (wrong : List (Nat × Int))
  /-- CHAIN_CHECK (R580): Trier's check of a covered Press chain completes; a failed chain is re-run and may fail the invocation. -/
  | chainCheck (j : JobId) (n : Nat) (wrong : List (Nat × Int))
  /-- TRI_FENCE (R589): A FENCE command via TRI_UNIT_CMD fences the unit, or is refused with STALE_VIEW. -/
  | triFence (v : BitVec 32)
  /-- TRI_UNFENCE (R590): An UNFENCE command runs the unit's known-answer test and sets the unit LIVE or refuses. -/
  | triUnfence (v : BitVec 32) (kat : Bool)
  /-- TOL_KAT_RUN (R149): Writing TOL_CTRL.KAT_RUN runs the Toll known-answer tests on idle cores. -/
  | tolKatRun (v : BitVec 32)
  /-- CUL_KAT_RUN (R150): Writing CUL_CTRL.KAT_RUN runs the ChaCha20 test vectors on idle lanes. -/
  | culKatRun (v : BitVec 32)
  /-- PRS_KAT_RUN (R262): Writing PRS_CTRL.KAT_RUN runs the MAC known-answer test on idle arrays. -/
  | prsKatRun (v : BitVec 32)
  /-- WRP_KAT_RUN (R305): Writing WRP_CTRL.KAT_RUN runs the Wrap known-answer tests. -/
  | wrpKatRun (v : BitVec 32)
  /-- SKM_KAT_RUN (R306): Writing SKM_CTRL.KAT_RUN runs the Skim known-answer tests. -/
  | skmKatRun (v : BitVec 32)
  /-- RIND_KAT_RUN (R353): Writing RIND_CTRL.KAT_RUN runs the Rind known-answer tests. -/
  | rindKatRun (v : BitVec 32)
  /-- TRI_KAT_RUN (R597): Writing TRI_CTRL.KAT_RUN runs the checker known-answer tests. -/
  | triKatRun (v : BitVec 32)
  /-- KAT_COMPLETE (R588): A known-answer test completes; its status is set and a failing unit is fenced. -/
  | katComplete (e : KatEngine) (bad : Option (Fin 11 × Nat))
  /-- TOL_ENABLE_WRITE (R137): TOL_CTRL.ENABLE returns to 1 and the reconstructions waiting at a deadline proceed. -/
  | tolEnableWrite (v : BitVec 32)
  /-- REFRESH_WAIT_EXPIRY (R350): A queued REFRESH waits WAIT_S seconds and completes with GROUP_INCOMPLETE. -/
  | refreshWaitExpiry (j : JobId)
  /-- NOP (R370): The control instruction NOP does nothing. -/
  | nop (x : CtxId)
  /-- END (R370): END waits for every issued operation, then ends the invocation with OK. -/
  | endRecipe (x : CtxId)
  /-- LOOP (R371): LOOP starts a counted loop body. -/
  | loop (x : CtxId)
  /-- ENDLOOP (R370): ENDLOOP closes the innermost loop iteration. -/
  | endLoop (x : CtxId)
  /-- MOVI (R370): MOVI loads an immediate into a pointer register. -/
  | movi (x : CtxId)
  /-- MOVHI (R370): MOVHI loads the upper 32 bits of a pointer register. -/
  | movhi (x : CtxId)
  /-- ADDI (R370): ADDI adds a sign-extended immediate to a pointer register. -/
  | addi (x : CtxId)
  /-- ADD (R370): ADD adds two pointer registers. -/
  | add (x : CtxId)
  /-- SHLI (R370): SHLI shifts a pointer register left. -/
  | shli (x : CtxId)
  /-- LDP (R370): LDP loads an 8-byte word from job memory into a pointer register. -/
  | ldp (x : CtxId)
  /-- SKIPZ (R370): SKIPZ skips words when a pointer register is zero. -/
  | skipz (x : CtxId)
  /-- SKIPNZ (R370): SKIPNZ skips words when a pointer register is non-zero. -/
  | skipnz (x : CtxId)
  /-- FENCE (R370): FENCE waits until every issued operation of the invocation has completed. -/
  | fence (x : CtxId)
  /-- WAIT_CNT (R374): WAIT_CNT holds the invocation until a completion counter reaches its target. -/
  | waitCnt (x : CtxId)
  /-- SIGNAL (R375): SIGNAL fences, then adds to a completion counter and releases the matching waits. -/
  | signal (x : CtxId)
  /-- WAIT_EVT (R376): WAIT_EVT holds the invocation until a Tide event fires. -/
  | waitEvt (x : CtxId)
  /-- MAC (R379): A MAC instruction starts a tile computation on a Press array. -/
  | mac (x : CtxId) (phys : Fin 8) (ready : Nat) (feedWait : Nat)
  /-- GATHER (R378): GATHER gathers embedding table rows by index through the feed. -/
  | gather (x : CtxId)
  /-- DRAIN (R378): DRAIN drains a tile with the shape of its latest MAC. -/
  | drain (x : CtxId)
  /-- LAYER (R381): LAYER sets the Wheel layer kind for later Press instructions. -/
  | layer (x : CtxId)
  /-- VOP (R382): VOP applies a near-memory operation element-wise over a vector. -/
  | vop (x : CtxId)
  /-- VCAS (R382): VCAS performs a compare-and-swap and returns the previous value. -/
  | vcas (x : CtxId)
  /-- VFILL (R382): VFILL fills a region with a repeated pattern. -/
  | vfill (x : CtxId)
  /-- VCOPY (R383): VCOPY copies whole lines, carrying poison along. -/
  | vcopy (x : CtxId)
  /-- SETTLE (R382): The firmware SETTLE instruction settles one cohort. -/
  | settle (x : CtxId)
  /-- EXCLUDE (R188): EXCLUDE subtracts an excluded cohort's addends exactly. -/
  | exclude (x : CtxId)
  /-- CHECK (R382): CHECK runs the Close linear check for one cohort. -/
  | checkCohort (x : CtxId)
  /-- ZERO_ROUND (R382): ZERO_ROUND zeroes the round structures. -/
  | zeroRound (x : CtxId)
  /-- MASKSUB (R384): MASKSUB streams a mask key into an accumulator, skipping void chunks. -/
  | maskSub (x : CtxId)
  /-- EXPAND (R384): EXPAND expands a seed into Rind's key stream. -/
  | expand (x : CtxId)
  /-- ECDH (R384): ECDH performs P-384 agreement between key handles. -/
  | ecdh (x : CtxId)
  /-- HKDF (R384): HKDF performs one key derivation between handles. -/
  | hkdf (x : CtxId)
  /-- RECON (R384): RECON reconstructs and checks a Shamir secret. -/
  | recon (x : CtxId)
  /-- SIGN (R384): SIGN produces an ECDSA P-384 signature with a key slot. -/
  | sign (x : CtxId)
  /-- KEYGEN (R384): KEYGEN generates a fresh P-384 key pair into a handle. -/
  | keyGen (x : CtxId)
  /-- WPASS (R385): WPASS runs the Wrap release path over a vector. -/
  | wpass (x : CtxId)
  /-- FINISH (R385): The FINISH instruction runs the Finish release path over one window. -/
  | finish (x : CtxId)
  /-- MASTER (R385): MASTER forms and converts the candidate master weights. -/
  | master (x : CtxId)
  /-- MAXI (R386): MAXI finds the largest element and its index. -/
  | maxi (x : CtxId)
  /-- MINI (R386): MINI finds the smallest element and its index. -/
  | mini (x : CtxId)
  /-- TOPK (R288): TOPK selects the k largest elements. -/
  | topk (x : CtxId)
  /-- BOTK (R288): BOTK selects the k smallest elements. -/
  | botk (x : CtxId)
  /-- FARTHEST (R386): FARTHEST runs the screening procedure. -/
  | farthest (x : CtxId)
  /-- CT_ADD (R387): CT_ADD adds two ciphertexts. -/
  | ctAdd (x : CtxId) (badRuns : Fin 3)
  /-- CT_SUB (R387): CT_SUB subtracts two ciphertexts. -/
  | ctSub (x : CtxId) (badRuns : Fin 3)
  /-- CT_MULC (R387): CT_MULC multiplies a ciphertext by an integer constant. -/
  | ctMulc (x : CtxId) (badRuns : Fin 3)
  /-- CT_PADD (R387): CT_PADD adds a scaled plaintext to a ciphertext. -/
  | ctPadd (x : CtxId) (badRuns : Fin 3)
  /-- MODSW (R387): MODSW switches a ciphertext to a lower level. -/
  | modsw (x : CtxId) (badRuns : Fin 3)
  /-- KSW (R338): KSW key-switches a batch of ciphertexts with one key entry. -/
  | ksw (x : CtxId) (badRuns : Fin 3)
  /-- REFRESH (R349): REFRESH queues a ciphertext for refresh through a decryption group. -/
  | refresh (x : CtxId)
  /-- EXPORT (R340): EXPORT key-switches and exports a cohort's sums to the group. -/
  | exportCt (x : CtxId) (badRuns : Fin 3) (g : Fin 4)
  /-- DECODE (R346): DECODE combines partial decryptions and decodes a cohort's ring sum. -/
  | decode (x : CtxId) (badRuns : Fin 3) (g : Fin 4)
  /-- INVOKE_TIMEOUT (R377): A descriptor invocation exceeds HIF_RCP_WDOG.MS and ends with TIMEOUT. -/
  | invokeTimeout (x : CtxId)
  /-- NOP_DESCRIPTOR (R414): A NOP descriptor completes with OK. -/
  | nopDescriptor (f : Func)
  /-- JOB_CREATE (R416): The JOB_CREATE descriptor checks the job's configuration and creates the job or refuses it. -/
  | jobCreate (host : Option Bytes)
  /-- JOB_TEARDOWN (R423): The JOB_TEARDOWN descriptor aborts the job's rounds, disables its rings and tears it down. -/
  | jobTeardown
  /-- JOB_ABORT (R591): The JOB_ABORT descriptor starts the job abort sequence. -/
  | jobAbort (f : Func)
  /-- ABORT_WAIT_DONE (R591): An aborting job's issued operations have all ended; its structures are zeroed, its keys are erased and its round ends are posted. -/
  | abortWaitDone (j : JobId)
  /-- RECIPE_LOAD (R361): The RECIPE_LOAD descriptor checks a recipe image and stores it into a loadable slot. -/
  | recipeLoad (host : Option Bytes)
  /-- ROUND_PLAN (R420): The ROUND_PLAN descriptor checks and places a round plan, assigns its number and arms its PHASE events. -/
  | roundPlan (j : JobId) (host : Option Bytes)
  /-- INVOKE (R364): The INVOKE descriptor checks and starts one recipe invocation. -/
  | invoke (j : JobId) (core : Option CoreInvoke)
  /-- KEY_LOAD (R417): The KEY_LOAD descriptor copies a Rind key-table image into the job's HBM. -/
  | keyLoad (j : JobId) (host : Option Bytes)
  /-- HELD_LOAD (R418): The HELD_LOAD descriptor loads, unwraps where needed and hashes the held-out set. -/
  | heldLoad (j : JobId) (host : Option Bytes)
  /-- DESCRIPTOR_FETCH (R429): The module fetches a descriptor once the completion ring has room. -/
  | descriptorFetch (f : Func) (d : Bytes)
  /-- DESCRIPTOR_FETCH_FAIL (R662): A descriptor fetch fails or returns poison, and a HOST_ACCESS completion with TAG 0 is posted. -/
  | descriptorFetchFail (f : Func)
  /-- SQ_TAIL_DOORBELL (R431): A write of HIF_VF_SQ_TAIL sets the fetch limit or raises SQ_ERR. -/
  | sqTailDoorbell (f : Func) (v : BitVec 32)
  /-- CQ_HEAD_DOORBELL (R432): A write of HIF_VF_CQ_HEAD frees completion entries or raises CQ_ERR. -/
  | cqHeadDoorbell (f : Func) (v : BitVec 32)
  /-- SQ_ENABLE (R412): Enabling a submission ring resets its head and tail and clears SQ_ERR. -/
  | sqEnable (f : Func) (v : BitVec 32)
  /-- CQ_ENABLE (R433): Enabling a completion ring resets its phase and CSEQ and posts any held completions. -/
  | cqEnable (f : Func) (v : BitVec 32)
  /-- RES_STAT_READ (R436): A read of HIF_VF_RES_STAT takes the oldest untaken round result, or reports NOT_READY or STALE. -/
  | resStatRead (j : JobId)
  /-- EVLOG_DATA_READ (R448): A read of EVLOG_DATA returns and removes the next word, or sets UNDERRUN. -/
  | evlogDataRead (f : Func)
  /-- EVLOG_FLUSH (R450): FLUSH discards the rest of a partly read record. -/
  | evlogFlush (f : Func) (v : BitVec 32)
  /-- EVLOG_FLUSH_ALL (R450): FLUSH_ALL discards every record in the log. -/
  | evlogFlushAll (f : Func) (v : BitVec 32)
  /-- FERRY_BLOCK_SEND (R442): A block-mode write of FERRY_TX_CTRL stores a message on the channel or sets BUSY. -/
  | ferryBlockSend (e : FerryEnd) (v : Word)
  /-- FERRY_NOTICE_SEND (R443): A notice-mode write of FERRY_TX_CTRL ORs the notice bits into the channel's notice word. -/
  | ferryNoticeSend (e : FerryEnd) (v : Word)
  /-- FERRY_TAKE (R442): A write of FERRY_RX_TAKE.BLOCK takes the held block and stores any send that firmware holds. -/
  | ferryTake (e : FerryEnd) (v : BitVec 32)
  /-- FERRY_NOTICE_READ (R443): A read of FERRY_RX_NOTICE returns and clears the notice word. -/
  | ferryNoticeRead (e : FerryEnd)
  /-- FERRY_RX_RESET (R444): A write of FERRY_CTRL.RX_RESET resets the inbound channel and marks the sender ABORTED. -/
  | ferryRxReset (e : FerryEnd) (v : BitVec 32)
  /-- HAIL_SEND (R445): Firmware opens a Hail session by sending HAIL to a host function. -/
  | hailSend (f : Func)
  /-- HAIL_ACK (R445): A HAIL_ACK is received; firmware answers with HAIL_DONE or HAIL_NAK. -/
  | hailAck (f : Func)
  /-- FIRMWARE_BLOCK_TAKE (R445): Firmware takes and discards any other block or notice that reaches one of its channels. -/
  | firmwareBlockTake (ch : Fin 64)
  /-- LINK_TRAIN (R399): The CXL link trains at x16 or x8 at 64 GT/s, or stays down and counts the failure. -/
  | linkTrain (lanes : Nat)
  /-- HDM_ACCESS (R406): A CXL.mem access reaches the HDM window, inside a region or refused outside every region. -/
  | hdmAccess (addr : Nat) (w : Option Bytes)
  /-- TRUST_LOSS (R410): IDE stops or a VF leaves the TSP locked state, and the confidential job is aborted. -/
  | trustLoss (vf : Option JobId)
  /-- TSP_LOCK (R560): A trusted guest's TSP lock request locks a VF. -/
  | tspLock (j : JobId)
  /-- VF_FLR (R632): A function-level reset of a VF disables its rings, empties its log, aborts its job, resets its channels and resets its page. -/
  | vfFlr (j : JobId)
  /-- PF0_FLR (R633): A function-level reset of PF0 disables the admin ring, cancels unstarted admin descriptors and resets its registers. -/
  | pf0Flr
  /-- PORT_FRAME (R454): A field-port frame is accepted for RoCEv2 or PTP, or dropped and counted. -/
  | portFrame (p : Port) (f : Frame)
  /-- UD_DATAGRAM (R468): A UD datagram passes the Q_Key check and is delivered, or is dropped. -/
  | udDatagram (p : Port) (d : Datagram)
  /-- RDMA_WRITE (R469): An RDMA WRITE request passes the request checks and is placed. -/
  | rdmaWrite (p : Packet)
  /-- RDMA_READ (R469): An RDMA READ request is checked and returns the lines. -/
  | rdmaRead (p : Packet)
  /-- ATOMIC_ADD (R469): An RDMA 64-bit atomic add performs GADD or ADD64 and returns the previous value. -/
  | atomicAdd (p : Packet) (x : Word)
  /-- COMPARE_AND_SWAP (R469): An RDMA compare-and-swap performs CAS64 outside the add window. -/
  | compareAndSwap (p : Packet) (cmp : Word) (swap : Word)
  /-- RDMA_FLUSH (R473): An RDMA FLUSH is answered once every earlier operation of its queue pair is applied. -/
  | rdmaFlush (p : Packet)
  /-- REQUESTER_POST (R476): Firmware posts requester work on a queue pair. -/
  | requesterPost (q : Qpn) (w : WorkReq)
  /-- REQUESTER_RESPONSE (R472): An acknowledgement or NAK reaches the requester and completes work or moves the queue pair to ERROR. -/
  | requesterResponse (q : Qpn) (psn : BitVec 24) (nak : Option Nak)
  /-- RETRANSMIT_TIMEOUT (R478): A requester timeout expires and the request is retransmitted or completes RETRY_EXCEEDED. -/
  | retransmitTimeout (q : Qpn)
  /-- QP_STATE_WRITE (R460): A STATE write of RDMA_QP_CFG moves a queue pair along an allowed transition. -/
  | qpStateWrite (v : Word)
  /-- QP_CONTEXT_LOAD (R461): A non-resident queue-pair context finishes loading and its held packets proceed. -/
  | qpContextLoad (q : Qpn)
  /-- REGION_REGISTER (R464): A write of RDMA_REG_CFG.REGISTER checks a region and makes it LIVE. -/
  | regionRegister (v : Word)
  /-- REGION_REVOKE (R483): A write of RDMA_REG_CFG.REVOKE moves a region to REVOKING. -/
  | regionRevoke (v : Word)
  /-- RIGHTS_LOWER (R485): Lowering RIGHTS on a LIVE region revokes the removed rights in two phases. -/
  | rightsLower (v : Word)
  /-- REVOKE_COMPLETE (R483): The last operation that passed the key check is placed, and the revocation completes. -/
  | revokeComplete (j : JobId) (region : Fin 4096)
  /-- REVOKE_CUTOFF (R484): WAIT_US expires and an unfinished WRITE is cut off from the revoked region. -/
  | revokeCutoff (j : JobId) (region : Fin 4096)
  /-- SQP_GEN_KEY (R488): GEN_KEY generates an ephemeral key pair for a sealed queue pair. -/
  | sqpGenKey (v : BitVec 32)
  /-- SQP_APPLY (R488): APPLY derives the sealed queue pair keys from the peer's point. -/
  | sqpApply (v : BitVec 32)
  /-- PTP_ANNOUNCE (R495): A PTP Announce is received and compared in the best-master selection. -/
  | ptpAnnounce (p : Port) (a : Announce)
  /-- PTP_SYNC (R499): A Sync and Follow_Up pair is accepted; the offset is measured and time is stepped or slewed. -/
  | ptpSync (p : Port) (m : SyncPair)
  /-- SYNC_LOSS_TIMEOUT (R496): No Sync is accepted for 2 s, or the Announce times out, and Tide enters HOLDOVER. -/
  | syncLossTimeout
  /-- HOLDOVER_LIMIT (R497): The holdover error estimate reaches LIMIT_US and Tide enters DOUBTFUL. -/
  | holdoverLimit
  /-- PPS_EDGE (R498): A 1PPS rising edge is used to discipline frequency or is rejected. -/
  | ppsEdge (err : Int)
  /-- USER_EVENT_FIRE (R504): A USER event table entry fires and releases its waits. -/
  | userEventFire (e : Fin 4096)
  /-- WAKE_EVENT_FIRE (R525): A WAKE entry fires and a sleeping domain begins to wake. -/
  | wakeEventFire (e : Fin 4096)
  /-- EVENT_ARM (R506): A write of TIDE_EVT_CFG.VALID = 1 re-arms an entry. -/
  | eventArm (v : Word)
  /-- EVENT_CANCEL (R506): A write of VALID = 0 cancels an entry and faults its waits. -/
  | eventCancel (v : Word)
  /-- MODE_CHANGE (R48): A PLT_MODE write changes the crossing mode within 1 ms. -/
  | modeChange (v : BitVec 32)
  /-- DVFS_TICK (R521): Every 100 µs the DVFS loop sets each cluster's rate. -/
  | dvfsTick (load : List ClusterLoad) (powerMw : List Nat)
  /-- PIN_WRITE (R514): A PLT_JOB_PIN write pins arrays or residency, or is refused. -/
  | pinWrite (v : BitVec 32)
  /-- PLACEMENT_MOVE (R512): Pilot moves a structure between the Vat and HBM. -/
  | placementMove (j : JobId) (r : RoundNo) (c : CohortId) (toHbm : Bool)
  /-- DOMAIN_STATE_DONE (R620): A power domain completes its entry to or exit from a power state. -/
  | domainStateDone (d : Fin 96)
  /-- KST_KEY_WRITE (R542): KST_WR_CTRL.GO stores a clear-text HMAC key into a PF0 slot or refuses. -/
  | kstKeyWrite (v : Word)
  /-- KST_KEY_ERASE (R542): KST_WR_CTRL.ERASE empties a PF0 slot. -/
  | kstKeyErase (v : Word)
  /-- KST_CHALLENGE (R543): KST_CHAL_CTRL.GO computes the HMAC challenge response. -/
  | kstChallenge (v : BitVec 32)
  /-- SVN_COMMIT (R534): A KST_SVN_COMMIT write blows fuse bits up to the running SVN. -/
  | svnCommit (v : BitVec 32)
  /-- UNIT_RESET (R547): A write of ENT_CTRL.UNIT_RESET puts the entropy unit into STARTUP. -/
  | unitReset (v : BitVec 32)
  /-- ENTROPY_STARTUP_DONE (R547): The entropy STARTUP ends in READY or FAILED and the waiting requests are served or failed. -/
  | entropyStartupDone (badLatches : BitVec 8) (kat : Bool)
  /-- HEALTH_WINDOW_PASS (R546): A 4.096 µs health window passes and its staged DRBG output is released. -/
  | healthWindowPass
  /-- HEALTH_TEST_FAIL (R548): A health test fails and the entropy unit enters FAILED, failing every pending request. -/
  | healthTestFail (latch : Fin 8) (apt : Bool)
  /-- DRBG_RESEED (R546): The DRBG reseeds every 1 ms or every 2^20 requests. -/
  | drbgReseed
  /-- PRIVATE_WIRE_REQUEST (R551): A consumer requests random bits on a wire. -/
  | wireRequest (w : Fin 8) (n : Nat)
  /-- ENT_SW_DATA_READ (R553): A read of ENT_SW_DATA returns and consumes 48 fresh bits or a status. -/
  | entSwDataRead (f : Func)
  /-- GET_VERSION (R558): The SPDM GET_VERSION request is answered. -/
  | getVersion (m : Bytes)
  /-- GET_CAPABILITIES (R558): The SPDM GET_CAPABILITIES request is answered. -/
  | getCapabilities (m : Bytes)
  /-- NEGOTIATE_ALGORITHMS (R558): The SPDM NEGOTIATE_ALGORITHMS request is answered. -/
  | negotiateAlgorithms (m : Bytes)
  /-- GET_DIGESTS (R558): The SPDM GET_DIGESTS request is answered. -/
  | getDigests (m : Bytes)
  /-- GET_CERTIFICATE (R558): The SPDM GET_CERTIFICATE request returns the slot 0 chain. -/
  | getCertificate (m : Bytes)
  /-- CHALLENGE (R558): The SPDM CHALLENGE request is answered with CHALLENGE_AUTH signed by the alias key. -/
  | challenge (m : Bytes)
  /-- GET_MEASUREMENTS (R558): The SPDM GET_MEASUREMENTS request returns the measurements and job reports. -/
  | getMeasurements (m : Bytes)
  /-- KEY_EXCHANGE (R558): The SPDM KEY_EXCHANGE request opens a secured session. -/
  | keyExchange (m : Bytes)
  /-- SPDM_FINISH (R558): The SPDM FINISH request completes session setup. -/
  | spdmFinish (m : Bytes)
  /-- KEY_UPDATE (R558): The SPDM KEY_UPDATE request updates the session keys. -/
  | keyUpdate (m : Bytes)
  /-- END_SESSION (R558): The SPDM END_SESSION request closes the session. -/
  | endSession (m : Bytes)
  /-- IDE_KM (R559): IDE stream keys are installed through IDE_KM inside a secured session. -/
  | ideKm (m : IdeKey)
  /-- INPUT_GOOD (R624): The input rises through 40 V and the power-up sequence runs. -/
  | inputGood (b : Boot)
  /-- RECOVERY_IMAGE_LOAD (R533): The recovery loader accepts an image over MCTP, checks it and writes it to bank A. -/
  | recoveryImageLoad (image : Bytes)
  /-- COLD_RESET_REQUEST (R630): A PWR_CTRL write with KEY and COLD_RESET starts a requested cold reset. -/
  | coldResetRequest (v : BitVec 32)
  /-- WARM_RESTART_REQUEST (R593): A PWR_CTRL write with KEY and WARM_RESTART starts a warm restart with round ends posted. -/
  | warmRestartRequest (v : BitVec 32)
  /-- ENGINE_RESET_REQUEST (R631): A PWR_CTRL write with KEY and ENGINE_RESET starts the reset of the named engine. -/
  | engineResetRequest (v : BitVec 32)
  /-- ENGINE_RESET_DONE (R592): An engine's issued Vat operations end and its ENGINE domain is cleared. -/
  | engineResetDone (e : Fin 9)
  /-- FIRMWARE_WATCHDOG (R593): The WS firmware watchdog of 500 ms expires and a warm restart begins. -/
  | firmwareWatchdog
  /-- MCTP_COLD_RESET (R647): An MCTP cold-reset command starts a cold reset. -/
  | mctpColdReset
  /-- CARRIER_RESET_PIN (R646): A low on CARRIER_RST# lasting 10 µs holds the module in cold reset until its release. -/
  | carrierResetPin (lowNs : Nat)
  /-- PERST_RESET (R628): A conventional link reset performs a warm restart and discards the IDE keys. -/
  | perstReset
  /-- BROWNOUT_TRIP (R615): Input below 38 V for 100 µs starts a cold reset with cause BROWNOUT. -/
  | brownoutTrip (mv : Nat) (us : Nat)
  /-- OVERPOWER_TRIP (R615): Input power above 2,800 W starts a cold reset with cause OVERPOWER. -/
  | overpowerTrip (watts : Nat)
  /-- OVERCURRENT_TRIP (R615): Input current above 70 A for 50 µs starts a cold reset with cause OVERCURRENT. -/
  | overcurrentTrip (ma : Nat) (us : Nat)
  /-- INPUT_OVERVOLTAGE (R615): Input above 63 V disconnects the input until it falls below 60 V. -/
  | inputOvervoltage (mv : Nat)
  /-- THERMAL_TRIP (R617): A die, HBM or coolant temperature trip starts a cold reset held until the module cools. -/
  | thermalTrip (t : Temps)
  /-- THERMAL_HOLD_RELEASE (R617): After a THERMAL trip the temperatures fall below their limits and the module powers up again. -/
  | thermalHoldRelease (t : Temps)
  /-- OPTICAL_OVERTEMP (R649): An optical engine reaches 80 °C, its laser turns off and its port is fenced. -/
  | opticalOvertemp (p : Port) (milliC : Int)
  /-- PORT_DOWN_TIMEOUT (R588): An enabled port's link stays down for 10 s and the port is fenced. -/
  | portDownTimeout (p : Port)
  /-- THROTTLE_STEP (R616): At a throttle limit the module lowers a cluster one rate step every 100 µs, and lifts the throttle one step per 1 ms after release. -/
  | throttleStep (m : Limits)
  /-- TEST_MODE_RISE (R651): TEST_MODE goes high and the module holds itself in cold reset in test mode. -/
  | testModeRise
  /-- TEST_MODE_FALL (R651): TEST_MODE falls and the module powers up with cause pin. -/
  | testModeFall
  /-- TAP_INSTRUCTION_LOAD (R652): The TAP loads an instruction, which may open or close a debug session. -/
  | tapInstructionLoad (ir : Byte) (scan : Option TapScan)
  /-- TEST_LOGIC_RESET (R650): The TAP enters Test-Logic-Reset, selecting IDCODE and closing any session. -/
  | testLogicReset (trst : Bool)
  /-- PMU_FREEZE (R603): A write of PMU_CTRL.FREEZE holds or releases every counter. -/
  | pmuFreeze (v : BitVec 32)
  /-- PMU_SNAPSHOT (R604): A write of PMU_CTRL.SNAPSHOT copies every counter into the shadows and increments SNAP_SEQ. -/
  | pmuSnapshot (v : BitVec 32)
  /-- PMU_CLEAR_ALL (R612): A write of PMU_CTRL.CLEAR_ALL zeroes every counter and OVF bit. -/
  | pmuClearAll (v : BitVec 32)
  /-- PMU_VALUE_WRITE (R603): A write of PMU_CNT_VALUE sets a counter while the counters are frozen. -/
  | pmuValueWrite (v : Word)
  /-- SAMP_ENABLE (R605): Setting PMU_CTRL.SAMP_EN zeroes the buffer indices and starts the sampling countdown. -/
  | sampEnable (v : BitVec 32)
  /-- SAMPLE_TAG (R605): The sampling countdown expires, an instruction is tagged or the expiry is skipped, and the countdown reloads. -/
  | sampleTag (x : CtxId) (pc : Fin 1024)
  /-- SAMPLE_RECORD_WRITE (R608): A tagged instruction's latency ends and its sample record is written or counted as lost. -/
  | sampleRecordWrite (n : Nat) (m : SampleMeasure)
  /-- SBUF_RD_WRITE (R609): A write of PMU_SBUF_RD frees sample buffer records. -/
  | sbufRdWrite (v : BitVec 32)
  /-- VF_GRANT_WRITE (R611): A write of PMU_VF_GRANT grants counter reads to a VF, ignored for a confidential job's VF. -/
  | vfGrantWrite (v : Word)
  /-- RCL_READ (R16): A read of an RCL field returns its value and clears it. -/
  | rclRead (f : Func) (off : Nat) (size : Nat)
  /-- REGISTER_WRITE (R14): A write to a register with no row of its own acts under its access codes. -/
  | registerWrite (f : Func) (off : Nat) (size : Nat) (v : Word)
  /-- CARRIER_RESET_RELEASE (R646): CARRIER_RST# is released after a qualifying low, and the module leaves cold reset and powers up with cause pin. -/
  | carrierResetRelease
  /-- INPUT_OVERVOLTAGE_RELEASE (R615): After an overvoltage disconnect the input falls below 60 V, the input is reconnected and the module starts up again. -/
  | inputOvervoltageRelease (mv : Nat)
  /-- FIELD_PORT_LINK_CHANGE (R627): A field port's link comes up with a present partner or goes down, changing LND_STATUS.PORT_UP and starting or stopping the 10 s down timer. -/
  | fieldPortLinkChange (p : Port) (up : Bool)
  /-- UNKNOWN_TYPE_CHUNK (R55): A client chunk of an undefined type or of a module-sent type arrives and is refused MALFORMED with an ACK. -/
  | unknownTypeChunk (q : Qpn) (stamp : Time) (c : Bytes)
  /-- ISSUED_WORK_COMPLETE (R369): Engine work that an instruction issued completes, possibly with a status, releasing FENCE, SIGNAL and END waits or ending the invocation with ENGINE_STATUS. -/
  | issuedWorkComplete (x : CtxId) (op : Nat)
  /-- DENIED_REGISTER_READ (R19): A register read outside the VF's permitted set, or of the wrong size, returns zero and is counted in HIF_VF_ACC with ACC_EV set. -/
  | deniedRegisterRead (f : Func) (off : Nat) (size : Nat)
  /-- PMU_COUNTER_WRAP (R601): A programmable counter passes 2^48 − 1, wraps and sets OVF and PMU_EVENT.OVF_EV. -/
  | pmuCounterWrap (i : Fin 40) (n : Nat)
  /-- FAILURE_WINDOW_EXPIRY (R581): A check failure leaves the 24-hour window, lowering FAILS_24H and the TRIER loop's wanted fraction. -/
  | failureWindowExpiry (j : JobId)
  deriving DecidableEq, Repr

end Sys2Proof
end

