-- ==== Sys2Proof/Machine/Catalogue.lean ====
section
/-! DEFINITION. The parameter-set catalogue, version 1 (R314): for each set its dimension N, its Γ-primes and P-primes as the rule selects them, its digits, its export level and its residue width. -/

namespace Sys2Proof.Machine

/-- A parameter set: N, the Γ-primes, the P-primes, the digits, the export level and the residue width. -/
structure PSet where
  n : Nat
  gam : List Nat
  kap : List Nat
  digits : Nat
  exp : Nat
  delta : Nat
  deriving DecidableEq, Repr

/-- Set 0x01: N = 16384. -/
def pset1 : PSet where
  n := 16384
  gam := [576460752302473217, 576460752302080001, 576460752301785089]
  kap := [1152921504606748673]
  digits := 3
  exp := 2
  delta := 8

/-- Set 0x02: N = 16384. -/
def pset2 : PSet where
  n := 16384
  gam := [1073643521, 1073479681, 1073184769, 1073053697, 1072857089, 1072496641]
  kap := [2147352577, 2146959361]
  digits := 3
  exp := 4
  delta := 4

/-- Set 0x03: N = 32768. -/
def pset3 : PSet where
  n := 32768
  gam := [576460752301785089, 576460752301391873, 576460752300015617, 576460752298835969, 576460752298180609, 576460752293134337]
  kap := [1152921504606584833, 1152921504598720513]
  digits := 3
  exp := 2
  delta := 8

/-- Set 0x04: N = 32768. -/
def pset4 : PSet where
  n := 32768
  gam := [1073479681, 1072496641, 1071513601, 1070727169, 1069219841, 1068564481, 1068433409, 1068236801, 1065811969, 1065484289, 1064697857, 1063452673]
  kap := [2147352577, 2146959361, 2146041857, 2145976321]
  digits := 3
  exp := 4
  delta := 4

/-- Set 0x05: N = 65536. -/
def pset5 : PSet where
  n := 65536
  gam := [576460752300015617, 576460752298835969, 576460752298180609, 576460752289923073, 576460752289529857, 576460752289005569, 576460752286253057,
    576460752284418049, 576460752279306241, 576460752273801217, 576460752272228353, 576460752267509761]
  kap := [1152921504606584833, 1152921504598720513, 1152921504597016577, 1152921504595968001]
  digits := 3
  exp := 2
  delta := 8

/-- Set 0x06: N = 65536. -/
def pset6 : PSet where
  n := 65536
  gam := [1073479681, 1071513601, 1070727169, 1068236801, 1065484289, 1064697857, 1062862849, 1062469633, 1060765697, 1056440321, 1056178177, 1055260673,
    1054212097, 1053818881, 1052508161, 1051721729, 1049100289, 1048707073, 1045430273, 1043464193, 1042415617, 1040842753, 1040056321, 1038745601,
    1037303809, 1036779521, 1034813441, 1032192001, 1031667713, 1030619137, 1029308417, 1026686977, 1026162689, 1023148033, 1021444097, 1019609089]
  kap := [2147352577, 2146959361, 2146041857, 2144468993, 2142502913, 2135818241, 2135162881, 2135031809, 2134638593, 2132279297, 2130706433, 2130444289]
  digits := 3
  exp := 4
  delta := 4

/-- The set of an identifier; none outside the catalogue. -/
def psetOf : Nat → Option PSet
  | 1 => some pset1
  | 2 => some pset2
  | 3 => some pset3
  | 4 => some pset4
  | 5 => some pset5
  | 6 => some pset6
  | _ => none

end Sys2Proof.Machine
end

