-- ==== Sys2Proof/Machine/Bytes.lean ====
section
/-! DEFINITION. Byte strings read and written as numbers, in the two byte orders of spec/00_scope.md R7, R8 and R661. -/

namespace Sys2Proof.Machine

/-- A byte string as a big-endian number (R7). -/
def beNat (bs : Bytes) : Nat := bs.foldl (fun a b => a * 256 + b.toNat) 0

/-- A byte string as a little-endian number (R8). -/
def leNat : Bytes → Nat
  | [] => 0
  | b :: bs => b.toNat + 256 * leNat bs

/-- The `n` bytes of a number, little-endian. -/
def toLe : Nat → Nat → Bytes
  | 0, _ => []
  | n + 1, v => BitVec.ofNat 8 v :: toLe n (v / 256)

/-- The `n` bytes of a number, big-endian. -/
def toBe (n v : Nat) : Bytes := (toLe n v).reverse

/-- `n` bytes from an offset; bytes beyond the end read as zero. -/
def slice (bs : Bytes) (off n : Nat) : Bytes := (List.range n).map (fun i => bs.getD (off + i) 0)

/-- The big-endian field of `n` bytes at an offset. -/
def beAt (bs : Bytes) (off n : Nat) : Nat := beNat (slice bs off n)

/-- The little-endian field of `n` bytes at an offset. -/
def leAt (bs : Bytes) (off n : Nat) : Nat := leNat (slice bs off n)

/-- `n` zero bytes. -/
def zeros (n : Nat) : Bytes := List.replicate n 0

/-- Whether `n` bytes from an offset are all zero. -/
def zeroAt (bs : Bytes) (off n : Nat) : Bool := (slice bs off n).all (· == 0)

/-- The bytes of an ASCII string. -/
def ascii (t : String) : Bytes := t.toList.map (fun c => BitVec.ofNat 8 c.toNat)

/-- Bits `hi` down to `lo` of a number. -/
def bits (v hi lo : Nat) : Nat := v / 2 ^ lo % 2 ^ (hi + 1 - lo)

/-- Bit `n` of a number. -/
def bit (v n : Nat) : Bool := v / 2 ^ n % 2 == 1

/-- A number below `2 ^ w` read as two's complement. -/
def signed (w v : Nat) : Int := if v < 2 ^ (w - 1) then (v : Int) else (v : Int) - 2 ^ w

/-- An integer as a number modulo `2 ^ w`. -/
def unsignedOf (w : Nat) (v : Int) : Nat := (v % (2 ^ w : Int)).toNat

/-- The exclusive or of two byte strings, as long as the shorter. -/
def xorBytes (a b : Bytes) : Bytes := List.zipWith (· ^^^ ·) a b

/-- The bytes of a digest, first byte first. -/
def digestBytes (d : Digest) : Bytes := toBe 48 d.toNat

/-- The bytes of a 256-bit key. -/
def keyBytes (k : Key256) : Bytes := toBe 32 k.toNat

/-- A 256-bit key from its bytes. -/
def keyOf (bs : Bytes) : Key256 := BitVec.ofNat 256 (beNat bs)

/-- Register n of a group that holds a byte string: bytes 8n to 8n + 7, byte 8n in bits 7:0 (R661). -/
def group64 (bs : Bytes) (n : Nat) : Nat := leAt bs (8 * n) 8

/-- A byte string cut into pieces of `n` bytes; at most `fuel` pieces. -/
def chunksOf (n : Nat) : Nat → Bytes → List Bytes
  | 0, _ => []
  | fuel + 1, bs => if bs.isEmpty then [] else bs.take n :: chunksOf n fuel (bs.drop n)

end Sys2Proof.Machine
end

