-- ==== Sys2Proof/Machine/Crypto.lean ====
section
/-! DEFINITION. The published algorithms that spec/00_scope.md R25 names and the manual's protocols use: SHA-384 (FIPS 180-4), HMAC (FIPS 198-1), HKDF (RFC 5869), ChaCha20 (RFC 8439), AES-256 (FIPS 197) in GCM, P-384 with ECDH and deterministic ECDSA (FIPS 186-5). PRESUMED: taken from those standards, not from the manual (assumption 10). -/

namespace Sys2Proof.Machine

/-- Rounds 0 to 79 of SHA-384: the constants of FIPS 180-4. -/
def shaK : List (BitVec 64) := List.flatten [
  [0x428a2f98d728ae22, 0x7137449123ef65cd, 0xb5c0fbcfec4d3b2f, 0xe9b5dba58189dbbc,
   0x3956c25bf348b538, 0x59f111f1b605d019, 0x923f82a4af194f9b, 0xab1c5ed5da6d8118,
   0xd807aa98a3030242, 0x12835b0145706fbe, 0x243185be4ee4b28c, 0x550c7dc3d5ffb4e2,
   0x72be5d74f27b896f, 0x80deb1fe3b1696b1, 0x9bdc06a725c71235, 0xc19bf174cf692694,
   0xe49b69c19ef14ad2, 0xefbe4786384f25e3, 0x0fc19dc68b8cd5b5, 0x240ca1cc77ac9c65],
  [0x2de92c6f592b0275, 0x4a7484aa6ea6e483, 0x5cb0a9dcbd41fbd4, 0x76f988da831153b5,
   0x983e5152ee66dfab, 0xa831c66d2db43210, 0xb00327c898fb213f, 0xbf597fc7beef0ee4,
   0xc6e00bf33da88fc2, 0xd5a79147930aa725, 0x06ca6351e003826f, 0x142929670a0e6e70,
   0x27b70a8546d22ffc, 0x2e1b21385c26c926, 0x4d2c6dfc5ac42aed, 0x53380d139d95b3df,
   0x650a73548baf63de, 0x766a0abb3c77b2a8, 0x81c2c92e47edaee6, 0x92722c851482353b],
  [0xa2bfe8a14cf10364, 0xa81a664bbc423001, 0xc24b8b70d0f89791, 0xc76c51a30654be30,
   0xd192e819d6ef5218, 0xd69906245565a910, 0xf40e35855771202a, 0x106aa07032bbd1b8,
   0x19a4c116b8d2d0c8, 0x1e376c085141ab53, 0x2748774cdf8eeb99, 0x34b0bcb5e19b48a8,
   0x391c0cb3c5c95a63, 0x4ed8aa4ae3418acb, 0x5b9cca4f7763e373, 0x682e6ff3d6b2b8a3,
   0x748f82ee5defb2fc, 0x78a5636f43172f60, 0x84c87814a1f0ab72, 0x8cc702081a6439ec],
  [0x90befffa23631e28, 0xa4506cebde82bde9, 0xbef9a3f7b2c67915, 0xc67178f2e372532b,
   0xca273eceea26619c, 0xd186b8c721c0c207, 0xeada7dd6cde0eb1e, 0xf57d4f7fee6ed178,
   0x06f067aa72176fba, 0x0a637dc5a2c898a6, 0x113f9804bef90dae, 0x1b710b35131c471b,
   0x28db77f523047d84, 0x32caab7b40c72493, 0x3c9ebe0a15c9bebc, 0x431d67c49c100d4c,
   0x4cc5d4becb3e42b6, 0x597f299cfc657e2a, 0x5fcb6fab3ad6faec, 0x6c44198c4a475817]]

/-- The initial hash value of SHA-384. -/
def shaInit : List (BitVec 64) :=
  [0xcbbb9d5dc1059ed8, 0x629a292a367cd507, 0x9159015a3070dd17, 0x152fecd8f70e5939,
   0x67332667ffc00b31, 0x8eb44a8768581511, 0xdb0c2e0d64f98fa7, 0x47b5481dbefa4fa4]

/-- A message padded to a multiple of 128 bytes. -/
def shaPad (m : Bytes) : Bytes :=
  m ++ [0x80] ++ zeros ((239 - m.length % 128) % 128) ++ toBe 16 (8 * m.length)

/-- The next message-schedule word, from the sixteen before it (latest first). -/
def shaNextW (w : List (BitVec 64)) : BitVec 64 :=
  let g := fun i => w.getD i 0
  let s0 := (g 14).rotateRight 1 ^^^ (g 14).rotateRight 8 ^^^ (g 14) >>> 7
  let s1 := (g 1).rotateRight 19 ^^^ (g 1).rotateRight 61 ^^^ (g 1) >>> 6
  g 15 + s0 + g 6 + s1

/-- The message schedule, latest word first, extended by `n` words. -/
def shaExtend : Nat → List (BitVec 64) → List (BitVec 64)
  | 0, w => w
  | n + 1, w => shaExtend n (shaNextW w :: w)

/-- One round on the working variables a to h. -/
def shaRound (v : List (BitVec 64)) (kw : BitVec 64) : List (BitVec 64) :=
  match v with
  | [a, b, c, d, e, f, g, h] =>
    let s1 := e.rotateRight 14 ^^^ e.rotateRight 18 ^^^ e.rotateRight 41
    let ch := (e &&& f) ^^^ (~~~e &&& g)
    let t1 := h + s1 + ch + kw
    let s0 := a.rotateRight 28 ^^^ a.rotateRight 34 ^^^ a.rotateRight 39
    let mj := (a &&& b) ^^^ (a &&& c) ^^^ (b &&& c)
    [t1 + (s0 + mj), a, b, c, d + t1, e, f, g]
  | _ => v

/-- One 128-byte block taken into the hash value. -/
def shaBlock (h : List (BitVec 64)) (blk : Bytes) : List (BitVec 64) :=
  let w0 := (List.range 16).map (fun i => BitVec.ofNat 64 (beAt blk (8 * i) 8))
  let w := (shaExtend 64 w0.reverse).reverse
  List.zipWith (· + ·) h ((List.zipWith (· + ·) shaK w).foldl shaRound h)

/-- SHA-384 of a byte string (FIPS 180-4). -/
def sha384 (m : Bytes) : Digest :=
  let h := (chunksOf 128 (m.length / 128 + 2) (shaPad m)).foldl shaBlock shaInit
  BitVec.ofNat 384 ((h.take 6).foldl (fun a w => a * 2 ^ 64 + w.toNat) 0)

/-- HMAC-SHA-384 (FIPS 198-1). -/
def hmac (key msg : Bytes) : Bytes :=
  let k := if key.length ≤ 128 then key else digestBytes (sha384 key)
  let k := k ++ zeros (128 - k.length)
  digestBytes (sha384 (k.map (· ^^^ 0x5c) ++ digestBytes (sha384 (k.map (· ^^^ 0x36) ++ msg))))

/-- HKDF-Extract with SHA-384 (RFC 5869). -/
def hkdfExtract (salt ikm : Bytes) : Bytes := hmac salt ikm

/-- HKDF-Expand with SHA-384 for at most 48 bytes (RFC 5869). -/
def hkdfExpand (prk info : Bytes) (n : Nat) : Bytes := (hmac prk (info ++ [1])).take n

/-- The quarter round of ChaCha20 on words a, b, c, d of the state (RFC 8439). -/
def quarter (s : List (BitVec 32)) (ia ib ic id : Nat) : List (BitVec 32) :=
  let a := s.getD ia 0
  let b := s.getD ib 0
  let c := s.getD ic 0
  let d := s.getD id 0
  let a := a + b
  let d := (d ^^^ a).rotateLeft 16
  let c := c + d
  let b := (b ^^^ c).rotateLeft 12
  let a := a + b
  let d := (d ^^^ a).rotateLeft 8
  let c := c + d
  let b := (b ^^^ c).rotateLeft 7
  (((s.set ia a).set ib b).set ic c).set id d

/-- A column round and a diagonal round. -/
def doubleRound (s : List (BitVec 32)) : List (BitVec 32) :=
  let s := quarter (quarter (quarter (quarter s 0 4 8 12) 1 5 9 13) 2 6 10 14) 3 7 11 15
  quarter (quarter (quarter (quarter s 0 5 10 15) 1 6 11 12) 2 7 8 13) 3 4 9 14

/-- A function applied `n` times. -/
def times {α : Type} (f : α → α) : Nat → α → α
  | 0, a => a
  | n + 1, a => times f n (f a)

/-- The 64-byte ChaCha20 block of a key, a 12-byte nonce and a block counter (RFC 8439). -/
def chachaBlock (key : Key256) (nonce : Bytes) (ctr : Nat) : Bytes :=
  let word := fun (bs : Bytes) i => BitVec.ofNat 32 (leAt bs (4 * i) 4)
  let kb := keyBytes key
  let s : List (BitVec 32) := [0x61707865, 0x3320646e, 0x79622d32, 0x6b206574]
    ++ (List.range 8).map (word kb) ++ [BitVec.ofNat 32 ctr] ++ (List.range 3).map (word nonce)
  (List.zipWith (· + ·) s (times doubleRound 10 s)).flatMap (fun w => toLe 4 w.toNat)

/-- The AES S-box: entry i is byte i of this number. -/
def aesSboxN : Nat := 0x16bb54b00f2d99416842e6bf0d89a18cdf2855cee9871e9b948ed9691198f8e19e1dc186b95735610ef6034866b53e708a8bbd4b1f74dde8c6b4a61c2e2578ba08ae7a65eaf4566ca94ed58d6d37c8e779e4959162acd3c25c2406490a3a32e0db0b5ede14b8ee4688902a22dc4f816073195d643d7ea7c41744975fec130ccdd2f3ff1021dab6bcf5389d928f40a351a89f3c507f02f94585334d43fbaaefd0cf584c4a39becb6a5bb1fc20ed00d153842fe329b3d63b52a05a6e1b1a2c830975b227ebe28012079a059618c323c7041531d871f1e5a534ccf73f362693fdb7c072a49cafa2d4adf04759fa7dc982ca76abd7fe2b670130c56f6bf27b777c63

/-- The AES S-box (FIPS 197). -/
def aesSub (b : Byte) : Byte := BitVec.ofNat 8 (aesSboxN / 2 ^ (8 * b.toNat))

/-- Multiplication by x in the field of AES. -/
def xtime (b : Byte) : Byte := (b <<< 1) ^^^ (if b.msb then 0x1b else 0)

/-- A word of the key schedule from the words before it, latest first; `i` is its number. -/
def aesKeyWord (ws : List Bytes) (i : Nat) : Bytes :=
  let prev := ws.getD 0 []
  let t :=
    if i % 8 = 0 then
      xorBytes ((prev.drop 1 ++ prev.take 1).map aesSub) [times xtime (i / 8 - 1) 1, 0, 0, 0]
    else if i % 8 = 4 then prev.map aesSub else prev
  xorBytes (ws.getD 7 []) t

/-- The fifteen round keys of AES-256. -/
def aesRoundKeys (key : Bytes) : List Bytes :=
  let w0 := ((List.range 8).map (fun i => slice key (4 * i) 4)).reverse
  let ws := ((List.range 52).foldl (fun ws i => aesKeyWord ws (i + 8) :: ws) w0).reverse
  (List.range 15).map (fun r => (List.range 4).flatMap (fun c => ws.getD (4 * r + c) []))

/-- ShiftRows on the sixteen bytes in column order. -/
def aesShiftRows (s : Bytes) : Bytes :=
  (List.range 16).map (fun i => s.getD ((i + 4 * (i % 4)) % 16) 0)

/-- MixColumns on one column. -/
def aesMixColumn (c : Bytes) : Bytes :=
  (List.range 4).map (fun i =>
    let a := fun k => c.getD ((i + k) % 4) 0
    xtime (a 0) ^^^ (xtime (a 1) ^^^ a 1) ^^^ a 2 ^^^ a 3)

/-- One AES-256 block (FIPS 197). -/
def aesBlock (key blk : Bytes) : Bytes :=
  let rk := aesRoundKeys key
  let s0 := xorBytes blk (rk.getD 0 [])
  let s13 := (List.range 13).foldl (fun s r =>
    let t := aesShiftRows (s.map aesSub)
    xorBytes ((List.range 4).flatMap (fun c => aesMixColumn (slice t (4 * c) 4))) (rk.getD (r + 1) [])) s0
  xorBytes (aesShiftRows (s13.map aesSub)) (rk.getD 14 [])

/-- Multiplication in the field of GHASH; bit 127 of a block is its first bit. -/
def ghashMul (x y : BitVec 128) : BitVec 128 :=
  ((List.range 128).foldl (fun (zv : BitVec 128 × BitVec 128) i =>
    (if x.getLsbD (127 - i) then zv.1 ^^^ zv.2 else zv.1,
     (zv.2 >>> 1) ^^^ (if zv.2.getLsbD 0 then 0xE1000000000000000000000000000000 else 0))) (0, y)).1

/-- GHASH of a byte string under a hash key; a last block that is short is filled with zeros. -/
def ghash (h : BitVec 128) (bs : Bytes) : BitVec 128 :=
  (chunksOf 16 (bs.length / 16 + 1) bs).foldl
    (fun y b => ghashMul (y ^^^ BitVec.ofNat 128 (beNat (slice b 0 16))) h) 0

/-- A byte string filled with zeros to a multiple of sixteen bytes. -/
def padTo16 (bs : Bytes) : Bytes := bs ++ zeros ((16 - bs.length % 16) % 16)

/-- The CTR keystream of GCM applied to a byte string, from counter 2. -/
def gcmCtr (key nonce text : Bytes) : Bytes :=
  let ks := (List.range (text.length / 16 + 1)).flatMap (fun i => aesBlock key (nonce ++ toBe 4 (i + 2)))
  xorBytes text ks

/-- The 16-byte GCM tag of associated data and a ciphertext. -/
def gcmTag (key nonce aad ct : Bytes) : Bytes :=
  let h := BitVec.ofNat 128 (beNat (aesBlock key (zeros 16)))
  let s := ghash h (padTo16 aad ++ padTo16 ct ++ toBe 8 (8 * aad.length) ++ toBe 8 (8 * ct.length))
  xorBytes (toBe 16 s.toNat) (aesBlock key (nonce ++ toBe 4 1))

/-- AES-256-GCM encryption: the ciphertext and its tag. -/
def gcmSeal (key : Key256) (nonce aad pt : Bytes) : Bytes × Bytes :=
  let ct := gcmCtr (keyBytes key) nonce pt
  (ct, gcmTag (keyBytes key) nonce aad ct)

/-- AES-256-GCM decryption: the plaintext when the tag verifies. -/
def gcmOpen (key : Key256) (nonce aad ct tag : Bytes) : Option Bytes :=
  if gcmTag (keyBytes key) nonce aad ct = tag then some (gcmCtr (keyBytes key) nonce ct) else none

/-- The field prime of P-384. -/
def p384P : Nat := 2 ^ 384 - 2 ^ 128 - 2 ^ 96 + 2 ^ 32 - 1

/-- The order of the P-384 base point. -/
def p384N : Nat := 0xffffffffffffffffffffffffffffffffffffffffffffffffc7634d81f4372ddf581a0db248b0a77aecec196accc52973

/-- The coefficient b of P-384. -/
def p384B : Nat := 0xb3312fa7e23ee7e4988e056be3f82d19181d9c6efe8141120314088f5013875ac656398d8a2ed19d2a85c8edd3ec2aef

/-- A point of P-384; `none` is the point at infinity. -/
abbrev Pt := Option (Nat × Nat)

/-- The base point of P-384. -/
def p384G : Pt :=
  some (0xaa87ca22be8b05378eb1c71ef320ad746e1d3b628ba79b9859f741e082542a385502f25dbf55296c3a545e3872760ab7,
    0x3617de4a96262c6f5d9e98bf9292dc29f8f41dbd289a147ce9da3113b5f0b8c00a60b1ce1d7e819d7a431d7c90ea0e5f)

/-- `a ^ e mod m` for an exponent below `2 ^ 384`. -/
def powMod (a e m : Nat) : Nat :=
  (List.range 384).foldl (fun r i => let r := r * r % m; if bit e (383 - i) then r * a % m else r) (1 % m)

/-- The inverse modulo a prime. -/
def invMod (a m : Nat) : Nat := powMod (a % m) (m - 2) m

/-- The sum of two points of P-384. -/
def ptAdd : Pt → Pt → Pt
  | none, q => q
  | p, none => p
  | some (x1, y1), some (x2, y2) =>
    let p := p384P
    if x1 = x2 ∧ (y1 + y2) % p = 0 then none
    else
      let l := if x1 = x2 then (3 * x1 * x1 + (p - 3)) * invMod (2 * y1) p % p
        else (y2 + p - y1) * invMod (x2 + p - x1) p % p
      let x3 := (l * l + 2 * p - x1 - x2) % p
      some (x3, (l * (x1 + p - x3) + p - y1) % p)

/-- A multiple of a point, by a scalar below `2 ^ 384`. -/
def ptMul (k : Nat) (q : Pt) : Pt :=
  (List.range 384).foldl (fun r i => let r := ptAdd r r; if bit k (383 - i) then ptAdd r q else r) none

/-- Whether coordinates name a point of the curve. -/
def onCurve (x y : Nat) : Bool :=
  decide (x < p384P) && decide (y < p384P) && decide (y * y % p384P = (x * x * x + (p384P - 3) * x + p384B) % p384P)

/-- The 97 bytes 0x04 ‖ X ‖ Y read as a point of the curve; `none` when they name none. -/
def decodePt (bs : Bytes) : Option (Nat × Nat) :=
  let x := beAt bs 1 48
  let y := beAt bs 49 48
  if bs.length = 97 ∧ bs.getD 0 0 = 4 ∧ onCurve x y then some (x, y) else none

/-- A point as the 97 bytes 0x04 ‖ X ‖ Y. -/
def encodePt : Pt → Bytes
  | none => zeros 97
  | some (x, y) => [4] ++ toBe 48 x ++ toBe 48 y

/-- The 49-byte compressed form decoded: the point whose y has the parity that byte 0 names. -/
def decodeCompressed (bs : Bytes) : Option (Nat × Nat) :=
  let x := beAt bs 1 48
  let y0 := powMod ((x * x * x + (p384P - 3) * x + p384B) % p384P) ((p384P + 1) / 4) p384P
  let b0 := (bs.getD 0 0).toNat
  let y := if y0 % 2 = b0 % 2 then y0 else p384P - y0
  if bs.length = 49 ∧ (b0 = 2 ∨ b0 = 3) ∧ onCurve x y then some (x, y) else none

/-- The public point of a private key. -/
def publicOf (d : Nat) : Bytes := encodePt (ptMul d p384G)

/-- The x coordinate that P-384 agreement gives, as 48 big-endian bytes. -/
def ecdhX (d : Nat) (pub : Nat × Nat) : Bytes :=
  match ptMul d (some pub) with
  | some (x, _) => toBe 48 x
  | none => zeros 48

/-- The per-signature secret of deterministic ECDSA, from the HMAC state; at most `fuel` tries. -/
def ecdsaNonce : Nat → Bytes → Bytes → Nat
  | 0, _, v => beNat v % (p384N - 1) + 1
  | fuel + 1, k, v =>
    let v := hmac k v
    let c := beNat v
    if 1 ≤ c ∧ c < p384N then c
    else
      let k := hmac k (v ++ [0])
      ecdsaNonce fuel k (hmac k v)

/-- The deterministic ECDSA P-384 signature r ‖ s of a digest (FIPS 186-5). -/
def ecdsaSign (d : Nat) (h : Digest) : Bytes :=
  let x := toBe 48 d ++ toBe 48 (h.toNat % p384N)
  let v0 : Bytes := List.replicate 48 1
  let k1 := hmac (zeros 48) (v0 ++ [0] ++ x)
  let v1 := hmac k1 v0
  let k2 := hmac k1 (v1 ++ [1] ++ x)
  let k := ecdsaNonce 8 k2 (hmac k2 v1)
  let r := match ptMul k p384G with
    | some (x, _) => x % p384N
    | none => 0
  let s := invMod k p384N * (h.toNat + r * d) % p384N
  toBe 48 r ++ toBe 48 s

/-- Whether r ‖ s is an ECDSA P-384 signature of a digest under a public point. -/
def ecdsaVerify (pub : Nat × Nat) (h : Digest) (sig : Bytes) : Bool :=
  let r := beAt sig 0 48
  let s := beAt sig 48 48
  let w := invMod s p384N
  let pt := ptAdd (ptMul (h.toNat * w % p384N) p384G) (ptMul (r * w % p384N) (some pub))
  decide (sig.length = 96) && decide (1 ≤ r) && decide (r < p384N) && decide (1 ≤ s) && decide (s < p384N) &&
    (match pt with
      | some (x, _) => decide (x % p384N = r)
      | none => false)

end Sys2Proof.Machine
end

