-- ==== Sys2Proof/Config.lean ====
section
/-! DEFINITION. What one module fixes and the spec does not, and the free values: every constant here is opaque, so that nothing proved of the model rests on a number for it (assumptions 1, 4 to 9). -/

namespace Sys2Proof

/-- A layer of a Wheel model (R249): its kind; the rows, columns, Press format and block direction of its weights; the outputs of earlier layers that it takes, 0 for the held-out input; and the Wrap record that its outputs pass under. -/
structure WheelLayer where
  kind : Nat
  rows : Nat
  cols : Nat
  fmt : Nat
  kdim : Bool
  input : Nat
  stream : Nat
  record : Bytes
  deriving DecidableEq, Repr

/-- The weights of a layer: a RESIDUAL layer has none. -/
def WheelLayer.params (l : WheelLayer) : Nat := if l.kind = 3 then 0 else l.rows * l.cols

end Sys2Proof

namespace Sys2Proof.Config

/-- The random draw number `n` of the DRBG (R546, R551). -/
opaque draw : Nat → BitVec 512

/-- Draw `n` of the discrete Gaussian with the variance of a policy, `num / den` (R277). -/
opaque gauss (n num den : Nat) : Int

/-- A value that the spec leaves open, number `n` (assumption 5). -/
opaque free : Nat → BitVec 64

/-- The value `draw` of the free-running LFSR that follows another (R605). -/
opaque lfsrNext : BitVec 16 → BitVec 16

/-- The error that Wrap makes of a binary64 value under SiLU, or under GELU-tanh, in steps of 2^-63 relative to the function; 2^23 is none (R268, assumption 88). -/
opaque actError (gelu : Bool) (x : BitVec 64) : Fin (2 ^ 24)

/-- How many of the two runs of Rind's internal operation number `n` fail a residue check (R330). -/
opaque residueBad : Nat → Fin 3

/-- The module serial number (KST_ID.SERIAL, R660). -/
opaque serial : BitVec 64

/-- The unique device secret (R528). -/
opaque uds : BitVec 256

/-- The SHA-384 digest of the boot ROM (R529). -/
opaque romDigest : BitVec 384

/-- The fused hash of the firmware-signing key of an index (R532). -/
opaque keyFuse : Fin 2 → BitVec 384

/-- The revoke fuse of a firmware-signing key (R532). -/
opaque revoked : Fin 2 → Bool

/-- The key slots that failed manufacturing test (R538). -/
opaque fusedBad : Nat → Bool

/-- The units that a fuse marks faulty, by block code and number (R590, R624). -/
opaque fusedUnit : Nat → Nat → Bool

/-- The firmware flash as delivered, bank A and bank B (R531). -/
opaque flash : Fin 2 → Bytes

/-- The SHA-384 digest of the certificate authority's root certificate (R558, assumption 9). -/
opaque rootHash : BitVec 384

/-- The certificates of slot 0, from the certificate authority through DevID to the alias certificate of a firmware digest (R530, R558). -/
opaque certificates : Nat → Bytes

/-- Whether a bank's line cannot be read as the bank is redirected at a time (R157). -/
opaque unreadable (line now : Nat) : Bool

/-- A recipe of the firmware image of a digest: its sequencer, class, argument count and words (R356). -/
opaque fwRecipe : BitVec 384 → Nat → Option (Nat × Nat × Nat × List (BitVec 64))

/-- RECIPE_DIGEST of the firmware image of a digest (R555). -/
opaque recipeDigest : BitVec 384 → BitVec 384

/-- The handle that the module gives a client's key record (R56, R101). -/
opaque keyHandle (job : JobId) (round slot : Nat) : BitVec 32

/-- The HBM address of the share bundles addressed to a client (R101). -/
opaque shareInPtr (job : JobId) (round slot : Nat) : BitVec 64

/-- The offset in a job's HBM at which Pilot places a structure (R510): its kind, a round and a slot. -/
opaque placeAt (job : JobId) (kind round n : Nat) : Nat

/-- A job's pending work for a shared unit class at a time, by which Pilot divides the class: one more than this (R513, assumption 100). -/
opaque pilotWork (job : JobId) (unitClass : Nat) (now : Nat) : Nat

/-- The working buffers and other structures of a job's round that Pilot counts, in bytes (R511): fewer than 64 GiB (assumption 22). -/
opaque workingBytes (job : JobId) (round : Nat) : Fin (2 ^ 36)

/-- Whether the module is a BR1-A720-L, with 12-high stacks, or a BR1-A480-L, with 8-high ones (R4). -/
opaque tallStacks : Bool

/-- The module's response bytes of SPDM messages where the manual leaves the standard's field open (R558, assumption 9): a message code and a field number. -/
opaque spdmField : Nat → Nat → Bytes

/-- Whether a requester's FINISH verifies under a session's secret and the transcript (R558, assumption 9). -/
opaque spdmVerify (secret transcript msg : Bytes) : Bool

/-- The nanoseconds without an Announce after which the chosen grandmaster's times out (R496). -/
opaque announceTimeout : Nat

/-- Whether a negative value that rounds to zero is written in F4 as code 0x8 and not 0x0; both mean zero (R219, R273). -/
opaque f4NegZero : Bool

/-- The layers of a job's Wheel model, in layer order (assumption 18). -/
opaque wheel (job : JobId) : List WheelLayer

/-- The rank of addend `n` in the order in which the FADDs of a held-out loss arrive (R185, R298, assumption 93). -/
opaque faddRank (n : Nat) : Nat

/-- Whether the tensors of a block-format release run their blocks down the columns (R223, R304). -/
opaque releaseKdim (job : JobId) : Bool

/-- The host physical address at which the host maps the HDM window (R405, assumption 19). -/
opaque hdmBase : Nat

/-- Which derivation an info code of HKDF names (R384): in the order of R56 and R114, 0 to 6. -/
opaque infoCode : Nat → Fin 7

/-- The base transport header of a packet that the module sends on a queue pair under a PSN (R489, assumption 20). -/
opaque packetHead (qpn psn : Nat) : Bytes

/-- What a temperature sensor reads at a time, in 0.125 °C (PWR_TEMP, R636). -/
opaque sensor (n now : Nat) : BitVec 16

/-- An occupancy of the event catalogue in a nanosecond (R600, assumption 12). -/
opaque level (code now : Nat) : Nat

/-- The credit to which Landing throttles a front-end with a queue pair on a hot port (R615, assumption 66). -/
opaque hotCredit (fe now : Nat) : Nat

end Sys2Proof.Config
end

