-- ==== Sys2Proof/Machine/Registers.lean ====
section
/-! DEFINITION. The module's registers, as the register tables of spec/02 to spec/16 give them: one definition for each field, with its bits, access code, reset value and reset domain (R12 to R14, R20), and where each register lies (R402, R403, R451). -/

namespace Sys2Proof.Machine

/-- The registers, by the manual's names. -/
inductive Reg where
  | LND_CTRL | LND_STATUS | LND_VERSIONS | LND_QUAR_THRESH | LND_CLOSE_DRAIN | LND_SEL
  | LND_JOB_TAG | LND_FE_CFG | LND_FE_CREDIT | LND_FE_STATE | LND_FE_ERR | LND_FE_LATE
  | LND_PORT_FIFO | LND_STATUS_CNT | LND_EVENT | ROS_CTRL | ROS_CACHE_OCC | ROS_JOB_SEL
  | ROS_JOB_RANGE | ROS_JOB_COUNTS | ROS_PEEK_SLOT | ROS_PEEK_DATA | TOL_CTRL | TOL_STATUS
  | TOL_CORE_FENCE | TOL_JOB_SEL | TOL_JOB_UNMASK | TOL_SMUL_CNT | TOL_HKDF_CNT | TOL_RECON_CNT
  | TOL_EVENT | CUL_CTRL | CUL_STATUS | CUL_LANE_FENCE_LO | CUL_LANE_FENCE_HI | CUL_BYTES
  | CUL_ADDS | CUL_JOB_SEL | CUL_JOB_COHORTS | CUL_JOB_VOID | CUL_ABANDON_LAST | CUL_EVENT
  | VAT_CTRL | VAT_STATUS | VAT_SCRUB | VAT_ECC_CORR | VAT_ECC_UNCORR | VAT_POISON_LAST
  | VAT_BANK_SEL | VAT_BANK_STATE | VAT_JOB_SEL | VAT_JOB_BERTHS | VAT_JOB_G64 | VAT_JOB_CTRL
  | VAT_JOB_PEER_WAIT | VAT_JOB_SETTLE | VAT_JOB_SPILL | VAT_JOB_LAST | VAT_JOB_NONFINITE | VAT_EVENT
  | PRS_CTRL | PRS_STATUS | PRS_ARRAY_SEL | PRS_ARRAY_STATE | PRS_MAC_CNT | PRS_STEP_CNT
  | PRS_STALL_CNT | PRS_FEED_WAIT_CNT | PRS_JOB_SEL | PRS_JOB_COND | PRS_JOB_FLUSH | PRS_JOB_NONFINITE
  | PRS_JOB_SPARE | PRS_EVENT | WRP_CTRL | WRP_STATUS | WRP_NOISE_CNT | WRP_JOB_SEL
  | WRP_JOB_POLICY | WRP_JOB_RHO | WRP_JOB_GATE | WRP_JOB_METRICS | WRP_JOB_LOSS | WRP_JOB_CONV
  | WRP_JOB_OVERRIDE | WRP_EVENT | SKM_CTRL | SKM_STATUS | SKM_ELEM_CNT | SKM_JOB_SEL
  | SKM_JOB_SCREEN | SKM_EVENT | RIND_CTRL | RIND_STATUS | RIND_CATALOGUE | RIND_PIPE_FENCE
  | RIND_LANE_FENCE | RIND_NTT_CNT | RIND_LANE_OPS | RIND_RESIDUE_CNT | RIND_HASH_BYTES | RIND_JOB_SEL
  | RIND_JOB_KEYS | RIND_JOB_EXPORT | RIND_JOB_DECODE | RIND_JOB_REFRESH | RIND_JOB_LAST | RIND_EVENT
  | HIF_RCP_STORE | HIF_RCP_ABI | HIF_RCP_SLOT_SEL | HIF_RCP_SLOT_INFO | HIF_RCP_SLOT_DIGEST | HIF_RCP_WDOG
  | HIF_RCP_FAULT | HIF_RCP_CTX | HIF_RCP_EVENT | HIF_VF_SQ_BASE | HIF_VF_SQ_CFG | HIF_VF_SQ_TAIL
  | HIF_VF_SQ_HEAD | HIF_VF_CQ_BASE | HIF_VF_CQ_CFG | HIF_VF_CQ_HEAD | HIF_VF_CQ_TAIL | HIF_VF_STATUS
  | HIF_VF_RES_STAT | HIF_VF_RES_DIGEST | HIF_VF_EVLOG_STAT | HIF_VF_EVLOG_DATA | HIF_VF_EVLOG_CTRL | FERRY_TX_DATA
  | FERRY_TX_CTRL | FERRY_TX_STAT | FERRY_RX_DATA | FERRY_RX_STAT | FERRY_RX_TAKE | FERRY_RX_NOTICE
  | FERRY_CTRL | HIF_LINK | HIF_VF_SEL | HIF_VF_ACC | HIF_HDM_CTRL | HIF_HDM_ERR
  | HIF_EVENT | HIF_HDM_REGION | RDMA_PORT_SEL | RDMA_PORT_CFG | RDMA_PORT_IP | RDMA_PORT_STAT
  | RDMA_QP_SEL | RDMA_QP_CFG | RDMA_QP_PSN | RDMA_QP_DEST | RDMA_QP_DIP | RDMA_QP_QKEY
  | RDMA_QP_STAT | RDMA_JOB_SEL | RDMA_JOB_KEY | RDMA_REG_SEL | RDMA_REG_BASE | RDMA_REG_LEN
  | RDMA_REG_CFG | RDMA_REVOKE | RDMA_SQP_CTRL | RDMA_SQP_LOCAL | RDMA_SQP_PEER | RDMA_CACHE
  | RDMA_ERR | RDMA_EVENT | TIDE_CTRL | TIDE_STATUS | TIDE_TIME | TIDE_ERR
  | TIDE_HOLD | TIDE_GM | TIDE_JOB_SEL | TIDE_JOB_PHASE | TIDE_EVT_SEL | TIDE_EVT_CFG
  | TIDE_EVT_ROUND | TIDE_EVT_STAT | TIDE_EVENT | PLT_MODE | PLT_POWER | PLT_CLU_SEL
  | PLT_CLU_ENV | PLT_CLU_STAT | PLT_JOB_SEL | PLT_JOB_SHARE | PLT_JOB_PIN | PLT_JOB_HBM
  | PLT_JOB_FRAC | PLT_JOB_PLACE | PLT_JOB_PINNED | PLT_EVENT | ENT_CTRL | ENT_STATUS
  | ENT_HEALTH | ENT_DRBG | ENT_WIRE | ENT_SW_DATA | ENT_EVENT | KST_ID
  | KST_FW | KST_FW_DIGEST | KST_SVN_COMMIT | KST_STATUS | KST_SLOT_SEL | KST_SLOT_INFO
  | KST_SLOT_USE | KST_WR_DATA | KST_WR_CTRL | KST_OP_STAT | KST_CHAL | KST_CHAL_CTRL
  | KST_RESP | KST_EVENT | KST_VF_ORIGIN_QPN | KST_VF_PEER_HASH | KST_VF_LOCAL_HASH | TRI_CTRL
  | TRI_STATUS | TRI_CHECKS | TRI_FAILS | TRI_UNIT_SEL | TRI_UNIT_STATE | TRI_UNIT_CMD
  | TRI_JOB_SEL | TRI_JOB_CHECK | TRI_HBM_ECC | TRI_AVAIL | TRI_ERR_LAST | TRI_EVENT
  | PMU_CTRL | PMU_STATUS | PMU_CNT_SEL | PMU_CNT_CFG | PMU_CNT_VALUE | PMU_CYCLES
  | PMU_SHADOW | PMU_SHADOW_CYC | PMU_VF_SEL | PMU_VF_GRANT | PMU_SAMP_CFG | PMU_SBUF_BASE
  | PMU_SBUF_CFG | PMU_SBUF_WR | PMU_SBUF_RD | PMU_SAMP_STAT | PMU_EVENT | PWR_CTRL
  | PWR_STATUS | PWR_RESET_CAUSE | PWR_INPUT | PWR_TEMP_SEL | PWR_TEMP | PWR_DOM_SEL
  | PWR_DOM_STATE | PWR_BOOT | PWR_EVENT | TST_CTRL | TST_STATUS | TST_IDCODE
  | TST_EVENT
  deriving DecidableEq, Repr

/-- The access codes of R14. -/
inductive Acc where
  | RO | RW | WO | W1C | W1S | RCL
  deriving DecidableEq, Repr

/-- The reset domains of R20. -/
inductive Dom where
  | COLD | WARM | JOB | ENGINE
  deriving DecidableEq, Repr

/-- A field of a register. -/
structure Fld where
  reg : Reg
  lo : Nat
  width : Nat
  acc : Acc
  reset : Nat
  dom : Dom
  deriving DecidableEq, Repr

/-- Which one of a register's copies an access reaches. -/
inductive Sel where
  /-- The register has no selector. -/
  | plain
  /-- The copy that a selector field names. -/
  | picked (f : Fld)
  /-- The copy of a job and, inside it, of a region. -/
  | picked2 (f g : Fld)
  /-- The copy of the function whose page or admin block holds it. -/
  | func
  deriving DecidableEq, Repr

/-- Where a register lies: its BAR0 offset, how many there are eight bytes apart, its width in bits, and its offset in a VF page. -/
structure RegPlace where
  off : Nat
  count : Nat
  width : Nat
  vfOff : Option Nat
  deriving DecidableEq, Repr

/-- LND_CTRL[17:17], 02 R107: send RESULT after each round-end completion -/
def LND_CTRL.RESULT_EN : Fld := ⟨.LND_CTRL, 17, 1, .RW, 1, .WARM⟩
/-- LND_CTRL[16:16], 02 R107: Landing admits chunks; at 0 every chunk is dropped without ACK -/
def LND_CTRL.ENABLE : Fld := ⟨.LND_CTRL, 16, 1, .RW, 0, .WARM⟩
/-- LND_CTRL[15:0], 02 R107: bit n enables port n -/
def LND_CTRL.PORT_EN : Fld := ⟨.LND_CTRL, 0, 16, .RW, 0, .WARM⟩
/-- LND_STATUS[31:16], 02 R107: bit n: port n has link -/
def LND_STATUS.PORT_UP : Fld := ⟨.LND_STATUS, 16, 16, .RO, 0, .WARM⟩
/-- LND_STATUS[6:0], 02 R107: chunk buffer pool occupancy, percent -/
def LND_STATUS.BUF_OCC : Fld := ⟨.LND_STATUS, 0, 7, .RO, 0, .WARM⟩
/-- LND_VERSIONS[16:16], 02 R107: accept version 2 chunks (R90) -/
def LND_VERSIONS.ACCEPT_V2 : Fld := ⟨.LND_VERSIONS, 16, 1, .RW, 1, .COLD⟩
/-- LND_VERSIONS[15:8], 02 R107: bit v set: version v accepted now; bit 2 follows ACCEPT_V2, so the field reads 0x08 while ACCEPT_V2 is 0 -/
def LND_VERSIONS.ACCEPTED : Fld := ⟨.LND_VERSIONS, 8, 8, .RO, 12, .COLD⟩
/-- LND_VERSIONS[7:0], 02 R107: implemented JLP version -/
def LND_VERSIONS.IMPL : Fld := ⟨.LND_VERSIONS, 0, 8, .RO, 3, .COLD⟩
/-- LND_QUAR_THRESH[15:0], 02 R107: per-round AUTH_FAILED plus MALFORMED limit per front-end -/
def LND_QUAR_THRESH.THRESH : Fld := ⟨.LND_QUAR_THRESH, 0, 16, .RW, 1024, .WARM⟩
/-- LND_CLOSE_DRAIN[15:0], 02 R107: drain time at Close in microseconds (R85); 0 means none -/
def LND_CLOSE_DRAIN.DRAIN_US : Fld := ⟨.LND_CLOSE_DRAIN, 0, 16, .RW, 100, .WARM⟩
/-- LND_SEL[27:20], 02 R107: status code for LND_STATUS_CNT -/
def LND_SEL.CODE : Fld := ⟨.LND_SEL, 20, 8, .RW, 0, .WARM⟩
/-- LND_SEL[19:16], 02 R107: job for LND_JOB_TAG -/
def LND_SEL.JOB : Fld := ⟨.LND_SEL, 16, 4, .RW, 0, .WARM⟩
/-- LND_SEL[15:12], 02 R107: port for LND_PORT_FIFO -/
def LND_SEL.PORT : Fld := ⟨.LND_SEL, 12, 4, .RW, 0, .WARM⟩
/-- LND_SEL[11:0], 02 R107: front-end for the LND_FE registers -/
def LND_SEL.FE : Fld := ⟨.LND_SEL, 0, 12, .RW, 0, .WARM⟩
/-- LND_JOB_TAG[31:0], 02 R107: JOB_TAG of the selected job; writable only before the job's first Offer, later writes ignored; 0 is not a valid tag: a write of 0 is ignored and leaves TAG unchanged, and JOB_CREATE refuses a job whose TAG reads 0 with reason JOB_TAG -/
def LND_JOB_TAG.TAG : Fld := ⟨.LND_JOB_TAG, 0, 32, .RW, 0, .JOB⟩
/-- LND_FE_CFG[60:60], 02 R107: front-end version 3 (1) or 2 (0) -/
def LND_FE_CFG.VERSION3 : Fld := ⟨.LND_FE_CFG, 60, 1, .RW, 1, .WARM⟩
/-- LND_FE_CFG[59:59], 02 R107: enable; reads 0 after a refused configuration (R91) -/
def LND_FE_CFG.VALID : Fld := ⟨.LND_FE_CFG, 59, 1, .RW, 0, .WARM⟩
/-- LND_FE_CFG[51:48], 02 R107: owning job -/
def LND_FE_CFG.JOB : Fld := ⟨.LND_FE_CFG, 48, 4, .RW, 0, .WARM⟩
/-- LND_FE_CFG[47:24], 02 R107: first job-relative slot -/
def LND_FE_CFG.SLOT_BASE : Fld := ⟨.LND_FE_CFG, 24, 24, .RW, 0, .WARM⟩
/-- LND_FE_CFG[23:0], 02 R107: slots in range; 0 means 2^24 -/
def LND_FE_CFG.SLOT_COUNT : Fld := ⟨.LND_FE_CFG, 0, 24, .RW, 0, .WARM⟩
/-- LND_FE_CREDIT[31:16], 02 R107: upper bound of adaptive credit, in chunks -/
def LND_FE_CREDIT.CREDIT_MAX : Fld := ⟨.LND_FE_CREDIT, 16, 16, .RW, 4096, .WARM⟩
/-- LND_FE_CREDIT[15:0], 02 R107: lower bound; fixed credit of version 2 front-ends -/
def LND_FE_CREDIT.CREDIT_MIN : Fld := ⟨.LND_FE_CREDIT, 0, 16, .RW, 64, .WARM⟩
/-- LND_FE_STATE[31:31], 02 R107: set by R96; writing 1 reinstates -/
def LND_FE_STATE.QUARANTINED : Fld := ⟨.LND_FE_STATE, 31, 1, .W1C, 0, .WARM⟩
/-- LND_FE_STATE[30:30], 02 R107: credit held at a bound (R94) -/
def LND_FE_STATE.PINNED : Fld := ⟨.LND_FE_STATE, 30, 1, .RO, 0, .WARM⟩
/-- LND_FE_STATE[15:0], 02 R107: current credit -/
def LND_FE_STATE.CREDIT_NOW : Fld := ⟨.LND_FE_STATE, 0, 16, .RO, 0, .WARM⟩
/-- LND_FE_ERR[63:32], 02 R107: this round (R98); cleared on reinstatement (R97) -/
def LND_FE_ERR.MALFORMED : Fld := ⟨.LND_FE_ERR, 32, 32, .RO, 0, .WARM⟩
/-- LND_FE_ERR[31:0], 02 R107: this round; cleared on reinstatement (R97) -/
def LND_FE_ERR.AUTH_FAILED : Fld := ⟨.LND_FE_ERR, 0, 32, .RO, 0, .WARM⟩
/-- LND_FE_LATE[63:32], 02 R107: this round -/
def LND_FE_LATE.OUT_OF_PHASE : Fld := ⟨.LND_FE_LATE, 32, 32, .RO, 0, .WARM⟩
/-- LND_FE_LATE[31:0], 02 R107: this round -/
def LND_FE_LATE.LATE : Fld := ⟨.LND_FE_LATE, 0, 32, .RO, 0, .WARM⟩
/-- LND_PORT_FIFO[63:32], 02 R107: packets dropped at the full FIFO (R99) -/
def LND_PORT_FIFO.DROPS : Fld := ⟨.LND_PORT_FIFO, 32, 32, .RCL, 0, .WARM⟩
/-- LND_PORT_FIFO[20:0], 02 R107: FIFO high-water mark in bytes -/
def LND_PORT_FIFO.HWM : Fld := ⟨.LND_PORT_FIFO, 0, 21, .RCL, 0, .WARM⟩
/-- LND_STATUS_CNT[63:0], 02 R107: ACKs sent with status LND_SEL.CODE, all jobs -/
def LND_STATUS_CNT.COUNT : Fld := ⟨.LND_STATUS_CNT, 0, 64, .RCL, 0, .WARM⟩
/-- LND_EVENT[3:3], 02 R107: a front-end's credit was pinned -/
def LND_EVENT.PINNED_EV : Fld := ⟨.LND_EVENT, 3, 1, .W1C, 0, .WARM⟩
/-- LND_EVENT[2:2], 02 R107: a chunk was discarded at the Close drain -/
def LND_EVENT.DRAIN_EV : Fld := ⟨.LND_EVENT, 2, 1, .W1C, 0, .WARM⟩
/-- LND_EVENT[1:1], 02 R107: a port FIFO dropped a packet -/
def LND_EVENT.FIFO_EV : Fld := ⟨.LND_EVENT, 1, 1, .W1C, 0, .WARM⟩
/-- LND_EVENT[0:0], 02 R107: a front-end was quarantined -/
def LND_EVENT.QUAR_EV : Fld := ⟨.LND_EVENT, 0, 1, .W1C, 0, .WARM⟩
/-- ROS_CTRL[1:1], 02 R107: writing 1 writes every dirty cache entry back to HBM -/
def ROS_CTRL.FLUSH : Fld := ⟨.ROS_CTRL, 1, 1, .WO, 0, .WARM⟩
/-- ROS_CTRL[0:0], 02 R107: at 0 every lookup goes to HBM -/
def ROS_CTRL.CACHE_EN : Fld := ⟨.ROS_CTRL, 0, 1, .RW, 1, .WARM⟩
/-- ROS_CACHE_OCC[18:0], 02 R107: valid cache entries, up to 262,144 -/
def ROS_CACHE_OCC.VALID : Fld := ⟨.ROS_CACHE_OCC, 0, 19, .RO, 0, .WARM⟩
/-- ROS_JOB_SEL[3:0], 02 R107: job for ROS_JOB_RANGE, ROS_JOB_COUNTS and ROS_PEEK -/
def ROS_JOB_SEL.JOB : Fld := ⟨.ROS_JOB_SEL, 0, 4, .RW, 0, .WARM⟩
/-- ROS_JOB_RANGE[56:32], 02 R107: entries in the job's range, up to 2^24 -/
def ROS_JOB_RANGE.COUNT : Fld := ⟨.ROS_JOB_RANGE, 32, 25, .RW, 0, .JOB⟩
/-- ROS_JOB_RANGE[23:0], 02 R107: first module-wide entry; both fields writable only while the job is not created, later writes ignored -/
def ROS_JOB_RANGE.BASE : Fld := ⟨.ROS_JOB_RANGE, 0, 24, .RW, 0, .JOB⟩
/-- ROS_JOB_COUNTS[56:32], 02 R107: survivors of the latest closed round -/
def ROS_JOB_COUNTS.SURVIVORS : Fld := ⟨.ROS_JOB_COUNTS, 32, 25, .RO, 0, .JOB⟩
/-- ROS_JOB_COUNTS[24:0], 02 R107: slots with an admitted JOIN, including sealed-round members, in the job's newest round whose Offer has fired; holds that count after the round ends, until the next Offer fires and resets it to 0 -/
def ROS_JOB_COUNTS.JOINED : Fld := ⟨.ROS_JOB_COUNTS, 0, 25, .RO, 0, .JOB⟩
/-- ROS_PEEK_SLOT[23:0], 02 R107: job-relative slot to read -/
def ROS_PEEK_SLOT.SLOT : Fld := ⟨.ROS_PEEK_SLOT, 0, 24, .RW, 0, .WARM⟩
/-- ROS_PEEK_DATA[63:0], 02 R107: bytes 8n to 8n + 7 of the selected entry, for n = 0 to 7; every word reads 0 for a confidential job and for a slot outside the job's range -/
def ROS_PEEK_DATA.WORD : Fld := ⟨.ROS_PEEK_DATA, 0, 64, .RO, 0, .WARM⟩
/-- TOL_CTRL[2:2], 03 R149: writing 1 runs the P-384, HKDF and Shamir known-answer tests on idle cores -/
def TOL_CTRL.KAT_RUN : Fld := ⟨.TOL_CTRL, 2, 1, .WO, 0, .WARM⟩
/-- TOL_CTRL[1:1], 03 R149: 1: reconstruct at min(t + 1, possible) shares (R137); 0: reconstruct at t shares, with no spare check -/
def TOL_CTRL.SPARE_WAIT : Fld := ⟨.TOL_CTRL, 1, 1, .RW, 1, .WARM⟩
/-- TOL_CTRL[0:0], 03 R149: at 0 Toll accepts no new work; work in flight completes; work not accepted waits until ENABLE returns to 1, including reconstructions due at an Unmask deadline (R137) -/
def TOL_CTRL.ENABLE : Fld := ⟨.TOL_CTRL, 0, 1, .RW, 1, .WARM⟩
/-- TOL_STATUS[17:17], 03 R149: the latest known-answer test passed -/
def TOL_STATUS.KAT_PASS : Fld := ⟨.TOL_STATUS, 17, 1, .RO, 0, .WARM⟩
/-- TOL_STATUS[16:16], 03 R149: a known-answer test has completed since reset -/
def TOL_STATUS.KAT_DONE : Fld := ⟨.TOL_STATUS, 16, 1, .RO, 0, .WARM⟩
/-- TOL_STATUS[6:0], 03 R149: scalar-multiplication cores not fenced -/
def TOL_STATUS.CORES_LIVE : Fld := ⟨.TOL_STATUS, 0, 7, .RO, 64, .WARM⟩
/-- TOL_CORE_FENCE[63:0], 03 R149: bit n: core n fenced; "Checking, errors and containment" owns fencing -/
def TOL_CORE_FENCE.FENCED : Fld := ⟨.TOL_CORE_FENCE, 0, 64, .RO, 0, .COLD⟩
/-- TOL_JOB_SEL[3:0], 03 R149: job for TOL_JOB_UNMASK -/
def TOL_JOB_SEL.JOB : Fld := ⟨.TOL_JOB_SEL, 0, 4, .RW, 0, .WARM⟩
/-- TOL_JOB_UNMASK[63:32], 03 R149: secrets reconstructed in the current Unmask -/
def TOL_JOB_UNMASK.DONE : Fld := ⟨.TOL_JOB_UNMASK, 32, 32, .RO, 0, .JOB⟩
/-- TOL_JOB_UNMASK[31:0], 03 R149: secrets needed (R137) by cohorts not abandoned; fixed when Unmask begins, after every abandonment decided at Close, including those of the linear check (R204); later abandonments do not lower it -/
def TOL_JOB_UNMASK.NEEDED : Fld := ⟨.TOL_JOB_UNMASK, 0, 32, .RO, 0, .JOB⟩
/-- TOL_SMUL_CNT[63:0], 03 R149: scalar multiplications, all purposes and all jobs -/
def TOL_SMUL_CNT.COUNT : Fld := ⟨.TOL_SMUL_CNT, 0, 64, .RCL, 0, .WARM⟩
/-- TOL_HKDF_CNT[63:0], 03 R149: HKDF derivations, all jobs -/
def TOL_HKDF_CNT.COUNT : Fld := ⟨.TOL_HKDF_CNT, 0, 64, .RCL, 0, .WARM⟩
/-- TOL_RECON_CNT[63:0], 03 R149: Shamir reconstructions, all jobs -/
def TOL_RECON_CNT.COUNT : Fld := ⟨.TOL_RECON_CNT, 0, 64, .RCL, 0, .WARM⟩
/-- TOL_EVENT[2:2], 03 R149: a known-answer test failed; the failing core is fenced -/
def TOL_EVENT.KAT_FAIL_EV : Fld := ⟨.TOL_EVENT, 2, 1, .W1C, 0, .WARM⟩
/-- TOL_EVENT[1:1], 03 R149: a core was fenced -/
def TOL_EVENT.FENCE_EV : Fld := ⟨.TOL_EVENT, 1, 1, .W1C, 0, .WARM⟩
/-- TOL_EVENT[0:0], 03 R149: a reconstruction check failed (SHARES_INCONSISTENT) -/
def TOL_EVENT.INCONS_EV : Fld := ⟨.TOL_EVENT, 0, 1, .W1C, 0, .WARM⟩
/-- CUL_CTRL[1:1], 03 R150: writing 1 runs the RFC 8439 ChaCha20 test vectors on idle lanes -/
def CUL_CTRL.KAT_RUN : Fld := ⟨.CUL_CTRL, 1, 1, .WO, 0, .WARM⟩
/-- CUL_CTRL[0:0], 03 R150: at 0 Culture accepts no new streams; streams in flight complete -/
def CUL_CTRL.ENABLE : Fld := ⟨.CUL_CTRL, 0, 1, .RW, 1, .WARM⟩
/-- CUL_STATUS[17:17], 03 R150: the latest test passed -/
def CUL_STATUS.KAT_PASS : Fld := ⟨.CUL_STATUS, 17, 1, .RO, 0, .WARM⟩
/-- CUL_STATUS[16:16], 03 R150: a test has completed since reset -/
def CUL_STATUS.KAT_DONE : Fld := ⟨.CUL_STATUS, 16, 1, .RO, 0, .WARM⟩
/-- CUL_STATUS[7:0], 03 R150: keystream lanes not fenced -/
def CUL_STATUS.LANES_LIVE : Fld := ⟨.CUL_STATUS, 0, 8, .RO, 128, .WARM⟩
/-- CUL_LANE_FENCE_LO[63:0], 03 R150: bit n: lane n fenced, for lanes 0 to 63 -/
def CUL_LANE_FENCE_LO.FENCED : Fld := ⟨.CUL_LANE_FENCE_LO, 0, 64, .RO, 0, .COLD⟩
/-- CUL_LANE_FENCE_HI[63:0], 03 R150: bit n: lane 64 + n fenced -/
def CUL_LANE_FENCE_HI.FENCED : Fld := ⟨.CUL_LANE_FENCE_HI, 0, 64, .RO, 0, .COLD⟩
/-- CUL_BYTES[63:0], 03 R150: keystream bytes produced, including Rind key-seed expansion -/
def CUL_BYTES.COUNT : Fld := ⟨.CUL_BYTES, 0, 64, .RCL, 0, .WARM⟩
/-- CUL_ADDS[63:0], 03 R150: ring elements added into Vat accumulators -/
def CUL_ADDS.COUNT : Fld := ⟨.CUL_ADDS, 0, 64, .RCL, 0, .WARM⟩
/-- CUL_JOB_SEL[3:0], 03 R150: job for CUL_JOB_COHORTS, CUL_JOB_VOID and CUL_ABANDON_LAST -/
def CUL_JOB_SEL.JOB : Fld := ⟨.CUL_JOB_SEL, 0, 4, .RW, 0, .WARM⟩
/-- CUL_JOB_COHORTS[48:32], 03 R150: cohorts abandoned in the latest round, up to 65,536 -/
def CUL_JOB_COHORTS.ABANDONED : Fld := ⟨.CUL_JOB_COHORTS, 32, 17, .RO, 0, .JOB⟩
/-- CUL_JOB_COHORTS[16:0], 03 R150: cohorts whose Unmask completed in the latest round -/
def CUL_JOB_COHORTS.UNMASKED : Fld := ⟨.CUL_JOB_COHORTS, 0, 17, .RO, 0, .JOB⟩
/-- CUL_JOB_VOID[31:0], 03 R150: void chunk indices, summed over the cohorts of the latest closed round -/
def CUL_JOB_VOID.VOID_CHUNKS : Fld := ⟨.CUL_JOB_VOID, 0, 32, .RO, 0, .JOB⟩
/-- CUL_ABANDON_LAST[31:16], 03 R150: cohort of the most recent abandonment -/
def CUL_ABANDON_LAST.COHORT : Fld := ⟨.CUL_ABANDON_LAST, 16, 16, .RO, 0, .JOB⟩
/-- CUL_ABANDON_LAST[7:0], 03 R150: its reason value from the table Cohort abandonment; 0 when none -/
def CUL_ABANDON_LAST.REASON : Fld := ⟨.CUL_ABANDON_LAST, 0, 8, .RO, 0, .JOB⟩
/-- CUL_EVENT[2:2], 03 R150: a test failed; the failing lane is fenced -/
def CUL_EVENT.KAT_FAIL_EV : Fld := ⟨.CUL_EVENT, 2, 1, .W1C, 0, .WARM⟩
/-- CUL_EVENT[1:1], 03 R150: a lane was fenced -/
def CUL_EVENT.FENCE_EV : Fld := ⟨.CUL_EVENT, 1, 1, .W1C, 0, .WARM⟩
/-- CUL_EVENT[0:0], 03 R150: a cohort was abandoned, in any job -/
def CUL_EVENT.ABANDON_EV : Fld := ⟨.CUL_EVENT, 0, 1, .W1C, 0, .WARM⟩
/-- VAT_CTRL[0:0], 04 R208: patrol scrubbing (R156) -/
def VAT_CTRL.SCRUB_EN : Fld := ⟨.VAT_CTRL, 0, 1, .RW, 1, .WARM⟩
/-- VAT_STATUS[31:31], 04 R208: backing areas exhausted (R158) -/
def VAT_STATUS.SERVICE_REQ : Fld := ⟨.VAT_STATUS, 31, 1, .RO, 0, .WARM⟩
/-- VAT_STATUS[22:16], 04 R208: backing areas in use, 0 to 64 -/
def VAT_STATUS.REMAP_USED : Fld := ⟨.VAT_STATUS, 16, 7, .RO, 0, .WARM⟩
/-- VAT_STATUS[11:0], 04 R208: banks not fenced -/
def VAT_STATUS.BANKS_LIVE : Fld := ⟨.VAT_STATUS, 0, 12, .RO, 2048, .WARM⟩
/-- VAT_SCRUB[31:16], 04 R208: completed scrub passes, wrapping -/
def VAT_SCRUB.PASSES : Fld := ⟨.VAT_SCRUB, 16, 16, .RO, 0, .WARM⟩
/-- VAT_SCRUB[15:0], 04 R208: hours per pass; 0 means as fast as the 1 % limit allows -/
def VAT_SCRUB.PERIOD_H : Fld := ⟨.VAT_SCRUB, 0, 16, .RW, 24, .WARM⟩
/-- VAT_ECC_CORR[63:0], 04 R208: corrected words, firmware region included -/
def VAT_ECC_CORR.COUNT : Fld := ⟨.VAT_ECC_CORR, 0, 64, .RCL, 0, .WARM⟩
/-- VAT_ECC_UNCORR[63:0], 04 R208: lines poisoned by uncorrectable errors -/
def VAT_ECC_UNCORR.COUNT : Fld := ⟨.VAT_ECC_UNCORR, 0, 64, .RCL, 0, .WARM⟩
/-- VAT_POISON_LAST[63:63], 04 R208: a poisoning has been recorded since the last read -/
def VAT_POISON_LAST.VALID : Fld := ⟨.VAT_POISON_LAST, 63, 1, .RCL, 0, .WARM⟩
/-- VAT_POISON_LAST[44:44], 04 R208: line lies in the firmware region -/
def VAT_POISON_LAST.FW : Fld := ⟨.VAT_POISON_LAST, 44, 1, .RCL, 0, .WARM⟩
/-- VAT_POISON_LAST[43:40], 04 R208: owning job; meaningless when FW is 1 -/
def VAT_POISON_LAST.JOB : Fld := ⟨.VAT_POISON_LAST, 40, 4, .RCL, 0, .WARM⟩
/-- VAT_POISON_LAST[32:0], 04 R208: module Vat address of the line; bits 5:0 read 0; lines poisoned while spilled to HBM are recorded in TRI_ERR_LAST instead (R154) -/
def VAT_POISON_LAST.ADDR : Fld := ⟨.VAT_POISON_LAST, 0, 33, .RCL, 0, .WARM⟩
/-- VAT_BANK_SEL[10:0], 04 R208: bank for VAT_BANK_STATE -/
def VAT_BANK_SEL.BANK : Fld := ⟨.VAT_BANK_SEL, 0, 11, .RW, 0, .WARM⟩
/-- VAT_BANK_STATE[31:24], 04 R208: view generation, as "Checking, errors and containment" defines -/
def VAT_BANK_STATE.GEN : Fld := ⟨.VAT_BANK_STATE, 24, 8, .RO, 0, .COLD⟩
/-- VAT_BANK_STATE[17:16], 04 R208: 0 LIVE, 1 FENCED, 2 FAILING, 3 SUSPECT, the encoding common to every fenceable unit (R587); a bank issues no accesses and never reads SUSPECT; this field is the bank's authoritative state -/
def VAT_BANK_STATE.STATE : Fld := ⟨.VAT_BANK_STATE, 16, 2, .RO, 0, .COLD⟩
/-- VAT_BANK_STATE[5:0], 04 R208: backing area of a FENCED bank -/
def VAT_BANK_STATE.REMAP : Fld := ⟨.VAT_BANK_STATE, 0, 6, .RO, 0, .COLD⟩
/-- VAT_JOB_SEL[3:0], 04 R208: selected job -/
def VAT_JOB_SEL.JOB : Fld := ⟨.VAT_JOB_SEL, 0, 4, .RW, 0, .WARM⟩
/-- VAT_JOB_BERTHS[63:0], 04 R208: bit i of register n: berth 64n + i belongs to the job; writable only before the job is created, later writes ignored (R160) -/
def VAT_JOB_BERTHS.BERTH : Fld := ⟨.VAT_JOB_BERTHS, 0, 64, .RW, 0, .JOB⟩
/-- VAT_JOB_G64[58:32], 04 R208: add window length in lines -/
def VAT_JOB_G64.LEN_LINES : Fld := ⟨.VAT_JOB_G64, 32, 27, .RW, 0, .JOB⟩
/-- VAT_JOB_G64[26:0], 04 R208: first job-relative line of the add window; both fields writable only before the job is created -/
def VAT_JOB_G64.BASE_LINE : Fld := ⟨.VAT_JOB_G64, 0, 27, .RW, 0, .JOB⟩
/-- VAT_JOB_CTRL[31:31], 04 R208: add window open (R192) -/
def VAT_JOB_CTRL.ADD_OPEN : Fld := ⟨.VAT_JOB_CTRL, 31, 1, .RO, 0, .JOB⟩
/-- VAT_JOB_CTRL[15:15], 04 R208: write totals to the host at Finish (R196); reads 0 in a confidential job -/
def VAT_JOB_CTRL.EXPOSE_G64 : Fld := ⟨.VAT_JOB_CTRL, 15, 1, .RW, 0, .JOB⟩
/-- VAT_JOB_CTRL[10:0], 04 R208: peers that report to this job, 0 to 2,047 -/
def VAT_JOB_CTRL.PEERS_EXPECTED : Fld := ⟨.VAT_JOB_CTRL, 0, 11, .RW, 0, .JOB⟩
/-- VAT_JOB_PEER_WAIT[42:32], 04 R208: distinct peer-done writes this round -/
def VAT_JOB_PEER_WAIT.PEERS_DONE : Fld := ⟨.VAT_JOB_PEER_WAIT, 32, 11, .RO, 0, .JOB⟩
/-- VAT_JOB_PEER_WAIT[19:0], 04 R208: peer wait in milliseconds (R195); reset is 60,000 -/
def VAT_JOB_PEER_WAIT.WAIT_MS : Fld := ⟨.VAT_JOB_PEER_WAIT, 0, 20, .RW, 60000, .JOB⟩
/-- VAT_JOB_SETTLE[48:32], 04 R208: cohorts with CHECK_MISMATCH or RANGE_FAIL in the latest round -/
def VAT_JOB_SETTLE.FAILED : Fld := ⟨.VAT_JOB_SETTLE, 32, 17, .RO, 0, .JOB⟩
/-- VAT_JOB_SETTLE[16:0], 04 R208: cohorts settled in the latest round -/
def VAT_JOB_SETTLE.SETTLED : Fld := ⟨.VAT_JOB_SETTLE, 0, 17, .RO, 0, .JOB⟩
/-- VAT_JOB_SPILL[63:32], 04 R208: job data spilled to HBM, MiB -/
def VAT_JOB_SPILL.SPILL_MIB : Fld := ⟨.VAT_JOB_SPILL, 32, 32, .RO, 0, .JOB⟩
/-- VAT_JOB_SPILL[16:0], 04 R208: spilled cohort accumulators -/
def VAT_JOB_SPILL.COHORTS : Fld := ⟨.VAT_JOB_SPILL, 0, 17, .RO, 0, .JOB⟩
/-- VAT_JOB_LAST[31:16], 04 R208: cohort of the latest status other than OK -/
def VAT_JOB_LAST.COHORT : Fld := ⟨.VAT_JOB_LAST, 16, 16, .RO, 0, .JOB⟩
/-- VAT_JOB_LAST[7:0], 04 R208: its value from the table Settle statuses -/
def VAT_JOB_LAST.STATUS : Fld := ⟨.VAT_JOB_LAST, 0, 8, .RO, 0, .JOB⟩
/-- VAT_JOB_NONFINITE[63:0], 04 R208: markers created by G64 adds (R180) -/
def VAT_JOB_NONFINITE.COUNT : Fld := ⟨.VAT_JOB_NONFINITE, 0, 64, .RCL, 0, .JOB⟩
/-- VAT_EVENT[5:5], 04 R208: a bank was fenced or marked FAILING -/
def VAT_EVENT.FENCE_EV : Fld := ⟨.VAT_EVENT, 5, 1, .W1C, 0, .WARM⟩
/-- VAT_EVENT[4:4], 04 R208: a round ended with PEER_INCOMPLETE -/
def VAT_EVENT.PEER_EV : Fld := ⟨.VAT_EVENT, 4, 1, .W1C, 0, .WARM⟩
/-- VAT_EVENT[3:3], 04 R208: a G64 marker was created -/
def VAT_EVENT.NONFINITE_EV : Fld := ⟨.VAT_EVENT, 3, 1, .W1C, 0, .WARM⟩
/-- VAT_EVENT[2:2], 04 R208: a linear check failed -/
def VAT_EVENT.CHECK_EV : Fld := ⟨.VAT_EVENT, 2, 1, .W1C, 0, .WARM⟩
/-- VAT_EVENT[1:1], 04 R208: a line was poisoned -/
def VAT_EVENT.POISON_EV : Fld := ⟨.VAT_EVENT, 1, 1, .W1C, 0, .WARM⟩
/-- VAT_EVENT[0:0], 04 R208: a berth assignment was refused (R160) -/
def VAT_EVENT.BERTH_EV : Fld := ⟨.VAT_EVENT, 0, 1, .W1C, 0, .WARM⟩
/-- PRS_CTRL[1:1], 05 R262: writing 1 runs the MAC known-answer test on each idle array in every format -/
def PRS_CTRL.KAT_RUN : Fld := ⟨.PRS_CTRL, 1, 1, .WO, 0, .WARM⟩
/-- PRS_CTRL[0:0], 05 R262: at 0 Press starts no new MAC; MACs in flight complete and drain -/
def PRS_CTRL.ENABLE : Fld := ⟨.PRS_CTRL, 0, 1, .RW, 1, .WARM⟩
/-- PRS_STATUS[17:17], 05 R262: the latest known-answer test passed -/
def PRS_STATUS.KAT_PASS : Fld := ⟨.PRS_STATUS, 17, 1, .RO, 0, .WARM⟩
/-- PRS_STATUS[16:16], 05 R262: a known-answer test has completed since reset -/
def PRS_STATUS.KAT_DONE : Fld := ⟨.PRS_STATUS, 16, 1, .RO, 0, .WARM⟩
/-- PRS_STATUS[15:8], 05 R262: bit n: array n not fenced -/
def PRS_STATUS.ARRAYS_LIVE : Fld := ⟨.PRS_STATUS, 8, 8, .RO, 255, .WARM⟩
/-- PRS_STATUS[7:0], 05 R262: bit n: array n has a MAC in flight or a drain pending -/
def PRS_STATUS.ARRAYS_BUSY : Fld := ⟨.PRS_STATUS, 0, 8, .RO, 0, .WARM⟩
/-- PRS_ARRAY_SEL[2:0], 05 R262: array for PRS_ARRAY_STATE -/
def PRS_ARRAY_SEL.ARRAY : Fld := ⟨.PRS_ARRAY_SEL, 0, 3, .RW, 0, .WARM⟩
/-- PRS_ARRAY_STATE[31:24], 05 R262: view generation, as "Checking, errors and containment" defines -/
def PRS_ARRAY_STATE.GEN : Fld := ⟨.PRS_ARRAY_STATE, 24, 8, .RO, 0, .COLD⟩
/-- PRS_ARRAY_STATE[17:16], 05 R262: 0 LIVE, 1 FENCED, 2 FAILING, 3 SUSPECT, the encoding common to every fenceable unit (R587); an array reads SUSPECT after a failed chain (R580) or a cross-job refusal (R575) and never reads FAILING; this field is the array's authoritative state -/
def PRS_ARRAY_STATE.STATE : Fld := ⟨.PRS_ARRAY_STATE, 16, 2, .RO, 0, .COLD⟩
/-- PRS_ARRAY_STATE[4:4], 05 R262: the array is assigned to a job -/
def PRS_ARRAY_STATE.ASSIGNED : Fld := ⟨.PRS_ARRAY_STATE, 4, 1, .RO, 0, .COLD⟩
/-- PRS_ARRAY_STATE[3:0], 05 R262: assigned job; meaningless when ASSIGNED is 0 -/
def PRS_ARRAY_STATE.JOB : Fld := ⟨.PRS_ARRAY_STATE, 0, 4, .RO, 0, .COLD⟩
/-- PRS_MAC_CNT[63:0], 05 R262: MAC instructions completed, all arrays and all jobs -/
def PRS_MAC_CNT.COUNT : Fld := ⟨.PRS_MAC_CNT, 0, 64, .RCL, 0, .WARM⟩
/-- PRS_STEP_CNT[63:0], 05 R262: steps fed, summed over arrays -/
def PRS_STEP_CNT.COUNT : Fld := ⟨.PRS_STEP_CNT, 0, 64, .RCL, 0, .WARM⟩
/-- PRS_STALL_CNT[63:0], 05 R262: array cycles by which R244 delayed a MAC -/
def PRS_STALL_CNT.COUNT : Fld := ⟨.PRS_STALL_CNT, 0, 64, .RCL, 0, .WARM⟩
/-- PRS_FEED_WAIT_CNT[63:0], 05 R262: array cycles in which a step waited for operand data (R247) -/
def PRS_FEED_WAIT_CNT.COUNT : Fld := ⟨.PRS_FEED_WAIT_CNT, 0, 64, .RCL, 0, .WARM⟩
/-- PRS_JOB_SEL[3:0], 05 R262: selected job -/
def PRS_JOB_SEL.JOB : Fld := ⟨.PRS_JOB_SEL, 0, 4, .RW, 0, .WARM⟩
/-- PRS_JOB_COND[7:0], 05 R262: bit n: condition n of the table Press conditions has been set by any invocation of the job since last cleared -/
def PRS_JOB_COND.COND : Fld := ⟨.PRS_JOB_COND, 0, 8, .W1C, 0, .JOB⟩
/-- PRS_JOB_FLUSH[63:0], 05 R262: blocks flushed to zero (R228) -/
def PRS_JOB_FLUSH.COUNT : Fld := ⟨.PRS_JOB_FLUSH, 0, 64, .RCL, 0, .JOB⟩
/-- PRS_JOB_NONFINITE[63:32], 05 R262: Inf tiles drained (R238) -/
def PRS_JOB_NONFINITE.INF_DRAINED : Fld := ⟨.PRS_JOB_NONFINITE, 32, 32, .RCL, 0, .JOB⟩
/-- PRS_JOB_NONFINITE[31:0], 05 R262: non-finite blocks loaded, ANCHOR_HIGH blocks included -/
def PRS_JOB_NONFINITE.NONFINITE_IN : Fld := ⟨.PRS_JOB_NONFINITE, 0, 32, .RCL, 0, .JOB⟩
/-- PRS_JOB_SPARE[31:0], 05 R262: Q2 blocks that held the spare code (R220) -/
def PRS_JOB_SPARE.COUNT : Fld := ⟨.PRS_JOB_SPARE, 0, 32, .RCL, 0, .JOB⟩
/-- PRS_EVENT[4:4], 05 R262: a screening-key draw completed with ENTROPY_FAILED (R252) -/
def PRS_EVENT.ENTROPY_EV : Fld := ⟨.PRS_EVENT, 4, 1, .W1C, 0, .WARM⟩
/-- PRS_EVENT[3:3], 05 R262: ANCHOR_HIGH or ANCHOR_MISMATCH was set, in any job -/
def PRS_EVENT.ANCHOR_EV : Fld := ⟨.PRS_EVENT, 3, 1, .W1C, 0, .WARM⟩
/-- PRS_EVENT[2:2], 05 R262: an Inf tile was drained, in any job -/
def PRS_EVENT.NONFINITE_EV : Fld := ⟨.PRS_EVENT, 2, 1, .W1C, 0, .WARM⟩
/-- PRS_EVENT[1:1], 05 R262: an array was fenced -/
def PRS_EVENT.FENCE_EV : Fld := ⟨.PRS_EVENT, 1, 1, .W1C, 0, .WARM⟩
/-- PRS_EVENT[0:0], 05 R262: a known-answer test failed; the failing array is fenced -/
def PRS_EVENT.KAT_FAIL_EV : Fld := ⟨.PRS_EVENT, 0, 1, .W1C, 0, .WARM⟩
/-- WRP_CTRL[1:1], 06 R305: writing 1 runs the conversion, activation and sampler known-answer tests on idle units -/
def WRP_CTRL.KAT_RUN : Fld := ⟨.WRP_CTRL, 1, 1, .WO, 0, .WARM⟩
/-- WRP_CTRL[0:0], 06 R305: at 0 Wrap starts no new invocation; invocations in flight complete -/
def WRP_CTRL.ENABLE : Fld := ⟨.WRP_CTRL, 0, 1, .RW, 1, .WARM⟩
/-- WRP_STATUS[18:18], 06 R305: the noise FIFO holds 65,536 samples -/
def WRP_STATUS.FIFO_FULL : Fld := ⟨.WRP_STATUS, 18, 1, .RO, 0, .WARM⟩
/-- WRP_STATUS[17:17], 06 R305: the latest known-answer test passed -/
def WRP_STATUS.KAT_PASS : Fld := ⟨.WRP_STATUS, 17, 1, .RO, 0, .WARM⟩
/-- WRP_STATUS[16:16], 06 R305: a known-answer test has completed since reset -/
def WRP_STATUS.KAT_DONE : Fld := ⟨.WRP_STATUS, 16, 1, .RO, 0, .WARM⟩
/-- WRP_STATUS[4:0], 06 R305: noise sampler units not fenced -/
def WRP_STATUS.SAMPLERS_LIVE : Fld := ⟨.WRP_STATUS, 0, 5, .RO, 16, .WARM⟩
/-- WRP_NOISE_CNT[63:0], 06 R305: noise samples consumed, all jobs -/
def WRP_NOISE_CNT.COUNT : Fld := ⟨.WRP_NOISE_CNT, 0, 64, .RCL, 0, .WARM⟩
/-- WRP_JOB_SEL[3:0], 06 R305: selected job -/
def WRP_JOB_SEL.JOB : Fld := ⟨.WRP_JOB_SEL, 0, 4, .RW, 0, .WARM⟩
/-- WRP_JOB_POLICY[63:0], 06 R305: bytes 8n to 8n + 7 of the policy record's SHA-384 digest (R294) -/
def WRP_JOB_POLICY.DIGEST : Fld := ⟨.WRP_JOB_POLICY, 0, 64, .RO, 0, .JOB⟩
/-- WRP_JOB_RHO[63:0], 06 R305: binary64 privacy charge spent by the job (R280) -/
def WRP_JOB_RHO.RHO_SPENT : Fld := ⟨.WRP_JOB_RHO, 0, 64, .RO, 0, .JOB⟩
/-- WRP_JOB_GATE[63:32], 06 R305: round of the latest gate decision -/
def WRP_JOB_GATE.ROUND : Fld := ⟨.WRP_JOB_GATE, 32, 32, .RO, 0, .JOB⟩
/-- WRP_JOB_GATE[16:16], 06 R305: a refused candidate is held (R302) -/
def WRP_JOB_GATE.HELD : Fld := ⟨.WRP_JOB_GATE, 16, 1, .RO, 0, .JOB⟩
/-- WRP_JOB_GATE[15:8], 06 R305: value from the table Release statuses -/
def WRP_JOB_GATE.STATUS : Fld := ⟨.WRP_JOB_GATE, 8, 8, .RO, 0, .JOB⟩
/-- WRP_JOB_GATE[7:4], 06 R305: 0 none, 1 ACC_MIN, 2 DROP, 3 LOSS -/
def WRP_JOB_GATE.REASON : Fld := ⟨.WRP_JOB_GATE, 4, 4, .RO, 0, .JOB⟩
/-- WRP_JOB_GATE[1:1], 06 R305: the procedure of R291 ran in that round; reads 0 with SCREEN_ACTION 0 and after a failed key draw (R293) -/
def WRP_JOB_GATE.SCREENED : Fld := ⟨.WRP_JOB_GATE, 1, 1, .RO, 0, .JOB⟩
/-- WRP_JOB_GATE[0:0], 06 R305: the held-out pass ran in that round -/
def WRP_JOB_GATE.EVALUATED : Fld := ⟨.WRP_JOB_GATE, 0, 1, .RO, 0, .JOB⟩
/-- WRP_JOB_METRICS[63:32], 06 R305: correct examples of the latest candidate; reads 0 in a confidential job unless EXPOSE_METRICS is 1 -/
def WRP_JOB_METRICS.CORRECT : Fld := ⟨.WRP_JOB_METRICS, 32, 32, .RO, 0, .JOB⟩
/-- WRP_JOB_METRICS[31:0], 06 R305: base_correct (R300); same read rule -/
def WRP_JOB_METRICS.BASE_CORRECT : Fld := ⟨.WRP_JOB_METRICS, 0, 32, .RO, 0, .JOB⟩
/-- WRP_JOB_LOSS[31:0], 06 R305: binary32 loss of the latest candidate -/
def WRP_JOB_LOSS.LOSS : Fld := ⟨.WRP_JOB_LOSS, 0, 32, .RO, 0, .JOB⟩
/-- WRP_JOB_CONV[63:42], 06 R305: Finish coordinates with granule count 0 (R282) -/
def WRP_JOB_CONV.NODATA : Fld := ⟨.WRP_JOB_CONV, 42, 22, .RCL, 0, .JOB⟩
/-- WRP_JOB_CONV[41:21], 06 R305: saturated elements and blocks (R273, R275), saturating -/
def WRP_JOB_CONV.SATURATED : Fld := ⟨.WRP_JOB_CONV, 21, 21, .RCL, 0, .JOB⟩
/-- WRP_JOB_CONV[20:0], 06 R305: non-finite elements and blocks written, saturating -/
def WRP_JOB_CONV.NONFINITE : Fld := ⟨.WRP_JOB_CONV, 0, 21, .RCL, 0, .JOB⟩
/-- WRP_JOB_OVERRIDE[31:0], 06 R305: writing the held round's number releases it (R302); ignored in a confidential job -/
def WRP_JOB_OVERRIDE.ROUND : Fld := ⟨.WRP_JOB_OVERRIDE, 0, 32, .WO, 0, .JOB⟩
/-- WRP_EVENT[4:4], 06 R305: a candidate was held -/
def WRP_EVENT.HOLD_EV : Fld := ⟨.WRP_EVENT, 4, 1, .W1C, 0, .WARM⟩
/-- WRP_EVENT[3:3], 06 R305: a round ended with PRIVACY_BUDGET -/
def WRP_EVENT.BUDGET_EV : Fld := ⟨.WRP_EVENT, 3, 1, .W1C, 0, .WARM⟩
/-- WRP_EVENT[2:2], 06 R305: a rounding-key or noise draw failed -/
def WRP_EVENT.ENTROPY_EV : Fld := ⟨.WRP_EVENT, 2, 1, .W1C, 0, .WARM⟩
/-- WRP_EVENT[1:1], 06 R305: a gate refused a candidate, in any job -/
def WRP_EVENT.REJECT_EV : Fld := ⟨.WRP_EVENT, 1, 1, .W1C, 0, .WARM⟩
/-- WRP_EVENT[0:0], 06 R305: a known-answer test failed; the failing unit is fenced -/
def WRP_EVENT.KAT_FAIL_EV : Fld := ⟨.WRP_EVENT, 0, 1, .W1C, 0, .WARM⟩
/-- SKM_CTRL[1:1], 06 R306: writing 1 runs the selection known-answer tests -/
def SKM_CTRL.KAT_RUN : Fld := ⟨.SKM_CTRL, 1, 1, .WO, 0, .WARM⟩
/-- SKM_CTRL[0:0], 06 R306: at 0 Skim starts no new operation -/
def SKM_CTRL.ENABLE : Fld := ⟨.SKM_CTRL, 0, 1, .RW, 1, .WARM⟩
/-- SKM_STATUS[17:17], 06 R306: the latest test passed -/
def SKM_STATUS.KAT_PASS : Fld := ⟨.SKM_STATUS, 17, 1, .RO, 0, .WARM⟩
/-- SKM_STATUS[16:16], 06 R306: a test has completed since reset -/
def SKM_STATUS.KAT_DONE : Fld := ⟨.SKM_STATUS, 16, 1, .RO, 0, .WARM⟩
/-- SKM_STATUS[0:0], 06 R306: an operation is in flight -/
def SKM_STATUS.BUSY : Fld := ⟨.SKM_STATUS, 0, 1, .RO, 0, .WARM⟩
/-- SKM_ELEM_CNT[63:0], 06 R306: elements read, all passes and all jobs -/
def SKM_ELEM_CNT.COUNT : Fld := ⟨.SKM_ELEM_CNT, 0, 64, .RCL, 0, .WARM⟩
/-- SKM_JOB_SEL[3:0], 06 R306: selected job -/
def SKM_JOB_SEL.JOB : Fld := ⟨.SKM_JOB_SEL, 0, 4, .RW, 0, .WARM⟩
/-- SKM_JOB_SCREEN[48:32], 06 R306: cohorts excluded in the latest round (R292) -/
def SKM_JOB_SCREEN.EXCLUDED : Fld := ⟨.SKM_JOB_SCREEN, 32, 17, .RO, 0, .JOB⟩
/-- SKM_JOB_SCREEN[16:0], 06 R306: cohorts flagged in the latest round -/
def SKM_JOB_SCREEN.FLAGGED : Fld := ⟨.SKM_JOB_SCREEN, 0, 17, .RO, 0, .JOB⟩
/-- SKM_EVENT[2:2], 06 R306: screening did not run (R293) -/
def SKM_EVENT.SCREEN_SKIP_EV : Fld := ⟨.SKM_EVENT, 2, 1, .W1C, 0, .WARM⟩
/-- SKM_EVENT[1:1], 06 R306: an operation met a non-finite element (R286) -/
def SKM_EVENT.NONFINITE_EV : Fld := ⟨.SKM_EVENT, 1, 1, .W1C, 0, .WARM⟩
/-- SKM_EVENT[0:0], 06 R306: a known-answer test failed -/
def SKM_EVENT.KAT_FAIL_EV : Fld := ⟨.SKM_EVENT, 0, 1, .W1C, 0, .WARM⟩
/-- RIND_CTRL[2:2], 07 R353: wait for a second complete group before decoding (R347) -/
def RIND_CTRL.SPARE_GROUP : Fld := ⟨.RIND_CTRL, 2, 1, .RW, 1, .WARM⟩
/-- RIND_CTRL[1:1], 07 R353: writing 1 runs the NTT, lane and residue-check known-answer tests on idle units -/
def RIND_CTRL.KAT_RUN : Fld := ⟨.RIND_CTRL, 1, 1, .WO, 0, .WARM⟩
/-- RIND_CTRL[0:0], 07 R353: at 0 Rind starts no new operation; operations in flight complete -/
def RIND_CTRL.ENABLE : Fld := ⟨.RIND_CTRL, 0, 1, .RW, 1, .WARM⟩
/-- RIND_STATUS[25:25], 07 R353: the latest known-answer test passed -/
def RIND_STATUS.KAT_PASS : Fld := ⟨.RIND_STATUS, 25, 1, .RO, 0, .WARM⟩
/-- RIND_STATUS[24:24], 07 R353: a known-answer test has completed since reset -/
def RIND_STATUS.KAT_DONE : Fld := ⟨.RIND_STATUS, 24, 1, .RO, 0, .WARM⟩
/-- RIND_STATUS[21:16], 07 R353: NTT pipelines not fenced -/
def RIND_STATUS.PIPES_LIVE : Fld := ⟨.RIND_STATUS, 16, 6, .RO, 32, .WARM⟩
/-- RIND_STATUS[13:0], 07 R353: lanes not fenced -/
def RIND_STATUS.LANES_LIVE : Fld := ⟨.RIND_STATUS, 0, 14, .RO, 8192, .WARM⟩
/-- RIND_CATALOGUE[13:8], 07 R353: bit n: set n + 1 supported -/
def RIND_CATALOGUE.SETS : Fld := ⟨.RIND_CATALOGUE, 8, 6, .RO, 63, .COLD⟩
/-- RIND_CATALOGUE[7:0], 07 R353: catalogue version -/
def RIND_CATALOGUE.VERSION : Fld := ⟨.RIND_CATALOGUE, 0, 8, .RO, 1, .COLD⟩
/-- RIND_PIPE_FENCE[31:0], 07 R353: bit n: pipeline n fenced -/
def RIND_PIPE_FENCE.FENCED : Fld := ⟨.RIND_PIPE_FENCE, 0, 32, .RO, 0, .COLD⟩
/-- RIND_LANE_FENCE[29:16], 07 R353: number of the most recently fenced lane -/
def RIND_LANE_FENCE.LAST : Fld := ⟨.RIND_LANE_FENCE, 16, 14, .RO, 0, .COLD⟩
/-- RIND_LANE_FENCE[13:0], 07 R353: lanes fenced -/
def RIND_LANE_FENCE.COUNT : Fld := ⟨.RIND_LANE_FENCE, 0, 14, .RO, 0, .COLD⟩
/-- RIND_NTT_CNT[63:0], 07 R353: limb-NTTs and inverse limb-NTTs, all jobs -/
def RIND_NTT_CNT.COUNT : Fld := ⟨.RIND_NTT_CNT, 0, 64, .RCL, 0, .WARM⟩
/-- RIND_LANE_OPS[63:0], 07 R353: lane operations, all jobs -/
def RIND_LANE_OPS.COUNT : Fld := ⟨.RIND_LANE_OPS, 0, 64, .RCL, 0, .WARM⟩
/-- RIND_RESIDUE_CNT[63:0], 07 R353: failed residue checks (R330) -/
def RIND_RESIDUE_CNT.COUNT : Fld := ⟨.RIND_RESIDUE_CNT, 0, 64, .RCL, 0, .WARM⟩
/-- RIND_HASH_BYTES[63:0], 07 R353: bytes hashed for manifests (R345) -/
def RIND_HASH_BYTES.COUNT : Fld := ⟨.RIND_HASH_BYTES, 0, 64, .RCL, 0, .WARM⟩
/-- RIND_JOB_SEL[3:0], 07 R353: selected job -/
def RIND_JOB_SEL.JOB : Fld := ⟨.RIND_JOB_SEL, 0, 4, .RW, 0, .WARM⟩
/-- RIND_JOB_KEYS[31:16], 07 R353: bit n: key-table entry n locked by a round (R337) -/
def RIND_JOB_KEYS.LOCKED : Fld := ⟨.RIND_JOB_KEYS, 16, 16, .RO, 0, .JOB⟩
/-- RIND_JOB_KEYS[15:0], 07 R353: bit n: key-table entry n loaded -/
def RIND_JOB_KEYS.VALID : Fld := ⟨.RIND_JOB_KEYS, 0, 16, .RO, 0, .JOB⟩
/-- RIND_JOB_EXPORT[35:32], 07 R353: bit g: group g complete in the latest sealed round -/
def RIND_JOB_EXPORT.GROUPS_DONE : Fld := ⟨.RIND_JOB_EXPORT, 32, 4, .RO, 0, .JOB⟩
/-- RIND_JOB_EXPORT[31:0], 07 R353: ciphertexts exported in the latest sealed round, summed over groups -/
def RIND_JOB_EXPORT.EXPORTED : Fld := ⟨.RIND_JOB_EXPORT, 0, 32, .RO, 0, .JOB⟩
/-- RIND_JOB_DECODE[48:32], 07 R353: cohorts abandoned with SHARES_INCONSISTENT in the latest sealed round -/
def RIND_JOB_DECODE.INCONSISTENT : Fld := ⟨.RIND_JOB_DECODE, 32, 17, .RO, 0, .JOB⟩
/-- RIND_JOB_DECODE[31:0], 07 R353: ciphertexts decoded in the latest sealed round -/
def RIND_JOB_DECODE.DECODED : Fld := ⟨.RIND_JOB_DECODE, 0, 32, .RO, 0, .JOB⟩
/-- RIND_JOB_REFRESH[31:16], 07 R353: longest wait of a queued REFRESH before it joins an export, in seconds (R350); reset 3,600; 0 waits without limit -/
def RIND_JOB_REFRESH.WAIT_S : Fld := ⟨.RIND_JOB_REFRESH, 16, 16, .RW, 3600, .JOB⟩
/-- RIND_JOB_REFRESH[6:0], 07 R353: refresh operations waiting, 0 to 64 -/
def RIND_JOB_REFRESH.QUEUED : Fld := ⟨.RIND_JOB_REFRESH, 0, 7, .RO, 0, .JOB⟩
/-- RIND_JOB_LAST[10:8], 07 R353: class of the operation: 0 admission, 1 host operation, 2 export, 3 decode, 4 refresh -/
def RIND_JOB_LAST.CLASS : Fld := ⟨.RIND_JOB_LAST, 8, 3, .RO, 0, .JOB⟩
/-- RIND_JOB_LAST[7:0], 07 R353: latest status other than OK, from the table Rind statuses -/
def RIND_JOB_LAST.STATUS : Fld := ⟨.RIND_JOB_LAST, 0, 8, .RO, 0, .JOB⟩
/-- RIND_EVENT[5:5], 07 R353: a group was absent or two groups disagreed (R347, R348) -/
def RIND_EVENT.GROUP_EV : Fld := ⟨.RIND_EVENT, 5, 1, .W1C, 0, .WARM⟩
/-- RIND_EVENT[4:4], 07 R353: an operation completed with BUDGET_EXHAUSTED -/
def RIND_EVENT.BUDGET_EV : Fld := ⟨.RIND_EVENT, 4, 1, .W1C, 0, .WARM⟩
/-- RIND_EVENT[3:3], 07 R353: an operation completed with KEY_MISMATCH -/
def RIND_EVENT.KEY_EV : Fld := ⟨.RIND_EVENT, 3, 1, .W1C, 0, .WARM⟩
/-- RIND_EVENT[2:2], 07 R353: a residue check failed -/
def RIND_EVENT.RESIDUE_EV : Fld := ⟨.RIND_EVENT, 2, 1, .W1C, 0, .WARM⟩
/-- RIND_EVENT[1:1], 07 R353: a lane or pipeline was fenced -/
def RIND_EVENT.FENCE_EV : Fld := ⟨.RIND_EVENT, 1, 1, .W1C, 0, .WARM⟩
/-- RIND_EVENT[0:0], 07 R353: a known-answer test failed; the failing unit is fenced -/
def RIND_EVENT.KAT_FAIL_EV : Fld := ⟨.RIND_EVENT, 0, 1, .W1C, 0, .WARM⟩
/-- HIF_RCP_STORE[47:32], 08 R398: free words in the loadable area -/
def HIF_RCP_STORE.FREE : Fld := ⟨.HIF_RCP_STORE, 32, 16, .RO, 0, .WARM⟩
/-- HIF_RCP_STORE[31:16], 08 R398: words used by loaded recipes -/
def HIF_RCP_STORE.LOAD_USED : Fld := ⟨.HIF_RCP_STORE, 16, 16, .RO, 0, .WARM⟩
/-- HIF_RCP_STORE[15:0], 08 R398: words used by the firmware image -/
def HIF_RCP_STORE.FW_USED : Fld := ⟨.HIF_RCP_STORE, 0, 16, .RO, 0, .WARM⟩
/-- HIF_RCP_ABI[15:8], 08 R398: bit v set: ABI version v accepted -/
def HIF_RCP_ABI.ACCEPTED : Fld := ⟨.HIF_RCP_ABI, 8, 8, .RO, 2, .COLD⟩
/-- HIF_RCP_ABI[7:0], 08 R398: implemented recipe ABI version -/
def HIF_RCP_ABI.IMPL : Fld := ⟨.HIF_RCP_ABI, 0, 8, .RO, 1, .COLD⟩
/-- HIF_RCP_SLOT_SEL[9:0], 08 R398: selected slot -/
def HIF_RCP_SLOT_SEL.SLOT : Fld := ⟨.HIF_RCP_SLOT_SEL, 0, 10, .RW, 0, .WARM⟩
/-- HIF_RCP_SLOT_INFO[63:63], 08 R398: the slot holds a recipe -/
def HIF_RCP_SLOT_INFO.VALID : Fld := ⟨.HIF_RCP_SLOT_INFO, 63, 1, .RO, 0, .WARM⟩
/-- HIF_RCP_SLOT_INFO[62:62], 08 R398: firmware slot -/
def HIF_RCP_SLOT_INFO.FIRMWARE : Fld := ⟨.HIF_RCP_SLOT_INFO, 62, 1, .RO, 0, .WARM⟩
/-- HIF_RCP_SLOT_INFO[61:58], 08 R398: owning job of a loaded recipe -/
def HIF_RCP_SLOT_INFO.OWNER : Fld := ⟨.HIF_RCP_SLOT_INFO, 58, 4, .RO, 0, .WARM⟩
/-- HIF_RCP_SLOT_INFO[57:55], 08 R398: sequencer code -/
def HIF_RCP_SLOT_INFO.SEQ : Fld := ⟨.HIF_RCP_SLOT_INFO, 55, 3, .RO, 0, .WARM⟩
/-- HIF_RCP_SLOT_INFO[54:54], 08 R398: 0 HOST, 1 FW -/
def HIF_RCP_SLOT_INFO.CLASS : Fld := ⟨.HIF_RCP_SLOT_INFO, 54, 1, .RO, 0, .WARM⟩
/-- HIF_RCP_SLOT_INFO[53:51], 08 R398: arguments taken -/
def HIF_RCP_SLOT_INFO.ARGS : Fld := ⟨.HIF_RCP_SLOT_INFO, 51, 3, .RO, 0, .WARM⟩
/-- HIF_RCP_SLOT_INFO[50:43], 08 R398: load generation (R397); JOB domain of the owner -/
def HIF_RCP_SLOT_INFO.GEN : Fld := ⟨.HIF_RCP_SLOT_INFO, 43, 8, .RO, 0, .JOB⟩
/-- HIF_RCP_SLOT_INFO[42:32], 08 R398: program length in words -/
def HIF_RCP_SLOT_INFO.WORDS : Fld := ⟨.HIF_RCP_SLOT_INFO, 32, 11, .RO, 0, .WARM⟩
/-- HIF_RCP_SLOT_INFO[7:0], 08 R398: invocations of the slot running or waiting -/
def HIF_RCP_SLOT_INFO.RUNNING : Fld := ⟨.HIF_RCP_SLOT_INFO, 0, 8, .RO, 0, .WARM⟩
/-- HIF_RCP_SLOT_DIGEST[63:0], 08 R398: bytes 8n to 8n + 7 of the selected slot's DIGEST; every word reads 0 for an empty slot -/
def HIF_RCP_SLOT_DIGEST.DIGEST : Fld := ⟨.HIF_RCP_SLOT_DIGEST, 0, 64, .RO, 0, .WARM⟩
/-- HIF_RCP_WDOG[23:0], 08 R398: watchdog for descriptor invocations in milliseconds (R377); reset 60,000; 0 disables -/
def HIF_RCP_WDOG.MS : Fld := ⟨.HIF_RCP_WDOG, 0, 24, .RW, 60000, .WARM⟩
/-- HIF_RCP_FAULT[63:63], 08 R398: a fault has been recorded since the last read -/
def HIF_RCP_FAULT.VALID : Fld := ⟨.HIF_RCP_FAULT, 63, 1, .RCL, 0, .WARM⟩
/-- HIF_RCP_FAULT[59:56], 08 R398: job of the faulting invocation -/
def HIF_RCP_FAULT.JOB : Fld := ⟨.HIF_RCP_FAULT, 56, 4, .RCL, 0, .WARM⟩
/-- HIF_RCP_FAULT[55:48], 08 R398: its status from the table Recipe statuses -/
def HIF_RCP_FAULT.STATUS : Fld := ⟨.HIF_RCP_FAULT, 48, 8, .RCL, 0, .WARM⟩
/-- HIF_RCP_FAULT[31:0], 08 R398: identity of the faulting instruction (R397) -/
def HIF_RCP_FAULT.RECIPE_ID : Fld := ⟨.HIF_RCP_FAULT, 0, 32, .RCL, 0, .WARM⟩
/-- HIF_RCP_CTX[55:0], 08 R398: byte s − 1: busy contexts of sequencer code s, 0 to 32 -/
def HIF_RCP_CTX.BUSY : Fld := ⟨.HIF_RCP_CTX, 0, 56, .RO, 0, .WARM⟩
/-- HIF_RCP_EVENT[3:3], 08 R398: the loadable area was compacted (R362) -/
def HIF_RCP_EVENT.COMPACT_EV : Fld := ⟨.HIF_RCP_EVENT, 3, 1, .W1C, 0, .WARM⟩
/-- HIF_RCP_EVENT[2:2], 08 R398: a load completed with a status other than OK -/
def HIF_RCP_EVENT.LOAD_FAIL_EV : Fld := ⟨.HIF_RCP_EVENT, 2, 1, .W1C, 0, .WARM⟩
/-- HIF_RCP_EVENT[1:1], 08 R398: an invocation ended with TIMEOUT -/
def HIF_RCP_EVENT.TIMEOUT_EV : Fld := ⟨.HIF_RCP_EVENT, 1, 1, .W1C, 0, .WARM⟩
/-- HIF_RCP_EVENT[0:0], 08 R398: an invocation from a descriptor faulted -/
def HIF_RCP_EVENT.FAULT_EV : Fld := ⟨.HIF_RCP_EVENT, 0, 1, .W1C, 0, .WARM⟩
/-- HIF_VF_SQ_BASE[63:12], 09 R451: ring base, bits 63:12; writes ignored while enabled -/
def HIF_VF_SQ_BASE.ADDR : Fld := ⟨.HIF_VF_SQ_BASE, 12, 52, .RW, 0, .WARM⟩
/-- HIF_VF_SQ_CFG[31:31], 09 R451: R412, R433 -/
def HIF_VF_SQ_CFG.ENABLE : Fld := ⟨.HIF_VF_SQ_CFG, 31, 1, .RW, 0, .WARM⟩
/-- HIF_VF_SQ_CFG[17:16], 09 R451: ring ABI 1 or 2 (R434) -/
def HIF_VF_SQ_CFG.ABI : Fld := ⟨.HIF_VF_SQ_CFG, 16, 2, .RW, 2, .WARM⟩
/-- HIF_VF_SQ_CFG[4:0], 09 R451: 4 to 16 -/
def HIF_VF_SQ_CFG.LOG2_SIZE : Fld := ⟨.HIF_VF_SQ_CFG, 0, 5, .RW, 4, .WARM⟩
/-- HIF_VF_SQ_TAIL[15:0], 09 R451: doorbell (R431) -/
def HIF_VF_SQ_TAIL.TAIL : Fld := ⟨.HIF_VF_SQ_TAIL, 0, 16, .RW, 0, .WARM⟩
/-- HIF_VF_SQ_HEAD[15:0], 09 R451: next slot to fetch -/
def HIF_VF_SQ_HEAD.HEAD : Fld := ⟨.HIF_VF_SQ_HEAD, 0, 16, .RO, 0, .WARM⟩
/-- HIF_VF_CQ_BASE[63:12], 09 R451: ring base; writes ignored while enabled -/
def HIF_VF_CQ_BASE.ADDR : Fld := ⟨.HIF_VF_CQ_BASE, 12, 52, .RW, 0, .WARM⟩
/-- HIF_VF_CQ_CFG[31:31], 09 R451: R412, R433 -/
def HIF_VF_CQ_CFG.ENABLE : Fld := ⟨.HIF_VF_CQ_CFG, 31, 1, .RW, 0, .WARM⟩
/-- HIF_VF_CQ_CFG[4:0], 09 R451: 4 to 16 -/
def HIF_VF_CQ_CFG.LOG2_SIZE : Fld := ⟨.HIF_VF_CQ_CFG, 0, 5, .RW, 4, .WARM⟩
/-- HIF_VF_CQ_HEAD[15:0], 09 R451: doorbell (R432) -/
def HIF_VF_CQ_HEAD.HEAD : Fld := ⟨.HIF_VF_CQ_HEAD, 0, 16, .RW, 0, .WARM⟩
/-- HIF_VF_CQ_TAIL[16:16], 09 R451: current write phase -/
def HIF_VF_CQ_TAIL.PHASE : Fld := ⟨.HIF_VF_CQ_TAIL, 16, 1, .RO, 1, .WARM⟩
/-- HIF_VF_CQ_TAIL[15:0], 09 R451: next entry to write -/
def HIF_VF_CQ_TAIL.TAIL : Fld := ⟨.HIF_VF_CQ_TAIL, 0, 16, .RO, 0, .WARM⟩
/-- HIF_VF_STATUS[9:9], 09 R451: the job is confidential -/
def HIF_VF_STATUS.CONFIDENTIAL : Fld := ⟨.HIF_VF_STATUS, 9, 1, .RO, 0, .WARM⟩
/-- HIF_VF_STATUS[8:8], 09 R451: the job exists -/
def HIF_VF_STATUS.JOB_CREATED : Fld := ⟨.HIF_VF_STATUS, 8, 1, .RO, 0, .WARM⟩
/-- HIF_VF_STATUS[2:2], 09 R451: R445 -/
def HIF_VF_STATUS.HAIL_DONE : Fld := ⟨.HIF_VF_STATUS, 2, 1, .RO, 0, .WARM⟩
/-- HIF_VF_STATUS[1:1], 09 R451: R432 -/
def HIF_VF_STATUS.CQ_ERR : Fld := ⟨.HIF_VF_STATUS, 1, 1, .RO, 0, .WARM⟩
/-- HIF_VF_STATUS[0:0], 09 R451: R431 -/
def HIF_VF_STATUS.SQ_ERR : Fld := ⟨.HIF_VF_STATUS, 0, 1, .RO, 0, .WARM⟩
/-- HIF_VF_RES_STAT[63:63], 09 R451: R437 -/
def HIF_VF_RES_STAT.NOT_READY : Fld := ⟨.HIF_VF_RES_STAT, 63, 1, .RO, 0, .WARM⟩
/-- HIF_VF_RES_STAT[62:62], 09 R451: R438 -/
def HIF_VF_RES_STAT.STALE : Fld := ⟨.HIF_VF_RES_STAT, 62, 1, .RO, 0, .WARM⟩
/-- HIF_VF_RES_STAT[55:48], 09 R451: as the ROUND_END body -/
def HIF_VF_RES_STAT.SPACE : Fld := ⟨.HIF_VF_RES_STAT, 48, 8, .RO, 0, .WARM⟩
/-- HIF_VF_RES_STAT[47:32], 09 R451: as the ROUND_END body -/
def HIF_VF_RES_STAT.DETAIL : Fld := ⟨.HIF_VF_RES_STAT, 32, 16, .RO, 0, .WARM⟩
/-- HIF_VF_RES_STAT[31:0], 09 R451: round number; a read takes the result (R436) -/
def HIF_VF_RES_STAT.ROUND : Fld := ⟨.HIF_VF_RES_STAT, 0, 32, .RO, 0, .WARM⟩
/-- HIF_VF_RES_DIGEST[63:0], 09 R451: bytes 8n to 8n + 7 of the taken result's RELEASE_DIGEST (R439) -/
def HIF_VF_RES_DIGEST.DIGEST : Fld := ⟨.HIF_VF_RES_DIGEST, 0, 64, .RO, 0, .WARM⟩
/-- HIF_VF_EVLOG_STAT[31:16], 09 R451: records discarded, saturating (R449) -/
def HIF_VF_EVLOG_STAT.LOST : Fld := ⟨.HIF_VF_EVLOG_STAT, 16, 16, .RCL, 0, .WARM⟩
/-- HIF_VF_EVLOG_STAT[15:15], 09 R451: R449 -/
def HIF_VF_EVLOG_STAT.OVERRUN : Fld := ⟨.HIF_VF_EVLOG_STAT, 15, 1, .W1C, 0, .WARM⟩
/-- HIF_VF_EVLOG_STAT[14:14], 09 R451: R448 -/
def HIF_VF_EVLOG_STAT.UNDERRUN : Fld := ⟨.HIF_VF_EVLOG_STAT, 14, 1, .W1C, 0, .WARM⟩
/-- HIF_VF_EVLOG_STAT[13:13], 09 R451: a record is partly read -/
def HIF_VF_EVLOG_STAT.MID_RECORD : Fld := ⟨.HIF_VF_EVLOG_STAT, 13, 1, .RO, 0, .WARM⟩
/-- HIF_VF_EVLOG_STAT[11:0], 09 R451: whole records held; 0 to 1,024, or 0 to 2,048 in the module log -/
def HIF_VF_EVLOG_STAT.RECORDS : Fld := ⟨.HIF_VF_EVLOG_STAT, 0, 12, .RO, 0, .WARM⟩
/-- HIF_VF_EVLOG_DATA[63:0], 09 R451: next word; a read removes it (R448) -/
def HIF_VF_EVLOG_DATA.WORD : Fld := ⟨.HIF_VF_EVLOG_DATA, 0, 64, .RO, 0, .WARM⟩
/-- HIF_VF_EVLOG_CTRL[1:1], 09 R451: R450 -/
def HIF_VF_EVLOG_CTRL.FLUSH_ALL : Fld := ⟨.HIF_VF_EVLOG_CTRL, 1, 1, .WO, 0, .WARM⟩
/-- HIF_VF_EVLOG_CTRL[0:0], 09 R451: R450 -/
def HIF_VF_EVLOG_CTRL.FLUSH : Fld := ⟨.HIF_VF_EVLOG_CTRL, 0, 1, .WO, 0, .WARM⟩
/-- FERRY_TX_DATA[63:0], 09 R451: bytes 8n to 8n + 7 of the outgoing block message -/
def FERRY_TX_DATA.DATA : Fld := ⟨.FERRY_TX_DATA, 0, 64, .RW, 0, .WARM⟩
/-- FERRY_TX_CTRL[63:32], 09 R451: notice bits, in notice mode -/
def FERRY_TX_CTRL.NOTICE : Fld := ⟨.FERRY_TX_CTRL, 32, 32, .WO, 0, .WARM⟩
/-- FERRY_TX_CTRL[8:8], 09 R451: 0 block, 1 notice; the write sends -/
def FERRY_TX_CTRL.MODE : Fld := ⟨.FERRY_TX_CTRL, 8, 1, .WO, 0, .WARM⟩
/-- FERRY_TX_CTRL[6:0], 09 R451: block length, 1 to 64; 0 and 65 to 127 send nothing in block mode (R442) -/
def FERRY_TX_CTRL.LEN : Fld := ⟨.FERRY_TX_CTRL, 0, 7, .WO, 0, .WARM⟩
/-- FERRY_TX_STAT[2:2], 09 R451: the receiver was reset (R444) -/
def FERRY_TX_STAT.ABORTED : Fld := ⟨.FERRY_TX_STAT, 2, 1, .W1C, 0, .WARM⟩
/-- FERRY_TX_STAT[1:1], 09 R451: a block send was refused (R442) -/
def FERRY_TX_STAT.BUSY : Fld := ⟨.FERRY_TX_STAT, 1, 1, .W1C, 0, .WARM⟩
/-- FERRY_TX_STAT[0:0], 09 R451: the channel holds an untaken block -/
def FERRY_TX_STAT.BLOCK_FULL : Fld := ⟨.FERRY_TX_STAT, 0, 1, .RO, 0, .WARM⟩
/-- FERRY_RX_DATA[63:0], 09 R451: bytes 8n to 8n + 7 of the held block message -/
def FERRY_RX_DATA.DATA : Fld := ⟨.FERRY_RX_DATA, 0, 64, .RO, 0, .WARM⟩
/-- FERRY_RX_STAT[31:24], 09 R451: stamp of the latest notice (R443) -/
def FERRY_RX_STAT.NOTICE_SENDER : Fld := ⟨.FERRY_RX_STAT, 24, 8, .RO, 0, .WARM⟩
/-- FERRY_RX_STAT[23:16], 09 R451: stamp of the held block (R441) -/
def FERRY_RX_STAT.SENDER : Fld := ⟨.FERRY_RX_STAT, 16, 8, .RO, 0, .WARM⟩
/-- FERRY_RX_STAT[14:8], 09 R451: length of the held block -/
def FERRY_RX_STAT.LEN : Fld := ⟨.FERRY_RX_STAT, 8, 7, .RO, 0, .WARM⟩
/-- FERRY_RX_STAT[0:0], 09 R451: a block is held -/
def FERRY_RX_STAT.BLOCK_FULL : Fld := ⟨.FERRY_RX_STAT, 0, 1, .RO, 0, .WARM⟩
/-- FERRY_RX_TAKE[0:0], 09 R451: writing 1 takes the held block (R442) -/
def FERRY_RX_TAKE.BLOCK : Fld := ⟨.FERRY_RX_TAKE, 0, 1, .WO, 0, .WARM⟩
/-- FERRY_RX_NOTICE[31:0], 09 R451: pending notice bits (R443) -/
def FERRY_RX_NOTICE.NOTICE : Fld := ⟨.FERRY_RX_NOTICE, 0, 32, .RCL, 0, .WARM⟩
/-- FERRY_CTRL[0:0], 09 R451: writing 1 resets this function's inbound channel (R444) -/
def FERRY_CTRL.RX_RESET : Fld := ⟨.FERRY_CTRL, 0, 1, .WO, 0, .WARM⟩
/-- HIF_LINK[31:31], 09 R452: link trained -/
def HIF_LINK.UP : Fld := ⟨.HIF_LINK, 31, 1, .RO, 0, .COLD⟩
/-- HIF_LINK[30:30], 09 R452: link IDE in use -/
def HIF_LINK.IDE_ACTIVE : Fld := ⟨.HIF_LINK, 30, 1, .RO, 0, .COLD⟩
/-- HIF_LINK[20:16], 09 R452: lanes: 0x08 or 0x10 -/
def HIF_LINK.WIDTH : Fld := ⟨.HIF_LINK, 16, 5, .RO, 0, .COLD⟩
/-- HIF_LINK[15:8], 09 R452: GT/s: 0x40 when up -/
def HIF_LINK.SPEED : Fld := ⟨.HIF_LINK, 8, 8, .RO, 0, .COLD⟩
/-- HIF_LINK[7:0], 09 R452: failed training attempts, saturating (R399) -/
def HIF_LINK.TRAIN_FAILS : Fld := ⟨.HIF_LINK, 0, 8, .RO, 0, .COLD⟩
/-- HIF_VF_SEL[4:0], 09 R452: 0 to 15 selects VF n; 16 selects PF0 -/
def HIF_VF_SEL.FUNC : Fld := ⟨.HIF_VF_SEL, 0, 5, .RW, 0, .WARM⟩
/-- HIF_VF_ACC[63:32], 09 R452: accesses refused under R404 by the selected function -/
def HIF_VF_ACC.MISSIZED : Fld := ⟨.HIF_VF_ACC, 32, 32, .RCL, 0, .WARM⟩
/-- HIF_VF_ACC[31:0], 09 R452: accesses outside the permitted set (R19, R403); accesses to offsets that name no register are not counted; always 0 for PF0 -/
def HIF_VF_ACC.DENIED : Fld := ⟨.HIF_VF_ACC, 0, 32, .RCL, 0, .WARM⟩
/-- HIF_HDM_CTRL[6:0], 09 R452: window size, 0 to 64; writes ignored while the HDM decoder is committed -/
def HIF_HDM_CTRL.WINDOW_GIB : Fld := ⟨.HIF_HDM_CTRL, 0, 7, .RW, 64, .COLD⟩
/-- HIF_HDM_ERR[63:0], 09 R452: CXL.mem accesses outside every region (R406) -/
def HIF_HDM_ERR.COUNT : Fld := ⟨.HIF_HDM_ERR, 0, 64, .RCL, 0, .WARM⟩
/-- HIF_EVENT[5:5], 09 R452: IDE stopped or a VF left TSP lock (R410) -/
def HIF_EVENT.IDE_EV : Fld := ⟨.HIF_EVENT, 5, 1, .W1C, 0, .WARM⟩
/-- HIF_EVENT[4:4], 09 R452: a HAIL_NAK was sent -/
def HIF_EVENT.HAIL_FAIL_EV : Fld := ⟨.HIF_EVENT, 4, 1, .W1C, 0, .WARM⟩
/-- HIF_EVENT[3:3], 09 R452: a denied or missized access occurred -/
def HIF_EVENT.ACC_EV : Fld := ⟨.HIF_EVENT, 3, 1, .W1C, 0, .WARM⟩
/-- HIF_EVENT[2:2], 09 R452: HIF_HDM_ERR increased -/
def HIF_EVENT.HDM_EV : Fld := ⟨.HIF_EVENT, 2, 1, .W1C, 0, .WARM⟩
/-- HIF_EVENT[1:1], 09 R452: a completion ring entered CQ_ERR -/
def HIF_EVENT.CQ_ERR_EV : Fld := ⟨.HIF_EVENT, 1, 1, .W1C, 0, .WARM⟩
/-- HIF_EVENT[0:0], 09 R452: a submission ring entered SQ_ERR -/
def HIF_EVENT.SQ_ERR_EV : Fld := ⟨.HIF_EVENT, 0, 1, .W1C, 0, .WARM⟩
/-- HIF_HDM_REGION[14:8], 09 R452: region size of job n, 0 to 64 -/
def HIF_HDM_REGION.SIZE_GIB : Fld := ⟨.HIF_HDM_REGION, 8, 7, .RW, 0, .COLD⟩
/-- HIF_HDM_REGION[5:0], 09 R452: region start within the window; writes ignored while job n exists; a region that overlaps another or leaves the window makes JOB_CREATE refuse with reason HDM -/
def HIF_HDM_REGION.BASE_GIB : Fld := ⟨.HIF_HDM_REGION, 0, 6, .RW, 0, .COLD⟩
/-- RDMA_PORT_SEL[3:0], 10 R493: selected port -/
def RDMA_PORT_SEL.PORT : Fld := ⟨.RDMA_PORT_SEL, 0, 4, .RW, 0, .WARM⟩
/-- RDMA_PORT_CFG[61:61], 10 R493: 0 800GBASE-DR8; 1 800GBASE-DR8-2; writes ignored while the port is enabled -/
def RDMA_PORT_CFG.PMD : Fld := ⟨.RDMA_PORT_CFG, 61, 1, .RW, 0, .WARM⟩
/-- RDMA_PORT_CFG[60:60], 10 R493: one 802.1Q tag required (R454) -/
def RDMA_PORT_CFG.VLAN_EN : Fld := ⟨.RDMA_PORT_CFG, 60, 1, .RW, 0, .WARM⟩
/-- RDMA_PORT_CFG[59:48], 10 R493: required VLAN identifier -/
def RDMA_PORT_CFG.VLAN_ID : Fld := ⟨.RDMA_PORT_CFG, 48, 12, .RW, 0, .WARM⟩
/-- RDMA_PORT_CFG[47:0], 10 R493: port MAC address -/
def RDMA_PORT_CFG.MAC : Fld := ⟨.RDMA_PORT_CFG, 0, 48, .RW, 0, .WARM⟩
/-- RDMA_PORT_IP[63:0], 10 R493: register n holds address bytes 8n to 8n + 7, byte 8n in bits 63:56 (R455) -/
def RDMA_PORT_IP.ADDR : Fld := ⟨.RDMA_PORT_IP, 0, 64, .RW, 0, .WARM⟩
/-- RDMA_PORT_STAT[63:32], 10 R493: frames dropped under R454 -/
def RDMA_PORT_STAT.DROPPED : Fld := ⟨.RDMA_PORT_STAT, 32, 32, .RCL, 0, .WARM⟩
/-- RDMA_PORT_STAT[31:16], 10 R493: ICRC failures, saturating -/
def RDMA_PORT_STAT.ICRC_ERR : Fld := ⟨.RDMA_PORT_STAT, 16, 16, .RCL, 0, .WARM⟩
/-- RDMA_PORT_STAT[15:0], 10 R493: FCS failures, saturating -/
def RDMA_PORT_STAT.FCS_ERR : Fld := ⟨.RDMA_PORT_STAT, 0, 16, .RCL, 0, .WARM⟩
/-- RDMA_QP_SEL[19:0], 10 R493: selected queue pair, 2 to 1,048,575 -/
def RDMA_QP_SEL.QPN : Fld := ⟨.RDMA_QP_SEL, 0, 20, .RW, 0, .WARM⟩
/-- RDMA_QP_CFG[63:61], 10 R493: 0 RESET, 1 INIT, 2 RTR, 3 RTS, 4 ERROR (R460) -/
def RDMA_QP_CFG.STATE : Fld := ⟨.RDMA_QP_CFG, 61, 3, .RW, 0, .WARM⟩
/-- RDMA_QP_CFG[60:60], 10 R493: 0 RC, 1 UD -/
def RDMA_QP_CFG.TYPE : Fld := ⟨.RDMA_QP_CFG, 60, 1, .RW, 0, .WARM⟩
/-- RDMA_QP_CFG[59:58], 10 R493: 0 FRONT_END, 1 PEER, 2 ACCESS -/
def RDMA_QP_CFG.CLASS : Fld := ⟨.RDMA_QP_CFG, 58, 2, .RW, 0, .WARM⟩
/-- RDMA_QP_CFG[57:57], 10 R493: R487 -/
def RDMA_QP_CFG.SEALED : Fld := ⟨.RDMA_QP_CFG, 57, 1, .RW, 0, .WARM⟩
/-- RDMA_QP_CFG[56:56], 10 R493: R462 -/
def RDMA_QP_CFG.PIN : Fld := ⟨.RDMA_QP_CFG, 56, 1, .RW, 0, .WARM⟩
/-- RDMA_QP_CFG[55:52], 10 R493: owning job -/
def RDMA_QP_CFG.JOB : Fld := ⟨.RDMA_QP_CFG, 52, 4, .RW, 0, .WARM⟩
/-- RDMA_QP_CFG[51:48], 10 R493: port -/
def RDMA_QP_CFG.PORT : Fld := ⟨.RDMA_QP_CFG, 48, 4, .RW, 0, .WARM⟩
/-- RDMA_QP_CFG[47:46], 10 R493: 0 1,024; 1 2,048; 2 4,096 bytes -/
def RDMA_QP_CFG.MTU : Fld := ⟨.RDMA_QP_CFG, 46, 2, .RW, 2, .WARM⟩
/-- RDMA_QP_CFG[45:43], 10 R493: retries (R478) -/
def RDMA_QP_CFG.RETRY : Fld := ⟨.RDMA_QP_CFG, 43, 3, .RW, 7, .WARM⟩
/-- RDMA_QP_CFG[42:38], 10 R493: timeout exponent (R478) -/
def RDMA_QP_CFG.TIMEOUT : Fld := ⟨.RDMA_QP_CFG, 38, 5, .RW, 8, .WARM⟩
/-- RDMA_QP_CFG[35:24], 10 R493: front-end of a FRONT_END queue pair -/
def RDMA_QP_CFG.FE : Fld := ⟨.RDMA_QP_CFG, 24, 12, .RW, 0, .WARM⟩
/-- RDMA_QP_CFG[23:0], 10 R493: partner's queue pair; unused for UD -/
def RDMA_QP_CFG.REMOTE_QPN : Fld := ⟨.RDMA_QP_CFG, 0, 24, .RW, 0, .WARM⟩
/-- RDMA_QP_PSN[47:24], 10 R493: next send PSN; writable in RESET and INIT -/
def RDMA_QP_PSN.SQ_PSN : Fld := ⟨.RDMA_QP_PSN, 24, 24, .RW, 0, .WARM⟩
/-- RDMA_QP_PSN[23:0], 10 R493: expected receive PSN; writable in RESET and INIT -/
def RDMA_QP_PSN.RQ_PSN : Fld := ⟨.RDMA_QP_PSN, 0, 24, .RW, 0, .WARM⟩
/-- RDMA_QP_DEST[47:0], 10 R493: partner MAC (R456) -/
def RDMA_QP_DEST.DMAC : Fld := ⟨.RDMA_QP_DEST, 0, 48, .RW, 0, .WARM⟩
/-- RDMA_QP_DIP[63:0], 10 R493: partner IP address in the layout of RDMA_PORT_IP -/
def RDMA_QP_DIP.ADDR : Fld := ⟨.RDMA_QP_DIP, 0, 64, .RW, 0, .WARM⟩
/-- RDMA_QP_QKEY[31:0], 10 R493: Q_Key that UD datagrams must carry -/
def RDMA_QP_QKEY.QKEY : Fld := ⟨.RDMA_QP_QKEY, 0, 32, .RW, 0, .WARM⟩
/-- RDMA_QP_STAT[63:32], 10 R493: send completion count (R477) -/
def RDMA_QP_STAT.SCC : Fld := ⟨.RDMA_QP_STAT, 32, 32, .RO, 0, .WARM⟩
/-- RDMA_QP_STAT[9:9], 10 R493: context on the die -/
def RDMA_QP_STAT.RESIDENT : Fld := ⟨.RDMA_QP_STAT, 9, 1, .RO, 0, .WARM⟩
/-- RDMA_QP_STAT[8:8], 10 R493: inbound message in progress -/
def RDMA_QP_STAT.IN_MSG : Fld := ⟨.RDMA_QP_STAT, 8, 1, .RO, 0, .WARM⟩
/-- RDMA_QP_STAT[7:0], 10 R493: value from the table RDMA statuses -/
def RDMA_QP_STAT.LAST_ERR : Fld := ⟨.RDMA_QP_STAT, 0, 8, .RO, 0, .WARM⟩
/-- RDMA_JOB_SEL[3:0], 10 R493: selected job -/
def RDMA_JOB_SEL.JOB : Fld := ⟨.RDMA_JOB_SEL, 0, 4, .RW, 0, .WARM⟩
/-- RDMA_JOB_KEY[11:0], 10 R493: job key (R463) -/
def RDMA_JOB_KEY.JOB_KEY : Fld := ⟨.RDMA_JOB_KEY, 0, 12, .RO, 0, .JOB⟩
/-- RDMA_REG_SEL[11:0], 10 R493: selected region of the selected job -/
def RDMA_REG_SEL.REGION : Fld := ⟨.RDMA_REG_SEL, 0, 12, .RW, 0, .WARM⟩
/-- RDMA_REG_BASE[63:0], 10 R493: job-relative base; bits 5:0 read 0; writable while FREE -/
def RDMA_REG_BASE.VA : Fld := ⟨.RDMA_REG_BASE, 0, 64, .RW, 0, .JOB⟩
/-- RDMA_REG_LEN[63:0], 10 R493: length in bytes; bits 5:0 read 0; writable while FREE -/
def RDMA_REG_LEN.LEN : Fld := ⟨.RDMA_REG_LEN, 0, 64, .RW, 0, .JOB⟩
/-- RDMA_REG_CFG[63:62], 10 R493: 0 FREE, 1 LIVE, 2 REVOKING -/
def RDMA_REG_CFG.STATE : Fld := ⟨.RDMA_REG_CFG, 62, 2, .RO, 0, .JOB⟩
/-- RDMA_REG_CFG[61:61], 10 R493: R483 -/
def RDMA_REG_CFG.REVOKE : Fld := ⟨.RDMA_REG_CFG, 61, 1, .WO, 0, .JOB⟩
/-- RDMA_REG_CFG[60:60], 10 R493: R464 -/
def RDMA_REG_CFG.REGISTER : Fld := ⟨.RDMA_REG_CFG, 60, 1, .WO, 0, .JOB⟩
/-- RDMA_REG_CFG[59:58], 10 R493: table Region kinds; writable while FREE (R464) -/
def RDMA_REG_CFG.KIND : Fld := ⟨.RDMA_REG_CFG, 58, 2, .RW, 0, .JOB⟩
/-- RDMA_REG_CFG[57:54], 10 R493: bit 54 R, 55 W, 56 A, 57 F; lowering while LIVE acts under R485 -/
def RDMA_REG_CFG.RIGHTS : Fld := ⟨.RDMA_REG_CFG, 54, 4, .RW, 0, .JOB⟩
/-- RDMA_REG_CFG[53:52], 10 R493: group of an EXPORT or IMPORT region; writable while FREE -/
def RDMA_REG_CFG.GROUP : Fld := ⟨.RDMA_REG_CFG, 52, 2, .RW, 0, .JOB⟩
/-- RDMA_REG_CFG[51:48], 10 R493: member of an IMPORT region; writable while FREE -/
def RDMA_REG_CFG.MEMBER : Fld := ⟨.RDMA_REG_CFG, 48, 4, .RW, 0, .JOB⟩
/-- RDMA_REG_CFG[47:40], 10 R493: generation (R464) -/
def RDMA_REG_CFG.GEN : Fld := ⟨.RDMA_REG_CFG, 40, 8, .RO, 0, .JOB⟩
/-- RDMA_REG_CFG[20:20], 10 R493: access only from BIND_QP; writable while FREE -/
def RDMA_REG_CFG.BIND_EN : Fld := ⟨.RDMA_REG_CFG, 20, 1, .RW, 0, .JOB⟩
/-- RDMA_REG_CFG[19:0], 10 R493: bound queue pair; writable while FREE -/
def RDMA_REG_CFG.BIND_QP : Fld := ⟨.RDMA_REG_CFG, 0, 20, .RW, 0, .JOB⟩
/-- RDMA_REVOKE[15:0], 10 R493: cut-off wait in microseconds (R484) -/
def RDMA_REVOKE.WAIT_US : Fld := ⟨.RDMA_REVOKE, 0, 16, .RW, 1000, .WARM⟩
/-- RDMA_SQP_CTRL[15:8], 10 R493: sealed slot of the queue pair -/
def RDMA_SQP_CTRL.SLOT : Fld := ⟨.RDMA_SQP_CTRL, 8, 8, .RO, 0, .WARM⟩
/-- RDMA_SQP_CTRL[5:4], 10 R493: 0 NONE, 1 KEYPAIR, 2 KEYED, 3 FAILED -/
def RDMA_SQP_CTRL.STATE : Fld := ⟨.RDMA_SQP_CTRL, 4, 2, .RO, 0, .WARM⟩
/-- RDMA_SQP_CTRL[2:2], 10 R493: derive keys (R488) -/
def RDMA_SQP_CTRL.APPLY : Fld := ⟨.RDMA_SQP_CTRL, 2, 1, .WO, 0, .WARM⟩
/-- RDMA_SQP_CTRL[1:1], 10 R493: 0 initiator, 1 responder -/
def RDMA_SQP_CTRL.ROLE : Fld := ⟨.RDMA_SQP_CTRL, 1, 1, .RW, 0, .WARM⟩
/-- RDMA_SQP_CTRL[0:0], 10 R493: generate the ephemeral key pair -/
def RDMA_SQP_CTRL.GEN_KEY : Fld := ⟨.RDMA_SQP_CTRL, 0, 1, .WO, 0, .WARM⟩
/-- RDMA_SQP_LOCAL[63:0], 10 R493: bytes 8n to 8n + 7 of the local point 0x04 ‖ X ‖ Y, byte 8n in bits 63:56; register 12 holds byte 96 in bits 63:56 -/
def RDMA_SQP_LOCAL.POINT : Fld := ⟨.RDMA_SQP_LOCAL, 0, 64, .RO, 0, .WARM⟩
/-- RDMA_SQP_PEER[63:0], 10 R493: peer point, in the layout of RDMA_SQP_LOCAL -/
def RDMA_SQP_PEER.POINT : Fld := ⟨.RDMA_SQP_PEER, 0, 64, .RW, 0, .WARM⟩
/-- RDMA_CACHE[63:40], 10 R493: context misses, saturating -/
def RDMA_CACHE.MISSES : Fld := ⟨.RDMA_CACHE, 40, 24, .RCL, 0, .WARM⟩
/-- RDMA_CACHE[36:20], 10 R493: resident contexts, up to 65,536 -/
def RDMA_CACHE.RESIDENT : Fld := ⟨.RDMA_CACHE, 20, 17, .RO, 0, .WARM⟩
/-- RDMA_CACHE[13:0], 10 R493: pinned queue pairs, up to 8,192 -/
def RDMA_CACHE.PINNED : Fld := ⟨.RDMA_CACHE, 0, 14, .RO, 0, .WARM⟩
/-- RDMA_ERR[63:48], 10 R493: remote access errors sent, saturating -/
def RDMA_ERR.ACCESS_NAK : Fld := ⟨.RDMA_ERR, 48, 16, .RCL, 0, .WARM⟩
/-- RDMA_ERR[47:32], 10 R493: remote invalid requests sent, saturating -/
def RDMA_ERR.INVALID_NAK : Fld := ⟨.RDMA_ERR, 32, 16, .RCL, 0, .WARM⟩
/-- RDMA_ERR[31:16], 10 R493: tag failures (R490), saturating -/
def RDMA_ERR.SEAL_FAIL : Fld := ⟨.RDMA_ERR, 16, 16, .RCL, 0, .WARM⟩
/-- RDMA_ERR[15:0], 10 R493: replayed counters dropped, saturating -/
def RDMA_ERR.REPLAY : Fld := ⟨.RDMA_ERR, 0, 16, .RCL, 0, .WARM⟩
/-- RDMA_EVENT[4:4], 10 R493: a revocation cut a message off (R484) -/
def RDMA_EVENT.CUTOFF_EV : Fld := ⟨.RDMA_EVENT, 4, 1, .W1C, 0, .WARM⟩
/-- RDMA_EVENT[3:3], 10 R493: a sealed queue pair entered ERROR -/
def RDMA_EVENT.SEAL_EV : Fld := ⟨.RDMA_EVENT, 3, 1, .W1C, 0, .WARM⟩
/-- RDMA_EVENT[2:2], 10 R493: a queue pair entered ERROR -/
def RDMA_EVENT.QP_ERR_EV : Fld := ⟨.RDMA_EVENT, 2, 1, .W1C, 0, .WARM⟩
/-- RDMA_EVENT[1:1], 10 R493: a registration was refused (R464) -/
def RDMA_EVENT.REG_EV : Fld := ⟨.RDMA_EVENT, 1, 1, .W1C, 0, .WARM⟩
/-- RDMA_EVENT[0:0], 10 R493: a revocation completed -/
def RDMA_EVENT.REVOKE_DONE_EV : Fld := ⟨.RDMA_EVENT, 0, 1, .W1C, 0, .WARM⟩
/-- TIDE_CTRL[31:24], 11 R526: PTP domain (R495) -/
def TIDE_CTRL.DOMAIN : Fld := ⟨.TIDE_CTRL, 24, 8, .RW, 0, .WARM⟩
/-- TIDE_CTRL[17:17], 11 R526: use the 1PPS input (R498) -/
def TIDE_CTRL.PPS_EN : Fld := ⟨.TIDE_CTRL, 17, 1, .RW, 0, .WARM⟩
/-- TIDE_CTRL[16:16], 11 R526: take PTP from the field ports -/
def TIDE_CTRL.PTP_EN : Fld := ⟨.TIDE_CTRL, 16, 1, .RW, 1, .WARM⟩
/-- TIDE_CTRL[15:0], 11 R526: bit n: PTP accepted on port n -/
def TIDE_CTRL.PORT_MASK : Fld := ⟨.TIDE_CTRL, 0, 16, .RW, 65535, .WARM⟩
/-- TIDE_STATUS[11:8], 11 R526: port of the chosen grandmaster -/
def TIDE_STATUS.PORT : Fld := ⟨.TIDE_STATUS, 8, 4, .RO, 0, .WARM⟩
/-- TIDE_STATUS[4:4], 11 R526: a 1PPS edge was accepted in the last 2 s -/
def TIDE_STATUS.PPS_SEEN : Fld := ⟨.TIDE_STATUS, 4, 1, .RO, 0, .WARM⟩
/-- TIDE_STATUS[2:0], 11 R526: code from the table Time states -/
def TIDE_STATUS.STATE : Fld := ⟨.TIDE_STATUS, 0, 3, .RO, 0, .WARM⟩
/-- TIDE_TIME[63:0], 11 R526: module time in TAI nanoseconds (R494) -/
def TIDE_TIME.TAI : Fld := ⟨.TIDE_TIME, 0, 64, .RO, 0, .WARM⟩
/-- TIDE_ERR[63:32], 11 R526: last measured offset, signed nanoseconds -/
def TIDE_ERR.OFFSET : Fld := ⟨.TIDE_ERR, 32, 32, .RO, 0, .WARM⟩
/-- TIDE_ERR[31:0], 11 R526: error estimate (R497), saturating -/
def TIDE_ERR.EST_NS : Fld := ⟨.TIDE_ERR, 0, 32, .RO, 0, .WARM⟩
/-- TIDE_HOLD[63:32], 11 R526: stated accuracy of the 1PPS input, nanoseconds -/
def TIDE_HOLD.PPS_ERR_NS : Fld := ⟨.TIDE_HOLD, 32, 32, .RW, 1000, .WARM⟩
/-- TIDE_HOLD[13:0], 11 R526: DOUBTFUL threshold, 1 to 10,000 µs (R497) -/
def TIDE_HOLD.LIMIT_US : Fld := ⟨.TIDE_HOLD, 0, 14, .RW, 10000, .WARM⟩
/-- TIDE_GM[63:0], 11 R526: clockIdentity of the chosen grandmaster; a change sets GM_EV -/
def TIDE_GM.ID : Fld := ⟨.TIDE_GM, 0, 64, .RO, 0, .WARM⟩
/-- TIDE_JOB_SEL[3:0], 11 R526: selected job -/
def TIDE_JOB_SEL.JOB : Fld := ⟨.TIDE_JOB_SEL, 0, 4, .RW, 0, .WARM⟩
/-- TIDE_JOB_PHASE[63:32], 11 R526: newest round -/
def TIDE_JOB_PHASE.ROUND : Fld := ⟨.TIDE_JOB_PHASE, 32, 32, .RO, 0, .JOB⟩
/-- TIDE_JOB_PHASE[31:0], 11 R526: its round phase (R500) -/
def TIDE_JOB_PHASE.PHASE : Fld := ⟨.TIDE_JOB_PHASE, 0, 32, .RO, 0, .JOB⟩
/-- TIDE_EVT_SEL[11:0], 11 R526: selected entry -/
def TIDE_EVT_SEL.EVENT : Fld := ⟨.TIDE_EVT_SEL, 0, 12, .RW, 0, .WARM⟩
/-- TIDE_EVT_CFG[63:63], 11 R526: armed; writes act under R506 -/
def TIDE_EVT_CFG.VALID : Fld := ⟨.TIDE_EVT_CFG, 63, 1, .RW, 0, .WARM⟩
/-- TIDE_EVT_CFG[62:62], 11 R526: fires while doubtful (R507) -/
def TIDE_EVT_CFG.DOUBTFUL_OK : Fld := ⟨.TIDE_EVT_CFG, 62, 1, .RW, 0, .WARM⟩
/-- TIDE_EVT_CFG[57:56], 11 R526: 0 USER, 1 PHASE, 2 WAKE, from the entry number (R502) -/
def TIDE_EVT_CFG.TYPE : Fld := ⟨.TIDE_EVT_CFG, 56, 2, .RO, 0, .WARM⟩
/-- TIDE_EVT_CFG[55:52], 11 R526: owning job -/
def TIDE_EVT_CFG.JOB : Fld := ⟨.TIDE_EVT_CFG, 52, 4, .RW, 0, .WARM⟩
/-- TIDE_EVT_CFG[51:48], 11 R526: phase code of a PHASE entry -/
def TIDE_EVT_CFG.PCODE : Fld := ⟨.TIDE_EVT_CFG, 48, 4, .RO, 0, .WARM⟩
/-- TIDE_EVT_CFG[31:0], 11 R526: round-phase value (R504) -/
def TIDE_EVT_CFG.PHASE : Fld := ⟨.TIDE_EVT_CFG, 0, 32, .RW, 0, .WARM⟩
/-- TIDE_EVT_ROUND[31:0], 11 R526: round followed; 0 follows every round -/
def TIDE_EVT_ROUND.ROUND : Fld := ⟨.TIDE_EVT_ROUND, 0, 32, .RW, 0, .WARM⟩
/-- TIDE_EVT_STAT[63:32], 11 R526: times fired, wrapping -/
def TIDE_EVT_STAT.COUNT : Fld := ⟨.TIDE_EVT_STAT, 32, 32, .RO, 0, .WARM⟩
/-- TIDE_EVT_STAT[2:2], 11 R526: the latest firing was late (R504, R507) -/
def TIDE_EVT_STAT.LATE : Fld := ⟨.TIDE_EVT_STAT, 2, 1, .RO, 0, .WARM⟩
/-- TIDE_EVT_STAT[1:1], 11 R526: held by doubtful time -/
def TIDE_EVT_STAT.HELD : Fld := ⟨.TIDE_EVT_STAT, 1, 1, .RO, 0, .WARM⟩
/-- TIDE_EVT_STAT[0:0], 11 R526: fired since last armed -/
def TIDE_EVT_STAT.FIRED : Fld := ⟨.TIDE_EVT_STAT, 0, 1, .RO, 0, .WARM⟩
/-- TIDE_EVENT[4:4], 11 R526: a write to a non-USER entry was ignored -/
def TIDE_EVENT.TABLE_EV : Fld := ⟨.TIDE_EVENT, 4, 1, .W1C, 0, .WARM⟩
/-- TIDE_EVENT[3:3], 11 R526: time stepped (R499) -/
def TIDE_EVENT.STEP_EV : Fld := ⟨.TIDE_EVENT, 3, 1, .W1C, 0, .WARM⟩
/-- TIDE_EVENT[2:2], 11 R526: the grandmaster changed -/
def TIDE_EVENT.GM_EV : Fld := ⟨.TIDE_EVENT, 2, 1, .W1C, 0, .WARM⟩
/-- TIDE_EVENT[1:1], 11 R526: a 1PPS edge was rejected -/
def TIDE_EVENT.PPS_REJ_EV : Fld := ⟨.TIDE_EVENT, 1, 1, .W1C, 0, .WARM⟩
/-- TIDE_EVENT[0:0], 11 R526: the time state changed -/
def TIDE_EVENT.STATE_EV : Fld := ⟨.TIDE_EVENT, 0, 1, .W1C, 0, .WARM⟩
/-- PLT_MODE[31:31], 11 R527: a mode change is in progress (R48) -/
def PLT_MODE.CHANGING : Fld := ⟨.PLT_MODE, 31, 1, .RO, 0, .WARM⟩
/-- PLT_MODE[2:0], 11 R527: 0 Balanced, 1 Ingest, 2 Gate, 3 Sealed, 4 Low-draw -/
def PLT_MODE.MODE : Fld := ⟨.PLT_MODE, 0, 3, .RW, 0, .WARM⟩
/-- PLT_POWER[63:32], 11 R527: envelope of the current mode, watts -/
def PLT_POWER.ENVELOPE_W : Fld := ⟨.PLT_POWER, 32, 32, .RO, 2200, .WARM⟩
/-- PLT_POWER[31:0], 11 R527: module power averaged over the last 1 ms, milliwatts -/
def PLT_POWER.POWER_MW : Fld := ⟨.PLT_POWER, 0, 32, .RO, 0, .WARM⟩
/-- PLT_CLU_SEL[2:0], 11 R527: code from the table Clusters -/
def PLT_CLU_SEL.CLUSTER : Fld := ⟨.PLT_CLU_SEL, 0, 3, .RW, 0, .WARM⟩
/-- PLT_CLU_ENV[17:16], 11 R527: deepest power state allowed (R524) -/
def PLT_CLU_ENV.PS_LIMIT : Fld := ⟨.PLT_CLU_ENV, 16, 2, .RW, 3, .WARM⟩
/-- PLT_CLU_ENV[15:8], 11 R527: rate maximum, percent -/
def PLT_CLU_ENV.MAX_PCT : Fld := ⟨.PLT_CLU_ENV, 8, 8, .RW, 100, .WARM⟩
/-- PLT_CLU_ENV[7:0], 11 R527: rate minimum, percent -/
def PLT_CLU_ENV.MIN_PCT : Fld := ⟨.PLT_CLU_ENV, 0, 8, .RW, 10, .WARM⟩
/-- PLT_CLU_STAT[31:31], 11 R527: DVFS loop pinned -/
def PLT_CLU_STAT.PINNED_RATE : Fld := ⟨.PLT_CLU_STAT, 31, 1, .RO, 0, .WARM⟩
/-- PLT_CLU_STAT[30:30], 11 R527: PSTATE loop pinned -/
def PLT_CLU_STAT.PINNED_PS : Fld := ⟨.PLT_CLU_STAT, 30, 1, .RO, 0, .WARM⟩
/-- PLT_CLU_STAT[29:29], 11 R527: a safety limit overrides the envelope (R519) -/
def PLT_CLU_STAT.SAFETY : Fld := ⟨.PLT_CLU_STAT, 29, 1, .RO, 0, .WARM⟩
/-- PLT_CLU_STAT[25:24], 11 R527: deepest state of any domain of the cluster -/
def PLT_CLU_STAT.PS_DEEP : Fld := ⟨.PLT_CLU_STAT, 24, 2, .RO, 0, .WARM⟩
/-- PLT_CLU_STAT[23:16], 11 R527: effective maximum (R520) -/
def PLT_CLU_STAT.CEIL_PCT : Fld := ⟨.PLT_CLU_STAT, 16, 8, .RO, 80, .WARM⟩
/-- PLT_CLU_STAT[7:0], 11 R527: current rate, percent -/
def PLT_CLU_STAT.RATE_PCT : Fld := ⟨.PLT_CLU_STAT, 0, 8, .RO, 0, .WARM⟩
/-- PLT_JOB_SEL[3:0], 11 R527: selected job -/
def PLT_JOB_SEL.JOB : Fld := ⟨.PLT_JOB_SEL, 0, 4, .RW, 0, .WARM⟩
/-- PLT_JOB_SHARE[63:56], 11 R527: Toll cores, at most -/
def PLT_JOB_SHARE.TOLL_MAX : Fld := ⟨.PLT_JOB_SHARE, 56, 8, .RW, 64, .JOB⟩
/-- PLT_JOB_SHARE[55:48], 11 R527: Toll cores, at least -/
def PLT_JOB_SHARE.TOLL_MIN : Fld := ⟨.PLT_JOB_SHARE, 48, 8, .RW, 0, .JOB⟩
/-- PLT_JOB_SHARE[47:40], 11 R527: Culture lanes, at most -/
def PLT_JOB_SHARE.CUL_MAX : Fld := ⟨.PLT_JOB_SHARE, 40, 8, .RW, 128, .JOB⟩
/-- PLT_JOB_SHARE[39:32], 11 R527: Culture lanes, at least -/
def PLT_JOB_SHARE.CUL_MIN : Fld := ⟨.PLT_JOB_SHARE, 32, 8, .RW, 0, .JOB⟩
/-- PLT_JOB_SHARE[11:8], 11 R527: Press arrays, at most -/
def PLT_JOB_SHARE.ARRAYS_MAX : Fld := ⟨.PLT_JOB_SHARE, 8, 4, .RW, 8, .JOB⟩
/-- PLT_JOB_SHARE[3:0], 11 R527: Press arrays, at least -/
def PLT_JOB_SHARE.ARRAYS_MIN : Fld := ⟨.PLT_JOB_SHARE, 0, 4, .RW, 0, .JOB⟩
/-- PLT_JOB_PIN[31:31], 11 R527: the latest pin write was refused (R514) -/
def PLT_JOB_PIN.PIN_REFUSED : Fld := ⟨.PLT_JOB_PIN, 31, 1, .RO, 0, .JOB⟩
/-- PLT_JOB_PIN[30:30], 11 R527: a pinned unit was fenced (R515) -/
def PLT_JOB_PIN.PIN_LOST : Fld := ⟨.PLT_JOB_PIN, 30, 1, .W1C, 0, .JOB⟩
/-- PLT_JOB_PIN[8:8], 11 R527: keep every ring accumulator in the Vat -/
def PLT_JOB_PIN.RESIDENT : Fld := ⟨.PLT_JOB_PIN, 8, 1, .RW, 0, .JOB⟩
/-- PLT_JOB_PIN[7:0], 11 R527: bit n: array n pinned to the job -/
def PLT_JOB_PIN.ARRAYS : Fld := ⟨.PLT_JOB_PIN, 0, 8, .RW, 0, .JOB⟩
/-- PLT_JOB_HBM[63:32], 11 R527: job structures held in HBM -/
def PLT_JOB_HBM.USED_MIB : Fld := ⟨.PLT_JOB_HBM, 32, 32, .RO, 0, .JOB⟩
/-- PLT_JOB_HBM[9:0], 11 R527: HBM available for placement (R511) -/
def PLT_JOB_HBM.QUOTA_GIB : Fld := ⟨.PLT_JOB_HBM, 0, 10, .RW, 0, .JOB⟩
/-- PLT_JOB_FRAC[31:31], 11 R527: an output of the latest round was under-checked (R523) -/
def PLT_JOB_FRAC.UNDER_CHECKED : Fld := ⟨.PLT_JOB_FRAC, 31, 1, .RO, 0, .JOB⟩
/-- PLT_JOB_FRAC[14:12], 11 R527: fraction code the loop wants -/
def PLT_JOB_FRAC.WANT : Fld := ⟨.PLT_JOB_FRAC, 12, 3, .RO, 0, .JOB⟩
/-- PLT_JOB_FRAC[10:8], 11 R527: fraction code applied -/
def PLT_JOB_FRAC.APPLIED : Fld := ⟨.PLT_JOB_FRAC, 8, 3, .RO, 0, .JOB⟩
/-- PLT_JOB_FRAC[6:4], 11 R527: highest code allowed -/
def PLT_JOB_FRAC.FRAC_MAX : Fld := ⟨.PLT_JOB_FRAC, 4, 3, .RW, 5, .JOB⟩
/-- PLT_JOB_FRAC[2:0], 11 R527: lowest code allowed -/
def PLT_JOB_FRAC.FRAC_MIN : Fld := ⟨.PLT_JOB_FRAC, 0, 3, .RW, 1, .JOB⟩
/-- PLT_JOB_PLACE[63:63], 11 R527: the latest plan was refused with PLACEMENT (R511) -/
def PLT_JOB_PLACE.NOFIT : Fld := ⟨.PLT_JOB_PLACE, 63, 1, .RO, 0, .JOB⟩
/-- PLT_JOB_PLACE[55:48], 11 R527: bit n: array n serves the job -/
def PLT_JOB_PLACE.ARRAYS : Fld := ⟨.PLT_JOB_PLACE, 48, 8, .RO, 0, .JOB⟩
/-- PLT_JOB_PLACE[46:40], 11 R527: Toll cores serving the job -/
def PLT_JOB_PLACE.TOLL : Fld := ⟨.PLT_JOB_PLACE, 40, 7, .RO, 0, .JOB⟩
/-- PLT_JOB_PLACE[39:32], 11 R527: Culture lanes serving the job -/
def PLT_JOB_PLACE.CUL : Fld := ⟨.PLT_JOB_PLACE, 32, 8, .RO, 0, .JOB⟩
/-- PLT_JOB_PLACE[16:0], 11 R527: ring accumulators resident in the Vat -/
def PLT_JOB_PLACE.RESIDENT : Fld := ⟨.PLT_JOB_PLACE, 0, 17, .RO, 0, .JOB⟩
/-- PLT_JOB_PINNED[5:1], 11 R527: bit n: loop code n pinned for the job -/
def PLT_JOB_PINNED.LOOPS : Fld := ⟨.PLT_JOB_PINNED, 1, 5, .RO, 0, .JOB⟩
/-- PLT_EVENT[5:5], 11 R527: a mode change completed -/
def PLT_EVENT.MODE_EV : Fld := ⟨.PLT_EVENT, 5, 1, .W1C, 0, .WARM⟩
/-- PLT_EVENT[4:4], 11 R527: a plan was refused with PLACEMENT -/
def PLT_EVENT.NOFIT_EV : Fld := ⟨.PLT_EVENT, 4, 1, .W1C, 0, .WARM⟩
/-- PLT_EVENT[3:3], 11 R527: work was re-placed after a fence (R516) -/
def PLT_EVENT.REPLACE_EV : Fld := ⟨.PLT_EVENT, 3, 1, .W1C, 0, .WARM⟩
/-- PLT_EVENT[2:2], 11 R527: a safety limit overrode an envelope -/
def PLT_EVENT.SAFETY_EV : Fld := ⟨.PLT_EVENT, 2, 1, .W1C, 0, .WARM⟩
/-- PLT_EVENT[1:1], 11 R527: a loop entered the pinned state -/
def PLT_EVENT.PINNED_EV : Fld := ⟨.PLT_EVENT, 1, 1, .W1C, 0, .WARM⟩
/-- PLT_EVENT[0:0], 11 R527: a pin was refused or lost -/
def PLT_EVENT.PIN_EV : Fld := ⟨.PLT_EVENT, 0, 1, .W1C, 0, .WARM⟩
/-- ENT_CTRL[15:8], 12 R567: bit n enables latch n (R549) -/
def ENT_CTRL.LATCH_EN : Fld := ⟨.ENT_CTRL, 8, 8, .RW, 255, .WARM⟩
/-- ENT_CTRL[0:0], 12 R567: writing 1 enters STARTUP (R547); ignored while PERM_FAIL is 1 -/
def ENT_CTRL.UNIT_RESET : Fld := ⟨.ENT_CTRL, 0, 1, .WO, 0, .WARM⟩
/-- ENT_STATUS[31:31], 12 R567: R550; COLD domain -/
def ENT_STATUS.PERM_FAIL : Fld := ⟨.ENT_STATUS, 31, 1, .RO, 0, .COLD⟩
/-- ENT_STATUS[18:16], 12 R567: 0 STARTUP, 1 READY, 2 FAILED -/
def ENT_STATUS.STATE : Fld := ⟨.ENT_STATUS, 16, 3, .RO, 0, .ENGINE⟩
/-- ENT_STATUS[15:8], 12 R567: bit n: latch n failed the latest failing test -/
def ENT_STATUS.LATCH_FAIL : Fld := ⟨.ENT_STATUS, 8, 8, .RO, 0, .ENGINE⟩
/-- ENT_STATUS[2:0], 12 R567: R550; COLD domain -/
def ENT_STATUS.STARTUP_FAILS : Fld := ⟨.ENT_STATUS, 0, 3, .RO, 0, .COLD⟩
/-- ENT_HEALTH[63:32], 12 R567: windows passed -/
def ENT_HEALTH.WINDOWS : Fld := ⟨.ENT_HEALTH, 32, 32, .RCL, 0, .WARM⟩
/-- ENT_HEALTH[31:16], 12 R567: adaptive proportion failures -/
def ENT_HEALTH.APT_FAILS : Fld := ⟨.ENT_HEALTH, 16, 16, .RCL, 0, .WARM⟩
/-- ENT_HEALTH[15:0], 12 R567: repetition count failures -/
def ENT_HEALTH.RCT_FAILS : Fld := ⟨.ENT_HEALTH, 0, 16, .RCL, 0, .WARM⟩
/-- ENT_DRBG[63:32], 12 R567: reseeds -/
def ENT_DRBG.RESEEDS : Fld := ⟨.ENT_DRBG, 32, 32, .RCL, 0, .WARM⟩
/-- ENT_DRBG[31:0], 12 R567: generate requests served, all wires and the software port -/
def ENT_DRBG.REQUESTS : Fld := ⟨.ENT_DRBG, 0, 32, .RCL, 0, .WARM⟩
/-- ENT_WIRE[7:0], 12 R567: bit n: wire n has a request waiting -/
def ENT_WIRE.WAITING : Fld := ⟨.ENT_WIRE, 0, 8, .RO, 0, .ENGINE⟩
/-- ENT_SW_DATA[63:63], 12 R567: R553 -/
def ENT_SW_DATA.NOT_READY : Fld := ⟨.ENT_SW_DATA, 63, 1, .RO, 0, .ENGINE⟩
/-- ENT_SW_DATA[62:62], 12 R567: R553 -/
def ENT_SW_DATA.ERR : Fld := ⟨.ENT_SW_DATA, 62, 1, .RO, 0, .ENGINE⟩
/-- ENT_SW_DATA[61:61], 12 R567: R553 -/
def ENT_SW_DATA.EMPTY : Fld := ⟨.ENT_SW_DATA, 61, 1, .RO, 0, .ENGINE⟩
/-- ENT_SW_DATA[47:0], 12 R567: fresh bits; a read consumes them -/
def ENT_SW_DATA.DATA : Fld := ⟨.ENT_SW_DATA, 0, 48, .RO, 0, .ENGINE⟩
/-- ENT_EVENT[2:2], 12 R567: PERM_FAIL was set -/
def ENT_EVENT.PERM_EV : Fld := ⟨.ENT_EVENT, 2, 1, .W1C, 0, .WARM⟩
/-- ENT_EVENT[1:1], 12 R567: the unit entered READY -/
def ENT_EVENT.READY_EV : Fld := ⟨.ENT_EVENT, 1, 1, .W1C, 0, .WARM⟩
/-- ENT_EVENT[0:0], 12 R567: the unit entered FAILED -/
def ENT_EVENT.FAIL_EV : Fld := ⟨.ENT_EVENT, 0, 1, .W1C, 0, .WARM⟩
/-- KST_ID[63:0], 12 R568: module serial number -/
def KST_ID.SERIAL : Fld := ⟨.KST_ID, 0, 64, .RO, 0, .COLD⟩
/-- KST_FW[63:32], 12 R568: running image SVN -/
def KST_FW.SVN : Fld := ⟨.KST_FW, 32, 32, .RO, 0, .WARM⟩
/-- KST_FW[7:1], 12 R568: fused SVN, 0 to 64; COLD domain -/
def KST_FW.FUSED_SVN : Fld := ⟨.KST_FW, 1, 7, .RO, 0, .COLD⟩
/-- KST_FW[0:0], 12 R568: 0 bank A, 1 bank B -/
def KST_FW.BANK : Fld := ⟨.KST_FW, 0, 1, .RO, 0, .WARM⟩
/-- KST_FW_DIGEST[63:0], 12 R568: bytes 8n to 8n + 7 of FW_DIGEST -/
def KST_FW_DIGEST.DIGEST : Fld := ⟨.KST_FW_DIGEST, 0, 64, .RO, 0, .WARM⟩
/-- KST_SVN_COMMIT[31:0], 12 R568: R534 -/
def KST_SVN_COMMIT.SVN : Fld := ⟨.KST_SVN_COMMIT, 0, 32, .WO, 0, .WARM⟩
/-- KST_STATUS[31:31], 12 R568: R563; COLD domain -/
def KST_STATUS.DEBUG_LOCKED : Fld := ⟨.KST_STATUS, 31, 1, .RO, 0, .COLD⟩
/-- KST_STATUS[30:30], 12 R568: a confidential job exists -/
def KST_STATUS.CONF_ACTIVE : Fld := ⟨.KST_STATUS, 30, 1, .RO, 0, .WARM⟩
/-- KST_STATUS[29:29], 12 R568: R542; COLD domain -/
def KST_STATUS.CLEAR_WRITTEN : Fld := ⟨.KST_STATUS, 29, 1, .RO, 0, .COLD⟩
/-- KST_STATUS[8:0], 12 R568: slots not BAD, 0 to 256 -/
def KST_STATUS.USABLE : Fld := ⟨.KST_STATUS, 0, 9, .RO, 0, .WARM⟩
/-- KST_SLOT_SEL[7:0], 12 R568: selected slot -/
def KST_SLOT_SEL.SLOT : Fld := ⟨.KST_SLOT_SEL, 0, 8, .RW, 0, .WARM⟩
/-- KST_SLOT_INFO[63:62], 12 R568: 0 EMPTY, 1 VALID, 2 BAD; BAD in the COLD domain -/
def KST_SLOT_INFO.STATE : Fld := ⟨.KST_SLOT_INFO, 62, 2, .RO, 0, .COLD⟩
/-- KST_SLOT_INFO[61:60], 12 R568: table Slot types and uses -/
def KST_SLOT_INFO.TYPE : Fld := ⟨.KST_SLOT_INFO, 60, 2, .RO, 0, .WARM⟩
/-- KST_SLOT_INFO[59:55], 12 R568: 0 to 15 job, 16 firmware, 17 PF0 -/
def KST_SLOT_INFO.OWNER : Fld := ⟨.KST_SLOT_INFO, 55, 5, .RO, 0, .WARM⟩
/-- KST_SLOT_INFO[54:50], 12 R568: use bits -/
def KST_SLOT_INFO.USES : Fld := ⟨.KST_SLOT_INFO, 50, 5, .RO, 0, .WARM⟩
/-- KST_SLOT_INFO[49:49], 12 R568: R540 -/
def KST_SLOT_INFO.EXPIRE : Fld := ⟨.KST_SLOT_INFO, 49, 1, .RO, 0, .WARM⟩
/-- KST_SLOT_USE[63:32], 12 R568: USE_LIMIT; 0 means none -/
def KST_SLOT_USE.LIMIT : Fld := ⟨.KST_SLOT_USE, 32, 32, .RO, 0, .WARM⟩
/-- KST_SLOT_USE[31:0], 12 R568: USE_COUNT (R539) -/
def KST_SLOT_USE.COUNT : Fld := ⟨.KST_SLOT_USE, 0, 32, .RO, 0, .WARM⟩
/-- KST_WR_DATA[63:0], 12 R568: bytes 8n to 8n + 7 of the key; zeroed after each GO or ERASE -/
def KST_WR_DATA.DATA : Fld := ⟨.KST_WR_DATA, 0, 64, .WO, 0, .WARM⟩
/-- KST_WR_CTRL[63:63], 12 R568: stores the key (R542) -/
def KST_WR_CTRL.GO : Fld := ⟨.KST_WR_CTRL, 63, 1, .WO, 0, .WARM⟩
/-- KST_WR_CTRL[62:62], 12 R568: empties the PF0 slot SLOT -/
def KST_WR_CTRL.ERASE : Fld := ⟨.KST_WR_CTRL, 62, 1, .WO, 0, .WARM⟩
/-- KST_WR_CTRL[40:40], 12 R568: R540 -/
def KST_WR_CTRL.EXPIRE : Fld := ⟨.KST_WR_CTRL, 40, 1, .RW, 0, .WARM⟩
/-- KST_WR_CTRL[39:32], 12 R568: 224 to 255 -/
def KST_WR_CTRL.SLOT : Fld := ⟨.KST_WR_CTRL, 32, 8, .RW, 224, .WARM⟩
/-- KST_WR_CTRL[31:0], 12 R568: USE_LIMIT of the stored key -/
def KST_WR_CTRL.LIMIT : Fld := ⟨.KST_WR_CTRL, 0, 32, .RW, 0, .WARM⟩
/-- KST_OP_STAT[15:8], 12 R568: status of the latest challenge, table Security statuses -/
def KST_OP_STAT.CHAL_STATUS : Fld := ⟨.KST_OP_STAT, 8, 8, .RO, 0, .WARM⟩
/-- KST_OP_STAT[7:0], 12 R568: status of the latest GO or ERASE -/
def KST_OP_STAT.WR_STATUS : Fld := ⟨.KST_OP_STAT, 0, 8, .RO, 0, .WARM⟩
/-- KST_CHAL[63:0], 12 R568: bytes 8n to 8n + 7 of the challenge (R543) -/
def KST_CHAL.CHAL : Fld := ⟨.KST_CHAL, 0, 64, .RW, 0, .WARM⟩
/-- KST_CHAL_CTRL[31:31], 12 R568: computes the response -/
def KST_CHAL_CTRL.GO : Fld := ⟨.KST_CHAL_CTRL, 31, 1, .WO, 0, .WARM⟩
/-- KST_CHAL_CTRL[30:30], 12 R568: the response is ready; cleared by GO -/
def KST_CHAL_CTRL.DONE : Fld := ⟨.KST_CHAL_CTRL, 30, 1, .RO, 0, .WARM⟩
/-- KST_CHAL_CTRL[7:0], 12 R568: PF0 slot used -/
def KST_CHAL_CTRL.SLOT : Fld := ⟨.KST_CHAL_CTRL, 0, 8, .RW, 224, .WARM⟩
/-- KST_RESP[63:0], 12 R568: bytes 8n to 8n + 7 of the response -/
def KST_RESP.RESP : Fld := ⟨.KST_RESP, 0, 64, .RO, 0, .WARM⟩
/-- KST_EVENT[3:3], 12 R568: a slot failed its tag (R537) -/
def KST_EVENT.INTEG_EV : Fld := ⟨.KST_EVENT, 3, 1, .W1C, 0, .WARM⟩
/-- KST_EVENT[2:2], 12 R568: a use or write was refused -/
def KST_EVENT.DENIED_EV : Fld := ⟨.KST_EVENT, 2, 1, .W1C, 0, .WARM⟩
/-- KST_EVENT[1:1], 12 R568: the module booted bank B (R533) -/
def KST_EVENT.BANK_B_EV : Fld := ⟨.KST_EVENT, 1, 1, .W1C, 0, .WARM⟩
/-- KST_EVENT[0:0], 12 R568: an APPLY was refused (R562) -/
def KST_EVENT.ORIGIN_EV : Fld := ⟨.KST_EVENT, 0, 1, .W1C, 0, .WARM⟩
/-- KST_VF_ORIGIN_QPN[19:0], 12 R568: queue pair vouched for (R562) -/
def KST_VF_ORIGIN_QPN.QPN : Fld := ⟨.KST_VF_ORIGIN_QPN, 0, 20, .RW, 0, .JOB⟩
/-- KST_VF_PEER_HASH[63:0], 12 R568: bytes 8n to 8n + 7 of SHA-384 of the peer point -/
def KST_VF_PEER_HASH.HASH : Fld := ⟨.KST_VF_PEER_HASH, 0, 64, .RW, 0, .JOB⟩
/-- KST_VF_LOCAL_HASH[63:0], 12 R568: bytes 8n to 8n + 7 of SHA-384 of the local point (R562) -/
def KST_VF_LOCAL_HASH.HASH : Fld := ⟨.KST_VF_LOCAL_HASH, 0, 64, .RO, 0, .JOB⟩
/-- TRI_CTRL[2:2], 13 R597: allow provisional INVOKE completions (R584) -/
def TRI_CTRL.PROV_INVOKE : Fld := ⟨.TRI_CTRL, 2, 1, .RW, 0, .WARM⟩
/-- TRI_CTRL[1:1], 13 R597: writing 1 runs the checker known-answer tests -/
def TRI_CTRL.KAT_RUN : Fld := ⟨.TRI_CTRL, 1, 1, .WO, 0, .WARM⟩
/-- TRI_CTRL[0:0], 13 R597: at 0 every job runs at fraction 0 and its outputs carry UNDER_CHECKED -/
def TRI_CTRL.ENABLE : Fld := ⟨.TRI_CTRL, 0, 1, .RW, 1, .WARM⟩
/-- TRI_STATUS[17:17], 13 R597: the latest known-answer test passed -/
def TRI_STATUS.KAT_PASS : Fld := ⟨.TRI_STATUS, 17, 1, .RO, 0, .WARM⟩
/-- TRI_STATUS[16:16], 13 R597: a test has completed since reset -/
def TRI_STATUS.KAT_DONE : Fld := ⟨.TRI_STATUS, 16, 1, .RO, 0, .WARM⟩
/-- TRI_STATUS[4:0], 13 R597: checker groups not fenced -/
def TRI_STATUS.GROUPS_LIVE : Fld := ⟨.TRI_STATUS, 0, 5, .RO, 16, .WARM⟩
/-- TRI_CHECKS[63:40], 13 R597: Inf or poisoned chains not compared (R577) -/
def TRI_CHECKS.SKIPPED : Fld := ⟨.TRI_CHECKS, 40, 24, .RCL, 0, .WARM⟩
/-- TRI_CHECKS[39:20], 13 R597: cohort comparisons made -/
def TRI_CHECKS.COHORTS : Fld := ⟨.TRI_CHECKS, 20, 20, .RCL, 0, .WARM⟩
/-- TRI_CHECKS[19:0], 13 R597: chains compared, saturating -/
def TRI_CHECKS.CHAINS : Fld := ⟨.TRI_CHECKS, 0, 20, .RCL, 0, .WARM⟩
/-- TRI_FAILS[63:48], 13 R597: peer notices dropped (R586) -/
def TRI_FAILS.NOTICE_BAD : Fld := ⟨.TRI_FAILS, 48, 16, .RCL, 0, .WARM⟩
/-- TRI_FAILS[47:32], 13 R597: parity errors on paths (R569) -/
def TRI_FAILS.PATH_PARITY : Fld := ⟨.TRI_FAILS, 32, 16, .RCL, 0, .WARM⟩
/-- TRI_FAILS[31:16], 13 R597: failed chains (R580) -/
def TRI_FAILS.CHAIN : Fld := ⟨.TRI_FAILS, 16, 16, .RCL, 0, .WARM⟩
/-- TRI_FAILS[15:0], 13 R597: CHECK_MISMATCH cohorts -/
def TRI_FAILS.COHORT : Fld := ⟨.TRI_FAILS, 0, 16, .RCL, 0, .WARM⟩
/-- TRI_UNIT_SEL[27:24], 13 R597: block code from the table Fenceable units -/
def TRI_UNIT_SEL.BLOCK : Fld := ⟨.TRI_UNIT_SEL, 24, 4, .RW, 0, .WARM⟩
/-- TRI_UNIT_SEL[13:0], 13 R597: unit number -/
def TRI_UNIT_SEL.UNIT : Fld := ⟨.TRI_UNIT_SEL, 0, 14, .RW, 0, .WARM⟩
/-- TRI_UNIT_STATE[31:24], 13 R597: view generation (R587) -/
def TRI_UNIT_STATE.GEN : Fld := ⟨.TRI_UNIT_STATE, 24, 8, .RO, 0, .COLD⟩
/-- TRI_UNIT_STATE[17:16], 13 R597: 0 LIVE, 1 FENCED, 2 FAILING, 3 SUSPECT -/
def TRI_UNIT_STATE.STATE : Fld := ⟨.TRI_UNIT_STATE, 16, 2, .RO, 0, .COLD⟩
/-- TRI_UNIT_STATE[7:0], 13 R597: 0 none, 1 KAT, 2 residue, 3 chain, 4 ECC, 5 link, 6 command, 7 fuse, 8 isolation (R575) -/
def TRI_UNIT_STATE.CAUSE : Fld := ⟨.TRI_UNIT_STATE, 0, 8, .RO, 0, .COLD⟩
/-- TRI_UNIT_CMD[31:24], 13 R597: sender's view generation (R589) -/
def TRI_UNIT_CMD.GEN : Fld := ⟨.TRI_UNIT_CMD, 24, 8, .WO, 0, .WARM⟩
/-- TRI_UNIT_CMD[23:16], 13 R597: result of the latest command, table Containment statuses -/
def TRI_UNIT_CMD.STATUS : Fld := ⟨.TRI_UNIT_CMD, 16, 8, .RO, 0, .WARM⟩
/-- TRI_UNIT_CMD[1:0], 13 R597: 1 FENCE, 2 UNFENCE; 0 and 3 do nothing -/
def TRI_UNIT_CMD.OP : Fld := ⟨.TRI_UNIT_CMD, 0, 2, .WO, 0, .WARM⟩
/-- TRI_JOB_SEL[3:0], 13 R597: selected job -/
def TRI_JOB_SEL.JOB : Fld := ⟨.TRI_JOB_SEL, 0, 4, .RW, 0, .WARM⟩
/-- TRI_JOB_CHECK[63:32], 13 R597: latest check sequence assigned (R582) -/
def TRI_JOB_CHECK.CHECK_SEQ : Fld := ⟨.TRI_JOB_CHECK, 32, 32, .RO, 0, .JOB⟩
/-- TRI_JOB_CHECK[31:16], 13 R597: check groups pending -/
def TRI_JOB_CHECK.PENDING : Fld := ⟨.TRI_JOB_CHECK, 16, 16, .RO, 0, .JOB⟩
/-- TRI_JOB_CHECK[15:8], 13 R597: failures counted by R581, saturating -/
def TRI_JOB_CHECK.FAILS_24H : Fld := ⟨.TRI_JOB_CHECK, 8, 8, .RO, 0, .JOB⟩
/-- TRI_HBM_ECC[63:32], 13 R597: HBM lines returned poisoned -/
def TRI_HBM_ECC.UNCORR : Fld := ⟨.TRI_HBM_ECC, 32, 32, .RCL, 0, .WARM⟩
/-- TRI_HBM_ECC[31:0], 13 R597: HBM words corrected -/
def TRI_HBM_ECC.CORR : Fld := ⟨.TRI_HBM_ECC, 0, 32, .RCL, 0, .WARM⟩
/-- TRI_AVAIL[63:48], 13 R597: unrequested warm restarts since cold reset -/
def TRI_AVAIL.RESTARTS : Fld := ⟨.TRI_AVAIL, 48, 16, .RO, 0, .COLD⟩
/-- TRI_AVAIL[47:0], 13 R597: outage time counted under R595 since cold reset -/
def TRI_AVAIL.OUTAGE_MS : Fld := ⟨.TRI_AVAIL, 0, 48, .RO, 0, .COLD⟩
/-- TRI_ERR_LAST[63:63], 13 R597: an error has been recorded since the last read -/
def TRI_ERR_LAST.VALID : Fld := ⟨.TRI_ERR_LAST, 63, 1, .RCL, 0, .WARM⟩
/-- TRI_ERR_LAST[62:56], 13 R597: 1 PATH_PARITY, 2 memory uncorrectable, 3 poison consumed, 4 firmware poison, 5 ISOLATION (R575) -/
def TRI_ERR_LAST.CAUSE : Fld := ⟨.TRI_ERR_LAST, 56, 7, .RCL, 0, .WARM⟩
/-- TRI_ERR_LAST[55:52], 13 R597: job, where one owns the data -/
def TRI_ERR_LAST.JOB : Fld := ⟨.TRI_ERR_LAST, 52, 4, .RCL, 0, .WARM⟩
/-- TRI_ERR_LAST[47:40], 13 R597: block code of the detecting unit -/
def TRI_ERR_LAST.BLOCK : Fld := ⟨.TRI_ERR_LAST, 40, 8, .RCL, 0, .WARM⟩
/-- TRI_ERR_LAST[39:0], 13 R597: unit number, or line address divided by 64 -/
def TRI_ERR_LAST.WHERE : Fld := ⟨.TRI_ERR_LAST, 0, 40, .RCL, 0, .WARM⟩
/-- TRI_EVENT[5:5], 13 R597: an access was refused under R575 -/
def TRI_EVENT.ISOLATION_EV : Fld := ⟨.TRI_EVENT, 5, 1, .W1C, 0, .WARM⟩
/-- TRI_EVENT[4:4], 13 R597: a warm restart occurred -/
def TRI_EVENT.RESTART_EV : Fld := ⟨.TRI_EVENT, 4, 1, .W1C, 0, .WARM⟩
/-- TRI_EVENT[3:3], 13 R597: a RETRACT was issued or received -/
def TRI_EVENT.RETRACT_EV : Fld := ⟨.TRI_EVENT, 3, 1, .W1C, 0, .WARM⟩
/-- TRI_EVENT[2:2], 13 R597: a chain or cohort check failed -/
def TRI_EVENT.CHECK_EV : Fld := ⟨.TRI_EVENT, 2, 1, .W1C, 0, .WARM⟩
/-- TRI_EVENT[1:1], 13 R597: a command was refused with STALE_VIEW -/
def TRI_EVENT.STALE_EV : Fld := ⟨.TRI_EVENT, 1, 1, .W1C, 0, .WARM⟩
/-- TRI_EVENT[0:0], 13 R597: a unit was fenced -/
def TRI_EVENT.FENCE_EV : Fld := ⟨.TRI_EVENT, 0, 1, .W1C, 0, .WARM⟩
/-- PMU_CTRL[3:3], 14 R612: writing 1 zeroes every counter and OVF bit -/
def PMU_CTRL.CLEAR_ALL : Fld := ⟨.PMU_CTRL, 3, 1, .WO, 0, .WARM⟩
/-- PMU_CTRL[2:2], 14 R612: R605 -/
def PMU_CTRL.SAMP_EN : Fld := ⟨.PMU_CTRL, 2, 1, .RW, 0, .WARM⟩
/-- PMU_CTRL[1:1], 14 R612: R604 -/
def PMU_CTRL.SNAPSHOT : Fld := ⟨.PMU_CTRL, 1, 1, .WO, 0, .WARM⟩
/-- PMU_CTRL[0:0], 14 R612: R603 -/
def PMU_CTRL.FREEZE : Fld := ⟨.PMU_CTRL, 0, 1, .RW, 0, .WARM⟩
/-- PMU_STATUS[31:0], 14 R612: snapshots taken, wrapping -/
def PMU_STATUS.SNAP_SEQ : Fld := ⟨.PMU_STATUS, 0, 32, .RO, 0, .WARM⟩
/-- PMU_CNT_SEL[5:0], 14 R612: counter 0 to 39; larger values handled under R18 -/
def PMU_CNT_SEL.IDX : Fld := ⟨.PMU_CNT_SEL, 0, 6, .RW, 0, .WARM⟩
/-- PMU_CNT_CFG[63:63], 14 R612: counter enabled -/
def PMU_CNT_CFG.EN : Fld := ⟨.PMU_CNT_CFG, 63, 1, .RW, 0, .WARM⟩
/-- PMU_CNT_CFG[47:32], 14 R612: R600 -/
def PMU_CNT_CFG.THRESH : Fld := ⟨.PMU_CNT_CFG, 32, 16, .RW, 0, .WARM⟩
/-- PMU_CNT_CFG[15:12], 14 R612: R602 -/
def PMU_CNT_CFG.JOB : Fld := ⟨.PMU_CNT_CFG, 12, 4, .RW, 0, .WARM⟩
/-- PMU_CNT_CFG[11:11], 14 R612: R602 -/
def PMU_CNT_CFG.JOB_ALL : Fld := ⟨.PMU_CNT_CFG, 11, 1, .RW, 1, .WARM⟩
/-- PMU_CNT_CFG[9:8], 14 R612: 0 COUNT, 1 ABOVE, 2 EDGE -/
def PMU_CNT_CFG.MODE : Fld := ⟨.PMU_CNT_CFG, 8, 2, .RW, 0, .WARM⟩
/-- PMU_CNT_CFG[7:0], 14 R612: code from the table Event catalogue (R599) -/
def PMU_CNT_CFG.EVENT : Fld := ⟨.PMU_CNT_CFG, 0, 8, .RW, 0, .WARM⟩
/-- PMU_CNT_VALUE[63:63], 14 R612: R601 -/
def PMU_CNT_VALUE.OVF : Fld := ⟨.PMU_CNT_VALUE, 63, 1, .W1C, 0, .WARM⟩
/-- PMU_CNT_VALUE[47:0], 14 R612: writable only while frozen (R603) -/
def PMU_CNT_VALUE.VALUE : Fld := ⟨.PMU_CNT_VALUE, 0, 48, .RW, 0, .WARM⟩
/-- PMU_CYCLES[47:0], 14 R612: cycles of cluster n (R598) -/
def PMU_CYCLES.CYCLES : Fld := ⟨.PMU_CYCLES, 0, 48, .RO, 0, .WARM⟩
/-- PMU_SHADOW[63:63], 14 R612: counter n's OVF at the last snapshot -/
def PMU_SHADOW.OVF : Fld := ⟨.PMU_SHADOW, 63, 1, .RO, 0, .WARM⟩
/-- PMU_SHADOW[47:0], 14 R612: counter n at the last snapshot (R604) -/
def PMU_SHADOW.VALUE : Fld := ⟨.PMU_SHADOW, 0, 48, .RO, 0, .WARM⟩
/-- PMU_SHADOW_CYC[47:0], 14 R612: cluster n cycles at the last snapshot -/
def PMU_SHADOW_CYC.CYCLES : Fld := ⟨.PMU_SHADOW_CYC, 0, 48, .RO, 0, .WARM⟩
/-- PMU_VF_SEL[3:0], 14 R612: selected VF -/
def PMU_VF_SEL.VF : Fld := ⟨.PMU_VF_SEL, 0, 4, .RW, 0, .WARM⟩
/-- PMU_VF_GRANT[39:0], 14 R612: bit i: counter i readable by the selected VF (R610, R611) -/
def PMU_VF_GRANT.GRANT : Fld := ⟨.PMU_VF_GRANT, 0, 40, .RW, 0, .WARM⟩
/-- PMU_SAMP_CFG[44:41], 14 R612: job filter -/
def PMU_SAMP_CFG.JOB : Fld := ⟨.PMU_SAMP_CFG, 41, 4, .RW, 0, .WARM⟩
/-- PMU_SAMP_CFG[40:40], 14 R612: sample every job not excluded by R611 -/
def PMU_SAMP_CFG.JOB_ALL : Fld := ⟨.PMU_SAMP_CFG, 40, 1, .RW, 1, .WARM⟩
/-- PMU_SAMP_CFG[38:32], 14 R612: bit s − 1: sequencer code s counted -/
def PMU_SAMP_CFG.SEQ_MASK : Fld := ⟨.PMU_SAMP_CFG, 32, 7, .RW, 127, .WARM⟩
/-- PMU_SAMP_CFG[27:24], 14 R612: dither bits, 0 to 15 -/
def PMU_SAMP_CFG.DITHER : Fld := ⟨.PMU_SAMP_CFG, 24, 4, .RW, 0, .WARM⟩
/-- PMU_SAMP_CFG[23:0], 14 R612: words between samples; 0 disables -/
def PMU_SAMP_CFG.PERIOD : Fld := ⟨.PMU_SAMP_CFG, 0, 24, .RW, 0, .WARM⟩
/-- PMU_SBUF_BASE[63:12], 14 R612: host buffer base, bits 63:12 (R609) -/
def PMU_SBUF_BASE.ADDR : Fld := ⟨.PMU_SBUF_BASE, 12, 52, .RW, 0, .WARM⟩
/-- PMU_SBUF_CFG[4:0], 14 R612: 7 to 20 -/
def PMU_SBUF_CFG.LOG2_RECORDS : Fld := ⟨.PMU_SBUF_CFG, 0, 5, .RW, 7, .WARM⟩
/-- PMU_SBUF_WR[19:0], 14 R612: next record to write; zeroed when SAMP_EN is set -/
def PMU_SBUF_WR.WR : Fld := ⟨.PMU_SBUF_WR, 0, 20, .RO, 0, .WARM⟩
/-- PMU_SBUF_RD[19:0], 14 R612: next record the host reads; zeroed when SAMP_EN is set -/
def PMU_SBUF_RD.RD : Fld := ⟨.PMU_SBUF_RD, 0, 20, .RW, 0, .WARM⟩
/-- PMU_SAMP_STAT[63:36], 14 R612: records discarded (R609), saturating -/
def PMU_SAMP_STAT.LOST : Fld := ⟨.PMU_SAMP_STAT, 36, 28, .RCL, 0, .WARM⟩
/-- PMU_SAMP_STAT[35:8], 14 R612: expiries with 16 in flight (R606), saturating -/
def PMU_SAMP_STAT.SKIPPED : Fld := ⟨.PMU_SAMP_STAT, 8, 28, .RCL, 0, .WARM⟩
/-- PMU_SAMP_STAT[4:0], 14 R612: tagged instructions in flight, 0 to 16 -/
def PMU_SAMP_STAT.INFLIGHT : Fld := ⟨.PMU_SAMP_STAT, 0, 5, .RO, 0, .WARM⟩
/-- PMU_EVENT[1:1], 14 R612: a sample record was lost -/
def PMU_EVENT.SBUF_EV : Fld := ⟨.PMU_EVENT, 1, 1, .W1C, 0, .WARM⟩
/-- PMU_EVENT[0:0], 14 R612: a counter wrapped -/
def PMU_EVENT.OVF_EV : Fld := ⟨.PMU_EVENT, 0, 1, .W1C, 0, .WARM⟩
/-- PWR_CTRL[31:24], 15 R636: 0xB7 for bits 2:0 to act (R630) -/
def PWR_CTRL.KEY : Fld := ⟨.PWR_CTRL, 24, 8, .WO, 0, .WARM⟩
/-- PWR_CTRL[11:8], 15 R636: 1 Landing, 2 Toll, 3 Culture, 4 Press, 5 Wrap, 6 Skim, 7 Rind, 8 Trier -/
def PWR_CTRL.ENGINE : Fld := ⟨.PWR_CTRL, 8, 4, .WO, 0, .WARM⟩
/-- PWR_CTRL[2:2], 15 R636: R631 -/
def PWR_CTRL.ENGINE_RESET : Fld := ⟨.PWR_CTRL, 2, 1, .WO, 0, .WARM⟩
/-- PWR_CTRL[1:1], 15 R636: requested warm restart -/
def PWR_CTRL.WARM_RESTART : Fld := ⟨.PWR_CTRL, 1, 1, .WO, 0, .WARM⟩
/-- PWR_CTRL[0:0], 15 R636: requested cold reset -/
def PWR_CTRL.COLD_RESET : Fld := ⟨.PWR_CTRL, 0, 1, .WO, 0, .WARM⟩
/-- PWR_STATUS[31:31], 15 R636: a throttle limit is active (R616) -/
def PWR_STATUS.THROTTLING : Fld := ⟨.PWR_STATUS, 31, 1, .RO, 0, .WARM⟩
/-- PWR_STATUS[30:30], 15 R636: input below 40 V -/
def PWR_STATUS.LOW_INPUT : Fld := ⟨.PWR_STATUS, 30, 1, .RO, 0, .WARM⟩
/-- PWR_STATUS[16:8], 15 R636: bit n: engine code n in reset -/
def PWR_STATUS.ENG_BUSY : Fld := ⟨.PWR_STATUS, 8, 9, .RO, 0, .WARM⟩
/-- PWR_STATUS[3:0], 15 R636: 0 ROM, 1 firmware, 2 HBM training, 3 tests, 4 retry ended, 5 in service, 15 recovery loader -/
def PWR_STATUS.BOOT_STAGE : Fld := ⟨.PWR_STATUS, 0, 4, .RO, 0, .WARM⟩
/-- PWR_RESET_CAUSE[31:16], 15 R636: warm restarts since cold reset, saturating -/
def PWR_RESET_CAUSE.WARM_COUNT : Fld := ⟨.PWR_RESET_CAUSE, 16, 16, .RO, 0, .COLD⟩
/-- PWR_RESET_CAUSE[11:8], 15 R636: 0 POWER_ON, 1 PF0, 2 pin, 3 MCTP, 4 BROWNOUT, 5 OVERPOWER, 6 OVERCURRENT, 7 THERMAL, 8 link reset, 9 watchdog, 10 firmware poison, 11 firmware slot integrity -/
def PWR_RESET_CAUSE.CAUSE : Fld := ⟨.PWR_RESET_CAUSE, 8, 4, .RO, 0, .COLD⟩
/-- PWR_RESET_CAUSE[0:0], 15 R636: 0 cold, 1 warm; written under R635 -/
def PWR_RESET_CAUSE.KIND : Fld := ⟨.PWR_RESET_CAUSE, 0, 1, .RO, 0, .COLD⟩
/-- PWR_INPUT[63:48], 15 R636: input voltage, mV -/
def PWR_INPUT.VOLT_MV : Fld := ⟨.PWR_INPUT, 48, 16, .RO, 0, .WARM⟩
/-- PWR_INPUT[47:28], 15 R636: input current, mA -/
def PWR_INPUT.CURR_MA : Fld := ⟨.PWR_INPUT, 28, 20, .RO, 0, .WARM⟩
/-- PWR_INPUT[27:16], 15 R636: highest 100 µs power since last read, W -/
def PWR_INPUT.PEAK_W : Fld := ⟨.PWR_INPUT, 16, 12, .RCL, 0, .WARM⟩
/-- PWR_TEMP_SEL[6:0], 15 R636: 0 to 63 die; 64 to 83 HBM stack; 84 to 99 optical engine; 100 coolant inlet; 101 coolant outlet -/
def PWR_TEMP_SEL.SENSOR : Fld := ⟨.PWR_TEMP_SEL, 0, 7, .RW, 0, .WARM⟩
/-- PWR_TEMP[31:16], 15 R636: highest since last read, signed, 0.125 °C units -/
def PWR_TEMP.PEAK : Fld := ⟨.PWR_TEMP, 16, 16, .RCL, 0, .WARM⟩
/-- PWR_TEMP[15:0], 15 R636: current, signed, 0.125 °C units -/
def PWR_TEMP.NOW : Fld := ⟨.PWR_TEMP, 0, 16, .RO, 0, .WARM⟩
/-- PWR_DOM_SEL[6:0], 15 R636: domain 0 to 95 -/
def PWR_DOM_SEL.DOMAIN : Fld := ⟨.PWR_DOM_SEL, 0, 7, .RW, 0, .WARM⟩
/-- PWR_DOM_STATE[31:16], 15 R636: exits from P2 or P3, saturating -/
def PWR_DOM_STATE.WAKES : Fld := ⟨.PWR_DOM_STATE, 16, 16, .RCL, 0, .WARM⟩
/-- PWR_DOM_STATE[12:12], 15 R636: R621 forbids P3 -/
def PWR_DOM_STATE.HOLDS_DATA : Fld := ⟨.PWR_DOM_STATE, 12, 1, .RO, 0, .WARM⟩
/-- PWR_DOM_STATE[10:8], 15 R636: cluster code; 6 port; 7 control -/
def PWR_DOM_STATE.CLUSTER : Fld := ⟨.PWR_DOM_STATE, 8, 3, .RO, 0, .WARM⟩
/-- PWR_DOM_STATE[3:3], 15 R636: entry or exit in progress -/
def PWR_DOM_STATE.CHANGING : Fld := ⟨.PWR_DOM_STATE, 3, 1, .RO, 0, .WARM⟩
/-- PWR_DOM_STATE[1:0], 15 R636: 0 P0, 1 P1, 2 P2, 3 P3 -/
def PWR_DOM_STATE.STATE : Fld := ⟨.PWR_DOM_STATE, 0, 2, .RO, 0, .WARM⟩
/-- PWR_BOOT[63:32], 15 R636: input good to end of retry status, ms (R624) -/
def PWR_BOOT.READY_MS : Fld := ⟨.PWR_BOOT, 32, 32, .RO, 0, .COLD⟩
/-- PWR_BOOT[31:16], 15 R636: input good to WS firmware start, ms -/
def PWR_BOOT.FW_MS : Fld := ⟨.PWR_BOOT, 16, 16, .RO, 0, .COLD⟩
/-- PWR_BOOT[0:0], 15 R636: booted from bank B -/
def PWR_BOOT.FROM_B : Fld := ⟨.PWR_BOOT, 0, 1, .RO, 0, .COLD⟩
/-- PWR_EVENT[4:4], 15 R636: a PWR_CTRL write was ignored (R630) -/
def PWR_EVENT.CTRL_EV : Fld := ⟨.PWR_EVENT, 4, 1, .W1C, 0, .WARM⟩
/-- PWR_EVENT[3:3], 15 R636: R622 -/
def PWR_EVENT.WAKE_LATE_EV : Fld := ⟨.PWR_EVENT, 3, 1, .W1C, 0, .WARM⟩
/-- PWR_EVENT[2:2], 15 R636: input left 40 V to 60 V -/
def PWR_EVENT.INPUT_EV : Fld := ⟨.PWR_EVENT, 2, 1, .W1C, 0, .WARM⟩
/-- PWR_EVENT[1:1], 15 R636: a port was fenced for temperature; COLD domain for the other trips' record in PWR_RESET_CAUSE -/
def PWR_EVENT.TRIP_EV : Fld := ⟨.PWR_EVENT, 1, 1, .W1C, 0, .WARM⟩
/-- PWR_EVENT[0:0], 15 R636: a throttle limit became active -/
def PWR_EVENT.THROTTLE_EV : Fld := ⟨.PWR_EVENT, 0, 1, .W1C, 0, .WARM⟩
/-- TST_CTRL[0:0], 16 R658: allows a debug session (R656); writes ignored and reads 0 while DEBUG_LOCKED is 1 -/
def TST_CTRL.DBG_EN : Fld := ⟨.TST_CTRL, 0, 1, .RW, 0, .WARM⟩
/-- TST_STATUS[18:18], 16 R658: a debug session is open -/
def TST_STATUS.SESSION : Fld := ⟨.TST_STATUS, 18, 1, .RO, 0, .WARM⟩
/-- TST_STATUS[17:17], 16 R658: mirror of KST_STATUS.DEBUG_LOCKED -/
def TST_STATUS.LOCKED : Fld := ⟨.TST_STATUS, 17, 1, .RO, 0, .WARM⟩
/-- TST_STATUS[16:16], 16 R658: TRST# is high, so a probe holds the TAP out of reset -/
def TST_STATUS.PROBE : Fld := ⟨.TST_STATUS, 16, 1, .RO, 0, .WARM⟩
/-- TST_STATUS[7:0], 16 R658: current TAP instruction -/
def TST_STATUS.IR : Fld := ⟨.TST_STATUS, 0, 8, .RO, 1, .WARM⟩
/-- TST_IDCODE[31:0], 16 R658: the IDCODE register of R653 -/
def TST_IDCODE.IDCODE : Fld := ⟨.TST_IDCODE, 0, 32, .RO, 460331463, .COLD⟩
/-- TST_EVENT[2:2], 16 R658: DEBUG_ACCESS was loaded while locked and acted as BYPASS -/
def TST_EVENT.LOCK_BYPASS_EV : Fld := ⟨.TST_EVENT, 2, 1, .W1C, 0, .WARM⟩
/-- TST_EVENT[1:1], 16 R658: a debug session closed -/
def TST_EVENT.CLOSE_EV : Fld := ⟨.TST_EVENT, 1, 1, .W1C, 0, .WARM⟩
/-- TST_EVENT[0:0], 16 R658: a debug session opened -/
def TST_EVENT.OPEN_EV : Fld := ⟨.TST_EVENT, 0, 1, .W1C, 0, .WARM⟩

/-- The fields of a register. -/
def Reg.fields : Reg → List Fld
  | .LND_CTRL => [LND_CTRL.RESULT_EN, LND_CTRL.ENABLE, LND_CTRL.PORT_EN]
  | .LND_STATUS => [LND_STATUS.PORT_UP, LND_STATUS.BUF_OCC]
  | .LND_VERSIONS => [LND_VERSIONS.ACCEPT_V2, LND_VERSIONS.ACCEPTED, LND_VERSIONS.IMPL]
  | .LND_QUAR_THRESH => [LND_QUAR_THRESH.THRESH]
  | .LND_CLOSE_DRAIN => [LND_CLOSE_DRAIN.DRAIN_US]
  | .LND_SEL => [LND_SEL.CODE, LND_SEL.JOB, LND_SEL.PORT, LND_SEL.FE]
  | .LND_JOB_TAG => [LND_JOB_TAG.TAG]
  | .LND_FE_CFG => [LND_FE_CFG.VERSION3, LND_FE_CFG.VALID, LND_FE_CFG.JOB, LND_FE_CFG.SLOT_BASE, LND_FE_CFG.SLOT_COUNT]
  | .LND_FE_CREDIT => [LND_FE_CREDIT.CREDIT_MAX, LND_FE_CREDIT.CREDIT_MIN]
  | .LND_FE_STATE => [LND_FE_STATE.QUARANTINED, LND_FE_STATE.PINNED, LND_FE_STATE.CREDIT_NOW]
  | .LND_FE_ERR => [LND_FE_ERR.MALFORMED, LND_FE_ERR.AUTH_FAILED]
  | .LND_FE_LATE => [LND_FE_LATE.OUT_OF_PHASE, LND_FE_LATE.LATE]
  | .LND_PORT_FIFO => [LND_PORT_FIFO.DROPS, LND_PORT_FIFO.HWM]
  | .LND_STATUS_CNT => [LND_STATUS_CNT.COUNT]
  | .LND_EVENT => [LND_EVENT.PINNED_EV, LND_EVENT.DRAIN_EV, LND_EVENT.FIFO_EV, LND_EVENT.QUAR_EV]
  | .ROS_CTRL => [ROS_CTRL.FLUSH, ROS_CTRL.CACHE_EN]
  | .ROS_CACHE_OCC => [ROS_CACHE_OCC.VALID]
  | .ROS_JOB_SEL => [ROS_JOB_SEL.JOB]
  | .ROS_JOB_RANGE => [ROS_JOB_RANGE.COUNT, ROS_JOB_RANGE.BASE]
  | .ROS_JOB_COUNTS => [ROS_JOB_COUNTS.SURVIVORS, ROS_JOB_COUNTS.JOINED]
  | .ROS_PEEK_SLOT => [ROS_PEEK_SLOT.SLOT]
  | .ROS_PEEK_DATA => [ROS_PEEK_DATA.WORD]
  | .TOL_CTRL => [TOL_CTRL.KAT_RUN, TOL_CTRL.SPARE_WAIT, TOL_CTRL.ENABLE]
  | .TOL_STATUS => [TOL_STATUS.KAT_PASS, TOL_STATUS.KAT_DONE, TOL_STATUS.CORES_LIVE]
  | .TOL_CORE_FENCE => [TOL_CORE_FENCE.FENCED]
  | .TOL_JOB_SEL => [TOL_JOB_SEL.JOB]
  | .TOL_JOB_UNMASK => [TOL_JOB_UNMASK.DONE, TOL_JOB_UNMASK.NEEDED]
  | .TOL_SMUL_CNT => [TOL_SMUL_CNT.COUNT]
  | .TOL_HKDF_CNT => [TOL_HKDF_CNT.COUNT]
  | .TOL_RECON_CNT => [TOL_RECON_CNT.COUNT]
  | .TOL_EVENT => [TOL_EVENT.KAT_FAIL_EV, TOL_EVENT.FENCE_EV, TOL_EVENT.INCONS_EV]
  | .CUL_CTRL => [CUL_CTRL.KAT_RUN, CUL_CTRL.ENABLE]
  | .CUL_STATUS => [CUL_STATUS.KAT_PASS, CUL_STATUS.KAT_DONE, CUL_STATUS.LANES_LIVE]
  | .CUL_LANE_FENCE_LO => [CUL_LANE_FENCE_LO.FENCED]
  | .CUL_LANE_FENCE_HI => [CUL_LANE_FENCE_HI.FENCED]
  | .CUL_BYTES => [CUL_BYTES.COUNT]
  | .CUL_ADDS => [CUL_ADDS.COUNT]
  | .CUL_JOB_SEL => [CUL_JOB_SEL.JOB]
  | .CUL_JOB_COHORTS => [CUL_JOB_COHORTS.ABANDONED, CUL_JOB_COHORTS.UNMASKED]
  | .CUL_JOB_VOID => [CUL_JOB_VOID.VOID_CHUNKS]
  | .CUL_ABANDON_LAST => [CUL_ABANDON_LAST.COHORT, CUL_ABANDON_LAST.REASON]
  | .CUL_EVENT => [CUL_EVENT.KAT_FAIL_EV, CUL_EVENT.FENCE_EV, CUL_EVENT.ABANDON_EV]
  | .VAT_CTRL => [VAT_CTRL.SCRUB_EN]
  | .VAT_STATUS => [VAT_STATUS.SERVICE_REQ, VAT_STATUS.REMAP_USED, VAT_STATUS.BANKS_LIVE]
  | .VAT_SCRUB => [VAT_SCRUB.PASSES, VAT_SCRUB.PERIOD_H]
  | .VAT_ECC_CORR => [VAT_ECC_CORR.COUNT]
  | .VAT_ECC_UNCORR => [VAT_ECC_UNCORR.COUNT]
  | .VAT_POISON_LAST => [VAT_POISON_LAST.VALID, VAT_POISON_LAST.FW, VAT_POISON_LAST.JOB, VAT_POISON_LAST.ADDR]
  | .VAT_BANK_SEL => [VAT_BANK_SEL.BANK]
  | .VAT_BANK_STATE => [VAT_BANK_STATE.GEN, VAT_BANK_STATE.STATE, VAT_BANK_STATE.REMAP]
  | .VAT_JOB_SEL => [VAT_JOB_SEL.JOB]
  | .VAT_JOB_BERTHS => [VAT_JOB_BERTHS.BERTH]
  | .VAT_JOB_G64 => [VAT_JOB_G64.LEN_LINES, VAT_JOB_G64.BASE_LINE]
  | .VAT_JOB_CTRL => [VAT_JOB_CTRL.ADD_OPEN, VAT_JOB_CTRL.EXPOSE_G64, VAT_JOB_CTRL.PEERS_EXPECTED]
  | .VAT_JOB_PEER_WAIT => [VAT_JOB_PEER_WAIT.PEERS_DONE, VAT_JOB_PEER_WAIT.WAIT_MS]
  | .VAT_JOB_SETTLE => [VAT_JOB_SETTLE.FAILED, VAT_JOB_SETTLE.SETTLED]
  | .VAT_JOB_SPILL => [VAT_JOB_SPILL.SPILL_MIB, VAT_JOB_SPILL.COHORTS]
  | .VAT_JOB_LAST => [VAT_JOB_LAST.COHORT, VAT_JOB_LAST.STATUS]
  | .VAT_JOB_NONFINITE => [VAT_JOB_NONFINITE.COUNT]
  | .VAT_EVENT => [VAT_EVENT.FENCE_EV, VAT_EVENT.PEER_EV, VAT_EVENT.NONFINITE_EV, VAT_EVENT.CHECK_EV, VAT_EVENT.POISON_EV, VAT_EVENT.BERTH_EV]
  | .PRS_CTRL => [PRS_CTRL.KAT_RUN, PRS_CTRL.ENABLE]
  | .PRS_STATUS => [PRS_STATUS.KAT_PASS, PRS_STATUS.KAT_DONE, PRS_STATUS.ARRAYS_LIVE, PRS_STATUS.ARRAYS_BUSY]
  | .PRS_ARRAY_SEL => [PRS_ARRAY_SEL.ARRAY]
  | .PRS_ARRAY_STATE => [PRS_ARRAY_STATE.GEN, PRS_ARRAY_STATE.STATE, PRS_ARRAY_STATE.ASSIGNED, PRS_ARRAY_STATE.JOB]
  | .PRS_MAC_CNT => [PRS_MAC_CNT.COUNT]
  | .PRS_STEP_CNT => [PRS_STEP_CNT.COUNT]
  | .PRS_STALL_CNT => [PRS_STALL_CNT.COUNT]
  | .PRS_FEED_WAIT_CNT => [PRS_FEED_WAIT_CNT.COUNT]
  | .PRS_JOB_SEL => [PRS_JOB_SEL.JOB]
  | .PRS_JOB_COND => [PRS_JOB_COND.COND]
  | .PRS_JOB_FLUSH => [PRS_JOB_FLUSH.COUNT]
  | .PRS_JOB_NONFINITE => [PRS_JOB_NONFINITE.INF_DRAINED, PRS_JOB_NONFINITE.NONFINITE_IN]
  | .PRS_JOB_SPARE => [PRS_JOB_SPARE.COUNT]
  | .PRS_EVENT => [PRS_EVENT.ENTROPY_EV, PRS_EVENT.ANCHOR_EV, PRS_EVENT.NONFINITE_EV, PRS_EVENT.FENCE_EV, PRS_EVENT.KAT_FAIL_EV]
  | .WRP_CTRL => [WRP_CTRL.KAT_RUN, WRP_CTRL.ENABLE]
  | .WRP_STATUS => [WRP_STATUS.FIFO_FULL, WRP_STATUS.KAT_PASS, WRP_STATUS.KAT_DONE, WRP_STATUS.SAMPLERS_LIVE]
  | .WRP_NOISE_CNT => [WRP_NOISE_CNT.COUNT]
  | .WRP_JOB_SEL => [WRP_JOB_SEL.JOB]
  | .WRP_JOB_POLICY => [WRP_JOB_POLICY.DIGEST]
  | .WRP_JOB_RHO => [WRP_JOB_RHO.RHO_SPENT]
  | .WRP_JOB_GATE => [WRP_JOB_GATE.ROUND, WRP_JOB_GATE.HELD, WRP_JOB_GATE.STATUS, WRP_JOB_GATE.REASON, WRP_JOB_GATE.SCREENED, WRP_JOB_GATE.EVALUATED]
  | .WRP_JOB_METRICS => [WRP_JOB_METRICS.CORRECT, WRP_JOB_METRICS.BASE_CORRECT]
  | .WRP_JOB_LOSS => [WRP_JOB_LOSS.LOSS]
  | .WRP_JOB_CONV => [WRP_JOB_CONV.NODATA, WRP_JOB_CONV.SATURATED, WRP_JOB_CONV.NONFINITE]
  | .WRP_JOB_OVERRIDE => [WRP_JOB_OVERRIDE.ROUND]
  | .WRP_EVENT => [WRP_EVENT.HOLD_EV, WRP_EVENT.BUDGET_EV, WRP_EVENT.ENTROPY_EV, WRP_EVENT.REJECT_EV, WRP_EVENT.KAT_FAIL_EV]
  | .SKM_CTRL => [SKM_CTRL.KAT_RUN, SKM_CTRL.ENABLE]
  | .SKM_STATUS => [SKM_STATUS.KAT_PASS, SKM_STATUS.KAT_DONE, SKM_STATUS.BUSY]
  | .SKM_ELEM_CNT => [SKM_ELEM_CNT.COUNT]
  | .SKM_JOB_SEL => [SKM_JOB_SEL.JOB]
  | .SKM_JOB_SCREEN => [SKM_JOB_SCREEN.EXCLUDED, SKM_JOB_SCREEN.FLAGGED]
  | .SKM_EVENT => [SKM_EVENT.SCREEN_SKIP_EV, SKM_EVENT.NONFINITE_EV, SKM_EVENT.KAT_FAIL_EV]
  | .RIND_CTRL => [RIND_CTRL.SPARE_GROUP, RIND_CTRL.KAT_RUN, RIND_CTRL.ENABLE]
  | .RIND_STATUS => [RIND_STATUS.KAT_PASS, RIND_STATUS.KAT_DONE, RIND_STATUS.PIPES_LIVE, RIND_STATUS.LANES_LIVE]
  | .RIND_CATALOGUE => [RIND_CATALOGUE.SETS, RIND_CATALOGUE.VERSION]
  | .RIND_PIPE_FENCE => [RIND_PIPE_FENCE.FENCED]
  | .RIND_LANE_FENCE => [RIND_LANE_FENCE.LAST, RIND_LANE_FENCE.COUNT]
  | .RIND_NTT_CNT => [RIND_NTT_CNT.COUNT]
  | .RIND_LANE_OPS => [RIND_LANE_OPS.COUNT]
  | .RIND_RESIDUE_CNT => [RIND_RESIDUE_CNT.COUNT]
  | .RIND_HASH_BYTES => [RIND_HASH_BYTES.COUNT]
  | .RIND_JOB_SEL => [RIND_JOB_SEL.JOB]
  | .RIND_JOB_KEYS => [RIND_JOB_KEYS.LOCKED, RIND_JOB_KEYS.VALID]
  | .RIND_JOB_EXPORT => [RIND_JOB_EXPORT.GROUPS_DONE, RIND_JOB_EXPORT.EXPORTED]
  | .RIND_JOB_DECODE => [RIND_JOB_DECODE.INCONSISTENT, RIND_JOB_DECODE.DECODED]
  | .RIND_JOB_REFRESH => [RIND_JOB_REFRESH.WAIT_S, RIND_JOB_REFRESH.QUEUED]
  | .RIND_JOB_LAST => [RIND_JOB_LAST.CLASS, RIND_JOB_LAST.STATUS]
  | .RIND_EVENT => [RIND_EVENT.GROUP_EV, RIND_EVENT.BUDGET_EV, RIND_EVENT.KEY_EV, RIND_EVENT.RESIDUE_EV, RIND_EVENT.FENCE_EV, RIND_EVENT.KAT_FAIL_EV]
  | .HIF_RCP_STORE => [HIF_RCP_STORE.FREE, HIF_RCP_STORE.LOAD_USED, HIF_RCP_STORE.FW_USED]
  | .HIF_RCP_ABI => [HIF_RCP_ABI.ACCEPTED, HIF_RCP_ABI.IMPL]
  | .HIF_RCP_SLOT_SEL => [HIF_RCP_SLOT_SEL.SLOT]
  | .HIF_RCP_SLOT_INFO => [HIF_RCP_SLOT_INFO.VALID, HIF_RCP_SLOT_INFO.FIRMWARE, HIF_RCP_SLOT_INFO.OWNER, HIF_RCP_SLOT_INFO.SEQ, HIF_RCP_SLOT_INFO.CLASS, HIF_RCP_SLOT_INFO.ARGS, HIF_RCP_SLOT_INFO.GEN, HIF_RCP_SLOT_INFO.WORDS, HIF_RCP_SLOT_INFO.RUNNING]
  | .HIF_RCP_SLOT_DIGEST => [HIF_RCP_SLOT_DIGEST.DIGEST]
  | .HIF_RCP_WDOG => [HIF_RCP_WDOG.MS]
  | .HIF_RCP_FAULT => [HIF_RCP_FAULT.VALID, HIF_RCP_FAULT.JOB, HIF_RCP_FAULT.STATUS, HIF_RCP_FAULT.RECIPE_ID]
  | .HIF_RCP_CTX => [HIF_RCP_CTX.BUSY]
  | .HIF_RCP_EVENT => [HIF_RCP_EVENT.COMPACT_EV, HIF_RCP_EVENT.LOAD_FAIL_EV, HIF_RCP_EVENT.TIMEOUT_EV, HIF_RCP_EVENT.FAULT_EV]
  | .HIF_VF_SQ_BASE => [HIF_VF_SQ_BASE.ADDR]
  | .HIF_VF_SQ_CFG => [HIF_VF_SQ_CFG.ENABLE, HIF_VF_SQ_CFG.ABI, HIF_VF_SQ_CFG.LOG2_SIZE]
  | .HIF_VF_SQ_TAIL => [HIF_VF_SQ_TAIL.TAIL]
  | .HIF_VF_SQ_HEAD => [HIF_VF_SQ_HEAD.HEAD]
  | .HIF_VF_CQ_BASE => [HIF_VF_CQ_BASE.ADDR]
  | .HIF_VF_CQ_CFG => [HIF_VF_CQ_CFG.ENABLE, HIF_VF_CQ_CFG.LOG2_SIZE]
  | .HIF_VF_CQ_HEAD => [HIF_VF_CQ_HEAD.HEAD]
  | .HIF_VF_CQ_TAIL => [HIF_VF_CQ_TAIL.PHASE, HIF_VF_CQ_TAIL.TAIL]
  | .HIF_VF_STATUS => [HIF_VF_STATUS.CONFIDENTIAL, HIF_VF_STATUS.JOB_CREATED, HIF_VF_STATUS.HAIL_DONE, HIF_VF_STATUS.CQ_ERR, HIF_VF_STATUS.SQ_ERR]
  | .HIF_VF_RES_STAT => [HIF_VF_RES_STAT.NOT_READY, HIF_VF_RES_STAT.STALE, HIF_VF_RES_STAT.SPACE, HIF_VF_RES_STAT.DETAIL, HIF_VF_RES_STAT.ROUND]
  | .HIF_VF_RES_DIGEST => [HIF_VF_RES_DIGEST.DIGEST]
  | .HIF_VF_EVLOG_STAT => [HIF_VF_EVLOG_STAT.LOST, HIF_VF_EVLOG_STAT.OVERRUN, HIF_VF_EVLOG_STAT.UNDERRUN, HIF_VF_EVLOG_STAT.MID_RECORD, HIF_VF_EVLOG_STAT.RECORDS]
  | .HIF_VF_EVLOG_DATA => [HIF_VF_EVLOG_DATA.WORD]
  | .HIF_VF_EVLOG_CTRL => [HIF_VF_EVLOG_CTRL.FLUSH_ALL, HIF_VF_EVLOG_CTRL.FLUSH]
  | .FERRY_TX_DATA => [FERRY_TX_DATA.DATA]
  | .FERRY_TX_CTRL => [FERRY_TX_CTRL.NOTICE, FERRY_TX_CTRL.MODE, FERRY_TX_CTRL.LEN]
  | .FERRY_TX_STAT => [FERRY_TX_STAT.ABORTED, FERRY_TX_STAT.BUSY, FERRY_TX_STAT.BLOCK_FULL]
  | .FERRY_RX_DATA => [FERRY_RX_DATA.DATA]
  | .FERRY_RX_STAT => [FERRY_RX_STAT.NOTICE_SENDER, FERRY_RX_STAT.SENDER, FERRY_RX_STAT.LEN, FERRY_RX_STAT.BLOCK_FULL]
  | .FERRY_RX_TAKE => [FERRY_RX_TAKE.BLOCK]
  | .FERRY_RX_NOTICE => [FERRY_RX_NOTICE.NOTICE]
  | .FERRY_CTRL => [FERRY_CTRL.RX_RESET]
  | .HIF_LINK => [HIF_LINK.UP, HIF_LINK.IDE_ACTIVE, HIF_LINK.WIDTH, HIF_LINK.SPEED, HIF_LINK.TRAIN_FAILS]
  | .HIF_VF_SEL => [HIF_VF_SEL.FUNC]
  | .HIF_VF_ACC => [HIF_VF_ACC.MISSIZED, HIF_VF_ACC.DENIED]
  | .HIF_HDM_CTRL => [HIF_HDM_CTRL.WINDOW_GIB]
  | .HIF_HDM_ERR => [HIF_HDM_ERR.COUNT]
  | .HIF_EVENT => [HIF_EVENT.IDE_EV, HIF_EVENT.HAIL_FAIL_EV, HIF_EVENT.ACC_EV, HIF_EVENT.HDM_EV, HIF_EVENT.CQ_ERR_EV, HIF_EVENT.SQ_ERR_EV]
  | .HIF_HDM_REGION => [HIF_HDM_REGION.SIZE_GIB, HIF_HDM_REGION.BASE_GIB]
  | .RDMA_PORT_SEL => [RDMA_PORT_SEL.PORT]
  | .RDMA_PORT_CFG => [RDMA_PORT_CFG.PMD, RDMA_PORT_CFG.VLAN_EN, RDMA_PORT_CFG.VLAN_ID, RDMA_PORT_CFG.MAC]
  | .RDMA_PORT_IP => [RDMA_PORT_IP.ADDR]
  | .RDMA_PORT_STAT => [RDMA_PORT_STAT.DROPPED, RDMA_PORT_STAT.ICRC_ERR, RDMA_PORT_STAT.FCS_ERR]
  | .RDMA_QP_SEL => [RDMA_QP_SEL.QPN]
  | .RDMA_QP_CFG => [RDMA_QP_CFG.STATE, RDMA_QP_CFG.TYPE, RDMA_QP_CFG.CLASS, RDMA_QP_CFG.SEALED, RDMA_QP_CFG.PIN, RDMA_QP_CFG.JOB, RDMA_QP_CFG.PORT, RDMA_QP_CFG.MTU, RDMA_QP_CFG.RETRY, RDMA_QP_CFG.TIMEOUT, RDMA_QP_CFG.FE, RDMA_QP_CFG.REMOTE_QPN]
  | .RDMA_QP_PSN => [RDMA_QP_PSN.SQ_PSN, RDMA_QP_PSN.RQ_PSN]
  | .RDMA_QP_DEST => [RDMA_QP_DEST.DMAC]
  | .RDMA_QP_DIP => [RDMA_QP_DIP.ADDR]
  | .RDMA_QP_QKEY => [RDMA_QP_QKEY.QKEY]
  | .RDMA_QP_STAT => [RDMA_QP_STAT.SCC, RDMA_QP_STAT.RESIDENT, RDMA_QP_STAT.IN_MSG, RDMA_QP_STAT.LAST_ERR]
  | .RDMA_JOB_SEL => [RDMA_JOB_SEL.JOB]
  | .RDMA_JOB_KEY => [RDMA_JOB_KEY.JOB_KEY]
  | .RDMA_REG_SEL => [RDMA_REG_SEL.REGION]
  | .RDMA_REG_BASE => [RDMA_REG_BASE.VA]
  | .RDMA_REG_LEN => [RDMA_REG_LEN.LEN]
  | .RDMA_REG_CFG => [RDMA_REG_CFG.STATE, RDMA_REG_CFG.REVOKE, RDMA_REG_CFG.REGISTER, RDMA_REG_CFG.KIND, RDMA_REG_CFG.RIGHTS, RDMA_REG_CFG.GROUP, RDMA_REG_CFG.MEMBER, RDMA_REG_CFG.GEN, RDMA_REG_CFG.BIND_EN, RDMA_REG_CFG.BIND_QP]
  | .RDMA_REVOKE => [RDMA_REVOKE.WAIT_US]
  | .RDMA_SQP_CTRL => [RDMA_SQP_CTRL.SLOT, RDMA_SQP_CTRL.STATE, RDMA_SQP_CTRL.APPLY, RDMA_SQP_CTRL.ROLE, RDMA_SQP_CTRL.GEN_KEY]
  | .RDMA_SQP_LOCAL => [RDMA_SQP_LOCAL.POINT]
  | .RDMA_SQP_PEER => [RDMA_SQP_PEER.POINT]
  | .RDMA_CACHE => [RDMA_CACHE.MISSES, RDMA_CACHE.RESIDENT, RDMA_CACHE.PINNED]
  | .RDMA_ERR => [RDMA_ERR.ACCESS_NAK, RDMA_ERR.INVALID_NAK, RDMA_ERR.SEAL_FAIL, RDMA_ERR.REPLAY]
  | .RDMA_EVENT => [RDMA_EVENT.CUTOFF_EV, RDMA_EVENT.SEAL_EV, RDMA_EVENT.QP_ERR_EV, RDMA_EVENT.REG_EV, RDMA_EVENT.REVOKE_DONE_EV]
  | .TIDE_CTRL => [TIDE_CTRL.DOMAIN, TIDE_CTRL.PPS_EN, TIDE_CTRL.PTP_EN, TIDE_CTRL.PORT_MASK]
  | .TIDE_STATUS => [TIDE_STATUS.PORT, TIDE_STATUS.PPS_SEEN, TIDE_STATUS.STATE]
  | .TIDE_TIME => [TIDE_TIME.TAI]
  | .TIDE_ERR => [TIDE_ERR.OFFSET, TIDE_ERR.EST_NS]
  | .TIDE_HOLD => [TIDE_HOLD.PPS_ERR_NS, TIDE_HOLD.LIMIT_US]
  | .TIDE_GM => [TIDE_GM.ID]
  | .TIDE_JOB_SEL => [TIDE_JOB_SEL.JOB]
  | .TIDE_JOB_PHASE => [TIDE_JOB_PHASE.ROUND, TIDE_JOB_PHASE.PHASE]
  | .TIDE_EVT_SEL => [TIDE_EVT_SEL.EVENT]
  | .TIDE_EVT_CFG => [TIDE_EVT_CFG.VALID, TIDE_EVT_CFG.DOUBTFUL_OK, TIDE_EVT_CFG.TYPE, TIDE_EVT_CFG.JOB, TIDE_EVT_CFG.PCODE, TIDE_EVT_CFG.PHASE]
  | .TIDE_EVT_ROUND => [TIDE_EVT_ROUND.ROUND]
  | .TIDE_EVT_STAT => [TIDE_EVT_STAT.COUNT, TIDE_EVT_STAT.LATE, TIDE_EVT_STAT.HELD, TIDE_EVT_STAT.FIRED]
  | .TIDE_EVENT => [TIDE_EVENT.TABLE_EV, TIDE_EVENT.STEP_EV, TIDE_EVENT.GM_EV, TIDE_EVENT.PPS_REJ_EV, TIDE_EVENT.STATE_EV]
  | .PLT_MODE => [PLT_MODE.CHANGING, PLT_MODE.MODE]
  | .PLT_POWER => [PLT_POWER.ENVELOPE_W, PLT_POWER.POWER_MW]
  | .PLT_CLU_SEL => [PLT_CLU_SEL.CLUSTER]
  | .PLT_CLU_ENV => [PLT_CLU_ENV.PS_LIMIT, PLT_CLU_ENV.MAX_PCT, PLT_CLU_ENV.MIN_PCT]
  | .PLT_CLU_STAT => [PLT_CLU_STAT.PINNED_RATE, PLT_CLU_STAT.PINNED_PS, PLT_CLU_STAT.SAFETY, PLT_CLU_STAT.PS_DEEP, PLT_CLU_STAT.CEIL_PCT, PLT_CLU_STAT.RATE_PCT]
  | .PLT_JOB_SEL => [PLT_JOB_SEL.JOB]
  | .PLT_JOB_SHARE => [PLT_JOB_SHARE.TOLL_MAX, PLT_JOB_SHARE.TOLL_MIN, PLT_JOB_SHARE.CUL_MAX, PLT_JOB_SHARE.CUL_MIN, PLT_JOB_SHARE.ARRAYS_MAX, PLT_JOB_SHARE.ARRAYS_MIN]
  | .PLT_JOB_PIN => [PLT_JOB_PIN.PIN_REFUSED, PLT_JOB_PIN.PIN_LOST, PLT_JOB_PIN.RESIDENT, PLT_JOB_PIN.ARRAYS]
  | .PLT_JOB_HBM => [PLT_JOB_HBM.USED_MIB, PLT_JOB_HBM.QUOTA_GIB]
  | .PLT_JOB_FRAC => [PLT_JOB_FRAC.UNDER_CHECKED, PLT_JOB_FRAC.WANT, PLT_JOB_FRAC.APPLIED, PLT_JOB_FRAC.FRAC_MAX, PLT_JOB_FRAC.FRAC_MIN]
  | .PLT_JOB_PLACE => [PLT_JOB_PLACE.NOFIT, PLT_JOB_PLACE.ARRAYS, PLT_JOB_PLACE.TOLL, PLT_JOB_PLACE.CUL, PLT_JOB_PLACE.RESIDENT]
  | .PLT_JOB_PINNED => [PLT_JOB_PINNED.LOOPS]
  | .PLT_EVENT => [PLT_EVENT.MODE_EV, PLT_EVENT.NOFIT_EV, PLT_EVENT.REPLACE_EV, PLT_EVENT.SAFETY_EV, PLT_EVENT.PINNED_EV, PLT_EVENT.PIN_EV]
  | .ENT_CTRL => [ENT_CTRL.LATCH_EN, ENT_CTRL.UNIT_RESET]
  | .ENT_STATUS => [ENT_STATUS.PERM_FAIL, ENT_STATUS.STATE, ENT_STATUS.LATCH_FAIL, ENT_STATUS.STARTUP_FAILS]
  | .ENT_HEALTH => [ENT_HEALTH.WINDOWS, ENT_HEALTH.APT_FAILS, ENT_HEALTH.RCT_FAILS]
  | .ENT_DRBG => [ENT_DRBG.RESEEDS, ENT_DRBG.REQUESTS]
  | .ENT_WIRE => [ENT_WIRE.WAITING]
  | .ENT_SW_DATA => [ENT_SW_DATA.NOT_READY, ENT_SW_DATA.ERR, ENT_SW_DATA.EMPTY, ENT_SW_DATA.DATA]
  | .ENT_EVENT => [ENT_EVENT.PERM_EV, ENT_EVENT.READY_EV, ENT_EVENT.FAIL_EV]
  | .KST_ID => [KST_ID.SERIAL]
  | .KST_FW => [KST_FW.SVN, KST_FW.FUSED_SVN, KST_FW.BANK]
  | .KST_FW_DIGEST => [KST_FW_DIGEST.DIGEST]
  | .KST_SVN_COMMIT => [KST_SVN_COMMIT.SVN]
  | .KST_STATUS => [KST_STATUS.DEBUG_LOCKED, KST_STATUS.CONF_ACTIVE, KST_STATUS.CLEAR_WRITTEN, KST_STATUS.USABLE]
  | .KST_SLOT_SEL => [KST_SLOT_SEL.SLOT]
  | .KST_SLOT_INFO => [KST_SLOT_INFO.STATE, KST_SLOT_INFO.TYPE, KST_SLOT_INFO.OWNER, KST_SLOT_INFO.USES, KST_SLOT_INFO.EXPIRE]
  | .KST_SLOT_USE => [KST_SLOT_USE.LIMIT, KST_SLOT_USE.COUNT]
  | .KST_WR_DATA => [KST_WR_DATA.DATA]
  | .KST_WR_CTRL => [KST_WR_CTRL.GO, KST_WR_CTRL.ERASE, KST_WR_CTRL.EXPIRE, KST_WR_CTRL.SLOT, KST_WR_CTRL.LIMIT]
  | .KST_OP_STAT => [KST_OP_STAT.CHAL_STATUS, KST_OP_STAT.WR_STATUS]
  | .KST_CHAL => [KST_CHAL.CHAL]
  | .KST_CHAL_CTRL => [KST_CHAL_CTRL.GO, KST_CHAL_CTRL.DONE, KST_CHAL_CTRL.SLOT]
  | .KST_RESP => [KST_RESP.RESP]
  | .KST_EVENT => [KST_EVENT.INTEG_EV, KST_EVENT.DENIED_EV, KST_EVENT.BANK_B_EV, KST_EVENT.ORIGIN_EV]
  | .KST_VF_ORIGIN_QPN => [KST_VF_ORIGIN_QPN.QPN]
  | .KST_VF_PEER_HASH => [KST_VF_PEER_HASH.HASH]
  | .KST_VF_LOCAL_HASH => [KST_VF_LOCAL_HASH.HASH]
  | .TRI_CTRL => [TRI_CTRL.PROV_INVOKE, TRI_CTRL.KAT_RUN, TRI_CTRL.ENABLE]
  | .TRI_STATUS => [TRI_STATUS.KAT_PASS, TRI_STATUS.KAT_DONE, TRI_STATUS.GROUPS_LIVE]
  | .TRI_CHECKS => [TRI_CHECKS.SKIPPED, TRI_CHECKS.COHORTS, TRI_CHECKS.CHAINS]
  | .TRI_FAILS => [TRI_FAILS.NOTICE_BAD, TRI_FAILS.PATH_PARITY, TRI_FAILS.CHAIN, TRI_FAILS.COHORT]
  | .TRI_UNIT_SEL => [TRI_UNIT_SEL.BLOCK, TRI_UNIT_SEL.UNIT]
  | .TRI_UNIT_STATE => [TRI_UNIT_STATE.GEN, TRI_UNIT_STATE.STATE, TRI_UNIT_STATE.CAUSE]
  | .TRI_UNIT_CMD => [TRI_UNIT_CMD.GEN, TRI_UNIT_CMD.STATUS, TRI_UNIT_CMD.OP]
  | .TRI_JOB_SEL => [TRI_JOB_SEL.JOB]
  | .TRI_JOB_CHECK => [TRI_JOB_CHECK.CHECK_SEQ, TRI_JOB_CHECK.PENDING, TRI_JOB_CHECK.FAILS_24H]
  | .TRI_HBM_ECC => [TRI_HBM_ECC.UNCORR, TRI_HBM_ECC.CORR]
  | .TRI_AVAIL => [TRI_AVAIL.RESTARTS, TRI_AVAIL.OUTAGE_MS]
  | .TRI_ERR_LAST => [TRI_ERR_LAST.VALID, TRI_ERR_LAST.CAUSE, TRI_ERR_LAST.JOB, TRI_ERR_LAST.BLOCK, TRI_ERR_LAST.WHERE]
  | .TRI_EVENT => [TRI_EVENT.ISOLATION_EV, TRI_EVENT.RESTART_EV, TRI_EVENT.RETRACT_EV, TRI_EVENT.CHECK_EV, TRI_EVENT.STALE_EV, TRI_EVENT.FENCE_EV]
  | .PMU_CTRL => [PMU_CTRL.CLEAR_ALL, PMU_CTRL.SAMP_EN, PMU_CTRL.SNAPSHOT, PMU_CTRL.FREEZE]
  | .PMU_STATUS => [PMU_STATUS.SNAP_SEQ]
  | .PMU_CNT_SEL => [PMU_CNT_SEL.IDX]
  | .PMU_CNT_CFG => [PMU_CNT_CFG.EN, PMU_CNT_CFG.THRESH, PMU_CNT_CFG.JOB, PMU_CNT_CFG.JOB_ALL, PMU_CNT_CFG.MODE, PMU_CNT_CFG.EVENT]
  | .PMU_CNT_VALUE => [PMU_CNT_VALUE.OVF, PMU_CNT_VALUE.VALUE]
  | .PMU_CYCLES => [PMU_CYCLES.CYCLES]
  | .PMU_SHADOW => [PMU_SHADOW.OVF, PMU_SHADOW.VALUE]
  | .PMU_SHADOW_CYC => [PMU_SHADOW_CYC.CYCLES]
  | .PMU_VF_SEL => [PMU_VF_SEL.VF]
  | .PMU_VF_GRANT => [PMU_VF_GRANT.GRANT]
  | .PMU_SAMP_CFG => [PMU_SAMP_CFG.JOB, PMU_SAMP_CFG.JOB_ALL, PMU_SAMP_CFG.SEQ_MASK, PMU_SAMP_CFG.DITHER, PMU_SAMP_CFG.PERIOD]
  | .PMU_SBUF_BASE => [PMU_SBUF_BASE.ADDR]
  | .PMU_SBUF_CFG => [PMU_SBUF_CFG.LOG2_RECORDS]
  | .PMU_SBUF_WR => [PMU_SBUF_WR.WR]
  | .PMU_SBUF_RD => [PMU_SBUF_RD.RD]
  | .PMU_SAMP_STAT => [PMU_SAMP_STAT.LOST, PMU_SAMP_STAT.SKIPPED, PMU_SAMP_STAT.INFLIGHT]
  | .PMU_EVENT => [PMU_EVENT.SBUF_EV, PMU_EVENT.OVF_EV]
  | .PWR_CTRL => [PWR_CTRL.KEY, PWR_CTRL.ENGINE, PWR_CTRL.ENGINE_RESET, PWR_CTRL.WARM_RESTART, PWR_CTRL.COLD_RESET]
  | .PWR_STATUS => [PWR_STATUS.THROTTLING, PWR_STATUS.LOW_INPUT, PWR_STATUS.ENG_BUSY, PWR_STATUS.BOOT_STAGE]
  | .PWR_RESET_CAUSE => [PWR_RESET_CAUSE.WARM_COUNT, PWR_RESET_CAUSE.CAUSE, PWR_RESET_CAUSE.KIND]
  | .PWR_INPUT => [PWR_INPUT.VOLT_MV, PWR_INPUT.CURR_MA, PWR_INPUT.PEAK_W]
  | .PWR_TEMP_SEL => [PWR_TEMP_SEL.SENSOR]
  | .PWR_TEMP => [PWR_TEMP.PEAK, PWR_TEMP.NOW]
  | .PWR_DOM_SEL => [PWR_DOM_SEL.DOMAIN]
  | .PWR_DOM_STATE => [PWR_DOM_STATE.WAKES, PWR_DOM_STATE.HOLDS_DATA, PWR_DOM_STATE.CLUSTER, PWR_DOM_STATE.CHANGING, PWR_DOM_STATE.STATE]
  | .PWR_BOOT => [PWR_BOOT.READY_MS, PWR_BOOT.FW_MS, PWR_BOOT.FROM_B]
  | .PWR_EVENT => [PWR_EVENT.CTRL_EV, PWR_EVENT.WAKE_LATE_EV, PWR_EVENT.INPUT_EV, PWR_EVENT.TRIP_EV, PWR_EVENT.THROTTLE_EV]
  | .TST_CTRL => [TST_CTRL.DBG_EN]
  | .TST_STATUS => [TST_STATUS.SESSION, TST_STATUS.LOCKED, TST_STATUS.PROBE, TST_STATUS.IR]
  | .TST_IDCODE => [TST_IDCODE.IDCODE]
  | .TST_EVENT => [TST_EVENT.LOCK_BYPASS_EV, TST_EVENT.CLOSE_EV, TST_EVENT.OPEN_EV]

/-- Where a register lies. KST_VF registers lie in VF pages only: their BAR0 offset is outside BAR0. -/
def Reg.place : Reg → RegPlace
  | .LND_CTRL => ⟨0x200000, 1, 32, none⟩
  | .LND_STATUS => ⟨0x200008, 1, 32, none⟩
  | .LND_VERSIONS => ⟨0x200010, 1, 32, none⟩
  | .LND_QUAR_THRESH => ⟨0x200018, 1, 32, none⟩
  | .LND_CLOSE_DRAIN => ⟨0x200020, 1, 32, none⟩
  | .LND_SEL => ⟨0x200028, 1, 32, none⟩
  | .LND_JOB_TAG => ⟨0x200030, 1, 32, none⟩
  | .LND_FE_CFG => ⟨0x200038, 1, 64, none⟩
  | .LND_FE_CREDIT => ⟨0x200040, 1, 32, none⟩
  | .LND_FE_STATE => ⟨0x200048, 1, 32, none⟩
  | .LND_FE_ERR => ⟨0x200050, 1, 64, none⟩
  | .LND_FE_LATE => ⟨0x200058, 1, 64, none⟩
  | .LND_PORT_FIFO => ⟨0x200060, 1, 64, none⟩
  | .LND_STATUS_CNT => ⟨0x200068, 1, 64, none⟩
  | .LND_EVENT => ⟨0x200070, 1, 32, none⟩
  | .ROS_CTRL => ⟨0x300000, 1, 32, none⟩
  | .ROS_CACHE_OCC => ⟨0x300008, 1, 32, none⟩
  | .ROS_JOB_SEL => ⟨0x300010, 1, 32, none⟩
  | .ROS_JOB_RANGE => ⟨0x300018, 1, 64, none⟩
  | .ROS_JOB_COUNTS => ⟨0x300020, 1, 64, none⟩
  | .ROS_PEEK_SLOT => ⟨0x300028, 1, 32, none⟩
  | .ROS_PEEK_DATA => ⟨0x300040, 8, 64, none⟩
  | .TOL_CTRL => ⟨0x400000, 1, 32, none⟩
  | .TOL_STATUS => ⟨0x400008, 1, 32, none⟩
  | .TOL_CORE_FENCE => ⟨0x400010, 1, 64, none⟩
  | .TOL_JOB_SEL => ⟨0x400018, 1, 32, none⟩
  | .TOL_JOB_UNMASK => ⟨0x400020, 1, 64, none⟩
  | .TOL_SMUL_CNT => ⟨0x400028, 1, 64, none⟩
  | .TOL_HKDF_CNT => ⟨0x400030, 1, 64, none⟩
  | .TOL_RECON_CNT => ⟨0x400038, 1, 64, none⟩
  | .TOL_EVENT => ⟨0x400040, 1, 32, none⟩
  | .CUL_CTRL => ⟨0x500000, 1, 32, none⟩
  | .CUL_STATUS => ⟨0x500008, 1, 32, none⟩
  | .CUL_LANE_FENCE_LO => ⟨0x500010, 1, 64, none⟩
  | .CUL_LANE_FENCE_HI => ⟨0x500018, 1, 64, none⟩
  | .CUL_BYTES => ⟨0x500020, 1, 64, none⟩
  | .CUL_ADDS => ⟨0x500028, 1, 64, none⟩
  | .CUL_JOB_SEL => ⟨0x500030, 1, 32, none⟩
  | .CUL_JOB_COHORTS => ⟨0x500038, 1, 64, none⟩
  | .CUL_JOB_VOID => ⟨0x500040, 1, 32, none⟩
  | .CUL_ABANDON_LAST => ⟨0x500048, 1, 32, none⟩
  | .CUL_EVENT => ⟨0x500050, 1, 32, none⟩
  | .VAT_CTRL => ⟨0x600000, 1, 32, none⟩
  | .VAT_STATUS => ⟨0x600008, 1, 32, none⟩
  | .VAT_SCRUB => ⟨0x600010, 1, 32, none⟩
  | .VAT_ECC_CORR => ⟨0x600018, 1, 64, none⟩
  | .VAT_ECC_UNCORR => ⟨0x600020, 1, 64, none⟩
  | .VAT_POISON_LAST => ⟨0x600028, 1, 64, none⟩
  | .VAT_BANK_SEL => ⟨0x600030, 1, 32, none⟩
  | .VAT_BANK_STATE => ⟨0x600038, 1, 32, none⟩
  | .VAT_JOB_SEL => ⟨0x600040, 1, 32, none⟩
  | .VAT_JOB_BERTHS => ⟨0x600048, 6, 64, none⟩
  | .VAT_JOB_G64 => ⟨0x600078, 1, 64, none⟩
  | .VAT_JOB_CTRL => ⟨0x600080, 1, 32, none⟩
  | .VAT_JOB_PEER_WAIT => ⟨0x600088, 1, 64, none⟩
  | .VAT_JOB_SETTLE => ⟨0x600090, 1, 64, none⟩
  | .VAT_JOB_SPILL => ⟨0x600098, 1, 64, none⟩
  | .VAT_JOB_LAST => ⟨0x6000A0, 1, 32, none⟩
  | .VAT_JOB_NONFINITE => ⟨0x6000A8, 1, 64, none⟩
  | .VAT_EVENT => ⟨0x6000B0, 1, 32, none⟩
  | .PRS_CTRL => ⟨0x700000, 1, 32, none⟩
  | .PRS_STATUS => ⟨0x700008, 1, 32, none⟩
  | .PRS_ARRAY_SEL => ⟨0x700010, 1, 32, none⟩
  | .PRS_ARRAY_STATE => ⟨0x700018, 1, 32, none⟩
  | .PRS_MAC_CNT => ⟨0x700020, 1, 64, none⟩
  | .PRS_STEP_CNT => ⟨0x700028, 1, 64, none⟩
  | .PRS_STALL_CNT => ⟨0x700030, 1, 64, none⟩
  | .PRS_FEED_WAIT_CNT => ⟨0x700038, 1, 64, none⟩
  | .PRS_JOB_SEL => ⟨0x700040, 1, 32, none⟩
  | .PRS_JOB_COND => ⟨0x700048, 1, 32, none⟩
  | .PRS_JOB_FLUSH => ⟨0x700050, 1, 64, none⟩
  | .PRS_JOB_NONFINITE => ⟨0x700058, 1, 64, none⟩
  | .PRS_JOB_SPARE => ⟨0x700060, 1, 32, none⟩
  | .PRS_EVENT => ⟨0x700068, 1, 32, none⟩
  | .WRP_CTRL => ⟨0x800000, 1, 32, none⟩
  | .WRP_STATUS => ⟨0x800008, 1, 32, none⟩
  | .WRP_NOISE_CNT => ⟨0x800010, 1, 64, none⟩
  | .WRP_JOB_SEL => ⟨0x800018, 1, 32, none⟩
  | .WRP_JOB_POLICY => ⟨0x800020, 6, 64, none⟩
  | .WRP_JOB_RHO => ⟨0x800050, 1, 64, none⟩
  | .WRP_JOB_GATE => ⟨0x800058, 1, 64, none⟩
  | .WRP_JOB_METRICS => ⟨0x800060, 1, 64, none⟩
  | .WRP_JOB_LOSS => ⟨0x800068, 1, 32, none⟩
  | .WRP_JOB_CONV => ⟨0x800070, 1, 64, none⟩
  | .WRP_JOB_OVERRIDE => ⟨0x800078, 1, 32, none⟩
  | .WRP_EVENT => ⟨0x800080, 1, 32, none⟩
  | .SKM_CTRL => ⟨0x900000, 1, 32, none⟩
  | .SKM_STATUS => ⟨0x900008, 1, 32, none⟩
  | .SKM_ELEM_CNT => ⟨0x900010, 1, 64, none⟩
  | .SKM_JOB_SEL => ⟨0x900018, 1, 32, none⟩
  | .SKM_JOB_SCREEN => ⟨0x900020, 1, 64, none⟩
  | .SKM_EVENT => ⟨0x900028, 1, 32, none⟩
  | .RIND_CTRL => ⟨0xA00000, 1, 32, none⟩
  | .RIND_STATUS => ⟨0xA00008, 1, 32, none⟩
  | .RIND_CATALOGUE => ⟨0xA00010, 1, 32, none⟩
  | .RIND_PIPE_FENCE => ⟨0xA00018, 1, 32, none⟩
  | .RIND_LANE_FENCE => ⟨0xA00020, 1, 32, none⟩
  | .RIND_NTT_CNT => ⟨0xA00028, 1, 64, none⟩
  | .RIND_LANE_OPS => ⟨0xA00030, 1, 64, none⟩
  | .RIND_RESIDUE_CNT => ⟨0xA00038, 1, 64, none⟩
  | .RIND_HASH_BYTES => ⟨0xA00040, 1, 64, none⟩
  | .RIND_JOB_SEL => ⟨0xA00048, 1, 32, none⟩
  | .RIND_JOB_KEYS => ⟨0xA00050, 1, 32, none⟩
  | .RIND_JOB_EXPORT => ⟨0xA00058, 1, 64, none⟩
  | .RIND_JOB_DECODE => ⟨0xA00060, 1, 64, none⟩
  | .RIND_JOB_REFRESH => ⟨0xA00068, 1, 32, none⟩
  | .RIND_JOB_LAST => ⟨0xA00070, 1, 32, none⟩
  | .RIND_EVENT => ⟨0xA00078, 1, 32, none⟩
  | .HIF_RCP_STORE => ⟨0x8000, 1, 64, none⟩
  | .HIF_RCP_ABI => ⟨0x8008, 1, 32, none⟩
  | .HIF_RCP_SLOT_SEL => ⟨0x8010, 1, 32, none⟩
  | .HIF_RCP_SLOT_INFO => ⟨0x8018, 1, 64, none⟩
  | .HIF_RCP_SLOT_DIGEST => ⟨0x8020, 6, 64, none⟩
  | .HIF_RCP_WDOG => ⟨0x8050, 1, 32, none⟩
  | .HIF_RCP_FAULT => ⟨0x8058, 1, 64, none⟩
  | .HIF_RCP_CTX => ⟨0x8060, 1, 64, none⟩
  | .HIF_RCP_EVENT => ⟨0x8068, 1, 32, none⟩
  | .HIF_VF_SQ_BASE => ⟨0x0, 1, 64, some 0x0⟩
  | .HIF_VF_SQ_CFG => ⟨0x8, 1, 32, some 0x8⟩
  | .HIF_VF_SQ_TAIL => ⟨0x10, 1, 32, some 0x10⟩
  | .HIF_VF_SQ_HEAD => ⟨0x18, 1, 32, some 0x18⟩
  | .HIF_VF_CQ_BASE => ⟨0x20, 1, 64, some 0x20⟩
  | .HIF_VF_CQ_CFG => ⟨0x28, 1, 32, some 0x28⟩
  | .HIF_VF_CQ_HEAD => ⟨0x30, 1, 32, some 0x30⟩
  | .HIF_VF_CQ_TAIL => ⟨0x38, 1, 32, some 0x38⟩
  | .HIF_VF_STATUS => ⟨0x40, 1, 32, some 0x40⟩
  | .HIF_VF_RES_STAT => ⟨0x48, 1, 64, some 0x48⟩
  | .HIF_VF_RES_DIGEST => ⟨0x50, 6, 64, some 0x50⟩
  | .HIF_VF_EVLOG_STAT => ⟨0x80, 1, 32, some 0x80⟩
  | .HIF_VF_EVLOG_DATA => ⟨0x88, 1, 64, some 0x88⟩
  | .HIF_VF_EVLOG_CTRL => ⟨0x90, 1, 32, some 0x90⟩
  | .FERRY_TX_DATA => ⟨0x100000, 8, 64, some 0x100⟩
  | .FERRY_TX_CTRL => ⟨0x100040, 1, 64, some 0x140⟩
  | .FERRY_TX_STAT => ⟨0x100048, 1, 32, some 0x148⟩
  | .FERRY_RX_DATA => ⟨0x100080, 8, 64, some 0x180⟩
  | .FERRY_RX_STAT => ⟨0x1000C0, 1, 32, some 0x1C0⟩
  | .FERRY_RX_TAKE => ⟨0x1000C8, 1, 32, some 0x1C8⟩
  | .FERRY_RX_NOTICE => ⟨0x1000D0, 1, 32, some 0x1D0⟩
  | .FERRY_CTRL => ⟨0x1000D8, 1, 32, some 0x1D8⟩
  | .HIF_LINK => ⟨0x200, 1, 32, none⟩
  | .HIF_VF_SEL => ⟨0x208, 1, 32, none⟩
  | .HIF_VF_ACC => ⟨0x210, 1, 64, none⟩
  | .HIF_HDM_CTRL => ⟨0x280, 1, 32, none⟩
  | .HIF_HDM_ERR => ⟨0x288, 1, 64, none⟩
  | .HIF_EVENT => ⟨0x290, 1, 32, none⟩
  | .HIF_HDM_REGION => ⟨0x300, 16, 64, none⟩
  | .RDMA_PORT_SEL => ⟨0xE00000, 1, 32, none⟩
  | .RDMA_PORT_CFG => ⟨0xE00008, 1, 64, none⟩
  | .RDMA_PORT_IP => ⟨0xE00010, 2, 64, none⟩
  | .RDMA_PORT_STAT => ⟨0xE00020, 1, 64, none⟩
  | .RDMA_QP_SEL => ⟨0xE00030, 1, 32, none⟩
  | .RDMA_QP_CFG => ⟨0xE00038, 1, 64, none⟩
  | .RDMA_QP_PSN => ⟨0xE00040, 1, 64, none⟩
  | .RDMA_QP_DEST => ⟨0xE00048, 1, 64, none⟩
  | .RDMA_QP_DIP => ⟨0xE00050, 2, 64, none⟩
  | .RDMA_QP_QKEY => ⟨0xE00060, 1, 32, none⟩
  | .RDMA_QP_STAT => ⟨0xE00068, 1, 64, none⟩
  | .RDMA_JOB_SEL => ⟨0xE00070, 1, 32, none⟩
  | .RDMA_JOB_KEY => ⟨0xE00078, 1, 32, none⟩
  | .RDMA_REG_SEL => ⟨0xE00080, 1, 32, none⟩
  | .RDMA_REG_BASE => ⟨0xE00088, 1, 64, none⟩
  | .RDMA_REG_LEN => ⟨0xE00090, 1, 64, none⟩
  | .RDMA_REG_CFG => ⟨0xE00098, 1, 64, none⟩
  | .RDMA_REVOKE => ⟨0xE000A0, 1, 32, none⟩
  | .RDMA_SQP_CTRL => ⟨0xE000A8, 1, 32, none⟩
  | .RDMA_SQP_LOCAL => ⟨0xE000C0, 13, 64, none⟩
  | .RDMA_SQP_PEER => ⟨0xE00140, 13, 64, none⟩
  | .RDMA_CACHE => ⟨0xE001C0, 1, 64, none⟩
  | .RDMA_ERR => ⟨0xE001C8, 1, 64, none⟩
  | .RDMA_EVENT => ⟨0xE001D0, 1, 32, none⟩
  | .TIDE_CTRL => ⟨0xB00000, 1, 32, none⟩
  | .TIDE_STATUS => ⟨0xB00008, 1, 32, none⟩
  | .TIDE_TIME => ⟨0xB00010, 1, 64, none⟩
  | .TIDE_ERR => ⟨0xB00018, 1, 64, none⟩
  | .TIDE_HOLD => ⟨0xB00020, 1, 64, none⟩
  | .TIDE_GM => ⟨0xB00028, 1, 64, none⟩
  | .TIDE_JOB_SEL => ⟨0xB00030, 1, 32, none⟩
  | .TIDE_JOB_PHASE => ⟨0xB00038, 1, 64, none⟩
  | .TIDE_EVT_SEL => ⟨0xB00040, 1, 32, none⟩
  | .TIDE_EVT_CFG => ⟨0xB00048, 1, 64, none⟩
  | .TIDE_EVT_ROUND => ⟨0xB00050, 1, 32, none⟩
  | .TIDE_EVT_STAT => ⟨0xB00058, 1, 64, none⟩
  | .TIDE_EVENT => ⟨0xB00060, 1, 32, none⟩
  | .PLT_MODE => ⟨0xC00000, 1, 32, none⟩
  | .PLT_POWER => ⟨0xC00008, 1, 64, none⟩
  | .PLT_CLU_SEL => ⟨0xC00010, 1, 32, none⟩
  | .PLT_CLU_ENV => ⟨0xC00018, 1, 32, none⟩
  | .PLT_CLU_STAT => ⟨0xC00020, 1, 32, none⟩
  | .PLT_JOB_SEL => ⟨0xC00028, 1, 32, none⟩
  | .PLT_JOB_SHARE => ⟨0xC00030, 1, 64, none⟩
  | .PLT_JOB_PIN => ⟨0xC00038, 1, 32, none⟩
  | .PLT_JOB_HBM => ⟨0xC00040, 1, 64, none⟩
  | .PLT_JOB_FRAC => ⟨0xC00048, 1, 32, none⟩
  | .PLT_JOB_PLACE => ⟨0xC00050, 1, 64, none⟩
  | .PLT_JOB_PINNED => ⟨0xC00058, 1, 32, none⟩
  | .PLT_EVENT => ⟨0xC00060, 1, 32, none⟩
  | .ENT_CTRL => ⟨0xF00000, 1, 32, none⟩
  | .ENT_STATUS => ⟨0xF00008, 1, 32, none⟩
  | .ENT_HEALTH => ⟨0xF00010, 1, 64, none⟩
  | .ENT_DRBG => ⟨0xF00018, 1, 64, none⟩
  | .ENT_WIRE => ⟨0xF00020, 1, 32, none⟩
  | .ENT_SW_DATA => ⟨0xF00028, 1, 64, some 0x1000⟩
  | .ENT_EVENT => ⟨0xF00030, 1, 32, none⟩
  | .KST_ID => ⟨0x1000000, 1, 64, none⟩
  | .KST_FW => ⟨0x1000008, 1, 64, none⟩
  | .KST_FW_DIGEST => ⟨0x1000010, 6, 64, none⟩
  | .KST_SVN_COMMIT => ⟨0x1000040, 1, 32, none⟩
  | .KST_STATUS => ⟨0x1000048, 1, 32, none⟩
  | .KST_SLOT_SEL => ⟨0x1000050, 1, 32, none⟩
  | .KST_SLOT_INFO => ⟨0x1000058, 1, 64, none⟩
  | .KST_SLOT_USE => ⟨0x1000060, 1, 64, none⟩
  | .KST_WR_DATA => ⟨0x1000080, 8, 64, none⟩
  | .KST_WR_CTRL => ⟨0x10000C0, 1, 64, none⟩
  | .KST_OP_STAT => ⟨0x10000C8, 1, 32, none⟩
  | .KST_CHAL => ⟨0x1000100, 6, 64, none⟩
  | .KST_CHAL_CTRL => ⟨0x1000130, 1, 32, none⟩
  | .KST_RESP => ⟨0x1000140, 6, 64, none⟩
  | .KST_EVENT => ⟨0x1000170, 1, 32, none⟩
  | .KST_VF_ORIGIN_QPN => ⟨0x100010FF, 1, 32, some 0x1100⟩
  | .KST_VF_PEER_HASH => ⟨0x10001107, 6, 64, some 0x1108⟩
  | .KST_VF_LOCAL_HASH => ⟨0x1000113F, 6, 64, some 0x1140⟩
  | .TRI_CTRL => ⟨0xD00000, 1, 32, none⟩
  | .TRI_STATUS => ⟨0xD00008, 1, 32, none⟩
  | .TRI_CHECKS => ⟨0xD00010, 1, 64, none⟩
  | .TRI_FAILS => ⟨0xD00018, 1, 64, none⟩
  | .TRI_UNIT_SEL => ⟨0xD00020, 1, 32, none⟩
  | .TRI_UNIT_STATE => ⟨0xD00028, 1, 32, none⟩
  | .TRI_UNIT_CMD => ⟨0xD00030, 1, 32, none⟩
  | .TRI_JOB_SEL => ⟨0xD00038, 1, 32, none⟩
  | .TRI_JOB_CHECK => ⟨0xD00040, 1, 64, none⟩
  | .TRI_HBM_ECC => ⟨0xD00048, 1, 64, none⟩
  | .TRI_AVAIL => ⟨0xD00050, 1, 64, none⟩
  | .TRI_ERR_LAST => ⟨0xD00058, 1, 64, none⟩
  | .TRI_EVENT => ⟨0xD00060, 1, 32, none⟩
  | .PMU_CTRL => ⟨0x1100000, 1, 32, none⟩
  | .PMU_STATUS => ⟨0x1100008, 1, 32, none⟩
  | .PMU_CNT_SEL => ⟨0x1100010, 1, 32, none⟩
  | .PMU_CNT_CFG => ⟨0x1100018, 1, 64, none⟩
  | .PMU_CNT_VALUE => ⟨0x1100020, 1, 64, none⟩
  | .PMU_CYCLES => ⟨0x1100040, 5, 64, none⟩
  | .PMU_SHADOW => ⟨0x1100100, 40, 64, none⟩
  | .PMU_SHADOW_CYC => ⟨0x1100240, 5, 64, none⟩
  | .PMU_VF_SEL => ⟨0x1100300, 1, 32, none⟩
  | .PMU_VF_GRANT => ⟨0x1100308, 1, 64, none⟩
  | .PMU_SAMP_CFG => ⟨0x1100400, 1, 64, none⟩
  | .PMU_SBUF_BASE => ⟨0x1100408, 1, 64, none⟩
  | .PMU_SBUF_CFG => ⟨0x1100410, 1, 32, none⟩
  | .PMU_SBUF_WR => ⟨0x1100418, 1, 32, none⟩
  | .PMU_SBUF_RD => ⟨0x1100420, 1, 32, none⟩
  | .PMU_SAMP_STAT => ⟨0x1100428, 1, 64, none⟩
  | .PMU_EVENT => ⟨0x1100430, 1, 32, none⟩
  | .PWR_CTRL => ⟨0x1200000, 1, 32, none⟩
  | .PWR_STATUS => ⟨0x1200008, 1, 32, none⟩
  | .PWR_RESET_CAUSE => ⟨0x1200010, 1, 32, none⟩
  | .PWR_INPUT => ⟨0x1200018, 1, 64, none⟩
  | .PWR_TEMP_SEL => ⟨0x1200020, 1, 32, none⟩
  | .PWR_TEMP => ⟨0x1200028, 1, 32, none⟩
  | .PWR_DOM_SEL => ⟨0x1200030, 1, 32, none⟩
  | .PWR_DOM_STATE => ⟨0x1200038, 1, 32, none⟩
  | .PWR_BOOT => ⟨0x1200040, 1, 64, none⟩
  | .PWR_EVENT => ⟨0x1200048, 1, 32, none⟩
  | .TST_CTRL => ⟨0x1300000, 1, 32, none⟩
  | .TST_STATUS => ⟨0x1300008, 1, 32, none⟩
  | .TST_IDCODE => ⟨0x1300010, 1, 32, none⟩
  | .TST_EVENT => ⟨0x1300018, 1, 32, none⟩

/-- Which copy an access from PF0 reaches. -/
def Reg.sel : Reg → Sel
  | .LND_CTRL => .plain
  | .LND_STATUS => .plain
  | .LND_VERSIONS => .plain
  | .LND_QUAR_THRESH => .plain
  | .LND_CLOSE_DRAIN => .plain
  | .LND_SEL => .plain
  | .LND_JOB_TAG => .picked LND_SEL.JOB
  | .LND_FE_CFG => .picked LND_SEL.FE
  | .LND_FE_CREDIT => .picked LND_SEL.FE
  | .LND_FE_STATE => .picked LND_SEL.FE
  | .LND_FE_ERR => .picked LND_SEL.FE
  | .LND_FE_LATE => .picked LND_SEL.FE
  | .LND_PORT_FIFO => .picked LND_SEL.PORT
  | .LND_STATUS_CNT => .picked LND_SEL.CODE
  | .LND_EVENT => .plain
  | .ROS_CTRL => .plain
  | .ROS_CACHE_OCC => .plain
  | .ROS_JOB_SEL => .plain
  | .ROS_JOB_RANGE => .picked ROS_JOB_SEL.JOB
  | .ROS_JOB_COUNTS => .picked ROS_JOB_SEL.JOB
  | .ROS_PEEK_SLOT => .plain
  | .ROS_PEEK_DATA => .plain
  | .TOL_CTRL => .plain
  | .TOL_STATUS => .plain
  | .TOL_CORE_FENCE => .plain
  | .TOL_JOB_SEL => .plain
  | .TOL_JOB_UNMASK => .picked TOL_JOB_SEL.JOB
  | .TOL_SMUL_CNT => .plain
  | .TOL_HKDF_CNT => .plain
  | .TOL_RECON_CNT => .plain
  | .TOL_EVENT => .plain
  | .CUL_CTRL => .plain
  | .CUL_STATUS => .plain
  | .CUL_LANE_FENCE_LO => .plain
  | .CUL_LANE_FENCE_HI => .plain
  | .CUL_BYTES => .plain
  | .CUL_ADDS => .plain
  | .CUL_JOB_SEL => .plain
  | .CUL_JOB_COHORTS => .picked CUL_JOB_SEL.JOB
  | .CUL_JOB_VOID => .picked CUL_JOB_SEL.JOB
  | .CUL_ABANDON_LAST => .picked CUL_JOB_SEL.JOB
  | .CUL_EVENT => .plain
  | .VAT_CTRL => .plain
  | .VAT_STATUS => .plain
  | .VAT_SCRUB => .plain
  | .VAT_ECC_CORR => .plain
  | .VAT_ECC_UNCORR => .plain
  | .VAT_POISON_LAST => .plain
  | .VAT_BANK_SEL => .plain
  | .VAT_BANK_STATE => .picked VAT_BANK_SEL.BANK
  | .VAT_JOB_SEL => .plain
  | .VAT_JOB_BERTHS => .picked VAT_JOB_SEL.JOB
  | .VAT_JOB_G64 => .picked VAT_JOB_SEL.JOB
  | .VAT_JOB_CTRL => .picked VAT_JOB_SEL.JOB
  | .VAT_JOB_PEER_WAIT => .picked VAT_JOB_SEL.JOB
  | .VAT_JOB_SETTLE => .picked VAT_JOB_SEL.JOB
  | .VAT_JOB_SPILL => .picked VAT_JOB_SEL.JOB
  | .VAT_JOB_LAST => .picked VAT_JOB_SEL.JOB
  | .VAT_JOB_NONFINITE => .picked VAT_JOB_SEL.JOB
  | .VAT_EVENT => .plain
  | .PRS_CTRL => .plain
  | .PRS_STATUS => .plain
  | .PRS_ARRAY_SEL => .plain
  | .PRS_ARRAY_STATE => .picked PRS_ARRAY_SEL.ARRAY
  | .PRS_MAC_CNT => .plain
  | .PRS_STEP_CNT => .plain
  | .PRS_STALL_CNT => .plain
  | .PRS_FEED_WAIT_CNT => .plain
  | .PRS_JOB_SEL => .plain
  | .PRS_JOB_COND => .picked PRS_JOB_SEL.JOB
  | .PRS_JOB_FLUSH => .picked PRS_JOB_SEL.JOB
  | .PRS_JOB_NONFINITE => .picked PRS_JOB_SEL.JOB
  | .PRS_JOB_SPARE => .picked PRS_JOB_SEL.JOB
  | .PRS_EVENT => .plain
  | .WRP_CTRL => .plain
  | .WRP_STATUS => .plain
  | .WRP_NOISE_CNT => .plain
  | .WRP_JOB_SEL => .plain
  | .WRP_JOB_POLICY => .picked WRP_JOB_SEL.JOB
  | .WRP_JOB_RHO => .picked WRP_JOB_SEL.JOB
  | .WRP_JOB_GATE => .picked WRP_JOB_SEL.JOB
  | .WRP_JOB_METRICS => .picked WRP_JOB_SEL.JOB
  | .WRP_JOB_LOSS => .picked WRP_JOB_SEL.JOB
  | .WRP_JOB_CONV => .picked WRP_JOB_SEL.JOB
  | .WRP_JOB_OVERRIDE => .picked WRP_JOB_SEL.JOB
  | .WRP_EVENT => .plain
  | .SKM_CTRL => .plain
  | .SKM_STATUS => .plain
  | .SKM_ELEM_CNT => .plain
  | .SKM_JOB_SEL => .plain
  | .SKM_JOB_SCREEN => .picked SKM_JOB_SEL.JOB
  | .SKM_EVENT => .plain
  | .RIND_CTRL => .plain
  | .RIND_STATUS => .plain
  | .RIND_CATALOGUE => .plain
  | .RIND_PIPE_FENCE => .plain
  | .RIND_LANE_FENCE => .plain
  | .RIND_NTT_CNT => .plain
  | .RIND_LANE_OPS => .plain
  | .RIND_RESIDUE_CNT => .plain
  | .RIND_HASH_BYTES => .plain
  | .RIND_JOB_SEL => .plain
  | .RIND_JOB_KEYS => .picked RIND_JOB_SEL.JOB
  | .RIND_JOB_EXPORT => .picked RIND_JOB_SEL.JOB
  | .RIND_JOB_DECODE => .picked RIND_JOB_SEL.JOB
  | .RIND_JOB_REFRESH => .picked RIND_JOB_SEL.JOB
  | .RIND_JOB_LAST => .picked RIND_JOB_SEL.JOB
  | .RIND_EVENT => .plain
  | .HIF_RCP_STORE => .plain
  | .HIF_RCP_ABI => .plain
  | .HIF_RCP_SLOT_SEL => .plain
  | .HIF_RCP_SLOT_INFO => .picked HIF_RCP_SLOT_SEL.SLOT
  | .HIF_RCP_SLOT_DIGEST => .picked HIF_RCP_SLOT_SEL.SLOT
  | .HIF_RCP_WDOG => .plain
  | .HIF_RCP_FAULT => .plain
  | .HIF_RCP_CTX => .plain
  | .HIF_RCP_EVENT => .plain
  | .HIF_VF_SQ_BASE => .func
  | .HIF_VF_SQ_CFG => .func
  | .HIF_VF_SQ_TAIL => .func
  | .HIF_VF_SQ_HEAD => .func
  | .HIF_VF_CQ_BASE => .func
  | .HIF_VF_CQ_CFG => .func
  | .HIF_VF_CQ_HEAD => .func
  | .HIF_VF_CQ_TAIL => .func
  | .HIF_VF_STATUS => .func
  | .HIF_VF_RES_STAT => .func
  | .HIF_VF_RES_DIGEST => .func
  | .HIF_VF_EVLOG_STAT => .func
  | .HIF_VF_EVLOG_DATA => .func
  | .HIF_VF_EVLOG_CTRL => .func
  | .FERRY_TX_DATA => .func
  | .FERRY_TX_CTRL => .func
  | .FERRY_TX_STAT => .func
  | .FERRY_RX_DATA => .func
  | .FERRY_RX_STAT => .func
  | .FERRY_RX_TAKE => .func
  | .FERRY_RX_NOTICE => .func
  | .FERRY_CTRL => .func
  | .HIF_LINK => .plain
  | .HIF_VF_SEL => .plain
  | .HIF_VF_ACC => .picked HIF_VF_SEL.FUNC
  | .HIF_HDM_CTRL => .plain
  | .HIF_HDM_ERR => .plain
  | .HIF_EVENT => .plain
  | .HIF_HDM_REGION => .plain
  | .RDMA_PORT_SEL => .plain
  | .RDMA_PORT_CFG => .picked RDMA_PORT_SEL.PORT
  | .RDMA_PORT_IP => .picked RDMA_PORT_SEL.PORT
  | .RDMA_PORT_STAT => .picked RDMA_PORT_SEL.PORT
  | .RDMA_QP_SEL => .plain
  | .RDMA_QP_CFG => .picked RDMA_QP_SEL.QPN
  | .RDMA_QP_PSN => .picked RDMA_QP_SEL.QPN
  | .RDMA_QP_DEST => .picked RDMA_QP_SEL.QPN
  | .RDMA_QP_DIP => .picked RDMA_QP_SEL.QPN
  | .RDMA_QP_QKEY => .picked RDMA_QP_SEL.QPN
  | .RDMA_QP_STAT => .picked RDMA_QP_SEL.QPN
  | .RDMA_JOB_SEL => .plain
  | .RDMA_JOB_KEY => .picked RDMA_JOB_SEL.JOB
  | .RDMA_REG_SEL => .plain
  | .RDMA_REG_BASE => .picked2 RDMA_JOB_SEL.JOB RDMA_REG_SEL.REGION
  | .RDMA_REG_LEN => .picked2 RDMA_JOB_SEL.JOB RDMA_REG_SEL.REGION
  | .RDMA_REG_CFG => .picked2 RDMA_JOB_SEL.JOB RDMA_REG_SEL.REGION
  | .RDMA_REVOKE => .plain
  | .RDMA_SQP_CTRL => .picked RDMA_QP_SEL.QPN
  | .RDMA_SQP_LOCAL => .picked RDMA_QP_SEL.QPN
  | .RDMA_SQP_PEER => .picked RDMA_QP_SEL.QPN
  | .RDMA_CACHE => .plain
  | .RDMA_ERR => .plain
  | .RDMA_EVENT => .plain
  | .TIDE_CTRL => .plain
  | .TIDE_STATUS => .plain
  | .TIDE_TIME => .plain
  | .TIDE_ERR => .plain
  | .TIDE_HOLD => .plain
  | .TIDE_GM => .plain
  | .TIDE_JOB_SEL => .plain
  | .TIDE_JOB_PHASE => .picked TIDE_JOB_SEL.JOB
  | .TIDE_EVT_SEL => .plain
  | .TIDE_EVT_CFG => .picked TIDE_EVT_SEL.EVENT
  | .TIDE_EVT_ROUND => .picked TIDE_EVT_SEL.EVENT
  | .TIDE_EVT_STAT => .picked TIDE_EVT_SEL.EVENT
  | .TIDE_EVENT => .plain
  | .PLT_MODE => .plain
  | .PLT_POWER => .plain
  | .PLT_CLU_SEL => .plain
  | .PLT_CLU_ENV => .picked PLT_CLU_SEL.CLUSTER
  | .PLT_CLU_STAT => .picked PLT_CLU_SEL.CLUSTER
  | .PLT_JOB_SEL => .plain
  | .PLT_JOB_SHARE => .picked PLT_JOB_SEL.JOB
  | .PLT_JOB_PIN => .picked PLT_JOB_SEL.JOB
  | .PLT_JOB_HBM => .picked PLT_JOB_SEL.JOB
  | .PLT_JOB_FRAC => .picked PLT_JOB_SEL.JOB
  | .PLT_JOB_PLACE => .picked PLT_JOB_SEL.JOB
  | .PLT_JOB_PINNED => .picked PLT_JOB_SEL.JOB
  | .PLT_EVENT => .plain
  | .ENT_CTRL => .plain
  | .ENT_STATUS => .plain
  | .ENT_HEALTH => .plain
  | .ENT_DRBG => .plain
  | .ENT_WIRE => .plain
  | .ENT_SW_DATA => .plain
  | .ENT_EVENT => .plain
  | .KST_ID => .plain
  | .KST_FW => .plain
  | .KST_FW_DIGEST => .plain
  | .KST_SVN_COMMIT => .plain
  | .KST_STATUS => .plain
  | .KST_SLOT_SEL => .plain
  | .KST_SLOT_INFO => .picked KST_SLOT_SEL.SLOT
  | .KST_SLOT_USE => .picked KST_SLOT_SEL.SLOT
  | .KST_WR_DATA => .plain
  | .KST_WR_CTRL => .plain
  | .KST_OP_STAT => .plain
  | .KST_CHAL => .plain
  | .KST_CHAL_CTRL => .plain
  | .KST_RESP => .plain
  | .KST_EVENT => .plain
  | .KST_VF_ORIGIN_QPN => .func
  | .KST_VF_PEER_HASH => .func
  | .KST_VF_LOCAL_HASH => .func
  | .TRI_CTRL => .plain
  | .TRI_STATUS => .plain
  | .TRI_CHECKS => .plain
  | .TRI_FAILS => .plain
  | .TRI_UNIT_SEL => .plain
  | .TRI_UNIT_STATE => .picked2 TRI_UNIT_SEL.BLOCK TRI_UNIT_SEL.UNIT
  | .TRI_UNIT_CMD => .picked2 TRI_UNIT_SEL.BLOCK TRI_UNIT_SEL.UNIT
  | .TRI_JOB_SEL => .plain
  | .TRI_JOB_CHECK => .picked TRI_JOB_SEL.JOB
  | .TRI_HBM_ECC => .plain
  | .TRI_AVAIL => .plain
  | .TRI_ERR_LAST => .plain
  | .TRI_EVENT => .plain
  | .PMU_CTRL => .plain
  | .PMU_STATUS => .plain
  | .PMU_CNT_SEL => .plain
  | .PMU_CNT_CFG => .picked PMU_CNT_SEL.IDX
  | .PMU_CNT_VALUE => .picked PMU_CNT_SEL.IDX
  | .PMU_CYCLES => .plain
  | .PMU_SHADOW => .plain
  | .PMU_SHADOW_CYC => .plain
  | .PMU_VF_SEL => .plain
  | .PMU_VF_GRANT => .picked PMU_VF_SEL.VF
  | .PMU_SAMP_CFG => .plain
  | .PMU_SBUF_BASE => .plain
  | .PMU_SBUF_CFG => .plain
  | .PMU_SBUF_WR => .plain
  | .PMU_SBUF_RD => .plain
  | .PMU_SAMP_STAT => .plain
  | .PMU_EVENT => .plain
  | .PWR_CTRL => .plain
  | .PWR_STATUS => .plain
  | .PWR_RESET_CAUSE => .plain
  | .PWR_INPUT => .plain
  | .PWR_TEMP_SEL => .plain
  | .PWR_TEMP => .picked PWR_TEMP_SEL.SENSOR
  | .PWR_DOM_SEL => .plain
  | .PWR_DOM_STATE => .picked PWR_DOM_SEL.DOMAIN
  | .PWR_BOOT => .plain
  | .PWR_EVENT => .plain
  | .TST_CTRL => .plain
  | .TST_STATUS => .plain
  | .TST_IDCODE => .plain
  | .TST_EVENT => .plain

/-- Registers of the manual's tables, part 1. -/
def Reg.part1 : List Reg :=
  [.LND_CTRL, .LND_STATUS, .LND_VERSIONS, .LND_QUAR_THRESH, .LND_CLOSE_DRAIN, .LND_SEL, .LND_JOB_TAG, .LND_FE_CFG, .LND_FE_CREDIT,
   .LND_FE_STATE, .LND_FE_ERR, .LND_FE_LATE, .LND_PORT_FIFO, .LND_STATUS_CNT, .LND_EVENT, .ROS_CTRL, .ROS_CACHE_OCC, .ROS_JOB_SEL,
   .ROS_JOB_RANGE, .ROS_JOB_COUNTS, .ROS_PEEK_SLOT, .ROS_PEEK_DATA, .TOL_CTRL, .TOL_STATUS, .TOL_CORE_FENCE, .TOL_JOB_SEL, .TOL_JOB_UNMASK,
   .TOL_SMUL_CNT, .TOL_HKDF_CNT, .TOL_RECON_CNT, .TOL_EVENT, .CUL_CTRL, .CUL_STATUS, .CUL_LANE_FENCE_LO, .CUL_LANE_FENCE_HI, .CUL_BYTES,
   .CUL_ADDS, .CUL_JOB_SEL, .CUL_JOB_COHORTS, .CUL_JOB_VOID, .CUL_ABANDON_LAST, .CUL_EVENT, .VAT_CTRL, .VAT_STATUS, .VAT_SCRUB]

/-- Registers of the manual's tables, part 2. -/
def Reg.part2 : List Reg :=
  [.VAT_ECC_CORR, .VAT_ECC_UNCORR, .VAT_POISON_LAST, .VAT_BANK_SEL, .VAT_BANK_STATE, .VAT_JOB_SEL, .VAT_JOB_BERTHS, .VAT_JOB_G64, .VAT_JOB_CTRL,
   .VAT_JOB_PEER_WAIT, .VAT_JOB_SETTLE, .VAT_JOB_SPILL, .VAT_JOB_LAST, .VAT_JOB_NONFINITE, .VAT_EVENT, .PRS_CTRL, .PRS_STATUS, .PRS_ARRAY_SEL,
   .PRS_ARRAY_STATE, .PRS_MAC_CNT, .PRS_STEP_CNT, .PRS_STALL_CNT, .PRS_FEED_WAIT_CNT, .PRS_JOB_SEL, .PRS_JOB_COND, .PRS_JOB_FLUSH, .PRS_JOB_NONFINITE,
   .PRS_JOB_SPARE, .PRS_EVENT, .WRP_CTRL, .WRP_STATUS, .WRP_NOISE_CNT, .WRP_JOB_SEL, .WRP_JOB_POLICY, .WRP_JOB_RHO, .WRP_JOB_GATE,
   .WRP_JOB_METRICS, .WRP_JOB_LOSS, .WRP_JOB_CONV, .WRP_JOB_OVERRIDE, .WRP_EVENT, .SKM_CTRL, .SKM_STATUS, .SKM_ELEM_CNT, .SKM_JOB_SEL]

/-- Registers of the manual's tables, part 3. -/
def Reg.part3 : List Reg :=
  [.SKM_JOB_SCREEN, .SKM_EVENT, .RIND_CTRL, .RIND_STATUS, .RIND_CATALOGUE, .RIND_PIPE_FENCE, .RIND_LANE_FENCE, .RIND_NTT_CNT, .RIND_LANE_OPS,
   .RIND_RESIDUE_CNT, .RIND_HASH_BYTES, .RIND_JOB_SEL, .RIND_JOB_KEYS, .RIND_JOB_EXPORT, .RIND_JOB_DECODE, .RIND_JOB_REFRESH, .RIND_JOB_LAST, .RIND_EVENT,
   .HIF_RCP_STORE, .HIF_RCP_ABI, .HIF_RCP_SLOT_SEL, .HIF_RCP_SLOT_INFO, .HIF_RCP_SLOT_DIGEST, .HIF_RCP_WDOG, .HIF_RCP_FAULT, .HIF_RCP_CTX, .HIF_RCP_EVENT,
   .HIF_VF_SQ_BASE, .HIF_VF_SQ_CFG, .HIF_VF_SQ_TAIL, .HIF_VF_SQ_HEAD, .HIF_VF_CQ_BASE, .HIF_VF_CQ_CFG, .HIF_VF_CQ_HEAD, .HIF_VF_CQ_TAIL, .HIF_VF_STATUS,
   .HIF_VF_RES_STAT, .HIF_VF_RES_DIGEST, .HIF_VF_EVLOG_STAT, .HIF_VF_EVLOG_DATA, .HIF_VF_EVLOG_CTRL, .FERRY_TX_DATA, .FERRY_TX_CTRL, .FERRY_TX_STAT, .FERRY_RX_DATA]

/-- Registers of the manual's tables, part 4. -/
def Reg.part4 : List Reg :=
  [.FERRY_RX_STAT, .FERRY_RX_TAKE, .FERRY_RX_NOTICE, .FERRY_CTRL, .HIF_LINK, .HIF_VF_SEL, .HIF_VF_ACC, .HIF_HDM_CTRL, .HIF_HDM_ERR,
   .HIF_EVENT, .HIF_HDM_REGION, .RDMA_PORT_SEL, .RDMA_PORT_CFG, .RDMA_PORT_IP, .RDMA_PORT_STAT, .RDMA_QP_SEL, .RDMA_QP_CFG, .RDMA_QP_PSN,
   .RDMA_QP_DEST, .RDMA_QP_DIP, .RDMA_QP_QKEY, .RDMA_QP_STAT, .RDMA_JOB_SEL, .RDMA_JOB_KEY, .RDMA_REG_SEL, .RDMA_REG_BASE, .RDMA_REG_LEN,
   .RDMA_REG_CFG, .RDMA_REVOKE, .RDMA_SQP_CTRL, .RDMA_SQP_LOCAL, .RDMA_SQP_PEER, .RDMA_CACHE, .RDMA_ERR, .RDMA_EVENT, .TIDE_CTRL,
   .TIDE_STATUS, .TIDE_TIME, .TIDE_ERR, .TIDE_HOLD, .TIDE_GM, .TIDE_JOB_SEL, .TIDE_JOB_PHASE, .TIDE_EVT_SEL, .TIDE_EVT_CFG]

/-- Registers of the manual's tables, part 5. -/
def Reg.part5 : List Reg :=
  [.TIDE_EVT_ROUND, .TIDE_EVT_STAT, .TIDE_EVENT, .PLT_MODE, .PLT_POWER, .PLT_CLU_SEL, .PLT_CLU_ENV, .PLT_CLU_STAT, .PLT_JOB_SEL,
   .PLT_JOB_SHARE, .PLT_JOB_PIN, .PLT_JOB_HBM, .PLT_JOB_FRAC, .PLT_JOB_PLACE, .PLT_JOB_PINNED, .PLT_EVENT, .ENT_CTRL, .ENT_STATUS,
   .ENT_HEALTH, .ENT_DRBG, .ENT_WIRE, .ENT_SW_DATA, .ENT_EVENT, .KST_ID, .KST_FW, .KST_FW_DIGEST, .KST_SVN_COMMIT,
   .KST_STATUS, .KST_SLOT_SEL, .KST_SLOT_INFO, .KST_SLOT_USE, .KST_WR_DATA, .KST_WR_CTRL, .KST_OP_STAT, .KST_CHAL, .KST_CHAL_CTRL,
   .KST_RESP, .KST_EVENT, .KST_VF_ORIGIN_QPN, .KST_VF_PEER_HASH, .KST_VF_LOCAL_HASH, .TRI_CTRL, .TRI_STATUS, .TRI_CHECKS, .TRI_FAILS]

/-- Registers of the manual's tables, part 6. -/
def Reg.part6 : List Reg :=
  [.TRI_UNIT_SEL, .TRI_UNIT_STATE, .TRI_UNIT_CMD, .TRI_JOB_SEL, .TRI_JOB_CHECK, .TRI_HBM_ECC, .TRI_AVAIL, .TRI_ERR_LAST, .TRI_EVENT,
   .PMU_CTRL, .PMU_STATUS, .PMU_CNT_SEL, .PMU_CNT_CFG, .PMU_CNT_VALUE, .PMU_CYCLES, .PMU_SHADOW, .PMU_SHADOW_CYC, .PMU_VF_SEL,
   .PMU_VF_GRANT, .PMU_SAMP_CFG, .PMU_SBUF_BASE, .PMU_SBUF_CFG, .PMU_SBUF_WR, .PMU_SBUF_RD, .PMU_SAMP_STAT, .PMU_EVENT, .PWR_CTRL,
   .PWR_STATUS, .PWR_RESET_CAUSE, .PWR_INPUT, .PWR_TEMP_SEL, .PWR_TEMP, .PWR_DOM_SEL, .PWR_DOM_STATE, .PWR_BOOT, .PWR_EVENT,
   .TST_CTRL, .TST_STATUS, .TST_IDCODE, .TST_EVENT]

/-- Every register, in the order of the manual. -/
def Reg.all : List Reg := List.flatten [Reg.part1, Reg.part2, Reg.part3, Reg.part4, Reg.part5, Reg.part6]

/-- The place of a field's value in the register file: its domain, register and lowest bit, and the copy (`major`: a job, front-end, port, queue pair, function, unit…; `minor`: the number within a group of registers, a region or a unit). -/
structure RKey where
  dom : Dom
  reg : Reg
  lo : Nat
  major : Nat
  minor : Nat
  deriving DecidableEq, Repr

/-- The order of the register file's entries. -/
def RKey.ord (k : RKey) : Nat :=
  (((k.dom.ctorIdx * 512 + k.reg.ctorIdx) * 64 + k.lo) * 2 ^ 32 + k.major) * 2 ^ 32 + k.minor

/-- The key of copy (major, minor) of a field. -/
def Fld.key (f : Fld) (major minor : Nat) : RKey := ⟨f.dom, f.reg, f.lo, major, minor⟩

end Sys2Proof.Machine
end

