-- ==== Sys2Proof/Machine/Sparse.lean ====
section
/-! DEFINITION. Sparse tables: lists of (key, value) pairs in one canonical form. The order `ord` only places an entry; looking up, writing and dropping depend on the keys' equality alone. -/

namespace Sys2Proof.Machine

/-- The value listed under a key. -/
def lookup {κ α : Type} [DecidableEq κ] : List (κ × α) → κ → Option α
  | [], _ => none
  | (k', v) :: m, k => if k' = k then some v else lookup m k

/-- The table without the entries of a key. -/
def dropKey {κ α : Type} [DecidableEq κ] (m : List (κ × α)) (k : κ) : List (κ × α) :=
  m.filter (fun e => !decide (e.1 = k))

/-- An entry placed before the first entry of a larger key. -/
def place {κ α : Type} (ord : κ → Nat) : List (κ × α) → κ → α → List (κ × α)
  | [], k, v => [(k, v)]
  | (k', v') :: m, k, v => if ord k < ord k' then (k, v) :: (k', v') :: m else (k', v') :: place ord m k v

/-- The table with a key set to a value. -/
def put {κ α : Type} [DecidableEq κ] (ord : κ → Nat) (m : List (κ × α)) (k : κ) (v : α) : List (κ × α) :=
  place ord (dropKey m k) k v

/-- The table with a key set to a value, where an unlisted key reads as `d`: writing `d` lists nothing. -/
def putD {κ α : Type} [DecidableEq κ] [DecidableEq α] (ord : κ → Nat) (d : α) (m : List (κ × α)) (k : κ) (v : α) :
    List (κ × α) :=
  if v = d then dropKey m k else put ord m k v

/-- The value of a key where an unlisted key reads as `d`. -/
def readD {κ α : Type} [DecidableEq κ] (d : α) (m : List (κ × α)) (k : κ) : α := (lookup m k).getD d

/-- The entries whose key passes a test. -/
def keepKeys {κ α : Type} (p : κ → Bool) (m : List (κ × α)) : List (κ × α) := m.filter (fun e => p e.1)

/-- The keys rise strictly. -/
def rising {κ α : Type} (ord : κ → Nat) : List (κ × α) → Bool
  | [] => true
  | (k, _) :: m => m.all (fun e => decide (ord k < ord e.1)) && rising ord m

/-- A table whose keys are numbers. -/
abbrev NatMap (α : Type) := List (Nat × α)

/-- The table with a number's entry set. -/
def putN {α : Type} (m : NatMap α) (k : Nat) (v : α) : NatMap α := put id m k v

end Sys2Proof.Machine
end

