-- ==== Sys2Proof/Machine/State.lean ====
section
/-! DEFINITION. The module's state as plain data, and the state after reset. -/

namespace Sys2Proof.Machine

/-- The reasons a step can stop with a fault: none. The spec gives every command of the table an effect. -/
inductive Fault where
  deriving DecidableEq, Repr

/-- The reasons a command can be refused by the model. -/
inductive Refusal where
  /-- Raised by the dispatch for a command that has no meaning yet. Safe: nothing is claimed of it. -/
  | notModelled (mnemonic : String)
  deriving DecidableEq, Repr

/-- The phases of a round (01 *Phases of a masked round*), `planned` before Offer. -/
inductive Phase where
  | planned | offer | join | neighbours | shares | upload | close | unmask | settle | finish | gate | release
  deriving DecidableEq, Repr

/-- The states of a Roster entry (R101). -/
inductive CState where
  | FREE | JOINED | NEIGHBOURED | SHARED | UPLOADING | COMPLETE | WITHDRAWN | SURVIVOR | DROPOUT | UNMASKED
  deriving DecidableEq, Repr

/-- A Roster entry (R101). -/
structure Entry where
  job : Nat
  valid : Bool
  state : CState
  fe : Nat
  round : Nat
  cohort : Nat
  chunks : Nat
  keyHandle : Nat
  bitmapPtr : Nat
  shareOutPtr : Nat
  shareInPtr : Nat
  msgSeq : Nat
  errAuth : Nat
  errOther : Nat
  dup : Nat
  unmaskAdm : Bool
  resultSent : Bool
  version3 : Bool
  reason : Nat
  joinTime : Nat
  deriving DecidableEq, Repr

/-- The entry of a slot that nothing has joined. -/
def Entry.free : Entry := ⟨0, false, .FREE, 0, 0, 0, 0, 0, 0, 0, 0, 0, 0, 0, 0, false, false, false, 0, 0⟩

/-- A close record (R105). -/
structure CloseRec where
  state : CState
  unmaskAdm : Bool
  resultSent : Bool
  version3 : Bool
  withdrawn : Bool
  fe : Nat
  round : Nat
  keyHandle : Nat
  msgSeq : Nat
  cohort : Nat
  errAuth : Nat
  errOther : Nat
  dup : Nat
  reason : Nat
  deriving DecidableEq, Repr

/-- A client's key record of one round (R56). -/
structure KeyRec where
  version3 : Bool
  c2m : Key256
  m2c : Key256
  eph : Bytes
  pair : Bytes
  deriving DecidableEq, Repr

/-- A ciphertext held by name: a round's sum or an export (R325). -/
structure Ct where
  set : Nat
  level : Nat
  ring : Nat
  keyId : Nat
  budget : Int
  count : Nat
  poison : Bool
  c0 : List (List Nat)
  c1 : List (List Nat)
  deriving DecidableEq, Repr

/-- One of the two secrets of a client that Unmask may need (R137), with the shares admitted for it as (sender, share), in the order of admission. -/
structure Secret where
  about : Nat
  pairKey : Bool
  possible : Nat
  shares : List (Nat × Nat)
  done : Bool
  deriving DecidableEq, Repr

/-- A mask key handed to Culture and not yet applied: the key, and whether its stream is added (R140). -/
structure MaskJob where
  key : Key256
  adds : Bool
  deriving DecidableEq, Repr

/-- A cohort of one round; `inHbm` says that its accumulator or sums lie in the job's HBM (R163, R510, R512). -/
structure Cohort where
  reason : Nat
  accum : NatMap Nat
  check : List Nat
  checkKey : Option Key256
  frac : Nat
  wanted : Nat
  checked : Bool
  checkSeq : Nat
  members : List Nat
  survivors : List Nat
  dropouts : List Nat
  voids : List Nat
  weight : Nat
  secrets : List Secret
  masks : List MaskJob
  unmasked : Bool
  settled : Bool
  status : Nat
  screened : Bool
  flagged : Bool
  excluded : Bool
  sketch : NatMap Int
  inHbm : Bool
  sums : NatMap Ct
  exports : NatMap Ct
  decoded : NatMap (List (List Nat))
  decodeDone : Bool
  deriving DecidableEq, Repr

/-- A cohort that nothing has touched. -/
def Cohort.empty : Cohort :=
  ⟨0, [], [0, 0, 0, 0], none, 0, 0, false, 0, [], [], [], [], 1, [], [], false, false, 0, false, false, false, [], false, [], [], [],
   false⟩

/-- A member's manifest (R344, R345): its group and number, whether its area is revoked and awaits the hash, whether it is admitted, the second copies that wait (R79) as their queue pairs and headers, and whether the area's write right was taken. -/
structure Manifest where
  group : Nat
  member : Nat
  digest : Bytes
  records : Nat
  hashing : Bool
  admitted : Bool
  qpn : Nat
  head : Bytes
  waiters : List (Nat × Bytes)
  took : Bool
  deriving DecidableEq, Repr

/-- A round of a job. `windowNo` counts the windows that are finished, `finished` holds the binary64 codes of their coordinates, and `rhoBefore` is the charge spent before Finish began (R178, R279). `directory` holds each group's export records as (kind, cohort, ciphertext index), or (1, context, operation) for a refresh (R342, R349). -/
structure Round where
  number : Nat
  tag : Nat
  plan : Bytes
  phase : Phase
  held : List Phase
  offerDone : Bool
  deadline : Bool
  pub : Bytes
  priv : Nat
  keys : NatMap KeyRec
  nbrs : NatMap (List Nat)
  bundles : NatMap (NatMap Bytes)
  bundleKey : Option Key256
  bitmaps : NatMap (List Nat)
  requested : NatMap (List (Nat × Bool))
  cohorts : NatMap Cohort
  closed : Bool
  closeTable : NatMap CloseRec
  weights : Bytes
  drainEnd : Nat
  begunAt : NatMap Nat
  directory : NatMap (List (Nat × Nat × Nat))
  groupDone : List Nat
  groupAbsent : List Nat
  manifests : NatMap Manifest
  lockedKeys : List Nat
  refreshing : List Nat
  screenKey : Option Key256
  screenFailed : Bool
  screenRun : Bool
  screenDone : Bool
  peers : List Nat
  peerStart : Option Nat
  charge : Option Nat
  rhoBefore : Nat
  windowNo : Nat
  finished : List Nat
  stagedOut : List Bytes
  stagedVals : NatMap Nat
  stagedMom : NatMap Nat
  candidate : NatMap Nat
  nonfinite : Nat
  gate : Option Nat
  holdEnd : Option Nat
  accepted : Bool
  overridden : Bool
  candidateCorrect : Nat
  underChecked : Bool
  deriving DecidableEq, Repr

/-- A queued refresh (R349, R350). -/
structure RefreshOp where
  src : Nat
  dst : Nat
  group : Nat
  since : Nat
  ctx : Nat
  op : Nat
  seed : Bytes
  joined : Option Nat
  deriving DecidableEq, Repr

/-- A job (R32). `offerTime` is the OFFER_TIME of its newest round (R500). -/
structure Job where
  present : Bool
  confidential : Bool
  aborting : Option (Nat × Nat)
  aborted : Bool
  silent : Bool
  policy : Bytes
  nextRound : Nat
  rounds : List Round
  counters : NatMap Nat
  held : Option Bytes
  heldOk : Bool
  base : NatMap Nat
  baseCorrect : Option Nat
  momentum : NatMap Nat
  keyTable : NatMap Bytes
  refresh : List RefreshOp
  hbm : List Host.Cell
  offered : Bool
  failTimes : List Nat
  pressKey : Option Key256
  chains : Nat
  offerPriv : Nat
  importPriv : Nat
  slots : List Nat
  hbmKey : Bool
  offerTime : Nat
  deriving DecidableEq, Repr

/-- A job that does not exist. -/
def Job.absent : Job :=
  ⟨false, false, none, false, false, [], 1, [], [], none, false, [], none, [], [], [], [], false, [], none, 0, 0, 0, [], false, 0⟩

/-- A descriptor fetched and not yet completed (R413, R415); one started before a function-level reset of PF0 completes unwritten (R633). -/
structure Desc where
  bytes : Bytes
  started : Bool
  silent : Bool
  deriving DecidableEq, Repr

/-- A completion that has fallen due and is held (R432, R433): its kind, status, tag, body, flags and whether it raises the vector. -/
structure Due where
  kind : Nat
  status : Nat
  tag : Nat
  body : Bytes
  flags : Nat
  irq : Bool
  deriving DecidableEq, Repr

/-- A host function's rings and result queue beside their registers (R411, R427, R429, R436). -/
structure Ring2 where
  descs : List Desc
  held : List Due
  cseq : Nat
  owed : Nat
  results : List (Nat × Nat × Nat × Bytes)
  taken : Option (Nat × Nat × Nat × Bytes)
  deriving DecidableEq, Repr

/-- A function with no ring enabled. -/
def Ring2.empty : Ring2 := ⟨[], [], 1, 0, [], none⟩

/-- A Ferry channel (R440 to R444): the held block with its sender's stamp, the notice word and its stamp, and the sends that firmware holds. -/
structure Channel where
  block : Option (Bytes × Nat)
  notice : Nat
  noticeBy : Nat
  waiting : List Bytes
  deriving DecidableEq, Repr

/-- A channel that holds nothing. -/
def Channel.empty : Channel := ⟨none, 0, 0, []⟩

/-- An admission transaction that holds its claim (R78, R323); `waiters` are second copies that wait for it (R79). -/
structure Txn where
  job : JobId
  round : Nat
  slot : Nat
  chunk : Nat
  qpn : Qpn
  head : Bytes
  elems : List Nat
  check : List Nat
  sealing : Bool
  waiters : List (Qpn × Nat × Bytes)
  deriving DecidableEq, Repr

/-- A queue pair beside its registers (R470, R477, R478, R487 to R490): the atomic replay cache; the requester's queue as (first PSN, request, 1 once it is sent); the write in progress as (job, region); whether a GEN_KEY waits for the entropy unit; the ephemeral private key; the keys and IVs of the two directions, sending first, and their counters; the retransmissions in a row and the time of the last progress. -/
structure Qp where
  replay : List (Nat × Nat)
  sent : List (Nat × WorkReq × Nat)
  inMsg : Option (Nat × Nat)
  keyWait : Bool
  priv : Option Nat
  keys : Option (Key256 × Key256 × Bytes × Bytes)
  txCount : Nat
  rxCount : Nat
  badTags : Nat
  retries : Nat
  lastSend : Nat
  stream : Option (Nat × Nat)
  deriving DecidableEq, Repr

/-- A queue pair in RESET. -/
def Qp.empty : Qp := ⟨[], [], none, false, none, none, 0, 0, 0, 0, 0, none⟩

/-- An inbound WRITE that has passed the key check and has not delivered its last packet (R467, R484): its queue pair, job, region, address of the next byte and the bytes of its length that are left. -/
structure OpenWrite where
  qpn : Nat
  job : JobId
  region : Nat
  va : Nat
  left : Nat
  cut : Bool
  deriving DecidableEq, Repr

/-- A loop that a context is inside (R370): the word after LOOP, the passes left, and the index register to increase. -/
structure LoopFrame where
  body : Nat
  left : Nat
  idx : Option Nat
  deriving DecidableEq, Repr

/-- Work that an instruction issued and that has not completed (R369): its number and the status it completes with, as (space, detail). -/
structure IssuedOp where
  id : Nat
  space : Nat
  detail : Nat
  pc : Nat
  deriving DecidableEq, Repr

/-- A block as the feed loads it (R228): zero, non-finite, or its exponent above the foot of the anchor window with its integers. -/
inductive Blk where
  | zero
  | inf
  | val (e : Nat) (xs : List Int)
  deriving DecidableEq, Repr

/-- The operand blocks of one MAC as the feed delivered them: the row lanes of A and the column lanes of B (R577). -/
structure Fed where
  a : List (List Blk)
  b : List (List Blk)
  deriving DecidableEq, Repr

/-- A chain of MACs in one tile of one invocation (R241): its number, whether Trier covers it, the physical array it runs on, and Trier's copies of the operands of a covered one, the latest MAC's first (R577). -/
structure ChainRec where
  tile : Nat
  array : Nat
  phys : Nat
  number : Nat
  covered : Bool
  fed : List Fed
  deriving DecidableEq, Repr

/-- An invocation of a recipe in its context (R355, R363). `wait` is the time at which a WAIT_EVT issued, `tiles` the rows and columns at which the latest MAC of a tile stands, as (array, tile, row, column), `anchors` the format and the largest scale code written of each destination tensor by its header's address (R274). -/
structure Ctx where
  job : JobId
  slot : Nat
  words : List Word
  fromHost : Option (Nat × Bool)
  round : Option Nat
  pc : Nat
  regs : List Word
  loops : List LoopFrame
  issued : List IssuedOp
  count : Nat
  cond : Nat
  layer : Option Nat
  ending : Option (Nat × Nat × Nat × Nat)
  start : Nat
  fired : List Nat
  wait : Option Nat
  tiles : List (Nat × Nat × Nat × Nat)
  chains : List ChainRec
  roundKey : Option Key256
  elems : Nat
  group : Option Nat
  provisional : Bool
  anchors : NatMap (Nat × Nat)
  chainNo : Nat
  deriving DecidableEq, Repr

/-- An invocation to start, or one that waits for a free context (R355): a descriptor's with its TAG and IRQ, or a round core's with the round that it serves (R28). -/
structure Waiting where
  job : JobId
  slot : Nat
  args : List Nat
  fromHost : Option (Nat × Bool)
  round : Option Nat
  deriving DecidableEq, Repr

/-- A handle that an operation of Rind has locked (R327): the job and the handle, and the context and number of the operation. -/
structure Lock where
  job : JobId
  addr : Nat
  ctx : Nat
  op : Nat
  deriving DecidableEq, Repr

/-- An operation of Rind that waits for locked handles (R327): its job, its context and the handles that it names. -/
structure LockWait where
  job : JobId
  ctx : Nat
  addrs : List Nat
  deriving DecidableEq, Repr

/-- One cell's part of a tile (R211, R217, R234): its L128, none for Inf; the anchor sum and the format flag that it recorded; whether it is poisoned; and whether a MAC of the invocation that uses the tile has written it (R213). -/
structure Cell where
  v : Option Int
  alpha : Int
  f4 : Bool
  poison : Bool
  mine : Bool
  deriving DecidableEq, Repr

/-- A cell that holds zero. -/
def Cell.zero : Cell := ⟨some 0, 0, false, false, false⟩

/-- A tile of a Press array by cell 128 r + c, with the M and N of its latest MAC. -/
structure Tile where
  cells : NatMap Cell
  m : Nat
  n : Nat
  deriving DecidableEq, Repr

/-- A tile that holds zero. -/
def Tile.zero : Tile := ⟨[], 0, 0⟩

/-- The short run registers of a cell (R230, R231). -/
structure Run where
  hh : Int
  x : Int
  ll : Int
  deriving DecidableEq, Repr

/-- Short run registers that hold zero. -/
def Run.zero : Run := ⟨0, 0, 0⟩

/-- A drain that is pending on an array (R241): the context, its operation, the tile, the Wrap record and the place of the tile's first element in the destination. -/
structure DrainRec where
  x : CtxId
  op : Nat
  tile : Nat
  record : Bytes
  row0 : Nat
  col0 : Nat
  deriving DecidableEq, Repr

/-- A Press array (R209 to R212, R244): its tiles; the short run registers that are not zero, by cell; its pending drains; the MACs in flight, as context and operation; and the feed's times in array cycles: the end of the last step, the latest drain's last step, and the same for the drain pending on each tile. -/
structure ArrayRec where
  owner : Option JobId
  tile0 : Tile
  tile1 : Tile
  runs : NatMap Run
  drains : List DrainRec
  macs : List (Nat × Nat)
  feedEnd : Nat
  drainAt : Option Nat
  tileAt : List (Option Nat)
  deriving DecidableEq, Repr

/-- An array that serves no job. -/
def ArrayRec.idle : ArrayRec := ⟨none, .zero, .zero, [], [], [], 0, none, [none, none]⟩

/-- A drained chain that Trier has still to check (R260, R577): its array, its drain, the number of its first output element, the operand copies, and the tile as it was drained. -/
structure ChainCheck where
  array : Nat
  drain : DrainRec
  base : Nat
  fed : List Fed
  drained : Tile
  deriving DecidableEq, Repr

/-- A check group of the Press chains of one invocation (R582, R584): its check sequence, its invocation, the CSEQ of a provisional completion, the chains still to be checked, and the fractions applied and wanted. -/
structure Group where
  seq : Nat
  job : JobId
  x : Option CtxId
  cseq : Option Nat
  chains : List ChainCheck
  frac : Nat
  want : Nat
  deriving DecidableEq, Repr

/-- A tagged instruction in flight (R606, R608). -/
structure Tag where
  number : Nat
  recipeId : Nat
  job : Nat
  ctx : Nat
  opc : Nat
  doubtful : Bool
  time : Nat
  rate : Nat
  deriving DecidableEq, Repr

/-- An armed entry of the event table (R504, R506): the job, the round named (0 for every round), the round followed, the phase value, and the time at which it is due. -/
structure Armed where
  job : Nat
  named : Nat
  follows : Option Nat
  value : Nat
  due : Option Nat
  deriving DecidableEq, Repr

/-- A fault that a unit has seen, with its time (R580, R588): the block, the unit and the kind. -/
structure UnitFault where
  block : Nat
  unit : Nat
  kind : Nat
  time : Nat
  deriving DecidableEq, Repr

/-- Why the module holds itself in cold reset (R617, R646, R651). -/
inductive Hold where
  | pin | test | thermal | thermalLatched | overvoltage
  deriving DecidableEq, Repr

/-- An SPDM secured session (R558, R559). -/
structure Session where
  id : Nat
  secret : Bytes
  done : Bool
  updates : Nat
  deriving DecidableEq, Repr

/-- The SPDM responder (R558): how far a connection has come, its transcript, the sessions, the newest last, the IDE keys by stream, and the KEY_EXCHANGE requests that wait for the entropy unit (R554). -/
structure Spdm where
  versionDone : Bool
  capsDone : Bool
  algsDone : Bool
  transcript : Bytes
  sessions : List Session
  ideKeys : List (Nat × Bytes)
  waiting : List Bytes
  deriving DecidableEq, Repr

/-- The responder before any request. -/
def Spdm.start : Spdm := ⟨false, false, false, [], [], [], []⟩

/-- A request that waits on a wire of the entropy unit (R551): the wire, the number of 64-byte outputs and the order of arrival. -/
structure WireReq where
  wire : Nat
  count : Nat
  deriving DecidableEq, Repr

/-- What the module sends or drives outside, newest first in `State.out`. -/
inductive Output where
  /-- A JLP chunk or ACK on a queue pair (R69, R73). -/
  | chunk (qpn : Nat) (data : Bytes)
  /-- A completion written to a ring's entry (R427). -/
  | completion (func index : Nat) (data : Bytes)
  /-- An MSI-X vector raised (R446). -/
  | vector (func n : Nat)
  /-- Bytes written to a host buffer (R196, R304, R608). -/
  | hostWrite (addr : Nat) (data : Bytes)
  /-- A register read's value (R14). -/
  | readValue (func off value : Nat)
  /-- A responder's answer on a queue pair (R467 to R473); none for an acknowledgement. -/
  | rdma (qpn psn : Nat) (nak : Option Nak) (data : Bytes)
  /-- A requester's packet on a queue pair (R476). -/
  | request (qpn psn : Nat) (data : Bytes)
  /-- A requester completion (R479). -/
  | workDone (qpn status : Nat)
  /-- A bank's answer to its issuer; none for poison (R155, R187). -/
  | bank (value : Option Bytes)
  /-- An SPDM response (R558). -/
  | spdm (data : Bytes)
  /-- A CXL.mem read's data, and whether it carries poison (R406). -/
  | hdm (data : Bytes) (poison : Bool)
  /-- Bits that the entropy unit delivered on a wire; none for ENTROPY_FAILED (R548, R551). -/
  | wire (n : Nat) (data : Option Bytes)
  /-- A Delay_Req (R495). -/
  | delayReq (port : Nat)
  /-- The level of FAULT# (R645). -/
  | faultPin (low : Bool)
  /-- A laser of a field port turned on or off (R649). -/
  | laser (port : Nat) (on : Bool)
  /-- The bits that a scan shifts out at TDO, the first first (R652). -/
  | tdo (bits : List Bool)
  /-- What boundary scan drives under a TAP instruction: the P legs of the CXL_TX lanes, none while they are not driven, the N legs in complement; and whether SMB_CLK, SMB_DAT, SMB_ALERT# and FAULT# are driven low. BYPASS ends it (R651, R654, R655). -/
  | scanPins (code : Nat) (tx : Option (BitVec 16)) (low : List Bool)
  deriving DecidableEq, Repr

/-- The machine. -/
structure State where
  /-- The commands that wait, first in, first out. -/
  pending : List Instr
  /-- The register file by field; an unlisted field holds its reset value. -/
  regs : List (RKey × Nat)
  /-- Module time in TAI nanoseconds (R494), and the nanoseconds that have passed in all, which no reset returns to 0: the spans of R588, R595 and R617 are taken on it. -/
  now : Nat
  clock : Nat
  /-- The offset still to be slewed out (R499), and the ticks since the last corrected nanosecond. -/
  slew : Int
  slewTicks : Nat
  /-- Offsets within ±100 ns in a row (R496). -/
  goodOffsets : Nat
  /-- The times of the last accepted Sync and of the chosen grandmaster's last Announce. -/
  lastSync : Nat
  lastAnnounce : Nat
  /-- The chosen grandmaster's port and dataset; the start and first estimate of a holdover (R497); the last accepted 1PPS edge (R498). -/
  best : Option (Nat × Announce)
  holdStart : Nat
  holdErr : Nat
  lastPps : Option Nat
  /-- The Vat by module address, the poisoned lines, and the HDM window by address. -/
  mem : List Host.Cell
  poison : List Nat
  hdm : List Host.Cell
  jobs : Vector Job 16
  /-- The Roster by module-wide entry, the cached and the dirty entries. -/
  roster : NatMap Entry
  cached : List Nat
  dirty : List Nat
  txns : NatMap Txn
  nextTxn : Nat
  /-- Outstanding chunks and chunks seen in the round by front-end (R92, R93), and the chunks that wait for an engine that accepts no new work: their queue pair, stamp and bytes (R149, R353). -/
  feOut : NatMap Nat
  feSeen : NatMap Nat
  waitingChunks : List (Qpn × Nat × Bytes)
  rings : Vector Ring2 17
  /-- The event logs: 0 to 15 the jobs', 16 the module's; words still to be read and a pending LOST mark (R447). -/
  logs : Vector (List Nat) 17
  logLost : List Nat
  channels : Vector Channel 64
  /-- The SESSION counter of Hail, and the open session by function (R445). -/
  hailCount : Nat
  hailSession : NatMap Nat
  hailDue : List Nat
  qps : NatMap Qp
  openWrites : List OpenWrite
  /-- Revocations by job and region with their start; a lowering of rights is marked (R483, R485). -/
  revoking : List (Nat × Nat × Nat × Bool)
  missQueue : List Nat
  /-- The queue pairs whose context is on the die, the least recently used first (R462). -/
  qpUse : List Nat
  contexts : NatMap Ctx
  waiting : List Waiting
  /-- The loadable recipe slots' words (R356). -/
  store : NatMap (List Word)
  arrays : Vector ArrayRec 8
  groups : List Group
  opCount : Nat
  /-- Key memories of Culture and Toll by handle (R384). -/
  handles : NatMap Bytes
  /-- The handles that Rind's operations hold locked, and the operations that wait for one, in order of arrival (R327). -/
  locks : List Lock
  lockWait : List LockWait
  /-- The armed entries of the event table, and the PHASE and WAKE entries that a forward step has passed over (R504, R507). -/
  armed : NatMap Armed
  passed : List Nat
  /-- The faults that units have seen (R588). -/
  unitFaults : List UnitFault
  /-- Fenced banks and the backing areas in use (R157); the lines that the patrol scrubber has read in its pass, and the earliest time on `clock` at which the next pass begins (R156). -/
  remap : List (Nat × Nat)
  scrubRead : List Nat
  scrubNext : Nat
  /-- The policy variance, as numerator and denominator, of whose samples the noise FIFO is full; none where it is not full (R278). -/
  noiseFifo : Option (Nat × Nat)
  /-- Known-answer tests that run. -/
  katRuns : List KatEngine
  /-- The entropy unit: the requests that wait for READY and those whose output is staged, in order of arrival (R546, R551); the bytes in the software port's buffer (R553); the time of the next reseed and the requests since the last (R546); and the latches enabled since the latest entry into STARTUP (R549). -/
  wireWait : List WireReq
  staged : List WireReq
  swBytes : Nat
  reseedAt : Nat
  genCount : Nat
  latches : Nat
  /-- Key material of the slots and their tags (R535). -/
  keyMat : NatMap Bytes
  keyTag : NatMap Bytes
  /-- The identity that the ROM derived: the alias key, DevID's point, ALIAS_ENDORSE and the Key Store's tag key (R529, R530). -/
  aliasPriv : Nat
  devidPub : Bytes
  endorse : Bytes
  tagKey : Bytes
  fwVersion : Nat
  /-- The fused SVN's thermometer and the firmware flash (R531, R532). -/
  fuseSvn : Nat
  flash : Vector Bytes 2
  spdm : Spdm
  tspLocked : List Nat
  ideOn : Bool
  /-- The input, the holds on cold reset and the thermal trips' times (R615, R617). -/
  inputOn : Bool
  holds : List Hold
  trips : List Nat
  lastBoot : Option Boot
  outageFrom : Option Nat
  /-- Domains that change their state, with the state entered and the time it ends (R620). -/
  domMoves : NatMap (Nat × Nat)
  /-- The enabled ports that are down, with the time since when (R588); the rate in percent to which the throttle holds a cluster, and the ports with a hot optical engine (R616); and the times of the next throttle step, DVFS tick and credit recomputation. -/
  portDown : NatMap Nat
  throttleCap : NatMap Nat
  hotPorts : List Nat
  throttleAt : Nat
  dvfsAt : Nat
  creditAt : Nat
  /-- The TAP (R650 to R652), and the cells of the boundary-scan register as the last update left them, cell 0 the lowest bit (R654). -/
  trst : Bool
  testMode : Bool
  cells : BitVec 63
  /-- The time on `clock` of the latest reset that reached the sensors' peaks, and of each sensor's last read since (PWR_TEMP.PEAK, R14, R636). -/
  peakBase : Nat
  peakRead : NatMap Nat
  /-- PMU: cycles not yet whole by cluster, the last value of each counter's event, the countdown, the LFSR and the tagged instructions (R598 to R608). -/
  pmuPart : NatMap Nat
  pmuLast : NatMap Nat
  countdown : Nat
  lfsr : BitVec 16
  tags : List Tag
  tagNo : Nat
  sampleLost : Bool
  /-- The model's own: the counter of free values and draws (assumption 4), and what the module has sent, newest first. -/
  fresh : Nat
  out : List Output
  deriving DecidableEq, Repr

/-- The machine right after reset: every register at its reset value, time 0, no memory written, the input off. -/
def State.reset : State where
  pending := []
  regs := []
  now := 0
  clock := 0
  slew := 0
  slewTicks := 0
  goodOffsets := 0
  lastSync := 0
  lastAnnounce := 0
  best := none
  holdStart := 0
  holdErr := 0
  lastPps := none
  mem := []
  poison := []
  hdm := []
  jobs := Vector.replicate 16 .absent
  roster := []
  cached := []
  dirty := []
  txns := []
  nextTxn := 0
  feOut := []
  feSeen := []
  waitingChunks := []
  rings := Vector.replicate 17 .empty
  logs := Vector.replicate 17 []
  logLost := []
  channels := Vector.replicate 64 .empty
  hailCount := 1
  hailSession := []
  hailDue := []
  qps := []
  openWrites := []
  revoking := []
  missQueue := []
  qpUse := []
  contexts := []
  waiting := []
  store := []
  arrays := Vector.replicate 8 .idle
  groups := []
  opCount := 0
  handles := []
  locks := []
  lockWait := []
  armed := []
  passed := []
  unitFaults := []
  remap := []
  scrubRead := []
  scrubNext := 0
  noiseFifo := none
  katRuns := []
  wireWait := []
  staged := []
  swBytes := 0
  reseedAt := 0
  genCount := 0
  latches := 255
  keyMat := []
  keyTag := []
  aliasPriv := 0
  devidPub := []
  endorse := []
  tagKey := []
  fwVersion := 0
  fuseSvn := 0
  flash := #v[Config.flash 0, Config.flash 1]
  spdm := .start
  tspLocked := []
  ideOn := false
  inputOn := false
  holds := []
  trips := []
  lastBoot := none
  outageFrom := none
  domMoves := []
  portDown := []
  throttleCap := []
  hotPorts := []
  throttleAt := 0
  dvfsAt := 0
  creditAt := 0
  trst := false
  testMode := false
  cells := 0
  peakBase := 0
  peakRead := []
  pmuPart := []
  pmuLast := []
  countdown := 0
  lfsr := 0
  tags := []
  tagNo := 0
  sampleLost := false
  fresh := 0
  out := []

end Sys2Proof.Machine
end

