-- ==== Sys2Proof/Machine/Ops.lean ====
section
/-! DEFINITION. The named operations over the register file, the Vat and HBM, jobs, rounds and cohorts, event logs, completion rings, outputs and random draws, that every meaning is built from. -/

namespace Sys2Proof.Machine

/-- What a command answers. -/
abbrev Res := Host.Outcome State Fault Refusal

/-- A number for a condition: a register bit. -/
def flag (b : Bool) : Nat := if b then 1 else 0

/-- A sum that stops at the largest value of `w` bits. -/
def satAdd (w a b : Nat) : Nat := min (a + b) (2 ^ w - 1)

/-- Field `f`, copy (a, b). -/
def fget (s : State) (f : Fld) (a b : Nat) : Nat := readD f.reset s.regs (f.key a b)

/-- Field `f`, copy (a, b), set to a value that is cut to the field's width; a reset value is not listed. -/
def fset (s : State) (f : Fld) (a b v : Nat) : State :=
  { s with regs := putD RKey.ord f.reset s.regs (f.key a b) (v % 2 ^ f.width) }

/-- A field of a register that has one copy. -/
def get1 (s : State) (f : Fld) : Nat := fget s f 0 0

/-- Whether a one-bit field of a register with one copy is 1. -/
def on (s : State) (f : Fld) : Bool := get1 s f == 1

/-- A field of a register that has one copy set. -/
def set1 (s : State) (f : Fld) (v : Nat) : State := fset s f 0 0 v

/-- An event bit set (R15). -/
def ev (s : State) (f : Fld) : State := set1 s f 1

/-- A counting field increased, modulo its width. -/
def count (s : State) (f : Fld) (a b n : Nat) : State := fset s f a b (fget s f a b + n)

/-- A counting field increased, saturating. -/
def countSat (s : State) (f : Fld) (a b n : Nat) : State := fset s f a b (satAdd f.width (fget s f a b) n)

/-- The fields of one register group set from a byte string (R661). -/
def setGroup (s : State) (f : Fld) (a : Nat) (bs : Bytes) : Nat → State
  | 0 => s
  | n + 1 => fset (setGroup s f a bs n) f a n (group64 bs n)

/-- Every field whose key passes a test returned to its reset value. -/
def resetRegs (s : State) (p : RKey → Bool) : State := { s with regs := keepKeys (fun k => !p k) s.regs }

/-- An output sent. -/
def emit (s : State) (o : Output) : State := { s with out := o :: s.out }

/-- An MSI-X vector raised (R446). -/
def raise (s : State) (f n : Nat) : State := emit s (.vector f n)

/-- The bytes of the HDM window (R405). -/
def hdmBytes (s : State) : Nat := get1 s HIF_HDM_CTRL.WINDOW_GIB * 2 ^ 30

/-- Whether an address range touches the HDM window; a window of no bytes is touched by none. -/
def inHdm (s : State) (a n : Nat) : Bool := get1 s HIF_HDM_CTRL.WINDOW_GIB != 0 && decide (Config.hdmBase < a + n) && decide (a < Config.hdmBase + hdmBytes s)

/-- The next random draw, and the machine after it (R551). -/
def draw (s : State) : BitVec 512 × State := (Config.draw s.fresh, { s with fresh := s.fresh + 1 })

/-- The next `n` draws taken. -/
def takeDraws (s : State) (n : Nat) : State := { s with fresh := s.fresh + n }

/-- A 256-bit key drawn. -/
def drawKey (s : State) : Key256 × State := ((draw s).1.setWidth 256, (draw s).2)

/-- A P-384 scalar drawn uniformly from [1, n − 1] (R108). -/
def drawScalar (s : State) : Nat × State := ((draw s).1.toNat % (p384N - 1) + 1, (draw s).2)

/-- A value that the spec leaves open (assumption 5). -/
def freeValue (s : State) : Word × State := (Config.free s.fresh, { s with fresh := s.fresh + 1 })

/-! Jobs, rounds and cohorts. -/

/-- Job `j`. -/
def State.job (s : State) (j : JobId) : Job := s.jobs[j]

/-- Job `j` changed. -/
def State.modJob (s : State) (j : JobId) (g : Job → Job) : State := { s with jobs := s.jobs.set j (g (s.job j)) }

/-- The round of a number among the job's rounds in flight or planned. -/
def Job.round? (J : Job) (r : Nat) : Option Round := J.rounds.find? (fun x => x.number == r)

/-- The round of a number of job `j`. -/
def State.round? (s : State) (j : JobId) (r : Nat) : Option Round := (s.job j).round? r

/-- A round changed. -/
def State.modRound (s : State) (j : JobId) (r : Nat) (g : Round → Round) : State :=
  s.modJob j (fun J => { J with rounds := J.rounds.map (fun x => if x.number == r then g x else x) })

/-- The cohort of a number. -/
def Round.cohort (x : Round) (c : Nat) : Cohort := readD Cohort.empty x.cohorts c

/-- A cohort changed. -/
def Round.modCohort (x : Round) (c : Nat) (g : Cohort → Cohort) : Round :=
  { x with cohorts := putN x.cohorts c (g (x.cohort c)) }

/-- A cohort of a job's round changed. -/
def State.modCohort (s : State) (j : JobId) (r c : Nat) (g : Cohort → Cohort) : State :=
  s.modRound j r (fun x => x.modCohort c g)

/-- A cohort of a job's round. -/
def State.cohort (s : State) (j : JobId) (r c : Nat) : Cohort := ((s.round? j r).map (·.cohort c)).getD .empty

/-- Whether a job exists and is not being aborted. -/
def State.alive (s : State) (j : JobId) : Bool := (s.job j).present && (s.job j).aborting.isNone

/-- Whether a job is confidential. -/
def State.conf (s : State) (j : JobId) : Bool := (s.job j).present && (s.job j).confidential

/-- The number of a phase in the order of the table (R37). -/
def Phase.code : Phase → Nat
  | .planned => 0
  | .offer => 1
  | .join => 2
  | .neighbours => 3
  | .shares => 4
  | .upload => 5
  | .close => 6
  | .unmask => 7
  | .settle => 8
  | .finish => 10
  | .gate => 11
  | .release => 12

/-! The Vat and HBM. -/

/-- A byte of a cell list; an unlisted byte reads 0 (assumption 2). -/
def memByte (m : List Host.Cell) (a : Nat) : Byte := readD 0 m a

/-- A byte of a cell list written. -/
def memPut (m : List Host.Cell) (a : Nat) (v : Byte) : List Host.Cell := putD id 0 m a v

/-- Bytes of a cell list. -/
def memRead (m : List Host.Cell) (a n : Nat) : Bytes := (List.range n).map (fun i => memByte m (a + i))

/-- Bytes of a cell list written. -/
def memWrite (m : List Host.Cell) (a : Nat) : Bytes → List Host.Cell
  | [] => m
  | b :: bs => memWrite (memPut m a b) (a + 1) bs

/-- The canonical form of a cell list: addresses rise strictly and no cell holds what an unlisted byte reads as. -/
abbrev Memory.wf (m : List Host.Cell) : Bool := rising id m && m.all (fun c => c.2 != 0)

/-- Bytes written to a host buffer: one in the HDM window lies in the module's HBM (R405, R407). -/
def hostPut (s : State) (a : Nat) (d : Bytes) : State :=
  if inHdm s a d.length then { s with hdm := memWrite s.hdm (a - Config.hdmBase) d } else emit s (.hostWrite a d)

/-- The bytes of the usable Vat (R151). -/
def vatBytes : Nat := 6 * 2 ^ 30

/-- The job-relative address from which a job's HBM is reached (assumption 6). -/
def hbmBase : Nat := 2 ^ 33

/-- The berths of a job, ascending (R160). -/
def berthsOf (s : State) (j : Nat) : List Nat :=
  (List.range 384).filter (fun n => bit (fget s VAT_JOB_BERTHS.BERTH j (n / 64)) (n % 64))

/-- The job that holds a berth. -/
def berthOwner (s : State) (n : Nat) : Option JobId :=
  (List.finRange 16).find? (fun j => bit (fget s VAT_JOB_BERTHS.BERTH j (n / 64)) (n % 64))

/-- The bytes of a job's partition (R159). -/
def partBytes (s : State) (j : Nat) : Nat := (berthsOf s j).length * 2 ^ 24

/-- The bytes of HBM that a job may use (PLT_JOB_HBM.QUOTA_GIB). -/
def quotaBytes (s : State) (j : Nat) : Nat := fget s PLT_JOB_HBM.QUOTA_GIB j 0 * 2 ^ 30

/-- The module Vat address of a job-relative one; none beyond the partition (R160, R162). -/
def vatOf (s : State) (j a : Nat) : Option Nat := ((berthsOf s j)[a / 2 ^ 24]?).map (fun b => b * 2 ^ 24 + a % 2 ^ 24)

/-- Whether a job-relative range lies in the job's partition or in its HBM (R162, R391). -/
def inReach (s : State) (j : JobId) (a n : Nat) : Bool :=
  decide (a + n ≤ partBytes s j) || (decide (hbmBase ≤ a) && decide (a + n ≤ hbmBase + quotaBytes s j))

/-- The number under which a line's poison is kept: a Vat line by its number, a line of a job's HBM beyond them all. -/
def poisonKey (s : State) (j : JobId) (a : Nat) : Nat :=
  if hbmBase ≤ a then 2 ^ 64 * (j.val + 1) + a / 64 else ((vatOf s j a).map (· / 64)).getD (2 ^ 63)

/-- The lines that a range touches. -/
def linesOf (a n : Nat) : List Nat := if n = 0 then [] else (List.range ((a + n - 1) / 64 - a / 64 + 1)).map (fun i => (a / 64 + i) * 64)

/-- Whether a job-relative range holds a poisoned line. -/
def poisoned (s : State) (j : JobId) (a n : Nat) : Bool := (linesOf a n).any (fun l => s.poison.contains (poisonKey s j l))

/-- A line poisoned. -/
def setPoison (s : State) (k : Nat) : State := if s.poison.contains k then s else { s with poison := k :: s.poison }

/-- A line's poison cleared. -/
def clearPoison (s : State) (k : Nat) : State := { s with poison := s.poison.filter (· != k) }

/-- The record of a poisoned line (R154): VAT_POISON_LAST for a Vat line, TRI_ERR_LAST for a line in HBM. -/
def recordPoison (s : State) (j : JobId) (a : Nat) : State :=
  if hbmBase ≤ a then
    set1 (set1 (set1 (set1 (countSat s TRI_HBM_ECC.UNCORR 0 0 1) TRI_ERR_LAST.VALID 1) TRI_ERR_LAST.CAUSE 2) TRI_ERR_LAST.JOB j.val)
      TRI_ERR_LAST.WHERE (a / 64)
  else
    set1 (set1 (set1 (set1 (ev s VAT_EVENT.POISON_EV) VAT_POISON_LAST.VALID 1) VAT_POISON_LAST.FW 0) VAT_POISON_LAST.JOB j.val)
      VAT_POISON_LAST.ADDR (((vatOf s j a).getD 0) / 64 * 64)

/-- A line of a job poisoned; one in HBM leaves its record as it becomes poisoned (R154, R570). -/
def poisonLine (s : State) (j : JobId) (a : Nat) : State :=
  let t := setPoison s (poisonKey s j a)
  if hbmBase ≤ a ∧ ¬ s.poison.contains (poisonKey s j a) then recordPoison t j a else t

/-- Every line of a range of a job poisoned. -/
def poisonRange (s : State) (j : JobId) (a n : Nat) : State := (linesOf a n).foldl (fun t l => poisonLine t j l) s

/-- Every byte and poison mark of a berth cleared (R161). -/
def zeroBerth (s : State) (n : Nat) : State :=
  { s with mem := keepKeys (fun a => a / 2 ^ 24 != n) s.mem, poison := s.poison.filter (fun l => l / 2 ^ 18 != n) }

/-- Every berth of a job cleared (R161). -/
def zeroBerths (s : State) (j : JobId) : State := (berthsOf s j).foldl zeroBerth s

/-- The add window of a job in bytes: base and length (R190). -/
def window (s : State) (j : Nat) : Nat × Nat := (fget s VAT_JOB_G64.BASE_LINE j 0 * 64, fget s VAT_JOB_G64.LEN_LINES j 0 * 64)

/-! Event logs. -/

/-- The records that a log holds when it is full (R447). -/
def logCap (f : Func) : Nat := if f = pf0 then 2048 else 1024

/-- The event log of a function: the words not yet read. -/
def State.log (s : State) (f : Func) : List Nat := s.logs[f]

/-- A log's words set. -/
def State.setLog (s : State) (f : Func) (ws : List Nat) : State := { s with logs := s.logs.set f ws }

/-- The four words of a record (R447). -/
def recordWords (lost : Bool) (type round time a b : Nat) : List Nat :=
  [2 ^ 63 + flag lost * 2 ^ 62 + type % 2 ^ 16 * 2 ^ 32 + round % 2 ^ 32, time % 2 ^ 63, a % 2 ^ 63, b % 2 ^ 63]

/-- A record enqueued whole, or counted in LOST where the log is full (R447, R449). -/
def logRecord (s : State) (f : Func) (type round a b : Nat) : State :=
  if logCap f ≤ ((s.log f).length + 3) / 4 then
    let s := fset (countSat s HIF_VF_EVLOG_STAT.LOST f 0 1) HIF_VF_EVLOG_STAT.OVERRUN f 0 1
    raise { s with logLost := if s.logLost.contains f.val then s.logLost else f.val :: s.logLost } f 2
  else
    let t := s.setLog f (s.log f ++ recordWords (s.logLost.contains f.val) type round s.now a b)
    let t := { t with logLost := t.logLost.filter (· != f.val) }
    if (s.log f).isEmpty then raise t f 2 else t

/-- A record of a job's log. -/
def logJob (s : State) (j : JobId) (type round a b : Nat) : State := logRecord s (vfOf j) type round a b

/-- A record of the module log. -/
def logModule (s : State) (type a b : Nat) : State := logRecord s pf0 type 0 a b

/-- A log emptied with its LOST count, its flags and any pending LOST mark (R447, R632). -/
def emptyLog (s : State) (f : Func) : State :=
  let s := s.setLog f []
  let s := fset (fset (fset s HIF_VF_EVLOG_STAT.LOST f 0 0) HIF_VF_EVLOG_STAT.OVERRUN f 0 0) HIF_VF_EVLOG_STAT.UNDERRUN f 0 0
  { s with logLost := s.logLost.filter (· != f.val) }

/-! Completion rings. -/

/-- The rings of a function. -/
def State.ring (s : State) (f : Func) : Ring2 := s.rings[f]

/-- The rings of a function changed. -/
def State.modRing (s : State) (f : Func) (g : Ring2 → Ring2) : State := { s with rings := s.rings.set f (g (s.ring f)) }

/-- The ABI of a function's rings (R434). -/
def ringAbi (s : State) (f : Func) : Nat := if f = pf0 then 2 else fget s HIF_VF_SQ_CFG.ABI f 0

/-- The entries of a completion ring. -/
def cqSize (s : State) (f : Func) : Nat := 2 ^ fget s HIF_VF_CQ_CFG.LOG2_SIZE f 0

/-- The entries of a submission ring. -/
def sqSize (s : State) (f : Func) : Nat := 2 ^ fget s HIF_VF_SQ_CFG.LOG2_SIZE f 0

/-- The entries written and not freed (R429). -/
def cqUsed (s : State) (f : Func) : Nat :=
  (fget s HIF_VF_CQ_TAIL.TAIL f 0 + cqSize s f - fget s HIF_VF_CQ_HEAD.HEAD f 0) % cqSize s f

/-- The bytes of a completion (R424), or their ABI 1 cut (R435). -/
def completionBytes (abi cseq phase : Nat) (d : Due) : Bytes :=
  let whole := toLe 4 cseq ++ toLe 1 (phase + d.flags) ++ toLe 1 d.kind ++ toLe 2 d.status ++ toLe 8 d.tag ++ slice d.body 0 16
  if abi = 1 then slice whole 0 8 ++ slice whole 16 8 else whole

/-- A completion written to the ring's next entry (R427, R430). -/
def writeCompletion (s : State) (f : Func) (d : Due) : State :=
  let tail := fget s HIF_VF_CQ_TAIL.TAIL f 0
  let phase := fget s HIF_VF_CQ_TAIL.PHASE f 0
  let next := (tail + 1) % cqSize s f
  let s := emit s (.completion f tail (completionBytes (ringAbi s f) (s.ring f).cseq phase d))
  let s := fset s HIF_VF_CQ_TAIL.TAIL f 0 next
  let s := if next = 0 then fset s HIF_VF_CQ_TAIL.PHASE f 0 (1 - phase) else s
  let s := s.modRing f (fun r => { r with cseq := (r.cseq + 1) % 2 ^ 32, owed := r.owed - 1 })
  if d.irq then raise s f 0 else s

/-- A completion that falls due: written, or held while the ring is in CQ_ERR or disabled (R432, R433). -/
def post (s : State) (f : Func) (d : Due) : State :=
  if fget s HIF_VF_CQ_CFG.ENABLE f 0 = 1 ∧ fget s HIF_VF_STATUS.CQ_ERR f 0 = 0 then writeCompletion s f d
  else s.modRing f (fun r => { r with held := r.held ++ [d] })

/-- The body of a completion that is no INVOKE's (R424). -/
def body (space detail round value : Nat) : Bytes := toLe 1 space ++ [0] ++ toLe 2 detail ++ toLe 4 round ++ toLe 8 value

/-- The host statuses of R426. -/
inductive HStat where
  | ok | badDescriptor | notPermitted | jobState | jobRefused | roundConfig | hostAccess | cancelled | heldDigest | engine
  deriving DecidableEq, Repr

/-- A host status's value. -/
def HStat.code : HStat → Nat
  | .ok => 0
  | .badDescriptor => 1
  | .notPermitted => 2
  | .jobState => 3
  | .jobRefused => 4
  | .roundConfig => 5
  | .hostAccess => 6
  | .cancelled => 7
  | .heldDigest => 8
  | .engine => 9

/-- The TAG of a descriptor (R413). -/
def descTag (d : Bytes) : Nat := leAt d 8 8

/-- FLAGS.IRQ of a descriptor. -/
def descIrq (d : Bytes) : Bool := bit (leAt d 1 1) 1

/-- A descriptor's completion (R424). -/
def complete (s : State) (f : Func) (d : Bytes) (st : HStat) (bd : Bytes) : State :=
  post s f ⟨1, st.code, descTag d, bd, 0, descIrq d⟩

/-! Checking and counting. -/

/-- The fraction of 2^32 that a check fraction code stands for (R522): chunks and chains are covered below it. -/
def fracLimit : Nat → Nat
  | 0 => 0
  | 1 => 2 ^ 24
  | 2 => 2 ^ 26
  | 3 => 2 ^ 28
  | 4 => 2 ^ 30
  | _ => 2 ^ 32

/-- The next check sequence of a job assigned (R582). -/
def nextCheckSeq (s : State) (j : JobId) : Nat × State :=
  ((fget s TRI_JOB_CHECK.CHECK_SEQ j 0 + 1) % 2 ^ 32, count s TRI_JOB_CHECK.CHECK_SEQ j 0 1)

/-- The fraction that the TRIER loop wants (R581). -/
def wantedFrac (s : State) (j : JobId) : Nat :=
  let mn := fget s PLT_JOB_FRAC.FRAC_MIN j 0
  if mn = 6 then 6 else min 5 (mn + 2 * (s.job j).failTimes.length)

/-- An adaptive loop's mark and, on entry into the pinned state, its record (R518). -/
def pinLoop (s : State) (j : JobId) (loop bound : Nat) (out : Bool) : State :=
  let m := fget s PLT_JOB_PINNED.LOOPS j 0
  if out then
    if bit m (loop - 1) then s
    else ev (logJob (fset s PLT_JOB_PINNED.LOOPS j 0 (m + 2 ^ (loop - 1))) j 0x21 0 loop bound) PLT_EVENT.PINNED_EV
  else if bit m (loop - 1) then fset s PLT_JOB_PINNED.LOOPS j 0 (m - 2 ^ (loop - 1)) else s

/-- The TRIER loop applied: WANT, APPLIED and the pinned mark (R518, R523). -/
def trierLoop (s : State) (j : JobId) : State :=
  let w := wantedFrac s j
  let mx := fget s PLT_JOB_FRAC.FRAC_MAX j 0
  let s := fset (fset s PLT_JOB_FRAC.WANT j 0 w) PLT_JOB_FRAC.APPLIED j 0 (min w mx)
  pinLoop s j 2 mx (decide (mx < w))

/-- A check failure of a job counted for 24 hours (R581). -/
def countFailure (s : State) (j : JobId) : State :=
  let s := s.modJob j (fun J => { J with failTimes := J.failTimes ++ [s.now] })
  trierLoop (countSat s TRI_JOB_CHECK.FAILS_24H j 0 1) j

/-- The cluster of an event of the catalogue (R599). -/
def eventCluster (code : Nat) : Nat := code / 16

/-- The events that are not attributable to a job (R602). -/
def unattributable (code : Nat) : Bool := [0x04, 0x07, 0x12, 0x13, 0x21, 0x23, 0x31, 0x42].contains code

/-- What a counter adds for an event's value, by its MODE (R600). -/
def pmuAmount (mode thresh last v : Nat) : Nat :=
  match mode with
  | 0 => v
  | 1 => flag (decide (thresh < v))
  | _ => flag (decide (thresh < v ∧ last ≤ thresh))

/-- A counter increased: it wraps at 2^48 and sets OVF (R601). -/
def pmuAdd (s : State) (i n : Nat) : State :=
  let v := fget s PMU_CNT_VALUE.VALUE i 0 + n
  let s := fset s PMU_CNT_VALUE.VALUE i 0 v
  if 2 ^ 48 ≤ v then ev (fset s PMU_CNT_VALUE.OVF i 0 1) PMU_EVENT.OVF_EV else s

/-- Whether counter `i` counts an occurrence that the work of `j` caused (R602, R611). -/
def pmuCounts (s : State) (i code : Nat) (j : Option JobId) : Bool :=
  fget s PMU_CNT_CFG.EN i 0 == 1 && fget s PMU_CNT_CFG.EVENT i 0 == code &&
    (unattributable code && fget s PMU_CNT_CFG.JOB_ALL i 0 == 1 ||
      !unattributable code && !(j.map s.conf).getD false &&
        (fget s PMU_CNT_CFG.JOB_ALL i 0 == 1 || j.map (·.val) == some (fget s PMU_CNT_CFG.JOB i 0)))

/-- The cluster of a power domain: 6 for a field port, 7 for a control domain (R618). -/
def domCluster (d : Nat) : Nat :=
  if d ≤ 2 ∨ 92 ≤ d then 7 else if d ≤ 18 then 6 else if d ≤ 27 then 0 else if d ≤ 35 then 1 else if d ≤ 71 then 2
  else if d ≤ 81 then 3 else if d ≤ 89 then 4 else 2

/-- The domains of a cluster. -/
def domainsOf (c : Nat) : List Nat := (List.range 96).filter (fun d => domCluster d == c)

/-- Whether a cluster's counters count: some domain of it is in P0 (R598, assumption 13). -/
def clusterUp (s : State) (c : Nat) : Bool := (domainsOf c).any (fun d => fget s PWR_DOM_STATE.STATE d 0 == 0)

/-- An event's value in one cycle of its cluster, seen by the cluster's eight counters (R598, R600, R603). -/
def pmu (s : State) (code : Nat) (j : Option JobId) (v : Nat) : State :=
  if on s PMU_CTRL.FREEZE ∨ ¬ clusterUp s (eventCluster code) then s
  else (List.range 8).foldl (fun t n =>
    let i := 8 * eventCluster code + n
    if pmuCounts t i code j then
      let t := pmuAdd t i (pmuAmount (fget t PMU_CNT_CFG.MODE i 0) (fget t PMU_CNT_CFG.THRESH i 0) (readD 0 t.pmuLast i) v)
      { t with pmuLast := putN t.pmuLast i v }
    else t) s

/-- Scalar multiplications and HKDF derivations of Toll counted, for a job's work or the module's own (R149, R600, assumption 80). -/
def tollDone (s : State) (j : Option JobId) (muls derivations : Nat) : State :=
  pmu (count (count s TOL_SMUL_CNT.COUNT 0 0 muls) TOL_HKDF_CNT.COUNT 0 0 derivations) 0x10 j muls

/-! Queue pairs. -/

/-- A queue pair. -/
def State.qp (s : State) (q : Nat) : Qp := readD .empty s.qps q

/-- A queue pair changed. -/
def State.modQp (s : State) (q : Nat) (g : Qp → Qp) : State := { s with qps := putN s.qps q (g (s.qp q)) }

/-- The STATE of a queue pair (R460): 0 RESET, 1 INIT, 2 RTR, 3 RTS, 4 ERROR. -/
def qpState (s : State) (q : Nat) : Nat := fget s RDMA_QP_CFG.STATE q 0

/-- A requester work request that completes (R477, R479). -/
def workDone (s : State) (q status : Nat) : State :=
  emit (if status = 0 then count s RDMA_QP_STAT.SCC q 0 1 else s) (.workDone q status)

/-- The outstanding requests of a queue pair end in posting order: the first that is not sent with WAIT_BROKEN where that is the cause, the others with FLUSHED (R477, R480). -/
def flushWork (q : Nat) : List (Nat × WorkReq × Nat) → Bool → State → State
  | [], _, s => s
  | w :: ws, broken, s => if broken && w.2.2 == 0 then flushWork q ws false (workDone s q 6) else flushWork q ws broken (workDone s q 5)

/-- A queue pair's own entry into ERROR with a status of the table *RDMA statuses* (R479, R480). -/
def qpFail (s : State) (q status : Nat) : State :=
  let s := flushWork q (s.qp q).sent (status == 6) s
  let s := s.modQp q (fun x => { x with sent := [], inMsg := none, stream := none })
  let s := { s with openWrites := s.openWrites.filter (fun w => w.qpn != q) }
  let s := fset (fset (fset s RDMA_QP_CFG.STATE q 0 4) RDMA_QP_STAT.LAST_ERR q 0 status) RDMA_QP_STAT.IN_MSG q 0 0
  let s := if fget s RDMA_QP_CFG.SEALED q 0 = 1 then ev s RDMA_EVENT.SEAL_EV else s
  ev s RDMA_EVENT.QP_ERR_EV

/-- The request that holds a queue pair's send queue: the first that is not sent. -/
def Qp.next (x : Qp) : Option WorkReq := (x.sent.find? (fun w => w.2.2 == 0)).map (·.2.1)

/-- Whether a queue pair holds its send queue for one that is in ERROR or RESET (R477). -/
def waitBroken (s : State) (x : Qp) : Bool :=
  match x.next.bind (·.waitOn) with
  | none => false
  | some (q, _) => qpState s q.val == 0 || qpState s q.val == 4

/-- The queue pairs whose wait is broken enter ERROR, and those that waited for them in turn (R477). -/
def breakWaits : Nat → State → State
  | 0, s => s
  | n + 1, s =>
    match s.qps.filter (fun e => waitBroken s e.2) with
    | [] => s
    | bs => breakWaits n (bs.foldl (fun t e => qpFail t e.1 6) s)

/-- A queue pair enters ERROR (R477, R479, R480). -/
def qpError (s : State) (q status : Nat) : State := breakWaits s.qps.length (qpFail s q status)

/-- The queue pairs that hold a listed STATE and pass a test. -/
def qpsWhere (s : State) (p : Nat → Bool) : List Nat :=
  (s.regs.filterMap (fun e => if e.1.reg == .RDMA_QP_CFG && e.1.lo == 61 && p e.1.major then some e.1.major else none))

/-- Whether Toll takes operations: enabled, with a live core (R137, R516). -/
def tollOn (s : State) : Bool := on s TOL_CTRL.ENABLE && decide (0 < get1 s TOL_STATUS.CORES_LIVE)

/-- Whether Culture takes streams: enabled, with a live lane (R150, R516). -/
def cultureOn (s : State) : Bool := on s CUL_CTRL.ENABLE && decide (0 < get1 s CUL_STATUS.LANES_LIVE)

/-- Whether Rind starts operations: enabled, with a live lane and a live pipeline (R353, R516). -/
def rindOn (s : State) : Bool := on s RIND_CTRL.ENABLE && decide (0 < get1 s RIND_STATUS.LANES_LIVE ∧ 0 < get1 s RIND_STATUS.PIPES_LIVE)

/-- Several queue pairs into ERROR. -/
def qpErrors (s : State) (qs : List Nat) (status : Nat) : State :=
  qs.foldl (fun t q => if qpState t q = 4 then t else qpError t q status) s

/-- The queue pairs of a job that are not in RESET. -/
def jobQps (s : State) (j : JobId) : List Nat := qpsWhere s (fun q => fget s RDMA_QP_CFG.JOB q 0 == j.val)

/-- The path MTU of a queue pair in bytes. -/
def qpMtu (s : State) (q : Nat) : Nat := 1024 * 2 ^ fget s RDMA_QP_CFG.MTU q 0

/-- Whether a queue pair is sealed (R487). -/
def qpSealed (s : State) (q : Nat) : Bool := fget s RDMA_QP_CFG.SEALED q 0 == 1

/-- The largest payload of a packet of a queue pair (R489). -/
def qpPayload (s : State) (q : Nat) : Nat := if qpSealed s q then qpMtu s q - 24 else qpMtu s q

/-- The PSNs that a message of `n` bytes takes. -/
def psnCount (s : State) (q n : Nat) : Nat := max 1 ((n + qpPayload s q - 1) / qpPayload s q)

/-- One packet of a sealed queue pair: its extension headers, the counter, the ciphertext and the tag (R489, R490). -/
def sealPacket (s : State) (q psn : Nat) (ext payload : Bytes) : Bytes × State :=
  match (s.qp q).keys with
  | none => ([], s)
  | some k =>
    let c := (s.qp q).txCount + 1
    let sealing := gcmSeal k.1 (k.2.2.1 ++ toBe 8 c) (Config.packetHead q psn ++ ext ++ toBe 8 c) payload
    let s := s.modQp q (fun x => { x with txCount := c })
    (ext ++ toBe 8 c ++ sealing.1 ++ sealing.2, if c = 2 ^ 48 then qpError s q 7 else s)

/-- The packets of a sealed message, one after another; the extension headers stand in the first. -/
def sealPackets (q : Nat) : Nat → Bytes → List Bytes → State → Bytes × State
  | _, _, [], s => ([], s)
  | psn, ext, d :: ds, s =>
    let one := sealPacket s q psn ext d
    let rest := sealPackets q (psn + 1) [] ds one.2
    (one.1 ++ rest.1, rest.2)

/-- What a queue pair puts on the wire for a message's extension headers and payload (R489, R490). -/
def wireOf (s : State) (q psn : Nat) (ext payload : Bytes) : Bytes × State :=
  if qpSealed s q then
    sealPackets q psn ext (if payload.isEmpty then [[]] else chunksOf (qpPayload s q) payload.length payload) s
  else (ext ++ payload, s)

/-- Whether a queue pair can send: a sealed one only once it has its keys (R487). -/
def canSend (s : State) (q : Nat) : Bool := !qpSealed s q || (s.qp q).keys.isSome

/-- A queue pair's context used, where it is on the die: the most recent in the order of use (R462, assumption 58). -/
def touchQp (s : State) (q : Nat) : State :=
  if fget s RDMA_QP_STAT.RESIDENT q 0 = 1 then { s with qpUse := s.qpUse.filter (· != q) ++ [q] } else s

/-- A message of Landing or of a round core sent on a queue pair as requester work (R69, R73, R476, R477). -/
def sendChunk (s : State) (q : Nat) (d : Bytes) : State :=
  if fget s RDMA_QP_CFG.TYPE q 0 = 1 then workDone (emit s (.chunk q d)) q 0
  else if ¬ canSend s q then s.modQp q (fun x => { x with sent := x.sent ++ [(0, ⟨.send, d, 0, 0, 0, none⟩, 0)] })
  else
    let psn := fget s RDMA_QP_PSN.SQ_PSN q 0
    let s := count s RDMA_QP_PSN.SQ_PSN q 0 (psnCount s q d.length)
    let s := s.modQp q (fun x => { x with
      sent := x.sent ++ [(psn, ⟨.send, d, 0, 0, 0, none⟩, 1)]
      lastSend := if x.sent = [] then s.now else x.lastSend })
    let out := wireOf (touchQp s q) q psn [] d
    emit out.2 (.chunk q out.1)

/-! Time. -/

/-- Whether time counts as doubtful: FREERUN or DOUBTFUL (R496). -/
def doubtful (s : State) : Bool := get1 s TIDE_STATUS.STATE == 0 || get1 s TIDE_STATUS.STATE == 4

/-- Whether the entropy unit is READY (R547). -/
def entropyReady (s : State) : Bool := get1 s ENT_STATUS.STATE == 1

/-- A served request counted in ENT_DRBG.REQUESTS (R567). -/
def served (s : State) (n : Nat) : State := { count s ENT_DRBG.REQUESTS 0 0 n with genCount := s.genCount + n }

/-- The work of a completion counter: one more (R372, R373). -/
def bump (s : State) (j : JobId) (c n : Nat) : State :=
  s.modJob j (fun J => { J with counters := putD id 0 J.counters c ((readD 0 J.counters c + n) % 2 ^ 32) })

end Sys2Proof.Machine
end

