-- ==== Sys2Proof/Machine/Operands.lean ====
section
/-! DEFINITION. The fields of what arrives from outside: chunk headers (R54), round plans (R61, R419), sealed parameters (R312), the parameter catalogue (R314), policy records (R294), descriptors (R413), instruction words (R366), Wrap records (R264) and tensor headers (R223). -/

namespace Sys2Proof.Machine

/-! The JLP header, big-endian. -/

def hVersion (c : Bytes) : Nat := beAt c 0 1
def hType (c : Bytes) : Nat := beAt c 1 1
def hFlags (c : Bytes) : Nat := beAt c 2 2
def hJobTag (c : Bytes) : Nat := beAt c 4 4
def hRound (c : Bytes) : Nat := beAt c 8 4
def hSlot (c : Bytes) : Nat := beAt c 12 4
def hIndex (c : Bytes) : Nat := beAt c 16 4
def hLen (c : Bytes) : Nat := beAt c 20 4
def hSeq (c : Bytes) : Nat := beAt c 24 4
/-- The payload of a chunk. -/
def hPayload (c : Bytes) : Bytes := slice c 32 (hLen c)
/-- The tag of a chunk. -/
def hTag (c : Bytes) : Bytes := slice c (32 + hLen c) 16

/-- ENC and TAGGED of each client-sent type (R55); none for a type that a client may not send. -/
def typeFlags : Nat → Option Nat
  | 0x01 => some 2
  | 0x02 => some 3
  | 0x03 => some 3
  | 0x04 => some 3
  | 0x05 => some 3
  | _ => none

/-- Step 1 of the order of checks: lengths, flags and fixed header values (R52 to R55). -/
def headerOk (ud : Bool) (c : Bytes) : Bool :=
  typeFlags (hType c) == some (hFlags c) && decide (c.length = 32 + hLen c + 16) && (if ud then decide (c.length ≤ 4096) else decide (hLen c ≤ 262144)) &&
    zeroAt c 28 4 && hSeq c == 0 && (hType c == 3 || hIndex c == 0)

/-- The nonce of a tagged chunk (R57). -/
def chunkNonce (dir type index seq : Nat) : Bytes := toLe 1 dir ++ toLe 1 type ++ zeros 2 ++ toBe 4 index ++ toBe 4 seq

/-! The round plan: OFFER_FIELDS are bytes 32 to 239 of the OFFER (R419). -/

/-- A big-endian field of the plan at an offset of the OFFER. -/
def offerField (p : Bytes) (off n : Nat) : Nat := beAt p (off - 32) n

def pSealed (p : Bytes) : Bool := offerField p 32 1 == 1
def pBits (p : Bytes) : Nat := offerField p 33 1
/-- L = 2^b − 1 (R109). -/
def pL (p : Bytes) : Nat := 2 ^ pBits p - 1
def pRingBits (p : Bytes) : Nat := offerField p 34 1
def pDegree (p : Bytes) : Nat := offerField p 35 1
def pThreshold (p : Bytes) : Nat := offerField p 36 2
def pMinSurv (p : Bytes) : Nat := offerField p 38 2
def pCohortSize (p : Bytes) : Nat := offerField p 40 4
def pCohortCount (p : Bytes) : Nat := offerField p 44 4
def pSlice (p : Bytes) : Nat := offerField p 48 4
def pStride (p : Bytes) : Nat := offerField p 52 4
def pModel (p : Bytes) : Nat := offerField p 56 4
def pChunk (p : Bytes) : Nat := offerField p 60 4
def pClip (p : Bytes) : Nat := offerField p 64 4
def pOfferTime (p : Bytes) : Nat := offerField p 72 8
/-- The phase times 0 Join, 1 Neighbours, 2 Shares, 3 Upload, 4 Close, 5 Unmask, 6 Unmask deadline. -/
def pTime (p : Bytes) (i : Nat) : Nat := offerField p (80 + 8 * i) 8
def pSealedLen (p : Bytes) : Nat := offerField p 234 2
def pReleaseAddr (p : Bytes) : Nat := leAt p 208 8
def pReleaseLen (p : Bytes) : Nat := leAt p 216 8
def pG64Addr (p : Bytes) : Nat := leAt p 224 8
def pWeightPtr (p : Bytes) : Nat := leAt p 232 8
/-- The ring of the round; Z32 for a code that no plan may carry. -/
def pRing (p : Bytes) : Ring := if pRingBits p = 16 then .z16 else if pRingBits p = 24 then .z24 else .z32
/-- 2^w. -/
def pMod (p : Bytes) : Nat := 2 ^ (pRing p).bits
/-- The cohort of a slot; none where the slot lies in no cohort (R62). -/
def cohortOf (p : Bytes) (slot : Nat) : Option Nat :=
  if slot < pCohortSize p * pCohortCount p then some (slot / pCohortSize p) else none
/-- The model coordinate of a slice coordinate of a cohort (R62, R171). -/
def modelCoord (p : Bytes) (c j : Nat) : Nat := (c * pStride p + j) % pModel p

/-! The sealed parameter block (R312) and the catalogue (R314). -/

/-- The sealed parameters of a plan. -/
def pParams (p : Bytes) : Bytes := slice p 256 (pSealedLen p)
def spSet (b : Bytes) : Nat := beAt b 1 1
def spGroups (b : Bytes) : Nat := beAt b 2 1
def spSmudge (b : Bytes) : Nat := beAt b 3 1
def spJobKey (b : Bytes) : Nat := beAt b 8 8
def spGroupKey (b : Bytes) (g : Nat) : Nat := beAt b (96 + 76 * g) 8
def spMembers (b : Bytes) (g : Nat) : Nat := beAt b (104 + 76 * g) 1
def spMember (b : Bytes) (g i : Nat) : Nat := beAt b (108 + 76 * g + 4 * i) 4
/-- The members' slots as (slot, group, member). -/
def spSlots (b : Bytes) : List (Nat × Nat × Nat) :=
  (List.range (spGroups b)).flatMap (fun g => (List.range (spMembers b g)).map (fun i => (spMember b g i, g, i)))
/-- Whether a slot is a member's of the round (R309). -/
def isMember (p : Bytes) (slot : Nat) : Bool := pSealed p && (spSlots (pParams p)).any (fun m => m.1 == slot)

/-- The parameter set of a plan. -/
def pSet (p : Bytes) : Option PSet := psetOf (spSet (pParams p))

/-- The chunks of a slice: UPLOAD chunks (R65) or pieces (R321). -/
def chunkCount (p : Bytes) : Nat :=
  if pSealed p then (((pSet p).map (fun x => pSlice p / x.n * 2 * x.gam.length * (x.n / 16384))).getD 0) else pSlice p / pChunk p

/-! The policy record (R294), little-endian. -/

def polFlag (b : Bytes) (n : Nat) : Bool := bit (leAt b 1 1) n
def polGate (b : Bytes) : Bool := polFlag b 0
def polOverride (b : Bytes) : Bool := polFlag b 1
def polScreenRequired (b : Bytes) : Bool := polFlag b 2
def polMetrics (b : Bytes) : Bool := polFlag b 3
def polLoss (b : Bytes) : Bool := polFlag b 4
def polMomentum (b : Bytes) : Bool := polFlag b 5
def polCountNorm (b : Bytes) : Bool := polFlag b 6
def polStoch (b : Bytes) : Bool := polFlag b 7
def polScreen (b : Bytes) : Nat := leAt b 2 1
def polDirs (b : Bytes) : Nat := leAt b 3 1
def polMaxExcl (b : Bytes) : Nat := leAt b 4 2
def polRatio (b : Bytes) : Nat := leAt b 6 2
def polFmt (b : Bytes) : Nat := leAt b 8 1
def polNoiseExp (b : Bytes) : Int := signed 8 (leAt b 9 1)
def polHoldS (b : Bytes) : Nat := leAt b 10 2
def polSigNum (b : Bytes) : Nat := leAt b 12 4
def polSigDen (b : Bytes) : Nat := leAt b 16 4
def polEta (b : Bytes) : Nat := leAt b 20 4
def polBeta (b : Bytes) : Nat := leAt b 24 4
def polClip (b : Bytes) : Nat := leAt b 28 4
def polSens (b : Bytes) : Nat := leAt b 32 8
def polRho (b : Bytes) : Nat := leAt b 40 8
def polAccMin (b : Bytes) : Nat := leAt b 48 4
def polMaxDrop (b : Bytes) : Nat := leAt b 52 4
def polLossMax (b : Bytes) : Nat := leAt b 56 4
def polHeldN (b : Bytes) : Nat := leAt b 60 4
def polHeldDigest (b : Bytes) : Bytes := slice b 64 48
def polNormDen (b : Bytes) : Nat := leAt b 112 4

/-! The instruction word (R366). -/

/-- A field of a word. -/
def wbits (w : Word) (hi lo : Nat) : Nat := bits w.toNat hi lo
def iOpc (w : Word) : Nat := wbits w 63 56
def iDst (w : Word) : Nat := wbits w 55 51
def iSa (w : Word) : Nat := wbits w 50 46
def iSb (w : Word) : Nat := wbits w 45 41
def iMod (w : Word) : Nat := wbits w 40 32
def iImm (w : Word) : Nat := wbits w 31 0
/-- The words of an instruction, extension words included (R378 to R387). -/
def wordsOf (opc : Nat) : Nat := if opc = 0x20 then 3 else if opc = 0x21 ∨ opc = 0x31 then 2 else 1

/-! The Wrap configuration record (R264). -/

def wrSrc (b : Bytes) : Nat := leAt b 0 1
def wrFmt (b : Bytes) : Nat := leAt b 1 1
def wrAct (b : Bytes) : Nat := leAt b 2 1
def wrFlag (b : Bytes) (n : Nat) : Bool := bit (leAt b 3 1) n
def wrStoch (b : Bytes) : Bool := wrFlag b 0
def wrPerChan (b : Bytes) : Bool := wrFlag b 1
def wrBias (b : Bytes) : Bool := wrFlag b 2
def wrClipEn (b : Bytes) : Bool := wrFlag b 3
def wrNoise (b : Bytes) : Bool := wrFlag b 4
def wrMaskOut (b : Bytes) : Bool := wrFlag b 5
def wrCountNorm (b : Bytes) : Bool := wrFlag b 6
def wrMomentum (b : Bytes) : Bool := wrFlag b 7
def wrScaleExp (b : Bytes) : Int := signed 16 (leAt b 4 2)
def wrScale (b : Bytes) : Nat := leAt b 8 4
def wrClip (b : Bytes) : Nat := leAt b 12 4
def wrLo (b : Bytes) : Nat := leAt b 16 4
def wrHi (b : Bytes) : Nat := leAt b 20 4
def wrScalePtr (b : Bytes) : Nat := leAt b 24 8
def wrBiasPtr (b : Bytes) : Nat := leAt b 32 8
def wrMaskPtr (b : Bytes) : Nat := leAt b 40 8
def wrDest (b : Bytes) : Nat := leAt b 48 8
def wrBeta (b : Bytes) : Nat := leAt b 56 4

/-! The tensor header (R223). -/

def thFmt (b : Bytes) : Nat := leAt b 0 1
def thKdim (b : Bytes) : Bool := bit (leAt b 1 1) 0
def thAnchor (b : Bytes) : Nat := leAt b 2 1
def thRows (b : Bytes) : Nat := leAt b 4 4
def thCols (b : Bytes) : Nat := leAt b 8 4
def thScaleOff (b : Bytes) : Nat := leAt b 16 8
def thDataOff (b : Bytes) : Nat := leAt b 24 8
def thStride (b : Bytes) : Nat := leAt b 32 8

end Sys2Proof.Machine
end

