-- ==== Sys2Proof/Machine/Memory.lean ====
section
/-! DEFINITION. The memory of a job: where Pilot places a round's structures (R163, R510 to R512), how they lie in memory byte by byte (R105, R106, R167, R201, R325), and the reads and stores that reach them and every other byte of the job's partition and HBM. -/

namespace Sys2Proof.Machine

/-! The sizes of a round's structures. -/

/-- The smallest multiple of 64 that is at least n. -/
def align64 (n : Nat) : Nat := (n + 63) / 64 * 64

/-- The bytes of a ciphertext with its header at the full level of a set (R325). -/
def ctSpan (x : PSet) : Nat := 64 + 2 * x.gam.length * 8 * x.n

/-- The chunks, or the ciphertexts, of a slice (R324). -/
def unitCountOf (p : Bytes) : Nat := if pSealed p then ((pSet p).map (fun y => pSlice p / y.n)).getD 0 else chunkCount p

/-- The bytes of a client's chunk bitmap (R106). -/
def bitmapBytes (p : Bytes) : Nat := 8 * ((chunkCount p + 63) / 64)

/-- The slots of a plan that lie in the job's Roster range: each has a bitmap. -/
def planSlots (s : State) (j : JobId) (p : Bytes) : Nat := min (pCohortSize p * pCohortCount p) (fget s ROS_JOB_RANGE.COUNT j 0)

/-- The bytes of a cohort's sum ciphertexts (R322, R325): none in a masked round. -/
def sumsBytes (p : Bytes) : Nat := if pSealed p then unitCountOf p * ((pSet p).map ctSpan).getD 0 else 0

/-- The bytes of a cohort's sum ciphertexts and of its ring accumulator after them (R167, R325, R346). -/
def accSpan (p : Bytes) : Nat := sumsBytes p + pSlice p * (pRing p).slot

/-- The first byte of the check accumulators among a round's Vat-only structures: the bitmaps lie before them. -/
def checkOff (s : State) (j : JobId) (p : Bytes) : Nat := align64 (planSlots s j p * bitmapBytes p)

/-- The first byte of the copied weight table among them. -/
def weightOff (s : State) (j : JobId) (p : Bytes) : Nat := checkOff s j p + 64 * pCohortCount p

/-- The bytes of a round's structures that stay in the Vat: the bitmaps of its clients, the check accumulators and the copied weights (R106, R163, R172, R510). -/
def vatOnly (s : State) (j : JobId) (p : Bytes) : Nat := weightOff s j p + (if pWeightPtr p = 0 then 0 else align64 (2 * pCohortCount p))

/-- The bytes of a job's close table (R105). -/
def closeBytes (s : State) (j : JobId) : Nat := align64 (32 * fget s ROS_JOB_RANGE.COUNT j 0)

/-! The places. -/

/-- A job-relative address of the job's Vat space without its add window; the structures lie on both sides of the window. -/
def around (s : State) (j : JobId) (o : Nat) : Nat := if hbmBase ≤ o ∨ o < (window s j).1 then o else o + (window s j).2

/-- The place of an address in that space; none inside the add window and beyond the job's memory. -/
def unaround (s : State) (j : JobId) (a : Nat) : Option Nat :=
  if ¬ inReach s j a 1 then none
  else if hbmBase ≤ a ∨ a < (window s j).1 then some a
  else if a < (window s j).1 + (window s j).2 then none
  else some (a - (window s j).2)

/-- Whether a round's structures are placed from the low end of the job's memory: of two rounds in flight, one of odd and one of even number, each has its own end (assumption 6). -/
def lowEnd (r : Nat) : Bool := r % 2 == 1

/-- A block of n bytes at the round's end of a space of `total` bytes from `base`: its first byte. -/
def blockAt (r base total n : Nat) : Nat := if lowEnd r then base else base + total - n

/-- The first byte of a round's Vat-only structures. -/
def vatAt (s : State) (j : JobId) (x : Round) : Nat := blockAt x.number 0 (partBytes s j - (window s j).2) (vatOnly s j x.plan)

/-- The first byte of a round's close table (R104, R105). -/
def closeAt (s : State) (j : JobId) (x : Round) : Nat := blockAt x.number hbmBase (quotaBytes s j) (closeBytes s j)

/-- Structure c of a stack of structures of `span` bytes that begins at the inner side of a block. -/
def stackPlace (r block n span c : Nat) : Nat := if lowEnd r then block + n + c * span else block - (c + 1) * span

/-- The structure of such a stack that holds a byte, with the byte's offset in it. -/
def stackFind (r block n span o : Nat) : Option (Nat × Nat) :=
  if span = 0 then none
  else if lowEnd r then (if block + n ≤ o then some ((o - (block + n)) / span, (o - (block + n)) % span) else none)
  else if o < block then
    let c := (block - 1 - o) / span
    if (c + 1) * span ≤ block then some (c, o - (block - (c + 1) * span)) else none
  else none

/-- The place of a cohort's accumulator and sums, in the Vat, or in HBM, where the highest cohort number comes first (R163, R512). -/
def accAt (s : State) (j : JobId) (x : Round) (c : Nat) : Nat :=
  if (x.cohort c).inHbm then stackPlace x.number (closeAt s j x) (closeBytes s j) (accSpan x.plan) (pCohortCount x.plan - 1 - c)
  else stackPlace x.number (vatAt s j x) (vatOnly s j x.plan) (accSpan x.plan) c

/-- The place of a cohort's ring accumulator (R167). -/
def ringAt (s : State) (j : JobId) (x : Round) (c : Nat) : Nat := accAt s j x c + sumsBytes x.plan

/-- The places of listed units, chunks or ciphertexts, of a cohort's ring accumulator, as ranges. -/
def unitPlaces (s : State) (j : JobId) (x : Round) (c : Nat) (is : List Nat) : List (Nat × Nat) :=
  is.map (fun i => (ringAt s j x c + i * (pChunk x.plan * (pRing x.plan).slot), pChunk x.plan * (pRing x.plan).slot))

/-- The place of a cohort's sum ciphertext i (R325). -/
def sumAt (s : State) (j : JobId) (x : Round) (c i : Nat) : Nat := accAt s j x c + i * ((pSet x.plan).map ctSpan).getD 0

/-- The place of a client's bitmap (R106). -/
def bitmapAt (s : State) (j : JobId) (x : Round) (slot : Nat) : Nat := vatAt s j x + slot * bitmapBytes x.plan

/-- The place of a cohort's check accumulator (R201). -/
def checkAt (s : State) (j : JobId) (x : Round) (c : Nat) : Nat := vatAt s j x + checkOff s j x.plan + 64 * c

/-- The job-relative address, in the job's HBM, of a structure that Pilot places there: a kind of the list below, a round and a slot (R510). -/
def hbmPlace (j : JobId) (kind round n : Nat) : Nat := hbmBase + Config.placeAt j kind round n

def placeShares : Nat := 0
def placeKeys : Nat := 1
def placeStaging : Nat := 2
def placeMomentum : Nat := 3
def placeMaster : Nat := 4
def placeHeld : Nat := 5
def placeKeyTable : Nat := 6
def placeList : Nat := 7

/-! Poison of a structure. -/

/-- Whether n bytes of a placed structure hold a poisoned line. -/
def placePoisoned (s : State) (j : JobId) (o n : Nat) : Bool := (linesOf o n).any (fun l => s.poison.contains (poisonKey s j (around s j l)))

/-- The first poisoned line of n bytes of a placed structure, as its address. -/
def placePoisonAt (s : State) (j : JobId) (o n : Nat) : Nat :=
  (((linesOf o n).map (around s j)).find? (fun a => s.poison.contains (poisonKey s j a))).getD (around s j o)

/-- The poisoned line that work on listed places meets: its address. -/
def metPoison (s : State) (j : JobId) (ps : List (Nat × Nat)) : Option Nat :=
  if s.poison.isEmpty then none else (ps.find? (fun e => placePoisoned s j e.1 e.2)).map (fun e => placePoisonAt s j e.1 e.2)

/-- The poison of n bytes of a placed structure cleared: the lines are written whole (R155). -/
def clearPlace (s : State) (j : JobId) (o n : Nat) : State :=
  if s.poison.isEmpty then s else (linesOf o n).foldl (fun t l => clearPoison t (poisonKey t j (around t j l))) s

/-! The structures, byte by byte. -/

/-- A piece of a round's structure that memory shows. -/
inductive Piece where
  | bitmap (slot : Nat)
  | check (c : Nat)
  | weights
  | element (c i : Nat)
  | sumHead (c i : Nat)
  | residue (c i poly limb n : Nat)
  | record (slot : Nat)
  deriving DecidableEq, Repr

/-- The piece of a cohort's accumulator or sums at an offset, with the byte's offset in the piece. -/
def accPiece (p : Bytes) (c o : Nat) : Option (Piece × Nat) :=
  if o < sumsBytes p then
    (pSet p).map (fun y =>
      let k := o % ctSpan y
      if k < 64 then (.sumHead c (o / ctSpan y), k)
      else
        let n := (k - 64) / 8
        (.residue c (o / ctSpan y) (n / (y.gam.length * y.n)) (n / y.n % y.gam.length) (n % y.n), (k - 64) % 8))
  else some (.element c ((o - sumsBytes p) / (pRing p).slot), (o - sumsBytes p) % (pRing p).slot)

/-- The piece of a round's Vat-only structures at an offset. -/
def fixedPiece (s : State) (j : JobId) (p : Bytes) (o : Nat) : Option (Piece × Nat) :=
  if o < checkOff s j p then
    if o < planSlots s j p * bitmapBytes p then some (.bitmap (o / bitmapBytes p), o % bitmapBytes p) else none
  else if o < weightOff s j p then some (.check ((o - checkOff s j p) / 64), (o - checkOff s j p) % 64)
  else if o < vatOnly s j p then some (.weights, o - weightOff s j p)
  else none

/-- The cohort of a stack that holds a place, if its accumulator lies on that side. -/
def stackPiece (x : Round) (hbm : Bool) (f : Option (Nat × Nat)) : Option (Piece × Nat) :=
  f.bind (fun e =>
    let c := if hbm then pCohortCount x.plan - 1 - e.1 else e.1
    if e.1 < pCohortCount x.plan ∧ (x.cohort c).inHbm = hbm then accPiece x.plan c e.2 else none)

/-- The piece of a round that holds a place. -/
def pieceAt (s : State) (j : JobId) (x : Round) (o : Nat) : Option (Piece × Nat) :=
  if hbmBase ≤ o then
    let b := closeAt s j x
    if b ≤ o ∧ o < b + closeBytes s j then (if x.closed then some (.record ((o - b) / 32), (o - b) % 32) else none)
    else stackPiece x true (stackFind x.number b (closeBytes s j) (accSpan x.plan) o)
  else
    let b := vatAt s j x
    if b ≤ o ∧ o < b + vatOnly s j x.plan then fixedPiece s j x.plan (o - b)
    else stackPiece x false (stackFind x.number b (vatOnly s j x.plan) (accSpan x.plan) o)

/-- The round and the piece that a job-relative address belongs to; none for a byte of no structure. -/
def viewAt (s : State) (j : JobId) (a : Nat) : Option (Round × Piece × Nat) :=
  if (s.job j).rounds.isEmpty then none
  else (unaround s j a).bind (fun o => (s.job j).rounds.findSome? (fun x => (pieceAt s j x o).map (fun e => (x, e))))

/-- Byte `o` of a number. -/
def byteOf (v o : Nat) : Byte := BitVec.ofNat 8 (v / 256 ^ o)

/-- A number with byte `o` replaced. -/
def withByte (v o : Nat) (b : Byte) : Nat := v % 256 ^ o + b.toNat * 256 ^ o + v / 256 ^ (o + 1) * 256 ^ (o + 1)

/-- Byte `o` of a chunk bitmap that lists its admitted indices. -/
def bitmapByte (is : List Nat) (o : Nat) : Byte := BitVec.ofNat 8 ((List.range 8).map (fun b => if is.contains (8 * o + b) then 2 ^ b else 0)).sum

/-- The indices of a bitmap with byte `o` replaced. -/
def bitmapWith (is : List Nat) (o : Nat) (v : Byte) : List Nat :=
  is.filter (fun i => i / 8 != o || v.getLsbD (i % 8)) ++ ((List.range 8).map (fun b => 8 * o + b)).filter (fun i => v.getLsbD (i % 8) && !is.contains i)

/-- A Roster or close state's code (R101). -/
def CState.code : CState → Nat
  | .FREE => 0
  | .JOINED => 1
  | .NEIGHBOURED => 2
  | .SHARED => 3
  | .UPLOADING => 4
  | .COMPLETE => 5
  | .WITHDRAWN => 6
  | .SURVIVOR => 7
  | .DROPOUT => 8
  | .UNMASKED => 9

/-- The state of a code; FREE for a code that the table does not give. -/
def CState.ofCode (n : Nat) : CState :=
  ([.FREE, .JOINED, .NEIGHBOURED, .SHARED, .UPLOADING, .COMPLETE, .WITHDRAWN, .SURVIVOR, .DROPOUT, .UNMASKED] : List CState).getD n .FREE

/-- A close record as 32 bytes (R105). -/
def CloseRec.bytes (c : CloseRec) : Bytes :=
  List.flatten [toLe 1 c.state.code, toLe 1 (flag c.unmaskAdm + 2 * flag c.resultSent + 4 * flag c.version3 + 8 * flag c.withdrawn), toLe 2 (c.fe % 4096),
    toLe 4 c.round, toLe 4 c.keyHandle, toLe 4 c.msgSeq, toLe 2 c.cohort, toLe 2 c.errAuth, toLe 2 c.errOther, toLe 2 c.dup, toLe 1 c.reason, zeros 7]

/-- The close record of 32 bytes. -/
def CloseRec.ofBytes (b : Bytes) : CloseRec where
  state := .ofCode (leAt b 0 1)
  unmaskAdm := bit (leAt b 1 1) 0
  resultSent := bit (leAt b 1 1) 1
  version3 := bit (leAt b 1 1) 2
  withdrawn := bit (leAt b 1 1) 3
  fe := leAt b 2 2 % 4096
  round := leAt b 4 4
  keyHandle := leAt b 8 4
  msgSeq := leAt b 12 4
  cohort := leAt b 16 2
  errAuth := leAt b 18 2
  errOther := leAt b 20 2
  dup := leAt b 22 2
  reason := leAt b 24 1

/-- A ciphertext of a set that holds zero (R326). -/
def Ct.zero (set w keyId : Nat) (x : PSet) : Ct :=
  ⟨set, x.gam.length, w, keyId, 0, 0, false, List.replicate x.gam.length (List.replicate x.n 0), List.replicate x.gam.length (List.replicate x.n 0)⟩

/-- A sum ciphertext of a sealed round's cohort: zero until a piece of it is admitted. -/
def sumOf (p : Bytes) (k : Cohort) (i : Nat) : Ct :=
  (lookup k.sums i).getD (((pSet p).map (Ct.zero (spSet (pParams p)) (pRing p).bits (spJobKey (pParams p)))).getD (.zero 0 0 0 ⟨0, [], [], 0, 0, 0⟩))

/-- The header of a round's sum (R325, R326): it names its round, cohort and index, and is ROUND_OWNED. -/
def sumHeader (x : Round) (c i : Nat) : Bytes :=
  let k := sumOf x.plan (x.cohort c) i
  let n := ((pSet x.plan).map (·.n)).getD 0
  [1] ++ toLe 1 k.set ++ toLe 1 k.level ++ toLe 1 (flag k.poison + 2) ++ toLe 1 k.ring ++ zeros 3 ++ toLe 8 k.keyId ++
    toLe 4 (unsignedOf 32 k.budget) ++ toLe 4 k.count ++ toLe 8 64 ++ toLe 8 (8 * n) ++ toLe 8 (8 * n * k.level) ++ toLe 4 x.number ++ toLe 2 c ++
    toLe 2 i ++ zeros 8

/-- The limb of a polynomial. -/
def Ct.limbs (k : Ct) (poly : Nat) : List (List Nat) := if poly = 0 then k.c0 else k.c1

/-- A residue of a ciphertext replaced. -/
def Ct.setResidue (k : Ct) (poly limb n v : Nat) : Ct :=
  let upd := fun (l : List (List Nat)) => l.set limb ((l.getD limb []).set n v)
  if poly = 0 then { k with c0 := upd k.c0 } else { k with c1 := upd k.c1 }

/-- A header byte of a sum replaced: the fields of its state follow it. -/
def Ct.setHead (k : Ct) (h : Bytes) : Ct :=
  ⟨leAt h 1 1, leAt h 2 1, leAt h 4 1, leAt h 8 8, signed 32 (leAt h 16 4), leAt h 20 4, bit (leAt h 3 1) 0, k.c0, k.c1⟩

/-- A byte of a piece. -/
def pieceByte (x : Round) (q : Piece) (o : Nat) : Byte :=
  match q with
  | .bitmap slot => bitmapByte ((lookup x.bitmaps slot).getD []) o
  | .check c => if o < 16 then byteOf ((x.cohort c).check.getD (o / 4) 0) (o % 4) else 0
  | .weights => x.weights.getD o 0
  | .element c i => byteOf (readD 0 (x.cohort c).accum i) o
  | .sumHead c i => (sumHeader x c i).getD o 0
  | .residue c i poly limb n => byteOf ((((sumOf x.plan (x.cohort c) i).limbs poly).getD limb []).getD n 0) o
  | .record slot => (((lookup x.closeTable slot).map CloseRec.bytes).getD []).getD o 0

/-- A round with a byte of a piece written. -/
def pieceSet (x : Round) (q : Piece) (o : Nat) (b : Byte) : Round :=
  match q with
  | .bitmap slot => { x with bitmaps := putN x.bitmaps slot (bitmapWith ((lookup x.bitmaps slot).getD []) o b) }
  | .check c =>
    if o < 16 then x.modCohort c (fun k => { k with check := k.check.set (o / 4) (withByte (k.check.getD (o / 4) 0) (o % 4) b) }) else x
  | .weights => { x with weights := x.weights.set o b }
  | .element c i => x.modCohort c (fun k => { k with accum := (putD id 0 k.accum i (withByte (readD 0 k.accum i) o b)) })
  | .sumHead c i => x.modCohort c (fun k => { k with sums := putN k.sums i ((sumOf x.plan k i).setHead ((sumHeader x c i).set o b)) })
  | .residue c i poly limb n => x.modCohort c (fun k =>
      let t := sumOf x.plan k i
      { k with sums := putN k.sums i (t.setResidue poly limb n (withByte (((t.limbs poly).getD limb []).getD n 0) o b)) })
  | .record slot =>
    match lookup x.closeTable slot with
    | none => x
    | some c => { x with closeTable := putN x.closeTable slot (CloseRec.ofBytes (c.bytes.set o b)) }

/-! The bytes of a job. -/

/-- The key-table entry whose image, placed in the job's HBM, holds an address: its number and image, and the byte's offset in it (R336, R510). -/
def keyView (s : State) (j : JobId) (a : Nat) : Option (Nat × Bytes × Nat) :=
  if a < hbmBase then none
  else (s.job j).keyTable.findSome? (fun e =>
    let p := hbmPlace j placeKeyTable 0 e.1
    if p ≤ a ∧ a < p + e.2.length then some (e.1, e.2, a - p) else none)

/-- A byte of a job that belongs to no round's structure. -/
def plainByte (s : State) (j : JobId) (a : Nat) : Byte :=
  match keyView s j a with
  | some (_, b, o) => b.getD o 0
  | none => if hbmBase ≤ a then memByte (s.job j).hbm a else ((vatOf s j a).map (memByte s.mem)).getD 0

/-- A byte of a job at a job-relative address. -/
def jobByte (s : State) (j : JobId) (a : Nat) : Byte :=
  match viewAt s j a with
  | some (x, q, o) => pieceByte x q o
  | none => plainByte s j a

/-- Bytes of a job. -/
def jobRead (s : State) (j : JobId) (a n : Nat) : Bytes := (List.range n).map (fun i => jobByte s j (a + i))

/-- A byte of a job that belongs to no structure written. -/
def plainPut (s : State) (j : JobId) (a : Nat) (v : Byte) : State :=
  match keyView s j a with
  | some (n, b, o) => s.modJob j (fun J => { J with keyTable := putN J.keyTable n (b.set o v) })
  | none =>
    if hbmBase ≤ a then s.modJob j (fun J => { J with hbm := memPut J.hbm a v })
    else match vatOf s j a with
      | some x => { s with mem := memPut s.mem x v }
      | none => s

/-- A byte of a job written. -/
def jobPut (s : State) (j : JobId) (a : Nat) (v : Byte) : State :=
  match viewAt s j a with
  | some (x, q, o) => s.modRound j x.number (fun y => pieceSet y q o v)
  | none => plainPut s j a v

/-- Bytes of a job written. -/
def jobWrite (s : State) (j : JobId) (a : Nat) : Bytes → State
  | [] => s
  | b :: bs => jobWrite (jobPut s j a b) j (a + 1) bs

/-- The part of a store that falls on one line: a whole line is stored and its poison cleared, a part of a poisoned line is not stored (R155). -/
def storeLine (j : JobId) (a : Nat) (d : Bytes) (s : State) (l : Nat) : State :=
  let lo := max a l
  let hi := min (l + 64) (a + d.length)
  let k := poisonKey s j l
  if hi = lo + 64 then clearPoison (jobWrite s j lo (slice d (lo - a) 64)) k
  else if s.poison.contains k then s
  else jobWrite s j lo (slice d (lo - a) (hi - lo))

/-- A store of a job (R155). -/
def jobStore (s : State) (j : JobId) (a : Nat) (d : Bytes) : State := (linesOf a d.length).foldl (storeLine j a d) s

/-- A 64-bit word of a job. -/
def jobWord (s : State) (j : JobId) (a : Nat) : Word := BitVec.ofNat 64 (leNat (jobRead s j a 8))

/-- A 64-bit word of a job written. -/
def jobSetWord (s : State) (j : JobId) (a : Nat) (v : Word) : State := jobWrite s j a (toLe 8 v.toNat)

/-- Accesses to a job's memory counted: the bank operations, and for lines in HBM those of the spill path with their HBM transfers, a read and a write of each (R164, R165, R599). -/
def bankWork (s : State) (j : JobId) (a n ops : Nat) : State :=
  let s := pmu s 0x20 (some j) ops
  if a < hbmBase then s else pmu (pmu s 0x22 (some j) (linesOf a n).length) 0x23 (some j) (2 * (linesOf a n).length)

/-! The bytes of the Vat by module address. -/

/-- The job-relative address of a module Vat address; none where the job does not hold it (R160). -/
def jobRelative (s : State) (j : JobId) (a : Nat) : Option Nat :=
  ((berthsOf s j).findIdx? (fun b => b == a / 2 ^ 24)).map (fun i => i * 2 ^ 24 + a % 2 ^ 24)

/-- The job whose structure a module Vat address belongs to, with the job-relative address. -/
def vatOwner (s : State) (a : Nat) : Option (JobId × Nat) := (berthOwner s (a / 2 ^ 24)).bind (fun j => (jobRelative s j a).map (fun x => (j, x)))

/-- A byte of the Vat: of a round's structure where its owner has one there. -/
def vatByte (s : State) (a : Nat) : Byte :=
  match (vatOwner s a).bind (fun e => viewAt s e.1 e.2) with
  | some (x, q, o) => pieceByte x q o
  | none => memByte s.mem a

/-- Bytes of the Vat. -/
def vatRead (s : State) (a n : Nat) : Bytes := (List.range n).map (fun i => vatByte s (a + i))

/-- A byte of the Vat written. -/
def vatPut (s : State) (a : Nat) (v : Byte) : State :=
  match (vatOwner s a).bind (fun e => (viewAt s e.1 e.2).map (fun w => (e.1, w))) with
  | some (j, x, q, o) => s.modRound j x.number (fun y => pieceSet y q o v)
  | none => { s with mem := memPut s.mem a v }

/-- Bytes of the Vat written. -/
def vatWrite (s : State) (a : Nat) : Bytes → State
  | [] => s
  | b :: bs => vatWrite (vatPut s a b) (a + 1) bs

end Sys2Proof.Machine
end

