-- ==== Sys2Proof/Machine/Flags.lean ====
section
/-! DEFINITION. The status codes (R21) and the arithmetic that sets events, markers and masks: ring sums (R168), G64 sums and the non-finite marker (R179 to R181), the binary32 operations of the banks (R183) and the mask streams (R127). -/

namespace Sys2Proof.Machine

/-- The JLP status codes (R76). -/
inductive JStat where
  | ok | duplicate | late | outOfPhase | authFailed | badVersion | unsupported | malformed | unknownJob | wrongRound
  | slotOutOfRange | slotTaken | notJoined | chunkOutOfRange | withdrawn | noCredit | notRequested
  deriving DecidableEq, Repr

/-- A JLP status's value. -/
def JStat.code : JStat → Nat
  | .ok => 0
  | .duplicate => 1
  | .late => 2
  | .outOfPhase => 3
  | .authFailed => 4
  | .badVersion => 5
  | .unsupported => 6
  | .malformed => 7
  | .unknownJob => 8
  | .wrongRound => 9
  | .slotOutOfRange => 10
  | .slotTaken => 11
  | .notJoined => 12
  | .chunkOutOfRange => 13
  | .withdrawn => 14
  | .noCredit => 15
  | .notRequested => 16

/-- Rind's statuses (R352). -/
inductive RindStat where
  | ok | keyMismatch | budgetExhausted | poisonedSource | paramMismatch | roundOwned | residueFail | keyBusy | groupIncomplete | queueFull
  deriving DecidableEq, Repr

/-- A Rind status's value. -/
def RindStat.code : RindStat → Nat
  | .ok => 0
  | .keyMismatch => 1
  | .budgetExhausted => 2
  | .poisonedSource => 3
  | .paramMismatch => 4
  | .roundOwned => 5
  | .residueFail => 6
  | .keyBusy => 7
  | .groupIncomplete => 8
  | .queueFull => 9

/-- A ring sum (R168). -/
def ringAdd (w a x : Nat) : Nat := (a + x) % 2 ^ w

/-- The ring element that subtracts x (R168). -/
def ringNeg (w x : Nat) : Nat := (2 ^ w - x % 2 ^ w) % 2 ^ w

/-- The non-finite marker (R179). -/
def g64Marker : Word := 0x8000000000000000

/-- A G64 sum: exact in the finite range, else the marker (R180). -/
def g64Add (a b : Word) : Word :=
  if a = g64Marker ∨ b = g64Marker then g64Marker
  else if a.toInt + b.toInt ≤ 2 ^ 63 - 1 ∧ -(2 ^ 63 - 1) ≤ a.toInt + b.toInt then BitVec.ofInt 64 (a.toInt + b.toInt) else g64Marker

/-- Whether a G64 sum creates a marker that neither operand was (R180). -/
def g64Creates (a b : Word) : Bool := a != g64Marker && b != g64Marker && g64Add a b == g64Marker

/-- The negation of a G64 value (R181). -/
def g64Neg (a : Word) : Word := if a = g64Marker then g64Marker else -a

/-- The binary32 NaN that the banks write (R183). -/
def nan32 : BitVec 32 := 0x7FC00000

/-- Whether a binary32 code is a NaN. -/
def isNan32 (x : BitVec 32) : Bool := decide (0x7F800000 < x.toNat % 2 ^ 31)

/-- The key that orders finite and infinite binary32 codes with −0 below +0 (R183, R286). -/
def key32 (x : BitVec 32) : Nat := if x.toNat < 2 ^ 31 then x.toNat + 2 ^ 31 else 2 ^ 32 - 1 - x.toNat

/-- The binary32 maximum or minimum (R183). -/
def maxMin32 (mx : Bool) (a b : BitVec 32) : BitVec 32 :=
  if isNan32 a || isNan32 b then nan32 else if mx == decide (key32 a < key32 b) then b else a

/-- The larger or smaller of two signed integers of `w` bits (R183). -/
def maxMinS (mx : Bool) {w : Nat} (a b : BitVec w) : BitVec w := if mx == decide (a.toInt < b.toInt) then b else a

/-- The mask element of slice coordinate j in the stream of a key and nonce (R127, R200). -/
def maskElem (r : Ring) (key : Key256) (nonce : Bytes) (j : Nat) : Nat :=
  let per := match r with
    | .z16 => 32
    | .z24 => 21
    | .z32 => 16
  leAt (chachaBlock key nonce (j / per)) (j % per * (r.bits / 8)) (r.bits / 8)

/-- The nonce of the mask streams (R127). -/
def maskNonce (r : Ring) : Bytes := zeros 3 ++ toLe 1 r.bits ++ zeros 8

/-- The nonce of lane l of the check streams, 0xFF for the chunk draws (R199, R200). -/
def checkNonce (r : Ring) (l : Nat) : Bytes := toLe 1 0x54 ++ toLe 1 l ++ zeros 1 ++ toLe 1 r.bits ++ zeros 8

/-- Whether chunk i is covered at a fraction code (R199). -/
def chunkCovered (r : Ring) (key : Key256) (frac i : Nat) : Bool :=
  decide (leAt (chachaBlock key (checkNonce r 0xFF) (i / 16)) (4 * (i % 16)) 4 < fracLimit frac)

end Sys2Proof.Machine
end

