-- ==== Sys2Proof/Machine/RegFile.lean ====
section
/-! DEFINITION. A write of a register field by field, by the access codes of R14, the reserved bits of R17 and the undefined encodings of R18. -/

namespace Sys2Proof.Machine

/-- The events of the PMU's catalogue (R599). -/
def pmuEvents : List Nat :=
  [0x01, 0x02, 0x03, 0x04, 0x05, 0x06, 0x07, 0x10, 0x11, 0x12, 0x13, 0x20, 0x21, 0x22, 0x23, 0x24,
   0x30, 0x31, 0x32, 0x33, 0x34, 0x35, 0x40, 0x41, 0x42]

/-- Whether a field's table defines an encoding (R18), for copy `a` of its register. -/
def legal (f : Fld) (a v : Nat) : Bool :=
  match f.reg, f.lo with
  | .PLT_MODE, 0 => decide (v ≤ 4)
  | .TIDE_HOLD, 0 => decide (1 ≤ v ∧ v ≤ 10000)
  | .RDMA_QP_CFG, 61 => decide (v ≤ 4)
  | .HIF_VF_SQ_CFG, 0 => decide (4 ≤ v ∧ v ≤ 16)
  | .HIF_VF_CQ_CFG, 0 => decide (4 ≤ v ∧ v ≤ 16)
  | .PMU_CNT_SEL, 0 => decide (v ≤ 39)
  | .PMU_CNT_CFG, 8 => decide (v ≤ 2)
  | .PMU_CNT_CFG, 0 => pmuEvents.contains v && eventCluster v == a / 8
  | .PMU_SBUF_CFG, 0 => decide (7 ≤ v ∧ v ≤ 20)
  | .PLT_CLU_SEL, 0 => decide (v ≤ 4)
  | .PWR_TEMP_SEL, 0 => decide (v ≤ 101)
  | .PWR_DOM_SEL, 0 => decide (v ≤ 95)
  | .HIF_VF_SEL, 0 => decide (v ≤ 16)
  | .RDMA_QP_SEL, 0 => decide (2 ≤ v)
  | .TRI_UNIT_SEL, 24 => decide (1 ≤ v ∧ v ≤ 10)
  | .HIF_HDM_CTRL, 0 => decide (v ≤ 64)
  | .HIF_HDM_REGION, 8 => decide (v ≤ 64)
  | .ROS_JOB_RANGE, 32 => decide (v ≤ 2 ^ 24)
  | .KST_WR_CTRL, 32 => decide (224 ≤ v)
  | .KST_CHAL_CTRL, 0 => decide (224 ≤ v)
  | .PLT_CLU_ENV, 0 => decide (10 ≤ v ∧ v ≤ 100)
  | .PLT_CLU_ENV, 8 => decide (10 ≤ v ∧ v ≤ 100)
  | .PLT_JOB_FRAC, 0 => decide (v ≤ 6)
  | .PLT_JOB_FRAC, 4 => decide (v ≤ 6)
  | _, _ => true

/-- The bits of a write that a field receives. -/
def Fld.of (f : Fld) (v : Nat) : Nat := bits v (f.lo + f.width - 1) f.lo

/-- A register's write value as one field takes it, by the field's access code (R14, R18). -/
def storeField (a b v : Nat) (s : State) (f : Fld) : State :=
  match f.acc with
  | .RW => if legal f a (f.of v) then fset s f a b (f.of v) else s
  | .W1C => fset s f a b (fget s f a b &&& ((2 ^ f.width - 1) ^^^ f.of v))
  | .W1S => fset s f a b (fget s f a b ||| f.of v)
  | .RO => s
  | .WO => s
  | .RCL => s

/-- A write of a register's copy. -/
def storeReg (s : State) (r : Reg) (a b v : Nat) : State := r.fields.foldl (storeField a b v) s

/-- The copy that a register's selector names, for an access by the function `f`. -/
def Reg.copy (s : State) (r : Reg) (f : Func) (n : Nat) : Nat × Nat :=
  match r.sel with
  | .plain => (0, n)
  | .picked g => (get1 s g, n)
  | .picked2 g h => (get1 s g, get1 s h)
  | .func => (f.val, n)

/-- A write of the selected copy of a register of PF0. -/
def storeSel (s : State) (r : Reg) (v : Nat) : State := storeReg s r (r.copy s pf0 0).1 (r.copy s pf0 0).2 v

end Sys2Proof.Machine
end

