-- ==== Sys2Proof/Machine/Pmu.lean ====
section
/-! DEFINITION. The PMU: the counters' commands (R598 to R604), precise sampling (R605 to R609) and the grants to VFs (R610, R611). -/

namespace Sys2Proof.Machine

/-- Every programmable counter and its OVF bit zeroed (PMU_CTRL.CLEAR_ALL). -/
def clearCounters (s : State) : State := resetRegs s (fun k => k.reg == .PMU_CNT_VALUE)

/-- The counters, their OVF bits and the cycle counters copied into the shadows (R604). -/
def snapshot (s : State) : State :=
  let s := (List.range 40).foldl (fun t i =>
    fset (fset t PMU_SHADOW.VALUE 0 i (fget t PMU_CNT_VALUE.VALUE i 0)) PMU_SHADOW.OVF 0 i (fget t PMU_CNT_VALUE.OVF i 0)) s
  let s := (List.range 5).foldl (fun t c => fset t PMU_SHADOW_CYC.CYCLES 0 c (fget t PMU_CYCLES.CYCLES 0 c)) s
  count s PMU_STATUS.SNAP_SEQ 0 0 1

/-- Sampling as SAMP_EN rises: the ring, the tag numbers and the countdown start afresh (R605, R608). -/
def sampleStart (s : State) : State :=
  { set1 (set1 s PMU_SBUF_WR.WR 0) PMU_SBUF_RD.RD 0 with tagNo := 0, countdown := get1 s PMU_SAMP_CFG.PERIOD, sampleLost := false }

/-- A write of PMU_CTRL: FREEZE and SAMP_EN are stored, then SNAPSHOT and CLEAR_ALL act, in that order. -/
def writePmuCtrl (s : State) (v : Nat) : State :=
  let t := storeReg s .PMU_CTRL 0 0 v
  let t := if on t PMU_CTRL.SAMP_EN && !on s PMU_CTRL.SAMP_EN then sampleStart t else t
  let t := if bit v 1 then snapshot t else t
  if bit v 3 then clearCounters t else t

/-- PMU_FREEZE (R603): a write of PMU_CTRL that sets or clears FREEZE. -/
def execPmuFreeze (v : BitVec 32) (s : State) : Res := .next (writePmuCtrl s v.toNat)

/-- PMU_SNAPSHOT (R604): a write of PMU_CTRL with SNAPSHOT. -/
def execPmuSnapshot (v : BitVec 32) (s : State) : Res := .next (writePmuCtrl s v.toNat)

/-- PMU_CLEAR_ALL (R612): a write of PMU_CTRL with CLEAR_ALL. -/
def execPmuClearAll (v : BitVec 32) (s : State) : Res := .next (writePmuCtrl s v.toNat)

/-- SAMP_ENABLE (R605): a write of PMU_CTRL that sets or clears SAMP_EN. -/
def execSampEnable (v : BitVec 32) (s : State) : Res := .next (writePmuCtrl s v.toNat)

/-- A write of PMU_CNT_VALUE: ignored while the counters run (R603). -/
def writePmuValue (s : State) (v : Nat) : State := if on s PMU_CTRL.FREEZE then storeSel s .PMU_CNT_VALUE v else s

/-- PMU_VALUE_WRITE (R603): a write of the selected counter. -/
def execPmuValueWrite (v : Word) (s : State) : Res := .next (writePmuValue s v.toNat)

/-- PMU_COUNTER_WRAP (R601): `n` counted in one cycle pass 2^48 − 1, and the counter wraps. -/
def execPmuCounterWrap (i : Fin 40) (n : Nat) (s : State) : Res :=
  .next (if on s PMU_CTRL.FREEZE ∨ fget s PMU_CNT_CFG.EN i 0 = 0 ∨ fget s PMU_CNT_VALUE.VALUE i 0 + n < 2 ^ 48 then s else pmuAdd s i n)

/-- A write of PMU_VF_GRANT: ignored for a confidential job's VF (R610, R611). -/
def writeGrant (s : State) (v : Nat) : State :=
  if s.conf (Fin.ofNat 16 (get1 s PMU_VF_SEL.VF)) then s else storeReg s .PMU_VF_GRANT (get1 s PMU_VF_SEL.VF) 0 v

/-- VF_GRANT_WRITE (R610): PF0 grants the selected VF read access to counters. -/
def execVfGrantWrite (v : Word) (s : State) : Res := .next (writeGrant s v.toNat)

/-- A write of PMU_SBUF_RD: ignored where it is not below the size (R609). -/
def writeSbufRd (s : State) (v : Nat) : State := if v < 2 ^ get1 s PMU_SBUF_CFG.LOG2_RECORDS then storeReg s .PMU_SBUF_RD 0 0 v else s

/-- SBUF_RD_WRITE (R609): the host frees sample records. -/
def execSbufRdWrite (v : BitVec 32) (s : State) : Res := .next (writeSbufRd s v.toNat)

/-! Sampling. -/

/-- The identity of a recipe instruction (R397). -/
def recipeId (seqCode slot gen pc : Nat) : Nat := seqCode * 2 ^ 29 + slot * 2 ^ 19 + gen * 2 ^ 11 + pc

/-- The load generation of a slot (R397): 0 for a firmware slot. -/
def slotGen (s : State) (slot : Nat) : Nat := if slot < 512 then 0 else fget s HIF_RCP_SLOT_INFO.GEN slot 0

/-- The number of a context. -/
def ctxNo (x : CtxId) : Nat := x.seq.val * 32 + x.ctx.val

/-- The context of a number. -/
def State.ctx? (s : State) (x : CtxId) : Option Ctx := lookup s.contexts (ctxNo x)

/-- Whether sampling counts the words of a context (R605, R611). -/
def sampled (s : State) (x : CtxId) (c : Ctx) : Bool :=
  on s PMU_CTRL.SAMP_EN && get1 s PMU_SAMP_CFG.PERIOD != 0 && bit (get1 s PMU_SAMP_CFG.SEQ_MASK) x.seq && !s.conf c.job &&
    (on s PMU_SAMP_CFG.JOB_ALL || get1 s PMU_SAMP_CFG.JOB == c.job.val)

/-- The words that an instruction issues, counted by the sampling countdown; it stops at 0, where a tag is due (R603, R605). -/
def issueWords (s : State) (x : CtxId) (c : Ctx) (n : Nat) : State :=
  if sampled s x c && !on s PMU_CTRL.FREEZE then { s with countdown := s.countdown - n } else s

/-- The countdown reloaded with its dither (R605). -/
def reload (s : State) : State :=
  let d := Config.lfsrNext s.lfsr
  { s with lfsr := d, countdown := get1 s PMU_SAMP_CFG.PERIOD + d.toNat % 2 ^ get1 s PMU_SAMP_CFG.DITHER }

/-- The cluster of a sequencer, here 0 for code 1 (R354, R519). -/
def seqCluster (q : Nat) : Nat :=
  match q with
  | 0 => 3
  | 1 => 2
  | 2 => 1
  | 3 => 1
  | 4 => 3
  | 5 => 3
  | _ => 4

/-- A tagged instruction followed from its issue (R606, R608). -/
def newTag (s : State) (x : CtxId) (c : Ctx) (pc : Nat) : Tag :=
  { number := s.tagNo, recipeId := recipeId (x.seq.val + 1) c.slot (slotGen s c.slot) pc, job := c.job.val, ctx := x.ctx.val,
    opc := iOpc (c.words.getD pc 0), doubtful := doubtful s, time := s.now, rate := fget s PLT_CLU_STAT.RATE_PCT (seqCluster x.seq) 0 }

/-- SAMPLE_TAG (R605, R606): the countdown has reached 0 and the module tags the instruction that owns the word, or skips it where 16 are in flight. -/
def execSampleTag (x : CtxId) (pc : Fin 1024) (s : State) : Res :=
  .next (match s.ctx? x with
    | none => s
    | some c =>
      if ¬ sampled s x c ∨ s.countdown ≠ 0 then s
      else if 16 ≤ s.tags.length then reload (countSat s PMU_SAMP_STAT.SKIPPED 0 0 1)
      else
        let t := reload { s with tags := s.tags ++ [newTag s x c pc], tagNo := (s.tagNo + 1) % 2 ^ 32 }
        set1 t PMU_SAMP_STAT.INFLIGHT t.tags.length)

/-- A sample record (R608). -/
def sampleBytes (t : Tag) (m : SampleMeasure) (lost : Bool) : Bytes :=
  toLe 4 t.recipeId ++ toLe 1 t.job ++ toLe 1 t.ctx ++ toLe 1 t.opc ++
    toLe 1 (flag m.faulted + 2 * flag m.aborted + 4 * flag m.replaced + 8 * flag t.doubtful + 16 * flag lost) ++ toLe 8 t.time ++
    toLe 4 (min m.latency (2 ^ 32 - 1)) ++ toLe 4 (min m.queue (2 ^ 32 - 1)) ++ toLe 1 t.rate ++ zeros 3 ++ toLe 4 t.number

/-- SAMPLE_RECORD_WRITE (R608, R609): a tagged instruction's latency ends and its record is written, or is lost where the buffer is full or the write fails. -/
def execSampleRecordWrite (n : Nat) (m : SampleMeasure) (s : State) : Res :=
  .next (match s.tags.find? (fun t => t.number == n) with
    | none => s
    | some t =>
      let s := { s with tags := s.tags.filter (fun u => u.number != n) }
      let s := set1 s PMU_SAMP_STAT.INFLIGHT s.tags.length
      let size := 2 ^ get1 s PMU_SBUF_CFG.LOG2_RECORDS
      let wr := get1 s PMU_SBUF_WR.WR
      if (wr + 1) % size = get1 s PMU_SBUF_RD.RD ∨ ¬ m.written then
        { ev (countSat s PMU_SAMP_STAT.LOST 0 0 1) PMU_EVENT.SBUF_EV with sampleLost := true }
      else
        let s := hostPut s (get1 s PMU_SBUF_BASE.ADDR * 4096 + 32 * wr) (sampleBytes t m s.sampleLost)
        { set1 s PMU_SBUF_WR.WR ((wr + 1) % size) with sampleLost := false })

end Sys2Proof.Machine
end

