-- ==== Sys2Proof/Machine/Events.lean ====
section
/-! DEFINITION. Tide's event table: arming, firing, holding and cancelling its entries (R502 to R507), and a phase's time in phase units (R500). -/

namespace Sys2Proof.Machine

/-- The length of a phase unit in nanoseconds (R500). -/
def phaseUnit : Nat := 65536

/-- The round phase at a time (R500). -/
def phaseAt (offer t : Nat) : Nat := min ((t - offer) / phaseUnit) (2 ^ 32 - 1)

/-- The PHASE entry of a job, round and phase code (R502). -/
def phaseEntry (j : JobId) (r p : Nat) : Nat := 16 * j.val + 8 * (r % 2) + p

/-- A WAIT_EVT told that event `e` fired: every invocation of the event's job notes it, and one that waits notes it once more (R376). -/
def noteEvent (e : Nat) (c : Ctx) : Ctx := { c with fired := if c.wait.isSome then e :: (e + 4096) :: c.fired else e :: c.fired }

/-- An entry fires (R505). -/
def fireEntry (s : State) (e : Nat) (late : Bool) : State :=
  let s := fset (fset s TIDE_EVT_STAT.FIRED e 0 1) TIDE_EVT_STAT.LATE e 0 (flag (late || s.passed.contains e))
  let s := count (fset s TIDE_EVT_STAT.HELD e 0 0) TIDE_EVT_STAT.COUNT e 0 1
  { s with
    passed := s.passed.filter (· != e)
    contexts := s.contexts.map (fun c => if (lookup s.armed e).map (·.job) = some c.2.job.val then (c.1, noteEvent e c.2) else c)
    armed := s.armed.map (fun a => if a.1 == e then (a.1, { a.2 with due := none }) else a) }

/-- An entry no longer armed. -/
def disarm (s : State) (e : Nat) : State :=
  { fset s TIDE_EVT_CFG.VALID e 0 0 with
    armed := dropKey s.armed e
    passed := s.passed.filter (· != e) }

/-- FIRED, HELD and LATE of an entry cleared, as it is armed or armed again (R504, R506). -/
def clearEntry (s : State) (e : Nat) : State := fset (fset (fset s TIDE_EVT_STAT.FIRED e 0 0) TIDE_EVT_STAT.HELD e 0 0) TIDE_EVT_STAT.LATE e 0 0

/-- An entry armed (R506). -/
def arm (s : State) (e : Nat) (a : Armed) : State :=
  let s := clearEntry s e
  { fset s TIDE_EVT_CFG.VALID e 0 1 with armed := putN s.armed e a }

/-- Whether an entry may not fire in doubtful time (R507). -/
def heldEntry (s : State) (e : Nat) : Bool := doubtful s && fget s TIDE_EVT_CFG.DOUBTFUL_OK e 0 == 0

/-- The eight PHASE entries of an accepted plan armed (R503). -/
def armPhases (s : State) (j : JobId) (r : Nat) (p : Bytes) : State :=
  (List.range 8).foldl (fun t i =>
    let e := phaseEntry j r i
    let at_ := if i = 0 then pOfferTime p else pTime p (i - 1)
    let v := (at_ - pOfferTime p + phaseUnit - 1) / phaseUnit
    let t := fset (fset t TIDE_EVT_CFG.JOB e 0 j.val) TIDE_EVT_CFG.PHASE e 0 v
    let t := fset (fset t TIDE_EVT_CFG.DOUBTFUL_OK e 0 1) TIDE_EVT_ROUND.ROUND e 0 r
    arm t e ⟨j.val, r, some r, v, some at_⟩) s

/-- Whether an armed entry is a USER entry that follows round `r` of a job from its Offer on (R504). -/
def followsRound (j : JobId) (r : Nat) (a : Nat × Armed) : Bool :=
  decide (512 ≤ a.1) && a.2.job == j.val && (a.2.named == 0 || a.2.named == r)

/-- The USER entries of a job follow a round whose Offer fires, armed again (R504, R506, assumption 99). -/
def followOffer (s : State) (j : JobId) (r offer : Nat) : State :=
  { (s.armed.filter (followsRound j r)).foldl (fun t a => clearEntry t a.1) s with
    armed := s.armed.map (fun a =>
      if followsRound j r a then (a.1, { a.2 with follows := some r, due := some (offer + a.2.value * phaseUnit) }) else a) }

/-- The USER entries that follow a round as it ends: one that has not fired fires LATE, and one that names the round is no longer valid (R504). -/
def unfollow (s : State) (j : JobId) (r : Nat) : State :=
  (s.armed.filter (fun a => decide (512 ≤ a.1) && a.2.job == j.val && (a.2.follows == some r || a.2.named == r))).foldl (fun t a =>
    let t := if a.2.due.isSome then fireEntry t a.1 true else t
    if a.2.named = 0 then { t with armed := putN t.armed a.1 { a.2 with follows := none, due := none } } else disarm t a.1) s

/-- The PHASE entries of a round cancelled as it ends. -/
def dropPhases (s : State) (j : JobId) (r : Nat) : State :=
  (List.range 8).foldl (fun t p => if (lookup t.armed (phaseEntry j r p)).map (·.named) = some r then disarm t (phaseEntry j r p) else t) s

/-- The held entries fire as time stops being doubtful, in order of time, then of number (R507). -/
def fireHeld (s : State) : State :=
  let held := s.armed.filter (fun a => fget s TIDE_EVT_STAT.HELD a.1 0 == 1 && a.2.due.isSome)
  let order := held.mergeSort (fun a b => decide (a.2.due.getD 0 < b.2.due.getD 0 ∨ a.2.due.getD 0 = b.2.due.getD 0 ∧ a.1 ≤ b.1))
  order.foldl (fun t a => fireEntry t a.1 true) s

/-- Whether an entry's time lies in a span that a step passes over. -/
def inSpan (before now : Nat) (a : Armed) : Bool := (a.due.map (fun d => decide (before < d ∧ d ≤ now))).getD false

/-- The entries whose time a forward step passes over fire at once with LATE set, or are held (R507): a USER entry here, a PHASE or WAKE entry with its own command. -/
def firePassed (s : State) (before : Nat) : State :=
  let span := (s.armed.filter (fun a => inSpan before s.now a.2)).map (·.1)
  let s := { s with passed := s.passed ++ span.filter (fun e => decide (e < 512)) }
  (span.filter (fun e => decide (512 ≤ e))).foldl (fun t e => if heldEntry t e then fset t TIDE_EVT_STAT.HELD e 0 1 else fireEntry t e true) s

end Sys2Proof.Machine
end

