-- ==== Sys2Proof/Machine/Shares.lean ====
section
/-! DEFINITION. Pilot's division of the shared unit classes among the jobs: the PLACEMENT loop (R513, R517, R518; assumptions 67 and 100). A class is named by its block code: 2 Toll cores, 3 Culture lanes, 5 Press arrays. -/

namespace Sys2Proof.Machine

/-- A mode's ceiling of a cluster in percent (table *Crossing-mode ceilings*, R46). -/
def ceiling (mode c : Nat) : Nat :=
  (match mode with
    | 1 => [100, 100, 100, 25, 10]
    | 2 => [50, 25, 100, 100, 10]
    | 3 => [50, 100, 100, 25, 100]
    | 4 => [50, 50, 50, 25, 10]
    | _ => [80, 80, 80, 80, 80]).getD c 0

/-- The units of each fenceable class (R587). -/
def unitCount : Nat → Nat
  | 1 => 16
  | 2 => 64
  | 3 => 128
  | 4 => 2048
  | 5 => 8
  | 6 => 8192
  | 7 => 32
  | 8 => 16
  | 9 => 64
  | 10 => 16
  | _ => 0

/-- The fenced units that the register file lists, as (block, unit). -/
def fencedUnits (s : State) : List (Nat × Nat) :=
  s.regs.filterMap (fun e => if e.1.reg == .TRI_UNIT_STATE && e.1.lo == 16 && e.2 == 1 then some (e.1.major, e.1.minor) else none)

/-- The live units of a class (R587). -/
def liveUnits (s : State) (k : Nat) : Nat := unitCount k - ((fencedUnits s).filter (fun e => e.1 == k)).length

/-- The units of a class that the crossing mode lets work (R46, R513). -/
def classTotal (s : State) (k : Nat) : Nat := liveUnits s k * ceiling (get1 s PLT_MODE.MODE) (if k = 5 then 3 else 1) / 100

/-- The least that a job asks of a class (PLT_JOB_SHARE). -/
def shareMin (s : State) (k : Nat) (j : JobId) : Nat :=
  fget s (if k = 2 then PLT_JOB_SHARE.TOLL_MIN else if k = 3 then PLT_JOB_SHARE.CUL_MIN else PLT_JOB_SHARE.ARRAYS_MIN) j 0

/-- The most that a job may have of a class (PLT_JOB_SHARE). -/
def shareMax (s : State) (k : Nat) (j : JobId) : Nat :=
  fget s (if k = 2 then PLT_JOB_SHARE.TOLL_MAX else if k = 3 then PLT_JOB_SHARE.CUL_MAX else PLT_JOB_SHARE.ARRAYS_MAX) j 0

/-- Whether a job has pending work of a class: secrets to reconstruct, streams to apply, invocations on the Press sequencer. -/
def classWork (s : State) (k : Nat) (j : JobId) : Bool :=
  if k = 2 then (s.job j).rounds.any (fun x => x.cohorts.any (fun c => c.2.secrets.any (fun e => !e.done)))
  else if k = 3 then (s.job j).rounds.any (fun x => x.cohorts.any (fun c => !c.2.masks.isEmpty))
  else s.contexts.any (fun e => e.1 / 32 == 0 && e.2.job == j)

/-- The jobs with pending work of a class, in ascending order. -/
def workers (s : State) (k : Nat) : List JobId := (List.finRange 16).filter (classWork s k)

/-- The sum of the jobs' MIN values of a class. -/
def minSum (s : State) (k : Nat) : Nat := ((List.finRange 16).map (shareMin s k)).sum

/-- A job's MIN of a class scaled down in proportion where fewer units are live than the MINs ask for, rounded down (R513). -/
def scaledMin (s : State) (k : Nat) (j : JobId) : Nat :=
  if minSum s k ≤ liveUnits s k then shareMin s k j else shareMin s k j * liveUnits s k / minSum s k

/-- A job's MIN as it can be met: of the units that scaling leaves over, one each goes to the lowest job numbers whose MIN was reduced (R513). -/
def metMin (s : State) (k : Nat) (j : JobId) : Nat :=
  let cut := (List.finRange 16).filter (fun i => decide (scaledMin s k i < shareMin s k i))
  let left := liveUnits s k - ((List.finRange 16).map (scaledMin s k)).sum
  scaledMin s k j + if (cut.take left).contains j then 1 else 0

/-- The share that the division in proportion to the pending work asks for, a part of a unit counted down (R513). -/
def wantedShare (s : State) (k : Nat) (j : JobId) : Nat :=
  let w := fun i => Config.pilotWork i k s.now + 1
  if classWork s k j then classTotal s k * w j / ((workers s k).map w).sum else 0

/-- A job's share of a class: inside its bounds while it has work, else none (R513). -/
def shareOf (s : State) (k : Nat) (j : JobId) : Nat :=
  if classWork s k j then min (max (wantedShare s k j) (metMin s k j)) (shareMax s k j) else 0

/-- The bound at which a class holds a job's share, if it holds it (R513, R518). -/
def heldAt (s : State) (k : Nat) (j : JobId) : Option Nat :=
  if metMin s k j < shareMin s k j then some (metMin s k j)
  else if ¬ classWork s k j then none
  else if wantedShare s k j < shareMin s k j then some (shareMin s k j)
  else if shareMax s k j < wantedShare s k j then some (shareMax s k j)
  else none

/-- The PLACEMENT loop of one job: pinned while a class holds its share at a bound (R518). -/
def placeJob (s : State) (j : JobId) : State :=
  match ([2, 3, 5].filterMap (fun k => heldAt s k j)).head? with
  | some b => pinLoop s j 5 b true
  | none => pinLoop s j 5 0 false

/-- The PLACEMENT loop of every job (R517). -/
def placementLoop (s : State) : State := ((List.finRange 16).filter (fun j => (s.job j).present)).foldl placeJob s

end Sys2Proof.Machine
end

