-- ==== Sys2Proof/Machine/Domains.lean ====
section
/-! DEFINITION. The power domains: their states and the times to enter and leave them (R618 to R623), the scheduled need of a cluster and the PSTATE loop (R524, R525). -/

namespace Sys2Proof.Machine

/-- The nanoseconds that entry into a state takes (R620). -/
def entryNs : Nat → Nat
  | 1 => 1
  | 2 => 2000
  | 3 => 100000
  | _ => 0

/-- The nanoseconds that exit from a state to P0 takes (R620). -/
def exitNs : Nat → Nat
  | 1 => 50
  | 2 => 20000
  | 3 => 2000000
  | _ => 0

/-- How long before a need its WAKE entry fires, for a sleeping state (R525). -/
def wakeLead (p : Nat) : Nat := exitNs p + max (exitNs p / 10) 5000

/-- The domain of a fenceable unit by block code (R587, R618). -/
def unitDomain (block unit : Nat) : Nat :=
  match block with
  | 1 => 3 + unit
  | 2 => 28 + unit / 16
  | 3 => 32 + unit / 32
  | 4 => 36 + 4 * (unit / 512) + unit % 512 / 128
  | 5 => 72 + unit
  | 6 => 82 + unit / 1024
  | 7 => 82 + unit / 4
  | 10 => 90 + unit / 8
  | _ => 80

/-- Whether a domain holds a fenced unit, and so keeps its state (R623). -/
def hasFenced (s : State) (d : Nat) : Bool := (fencedUnits s).any (fun u => unitDomain u.1 u.2 == d)

/-- Whether any job exists. -/
def anyJob (s : State) : Bool := (List.finRange 16).any (fun j => (s.job j).present)

/-- Whether a domain holds job data or key memory contents, so that it goes no deeper than P2 (R524, R621, assumption 16). -/
def holdsData (s : State) (d : Nat) : Bool :=
  let secrets := (List.finRange 16).any (fun j => (s.job j).rounds.any (fun x => x.cohorts.any (fun c => !c.2.secrets.isEmpty || !c.2.masks.isEmpty)))
  if d = 27 ∨ domCluster d = 2 then anyJob s
  else if 28 ≤ d ∧ d ≤ 35 then secrets
  else if 72 ≤ d ∧ d ≤ 79 then ((s.arrays.toList.getD (d - 72) .idle).tile0 != .zero || (s.arrays.toList.getD (d - 72) .idle).tile1 != .zero)
  else false

/-- A round's need of a cluster: the time of the next need, `now` where it is due (table *Scheduled need*). -/
def roundNeed (s : State) (c : Nat) (x : Round) : Option Nat :=
  let p := x.plan
  let n := x.phase.code
  let sl := pSealed p
  match c with
  | 0 => some (if n = 0 then pOfferTime p else s.now)
  | 1 =>
    if n = 0 then some (pOfferTime p) else if n = 1 then some (pTime p 0) else if n = 2 then some s.now
    else if n ≤ 5 then some (pTime p (if sl then 4 else 5))
    else if n = 6 then some (if sl then s.now else pTime p 5)
    else if n = 7 then some s.now else none
  | 3 => some (if n < 7 then pTime p 5 else s.now)
  | 4 => if ¬ sl then none else if n < 5 then some (pTime p 3) else if n ≤ 7 then some s.now else none
  | _ => none

/-- The next scheduled need of a cluster over every round of every job (R524). -/
def scheduledNeed (s : State) (c : Nat) : Option Nat :=
  if c = 2 ∧ anyJob s then some s.now
  else (((List.finRange 16).flatMap (fun j => (s.job j).rounds)).filterMap (roundNeed s c)).foldl (fun a t => match a with
    | none => some t
    | some b => some (min b t)) none

/-- The next need of a cluster: the scheduled one, or `now` where invocations run on it (R524). -/
def clusterNeed (s : State) (c : Nat) : Option Nat :=
  if s.contexts.any (fun e => seqCluster (e.1 / 32) == c) then some s.now else scheduledNeed s c

/-- Whether a need has come. -/
def needed (s : State) (need : Option Nat) : Bool := (need.map (fun t => decide (t ≤ s.now))).getD false

/-- The state that the gap to the next need gives (R524). -/
def gapState (g : Option Nat) : Nat :=
  match g with
  | none => 3
  | some n => if 50000000 ≤ n then 3 else if 200000 ≤ n then 2 else 1

/-- A domain begins to leave its state, or leaves it once its entry is complete; one with a fenced unit stays as it is (R622, R623). -/
def wakeDomain (s : State) (d : Nat) : State :=
  if hasFenced s d then s
  else match lookup s.domMoves d with
  | some (t, e) => if t = 0 ∨ 8 ≤ t then s else { s with domMoves := putN s.domMoves d (t + 8, e) }
  | none =>
    let p := fget s PWR_DOM_STATE.STATE d 0
    if p = 0 then s
    else { fset s PWR_DOM_STATE.CHANGING d 0 1 with domMoves := putN s.domMoves d (0, s.now + exitNs p) }

/-- A domain in P0 begins to enter a state. -/
def sleepDomain (s : State) (d p : Nat) : State :=
  if p = 0 ∨ fget s PWR_DOM_STATE.STATE d 0 ≠ 0 ∨ (lookup s.domMoves d).isSome then s
  else { fset s PWR_DOM_STATE.CHANGING d 0 1 with domMoves := putN s.domMoves d (p, s.now + entryNs p) }

/-- The WAKE entry of a domain (R502, R525, assumption 16). -/
def wakeEntry (d : Nat) : Nat := 256 + d

/-- A sleeping domain's WAKE entry armed for the next need (R525). -/
def armWake (s : State) (d p : Nat) (need : Option Nat) : State :=
  match need with
  | none => disarm s (wakeEntry d)
  | some t => arm (fset s TIDE_EVT_CFG.DOUBTFUL_OK (wakeEntry d) 0 1) (wakeEntry d) ⟨16, 0, none, 0, some (t - wakeLead p)⟩

/-- The PSTATE loop's pinned mark of a cluster (R518). -/
def pinPs (s : State) (c : Nat) (out : Bool) : State :=
  let was := fget s PLT_CLU_STAT.PINNED_PS c 0 == 1
  let s := fset s PLT_CLU_STAT.PINNED_PS c 0 (flag out)
  if out && !was then ev (logModule s 0x21 4 (fget s PLT_CLU_ENV.PS_LIMIT c 0)) PLT_EVENT.PINNED_EV else s

/-- The deepest state of any domain of a cluster (PLT_CLU_STAT.PS_DEEP). -/
def psDeep (s : State) (c : Nat) : Nat := (domainsOf c).foldl (fun a d => max a (fget s PWR_DOM_STATE.STATE d 0)) 0

/-- One domain under the PSTATE loop: woken at a need, late at a scheduled one, else put into the state of the gap, no deeper than the limit and than its data allow (R524, R622). -/
def pstateDomain (s : State) (c : Nat) (need : Option Nat) (late : Bool) (d : Nat) : State :=
  if needed s need then
    let s := if late ∧ fget s PWR_DOM_STATE.STATE d 0 ≠ 0 then ev s PWR_EVENT.WAKE_LATE_EV else s
    wakeDomain s d
  else if hasFenced s d then s
  else
    let want := gapState (need.map (fun t => t - s.now))
    let p := min want (fget s PLT_CLU_ENV.PS_LIMIT c 0)
    let p := if holdsData s d then min p 2 else p
    armWake (sleepDomain s d p) d p need

/-- The PSTATE loop of a cluster. -/
def pstateCluster (s : State) (c : Nat) : State :=
  let need := clusterNeed s c
  let idle := !needed s need
  let late := needed s (scheduledNeed s c)
  let s := (domainsOf c).foldl (fun t d => pstateDomain t c need late d) s
  let want := gapState (need.map (fun t => t - s.now))
  let s := pinPs s c (idle && decide (fget s PLT_CLU_ENV.PS_LIMIT c 0 < want))
  fset s PLT_CLU_STAT.PS_DEEP c 0 (psDeep s c)

/-- The PLACEMENT and PSTATE loops (R513, R524): they run as phases begin and rounds end. -/
def choosePower (s : State) : State := (List.range 5).foldl pstateCluster (placementLoop s)

/-- A field port's laser lit: its PORT_EN bit is 1, it is not fenced and its domain is in P0 (R618, R627, R649). -/
def lightPort (s : State) (p : Port) : State :=
  if bit (get1 s LND_CTRL.PORT_EN) p.val && fget s TRI_UNIT_STATE.STATE 1 p.val != 1 && fget s PWR_DOM_STATE.STATE (3 + p.val) 0 == 0 then
    emit s (.laser p.val true)
  else s

/-- A port's domain that has reached P0: the laser is lit, or the port has been disabled meanwhile and goes to P3 (R618). -/
def portAwake (s : State) (p : Port) : State :=
  if bit (get1 s LND_CTRL.PORT_EN) p.val then lightPort s p else sleepDomain s (3 + p.val) 3

/-- DOMAIN_STATE_DONE (R620, R622): a domain's entry or exit completes; a wake request that met an entry begins its exit at once. -/
def execDomainStateDone (d : Fin 96) (s : State) : Res :=
  .next (match lookup s.domMoves d.val with
    | none => s
    | some (t, e) =>
      if s.now < e then s
      else
        let old := fget s PWR_DOM_STATE.STATE d 0
        let s := { fset (fset s PWR_DOM_STATE.STATE d 0 (t % 8)) PWR_DOM_STATE.CHANGING d 0 0 with domMoves := dropKey s.domMoves d.val }
        let s := if t = 0 ∧ 2 ≤ old then countSat s PWR_DOM_STATE.WAKES d 0 1 else s
        let s := if 8 ≤ t then wakeDomain s d else s
        let s := if t = 0 ∧ 3 ≤ d.val ∧ d.val ≤ 18 then portAwake s (Fin.ofNat 16 (d.val - 3)) else s
        let c := domCluster d
        if c ≤ 4 then fset s PLT_CLU_STAT.PS_DEEP c 0 (psDeep s c) else s)

end Sys2Proof.Machine
end

