-- ==== Sys2Proof/Machine/Invocations.lean ====
section
/-! DEFINITION. Invocations: contexts (R355), the checks of a descriptor invocation (R364, R365), the result record (R394) and the end of an invocation (R389, R390). -/

namespace Sys2Proof.Machine

/-- The recipe statuses (R393). -/
inductive RStat where
  | ok | phaseRefused | slotRefused | abiMismatch | badEncoding | operandMalformed | outOfBounds | protectedRange | timeout
  | engineStatus | jobAborted | engineReset | argCount | slotBusy | digestMismatch | privilegedOp | badStructure | storeFull
  deriving DecidableEq, Repr

/-- A recipe status's value. -/
def RStat.code : RStat → Nat
  | .ok => 0
  | .phaseRefused => 1
  | .slotRefused => 2
  | .abiMismatch => 3
  | .badEncoding => 4
  | .operandMalformed => 5
  | .outOfBounds => 6
  | .protectedRange => 7
  | .timeout => 8
  | .engineStatus => 9
  | .jobAborted => 10
  | .engineReset => 11
  | .argCount => 12
  | .slotBusy => 13
  | .digestMismatch => 14
  | .privilegedOp => 15
  | .badStructure => 16
  | .storeFull => 17

/-- A context set. -/
def State.setCtx (s : State) (x : CtxId) (c : Ctx) : State := { s with contexts := putN s.contexts (ctxNo x) c }

/-- A recipe of a slot: its sequencer code, class, argument count and words (R356). -/
def recipeOf (s : State) (slot : Nat) : Option (Nat × Nat × Nat × List Word) :=
  if 1024 ≤ slot then none
  else if slot < 512 then
    if get1 s PWR_STATUS.BOOT_STAGE = 0 then none
    else Config.fwRecipe (BitVec.ofNat 384 (beNat (List.flatten ((List.range 6).map (fun n => toLe 8 (fget s KST_FW_DIGEST.DIGEST 0 n)))))) slot
  else if fget s HIF_RCP_SLOT_INFO.VALID slot 0 = 1 then
    some (fget s HIF_RCP_SLOT_INFO.SEQ slot 0, fget s HIF_RCP_SLOT_INFO.CLASS slot 0, fget s HIF_RCP_SLOT_INFO.ARGS slot 0, readD [] s.store slot)
  else none

/-- The contexts of a sequencer that a job uses. -/
def usedBy (s : State) (q : Nat) (j : JobId) : Nat := (s.contexts.filter (fun c => c.1 / 32 == q && c.2.job == j)).length

/-- The jobs that exist. -/
def presentJobs (s : State) : List JobId := (List.finRange 16).filter (fun j => (s.job j).present)

/-- Whether a job may take a context: one of its two, or a shared one (R355). -/
def mayTake (s : State) (q : Nat) (j : JobId) : Bool :=
  usedBy s q j < 2 ||
    decide ((((presentJobs s).map (fun k => usedBy s q k - 2)).sum) < 32 - 2 * (presentJobs s).length)

/-- The lowest free context of a sequencer for a job. -/
def freeCtx (s : State) (q : Nat) (j : JobId) : Option (Fin 32) :=
  if mayTake s q j then (List.finRange 32).find? (fun c => (lookup s.contexts (q * 32 + c.val)).isNone) else none

/-- Whether a phase refuses a sequencer's host invocations (R365). -/
def phaseRefuses (q : Nat) (p : Phase) (sealing : Bool) : Bool :=
  match q with
  | 1 => p == .finish || p == .gate || p == .release
  | 5 => p == .finish || p == .gate || p == .release
  | 7 => sealing && (p == .close || p == .unmask)
  | 3 => true
  | 4 => true
  | _ => false

/-- Checks 1 to 3 of a descriptor invocation (R364): the recipe, or the status. -/
def invokeCheck (s : State) (j : JobId) (slot args : Nat) : Except RStat (Nat × List Word) :=
  match recipeOf s slot with
  | none => .error .slotRefused
  | some (q, cls, n, ws) =>
    if cls ≠ 0 ∨ 512 ≤ slot ∧ (fget s HIF_RCP_SLOT_INFO.OWNER slot 0 ≠ j.val ∨ s.conf j) then .error .slotRefused
    else if n ≠ args then .error .argCount
    else if (s.job j).rounds.any (fun x => x.offerDone && phaseRefuses q x.phase (pSealed x.plan)) then .error .phaseRefused
    else .ok (q, ws)

/-- The recipe of an invocation: a round core may invoke one of either class that its job holds, and names what it serves (R28, R357, R358). -/
def coreCheck (s : State) (j : JobId) (slot : Nat) : Except RStat (Nat × List Word) :=
  match recipeOf s slot with
  | none => .error .slotRefused
  | some (q, _, _, ws) => if 512 ≤ slot ∧ fget s HIF_RCP_SLOT_INFO.OWNER slot 0 ≠ j.val then .error .slotRefused else .ok (q, ws)

/-- The checks of an invocation, from a descriptor or by a round core. -/
def invocationCheck (s : State) (w : Waiting) : Except RStat (Nat × List Word) :=
  if w.fromHost.isSome then invokeCheck s w.job w.slot w.args.length else coreCheck s w.job w.slot

/-- A fresh context (R363). -/
def newCtx (s : State) (w : Waiting) (ws : List Word) : Ctx where
  job := w.job
  slot := w.slot
  words := ws
  fromHost := w.fromHost
  round := w.round
  pc := 0
  regs := (List.range 32).map (fun i => BitVec.ofNat 64 (w.args.getD i 0))
  loops := []
  issued := []
  count := 0
  cond := 0
  layer := none
  ending := none
  start := s.now
  fired := []
  wait := none
  tiles := []
  chains := []
  roundKey := none
  elems := 0
  group := none
  provisional := false
  anchors := []
  chainNo := 0

/-- The result record of an invocation (R394). -/
def resultRecord (st : RStat) (space detail cond rid issued : Nat) : Bytes :=
  toLe 1 st.code ++ toLe 1 space ++ toLe 2 detail ++ toLe 4 cond ++ toLe 4 rid ++ toLe 4 (min issued (2 ^ 32 - 1))

/-- An INVOKE's completion (R426); FLAGS take PROVISIONAL and UNDER_CHECKED (R424). -/
def postInvoke (s : State) (j : JobId) (tag : Nat) (irq : Bool) (st : RStat) (flags : Nat) (record : Bytes) : State :=
  post s (vfOf j) ⟨1, if st = .ok then 0 else 9, tag, record, flags, irq⟩

/-- An invocation refused before its first instruction (R364); a round core's has no completion. -/
def refuseInvoke (s : State) (w : Waiting) (st : RStat) : State :=
  match w.fromHost with
  | none => s
  | some (tag, irq) => postInvoke s w.job tag irq st 0 (resultRecord st 0 0 0 (w.slot * 2 ^ 19) 0)

/-- The invocations that run a slot's recipe (HIF_RCP_SLOT_INFO.RUNNING). -/
def runningOn (s : State) (slot : Nat) : Nat := (s.contexts.filter (fun c => c.2.slot == slot)).length

/-- An invocation starts in a free context, or waits for one (R355, R364). -/
def startInvoke (s : State) (w : Waiting) : State :=
  match invocationCheck s w with
  | .error st => refuseInvoke s w st
  | .ok (q, ws) =>
    match freeCtx s (q - 1) w.job with
    | none => { s with waiting := s.waiting ++ [w] }
    | some c => { s with contexts := putN s.contexts ((q - 1) * 32 + c.val) (newCtx s w ws) }

/-- Whether an invocation waits behind another of its job for a context of the same sequencer (R355). -/
def waitsBehind (s : State) (w : Waiting) : Bool :=
  s.waiting.any (fun v => v.job == w.job && (recipeOf s v.slot).map (·.1) == (recipeOf s w.slot).map (·.1))

/-- The waiting invocations tried again, each job's on one sequencer in order of arrival (R355). -/
def resumeInvokes (s : State) : State :=
  s.waiting.foldl (fun t w => if waitsBehind t w then { t with waiting := t.waiting ++ [w] } else startInvoke t w) { s with waiting := [] }

/-- The identity of an invocation's instruction at a word (R397). -/
def ctxRecipeId (s : State) (x : CtxId) (c : Ctx) (pc : Nat) : Nat := recipeId (x.seq.val + 1) c.slot (slotGen s c.slot) pc

/-- A fault of an invocation from a descriptor recorded (R396). -/
def recordFault (s : State) (j : JobId) (st : RStat) (rid : Nat) : State :=
  let s := set1 (set1 (set1 (set1 s HIF_RCP_FAULT.VALID 1) HIF_RCP_FAULT.JOB j.val) HIF_RCP_FAULT.STATUS st.code) HIF_RCP_FAULT.RECIPE_ID rid
  let s := ev s HIF_RCP_EVENT.FAULT_EV
  if st = .timeout then ev s HIF_RCP_EVENT.TIMEOUT_EV else s

/-- The work of an ended invocation leaves the arrays: its pending drains and its MACs (R209, R390). -/
def freeArrays (s : State) (x : CtxId) : State :=
  { s with arrays := s.arrays.map (fun a =>
      { a with drains := a.drains.filter (fun d => d.x != x), macs := a.macs.filter (fun m => m.1 != ctxNo x) }) }

/-- A check group of a job that is complete: it is no longer pending, and is recorded where its fraction was below the wanted one (R523, R582). -/
def completeGroup (s : State) (j : JobId) (seq : Nat) : State :=
  match s.groups.find? (fun g => g.seq == seq && g.job == j) with
  | none => s
  | some g =>
    let s := { s with groups := s.groups.erase g }
    let s := fset s TRI_JOB_CHECK.PENDING j 0 (fget s TRI_JOB_CHECK.PENDING j 0 - 1)
    if g.frac < g.want then logJob s j 0x22 0 g.seq g.frac else s

/-- The check group of an ended invocation: complete, or left behind with the CSEQ of its completion (R584). -/
def leaveGroup (s : State) (j : JobId) (seq : Nat) (cseq : Option Nat) : State :=
  if s.groups.any (fun g => g.seq == seq && g.job == j && !g.chains.isEmpty) then
    { s with groups := s.groups.map (fun g => if g.seq == seq && g.job == j then { g with x := none, cseq := cseq } else g) }
  else completeGroup s j seq

/-- The FORMAT and ANCHOR of the tensors that an invocation wrote, as it completes (R274). -/
def writeHeaders (s : State) (c : Ctx) : State :=
  c.anchors.foldl (fun t e => jobWrite (jobWrite t c.job e.1 (toLe 1 e.2.1)) c.job (e.1 + 2) (toLe 1 e.2.2)) s

/-- An invocation ends: its context is freed, and its completion and its fault record are written (R389, R390, R394, R396, R584). -/
def endInvoke (s : State) (x : CtxId) (st : RStat) (space detail pc : Nat) : State :=
  match s.ctx? x with
  | none => s
  | some c =>
    let rid := ctxRecipeId s x c pc
    let prov := c.provisional && st == .ok
    let flags := 2 * flag prov + 4 * flag (bit c.cond 9)
    let s := freeArrays { writeHeaders s c with
      contexts := dropKey s.contexts (ctxNo x)
      locks := s.locks.filter (fun l => l.ctx != ctxNo x)
      lockWait := s.lockWait.filter (fun w => w.ctx != ctxNo x) } x
    let cseq := (s.ring (vfOf c.job)).cseq
    let s := match c.group with
      | none => s
      | some g =>
        let s := leaveGroup s c.job g (if prov then some cseq else none)
        if prov then logJob s c.job 0x24 (c.round.getD 0) g cseq else s
    let s := match c.fromHost with
      | none => s
      | some (tag, irq) =>
        let s := if st = .ok ∨ st = .engineStatus ∨ st = .jobAborted ∨ st = .engineReset then s else recordFault s c.job st rid
        postInvoke s c.job tag irq st flags (resultRecord st space detail c.cond rid c.count)
    resumeInvokes s

end Sys2Proof.Machine
end

