-- ==== Sys2Proof/Machine/KeySlots.lean ====
section
/-! DEFINITION. The Key Store's slots: integrity tags (R537), use (R536, R539), filling and erasing, and a job's seven slots (R541). -/

namespace Sys2Proof.Machine

/-- The statuses of status space 6 (R566). -/
inductive SStat where
  | ok | entropyFailed | slotEmpty | slotBad | slotExpired | slotDenied | useLimit | integrityFail | importFail
  deriving DecidableEq, Repr

/-- A security status's value. -/
def SStat.code : SStat → Nat
  | .ok => 0
  | .entropyFailed => 1
  | .slotEmpty => 2
  | .slotBad => 3
  | .slotExpired => 4
  | .slotDenied => 5
  | .useLimit => 6
  | .integrityFail => 7
  | .importFail => 8

/-- The attribute bytes of a slot, as its tag covers them: type, owner, uses, expiry and limit (R537, assumption 15). -/
def slotAttrs (s : State) (n : Nat) : Bytes :=
  toBe 1 (fget s KST_SLOT_INFO.TYPE n 0) ++ toBe 1 (fget s KST_SLOT_INFO.OWNER n 0) ++ toBe 1 (fget s KST_SLOT_INFO.USES n 0) ++
    toBe 1 (fget s KST_SLOT_INFO.EXPIRE n 0) ++ toBe 4 (fget s KST_SLOT_USE.LIMIT n 0)

/-- The integrity tag of a slot (R537). -/
def slotTag (s : State) (n : Nat) : Bytes := (hmac s.tagKey (toBe 1 n ++ slotAttrs s n ++ readD [] s.keyMat n)).take 16

/-- A slot filled: its key, attributes and tag; the use count starts at 0 (R535, R537). -/
def fillSlot (s : State) (n type owner uses expire limit : Nat) (key : Bytes) : State :=
  let s := fset (fset (fset s KST_SLOT_INFO.STATE n 0 1) KST_SLOT_INFO.TYPE n 0 type) KST_SLOT_INFO.OWNER n 0 owner
  let s := fset (fset s KST_SLOT_INFO.USES n 0 uses) KST_SLOT_INFO.EXPIRE n 0 expire
  let s := fset (fset s KST_SLOT_USE.LIMIT n 0 limit) KST_SLOT_USE.COUNT n 0 0
  let s := { s with keyMat := putN s.keyMat n key }
  { s with keyTag := putN s.keyTag n (slotTag s n) }

/-- A slot erased: no key and EMPTY (R540); a BAD slot stays BAD. -/
def eraseSlot (s : State) (n : Nat) : State :=
  let s := { s with keyMat := dropKey s.keyMat n, keyTag := dropKey s.keyTag n }
  if fget s KST_SLOT_INFO.STATE n 0 = 2 then s else fset s KST_SLOT_INFO.STATE n 0 0

/-- The slots that are not BAD, as KST_STATUS.USABLE counts them (R538). -/
def usableSlots (s : State) : Nat := ((List.range 256).filter (fun n => fget s KST_SLOT_INFO.STATE n 0 != 2)).length

/-- A slot that failed its tag (R537). -/
def integrityFailure (s : State) (n : Nat) : State :=
  let s := ev (fset s KST_SLOT_INFO.STATE n 0 2) KST_EVENT.INTEG_EV
  set1 s KST_STATUS.USABLE (usableSlots s)

/-- A use of a slot by an agent (a job's number, 16 firmware, 17 PF0), of a type, for a use bit (R536, R537, R539). An erased slot whose tag entry is empty was erased at a reset. -/
def useSlot (s : State) (n agent type useBit : Nat) : SStat × State :=
  let st := fget s KST_SLOT_INFO.STATE n 0
  if st = 0 then (if lookup s.keyTag n = some [] then .slotExpired else .slotEmpty, ev s KST_EVENT.DENIED_EV)
  else if st = 2 then (.slotBad, ev s KST_EVENT.DENIED_EV)
  else if fget s KST_SLOT_INFO.OWNER n 0 ≠ agent ∨ fget s KST_SLOT_INFO.TYPE n 0 ≠ type ∨ ¬ bit (fget s KST_SLOT_INFO.USES n 0) useBit then
    (.slotDenied, ev s KST_EVENT.DENIED_EV)
  else if readD [] s.keyTag n ≠ slotTag s n then (.integrityFail, integrityFailure s n)
  else if fget s KST_SLOT_USE.LIMIT n 0 ≠ 0 ∧ fget s KST_SLOT_USE.LIMIT n 0 ≤ fget s KST_SLOT_USE.COUNT n 0 then
    (.useLimit, ev s KST_EVENT.DENIED_EV)
  else (.ok, count s KST_SLOT_USE.COUNT n 0 1)

/-- The key material of a slot as a number. -/
def slotNumber (s : State) (n : Nat) : Nat := beNat (readD [] s.keyMat n)

/-- A slot of a job by its place in the table *Job key slots*; no slot of the store where the job has none. -/
def Job.slotAt (J : Job) (i : Nat) : Nat := J.slots.getD i 256
/-- The OFFER slot. -/
def Job.offerSlot (J : Job) : Nat := J.slotAt 1
/-- The IMPORT slot. -/
def Job.importSlot (J : Job) : Nat := J.slotAt 2
/-- The ROUND slot of a round (R41, R541). -/
def Job.roundSlot (J : Job) (r : Nat) : Nat := J.slotAt (3 + r % 2)
/-- The BUNDLE slot of a round. -/
def Job.bundleSlot (J : Job) (r : Nat) : Nat := J.slotAt (5 + r % 2)

end Sys2Proof.Machine
end

