-- ==== Sys2Proof/Machine/Sends.lean ====
section
/-! DEFINITION. What the transport makes of an inbound SEND before its message goes on: the drop, the PSN and the acknowledgement (R457, R467, R468, R472, R475, R480), and the notices of a PEER queue pair (R475, R585, R586). -/

namespace Sys2Proof.Machine

/-- Whether a port is enabled (R453). -/
def portOn (s : State) (p : Port) : Bool := bit (get1 s LND_CTRL.PORT_EN) p.val

/-- A frame dropped by a port (R454). -/
def dropFrame (s : State) (p : Port) : State := count s RDMA_PORT_STAT.DROPPED p 0 1

/-- The job of a queue pair. -/
def qpJob (s : State) (q : Nat) : JobId := Fin.ofNat 16 (fget s RDMA_QP_CFG.JOB q 0)

/-- A negative acknowledgement sent, sealed on a sealed queue pair: all but a PSN sequence error move the queue pair to ERROR (R467, R468, R489). -/
def sendNak (s : State) (q psn : Nat) (n : Nak) : State :=
  let out := wireOf s q psn [] []
  let s := emit out.2 (.rdma q psn (some n) out.1)
  match n with
  | .psn => s
  | .access => qpError (countSat s RDMA_ERR.ACCESS_NAK 0 0 1) q 1
  | .invalid => qpError (countSat s RDMA_ERR.INVALID_NAK 0 0 1) q 2
  | .operational => qpError s q 3

/-- An acknowledgement or a response sent (R472, R489). -/
def sendAckTo (s : State) (q psn : Nat) (data : Bytes) : State :=
  let out := wireOf s q psn [] data
  emit out.2 (.rdma q psn none out.1)

/-! Peer notices. -/

/-- Whether a notice matches the queue pair's job, a round of it and its peer (R585, R586): a peer is known from its first notice on. -/
def noticeOk (s : State) (q : Nat) (type : Nat) (c : Bytes) : Bool :=
  let j := qpJob s q
  c.length == 32 && decide (1 ≤ type ∧ type ≤ 3) && beAt c 0 1 == type && (s.job j).present && beAt c 4 4 == fget s LND_JOB_TAG.TAG j 0 && (s.round? j (beAt c 8 4)).isSome &&
    decide (beAt c 2 2 < fget s VAT_JOB_CTRL.PEERS_EXPECTED j 0) &&
    (match (s.qp q).stream with
      | none => type == 1
      | some (i, _) => i == beAt c 2 2)

/-- What a notice does: STREAM opens a stream, RETRACT and RETRACT_DONE are recorded in the job's log (R586). -/
def noticeAct (s : State) (q type : Nat) (c : Bytes) : State :=
  let j := qpJob s q
  match type with
  | 1 => s.modQp q (fun x => { x with stream := some (beAt c 2 2, beAt c 12 4) })
  | 2 => ev (logJob s j 0x27 (beAt c 8 4) (beAt c 12 4) (beAt c 2 2)) TRI_EVENT.RETRACT_EV
  | _ => logJob s j 0x28 (beAt c 8 4) (beAt c 12 4) (beAt c 2 2)

/-- A SEND on a PEER queue pair taken as a notice of a type: dropped and counted where it does not match (R475, R586). -/
def peerNotice (s : State) (q type : Nat) (c : Bytes) : State :=
  if noticeOk s q type c then noticeAct s q type c else countSat s TRI_FAILS.NOTICE_BAD 0 0 1

/-! The transport's steps for a SEND. -/

/-- The port of a queue pair. -/
def qpPort (s : State) (q : Nat) : Port := Fin.ofNat 16 (fget s RDMA_QP_CFG.PORT q 0)

/-- Whether a SEND passes the first check: its queue pair in RTR or RTS on a port that is enabled, and keyed where it is sealed (R453, R467, R480, R490). -/
def sendReaches (s : State) (q : Nat) : Bool :=
  portOn s (qpPort s q) && (qpState s q == 2 || qpState s q == 3) && canSend s q

/-- A SEND taken by the transport: outside RTR and RTS it is dropped; on an RC queue pair it takes its PSNs, and is acknowledged as it enters the receive path, but on an ACCESS queue pair it is an invalid request (R457, R467, R472, R480). -/
def takeSend (s : State) (q : Nat) (c : Bytes) : State :=
  let p := qpPort s q
  if ¬ sendReaches s q then
    if portOn s p ∧ qpState s q ≠ 2 ∧ qpState s q ≠ 3 then dropFrame s p else s
  else if fget s RDMA_QP_CFG.TYPE q 0 = 1 then s
  else
    let e := fget s RDMA_QP_PSN.RQ_PSN q 0
    let n := psnCount s q c.length
    let s := fset s RDMA_QP_PSN.RQ_PSN q 0 (e + n)
    if fget s RDMA_QP_CFG.CLASS q 0 = 2 then sendNak s q e .invalid else sendAckTo s q ((e + n - 1) % 2 ^ 24) []

/-- Whether a SEND is one of a PEER queue pair's. -/
def peerSend (s : State) (q : Nat) : Bool := sendReaches s q && fget s RDMA_QP_CFG.CLASS q 0 == 1

/-- The message of a chunk's row after the transport: on a PEER queue pair it is taken as the notice that its first byte names (R475). -/
def takeChunk (s : State) (q : Nat) (c : Bytes) : State :=
  let t := takeSend s q c
  if peerSend s q then peerNotice t q (beAt c 0 1) c else t

end Sys2Proof.Machine
end

