-- ==== Sys2Proof/Machine/Landing.lean ====
section
/-! DEFINITION. Landing: the order of checks (R77), acknowledgements (R73, R74), error counts and quarantine (R96), the admission of each chunk type, admission transactions (R78 to R83), credit (R93) and the front-ends' registers (R91). -/

namespace Sys2Proof.Machine

/-- Whether a front-end is enabled and its job (R91). -/
def feValid (s : State) (fe : Nat) : Bool := fget s LND_FE_CFG.VALID fe 0 == 1

/-- The job of a front-end. -/
def feJob (s : State) (fe : Nat) : JobId := Fin.ofNat 16 (fget s LND_FE_CFG.JOB fe 0)

/-- The slots of a front-end's range; 0 means 2^24 (R91). -/
def feCount (s : State) (fe : Nat) : Nat := let n := fget s LND_FE_CFG.SLOT_COUNT fe 0; if n = 0 then 2 ^ 24 else n

/-- Whether a slot lies in a front-end's range (R91). -/
def feHas (s : State) (fe slot : Nat) : Bool :=
  decide (fget s LND_FE_CFG.SLOT_BASE fe 0 ≤ slot) && decide (slot < fget s LND_FE_CFG.SLOT_BASE fe 0 + feCount s fe)

/-- The credit of a front-end at this moment (R91, R93, R95); CREDIT_MIN until the first computation. -/
def creditOf (s : State) (fe : Nat) : Nat :=
  let now := fget s LND_FE_STATE.CREDIT_NOW fe 0
  if feValid s fe ∧ fget s LND_FE_CFG.VERSION3 fe 0 = 1 ∧ now ≠ 0 then now else fget s LND_FE_CREDIT.CREDIT_MIN fe 0

/-- The front-ends that the register file lists. -/
def listedFes (s : State) : List Nat :=
  (s.regs.filterMap (fun e => if e.1.reg == .LND_FE_CFG && e.1.lo == 59 then some e.1.major else none))

/-- The enabled front-ends of a job. -/
def fesOf (s : State) (j : JobId) : List Nat := (listedFes s).filter (fun f => feValid s f && feJob s f == j)

/-- The lowest-numbered RC queue pair of a front-end in RTS (R69, assumption 14). -/
def feQp (s : State) (fe : Nat) : Option Nat :=
  (qpsWhere s (fun q => fget s RDMA_QP_CFG.FE q 0 == fe && fget s RDMA_QP_CFG.CLASS q 0 == 0 && fget s RDMA_QP_CFG.TYPE q 0 == 0 && qpState s q == 3)).foldl
    (fun a q => match a with
      | none => some q
      | some b => some (min q b)) none

/-! The Roster. -/

/-- The module-wide entry of a job's slot (R101). -/
def entryNo (s : State) (j : JobId) (slot : Nat) : Nat := fget s ROS_JOB_RANGE.BASE j 0 + slot

/-- The Roster entry of a slot for a round: FREE where it holds an earlier round (R103). -/
def entryOf (s : State) (j : JobId) (r slot : Nat) : Entry :=
  let e := readD Entry.free s.roster (entryNo s j slot)
  if e.valid ∧ e.round = r then e else .free

/-- The set of the Roster cache that an entry belongs to: 16,384 sets of 16 ways (R107, assumption 25). -/
def cacheSet (n : Nat) : Nat := n % 16384

/-- The entry that leaves the cache as entry n comes in: where its set is full, the one that came into it first (R107, assumption 25). -/
def cacheVictim (s : State) (n : Nat) : Option Nat :=
  let ways := s.cached.filter (fun m => cacheSet m == cacheSet n)
  if ways.length < 16 then none else ways.getLast?

/-- A lookup of an entry through the cache: a miss brings the entry in, and the entry that leaves is written back (R107). -/
def cacheLookup (s : State) (j : JobId) (n : Nat) : State :=
  if on s ROS_CTRL.CACHE_EN ∧ s.cached.contains n = false then
    let v := cacheVictim s n
    let keep := fun m => v != some m
    let s := { s with cached := n :: s.cached.filter keep, dirty := s.dirty.filter keep }
    pmu (set1 s ROS_CACHE_OCC.VALID s.cached.length) 0x05 (some j) 1
  else s

/-- An entry changed: the cache holds it dirty (R107). -/
def modEntry (s : State) (j : JobId) (slot : Nat) (g : Entry → Entry) : State :=
  let n := entryNo s j slot
  let s := cacheLookup { s with roster := putN s.roster n (g (readD Entry.free s.roster n)) } j n
  if on s ROS_CTRL.CACHE_EN then { s with dirty := if s.dirty.contains n then s.dirty else n :: s.dirty } else s

/-- What step 9 judges by: the close record once Close has fixed the round, else the Roster entry (R104). -/
structure Look where
  fe : Nat
  job : JobId
  r : Nat
  slot : Nat
  x : Round
  state : CState
  withdrawn : Bool
  unmaskAdm : Bool
  key : Option KeyRec
  deriving DecidableEq, Repr

/-- The view of a slot in a round. -/
def lookAt (s : State) (fe : Nat) (j : JobId) (x : Round) (slot : Nat) : Look :=
  let key := lookup x.keys slot
  if x.closed then
    match lookup x.closeTable slot with
    | some c => ⟨fe, j, x.number, slot, x, c.state, c.withdrawn, c.unmaskAdm, key⟩
    | none => ⟨fe, j, x.number, slot, x, .FREE, false, false, key⟩
  else
    let e := entryOf s j x.number slot
    ⟨fe, j, x.number, slot, x, e.state, e.state == .WITHDRAWN, e.unmaskAdm, key⟩

/-- The Roster lookup of step 9; a round past Close is judged by its close records (R104, R107). -/
def lookupEntry (s : State) (l : Look) : State := if l.x.closed then s else cacheLookup s l.job (entryNo s l.job l.slot)

/-- A change of a slot's record: the close record or the Roster entry (R104). -/
def modRec (s : State) (l : Look) (g : Entry → Entry) (h : CloseRec → CloseRec) : State :=
  if l.x.closed then
    s.modRound l.job l.r (fun x => { x with closeTable := x.closeTable.map (fun e => if e.1 == l.slot then (e.1, h e.2) else e) })
  else if (entryOf s l.job l.r l.slot).state == .FREE then s else modEntry s l.job l.slot g

/-- The last SEQ sent to a client in a round (R59). -/
def msgSeq (s : State) (l : Look) : Nat :=
  if l.x.closed then ((lookup ((s.round? l.job l.r).map (·.closeTable)).toList.flatten l.slot).map (·.msgSeq)).getD 0
  else (entryOf s l.job l.r l.slot).msgSeq

/-- A client's message sequence advanced. -/
def nextSeq (s : State) (l : Look) : State :=
  modRec s l (fun e => { e with msgSeq := (e.msgSeq + 1) % 2 ^ 32 }) (fun c => { c with msgSeq := (c.msgSeq + 1) % 2 ^ 32 })

/-! Acknowledgements. -/

/-- A JLP header as the module builds it. -/
def moduleHeader (version type flags tag round slot index len seq : Nat) : Bytes :=
  toBe 1 version ++ toBe 1 type ++ toBe 2 flags ++ toBe 4 tag ++ toBe 4 round ++ toBe 4 slot ++ toBe 4 index ++ toBe 4 len ++ toBe 4 seq ++ zeros 4

/-- An ACK for a chunk (R73): signed under a key record's k_m2c with a fresh SEQ, else unsigned (R74). -/
def ackBytes (s : State) (c : Bytes) (st : JStat) (fe : Nat) (key : Option (Key256 × Nat)) : Bytes :=
  let body := toBe 1 (hType c) ++ [0] ++ toBe 2 st.code ++ (if hVersion c = 2 then [] else toBe 4 (creditOf s fe))
  match key with
  | some (k, seq) =>
    let h := moduleHeader (hVersion c) 0x85 2 (hJobTag c) (hRound c) (hSlot c) (hIndex c) body.length seq
    h ++ body ++ (gcmSeal k (chunkNonce 2 0x85 (hIndex c) seq) (h ++ body) []).2
  | none => moduleHeader (hVersion c) 0x85 0 (hJobTag c) (hRound c) (hSlot c) (hIndex c) body.length 0 ++ body

/-- An ACK sent on a queue pair; nothing is delivered while it is in ERROR (R480). -/
def sendAck (s : State) (q : Nat) (c : Bytes) (st : JStat) (fe : Nat) (signer : Option Look) : State :=
  let s := count s LND_STATUS_CNT.COUNT st.code 0 1
  match signer.bind (fun l => l.key.map (fun k => (l, k))) with
  | some (l, k) =>
    let s := nextSeq s l
    if qpState s q = 4 then s else sendChunk s q (ackBytes s c st fe (some (k.m2c, msgSeq s l)))
  | none => if qpState s q = 4 then s else sendChunk s q (ackBytes s c st fe none)

/-- A front-end quarantined once its AUTH_FAILED and MALFORMED counts exceed the limit (R96); a queue pair in RESET serves no front-end and stays in RESET (assumption 78). -/
def quarantine (s : State) (fe : Nat) : State :=
  let n := fget s LND_FE_ERR.AUTH_FAILED fe 0 + fget s LND_FE_ERR.MALFORMED fe 0
  if get1 s LND_QUAR_THRESH.THRESH < n ∧ fget s LND_FE_STATE.QUARANTINED fe 0 = 0 then
    let s := qpErrors s (qpsWhere s (fun q => fget s RDMA_QP_CFG.FE q 0 == fe && fget s RDMA_QP_CFG.CLASS q 0 == 0)) 8
    let s := ev (fset s LND_FE_STATE.QUARANTINED fe 0 1) LND_EVENT.QUAR_EV
    if feValid s fe then logJob s (feJob s fe) 0x20 0 fe n else logModule s 0x20 fe n
  else s

/-- A chunk of a front-end seen in the round: the total that the 1 % share is taken of (R93). -/
def seeChunk (s : State) (fe : Nat) : State := { s with feSeen := putN s.feSeen fe (readD 0 s.feSeen fe + 1) }

/-- The counts that a refusal or a DUPLICATE adds for the front-end and the client (R93, R96, R101, R104); ERR_OTHER takes the refusals from step 8 on (assumption 79). -/
def countStatus (s : State) (fe : Nat) (l : Option Look) (st : JStat) : State :=
  let s := seeChunk s fe
  let s := match st with
    | .authFailed => count s LND_FE_ERR.AUTH_FAILED fe 0 1
    | .malformed => count s LND_FE_ERR.MALFORMED fe 0 1
    | .late => count s LND_FE_LATE.LATE fe 0 1
    | .outOfPhase => count s LND_FE_LATE.OUT_OF_PHASE fe 0 1
    | _ => s
  let s := pmu s (if st = .ok then 0x01 else 0x02) (l.map (·.job)) 1
  let s := match l with
    | none => s
    | some l => match st with
      | .ok => s
      | .duplicate => modRec s l (fun e => { e with dup := satAdd 16 e.dup 1 }) (fun c => { c with dup := satAdd 16 c.dup 1 })
      | .authFailed => modRec s l (fun e => { e with errAuth := satAdd 16 e.errAuth 1 }) (fun c => { c with errAuth := satAdd 16 c.errAuth 1 })
      | _ => modRec s l (fun e => { e with errOther := satAdd 16 e.errOther 1 }) (fun c => { c with errOther := satAdd 16 c.errOther 1 })
  quarantine s fe

/-- A chunk answered: its status counted and its ACK sent. -/
def answer (s : State) (q : Nat) (c : Bytes) (st : JStat) (fe : Nat) (l : Option Look) (authed : Bool) : State :=
  sendAck (countStatus s fe l st) q c st fe (if authed then l else none)

/-! The order of checks. -/

/-- Whether a queue pair's SEND reaches Landing's checks (R73, R453, R458, R480). -/
def landed (s : State) (q : Nat) : Bool :=
  on s LND_CTRL.ENABLE && bit (get1 s LND_CTRL.PORT_EN) (fget s RDMA_QP_CFG.PORT q 0) && fget s RDMA_QP_CFG.CLASS q 0 == 0 &&
    (qpState s q == 3 || qpState s q == 2)

/-- The front-end of a queue pair. -/
def qpFe (s : State) (q : Nat) : Nat := fget s RDMA_QP_CFG.FE q 0

/-- The phase that opens a type's window, and the index of the phase time that closes it (02 *Admission windows*). -/
def windowOf (type : Nat) : Nat × Nat :=
  match type with
  | 0x01 => (2, 1)
  | 0x02 => (4, 3)
  | 0x03 => (5, 4)
  | 0x04 => (7, 6)
  | _ => (2, 4)

/-- What the checks before authentication find. -/
inductive Judged where
  | refused (st : JStat) (l : Option Look)
  | closed (l : Look)
  | open (l : Look)
  deriving DecidableEq, Repr

/-- Steps 3 to 7, with the front-end's job and round known. -/
def judgeRound (s : State) (fe : Nat) (c : Bytes) : Except JStat Look :=
  let v := hVersion c
  let j := feJob s fe
  let x? := if feValid s fe then (s.round? j (hRound c)).filter (fun x => x.offerDone) else none
  let joined := (x?.bind (fun x => lookup x.keys (hSlot c))).map (·.version3)
  if v ≠ 2 ∧ v ≠ 3 ∨ v = 3 ∧ fget s LND_FE_CFG.VERSION3 fe 0 = 0 ∨ v = 2 ∧ on s LND_VERSIONS.ACCEPT_V2 = false ∨
      joined = some (decide (v = 2)) then .error .badVersion
  else if ¬ feValid s fe ∨ ¬ (s.job j).present ∨ hJobTag c ≠ fget s LND_JOB_TAG.TAG j 0 then .error .unknownJob
  else match x? with
    | none => .error .wrongRound
    | some x =>
      if ¬ feHas s fe (hSlot c) ∨ (cohortOf x.plan (hSlot c)).isNone then .error .slotOutOfRange
      else if hType c = 1 ∧ v = 2 ∧ (pSealed x.plan ∨ pRingBits x.plan = 24) then .error .unsupported
      else .ok (lookAt s fe j x (hSlot c))

/-- Steps 1 to 8 (R77, R84, R85, R309). -/
def judge (s : State) (q stamp : Nat) (c : Bytes) : Judged :=
  let fe := qpFe s q
  if ¬ headerOk (fget s RDMA_QP_CFG.TYPE q 0 == 1) c ∨ hType c = 1 ∧ hLen c ≠ 194 then .refused .malformed none
  else if creditOf s fe ≤ readD 0 s.feOut fe then .refused .noCredit none
  else match judgeRound s fe c with
    | .error st => .refused st none
    | .ok l =>
      let (opens, closes) := windowOf (hType c)
      let p := l.x.plan
      let begun := lookup l.x.begunAt opens
      if pSealed p ∧ hType c = 2 ∨ isMember p l.slot ∧ hType c = 3 then .refused .outOfPhase (some l)
      else if pTime p closes ≤ stamp then .closed l
      else match begun with
        | none => .refused .outOfPhase (some l)
        | some t =>
          if stamp < t then .refused .outOfPhase (some l)
          else if closes = 4 ∧ (l.x.closed ∨ (lookup l.x.begunAt 6).isSome ∧ l.x.drainEnd ≤ s.now) then .closed l
          else .open l

/-- The plaintext of a tagged chunk under k_c2m (R57, R58). -/
def openChunk (k : KeyRec) (c : Bytes) : Option Bytes :=
  if hType c = 1 then (gcmOpen k.c2m (chunkNonce 1 1 0 0) (slice c 0 226) [] (hTag c)).map (fun _ => [])
  else gcmOpen k.c2m (chunkNonce 1 (hType c) (hIndex c) 0) (slice c 0 32) (hPayload c) (hTag c)

/-- Whether the records show a chunk admitted (R80). -/
def admitted (l : Look) (c : Bytes) : Bool :=
  match hType c with
  | 0x01 => l.state != .FREE
  | 0x02 => (lookup l.x.bundles l.slot).isSome
  | 0x03 => ((lookup l.x.bitmaps l.slot).getD []).contains (hIndex c)
  | 0x04 => l.unmaskAdm
  | _ => l.withdrawn

/-- A chunk that meets its closed window: authenticated where it was admitted, DUPLICATE where the tag verifies, else LATE (R80); an UPLOAD or an ABORT stamped before Close is one that the drain discards (R85). -/
def closedWindow (s : State) (q stamp : Nat) (c : Bytes) (l : Look) : State :=
  let ok := admitted l c && ((l.key.bind (fun k => openChunk k c)).isSome)
  let s := if (windowOf (hType c)).2 = 4 ∧ stamp < pTime l.x.plan 4 ∧ ok = false then ev s LND_EVENT.DRAIN_EV else s
  answer s q c (if ok then .duplicate else .late) l.fe (some l) ok

/-- Step 9 for a chunk that is no JOIN (R68, R104, R126, R310). -/
def standing (l : Look) (type : Nat) : Option JStat :=
  if l.state = .FREE ∨ l.key.isNone then some .notJoined
  else if l.withdrawn then some .withdrawn
  else if type = 3 ∧ ¬ pSealed l.x.plan ∧ (l.state = .JOINED ∨ l.state = .NEIGHBOURED) then some .notJoined
  else none

/-- A client chunk of a type other than JOIN: the checks of every type, then the type's own step from the authenticated plaintext. -/
def clientChunk (type : Nat) (s : State) (q stamp : Nat) (c : Bytes) (pass : State → Look → Bytes → State) : State :=
  if ¬ landed s q ∨ c.length < 32 ∨ hType c ≠ type then s
  else match judge s q stamp c with
    | .refused st l => answer s q c st (qpFe s q) l false
    | .closed l => closedWindow s q stamp c l
    | .open l =>
      let s := lookupEntry s l
      match standing l type with
      | some st => answer s q c st l.fe (some l) false
      | none =>
        match l.key with
        | none => s
        | some k =>
          if type = 3 ∧ chunkCount l.x.plan ≤ hIndex c then answer s q c .chunkOutOfRange l.fe (some l) false
          else
            let s := pmu s 0x03 (some l.job) ((hLen c + 63) / 64)
            match openChunk k c with
            | none => answer s q c .authFailed l.fe (some l) false
            | some pt => pass s l pt

/-! JOIN. -/

/-- The keys of a client for a round (R56). -/
def clientKeys (version tag round slot : Nat) (z : Bytes) : Key256 × Key256 :=
  let prk := hkdfExtract (toBe 4 tag ++ toBe 4 round ++ toBe 4 slot) z
  let info := fun (t : String) => ascii ("BR1 JLP" ++ (if version = 2 then "2 " else "3 ") ++ t)
  (keyOf (hkdfExpand prk (info "C2M") 32), keyOf (hkdfExpand prk (info "M2C") 32))

/-- A JOIN's keys from its ephemeral point; none off the curve (R64). -/
def joinKeys (x : Round) (c : Bytes) : Option KeyRec :=
  (decodePt (slice c 32 97)).map (fun e =>
    let (a, b) := clientKeys (hVersion c) (hJobTag c) (hRound c) (hSlot c) (ecdhX x.priv e)
    ⟨hVersion c == 3, a, b, slice c 32 97, slice c 129 97⟩)

/-- The Roster entry of an admitted JOIN (R103). -/
def joinEntry (s : State) (l : Look) (c : Bytes) : Entry :=
  { Entry.free with
    job := l.job, valid := true, state := .JOINED, fe := l.fe, round := l.r, cohort := (cohortOf l.x.plan l.slot).getD 0,
    keyHandle := (Config.keyHandle l.job l.r l.slot).toNat, bitmapPtr := around s l.job (bitmapAt s l.job l.x l.slot),
    shareOutPtr := hbmPlace l.job placeShares l.r l.slot % 2 ^ 64, shareInPtr := (Config.shareInPtr l.job l.r l.slot).toNat,
    version3 := hVersion c == 3, joinTime := s.now }

/-- A JOIN admitted: the key record stored and the client recorded (R56, R64, R102, R103). -/
def admitJoin (s : State) (q : Nat) (c : Bytes) (l : Look) (k : KeyRec) : State :=
  let e := joinEntry s l c
  let s := modEntry s l.job l.slot (fun _ => e)
  let s := s.modRound l.job l.r (fun x => { x with keys := putN x.keys l.slot k, bitmaps := putN x.bitmaps l.slot [] })
  let s := if (s.job l.job).rounds.all (fun x => !x.offerDone || x.number ≤ l.r) then count s ROS_JOB_COUNTS.JOINED l.job 0 1 else s
  answer s q c .ok l.fe (some { l with key := some k, state := .JOINED }) true

/-- A chunk held until the engine that it needs accepts work again: it is outstanding meanwhile (R92, R149, R353). -/
def holdChunk (s : State) (fe : Nat) (q : Qpn) (stamp : Nat) (c : Bytes) : State :=
  { s with waitingChunks := s.waitingChunks ++ [(q, stamp, c)], feOut := putN s.feOut fe (readD 0 s.feOut fe + 1) }

/-- Toll's part of a JOIN for a slot that nothing has joined (R56, R64); one scalar multiplication and two derivations (R149, assumption 80). -/
def joinToll (s : State) (q : Nat) (c : Bytes) (l : Look) : State :=
  match joinKeys l.x c with
  | none => answer s q c .malformed l.fe (some l) false
  | some k =>
    let s := count (tollDone s (some l.job) 1 2) KST_SLOT_USE.COUNT ((s.job l.job).roundSlot l.r) 0 1
    if (openChunk k c).isNone then answer s q c .authFailed l.fe (some l) false
    else if (decodePt (slice c 129 97)).isNone then answer s q c .malformed l.fe (some l) false
    else admitJoin s q c l k

/-- The checks of a JOIN from step 9 on; it waits while Toll accepts no new work, and one that goes on only after Close is LATE (R77, R149, assumption 81). -/
def joinAt (s : State) (q : Qpn) (stamp : Nat) (c : Bytes) (l : Look) : State :=
  if l.withdrawn then answer s q c .withdrawn l.fe (some l) false
  else match l.key with
    | some k =>
      if slice c 32 97 ≠ k.eph ∨ slice c 129 97 ≠ k.pair then answer s q c .slotTaken l.fe (some l) false
      else if (openChunk k c).isNone then answer s q c .authFailed l.fe (some l) false
      else answer s q c .duplicate l.fe (some l) true
    | none =>
      if l.x.closed then answer s q c .late l.fe (some l) false
      else if tollOn s then joinToll s q c l else holdChunk s l.fe q stamp c

/-- A JOIN. -/
def joinChunk (s : State) (q : Qpn) (stamp : Nat) (c : Bytes) : State :=
  if ¬ landed s q ∨ c.length < 32 ∨ hType c ≠ 1 then s
  else match judge s q stamp c with
    | .refused st l => answer s q c st (qpFe s q) l false
    | .closed l => closedWindow s q stamp c l
    | .open l => joinAt (lookupEntry s l) q stamp c l

/-- JOIN_CHUNK (R64): a JOIN chunk arrives. -/
def execJoinChunk (q : Qpn) (stamp : Time) (c : Bytes) (s : State) : Res := .next (joinChunk (takeChunk s q c) q stamp c)

/-! SHARES. -/

/-- The bundles of a SHARES plaintext as (TO_SLOT, bundle); none for a framing error (R54, R66, R122). -/
def shareEntries (pt : Bytes) : Option (List (Nat × Bytes)) :=
  let n := beAt pt 0 2
  if pt.length ≠ 4 + 128 * n ∨ ¬ zeroAt pt 2 2 then none
  else
    let es := (List.range n).map (fun i => (beAt pt (4 + 128 * i) 4, beAt pt (8 + 128 * i) 4, slice pt (12 + 128 * i) 120))
    if es.all (fun e => e.2.1 == 120) then some (es.map (fun e => (e.1, e.2.2))) else none

/-- A SHARES chunk's last steps (R66, R102); one that is processed only after Close destroyed the bundle key is LATE (R124, assumption 81). -/
def admitShares (q : Nat) (c : Bytes) (s : State) (l : Look) (pt : Bytes) : State :=
  match shareEntries pt with
  | none => answer s q c .malformed l.fe (some l) true
  | some es =>
    let nb := (lookup l.x.nbrs l.slot).getD []
    if es.length ≠ pDegree l.x.plan ∨ ¬ (es.map (·.1)).Nodup ∨ ¬ es.all (fun e => nb.contains e.1) then
      answer s q c .malformed l.fe (some l) true
    else if (lookup l.x.bundles l.slot).isSome then answer s q c .duplicate l.fe (some l) true
    else if l.x.bundleKey.isNone then answer s q c .late l.fe (some l) true
    else
      let s := s.modRound l.job l.r (fun x => { x with bundles := putN x.bundles l.slot es })
      let s := modRec s l (fun e => { e with state := .SHARED }) id
      answer s q c .ok l.fe (some l) true

/-- SHARES_CHUNK (R66): a SHARES chunk arrives. -/
def execSharesChunk (q : Qpn) (stamp : Time) (c : Bytes) (s : State) : Res := .next (clientChunk 2 (takeChunk s q c) q stamp c (admitShares q c))

/-! UPLOAD. -/

/-- The elements of a masked UPLOAD plaintext (R65). -/
def uploadElems (p pt : Bytes) : List Nat :=
  let e := (pRing p).bits / 8
  (List.range (pChunk p)).map (fun i => beAt pt (e * i) e)

/-- The check value of a chunk: the four lanes over its elements (R201). -/
def checkValue (p : Bytes) (key : Option Key256) (frac i : Nat) (ys : List Nat) : List Nat :=
  match key with
  | none => [0, 0, 0, 0]
  | some k =>
    let r := pRing p
    if ¬ chunkCovered r k frac i then [0, 0, 0, 0]
    else (List.range 4).map (fun l =>
      (ys.zipIdx.foldl (fun a y => a + maskElem r k (checkNonce r l) (i * pChunk p + y.2) * y.1) 0) % pMod p)

/-- The transaction that holds the claim of a chunk (R78). -/
def claimOf (s : State) (j : JobId) (r slot i : Nat) : Option (Nat × Txn) :=
  s.txns.find? (fun t => t.2.job == j && t.2.round == r && t.2.slot == slot && t.2.chunk == i)

/-- A transaction begun: it claims the chunk's bit, and its chunk is outstanding (R78, R92). -/
def beginTxn (s : State) (l : Look) (q : Qpn) (c : Bytes) (elems check : List Nat) (sealing : Bool) : State :=
  let t : Txn := ⟨l.job, l.r, l.slot, hIndex c, q, slice c 0 32, elems, check, sealing, []⟩
  let s := { s with txns := putN s.txns s.nextTxn t, nextTxn := s.nextTxn + 1, feOut := putN s.feOut l.fe (readD 0 s.feOut l.fe + 1) }
  modRec s l (fun e => { e with state := if e.state = .SHARED ∨ e.state = .JOINED ∨ e.state = .NEIGHBOURED then .UPLOADING else e.state }) id

/-- A second copy waits for the transaction that holds the claim (R79). -/
def waitFor (s : State) (n : Nat) (t : Txn) (fe : Nat) (q : Qpn) (stamp : Nat) (c : Bytes) : State :=
  { s with txns := putN s.txns n { t with waiters := t.waiters ++ [(q, stamp, c)] }, feOut := putN s.feOut fe (readD 0 s.feOut fe + 1) }

/-! UNMASK_SHARES, ABORT and the rest. -/

/-- The entries of an UNMASK_SHARES plaintext as (ABOUT_SLOT, KIND, SHARE); none for a framing error (R54, R67, R136). -/
def unmaskEntries (pt : Bytes) : Option (List (Nat × Nat × Nat)) :=
  let n := beAt pt 0 2
  if pt.length ≠ 4 + 56 * n ∨ ¬ zeroAt pt 2 2 then none
  else
    let es := (List.range n).map (fun i => (beAt pt (4 + 56 * i) 4, beAt pt (8 + 56 * i) 1, beAt pt (12 + 56 * i) 48))
    if (List.range n).all (fun i => zeroAt pt (9 + 56 * i) 3) && es.all (fun e => decide (e.2.2 < p384N)) && decide ((es.map (·.1)).Nodup) then some es
    else none

/-- One admitted share of a secret; discarded unread once the secret is reconstructed (R142). -/
def addShare (sender about : Nat) (pair : Bool) (v : Nat) (k : Cohort) : Cohort :=
  { k with secrets := k.secrets.map (fun x =>
      if x.about == about && x.pairKey == pair && !x.done then { x with shares := x.shares ++ [(sender, v)] } else x) }

/-- An UNMASK_SHARES chunk's last steps (R67, R102, R136, R142). -/
def admitUnmask (q : Nat) (c : Bytes) (s : State) (l : Look) (pt : Bytes) : State :=
  match unmaskEntries pt with
  | none => answer s q c .malformed l.fe (some l) true
  | some es =>
    let asked := (lookup l.x.requested l.slot).getD []
    if ¬ es.all (fun e => (e.2.1 == 1 || e.2.1 == 2) && asked.contains (e.1, e.2.1 == 1)) then answer s q c .notRequested l.fe (some l) true
    else if l.unmaskAdm then answer s q c .duplicate l.fe (some l) true
    else
      let co := (cohortOf l.x.plan l.slot).getD 0
      let s := if l.x.deadline then s else s.modCohort l.job l.r co (fun k => es.foldl (fun k e => addShare l.slot e.1 (e.2.1 == 1) e.2.2 k) k)
      let s := modRec s l (fun e => { e with unmaskAdm := true, state := .UNMASKED }) (fun d => { d with unmaskAdm := true, state := .UNMASKED })
      answer s q c .ok l.fe (some l) true

/-- UNMASK_SHARES_CHUNK (R67): shares arrive and are admitted for reconstruction. -/
def execUnmaskSharesChunk (q : Qpn) (stamp : Time) (c : Bytes) (s : State) : Res :=
  let s := takeChunk s q c
  .next (if ((s.round? (feJob s (qpFe s q)) (hRound c)).map (fun x => x.offerDone && isMember x.plan (hSlot c))).getD false then s
    else clientChunk 4 s q stamp c (admitUnmask q c))

/-- An ABORT's last steps (R54, R68, R102). -/
def admitAbort (q : Nat) (c : Bytes) (s : State) (l : Look) (pt : Bytes) : State :=
  if pt.length ≠ 4 ∨ ¬ zeroAt pt 1 3 then answer s q c .malformed l.fe (some l) true
  else
    let s := modRec s l (fun e => { e with state := .WITHDRAWN, reason := beAt pt 0 1 }) (fun d => { d with withdrawn := true, reason := beAt pt 0 1 })
    answer s q c .ok l.fe (some l) true

/-- ABORT_CHUNK (R68): an ABORT is admitted and the client is WITHDRAWN. -/
def execAbortChunk (q : Qpn) (stamp : Time) (c : Bytes) (s : State) : Res := .next (clientChunk 5 (takeChunk s q c) q stamp c (admitAbort q c))

/-- A refusal that is counted as MALFORMED for the front-end and sends no ACK (R53, R72). -/
def silentMalformed (s : State) (fe : Nat) : State := quarantine (count (seeChunk s fe) LND_FE_ERR.MALFORMED fe 0 1) fe

/-- FETCH_CHUNK (R72): a FETCH that reaches the module is dropped without an ACK and counted. -/
def execFetchChunk (q : Qpn) (c : Bytes) (s : State) : Res :=
  let s := takeChunk s q c
  .next (if landed s q ∧ 32 ≤ c.length ∧ hType c = 6 then silentMalformed s (qpFe s q) else s)

/-- SHORT_SEND (R53): a SEND shorter than 32 bytes is discarded and counted. -/
def execShortSend (q : Qpn) (c : Bytes) (s : State) : Res :=
  let s := takeChunk s q c
  .next (if landed s q ∧ c.length < 32 then silentMalformed s (qpFe s q) else s)

/-- UNKNOWN_TYPE_CHUNK (R55): a chunk of an undefined or a module-sent type is refused MALFORMED with an ACK. -/
def execUnknownTypeChunk (q : Qpn) (_stamp : Time) (c : Bytes) (s : State) : Res :=
  let s := takeChunk s q c
  .next (if landed s q ∧ 32 ≤ c.length ∧ (typeFlags (hType c)).isNone ∧ hType c ≠ 6 then answer s q c .malformed (qpFe s q) none false else s)

/-! Admission transactions. -/

/-- The chunk of an outstanding transaction is answered: one outstanding chunk fewer (R92). -/
def settleOut (s : State) (fe : Nat) : State := { s with feOut := putD id 0 s.feOut fe (readD 0 s.feOut fe - 1) }

/-- Chunks that waited, each as its queue pair and its header, answered alike and no longer outstanding (R73, R92). -/
def answerAll (s : State) (st : JStat) (l : Look) (ws : List (Nat × Bytes)) : State :=
  ws.foldl (fun s w => answer (settleOut s (qpFe s w.1)) w.1 w.2 st l.fe (some l) true) s

/-- The outstanding counts of a job's front-ends after its waiting chunks were dropped: the transactions under way alone (R92, R591). -/
def recountOut (s : State) (j : JobId) : State :=
  { s with feOut := s.feOut.filterMap (fun e =>
      if feJob s e.1 = j then
        let n := (s.txns.filter (fun t => qpFe s t.2.qpn == e.1)).length
        if n = 0 then none else some (e.1, n)
      else some e) }

/-- The elements of a chunk added into a ring accumulator (R78, R168). -/
def addElems (w base : Nat) (acc : NatMap Nat) (ys : List Nat) : NatMap Nat :=
  ys.zipIdx.foldl (fun a y => putD id 0 a (base + y.2) (ringAdd w (readD 0 a (base + y.2)) y.1)) acc

/-- The commit of a masked transaction: the adds, the bit, the check value and the count of chunks (R78, R82, R102, R201). -/
def commitMasked (s : State) (t : Txn) (l : Look) : State :=
  let p := l.x.plan
  let w := (pRing p).bits
  let co := (cohortOf p t.slot).getD 0
  let s := s.modCohort t.job t.round co (fun k =>
    { k with accum := addElems w (t.chunk * pChunk p) k.accum t.elems, check := List.zipWith (ringAdd w) k.check t.check })
  let s := s.modRound t.job t.round (fun x => { x with bitmaps := putN x.bitmaps t.slot (t.chunk :: (lookup x.bitmaps t.slot).getD []) })
  let n := t.elems.length * (pRing p).slot
  let s := bankWork s t.job (ringAt s t.job l.x co + t.chunk * (pChunk p * (pRing p).slot)) n ((n + 31) / 32)
  modRec s l (fun e => { e with chunks := e.chunks + 1, state := if e.chunks + 1 = chunkCount p ∧ e.state = .UPLOADING then .COMPLETE else e.state }) id

/-- The chunks that wait for a transaction go on once it has ended: DUPLICATE after a commit, else from step 14 on, as a first arrival (R79, R96). -/
def resumeWaiters (s : State) (t : Txn) (committed : Bool) (again : Qpn → Nat → Bytes → State → Look → State) : State :=
  t.waiters.foldl (fun s w =>
    match s.round? t.job t.round with
    | none => s
    | some x =>
      let fe := qpFe s w.1
      let s := settleOut s fe
      let l := lookAt s fe t.job x t.slot
      if committed then answer s w.1 w.2.2 .duplicate fe (some l) true else again w.1 w.2.1 w.2.2 s l) s

/-- CREDIT_RECOMPUTE's share for one front-end: of the free buffers by joined clients, halved above 1 % of bad chunks, held inside the bounds (R93 to R95). -/
def creditFor (s : State) (freeBufs joinedAll joinedFe fe : Nat) : Nat × Bool :=
  let share := if joinedAll = 0 then 0 else freeBufs * joinedFe / joinedAll
  let bad := fget s LND_FE_ERR.AUTH_FAILED fe 0 + fget s LND_FE_ERR.MALFORMED fe 0
  let want := if readD 0 s.feSeen fe < 100 * bad then share / 2 else share
  let lo := fget s LND_FE_CREDIT.CREDIT_MIN fe 0
  let hi := fget s LND_FE_CREDIT.CREDIT_MAX fe 0
  (min (max want lo) hi, decide (want < lo ∨ hi < want))

/-- The job's newest round whose Offer has fired; 0 for none. -/
def offeredRound (s : State) (j : JobId) : Nat := (((s.job j).rounds.filter (·.offerDone)).map (·.number)).foldl max 0

/-- The joined clients of a front-end: the slots with an admitted JOIN in the job's newest offered round, withdrawn ones included, as ROS_JOB_COUNTS.JOINED counts them (R93, R103, assumption 82). -/
def feJoined (s : State) (fe : Nat) : Nat :=
  (s.roster.filter (fun e => e.2.valid && e.2.fe == fe && e.2.job == (feJob s fe).val && e.2.round == offeredRound s (feJob s fe) &&
    e.2.state != .FREE)).length

/-- The chunk buffer units in use: one of 64 KiB for each begun 64 KiB of an outstanding chunk (R81, R99). -/
def bufUnits (s : State) : Nat :=
  (s.txns.map (fun t => (hLen t.2.head + 48 + 65535) / 65536 + (t.2.waiters.map (fun w => (w.2.2.length + 65535) / 65536)).sum)).sum

/-- Whether a front-end has a queue pair on a port with a hot optical engine (R615). -/
def feHot (s : State) (fe : Nat) : Bool :=
  !(qpsWhere s (fun q => fget s RDMA_QP_CFG.FE q 0 == fe && fget s RDMA_QP_CFG.CLASS q 0 == 0 && s.hotPorts.contains (fget s RDMA_QP_CFG.PORT q 0))).isEmpty

/-- One front-end's credit set, with its mark and its event (R93, R94, R518); a version 2 front-end's is fixed and pins nothing (R95), and a hot port's is throttled (R615, assumption 66). -/
def setCredit (freeBufs joinedAll : Nat) (s : State) (fe : Nat) : State :=
  let (v, out) := if fget s LND_FE_CFG.VERSION3 fe 0 = 1 then creditFor s freeBufs joinedAll (feJoined s fe) fe
    else (fget s LND_FE_CREDIT.CREDIT_MIN fe 0, false)
  let v := if feHot s fe ∧ fget s LND_FE_CFG.VERSION3 fe 0 = 1 then min v (max (fget s LND_FE_CREDIT.CREDIT_MIN fe 0) (Config.hotCredit fe s.now)) else v
  let entered := out && fget s LND_FE_STATE.PINNED fe 0 == 0
  let s := fset (fset s LND_FE_STATE.CREDIT_NOW fe 0 v) LND_FE_STATE.PINNED fe 0 (flag out)
  if entered then logJob (ev (ev s LND_EVENT.PINNED_EV) PLT_EVENT.PINNED_EV) (feJob s fe) 0x21 0 3 v else s

/-- CREDIT_RECOMPUTE (R93): every 100 µs each front-end's credit is computed. -/
def execCreditRecompute (s : State) : Res :=
  .next (if s.now < s.creditAt then s
    else
      let fes := (listedFes s).filter (feValid s)
      let all := (fes.map (feJoined s)).sum
      { fes.foldl (setCredit (1536 - bufUnits s) all) s with creditAt := s.now + 100000 })

/-- A write of LND_FE_STATE: a 1 in QUARANTINED ends the quarantine and clears the error counts (R97); the round's total of chunks under the 1 % share goes on (assumption 82). -/
def writeFeState (s : State) (v : Nat) : State :=
  let fe := get1 s LND_SEL.FE
  if bit v 31 ∧ fget s LND_FE_STATE.QUARANTINED fe 0 = 1 then
    fset (fset (fset s LND_FE_STATE.QUARANTINED fe 0 0) LND_FE_ERR.AUTH_FAILED fe 0 0) LND_FE_ERR.MALFORMED fe 0 0
  else s

/-- REINSTATE (R97). -/
def execReinstate (v : BitVec 32) (s : State) : Res := .next (writeFeState s v.toNat)

/-- Whether a front-end's range lies in its job's range and overlaps no other front-end's (R91). -/
def feFits (s : State) (fe : Nat) : Bool :=
  let b := fget s LND_FE_CFG.SLOT_BASE fe 0
  let e := b + feCount s fe
  decide (e ≤ fget s ROS_JOB_RANGE.COUNT (feJob s fe) 0) &&
    (listedFes s).all (fun g => g == fe || !feValid s g || feJob s g != feJob s fe ||
      decide (e ≤ fget s LND_FE_CFG.SLOT_BASE g 0) || decide (fget s LND_FE_CFG.SLOT_BASE g 0 + feCount s g ≤ b))

/-- The fields of LND_FE_CFG stored from a write. -/
def storeFeCfg (s : State) (fe : Nat) (v : Word) : State :=
  let s := fset (fset s LND_FE_CFG.VERSION3 fe 0 (wbits v 60 60)) LND_FE_CFG.JOB fe 0 (wbits v 51 48)
  let s := fset (fset s LND_FE_CFG.SLOT_BASE fe 0 (wbits v 47 24)) LND_FE_CFG.SLOT_COUNT fe 0 (wbits v 23 0)
  fset s LND_FE_CFG.VALID fe 0 (wbits v 59 59)

/-- A front-end that is not enabled: it belongs to no job, and its adaptive credit is gone (R91). -/
def disableFe (s : State) (fe : Nat) : State := fset (fset (fset s LND_FE_CFG.VALID fe 0 0) LND_FE_STATE.CREDIT_NOW fe 0 0) LND_FE_STATE.PINNED fe 0 0

/-- A write of LND_FE_CFG of the selected front-end (R91). -/
def writeFeCfg (s : State) (v : Word) : State :=
  let fe := get1 s LND_SEL.FE
  let t := storeFeCfg s fe v
  if feValid t fe ∧ feFits t fe then t else disableFe t fe

/-- LND_FE_CFG_WRITE (R91): the configuration is stored; a range that does not fit reads back VALID = 0. -/
def execLndFeCfgWrite (v : Word) (s : State) : Res := .next (writeFeCfg s v)

/-- A write of ROS_CTRL (R107). -/
def writeRosCtrl (s : State) (v : Nat) : State :=
  let t := set1 s ROS_CTRL.CACHE_EN (v % 2)
  let t := if on t ROS_CTRL.CACHE_EN then t else set1 { t with cached := [], dirty := [] } ROS_CACHE_OCC.VALID 0
  if bit v 1 then { t with dirty := [] } else t

/-- ROSTER_FLUSH (R107): every dirty cache entry is written back to HBM; ROS_CTRL.CACHE_EN is stored. -/
def execRosterFlush (v : BitVec 32) (s : State) : Res := .next (writeRosCtrl s v.toNat)

end Sys2Proof.Machine
end

