-- ==== Sys2Proof/Machine/Rounds.lean ====
section
/-! DEFINITION. What ends a cohort, a round and a job: abandonment (R144 to R147), the round-end completion with its record, results and RESULT messages (R40, R69 to R71, R422, R436), the abort (R591) and the teardown of a job (R423), and consumed poison (R572). -/

namespace Sys2Proof.Machine

/-- An error recorded in TRI_ERR_LAST (R597). -/
def errLast (s : State) (cause job block loc : Nat) : State :=
  let s := set1 (set1 (set1 s TRI_ERR_LAST.VALID 1) TRI_ERR_LAST.CAUSE cause) TRI_ERR_LAST.JOB job
  set1 (set1 s TRI_ERR_LAST.BLOCK block) TRI_ERR_LAST.WHERE loc

/-! Messages to clients. -/

/-- A module message: encrypted and tagged under k_m2c with the client's next SEQ, on the queue pair of its front-end (R57 to R59, R69, R88). -/
def sendMsg (s : State) (l : Look) (type : Nat) (payload : Bytes) : State :=
  match l.key with
  | none => s
  | some k =>
    let s := nextSeq s l
    let seq := msgSeq s l
    let h := moduleHeader (if k.version3 then 3 else 2) type 3 (fget s LND_JOB_TAG.TAG l.job 0) l.r l.slot 0 payload.length seq
    let (ct, tag) := gcmSeal k.m2c (chunkNonce 2 type 0 seq) h payload
    match feQp s l.fe with
    | none => s
    | some q => sendChunk s q (h ++ ct ++ tag)

/-! Abandonment. -/

/-- The cohort-abandonment reasons (R144). -/
def reasonJoinShort : Nat := 1
def reasonFewSurvivors : Nat := 2
def reasonSharesShort : Nat := 3
def reasonInconsistent : Nat := 4
def reasonAllVoid : Nat := 5
def reasonSettleFail : Nat := 6

/-- A cohort without its sums, its secrets and its keys (R145). -/
def Cohort.cleared (k : Cohort) (reason : Nat) : Cohort :=
  { k with
    reason := reason
    accum := []
    check := [0, 0, 0, 0]
    checkKey := none
    secrets := []
    masks := []
    sums := []
    exports := []
    decoded := [] }

/-- A count of CUL_JOB_COHORTS increased: it is of the job's latest round, the newest whose Neighbours has begun (R150, assumption 83). -/
def countCohort (s : State) (f : Fld) (j : JobId) (r : Nat) : State :=
  if (s.job j).rounds.any (fun x => decide (r < x.number) && (lookup x.begunAt 3).isSome) then s else count s f j 0 1

/-- The lines of a cohort's accumulator, or sums, and of its check accumulator are written whole with zeros: their poison clears (R155). -/
def clearCohort (s : State) (j : JobId) (x : Round) (c : Nat) : State :=
  clearPlace (clearPlace s j (accAt s j x c) (accSpan x.plan)) j (checkAt s j x c) 64

/-- A cohort abandoned (R144 to R147), once. -/
def abandon (s : State) (j : JobId) (r c reason : Nat) : State :=
  if (s.cohort j r c).reason ≠ 0 then s
  else
    let s := match s.round? j r with
      | none => s
      | some x => clearCohort s j x c
    let s := s.modCohort j r c (fun k => k.cleared reason)
    let s := logJob s j 0x10 r c reason
    let s := fset (fset s CUL_ABANDON_LAST.COHORT j 0 c) CUL_ABANDON_LAST.REASON j 0 reason
    bump (countCohort (ev s CUL_EVENT.ABANDON_EV) CUL_JOB_COHORTS.ABANDONED j r) j 1 1

/-- A settle status other than OK recorded (R207). -/
def recordSettle (s : State) (j : JobId) (r c status : Nat) : State :=
  let s := s.modCohort j r c (fun k => { k with status := status })
  logJob (fset (fset s VAT_JOB_LAST.COHORT j 0 c) VAT_JOB_LAST.STATUS j 0 status) j 0x11 r c status

/-! The add window. -/

/-- The granules of a model. -/
def granules (p : Bytes) : Nat := (pModel p + pChunk p - 1) / pChunk p

/-- The granules whose totals and counts the add window holds at a time, its last line aside (R178, R190). -/
def windowGranules (s : State) (j : JobId) (p : Bytes) : Nat := min (granules p) (((window s j).2 - 64) / (8 * (pChunk p + 1)))

/-- The model coordinates that the add window holds at a time. -/
def windowCoords (s : State) (j : JobId) (p : Bytes) : Nat := windowGranules s j p * pChunk p

/-- Whether the totals of the whole model fit the job's add window (R178). -/
def resident (s : State) (j : JobId) (p : Bytes) : Bool := windowGranules s j p == granules p

/-- The windows in which a model is settled and finished (R178); one where it is resident. -/
def windowCount (s : State) (j : JobId) (p : Bytes) : Nat := (granules p + windowGranules s j p - 1) / windowGranules s j p

/-- The first coordinate of the window that a round settles. -/
def windowBase (s : State) (j : JobId) (x : Round) : Nat := x.windowNo * windowCoords s j x.plan

/-- The end of that window. -/
def windowEnd (s : State) (j : JobId) (x : Round) : Nat := min (pModel x.plan) (windowBase s j x + windowCoords s j x.plan)

/-- Whether a coordinate lies in the window that a round settles. -/
def inRange (s : State) (j : JobId) (x : Round) (i : Nat) : Bool := decide (windowBase s j x ≤ i ∧ i < windowEnd s j x)

/-- The job-relative address of a total of the window, and of a granule's count, which follows the totals (R190). -/
def totalAddr (s : State) (j : JobId) (x : Round) (i : Nat) : Nat := (window s j).1 + 8 * (i - windowBase s j x)
def countAddr (s : State) (j : JobId) (x : Round) (g : Nat) : Nat :=
  (window s j).1 + 8 * windowCoords s j x.plan + 8 * (g - windowBase s j x / pChunk x.plan)

/-- The first byte of the peer-done line: the first whole line after the counts (R190, R193). -/
def peerLine (s : State) (j : JobId) (p : Bytes) : Nat := (window s j).1 + (8 * windowCoords s j p + 8 * windowGranules s j p + 63) / 64 * 64

/-- Whether a module Vat address lies in a job's add window. -/
def inWindow (s : State) (j : JobId) (a : Nat) : Bool :=
  match jobRelative s j a with
  | none => false
  | some x => decide ((window s j).1 ≤ x ∧ x < (window s j).1 + (window s j).2)

/-- The totals and the count vector zeroed (R177); the poisoned lines of an aborted job stay until its teardown (R591). -/
def zeroWindow (s : State) (j : JobId) : State :=
  { s with
    mem := keepKeys (fun a => !inWindow s j a) s.mem
    poison := if (s.job j).aborting.isSome then s.poison else s.poison.filter (fun l => !inWindow s j (l * 64)) }

/-! Round end. -/

/-- The OUTCOME of a client's RESULT (R71). -/
def outcome (x : Round) (slot space detail : Nat) : Nat :=
  let member := isMember x.plan slot
  let co := x.cohort ((cohortOf x.plan slot).getD 0)
  if !member && co.reason != 0 then 2
  else if !member && co.dropouts.contains slot then 1
  else if !member && co.excluded then 3
  else if space = 4 then (if detail ≤ 1 then 0 else 4) else 5

/-- The RESULT mark of a client that was sent one: in its close record, and in its Roster entry where that still holds the round (R101, R103, R105). -/
def markResult (s : State) (l : Look) : State :=
  let s := modRec s l id (fun d => { d with resultSent := true })
  if (entryOf s l.job l.r l.slot).state = .FREE then s else modEntry s l.job l.slot (fun e => { e with resultSent := true })

/-- The RESULT messages of a round (R69 to R71). -/
def sendResults (s : State) (j : JobId) (x : Round) (space detail : Nat) (digest : Bytes) : State :=
  x.closeTable.foldl (fun t e =>
    let o := outcome x e.1 space detail
    let l := lookAt t e.2.fe j x e.1
    let sent := l.key.isSome && (feQp t l.fe).isSome
    let t := sendMsg t l 0x86 (toBe 1 o ++ zeros 3 ++ (if o = 0 then digest else zeros 48))
    if sent then markResult t l else t) s

/-- The job's key-table entries that its rounds lock (R337). -/
def lockedMask (s : State) (j : JobId) : Nat :=
  ((List.range 16).filter (fun i => (s.job j).rounds.any (fun x => x.lockedKeys.contains i))).foldl (fun a i => a + 2 ^ i) 0

/-- The status of an issued operation set, to be delivered as it completes. -/
def setOpStatus (s : State) (ctx op space detail : Nat) : State :=
  { s with contexts := s.contexts.map (fun e =>
      if e.1 == ctx then (e.1, { e.2 with issued := e.2.issued.map (fun o => if o.id == op then { o with space := space, detail := detail } else o) }) else e) }

/-- A status other than OK recorded in RIND_JOB_LAST and its event (R353). -/
def rindStatus (s : State) (j : JobId) (cls : Nat) (st : RindStat) : State :=
  let s := match st with
    | .keyMismatch => ev s RIND_EVENT.KEY_EV
    | .budgetExhausted => ev s RIND_EVENT.BUDGET_EV
    | _ => s
  if st = .ok then s else fset (fset s RIND_JOB_LAST.CLASS j 0 cls) RIND_JOB_LAST.STATUS j 0 st.code

/-- A refresh ended with a status: its operation delivers it as it completes, and its handles are released (R349). -/
def refreshEnds (s : State) (ctx op space detail : Nat) : State :=
  { setOpStatus s ctx op space detail with locks := s.locks.filter (fun l => !(l.ctx == ctx && l.op == op)) }

/-- The refresh operations that a test picks leave the queue with GROUP_INCOMPLETE (R349, R350). -/
def dropRefresh (s : State) (j : JobId) (p : RefreshOp → Bool) : State :=
  let gone := (s.job j).refresh.filter p
  let s := s.modJob j (fun J => { J with refresh := J.refresh.filter (fun o => !p o) })
  let s := gone.foldl (fun t o => refreshEnds (rindStatus t j 4 .groupIncomplete) o.ctx o.op 5 RindStat.groupIncomplete.code) s
  fset s RIND_JOB_REFRESH.QUEUED j 0 (s.job j).refresh.length

/-- The add window opens for a round that has passed Close once no earlier round is in flight and the totals are zero (R41, R177, R192). -/
def openWindow (s : State) (j : JobId) (r : Nat) : State :=
  if ((s.round? j r).map (·.closed)).getD false && (s.job j).rounds.all (fun z => decide (r ≤ z.number)) then fset s VAT_JOB_CTRL.ADD_OPEN j 0 1 else s

/-- The regions of a job that are LIVE. -/
def liveRegions (s : State) (j : JobId) : List Nat :=
  s.regs.filterMap (fun e => if e.1.reg == .RDMA_REG_CFG && e.1.lo == 62 && e.1.major == j.val && e.2 == 1 then some e.1.minor else none)

/-- The live region of a job of a kind, group and member. -/
def regionOf (s : State) (j : JobId) (kind g m : Nat) : Option Nat :=
  (liveRegions s j).find? (fun n => fget s RDMA_REG_CFG.KIND j n == kind && fget s RDMA_REG_CFG.GROUP j n == g && (kind != 3 || fget s RDMA_REG_CFG.MEMBER j n == m))

/-- A member's area writable again, where its manifest took the right (R345, R485). -/
def giveBack (j : JobId) (s : State) (m : Manifest) : State :=
  match m.took, regionOf s j 3 m.group m.member with
  | true, some n => fset s RDMA_REG_CFG.RIGHTS j n (fget s RDMA_REG_CFG.RIGHTS j n ||| 2)
  | _, _ => s

/-- What a round holds is given up as it ends: its key slots, locks, table entries, totals, records and the members' areas (R104, R106, R177, R326, R337, R345, R541). -/
def dropRound (s : State) (j : JobId) (r : Nat) : State :=
  let J := s.job j
  let s := ((s.round? j r).map (fun x => x.manifests.map (·.2))).toList.flatten.foldl (giveBack j) s
  let s := eraseSlot (eraseSlot s (J.roundSlot r)) (J.bundleSlot r)
  let s := dropPhases (unfollow s j r) j r
  let s := dropRefresh s j (fun o => o.joined == some r)
  let s := fset (fset (zeroWindow s j) VAT_JOB_CTRL.ADD_OPEN j 0 0) VAT_JOB_PEER_WAIT.PEERS_DONE j 0 0
  let s := s.modJob j (fun J => { J with rounds := J.rounds.filter (fun x => x.number != r) })
  let s := ((s.job j).rounds.map (·.number)).foldl (fun t n => openWindow t j n) s
  choosePower (fset s RIND_JOB_KEYS.LOCKED j 0 (lockedMask s j))

/-- The manifests of a round that still await their hash as it ends are acknowledged LATE, as the chunks that wait as a drain ends are (R73, R85). -/
def lateManifests (s : State) (j : JobId) (x : Round) : State :=
  (x.manifests.filter (·.2.hashing)).foldl (fun s e =>
    answerAll s .late (lookAt s (qpFe s e.2.qpn) j x e.1) ((e.2.qpn, e.2.head) :: e.2.waiters)) s

/-- A round ends with a status pair (R40, R373, R422, R425, R426, R436, R523): its completion, its result, its record, its RESULT messages, and all it holds. -/
def endRound (s : State) (j : JobId) (r space detail bytes : Nat) (digest : Bytes) : State :=
  match s.round? j r with
  | none => s
  | some x =>
    let f := vfOf j
    let silent := (s.job j).silent
    let good := space == 4 && decide (detail ≤ 1)
    let d : Due := ⟨2, if good then 0 else 9, x.tag, body space detail r bytes, 4 * flag x.underChecked, true⟩
    let s := if silent then s
      else bump (post (s.modRing f (fun g => { g with results := g.results ++ [(r, space, detail, digest)] })) f d) j 3 1
    let s := logJob s j 0x31 r (space * 65536 + detail) bytes
    let s := fset s PLT_JOB_FRAC.UNDER_CHECKED j 0 (flag x.underChecked)
    let s := if on s LND_CTRL.RESULT_EN ∧ space ≠ 7 then sendResults s j x space detail digest else s
    dropRound (if (s.job j).aborting.isNone then lateManifests s j x else s) j r

/-! Abort. -/

/-- A region's revocation begins (R483, R485). -/
def beginRevoke (s : State) (j : JobId) (g : Nat) : State :=
  if fget s RDMA_REG_CFG.STATE j g = 1 then
    { fset s RDMA_REG_CFG.STATE j g 2 with revoking := s.revoking ++ [(j.val, g, s.now, false)] }
  else s

/-- The abort of a job begins: nothing more is fetched or issued, its queue pairs enter ERROR with ADMIN, its regions are revoked, its waiting chunks are dropped and its queued refreshes leave (R73, R350, R482, R591). An abort of an aborted job is absorbed. -/
def abortJob (s : State) (j : JobId) (status reason : Nat) (silent : Bool) : State :=
  if ¬ s.alive j then s
  else
    let s := s.modJob j (fun J => { J with aborting := some (status, reason), silent := silent })
    let s := qpErrors s (jobQps s j) 8
    let s := (liveRegions s j).foldl (fun t g => beginRevoke t j g) s
    let s := { s with
      txns := s.txns.map (fun t => if t.2.job == j then (t.1, { t.2 with waiters := [] }) else t)
      waitingChunks := s.waitingChunks.filter (fun w => feJob s (qpFe s w.1) != j) }
    let s := recountOut s j
    dropRefresh s j (fun o => o.joined.isNone)

/-- A job consumed poison (R572). -/
def consumePoison (s : State) (j : JobId) (block loc : Nat) : State := abortJob (errLast s 3 j.val block loc) j 2 0 false

/-- A job consumed poison at a job-relative address: of a line in HBM the record gives its line number in the job's HBM space. -/
def consumeAt (s : State) (j : JobId) (block a : Nat) : State := consumePoison s j block (if hbmBase ≤ a then a / 64 else poisonKey s j a)

/-- Whether work that was issued for a job has not completed (R591). -/
def jobBusy (s : State) (j : JobId) : Bool :=
  s.txns.any (fun t => t.2.job == j) || s.contexts.any (fun c => c.2.job == j && !c.2.issued.isEmpty)

/-- Whether a JOB-domain field stays from a job's abort to its teardown: the partition and the Roster range, which R32 fixes until then, and the fields of a region whose revocation is not complete (R482, R483, assumption 17). -/
def staysToTeardown (s : State) (j : JobId) (k : RKey) : Bool :=
  k.reg == .VAT_JOB_BERTHS || k.reg == .ROS_JOB_RANGE ||
    (k.reg == .RDMA_REG_CFG || k.reg == .RDMA_REG_BASE || k.reg == .RDMA_REG_LEN) && fget s RDMA_REG_CFG.STATE j k.minor != 0

/-- The JOB-domain fields of a job returned to their reset values (R20). -/
def resetJobFields (s : State) (j : JobId) (all : Bool) : State :=
  resetRegs s (fun k => k.dom == .JOB && (if k.reg == .HIF_RCP_SLOT_INFO then fget s HIF_RCP_SLOT_INFO.OWNER k.major 0 == j.val else k.major == j.val) &&
    (all || !staysToTeardown s j k))

/-- The unstarted descriptors of a function's ring complete with CANCELLED (R423). -/
def cancelDescs (s : State) (f : Func) : State :=
  let todo := (s.ring f).descs.filter (fun d => !d.started)
  let s := s.modRing f (fun g => { g with descs := g.descs.filter (fun d => d.started) })
  todo.foldl (fun t d => complete t f d.bytes .cancelled (body 0 0 0 0)) s

/-- The invocations of a job end with JOB_ABORTED (R392). -/
def endInvokes (s : State) (j : JobId) : State :=
  let mine := s.contexts.filter (fun c => c.2.job == j)
  let s := mine.foldl (fun t c =>
    endInvoke t ⟨Fin.ofNat 7 (c.1 / 32), Fin.ofNat 32 (c.1 % 32)⟩ .jobAborted 0 0 c.2.pc) s
  let w := s.waiting.filter (fun w => w.job == j)
  w.foldl (fun t w => refuseInvoke t w .jobAborted) { s with waiting := s.waiting.filter (fun w => w.job != j) }

/-- The rounds of a job end with the abort status, in round order (R40, R422). -/
def endRounds (s : State) (j : JobId) (status : Nat) : State :=
  ((s.job j).rounds.map (·.number)).mergeSort.foldl (fun t r => endRound t j r 7 status 0 []) s

/-- What an abort erases of a job: its key slots, its round structures, its Press key (R42, R541, R576, R591). -/
def eraseJob (s : State) (j : JobId) : State :=
  let s := (s.job j).slots.foldl eraseSlot s
  let s := s.modJob j (fun J => { J with
    aborted := true
    hbm := []
    hbmKey := false
    pressKey := none
    momentum := []
    base := []
    keyTable := []
    held := none
    heldOk := false
    refresh := []
    rounds := [] })
  let s := { s with
    groups := s.groups.filter (fun g => g.job != j)
    locks := s.locks.filter (fun l => l.job != j)
    lockWait := s.lockWait.filter (fun w => w.job != j)
    arrays := s.arrays.map (fun a => if a.owner == some j then ArrayRec.idle else a) }
  zeroWindow s j

/-- The abort of a job goes through, in the order of R591; a function-level reset's abort reports through the log alone (R632). -/
def completeAbort (s : State) (j : JobId) : State :=
  match (s.job j).aborting with
  | none => s
  | some (status, reason) =>
    let f := vfOf j
    let silent := (s.job j).silent
    let s := endInvokes s j
    let s := if silent then endRounds (logJob s j 0x40 0 status reason) j status
      else
        let s := cancelDescs (endRounds s j status) f
        logJob s j 0x40 0 status reason
    let s := eraseJob s j
    choosePower (resetJobFields s j false)

/-! Teardown. -/

/-- The JOB_TEARDOWN of a job that has started and not completed. -/
def teardownDesc (s : State) (j : JobId) : Option Desc :=
  (s.ring pf0).descs.find? (fun d => d.started && leAt d.bytes 0 1 == 2 && leAt d.bytes 16 1 == j.val)

/-- A front-end of a job that is torn down (R91). -/
def dropFe (s : State) (fe : Nat) : State :=
  let s := fset (disableFe s fe) LND_FE_STATE.QUARANTINED fe 0 0
  let s := fset (fset s LND_FE_ERR.AUTH_FAILED fe 0 0) LND_FE_ERR.MALFORMED fe 0 0
  fset (fset s LND_FE_LATE.LATE fe 0 0) LND_FE_LATE.OUT_OF_PHASE fe 0 0

/-- Whether a field is part of a queue pair's context: all but the configuration and the cause of the latest error (R459, R481). -/
def contextField (k : RKey) : Bool :=
  k.reg == .RDMA_QP_PSN || k.reg == .RDMA_QP_DEST || k.reg == .RDMA_QP_DIP || k.reg == .RDMA_QP_QKEY || k.reg == .RDMA_SQP_CTRL && k.lo != RDMA_SQP_CTRL.SLOT.lo ||
    k.reg == .RDMA_SQP_LOCAL || k.reg == .RDMA_SQP_PEER || k.reg == .RDMA_QP_STAT && k.lo != RDMA_QP_STAT.LAST_ERR.lo

/-- A queue pair's context cleared as it enters RESET: its replay cache, its work, its seal keys and SCC (R481). -/
def clearQp (s : State) (q : Nat) : State :=
  { resetRegs s (fun k => contextField k && k.major == q) with
    qps := dropKey s.qps q
    openWrites := s.openWrites.filter (fun w => w.qpn != q) }

/-- Every field of a queue pair's configuration at its reset value, and its context cleared (R459, R481, R482). -/
def dropQp (s : State) (q : Nat) : State := resetRegs (clearQp s q) (fun k => k.reg == .RDMA_QP_CFG && k.major == q)

/-- The queue pairs that belong to a job, whatever their state. -/
def ownQps (s : State) (j : JobId) : List Nat :=
  ((s.regs.filterMap (fun e => if e.1.reg == .RDMA_QP_CFG then some e.1.major else none)).dedup).filter (fun q => fget s RDMA_QP_CFG.JOB q 0 == j.val && qpState s q != 0)

/-- A loaded recipe's slot freed (R357). -/
def freeSlot (s : State) (n : Nat) : State :=
  let s := resetRegs s (fun k => (k.reg == .HIF_RCP_SLOT_INFO || k.reg == .HIF_RCP_SLOT_DIGEST) && k.major == n)
  { s with store := dropKey s.store n }

/-- The words that the loadable recipes take. -/
def loadUsed (s : State) : Nat := (s.store.map (fun e => e.2.length)).sum

/-- The loadable slots of a job. -/
def jobSlots (s : State) (j : JobId) : List Nat :=
  (s.store.map (·.1)).filter (fun n => fget s HIF_RCP_SLOT_INFO.OWNER n 0 == j.val && fget s HIF_RCP_SLOT_INFO.VALID n 0 == 1)

/-- The store's counts of words (R398). -/
def storeCounts (s : State) : State :=
  set1 (set1 s HIF_RCP_STORE.LOAD_USED (loadUsed s)) HIF_RCP_STORE.FREE (32768 - loadUsed s)

/-- Both rings of a function disabled: nothing more is fetched or written. -/
def disableRings (s : State) (f : Func) : State :=
  fset (fset s HIF_VF_SQ_CFG.ENABLE f 0 0) HIF_VF_CQ_CFG.ENABLE f 0 0

/-- The untaken results and the last taken one discarded (R436). -/
def dropResults (s : State) (f : Func) : State :=
  let s := s.modRing f (fun g => { g with results := [], taken := none })
  resetRegs s (fun k => k.reg == .HIF_VF_RES_DIGEST && k.major == f.val)

/-- A job torn down (R91, R161, R355, R357, R423, R447, R482, R541, R576), its share of the contexts free again, once its abort and its revocations are complete. -/
def dropJob (s : State) (j : JobId) : State :=
  let f := vfOf j
  let s := (fesOf s j).foldl dropFe s
  let s := (ownQps s j).foldl dropQp s
  let s := storeCounts ((jobSlots s j).foldl freeSlot s)
  let s := zeroBerths s j
  let s := { s with
    roster := s.roster.filter (fun e => !(e.2.valid && e.2.job == j.val))
    revoking := s.revoking.filter (fun v => v.1 != j.val) }
  let s := emptyLog (dropResults (disableRings s f) f) f
  let s := s.modJob j (fun _ => .absent)
  let s := fset (fset (resetJobFields s j true) HIF_VF_STATUS.JOB_CREATED f 0 0) HIF_VF_STATUS.CONFIDENTIAL f 0 0
  let s := set1 s KST_STATUS.CONF_ACTIVE (flag ((List.finRange 16).any (fun k => s.conf k)))
  choosePower (resumeInvokes s)

/-- A teardown goes on where nothing holds it: the descriptor completes on the admin ring (R423, R482). -/
def advanceTeardown (s : State) (j : JobId) : State :=
  match teardownDesc s j with
  | none => s
  | some d =>
    if ¬ (s.job j).aborted ∨ s.revoking.any (fun v => v.1 == j.val) then s
    else
      let s := dropJob s j
      let s := s.modRing pf0 (fun g => { g with descs := g.descs.erase d })
      if d.silent then s else complete s pf0 d.bytes .ok (body 0 0 0 0)

/-- ABORT_WAIT_DONE (R591): the operations issued for an aborted job have completed, and its abort goes through. -/
def execAbortWaitDone (j : JobId) (s : State) : Res :=
  .next (if (s.job j).present ∧ (s.job j).aborting.isSome ∧ ¬ (s.job j).aborted ∧ ¬ jobBusy s j then advanceTeardown (completeAbort s j) j else s)

end Sys2Proof.Machine
end

