-- ==== Sys2Proof/Machine/Units.lean ====
section
/-! DEFINITION. The fenceable units (R587 to R590): their state, suspicion and fencing with re-placement (R515, R516), the commands of TRI_UNIT_CMD, and the known-answer tests. -/

namespace Sys2Proof.Machine

/-- The STATE of a unit: 0 LIVE, 1 FENCED, 2 FAILING, 3 SUSPECT (R587). -/
def unitState (s : State) (b u : Nat) : Nat := fget s TRI_UNIT_STATE.STATE b u

/-- The fenced units of a block. -/
def fencedOf (s : State) (b : Nat) : List Nat := ((fencedUnits s).filter (fun e => e.1 == b)).map (·.2)

/-- A mask with the listed bits. -/
def maskOf (ns : List Nat) : Nat := (ns.map (fun n => 2 ^ n)).sum

/-- The engine registers that count or name a block's live and fenced units. -/
def showUnits (s : State) (b : Nat) : State :=
  let f := fencedOf s b
  let live := unitCount b - f.length
  match b with
  | 2 => set1 (set1 s TOL_STATUS.CORES_LIVE live) TOL_CORE_FENCE.FENCED (maskOf f)
  | 3 => set1 (set1 (set1 s CUL_STATUS.LANES_LIVE live) CUL_LANE_FENCE_LO.FENCED (maskOf (f.filter (· < 64)))) CUL_LANE_FENCE_HI.FENCED
      (maskOf ((f.filter (64 ≤ ·)).map (· - 64)))
  | 4 => set1 (set1 s VAT_STATUS.BANKS_LIVE live) VAT_STATUS.REMAP_USED s.remap.length
  | 5 => set1 s PRS_STATUS.ARRAYS_LIVE (255 - maskOf f)
  | 6 => set1 (set1 s RIND_STATUS.LANES_LIVE live) RIND_LANE_FENCE.COUNT f.length
  | 7 => set1 (set1 s RIND_STATUS.PIPES_LIVE live) RIND_PIPE_FENCE.FENCED (maskOf f)
  | 8 => set1 s WRP_STATUS.SAMPLERS_LIVE live
  | 10 => set1 s TRI_STATUS.GROUPS_LIVE live
  | _ => s

/-- Every block's registers of live and fenced units. -/
def showAllUnits (s : State) : State := (List.range 11).foldl showUnits s

/-- A unit's state set: GEN advances at each change of STATE (R587), and the jobs' shares of its class follow (R513). -/
def setUnit (s : State) (b u st cause : Nat) : State :=
  if unitState s b u = st then s
  else
    let s := fset (fset s TRI_UNIT_STATE.STATE b u st) TRI_UNIT_STATE.CAUSE b u cause
    let s := count s TRI_UNIT_STATE.GEN b u 1
    let s := showUnits (if b = 6 ∧ st = 1 then set1 s RIND_LANE_FENCE.LAST u else s) b
    if b = 2 ∨ b = 3 ∨ b = 5 then placementLoop s else s

/-- A LIVE unit marked SUSPECT; a bank issues no accesses and never is. -/
def suspect (s : State) (b u cause : Nat) : State := if b ≠ 4 ∧ unitState s b u = 0 then setUnit s b u 3 cause else s

/-- A unit's seen faults of a kind in the last `span` nanoseconds. -/
def faultsSeen (s : State) (b u kind span : Nat) : Nat :=
  (s.unitFaults.filter (fun f => f.block == b && f.unit == u && f.kind == kind && decide (s.clock < f.time + span))).length

/-- A fault of a unit noted with its time. -/
def noteFault (s : State) (b u kind : Nat) : State := { s with unitFaults := ⟨b, u, kind, s.clock⟩ :: s.unitFaults }

/-- The event bit by which a block reports a fence. -/
def fenceEv (s : State) (b : Nat) : State :=
  match b with
  | 2 => ev s TOL_EVENT.FENCE_EV
  | 3 => ev s CUL_EVENT.FENCE_EV
  | 4 => ev s VAT_EVENT.FENCE_EV
  | 5 => ev s PRS_EVENT.FENCE_EV
  | 6 => ev s RIND_EVENT.FENCE_EV
  | 7 => ev s RIND_EVENT.FENCE_EV
  | _ => s

/-- Fabric hours in nanoseconds. -/
def hourNs : Nat := 3600 * 10 ^ 9

/-! Press arrays as units. -/

/-- Array `a`. -/
def arrayOf (s : State) (a : Nat) : ArrayRec := s.arrays.toList.getD a .idle

/-- Whether an array has a MAC in flight or a drain pending. -/
def ArrayRec.inFlight (r : ArrayRec) : Bool := !r.drains.isEmpty || !r.macs.isEmpty

/-- Whether the array serves an invocation: it has work in flight or a chain runs on it. -/
def arrayBusy (s : State) (a : Nat) : Bool := (arrayOf s a).inFlight || s.contexts.any (fun c => c.2.chains.any (fun k => k.phys == a))

/-- The arrays with a MAC in flight or a drain pending (PRS_STATUS.ARRAYS_BUSY). -/
def busyMask (s : State) : Nat := maskOf ((List.range 8).filter (fun a => (arrayOf s a).inFlight))

/-- The arrays that serve a job (PLT_JOB_PLACE.ARRAYS). -/
def servedMask (s : State) (j : JobId) : Nat := maskOf ((List.range 8).filter (fun a => (arrayOf s a).owner == some j))

/-- The array whose pin is held by a job, if any. -/
def pinnedTo (s : State) (a : Nat) : Option JobId := (List.finRange 16).find? (fun j => bit (fget s PLT_JOB_PIN.ARRAYS j 0) a)

/-- A fenced array's pin released (R515). -/
def losePin (s : State) (a : Nat) : State :=
  match pinnedTo s a with
  | none => s
  | some j => ev (fset (fset s PLT_JOB_PIN.ARRAYS j 0 (fget s PLT_JOB_PIN.ARRAYS j 0 - 2 ^ a)) PLT_JOB_PIN.PIN_LOST j 0 1) PLT_EVENT.PIN_EV

/-- Whether Pilot may place the chains of an array on another: it is live and idle, and not pinned to another job (R214, R514, R516). -/
def takesChains (s : State) (a b : Nat) : Bool :=
  unitState s 5 b != 1 && !arrayBusy s b && ((pinnedTo s b).isNone || pinnedTo s b == (arrayOf s a).owner)

/-- The chains of a fenced array run again on a live idle one: what they hold does not change. While there is none, they wait (R214, R516). -/
def replaceArray (s : State) (a : Nat) : State :=
  if ¬ arrayBusy s a then s
  else
    match (List.finRange 8).find? (fun (b : Fin 8) => takesChains s a b) with
    | none => s
    | some b =>
      let s := { s with
        arrays := s.arrays.set b (arrayOf s a)
        contexts := s.contexts.map (fun c => (c.1, { c.2 with chains := c.2.chains.map (fun k => if k.phys == a then { k with phys := b.val } else k) })) }
      let s := if h : a < 8 then { s with arrays := s.arrays.set a .idle } else s
      ev s PLT_EVENT.REPLACE_EV

/-- The chains that still wait on fenced arrays placed again, where a live array can take them (R516). -/
def replaceFenced (s : State) : State := ((List.range 8).filter (fun a => unitState s 5 a == 1)).foldl replaceArray s

/-! Fencing. -/

/-- The units of a domain all fenced: it enters P3, except where it holds data (R621, R623). -/
def fencedDomain (s : State) (b u : Nat) : State :=
  let d := unitDomain b u
  if holdsData s d then s
  else if (List.range 11).all (fun k => (List.range (unitCount k)).all (fun n => unitDomain k n != d || unitState s k n == 1)) then sleepDomain s d 3
  else s

/-- The work of a class goes on with other units of it, where there are any (R516). -/
def workMoved (s : State) (k : Nat) : State := if workers s k ≠ [] ∧ 0 < liveUnits s k then ev s PLT_EVENT.REPLACE_EV else s

/-- What a fence does to the unit's work (R157, R482, R515, R516, R649). -/
def replaceWork (s : State) (b u : Nat) : State :=
  match b with
  | 1 => emit (qpErrors s (qpsWhere s (fun q => fget s RDMA_QP_CFG.PORT q 0 == u && qpState s q != 0)) 8) (.laser (Fin.ofNat 16 u) false)
  | 2 => workMoved s 2
  | 3 => workMoved s 3
  | 5 => replaceArray (losePin s u) u
  | _ => s

/-- A redirected bank's unreadable lines of the usable Vat are poisoned as its lines are copied to the backing area (R157, assumption 84). -/
def poisonUnread (s : State) (b : Nat) : State :=
  let bad := ((List.range 49152).map (fun r => 2048 * r + b)).filter (fun l => Config.unreadable l s.clock && !s.poison.contains l)
  if bad.isEmpty then s else ev { s with poison := bad ++ s.poison } VAT_EVENT.POISON_EV

/-- A bank redirected to a backing area (R157). -/
def redirectBank (s : State) (u : Nat) : State :=
  poisonUnread { fset s VAT_BANK_STATE.REMAP u 0 s.remap.length with remap := s.remap ++ [(u, s.remap.length)] } u

/-- A unit fenced, with its cause; a bank is redirected, or marked FAILING once no backing area is free (R157, R158, R588). -/
def fence (s : State) (b u cause : Nat) : State :=
  if unitState s b u = 1 then s
  else if b = 4 ∧ 64 ≤ s.remap.length then
    if unitState s b u = 2 then s else ev (set1 (setUnit s 4 u 2 cause) VAT_STATUS.SERVICE_REQ 1) VAT_EVENT.FENCE_EV
  else
    let s := if b = 4 then redirectBank s u else s
    let s := setUnit s b u 1 cause
    let s := ev (fenceEv (logModule s 0x41 b u) b) TRI_EVENT.FENCE_EV
    fencedDomain (replaceWork s b u) b u

/-- A second fault of a kind inside its span fences the unit (R588). -/
def faultFence (s : State) (b u kind span cause limit : Nat) : State :=
  let s := noteFault s b u kind
  if limit ≤ faultsSeen s b u kind span then fence s b u cause else s

/-- A failed residue check on a unit that the module names and the spec's commands do not: the unit, a lane or for an operation that transforms also an NTT pipeline, is a free value (R330, R588, assumption 5). -/
def residueFault (ntt : Bool) (s : State) : State :=
  let (v, s) := freeValue s
  let s := ev (count s RIND_RESIDUE_CNT.COUNT 0 0 1) RIND_EVENT.RESIDUE_EV
  let u := v.toNat % (if ntt then 8224 else 8192)
  if u < 8192 then faultFence s 6 u 1 (10 ^ 9) 2 2 else faultFence s 7 (u - 8192) 1 (10 ^ 9) 2 2

/-- The failed residue checks of an operation, which `ntt` says transforms: each run that failed (R330). -/
def residueRuns (s : State) (ntt : Bool) (bad : Nat) : State := (List.range bad).foldl (fun t _ => residueFault ntt t) s

/-- The runs of n operations of Rind that a residue check fails: 0, 1 or both, a free value for each (R330, assumption 5). -/
def residueDraws (s : State) (n : Nat) : List Nat × State := ((List.range n).map (fun i => (Config.residueBad (s.fresh + i)).val), takeDraws s n)

/-! Commands. -/

/-- Whether a unit exists. -/
def unitExists (b u : Nat) : Bool := decide (u < unitCount b)

/-- An UNFENCE: the known-answer test runs, and the unit is LIVE where it passes (R590, R649). -/
def unfence (s : State) (b u : Nat) (kat : Bool) : Nat × State :=
  if b = 4 ∧ s.remap.any (fun e => e.1 == u) ∨ fget s TRI_UNIT_STATE.CAUSE b u = 7 ∧ unitState s b u = 1 then (8, s)
  else if ¬ kat then (8, if unitState s b u = 1 then s else fence s b u 1)
  else
    let s := setUnit s b u 0 0
    let s := if b = 1 ∧ bit (get1 s LND_CTRL.PORT_EN) u then lightPort (wakeDomain s (3 + u)) (Fin.ofNat 16 u) else s
    (0, s)

/-- A command on a unit (R589): its STATUS and the machine. -/
def unitCommand (s : State) (b u gen op : Nat) (kat : Bool) : Nat × State :=
  if ¬ unitExists b u then (8, s)
  else if gen ≠ fget s TRI_UNIT_STATE.GEN b u then (7, ev s TRI_EVENT.STALE_EV)
  else if op = 2 then unfence s b u kat
  else
    let t := fence s b u 6
    (if unitState t b u = 1 then 0 else 8, t)

/-! Known-answer tests. -/

/-- An engine's tests started (R149, R150, R262, R305, R306, R353, R597). -/
def runKat (s : State) (e : KatEngine) : State := if s.katRuns.contains e then s else { s with katRuns := s.katRuns ++ [e] }

/-- A write of an engine's CTRL register: its fields are stored, and KAT_RUN, bit `n`, starts the tests. -/
def writeCtrl (s : State) (r : Reg) (n : Nat) (e : KatEngine) (v : Nat) : State :=
  let s := storeReg s r 0 0 v
  if bit v n then runKat s e else s

/-- PRS_KAT_RUN (R262): a write of PRS_CTRL. -/
def execPrsKatRun (v : BitVec 32) (s : State) : Res := .next (writeCtrl s .PRS_CTRL 1 .press v.toNat)

/-- WRP_KAT_RUN (R305): a write of WRP_CTRL. -/
def execWrpKatRun (v : BitVec 32) (s : State) : Res := .next (writeCtrl s .WRP_CTRL 1 .wrap v.toNat)

/-- SKM_KAT_RUN (R306): a write of SKM_CTRL. -/
def execSkmKatRun (v : BitVec 32) (s : State) : Res := .next (writeCtrl s .SKM_CTRL 1 .skim v.toNat)

/-- TRI_KAT_RUN (R597): a write of TRI_CTRL. -/
def execTriKatRun (v : BitVec 32) (s : State) : Res := .next (writeCtrl s .TRI_CTRL 1 .trier v.toNat)

/-- The result of an engine's tests shown. -/
def katStatus (s : State) (e : KatEngine) (ok : Bool) : State :=
  match e with
  | .toll => set1 (set1 s TOL_STATUS.KAT_DONE 1) TOL_STATUS.KAT_PASS (flag ok)
  | .culture => set1 (set1 s CUL_STATUS.KAT_DONE 1) CUL_STATUS.KAT_PASS (flag ok)
  | .press => set1 (set1 s PRS_STATUS.KAT_DONE 1) PRS_STATUS.KAT_PASS (flag ok)
  | .wrap => set1 (set1 s WRP_STATUS.KAT_DONE 1) WRP_STATUS.KAT_PASS (flag ok)
  | .skim => set1 (set1 s SKM_STATUS.KAT_DONE 1) SKM_STATUS.KAT_PASS (flag ok)
  | .rind => set1 (set1 s RIND_STATUS.KAT_DONE 1) RIND_STATUS.KAT_PASS (flag ok)
  | .trier => set1 (set1 s TRI_STATUS.KAT_DONE 1) TRI_STATUS.KAT_PASS (flag ok)

/-- The event of a failed test. -/
def katFailEv (s : State) (e : KatEngine) : State :=
  match e with
  | .toll => ev s TOL_EVENT.KAT_FAIL_EV
  | .culture => ev s CUL_EVENT.KAT_FAIL_EV
  | .press => ev s PRS_EVENT.KAT_FAIL_EV
  | .wrap => ev s WRP_EVENT.KAT_FAIL_EV
  | .skim => ev s SKM_EVENT.KAT_FAIL_EV
  | .rind => ev s RIND_EVENT.KAT_FAIL_EV
  | .trier => s

/-- A unit whose known-answer test failed is fenced where it exists (R588). -/
def katFence (s : State) (u : Fin 11 × Nat) : State := if unitExists u.1 u.2 then fence s u.1 u.2 1 else s

/-- KAT_COMPLETE (R588): an engine's tests complete; a unit that failed is fenced. -/
def execKatComplete (e : KatEngine) (bad : Option (Fin 11 × Nat)) (s : State) : Res :=
  .next (if ¬ s.katRuns.contains e then s
    else
      let s := katStatus { s with katRuns := s.katRuns.erase e } e bad.isNone
      match bad with
      | none => s
      | some u => katFence (katFailEv s e) u)

/-! Field ports as units. -/

/-- OPTICAL_OVERTEMP (R649): an optical engine at 80 °C: its laser goes off and its port is fenced. -/
def execOpticalOvertemp (p : Port) (milliC : Int) (s : State) : Res :=
  .next (if milliC < 80000 then s else fence (ev s PWR_EVENT.TRIP_EV) 1 p 0)

/-- PORT_DOWN_TIMEOUT (R588): an enabled port's link has been down for 10 s, and the port is fenced. -/
def execPortDownTimeout (p : Port) (s : State) : Res :=
  .next (match lookup s.portDown p.val with
    | none => s
    | some t => if bit (get1 s LND_CTRL.PORT_EN) p.val ∧ t + 10 * 10 ^ 9 ≤ s.now then { fence s 1 p 5 with portDown := dropKey s.portDown p.val } else s)

end Sys2Proof.Machine
end

