-- ==== Sys2Proof/Machine/Boot.lean ====
section
/-! DEFINITION. Start-up and the module-wide resets: the boot ROM's checks and derivations (R529, R530, R533), the attestation report (R555), warm restart (R593, R628, R629), cold reset (R20, R615, R617) and the power-up sequence (R624). -/

namespace Sys2Proof.Machine

/-! The firmware image. -/

/-- The firmware image of a bank: the header and the body (R531). -/
def bankImage (s : State) (b : Fin 2) : Bytes := s.flash[b]
/-- The SVN of an image. -/
def imgSvn (i : Bytes) : Nat := leAt i 8 4
/-- The VERSION of an image. -/
def imgVersion (i : Bytes) : Nat := leAt i 16 8
/-- The LENGTH of an image's body. -/
def imgLength (i : Bytes) : Nat := leAt i 24 8
/-- The DIGEST of an image. -/
def imgDigest (i : Bytes) : Bytes := slice i 32 48
/-- The body of an image. -/
def imgBody (i : Bytes) : Bytes := slice i 256 (imgLength i)

/-- Whether the ROM accepts an image (R532, R533). -/
def imageOk (fuse : Nat) (i : Bytes) : Bool :=
  let k := leAt i 6 2
  slice i 0 4 == ascii "CURD" && leAt i 4 2 == 1 && zeroAt i 12 4 && zeroAt i 225 31 && decide (imgLength i ≤ 0x01FFFF00) &&
    (match if h : k < 2 then some (⟨k, h⟩ : Fin 2) else none with
      | none => false
      | some k => !Config.revoked k && sha384 (slice i 176 49) == Config.keyFuse k) &&
    (match decodeCompressed (slice i 176 49) with
      | none => false
      | some pub => ecdsaVerify pub (sha384 (slice i 0 80)) (slice i 80 96)) &&
    digestBytes (sha384 (imgBody i)) == imgDigest i && decide (1 ≤ imgSvn i) && decide (imgSvn i ≤ 64) && decide (fuse ≤ imgSvn i)

/-- The bank that boots: A, else B (R533). -/
def bootBank (s : State) : Option (Fin 2) :=
  if imageOk s.fuseSvn (bankImage s 0) then some 0 else if imageOk s.fuseSvn (bankImage s 1) then some 1 else none

/-! The derivations. -/

/-- A private key from 48 bytes (R529). -/
def privOf (bs : Bytes) : Nat := beNat bs % (p384N - 1) + 1

/-- prk_u (R529). -/
def prkU : Bytes := hkdfExtract (digestBytes Config.romDigest) (keyBytes Config.uds)

/-- The DevID private key. -/
def devidPriv : Nat := privOf (hkdfExpand prkU (ascii "BR1 DEVID") 48)

/-- The keys that the ROM derives from an accepted image (R529, R530). -/
def deriveKeys (s : State) (i : Bytes) : State :=
  let cdi := hkdfExtract (imgDigest i ++ toBe 4 (imgSvn i)) (keyBytes Config.uds)
  let ap := privOf (hkdfExpand cdi (ascii "BR1 ALIAS") 48)
  { s with
    aliasPriv := ap
    devidPub := publicOf devidPriv
    endorse := ecdsaSign devidPriv (sha384 (publicOf ap ++ imgDigest i ++ toBe 4 (imgSvn i)))
    tagKey := hkdfExpand prkU (ascii "BR1 KST TAG") 32 }

/-- The running image's registers (KST_FW, KST_FW_DIGEST). -/
def showImage (s : State) (b : Fin 2) (i : Bytes) : State :=
  let s := set1 (set1 (set1 s KST_FW.SVN (imgSvn i)) KST_FW.BANK b.val) KST_FW.FUSED_SVN s.fuseSvn
  { setGroup s KST_FW_DIGEST.DIGEST 0 (imgDigest i) 6 with fwVersion := imgVersion i }

/-- The running image's digest as it is reported. -/
def fwDigest (s : State) : Bytes := List.flatten ((List.range 6).map (fun n => toLe 8 (fget s KST_FW_DIGEST.DIGEST 0 n)))

/-- The firmware recipes' share of the store (R356, R398). -/
def firmwareWords (s : State) : Nat := ((List.range 512).map (fun n => ((recipeOf s n).map (fun r => r.2.2.2.length)).getD 0)).sum

/-- The store's registers after the firmware is loaded. -/
def showStore (s : State) : State := storeCounts (set1 s HIF_RCP_STORE.FW_USED (firmwareWords s))

/-- The seal of a private key in the lowest usable firmware slot (R530): the alias key, which signs. -/
def placeAlias (s : State) : State :=
  match (List.range 16).find? (fun n => fget s KST_SLOT_INFO.STATE n 0 == 0) with
  | none => s
  | some n => fillSlot s n 2 16 4 0 0 (toBe 48 s.aliasPriv)

/-! The attestation report. -/

/-- The FLAGS of a report (R555). -/
def reportFlags (s : State) (conf : Bool) : Nat :=
  flag conf + 2 * get1 s KST_STATUS.DEBUG_LOCKED + 4 * get1 s KST_STATUS.CLEAR_WRITTEN + 8 * get1 s KST_FW.BANK

/-- Bytes 0 to 727 of a job's attestation report (R555). -/
def reportBody (s : State) (j : JobId) (data : Bytes) : Bytes :=
  let J := s.job j
  ascii "BR1A" ++ [1] ++ toBe 1 (reportFlags s J.confidential) ++ zeros 2 ++ toBe 8 Config.serial.toNat ++ toBe 4 (get1 s KST_FW.SVN) ++
    toBe 4 (get1 s KST_FW.FUSED_SVN) ++ toBe 8 s.fwVersion ++ fwDigest s ++
    digestBytes (Config.recipeDigest (BitVec.ofNat 384 (beNat (fwDigest s)))) ++ toBe 4 (fget s LND_JOB_TAG.TAG j 0) ++ toBe 1 j.val ++ zeros 3 ++
    digestBytes (sha384 J.policy) ++ toBe 8 s.now ++ data ++ publicOf J.offerPriv ++ publicOf J.importPriv ++ publicOf s.aliasPriv ++
    s.devidPub ++ s.endorse ++ zeros 4

/-- A job's attestation report. -/
def report (s : State) (j : JobId) (data : Bytes) : Bytes :=
  let b := reportBody s j data
  b ++ ecdsaSign s.aliasPriv (sha384 b)

/-! The entropy unit at a reset. -/

/-- The unit enters STARTUP, unless PERM_FAIL holds it in FAILED (R547, R550): what it had staged is discarded and the requests wait. -/
def entropyStartup (s : State) : State :=
  if on s ENT_STATUS.PERM_FAIL then set1 s ENT_STATUS.STATE 2
  else
    { set1 s ENT_STATUS.STATE 0 with
      wireWait := s.staged ++ s.wireWait
      staged := []
      swBytes := 0
      latches := get1 s ENT_CTRL.LATCH_EN }

/-! Module-wide resets. -/

/-- Where a reset leaves the field ports: their domains in P3, their lasers off, until PORT_EN is set (R618, R627, R649). -/
def portsOff (s : State) : State :=
  (List.finRange 16).foldl (fun t (p : Port) => fset t PWR_DOM_STATE.STATE (3 + p.val) 0 3) s

/-- The lasers of the enabled ports go off as a reset reaches the ports (R627, R649). -/
def lasersOff (s : State) : State :=
  (List.finRange 16).foldl (fun t (p : Port) => if bit (get1 s LND_CTRL.PORT_EN) p.val then emit t (.laser p false) else t) s

/-- An outage begins where a reset was not requested (R595). -/
def startOutage (s : State) (requested : Bool) : State :=
  if requested ∨ s.outageFrom.isSome then s else { s with outageFrom := some s.clock }

/-- The host functions as numbers. -/
def allFuncs : List Nat := List.range 17

/-- The round ends of every job, posted before a warm restart (R593). -/
def restartEnds (s : State) : State :=
  (List.finRange 16).foldl (fun t (j : JobId) => if fget t HIF_VF_CQ_CFG.ENABLE j 0 = 1 ∧ ¬ (t.job j).silent then endRounds t j 10 else t) s

/-- Whether a field keeps its value across a warm restart: the COLD domain, and the attributes of a slot that is not erased (R20, R540). -/
def keptWarm (s : State) (k : RKey) : Bool :=
  k.dom == .COLD || ((k.reg == .KST_SLOT_INFO || k.reg == .KST_SLOT_USE) && fget s KST_SLOT_INFO.EXPIRE k.major 0 == 0)

/-- The slots with EXPIRE erased (R540). -/
def expireSlots (s : State) : State :=
  (List.range 256).foldl (fun t n =>
    if fget t KST_SLOT_INFO.STATE n 0 = 1 ∧ fget t KST_SLOT_INFO.EXPIRE n 0 = 1 then
      let t := eraseSlot t n
      { t with keyTag := putN t.keyTag n [] }
    else t) s

/-- What a warm restart leaves of the machine: the WARM, JOB and ENGINE domains cleared (R593, R629). -/
def warmClear (s : State) : State :=
  { State.reset with
    pending := s.pending
    regs := keepKeys (keptWarm s) s.regs
    clock := s.clock
    remap := s.remap
    unitFaults := s.unitFaults
    keyMat := s.keyMat
    keyTag := s.keyTag
    aliasPriv := s.aliasPriv
    devidPub := s.devidPub
    endorse := s.endorse
    tagKey := s.tagKey
    fwVersion := s.fwVersion
    fuseSvn := s.fuseSvn
    flash := s.flash
    spdm := { Spdm.start with ideKeys := s.spdm.ideKeys }
    tspLocked := s.tspLocked
    ideOn := s.ideOn
    inputOn := s.inputOn
    holds := s.holds
    trips := s.trips
    lastBoot := s.lastBoot
    outageFrom := s.outageFrom
    trst := s.trst
    testMode := s.testMode
    cells := s.cells
    peakBase := s.clock
    hailCount := s.hailCount
    fresh := s.fresh
    out := s.out }

/-- The sends of an end aborted: their receiver was reset (R444, R446). -/
def abortSend (s : State) (e : FerryEnd) : State := raise (fset s FERRY_TX_STAT.ABORTED e 0 1) (Fin.ofNat 17 (min e.val 16)) 1

/-- A module warm restart (R444, R593, R629, R635), with its cause and whether it was requested. -/
def warmRestart (s : State) (cause : Nat) (requested : Bool) : State :=
  let s := lasersOff (startOutage (expireSlots (restartEnds s)) requested)
  let img := (List.range 6).map (fun n => fget s KST_FW_DIGEST.DIGEST 0 n)
  let t := warmClear s
  let t := set1 (set1 t KST_FW.SVN (get1 s KST_FW.SVN)) KST_FW.BANK (get1 s KST_FW.BANK)
  let t := img.zipIdx.foldl (fun t e => fset t KST_FW_DIGEST.DIGEST 0 e.2 e.1) t
  let t := set1 (set1 t KST_STATUS.USABLE (usableSlots t)) PWR_STATUS.BOOT_STAGE 5
  let t := portsOff (showAllUnits (showStore (entropyStartup t)))
  let t := set1 (set1 (countSat t PWR_RESET_CAUSE.WARM_COUNT 0 0 1) PWR_RESET_CAUSE.KIND 1) PWR_RESET_CAUSE.CAUSE cause
  let t := if requested then t else countSat t TRI_AVAIL.RESTARTS 0 0 1
  (List.finRange 18).foldl abortSend (ev { t with hailDue := allFuncs } TRI_EVENT.RESTART_EV)

/-- What a cold reset leaves of the machine: the fuses, the flash, what holds the module in reset, and the world outside it. -/
def coldClear (s : State) : State :=
  { State.reset with
    pending := s.pending
    clock := s.clock
    fuseSvn := s.fuseSvn
    flash := s.flash
    inputOn := s.inputOn
    holds := s.holds
    trips := s.trips
    lastBoot := s.lastBoot
    outageFrom := s.outageFrom
    trst := s.trst
    testMode := s.testMode
    cells := s.cells
    peakBase := s.clock
    fresh := s.fresh
    out := s.out }

/-- The units that a fuse marks faulty, FENCED with CAUSE 7 (R624). -/
def fuseUnits (s : State) : State :=
  (List.range 11).foldl (fun t b => (List.range (unitCount b)).foldl (fun t u => if Config.fusedUnit b u then setUnit t b u 1 7 else t) t) s

/-- The slots that the fuses or the start-up patterns mark BAD (R538). -/
def badSlots (s : State) (b : Boot) : State :=
  let s := (List.range 256).foldl (fun t n =>
    if Config.fusedBad n || b.badSlots.any (fun k => k.val == n) then fset t KST_SLOT_INFO.STATE n 0 2 else t) s
  set1 s KST_STATUS.USABLE (usableSlots s)

/-- The engines' known-answer tests of the start-up: they have completed, and a unit that failed is fenced (R624). -/
def bootTests (s : State) (b : Boot) : State :=
  let pass := fun (bs : List Nat) => b.badUnits.all (fun u => !bs.contains u.1.val)
  let s := katStatus (katStatus (katStatus s .toll (pass [2])) .culture (pass [3])) .press (pass [5])
  let s := katStatus (katStatus (katStatus s .wrap (pass [8, 9])) .skim true) .rind (pass [6, 7])
  b.badUnits.foldl katFence (katStatus s .trier (pass [10]))

/-- An accepted bank's image started: the keys derived, the registers, the recipes and the known-answer tests (R529, R530, R533, R624). -/
def startImage (s : State) (k : Fin 2) (b : Boot) (fwMs : Nat) : State :=
  let i := bankImage s k
  let s := placeAlias (deriveKeys (showImage s k i) i)
  let s := if k = 1 then ev (set1 s PWR_BOOT.FROM_B 1) KST_EVENT.BANK_B_EV else s
  let s := set1 (set1 s PWR_BOOT.FW_MS fwMs) PWR_STATUS.BOOT_STAGE 5
  choosePower { bootTests (showStore s) b with hailDue := allFuncs }

/-- The power-up sequence from the ROM on (R533, R624, R625): the accepted bank boots, or the recovery loader runs. -/
def powerUp (s : State) (b : Boot) (cause : Nat) : State :=
  let s := badSlots (fuseUnits { s with lastBoot := some b }) b
  let s := set1 (set1 (set1 s PWR_RESET_CAUSE.KIND 0) PWR_RESET_CAUSE.CAUSE cause) KST_FW.FUSED_SVN s.fuseSvn
  let s := portsOff (entropyStartup s)
  let s := set1 s PWR_BOOT.READY_MS b.readyMs
  match bootBank s with
  | none => set1 s PWR_STATUS.BOOT_STAGE 15
  | some k => startImage s k b b.fwMs

/-- What a start-up finds where the reset that caused it brings no new findings. -/
def bootFindings (s : State) : Boot := s.lastBoot.getD ⟨[], [], 50, 420⟩

/-- The module leaves cold reset where nothing holds it there. -/
def leaveCold (s : State) (cause : Nat) : State := if s.inputOn ∧ s.holds = [] then powerUp s (bootFindings s) cause else s

/-- A cold reset with its cause (R20, R595, R635): the module powers up again unless something holds it. -/
def coldReset (s : State) (cause : Nat) (requested : Bool) : State := leaveCold (coldClear (lasersOff (startOutage s requested))) cause

/-- A slot that failed its tag under a use (R537): a job's slot aborts the job, a firmware slot restarts the module. -/
def integrityOutcome (s : State) (n : Nat) (st : SStat) : State :=
  if st = .integrityFail then
    let o := fget s KST_SLOT_INFO.OWNER n 0
    if o < 16 then abortJob s (Fin.ofNat 16 o) 5 0 false else if o = 16 then warmRestart s 11 false else s
  else s

/-- A use of a slot with what a failed tag brings about (R536, R537, R539). -/
def takeSlot (s : State) (n agent type useBit : Nat) : SStat × State :=
  let (st, s) := useSlot s n agent type useBit
  (st, integrityOutcome s n st)

end Sys2Proof.Machine
end

