-- ==== Sys2Proof/Machine/Float.lean ====
section
/-! DEFINITION. The floating-point formats that the banks, Wrap and Skim use (spec/04 R183, spec/06 R267, R270, R275): IEEE 754 binary64 and binary32, BF16 and the two FP8 formats, computed exactly over the rationals and rounded once. -/

namespace Sys2Proof.Machine

/-- A floating-point datum: NaN, a signed infinity, or a sign and a magnitude (so that −0 and +0 differ). -/
inductive Flt where
  | nan
  | inf (neg : Bool)
  | fin (neg : Bool) (mag : ℚ)
  deriving DecidableEq, Repr

/-- A format: exponent bits, mantissa bits, and the largest finite magnitude. -/
structure Fmt where
  eb : Nat
  mb : Nat
  top : ℚ
  deriving DecidableEq, Repr

/-- Two to an integer power. -/
def two (e : Int) : ℚ := if 0 ≤ e then (2 ^ e.toNat : ℚ) else 1 / (2 ^ (-e).toNat : ℚ)

/-- The exponent bias of a format. -/
def Fmt.bias (f : Fmt) : Int := 2 ^ (f.eb - 1) - 1

/-- The largest finite magnitude of an IEEE format of these widths. -/
def ieeeTop (eb mb : Nat) : ℚ := (2 - two (-(mb : Int))) * two (2 ^ (eb - 1) - 1)

/-- IEEE 754 binary64. -/
def f64 : Fmt := ⟨11, 52, ieeeTop 11 52⟩

/-- IEEE 754 binary32. -/
def f32 : Fmt := ⟨8, 23, ieeeTop 8 23⟩

/-- BF16. -/
def bf16 : Fmt := ⟨8, 7, ieeeTop 8 7⟩

/-- FP8 E4M3: no infinity, largest finite value 448 (R275). -/
def e4m3 : Fmt := ⟨4, 3, 448⟩

/-- FP8 E5M2. -/
def e5m2 : Fmt := ⟨5, 2, ieeeTop 5 2⟩

/-- The integer e with 2^e ≤ m < 2^(e+1), for m > 0. -/
def expOf (m : ℚ) : Int :=
  let e : Int := (Nat.log2 m.num.toNat : Int) - (Nat.log2 m.den : Int)
  if two e ≤ m then e else e - 1

/-- The step between the representable magnitudes around m. -/
def Fmt.step (f : Fmt) (m : ℚ) : ℚ :=
  two (max (if m = 0 then 1 - f.bias else expOf m) (1 - f.bias) - f.mb)

/-- A magnitude rounded to the nearest multiple of a step, a tie to the even multiple (R270). -/
def nearestEven (m st : ℚ) : ℚ :=
  let q := m / st
  let n := q.floor
  let r := q - n
  let n := if r < 1 / 2 then n else if 1 / 2 < r then n + 1 else if n % 2 = 0 then n else n + 1
  n * st

/-- A datum rounded to a format, to nearest with ties to even; beyond the largest finite value it becomes infinite. -/
def Fmt.round (f : Fmt) : Flt → Flt
  | .fin s m =>
    let r := nearestEven m (f.step m)
    if f.top < r then .inf s else .fin s r
  | x => x

/-- The negation of a datum. -/
def Flt.neg : Flt → Flt
  | .nan => .nan
  | .inf s => .inf !s
  | .fin s m => .fin (!s) m

/-- The rational value of a finite datum; zero for the others. -/
def Flt.val : Flt → ℚ
  | .fin s m => if s then -m else m
  | _ => 0

/-- Whether a datum is finite. -/
def Flt.isFin : Flt → Bool
  | .fin _ _ => true
  | _ => false

/-- A rational as a datum; zero is +0. -/
def Flt.ofRat (q : ℚ) : Flt := if q < 0 then .fin true (-q) else .fin false q

/-- The exact sum of two data (IEEE 754: −0 only from two negative zeros). -/
def Flt.add : Flt → Flt → Flt
  | .nan, _ => .nan
  | _, .nan => .nan
  | .inf s, .inf t => if s = t then .inf s else .nan
  | .inf s, _ => .inf s
  | _, .inf t => .inf t
  | .fin s a, .fin t b =>
    if a = 0 ∧ b = 0 then .fin (s && t) 0 else .ofRat ((Flt.fin s a).val + (Flt.fin t b).val)

/-- The exact product of two data. -/
def Flt.mul : Flt → Flt → Flt
  | .nan, _ => .nan
  | _, .nan => .nan
  | .inf s, .inf t => .inf (s != t)
  | .inf s, .fin t b => if b = 0 then .nan else .inf (s != t)
  | .fin s a, .inf t => if a = 0 then .nan else .inf (s != t)
  | .fin s a, .fin t b => .fin (s != t) (a * b)

/-- The exact quotient of two data. -/
def Flt.div : Flt → Flt → Flt
  | .nan, _ => .nan
  | _, .nan => .nan
  | .inf _, .inf _ => .nan
  | .inf s, .fin t _ => .inf (s != t)
  | .fin s _, .inf t => .fin (s != t) 0
  | .fin s a, .fin t b => if b = 0 then (if a = 0 then .nan else .inf (s != t)) else .fin (s != t) (a / b)

/-- Whether a datum is below another, −0 below +0 (R183, R286); false when either is NaN. -/
def Flt.lt : Flt → Flt → Bool
  | .nan, _ => false
  | _, .nan => false
  | .inf s, .inf t => s && !t
  | .inf s, .fin _ _ => s
  | .fin _ _, .inf t => !t
  | .fin s a, .fin t b =>
    if a = 0 ∧ b = 0 then s && !t else decide ((Flt.fin s a).val < (Flt.fin t b).val)

/-- Whether a datum is less than another by value: the two zeros are equal (R265, R269, R299). -/
def Flt.below (a b : Flt) : Bool :=
  match a, b with
  | .fin _ _, .fin _ _ => decide (a.val < b.val)
  | _, _ => a.lt b

/-- The larger of two data; NaN when either is NaN. -/
def Flt.max (a b : Flt) : Flt := if a = .nan ∨ b = .nan then .nan else if a.lt b then b else a

/-- The smaller of two data; NaN when either is NaN. -/
def Flt.min (a b : Flt) : Flt := if a = .nan ∨ b = .nan then .nan else if b.lt a then b else a

/-- The code of a datum that the format represents; the caller gives the codes of NaN and of +∞. -/
def Fmt.encode (f : Fmt) (nanCode infCode : Nat) : Flt → Nat
  | .nan => nanCode
  | .inf s => infCode + (if s then 2 ^ (f.eb + f.mb) else 0)
  | .fin s m =>
    let sg := if s then 2 ^ (f.eb + f.mb) else 0
    if m = 0 then sg
    else
      let e := expOf m
      if e < 1 - f.bias then sg + (m / two (1 - f.bias - f.mb)).floor.toNat
      else sg + (e + f.bias).toNat * 2 ^ f.mb + ((m / two e - 1) * two f.mb).floor.toNat

/-- The datum of an IEEE code: an exponent field of all ones is NaN or infinite. -/
def Fmt.decode (f : Fmt) (v : Nat) : Flt :=
  let s := bit v (f.eb + f.mb)
  let e := bits v (f.eb + f.mb - 1) f.mb
  let m := v % 2 ^ f.mb
  if e = 2 ^ f.eb - 1 then (if m = 0 then .inf s else .nan)
  else if e = 0 then .fin s (m * two (1 - f.bias - f.mb))
  else .fin s ((1 + m * two (-(f.mb : Int))) * two (e - f.bias))

/-- The datum of an FP8 E4M3 code: only 0x7F and 0xFF are NaN. -/
def decodeE4m3 (v : Nat) : Flt :=
  if v % 128 = 127 then .nan
  else if bits v 6 3 = 15 then .fin (bit v 7) ((1 + (v % 8 : Nat) / 8) * two 8)
  else e4m3.decode v

/-- A binary32 code as a datum. -/
def dec32 (v : Nat) : Flt := f32.decode v

/-- A datum as a binary32 code, rounded to nearest even; NaN is 0x7FC0_0000 (R183, R275). -/
def enc32 (x : Flt) : Nat := f32.encode 0x7FC00000 0x7F800000 (f32.round x)

/-- A binary64 code as a datum. -/
def dec64 (v : Nat) : Flt := f64.decode v

/-- A datum as a binary64 code, rounded to nearest even. -/
def enc64 (x : Flt) : Nat := f64.encode 0x7FF8000000000000 0x7FF0000000000000 (f64.round x)

/-- A BF16 code as a datum. -/
def decBf16 (v : Nat) : Flt := bf16.decode v

/-- The two representable neighbours of a magnitude in a format and the fraction F of R271. -/
def Fmt.around (f : Fmt) (m : ℚ) : ℚ × ℚ × Nat :=
  let st := f.step m
  let lo := (m / st).floor * st
  (lo, lo + st, (2 ^ 16 * ((m - lo) / st)).floor.toNat)

/-! Powers and logarithms of base 2, in steps of 2^-16, for Rind's budgets (R331). -/

/-- The integer square root by bits, from bit n − 1 down. -/
def rootBits (v : Nat) : Nat → Nat → Nat
  | 0, r => r
  | n + 1, r => rootBits v n (if (r + 2 ^ n) ^ 2 ≤ v then r + 2 ^ n else r)

/-- 2 to the power 2^-n, in units of 2^-128. -/
def rootTwo : Nat → Nat
  | 0 => 2 ^ 129
  | n + 1 => rootBits (rootTwo n * 2 ^ 128) 130 0

/-- 2^(f / 65536) for f below 65536, in units of 2^-128. -/
def powFrac (f : Nat) : Nat := (List.range 16).foldl (fun a i => if bit f i then a * rootTwo (16 - i) / 2 ^ 128 else a) (2 ^ 128)

/-- 2^(v / 65536). -/
def powTwo (v : Int) : ℚ := (powFrac (v % 65536).toNat : ℚ) / 2 ^ 128 * two (v / 65536)

/-- The next n bits of the fraction of a base-2 logarithm of m in [1, 2), which is in units of 2^-128. -/
def logBits : Nat → Nat → Nat → Nat
  | 0, _, acc => acc
  | n + 1, m, acc =>
    let q := m * m / 2 ^ 128
    if 2 ^ 129 ≤ q then logBits n (q / 2) (2 * acc + 1) else logBits n q (2 * acc)

/-- The base-2 logarithm of a magnitude in [1, 2). -/
def logTwo (m : ℚ) : ℚ := (logBits 110 (m * 2 ^ 128).floor.toNat 0 : ℚ) / 2 ^ 110

/-- A magnitude rounded to binary64. -/
def round64 (m : ℚ) : ℚ := nearestEven m (f64.step m)

/-! The exponential function, for the activations of R268. -/

/-- A rational cut to a multiple of 2^-2048. -/
def cut (q : ℚ) : ℚ := (q * two 2048).floor * two (-2048)

/-- The first `n` terms of the series of e^−y from a term on, by Horner's rule, cut at each step. -/
def expSeries (y : ℚ) : Nat → Nat → ℚ
  | 0, _ => 1
  | n + 1, k => cut (1 - y / k * expSeries y n (k + 1))

/-- A number squared `n` times over, cut at each step. -/
def squares : Nat → ℚ → ℚ
  | 0, q => q
  | n + 1, q => squares n (cut (q * q))

/-- e^−y for y ≥ 0, within a relative error below 2^-100; 0 where it is below 2^-1586. -/
def expNeg (y : ℚ) : ℚ := if 1100 < y then 0 else squares 12 (expSeries (y / 4096) 40 1)

/-- The logistic function 1 / (1 + e^−w). -/
def logistic (w : ℚ) : ℚ := if 0 ≤ w then 1 / (1 + expNeg w) else expNeg (-w) / (1 + expNeg (-w))

end Sys2Proof.Machine
end

