-- ==== Sys2Proof/Machine/Vat.lean ====
section
/-! DEFINITION. The banks of the Vat: reads with their SECDED outcome (R154, R187), writes (R155), the near-memory operations (R183), the patrol scrubber (R156), the cross-job refusal (R34, R575) and the berths (R160). -/

namespace Sys2Proof.Machine

/-! Cross-job refusals. -/

/-- The job whose structure a module Vat address belongs to; 16 for a berth of no job and for the firmware region. -/
def ownerOf (s : State) (a : Nat) : Nat := if a < vatBytes then ((berthOwner s (a / 2 ^ 24)).map (·.val)).getD 16 else 16

/-- Whether an access is one that the banks refuse: of a job's work beyond its partition, or of firmware for no job inside a job's (R34, R162). -/
def refusesAccess (s : State) (i : Issuer) (a : Nat) : Bool :=
  match i.job with
  | some j => ownerOf s a != j.val
  | none => ownerOf s a != 16

/-- A refused access (R575, R588); the CAUSE of the warm restart that firmware's own refusal brings is a value the spec leaves open. -/
def isolate (s : State) (i : Issuer) (named : Nat) : State :=
  match i.job with
  | none =>
    let (v, s) := freeValue s
    warmRestart s (v.toNat % 16) false
  | some j =>
    let s := abortJob s j 11 0 false
    let s := if unitExists i.block i.unit then faultFence (suspect s i.block i.unit 8) i.block i.unit 3 (24 * hourNs) 8 2 else s
    let s := errLast s 5 j.val i.block i.unit
    ev (logModule s 0x42 j.val named) TRI_EVENT.ISOLATION_EV

/-- The number of bank operations of an access of `n` bytes (R153). -/
def bankOps (n : Nat) : Nat := (n + 31) / 32

/-- A bank access that is not refused goes on; a refused one performs nothing. -/
def bankAccess (s : State) (i : Issuer) (a n : Nat) (act : State → State) : State :=
  if refusesAccess s i a then isolate s i (ownerOf s a) else pmu (act s) 0x20 i.job (bankOps n)

/-! Reads. -/

/-- The bank of a line (R152). -/
def bankOf (line : Nat) : Nat := line % 2048

/-- Whether a module Vat line is poisoned. -/
def linePoisoned (s : State) (line : Nat) : Bool := s.poison.contains line

/-- Poison in firmware's region (R574). -/
def firmwarePoison (s : State) (line : Nat) : State := warmRestart (errLast s 4 0 4 line) 10 false

/-- A line poisoned by an uncorrectable error, and its record (R154, R588); which job the record names for a line of no job is a value the spec leaves open (assumption 5). -/
def uncorrectable (s : State) (line : Nat) : State :=
  let fw := decide (vatBytes ≤ line * 64)
  let s := ev (count (setPoison s line) VAT_ECC_UNCORR.COUNT 0 0 1) VAT_EVENT.POISON_EV
  let s := set1 (set1 s VAT_POISON_LAST.VALID 1) VAT_POISON_LAST.FW (flag fw)
  let s := if ownerOf s (line * 64) < 16 then set1 s VAT_POISON_LAST.JOB (ownerOf s (line * 64))
    else set1 (freeValue s).2 VAT_POISON_LAST.JOB ((freeValue s).1.toNat % 16)
  let s := set1 s VAT_POISON_LAST.ADDR (line * 64)
  let s := faultFence s 4 (bankOf line) 5 (24 * hourNs) 4 2
  if fw then firmwarePoison s line else s

/-- What the code of a line finds at a read (R154). -/
def eccRead (s : State) (line : Nat) (e : EccRead) : State :=
  let s := count s VAT_ECC_CORR.COUNT 0 0 e.corrected.val
  let s := (List.range e.corrected.val).foldl (fun t _ => faultFence t 4 (bankOf line) 4 hourNs 4 64) s
  if e.uncorrectable ∧ ¬ linePoisoned s line then uncorrectable s line else s

/-- The answer of a bank about a line: its bytes, or poison. -/
def answerLine (s : State) (line : Nat) : State :=
  emit s (.bank (if linePoisoned s line then none else some (vatRead s (line * 64) 64)))

/-- BANK_READ (R187): a bank reads a line. -/
def execBankRead (i : Issuer) (line : VatLine) (e : EccRead) (s : State) : Res :=
  .next (bankAccess s i (line.val * 64) 64 (fun t => answerLine (eccRead t line e) line))

/-- The lines of the Vat, the firmware region's among them (R151, R153). -/
def allLines : Nat := 102760448

/-- Whether the scrubber reads a line now: once in a pass, and a pass begins no earlier than a period after the one before (R156). -/
def scrubDue (s : State) (line : Nat) : Bool :=
  on s VAT_CTRL.SCRUB_EN && !s.scrubRead.contains line && (!s.scrubRead.isEmpty || decide (s.scrubNext ≤ s.clock))

/-- A line noted as read in the pass, which is complete once every line has been. -/
def scrubbed (s : State) (line : Nat) : State :=
  let s := if s.scrubRead.isEmpty then { s with scrubNext := s.clock + get1 s VAT_SCRUB.PERIOD_H * hourNs } else s
  if allLines ≤ s.scrubRead.length + 1 then count { s with scrubRead := [] } VAT_SCRUB.PASSES 0 0 1 else { s with scrubRead := line :: s.scrubRead }

/-- PATROL_SCRUB (R156): the scrubber reads a line. -/
def execPatrolScrub (line : VatLine) (e : EccRead) (s : State) : Res :=
  .next (if scrubDue s line then scrubbed (eccRead s line e) line else s)

/-! Writes and near-memory operations. -/

/-- An operation that reads and writes a line, after what its read finds: on a poisoned line it changes nothing and returns poison (R154, R155). -/
def onLine (a : Nat) (e : EccRead) (act : State → State) (s : State) : State :=
  let s := eccRead s (a / 64) e
  if linePoisoned s (a / 64) then emit s (.bank none) else act s

/-- Bytes of a line stored, and the issuer answered. -/
def lineStore (s : State) (a : Nat) (d ret : Bytes) : State := emit (vatWrite s a d) (.bank (some ret))

/-- An operation on bytes, as one independent operation on each line that they touch (R186). -/
def byLine (a : Nat) (d : Bytes) (act : Nat → Bytes → State → State) (s : State) : State :=
  (linesOf a d.length).foldl (fun t l => let lo := max a l; act lo (slice d (lo - a) (min (l + 64) (a + d.length) - lo)) t) s

/-- The part of a write that falls on one line: a whole line stores and clears poison; a part of a line, which the bank reads first, is not stored on a poisoned one. -/
def writePart (e : EccRead) (a : Nat) (d : Bytes) (s : State) : State :=
  if d.length = 64 then lineStore (clearPoison s (a / 64)) a d [] else onLine a e (fun s => lineStore s a d []) s

/-- LINE_WRITE (R155, R186): a bank write stores data. -/
def execLineWrite (i : Issuer) (addr : VatAddr) (d : Bytes) (e : EccRead) (s : State) : Res :=
  .next (byLine addr d (fun a d s => bankAccess s i a d.length (writePart e a d)) s)

/-- The little-endian elements of `n` bytes of a byte string. -/
def elemsOf (n : Nat) (bs : Bytes) : List Nat := (List.range (bs.length / n)).map (fun i => leAt bs (n * i) n)

/-- The elements stored over a line's bytes: each is combined with the element before. -/
def mapElems (n : Nat) (g : Nat → Nat → Nat) (old new : Bytes) : Bytes :=
  List.flatten (List.zipWith (fun a b => toLe n (g a b)) (elemsOf n old) (elemsOf n new))

/-- RADD (R168, R183): ring adds of elements. -/
def execRadd (i : Issuer) (addr : VatAddr) (ring : Ring) (d : Bytes) (e : EccRead) (s : State) : Res :=
  .next (bankAccess s i addr d.length (onLine addr e (fun s =>
    lineStore s addr (mapElems ring.slot (ringAdd ring.bits) (vatRead s addr d.length) d) [])))

/-- A marker created in a job's totals is counted; the first of a round sets the event (R180). -/
def countMarker (s : State) (j : JobId) (r : Option Nat) : State :=
  let s := count s VAT_JOB_NONFINITE.COUNT j 0 1
  let first := ((r.bind (s.round? j)).map (fun x => x.nonfinite == 0)).getD true
  let s := match r with
    | none => s
    | some r => s.modRound j r (fun x => { x with nonfinite := x.nonfinite + 1 })
  if first then ev s VAT_EVENT.NONFINITE_EV else s

/-- The round whose totals a job's add window holds: the lowest-numbered that is past Close (R41, R192). -/
def windowRound (s : State) (j : JobId) : Option Nat := ((s.job j).rounds.find? (fun x => x.closed)).map (·.number)

/-- A G64 add into a job's total at a job-relative address (R180); a poisoned line stays unchanged (R155). -/
def gaddJob (s : State) (j : JobId) (a : Nat) (t : Word) : State :=
  if s.poison.contains (poisonKey s j a) then s
  else
    let old := jobWord s j a
    let s := if g64Creates old t then countMarker s j (windowRound s j) else s
    jobSetWord s j a (g64Add old t)

/-- A 64-bit word of the Vat. -/
def vatWord (s : State) (a : Nat) : Word := BitVec.ofNat 64 (leNat (vatRead s a 8))

/-- A word operation that returns the previous value when asked. -/
def wordOp (s : State) (a : Nat) (v : Word) (old : Word) (ask : Bool) : State :=
  lineStore s a (toLe 8 v.toNat) (if ask then toLe 8 old.toNat else [])

/-- GADD (R180, R183): an exact G64 add. -/
def execGadd (i : Issuer) (addr : VatAddr) (x : Word) (ask : Bool) (e : EccRead) (s : State) : Res :=
  .next (bankAccess s i addr 8 (onLine addr e (fun s =>
    let old := vatWord s addr
    let s := match i.job with
      | some j => if g64Creates old x then countMarker s j (windowRound s j) else s
      | none => s
    wordOp s addr (g64Add old x) old ask)))

/-- ADD64 (R183): an add modulo 2^64. -/
def execAdd64 (i : Issuer) (addr : VatAddr) (x : Word) (ask : Bool) (e : EccRead) (s : State) : Res :=
  .next (bankAccess s i addr 8 (onLine addr e (fun s => wordOp s addr (vatWord s addr + x) (vatWord s addr) ask)))

/-- A binary32 sum rounded to nearest even (R183). -/
def fadd32 (a b : Nat) : Nat := enc32 ((dec32 a).add (dec32 b))

/-- FADD (R183, R186): binary32 adds. -/
def execFadd (i : Issuer) (addr : VatAddr) (d : Bytes) (e : EccRead) (s : State) : Res :=
  .next (byLine addr d (fun a d s => bankAccess s i a d.length (onLine a e (fun s => lineStore s a (mapElems 4 fadd32 (vatRead s a d.length) d) []))) s)

/-- The bytes of a maximum's or minimum's operand. -/
def maxMinSize : MaxMinOp → Nat
  | .maxS64 => 8
  | .minS64 => 8
  | _ => 4

/-- The value of a maximum or minimum (R183). -/
def maxMinEval (op : MaxMinOp) (a b : Nat) : Nat :=
  match op with
  | .maxS32 => (maxMinS true (BitVec.ofNat 32 a) (BitVec.ofNat 32 b)).toNat
  | .minS32 => (maxMinS false (BitVec.ofNat 32 a) (BitVec.ofNat 32 b)).toNat
  | .maxS64 => (maxMinS true (BitVec.ofNat 64 a) (BitVec.ofNat 64 b)).toNat
  | .minS64 => (maxMinS false (BitVec.ofNat 64 a) (BitVec.ofNat 64 b)).toNat
  | .maxF32 => (maxMin32 true (BitVec.ofNat 32 a) (BitVec.ofNat 32 b)).toNat
  | .minF32 => (maxMin32 false (BitVec.ofNat 32 a) (BitVec.ofNat 32 b)).toNat

/-- MAX_MIN (R183): a maximum or a minimum. -/
def execMaxMin (i : Issuer) (addr : VatAddr) (op : MaxMinOp) (x : Word) (ask : Bool) (e : EccRead) (s : State) : Res :=
  .next (bankAccess s i addr (maxMinSize op) (onLine addr e (fun s =>
    let old := vatRead s addr (maxMinSize op)
    lineStore s addr (toLe (maxMinSize op) (maxMinEval op (leNat old) x.toNat)) (if ask then old else []))))

/-- CAS64 (R183): the swap value is stored where the word equals the compare value; the previous value is returned. -/
def execCas64 (i : Issuer) (addr : VatAddr) (cmp swap : Word) (e : EccRead) (s : State) : Res :=
  .next (bankAccess s i addr 8 (onLine addr e (fun s =>
    let old := vatWord s addr
    wordOp s addr (if old = cmp then swap else old) old true)))

/-! Berths. -/

/-- A write of a register of VAT_JOB_BERTHS for the selected job: ignored once the job exists, and refused as a whole where another job holds a berth of it (R160). -/
def writeBerths (s : State) (n : Nat) (v : Nat) : State :=
  let j := get1 s VAT_JOB_SEL.JOB
  if (s.job (Fin.ofNat 16 j)).present then s
  else if (List.range 16).any (fun k => k != j && decide (fget s VAT_JOB_BERTHS.BERTH k n &&& v ≠ 0)) then ev s VAT_EVENT.BERTH_EV
  else fset s VAT_JOB_BERTHS.BERTH j n v

/-- BERTH_WRITE (R160): a write of VAT_JOB_BERTHS. -/
def execBerthWrite (n : Fin 6) (v : Word) (s : State) : Res := .next (writeBerths s n v.toNat)

end Sys2Proof.Machine
end

