-- ==== Sys2Proof/Machine/Ciphers.lean ====
section
/-! DEFINITION. The arithmetic of Rind: polynomials modulo a prime, seeded expansion (R317), key switching (R335, R338), modulus switching (R340), the decode (R346), the noise budget (R331, R332, R334) and the key table (R336). -/

namespace Sys2Proof.Machine

/-! Polynomials of Z[X]/(X^n + 1) modulo a prime. -/

/-- The sum of two polynomials. -/
def polyAdd (p : Nat) (a b : List Nat) : List Nat := List.zipWith (fun x y => (x + y) % p) a b

/-- The difference of two polynomials. -/
def polySub (p : Nat) (a b : List Nat) : List Nat := List.zipWith (fun x y => (x + (p - y % p)) % p) a b

/-- A polynomial times an integer. -/
def polyScale (p : Nat) (k : Int) (a : List Nat) : List Nat := a.map (fun x => (x * k % p).toNat)

/-- Coefficient k of the negacyclic product. -/
def negCoeff (n k : Nat) (a b : List Nat) : Int :=
  (List.range n).foldl (fun acc i =>
    let x : Int := a.getD i 0 * b.getD ((k + n - i) % n) 0
    if i ≤ k then acc + x else acc - x) 0

/-- The negacyclic product. -/
def negMul (p n : Nat) (a b : List Nat) : List Nat := (List.range n).map (fun k => (negCoeff n k a b % p).toNat)

/-- The integer in [0, Π p) of a list of residues (R346). -/
def crt (rs : List (Nat × Nat)) : Nat :=
  let m := (rs.map (·.1)).prod
  ((rs.map (fun e => e.2 * (m / e.1) * invMod (m / e.1) e.1)).sum) % m

/-- The residue of v in (−q/2, q/2] (R340). -/
def centred (q v : Nat) : Int := if q < 2 * v then (v : Int) - q else v

/-- Coefficient j of each limb with its prime. -/
def residuesAt (ps : List Nat) (limbs : List (List Nat)) (j : Nat) : List (Nat × Nat) := List.zipWith (fun p l => (p, l.getD j 0)) ps limbs

/-! Seeded polynomials (R317). -/

/-- Word number i of a seeded stream. -/
def seedWord (seed : Key256) (kind digit limb size i : Nat) : Nat :=
  leAt (chachaBlock seed ([0x4B] ++ toLe 1 kind ++ toLe 1 digit ++ toLe 1 limb ++ zeros 8) (i * size / 64)) (i * size % 64) size

/-- The accepted words of a stream from word i on. -/
def acceptWords (p : Nat) (word : Nat → Nat) : Nat → Nat → Nat → List Nat
  | 0, _, _ => []
  | fuel + 1, i, need =>
    if need = 0 then []
    else
      let v := word i % 2 ^ (Nat.log2 p + 1)
      if v < p then v :: acceptWords p word fuel (i + 1) (need - 1) else acceptWords p word fuel (i + 1) need

/-- The number of the word after the one that completes a polynomial. -/
def lastWord (p : Nat) (word : Nat → Nat) : Nat → Nat → Nat → Nat
  | 0, i, _ => i
  | fuel + 1, i, need => if need = 0 then i else lastWord p word fuel (i + 1) (if word i % 2 ^ (Nat.log2 p + 1) < p then need - 1 else need)

/-- The bytes of a word of a prime's stream. -/
def wordSize (p : Nat) : Nat := if 2 ^ 32 < p then 8 else 4

/-- The keystream blocks of a seeded polynomial. -/
def seedBlocks (seed : Key256) (kind digit limb p n : Nat) : Nat :=
  (lastWord p (seedWord seed kind digit limb (wordSize p)) (64 * n) 0 n * wordSize p + 63) / 64

/-- A seeded polynomial of n coefficients for a limb's prime. -/
def seeded (seed : Key256) (kind digit limb p n : Nat) : List Nat :=
  acceptWords p (seedWord seed kind digit limb (wordSize p)) (64 * n) 0 n

/-! The key table (R336). -/

def kePset (e : Bytes) : Nat := leAt e 1 1
def keDigits (e : Bytes) : Nat := leAt e 2 1
def keSrc (e : Bytes) : Nat := leAt e 8 8
def keDst (e : Bytes) : Nat := leAt e 16 8
def keSeed (e : Bytes) : Key256 := keyOf (slice e 24 32)

/-- B_OFF, the offset of the b halves from the entry's header (assumption 85). -/
def keOff (e : Bytes) : Nat := leAt e 56 8

/-- b_d of limb i, from an entry's image. -/
def keB (x : PSet) (e : Bytes) (d i : Nat) : List Nat :=
  (List.range x.n).map (fun j => leAt e (keOff e + ((d * (x.gam.length + x.kap.length)) + i) * 8 * x.n + 8 * j) 8)

/-- The bytes of an entry's image (R417). -/
def keBytes (x : PSet) : Nat := 64 + x.digits * (x.gam.length + x.kap.length) * 8 * x.n

/-- The entry of a job that switches from a key to another. -/
def keyEntry (J : Job) (set src dst : Nat) : Option (Nat × Bytes) := J.keyTable.find? (fun e => kePset e.2 == set && keSrc e.2 == src && keDst e.2 == dst)

/-! Key switching (R338) and modulus switching (R340). -/

/-- The limbs of level ℓ with the P-primes: each prime and its number. -/
def kswLimbs (x : PSet) (l : Nat) : List (Nat × Nat) := (x.gam.take l).zipIdx ++ (x.kap.zipIdx.map (fun e => (e.1, x.gam.length + e.2)))

/-- Digit d of a polynomial at level ℓ as integers in [0, Γ^(d)). -/
def digitOf (x : PSet) (l d : Nat) (c1 : List (List Nat)) : List Nat :=
  let k := x.kap.length
  let ps := ((x.gam.take l).drop (d * k)).take k
  let ls := ((c1.take l).drop (d * k)).take k
  if ps = [] then [] else (List.range x.n).map (fun j => crt (residuesAt ps ls j))

/-- Σ_d digit_d × h_d for the halves `h d limb prime` of a key, by limb. -/
def digitSum (x : PSet) (l : Nat) (c1 : List (List Nat)) (h : Nat → Nat → Nat → List Nat) : List (List Nat) :=
  (kswLimbs x l).map (fun e => (List.range x.digits).foldl (fun acc d =>
    let dg := digitOf x l d c1
    if dg = [] then acc else polyAdd e.1 acc (negMul e.1 x.n (dg.map (· % e.1)) (h d e.2 e.1))) (List.replicate x.n 0))

/-- A polynomial over the limbs of level ℓ and the P-primes divided by P with rounding. -/
def divideP (x : PSet) (l : Nat) (a : List (List Nat)) : List (List Nat) :=
  let p := x.kap.prod
  (x.gam.take l).zipIdx.map (fun e => (List.range x.n).map (fun j =>
    let r := centred p (crt (residuesAt x.kap (a.drop l) j))
    ((((a.getD e.2 []).getD j 0 : Int) - r) * (invMod p e.1 : Nat) % e.1).toNat))

/-- KSW of one ciphertext with a key-table entry (R338). -/
def keySwitch (x : PSet) (e : Bytes) (l : Nat) (c0 c1 : List (List Nat)) : List (List Nat) × List (List Nat) :=
  let sb := divideP x l (digitSum x l c1 (fun d i _ => keB x e d i))
  let sa := divideP x l (digitSum x l c1 (fun d i p => seeded (keSeed e) 1 d i p x.n))
  (List.zipWith (fun p ab => polyAdd p ab.1 ab.2) (x.gam.take l) (c0.zip sb), sa)

/-- One limb dropped from a polynomial: the highest. -/
def dropLimb (x : PSet) (l : Nat) (a : List (List Nat)) : List (List Nat) :=
  let q := x.gam.getD (l - 1) 1
  let top := a.getD (l - 1) []
  List.zipWith (fun p (limb : List Nat) => List.zipWith (fun (v t : Nat) => (((v : Int) - centred q t) * (invMod q p : Nat) % p).toNat) limb top) (x.gam.take (l - 1)) a

/-- MODSW of a polynomial from level ℓ by dropping n limbs. -/
def modSwitch (x : PSet) (l : Nat) : Nat → List (List Nat) → List (List Nat)
  | 0, a => a
  | n + 1, a => modSwitch x (l - 1) n (dropLimb x l a)

/-- The decode of one coefficient value V modulo Γ (R346). -/
def decodeCoeff (w gamma v : Nat) : Nat := (2 ^ w * v + gamma / 2) / gamma % 2 ^ w

/-- The coefficients of a plaintext from the limbs of v at level E (R346). -/
def decodePoly (x : PSet) (w l : Nat) (v : List (List Nat)) : List Nat :=
  let ps := x.gam.take l
  (List.range x.n).map (fun j => decodeCoeff w ps.prod (crt (residuesAt ps v j)))

/-- Δ_ℓ (07). -/
def deltaOf (x : PSet) (w l : Nat) : Nat := (x.gam.take l).prod / 2 ^ w

/-! The noise budget, in units of 2^-16 bit. -/

/-- The base-2 logarithm of a positive number, rounded down. -/
def log2Floor (x : Nat) : Int := Nat.log2 (x ^ 65536)

/-- The base-2 logarithm of a positive number, rounded up. -/
def log2Ceil (x : Nat) : Int := if 2 ^ Nat.log2 x = x then 65536 * (Nat.log2 x : Int) else log2Floor x + 1

/-- The margin of an effect at level ℓ (R331). -/
def margin (x : PSet) (w l : Nat) (nu : Int) : Int := log2Floor (x.gam.take l).prod - 65536 * ((w : Int) + 1) - nu

def nuFresh (x : PSet) : Int := log2Ceil (17 * x.n)
def nuKs (x : PSet) : Int := log2Ceil (48 * x.n)
def nuMs (x : PSet) : Int := log2Ceil (2 * x.n)
def nuSm (smudge h : Nat) : Int := 65536 * (smudge : Int) + log2Ceil h
def nuRef (smudge h : Nat) : Int := nuSm smudge h + 65536

/-- What the larger of two margins, d steps above the other, takes from the smaller: log2(1 + 2^-d), each operation rounded once to binary64 (R331, assumption 7). -/
def joinLoss (d : Nat) : ℚ :=
  let w := round64 (1 + round64 (powTwo (-(d : Int))))
  if 2 ≤ w then 1 else round64 (logTwo w)

/-- The smaller margin in bits less a loss, rounded to binary64 and down to a multiple of 2^-16. -/
def lowerBy (a : Int) (loss : ℚ) : Int :=
  let v := (a : ℚ) / 65536 - loss
  (65536 * (if v < 0 then -round64 (-v) else round64 v)).floor

/-- β ⊕ μ (R331). -/
def joinBudget (a b : Int) : Int := if a = b then a - 65536 else lowerBy (min a b) (joinLoss (a - b).natAbs)

/-- β_fresh (R331). -/
def freshBudget (x : PSet) (w : Nat) : Int := margin x w x.gam.length (nuFresh x)

/-- The budget chain at Offer for a group of h members (R334). -/
def chainPasses (x : PSet) (w cohortSize smudge h : Nat) : Bool :=
  let sum := freshBudget x w - log2Ceil cohortSize
  let ks := joinBudget sum (margin x w x.gam.length (nuKs x))
  let ex := joinBudget ks (margin x w x.exp (nuMs x))
  let nu := log2Floor (x.gam.take x.exp).prod - 65536 * ((w : Int) + 1) - ex
  let fin := joinBudget ex (margin x w x.exp (nuSm smudge h))
  decide (0 ≤ fin) && decide (nu / 65536 + 41 ≤ (smudge : Int))

/-! What Rind counts. -/

/-- Lane operations counted (RIND_LANE_OPS, event 0x40). -/
def laneOps (s : State) (j : JobId) (n : Nat) : State := pmu (count s RIND_LANE_OPS.COUNT 0 0 n) 0x40 (some j) n

/-- Limb-NTTs counted (RIND_NTT_CNT, event 0x41). -/
def nttOps (s : State) (j : JobId) (n : Nat) : State := pmu (count s RIND_NTT_CNT.COUNT 0 0 n) 0x41 (some j) n

/-- The lane operations of a switch or a decode, a number the spec does not give (assumption 5). -/
def laneOpsFree (s : State) (j : JobId) : State :=
  let (v, s) := freeValue s
  laneOps s j (v.toNat % 2 ^ 40)

/-- The limb-NTTs of n ciphertexts at level ℓ in batches of at most 16 (R338). -/
def kswNtts (x : PSet) (l n : Nat) : Nat := n * (x.digits + 2) * (l + x.kap.length) + (n + 15) / 16 * (2 * x.digits * (l + x.kap.length))

/-- Keystream that Culture expands for Rind, counted in blocks (CUL_BYTES, event 0x11, R150). -/
def expandOps (s : State) (j : JobId) (blocks : Nat) : State := pmu (count s CUL_BYTES.COUNT 0 0 (64 * blocks)) 0x11 (some j) blocks

/-- The keystream blocks of an entry's a halves for one batch at level ℓ (R317, R338). -/
def keyBlocks (x : PSet) (e : Bytes) (l : Nat) : Nat :=
  ((List.range x.digits).map (fun d => ((kswLimbs x l).map (fun g => seedBlocks (keSeed e) 1 d g.2 g.1 x.n)).sum)).sum

/-- What a switch of n ciphertexts at level ℓ counts: the NTTs, the lanes and the expansion of the key, once for each batch (R338). -/
def kswCounts (s : State) (j : JobId) (x : PSet) (e : Bytes) (l n : Nat) : State :=
  laneOpsFree (expandOps (nttOps s j (kswNtts x l n)) j ((n + 15) / 16 * keyBlocks x e l)) j

end Sys2Proof.Machine
end

