-- ==== Sys2Proof/Machine/Sealed.lean ====
section
/-! DEFINITION. What Rind does for a sealed round: ciphertexts in memory (R325 to R328), the export at Close (R340, R342), the members' import areas and manifests (R344, R345), the decode (R346 to R348) and the refreshes that join an export (R349 to R351). -/

namespace Sys2Proof.Machine

/-! Ciphertexts in memory (R325). -/

def chSet (h : Bytes) : Nat := leAt h 1 1
def chLevel (h : Bytes) : Nat := leAt h 2 1
def chPoison (h : Bytes) : Bool := bit (leAt h 3 1) 0
def chOwned (h : Bytes) : Bool := bit (leAt h 3 1) 1
def chC1Only (h : Bytes) : Bool := bit (leAt h 3 1) 2
def chRing (h : Bytes) : Nat := leAt h 4 1
def chKey (h : Bytes) : Nat := leAt h 8 8
def chBudget (h : Bytes) : Int := signed 32 (leAt h 16 4)
def chDataOff (h : Bytes) : Nat := leAt h 24 8
def chLimb (h : Bytes) : Nat := leAt h 32 8
def chPoly (h : Bytes) : Nat := leAt h 40 8

/-- The header of a handle. -/
def ctHead (s : State) (j : JobId) (a : Nat) : Bytes := jobRead s j a 64

/-- The limbs of polynomial p of a ciphertext in memory. -/
def ctLimbs (s : State) (j : JobId) (a p l n : Nat) : List (List Nat) :=
  let h := ctHead s j a
  (List.range l).map (fun i => (List.range n).map (fun k => leNat (jobRead s j (a + chDataOff h + p * chPoly h + i * chLimb h + 8 * k) 8)))

/-- The residues of a limb as they lie in memory. -/
def residueBytes (limb : List Nat) : Bytes := List.flatten (limb.map (toLe 8))

/-- The limbs of polynomial p written at a handle whose header gives the layout. -/
def putLimbs (s : State) (j : JobId) (a p : Nat) (limbs : List (List Nat)) : State :=
  let h := ctHead s j a
  limbs.zipIdx.foldl (fun t e => jobStore t j (a + chDataOff h + p * chPoly h + e.2 * chLimb h) (residueBytes e.1)) s

/-- A header's flag byte set; the reserved bits are written 0. -/
def setFlags (s : State) (j : JobId) (a : Nat) (v : Nat) : State := jobWrite s j (a + 3) (toLe 1 v)

/-- The POISON flag of a handle set (R328). -/
def poisonHandle (s : State) (j : JobId) (a : Nat) : State := setFlags s j a (leAt (ctHead s j a) 3 1 % 8 ||| 1)

/-- A result written at a destination handle (R325, R328): the layout fields of the destination's header stand. -/
def storeCt (s : State) (j : JobId) (a : Nat) (c : Ct) : State :=
  let s := jobWrite s j a ([1] ++ toLe 1 c.set ++ toLe 1 c.level ++ [0] ++ toLe 1 c.ring ++ zeros 3 ++ toLe 8 c.keyId ++
    toLe 4 (unsignedOf 32 c.budget) ++ toLe 4 c.count)
  putLimbs (putLimbs s j a 0 c.c0) j a 1 c.c1

/-- The ciphertext of a handle; none where the header is not of catalogue version 1 or names no set or no level of it. -/
def loadCt (s : State) (j : JobId) (a : Nat) : Option (PSet × Ct) :=
  let h := ctHead s j a
  (psetOf (chSet h)).bind (fun x =>
    if leAt h 0 1 = 1 ∧ 1 ≤ chLevel h ∧ chLevel h ≤ x.gam.length then
      some (x, ⟨chSet h, chLevel h, chRing h, chKey h, chBudget h, leAt h 20 4, chPoison h,
        if chC1Only h then [] else ctLimbs s j a 0 (chLevel h) x.n, ctLimbs s j a 1 (chLevel h) x.n⟩)
    else none)

/-- Whether a handle is owned by a round (R326): the header of every round sum says so. -/
def roundOwned (s : State) (j : JobId) (a : Nat) : Bool := chOwned (ctHead s j a)

/-! The export at Close. -/

/-- The index of a sealed round's ciphertext that a piece belongs to (R321). -/
def pieceCt (x : PSet) (i : Nat) : Nat := i / (2 * x.gam.length * (x.n / 16384))
/-- Its polynomial. -/
def piecePoly (x : PSet) (i : Nat) : Nat := i / (x.gam.length * (x.n / 16384)) % 2
/-- Its limb. -/
def pieceLimb (x : PSet) (i : Nat) : Nat := i / (x.n / 16384) % x.gam.length
/-- Its part. -/
def piecePart (x : PSet) (i : Nat) : Nat := i % (x.n / 16384)

/-- The bytes of an export record's answer, and so of its place in an import area (R342). -/
def answerBytes (x : PSet) (kind : Nat) : Nat := (if kind = 0 then x.exp else x.exp + x.gam.length) * x.n * 8

/-- The offset of record r's answer in an import area. -/
def answerOff (x : PSet) (dir : List (Nat × Nat × Nat)) (r : Nat) : Nat := ((dir.take r).map (fun e => answerBytes x e.1)).sum

/-- A round's directory of a group. -/
def dirOf (x : Round) (g : Nat) : List (Nat × Nat × Nat) := (lookup x.directory g).getD []

/-- The key under which a group's export or decode of a ciphertext index is kept. -/
def exportKey (g i : Nat) : Nat := g * 65536 + i

/-- A group that is absent for the round (R348). -/
def groupAbsent (s : State) (j : JobId) (r g : Nat) : State :=
  ev (s.modRound j r (fun x => { x with groupAbsent := if x.groupAbsent.contains g then x.groupAbsent else g :: x.groupAbsent })) RIND_EVENT.GROUP_EV

/-- Whether a group is absent for a round. -/
def absentIn (s : State) (j : JobId) (r g : Nat) : Bool := ((s.round? j r).map (·.groupAbsent.contains g)).getD true

/-- A ciphertext lowered to the export level, with its budget (R332, R340). -/
def exportLevel (x : PSet) (c : Ct) : Except RindStat Ct :=
  let b := joinBudget c.budget (margin x c.ring x.exp (nuMs x))
  if b < 0 then .error .budgetExhausted
  else .ok { c with level := x.exp, budget := b, count := 0, c0 := modSwitch x c.level (c.level - x.exp) c.c0, c1 := modSwitch x c.level (c.level - x.exp) c.c1 }

/-- A ciphertext switched with a key-table entry, with its budget (R332, R338, R339). -/
def switched (x : PSet) (e : Bytes) (c : Ct) : Except RindStat Ct :=
  let b := joinBudget c.budget (margin x c.ring c.level (nuKs x))
  if kePset e ≠ c.set ∨ keDigits e ≠ x.digits ∨ keSrc e ≠ c.keyId then .error .keyMismatch
  else if b < 0 then .error .budgetExhausted
  else
    let d := keySwitch x e c.level c.c0 c.c1
    .ok { c with keyId := keDst e, budget := b, count := 0, c0 := d.1, c1 := d.2 }

/-- A ciphertext switched to a group's key and to the export level, with its budgets (R331, R332, R340). -/
def exportForm (J : Job) (x : PSet) (groupKey : Nat) (c : Ct) : Except RindStat Ct :=
  if c.level < x.exp then .error .paramMismatch
  else match keyEntry J c.set c.keyId groupKey with
    | none => .error .keyMismatch
    | some (_, e) => (switched x e c).bind (exportLevel x)

/-- What the switch of n ciphertexts under a key to another counts (R338, R353). -/
def switchCounts (s : State) (j : JobId) (x : PSet) (src dst set l n : Nat) : State :=
  match keyEntry (s.job j) set src dst with
  | none => s
  | some (_, e) => if n = 0 then s else kswCounts s j x e l n

/-- A round sum with its budget (R332): β_fresh − log2(COUNT). -/
def budgeted (x : PSet) (p : Bytes) (c : Ct) : Ct := { c with budget := freshBudget x (pRing p).bits - log2Ceil c.count }

/-- The export of one round sum (R340). -/
def exportSum (J : Job) (x : PSet) (p : Bytes) (g : Nat) (c : Ct) : Except RindStat Ct :=
  if (budgeted x p c).budget < 0 then .error .budgetExhausted else exportForm J x (spGroupKey (pParams p) g) (budgeted x p c)

/-- The cohorts of a round that are not abandoned. -/
def liveCohorts (x : Round) : List Nat := (List.range (pCohortCount x.plan)).filter (fun c => (x.cohort c).reason == 0)

/-- The non-void ciphertext indices of a cohort. -/
def sumIndices (x : PSet) (p : Bytes) (k : Cohort) : List Nat := (List.range (pSlice p / x.n)).filter (fun i => !k.voids.contains i)

/-- The exports of listed ciphertexts of a cohort for one group, or the status that ended them. -/
def cohortExports (J : Job) (x : PSet) (p : Bytes) (g : Nat) (k : Cohort) (is : List Nat) : Except RindStat (List (Nat × Ct)) :=
  is.foldr (fun i acc => acc.bind (fun l => (exportSum J x p g (sumOf p k i)).map (fun c => (i, c) :: l))) (.ok [])

/-- The poisoned line that an export of listed ciphertexts would read: its address; none where all are clean. -/
def sumPoison (s : State) (j : JobId) (rd : Round) (x : PSet) (c : Nat) (is : List Nat) : Option Nat :=
  if s.poison.isEmpty then none
  else (is.find? (fun i => placePoisoned s j (sumAt s j rd c i) (ctSpan x))).map (fun i => placePoisonAt s j (sumAt s j rd c i) (ctSpan x))

/-- A cohort's exports for a group made, where they are not made yet: kept in the module, counted, and entered in the group's directory (R340); `bad` of the runs failed their residue check (R330). A status other than OK makes the group absent (R348). -/
def exportCohort (s : State) (j : JobId) (r g c bad : Nat) : RindStat × State :=
  match s.round? j r with
  | none => (.ok, s)
  | some rd =>
    match pSet rd.plan with
    | none => (.ok, s)
    | some x =>
      let k := rd.cohort c
      let is := (sumIndices x rd.plan k).filter (fun i => (lookup k.exports (exportKey g i)).isNone)
      let sp := pParams rd.plan
      match sumPoison s j rd x c is with
      | some a => (.ok, consumeAt s j 6 a)
      | none =>
        let s := residueRuns (switchCounts s j x (spJobKey sp) (spGroupKey sp g) (spSet sp) x.gam.length is.length) true bad
        match if bad = 2 then .error .residueFail else cohortExports (s.job j) x rd.plan g k is with
        | .error e => (e, groupAbsent (rindStatus s j 2 e) j r g)
        | .ok es =>
          let s := s.modCohort j r c (fun k => { k with
            sums := is.foldl (fun m i => putN m i (budgeted x rd.plan (sumOf rd.plan k i))) k.sums
            exports := es.foldl (fun m e => putN m (exportKey g e.1) e.2) k.exports })
          let s := s.modRound j r (fun y => { y with directory := putN y.directory g (dirOf y g ++ es.map (fun e => (0, c, e.1))) })
          (.ok, count s RIND_JOB_EXPORT.EXPORTED j 0 es.length)

/-! Refresh (R349 to R351). -/

/-- A queued refresh in its export form: its source under the group's key at level E. -/
def refreshForm (s : State) (j : JobId) (p : Bytes) (o : RefreshOp) : Except RindStat (PSet × Ct) :=
  let sp := pParams p
  match loadCt s j o.src with
  | none => .error .paramMismatch
  | some (x, c) =>
    if c.keyId = spJobKey sp then (exportForm (s.job j) x (spGroupKey sp o.group) c).map (fun d => (x, d))
    else if c.keyId ≠ spGroupKey sp o.group then .error .keyMismatch
    else if c.level < x.exp then .error .paramMismatch
    else (exportLevel x c).map (fun d => (x, d))

/-- What the first two steps of a refresh count: a switch where its source is under the job key, else the lanes of the lowering alone. -/
def refreshCounts (s : State) (j : JobId) (p : Bytes) (o : RefreshOp) : State :=
  let sp := pParams p
  match loadCt s j o.src with
  | none => s
  | some (x, c) => if c.keyId = spJobKey sp then switchCounts s j x c.keyId (spGroupKey sp o.group) c.set c.level 1 else laneOpsFree s j

/-- A refresh that ends: it leaves the queue, releases its handles and its operation completes (R349). -/
def endRefresh (s : State) (j : JobId) (o : RefreshOp) (space detail : Nat) : State :=
  let s := s.modJob j (fun J => { J with refresh := J.refresh.filter (fun q => !(q.ctx == o.ctx && q.op == o.op)) })
  fset (refreshEnds s o.ctx o.op space detail) RIND_JOB_REFRESH.QUEUED j 0 (s.job j).refresh.length

/-- A refresh that ends with a status of Rind: one for its parameters writes nothing, every other one poisons its destination (R328, R332, R333, R339). -/
def failRefresh (s : State) (j : JobId) (o : RefreshOp) (e : RindStat) : State :=
  let s := if e = .paramMismatch then s else poisonHandle s j o.dst
  endRefresh (rindStatus s j 4 e) j o 5 e.code

/-- A refresh noted as joined to a round's export, with its seed (R350). -/
def joinedTo (s : State) (j : JobId) (r : Nat) (o : RefreshOp) (seed : Bytes) : State :=
  s.modJob j (fun J => { J with refresh := J.refresh.map (fun q => if q.ctx == o.ctx && q.op == o.op then { q with seed := seed, joined := some r } else q) })

/-- A queued refresh joins the export of a round, with its seed (R350, R351); without entropy it completes with that status. A refresh of a group that the round does not name joins without a record, and ends as the round does (R349). -/
def joinRefresh (s : State) (j : JobId) (r : Nat) (p : Bytes) (o : RefreshOp) : State :=
  if spGroups (pParams p) ≤ o.group then joinedTo s j r o []
  else
    let (bads, s) := residueDraws (refreshCounts s j p o) 1
    let bad := bads.headD 0
    let s := residueRuns s true bad
    match if bad = 2 then .error .residueFail else refreshForm s j p o with
    | .error e => failRefresh s j o e
    | .ok _ =>
      if ¬ entropyReady s then endRefresh s j o 6 1
      else
        let (k, s) := drawKey (served s 1)
        (joinedTo s j r o (keyBytes k)).modRound j r (fun y => { y with directory := putN y.directory o.group (dirOf y o.group ++ [(1, o.ctx, o.op)]) })

/-! The export region (R342). -/

/-- The first polynomial's counterpart that a record carries: c1' of a sum or of a refresh, with its seed. -/
def recordData (s : State) (j : JobId) (rd : Round) (g : Nat) (e : Nat × Nat × Nat) : List (List Nat) × Bytes :=
  if e.1 = 0 then (((lookup (rd.cohort e.2.1).exports (exportKey g e.2.2)).map (·.c1)).getD [], zeros 32)
  else
    match (s.job j).refresh.find? (fun q => q.ctx == e.2.1 && q.op == e.2.2) with
    | none => ([], zeros 32)
    | some o => match refreshForm s j rd.plan o with
      | .ok (_, c) => (c.c1, o.seed)
      | .error _ => ([], o.seed)

/-- A record of the directory. -/
def dirRecord (x : PSet) (e : Nat × Nat × Nat) (off : Nat) (seed : Bytes) : Bytes :=
  (if e.1 = 0 then toLe 2 e.2.1 ++ toLe 2 e.2.2 else zeros 4) ++ toLe 1 e.1 ++ toLe 1 x.exp ++ zeros 2 ++ toLe 8 off ++ seed

/-- A group's directory and data written to its export region; a group without a region that holds them is absent (R340, R342). -/
def writeExport (s : State) (j : JobId) (r g : Nat) : State :=
  match s.round? j r with
  | none => s
  | some rd =>
    match pSet rd.plan with
    | none => s
    | some x =>
      let dir := dirOf rd g
      let size := x.exp * x.n * 8
      let data0 := align64 (48 * dir.length)
      match regionOf s j 2 g 0 with
      | none => groupAbsent s j r g
      | some n =>
        if fget s RDMA_REG_LEN.LEN j n < data0 + size * dir.length then groupAbsent s j r g
        else
          let base := fget s RDMA_REG_BASE.VA j n
          dir.zipIdx.foldl (fun t e =>
            let (limbs, seed) := recordData s j rd g e.1
            let t := jobStore t j (base + 48 * e.2) (dirRecord x e.1 (data0 + size * e.2) seed)
            jobStore t j (base + data0 + size * e.2) (List.flatten (limbs.map residueBytes))) s

/-- One group's exports of listed cohorts, until one makes the group absent. -/
def exportGroup (j : JobId) (r : Nat) (cs : List Nat) (s : State) (g : Nat) : State :=
  cs.foldl (fun t c =>
    if absentIn t j r g then t
    else
      let (bads, t) := residueDraws t 1
      (exportCohort t j r g c (bads.headD 0)).2) s

/-- Whether a queued refresh joins a round's export: it was queued before the round's Close began (R350). -/
def joinsClose (x : Round) (o : RefreshOp) : Bool := o.joined.isNone && ((lookup x.begunAt 6).map (fun t => decide (o.since < t))).getD false

/-- The export of a sealed round at Close (R340, R349, R350): every group, every cohort that is not abandoned, and the queued refreshes. -/
def exportRound (s : State) (j : JobId) (r : Nat) : State :=
  match s.round? j r with
  | none => s
  | some rd =>
    let s := fset (fset (fset s RIND_JOB_EXPORT.EXPORTED j 0 0) RIND_JOB_EXPORT.GROUPS_DONE j 0 0) RIND_JOB_DECODE.DECODED j 0 0
    let s := fset s RIND_JOB_DECODE.INCONSISTENT j 0 0
    let gs := List.range (spGroups (pParams rd.plan))
    let s := gs.foldl (exportGroup j r (liveCohorts rd)) s
    let s := ((s.job j).refresh.filter (joinsClose rd)).foldl (fun t o => joinRefresh t j r rd.plan o) s
    gs.foldl (fun t g => if absentIn t j r g then t else writeExport t j r g) s

/-! The decode (R346, R347). -/

/-- Member i's answer to record r, as limbs. -/
def memberAnswer (s : State) (j : JobId) (x : PSet) (dir : List (Nat × Nat × Nat)) (g i r limbs : Nat) : List (List Nat) :=
  match regionOf s j 3 g i with
  | none => []
  | some n =>
    let base := fget s RDMA_REG_BASE.VA j n + answerOff x dir r
    (List.range limbs).map (fun k => (List.range x.n).map (fun c => leNat (jobRead s j (base + 8 * (k * x.n + c)) 8)))

/-- Σ_i of the members' answers added to given limbs, modulo the primes. -/
def addAnswers (x : PSet) (from_ : Nat) (start : List (List Nat)) (answers : List (List (List Nat))) : List (List Nat) :=
  start.zipIdx.map (fun e => answers.foldl (fun acc a => polyAdd ((x.gam.getD e.2 1)) acc (a.getD (from_ + e.2) [])) e.1)

/-- A group's decode of one of a cohort's ciphertexts. -/
def decodeOne (s : State) (j : JobId) (rd : Round) (x : PSet) (g c i : Nat) : List Nat :=
  let dir := dirOf rd g
  match dir.findIdx? (fun e => e == (0, c, i)), lookup (rd.cohort c).exports (exportKey g i) with
  | some r, some ct =>
    let ans := (List.range (spMembers (pParams rd.plan) g)).map (fun m => memberAnswer s j x dir g m r x.exp)
    decodePoly x (pRing rd.plan).bits x.exp (addAnswers x 0 ct.c0 ans)
  | _, _ => []

/-- A poisoned line among the answers that a decode reads: its address. -/
def answerPoison (s : State) (j : JobId) (rd : Round) (x : PSet) (g : Nat) : Option Nat :=
  if s.poison.isEmpty then none
  else
    ((List.range (spMembers (pParams rd.plan) g)).filterMap (regionOf s j 3 g)).findSome? (fun n =>
      (linesOf (fget s RDMA_REG_BASE.VA j n) (answerOff x (dirOf rd g) (dirOf rd g).length)).find? (fun l => s.poison.contains (poisonKey s j l)))

/-- The status of a group's part in the decode of a cohort: its residue checks, and the budget that its members' smudging leaves (R330, R332). -/
def combineStatus (rd : Round) (x : PSet) (k : Cohort) (g bad : Nat) : RindStat :=
  let sp := pParams rd.plan
  let mu := margin x (pRing rd.plan).bits x.exp (nuSm (spSmudge sp) (spMembers sp g))
  if bad = 2 then .residueFail
  else if (sumIndices x rd.plan k).any (fun i => ((lookup k.exports (exportKey g i)).map (fun c => decide (joinBudget c.budget mu < 0))).getD false) then
    .budgetExhausted
  else .ok

/-- What the groups decode written as the cohort's ring sums, or two groups' disagreement (R346, R347). -/
def writeDecode (s : State) (j : JobId) (rd : Round) (x : PSet) (c : Nat) (is : List Nat) (all : List (List (List Nat))) : State :=
  match all with
  | [] => s
  | d :: rest =>
    if rest.any (fun e => e != d) then
      ev (count (abandon s j rd.number c reasonInconsistent) RIND_JOB_DECODE.INCONSISTENT j 0 1) RIND_EVENT.GROUP_EV
    else
      let s := s.modCohort j rd.number c (fun k => { k with
        decodeDone := true
        accum := (is.zip d).foldl (fun m e => e.2.zipIdx.foldl (fun m v => putD id 0 m (e.1 * x.n + v.2) v.1) m) k.accum })
      count s RIND_JOB_DECODE.DECODED j 0 is.length

/-- A cohort decoded from one or two complete groups, each with the runs that failed their residue check (R330, R346, R347); a group whose part ends with a status other than OK is absent (R348). -/
def decodeCohort (s : State) (j : JobId) (r c : Nat) (gs : List (Nat × Nat)) : RindStat × State :=
  match s.round? j r with
  | none => (.ok, s)
  | some rd =>
    match pSet rd.plan with
    | none => (.ok, s)
    | some x =>
      let k := rd.cohort c
      if k.reason ≠ 0 ∨ k.decodeDone then (.ok, s)
      else match gs.findSome? (fun e => answerPoison s j rd x e.1) with
        | some a => (.ok, consumeAt s j 6 a)
        | none =>
          let s := laneOpsFree (gs.foldl (fun t e => residueRuns t false e.2) s) j
          match gs.find? (fun e => combineStatus rd x k e.1 e.2 != .ok) with
          | some e => (combineStatus rd x k e.1 e.2, groupAbsent (rindStatus s j 3 (combineStatus rd x k e.1 e.2)) j r e.1)
          | none =>
            let is := sumIndices x rd.plan k
            (.ok, writeDecode s j rd x c is (gs.map (fun e => is.map (fun i => decodeOne s j rd x e.1 c i))))

/-- The groups that a round's decode waits for: one past the deadline, else two, or one where SPARE_GROUP is 0 or one group remains (R347, R348). -/
def groupsWanted (s : State) (x : Round) : Nat :=
  if on s RIND_CTRL.SPARE_GROUP ∧ ¬ x.deadline ∧ 2 ≤ spGroups (pParams x.plan) - x.groupAbsent.length then 2 else 1

/-- The complete groups of a round that are not absent, in the order of completion. -/
def usableGroups (x : Round) : List Nat := x.groupDone.filter (fun g => !x.groupAbsent.contains g)

/-- The decode of listed cohorts of a round from the groups at hand, until one makes a group absent. -/
def decodeAll (j : JobId) (r : Nat) (gs : List Nat) (s : State) (cs : List Nat) : State :=
  cs.foldl (fun t c =>
    if gs.any (absentIn t j r) then t
    else
      let (bads, t) := residueDraws t gs.length
      (decodeCohort t j r c (gs.zip bads)).2) s

/-- The cohorts of a round that are neither abandoned nor decoded. -/
def undecoded (x : Round) : List Nat := (liveCohorts x).filter (fun c => !(x.cohort c).decodeDone)

/-- The rules of R347 applied to the groups that are not absent, and again to those that remain where one fails (R348): a decode from enough complete groups, or past the deadline with no complete group the abandonment of what is left. -/
def applyGroups (j : JobId) (r : Nat) : Nat → State → State
  | 0, s => s
  | n + 1, s =>
    match s.round? j r with
    | none => s
    | some x =>
      let gs := (usableGroups x).take (groupsWanted s x)
      if x.deadline ∧ usableGroups x = [] then (undecoded x).foldl (fun t c => abandon t j r c reasonSharesShort) s
      else if gs.length < groupsWanted s x ∨ ¬ rindOn s then s
      else
        let t := decodeAll j r gs s (undecoded x)
        if gs.any (absentIn t j r) then applyGroups j r n t else t

/-- The decode of a sealed round in Unmask where enough groups are complete and Rind starts operations (R347, R353). -/
def tryDecode (s : State) (j : JobId) (r : Nat) : State :=
  match s.round? j r with
  | none => s
  | some x => if (lookup x.begunAt 7).isSome then applyGroups j r 5 s else s

/-- A refreshed ciphertext, from the answers of a complete group (R351): μ decoded, and the sum of the members' second parts. -/
def refreshed (s : State) (j : JobId) (rd : Round) (x : PSet) (g r : Nat) (o : RefreshOp) (c : Ct) : Ct :=
  let dir := dirOf rd g
  let sp := pParams rd.plan
  let h := spMembers sp g
  let n := x.gam.length
  let w := c.ring
  let ans := (List.range h).map (fun m => memberAnswer s j x dir g m r (x.exp + n))
  let mu := decodePoly x w x.exp (addAnswers x 0 c.c0 ans)
  let base := x.gam.map (fun p => mu.map (fun v => deltaOf x w n * v % p))
  let c1 := x.gam.zipIdx.map (fun e => seeded (keyOf o.seed) 2 0 e.2 e.1 x.n)
  ⟨c.set, n, w, spGroupKey sp g, margin x w n (nuRef (spSmudge sp) h), 0, false, addAnswers x x.exp base ans, c1⟩

/-- The keystream blocks of a refresh's a (R150, R317). -/
def refreshBlocks (x : PSet) (o : RefreshOp) : Nat := (x.gam.zipIdx.map (fun e => seedBlocks (keyOf o.seed) 2 0 e.2 e.1 x.n)).sum

/-- A refresh of a complete group decoded and written (R351). -/
def finishRefresh (s : State) (j : JobId) (rd : Round) (g : Nat) (o : RefreshOp) : State :=
  match refreshForm s j rd.plan o, (dirOf rd g).findIdx? (fun e => e == (1, o.ctx, o.op)) with
  | .ok (x, c), some r =>
    let (bads, t) := residueDraws (expandOps (laneOpsFree s j) j (refreshBlocks x o)) 1
    let t := residueRuns t false (bads.headD 0)
    let out := refreshed s j rd x g r o c
    if bads.headD 0 = 2 then failRefresh t j o .residueFail
    else if out.budget < 0 then failRefresh t j o .budgetExhausted
    else endRefresh (storeCt t j o.dst out) j o 0 0
  | .error e, _ => failRefresh s j o e
  | .ok _, none => endRefresh s j o 5 RindStat.groupIncomplete.code

/-- The refreshes of a round's complete groups finish, where Rind starts operations and Culture streams (R150, R351, R353). -/
def finishRefreshes (s : State) (j : JobId) (r : Nat) : State :=
  if ¬ rindOn s ∨ ¬ cultureOn s then s
  else match s.round? j r with
    | none => s
    | some x =>
      ((s.job j).refresh.filter (fun o => o.joined == some r && (usableGroups x).contains o.group)).foldl (fun t o => finishRefresh t j x o.group o) s

/-- A group all of whose members' manifests are admitted (R346): its bit is shown, its refreshes finish and the cohorts decode. An absent group does not complete (R348). -/
def groupComplete (s : State) (j : JobId) (r g : Nat) : State :=
  if absentIn s j r g then s
  else
    let s := s.modRound j r (fun x => { x with groupDone := x.groupDone ++ [g] })
    let m := fget s RIND_JOB_EXPORT.GROUPS_DONE j 0
    let s := fset s RIND_JOB_EXPORT.GROUPS_DONE j 0 (if bit m g then m else m + 2 ^ g)
    tryDecode (finishRefreshes s j r) j r

/-- The decodes and refreshes that waited for Rind or Culture go on in every round (R150, R347, R353). -/
def rindGoesOn (s : State) : State :=
  (List.finRange 16).foldl (fun t (j : JobId) =>
    (((t.job j).rounds.filter (fun x => pSealed x.plan)).map (·.number)).foldl (fun u r => tryDecode (finishRefreshes u j r) j r) t) s

/-! Manifests (R344, R345). -/

/-- The group and number of a member's slot. -/
def memberOf (p : Bytes) (slot : Nat) : Option (Nat × Nat) := ((spSlots (pParams p)).find? (fun m => m.1 == slot)).map (·.2)

/-- The bytes that a member writes to its area. -/
def importLen (x : PSet) (dir : List (Nat × Nat × Nat)) : Nat := (dir.map (fun e => answerBytes x e.1)).sum

/-- The UNMASK_REQUEST of a member: no dropped or surviving slots, and its export notice (R341). -/
def exportNotice (x : PSet) (rd : Round) (g i : Nat) : Bytes :=
  zeros 4 ++ toBe 1 g ++ toBe 1 i ++ zeros 2 ++ toBe 4 (dirOf rd g).length ++ zeros 4 ++ toBe 8 0 ++ toBe 8 0 ++ toBe 8 (importLen x (dirOf rd g))

/-- A manifest's last steps: the member's W right is revoked and the area awaits its hash (R344, R345); a second copy waits for that hash (R79). -/
def admitManifest (q : Nat) (c : Bytes) (s : State) (l : Look) (pt : Bytes) : State :=
  match memberOf l.x.plan l.slot with
  | none => s
  | some (g, i) =>
    let prior := lookup l.x.manifests l.slot
    if pt.length ≠ 64 ∨ ¬ zeroAt pt 2 2 then answer s q c .malformed l.fe (some l) true
    else if beAt pt 0 1 ≠ g ∨ beAt pt 1 1 ≠ i ∨ beAt pt 4 4 ≠ (dirOf l.x g).length then answer s q c .notRequested l.fe (some l) true
    else if (prior.map (·.admitted)).getD false then answer s q c .duplicate l.fe (some l) true
    else if (prior.map (·.hashing)).getD false then
      let s := s.modRound l.job l.r (fun x => { x with manifests := x.manifests.map (fun e => if e.1 == l.slot then (e.1, { e.2 with waiters := e.2.waiters ++ [(q, slice c 0 32)] }) else e) })
      { s with feOut := putN s.feOut l.fe (readD 0 s.feOut l.fe + 1) }
    else
      match regionOf s l.job 3 g i with
      | none => answer s q c .malformed l.fe (some l) true
      | some n =>
        let s := s.modRound l.job l.r (fun x => { x with manifests := putN x.manifests l.slot ⟨g, i, slice pt 16 48, beAt pt 8 8, true, false, q, slice c 0 32, [], bit (fget s RDMA_REG_CFG.RIGHTS l.job n) 1⟩ })
        let rights := fget s RDMA_REG_CFG.RIGHTS l.job n
        if bit rights 1 then
          { fset s RDMA_REG_CFG.RIGHTS l.job n (rights - 2) with revoking := s.revoking ++ [(l.job.val, n, s.now, true)], feOut := putN s.feOut l.fe (readD 0 s.feOut l.fe + 1) }
        else { s with feOut := putN s.feOut l.fe (readD 0 s.feOut l.fe + 1) }

/-- Whether a chunk is a member's for a sealed round, as its header names it (R309). -/
def memberChunk (s : State) (q : Nat) (c : Bytes) : Bool :=
  ((s.round? (feJob s (qpFe s q)) (hRound c)).map (fun x => x.offerDone && isMember x.plan (hSlot c))).getD false

/-- MANIFEST (R345): a member's manifest of a sealed round arrives. -/
def execManifest (q : Qpn) (stamp : Time) (c : Bytes) (s : State) : Res :=
  let s := takeChunk s q c
  .next (if memberChunk s q c then clientChunk 4 s q stamp c (admitManifest q c) else s)

/-- The manifest's area read for its hash: the bytes that the member's notice gives. -/
def areaBytes (s : State) (j : JobId) (x : PSet) (rd : Round) (m : Manifest) (n : Nat) : Bytes :=
  jobRead s j (fget s RDMA_REG_BASE.VA j n) (min (importLen x (dirOf rd m.group)) (fget s RDMA_REG_LEN.LEN j n))

/-- A manifest admitted or refused by its area's hash (R345); a copy that waited is a DUPLICATE of an admitted one and MALFORMED with a refused one (R79). -/
def hashDone (s : State) (j : JobId) (r slot : Nat) (rd : Round) (x : PSet) (m : Manifest) (n : Nat) : State :=
  let area := areaBytes s j x rd m n
  let s := count s RIND_HASH_BYTES.COUNT 0 0 area.length
  let l := lookAt s (fget s RDMA_QP_CFG.FE m.qpn 0) j rd slot
  if poisoned s j (fget s RDMA_REG_BASE.VA j n) area.length then consumeAt s j 6 (fget s RDMA_REG_BASE.VA j n)
  else if digestBytes (sha384 area) = m.digest then
    let s := s.modRound j r (fun y => { y with manifests := putN y.manifests slot { m with hashing := false, admitted := true, waiters := [] } })
    let s := modRec s l (fun e => { e with unmaskAdm := true }) (fun d => { d with unmaskAdm := true })
    let s := answerAll (answerAll s .ok l [(m.qpn, m.head)]) .duplicate l m.waiters
    let all := (List.range (spMembers (pParams rd.plan) m.group)).all (fun i =>
      ((s.round? j r).map (fun y => y.manifests.any (fun e => e.2.admitted && e.2.group == m.group && e.2.member == i))).getD false)
    if all then groupComplete s j r m.group else s
  else
    let s := giveBack j (s.modRound j r (fun y => { y with manifests := dropKey y.manifests slot })) m
    answerAll s .malformed l ((m.qpn, m.head) :: m.waiters)

/-- MANIFEST_HASH_DONE (R345): the hash of a member's area, whose revocation is complete, is known. -/
def execManifestHashDone (j : JobId) (r : RoundNo) (slot : Slot) (s : State) : Res :=
  .next (match s.round? j r with
    | none => s
    | some rd =>
      match lookup rd.manifests slot.val, pSet rd.plan with
      | some m, some x =>
        match regionOf s j 3 m.group m.member with
        | none => s
        | some n =>
          if ¬ m.hashing ∨ ¬ s.alive j ∨ ¬ rindOn s ∨ s.revoking.any (fun v => v.1 == j.val && v.2.1 == n) then s
          else hashDone s j r slot rd x m n
      | _, _ => s)

end Sys2Proof.Machine
end

