-- ==== Sys2Proof/Machine/Admission.lean ====
section
/-! DEFINITION. Admission into the Vat: a masked UPLOAD and a sealed piece (R65, R78, R322, R323), the commit of a transaction with its second copies (R79, R82), poison met on the way (R83), and the end of the Close drain (R85). -/

namespace Sys2Proof.Machine

/-- Whether a chunk's header names a sealed round of its front-end's job. -/
def sealedChunk (s : State) (q : Nat) (c : Bytes) : Bool :=
  ((s.round? (feJob s (qpFe s q)) (hRound c)).map (fun x => x.offerDone && pSealed x.plan)).getD false

/-- The places that the adds of chunk i of a slot touch, as ranges: the chunk's elements and, where the chunk is covered, the check accumulator; of a sealed piece the sum's header and the piece's residues (R78, R83, R323). -/
def addPlaces (s : State) (j : JobId) (x : Round) (slot i : Nat) : List (Nat × Nat) :=
  let p := x.plan
  let c := (cohortOf p slot).getD 0
  if pSealed p then
    match pSet p with
    | none => []
    | some y =>
      let a := sumAt s j x c (pieceCt y i)
      [(a, 64), (a + 64 + ((piecePoly y i * y.gam.length + pieceLimb y i) * y.n + piecePart y i * 16384) * 8, 16384 * 8)]
  else
    let k := x.cohort c
    unitPlaces s j x c [i] ++
      (if (k.checkKey.map (fun key => chunkCovered (pRing p) key k.frac i)).getD false then [(checkAt s j x c, 16)] else [])

/-- The bitmap byte of chunk i of a slot, as a range. -/
def bitPlace (s : State) (j : JobId) (x : Round) (slot i : Nat) : Nat × Nat := (bitmapAt s j x slot + i / 8, 1)

/-- Steps 14 and 15: the bit is tested and claimed, and the transaction begins; a second copy waits (R78, R79). Poison that the transaction meets aborts the job, without an ACK (R83). -/
def claim (q : Qpn) (stamp : Nat) (c : Bytes) (s : State) (l : Look) (elems check : List Nat) (sealing : Bool) : State :=
  let i := hIndex c
  match metPoison s l.job [bitPlace s l.job l.x l.slot i] with
  | some a => consumeAt s l.job 1 a
  | none =>
    if ((lookup l.x.bitmaps l.slot).getD []).contains i then answer s q c .duplicate l.fe (some l) true
    else match claimOf s l.job l.r l.slot i with
      | some (n, t) => waitFor s n t l.fe q stamp c
      | none =>
        match metPoison s l.job (addPlaces s l.job l.x l.slot i) with
        | some a => consumeAt s l.job 1 a
        | none => beginTxn s l q c elems check sealing

/-- A masked UPLOAD's last steps (R65, R78, R82, R201). -/
def admitUpload (q : Qpn) (stamp : Nat) (c : Bytes) (s : State) (l : Look) (pt : Bytes) : State :=
  let p := l.x.plan
  let co := (cohortOf p l.slot).getD 0
  if pt.length ≠ pChunk p * ((pRing p).bits / 8) then answer s q c .malformed l.fe (some l) true
  else
    let ys := uploadElems p pt
    let k := l.x.cohort co
    claim q stamp c s l ys (checkValue p k.checkKey k.frac (hIndex c) ys) false

/-- UPLOAD_CHUNK (R78): an UPLOAD of a masked round arrives. -/
def execUploadChunk (q : Qpn) (stamp : Time) (c : Bytes) (s : State) : Res :=
  let s := takeChunk s q c
  .next (if sealedChunk s q c then s else clientChunk 3 s q stamp c (admitUpload q stamp c))

/-- A sealed piece's last steps (R322, R323); it waits while Rind starts no new operation (R353). -/
def admitPiece (q : Qpn) (stamp : Nat) (c : Bytes) (s : State) (l : Look) (pt : Bytes) : State :=
  let p := l.x.plan
  match pSet p with
  | none => s
  | some x =>
    let g := x.gam.getD (pieceLimb x (hIndex c)) 1
    let ys := (List.range 16384).map (fun i => beAt pt (16 + x.delta * i) x.delta)
    if pt.length ≠ 16 + 16384 * x.delta ∨ ¬ zeroAt pt 9 7 ∨ beAt pt 0 8 ≠ spJobKey (pParams p) ∨ beAt pt 8 1 ≠ spSet (pParams p) ∨ ¬ ys.all (· < g) then
      answer s q c .malformed l.fe (some l) true
    else if ¬ rindOn s then holdChunk s l.fe q stamp c
    else claim q stamp c s l ys [0, 0, 0, 0] true

/-- SEALED_UPLOAD_PIECE (R323): a piece of a sealed round arrives. -/
def execSealedUploadPiece (q : Qpn) (stamp : Time) (c : Bytes) (s : State) : Res :=
  let s := takeChunk s q c
  .next (if sealedChunk s q c then clientChunk 3 s q stamp c (admitPiece q stamp c) else s)

/-- The residues of a piece added into its place in a limb (R323). -/
def addPiece (x : PSet) (i : Nat) (ys : List Nat) (c : Ct) : Ct :=
  let l := pieceLimb x i
  let g := x.gam.getD l 1
  let off := piecePart x i * 16384
  let add := fun (limbs : List (List Nat)) => limbs.zipIdx.map (fun e =>
    if e.2 = l then e.1.zipIdx.map (fun v => if off ≤ v.2 ∧ v.2 < off + 16384 then (v.1 + ys.getD (v.2 - off) 0) % g else v.1) else e.1)
  if piecePoly x i = 0 then { c with c0 := add c.c0 } else { c with c1 := add c.c1 }

/-- The commit of a sealed transaction: the adds, COUNT for the client's first piece of the ciphertext, and the bit (R323). -/
def commitSealed (s : State) (t : Txn) (l : Look) : State :=
  let p := l.x.plan
  match pSet p with
  | none => s
  | some x =>
    let co := (cohortOf p t.slot).getD 0
    let i := pieceCt x t.chunk
    let seen := ((lookup l.x.bitmaps t.slot).getD []).any (fun k => pieceCt x k == i)
    let s := s.modCohort t.job t.round co (fun k =>
      let c := sumOf p k i
      { k with sums := putN k.sums i (addPiece x t.chunk t.elems { c with count := if seen then c.count else c.count + 1 }) })
    let s := s.modRound t.job t.round (fun y => { y with bitmaps := putN y.bitmaps t.slot (t.chunk :: (lookup y.bitmaps t.slot).getD []) })
    let s := bankWork (laneOps s t.job t.elems.length) t.job (sumAt s t.job l.x co i) (8 * t.elems.length) (bankOps (8 * t.elems.length))
    modRec s l (fun e => { e with chunks := e.chunks + 1, state := if e.chunks + 1 = chunkCount p ∧ e.state = .UPLOADING then .COMPLETE else e.state }) id

/-- A chunk from step 12 on, with the plaintext that its tag has authenticated: a second copy whose first was discarded, or a piece that Rind held (R79, R353). -/
def againUpload (q : Qpn) (stamp : Nat) (c : Bytes) (s : State) (l : Look) : State :=
  match l.key.bind (fun k => openChunk k c) with
  | none => answer s q c .authFailed l.fe (some l) false
  | some pt => if pSealed l.x.plan then admitPiece q stamp c s l pt else admitUpload q stamp c s l pt

/-- A transaction that ends: its chunk is answered, its buffer is free and the copies that wait go on (R79, R81). -/
def endTxn (s : State) (n : Nat) (t : Txn) (committed : Bool) : State :=
  resumeWaiters (settleOut { s with txns := dropKey s.txns n } (qpFe s t.qpn)) t committed againUpload

/-- ADMISSION_COMMIT (R78, R83, R323, R330): a transaction's last add is applied; `badRuns` of a sealed piece's runs failed their residue check, and two of them discard it without an ACK. -/
def execAdmissionCommit (txn : Nat) (badRuns : Fin 3) (s : State) : Res :=
  .next (match lookup s.txns txn with
    | none => s
    | some t =>
      match s.round? t.job t.round with
      | none => endTxn s txn t false
      | some x =>
        let fe := qpFe s t.qpn
        let l := lookAt s fe t.job x t.slot
        match metPoison s t.job (bitPlace s t.job x t.slot t.chunk :: addPlaces s t.job x t.slot t.chunk) with
        | some a => consumeAt (endTxn s txn { t with waiters := [] } false) t.job 1 a
        | none =>
          if t.sealing ∧ badRuns = 2 then endTxn (rindStatus (residueRuns s false 2) t.job 0 .residueFail) txn t false
          else
            let s := if t.sealing then commitSealed (residueRuns s false badRuns) t l else commitMasked s t l
            let l := match s.round? t.job t.round with
              | some y => { l with x := y }
              | none => l
            endTxn (answer s t.qpn t.head .ok fe (some l) true) txn t true)

/-! Chunks that an engine holds. -/

/-- Whether a held chunk is an UPLOAD of a round. -/
def heldUpload (s : State) (j : JobId) (r : Nat) (w : Qpn × Nat × Bytes) : Bool := hType w.2.2 == 3 && feJob s (qpFe s w.1) == j && hRound w.2.2 == r

/-- A held chunk goes on: a JOIN from step 9, a piece from step 12 (R149, R353). -/
def resumeChunk (s : State) (w : Qpn × Nat × Bytes) : State :=
  let fe := qpFe s w.1
  let s := settleOut s fe
  match s.round? (feJob s fe) (hRound w.2.2) with
  | none => answer s w.1 w.2.2 .wrongRound fe none false
  | some x =>
    let l := lookAt s fe (feJob s fe) x (hSlot w.2.2)
    if hType w.2.2 = 1 then joinAt s w.1 w.2.1 w.2.2 l else againUpload w.1 w.2.1 w.2.2 s l

/-- The held chunks of a type go on in order of arrival, as the engine that they need accepts work again. -/
def resumeChunks (s : State) (type : Nat) : State :=
  let (ws, rest) := s.waitingChunks.partition (fun w => hType w.2.2 == type)
  ws.foldl resumeChunk { s with waitingChunks := rest }

/-- A write of RIND_CTRL: as Rind starts operations, the decodes, refreshes and pieces that wait for it go on, under the SPARE_GROUP that the write leaves (R347, R353). -/
def writeRindCtrl (s : State) (v : Nat) : State :=
  let t := writeCtrl s .RIND_CTRL 1 .rind v
  if rindOn t then rindGoesOn (resumeChunks t 3) else t

/-- RIND_KAT_RUN (R353): a write of RIND_CTRL. -/
def execRindKatRun (v : BitVec 32) (s : State) : Res := .next (writeRindCtrl s v.toNat)

/-- A write of CUL_CTRL: as Culture accepts streams, the refreshes that wait for it go on (R150). -/
def writeCulCtrl (s : State) (v : Nat) : State :=
  let t := writeCtrl s .CUL_CTRL 1 .culture v
  if cultureOn t then rindGoesOn t else t

/-- CUL_KAT_RUN (R150): a write of CUL_CTRL. -/
def execCulKatRun (v : BitVec 32) (s : State) : Res := .next (writeCulCtrl s v.toNat)

/-- CLOSE_DRAIN_EXPIRY (R85): the chunks of a round that wait for a claim, or for Rind, as the drain ends are discarded and acknowledged LATE. -/
def execCloseDrainExpiry (j : JobId) (r : RoundNo) (s : State) : Res :=
  .next (match s.round? j r with
    | none => s
    | some x =>
      if (lookup x.begunAt 6).isNone ∨ x.closed ∨ s.now < x.drainEnd then s
      else
        let ws := (s.txns.filter (fun t => t.2.job == j && t.2.round == r)).flatMap (fun t => t.2.waiters) ++ s.waitingChunks.filter (heldUpload s j r)
        let s := { s with
          txns := s.txns.map (fun t => if t.2.job == j && t.2.round == r then (t.1, { t.2 with waiters := [] }) else t)
          waitingChunks := s.waitingChunks.filter (fun w => !heldUpload s j r w) }
        let s := if ws = [] then s else ev s LND_EVENT.DRAIN_EV
        ws.foldl (fun s w =>
          let fe := qpFe s w.1
          let l := lookAt s fe j x (hSlot w.2.2)
          answer (settleOut s fe) w.1 w.2.2 .late fe (some l) true) s)

end Sys2Proof.Machine
end

