-- ==== Sys2Proof/Machine/Phases.lean ====
section
/-! DEFINITION. The phases of a round from Offer to Close: the phase events and their holds (R37, R41), the Offer (R61), the neighbour graph (R115 to R118), the share bundles (R123, R124), the Upload's zeroed structures and check keys (R169, R197), and the begin of Close (R85). -/

namespace Sys2Proof.Machine

/-! Phases and their holds. -/

/-- The scheduled time of phase 1 to 7 (R37, R419). -/
def phaseTime (p : Bytes) (ph : Nat) : Nat := if ph = 1 then pOfferTime p else pTime p (ph - 2)

/-- The phase of a number 1 to 12; Screen, 9, runs within Settle (R38). -/
def phaseOf : Nat → Phase
  | 1 => .offer
  | 2 => .join
  | 3 => .neighbours
  | 4 => .shares
  | 5 => .upload
  | 6 => .close
  | 7 => .unmask
  | 8 => .settle
  | 9 => .settle
  | 10 => .finish
  | 11 => .gate
  | _ => .release

/-- Whether a phase of a round has begun. -/
def begun (x : Round) (ph : Nat) : Bool := (lookup x.begunAt ph).isSome

/-- Whether every comparison of a closed round is complete (R203 to R205). -/
def compared (x : Round) : Bool := (liveCohorts x).all (fun c => (x.cohort c).checked)

/-- Whether nothing holds phase `ph` of a round: the Offer waits for every earlier round's Close (R41), Unmask for the survivors and the comparisons (R85, R134, R204), the draws of Offer, Shares and Upload for the entropy unit (R551, R554), the Offer's key pair for Toll (R149). -/
def mayBegin (s : State) (j : JobId) (x : Round) (ph : Nat) : Bool :=
  let drawn := get1 s ENT_STATUS.STATE != 0
  match ph with
  | 1 => (s.job j).rounds.all (fun y => decide (x.number ≤ y.number) || y.closed) && drawn && tollOn s
  | 4 => begun x 3 && (drawn || pSealed x.plan)
  | 5 => begun x 4 && (drawn || pSealed x.plan)
  | 7 => begun x 6 && x.closed && compared x
  | _ => begun x (ph - 1)

/-- The chunk types whose window closes at a phase's scheduled time (R86). -/
def closingTypes : Nat → List Nat
  | 3 => [1]
  | 5 => [2]
  | 6 => [3, 5]
  | 8 => [4]
  | _ => []

/-- The records of the windows that close while time is doubtful (R86). -/
def doubtfulCloses (s : State) (j : JobId) (x : Round) (ph : Nat) : State :=
  if doubtful s then (closingTypes ph).foldl (fun t c => logJob t j 0x02 x.number c (phaseTime x.plan ph)) s else s

/-- A phase of a round begins: its time, the phase counter, and the power states (R37, R373, R524). -/
def markPhase (s : State) (j : JobId) (r ph : Nat) : State :=
  choosePower (bump (s.modRound j r (fun x => { x with
    phase := phaseOf ph
    held := x.held.filter (· != phaseOf ph)
    begunAt := putN x.begunAt ph s.now })) j 0 1)

/-- A held phase noted. -/
def holdPhase (s : State) (j : JobId) (r ph : Nat) : State :=
  s.modRound j r (fun x => { x with held := if x.held.contains (phaseOf ph) then x.held else x.held ++ [phaseOf ph] })

/-- The joined slots of a round, ascending: those whose Roster entry holds the round (R103). -/
def joinedSlots (s : State) (j : JobId) (r : Nat) : List Nat :=
  (s.roster.filter (fun e => e.2.valid && e.2.job == j.val && e.2.round == r && e.2.state != .FREE)).map (fun e => e.1 - fget s ROS_JOB_RANGE.BASE j 0)

/-- A message to a slot of a round. -/
def tell (s : State) (j : JobId) (r slot type : Nat) (payload : Bytes) : State :=
  match s.round? j r with
  | none => s
  | some x => sendMsg s (lookAt s (if x.closed then ((lookup x.closeTable slot).map (·.fe)).getD 0 else (entryOf s j r slot).fe) j x slot) type payload

/-! The phases, the last first: each releases the one that is held after it. -/

/-- Close begins: the drain's end is fixed (R85). -/
def beginClose (s : State) (j : JobId) (r : Nat) : State :=
  (markPhase s j r 6).modRound j r (fun x => { x with drainEnd := s.now + get1 s LND_CLOSE_DRAIN.DRAIN_US * 1000 })

/-! Upload. -/

/-- The bundles addressed to a slot, by ascending sender (R123). -/
def bundlesTo (x : Round) (slot : Nat) : List (Nat × Bytes) :=
  if (lookup x.bundles slot).isNone then []
  else ((lookup x.nbrs slot).getD []).filterMap (fun u => ((lookup x.bundles u).bind (fun b => lookup b slot)).map (fun y => (u, y)))

/-- The plaintext of a SHARE_BUNDLE (R69). -/
def bundleMsg (bs : List (Nat × Bytes)) : Bytes :=
  toBe 2 bs.length ++ zeros 2 ++ List.flatten (bs.map (fun e => toBe 4 e.1 ++ toBe 4 e.2.length ++ e.2))

/-- The check key and the fraction of one cohort, and its check sequence (R197 to R199, R582). -/
def drawCheckKey (j : JobId) (r frac : Nat) (s : State) (c : Nat) : State :=
  let (q, s) := nextCheckSeq s j
  let s := count s TRI_JOB_CHECK.PENDING j 0 1
  let want := fget s PLT_JOB_FRAC.WANT j 0
  if entropyReady s then
    let (k, s) := drawKey (served s 1)
    s.modCohort j r c (fun k' => { k' with checkKey := some k, frac := frac, wanted := want, checkSeq := q })
  else s.modCohort j r c (fun k' => { k' with checkKey := none, frac := 0, wanted := max 1 want, checkSeq := q })

/-- The fraction that Trier applies: 0 while it is disabled (R597). -/
def appliedFrac (s : State) (j : JobId) : Nat := if on s TRI_CTRL.ENABLE then fget s PLT_JOB_FRAC.APPLIED j 0 else 0

/-- Upload begins: the SHARE_BUNDLE messages, the zeroed accumulators, written whole so that their poison clears, and the check keys of the cohorts that are not abandoned (R123, R155, R169, R197, R326, assumption 86). -/
def beginUpload (s : State) (j : JobId) (r : Nat) : State :=
  let s := markPhase s j r 5
  match s.round? j r with
  | none => s
  | some x =>
    let s := if pSealed x.plan then s else (x.bundles.map (·.1)).foldl (fun t u => tell t j r u 0x83 (bundleMsg (bundlesTo x u))) s
    let s := (List.range (pCohortCount x.plan)).foldl (fun t c =>
      (clearCohort t j x c).modCohort j r c (fun k => { k with accum := [], check := [0, 0, 0, 0], sums := [] })) s
    let s := if pSealed x.plan then s
      else
        let s := trierLoop s j
        (liveCohorts x).foldl (drawCheckKey j r (appliedFrac s j)) s
    match s.round? j r with
    | none => s
    | some x => if x.held.contains .close then beginClose s j r else s

/-! Shares. -/

/-- The round is in Shares; an Upload that was held for it begins (R37). -/
def enterShares (s : State) (j : JobId) (r : Nat) : State :=
  let s := markPhase s j r 4
  match s.round? j r with
  | none => s
  | some x => if x.held.contains .upload ∧ mayBegin s j x 5 then beginUpload s j r else s

/-- Shares begins: the bundle key is drawn into the round's BUNDLE slot; without entropy the job is aborted (R124, R541, R552). A sealed round has no bundles. -/
def beginShares (s : State) (j : JobId) (r : Nat) : State :=
  match s.round? j r with
  | none => s
  | some x =>
    if pSealed x.plan then enterShares s j r
    else if ¬ entropyReady s then abortJob s j 3 0 false
    else
      let (k, s) := drawKey (served s 1)
      let s := fillSlot s ((s.job j).bundleSlot r) 0 j 1 1 0 (keyBytes k)
      enterShares (s.modRound j r (fun x => { x with bundleKey := some k })) j r

/-! Neighbours. -/

/-- The graph seed of a cohort (R115). -/
def graphSeed (s : State) (j : JobId) (x : Round) (c : Nat) : Bytes :=
  digestBytes (sha384 (ascii "BR1 GRAPH" ++ toBe 4 (fget s LND_JOB_TAG.TAG j 0) ++ toBe 4 x.number ++ toBe 4 c ++ x.pub))

/-- Draw number n of the shuffle stream of a seed (R115). -/
def shuffleDraw (seed : Bytes) (n : Nat) : Nat := leAt (chachaBlock (keyOf (slice seed 0 32)) (slice seed 32 12) (n / 16)) (4 * (n % 16)) 4

/-- The first draw from number n on that lies below the limit, and the number of the draw after it; at most `fuel` are rejected. -/
def acceptDraw (seed : Bytes) (limit : Nat) : Nat → Nat → Nat × Nat
  | 0, n => (shuffleDraw seed n, n + 1)
  | fuel + 1, n => if shuffleDraw seed n < limit then (shuffleDraw seed n, n + 1) else acceptDraw seed limit fuel (n + 1)

/-- The shuffle of R116 for the positions i down to 1, from draw n on. -/
def shuffle (seed : Bytes) : Nat → Nat → List Nat → List Nat
  | 0, _, o => o
  | i + 1, n, o =>
    let k := i + 2
    let (r, n) := acceptDraw seed (2 ^ 32 / k * k) 65536 n
    let q := r % k
    shuffle seed i n ((o.set (i + 1) (o.getD q 0)).set q (o.getD (i + 1) 0))

/-- The neighbours of each member of a cohort: the circulant graph of degree k over the shuffled order, each list ascending (R116, R118). -/
def graph (seed : Bytes) (k : Nat) (members : List Nat) : List (Nat × List Nat) :=
  let o := shuffle seed (members.length - 1) 0 members
  let n := o.length
  o.zipIdx.map (fun e => (e.1, ((List.range (k / 2)).flatMap (fun d =>
    [o.getD ((e.2 + (d + 1)) % n) 0, o.getD ((e.2 + n - (d + 1)) % n) 0])).mergeSort))

/-- The plaintext of a NEIGHBOURS (R69, R118). -/
def neighbourMsg (x : Round) (nb : List Nat) : Bytes :=
  toBe 2 nb.length ++ zeros 2 ++ List.flatten (nb.map (fun v => toBe 4 v ++ ((lookup x.keys v).map (·.pair)).getD (zeros 97) ++ zeros 3))

/-- A joined slot is sent its NEIGHBOURS and is NEIGHBOURED (R102). -/
def neighbour (j : JobId) (r : Nat) (x : Round) (s : State) (slot : Nat) (nb : List Nat) : State :=
  modEntry (tell s j r slot 0x82 (neighbourMsg x nb)) j slot (fun e => { e with state := .NEIGHBOURED })

/-- The Neighbours phase of one cohort: its members, its graph or its abandonment (R116, R117, R310, R311). -/
def neighboursCohort (j : JobId) (r : Nat) (x : Round) (joined : List Nat) (s : State) (c : Nat) : State :=
  let p := x.plan
  let ms := joined.filter (fun u => cohortOf p u == some c && !isMember p u)
  let s := s.modCohort j r c (fun k => { k with members := ms })
  let need := if pSealed p then pMinSurv p else max (pMinSurv p) (pDegree p + 1)
  if ms.length < need then abandon s j r c reasonJoinShort
  else if pSealed p then ms.foldl (fun t u => neighbour j r x t u []) s
  else
    let g := graph (graphSeed s j x c) (pDegree p) ms
    let s := s.modRound j r (fun y => { y with nbrs := g.foldl (fun m e => putN m e.1 e.2) y.nbrs })
    ms.foldl (fun t u => neighbour j r x t u ((lookup g u).getD [])) s

/-- Neighbours begins (R69, R116 to R118, R310). -/
def beginNeighbours (s : State) (j : JobId) (r : Nat) : State :=
  let s := markPhase s j r 3
  match s.round? j r with
  | none => s
  | some x =>
    let s := fset (fset s CUL_JOB_COHORTS.ABANDONED j 0 0) CUL_JOB_COHORTS.UNMASKED j 0 0
    let joined := (joinedSlots s j r).filter (fun u => (entryOf s j r u).state == .JOINED)
    let s := (List.range (pCohortCount x.plan)).foldl (neighboursCohort j r x joined) s
    let s := (joined.filter (fun u => isMember x.plan u)).foldl (fun t u => neighbour j r x t u []) s
    match s.round? j r with
    | none => s
    | some x => if x.held.contains .shares ∧ mayBegin s j x 4 then beginShares s j r else s

/-! Join and Offer. -/

/-- Join begins: the JOIN and ABORT windows open (R84). -/
def beginJoin (s : State) (j : JobId) (r : Nat) : State :=
  let s := markPhase s j r 2
  match s.round? j r with
  | none => s
  | some x => if x.held.contains .neighbours then beginNeighbours s j r else s

/-- The bytes of an OFFER before its signature (R61, R556); a sealed round's carries NB_DEGREE 16 and THRESHOLD 9 (R310). -/
def offerBody (s : State) (j : JobId) (x : Round) (version : Nat) : Bytes :=
  let p := x.plan
  let rep := report s j (digestBytes (sha384 x.pub))
  let q := if pSealed p then slice p 0 3 ++ [16] ++ toBe 2 9 ++ slice p 6 98 else slice p 0 104
  let pay := q ++ x.pub ++ [0] ++ toBe 2 (pSealedLen p) ++ toBe 4 rep.length ++ pParams p ++ rep
  moduleHeader version 0x81 0 (fget s LND_JOB_TAG.TAG j 0) x.number 0xFFFFFFFF 0 (pay.length + 96) 0 ++ pay

/-- The OFFER sent to one front-end in its version; a version 2 front-end receives none of a sealed or a Z24 round (R61, R87, R89). Toll signs it with one scalar multiplication (R149). -/
def sendOffer (j : JobId) (x : Round) (s : State) (fe : Nat) : State :=
  let v3 := fget s LND_FE_CFG.VERSION3 fe 0 == 1
  if !v3 && (pSealed x.plan || pRingBits x.plan == 24) then s
  else match feQp s fe with
    | none => s
    | some q =>
      let n := (s.job j).offerSlot
      let (st, s) := takeSlot s n j 2 2
      if st = .ok then
        let b := offerBody s j x (if v3 then 3 else 2)
        sendChunk (tollDone s (some j) 1 0) q (b ++ ecdsaSign (s.job j).offerPriv (sha384 b))
      else s

/-- A front-end's counts of the round cleared (R93, R98). -/
def clearFeCounts (s : State) (fe : Nat) : State :=
  let s := fset (fset s LND_FE_ERR.AUTH_FAILED fe 0 0) LND_FE_ERR.MALFORMED fe 0 0
  { fset (fset s LND_FE_LATE.LATE fe 0 0) LND_FE_LATE.OUT_OF_PHASE fe 0 0 with feSeen := dropKey s.feSeen fe }

/-- The key-table entries that a sealed round uses (R337). -/
def usedEntries (J : Job) (p : Bytes) : List Nat :=
  if pSealed p then
    ((List.range (spGroups (pParams p))).filterMap (fun g => (keyEntry J (spSet (pParams p)) (spJobKey (pParams p)) (spGroupKey (pParams p) g)).map (·.1))).dedup
  else []

/-- The Offer begins: the round key is drawn into the round's ROUND slot, the front-ends' counts clear and the OFFER is sent; without entropy there is no Offer and the job is aborted (R61, R98, R337, R504, R541, R552). -/
def beginOffer (s : State) (j : JobId) (r : Nat) : State :=
  if ¬ entropyReady s then abortJob s j 3 0 false
  else
    let (d, s) := drawScalar (served s 1)
    let s := fillSlot (tollDone s (some j) 1 0) ((s.job j).roundSlot r) 2 j 2 1 0 (toBe 48 d)
    let s := s.modRound j r (fun x => { x with
      offerDone := true
      priv := d
      pub := publicOf d
      lockedKeys := usedEntries (s.job j) x.plan })
    let s := s.modJob j (fun J => { J with offered := true })
    let s := fset (fset s RIND_JOB_KEYS.LOCKED j 0 (lockedMask s j)) ROS_JOB_COUNTS.JOINED j 0 0
    let s := (fesOf s j).foldl clearFeCounts s
    match s.round? j r with
    | none => s
    | some x =>
      let s := (fesOf s j).foldl (sendOffer j x) (followOffer s j r (pOfferTime x.plan))
      let s := markPhase s j r 1
      if x.held.contains .join then beginJoin s j r else s

/-- A phase begins whose turn it is. -/
def beginPhase (s : State) (j : JobId) (r ph : Nat) : State :=
  match ph with
  | 1 => beginOffer s j r
  | 2 => beginJoin s j r
  | 3 => beginNeighbours s j r
  | 4 => beginShares s j r
  | 5 => beginUpload s j r
  | 6 => beginClose s j r
  | _ => s

/-- A PHASE event fires (R37, R86, R503): its phase begins, or is held and the slip is recorded. -/
def phaseEvent (s : State) (j : JobId) (r ph : Nat) (go : State → State) : State :=
  match s.round? j r with
  | none => s
  | some x =>
    if s.now < phaseTime x.plan ph ∨ begun x ph ∨ x.held.contains (phaseOf ph) ∨ ¬ s.alive j then s
    else
      let s := doubtfulCloses (fireEntry s (phaseEntry j r (ph - 1)) false) j x ph
      if mayBegin s j x ph then go s
      else
        let s := if ph = 1 ∨ ¬ begun x (ph - 1) then logJob s j 0x01 r ph (phaseTime x.plan ph) else s
        holdPhase s j r ph

/-- The held phases of a round that nothing holds any more, up to Close (R37, R41, R551). -/
def releaseHeld (s : State) (j : JobId) (r : Nat) : State :=
  [1, 2, 3, 4, 5, 6].foldl (fun t ph =>
    match t.round? j r with
    | none => t
    | some x => if x.held.contains (phaseOf ph) && !begun x ph && mayBegin t j x ph && t.alive j then beginPhase t j r ph else t) s

/-- The held phases of every round tried again. -/
def releaseAll (s : State) : State :=
  (List.finRange 16).foldl (fun t (j : JobId) => ((t.job j).rounds.map (·.number)).foldl (fun u r => releaseHeld u j r) t) s

/-- OFFER_BEGIN (R61): the Offer PHASE event fires. -/
def execOfferBegin (j : JobId) (r : RoundNo) (s : State) : Res := .next (phaseEvent s j r 1 (fun t => beginOffer t j r))

/-- JOIN_BEGIN (R84): the Join PHASE event fires. -/
def execJoinBegin (j : JobId) (r : RoundNo) (s : State) : Res := .next (phaseEvent s j r 2 (fun t => beginJoin t j r))

/-- NEIGHBOURS_BEGIN (R116): the Neighbours PHASE event fires. -/
def execNeighboursBegin (j : JobId) (r : RoundNo) (s : State) : Res := .next (phaseEvent s j r 3 (fun t => beginNeighbours t j r))

/-- SHARES_BEGIN (R124): the Shares PHASE event fires. -/
def execSharesBegin (j : JobId) (r : RoundNo) (s : State) : Res := .next (phaseEvent s j r 4 (fun t => beginShares t j r))

/-- UPLOAD_BEGIN (R123): the Upload PHASE event fires. -/
def execUploadBegin (j : JobId) (r : RoundNo) (s : State) : Res := .next (phaseEvent s j r 5 (fun t => beginUpload t j r))

/-- CLOSE_BEGIN (R85): the Close PHASE event fires. -/
def execCloseBegin (j : JobId) (r : RoundNo) (s : State) : Res := .next (phaseEvent s j r 6 (fun t => beginClose t j r))

end Sys2Proof.Machine
end

