-- ==== Sys2Proof/Machine/Unmask.lean ====
section
/-! DEFINITION. Unmask: the requests (R134, R341), the reconstruction of secrets and its checks (R137, R138), the derived mask keys (R139), the removal of the masks (R140, R141), the deadline (R137, R144, R347), and Toll's control register (R149). -/

namespace Sys2Proof.Machine

/-! Reconstruction. -/

/-- The polynomial through points (x, y) evaluated at z, modulo the order of P-384 (R138). -/
def interpolate (pts : List (Nat × Nat)) (z : Nat) : Nat :=
  let n := p384N
  let term := fun (e : Nat × Nat) =>
    pts.foldl (fun acc o => if o.1 = e.1 then acc
      else acc * ((z + (n - o.1 % n)) % n) % n * invMod ((e.1 + (n - o.1 % n)) % n) n % n) (e.2 % n)
  (pts.map term).sum % n

/-- The points of shares: the sender's slot plus one (R120, R138). -/
def sharePoints (ss : List (Nat × Nat)) : List (Nat × Nat) := ss.map (fun e => (e.1 + 1, e.2))

/-- The value of a secret from its first t shares (R138). -/
def secretValue (t : Nat) (k : Secret) : Nat := interpolate (sharePoints (k.shares.take t)) 0

/-- Whether a reconstruction passes its checks (R138); a spare share counts only where Toll waits for one (R149). -/
def secretOk (x : Round) (t : Nat) (spare : Bool) (k : Secret) : Bool :=
  let v := secretValue t k
  let pub := ((lookup x.keys k.about).map (·.pair)).getD []
  (!k.pairKey || publicOf v == pub) &&
    (match spare, k.shares[t]? with
      | true, some e => interpolate (sharePoints (k.shares.take t)) (e.1 + 1) == e.2
      | _, _ => true)

/-- K_pair of two slots (R114). -/
def pairMaskKey (tag r u v : Nat) (z : Bytes) : Key256 :=
  keyOf (hkdfExpand (hkdfExtract (toBe 4 tag ++ toBe 4 r ++ toBe 4 (min u v) ++ toBe 4 (max u v)) z) (ascii "BR1 MASK PAIR") 32)

/-- K_self of a slot (R114). -/
def selfMaskKey (tag r u b : Nat) : Key256 :=
  keyOf (hkdfExpand (hkdfExtract (toBe 4 tag ++ toBe 4 r ++ toBe 4 u) (toBe 48 b)) (ascii "BR1 MASK SELF") 32)

/-- The active neighbours of a slot: the neighbours whose SHARES were admitted, where its own was (R123). -/
def activeOf (x : Round) (u : Nat) : List Nat :=
  if (lookup x.bundles u).isSome then ((lookup x.nbrs u).getD []).filter (fun v => (lookup x.bundles v).isSome) else []

/-- The mask keys that a reconstructed secret gives, each with whether its stream is added (R128, R139, R140). -/
def maskJobs (x : Round) (tag : Nat) (survs : List Nat) (k : Secret) (v : Nat) : List MaskJob :=
  if k.pairKey then
    ((activeOf x k.about).filter (fun w => survs.contains w)).filterMap (fun w =>
      (lookup x.keys w).bind (fun key => (decodePt key.pair).map (fun pt => ⟨pairMaskKey tag x.number k.about w (ecdhX v pt), decide (k.about < w)⟩)))
  else [⟨selfMaskKey tag x.number k.about v, false⟩]

/-- The shares that a reconstruction waits for (R137, R149). -/
def sharesWanted (s : State) (x : Round) (k : Secret) : Nat :=
  let t := pThreshold x.plan
  if x.deadline ∨ ¬ on s TOL_CTRL.SPARE_WAIT then t else min (t + 1) k.possible

/-- A secret marked reconstructed, its shares dropped. -/
def markDone (about : Nat) (k : Cohort) (ms : List MaskJob) : Cohort :=
  { k with
    secrets := k.secrets.map (fun e => if e.about == about then { e with done := true, shares := [] } else e)
    masks := k.masks ++ ms }

/-- A reconstruction that failed a check (R138, R144). -/
def inconsistent (s : State) (j : JobId) (r c : Nat) : State := abandon (ev s TOL_EVENT.INCONS_EV) j r c reasonInconsistent

/-- One secret of a cohort reconstructed, checked, and its keys handed to Culture (R138, R139). -/
def reconstruct (s : State) (j : JobId) (r c : Nat) (x : Round) (k : Secret) : State :=
  let t := pThreshold x.plan
  let v := secretValue t k
  let s := count s TOL_RECON_CNT.COUNT 0 0 1
  let s := if k.pairKey then tollDone s (some j) 1 0 else s
  if poisoned s j (hbmPlace j placeKeys r k.about) 64 then consumeAt s j 2 (hbmPlace j placeKeys r k.about)
  else if ¬ secretOk x t (on s TOL_CTRL.SPARE_WAIT) k then inconsistent s j r c
  else
    let ms := maskJobs x (fget s LND_JOB_TAG.TAG j 0) (x.cohort c).survivors k v
    let s := if k.pairKey then tollDone s (some j) ms.length ms.length else count s TOL_HKDF_CNT.COUNT 0 0 ms.length
    let s := count s TOL_JOB_UNMASK.DONE j 0 1
    s.modCohort j r c (fun y => markDone k.about y ms)

/-- Whether a secret of a live cohort is due to be reconstructed (R137). -/
def secretDue (s : State) (x : Round) (k : Secret) : Bool := !k.done && decide (sharesWanted s x k ≤ k.shares.length)

/-- SECRET_RECONSTRUCT (R138): a needed secret holds enough shares. -/
def execSecretReconstruct (j : JobId) (r : RoundNo) (about : Slot) (s : State) : Res :=
  .next (match s.round? j r with
    | none => s
    | some x =>
      let c := (cohortOf x.plan about).getD 0
      let co := x.cohort c
      match co.secrets.find? (fun k => k.about == about.val) with
      | none => s
      | some k =>
        if ¬ begun x 7 ∨ co.reason ≠ 0 ∨ ¬ secretDue s x k ∨ ¬ tollOn s ∨ ¬ s.alive j then s else reconstruct s j r c x k)

/-! The deadline. -/

/-- Every reconstruction of a cohort that the shares at hand allow. -/
def reconstructCohort (j : JobId) (r : Nat) (s : State) (c : Nat) : State :=
  (s.cohort j r c).secrets.foldl (fun t k =>
    match t.round? j r with
    | none => t
    | some x => if (x.cohort c).reason = 0 ∧ secretDue t x k ∧ t.alive j then reconstruct t j r c x k else t) s

/-- The reconstructions of a round that are due, where Toll accepts work. -/
def reconstructDue (s : State) (j : JobId) (r : Nat) : State :=
  match s.round? j r with
  | none => s
  | some x => if x.deadline ∧ begun x 7 ∧ tollOn s then (liveCohorts x).foldl (reconstructCohort j r) s else s

/-- The masked cohorts that hold too few shares at the deadline are abandoned, and the other reconstructions run (R137, R144). -/
def maskedDeadline (s : State) (j : JobId) (r : Nat) (x : Round) : State :=
  let t := pThreshold x.plan
  let s := (liveCohorts x).foldl (fun s c =>
    if (x.cohort c).secrets.any (fun k => !k.done && decide (k.shares.length < t)) then abandon s j r c reasonSharesShort else s) s
  reconstructDue s j r

/-- The Unmask deadline of a round whose Unmask has begun (R137, R347). -/
def applyDeadline (s : State) (j : JobId) (r : Nat) : State :=
  let s := s.modRound j r (fun x => { x with deadline := true })
  match s.round? j r with
  | none => s
  | some x => if pSealed x.plan then tryDecode s j r else maskedDeadline s j r x

/-- UNMASK_DEADLINE (R137): the Unmask deadline's event fires; a deadline that passes before Unmask begins acts as it begins. -/
def execUnmaskDeadline (j : JobId) (r : RoundNo) (s : State) : Res :=
  .next (match s.round? j r with
    | none => s
    | some x =>
      if s.now < phaseTime x.plan 8 ∨ x.deadline ∨ ¬ s.alive j then s
      else
        let s := doubtfulCloses (fireEntry s (phaseEntry j r 7) false) j x 8
        if begun x 7 then applyDeadline s j r else s.modRound j r (fun y => { y with deadline := true }))

/-! Unmask begins. -/

/-- The plaintext of a survivor's UNMASK_REQUEST (R69, R134). -/
def unmaskMsg (drop surv : List Nat) : Bytes :=
  toBe 2 drop.length ++ toBe 2 surv.length ++ List.flatten (drop.map (toBe 4)) ++ List.flatten (surv.map (toBe 4))

/-- One survivor's UNMASK_REQUEST, and what it asked for (R134). -/
def requestShares (j : JobId) (r : Nat) (x : Round) (k : Cohort) (s : State) (v : Nat) : State :=
  let a := activeOf x v
  let drop := a.filter (fun u => k.dropouts.contains u)
  let surv := a.filter (fun u => k.survivors.contains u)
  let s := s.modRound j r (fun y => { y with requested := putN y.requested v (drop.map (fun u => (u, true)) ++ surv.map (fun u => (u, false))) })
  tell s j r v 0x84 (unmaskMsg drop surv)

/-- The joined members of a sealed round receive their export notices (R341). -/
def noticeMembers (s : State) (j : JobId) (r : Nat) (x : Round) : State :=
  match pSet x.plan with
  | none => s
  | some y => (spSlots (pParams x.plan)).foldl (fun t m =>
      if (lookup x.closeTable m.1).isSome then tell t j r m.1 0x84 (exportNotice y x m.2.1 m.2.2) else t) s

/-- Unmask begins (R69, R134, R137, R341). -/
def beginUnmask (s : State) (j : JobId) (r : Nat) : State :=
  let s := markPhase s j r 7
  match s.round? j r with
  | none => s
  | some x =>
    let live := liveCohorts x
    let s := if pSealed x.plan then noticeMembers s j r x
      else live.foldl (fun t c => (x.cohort c).survivors.foldl (requestShares j r x (x.cohort c)) t) s
    let needed := (live.map (fun c => (x.cohort c).secrets.length)).sum
    let s := fset (fset s TOL_JOB_UNMASK.NEEDED j 0 needed) TOL_JOB_UNMASK.DONE j 0 0
    if x.deadline then applyDeadline s j r else s

/-- UNMASK_BEGIN (R134): the Unmask PHASE event fires. -/
def execUnmaskBegin (j : JobId) (r : RoundNo) (s : State) : Res := .next (phaseEvent s j r 7 (fun t => beginUnmask t j r))

/-- A held Unmask begins once nothing holds it. -/
def releaseUnmask (s : State) (j : JobId) (r : Nat) : State :=
  match s.round? j r with
  | none => s
  | some x => if x.held.contains .unmask ∧ mayBegin s j x 7 ∧ s.alive j then beginUnmask s j r else s

/-! The masks' removal. -/

/-- The units of a slice that are not void. -/
def clearUnits (p : Bytes) (k : Cohort) : List Nat := (List.range (unitCountOf p)).filter (fun i => !k.voids.contains i)

/-- The coordinates of a slice outside the void chunks. -/
def clearCoords (p : Bytes) (k : Cohort) : List Nat := (List.range (pSlice p)).filter (fun i => !k.voids.contains (i / pChunk p))

/-- One mask stream applied to an accumulator (R127, R140). -/
def applyMask (p : Bytes) (js : List Nat) (acc : NatMap Nat) (m : MaskJob) : NatMap Nat :=
  let w := (pRing p).bits
  js.foldl (fun a i =>
    let e := maskElem (pRing p) m.key (maskNonce (pRing p)) i
    putD id 0 a i (ringAdd w (readD 0 a i) (if m.adds then e else ringNeg w e))) acc

/-- The coordinates of a ring in one keystream block (R127). -/
def perBlock : Ring → Nat
  | .z16 => 32
  | .z24 => 21
  | .z32 => 16

/-- The keystream blocks that cover listed coordinates. -/
def blocksOf (p : Bytes) (js : List Nat) : Nat := ((js.map (fun i => i / perBlock (pRing p))).dedup).length

/-- Culture's counts of keystream and of adds. -/
def cultureCounts (s : State) (j : JobId) (blocks elems : Nat) : State :=
  pmu (count (count s CUL_BYTES.COUNT 0 0 (64 * blocks)) CUL_ADDS.COUNT 0 0 elems) 0x11 (some j) blocks

/-- Every mask of a cohort removed, its secrets and keys erased, and the cohort unmasked (R140, R141). -/
def unmaskCohort (s : State) (j : JobId) (r c : Nat) (p : Bytes) (k : Cohort) : State :=
  let js := clearCoords p k
  let n := k.masks.length
  let s := cultureCounts s j (n * blocksOf p js) (n * js.length)
  let m := js.length * (pRing p).slot
  let s := bankWork s j (((s.round? j r).map (fun x => accAt s j x c)).getD 0) (n * m) (n * bankOps m)
  let s := s.modCohort j r c (fun y => { y with
    accum := k.masks.foldl (applyMask p js) y.accum
    secrets := []
    masks := []
    unmasked := true })
  countCohort s CUL_JOB_COHORTS.UNMASKED j r

/-- COHORT_UNMASK_DONE (R141): every needed secret of a cohort is reconstructed and every add applied; of a sealed round's cohort, it is decoded. -/
def execCohortUnmaskDone (j : JobId) (r : RoundNo) (c : CohortId) (s : State) : Res :=
  .next (match s.round? j r with
    | none => s
    | some x =>
      let k := x.cohort c
      if ¬ begun x 7 ∨ pCohortCount x.plan ≤ c.val ∨ k.reason ≠ 0 ∨ k.unmasked ∨ ¬ s.alive j then s
      else if pSealed x.plan then
        if k.decodeDone then countCohort (s.modCohort j r c (fun y => { y with unmasked := true })) CUL_JOB_COHORTS.UNMASKED j r else s
      else if ¬ cultureOn s ∨ ¬ k.checked ∨ ¬ k.secrets.all (·.done) then s
      else match metPoison s j (unitPlaces s j x c (clearUnits x.plan k)) with
        | some a => consumeAt s j 3 a
        | none => unmaskCohort s j r c x.plan k)

/-! Toll's control register. -/

/-- The JOINs, the reconstructions and the Offers that wait for Toll go on (R137, R149). -/
def tollGoesOn (s : State) : State :=
  releaseAll ((List.finRange 16).foldl (fun t (j : JobId) => ((t.job j).rounds.map (·.number)).foldl (fun u r => reconstructDue u j r) t) (resumeChunks s 1))

/-- A write of TOL_CTRL: as ENABLE returns to 1, the work that waits for Toll goes on (R137, R149). -/
def writeTolCtrl (s : State) (v : Nat) : State :=
  let t := writeCtrl s .TOL_CTRL 2 .toll v
  if tollOn t ∧ ¬ tollOn s then tollGoesOn t else t

/-- The work that waited because an engine had no live unit goes on as one becomes live (R516, R590). -/
def enginesGoOn (s t : State) : State :=
  let u := if tollOn t ∧ ¬ tollOn s then tollGoesOn t else t
  let u := if rindOn t ∧ ¬ rindOn s then rindGoesOn (resumeChunks u 3) else u
  if cultureOn t ∧ ¬ cultureOn s then rindGoesOn u else u

/-- TOL_ENABLE_WRITE (R137): a write of TOL_CTRL. -/
def execTolEnableWrite (v : BitVec 32) (s : State) : Res := .next (writeTolCtrl s v.toNat)

/-- TOL_KAT_RUN (R149): a write of TOL_CTRL. -/
def execTolKatRun (v : BitVec 32) (s : State) : Res := .next (writeTolCtrl s v.toNat)

end Sys2Proof.Machine
end

