-- ==== Sys2Proof/Machine/Close.lean ====
section
/-! DEFINITION. Close: the survivors, the dropouts and the void chunks (R130 to R133), the close table (R104, R105), what Close abandons (R144), and the linear check between Landing and the Vat (R203, R204). -/

namespace Sys2Proof.Machine

/-! Close. -/

/-- The close record of a Roster entry (R104, R105, R130); it names the round's key record. -/
def closeRec (p : Bytes) (slot : Nat) (e : Entry) : CloseRec where
  state := if isMember p slot then e.state else if e.state = .COMPLETE then .SURVIVOR else .DROPOUT
  unmaskAdm := e.unmaskAdm
  resultSent := e.resultSent
  version3 := e.version3
  withdrawn := e.state == .WITHDRAWN
  fe := e.fe
  round := e.round
  keyHandle := e.keyHandle
  msgSeq := e.msgSeq
  cohort := e.cohort
  errAuth := 0
  errOther := 0
  dup := 0
  reason := e.reason

/-- The void units of a cohort: the chunks, or the ciphertexts, of which a dropout has one admitted (R131, R324). -/
def voidsOf (x : Round) (drops : List Nat) : List Nat :=
  let seen := drops.flatMap (fun u => (lookup x.bitmaps u).getD [])
  let units := match pSealed x.plan, pSet x.plan with
    | true, some y => seen.map (pieceCt y)
    | _, _ => seen
  units.dedup.mergeSort

/-- The secrets that the Unmask of a cohort needs (R137). -/
def secretsOf (x : Round) (survs drops : List Nat) : List Secret :=
  let possible := fun u => ((activeOf x u).filter (fun v => survs.contains v)).length
  (drops.filter (fun u => possible u != 0)).map (fun u => ⟨u, true, possible u, [], false⟩) ++ survs.map (fun u => ⟨u, false, possible u, [], false⟩)

/-- The weight of a cohort, from the table as it lies at Close (R172). -/
def weightOf (s : State) (j : JobId) (p : Bytes) (c : Nat) : Nat := if pWeightPtr p = 0 then 1 else leNat (jobRead s j (pWeightPtr p + 2 * c) 2)

/-- The reason for which Close abandons a cohort; 0 for none (R144). -/
def closeReason (p : Bytes) (survs voids : List Nat) (secrets : List Secret) : Nat :=
  if survs.length < pMinSurv p then reasonFewSurvivors
  else if unitCountOf p ≤ voids.length then reasonAllVoid
  else if ¬ pSealed p ∧ secrets.any (fun k => decide (k.possible < pThreshold p)) then reasonSharesShort
  else 0

/-- Close of one cohort (R130, R131, R137, R144, R172). -/
def closeCohort (j : JobId) (r : Nat) (x : Round) (s : State) (c : Nat) : State :=
  let p := x.plan
  let mine := x.closeTable.filter (fun e => e.2.cohort == c && !isMember p e.1)
  let survs := (mine.filter (fun e => e.2.state == .SURVIVOR)).map (·.1)
  let drops := (mine.filter (fun e => e.2.state == .DROPOUT)).map (·.1)
  let voids := voidsOf x drops
  let secrets := if pSealed p then [] else secretsOf x survs drops
  let w := weightOf s j p c
  let s := s.modCohort j r c (fun k => { k with
    survivors := survs
    dropouts := drops
    voids := voids
    weight := w
    secrets := if k.reason = 0 then secrets else [] })
  let s := count s CUL_JOB_VOID.VOID_CHUNKS j 0 voids.length
  let why := closeReason p survs voids secrets
  if why = 0 then s else abandon s j r c why

/-- The check group of a cohort's admissions is complete (R523, R582). -/
def endCheckGroup (s : State) (j : JobId) (r : Nat) (k : Cohort) : State :=
  let s := fset s TRI_JOB_CHECK.PENDING j 0 (fget s TRI_JOB_CHECK.PENDING j 0 - 1)
  if k.frac < k.wanted then
    (logJob s j 0x22 r k.checkSeq k.frac).modRound j r (fun x => { x with underChecked := true })
  else s

/-- A comparison skipped: at fraction 0, and for a cohort that is abandoned (R203, R205). -/
def skipCompare (j : JobId) (r : Nat) (s : State) (c : Nat) : State :=
  let k := s.cohort j r c
  if k.checkSeq = 0 ∧ k.checkKey.isNone then s.modCohort j r c (fun k => { k with checked := true })
  else if k.frac = 0 ∨ k.reason ≠ 0 then
    endCheckGroup (s.modCohort j r c (fun k => { k with checked := true, checkKey := none })) j r (if k.reason = 0 then k else { k with wanted := 0 })
  else s

/-- The Roster entries take the state that Close fixes (R102, assumption 87). -/
def closeEntries (s : State) (j : JobId) (table : NatMap CloseRec) : State :=
  table.foldl (fun t e => modEntry t j e.1 (fun d => { d with state := e.2.state })) s

/-- Close once the last transaction has ended: survivors, dropouts and void chunks fixed, the close table written, the bundle key destroyed, the copied weights; a sealed round exports (R85, R104, R124, R130 to R133, R172, R192, R340). -/
def fixClose (s : State) (j : JobId) (r : Nat) : State :=
  match s.round? j r with
  | none => s
  | some x =>
    let slots := joinedSlots s j r
    let table := slots.foldl (fun m u => putN m u (closeRec x.plan u (entryOf s j r u))) ([] : NatMap CloseRec)
    let s := s.modRound j r (fun y => { y with closed := true, closeTable := table, bundleKey := none, weights := if pWeightPtr y.plan = 0 then [] else jobRead s j (pWeightPtr y.plan) (2 * pCohortCount y.plan) })
    let s := eraseSlot (closeEntries s j table) ((s.job j).bundleSlot r)
    let s := fset s ROS_JOB_COUNTS.SURVIVORS j 0 (table.filter (fun e => e.2.state == .SURVIVOR)).length
    let s := fset s CUL_JOB_VOID.VOID_CHUNKS j 0 0
    let s := fset (fset s VAT_JOB_SETTLE.SETTLED j 0 0) VAT_JOB_SETTLE.FAILED j 0 0
    match s.round? j r with
    | none => s
    | some y =>
      let cs := List.range (pCohortCount y.plan)
      let s := cs.foldl (closeCohort j r y) s
      let s := cs.foldl (skipCompare j r) s
      let s := openWindow s j r
      let s := if pSealed y.plan then exportRound s j r else s
      releaseUnmask (((s.job j).rounds.map (·.number)).foldl (fun t n => releaseHeld t j n) s) j r

/-- CLOSE_FIX (R130): the last admission transaction of Close has ended, and the drain is over; of a sealed round it waits for Rind and Culture to accept its exports (R150, R353). -/
def execCloseFix (j : JobId) (r : RoundNo) (s : State) : Res :=
  .next (match s.round? j r with
    | none => s
    | some x =>
      if ¬ begun x 6 ∨ x.closed ∨ ¬ s.alive j ∨ s.now < x.drainEnd ∨ s.txns.any (fun t => t.2.job == j && t.2.round == r) ∨ s.waitingChunks.any (heldUpload s j r) then s
      else if pSealed x.plan ∧ (¬ rindOn s ∨ ¬ cultureOn s) then s
      else fixClose s j r)

/-! The linear check. -/

/-- Trier's lane over the covered coordinates of an accumulator (R203). -/
def laneSum (p : Bytes) (k : Key256) (frac : Nat) (acc : NatMap Nat) (l : Nat) : Nat :=
  (acc.foldl (fun a e =>
    if chunkCovered (pRing p) k frac (e.1 / pChunk p) then a + maskElem (pRing p) k (checkNonce (pRing p) l) e.1 * e.2 else a) 0) % pMod p

/-- Whether the four lanes agree (R204). -/
def lanesAgree (p : Bytes) (k : Key256) (c : Cohort) : Bool :=
  (List.range 4).all (fun l => laneSum p k c.frac c.accum l == c.check.getD l 0)

/-- A cohort that its linear check failed (R204). -/
def mismatch (s : State) (j : JobId) (r c : Nat) : State :=
  let s := abandon (recordSettle s j r c 1) j r c reasonSettleFail
  let s := ev (ev (count s VAT_JOB_SETTLE.FAILED j 0 1) VAT_EVENT.CHECK_EV) TRI_EVENT.CHECK_EV
  countFailure (countSat s TRI_FAILS.COHORT 0 0 1) j

/-- The comparison of one cohort (R203, R204). -/
def compare (s : State) (j : JobId) (r c : Nat) (p : Bytes) (k : Cohort) (key : Key256) : State :=
  let n := ((List.range (chunkCount p)).filter (chunkCovered (pRing p) key k.frac)).length * pChunk p
  let s := pmu (count s TRI_CHECKS.COHORTS 0 0 1) 0x24 (some j) n
  let s := endCheckGroup (s.modCohort j r c (fun k => { k with checked := true, checkKey := none })) j r k
  let s := if lanesAgree p key k then s else mismatch s j r c
  releaseUnmask s j r

/-- The places that Trier reads of a cohort: its covered chunks and its check accumulator (R203). -/
def checkPlaces (s : State) (j : JobId) (x : Round) (c : Nat) (key : Key256) : List (Nat × Nat) :=
  (checkAt s j x c, 16) :: unitPlaces s j x c ((List.range (chunkCount x.plan)).filter (chunkCovered (pRing x.plan) key (x.cohort c).frac))

/-- COHORT_LINEAR_CHECK (R204): Trier's read of a cohort's accumulator at Close completes. -/
def execCohortLinearCheck (j : JobId) (r : RoundNo) (c : CohortId) (s : State) : Res :=
  .next (match s.round? j r with
    | none => s
    | some x =>
      let k := x.cohort c
      match k.checkKey with
      | none => s
      | some key =>
        if ¬ x.closed ∨ k.checked ∨ k.reason ≠ 0 ∨ ¬ s.alive j then s
        else match metPoison s j (checkPlaces s j x c key) with
          | some a => consumeAt s j 10 a
          | none => compare s j r c x.plan k key)

end Sys2Proof.Machine
end

