-- ==== Sys2Proof/Machine/Formats.lean ====
section
/-! DEFINITION. The element formats of Press and Wrap (R218 to R224) and the conversion into every output format: nearest and stochastic rounding (R270, R271), block codes (R273), and the conversion limits (R275, R276). -/

namespace Sys2Proof.Machine

/-! Formats. -/

/-- Whether an OUT_FMT code is a block format (R264). -/
def isBlock (f : Nat) : Bool := [1, 2, 4, 5, 8].contains f

/-- Whether an OUT_FMT code is defined (R264). -/
def fmtDefined (f : Nat) : Bool := isBlock f || [0x10, 0x11, 0x12, 0x13, 0x20].contains f

/-- The elements of a block (R221). -/
def blockElems (f : Nat) : Nat := if f = 1 then 64 else 32

/-- The bits of an element (R218). -/
def elemBits (f : Nat) : Nat := if f = 5 then 4 else f

/-- The bytes of a block (R221). -/
def blockBytes (f : Nat) : Nat := blockElems f * elemBits f / 8

/-- The bytes of an element of an array in an OUT_FMT (R264). -/
def elemBytes (f : Nat) : Nat := if f = 0x20 then 8 else if f = 0x11 then 4 else if f = 0x10 then 2 else 1

/-- The magnitudes of F4 in half units, by code (R218). -/
def f4Half : List Nat := [0, 1, 2, 3, 4, 6, 8, 12]

/-- The integer that a cell multiplies for an element code: the element's value, in F4 in half units; the spare code of Q2 is 0 (R218 to R220). -/
def elemInt (f code : Nat) : Int :=
  match f with
  | 1 => if code = 1 then 1 else -1
  | 2 => if code = 1 then 1 else if code = 3 then -1 else 0
  | 5 => if bit code 3 then -(f4Half.getD (code % 8) 0 : Nat) else (f4Half.getD (code % 8) 0 : Nat)
  | _ => signed (elemBits f) code

/-- The code of element `i` of a block's bytes (R222). -/
def elemCode (f : Nat) (block : Bytes) (i : Nat) : Nat := leNat block / 2 ^ (i * elemBits f) % 2 ^ elemBits f

/-- The value of an element of a block with exponent code `g`, neither 0x00 nor 0xFF (R221). -/
def elemVal (f g code : Nat) : ℚ := (elemInt f code : ℚ) * two ((g : Int) - 127 - (if f = 5 then 1 else 0))

/-- The largest magnitude of a block format in the units of the block exponent (R273). -/
def blockTop (f : Nat) : ℚ :=
  match f with
  | 4 => 7
  | 5 => 6
  | 8 => 127
  | _ => 1

/-! Rounding. -/

/-- The two grid magnitudes of a block format around a magnitude (R218). -/
def gridAround (f : Nat) (m : ℚ) : ℚ × ℚ :=
  if f = 5 then
    let below := f4Half.filter (fun h => decide ((h : ℚ) / 2 ≤ m))
    let lo := below.getLastD 0
    ((lo : ℚ) / 2, ((f4Half.find? (fun h => decide (lo < h))).getD 12 : ℚ) / 2)
  else ((m.floor : ℚ), (m.floor : ℚ) + 1)

/-- The stochastic choice between neighbouring magnitudes (R271): for a negative value the larger magnitude is the lower neighbour. -/
def pickStoch (r : Nat) (neg : Bool) (lo hi m : ℚ) : ℚ :=
  if m = lo then lo
  else if neg then (if r < ((2 ^ 16 * ((hi - m) / (hi - lo))).floor).toNat then lo else hi)
  else if r < ((2 ^ 16 * ((m - lo) / (hi - lo))).floor).toNat then hi else lo

/-- The nearest of two neighbouring grid magnitudes; a tie goes to the even code, in F4 to the smaller magnitude (R270). -/
def pickNear (f : Nat) (lo hi m : ℚ) : ℚ :=
  if m - lo < hi - m then lo
  else if hi - m < m - lo then hi
  else if f = 5 ∨ lo.num % 2 = 0 then lo else hi

/-- A magnitude in the units of the block exponent on the format's grid, limited to the largest (R273). -/
def toGrid (f : Nat) (r : Option Nat) (neg : Bool) (m : ℚ) : ℚ :=
  if blockTop f ≤ m then blockTop f
  else
    let g := gridAround f m
    match r with
    | some n => pickStoch n neg g.1 g.2 m
    | none => pickNear f g.1 g.2 m

/-- The code of a grid value (R218). -/
def gridCode (f : Nat) (neg : Bool) (m : ℚ) : Nat :=
  if f = 5 then
    let c := (f4Half.findIdx? (fun h => decide ((h : ℚ) / 2 = m))).getD 0
    if neg && (c != 0 || Config.f4NegZero) then c + 8 else c
  else unsignedOf (elemBits f) (if neg then -m.floor else m.floor)

/-! Block conversion. -/

/-- The smallest e with m ≤ X · 2^e, for m > 0 (R273). -/
def ceilExp (m : ℚ) : Int := if two (expOf m) = m then expOf m else expOf m + 1

/-- The block exponent of R273 of a block with a non-zero element, before its limits. -/
def blockExp (f : Nat) (xs : List Flt) : Int :=
  let mags := xs.map (fun x => |x.val|)
  if f = 1 then expOf (mags.sum / xs.length) else ceilExp (mags.foldl max 0 / blockTop f)

/-- The element codes of a block of exponent e (R273); each element comes with its random bits. -/
def blockCodes (f : Nat) (e : Int) (xs : List (Option Nat × Flt)) : List Nat :=
  xs.map (fun x =>
    let neg := match x.2 with
      | .fin s _ => s
      | _ => false
    if f = 1 then (if neg then 0 else 1) else gridCode f neg (toGrid f x.1 neg (|x.2.val| / two e)))

/-- The data of a block from its element codes (R222). -/
def packBlock (f : Nat) (codes : List Nat) : Bytes :=
  toLe (blockBytes f) (codes.zipIdx.foldl (fun a c => a + c.1 * 2 ^ (c.2 * elemBits f)) 0)

/-- A block converted (R273): its scale code, its data, and what it counts as NONFINITE and as SATURATED. -/
def convBlock (f : Nat) (xs : List (Option Nat × Flt)) : Nat × Bytes × Nat × Nat :=
  let vs := xs.map (·.2)
  if vs.any (fun x => !x.isFin) then (0xFF, zeros (blockBytes f), 1, 0)
  else if vs.all (fun x => decide (x.val = 0)) then (0, zeros (blockBytes f), 0, 0)
  else
    let e := max (blockExp f vs) (-126)
    if 127 < e then (0xFF, zeros (blockBytes f), 0, 1) else ((e + 127).toNat, packBlock f (blockCodes f e xs), 0, 0)

/-! Scalar conversion. -/

/-- A scalar OUT_FMT: its format, its NaN and its +∞ (R275); FP8 E4M3 has no infinity. -/
def scalarFmt (f : Nat) : Fmt × Nat × Nat :=
  match f with
  | 0x10 => (bf16, 0x7FC0, 0x7F80)
  | 0x11 => (f32, 0x7FC00000, 0x7F800000)
  | 0x12 => (e4m3, 0x7F, 0x7E)
  | _ => (e5m2, 0x7F, 0x7C)

/-- A magnitude rounded into a scalar format (R270, R271). -/
def roundScalar (t : Fmt) (r : Option Nat) (neg : Bool) (m : ℚ) : ℚ :=
  match r with
  | none => nearestEven m (t.step m)
  | some n =>
    let a := t.around m
    pickStoch n neg a.1 a.2.1 m

/-- A magnitude rounded to an integer (R270, R271). -/
def roundInt (r : Option Nat) (neg : Bool) (m : ℚ) : ℚ :=
  match r with
  | none => nearestEven m 1
  | some n => pickStoch n neg m.floor (m.floor + 1) m

/-- An element converted to G64: of a drain, `exact`, only an integer is written (R276), elsewhere the rounded value is (R270, R271); outside the finite range it is the marker (R275). -/
def convG64 (exact : Bool) (r : Option Nat) (x : Flt) : Nat × Nat × Nat :=
  match x with
  | .fin s m =>
    let n := if exact then m else roundInt r s m
    if n.den = 1 ∧ n < 2 ^ 63 then (unsignedOf 64 (if s then -n.num else n.num), 0, 0) else (g64Marker.toNat, 1, 0)
  | _ => (g64Marker.toNat, 1, 0)

/-- An element, of a drain where `exact`, converted to a scalar OUT_FMT (R275): its code, and what it counts as NONFINITE and as SATURATED. -/
def convScalar (f : Nat) (exact : Bool) (r : Option Nat) (x : Flt) : Nat × Nat × Nat :=
  if f = 0x20 then convG64 exact r x
  else
    let t := scalarFmt f
    match x with
    | .fin s m =>
      if t.1.top < m then
        if f = 0x12 then (t.1.encode t.2.1 t.2.2 (.fin s t.1.top), 0, 1) else (t.1.encode t.2.1 t.2.2 (.inf s), 1, 0)
      else (t.1.encode t.2.1 t.2.2 (.fin s (roundScalar t.1 r s m)), 0, 0)
    | _ => (t.2.1, 1, 0)

/-- A code of a scalar OUT_FMT as a datum. -/
def decScalar (f v : Nat) : Flt :=
  match f with
  | 0x10 => decBf16 v
  | 0x11 => dec32 v
  | 0x12 => decodeE4m3 v
  | 0x13 => e5m2.decode v
  | _ => if v = g64Marker.toNat then .nan else .ofRat (signed 64 v)

/-! Random bits. -/

/-- The random bits of output element `i` under a rounding key (R271). -/
def roundBits (key : Key256) (i : Nat) : Nat := leAt (chachaBlock key (0x52 :: zeros 11) (i / 32)) (2 * (i % 32)) 2

/-! Tensors. -/

/-- The elements along a block of a tensor's blocked dimension: the block's grid place and the position inside it (R224). -/
def blockPlace (f : Nat) (kdim : Bool) (row col : Nat) : Nat × Nat × Nat :=
  let e := blockElems f
  if kdim then (row / e, col, row % e) else (row, col / e, col % e)

/-- The blocks of a row of the block grid (R224). -/
def gridCols (f : Nat) (kdim : Bool) (cols : Nat) : Nat := if kdim then cols else cols / blockElems f

/-- The scale code's address of a grid block (R224). -/
def scaleAddr (hd : Bytes) (a x y : Nat) : Nat := a + thScaleOff hd + x * gridCols (thFmt hd) (thKdim hd) (thCols hd) + y

/-- The data's address of a grid block (R224). -/
def dataAddr (hd : Bytes) (a x y : Nat) : Nat := a + thDataOff hd + x * thStride hd + y * blockBytes (thFmt hd)

/-- Whether a header keeps to the table *Tensor header* and to R224. -/
def headerSound (a : Nat) (hd : Bytes) : Bool :=
  let f := thFmt hd
  let blocked := if thKdim hd then thRows hd else thCols hd
  isBlock f && leAt hd 1 1 ≤ 1 && thAnchor hd ≤ 0xFE && zeroAt hd 3 1 && zeroAt hd 12 4 && zeroAt hd 40 24 &&
    decide (1 ≤ thRows hd ∧ thRows hd ≤ 2 ^ 24 ∧ 1 ≤ thCols hd ∧ thCols hd ≤ 2 ^ 24) && blocked % blockElems f == 0 &&
    thStride hd % 64 == 0 && a % 64 == 0 && thScaleOff hd % 64 == 0 && thDataOff hd % 64 == 0

end Sys2Proof.Machine
end

