-- ==== Sys2Proof/Machine/Issue.lean ====
section
/-! DEFINITION. How a sequencer runs an instruction (R366 to R369, R389 to R392): the word at the PC, the checks of operand addresses (R391), the issue of engine work and its completion, and the control instructions (R370 to R377). -/

namespace Sys2Proof.Machine

/-! Contexts. -/

/-- A context changed. -/
def State.modCtx (s : State) (x : CtxId) (g : Ctx → Ctx) : State :=
  match s.ctx? x with
  | none => s
  | some c => s.setCtx x (g c)

/-- The word at the PC. -/
def Ctx.word (c : Ctx) : Word := c.words.getD c.pc 0

/-- Extension word `n` of the instruction at the PC. -/
def Ctx.ext (c : Ctx) (n : Nat) : Nat := (c.words.getD (c.pc + n) 0).toNat

/-- A pointer register. -/
def Ctx.reg (c : Ctx) (n : Nat) : Word := c.regs.getD n 0

/-- A pointer register set. -/
def Ctx.setReg (c : Ctx) (n : Nat) (v : Word) : Ctx := { c with regs := c.regs.set n v }

/-- The registers that the word at the PC names: DST, SA and SB, as numbers. -/
def Ctx.dst (c : Ctx) : Nat := (c.reg (iDst c.word)).toNat
def Ctx.sa (c : Ctx) : Nat := (c.reg (iSa c.word)).toNat
def Ctx.sb (c : Ctx) : Nat := (c.reg (iSb c.word)).toNat

/-- IMM of the word at the PC. -/
def Ctx.imm (c : Ctx) : Nat := iImm c.word

/-- MOD of the word at the PC. -/
def Ctx.mod (c : Ctx) : Nat := iMod c.word

/-- The sequencer code of an engine opcode (R354). -/
def opcSeq (opc : Nat) : Nat := opc / 16 - 1

/-- Whether a context stands at an instruction of an opcode and may go on: it is not ending, its job is not being aborted, and an engine opcode is its sequencer's own (R354, R392). -/
def standsAt (s : State) (x : CtxId) (c : Ctx) (opc : Nat) : Bool :=
  c.ending.isNone && s.alive c.job && decide (c.pc < c.words.length) && iOpc c.word == opc && (decide (opc < 0x20) || opcSeq opc == x.seq.val + 1)

/-- The instruction at the PC of a context run, where it is of an opcode; otherwise the command waits. -/
def instr (s : State) (x : CtxId) (opc : Nat) (run : Ctx → State) : State :=
  match s.ctx? x with
  | none => s
  | some c => if standsAt s x c opc then run c else s

/-! The end of an invocation. -/

/-- A recipe status of a value. -/
def RStat.ofCode (n : Nat) : RStat :=
  [RStat.ok, .phaseRefused, .slotRefused, .abiMismatch, .badEncoding, .operandMalformed, .outOfBounds, .protectedRange, .timeout,
    .engineStatus, .jobAborted, .engineReset, .argCount, .slotBusy, .digestMismatch, .privilegedOp, .badStructure, .storeFull].getD n .ok

/-- An invocation that stops issuing ends once nothing that it issued is left (R389, R390). -/
def settleEnd (s : State) (x : CtxId) : State :=
  match s.ctx? x with
  | none => s
  | some c =>
    match c.ending with
    | none => s
    | some (st, space, detail, pc) => if c.issued.isEmpty then endInvoke s x (.ofCode st) space detail pc else s

/-- An invocation stops issuing, with the status that it will end with; the first such status stands. -/
def stopWith (s : State) (x : CtxId) (st : RStat) (space detail pc : Nat) : State :=
  settleEnd (s.modCtx x (fun c => { c with ending := c.ending.or (some (st.code, space, detail, pc)), wait := none })) x

/-- The instruction at the PC faults (R389). -/
def faultAt (s : State) (x : CtxId) (c : Ctx) (st : RStat) : State := stopWith s x st 0 0 c.pc

/-! Moving on. -/

/-- A context after its instruction: the PC past its words, its changed registers, and the words counted by sampling (R368, R605). -/
def advanceTo (s : State) (x : CtxId) (c : Ctx) (pc : Nat) : State := issueWords (s.setCtx x { c with pc := pc }) x c (wordsOf (iOpc c.word))

/-- A context moved past its instruction. -/
def advance (s : State) (x : CtxId) (c : Ctx) : State := advanceTo s x c (c.pc + wordsOf (iOpc c.word))

/-- Engine work issued: numbered, with the status that it will complete with, and the context moved on (R369). -/
def issueOp (s : State) (x : CtxId) (space detail : Nat) : State :=
  match s.ctx? x with
  | none => s
  | some c =>
    advance { s with opCount := s.opCount + 1 } x
      { c with issued := c.issued ++ [⟨s.opCount, space, detail, c.pc⟩], count := c.count + 1 }

/-- A condition set in an invocation's condition word (R261, R394). -/
def setCond (s : State) (x : CtxId) (n : Nat) : State := s.modCtx x (fun c => { c with cond := c.cond ||| 2 ^ n })

/-! Operand addresses. -/

/-- The model coordinates of a job, from its rounds and its base model. -/
def modelOf (J : Job) : Nat := (J.rounds.map (fun x => pModel x.plan)).foldl max ((J.base.map (fun e => e.1 + 1)).foldl max 0)

/-- The ranges of n bytes of a placed structure, on the two sides of the add window. -/
def placeRanges (s : State) (j : JobId) (o n : Nat) : List (Nat × Nat) :=
  let b := (window s j).1
  if hbmBase ≤ o ∨ o + n ≤ b then [(o, n)] else if b ≤ o then [(o + (window s j).2, n)] else [(o, b - o), (b + (window s j).2, o + n - b)]

/-- The round structures of one round (R391). -/
def structuresOf (s : State) (j : JobId) (x : Round) : List (Nat × Nat) :=
  let p := x.plan
  let r := x.number
  List.flatten [(List.range (pCohortCount p)).flatMap (fun c => placeRanges s j (accAt s j x c) (accSpan p)),
    placeRanges s j (vatAt s j x) (vatOnly s j p),
    if x.closed then [(closeAt s j x, closeBytes s j)] else [],
    x.keys.map (fun u => (hbmPlace j placeKeys r u.1, 64)),
    x.bundles.map (fun b => (hbmPlace j placeShares r b.1, (b.2.map (fun e => e.2.length)).sum)),
    [(hbmPlace j placeStaging r 0, 4 * pModel p + pReleaseLen p)]]

/-- The round structures of a job (R391). -/
def roundStructures (s : State) (j : JobId) : List (Nat × Nat) :=
  let J := s.job j
  let n := 4 * modelOf J
  J.rounds.flatMap (structuresOf s j) ++
    [window s j, (hbmPlace j placeMomentum 0 0, n), (hbmPlace j placeMaster 0 0, n), (hbmPlace j placeHeld 0 0, (J.held.map List.length).getD 0)]

/-- Whether two ranges overlap; a range of no bytes overlaps none. -/
def overlap (a b : Nat × Nat) : Bool := a.2 != 0 && b.2 != 0 && decide (a.1 < b.1 + b.2 ∧ b.1 < a.1 + a.2)

/-- The fault of an operand's ranges; none where they may be used (R391). -/
def rangeFault (s : State) (c : Ctx) (rs : List (Nat × Nat)) : Option RStat :=
  if rs.any (fun r => !inReach s c.job r.1 r.2) then some .outOfBounds
  else if c.fromHost.isSome && rs.any (fun r => (roundStructures s c.job).any (overlap r)) then some .protectedRange
  else none

/-- An instruction whose operand rules hold or fault with OPERAND_MALFORMED, and whose ranges are in reach (R389, R391). -/
def guarded (s : State) (x : CtxId) (c : Ctx) (ok : Bool) (rs : List (Nat × Nat)) (go : State) : State :=
  if ok then
    match rangeFault s c rs with
    | some st => faultAt s x c st
    | none => go
  else faultAt s x c .operandMalformed

/-! Completion of issued work. -/

/-- Whether an operation is a MAC in flight on an array. -/
def ArrayRec.runs? (r : ArrayRec) (x : CtxId) (op : Nat) : Bool := r.macs.any (fun m => m.1 == ctxNo x && m.2 == op)

/-- Whether issued work has still to act: a drain that is pending, a MAC on a fenced array, or a refresh in the queue (R214, R241, R349). -/
def stillActing (s : State) (j : JobId) (x : CtxId) (op : Nat) : Bool :=
  s.arrays.toList.any (fun a => a.drains.any (fun d => d.x == x && d.op == op)) || (s.job j).refresh.any (fun o => o.ctx == ctxNo x && o.op == op) ||
    (List.range 8).any (fun a => unitState s 5 a == 1 && (arrayOf s a).runs? x op)

/-- A MAC that completes leaves its array and is counted (R262); other work leaves the arrays as they are. -/
def macDone (s : State) (x : CtxId) (op : Nat) : State :=
  if s.arrays.toList.any (fun a => a.runs? x op) then
    count { s with arrays := s.arrays.map (fun a => { a with macs := a.macs.filter (fun m => !(m.1 == ctxNo x && m.2 == op)) }) } PRS_MAC_CNT.COUNT 0 0 1
  else s

/-- ISSUED_WORK_COMPLETE (R369, R390): work that an instruction issued completes; a status ends the invocation with ENGINE_STATUS. -/
def execIssuedWorkComplete (x : CtxId) (op : Nat) (s : State) : Res :=
  .next (let s := replaceFenced s
    match s.ctx? x with
    | none => s
    | some c =>
      match c.issued.find? (fun o => o.id == op) with
      | none => s
      | some o =>
        if stillActing s c.job x op then s
        else
          let s := macDone s x op
          let s := { s.modCtx x (fun c => { c with issued := c.issued.filter (fun o => o.id != op) }) with
            locks := s.locks.filter (fun l => !(l.ctx == ctxNo x && l.op == op)) }
          if o.space = 0 ∧ o.detail = 0 then settleEnd s x else stopWith s x .engineStatus o.space o.detail o.pc)

/-- INVOKE_TIMEOUT (R350, R377): a descriptor invocation has run longer than HIF_RCP_WDOG.MS; 0 disables the limit. Its queued refreshes that have joined no export leave the queue. -/
def execInvokeTimeout (x : CtxId) (s : State) : Res :=
  .next (match s.ctx? x with
    | none => s
    | some c =>
      let ms := get1 s HIF_RCP_WDOG.MS
      if c.fromHost.isNone ∨ ms = 0 ∨ s.now - c.start ≤ ms * 10 ^ 6 ∨ c.ending.isSome ∨ ¬ s.alive c.job then s
      else dropRefresh (stopWith s x .timeout 0 0 c.pc) c.job (fun o => o.ctx == ctxNo x && o.joined.isNone))

/-! Control instructions. -/

/-- NOP (R370). -/
def execNop (x : CtxId) (s : State) : Res := .next (instr s x 0x00 (advance s x))

/-- Whether the check group of an invocation is pending (R583, R584). -/
def groupPending (s : State) (c : Ctx) : Bool :=
  match c.group with
  | none => false
  | some g => s.groups.any (fun y => y.seq == g && y.job == c.job && !y.chains.isEmpty)

/-- END (R370, R583, R584): the invocation ends with OK once its issued work has completed and its check group has passed; a descriptor's may complete as provisional. -/
def execEndRecipe (x : CtxId) (s : State) : Res :=
  .next (instr s x 0x01 (fun c =>
    if ¬ c.issued.isEmpty then s
    else if ¬ groupPending s c then endInvoke (issueWords s x c 1) x .ok 0 0 c.pc
    else if c.fromHost.isSome ∧ on s TRI_CTRL.PROV_INVOKE then endInvoke ((issueWords s x c 1).setCtx x { c with provisional := true }) x .ok 0 0 c.pc
    else s))

/-- The index of the ENDLOOP that matches a LOOP: the words from `pc`, at a depth of loops opened since (R370). -/
def matchEnd (ws : List Word) : Nat → Nat → Nat → Nat
  | 0, pc, _ => pc
  | fuel + 1, pc, depth =>
    let o := iOpc (ws.getD pc 0)
    if o = 0x03 then (if depth = 0 then pc else matchEnd ws fuel (pc + 1) (depth - 1))
    else if o = 0x02 then matchEnd ws fuel (pc + 1) (depth + 1)
    else matchEnd ws fuel (pc + wordsOf o) depth

/-- LOOP (R370, R371). -/
def execLoop (x : CtxId) (s : State) : Res :=
  .next (instr s x 0x02 (fun c =>
    let n := if bit c.mod 0 then c.sa else c.imm % 2 ^ 24
    if 2 ^ 24 ≤ n then faultAt s x c .operandMalformed
    else
      let d := if bit c.mod 1 then c.setReg (iDst c.word) 0 else c
      if n = 0 then advanceTo s x d (matchEnd c.words c.words.length (c.pc + 1) 0 + 1)
      else advance s x { d with loops := ⟨c.pc + 1, n, if bit c.mod 1 then some (iDst c.word) else none⟩ :: d.loops }))

/-- ENDLOOP (R370). -/
def execEndLoop (x : CtxId) (s : State) : Res :=
  .next (instr s x 0x03 (fun c =>
    match c.loops with
    | [] => advance s x c
    | f :: fs =>
      let d := match f.idx with
        | none => c
        | some i => c.setReg i (c.reg i + 1)
      if f.left ≤ 1 then advance s x { d with loops := fs } else advanceTo s x { d with loops := { f with left := f.left - 1 } :: fs } f.body))

/-- IMM sign-extended to 64 bits. -/
def Ctx.simm (c : Ctx) : Word := BitVec.ofInt 64 (signed 32 c.imm)

/-- An instruction that sets P(DST). -/
def setDst (s : State) (x : CtxId) (c : Ctx) (v : Word) : State := advance s x (c.setReg (iDst c.word) v)

/-- MOVI (R370). -/
def execMovi (x : CtxId) (s : State) : Res := .next (instr s x 0x04 (fun c => setDst s x c (BitVec.ofNat 64 c.imm)))

/-- MOVHI (R370). -/
def execMovhi (x : CtxId) (s : State) : Res :=
  .next (instr s x 0x05 (fun c => setDst s x c (BitVec.ofNat 64 (c.imm * 2 ^ 32 + (c.reg (iDst c.word)).toNat % 2 ^ 32))))

/-- ADDI (R370). -/
def execAddi (x : CtxId) (s : State) : Res := .next (instr s x 0x06 (fun c => setDst s x c (c.reg (iSa c.word) + c.simm)))

/-- ADD (R370). -/
def execAdd (x : CtxId) (s : State) : Res := .next (instr s x 0x07 (fun c => setDst s x c (c.reg (iSa c.word) + c.reg (iSb c.word))))

/-- SHLI (R370). -/
def execShli (x : CtxId) (s : State) : Res := .next (instr s x 0x08 (fun c => setDst s x c (c.reg (iSa c.word) <<< (c.imm % 64))))

/-- LDP (R370, R391): the word must lie in reach at a multiple of 8; a poisoned one is consumed (R572). -/
def execLdp (x : CtxId) (s : State) : Res :=
  .next (instr s x 0x09 (fun c =>
    let a := (c.reg (iSa c.word) + c.simm).toNat
    guarded s x c (a % 8 == 0) [(a, 8)]
      (if poisoned s c.job a 8 then consumeAt s c.job 0 a else setDst s x c (jobWord s c.job a))))

/-- SKIPZ (R370). -/
def execSkipz (x : CtxId) (s : State) : Res :=
  .next (instr s x 0x0A (fun c => if c.sa = 0 then advanceTo s x c (c.pc + 1 + c.imm) else advance s x c))

/-- SKIPNZ (R370). -/
def execSkipnz (x : CtxId) (s : State) : Res :=
  .next (instr s x 0x0B (fun c => if c.sa = 0 then advance s x c else advanceTo s x c (c.pc + 1 + c.imm)))

/-- FENCE (R370). -/
def execFence (x : CtxId) (s : State) : Res := .next (instr s x 0x0C (fun c => if c.issued.isEmpty then advance s x c else s))

/-- WAIT_CNT (R374). -/
def execWaitCnt (x : CtxId) (s : State) : Res :=
  .next (instr s x 0x0D (fun c =>
    let v := BitVec.ofNat 32 (readD 0 (s.job c.job).counters (c.mod % 256))
    let target := BitVec.ofNat 32 (c.sa + c.imm)
    if (v - target).toNat < 2 ^ 31 then advance s x c else s))

/-- SIGNAL (R370, R372). -/
def execSignal (x : CtxId) (s : State) : Res :=
  .next (instr s x 0x0E (fun c => if c.issued.isEmpty then bump (advance s x c) c.job (c.mod % 256) (c.imm % 2 ^ 16) else s))

/-- WAIT_EVT (R376): an event that is not scheduled for the job faults, unless it has fired as the wait asks; the wait is noted as it issues. -/
def execWaitEvt (x : CtxId) (s : State) : Res :=
  .next (instr s x 0x0F (fun c =>
    let e := c.imm % 4096
    let seen := if c.wait.isSome then c.fired.contains (e + 4096) else bit c.mod 0 && c.fired.contains e
    if seen then advance s x { c with wait := none }
    else if (lookup s.armed e).map (·.job) ≠ some c.job.val then faultAt s x c .operandMalformed
    else
      match c.wait with
      | some _ => s
      | none => s.setCtx x { c with wait := some s.now, fired := c.fired.filter (fun n => decide (n < 4096)) }))

end Sys2Proof.Machine
end

