-- ==== Sys2Proof/Machine/Wrap.lean ====
section
/-! DEFINITION. Wrap: the checks of a record (R265), the stages (R266 to R268), the mask plane (R269), the rounding key (R271, R272), the writing of arrays and tensors (R273, R274), and WPASS (R385). -/

namespace Sys2Proof.Machine

/-! Records. -/

/-- Whether Wrap accepts a record on a drain, of a SKETCH layer or not, or on the release path (R265). -/
def recordOk (drain sketch : Bool) (b : Bytes) : Bool :=
  (if drain then wrSrc b == 0 else decide (1 ≤ wrSrc b ∧ wrSrc b ≤ 3)) && fmtDefined (wrFmt b) && decide (wrAct b ≤ 4) &&
    zeroAt b 6 2 && zeroAt b 60 4 && !(drain && (wrNoise b || wrCountNorm b || wrMomentum b)) &&
    !(drain && !sketch && wrFmt b == 0x20) && !(dec32 (wrHi b)).below (dec32 (wrLo b)) &&
    (!wrClipEn b || (Flt.fin false 0).below (dec32 (wrClip b)))

/-! Stages. -/

/-- A value rounded to the working format (R267). -/
def q64 (x : Flt) : Flt := f64.round x

/-- A source datum as it enters the working format: a non-finite one is NaN (R267). -/
def enterWrap (x : Flt) : Flt := if x.isFin then q64 x else .nan

/-- The scale stage (R266): one rounding of x × s × 2^e / n. -/
def scaleStage (sc : Flt) (e : Int) (n : Flt) (x : Flt) : Flt := q64 (((x.mul sc).mul (.fin false (two e))).div n)

/-- The bias stage (R266). -/
def biasStage (b x : Flt) : Flt := q64 (x.add b)

/-- ReLU (R268). -/
def relu (x : Flt) : Flt :=
  match x with
  | .nan => .nan
  | x => if (Flt.fin false 0).lt x then x else .fin false 0

/-- SiLU or GELU-tanh of a value (R268): x times the logistic function of x, or of 2 × 0.797884561 × (x + 0.044715 × x³), with the error of Config.actError. -/
def smooth (gelu : Bool) (x : Flt) : Flt :=
  match x with
  | .nan => .nan
  | .inf s => if s then .fin true 0 else .inf false
  | .fin s m =>
    let v := x.val
    let y := m * logistic (if gelu then 2 * (797884561 / 1000000000) * (v + 44715 / 1000000 * v ^ 3) else v)
    let e : Int := (Config.actError gelu (BitVec.ofNat 64 (enc64 x))).val - 2 ^ 23
    q64 (.fin s (y * (1 + e * two (-63))))

/-- The activation stage (R268). -/
def actStage (b : Bytes) (x : Flt) : Flt :=
  match x, wrAct b with
  | .nan, _ => .nan
  | x, 1 => relu x
  | x, 2 => smooth false x
  | x, 3 => smooth true x
  | x, 4 => (x.max (dec32 (wrLo b))).min (dec32 (wrHi b))
  | x, _ => x

/-- The mask bit of an element as it enters the activation (R269). -/
def passes (b : Bytes) (x : Flt) : Bool :=
  match wrAct b with
  | 0 => true
  | 1 => (Flt.fin false 0).below x
  | 4 => (dec32 (wrLo b)).below x && x.below (dec32 (wrHi b))
  | _ => false

/-- The clip stage (R266). -/
def clipStage (bound x : Flt) : Flt :=
  match x with
  | .nan => .nan
  | x => (x.max bound.neg).min bound

/-- The binary32 entry of a channel. -/
def channelEntry (s : State) (j : JobId) (a c : Nat) : Flt := dec32 (leNat (jobRead s j (a + 4 * c) 4))

/-- Stages 2 to 5 of a record under a scale and a bias, with the mask bit (R266, R269). -/
def stagesOf (b : Bytes) (sc : Flt) (bias : Option Flt) (x : Flt) : Flt × Bool :=
  let x := scaleStage sc (wrScaleExp b) (.fin false 1) x
  let x := match bias with
    | some v => biasStage v x
    | none => x
  let y := actStage b x
  (if wrClipEn b then clipStage (dec32 (wrClip b)) y else y, passes b x)

/-- Stages 2 to 5 of a record on element x of channel c (R266). -/
def runStages (s : State) (j : JobId) (b : Bytes) (c : Nat) (x : Flt) : Flt × Bool :=
  stagesOf b (if wrPerChan b then channelEntry s j (wrScalePtr b) c else dec32 (wrScale b))
    (if wrBias b then some (channelEntry s j (wrBiasPtr b) c) else none) x

/-! The rounding key. -/

/-- ENTROPY_FAILED in the space of the entropy unit (R564). -/
def entropyFailed : Nat := 1

/-- Whether the entropy unit is in STARTUP, where a draw waits (R551). -/
def entropyStarting (s : State) : Bool := get1 s ENT_STATUS.STATE == 0

/-- The rounding key of an invocation: drawn at its first stochastic operation (R271). -/
def roundingKey (s : State) (x : CtxId) : Option Key256 × State :=
  match (s.ctx? x).bind (·.roundKey) with
  | some k => (some k, s)
  | none =>
    if entropyReady s then
      let (k, t) := drawKey (served s 1)
      (some k, t.modCtx x (fun c => { c with roundKey := some k }))
    else (none, ev s WRP_EVENT.ENTROPY_EV)

/-! Output. -/

/-- An output element: its number in the invocation, its number in this delivery, its place in the destination, its value and its mask bit. -/
structure OutEl where
  no : Nat
  k : Nat
  row : Nat
  col : Nat
  x : Flt
  pass : Bool
  deriving DecidableEq, Repr

/-- What a delivery counted in WRP_JOB_CONV (R275). -/
def convCount (s : State) (j : JobId) (nonfinite saturated : Nat) : State :=
  countSat (countSat s WRP_JOB_CONV.NONFINITE j 0 nonfinite) WRP_JOB_CONV.SATURATED j 0 saturated

/-- The random bits of an element (R271). -/
def bitsFor (key : Option Key256) (e : OutEl) : Option Nat := key.map (fun k => roundBits k e.no)

/-- A destination array written: element k at DEST_PTR + k × its size (R264); the elements come in order of k. -/
def writeArray (s : State) (j : JobId) (b : Bytes) (key : Option Key256) (els : List OutEl) : State :=
  let f := wrFmt b
  let out := els.map (fun e => convScalar f (wrSrc b == 0) (bitsFor key e) e.x)
  convCount (jobStore s j (wrDest b + ((els.head?.map (·.k)).getD 0) * elemBytes f) (List.flatten (out.map (fun o => toLe (elemBytes f) o.1)))) j
    ((out.map (·.2.1)).sum) ((out.map (·.2.2)).sum)

/-- A destination tensor's header with the FORMAT of the record: its other fields lay the tensor out (R274). -/
def destHeader (s : State) (j : JobId) (b : Bytes) : Bytes := toLe 1 (wrFmt b) ++ jobRead s j (wrDest b + 1) 63

/-- The elements of one block by position; a position that the delivery leaves out counts as zero. -/
def blockInput (hd : Bytes) (key : Option Key256) (els : List OutEl) (g : Nat × Nat) : List (Option Nat × Flt) :=
  (List.range (blockElems (thFmt hd))).map (fun p =>
    match els.find? (fun e => blockPlace (thFmt hd) (thKdim hd) e.row e.col == (g.1, g.2, p)) with
    | some e => (bitsFor key e, e.x)
    | none => (none, .fin false 0))

/-- A block written, and the largest scale code so far (R273, R274). -/
def writeBlock (j : JobId) (b hd : Bytes) (key : Option Key256) (els : List OutEl) (acc : State × Nat) (g : Nat × Nat) : State × Nat :=
  let o := convBlock (thFmt hd) (blockInput hd key els g)
  let s := jobStore acc.1 j (scaleAddr hd (wrDest b) g.1 g.2) (toLe 1 o.1)
  (convCount (jobStore s j (dataAddr hd (wrDest b) g.1 g.2) o.2.1) j o.2.2.1 o.2.2.2, if o.1 = 0xFF then acc.2 else max acc.2 o.1)

/-- The blocks that elements fall into. -/
def blocksHit (hd : Bytes) (els : List OutEl) : List (Nat × Nat) :=
  (els.map (fun e => let p := blockPlace (thFmt hd) (thKdim hd) e.row e.col; (p.1, p.2.1))).dedup

/-- A destination tensor written; its ANCHOR is kept for the invocation's completion (R274). -/
def writeTensor (s : State) (x : CtxId) (j : JobId) (b : Bytes) (key : Option Key256) (els : List OutEl) : State :=
  let hd := destHeader s j b
  let els := els.filter (fun e => decide (e.row < thRows hd ∧ e.col < thCols hd))
  let (t, top) := (blocksHit hd els).foldl (writeBlock j b hd key els) (s, 0)
  t.modCtx x (fun c => { c with anchors := putN c.anchors (wrDest b) (wrFmt b, max top ((lookup c.anchors (wrDest b)).getD (0, 0)).2) })

/-- A bit of a mask plane written (R269). -/
def putMaskBit (j : JobId) (a : Nat) (s : State) (n : Nat) (v : Bool) : State :=
  let old := (jobByte s j (a + n / 8)).toNat
  let rest := if bit old (n % 8) then old - 2 ^ (n % 8) else old
  jobStore s j (a + n / 8) (toLe 1 (rest + (if v then 2 ^ (n % 8) else 0)))

/-- The bit number of an output element in a mask plane: in the destination's row order (R248, R269). -/
def maskIndex (s : State) (j : JobId) (b : Bytes) (e : OutEl) : Nat :=
  if isBlock (wrFmt b) then e.row * thCols (destHeader s j b) + e.col else e.k

/-- A mask plane written (R269). -/
def writeMask (s : State) (j : JobId) (b : Bytes) (els : List OutEl) : State :=
  if wrMaskOut b then els.foldl (fun t e => putMaskBit j (wrMaskPtr b) t (maskIndex s j b e) e.pass) s else s

/-- A delivery of output elements under a record; they are counted in the invocation's element numbers (R271, R273). -/
def deliver (s : State) (x : CtxId) (j : JobId) (b : Bytes) (key : Option Key256) (els : List OutEl) : State :=
  let s := writeMask s j b els
  let s := if isBlock (wrFmt b) then writeTensor s x j b key els else writeArray s j b key els
  pmu (s.modCtx x (fun c => { c with elems := c.elems + els.length })) 0x34 (some j) els.length

/-- The ranges that a delivery of rows × cols elements may write, its channels' entries and its mask plane (R264). -/
def recordRanges (s : State) (j : JobId) (b : Bytes) (chans n : Nat) : List (Nat × Nat) :=
  let hd := destHeader s j b
  let blocked := if thKdim hd then thRows hd / blockElems (wrFmt b) else thRows hd
  let dest := if isBlock (wrFmt b) then
      [(wrDest b, 64), (wrDest b + thScaleOff hd, blocked * gridCols (wrFmt b) (thKdim hd) (thCols hd)), (wrDest b + thDataOff hd, blocked * thStride hd)]
    else [(wrDest b, n * elemBytes (wrFmt b))]
  dest ++ (if wrPerChan b then [(wrScalePtr b, 4 * chans)] else []) ++ (if wrBias b then [(wrBiasPtr b, 4 * chans)] else []) ++
    (if wrMaskOut b then [(wrMaskPtr b, ((if isBlock (wrFmt b) then thRows hd * thCols hd else n) + 7) / 8)] else [])

/-- The entries of n channels from channel `c` that a delivery reads, as ranges. -/
def channelRanges (b : Bytes) (c n : Nat) : List (Nat × Nat) :=
  (if wrPerChan b then [(wrScalePtr b + 4 * c, 4 * n)] else []) ++ (if wrBias b then [(wrBiasPtr b + 4 * c, 4 * n)] else [])

/-- The first poisoned line of a job's ranges, as its address: what work that uses them consumes (R572). -/
def firstPoison (s : State) (j : JobId) (rs : List (Nat × Nat)) : Option Nat :=
  (rs.flatMap (fun r => linesOf r.1 r.2)).find? (fun l => s.poison.contains (poisonKey s j l))

/-- Work on ranges of a job, unless it meets poison, which engine `block` then consumes. -/
def unlessPoison (s : State) (j : JobId) (block : Nat) (rs : List (Nat × Nat)) (go : State) : State :=
  match firstPoison s j rs with
  | some a => consumeAt s j block a
  | none => go

/-- Where the output of an element lies: its array element, or its block's scale code and data, and its bit of the mask plane. -/
def elemSpans (s : State) (j : JobId) (b : Bytes) (e : OutEl) : List (Nat × Nat) :=
  let hd := destHeader s j b
  let g := blockPlace (wrFmt b) (thKdim hd) e.row e.col
  (if isBlock (wrFmt b) then [(scaleAddr hd (wrDest b) g.1 g.2.1, 1), (dataAddr hd (wrDest b) g.1 g.2.1, blockBytes (wrFmt b))]
    else [(wrDest b + e.k * elemBytes (wrFmt b), elemBytes (wrFmt b))]) ++
    (if wrMaskOut b then [(wrMaskPtr b + maskIndex s j b e / 8, 1)] else [])

/-! WPASS. -/

/-- The bytes of a release-path source element (R264). -/
def srcBytes (src : Nat) : Nat := if src = 1 then 8 else if src = 2 then 4 else 2

/-- A release-path source element (R264). -/
def srcElem (s : State) (j : JobId) (src a i : Nat) : Flt :=
  let v := leNat (jobRead s j (a + i * srcBytes src) (srcBytes src))
  match src with
  | 1 => decScalar 0x20 v
  | 2 => dec32 v
  | _ => decBf16 v

/-- The output elements of the release path over `n` source elements; a tensor takes them in row order (R263). -/
def passElems (s : State) (j : JobId) (b : Bytes) (base a n : Nat) : List OutEl :=
  let cols := if isBlock (wrFmt b) then thCols (destHeader s j b) else n
  (List.range n).map (fun i =>
    let y := runStages s j b i (enterWrap (srcElem s j (wrSrc b) a i))
    ⟨base + i, i, i / cols, i % cols, y.1, y.2⟩)

/-- The work of WPASS: the elements written, or ENTROPY_FAILED where the rounding key could not be drawn (R272). -/
def runWpass (s : State) (x : CtxId) (c : Ctx) (b : Bytes) (a n : Nat) : State :=
  if wrStoch b then
    match roundingKey s x with
    | (none, t) => issueOp t x 6 entropyFailed
    | (some k, t) => issueOp (deliver t x c.job b (some k) (passElems t c.job b c.elems a n)) x 0 0
  else issueOp (deliver s x c.job b none (passElems s c.job b c.elems a n)) x 0 0

/-- WPASS (R385): the release path over P(SB) elements at P(SA) under the record at P(DST). -/
def execWpass (x : CtxId) (s : State) : Res :=
  .next (instr s x 0x60 (fun c =>
    if ¬ on s WRP_CTRL.ENABLE then s
    else guarded s x c true [(c.dst, 64)]
      (let b := jobRead s c.job c.dst 64
       let n := c.sb
       let bad := wrNoise b || wrCountNorm b || wrMomentum b
       guarded s x c (recordOk false false b && !bad) ((c.sa, n * srcBytes (wrSrc b)) :: recordRanges s c.job b n n)
         (if wrStoch b && entropyStarting s && c.roundKey.isNone then s
          else unlessPoison s c.job 9 ((c.dst, 64) :: (c.sa, n * srcBytes (wrSrc b)) :: channelRanges b 0 n) (runWpass s x c b c.sa n)))))

end Sys2Proof.Machine
end

