-- ==== Sys2Proof/Machine/Tiles.lean ====
section
/-! DEFINITION. What a Press array computes: the loading of blocks (R217, R220 to R228), the operand modes (R248, R251 to R257), promotion into L128 tiles (R230 to R240), and the chain draws (R576). -/

namespace Sys2Proof.Machine

/-! Blocks. -/

/-- What loading counted: flushed, above the anchor, non-finite, and with the spare code. -/
structure Loads where
  flushed : Nat
  high : Nat
  nonfinite : Nat
  spare : Nat
  deriving DecidableEq, Repr

/-- Two counts together. -/
def Loads.add (a b : Loads) : Loads := ⟨a.flushed + b.flushed, a.high + b.high, a.nonfinite + b.nonfinite, a.spare + b.spare⟩

/-- Nothing counted. -/
def Loads.none : Loads := ⟨0, 0, 0, 0⟩

/-- A block of scale code g under an anchor a, its element codes, and the mask bits of its elements (R220, R228, R248); the spare code counts in every block whose elements are read, which a zero block's are not (R221). -/
def loadBlock (f a g : Nat) (codes : List Nat) (mask : List Bool) : Blk × Loads :=
  let sp := flag (f == 2 && codes.contains 2)
  if g = 0 then (.zero, .none)
  else if g = 0xFF then (.inf, ⟨0, 0, 1, sp⟩)
  else if g + 31 < a then (.zero, ⟨1, 0, 0, sp⟩)
  else if a < g then (.inf, ⟨0, 1, 1, sp⟩)
  else (.val (g + 31 - a) (List.zipWith (fun c m => if m then elemInt f c else 0) codes mask), ⟨0, 0, 0, sp⟩)

/-- The bit of a mask plane (R248). -/
def maskBit (s : State) (j : JobId) (a n : Nat) : Bool := bit (jobByte s j (a + n / 8)).toNat (n % 8)

/-- Grid block k along the blocked dimension, of row r of a tensor (R224, R225), under a mask plane where one is named. -/
def denseBlock (s : State) (j : JobId) (addr : Nat) (hd : Bytes) (plane : Option Nat) (r k : Nat) : Blk × Loads :=
  let f := thFmt hd
  let e := blockElems f
  let g := if thKdim hd then (k, r) else (r, k)
  let data := jobRead s j (dataAddr hd addr g.1 g.2) (blockBytes f)
  let elem := fun i => if thKdim hd then (k * e + i) * thCols hd + r else r * thCols hd + k * e + i
  let mask := (List.range e).map (fun i => match plane with
    | none => true
    | some p => maskBit s j p (elem i))
  loadBlock f (thAnchor hd) (jobByte s j (scaleAddr hd addr g.1 g.2)).toNat ((List.range e).map (elemCode f data)) mask

/-- What loading a grid block reads, as ranges: its scale code, its data, and its elements' bits of a mask plane (R217, R224, R248). -/
def blockSpans (addr : Nat) (hd : Bytes) (plane : Option Nat) (r k : Nat) : List (Nat × Nat) :=
  let f := thFmt hd
  let e := blockElems f
  let g := if thKdim hd then (k, r) else (r, k)
  [(scaleAddr hd addr g.1 g.2, 1), (dataAddr hd addr g.1 g.2, blockBytes f)] ++
    (match plane with
      | none => []
      | some p =>
        if thKdim hd then (List.range e).map (fun i => (p + ((k * e + i) * thCols hd + r) / 8, 1))
        else [(p + (r * thCols hd + k * e) / 8, (e + 7) / 8)])

/-- Whether loading a grid block meets a poisoned line (R217). -/
def blockPoisoned (s : State) (j : JobId) (addr : Nat) (hd : Bytes) (plane : Option Nat) (r k : Nat) : Bool :=
  !s.poison.isEmpty && (blockSpans addr hd plane r k).any (fun q => poisoned s j q.1 q.2)

/-! Screening operands. -/

/-- The sign of coordinate x in direction d (R251). -/
def signOf (key : Key256) (d x : Nat) : Int :=
  let b := chachaBlock key (0x53 :: 0x00 :: (toBe 2 d ++ zeros 8)) (x / 512)
  if bit (leAt b (x % 512 / 8) 1) (x % 8) then 1 else -1

/-- A sign block of 64 coordinates from x: exponent 0 under ANCHOR 0x7F (R251). -/
def signBlock (key : Key256) (d x : Nat) : Blk := .val 31 ((List.range 64).map (fun i => signOf key d (x + i)))

/-- The n of R253: the plane count of a round is n + 1. -/
def planeBits (p : Bytes) : Nat := Nat.log2 (2 * pCohortSize p * pL p + 1) + 1

/-- Whether a slice coordinate lies in a void unit of a cohort (R131, R176, R324). -/
def voidCoord (p : Bytes) (k : Cohort) (i : Nat) : Bool := k.voids.contains (i / pChunk p)

/-- 2S − mL of a slice coordinate, 0 in a void unit (R176). -/
def levelOf (p : Bytes) (k : Cohort) (i : Nat) : Int :=
  if voidCoord p k i then 0 else 2 * ((readD 0 k.accum i : Nat) : Int) - (k.survivors.length * pL p : Nat)

/-- The n + 1 plane blocks of 64 slice coordinates from i (R254). -/
def planeBlocks (p : Bytes) (k : Cohort) (i : Nat) : List Blk :=
  let n := planeBits p
  if voidCoord p k i then List.replicate (n + 1) .zero
  else
    let c := (List.range 64).map (fun q => (levelOf p k (i + q) + 2 ^ (n - 1)).toNat)
    (List.range n).map (fun b => Blk.val (32 + b - n) (c.map (fun v => if bit v b then 1 else -1))) ++ [.val (32 - n) (List.replicate 64 (-1))]

/-- Whether a cohort's ring sums are ready to be screened: it is settled, or, in a model settled in windows, unmasked (R178, R257). -/
def sumsReady (s : State) (j : JobId) (x : Round) (k : Cohort) : Bool := if resident s j x.plan then k.settled else k.unmasked

/-- Whether a column lane reads the sums of a cohort (R257). -/
def laneReads (s : State) (j : JobId) (x : Round) (c : Nat) : Bool :=
  decide (c < pCohortCount x.plan) && sumsReady s j x (x.cohort c) && (x.cohort c).reason == 0

/-! Short runs and promotion. -/

/-- The products of an element pair added into the short run registers (R230, R231): in Q8 by nibbles, otherwise in HH alone. -/
def Run.add (f : Nat) (r : Run) (p : Int × Int) : Run :=
  if f = 8 then ⟨r.hh + p.1 / 16 * (p.2 / 16), r.x + (p.1 / 16 * (p.2 % 16) + p.1 % 16 * (p.2 / 16)), r.ll + p.1 % 16 * (p.2 % 16)⟩
  else { r with hh := r.hh + p.1 * p.2 }

/-- The value that a cell promotes from its short run registers (R231). -/
def Run.value (f : Nat) (r : Run) : Int := if f = 8 then 256 * r.hh + 16 * r.x + r.ll else r.hh

/-- The short run of the first products of a block pair, from registers that hold zero (R230). -/
def shortRun (f : Nat) (a b : List Int) : Run := (a.zip b).foldl (Run.add f) .zero

/-- A block pair promoted into a cell's tile, none for Inf; the flag says that an add left the L128 range (R233, R236). -/
def promote (f : Nat) (acc : Option Int × Bool) (ab : Blk × Blk) : Option Int × Bool :=
  match acc.1, ab.1, ab.2 with
  | none, _, _ => acc
  | _, .inf, _ => (none, acc.2)
  | _, _, .inf => (none, acc.2)
  | _, .zero, _ => acc
  | _, _, .zero => acc
  | some v, .val ea a, .val eb b =>
    let w := v + (shortRun f a b).value f * 2 ^ (ea + eb)
    if -2 ^ 127 ≤ w ∧ w < 2 ^ 127 then (some w, acc.2) else (none, true)

/-- A cell of a tile. -/
def Tile.cell (t : Tile) (r c : Nat) : Cell := readD .zero t.cells (128 * r + c)

/-- A cell of a tile set. -/
def Tile.setCell (t : Tile) (r c : Nat) (v : Cell) : Tile := { t with cells := putD id .zero t.cells (128 * r + c) v }

/-- What one MAC does to every cell that it reaches (R239, R240): the format, its anchor sum, ACC, the block pairs that it promotes, its lanes, and the lanes that loaded a poisoned line. -/
structure MacJob where
  f : Nat
  alpha : Int
  acc : Bool
  pairs : Nat
  a : List (List Blk)
  b : List (List Blk)
  badA : List Bool
  badB : List Bool
  deriving DecidableEq, Repr

/-- Whether a cell starts at zero under a MAC: ACC is 0, or no earlier MAC of the invocation has written it (R213, R240). -/
def MacJob.starts (q : MacJob) (e : Cell) : Bool := !q.acc || !e.mine

/-- Whether a cell becomes Inf because its recorded anchor sum or format differs from the MAC's (R237). -/
def MacJob.mixes (q : MacJob) (e : Cell) : Bool := !q.starts e && (e.alpha != q.alpha || e.f4 != (q.f == 5))

/-- Whether a MAC loads a poisoned line for a cell's row or column (R217). -/
def MacJob.bad (q : MacJob) (r c : Nat) : Bool := q.badA.getD r false || q.badB.getD c false

/-- A cell after a MAC, with whether an add left the L128 range (R217, R233 to R240); a MAC that completes no block pair promotes nothing. -/
def MacJob.cell (q : MacJob) (e : Cell) (r c : Nat) : Cell × Bool :=
  if q.pairs = 0 then ({ e with poison := e.poison || q.bad r c }, false)
  else
    let start := if q.starts e then some 0 else if q.mixes e then none else e.v
    let out := (((q.a.getD r []).zip (q.b.getD c [])).take q.pairs).foldl (promote q.f) (start, false)
    let kept := if q.starts e then (q.alpha, q.f == 5, false) else (e.alpha, e.f4, e.poison)
    (⟨out.1, kept.1, kept.2.1, kept.2.2 || q.bad r c, true⟩, out.2)

/-- The cells of an M × N corner. -/
def corner (m n : Nat) : List (Nat × Nat) := (List.range m).flatMap (fun r => (List.range n).map (fun c => (r, c)))

/-- A tile as an invocation's first MAC in it finds it: no cell has been written by that invocation (R213). -/
def Tile.handed (t : Tile) : Tile := { t with cells := t.cells.map (fun e => (e.1, { e.2 with mine := false })) }

/-- A tile after a MAC of M × N lanes (R210): the other cells keep their contents. -/
def macTile (t : Tile) (m n : Nat) (q : MacJob) : Tile :=
  (corner m n).foldl (fun u rc => u.setCell rc.1 rc.2 (q.cell (t.cell rc.1 rc.2) rc.1 rc.2).1) { t with m := m, n := n }

/-- The short run registers after a MAC of M × N lanes whose steps leave `left` elements of a block pair unpromoted (R230): a later block pair starts them at zero (R232, assumption 89). -/
def macRuns (runs : NatMap Run) (m n left : Nat) (q : MacJob) : NatMap Run :=
  (corner m n).foldl (fun u rc =>
    let next := fun ls : List (List Blk) => fun i => (ls.getD i []).getD q.pairs .zero
    let run := match next q.a rc.1, next q.b rc.2 with
      | .val _ a, .val _ b => shortRun q.f (a.take left) (b.take left)
      | _, _ => .zero
    putD id .zero u (128 * rc.1 + rc.2) run) runs

/-- The datum of a cell as Wrap takes it (R234, R238, R266). -/
def Cell.datum (e : Cell) : Flt :=
  match e.v with
  | none => .nan
  | some v => .ofRat ((v : ℚ) * two (e.alpha - 62 - (if e.f4 then 2 else 0)))

/-! Chain checks. -/

/-- The prime of Trier's checks (R577). -/
def checkPrime : Nat := 2 ^ 61 - 1

/-- The elements of a lane over its block pairs as Trier takes them: the integers times two to the block's place in the window; a zero block contributes 0 (R577). -/
def laneElems (bs : List Blk) : List (List Int) :=
  bs.map (fun b => match b with
    | .val e xs => xs.map (fun x => x * 2 ^ e)
    | _ => [])

/-- The sum of products of two lanes. -/
def laneDot (a b : List Blk) : Int := (List.zipWith (fun x y => (List.zipWith (· * ·) x y).sum) (laneElems a) (laneElems b)).sum

/-- The sum that a cell's chain comes to, from the copies of its operands (R577). -/
def chainSum (fed : List Fed) (r c : Nat) : Int := (fed.map (fun o => laneDot (o.a.getD r []) (o.b.getD c []))).sum

/-- Trier's check of a row of a drained chain against the operand copies, for a draw of each column (R577): Σ V r ≡ Σ a u (mod p), where Σ a u is the sum over the columns of the chain's own sums times the draw. -/
def rowPasses (fed : List Fed) (t : Tile) (draws : List Nat) (r : Nat) : Bool :=
  let side := fun (v : Nat → Int) => ((List.range t.n).map (fun c => v c * (draws.getD c 0 : Nat))).sum % checkPrime
  side (fun c => (t.cell r c).v.getD 0) == side (chainSum fed r)

/-! Chains. -/

/-- Whether chain `i` of an invocation is covered at a fraction code (R576). -/
def chainCovered (key : Key256) (frac i : Nat) : Bool :=
  decide (leAt (chachaBlock key (0x43 :: zeros 11) (i / 16)) (4 * (i % 16)) 4 < fracLimit frac)

/-- The arrays that are not fenced. -/
def liveArrays (s : State) : List Nat := (List.range 8).filter (fun a => unitState s 5 a != 1)

/-- The fraction code at which a job's chains are checked (R523, R576, R579). -/
def chainFrac (s : State) (j : JobId) : Nat :=
  let f := if (s.job j).pressKey.isNone then 0 else appliedFrac s j
  if f = 6 ∧ (liveArrays s).length < 2 then 5 else f

/-- The fraction that the job's chains should have (R576, R581). -/
def chainWant (s : State) (j : JobId) : Nat :=
  if (s.job j).pressKey.isNone ∨ ¬ on s TRI_CTRL.ENABLE then max 1 (fget s PLT_JOB_FRAC.WANT j 0) else fget s PLT_JOB_FRAC.WANT j 0

end Sys2Proof.Machine
end

