-- ==== Sys2Proof/Machine/Press.lean ====
section
/-! DEFINITION. The Press sequencer: LAYER, MAC, GATHER and DRAIN (R378 to R381), the drains into Wrap (R241 to R245), and the chain checks (R576 to R580, R584). -/

namespace Sys2Proof.Machine

/-! The fields of a MAC (R379). -/

def mArray (c : Ctx) : Nat := c.mod % 8
def mTile (c : Ctx) : Nat := bits c.mod 3 3
def mAcc (c : Ctx) : Bool := bit c.mod 4
def mDrain (c : Ctx) : Bool := bit c.mod 5
def mNewest (c : Ctx) : Bool := bit c.mod 6
def mRows (c : Ctx) : Nat := bits (c.ext 1) 6 0 + 1
def mCols (c : Ctx) : Nat := bits (c.ext 1) 13 7 + 1
def mFmt (c : Ctx) : Nat := bits (c.ext 1) 17 14
def mModeA (c : Ctx) : Nat := bits (c.ext 1) 19 18
def mModeB (c : Ctx) : Nat := bits (c.ext 1) 21 20
def mKOff (c : Ctx) : Nat := bits (c.ext 1) 55 24
def mRowA (c : Ctx) : Nat := bits (c.ext 2) 31 0
def mRowB (c : Ctx) : Nat := bits (c.ext 2) 63 32

/-- The steps of a block pair (R230). -/
def stepsPerBlock (f : Nat) : Nat := if f = 8 then 8 else if f = 4 ∨ f = 5 then 2 else 1

/-- The register of a dense operand's mask plane, one above the operand's own (R379); above P31 it is P0 (assumption 90). -/
def planeReg (r : Nat) : Nat := (r + 1) % 32

/-- The mask plane that a mode names. -/
def planeOf (c : Ctx) (mode r : Nat) : Option Nat := if mode = 3 then some (c.reg (planeReg r)).toNat else none

/-- The round that ROUND_SEL names: the oldest or the newest past Close whose round end is not posted (R379). -/
def pickRound (s : State) (j : JobId) (newest : Bool) : Option Round :=
  let rs := (s.job j).rounds.filter (fun x => x.closed)
  rs.foldl (fun a x => match a with
    | none => some x
    | some y => if decide (y.number < x.number) == newest then some x else some y) none

/-! Operands. -/

/-- Whether a dense operand may be read: a sound header of the MAC's format, with the rows and the contraction range inside it (R225, R226, R380). -/
def denseOk (s : State) (j : JobId) (f addr row rows k0 len : Nat) : Bool :=
  let hd := jobRead s j addr 64
  let other := if thKdim hd then thCols hd else thRows hd
  let blocked := if thKdim hd then thRows hd else thCols hd
  headerSound addr hd && thFmt hd == f && decide (row + rows ≤ other ∧ k0 + len ≤ blocked)

/-- The contraction length of a dense operand. -/
def denseLen (s : State) (j : JobId) (addr : Nat) : Nat :=
  let hd := jobRead s j addr 64
  if thKdim hd then thRows hd else thCols hd

/-- The spans of a tensor: its scale array and its data array (R224). -/
def tensorSpans (s : State) (j : JobId) (addr : Nat) : List (Nat × Nat) :=
  let hd := jobRead s j addr 64
  let gr := if thKdim hd then thRows hd / blockElems (thFmt hd) else thRows hd
  [(addr + thScaleOff hd, gr * gridCols (thFmt hd) (thKdim hd) (thCols hd)), (addr + thDataOff hd, gr * thStride hd)]

/-- The span of a mask plane over a tensor. -/
def planeSpan (s : State) (j : JobId) (addr : Nat) (plane : Option Nat) : List (Nat × Nat) :=
  match plane with
  | none => []
  | some p =>
    let hd := jobRead s j addr 64
    [(p, (thRows hd * thCols hd + 7) / 8)]

/-- The lane of one dense row over `n` blocks, each repeated `rep` times, and what loading it counted. -/
def denseLane (s : State) (j : JobId) (addr : Nat) (plane : Option Nat) (k0 n rep r : Nat) : List Blk × Loads :=
  let hd := jobRead s j addr 64
  let bs := (List.range n).map (fun q => denseBlock s j addr hd plane r (k0 + q))
  (bs.flatMap (fun b => List.replicate rep b.1), (bs.map (·.2)).foldl Loads.add .none)

/-- An operand as the feed presents it: its lanes, its contribution to the anchor sum, what loading counted, the lanes that met a poisoned line, and whether a lane named no settled cohort. -/
structure Feed where
  lanes : List (List Blk)
  alpha : Int
  loads : Loads
  bad : List Bool
  absent : Bool
  deriving DecidableEq, Repr

/-- The contribution of an ANCHOR (R229). -/
def anchorPart (a : Nat) : Int := if a = 0 then 0 else (a : Int) - 127

/-- A dense operand. -/
def denseFeed (s : State) (j : JobId) (addr : Nat) (plane : Option Nat) (row rows k0 n rep : Nat) : Feed :=
  let hd := jobRead s j addr 64
  let ls := (List.range rows).map (fun r => denseLane s j addr plane k0 n rep (row + r))
  { lanes := ls.map (·.1)
    alpha := anchorPart (thAnchor hd)
    loads := (ls.map (·.2)).foldl Loads.add .none
    bad := (List.range rows).map (fun r => (List.range n).any (fun q => blockPoisoned s j addr hd plane (row + r) (k0 + q)))
    absent := false }

/-- The SIGN operand (R251). -/
def signFeed (key : Key256) (base row rows k0 n rep : Nat) : Feed :=
  { lanes := (List.range rows).map (fun r => (List.range n).flatMap (fun q => List.replicate rep (signBlock key (row + r) (base + k0 + 64 * q))))
    alpha := 0
    loads := .none
    bad := []
    absent := false }

/-- The places of the ring sums that a RING_PLANE lane reads of a cohort: 64 coordinates a block, and none of a void unit (R254). -/
def planePlaces (s : State) (j : JobId) (x : Round) (c k0 n : Nat) : List (Nat × Nat) :=
  let slot := (pRing x.plan).slot
  (((List.range n).map (fun q => k0 + 64 * q)).filter (fun i => !voidCoord x.plan (x.cohort c) i)).map (fun i => (ringAt s j x c + i * slot, 64 * slot))

/-- The RING_PLANE operand (R254, R257). -/
def ringFeed (s : State) (j : JobId) (x : Round) (base cols k0 n : Nat) : Feed :=
  let planes := planeBits x.plan
  let lane := fun c => if laneReads s j x c then (List.range n).flatMap (fun q => planeBlocks x.plan (x.cohort c) (k0 + 64 * q))
    else List.replicate (n * (planes + 1)) .zero
  let cs := (List.range cols).map (fun c => base + c)
  { lanes := cs.map lane
    alpha := (planes : Int) - 1
    loads := .none
    bad := cs.map (fun c => laneReads s j x c && (metPoison s j (planePlaces s j x c k0 n)).isSome)
    absent := cs.any (fun c => !laneReads s j x c) }

/-! Checks of a MAC. -/

/-- The block pairs that the steps of a MAC complete along the contraction, and the blocks of coordinates that they read: those of an unfinished pair are read too (R230, R239, R255). -/
def macBlocks (c : Ctx) (x : Option Round) : Nat × Nat :=
  if mModeB c = 2 then
    let p := ((x.map (fun y => planeBits y.plan)).getD 0) + 1
    (c.imm, (c.imm + p - 1) / p)
  else
    let n := stepsPerBlock (mFmt c)
    (c.imm / n, (c.imm + n - 1) / n)

/-- The elements of an unfinished block pair that a MAC's steps have fed (R230). -/
def macLeft (c : Ctx) : Nat := c.imm % stepsPerBlock (mFmt c) * (blockElems (mFmt c) / stepsPerBlock (mFmt c))

/-- Whether the operands keep to R226, R379 and R380. A DENSE operand A beside RING_PLANE has no contraction length of a tensor to match: its blocks are held over the planes as SIGN's are (R255, assumption 91). -/
def macOk (s : State) (c : Ctx) (x : Option Round) : Bool :=
  let f := mFmt c
  let e := blockElems f
  let len := (macBlocks c x).2 * e
  let a := c.sa
  let b := c.sb
  let ring := mModeB c == 2
  let sign := mModeA c == 1
  isBlock f && mModeB c != 1 && mModeA c != 2 && decide (1 ≤ c.imm) && mKOff c % e == 0 && c.layer.isSome &&
    (!(ring || sign) || f == 1 && x.isSome) && (!(mModeA c == 3 || mModeB c == 3) || f != 1) &&
    (sign || denseOk s c.job f a (mRowA c) (mRows c) (mKOff c) len) &&
    (if ring then decide (mKOff c + len ≤ ((x.map (fun y => pSlice y.plan)).getD 0)) else denseOk s c.job f b (mRowB c) (mCols c) (mKOff c) len) &&
    (sign || ring || denseLen s c.job a == denseLen s c.job b)

/-- The headers that a MAC reads, and its record. -/
def macHeads (c : Ctx) : List (Nat × Nat) :=
  (if mModeA c = 1 then [] else [(c.sa, 64)]) ++ (if mModeB c = 2 then [] else [(c.sb, 64)]) ++ (if mDrain c then [(c.dst, 64)] else [])

/-- The tensors and planes that a MAC reads, and what its drain writes. -/
def macSpans (s : State) (c : Ctx) : List (Nat × Nat) :=
  let j := c.job
  (if mModeA c = 1 then [] else tensorSpans s j c.sa ++ planeSpan s j c.sa (planeOf c (mModeA c) (iSa c.word))) ++
    (if mModeB c = 2 then [] else tensorSpans s j c.sb ++ planeSpan s j c.sb (planeOf c (mModeB c) (iSb c.word))) ++
    (if mDrain c then recordRanges s j (jobRead s j c.dst 64) (mRowB c + mCols c) (mRows c * mCols c) else [])

/-- Whether a context's layer is SKETCH (R381). -/
def isSketch (c : Ctx) : Bool := c.layer == some 6

/-- The Wrap record of a drain (R264). -/
def drainRecord (s : State) (c : Ctx) : Bytes := jobRead s c.job c.dst 64

/-! Placement. -/

/-- An array. -/
def State.array (s : State) (a : Fin 8) : ArrayRec := s.arrays[a]

/-- An array set. -/
def State.setArray (s : State) (a : Fin 8) (r : ArrayRec) : State := { s with arrays := s.arrays.set a r }

/-- A tile of an array. -/
def ArrayRec.tile (r : ArrayRec) (t : Nat) : Tile := if t = 0 then r.tile0 else r.tile1

/-- A tile of an array set. -/
def ArrayRec.setTile (r : ArrayRec) (t : Nat) (v : Tile) : ArrayRec := if t = 0 then { r with tile0 := v } else { r with tile1 := v }

/-- The chain that an invocation has in a tile of its own array. -/
def chainAt (c : Ctx) (a t : Nat) : Option ChainRec := c.chains.find? (fun k => k.array == a && k.tile == t)

/-- The shared live arrays on which a job has work. -/
def arraysUsed (s : State) (j : JobId) : Nat :=
  ((List.range 8).filter (fun a => unitState s 5 a != 1 && (pinnedTo s a).isNone && arrayBusy s a && (arrayOf s a).owner == some j)).length

/-- The shared live arrays without work. -/
def arraysIdle (s : State) : Nat :=
  ((List.range 8).filter (fun a => unitState s 5 a != 1 && (pinnedTo s a).isNone && !arrayBusy s a)).length

/-- The idle arrays that the MINs of the other jobs with pending work keep free. -/
def arraysKept (s : State) (j : JobId) : Nat :=
  (((workers s 5).filter (fun i => decide (i ≠ j))).map (fun i => metMin s 5 i - arraysUsed s i)).sum

/-- Whether an array falls to a job under R513: the job works on it or holds its pin, or it stays within ARRAYS_MAX and leaves the other jobs their MIN (assumption 100). -/
def arrayTurn (s : State) (j : JobId) (a : Nat) : Bool :=
  (pinnedTo s a).isSome || (arrayBusy s a && (arrayOf s a).owner == some j) ||
    (decide (arraysUsed s j < shareMax s 5 j) && decide (arraysUsed s j < metMin s 5 j ∨ arraysKept s j < arraysIdle s))

/-- Whether Pilot may run the MAC on a physical array: live, not pinned to another job, no tile of it in use by another job, the tile not in use by another invocation, and the array that the chain already runs on (R209, R212, R214, R379, R514). -/
def arrayFits (s : State) (x : CtxId) (c : Ctx) (phys : Fin 8) (fresh : Bool) : Bool :=
  unitState s 5 phys != 1 && (((pinnedTo s phys).map (· == c.job)).getD true) &&
    s.contexts.all (fun d => d.1 == ctxNo x || d.2.chains.all (fun k => k.phys != phys.val || (d.2.job == c.job && k.tile != mTile c))) &&
    c.chains.all (fun k => k.phys != phys.val || k.tile != mTile c || k.array == mArray c) &&
    (if fresh then arrayTurn s c.job phys else ((chainAt c (mArray c) (mTile c)).map (·.phys)) == some phys.val) &&
    (s.array phys).drains.all (fun d => d.tile != mTile c)

/-- An array given to a job: where it last served another, its tiles and its short run registers are zeroed (R212). -/
def assignArray (r : ArrayRec) (j : JobId) : ArrayRec :=
  if r.owner = some j then r else { r with owner := some j, tile0 := .zero, tile1 := .zero, runs := [] }

/-! Conditions. -/

/-- A Press condition set in the invocation and the job (R261). -/
def pressCond (s : State) (x : CtxId) (j : JobId) (n : Nat) : State :=
  setCond (fset s PRS_JOB_COND.COND j 0 (fget s PRS_JOB_COND.COND j 0 ||| 2 ^ n)) x n

/-- A Press condition set where it holds. -/
def pressCondIf (s : State) (x : CtxId) (j : JobId) (n : Nat) (b : Bool) : State := if b then pressCond s x j n else s

/-- What loading blocks counted (R220, R228, R233). -/
def countLoads (s : State) (x : CtxId) (j : JobId) (l : Loads) : State :=
  let s := pressCondIf (count s PRS_JOB_FLUSH.COUNT j 0 l.flushed) x j 0 (l.flushed != 0)
  let s := pressCondIf (count s PRS_JOB_SPARE.COUNT j 0 l.spare) x j 1 (l.spare != 0)
  let s := pressCondIf (if l.high = 0 then s else ev s PRS_EVENT.ANCHOR_EV) x j 2 (l.high != 0)
  pressCondIf (count s PRS_JOB_NONFINITE.NONFINITE_IN j 0 l.nonfinite) x j 3 (l.nonfinite != 0)

/-! The screening key. -/

/-- The screening key of a round: drawn at its first use (R252); none where the draw fails or has failed. -/
def screeningKey (s : State) (j : JobId) (r : Nat) : Option Key256 × State :=
  match s.round? j r with
  | none => (none, s)
  | some x =>
    match x.screenKey with
    | some k => (some k, s)
    | none =>
      if x.screenFailed then (none, s)
      else if entropyReady s then
        let (k, t) := drawKey (served s 1)
        (some k, t.modRound j r (fun y => { y with screenKey := some k }))
      else (none, ev (s.modRound j r (fun y => { y with screenFailed := true })) PRS_EVENT.ENTROPY_EV)

/-- Whether a draw of a round's screening key would have to wait (R551). -/
def screenKeyWaits (s : State) (x : Round) : Bool := x.screenKey.isNone && !x.screenFailed && entropyStarting s

/-! Chains and groups. -/

/-- A new check group of an invocation (R582). -/
def openGroup (s : State) (x : CtxId) (c : Ctx) (frac want : Nat) : State :=
  match c.group with
  | some _ => s
  | none =>
    let (q, s) := nextCheckSeq s c.job
    let s := count s TRI_JOB_CHECK.PENDING c.job 0 1
    let g : Group := ⟨q, c.job, some x, none, [], frac, want⟩
    State.modCtx { s with groups := s.groups ++ [g] } x (fun d => { d with group := some q })

/-- A chain begins in a tile (R241, R576). -/
def startChain (s : State) (x : CtxId) (phys : Fin 8) : State :=
  match s.ctx? x with
  | none => s
  | some c =>
    let frac := chainFrac s c.job
    let want := chainWant s c.job
    let cov := ((s.job c.job).pressKey.map (fun k => chainCovered k frac c.chainNo)).getD false
    let s := if cov ∨ frac < want then openGroup s x c frac want else s
    let s := if frac < want then setCond s x 9 else s
    let k : ChainRec := ⟨mTile c, mArray c, phys.val, c.chainNo, cov, []⟩
    s.modCtx x (fun d => { d with
      chainNo := d.chainNo + 1
      chains := k :: d.chains.filter (fun o => !(o.array == mArray c && o.tile == mTile c)) })

/-! MAC. -/

/-- Operand A of a MAC. -/
def feedA (s : State) (c : Ctx) (key : Option Key256) (n rep : Nat) : Feed :=
  match key with
  | some k => signFeed k c.sa (mRowA c) (mRows c) (mKOff c) n rep
  | none => denseFeed s c.job c.sa (planeOf c (mModeA c) (iSa c.word)) (mRowA c) (mRows c) (mKOff c / blockElems (mFmt c)) n rep

/-- Operand B of a MAC. -/
def feedB (s : State) (c : Ctx) (x : Option Round) (n : Nat) : Feed :=
  match x, mModeB c with
  | some y, 2 => ringFeed s c.job y (c.sb + mRowB c) (mCols c) (mKOff c) n
  | _, _ => denseFeed s c.job c.sb (planeOf c (mModeB c) (iSb c.word)) (mRowB c) (mCols c) (mKOff c / blockElems (mFmt c)) n 1

/-- The array's times after a MAC of `steps` steps that starts at `t` (R242 to R244). -/
def feedTimes (r : ArrayRec) (t steps wait tile : Nat) (drain : Bool) : ArrayRec :=
  { r with
    feedEnd := t + steps + wait
    drainAt := if drain then some (t + steps + wait) else r.drainAt
    tileAt := if drain then r.tileAt.set tile (some (t + steps + wait)) else r.tileAt }

/-- The cycle in which a MAC starts, and the cycles by which R244 delays it. -/
def macStart (r : ArrayRec) (ready steps tile : Nat) (drain : Bool) : Nat × Nat :=
  let t0 := max ready r.feedEnd
  let byDrain := if drain then ((r.drainAt.map (fun d => d + 128 - steps)).getD 0) else 0
  let byTile := (((r.tileAt.getD tile none).map (· + 128)).getD 0)
  let t := max t0 (max byDrain byTile)
  (t, t - t0)

/-- The counters of a MAC (R244, R247, R262); Duplicate mode feeds two arrays (R579). -/
def macCounts (s : State) (c : Ctx) (wait stall : Nat) : State :=
  let j := some c.job
  let n := if chainFrac s c.job = 6 then 2 * c.imm else c.imm
  let s := pmu (count s PRS_STEP_CNT.COUNT 0 0 n) 0x30 j n
  let s := pmu (count s PRS_STALL_CNT.COUNT 0 0 stall) 0x33 j stall
  pmu (count s PRS_FEED_WAIT_CNT.COUNT 0 0 wait) 0x32 j wait

/-- The drain of a tile queued on its array (R241). -/
def queueDrain (s : State) (x : CtxId) (phys : Fin 8) (tile : Nat) (b : Bytes) (row col : Nat) : State :=
  let r := s.array phys
  s.setArray phys { r with drains := r.drains ++ [⟨x, s.opCount, tile, b, row, col⟩] }

/-- What a MAC does to each cell, from its operands. -/
def macJob (c : Ctx) (a b : Feed) (pairs : Nat) : MacJob where
  f := mFmt c
  alpha := a.alpha + b.alpha
  acc := mAcc c
  pairs := pairs
  a := a.lanes
  b := b.lanes
  badA := a.bad
  badB := b.bad

/-- The array after a MAC (R210, R213, R230): its tile, its short run registers, and the MAC in flight. -/
def macArray (r : ArrayRec) (x : CtxId) (c : Ctx) (op : Nat) (first : Bool) (q : MacJob) : ArrayRec :=
  let t := r.tile (mTile c)
  let t := if first then t.handed else t
  { r.setTile (mTile c) (macTile t (mRows c) (mCols c) q) with
    runs := macRuns r.runs (mRows c) (mCols c) (macLeft c) q
    macs := r.macs ++ [(ctxNo x, op)] }

/-- Whether a cell of a MAC's corner meets a test, as the MAC finds it. -/
def anyCell (t : Tile) (c : Ctx) (p : Cell → Nat → Nat → Bool) : Bool := (corner (mRows c) (mCols c)).any (fun rc => p (t.cell rc.1 rc.2) rc.1 rc.2)

/-- Trier's copy of a MAC's operands added to its chain, where Trier covers it (R260, R577). -/
def copyFeed (s : State) (x : CtxId) (c : Ctx) (q : MacJob) : State :=
  let fed : Fed := ⟨q.a.map (List.take q.pairs), q.b.map (List.take q.pairs)⟩
  s.modCtx x (fun d => { d with chains := d.chains.map (fun k =>
    if k.array == mArray c && k.tile == mTile c && k.covered then { k with fed := fed :: k.fed } else k) })

/-- The work of a MAC on its array (R230 to R244, R261); `first` says that it is the invocation's first in its tile. -/
def runMac (s : State) (x : CtxId) (c : Ctx) (phys : Fin 8) (ready wait : Nat) (first : Bool) (rd : Option Round) (key : Option Key256) : State :=
  let j := c.job
  let n := macBlocks c rd
  let rep := if mModeB c = 2 then ((rd.map (fun y => planeBits y.plan)).getD 0) + 1 else 1
  let a := feedA s c key n.2 rep
  let b := feedB s c rd n.2
  let q := macJob c a b n.1
  let r := assignArray (s.array phys) j
  let (t, stall) := macStart r ready c.imm (mTile c) (mDrain c)
  let old := if first then (r.tile (mTile c)).handed else r.tile (mTile c)
  let mixed := q.pairs != 0 && anyCell old c (fun e _ _ => q.mixes e)
  let range := anyCell old c (fun e row col => (q.cell e row col).2)
  let s := s.setArray phys (feedTimes (macArray r x c s.opCount first q) t c.imm wait (mTile c) (mDrain c))
  let s := copyFeed (if !mAcc c || first then startChain s x phys else s) x c q
  let s := countLoads s x j (a.loads.add b.loads)
  let s := pressCondIf (if mixed then ev s PRS_EVENT.ANCHOR_EV else s) x j 4 mixed
  let s := pressCondIf s x j 5 range
  let s := pressCondIf s x j 7 b.absent
  let s := macCounts s c wait stall
  let s := s.modCtx x (fun d => { d with
    tiles := (mArray c, mTile c, mRowA c, mRowB c) :: d.tiles.filter (fun o => !(o.1 == mArray c && o.2.1 == mTile c)) })
  let s := if mDrain c then queueDrain s x phys (mTile c) (drainRecord s c) (mRowA c) (mRowB c) else s
  issueOp s x 0 0

/-- An operation whose key draw failed: it writes nothing, and its invocation stops with ENTROPY_FAILED (R252, R272, R564). -/
def drawFails (s : State) (x : CtxId) (c : Ctx) : State :=
  stopWith (issueOp s x 6 entropyFailed) x .engineStatus 6 entropyFailed c.pc

/-- A MAC whose operands are good: the keys that it needs are drawn, then it runs (R252, R272). -/
def keyedMac (s : State) (x : CtxId) (c : Ctx) (phys : Fin 8) (ready wait : Nat) (first : Bool) (rd : Option Round) : State :=
  let needKey := mDrain c && wrStoch (drainRecord s c)
  let rk := if needKey then roundingKey s x else (none, s)
  if needKey && rk.1.isNone then drawFails rk.2 x c
  else
    match mModeA c, rd with
    | 1, some y =>
      match screeningKey rk.2 c.job y.number with
      | (none, t) => drawFails t x c
      | (some k, t) => runMac t x c phys ready wait first rd (some k)
    | _, _ => runMac rk.2 x c phys ready wait first rd none

/-- Whether the draws of a MAC have to wait for the entropy unit (R551). -/
def macWaits (s : State) (c : Ctx) (rd : Option Round) : Bool :=
  mDrain c && wrStoch (drainRecord s c) && c.roundKey.isNone && entropyStarting s ||
    mModeA c == 1 && ((rd.map (screenKeyWaits s)).getD false)

/-- MAC (R379, R380): on the physical array that Pilot chose, its operands ready at a cycle of that array, with the cycles for which its steps wait for operand data. PRS_CTRL.ENABLE holds it, and WRP_CTRL.ENABLE one that drains (R262, R305). -/
def execMac (x : CtxId) (phys : Fin 8) (ready feedWait : Nat) (s : State) : Res :=
  .next (instr (replaceFenced s) x 0x20 (fun c =>
    let s := replaceFenced s
    let rd := if mModeA c = 1 ∨ mModeB c = 2 then pickRound s c.job (mNewest c) else none
    let first := (chainAt c (mArray c) (mTile c)).isNone
    if ¬ on s PRS_CTRL.ENABLE ∨ (mDrain c ∧ ¬ on s WRP_CTRL.ENABLE) ∨ ¬ arrayFits s x c phys first then s
    else guarded s x c true (macHeads c)
      (guarded s x c (macOk s c rd && (!mDrain c || recordOk true (isSketch c) (drainRecord s c))) (macSpans s c)
        (unlessPoison s c.job 5 (macHeads c)
          (if macWaits s c rd then s else keyedMac s x c phys ready feedWait first rd)))))

/-! DRAIN and LAYER. -/

/-- The feed's times after a DRAIN instruction: its tile drains once the array's last step has been fed (R242 to R244). -/
def drainTimes (r : ArrayRec) (tile : Nat) : ArrayRec :=
  let t := max r.feedEnd (((r.drainAt.map (· + 128)).getD 0))
  { r with drainAt := some t, tileAt := r.tileAt.set tile (some t) }

/-- The work of a DRAIN instruction: the tile drains with the shape and the place of its latest MAC (R241, R378). -/
def runDrain (s : State) (x : CtxId) (c : Ctx) (phys : Fin 8) (tile : Nat) (b : Bytes) : State :=
  let at_ := ((c.tiles.find? (fun o => o.1 == mArray c && o.2.1 == mTile c)).map (fun o => o.2.2)).getD (0, 0)
  issueOp (queueDrain (s.setArray phys (drainTimes (s.array phys) tile)) x phys tile b at_.1 at_.2) x 0 0

/-- DRAIN (R378): WRP_CTRL.ENABLE holds it (R305). -/
def execDrain (x : CtxId) (s : State) : Res :=
  .next (instr (replaceFenced s) x 0x22 (fun c =>
    let s := replaceFenced s
    let b := drainRecord s c
    match chainAt c (mArray c) (mTile c) with
    | none => faultAt s x c .operandMalformed
    | some k =>
      let phys : Fin 8 := Fin.ofNat 8 k.phys
      let t := (s.array phys).tile k.tile
      if ¬ on s WRP_CTRL.ENABLE ∨ unitState s 5 phys = 1 then s
      else guarded s x c true [(c.dst, 64)]
        (guarded s x c (recordOk true (isSketch c) b) (recordRanges s c.job b t.n (t.m * t.n))
          (unlessPoison s c.job 5 [(c.dst, 64)]
            (if wrStoch b ∧ c.roundKey.isNone ∧ entropyStarting s then s
             else
               let rk := if wrStoch b then roundingKey s x else (none, s)
               if wrStoch b ∧ rk.1.isNone then drawFails rk.2 x c else runDrain rk.2 x c phys k.tile b)))))

/-- LAYER (R381): a kind that the table *Wheel layer kinds* does not define faults with BAD_ENCODING. -/
def execLayer (x : CtxId) (s : State) : Res :=
  .next (instr s x 0x2F (fun c =>
    let k := c.imm % 256
    if 1 ≤ k ∧ k ≤ 6 then advance s x { c with layer := some k } else faultAt s x c .badEncoding))

/-! GATHER. -/

/-- The row of a table that an index names. -/
def gatherRow (s : State) (j : JobId) (a i : Nat) : Nat := leNat (jobRead s j (a + 4 * i) 4)

/-- A table element as it enters Wrap, and what its block's loading counted. -/
def tableElem (s : State) (j : JobId) (addr : Nat) (hd : Bytes) (row col : Nat) : Flt :=
  let f := thFmt hd
  let p := blockPlace f (thKdim hd) row col
  let g := if thKdim hd then (p.2.1, p.1) else (p.1, p.2.1)
  match (denseBlock s j addr hd none g.1 g.2).1 with
  | .inf => .nan
  | .zero => .fin false 0
  | .val e xs => enterWrap (.ofRat ((xs.getD p.2.2 0 : ℚ) * two ((e : Int) + thAnchor hd - 31 - 127 - (if f = 5 then 1 else 0))))

/-- The blocks of the gathered rows. -/
def gatherBlocks (hd : Bytes) (rows : List Nat) : List (Nat × Nat) :=
  (rows.flatMap (fun r => (List.range (thCols hd)).map (fun c =>
    let p := blockPlace (thFmt hd) (thKdim hd) r c
    if thKdim hd then (p.2.1, p.1) else (p.1, p.2.1)))).dedup

/-- The output elements of a GATHER (R378). -/
def gatherElems (s : State) (j : JobId) (b : Bytes) (base addr : Nat) (rows : List Nat) (off : Nat) : List OutEl :=
  let hd := jobRead s j addr 64
  let n := thCols hd
  rows.zipIdx.flatMap (fun e => (List.range n).map (fun c =>
    let y := runStages s j b c (tableElem s j addr hd e.1 c)
    ⟨base + e.2 * n + c, (off + e.2) * n + c, off + e.2, c, y.1, y.2⟩))

/-- The work of a GATHER. -/
def runGather (s : State) (x : CtxId) (c : Ctx) (b : Bytes) (rows : List Nat) : State :=
  let hd := jobRead s c.job c.sa 64
  let rk := if wrStoch b then roundingKey s x else (none, s)
  if wrStoch b ∧ rk.1.isNone then drawFails rk.2 x c
  else
    let t := rk.2
    let l := ((gatherBlocks hd rows).map (fun g => (denseBlock t c.job c.sa hd none g.1 g.2).2)).foldl Loads.add .none
    issueOp (deliver (countLoads t x c.job l) x c.job b rk.1 (gatherElems t c.job b c.elems c.sa rows (c.ext 1))) x 0 0

/-- What a GATHER reads beside the two headers and its index vector: the blocks of its rows and the channel entries. -/
def gatherReads (c : Ctx) (b hd : Bytes) (rows : List Nat) : List (Nat × Nat) :=
  (gatherBlocks hd rows).flatMap (fun g => blockSpans c.sa hd none g.1 g.2) ++ channelRanges b 0 (thCols hd)

/-- GATHER (R378): the rows of a table that an index vector names, through Wrap to the destination's rows; WRP_CTRL.ENABLE holds it (R305). -/
def execGather (x : CtxId) (s : State) : Res :=
  .next (instr s x 0x21 (fun c =>
    let heads := [(c.dst, 64), (c.sa, 64), (c.sb, 4 * c.imm)]
    if ¬ on s WRP_CTRL.ENABLE then s
    else guarded s x c true heads
      (unlessPoison s c.job 9 heads
        (let b := drainRecord s c
         let hd := jobRead s c.job c.sa 64
         let rows := (List.range c.imm).map (gatherRow s c.job c.sb)
         let ok := recordOk true (isSketch c) b && headerSound c.sa hd && rows.all (fun r => decide (r < thRows hd))
         guarded s x c ok (tensorSpans s c.job c.sa ++ recordRanges s c.job b (thCols hd) ((c.ext 1 + c.imm) * thCols hd))
           (unlessPoison s c.job 9 (gatherReads c b hd rows)
             (if wrStoch b ∧ c.roundKey.isNone ∧ entropyStarting s then s else runGather s x c b rows))))))

/-! TILE_DRAIN. -/

/-- A tile as its array delivers it: a listed cell's L128 is off by an amount, which is a fault of the array (R577). -/
def Tile.faulty (t : Tile) (wrong : List (Nat × Int)) : Tile :=
  wrong.foldl (fun u e =>
    let k := readD .zero u.cells e.1
    { u with cells := putD id .zero u.cells e.1 { k with v := k.v.map (fun v => signed 128 (unsignedOf 128 (v + e.2))) } }) t

/-- The output elements of a drain, numbered from `base`: rows below M and columns below N (R243). -/
def drainElems (s : State) (j : JobId) (d : DrainRec) (base : Nat) (t : Tile) : List OutEl :=
  (corner t.m t.n).map (fun rc =>
    let col := d.col0 + rc.2
    let y := runStages s j d.record col (enterWrap (t.cell rc.1 rc.2).datum)
    ⟨base + rc.1 * t.n + rc.2, rc.1 * t.n + rc.2, d.row0 + rc.1, col, y.1, y.2⟩)

/-- The cells of a tile's corner that meet a test. -/
def Tile.cellsWhere (t : Tile) (p : Cell → Bool) : List (Nat × Nat) := (corner t.m t.n).filter (fun rc => p (t.cell rc.1 rc.2))

/-- A drained chain that is covered goes to Trier with its operand copies, or is counted as skipped (R260, R577, R582). -/
def offerChain (s : State) (d : DrainRec) (phys : Fin 8) (t : Tile) : State :=
  match s.ctx? d.x with
  | none => s
  | some c =>
    match c.chains.find? (fun k => k.phys == phys.val && k.tile == d.tile && k.covered) with
    | none => s
    | some k =>
      let s := s.modCtx d.x (fun e => { e with chains := e.chains.map (fun o => if o == k then { o with covered := false, fed := [] } else o) })
      if !(t.cellsWhere (fun e => e.poison || e.v.isNone)).isEmpty then count s TRI_CHECKS.SKIPPED 0 0 1
      else
        let s := pmu (countSat s TRI_CHECKS.CHAINS 0 0 1) 0x24 (some c.job) (t.m * t.n)
        { s with groups := s.groups.map (fun g =>
            if g.x == some d.x && some g.seq == c.group then { g with chains := g.chains ++ [⟨phys.val, d, c.elems, k.fed, t⟩] } else g) }

/-- The Inf tiles of a drain (R238). -/
def countInf (s : State) (x : CtxId) (j : JobId) (t : Tile) : State :=
  let n := (t.cellsWhere (fun e => e.v.isNone)).length
  if n = 0 then s else pressCond (ev (count s PRS_JOB_NONFINITE.INF_DRAINED j 0 n) PRS_EVENT.NONFINITE_EV) x j 6

/-- The destination lines of poisoned cells poisoned, and the poison consumed (R217, R572). -/
def poisonDrain (s : State) (phys : Fin 8) (d : DrainRec) (c : Ctx) (els : List OutEl) : State :=
  consumePoison ((els.flatMap (elemSpans s c.job d.record)).foldl (fun u r => poisonRange u c.job r.1 r.2) s) c.job 5 phys.val

/-- A drain of a tile into Wrap (R217, R243, R266). -/
def drainTile (s : State) (phys : Fin 8) (d : DrainRec) (c : Ctx) (t : Tile) : State :=
  let s := offerChain (countInf s d.x c.job t) d phys t
  let els := drainElems s c.job d c.elems t
  let bad := els.filter (fun e => (t.cell (e.row - d.row0) (e.col - d.col0)).poison)
  unlessPoison s c.job 9 (channelRanges d.record d.col0 t.n)
    (let s := deliver s d.x c.job d.record (if wrStoch d.record then c.roundKey else none) els
     if bad.isEmpty then s else poisonDrain s phys d c bad)

/-- TILE_DRAIN (R243): the oldest drain that is pending on an array; `wrong` lists the cells whose sums the array got wrong, and by how much. A fenced array's drain waits for its chain to run again (R214). -/
def execTileDrain (array : Fin 8) (wrong : List (Nat × Int)) (s : State) : Res :=
  .next (let s := replaceFenced s
    match (s.array array).drains with
    | [] => s
    | d :: ds =>
      if unitState s 5 array = 1 then s
      else
        let r := s.array array
        let tile := (r.tile d.tile).faulty wrong
        let t := s.setArray array { r.setTile d.tile tile with drains := ds }
        match s.ctx? d.x with
        | none => t
        | some c => drainTile t array d c tile)

/-! Chain checks. -/

/-- The oldest chain of a group taken from those to be checked. -/
def takeChain (s : State) (g : Group) : State :=
  { s with groups := s.groups.map (fun o => if o == g then { o with chains := o.chains.drop 1 } else o) }

/-- The outcome of a provisional invocation's group reported as its last chain is checked, or at its first failure (R584). -/
def reportGroup (s : State) (g : Group) (ok : Bool) : State :=
  match g.cseq with
  | none => s
  | some q =>
    if ok then (if g.chains.length ≤ 1 then logJob s g.job 0x26 0 g.seq q else s)
    else { ev (logJob s g.job 0x25 0 g.seq q) TRI_EVENT.RETRACT_EV with
      groups := s.groups.map (fun o => if o.seq == g.seq && o.job == g.job then { o with cseq := none } else o) }

/-- A failed chain counted and its array marked, or fenced at its second (R580, R581, R588). -/
def failChain (s : State) (j : JobId) (a : Nat) : State :=
  let s := countFailure (ev (countSat s TRI_FAILS.CHAIN 0 0 1) TRI_EVENT.CHECK_EV) j
  faultFence (suspect s 5 a 3) 5 a 2 (24 * hourNs) 3 2

/-- The sums that a chain comes to, in place of those that were drained: what a second array computes (R579, R580). -/
def ChainCheck.again (k : ChainCheck) : Tile :=
  (corner k.drained.m k.drained.n).foldl (fun t rc => t.setCell rc.1 rc.2 { t.cell rc.1 rc.2 with v := some (chainSum k.fed rc.1 rc.2) }) k.drained

/-- Whether a chain's drained values pass: in Duplicate mode they equal those of the second array (R579), otherwise every row agrees modulo p under one draw for each column (R577). -/
def chainPasses? (s : State) (g : Group) (k : ChainCheck) (t : Tile) : Bool :=
  if g.frac = 6 then (corner t.m t.n).all (fun rc => (t.cell rc.1 rc.2).v == (k.again.cell rc.1 rc.2).v)
  else
    let draws := (List.range t.n).map (fun c => (Config.draw (s.fresh + c)).toNat % checkPrime)
    (List.range t.m).all (rowPasses k.fed t draws)

/-- The destination of a failed chain written again from its second run, under the same rounding key and element numbers (R580). -/
def rewriteChain (s : State) (k : ChainCheck) (j : JobId) (key : Option Key256) (t : Tile) : State :=
  let b := k.drain.record
  let els := drainElems s j k.drain k.base t
  let s := writeMask s j b els
  if isBlock (wrFmt b) then writeTensor s k.drain.x j b key els else writeArray s j b key els

/-- A failed chain of an invocation that has not completed (R580): it runs again on another array, whose faults `wrong` lists, and the invocation goes on where that run passes. -/
def rerunChain (s : State) (g : Group) (k : ChainCheck) (x : CtxId) (c : Ctx) (wrong : List (Nat × Int)) : State :=
  let t := k.again.faulty wrong
  let ok := chainPasses? s g k t
  let s := rewriteChain (takeDraws s t.n) k g.job (if wrStoch k.drain.record then c.roundKey else none) t
  if ok then s else stopWith s x .engineStatus 7 9 c.pc

/-- What a failed chain brings (R580, R584). -/
def chainFails (s : State) (g : Group) (k : ChainCheck) (wrong : List (Nat × Int)) : State :=
  let s := failChain s g.job k.array
  match g.x with
  | none => reportGroup s g false
  | some x =>
    match s.ctx? x with
    | none => s
    | some c => rerunChain s g k x c wrong

/-- Whether a failed chain can run again: on a live array that is not the one it ran on (R516, R580). -/
def canRerun (s : State) (g : Group) (k : ChainCheck) : Bool := g.x.isNone || (liveArrays s).any (fun a => a != k.array)

/-- CHAIN_CHECK (R577, R579, R580, R584): Trier checks the oldest chain of the job's check group `n`; `wrong` lists the cells that the array of a re-run gets wrong. A failed chain with no other live array waits for one (R516). -/
def execChainCheck (j : JobId) (n : Nat) (wrong : List (Nat × Int)) (s : State) : Res :=
  .next (match s.groups.find? (fun g => g.job == j && g.seq == n) with
    | none => s
    | some g =>
      match g.chains with
      | [] => s
      | k :: rest =>
        let ok := chainPasses? s g k k.drained
        if !ok && !canRerun s g k then s
        else
          let s := takeChain (takeDraws s k.drained.n) g
          let s := if ok then reportGroup s g true else chainFails s g k wrong
          if g.x.isNone ∧ rest.isEmpty then completeGroup s j n else s)

end Sys2Proof.Machine
end

