-- ==== Sys2Proof/Machine/Settle.lean ====
section
/-! DEFINITION. Settle (R171 to R178), exact subtraction (R188), the add window's layout (R190), and the Vat recipe instructions on cohorts (R382). -/

namespace Sys2Proof.Machine

/-! Addends. -/

/-- The slice coordinates of a cohort outside its void units. -/
def coordsOf (p : Bytes) (k : Cohort) : List Nat := (List.range (pSlice p)).filter (fun i => !voidCoord p k i)

/-- The total addends of a cohort as (model coordinate, addend) for listed slice coordinates (R171). -/
def totalAddends (p : Bytes) (c : Nat) (k : Cohort) (is : List Nat) : List (Nat × Word) :=
  if k.weight = 0 then [] else is.map (fun i => (modelCoord p c i, BitVec.ofInt 64 (k.weight * levelOf p k i)))

/-- The granules that receive a chunk of a cohort outside its void set (R173): each once, also where a slice longer than the model brings it two chunks (assumption 92). -/
def granulesOf (p : Bytes) (c : Nat) (k : Cohort) : List Nat :=
  (((List.range (pSlice p / pChunk p)).filter (fun u => !k.voids.contains u)).map (fun u => modelCoord p c (u * pChunk p) / pChunk p)).dedup

/-- The count addends of a cohort as (granule, addend) (R173). -/
def countAddends (p : Bytes) (c : Nat) (k : Cohort) : List (Nat × Word) :=
  if k.weight = 0 then [] else (granulesOf p c k).map (fun g => (g, BitVec.ofNat 64 (k.weight * k.survivors.length)))

/-- The addends of a cohort that fall into the window that its round settles (R178). -/
def windowTotals (s : State) (j : JobId) (x : Round) (c : Nat) (k : Cohort) (is : List Nat) : List (Nat × Word) :=
  (totalAddends x.plan c k is).filter (fun e => inRange s j x e.1)
def windowCounts (s : State) (j : JobId) (x : Round) (c : Nat) (k : Cohort) : List (Nat × Word) :=
  (countAddends x.plan c k).filter (fun e => inRange s j x (e.1 * pChunk x.plan))

/-- G64 addends applied at addresses (R171, R180). -/
def applyAddends (s : State) (j : JobId) (at_ : Nat → Nat) (ts : List (Nat × Word)) : State :=
  pmu (ts.foldl (fun t e => gaddJob t j (at_ e.1) e.2) s) 0x20 (some j) ts.length

/-- Their exact subtraction (R181, R188). -/
def negated (ts : List (Nat × Word)) : List (Nat × Word) := ts.map (fun e => (e.1, g64Neg e.2))

/-! Settle. -/

/-- A phase of the last five begins once (R38, R373). -/
def enterPhase (s : State) (j : JobId) (r ph : Nat) : State :=
  match s.round? j r with
  | none => s
  | some x => if begun x ph then s else markPhase s j r ph

/-- Whether earlier rounds of the job have ended (R41). -/
def earliest (s : State) (j : JobId) (r : Nat) : Bool := (s.job j).rounds.all (fun z => decide (r ≤ z.number))

/-- A cohort whose ring sums leave their range: its addends are undone and it is abandoned (R175). -/
def rangeFail (s : State) (j : JobId) (r c : Nat) : State :=
  countFailure (count (abandon (recordSettle s j r c 2) j r c reasonSettleFail) VAT_JOB_SETTLE.FAILED j 0 1) j

/-- Whether a ring sum leaves its range (R175). -/
def beyond (p : Bytes) (k : Cohort) (i : Nat) : Bool := decide (k.survivors.length * pL p < readD 0 k.accum i)

/-- A cohort settled: a marker that its addends created is its status; in a model settled in windows it is counted in the first (R171 to R175, R178, R180, R207, R373). -/
def settled (s : State) (j : JobId) (x : Round) (c : Nat) (created : Bool) : State :=
  let s := s.modCohort j x.number c (fun k => { k with settled := true })
  let s := if created then recordSettle s j x.number c 4 else s
  if x.windowNo = 0 then bump (count s VAT_JOB_SETTLE.SETTLED j 0 1) j 1 1 else s

/-- The markers that a round's addends have created. -/
def markers (s : State) (j : JobId) (r : Nat) : Nat := ((s.round? j r).map (·.nonfinite)).getD 0

/-- Settle of one cohort in the window of its round (R171 to R175, R178): the range check reads the whole slice. -/
def settleCohort (s : State) (j : JobId) (c : Nat) (x : Round) (k : Cohort) : State :=
  let p := x.plan
  let s := enterPhase s j x.number 8
  let is := coordsOf p k
  let good := is.takeWhile (fun i => !beyond p k i)
  let ts := windowTotals s j x c k good
  let t := applyAddends s j (totalAddr s j x) ts
  if good.length < is.length then rangeFail (applyAddends t j (totalAddr s j x) (negated ts)) j x.number c
  else
    let t := applyAddends t j (countAddr s j x) (windowCounts s j x c k)
    settled t j x c (markers t j x.number != markers s j x.number)

/-- Whether a cohort's Settle may begin (R38, R41, R178, R205). -/
def settleDue (s : State) (j : JobId) (x : Round) (c : Nat) : Bool :=
  let k := x.cohort c
  decide (c < pCohortCount x.plan) && x.closed && k.unmasked && !k.settled && !k.excluded && k.reason == 0 && earliest s j x.number &&
    (resident s j x.plan || x.screenDone) && s.alive j

/-- The places of a cohort's ring sums outside its void units. -/
def sumPlaces (s : State) (j : JobId) (x : Round) (c : Nat) : List (Nat × Nat) := unitPlaces s j x c (clearUnits x.plan (x.cohort c))

/-- The poisoned line that work on a cohort's ring sums and on its totals and counts meets: its address (R155, R572). -/
def settlePoison (s : State) (j : JobId) (x : Round) (c : Nat) : Option Nat :=
  let k := x.cohort c
  (metPoison s j (sumPlaces s j x c)).or
    (if s.poison.isEmpty then none
     else firstPoison s j ((windowTotals s j x c k (coordsOf x.plan k)).map (fun e => (totalAddr s j x e.1, 8)) ++
       (windowCounts s j x c k).map (fun e => (countAddr s j x e.1, 8))))

/-- Work on a cohort's sums and totals, unless it meets poison, which the Vat's units then consume. -/
def unlessSettle (s : State) (j : JobId) (x : Round) (c : Nat) (go : State) : State :=
  match settlePoison s j x c with
  | some a => consumeAt s j 4 a
  | none => go

/-- COHORT_SETTLE (R171): a cohort's Settle. -/
def execCohortSettle (j : JobId) (r : RoundNo) (c : CohortId) (s : State) : Res :=
  .next (match s.round? j r with
    | none => s
    | some x => if settleDue s j x c then unlessSettle s j x c (settleCohort s j c x (x.cohort c)) else s)

/-! Exclusion. -/

/-- A settled cohort's addends subtracted exactly (R188); of a cohort that is not yet settled there is nothing to subtract (R178). -/
def subtractCohort (s : State) (j : JobId) (x : Round) (c : Nat) (k : Cohort) : State :=
  if k.settled then
    applyAddends (applyAddends s j (totalAddr s j x) (negated (windowTotals s j x c k (coordsOf x.plan k)))) j (countAddr s j x)
      (negated (windowCounts s j x c k))
  else s

/-- A flagged cohort excluded (R292). -/
def excludeCohort (s : State) (j : JobId) (r c : Nat) : State :=
  match s.round? j r with
  | none => s
  | some x => (subtractCohort s j x c (x.cohort c)).modCohort j r c (fun k => { k with excluded := true })

/-! The recipe instructions on cohorts. -/

/-- The round that a firmware invocation serves; the oldest past Close where its round core named none (R379). -/
def servedRound (s : State) (c : Ctx) : Option Round :=
  match c.round with
  | some r => s.round? c.job r
  | none => pickRound s c.job false

/-- An operation on a cohort whose failure completes it with a settle status. -/
def issueCohort (t : State) (x : CtxId) (j : JobId) (r c status : Nat) : State :=
  if (t.cohort j r c).reason ≠ 0 then issueOp t x 3 status else issueOp t x 0 0

/-- SETTLE (R382): the Settle of cohort IMM. -/
def execSettle (x : CtxId) (s : State) : Res :=
  .next (instr s x 0x34 (fun c =>
    match servedRound s c with
    | none => faultAt s x c .operandMalformed
    | some y =>
      if settleDue s c.job y c.imm then
        unlessSettle s c.job y c.imm (issueCohort (settleCohort s c.job c.imm y (y.cohort c.imm)) x c.job y.number c.imm 2)
      else s))

/-- EXCLUDE (R188, R382): cohort IMM's addends are subtracted. -/
def execExclude (x : CtxId) (s : State) : Res :=
  .next (instr s x 0x35 (fun c =>
    match servedRound s c with
    | none => faultAt s x c .operandMalformed
    | some y =>
      let k := y.cohort c.imm
      if ¬ k.settled ∨ k.excluded ∨ k.reason ≠ 0 then s
      else unlessSettle s c.job y c.imm (issueOp (excludeCohort s c.job y.number c.imm) x 0 0)))

/-- CHECK (R203, R204, R382): the linear check of cohort IMM. -/
def execCheckCohort (x : CtxId) (s : State) : Res :=
  .next (instr s x 0x36 (fun c =>
    match servedRound s c with
    | none => faultAt s x c .operandMalformed
    | some y =>
      let k := y.cohort c.imm
      match k.checkKey with
      | none => s
      | some key =>
        if ¬ y.closed ∨ k.checked ∨ k.reason ≠ 0 then s
        else match metPoison s c.job (checkPlaces s c.job y c.imm key) with
          | some a => consumeAt s c.job 10 a
          | none => issueCohort (compare s c.job y.number c.imm y.plan k key) x c.job y.number c.imm 1))

/-- The round structures of one round zeroed, with their poison: the accumulators (R169) and the totals (R177). -/
def zeroRoundOf (s : State) (j : JobId) (x : Round) : State :=
  (List.range (pCohortCount x.plan)).foldl (fun t c =>
    (clearCohort t j x c).modCohort j x.number c (fun k => { k with accum := [], check := [0, 0, 0, 0], sums := [] })) (zeroWindow s j)

/-- ZERO_ROUND (R382): zeroes round structures under R169 and R177. -/
def execZeroRound (x : CtxId) (s : State) : Res :=
  .next (instr s x 0x37 (fun c =>
    match servedRound s c with
    | none => faultAt s x c .operandMalformed
    | some y => issueOp (zeroRoundOf s c.job y) x 0 0))

end Sys2Proof.Machine
end

