-- ==== Sys2Proof/Machine/Screen.lean ====
section
/-! DEFINITION. Screening (R290 to R293) and Skim's sequencer (R285 to R288, R386). -/

namespace Sys2Proof.Machine

/-! The procedure of R291. -/

/-- A cohort's sketch: the exact projections onto the directions (R256, R290). -/
def sketchOf (p : Bytes) (key : Key256) (dirs : Nat) (k : Cohort) : List Int :=
  (List.range dirs).map (fun d => ((List.range (pSlice p)).map (fun i => signOf key d i * levelOf p k i)).sum)

/-- The sums of live sketches by direction. -/
def sketchSums (dirs : Nat) (live : List (Nat × List Int)) : List Int :=
  (List.range dirs).map (fun d => (live.map (fun c => c.2.getD d 0)).sum)

/-- n² times a sketch's squared distance from the mean of the live ones (R291). -/
def distance (n : Nat) (sums sketch : List Int) : Int := (List.zipWith (fun (p q : Int) => ((n : Int) * p - q) ^ 2) sketch sums).sum

/-- The largest distance; a tie goes to the lowest cohort (R287). -/
def farthest (ds : List (Nat × Int)) : Option (Nat × Int) :=
  ds.foldl (fun a e => match a with
    | none => some e
    | some b => if b.2 < e.2 ∨ b.2 = e.2 ∧ e.1 < b.1 then some e else some b) none

/-- The flagged cohorts, in the order in which they are found, over at most `fuel` rounds (R291). -/
def flagLoop (dirs ratio : Nat) : Nat → List (Nat × List Int) → List Nat
  | 0, _ => []
  | fuel + 1, live =>
    let n := live.length
    if n < 3 then []
    else
      let sums := sketchSums dirs live
      let ds := live.map (fun c => (c.1, distance n sums c.2))
      match farthest ds with
      | none => []
      | some (c, m) =>
        if m * n * 256 ≤ ratio * (ds.map (·.2)).sum then [] else c :: flagLoop dirs ratio fuel (live.filter (fun e => e.1 != c))

/-- The cohorts that the procedure flags under a policy record (R291, R294). -/
def flagged (pol : Bytes) (sketches : List (Nat × List Int)) : List Nat := flagLoop (polDirs pol) (polRatio pol) (polMaxExcl pol) sketches

/-! The decision. -/

/-- The cohorts over which screening runs: those settled, or, of a model settled in windows, those unmasked (R178, R291). -/
def screenSet (s : State) (j : JobId) (x : Round) : List Nat :=
  (liveCohorts x).filter (fun c => sumsReady s j x (x.cohort c))

/-- Whether every cohort of a round is settled or abandoned (R291); of a model settled in windows, unmasked or abandoned. -/
def screenReady (s : State) (j : JobId) (x : Round) : Bool := x.closed && (screenSet s j x).length == (liveCohorts x).length

/-- The chains of firmware's MACs for a round, by the elements of each tile, with Trier's check of the covered ones (R576, R582): they have passed before the invocation completes (R583). -/
def checkedChains (s : State) (j : JobId) (r : Nat) (tiles : List Nat) : State :=
  let frac := chainFrac s j
  let want := chainWant s j
  let mine := tiles.zipIdx.filter (fun t => ((s.job j).pressKey.map (fun k => chainCovered k frac t.2)).getD false)
  if mine.isEmpty ∧ want ≤ frac then s
  else
    let (q, s) := nextCheckSeq s j
    let s := pmu (countSat s TRI_CHECKS.CHAINS 0 0 mine.length) 0x24 (some j) ((mine.map (·.1)).sum)
    if frac < want then (logJob s j 0x22 r q frac).modRound j r (fun y => { y with underChecked := true }) else s

/-- The steps of MACs fed and their tiles completed (R262). -/
def fedMacs (s : State) (j : JobId) (tiles steps : Nat) : State :=
  pmu (count (count s PRS_MAC_CNT.COUNT 0 0 tiles) PRS_STEP_CNT.COUNT 0 0 steps) 0x30 (some j) steps

/-- The MACs of the firmware's screening recipe: one for each 128 cohorts, where a cohort that has no sums to read sets COHORT_ABSENT (R253, R255, R257, R261). -/
def screenMacs (s : State) (j : JobId) (x : Round) : State :=
  let p := x.plan
  let n := pCohortCount p
  let tiles := (n + 127) / 128
  let s := if (List.range n).all (laneReads s j x) then s else fset s PRS_JOB_COND.COND j 0 (fget s PRS_JOB_COND.COND j 0 ||| 2 ^ 7)
  let s := fedMacs s j tiles (tiles * ((pSlice p + 63) / 64) * (planeBits p + 1))
  checkedChains s j x.number ((List.range tiles).map (fun t => polDirs (s.job j).policy * min 128 (n - 128 * t)))

/-- The flagged cohorts reported, and excluded where the policy says so (R292). -/
def flagCohort (j : JobId) (r : Nat) (exclude : Bool) (s : State) (c : Nat) : State :=
  let s := logJob (s.modCohort j r c (fun k => { k with flagged := true })) j 0x12 r c (flag exclude)
  if exclude then excludeCohort s j r c else s

/-- The screening decisions made: counter 0x02 for each cohort, and the start of the wait for peers (R195, R373). -/
def decided (s : State) (j : JobId) (r : Nat) (cs : List Nat) : State :=
  let s := cs.foldl (fun t c => t.modCohort j r c (fun k => { k with screened := true })) s
  bump (s.modRound j r (fun y => { y with screenDone := true, peerStart := some s.now })) j 2 cs.length

/-- The procedure run with a screening key (R291, R292). -/
def runScreen (s : State) (j : JobId) (r : Nat) (x : Round) (key : Key256) (cs : List Nat) : State :=
  let pol := (s.job j).policy
  let fs := flagged pol (cs.map (fun c => (c, sketchOf x.plan key (polDirs pol) (x.cohort c))))
  let exclude := polScreen pol == 2
  let n := cs.length * polDirs pol
  let s := pmu (count (screenMacs s j x) SKM_ELEM_CNT.COUNT 0 0 n) 0x35 (some j) ((8 * n + 63) / 64)
  let s := fset (fset s SKM_JOB_SCREEN.FLAGGED j 0 fs.length) SKM_JOB_SCREEN.EXCLUDED j 0 (if exclude then fs.length else 0)
  let s := fs.foldl (flagCohort j r exclude) s
  decided (s.modRound j r (fun y => { y with screenRun := true })) j r cs

/-- WRP_JOB_GATE as a round of this file ends or is judged (R305). -/
def showGate (s : State) (j : JobId) (r status reason : Nat) (held evaluated : Bool) : State :=
  let screened := (((s.round? j r).map (·.screenRun)).getD false)
  let s := fset (fset (fset s WRP_JOB_GATE.ROUND j 0 r) WRP_JOB_GATE.HELD j 0 (flag held)) WRP_JOB_GATE.STATUS j 0 status
  fset (fset (fset s WRP_JOB_GATE.REASON j 0 reason) WRP_JOB_GATE.SCREENED j 0 (flag screened)) WRP_JOB_GATE.EVALUATED j 0 (flag evaluated)

/-- A round that ends with a release status and releases nothing (R301). -/
def withhold (s : State) (j : JobId) (r status reason : Nat) (evaluated : Bool) : State :=
  endRound (showGate s j r status reason false evaluated) j r 4 status 0 []

/-- The screening key's draw failed (R293). -/
def screenFails (s : State) (j : JobId) (r : Nat) (cs : List Nat) : State :=
  let s := ev (fset (fset s SKM_JOB_SCREEN.FLAGGED j 0 0) SKM_JOB_SCREEN.EXCLUDED j 0 0) SKM_EVENT.SCREEN_SKIP_EV
  if polScreenRequired (s.job j).policy then withhold s j r 5 0 false
  else s.modRound j r (fun y => { y with screenDone := true, peerStart := some s.now }) |> fun t =>
    cs.foldl (fun t c => t.modCohort j r c (fun k => { k with screened := true })) t

/-- The range check that Settle would make, made before the screening of a model settled in windows, so that the round's outcome is that of a resident one (R45, R175, R178). -/
def rangeChecked (s : State) (j : JobId) (x : Round) : State :=
  if resident s j x.plan then s
  else ((screenSet s j x).filter (fun c => let k := x.cohort c; (coordsOf x.plan k).any (beyond x.plan k))).foldl (fun t c => rangeFail t j x.number c) s

/-- The procedure of R291 in a round whose policy asks for it. -/
def screenWith (s : State) (j : JobId) (r : Nat) (x : Round) (cs : List Nat) : State :=
  match screeningKey s j r with
  | (none, t) => screenFails t j r cs
  | (some key, t) =>
    match metPoison t j (cs.flatMap (sumPlaces t j x)) with
    | some a => consumeAt t j 5 a
    | none => runScreen t j r x key cs

/-- The screening of a round whose cohorts are all settled or abandoned. -/
def screenRound (s : State) (j : JobId) (r : Nat) : State :=
  match s.round? j r with
  | none => s
  | some x =>
    let s := enterPhase s j r 9
    let cs := screenSet s j x
    if polScreen (s.job j).policy = 0 then decided (fset (fset s SKM_JOB_SCREEN.FLAGGED j 0 0) SKM_JOB_SCREEN.EXCLUDED j 0 0) j r cs
    else screenWith s j r x cs

/-- Whether the screening of a round has what it needs: Press, Wrap and Skim, a live array, and the entropy unit (R262, R305, R306, R516, R551). -/
def screenMay (s : State) (x : Round) : Bool :=
  on s PRS_CTRL.ENABLE && on s WRP_CTRL.ENABLE && on s SKM_CTRL.ENABLE && !(liveArrays s).isEmpty && !screenKeyWaits s x

/-- SCREEN_DECISION (R291): every cohort of the round is settled or abandoned. -/
def execScreenDecision (j : JobId) (r : RoundNo) (s : State) : Res :=
  .next (match s.round? j r with
    | none => s
    | some x =>
      if ¬ screenReady s j x ∨ x.screenDone ∨ ¬ earliest s j r ∨ ¬ s.alive j then s
      else if polScreen (s.job j).policy ≠ 0 ∧ ¬ screenMay s x ∧ liveCohorts x ≠ [] then s
      else
        let s := rangeChecked s j x
        if ((s.round? j r).map (fun y => decide (liveCohorts y = []))).getD false then withhold s j r 4 0 false else screenRound s j r)

/-! Skim's instructions. -/

/-- The bytes of an element type: 0 FP32, 1 BF16, 2 S32, 3 G64 (R386). -/
def skimBytes (t : Nat) : Nat := if t = 1 then 2 else if t = 3 then 8 else 4

/-- Whether an element is non-finite (R286). -/
def skimNonfinite (t v : Nat) : Bool :=
  match t with
  | 0 => dec32 v == .nan
  | 1 => decBf16 v == .nan
  | 2 => false
  | _ => v == g64Marker.toNat

/-- The order-preserving unsigned key of an element (R286, R288). -/
def skimKey (t v : Nat) : Nat :=
  match t with
  | 0 => if v < 2 ^ 31 then v + 2 ^ 31 else 2 ^ 32 - 1 - v
  | 1 => if v < 2 ^ 15 then v + 2 ^ 15 else 2 ^ 16 - 1 - v
  | 2 => (v + 2 ^ 31) % 2 ^ 32
  | _ => (v + 2 ^ 63) % 2 ^ 64

/-- The elements of a vector with their indices. -/
def skimElems (s : State) (j : JobId) (t a n : Nat) : List (Nat × Nat) :=
  (List.range n).map (fun i => (i, leNat (jobRead s j (a + i * skimBytes t) (skimBytes t))))

/-- Whether element a ranks ahead of b: non-finite elements first, then by key, then by index (R286, R287). -/
def skimAhead (t : Nat) (smallest : Bool) (a b : Nat × Nat) : Bool :=
  let na := skimNonfinite t a.2
  let nb := skimNonfinite t b.2
  if na || nb then na && (!nb || decide (a.1 ≤ b.1))
  else
    let ka := skimKey t a.2
    let kb := skimKey t b.2
    if ka = kb then decide (a.1 ≤ b.1) else (decide (kb < ka)) != smallest

/-- The first k elements by rank, in ascending index order (R285, R288). -/
def skimPick (t : Nat) (smallest : Bool) (k : Nat) (es : List (Nat × Nat)) : List (Nat × Nat) :=
  ((es.mergeSort (skimAhead t smallest)).take k).mergeSort (fun a b => decide (a.1 ≤ b.1))

/-- A record of R386. -/
def skimRecord (t : Nat) (e : Nat × Nat) : Bytes := toLe 8 e.2 ++ toLe 4 e.1 ++ toLe 4 (flag (skimNonfinite t e.2))

/-- The passes of TOPK and BOTK over a vector; MAXI and MINI read it once (R288). -/
def skimPasses (t : Nat) (many : Bool) : Nat := if many then (if t = 3 then 7 else 4) else 1

/-- The work of a selection (R286, R386). -/
def runSkim (s : State) (x : CtxId) (c : Ctx) (smallest many : Bool) (k : Nat) : State :=
  let t := c.mod % 4
  let n := c.sb
  let out := skimPick t smallest k (skimElems s c.job t c.sa n)
  let reads := n * skimPasses t many
  let s := pmu (count s SKM_ELEM_CNT.COUNT 0 0 reads) 0x35 (some c.job) ((n * skimBytes t + 63) / 64 * skimPasses t many)
  let s := jobStore s c.job c.dst (List.flatten (out.map (skimRecord t)))
  let s := if out.any (fun e => skimNonfinite t e.2) then setCond (ev s SKM_EVENT.NONFINITE_EV) x 8 else s
  issueOp s x 0 0

/-- A selection checked and run: `k` records (R285, R386). -/
def skimOp (s : State) (x : CtxId) (opc : Nat) (smallest many : Bool) : State :=
  instr s x opc (fun c =>
    let k := if many then c.imm else 1
    let n := c.sb
    let size := n * skimBytes (c.mod % 4)
    if ¬ on s SKM_CTRL.ENABLE then s
    else guarded s x c (decide (1 ≤ n ∧ n ≤ 2 ^ 32 ∧ 1 ≤ k ∧ k ≤ 2 ^ 24 ∧ k ≤ n)) [(c.sa, size), (c.dst, 16 * k)]
      (unlessPoison s c.job 0 [(c.sa, size)] (runSkim s x c smallest many k)))

/-- MAXI (R386). -/
def execMaxi (x : CtxId) (s : State) : Res := .next (skimOp s x 0x70 false false)

/-- MINI (R386). -/
def execMini (x : CtxId) (s : State) : Res := .next (skimOp s x 0x71 true false)

/-- TOPK (R288). -/
def execTopk (x : CtxId) (s : State) : Res := .next (skimOp s x 0x72 false true)

/-- BOTK (R288). -/
def execBotk (x : CtxId) (s : State) : Res := .next (skimOp s x 0x73 true true)

/-- FARTHEST (R291, R386): over the settled cohorts' sketches at P(SA), SCREEN_DIRS G64 entries each in the order of their cohorts; the flagged cohorts go to P(DST). -/
def execFarthest (x : CtxId) (s : State) : Res :=
  .next (instr s x 0x74 (fun c =>
    match servedRound s c with
    | none => faultAt s x c .operandMalformed
    | some y =>
      let pol := (s.job c.job).policy
      let cs := screenSet s c.job y
      let n := cs.length * polDirs pol
      if ¬ on s SKM_CTRL.ENABLE then s
      else guarded s x c (c.sb == n) [(c.sa, 8 * n), (c.dst, 16 * polMaxExcl pol)]
        (unlessPoison s c.job 0 [(c.sa, 8 * n)]
          (let sk := cs.zipIdx.map (fun e => (e.1, (List.range (polDirs pol)).map (fun d => (jobWord s c.job (c.sa + 8 * (e.2 * polDirs pol + d))).toInt)))
           let fs := flagged pol sk
           let t := pmu (count s SKM_ELEM_CNT.COUNT 0 0 n) 0x35 (some c.job) ((8 * n + 63) / 64)
           issueOp (jobStore t c.job c.dst (List.flatten (fs.map (fun f => toLe 8 f ++ toLe 4 f ++ toLe 4 0)))) x 0 0))))

end Sys2Proof.Machine
end

