-- ==== Sys2Proof/Machine/Wheel.lean ====
section
/-! DEFINITION. The forward pass of a Wheel model over the held-out set (R249, R258, R296 to R298): tensors as values, the layer kinds, and the three measures of the gate. -/

namespace Sys2Proof.Machine

/-! Tensors. -/

/-- Every block of a tensor converted, in grid order: its code, its data and its counts (R273). -/
def tensorBlocks (f : Nat) (kdim : Bool) (rows cols : Nat) (xs : List (Option Nat × Flt)) : List (Nat × Bytes × Nat × Nat) :=
  let e := blockElems f
  let gr := if kdim then rows / e else rows
  let gc := gridCols f kdim cols
  (List.range gr).flatMap (fun x => (List.range gc).map (fun y =>
    convBlock f ((List.range e).map (fun q =>
      xs.getD (if kdim then (x * e + q) * cols + y else x * cols + y * e + q) (none, .fin false 0)))))

/-- Bytes filled up to a multiple of 64. -/
def pad64 (bs : Bytes) : Bytes := bs ++ zeros ((64 - bs.length % 64) % 64)

/-- A tensor's bytes from its blocks (R223, R224, R274). -/
def tensorBytes (f : Nat) (kdim : Bool) (rows cols : Nat) (bs : List (Nat × Bytes × Nat × Nat)) : Bytes :=
  let gc := gridCols f kdim cols
  let scales := pad64 (bs.map (fun b => BitVec.ofNat 8 b.1))
  let stride := (gc * blockBytes f + 63) / 64 * 64
  let anchor := bs.foldl (fun a b => if b.1 = 0xFF then a else max a b.1) 0
  let head := toLe 1 f ++ toLe 1 (flag kdim) ++ toLe 1 anchor ++ [0] ++ toLe 4 rows ++ toLe 4 cols ++ zeros 4 ++ toLe 8 64 ++
    toLe 8 (64 + scales.length) ++ toLe 8 stride ++ zeros 24
  let gr := if gc = 0 then 0 else bs.length / gc
  head ++ scales ++ List.flatten ((List.range gr).map (fun x => pad64 (List.flatten (((bs.drop (x * gc)).take gc).map (fun b => b.2.1)))))

/-- The binary32 code of an element of a converted tensor (R297). -/
def tensorElem (f : Nat) (kdim : Bool) (cols : Nat) (bs : List (Nat × Bytes × Nat × Nat)) (i : Nat) : Nat :=
  let p := blockPlace f kdim (i / cols) (i % cols)
  let b := bs.getD (p.1 * gridCols f kdim cols + p.2.1) (0, [], 0, 0)
  if b.1 = 0xFF then 0x7FC00000 else if b.1 = 0 then 0 else enc32 (.ofRat (elemVal f b.1 (elemCode f b.2.1 p.2.2)))

/-- A tensor as a value: its format, block direction, extent, ANCHOR, and its blocks in grid order as scale code and data (R223, R224). -/
structure Tens where
  fmt : Nat
  kdim : Bool
  rows : Nat
  cols : Nat
  anchor : Nat
  blocks : List (Nat × Bytes)
  deriving DecidableEq, Repr

/-- The ANCHOR of blocks: the largest scale code but for non-finite blocks (R227). -/
def anchorOf (bs : List (Nat × Bytes)) : Nat := bs.foldl (fun a b => if b.1 = 0xFF then a else max a b.1) 0

/-- Values in row order converted to a tensor with nearest rounding (R273, R297). -/
def Tens.ofVals (f : Nat) (kdim : Bool) (rows cols : Nat) (xs : List Flt) : Tens :=
  let bs := (tensorBlocks f kdim rows cols (xs.map (fun x => (none, x)))).map (fun b => (b.1, b.2.1))
  ⟨f, kdim, rows, cols, anchorOf bs, bs⟩

/-- The rows of a tensor's block grid. -/
def gridRows (f : Nat) (kdim : Bool) (rows : Nat) : Nat := if kdim then rows / blockElems f else rows

/-- A tensor from its bytes (R223, R224). -/
def Tens.ofBytes (b : Bytes) : Tens :=
  let f := thFmt b
  let gc := gridCols f (thKdim b) (thCols b)
  ⟨f, thKdim b, thRows b, thCols b, thAnchor b,
    (List.range (gridRows f (thKdim b) (thRows b))).flatMap (fun x => (List.range gc).map (fun y =>
      (leAt b (scaleAddr b 0 x y) 1, slice b (dataAddr b 0 x y) (blockBytes f))))⟩

/-- The bytes that a tensor takes (R223, R224). -/
def tensSpan (b : Bytes) : Nat := thDataOff b + gridRows (thFmt b) (thKdim b) (thRows b) * thStride b

/-- A block of a tensor by its place in the grid, as the feed loads it (R228). -/
def Tens.load (t : Tens) (x y : Nat) : Blk × Loads :=
  let b := t.blocks.getD (x * gridCols t.fmt t.kdim t.cols + y) (0, [])
  loadBlock t.fmt t.anchor b.1 ((List.range (blockElems t.fmt)).map (elemCode t.fmt b.2)) (List.replicate (blockElems t.fmt) true)

/-- The contraction length of a tensor, and the number of its lanes (R225). -/
def Tens.depth (t : Tens) : Nat := if t.kdim then t.rows else t.cols
def Tens.lanes (t : Tens) : Nat := if t.kdim then t.cols else t.rows

/-- A lane of a tensor with what loading it counts. -/
def Tens.lane (t : Tens) (r : Nat) : List Blk × Loads :=
  let bs := (List.range (t.depth / blockElems t.fmt)).map (fun k => if t.kdim then t.load k r else t.load r k)
  (bs.map (·.1), (bs.map (·.2)).foldl Loads.add .none)

/-- An element of a tensor; one of a non-finite block is NaN (R221). -/
def Tens.elem (t : Tens) (row col : Nat) : Flt :=
  let p := blockPlace t.fmt t.kdim row col
  let b := t.blocks.getD (p.1 * gridCols t.fmt t.kdim t.cols + p.2.1) (0, [])
  if b.1 = 0xFF then .nan else if b.1 = 0 then .fin false 0 else .ofRat (elemVal t.fmt b.1 (elemCode t.fmt b.2 p.2.2))

/-! Activations. -/

/-- What a layer puts out: rows of examples, columns of features (R258), and the tensor where its format is a block format. -/
structure Act where
  rows : Nat
  cols : Nat
  tens : Option Tens
  vals : List Flt
  deriving DecidableEq, Repr

/-- The output that a tensor is. -/
def Act.ofTens (t : Tens) : Act :=
  ⟨t.rows, t.cols, some t, (List.range t.rows).flatMap (fun r => (List.range t.cols).map (t.elem r))⟩

/-- A layer's values converted to the OUT_FMT of its record. -/
def Act.conv (b : Bytes) (rows cols : Nat) (xs : List Flt) : Act :=
  if isBlock (wrFmt b) then .ofTens (.ofVals (wrFmt b) false rows cols xs)
  else ⟨rows, cols, none, xs.map (fun x => decScalar (wrFmt b) (convScalar (wrFmt b) true none x).1)⟩

/-- An output as an operand of a format: the tensor that it is, or its values converted. -/
def Act.operand (a : Act) (f : Nat) : Tens := (a.tens.filter (fun t => t.fmt == f)).getD (.ofVals f false a.rows a.cols a.vals)

/-- What a forward pass comes to: the outputs, the held-out input first; the Inf tiles drained; what loading blocks counted; and the cells of each Press tile with the steps that it took. -/
structure Pass where
  outs : List Act
  inf : Nat
  loads : Loads
  tiles : List (Nat × Nat)
  elems : Nat
  deriving DecidableEq, Repr

/-! The layer kinds. -/

/-- EMBED: the rows of the table that the input's elements name, gathered by index (R249, assumption 18). -/
def embed (s : State) (j : JobId) (l : WheelLayer) (w : List Flt) (a : Act) : Act :=
  let t := Tens.ofVals l.fmt l.kdim l.rows l.cols w
  .conv l.record a.rows (a.cols * l.cols) (a.vals.flatMap (fun i => (List.range l.cols).map (fun c =>
    (runStages s j l.record c (enterWrap (t.elem i.val.floor.toNat c))).1)))

/-- The cells of a DENSE layer's chains, in row order (R230 to R240, R258). -/
def denseCells (f : Nat) (alpha : Int) (as bs : List (List Blk)) : List Cell :=
  as.flatMap (fun a => bs.map (fun b => ⟨((a.zip b).foldl (promote f) (some 0, false)).1, alpha, f == 5, false, true⟩))

/-- The Press tiles of a DENSE layer: the cells of each and the steps of its one chain (R249). -/
def denseTiles (f m n depth : Nat) : List (Nat × Nat) :=
  (List.range ((m + 127) / 128)).flatMap (fun y => (List.range ((n + 127) / 128)).map (fun x =>
    (min 128 (m - 128 * y) * min 128 (n - 128 * x), depth / blockElems f * stepsPerBlock f)))

/-- DENSE and HEAD: the products of the input with the layer's weights in its Press format (R249, R258, R297). -/
def dense (s : State) (j : JobId) (l : WheelLayer) (w : List Flt) (a : Act) (q : Pass) : Pass :=
  let ta := a.operand l.fmt
  let tb := Tens.ofVals l.fmt l.kdim l.rows l.cols w
  let as := (List.range ta.lanes).map ta.lane
  let bs := (List.range tb.lanes).map tb.lane
  let cells := denseCells l.fmt (anchorPart ta.anchor + anchorPart tb.anchor) (as.map (·.1)) (bs.map (·.1))
  let out := cells.zipIdx.map (fun e => (runStages s j l.record (e.2 % tb.lanes) (enterWrap e.1.datum)).1)
  { outs := q.outs ++ [.conv l.record ta.lanes tb.lanes out]
    inf := q.inf + (cells.filter (fun e => e.v.isNone)).length
    loads := ((as ++ bs).map (·.2)).foldl Loads.add q.loads
    tiles := q.tiles ++ denseTiles l.fmt ta.lanes tb.lanes ta.depth
    elems := q.elems + out.length }

/-- RESIDUAL: the branch's output added to the FP32 residual stream with FADD (R249). -/
def residual (s : State) (j : JobId) (l : WheelLayer) (a b : Act) : Act :=
  .conv l.record a.rows a.cols ((a.vals.zip b.vals).zipIdx.map (fun e =>
    (runStages s j l.record (e.2 % a.cols) (enterWrap (dec32 (fadd32 (enc32 e.1.2) (enc32 e.1.1))))).1))

/-- SCALESHIFT: Wrap's scale and bias per channel, which are the layer's two rows of weights (R249). -/
def scaleShift (l : WheelLayer) (w : List Flt) (a : Act) : Act :=
  .conv l.record a.rows a.cols (a.vals.zipIdx.map (fun e =>
    let c := e.2 % a.cols
    (stagesOf l.record (w.getD c .nan) (some (w.getD (l.cols + c) .nan)) (enterWrap e.1)).1))

/-- One layer of the pass, with its weights. -/
def Pass.layer (s : State) (j : JobId) (q : Pass) (l : WheelLayer) (w : List Flt) : Pass :=
  let a := q.outs.getD l.input ⟨0, 0, none, []⟩
  let add := fun (o : Act) => { q with outs := q.outs ++ [o], elems := q.elems + o.vals.length }
  match l.kind with
  | 1 => add (embed s j l w a)
  | 3 => add (residual s j l a (q.outs.getD l.stream ⟨0, 0, none, []⟩))
  | 4 => add (scaleShift l w a)
  | _ => dense s j l w a q

/-- The layers of a model run in order, each with the next weights of the master (R258). -/
def runLayers (s : State) (j : JobId) : List WheelLayer → List Flt → Pass → Pass
  | [], _, q => q
  | l :: ls, w, q => runLayers s j ls (w.drop l.params) (q.layer s j l (w.take l.params))

/-! The held-out set. -/

/-- The offset of the labels, and that of the targets, behind the input tensor (R296, assumption 94). -/
def labelsAt (held : Bytes) : Nat := tensSpan held
def targetsAt (pol held : Bytes) : Nat := labelsAt held + 4 * polHeldN pol

/-- The label of an example (R296). -/
def labelOf (held : Bytes) (i : Nat) : Nat := leAt held (labelsAt held + 4 * i) 4

/-- The forward pass of a master over the held-out set (R258, R297). -/
def forward (s : State) (j : JobId) (held : Bytes) (master : NatMap Nat) : Pass :=
  let ls := Config.wheel j
  let w := (List.range ((ls.map (·.params)).sum)).map (fun i => dec32 (readD 0 master i))
  runLayers s j ls w ⟨[.ofTens (.ofBytes held)], 0, .none, [], 0⟩

/-! The measures. -/

/-- The index of a row's largest element, the lowest among equals; none where an element is non-finite (R286, R287, R298). -/
def rowBest (vs : List Flt) : Option Nat :=
  if vs.all (·.isFin) then (vs.zipIdx.foldl (fun b e => match b with
    | none => some e
    | some d => if d.1.lt e.1 then some e else some d) none).map (·.2)
  else none

/-- The HEAD row of an example. -/
def headRow (h : Act) (i : Nat) : List Flt := (h.vals.drop (i * h.cols)).take h.cols

/-- The examples whose HEAD row points at their label (R298). -/
def correctOf (pol held : Bytes) (h : Act) : Nat := ((List.range (polHeldN pol)).filter (fun i => rowBest (headRow h i) == some (labelOf held i))).length

/-- The mean squared error against the targets, its sum accumulated with FADD in the order of Config.faddRank (R298, assumption 93). -/
def lossOf (pol held : Bytes) (h : Act) : Nat :=
  let n := polHeldN pol * h.cols
  let sq := fun i =>
    let d := (h.vals.getD i .nan).add (decBf16 (leAt held (targetsAt pol held + 2 * i) 2)).neg
    enc32 (d.mul d)
  let order := (List.range n).mergeSort (fun a b => decide (Config.faddRank a ≤ Config.faddRank b))
  enc32 ((dec32 (order.foldl (fun a i => fadd32 a (sq i)) 0)).div (.ofRat n))

/-- What the gate measures of a master (R298): the correct examples, the non-finite HEAD outputs and the Inf tiles drained, and the loss. -/
structure Measure where
  correct : Nat
  nonfinite : Nat
  loss : Nat
  deriving DecidableEq, Repr

/-- The measures of a pass. -/
def measureOf (pol held : Bytes) (q : Pass) : Measure :=
  let h := q.outs.getLastD ⟨0, 0, none, []⟩
  ⟨correctOf pol held h, q.inf + (h.vals.filter (fun x => !x.isFin)).length, if polLoss pol then lossOf pol held h else 0⟩

/-- The conditions and counts of Press that a pass leaves in the job (R238, R261, R262). -/
def pressCounts (s : State) (j : JobId) (q : Pass) : State :=
  let s := count (count s PRS_JOB_FLUSH.COUNT j 0 q.loads.flushed) PRS_JOB_SPARE.COUNT j 0 q.loads.spare
  let s := count (count s PRS_JOB_NONFINITE.NONFINITE_IN j 0 q.loads.nonfinite) PRS_JOB_NONFINITE.INF_DRAINED j 0 q.inf
  let bits := flag (q.loads.flushed != 0) + 2 * flag (q.loads.spare != 0) + 4 * flag (q.loads.high != 0) + 8 * flag (q.loads.nonfinite != 0) +
    64 * flag (q.inf != 0)
  let s := if q.loads.high = 0 then s else ev s PRS_EVENT.ANCHOR_EV
  fset (if q.inf = 0 then s else ev s PRS_EVENT.NONFINITE_EV) PRS_JOB_COND.COND j 0 (fget s PRS_JOB_COND.COND j 0 ||| bits)

/-- The work of a forward pass counted: its MACs and their checks, the elements that Wrap wrote and those that Skim read (R262, R306, R576). -/
def passCounts (s : State) (j : JobId) (r : Nat) (q : Pass) : State :=
  let h := q.outs.getLastD ⟨0, 0, none, []⟩
  let n := h.vals.length
  let s := checkedChains (fedMacs (pressCounts s j q) j q.tiles.length ((q.tiles.map (·.2)).sum)) j r (q.tiles.map (·.1))
  let s := pmu (count (pmu s 0x34 (some j) q.elems) SKM_ELEM_CNT.COUNT 0 0 n) 0x35 (some j) ((4 * n + 63) / 64)
  if h.vals.all (·.isFin) then s else ev s SKM_EVENT.NONFINITE_EV

/-- A master evaluated over the held-out set (R298, R300). -/
def evaluate (s : State) (j : JobId) (r : Nat) (held : Bytes) (master : NatMap Nat) : Measure × State :=
  let q := forward s j held master
  (measureOf (s.job j).policy held q, passCounts s j r q)

end Sys2Proof.Machine
end

