-- ==== Sys2Proof/Machine/Finish.lean ====
section
/-! DEFINITION. Finish and the release gate: the privacy charge (R280), the release path (R281 to R284), the noise (R277 to R279), the staged release (R297, R304), the gate (R298 to R303), the release (R304), and the wait for peers (R195). -/

namespace Sys2Proof.Machine

/-! The privacy charge. -/

/-- A non-negative rational rounded up to binary64 (R280). -/
def up64 (q : ℚ) : Flt :=
  let st := f64.step q
  let r := ((q / st).ceil : ℚ) * st
  if f64.top < r then .inf false else .fin false r

/-- The charge of a round (R280): SENS2 / (2σ²), rounded upward. -/
def chargeOf (pol : Bytes) : Flt := up64 ((dec64 (polSens pol)).val * polSigDen pol / (2 * polSigNum pol))

/-- The charge spent with a further one, rounded upward (R280). -/
def spentWith (spent charge : Flt) : Flt := if spent.isFin && charge.isFin then up64 (spent.val + charge.val) else .inf false

/-! The release path. -/

/-- The source and scale stages of Finish (R267, R281, R282): non-finite for a marker, 0 for a granule without data. -/
def finishScale (pol plan : Bytes) (total n : Word) : Flt :=
  if total = g64Marker ∨ n = g64Marker then .nan
  else if n = 0 then .fin false 0
  else
    let den : Int := if polCountNorm pol then n.toInt else polNormDen pol
    q64 ((((q64 (.ofRat total.toInt)).mul (dec32 (polEta pol))).mul (dec32 (pClip plan))).div (Flt.ofRat ((pL plan : ℚ) * den)))

/-- A coordinate through Finish up to the noise stage (R281 to R283). -/
def finishCoord (pol plan : Bytes) (total n : Word) (m : Nat) (z : Int) : Flt :=
  let x := finishScale pol plan total n
  let x := if polMomentum pol then q64 (x.add ((dec32 (polBeta pol)).mul (dec32 m))) else x
  let x := if polClip pol % 2 ^ 31 = 0 then x else clipStage (dec32 (polClip pol)) x
  q64 (x.add (.ofRat (z * two (polNoiseExp pol))))

/-! Totals. -/

/-- The coordinates of the window that a round finishes (R178). -/
def windowIdx (s : State) (j : JobId) (x : Round) : List Nat := (List.range (windowEnd s j x - windowBase s j x)).map (· + windowBase s j x)

/-- The total and the granule count of every coordinate of the window (R171, R173). -/
def finishInputs (s : State) (j : JobId) (x : Round) : List (Word × Word) :=
  (windowIdx s j x).map (fun i => (jobWord s j (totalAddr s j x i), jobWord s j (countAddr s j x (i / pChunk x.plan))))

/-! The staged release. -/

/-- A layer of a block-format release: its bytes, its elements as binary32, and its counts. -/
def layerOut (f : Nat) (kdim : Bool) (rc : Nat × Nat) (xs : List (Option Nat × Flt)) : Bytes × List Nat × Nat × Nat :=
  let bs := tensorBlocks f kdim rc.1 rc.2 xs
  (tensorBytes f kdim rc.1 rc.2 bs, (List.range (rc.1 * rc.2)).map (tensorElem f kdim rc.2 bs), (bs.map (fun b => b.2.2.1)).sum, (bs.map (fun b => b.2.2.2)).sum)

/-- The layers of a block-format release, taken from the front of the coordinates (R304, assumption 18). -/
def layersOut (f : Nat) (kdim : Bool) : List (Nat × Nat) → List (Option Nat × Flt) → List (Bytes × List Nat × Nat × Nat)
  | [], _ => []
  | rc :: ls, xs => layerOut f kdim rc (xs.take (rc.1 * rc.2)) :: layersOut f kdim ls (xs.drop (rc.1 * rc.2))

/-- The extents of the layers that hold weights, in layer order (R304). -/
def weightLayers (j : JobId) : List (Nat × Nat) := ((Config.wheel j).filter (fun l => l.params != 0)).map (fun l => (l.rows, l.cols))

/-- The staged release of a job's values: its bytes by layer, its elements as binary32 codes, and its counts (R281, R297, R304). -/
def stage (j : JobId) (pol : Bytes) (key : Option Key256) (xs : List Flt) : List Bytes × List Nat × Nat × Nat :=
  let f := polFmt pol
  let ys := xs.zipIdx.map (fun e => (key.map (fun k => roundBits k e.2), e.1))
  if isBlock f then
    let ls := layersOut f (Config.releaseKdim j) (weightLayers j) ys
    (ls.map (·.1), ls.flatMap (fun l => l.2.1), (ls.map (fun l => l.2.2.1)).sum, (ls.map (fun l => l.2.2.2)).sum)
  else
    let cs := ys.map (fun y => convScalar f false y.1 y.2)
    ([List.flatten (cs.map (fun c => toLe (elemBytes f) c.1))], cs.map (fun c => enc32 (decScalar f c.1)), (cs.map (·.2.1)).sum, (cs.map (·.2.2)).sum)

/-- A list of codes as a table that lists no zero. -/
def codeMap (vs : List Nat) : NatMap Nat := (vs.zipIdx.filter (fun e => e.1 != 0)).map (fun e => (e.2, e.1))

/-! Finish. -/

/-- What Finish of a window reads: the totals, the counts and the momentum (R171, R173, R283). -/
def finishReads (s : State) (j : JobId) (x : Round) : List (Nat × Nat) :=
  let n := windowEnd s j x - windowBase s j x
  [((window s j).1, 8 * n), (countAddr s j x (windowBase s j x / pChunk x.plan), 8 * (n / pChunk x.plan))] ++
    (if polMomentum (s.job j).policy then [(hbmPlace j placeMomentum 0 0 + 4 * windowBase s j x, 4 * n)] else [])

/-- The totals and the counts of a window written to their places in the host buffer, where the descriptor names one (R196). -/
def exposeTotals (s : State) (j : JobId) (x : Round) (ins : List (Word × Word)) : State :=
  if fget s VAT_JOB_CTRL.EXPOSE_G64 j 0 = 1 ∧ ¬ s.conf j ∧ pG64Addr x.plan ≠ 0 then
    let c := pChunk x.plan
    let counts := (List.range (ins.length / c)).map (fun g => (ins.getD (g * c) (0, 0)).2)
    let put := fun s (a : Nat) (ws : List Word) => hostPut s (pG64Addr x.plan + a) (List.flatten (ws.map (fun w => toLe 8 w.toNat)))
    put (put s (8 * windowBase s j x) (ins.map (·.1))) (8 * pModel x.plan + 8 * (windowBase s j x / c)) counts
  else s

/-- The noise draws failed (R279): nothing is staged, the FIFO is not full, and the charge is not recorded. -/
def noiseFails (s : State) (j : JobId) (r before : Nat) : State :=
  withhold (ev { fset s WRP_JOB_RHO.RHO_SPENT j 0 before with noiseFifo := none } WRP_EVENT.ENTROPY_EV) j r 7 0 false

/-- The finished coordinates of a round converted and staged (R281, R283, R284). -/
def stageRound (s : State) (j : JobId) (r : Nat) (xs : List Flt) : State :=
  let pol := (s.job j).policy
  let (key, s) := if polStoch pol then let (k, t) := drawKey (served s 1); (some k, t) else (none, s)
  let out := stage j pol key xs
  let s := pmu (convCount s j out.2.2.1 out.2.2.2) 0x34 (some j) xs.length
  s.modRound j r (fun y => { y with
    stagedOut := out.1
    stagedVals := codeMap out.2.1
    stagedMom := if polMomentum pol then codeMap (xs.map (fun v => fadd32 0 (enc32 v))) else []
    nonfinite := out.2.2.1 })

/-- The next window begins (R178): the totals are zeroed, the cohorts are settled again, and the peers contribute again (assumption 60). -/
def nextWindow (s : State) (j : JobId) (r : Nat) : State :=
  let s := fset (fset (zeroWindow s j) VAT_JOB_PEER_WAIT.PEERS_DONE j 0 0) VAT_JOB_CTRL.ADD_OPEN j 0 1
  s.modRound j r (fun y => { y with
    cohorts := y.cohorts.map (fun c => (c.1, { c.2 with settled := false }))
    peers := []
    peerStart := some s.now })

/-- The coordinates of a window through the release path up to the noise, a sample of the FIFO each, in order (R278, R281 to R283); with the last window the whole is staged. -/
def finishWindow (s : State) (j : JobId) (r : Nat) (x : Round) (ins : List (Word × Word)) : State :=
  let J := s.job j
  let pol := J.policy
  let n := ins.length
  let z := fun i => Config.gauss (s.fresh + i) (polSigNum pol) (polSigDen pol)
  let xs := ins.zipIdx.map (fun e => finishCoord pol x.plan e.1.1 e.1.2 (readD 0 J.momentum (windowBase s j x + e.2)) (z e.2))
  let nodata := (ins.filter (fun e => e.2 == 0 && e.1 != g64Marker)).length
  let last := windowCount s j x.plan ≤ x.windowNo + 1
  let s := countSat { takeDraws s n with noiseFifo := some (polSigNum pol, polSigDen pol) } WRP_JOB_CONV.NODATA j 0 nodata
  let s := count s WRP_NOISE_CNT.COUNT 0 0 n
  let all := x.finished ++ xs.map enc64
  let s := s.modRound j r (fun y => { y with windowNo := x.windowNo + 1, finished := if last then [] else all })
  if last then stageRound s j r (all.map dec64) else nextWindow s j r

/-- Finish begins: the charge is recorded and the phase entered (R280). -/
def chargeRound (s : State) (j : JobId) (r : Nat) (after charge : Flt) : State :=
  let before := fget s WRP_JOB_RHO.RHO_SPENT j 0
  enterPhase ((fset s WRP_JOB_RHO.RHO_SPENT j 0 (enc64 after)).modRound j r (fun y => { y with charge := some (enc64 charge), rhoBefore := before })) j r 10

/-- Finish of the window at which a round stands: the add window closes and the release path runs (R192, R196, R279, R284). -/
def runFinish (s : State) (j : JobId) (r : Nat) : State :=
  match s.round? j r with
  | none => s
  | some x =>
    let s := fset s VAT_JOB_CTRL.ADD_OPEN j 0 0
    let ins := finishInputs s j x
    let s := exposeTotals s j x ins
    if entropyReady s then finishWindow s j r x ins else noiseFails s j r x.rhoBefore

/-- Finish of a round: before the first window its charge is checked and recorded (R280). -/
def finishRound (s : State) (j : JobId) (r : Nat) (x : Round) : State :=
  if x.charge.isSome then runFinish s j r
  else
    let pol := (s.job j).policy
    let charge := chargeOf pol
    let after := spentWith (dec64 (fget s WRP_JOB_RHO.RHO_SPENT j 0)) charge
    if (dec64 (polRho pol)).lt after then withhold (ev s WRP_EVENT.BUDGET_EV) j r 6 0 false
    else runFinish (chargeRound s j r after charge) j r

/-- Whether Wrap's release path takes work: enabled, with a live release lane and a live noise sampler (R305, R516). -/
def wrapOn (s : State) : Bool := on s WRP_CTRL.ENABLE && decide (0 < get1 s WRP_STATUS.SAMPLERS_LIVE ∧ 0 < liveUnits s 9)

/-- Whether every window of a round is finished and its release staged. -/
def staged (s : State) (j : JobId) (x : Round) : Bool := x.charge.isSome && decide (windowCount s j x.plan ≤ x.windowNo)

/-- Whether Finish, or its next window, may begin (R39, R193): every cohort settled and screened, or abandoned, and every peer done. -/
def finishDue (s : State) (j : JobId) (x : Round) : Bool :=
  x.screenDone && (liveCohorts x).all (fun c => (x.cohort c).settled || (x.cohort c).excluded) && !staged s j x && s.alive j &&
    fget s VAT_JOB_PEER_WAIT.PEERS_DONE j 0 == fget s VAT_JOB_CTRL.PEERS_EXPECTED j 0 && wrapOn s && !entropyStarting s

/-- Finish, unless its sources are poisoned (R572) or every cohort has been abandoned since (R39). -/
def finishOrPoison (s : State) (j : JobId) (r : Nat) (x : Round) : State :=
  if liveCohorts x = [] then withhold s j r 4 0 false else unlessPoison s j 9 (finishReads s j x) (finishRound s j r x)

/-- FINISH_BEGIN (R280): Finish, or its next window, is about to begin. -/
def execFinishBegin (j : JobId) (r : RoundNo) (s : State) : Res :=
  .next (match s.round? j r with
    | none => s
    | some x => if finishDue s j x then finishOrPoison s j r x else s)

/-- FINISH (R385): the release path of window IMM of the round that the invocation serves. A window that is finished or that the model has not is malformed (assumption 95). -/
def execFinish (x : CtxId) (s : State) : Res :=
  .next (instr s x 0x61 (fun c =>
    match servedRound s c with
    | none => faultAt s x c .operandMalformed
    | some y =>
      if c.imm < y.windowNo ∨ windowCount s c.job y.plan ≤ c.imm then faultAt s x c .operandMalformed
      else if c.imm = y.windowNo ∧ finishDue s c.job y then finishOrPoison (issueOp s x 0 0) c.job y.number y
      else s))

/-! The candidate. -/

/-- The candidate master: the base plus the staged release (R297). -/
def candidateOf (J : Job) (x : Round) : NatMap Nat :=
  codeMap ((List.range (pModel x.plan)).map (fun i => fadd32 (readD 0 J.base i) (readD 0 x.stagedVals i)))

/-- The candidate formed for a round. -/
def formCandidate (s : State) (j : JobId) (r : Nat) : State :=
  let J := s.job j
  s.modRound j r (fun x => { x with candidate := candidateOf J x })

/-- MASTER (R297, R385): the candidate master is formed. -/
def execMaster (x : CtxId) (s : State) : Res :=
  .next (instr s x 0x62 (fun c =>
    match servedRound s c with
    | none => faultAt s x c .operandMalformed
    | some y => if ¬ staged s c.job y ∨ ¬ on s WRP_CTRL.ENABLE then s else issueOp (formCandidate s c.job y.number) x 0 0))

/-- The non-finite elements of a candidate. -/
def badElems (m : NatMap Nat) : Nat := (m.filter (fun e => !(dec32 e.2).isFin)).length

/-! The gate. -/

/-- The decision of R299: none accepts, otherwise the status and the reason. -/
def verdictOf (pol : Bytes) (nonfinite correct base : Nat) (loss : Nat) : Option (Nat × Nat) :=
  if 0 < nonfinite then some (3, 0)
  else if ¬ polGate pol then none
  else if correct < polAccMin pol then some (2, 1)
  else if correct + polMaxDrop pol < base then some (2, 2)
  else if polLoss pol ∧ (dec32 (polLossMax pol)).below (dec32 loss) then some (2, 3)
  else none

/-- The candidate accepted: it becomes the base (R300). -/
def acceptCandidate (s : State) (j : JobId) (r : Nat) (overridden : Bool) : State :=
  match s.round? j r with
  | none => s
  | some x =>
    let s := s.modJob j (fun J => { J with base := x.candidate, baseCorrect := some x.candidateCorrect })
    let s := fset s WRP_JOB_METRICS.BASE_CORRECT j 0 x.candidateCorrect
    s.modRound j r (fun y => { y with accepted := true, overridden := overridden, holdEnd := none })

/-- A refused candidate: held where the policy allows it, otherwise the round ends (R299, R302). -/
def refuseCandidate (s : State) (j : JobId) (r status reason : Nat) : State :=
  let pol := (s.job j).policy
  let s := ev s WRP_EVENT.REJECT_EV
  if status = 2 ∧ polOverride pol ∧ ¬ s.conf j then
    let e := s.now + polHoldS pol * 10 ^ 9
    let s := logJob (ev (showGate s j r status reason true true) WRP_EVENT.HOLD_EV) j 0x30 r e reason
    s.modRound j r (fun y => { y with holdEnd := some e })
  else withhold s j r status reason true

/-- The metrics shown (R298, R300, R305). -/
def showMetrics (s : State) (j : JobId) (pol : Bytes) (correct base loss : Nat) : State :=
  let s := fset (fset s WRP_JOB_METRICS.CORRECT j 0 correct) WRP_JOB_METRICS.BASE_CORRECT j 0 base
  if polLoss pol then fset s WRP_JOB_LOSS.LOSS j 0 loss else s

/-- The base model evaluated before the job's first Gate (R300). -/
def baseMeasured (s : State) (j : JobId) (r : Nat) (held : Bytes) : State :=
  if (s.job j).baseCorrect.isSome then s
  else
    let (m, s) := evaluate s j r held (s.job j).base
    s.modJob j (fun J => { J with baseCorrect := some m.correct })

/-- The gate of a round over the held-out set (R298 to R302). -/
def gateRound (s : State) (j : JobId) (r : Nat) (held : Bytes) : State :=
  let pol := (s.job j).policy
  let s := baseMeasured (formCandidate (enterPhase s j r 11) j r) j r held
  match s.round? j r with
  | none => s
  | some x =>
    let base := (s.job j).baseCorrect.getD 0
    let (m, s) := evaluate s j r held x.candidate
    let s := showMetrics s j pol m.correct base m.loss
    let verdict := verdictOf pol (x.nonfinite + badElems x.candidate + m.nonfinite) m.correct base m.loss
    let s := s.modRound j r (fun y => { y with candidateCorrect := m.correct, gate := some ((verdict.map (·.1)).getD 0) })
    match verdict with
    | none => showGate (acceptCandidate s j r false) j r 0 0 false true
    | some (st, why) => refuseCandidate s j r st why

/-- Whether a check group of a job is pending (R582, R583). -/
def checksPending (s : State) (j : JobId) : Bool := s.groups.any (fun g => g.job == j && !g.chains.isEmpty)

/-- Whether the held-out pass has what it needs (R262, R305, R306, R516, R583). -/
def gateMay (s : State) (j : JobId) : Bool :=
  on s PRS_CTRL.ENABLE && on s WRP_CTRL.ENABLE && on s SKM_CTRL.ENABLE && !(liveArrays s).isEmpty && !checksPending s j

/-- What the held-out pass reads of the job's HBM: the held-out set, the staged release and the master weights (R296, R297, R510). -/
def gateReads (s : State) (j : JobId) (x : Round) : List (Nat × Nat) :=
  [(hbmPlace j placeHeld 0 0, ((s.job j).held.map List.length).getD 0), (hbmPlace j placeStaging x.number 0, pReleaseLen x.plan),
    (hbmPlace j placeMaster 0 0, 4 * pModel x.plan)]

/-- GATE_DECISION (R299): the held-out evaluation of the candidate completes. -/
def execGateDecision (j : JobId) (r : RoundNo) (s : State) : Res :=
  .next (match s.round? j r with
    | none => s
    | some x =>
      if ¬ staged s j x ∨ x.gate.isSome ∨ ¬ s.alive j ∨ ¬ gateMay s j then s
      else
        match (s.job j).heldOk, (s.job j).held with
        | true, some held => unlessPoison s j 5 (gateReads s j x) (gateRound s j r held)
        | _, _ => withhold (enterPhase s j r 11) j r 8 0 false)

/-- A write of WRP_JOB_OVERRIDE (R302, R303): the held round's number, before the hold expires, in an open job. -/
def writeOverride (s : State) (v : Nat) : State :=
  let j : JobId := Fin.ofNat 16 (get1 s WRP_JOB_SEL.JOB)
  match s.round? j v with
  | none => s
  | some x =>
    match x.holdEnd with
    | none => s
    | some e =>
      if s.conf j ∨ ¬ s.alive j ∨ e ≤ s.now then s
      else showGate (acceptCandidate s j v true) j v 1 0 false true

/-- GATE_OVERRIDE (R302): a write of WRP_JOB_OVERRIDE. -/
def execGateOverride (v : BitVec 32) (s : State) : Res := .next (writeOverride s v.toNat)

/-- GATE_HOLD_EXPIRY (R302): the hold ends with GATE_REJECTED. -/
def execGateHoldExpiry (j : JobId) (r : RoundNo) (s : State) : Res :=
  .next (match s.round? j r with
    | none => s
    | some x =>
      match x.holdEnd with
      | none => s
      | some e =>
        if s.now < e ∨ ¬ s.alive j then s
        else withhold s j r 2 (fget s WRP_JOB_GATE.REASON j 0) true)

/-! Release. -/

/-- The new momentum of a released round (R283). -/
def takeMomentum (s : State) (j : JobId) (x : Round) : State :=
  if polMomentum (s.job j).policy then s.modJob j (fun J => { J with momentum := x.stagedMom }) else s

/-- The release written to its buffer, in the Release phase. -/
def writeRelease (s : State) (j : JobId) (r : Nat) (x : Round) : State :=
  hostPut (enterPhase s j r 12) (pReleaseAddr x.plan) (List.flatten x.stagedOut)

/-- The status of a release: ACCEPTED, or OVERRIDDEN (R304). -/
def releaseStatus (x : Round) : Nat := if x.overridden then 1 else 0

/-- A released round: the buffer written, its digest, the new momentum, and the round end (R283, R304). -/
def releaseRound (s : State) (j : JobId) (r : Nat) (x : Round) : State :=
  endRound (showGate (takeMomentum (writeRelease s j r x) j x) j r (releaseStatus x) 0 false true) j r 4 (releaseStatus x)
    (List.flatten x.stagedOut).length (digestBytes (sha384 (List.flatten x.stagedOut)))

/-- RELEASE_POST (R304, R583): the accepted candidate's release, once every check that covers it has passed. -/
def execReleasePost (j : JobId) (r : RoundNo) (s : State) : Res :=
  .next (match s.round? j r with
    | none => s
    | some x =>
      if ¬ x.accepted ∨ ¬ s.alive j ∨ checksPending s j then s
      else unlessPoison s j 0 [(hbmPlace j placeStaging r 0, pReleaseLen x.plan)] (releaseRound s j r x))

/-- PEER_WAIT_EXPIRY (R195): the peers have not all reported within WAIT_MS. -/
def execPeerWaitExpiry (j : JobId) (r : RoundNo) (s : State) : Res :=
  .next (match s.round? j r with
    | none => s
    | some x =>
      match x.peerStart with
      | none => s
      | some t =>
        if s.now < t + fget s VAT_JOB_PEER_WAIT.WAIT_MS j 0 * 10 ^ 6 ∨ staged s j x ∨ ¬ s.alive j ∨
            fget s VAT_JOB_PEER_WAIT.PEERS_DONE j 0 = fget s VAT_JOB_CTRL.PEERS_EXPECTED j 0 then s
        else
          let s := ev (fset s VAT_JOB_CTRL.ADD_OPEN j 0 0) VAT_EVENT.PEER_EV
          let s := logJob (fset (fset s VAT_JOB_LAST.COHORT j 0 0) VAT_JOB_LAST.STATUS j 0 3) j 0x11 r 0 3
          endRound s j r 3 3 0 [])

end Sys2Proof.Machine
end

