-- ==== Sys2Proof/Machine/VatOps.lean ====
section
/-! DEFINITION. The instructions of the Vat's sequencer on a job's vectors (R382, R383), and those of Culture's and Toll's sequencers (R384). -/

namespace Sys2Proof.Machine

/-! Vector operations. -/

/-- The element bytes of an operation code of VOP; 0 for a code that is not of the table. -/
def vopSize (code : Nat) : Nat := [0, 2, 4, 4, 8, 8, 8, 4, 4, 4, 8, 8, 4, 4].getD code 0

/-- The operation on an element before and its operand, of the codes that store a function of the two (R183). -/
def vopEval (code a b : Nat) : Nat :=
  match code with
  | 0x1 => ringAdd 16 a b
  | 0x2 => ringAdd 24 a b
  | 0x3 => ringAdd 32 a b
  | 0x6 => (a + b) % 2 ^ 64
  | 0x7 => fadd32 a b
  | 0x8 => maxMinEval .maxS32 a b
  | 0x9 => maxMinEval .minS32 a b
  | 0xA => maxMinEval .maxS64 a b
  | 0xB => maxMinEval .minS64 a b
  | 0xC => maxMinEval .maxF32 a b
  | _ => maxMinEval .minF32 a b

/-- The G64 adds of a vector, or of its negation (R180, R181). -/
def vopG64 (s : State) (j : JobId) (a : Nat) (neg : Bool) (src : Bytes) : State :=
  (elemsOf 8 src).zipIdx.foldl (fun t e =>
    let v := BitVec.ofNat 64 e.1
    gaddJob t j (a + 8 * e.2) (if neg then g64Neg v else v)) s

/-- A near-memory operation applied to the elements of one line (R382). -/
def vopLine (s : State) (j : JobId) (code dst : Nat) (src : Bytes) : State :=
  if code = 4 ∨ code = 5 then vopG64 s j dst (code == 5) src
  else jobWrite s j dst (mapElems (vopSize code) (vopEval code) (jobRead s j dst src.length) src)

/-- A near-memory operation over a vector: an operation on each line, and none on a line that is poisoned or whose operands are (R155, R186, R382). -/
def runVop (s : State) (j : JobId) (code dst src n : Nat) : State :=
  let lines := ((List.range ((n + 63) / 64)).map (fun i => 64 * i)).filter (fun o => !(poisoned s j (dst + o) 64 || poisoned s j (src + o) 64))
  (lines.map (fun o => (dst + o, jobRead s j (src + o) (min 64 (n - o))))).foldl (fun t e => vopLine t j code e.1 e.2) s

/-- VOP (R186, R382, R383): the near-memory operation of MOD[3:0] on each element of P(DST), with P(SA) as operands; the clean lines are performed, and a poisoned one is consumed. -/
def execVop (x : CtxId) (s : State) : Res :=
  .next (instr s x 0x30 (fun c =>
    let code := c.mod % 16
    let n := c.sb
    if vopSize code = 0 then faultAt s x c .badEncoding
    else
      guarded s x c (c.dst % 64 == 0 && c.sa % 64 == 0 && n % (if code ≤ 3 then 32 else 64) == 0) [(c.dst, n), (c.sa, n)]
        (let t := bankWork (runVop s c.job code c.dst c.sa n) c.job c.dst n (bankOps n)
         match firstPoison s c.job [(c.dst, n), (c.sa, n)] with
         | some a => consumeAt t c.job 4 a
         | none => issueOp t x 0 0)))

/-- VCAS (R382): the compare-and-swap of R183 at P(SA); P(DST) receives the previous value. -/
def execVcas (x : CtxId) (s : State) : Res :=
  .next (instr s x 0x31 (fun c =>
    guarded s x c (c.sa % 8 == 0) [(c.sa, 8)]
      (unlessPoison s c.job 4 [(c.sa, 8)]
        (let old := jobWord s c.job c.sa
         let s := jobSetWord s c.job c.sa (if old = c.reg (iSb c.word) then BitVec.ofNat 64 (c.ext 1) else old)
         issueOp ((bankWork s c.job c.sa 8 1).modCtx x (fun c => c.setReg (iDst c.word) old)) x 0 0))))

/-- VFILL (R382, R383): the 4 bytes of IMM repeated over P(SB) bytes from P(DST). -/
def execVfill (x : CtxId) (s : State) : Res :=
  .next (instr s x 0x32 (fun c =>
    let n := c.sb
    guarded s x c (c.dst % 64 == 0 && n % 64 == 0) [(c.dst, n)]
      (issueOp (bankWork (jobStore s c.job c.dst (List.flatten (List.replicate (n / 4) (toLe 4 c.imm)))) c.job c.dst n (bankOps n)) x 0 0)))

/-- The lines of a copy: the bytes of every line, or poison (R383). -/
def copyLines (s : State) (j : JobId) (dst : Nat) (lines : List (Bool × Bytes)) : State :=
  lines.zipIdx.foldl (fun t e =>
    let t := jobStore t j (dst + 64 * e.2) e.1.2
    if e.1.1 then poisonLine t j (dst + 64 * e.2) else t) s

/-- VCOPY (R383): whole lines copied, their poison too; the copy consumes none of it (R571). -/
def execVcopy (x : CtxId) (s : State) : Res :=
  .next (instr s x 0x33 (fun c =>
    let n := c.sb
    guarded s x c (c.dst % 64 == 0 && c.sa % 64 == 0 && n % 64 == 0) [(c.dst, n), (c.sa, n)]
      (let ls := (List.range (n / 64)).map (fun i => (poisoned s c.job (c.sa + 64 * i) 64, jobRead s c.job (c.sa + 64 * i) 64))
       issueOp (bankWork (bankWork (copyLines s c.job c.dst ls) c.job c.sa n (bankOps n)) c.job c.dst n (bankOps n)) x 0 0)))

/-! Culture's instructions. -/

/-- The ring of MASKSUB's MOD[1:0]. -/
def maskRing (m : Nat) : Option Ring :=
  match m % 4 with
  | 0 => some .z16
  | 1 => some .z24
  | 2 => some .z32
  | _ => none

/-- The coordinates of a slice of n outside the void chunks of a bitmap (R140). -/
def unvoided (bitmap : Bytes) (chunk n : Nat) : List Nat :=
  (List.range n).filter (fun i => !bit (leAt bitmap (i / chunk / 8) 1) (i / chunk % 8))

/-- The stream of a key applied to an accumulator in memory at listed coordinates (R127, R140). -/
def applyStream (s : State) (j : JobId) (ring : Ring) (key : Key256) (adds : Bool) (a : Nat) (is : List Nat) : State :=
  is.foldl (fun t i =>
    let e := maskElem ring key (maskNonce ring) i
    let old := leNat (jobRead t j (a + ring.slot * i) ring.slot)
    jobWrite t j (a + ring.slot * i) (toLe ring.slot (ringAdd ring.bits old (if adds then e else ringNeg ring.bits e)))) s

/-- MASKSUB (R140, R384): the mask key of handle IMM applied to the accumulator at P(DST). -/
def execMaskSub (x : CtxId) (s : State) : Res :=
  .next (instr s x 0x40 (fun c =>
    match maskRing c.mod, lookup s.handles c.imm, servedRound s c with
    | none, _, _ => faultAt s x c .badEncoding
    | some ring, some key, some y =>
      let n := c.sb
      let bits := ((n + pChunk y.plan - 1) / pChunk y.plan + 7) / 8
      if ¬ cultureOn s then s
      else guarded s x c (key.length == 32) [(c.dst, n * ring.slot), (c.sa, bits)]
        (unlessPoison s c.job 3 [(c.dst, n * ring.slot), (c.sa, bits)]
          (let is := unvoided (jobRead s c.job c.sa bits) (pChunk y.plan) n
           let s := applyStream s c.job ring (keyOf key) (bit c.mod 2) c.dst is
           let s := cultureCounts s c.job (((is.map (· / perBlock ring)).dedup).length) is.length
           issueOp (bankWork s c.job c.dst (is.length * ring.slot) (bankOps (is.length * ring.slot))) x 0 0))
    | _, _, _ => faultAt s x c .operandMalformed))

/-- The place of Rind's key stream among the key memories: beyond every handle. -/
def rindStream : Nat := 2 ^ 32

/-- EXPAND (R317, R384): the seed of handle IMM, KIND and DIGIT become Rind's key stream; how much of it Rind takes is its own affair (assumption 5). -/
def execExpand (x : CtxId) (s : State) : Res :=
  .next (instr s x 0x41 (fun c =>
    match lookup s.handles c.imm with
    | none => faultAt s x c .operandMalformed
    | some seed =>
      if ¬ cultureOn s then s
      else
        let (v, s) := freeValue s
        let blocks := v.toNat % 2 ^ 32
        let s := { s with handles := putN s.handles rindStream (seed ++ toLe 1 c.mod) }
        issueOp (pmu (count s CUL_BYTES.COUNT 0 0 (64 * blocks)) 0x11 (some c.job) blocks) x 0 0))

/-! Toll's instructions. -/

/-- A handle of a key memory written. -/
def setHandle (s : State) (h : Nat) (v : Bytes) : State := { s with handles := putN s.handles h v }

/-- A scalar multiplication of a job's work counted. -/
def countSmul (s : State) (j : JobId) : State := pmu (count s TOL_SMUL_CNT.COUNT 0 0 1) 0x10 (some j) 1

/-- The x coordinate of an agreement; a value that the spec leaves open where the point is not on the curve (assumption 5). -/
def agreed (s : State) (d : Nat) (pt : Bytes) : Bytes × State :=
  match decodePt pt with
  | some p => (ecdhX d p, s)
  | none =>
    let (v, s) := freeValue s
    (toBe 48 v.toNat, s)

/-- ECDH (R384): the private handle IMM[15:0] and the point at P(SA) agree; the result goes into handle IMM[31:16]. -/
def execEcdh (x : CtxId) (s : State) : Res :=
  .next (instr s x 0x50 (fun c =>
    match lookup s.handles (c.imm % 2 ^ 16) with
    | none => faultAt s x c .operandMalformed
    | some d =>
      if ¬ tollOn s then s
      else guarded s x c true [(c.sa, 97)] (unlessPoison s c.job 2 [(c.sa, 97)]
        (let (z, s) := agreed s (beNat d) (jobRead s c.job c.sa 97)
         issueOp (countSmul (setHandle s (c.imm / 2 ^ 16) z) c.job) x 0 0))))

/-- A derivation of R56 or R114: its info string and the bytes of its salt. -/
def derivation (n : Nat) : Bytes × Nat :=
  [(ascii "BR1 JLP3 C2M", 12), (ascii "BR1 JLP3 M2C", 12), (ascii "BR1 JLP2 C2M", 12), (ascii "BR1 JLP2 M2C", 12),
    (ascii "BR1 MASK PAIR", 16), (ascii "BR1 BUNDLE", 16), (ascii "BR1 MASK SELF", 12)].getD n ([], 0)

/-- HKDF (R56, R114, R384): the derivation of the info code from the input handle and the salt at P(SA); which code names which is the firmware's (assumption 1). -/
def execHkdf (x : CtxId) (s : State) : Res :=
  .next (instr s x 0x51 (fun c =>
    let (info, n) := derivation ((Config.infoCode (c.mod % 16)).val)
    match lookup s.handles (c.imm % 2 ^ 16) with
    | none => faultAt s x c .operandMalformed
    | some z =>
      if ¬ tollOn s then s
      else guarded s x c true [(c.sa, n)] (unlessPoison s c.job 2 [(c.sa, n)]
        (let k := hkdfExpand (hkdfExtract (jobRead s c.job c.sa n) z) info 32
         issueOp (count (setHandle s (c.imm / 2 ^ 16) k) TOL_HKDF_CNT.COUNT 0 0 1) x 0 0))))

/-- The address of a secret's share list, as a 64-bit pointer names it. -/
def shareListAt (j : JobId) (r u : Nat) : Nat := hbmPlace j placeList r u % 2 ^ 64

/-- The secret whose share list is at an address: its round, its cohort's number and the secret. -/
def secretAt (s : State) (j : JobId) (a : Nat) : Option (Round × Nat × Secret) :=
  ((s.job j).rounds.flatMap (fun y => y.cohorts.flatMap (fun k => k.2.secrets.map (fun e => (y, k.1, e))))).find?
    (fun e => shareListAt j e.1.number e.2.2.about == a)

/-- RECON (R138, R384): the secret whose share list is at P(SA) is reconstructed once enough shares are held. -/
def execRecon (x : CtxId) (s : State) : Res :=
  .next (instr s x 0x52 (fun c =>
    match secretAt s c.job c.sa with
    | none => faultAt s x c .operandMalformed
    | some (y, k, e) =>
      if e.done then issueOp s x 0 0
      else if ¬ tollOn s ∨ ¬ secretDue s y e ∨ (y.cohort k).reason ≠ 0 ∨ ¬ begun y 7 then s
      else issueOp (reconstruct s c.job y.number k y e) x 0 0))

/-- SIGN (R384, R536): an ECDSA signature with key slot IMM over the digest at P(SA), to P(DST). -/
def execSign (x : CtxId) (s : State) : Res :=
  .next (instr s x 0x53 (fun c =>
    if ¬ tollOn s then s
    else guarded s x c true [(c.sa, 48), (c.dst, 96)] (unlessPoison s c.job 2 [(c.sa, 48)]
      (let (st, s) := takeSlot s c.imm c.job 2 2
       if st = .ok then
         let sig := ecdsaSign (slotNumber s c.imm) (BitVec.ofNat 384 (beNat (jobRead s c.job c.sa 48)))
         issueOp (countSmul (jobStore s c.job c.dst sig) c.job) x 0 0
       else issueOp s x 6 st.code))))

/-- KEYGEN (R384): a fresh key pair into handle IMM, its point to P(DST); a draw waits in STARTUP and fails in FAILED (R551). -/
def execKeyGen (x : CtxId) (s : State) : Res :=
  .next (instr s x 0x54 (fun c =>
    if ¬ tollOn s ∨ entropyStarting s then s
    else guarded s x c true [(c.dst, 97)]
      (if ¬ entropyReady s then issueOp s x 6 entropyFailed
       else
         let (d, s) := drawScalar (served s 1)
         issueOp (countSmul (jobStore (setHandle s c.imm (toBe 48 d)) c.job c.dst (publicOf d)) c.job) x 0 0)))

end Sys2Proof.Machine
end

