-- ==== Sys2Proof/Machine/RindOps.lean ====
section
/-! DEFINITION. The instructions of Rind's sequencer (R326 to R333, R338 to R340, R346, R349, R350, R387, R388). -/

namespace Sys2Proof.Machine

/-- The layout that a header gives is sound for n coefficients and ℓ levels (R325). -/
def layoutOk (h : Bytes) (n l : Nat) : Bool :=
  chDataOff h % 64 == 0 && chLimb h % 64 == 0 && decide (8 * n ≤ chLimb h) && chPoly h % 64 == 0 && decide (l * chLimb h ≤ chPoly h)

/-- The data of a ciphertext in memory as a range, for n coefficients and ℓ levels. -/
def ctData (s : State) (j : JobId) (a n l : Nat) : Nat × Nat :=
  let h := ctHead s j a
  (a + chDataOff h, chPoly h + (l - 1) * chLimb h + 8 * n)

/-- A source operand: its handle, its catalogue set and the ciphertext; none where its header names no set or no level of it. -/
def srcRanges (s : State) (j : JobId) (a : Nat) : List (Nat × Nat) :=
  match psetOf (chSet (ctHead s j a)) with
  | some x => [(a, 64), ctData s j a x.n (chLevel (ctHead s j a))]
  | none => [(a, 64)]

/-- What one run of an operation counts: lane operations, those of a MODSW, whose number no rule gives, or a batch of key switches with an entry. -/
inductive RindCounts where
  | lanes (n : Nat)
  | lanesFree
  | switches (y : PSet) (entry : Bytes) (level n : Nat)
  deriving DecidableEq, Repr

/-- What an operation of Rind does with its sources: the statuses of R352, or the ciphertexts for its destinations in order, whether it transforms, and what one run of it counts. -/
abbrev RindWork := Except RindStat (List Ct × Bool × RindCounts)

/-- Every destination of an operation poisoned (R328, R339). -/
def poisonAll (s : State) (j : JobId) (ds : List Nat) : State := ds.foldl (fun t d => poisonHandle t j d) s

/-- One run of an operation counted (R353). -/
def countRun (j : JobId) (f : RindCounts) (s : State) : State :=
  match f with
  | .lanes n => laneOps s j n
  | .lanesFree => laneOpsFree s j
  | .switches y e l n => kswCounts s j y e l n

/-- The work of an operation counted: once more where a failed residue check has it run again (R330). -/
def rindCounts (s : State) (j : JobId) (f : RindCounts) (bad : Nat) : State :=
  if bad = 0 then countRun j f s else countRun j f (countRun j f s)

/-- An operation's end with a status other than OK: recorded as a host operation's, and completed in Rind's space (R352, R353). -/
def rindEnds (s : State) (x : CtxId) (j : JobId) (cls : Nat) (st : RindStat) : State := issueOp (rindStatus s j cls st) x 5 st.code

/-- An operation's results written, or the status that it ends with (R328, R330, R332, R333): a refusal for the sources' parameters writes nothing, every other one poisons the destinations. -/
def rindFinish (s : State) (x : CtxId) (j : JobId) (ds : List Nat) (bad : Nat) (w : RindWork) : State :=
  match w with
  | .error .paramMismatch => rindEnds s x j 1 .paramMismatch
  | .error st => rindEnds (poisonAll s j ds) x j 1 st
  | .ok (cs, ntt, f) =>
    if cs.any (fun c => decide (c.budget < 0)) then rindEnds (poisonAll s j ds) x j 1 .budgetExhausted
    else
      let s := residueRuns (rindCounts s j f bad) ntt bad
      if bad = 2 then rindEnds (poisonAll s j ds) x j 1 .residueFail
      else issueOp ((ds.zip cs).foldl (fun t e => storeCt t j e.1 e.2) s) x 0 0

/-! Locks on handles (R327). -/

/-- Whether an operation that names handles must wait: one of them is locked, or an operation that arrived before it waits for one of them. -/
def lockBlocked (s : State) (x : CtxId) (j : JobId) (hs : List Nat) : Bool :=
  s.locks.any (fun l => l.job == j && hs.contains l.addr) ||
    (s.lockWait.takeWhile (fun w => w.ctx != ctxNo x)).any (fun w => w.job == j && w.addrs.any hs.contains)

/-- An operation in its place among those that wait. -/
def awaitLocks (s : State) (x : CtxId) (j : JobId) (hs : List Nat) : State :=
  if s.lockWait.any (fun w => w.ctx == ctxNo x) then s else { s with lockWait := s.lockWait ++ [⟨j, ctxNo x, hs⟩] }

/-- An operation that starts: it waits no longer, and its handles are locked until it completes. -/
def takeLocks (s : State) (x : CtxId) (j : JobId) (hs : List Nat) : State :=
  { s with
    lockWait := s.lockWait.filter (fun w => w.ctx != ctxNo x)
    locks := hs.dedup.map (fun a => ⟨j, a, ctxNo x, s.opCount⟩) ++ s.locks }

/-- An operation on handles starts, or waits for them. -/
def withLocks (x : CtxId) (j : JobId) (hs : List Nat) (go : State → State) (s : State) : State :=
  if lockBlocked s x j hs then awaitLocks s x j hs else go (takeLocks s x j hs)

/-- The sources of an operation as ciphertexts; those whose header names no set or level, or with one polynomial only, do not match (R333). -/
def loadAll (s : State) (j : JobId) (as : List Nat) : Option (List (PSet × Ct)) :=
  as.foldr (fun a acc => match loadCt s j a, acc with
    | some c, some l => if chC1Only (ctHead s j a) then none else some (c :: l)
    | _, _ => none) (some [])

/-- The work of an operation on its sources (R328, R333): a poisoned one, or one that is no ciphertext of two polynomials, ends it. -/
def onSources (s : State) (j : JobId) (srcs : List Nat) (work : List (PSet × Ct) → RindWork) : RindWork :=
  if srcs.any (fun a => chPoison (ctHead s j a)) then .error .poisonedSource
  else match loadAll s j srcs with
    | none => .error .paramMismatch
    | some cs => work cs

/-- An operation of Rind on handles: it waits for ENABLE and for locked handles (R327, R353), is refused where a host's names a round sum (R326), checks its operands and their reach, and ends as its work says. The destinations must be laid out for `lev`, the level of the result from the sources' level. -/
def rindOp (s : State) (x : CtxId) (c : Ctx) (srcs dsts : List Nat) (extra : List (Nat × Nat)) (ok : Bool) (lev : Nat → Nat) (bad : Nat)
    (work : List (PSet × Ct) → RindWork) : State :=
  let j := c.job
  if ¬ rindOn s then s
  else if c.fromHost.isSome ∧ (srcs ++ dsts).any (fun a => inReach s j a 64 && roundOwned s j a) then rindEnds s x j 1 .roundOwned
  else if ¬ (srcs ++ dsts).all (fun a => inReach s j a 64) then faultAt s x c .outOfBounds
  else
    let head := ctHead s j (srcs.headD 0)
    let size := ((psetOf (chSet head)).map (·.n)).getD 0
    let l := lev (chLevel head)
    guarded s x c (ok && dsts.all (fun d => layoutOk (ctHead s j d) size l)) (extra ++ srcs.flatMap (srcRanges s j) ++ dsts.flatMap (fun d => [(d, 64), ctData s j d size l]))
      (withLocks x j (srcs ++ dsts) (fun t =>
        unlessPoison t j 6 (extra ++ srcs.flatMap (srcRanges t j)) (rindFinish t x j dsts bad (onSources t j srcs work))) s)

/-- Whether two sources agree (R333). -/
def sameForm (a b : Ct) : Bool := a.set == b.set && a.level == b.level && a.ring == b.ring && a.keyId == b.keyId

/-- CT_ADD and CT_SUB (R332, R333). -/
def ctPair (sub : Bool) (cs : List (PSet × Ct)) : RindWork :=
  match cs with
  | [(y, a), (_, b)] =>
    if ¬ sameForm a b then .error .paramMismatch
    else
      let f := fun (p : List (List Nat)) (q : List (List Nat)) =>
        List.zipWith (fun g (ab : List Nat × List Nat) => if sub then polySub g ab.1 ab.2 else polyAdd g ab.1 ab.2) y.gam (p.zip q)
      .ok ([{ a with budget := joinBudget a.budget b.budget, count := 0, c0 := f a.c0 b.c0, c1 := f a.c1 b.c1 }], false, .lanes (2 * a.level * y.n))
  | _ => .error .paramMismatch

/-- CT_ADD (R387): P(DST) = P(SA) + P(SB). -/
def execCtAdd (x : CtxId) (badRuns : Fin 3) (s : State) : Res :=
  .next (instr s x 0x80 (fun c => rindOp s x c [c.sa, c.sb] [c.dst] [] true id badRuns (ctPair false)))

/-- CT_SUB (R387): P(DST) = P(SA) − P(SB). -/
def execCtSub (x : CtxId) (badRuns : Fin 3) (s : State) : Res :=
  .next (instr s x 0x81 (fun c => rindOp s x c [c.sa, c.sb] [c.dst] [] true id badRuns (ctPair true)))

/-- CT_MULC of one ciphertext by ω (R332). -/
def ctTimes (k : Int) (cs : List (PSet × Ct)) : RindWork :=
  match cs with
  | [(y, a)] =>
    let f := fun (p : List (List Nat)) => List.zipWith (fun g l => polyScale g k l) y.gam p
    .ok ([{ a with budget := a.budget - log2Ceil k.natAbs, count := 0, c0 := f a.c0, c1 := f a.c1 }], false, .lanes (2 * a.level * y.n))
  | _ => .error .paramMismatch

/-- CT_MULC (R387, R388): P(DST) = ω × P(SA), ω = IMM signed and not 0. -/
def execCtMulc (x : CtxId) (badRuns : Fin 3) (s : State) : Res :=
  .next (instr s x 0x82 (fun c => rindOp s x c [c.sa] [c.dst] [] (c.imm != 0) id badRuns (ctTimes (signed 32 c.imm))))

/-- The plaintext words of CT_PADD. -/
def plainWords (s : State) (j : JobId) (a n : Nat) : List Nat := elemsOf 8 (jobRead s j a (8 * n))

/-- CT_PADD of one ciphertext (R332). -/
def ctPlus (pt : List Nat) (cs : List (PSet × Ct)) : RindWork :=
  match cs with
  | [(y, a)] =>
    let d := deltaOf y a.ring a.level
    .ok ([{ a with count := 0, c0 := List.zipWith (fun g l => polyAdd g l (pt.map (fun v => d * v % g))) y.gam a.c0 }], false, .lanes (a.level * y.n))
  | _ => .error .paramMismatch

/-- CT_PADD (R387, R388): P(DST) = P(SA) + Δ_ℓ × the plaintext at P(SB), N words below 2^w. -/
def execCtPadd (x : CtxId) (badRuns : Fin 3) (s : State) : Res :=
  .next (instr s x 0x83 (fun c =>
    let h := ctHead s c.job c.sa
    let n := ((psetOf (chSet h)).map (·.n)).getD 0
    let pt := plainWords s c.job c.sb n
    rindOp s x c [c.sa] [c.dst] [(c.sb, 8 * n)] (!inReach s c.job c.sb (8 * n) || pt.all (fun v => decide (v < 2 ^ chRing h))) id badRuns (ctPlus pt)))

/-- MODSW of one ciphertext to level ℓ' (R332, R340). -/
def ctLower (l : Nat) (cs : List (PSet × Ct)) : RindWork :=
  match cs with
  | [(y, a)] =>
    .ok ([{ a with
      level := l
      budget := joinBudget a.budget (margin y a.ring l (nuMs y))
      count := 0
      c0 := modSwitch y a.level (a.level - l) a.c0
      c1 := modSwitch y a.level (a.level - l) a.c1 }], false, .lanesFree)
  | _ => .error .paramMismatch

/-- MODSW (R387, R388): P(DST) = P(SA) at level IMM, below the source's. -/
def execModsw (x : CtxId) (badRuns : Fin 3) (s : State) : Res :=
  .next (instr s x 0x84 (fun c =>
    rindOp s x c [c.sa] [c.dst] [] (decide (1 ≤ c.imm) && decide (c.imm < chLevel (ctHead s c.job c.sa))) (fun _ => c.imm) badRuns (ctLower c.imm)))

/-- KSW of a batch with a key-table entry: each source must be under the entry's source key and of its set and digits (R339), and all at one level (R338). -/
def ctSwitch (entry : Option Bytes) (cs : List (PSet × Ct)) : RindWork :=
  match cs, entry with
  | [], _ => .error .paramMismatch
  | _, none => .error .keyMismatch
  | (y, a) :: rest, some e =>
    if cs.any (fun b => kePset e != b.2.set || keDigits e != b.1.digits || keSrc e != b.2.keyId) then .error .keyMismatch
    else if ¬ rest.all (fun b => b.2.level == a.level) then .error .paramMismatch
    else
      .ok (cs.map (fun b =>
        let d := keySwitch y e a.level b.2.c0 b.2.c1
        { b.2 with keyId := keDst e, budget := joinBudget b.2.budget (margin y b.2.ring a.level (nuKs y)), count := 0, c0 := d.1, c1 := d.2 }),
        true, .switches y e a.level cs.length)

/-- KSW (R338, R387): MOD[3:0] + 1 pairs of handles at P(SA), with key-table entry IMM; it waits for Culture, which expands the entry (R150). -/
def execKsw (x : CtxId) (badRuns : Fin 3) (s : State) : Res :=
  .next (instr s x 0x85 (fun c =>
    let n := c.mod % 16 + 1
    let pair := fun (k i : Nat) => leNat (jobRead s c.job (c.sa + 16 * i + 8 * k) 8)
    if ¬ cultureOn s then s
    else if ¬ inReach s c.job c.sa (16 * n) then faultAt s x c .outOfBounds
    else
      rindOp s x c ((List.range n).map (pair 0)) ((List.range n).map (pair 1)) [(c.sa, 16 * n)] (decide (c.imm < 16)) id badRuns
        (ctSwitch (lookup (s.job c.job).keyTable c.imm))))

/-! Refresh. -/

/-- A refresh queued; its source and its destination stay locked until it completes (R327, R349). -/
def queueRefresh (s : State) (x : CtxId) (c : Ctx) : State :=
  let o : RefreshOp := ⟨c.sa, c.dst, c.imm, s.now, ctxNo x, s.opCount, [], none⟩
  let s := s.modJob c.job (fun J => { J with refresh := J.refresh ++ [o] })
  let s := fset s RIND_JOB_REFRESH.QUEUED c.job 0 (s.job c.job).refresh.length
  issueOp s x 0 0

/-- A REFRESH whose operands are in order: refused for its source or for the queue's length, else queued (R328, R333, R349). -/
def startRefresh (s : State) (x : CtxId) (c : Ctx) : State :=
  let j := c.job
  if chPoison (ctHead s j c.sa) then rindEnds (poisonHandle s j c.dst) x j 4 .poisonedSource
  else if (loadCt s j c.sa).isNone ∨ chC1Only (ctHead s j c.sa) then rindEnds s x j 4 .paramMismatch
  else if 64 ≤ (s.job j).refresh.length then rindEnds s x j 4 .queueFull
  else queueRefresh s x c

/-- REFRESH (R349, R387): P(DST) from P(SA) through group IMM, queued for the job's next sealed round. -/
def execRefresh (x : CtxId) (s : State) : Res :=
  .next (instr s x 0x86 (fun c =>
    let j := c.job
    if ¬ rindOn s then s
    else if c.fromHost.isSome ∧ [c.sa, c.dst].any (fun a => inReach s j a 64 && roundOwned s j a) then rindEnds s x j 4 .roundOwned
    else
      let n := ((psetOf (chSet (ctHead s j c.sa))).map (·.n)).getD 0
      let l := ((psetOf (chSet (ctHead s j c.sa))).map (·.gam.length)).getD 0
      guarded s x c (decide (c.imm < 4) && layoutOk (ctHead s j c.dst) n l) (srcRanges s j c.sa ++ [(c.dst, 64), ctData s j c.dst n l])
        (withLocks x j [c.sa, c.dst] (fun t => unlessPoison t j 6 (srcRanges t j c.sa) (startRefresh t x c)) s)))

/-- REFRESH_WAIT_EXPIRY (R350): the refreshes that have waited WAIT_S seconds for an export leave the queue. -/
def execRefreshWaitExpiry (j : JobId) (s : State) : Res :=
  .next (
    let w := fget s RIND_JOB_REFRESH.WAIT_S j 0
    if w = 0 then s else dropRefresh s j (fun o => o.joined.isNone && decide (o.since + w * 10 ^ 9 ≤ s.now)))

/-! The round's own operations. -/

/-- The groups of a round that are not absent. -/
def presentGroups (y : Round) : List Nat := (List.range (spGroups (pParams y.plan))).filter (fun g => !y.groupAbsent.contains g)

/-- The first status other than OK. -/
def firstBad (a b : RindStat) : RindStat := if a = .ok then b else a

/-- What a round's own operation on its groups comes to: the group named fails its residue check in `bad` of its runs, every other in none (R330). -/
def badOf (g bad h : Nat) : Nat := if h = g then bad else 0

/-- Cohort `k` exported for one more group, and written to the group's region where none of its steps failed (R340, R342, R348). -/
def exportOne (j : JobId) (r k g bad : Nat) (acc : RindStat × State) (h : Nat) : RindStat × State :=
  let (e, t) := exportCohort acc.2 j r h k (badOf g bad h)
  (firstBad acc.1 e, if absentIn t j r h then t else writeExport t j r h)

/-- EXPORT (R340, R387): cohort IMM exported to every group; the first status other than OK is the instruction's. A group that fails is absent, and R347 applies to the others. -/
def execExportCt (x : CtxId) (badRuns : Fin 3) (g : Fin 4) (s : State) : Res :=
  .next (instr s x 0x87 (fun c =>
    match servedRound s c with
    | none => faultAt s x c .operandMalformed
    | some y =>
      if ¬ rindOn s ∨ ¬ cultureOn s then s
      else if ¬ pSealed y.plan ∨ pCohortCount y.plan ≤ c.imm ∨ (y.cohort c.imm).reason ≠ 0 ∨ ¬ y.closed then faultAt s x c .operandMalformed
      else
        let (st, t) := (presentGroups y).foldl (exportOne c.job y.number c.imm g badRuns) (RindStat.ok, s)
        if st = .ok then issueOp t x 0 0 else issueOp (tryDecode t c.job y.number) x 5 st.code))

/-- DECODE (R346, R347, R387): cohort IMM decoded once enough groups are complete. A group that fails is absent, and R347 applies to the others (R348). -/
def execDecode (x : CtxId) (badRuns : Fin 3) (g : Fin 4) (s : State) : Res :=
  .next (instr s x 0x88 (fun c =>
    match servedRound s c with
    | none => faultAt s x c .operandMalformed
    | some y =>
      let n := groupsWanted s y
      let gs := (usableGroups y).take n
      if ¬ pSealed y.plan ∨ pCohortCount y.plan ≤ c.imm then faultAt s x c .operandMalformed
      else if ¬ rindOn s ∨ gs.length < n then s
      else
        let (st, t) := decodeCohort s c.job y.number c.imm (gs.map (fun h => (h, badOf g badRuns h)))
        if st = .ok then issueOp t x 0 0 else issueOp (tryDecode t c.job y.number) x 5 st.code))

end Sys2Proof.Machine
end

