-- ==== Sys2Proof/Machine/Descriptors.lean ====
section
/-! DEFINITION. Descriptors: the fetch and its checks (R413 to R415, R429, R662), the buffers that they name (R407), their start in ring order, and the plain ones: NOP, INVOKE, JOB_ABORT and JOB_TEARDOWN. -/

namespace Sys2Proof.Machine

/-! The buffers (R407). -/

/-- Whether an address range lies in job j's region of the HDM window (R405). -/
def inRegion (s : State) (j a n : Nat) : Bool :=
  let lo := Config.hdmBase + fget s HIF_HDM_REGION.BASE_GIB 0 j * 2 ^ 30
  decide (lo ≤ a) && decide (a + n ≤ lo + fget s HIF_HDM_REGION.SIZE_GIB 0 j * 2 ^ 30) && decide (a + n ≤ Config.hdmBase + hdmBytes s)

/-- Whether a descriptor of a job may name a buffer (R407). -/
def mayName (s : State) (j a n : Nat) : Bool := !inHdm s a n || inRegion s j a n

/-- A buffer's bytes: from the window, or those that the host's memory returned, none where the read failed or returned poison (R573). -/
def fetchBuf (s : State) (j a n : Nat) (host : Option Bytes) : Except HStat Bytes :=
  if ¬ mayName s j a n then .error .notPermitted
  else if inHdm s a n then .ok (memRead s.hdm (a - Config.hdmBase) n)
  else match host with
    | none => .error .hostAccess
    | some bs => .ok (slice (bs ++ zeros n) 0 n)

/-! The checks at the fetch (R414). -/

/-- The OPCODE of a descriptor. -/
def dOpc (d : Bytes) : Nat := leAt d 0 1
/-- FLAGS.BARRIER. -/
def dBarrier (d : Bytes) : Bool := bit (leAt d 1 1) 0
/-- The JOB operand of an admin descriptor. -/
def dJob (d : Bytes) : JobId := Fin.ofNat 16 (leAt d 16 1)

/-- The operand bytes of an opcode, as offsets and lengths; none for an undefined opcode. -/
def operandsOf : Nat → Option (List (Nat × Nat))
  | 0x00 => some []
  | 0x01 => some [(16, 2), (24, 8)]
  | 0x02 => some [(16, 1)]
  | 0x03 => some [(16, 2)]
  | 0x04 => some [(16, 1), (18, 2), (24, 8), (32, 4)]
  | 0x10 => some [(16, 8), (24, 4)]
  | 0x11 => some [(16, 3), (24, 32)]
  | 0x12 => some [(16, 1), (24, 8), (32, 8)]
  | 0x13 => some [(24, 8), (32, 8)]
  | _ => none

/-- Check 1: the opcode is defined, under the ring's ABI, and every reserved byte is zero (R414, R435). -/
def wellFormed (abi : Nat) (d : Bytes) : Bool :=
  match operandsOf (dOpc d) with
  | none => false
  | some us =>
    decide (leAt d 1 1 < 4) && zeroAt d 2 6 && (List.range 48).all (fun i => us.any (fun u => decide (u.1 ≤ 16 + i ∧ 16 + i < u.1 + u.2)) || zeroAt d (16 + i) 1) &&
      (abi != 1 || [0x00, 0x03, 0x11].contains (dOpc d))

/-- Check 2: the opcode is allowed on the ring. -/
def allowedOn (f : Func) (opc : Nat) : Bool :=
  if opc = 0 ∨ opc = 3 then true else if f = pf0 then decide (opc ≤ 4) else decide (0x10 ≤ opc)

/-- Check 3: the operands' ranges. -/
def inRanges (f : Func) (d : Bytes) : Bool :=
  match dOpc d with
  | 0x01 => decide (leAt d 16 1 < 16) && decide (leAt d 17 1 < 2)
  | 0x02 => decide (leAt d 16 1 < 16)
  | 0x03 => f != pf0 || decide (leAt d 16 1 < 16)
  | 0x04 => decide (leAt d 16 1 < 16) && decide (512 ≤ leAt d 18 2) && decide (leAt d 18 2 < 1024) && decide (72 ≤ leAt d 32 4) && decide (leAt d 32 4 ≤ 8256) && leAt d 32 4 % 8 == 0
  | 0x10 => [256, 428, 504, 580, 656].contains (leAt d 24 4)
  | 0x11 => decide (leAt d 18 1 ≤ 4)
  | 0x12 => decide (leAt d 16 1 < 16)
  | _ => true

/-- The status of a descriptor that fails a check of R414. -/
def fetchStatus (s : State) (f : Func) (d : Bytes) : Option HStat :=
  if ¬ wellFormed (ringAbi s f) d then some .badDescriptor
  else if ¬ allowedOn f (dOpc d) then some .notPermitted
  else if ¬ inRanges f d then some .badDescriptor
  else none

/-- Whether the module may fetch from a ring (R411, R429, R431, R432, R591). -/
def mayFetch (s : State) (f : Func) : Bool :=
  fget s HIF_VF_SQ_CFG.ENABLE f 0 == 1 && fget s HIF_VF_CQ_CFG.ENABLE f 0 == 1 && fget s HIF_VF_STATUS.SQ_ERR f 0 == 0 &&
    fget s HIF_VF_STATUS.CQ_ERR f 0 == 0 && fget s HIF_VF_SQ_HEAD.HEAD f 0 != fget s HIF_VF_SQ_TAIL.TAIL f 0 &&
    decide ((s.ring f).owed < cqSize s f - 1 - cqUsed s f) &&
    (match jobOf f with
      | some j => !((s.job j).aborting.isSome && !(s.job j).aborted)
      | none => true)

/-- A slot of a submission ring passed (R428): one more completion is owed. -/
def takeSlotOf (s : State) (f : Func) : State :=
  (fset s HIF_VF_SQ_HEAD.HEAD f 0 ((fget s HIF_VF_SQ_HEAD.HEAD f 0 + 1) % sqSize s f)).modRing f (fun g => { g with owed := g.owed + 1 })

/-- The work of a function's ring that has started and not completed: its descriptors, and the invocations of its job. -/
def ringBusy (s : State) (f : Func) : Bool :=
  (s.ring f).descs.any (·.started) ||
    (match jobOf f with
      | some j => s.contexts.any (fun c => c.2.job == j && c.2.fromHost.isSome) || s.waiting.any (fun w => w.job == j && w.fromHost.isSome)
      | none => false)

/-- DESCRIPTOR_FETCH (R414, R415, R429): a descriptor is fetched; one that fails a check completes with its status. One with BARRIER that would complete so is fetched once the work before it has completed. -/
def execDescriptorFetch (f : Func) (d : Bytes) (s : State) : Res :=
  .next (if ¬ mayFetch s f then s
    else match fetchStatus s f d with
      | none => (takeSlotOf s f).modRing f (fun g => { g with descs := g.descs ++ [⟨d, false, false⟩] })
      | some st => if dBarrier d ∧ ((s.ring f).descs ≠ [] ∨ ringBusy s f) then s else complete (takeSlotOf s f) f d st (body 0 0 0 0))

/-- DESCRIPTOR_FETCH_FAIL (R662): the slot is passed, and its completion carries no TAG and no BODY. -/
def execDescriptorFetchFail (f : Func) (s : State) : Res :=
  .next (if mayFetch s f then post (takeSlotOf s f) f ⟨1, HStat.hostAccess.code, 0, zeros 16, 0, false⟩ else s)

/-! Start (R415). -/

/-- The descriptor of an opcode that may start on a ring: the oldest that has not, once what a BARRIER waits for has completed. -/
def startable (s : State) (f : Func) (opc : Nat) : Option Desc :=
  match (s.ring f).descs.find? (fun d => !d.started) with
  | none => none
  | some d => if dOpc d.bytes = opc ∧ (dBarrier d.bytes = false ∨ ringBusy s f = false) then some d else none

/-- A descriptor taken off its ring's list. -/
def takeDesc (s : State) (f : Func) (d : Desc) : State := s.modRing f (fun g => { g with descs := g.descs.erase d })

/-- A descriptor started where one may. -/
def startDesc (s : State) (f : Func) (opc : Nat) (go : State → Bytes → State) : State :=
  match startable s f opc with
  | none => s
  | some d => go (takeDesc s f d) d.bytes

/-- Whether a job is between its abort's start and its end, where its unstarted descriptors wait to be cancelled (R423, R591). -/
def abortRuns (s : State) (j : JobId) : Bool := (s.job j).present && (s.job j).aborting.isSome && !(s.job j).aborted

/-- A VF descriptor started: one of a job that is absent or aborted completes with JOB_STATE (R426, R591). -/
def startVf (s : State) (j : JobId) (opc : Nat) (go : State → Bytes → State) : State :=
  if abortRuns s j then s
  else startDesc s (vfOf j) opc (fun t d => if t.alive j then go t d else complete t (vfOf j) d .jobState (body 0 0 0 0))

/-- NOP_DESCRIPTOR (R414): completes with OK; for an aborted job with JOB_STATE (R591). -/
def execNopDescriptor (f : Func) (s : State) : Res :=
  .next (match jobOf f with
    | none => startDesc s f 0 (fun t d => complete t f d .ok (body 0 0 0 0))
    | some j =>
      if abortRuns s j then s
      else startDesc s f 0 (fun t d => complete t f d (if (t.job j).aborted then .jobState else .ok) (body 0 0 0 0)))

/-! INVOKE. -/

/-- The sleeping domains of an engine's cluster wake (R525). -/
def wakeCluster (s : State) (c : Nat) : State := (domainsOf c).foldl (fun t d => if fget t PWR_DOM_STATE.STATE d 0 = 0 then t else wakeDomain t d) s

/-- An invocation that arrives: refused, started, or behind the others of its job that wait (R355, R364). -/
def arriveInvoke (s : State) (w : Waiting) : State :=
  match invocationCheck s w with
  | .error st => refuseInvoke s w st
  | .ok (q, _) =>
    let s := wakeCluster s (seqCluster q)
    if waitsBehind s w then { s with waiting := s.waiting ++ [w] } else startInvoke s w

/-- The invocation that an INVOKE descriptor names (R363, R413). -/
def descInvoke (j : JobId) (d : Bytes) : Waiting :=
  ⟨j, leAt d 16 2, (List.range (leAt d 18 1)).map (fun i => leAt d (24 + 8 * i) 8), some (descTag d, descIrq d), none⟩

/-- INVOKE (R28, R358, R363, R364): one recipe invoked with its arguments, by a descriptor or, for round-level work, by the round core that serves the job. -/
def execInvoke (j : JobId) (core : Option CoreInvoke) (s : State) : Res :=
  .next (match core with
    | none => startVf s j 0x11 (fun t d => arriveInvoke t (descInvoke j d))
    | some i => if s.alive j then arriveInvoke s ⟨j, i.slot, i.args, none, some i.round⟩ else s)

/-! JOB_ABORT and JOB_TEARDOWN. -/

/-- A JOB_ABORT of a job: OK as its abort begins, JOB_STATE where the job is absent or aborted (R591). -/
def abortDesc (s : State) (f : Func) (j : JobId) (d : Bytes) : State :=
  if s.alive j then abortJob (complete s f d .ok (body 0 0 0 0)) j 1 (leAt d 17 1) false else complete s f d .jobState (body 0 0 0 0)

/-- JOB_ABORT (R591): from the admin ring for the job that it names, from a VF's ring for its own. -/
def execJobAbort (f : Func) (s : State) : Res :=
  .next (match jobOf f with
    | none => startDesc s f 3 (fun t d => abortDesc t f (dJob d) d)
    | some j => if abortRuns s j then s else startDesc s f 3 (fun t d => abortDesc t f j d))

/-- The teardown of a job begins: its rounds are aborted, and it goes on as soon as nothing holds it (R423). -/
def beginTeardown (s : State) (j : JobId) : State :=
  let s := abortJob s j 6 0 false
  advanceTeardown (if abortRuns s j ∧ ¬ jobBusy s j then completeAbort s j else s) j

/-- JOB_TEARDOWN (R423): a job that does not exist or is being torn down completes with JOB_STATE. -/
def execJobTeardown (s : State) : Res :=
  .next (match startable s pf0 2 with
    | none => s
    | some d =>
      let j := dJob d.bytes
      if ¬ (s.job j).present ∨ (teardownDesc s j).isSome then complete (takeDesc s pf0 d) pf0 d.bytes .jobState (body 0 0 0 0)
      else beginTeardown (s.modRing pf0 (fun g => { g with descs := g.descs.replace d { d with started := true } })) j)

end Sys2Proof.Machine
end

