-- ==== Sys2Proof/Machine/JobCreate.lean ====
section
/-! DEFINITION. JOB_CREATE: the policy record's checks (R294, R295), the parts that a job needs (R416), and the job's creation (R32, R91, R161, R177, R463, R541, R563, R576, R657). -/

namespace Sys2Proof.Machine

/-- Whether a policy record keeps to its table (R295). -/
def policyOk (conf : Bool) (b : Bytes) : Bool :=
  let clip := dec32 (polClip b)
  leAt b 0 1 == 1 && decide (polScreen b ≤ 2) && decide (1 ≤ polDirs b ∧ polDirs b ≤ 128) && fmtDefined (polFmt b) && polFmt b != 0x20 &&
    decide (-64 ≤ polNoiseExp b ∧ polNoiseExp b ≤ 0) && decide (polSigDen b ≠ 0 ∧ polSigDen b ≤ polSigNum b) && dec32 (polEta b) != .nan &&
    dec32 (polBeta b) != .nan && clip.isFin && (polClip b == 2 ^ 31 || polClip b < 2 ^ 31) && (dec64 (polSens b)).isFin &&
    decide (polSens b < 2 ^ 63) && dec64 (polRho b) != .nan && decide (polRho b < 2 ^ 63) && dec32 (polLossMax b) != .nan &&
    decide (1 ≤ polHeldN b ∧ polHeldN b ≤ 2 ^ 20) && polNormDen b != 0 && zeroAt b 116 12 && !(conf && polOverride b)

/-- Whether a job has berths and an add window inside them (R416). -/
def berthsOk (s : State) (j : JobId) : Bool :=
  fget s VAT_JOB_G64.LEN_LINES j 0 != 0 && decide ((window s j).1 + (window s j).2 ≤ partBytes s j)

/-- Whether a job has a Roster range that leaves no other job's (R32). -/
def rosterOk (s : State) (j : JobId) : Bool :=
  let b := fget s ROS_JOB_RANGE.BASE j 0
  let n := fget s ROS_JOB_RANGE.COUNT j 0
  n != 0 && decide (b + n ≤ 2 ^ 24) && (presentJobs s).all (fun k => k == j ||
    decide (b + n ≤ fget s ROS_JOB_RANGE.BASE k 0) || decide (fget s ROS_JOB_RANGE.BASE k 0 + fget s ROS_JOB_RANGE.COUNT k 0 ≤ b))

/-- Whether a job's region of the HDM window stays inside it and apart from the others, and is closed for a confidential job (R405, R408). -/
def hdmOk (s : State) (j : JobId) (conf : Bool) : Bool :=
  let b := fget s HIF_HDM_REGION.BASE_GIB 0 j
  let n := fget s HIF_HDM_REGION.SIZE_GIB 0 j
  n == 0 || !conf && decide (b + n ≤ get1 s HIF_HDM_CTRL.WINDOW_GIB) && (List.range 16).all (fun k =>
    let c := fget s HIF_HDM_REGION.BASE_GIB 0 k
    let m := fget s HIF_HDM_REGION.SIZE_GIB 0 k
    k == j.val || m == 0 || decide (b + n ≤ c) || decide (c + m ≤ b))

/-- Whether the link protects a confidential job (R409, R563). -/
def trustOk (s : State) (j : JobId) (conf : Bool) : Bool :=
  !conf || on s HIF_LINK.IDE_ACTIVE && s.tspLocked.contains j.val && !on s TST_STATUS.SESSION

/-- The free slots of the job pool (R538, R541). -/
def freeSlots (s : State) : List Nat :=
  (List.range 208).map (· + 16) |>.filter (fun n => fget s KST_SLOT_INFO.STATE n 0 == 0 && (presentJobs s).all (fun k => !(s.job k).slots.contains n))

/-- The first part of a job that is missing or invalid (R416). -/
def jobRefusal (s : State) (j : JobId) (conf : Bool) (pol : Bytes) : Option Nat :=
  if ¬ policyOk conf pol then some 1
  else if ¬ berthsOk s j then some 2
  else if ¬ rosterOk s j then some 3
  else if fget s LND_JOB_TAG.TAG j 0 = 0 then some 4
  else if ¬ hdmOk s j conf then some 5
  else if ¬ trustOk s j conf then some 6
  else if (freeSlots s).length < 7 ∨ ¬ entropyReady s then some 7
  else none

/-- A job key drawn until it differs from every existing job's (R463): `n` bounds the draws that the model considers. -/
def drawJobKey (j : JobId) : Nat → State → State
  | 0, s => s
  | n + 1, s =>
    let (d, t) := draw (served s 1)
    let k := d.toNat % 4096
    if (presentJobs s).any (fun i => i != j && fget s RDMA_JOB_KEY.JOB_KEY i 0 == k) then drawJobKey j n t else fset t RDMA_JOB_KEY.JOB_KEY j 0 k

/-- The keys of a new job drawn and its slots reserved and filled and Toll's multiplications for the two public keys counted (R32, R149, R463, R541, R576). -/
def jobKeys (s : State) (j : JobId) : State :=
  let ss := (freeSlots s).take 7
  let (h, s) := draw (served s 1)
  let (o, s) := drawScalar (served s 1)
  let (i, s) := drawScalar (served s 1)
  let (p, s) := drawKey (served s 1)
  let s := fillSlot s (ss.getD 0 256) 1 j 1 1 0 (toBe 64 h.toNat)
  let s := fillSlot s (ss.getD 1 256) 2 j 4 1 0 (toBe 48 o)
  let s := fillSlot s (ss.getD 2 256) 2 j 2 1 0 (toBe 48 i)
  drawJobKey j 4096 ((tollDone s (some j) 2 0).modJob j (fun J => { J with slots := ss, offerPriv := o, importPriv := i, hbmKey := true, pressKey := some p }))

/-- The front-ends of a job judged as it is created (R91). -/
def judgeFes (s : State) (j : JobId) : State :=
  (fesOf s j).foldl (fun t fe => if feFits t fe then t else fset t LND_FE_CFG.VALID fe 0 0) s

/-- A job created: the first confidential one locks the test port in the same step (R563, R657). -/
def createJob (s : State) (j : JobId) (conf : Bool) (pol : Bytes) : State :=
  let s := (zeroBerths s j).modJob j (fun _ => { Job.absent with present := true, confidential := conf, policy := pol })
  let s := setGroup (jobKeys s j) WRP_JOB_POLICY.DIGEST j (digestBytes (sha384 pol)) 6
  let f := vfOf j
  let s := fset (fset s HIF_VF_STATUS.JOB_CREATED f 0 1) HIF_VF_STATUS.CONFIDENTIAL f 0 (flag conf)
  let s := if conf then set1 (set1 s KST_STATUS.CONF_ACTIVE 1) KST_STATUS.DEBUG_LOCKED 1 else s
  choosePower (trierLoop (judgeFes s j) j)

/-- Whether the module's firmware runs (PWR_STATUS.BOOT_STAGE). -/
def booted (s : State) : Bool := get1 s PWR_STATUS.BOOT_STAGE == 5

/-- A JOB_CREATE performed: JOB_STATE for a job that exists, and where only the recovery loader runs (R625); refused with the first failing part, or the job is created. -/
def createDesc (s : State) (d : Bytes) (host : Option Bytes) : State :=
  let j := dJob d
  let conf := leAt d 17 1 == 1
  if (s.job j).present ∨ ¬ booted s then complete s pf0 d .jobState (body 0 0 0 0)
  else match fetchBuf s j (leAt d 24 8) 128 host with
    | .error st => complete s pf0 d st (body 0 0 0 0)
    | .ok pol =>
      match jobRefusal s j conf pol with
      | some why => complete s pf0 d .jobRefused (body 0x80 why 0 0)
      | none => complete (createJob s j conf pol) pf0 d .ok (body 0 0 0 0)

/-- JOB_CREATE (R416): it waits for the entropy unit's start-up (R554, R626). -/
def execJobCreate (host : Option Bytes) (s : State) : Res :=
  .next (if booted s ∧ entropyStarting s then s else startDesc s pf0 1 (fun t d => createDesc t d host))

end Sys2Proof.Machine
end

