-- ==== Sys2Proof/Machine/RoundPlan.lean ====
section
/-! DEFINITION. ROUND_PLAN: the checks of a plan in the order of the refusal reasons (R112, R113, R174, R312, R313, R419 to R421, R511), and its acceptance (R36, R421, R503). -/

namespace Sys2Proof.Machine

/-- Whether a number is a power of two. -/
def powerOfTwo (n : Nat) : Bool := n != 0 && 2 ^ Nat.log2 n == n

/-- Reason ADMISSIBILITY: the OFFER fields' ranges (R61, R112, R113), and the fields that a plan leaves zero (R419). -/
def admissible (p : Bytes) : Bool :=
  offerField p 32 1 ≤ 1 && [1, 2, 4, 8].contains (pBits p) && [16, 24, 32].contains (pRingBits p) && pDegree p % 2 == 0 &&
    decide (16 ≤ pDegree p ∧ pDegree p ≤ 64) && pThreshold p == pDegree p / 2 + 1 && decide (64 ≤ pMinSurv p) &&
    decide (1 ≤ pCohortSize p ∧ pCohortSize p ≤ 4096) && decide (1 ≤ pCohortCount p ∧ pCohortCount p ≤ 65536) &&
    decide (pCohortSize p * pL p < 2 ^ pRingBits p) && zeroAt p 36 4 && zeroAt p 104 98 && zeroAt p 204 4 && zeroAt p 240 16

/-- Reason GEOMETRY: R174 and the ranges of the slice and the chunk (R61). -/
def geometryOk (p : Bytes) : Bool :=
  powerOfTwo (pSlice p) && decide (pSlice p ≤ 4194304) && powerOfTwo (pChunk p) && decide (1024 ≤ pChunk p ∧ pChunk p ≤ 65536) &&
    decide (pChunk p ≤ pSlice p) && pStride p % pChunk p == 0 && pModel p % pChunk p == 0 && decide (pModel p ≠ 0)

/-- Whether the sealed parameters have the layout of R312. -/
def sealedLayout (p : Bytes) : Bool :=
  let b := pParams p
  beAt b 0 1 == 1 && decide (1 ≤ spGroups b ∧ spGroups b ≤ 4) && pSealedLen p == 96 + 76 * spGroups b && zeroAt b 4 4 &&
    (List.range (spGroups b)).all (fun g => decide (1 ≤ spMembers b g ∧ spMembers b g ≤ 16) && zeroAt b (105 + 76 * g) 3 &&
      (List.range 16).all (fun i => decide (i < spMembers b g) || spMember b g i == 2 ^ 32 - 1))

/-- Whether a member's slot may serve (R313). -/
def memberOk (s : State) (j : JobId) (p : Bytes) (slot : Nat) : Bool :=
  decide (slot < fget s ROS_JOB_RANGE.COUNT j 0) && (fesOf s j).any (fun fe => feHas s fe slot) && (cohortOf p slot).isSome

/-- Reason SEALED (R313). -/
def sealedOk (s : State) (j : JobId) (p : Bytes) : Bool :=
  if ¬ pSealed p then pSealedLen p == 0
  else
    let b := pParams p
    match pSet p with
    | none => false
    | some x =>
      let slots := (spSlots b).map (·.1)
      sealedLayout p && pChunk p == x.n && decide (x.n ≤ pSlice p) && decide slots.Nodup && slots.all (memberOk s j p) &&
        (List.range (spGroups b)).all (fun g =>
          (keyEntry (s.job j) (spSet b) (spJobKey b) (spGroupKey b g)).isSome &&
            chainPasses x (pRingBits p) (pCohortSize p) (spSmudge b) (spMembers b g))

/-- Reason TIMES (R420, R501): time is neither FREERUN nor DOUBTFUL, the Offer lies ahead, the phase times increase, the Unmask deadline has a phase value, and the newest round's Close comes first. -/
def timesOk (s : State) (j : JobId) (p : Bytes) : Bool :=
  !doubtful s && decide (s.now < pOfferTime p) && decide (pOfferTime p < pTime p 0) &&
    decide (pTime p 6 - pOfferTime p < 2 ^ 32 * phaseUnit) &&
    (List.range 6).all (fun i => if pSealed p ∧ i = 2 then pTime p 2 == pTime p 3 else decide (pTime p i < pTime p (i + 1))) &&
    (match (s.job j).rounds.reverse with
      | [] => true
      | x :: _ => decide (pTime x.plan 4 ≤ pOfferTime p))

/-- Reason ROUND_LIMIT (R36, R421). -/
def limitOk (J : Job) : Bool := decide (J.rounds.length < 2) && decide (J.nextRound < 2 ^ 32)

/-- The bytes of a tensor with a 64-byte header (R223). -/
def tensorSize (f : Nat) (kdim : Bool) (rc : Nat × Nat) : Nat :=
  let gc := gridCols f kdim rc.2
  let gr := if kdim then rc.1 / blockElems f else rc.1
  64 + (gr * gc + 63) / 64 * 64 + gr * ((gc * blockBytes f + 63) / 64 * 64)

/-- The bytes that a release of the job's model takes (R304). -/
def releaseSize (j : JobId) (pol p : Bytes) : Nat :=
  let f := polFmt pol
  if isBlock f then ((weightLayers j).map (tensorSize f (Config.releaseKdim j))).sum else elemBytes f * pModel p

/-- Reason BUFFER (R304, R407): the release buffer holds the release, and the named buffers are within the job's reach. -/
def buffersOk (s : State) (j : JobId) (p : Bytes) : Bool :=
  decide (releaseSize j (s.job j).policy p ≤ pReleaseLen p) && mayName s j (pReleaseAddr p) (pReleaseLen p) &&
    (pG64Addr p == 0 || mayName s j (pG64Addr p) (8 * (pModel p + granules p)))

/-! Placement (R4, R510 to R512). -/

/-- The module's HBM: twenty stacks of 12 or of 8 dies of 24 Gb (R4). -/
def moduleHbm : Nat := 20 * (if Config.tallStacks then 36 else 24) * 2 ^ 30

/-- The HBM that no job's structures take: the Roster, the host-managed window and the 64 backing areas of banks (R4, R157). -/
def reservedHbm : Nat := 2 ^ 30 + 64 * 2 ^ 30 + 64 * (3 * 2 ^ 20)

/-- The bytes of a round's structures that need not lie in the Vat: its accumulators and sums, close table, staging buffers and working buffers (R105, R167, R283, R297, R325, R510). -/
def roundRest (s : State) (j : JobId) (r : Nat) (p : Bytes) : Nat :=
  pCohortCount p * accSpan p + closeBytes s j + 4 * pModel p + pReleaseLen p + (Config.workingBytes j r).val

/-- The bytes of a job's own structures in HBM: the momentum buffer, the master weights, the held-out set and the key table (R283, R296, R297, R336). -/
def jobRest (J : Job) : Nat := 8 * modelOf J + (J.held.map List.length).getD 0 + (J.keyTable.map (fun e => e.2.length)).sum

/-- What a job's structures take: the bytes that stay in the Vat, and the others. -/
def demand (s : State) (j : JobId) : Nat × Nat :=
  let rs := (s.job j).rounds
  ((window s j).2 + (rs.map (fun x => vatOnly s j x.plan)).sum, jobRest (s.job j) + (rs.map (fun x => roundRest s j x.number x.plan)).sum)

/-- The HBM that the structures of every job but one take at least: what its partition does not hold. -/
def othersHbm (s : State) (j : JobId) : Nat :=
  ((presentJobs s).map (fun k => if k = j then 0 else (demand s k).1 + (demand s k).2 - partBytes s k)).sum

/-- The bytes of the Vat that a round's structures reach from its end of the partition. -/
def vatReach (s : State) (j : JobId) (x : Round) : Nat :=
  let last := ((List.range (pCohortCount x.plan)).filter (fun c => !(x.cohort c).inHbm)).getLast?
  vatOnly s j x.plan + accSpan x.plan * (last.map (· + 1)).getD 0

/-- The bytes of a job's partition that its rounds leave. -/
def vatFree (s : State) (j : JobId) : Nat := partBytes s j - (window s j).2 - ((s.job j).rounds.map (vatReach s j)).sum

/-- The cohorts of a plan whose accumulators fit the Vat beside what lies there (R512). -/
def cohortsThatFit (s : State) (j : JobId) (p : Bytes) : Nat := min (pCohortCount p) ((vatFree s j - vatOnly s j p) / accSpan p)

/-- Reason PLACEMENT (R511): the Vat-only structures fit the partition, everything fits it together with the quota and the module's HBM, the add window holds a granule, and a RESIDENT pin can be kept (assumptions 6 and 96). -/
def placementOk (s : State) (j : JobId) (p : Bytes) : Bool :=
  let fixed := (demand s j).1 + vatOnly s j p
  let all := fixed + (demand s j).2 + roundRest s j (s.job j).nextRound p + 8 * (pModel p - modelOf (s.job j))
  decide (fixed ≤ partBytes s j) && decide (all ≤ partBytes s j + quotaBytes s j) &&
    decide (reservedHbm + othersHbm s j + (all - partBytes s j) ≤ moduleHbm) && decide (1 ≤ windowGranules s j p) &&
    (fget s PLT_JOB_PIN.RESIDENT j 0 == 0 || decide (cohortsThatFit s j p = pCohortCount p))

/-- The first check that a plan fails, in the order of the refusal reasons (R420). -/
def planRefusal (s : State) (j : JobId) (p : Bytes) : Option Nat :=
  if ¬ admissible p then some 16
  else if ¬ geometryOk p then some 17
  else if ¬ sealedOk s j p then some 18
  else if ¬ timesOk s j p then some 19
  else if ¬ limitOk (s.job j) then some 20
  else if ¬ buffersOk s j p then some 21
  else if ¬ placementOk s j p then some 22
  else none

/-- The round of an accepted plan, before its Offer. -/
def newRound (n tag : Nat) (p : Bytes) : Round where
  number := n
  tag := tag
  plan := p
  phase := .planned
  held := []
  offerDone := false
  deadline := false
  pub := []
  priv := 0
  keys := []
  nbrs := []
  bundles := []
  bundleKey := none
  bitmaps := []
  requested := []
  cohorts := []
  closed := false
  closeTable := []
  weights := []
  drainEnd := 0
  begunAt := []
  directory := []
  groupDone := []
  groupAbsent := []
  manifests := []
  lockedKeys := []
  refreshing := []
  screenKey := none
  screenFailed := false
  screenRun := false
  screenDone := false
  peers := []
  peerStart := none
  charge := none
  stagedOut := []
  stagedVals := []
  stagedMom := []
  candidate := []
  nonfinite := 0
  gate := none
  holdEnd := none
  accepted := false
  overridden := false
  candidateCorrect := 0
  underChecked := false
  rhoBefore := 0
  windowNo := 0
  finished := []

/-- A round with its accumulators placed: the first `fit` cohorts' in the Vat, the others' in HBM (R163, R510, R512). -/
def Round.placed (x : Round) (fit : Nat) : Round :=
  ((List.range (pCohortCount x.plan)).drop fit).foldl (fun y c => y.modCohort c (fun k => { k with inHbm := true })) x

/-- A plan accepted (R36, R421, R429, R503, R510): its round owes a completion, its structures are placed and its phase entries are armed. -/
def acceptPlan (s : State) (j : JobId) (d p : Bytes) : State :=
  let n := (s.job j).nextRound
  let x := (newRound n (descTag d) p).placed (cohortsThatFit s j p)
  let s := s.modJob j (fun J => { J with nextRound := n + 1, offerTime := pOfferTime p, rounds := J.rounds ++ [x] })
  let s := fset (fset s PLT_JOB_PLACE.NOFIT j 0 0) TIDE_JOB_PHASE.ROUND j 0 n
  let s := (armPhases s j n p).modRing (vfOf j) (fun g => { g with owed := g.owed + 1 })
  choosePower (complete s (vfOf j) d .ok (body 0 0 n 0))

/-- A refused plan: a plan that does not fit latches NOFIT (R421), and the completion carries the reason. -/
def refusePlan (s : State) (j : JobId) (d : Bytes) (why : Nat) : State :=
  complete (if why = 22 then ev (fset s PLT_JOB_PLACE.NOFIT j 0 1) PLT_EVENT.NOFIT_EV else s) (vfOf j) d .roundConfig
    (body 0x80 why 0 0)

/-- A ROUND_PLAN performed. -/
def planDesc (s : State) (j : JobId) (d : Bytes) (host : Option Bytes) : State :=
  match fetchBuf s j (leAt d 16 8) (leAt d 24 4) host with
  | .error st => complete s (vfOf j) d st (body 0 0 0 0)
  | .ok p =>
    if leAt d 24 4 ≠ 256 + pSealedLen p then complete s (vfOf j) d .badDescriptor (body 0 0 0 0)
    else match planRefusal s j p with
      | none => acceptPlan s j d p
      | some why => refusePlan s j d why

/-- ROUND_PLAN (R419 to R421). -/
def execRoundPlan (j : JobId) (host : Option Bytes) (s : State) : Res := .next (startVf s j 0x10 (fun t d => planDesc t j d host))

end Sys2Proof.Machine
end

