-- ==== Sys2Proof/Machine/Loads.lean ====
section
/-! DEFINITION. The loads: RECIPE_LOAD with the checks of R361 and R370, KEY_LOAD (R336, R417) and HELD_LOAD (R296, R418, R561). -/

namespace Sys2Proof.Machine

/-! The encoding of a recipe (R361, R366, R367). -/

/-- What an instruction uses of its word: DST, SA, SB, the bits of MOD and the bits of IMM. -/
structure Uses where
  dst : Bool
  sa : Bool
  sb : Bool
  mod : Nat
  imm : Nat

/-- 2^n − 1: the low `n` bits used. -/
def lowBits (n : Nat) : Nat := 2 ^ n - 1

/-- The uses of the control opcodes (R370). -/
def controlUses (w : Word) : Option Uses :=
  match iOpc w with
  | 0x00 => some ⟨false, false, false, 0, 0⟩
  | 0x01 => some ⟨false, false, false, 0, 0⟩
  | 0x02 => some ⟨bit (iMod w) 1, bit (iMod w) 0, false, 3, if bit (iMod w) 0 then 0 else lowBits 24⟩
  | 0x03 => some ⟨false, false, false, 0, 0⟩
  | 0x04 => some ⟨true, false, false, 0, lowBits 32⟩
  | 0x05 => some ⟨true, false, false, 0, lowBits 32⟩
  | 0x06 => some ⟨true, true, false, 0, lowBits 32⟩
  | 0x07 => some ⟨true, true, true, 0, 0⟩
  | 0x08 => some ⟨true, true, false, 0, lowBits 6⟩
  | 0x09 => some ⟨true, true, false, 0, lowBits 32⟩
  | 0x0A => some ⟨false, true, false, 0, lowBits 10⟩
  | 0x0B => some ⟨false, true, false, 0, lowBits 10⟩
  | 0x0C => some ⟨false, false, false, 0, 0⟩
  | 0x0D => some ⟨false, true, false, lowBits 8, lowBits 32⟩
  | 0x0E => some ⟨false, false, false, lowBits 8, lowBits 16⟩
  | 0x0F => some ⟨false, false, false, 1, lowBits 12⟩
  | _ => none

/-- Whether a MAC names a SIGN or RING_PLANE operand, and so reads ROUND_SEL (R379). -/
def readsRound (ext : Nat) : Bool := [1, 2].contains (bits ext 19 18) || [1, 2].contains (bits ext 21 20)

/-- The uses of the engine opcodes (R378 to R387), the first extension word at hand. -/
def engineUses (w : Word) (ext : Nat) : Option Uses :=
  match iOpc w with
  | 0x20 => some ⟨bit (iMod w) 5, true, true, if readsRound ext then 0x7F else 0x3F, lowBits 32⟩
  | 0x21 => some ⟨true, true, true, 0, lowBits 32⟩
  | 0x22 => some ⟨true, false, false, 0xF, 0⟩
  | 0x2F => some ⟨false, false, false, 0, lowBits 8⟩
  | 0x30 => some ⟨true, true, true, 0xF, 0⟩
  | 0x31 => some ⟨true, true, true, 0, 0⟩
  | 0x32 => some ⟨true, false, true, 0, lowBits 32⟩
  | 0x33 => some ⟨true, true, true, 0, 0⟩
  | 0x34 => some ⟨false, false, false, 0, lowBits 32⟩
  | 0x35 => some ⟨false, false, false, 0, lowBits 32⟩
  | 0x36 => some ⟨false, false, false, 0, lowBits 32⟩
  | 0x37 => some ⟨false, false, false, 0, 0⟩
  | 0x40 => some ⟨true, true, true, 7, lowBits 32⟩
  | 0x41 => some ⟨false, false, false, lowBits 8, lowBits 32⟩
  | 0x50 => some ⟨false, true, false, 0, lowBits 32⟩
  | 0x51 => some ⟨false, true, false, 0xF, lowBits 32⟩
  | 0x52 => some ⟨false, true, false, 0, 0⟩
  | 0x53 => some ⟨true, true, false, 0, lowBits 32⟩
  | 0x54 => some ⟨true, false, false, 0, lowBits 32⟩
  | 0x60 => some ⟨true, true, true, 0, 0⟩
  | 0x61 => some ⟨false, false, false, 0, lowBits 32⟩
  | 0x62 => some ⟨false, false, false, 0, 0⟩
  | 0x70 => some ⟨true, true, true, 3, 0⟩
  | 0x71 => some ⟨true, true, true, 3, 0⟩
  | 0x72 => some ⟨true, true, true, 3, lowBits 32⟩
  | 0x73 => some ⟨true, true, true, 3, lowBits 32⟩
  | 0x74 => some ⟨true, true, true, 3, 0⟩
  | 0x80 => some ⟨true, true, true, 0, 0⟩
  | 0x81 => some ⟨true, true, true, 0, 0⟩
  | 0x82 => some ⟨true, true, false, 0, lowBits 32⟩
  | 0x83 => some ⟨true, true, true, 0, 0⟩
  | 0x84 => some ⟨true, true, false, 0, lowBits 32⟩
  | 0x85 => some ⟨false, true, false, 0xF, lowBits 4⟩
  | 0x86 => some ⟨true, true, false, 0, lowBits 2⟩
  | 0x87 => some ⟨false, false, false, 0, lowBits 32⟩
  | 0x88 => some ⟨false, false, false, 0, lowBits 32⟩
  | _ => none

/-- Whether every field that an instruction does not use is zero (R367). -/
def fieldsOk (w : Word) (u : Uses) : Bool :=
  (u.dst || iDst w == 0) && (u.sa || iSa w == 0) && (u.sb || iSb w == 0) && iMod w &&& u.mod == iMod w && iImm w &&& u.imm == iImm w

/-- Whether the field codes of an instruction are defined: layer kinds, operations, rings, formats and the ranges that an opcode gives (R370, R379, R381 to R387). -/
def codesOk (w : Word) (ext : Nat) : Bool :=
  match iOpc w with
  | 0x0A => iImm w != 0
  | 0x0B => iImm w != 0
  | 0x0E => iImm w != 0
  | 0x20 => iImm w != 0 && isBlock (bits ext 17 14) && bits ext 23 22 == 0 && bits ext 63 56 == 0
  | 0x2F => decide (1 ≤ iImm w ∧ iImm w ≤ 6)
  | 0x30 => decide (1 ≤ iMod w ∧ iMod w ≤ 13)
  | 0x40 => iMod w % 4 != 3
  | 0x72 => decide (1 ≤ iImm w ∧ iImm w ≤ 2 ^ 24)
  | 0x73 => decide (1 ≤ iImm w ∧ iImm w ≤ 2 ^ 24)
  | _ => true

/-- Check 6 for one instruction of a sequencer (R354, R361). -/
def wordOk (q : Nat) (w : Word) (ext : Nat) : Bool :=
  let u := if iOpc w < 16 then controlUses w else if iOpc w / 16 = q + 1 then engineUses w ext else none
  match u with
  | none => false
  | some u => fieldsOk w u && codesOk w ext

/-- Check 7: an opcode or a counter that FW recipes alone may name (R372, R378 to R387). -/
def privileged (w : Word) : Bool :=
  iOpc w == 0x0E && decide (iMod w < 128) ||
    [0x34, 0x35, 0x36, 0x37, 0x40, 0x41, 0x50, 0x51, 0x52, 0x53, 0x54, 0x61, 0x62, 0x74, 0x87, 0x88].contains (iOpc w)

/-- The instructions of a program: the place of each, its word and its first extension word (R366). -/
def instructions : Nat → Nat → List Word → List (Nat × Word × Nat)
  | 0, _, _ => []
  | _, _, [] => []
  | n + 1, pc, w :: ws => (pc, w, (ws.headD 0).toNat) :: instructions n (pc + wordsOf (iOpc w)) ((w :: ws).drop (wordsOf (iOpc w)))

/-- The loops around each instruction of a program, as a list of the places of their LOOPs, innermost first; none where the loops do not match or nest too deep (R370). -/
def loopPaths : List Nat → List (Nat × Word × Nat) → Option (List (Nat × List Nat))
  | st, [] => if st = [] then some [] else none
  | st, i :: is =>
    if iOpc i.2.1 = 2 then (if 4 ≤ st.length then none else (loopPaths (i.1 :: st) is).map ((i.1, st) :: ·))
    else if iOpc i.2.1 = 3 then
      match st with
      | [] => none
      | _ :: up => (loopPaths up is).map ((i.1, st) :: ·)
    else (loopPaths st is).map ((i.1, st) :: ·)

/-- Check 8: the structure of a program of n words (R370). -/
def structureOk (n : Nat) (is : List (Nat × Word × Nat)) : Bool :=
  match loopPaths [] is with
  | none => false
  | some ps =>
    (match is.getLast? with
      | none => false
      | some i => iOpc i.2.1 == 1 && i.1 + 1 == n) &&
    is.all (fun i => if iOpc i.2.1 = 0x0A ∨ iOpc i.2.1 = 0x0B then
        lookup ps (i.1 + 1 + iImm i.2.1) == lookup ps i.1 && (lookup ps (i.1 + 1 + iImm i.2.1)).isSome
      else true)

/-! RECIPE_LOAD. -/

/-- The instruction words of an image. -/
def imageWords (img : Bytes) : List Word := (List.range (leAt img 8 2)).map (fun i => BitVec.ofNat 64 (leAt img (64 + 8 * i) 8))

/-- The status of a load of slot n for a job, by the checks in order (R361). -/
def loadStatus (s : State) (j : JobId) (n : Nat) (img : Bytes) : RStat :=
  let ws := imageWords img
  let is := instructions ws.length 0 ws
  let q := leAt img 5 1
  if s.conf j ∨ fget s HIF_RCP_SLOT_INFO.VALID n 0 = 1 ∧ fget s HIF_RCP_SLOT_INFO.OWNER n 0 ≠ j.val then .slotRefused
  else if runningOn s n ≠ 0 ∨ s.waiting.any (fun w => w.slot == n) then .slotBusy
  else if slice img 0 4 ≠ ascii "WHEY" ∨ ¬ zeroAt img 10 2 ∨ q = 0 ∨ 7 < q ∨ leAt img 6 1 ≠ 0 ∨ 4 < leAt img 7 1 ∨ ws = [] ∨ 1024 < ws.length ∨
      img.length ≠ 64 + 8 * ws.length then .badEncoding
  else if leAt img 4 1 ≠ 1 then .abiMismatch
  else if digestBytes (sha384 (slice img 64 (8 * ws.length))) ≠ slice img 16 48 then .digestMismatch
  else if ¬ is.all (fun i => wordOk q i.2.1 i.2.2) then .badEncoding
  else if is.any (fun i => privileged i.2.1) then .privilegedOp
  else if ¬ structureOk ws.length is then .badStructure
  else if 32768 - (loadUsed s - (readD [] s.store n).length) < ws.length then .storeFull
  else .ok

/-- A recipe stored (R357, R361); whether the area was compacted first is not given where other recipes lie there (R362, assumption 5). -/
def storeRecipe (s : State) (j : JobId) (n : Nat) (img : Bytes) : State :=
  let others := s.store.any (fun e => e.1 != n)
  let ws := imageWords img
  let s := fset (fset (fset s HIF_RCP_SLOT_INFO.VALID n 0 1) HIF_RCP_SLOT_INFO.OWNER n 0 j) HIF_RCP_SLOT_INFO.SEQ n 0 (leAt img 5 1)
  let s := fset (fset s HIF_RCP_SLOT_INFO.ARGS n 0 (leAt img 7 1)) HIF_RCP_SLOT_INFO.WORDS n 0 ws.length
  let s := setGroup (count s HIF_RCP_SLOT_INFO.GEN n 0 1) HIF_RCP_SLOT_DIGEST.DIGEST n (slice img 16 48) 6
  let s := storeCounts { s with store := putN s.store n ws }
  if others then
    let (v, s) := freeValue s
    if v.toNat % 2 = 1 then ev s HIF_RCP_EVENT.COMPACT_EV else s
  else s

/-- A RECIPE_LOAD performed. -/
def loadDesc (s : State) (d : Bytes) (host : Option Bytes) : State :=
  let j := dJob d
  let n := leAt d 18 2
  if ¬ s.alive j then complete s pf0 d .jobState (body 0 0 0 0)
  else match fetchBuf s j (leAt d 24 8) (leAt d 32 4) host with
    | .error st => complete s pf0 d st (body 0 0 0 0)
    | .ok img =>
      let st := loadStatus s j n img
      if st = .ok then complete (storeRecipe s j n img) pf0 d .ok (body 0 0 0 0)
      else complete (ev s HIF_RCP_EVENT.LOAD_FAIL_EV) pf0 d .engine (body 0 st.code 0 0)

/-- RECIPE_LOAD (R357, R359 to R362, R426). -/
def execRecipeLoad (host : Option Bytes) (s : State) : Res := .next (startDesc s pf0 4 (fun t d => loadDesc t d host))

/-! KEY_LOAD. -/

/-- Whether a key-table entry is locked, or named by an accepted plan whose Offer has not fired (R417). -/
def keyBusy (J : Job) (n : Nat) : Bool :=
  J.rounds.any (fun x => x.lockedKeys.contains n || !x.offerDone && (usedEntries J x.plan).contains n)

/-- Whether a key-table image is of the form of R336, with the length that R417 requires. -/
def keyImageOk (img : Bytes) : Bool :=
  leAt img 0 1 == 1 && zeroAt img 3 5 && decide (64 ≤ img.length) &&
    (match psetOf (kePset img) with
      | none => false
      | some x => keDigits img == x.digits && img.length == keBytes x)

/-- A key-table entry stored, with B_OFF rewritten to where the b halves lie: after the header (R417, assumption 85). -/
def storeKey (s : State) (j : JobId) (n : Nat) (img : Bytes) : State :=
  let e := slice img 0 56 ++ toLe 8 64 ++ slice img 64 (img.length - 64)
  let s := s.modJob j (fun J => { J with keyTable := putN J.keyTable n e })
  fset s RIND_JOB_KEYS.VALID j 0 (fget s RIND_JOB_KEYS.VALID j 0 ||| 2 ^ n)

/-- A KEY_LOAD performed. -/
def keyDesc (s : State) (j : JobId) (d : Bytes) (host : Option Bytes) : State :=
  let n := leAt d 16 1
  match fetchBuf s j (leAt d 24 8) (leAt d 32 8) host with
  | .error st => complete s (vfOf j) d st (body 0 0 0 0)
  | .ok img =>
    if ¬ keyImageOk img then complete s (vfOf j) d .badDescriptor (body 0 0 0 0)
    else if keyBusy (s.job j) n then complete (rindStatus s j 1 .keyBusy) (vfOf j) d .engine (body 5 RindStat.keyBusy.code 0 0)
    else complete (storeKey s j n img) (vfOf j) d .ok (body 0 0 0 0)

/-- KEY_LOAD (R417). -/
def execKeyLoad (j : JobId) (host : Option Bytes) (s : State) : Res := .next (startVf s j 0x12 (fun t d => keyDesc t j d host))

/-! HELD_LOAD. -/

/-- The sender's point of a wrapped held-out set of the form that R561 gives. -/
def wrapPoint (b : Bytes) : Option (Nat × Nat) :=
  if slice b 0 4 ≠ ascii "BRIN" ∨ leAt b 4 1 ≠ 1 ∨ ¬ zeroAt b 5 3 ∨ ¬ zeroAt b 113 15 ∨ b.length ≠ 144 + leAt b 8 8 then none
  else decodePt (slice b 16 97)

/-- A wrapped held-out set opened with the key that its sender's point and the job's import key agree on (R561). -/
def unwrapSet (tag priv : Nat) (b : Bytes) (p : Nat × Nat) : Option Bytes :=
  let key := hkdfExpand (hkdfExtract (toBe 4 tag) (ecdhX priv p)) (ascii "BR1 IMPORT") 32
  gcmOpen (keyOf key) (zeros 12) (slice b 0 128) (slice b 128 (leAt b 8 8)) (slice b (128 + leAt b 8 8) 16)

/-- A held-out set stored and hashed (R296, R418). -/
def holdSet (s : State) (j : JobId) (d set : Bytes) : State :=
  let ok := digestBytes (sha384 set) == polHeldDigest (s.job j).policy
  let s := s.modJob j (fun J => { J with held := some set, heldOk := ok })
  complete s (vfOf j) d (if ok then .ok else .heldDigest) (body 0 0 0 0)

/-- A wrapped set that does not open (R418, R561). -/
def importFails (s : State) (j : JobId) (d : Bytes) : State := complete s (vfOf j) d .engine (body 6 SStat.importFail.code 0 0)

/-- A confidential job's set: opened with a use of the IMPORT slot and one agreement of Toll (R149, R539, R561). -/
def importSet (s : State) (j : JobId) (d b : Bytes) : State :=
  let n := (s.job j).importSlot
  let (st, s) := takeSlot s n j 2 1
  if st ≠ .ok then complete s (vfOf j) d .engine (body 6 st.code 0 0)
  else match wrapPoint b with
    | none => importFails s j d
    | some p =>
      let s := tollDone s (some j) 1 1
      match unwrapSet (fget s LND_JOB_TAG.TAG j 0) (slotNumber s n) b p with
      | none => importFails s j d
      | some set => holdSet s j d set

/-- A HELD_LOAD performed. -/
def heldDesc (s : State) (j : JobId) (d : Bytes) (host : Option Bytes) : State :=
  match fetchBuf s j (leAt d 24 8) (leAt d 32 8) host with
  | .error st => complete s (vfOf j) d st (body 0 0 0 0)
  | .ok b =>
    if ¬ s.conf j then holdSet s j d b
    else if b.length ≠ 144 + leAt b 8 8 then complete s (vfOf j) d .badDescriptor (body 0 0 0 0)
    else importSet s j d b

/-- HELD_LOAD (R418): it waits while a Gate of the job runs. -/
def execHeldLoad (j : JobId) (host : Option Bytes) (s : State) : Res :=
  .next (if (s.job j).rounds.any (fun x => x.phase == .gate) then s else startVf s j 0x13 (fun t d => heldDesc t j d host))

end Sys2Proof.Machine
end

