-- ==== Sys2Proof/Machine/Rings.lean ====
section
/-! DEFINITION. The host's own accesses to its rings, results and event log: the doorbells and their errors (R431 to R433), the enabling of a ring (R412, R434), the round results in registers (R436 to R439) and the log's reads and flushes (R448, R450). -/

namespace Sys2Proof.Machine

/-- A submission ring in error (R431). -/
def sqError (s : State) (f : Func) : State := raise (ev (fset s HIF_VF_STATUS.SQ_ERR f 0 1) HIF_EVENT.SQ_ERR_EV) f 3

/-- A completion ring in error (R432). -/
def cqError (s : State) (f : Func) : State := raise (ev (fset s HIF_VF_STATUS.CQ_ERR f 0 1) HIF_EVENT.CQ_ERR_EV) f 3

/-- A write of the submission tail: ignored while the ring is disabled, an error where it lies beyond the ring (R431, R433). -/
def writeSqTail (s : State) (f : Func) (v : Nat) : State :=
  if fget s HIF_VF_SQ_CFG.ENABLE f 0 = 0 then s
  else if sqSize s f ≤ v % 65536 then sqError s f
  else fset s HIF_VF_SQ_TAIL.TAIL f 0 (v % 65536)

/-- SQ_TAIL_DOORBELL (R431). -/
def execSqTailDoorbell (f : Func) (v : BitVec 32) (s : State) : Res := .next (writeSqTail s f v.toNat)

/-- A write of the completion head: it frees entries, and is an error where it lies beyond the ring or frees what is not written (R432, R433). -/
def writeCqHead (s : State) (f : Func) (v : Nat) : State :=
  let h := v % 65536
  if fget s HIF_VF_CQ_CFG.ENABLE f 0 = 0 then s
  else if cqSize s f ≤ h then cqError s f
  else if cqUsed s f < (h + cqSize s f - fget s HIF_VF_CQ_HEAD.HEAD f 0) % cqSize s f then cqError s f
  else fset s HIF_VF_CQ_HEAD.HEAD f 0 h

/-- CQ_HEAD_DOORBELL (R432). -/
def execCqHeadDoorbell (f : Func) (v : BitVec 32) (s : State) : Res := .next (writeCqHead s f v.toNat)

/-! Enabling. -/

/-- Whether a function's rings accept ENABLE (R412). -/
def mayEnable (s : State) (f : Func) : Bool := f == pf0 || fget s HIF_VF_STATUS.HAIL_DONE f 0 == 1

/-- The submission ring as it is enabled (R412, R433). -/
def openSq (s : State) (f : Func) : State :=
  fset (fset (fset s HIF_VF_SQ_HEAD.HEAD f 0 0) HIF_VF_SQ_TAIL.TAIL f 0 0) HIF_VF_STATUS.SQ_ERR f 0 0

/-- The fields of SQ_CFG beside ENABLE stored: an undefined encoding leaves its field (R18); the admin ring keeps ABI 2 (R434). -/
def storeSqCfg (s : State) (f : Func) (v : Nat) : State :=
  let s := storeField f 0 v s HIF_VF_SQ_CFG.LOG2_SIZE
  if f ≠ pf0 ∧ (bits v 17 16 = 1 ∨ bits v 17 16 = 2) then fset s HIF_VF_SQ_CFG.ABI f 0 (bits v 17 16) else s

/-- A write of SQ_CFG (R412, R433, R434). -/
def writeSqCfg (s : State) (f : Func) (v : Nat) : State :=
  let conf := (jobOf f).any (fun j => s.conf j)
  if conf ∧ bit v 31 ∧ bits v 17 16 = 1 then s
  else
    let was := fget s HIF_VF_SQ_CFG.ENABLE f 0
    let s := storeSqCfg s f v
    if ¬ bit v 31 then fset s HIF_VF_SQ_CFG.ENABLE f 0 0
    else if was = 1 ∨ ¬ mayEnable s f then s
    else openSq (fset s HIF_VF_SQ_CFG.ENABLE f 0 1) f

/-- SQ_ENABLE (R412). -/
def execSqEnable (f : Func) (v : BitVec 32) (s : State) : Res := .next (writeSqCfg s f v.toNat)

/-- The completion ring as it is enabled: the held completions are posted in the order in which they fell due (R412, R433). -/
def openCq (s : State) (f : Func) : State :=
  let s := fset (fset (fset s HIF_VF_CQ_HEAD.HEAD f 0 0) HIF_VF_CQ_TAIL.TAIL f 0 0) HIF_VF_CQ_TAIL.PHASE f 0 1
  let s := fset s HIF_VF_STATUS.CQ_ERR f 0 0
  let due := (s.ring f).held
  due.foldl (fun t d => post t f d) (s.modRing f (fun r => { r with held := [], cseq := 1 }))

/-- A write of CQ_CFG (R412, R433). -/
def writeCqCfg (s : State) (f : Func) (v : Nat) : State :=
  let was := fget s HIF_VF_CQ_CFG.ENABLE f 0
  let s := storeField f 0 v s HIF_VF_CQ_CFG.LOG2_SIZE
  if ¬ bit v 31 then fset s HIF_VF_CQ_CFG.ENABLE f 0 0
  else if was = 1 ∨ ¬ mayEnable s f then s
  else openCq (fset s HIF_VF_CQ_CFG.ENABLE f 0 1) f

/-- CQ_ENABLE (R412, R433). -/
def execCqEnable (f : Func) (v : BitVec 32) (s : State) : Res := .next (writeCqCfg s f v.toNat)

/-! Round results. -/

/-- The fields of a result as RES_STAT shows them. -/
def resultWord (r : Nat × Nat × Nat × Bytes) : Nat := r.2.1 % 256 * 2 ^ 48 + r.2.2.1 % 65536 * 2 ^ 32 + r.1 % 2 ^ 32

/-- A read of RES_STAT: the oldest result not yet taken is taken; else the last one is stale, or none is ready (R436 to R439). -/
def readResult (s : State) (f : Func) : Nat × State :=
  match (s.ring f).results with
  | r :: rs =>
    let s := s.modRing f (fun g => { g with results := rs, taken := some r })
    (resultWord r, setGroup s HIF_VF_RES_DIGEST.DIGEST f r.2.2.2 6)
  | [] =>
    match (s.ring f).taken with
    | some r => (2 ^ 62 + resultWord r, s)
    | none => (2 ^ 63, s)

/-- RES_STAT_READ (R436 to R438). -/
def execResStatRead (j : JobId) (s : State) : Res :=
  let (v, t) := readResult s (vfOf j)
  .next (emit t (.readValue (vfOf j) 0x48 v))

/-! The event log. -/

/-- A read of EVLOG_DATA: the next word is removed; an empty log reads 0 and notes UNDERRUN (R448). -/
def readLog (s : State) (f : Func) : Nat × State :=
  match s.log f with
  | w :: ws => (w, s.setLog f ws)
  | [] => (0, fset s HIF_VF_EVLOG_STAT.UNDERRUN f 0 1)

/-- EVLOG_DATA_READ (R448). -/
def execEvlogDataRead (f : Func) (s : State) : Res :=
  let (v, t) := readLog s f
  .next (emit t (.readValue f 0x88 v))

/-- A write of EVLOG_CTRL: FLUSH_ALL discards every record, FLUSH the rest of a record partly read (R450). -/
def writeEvlogCtrl (s : State) (f : Func) (v : Nat) : State :=
  if bit v 1 then s.setLog f [] else if bit v 0 then s.setLog f ((s.log f).drop ((s.log f).length % 4)) else s

/-- EVLOG_FLUSH (R450). -/
def execEvlogFlush (f : Func) (v : BitVec 32) (s : State) : Res := .next (writeEvlogCtrl s f v.toNat)

/-- EVLOG_FLUSH_ALL (R450). -/
def execEvlogFlushAll (f : Func) (v : BitVec 32) (s : State) : Res := .next (writeEvlogCtrl s f v.toNat)

end Sys2Proof.Machine
end

