-- ==== Sys2Proof/Machine/Ferry.lean ====
section
/-! DEFINITION. Ferry: its channels at the host's ends and at the firmware's (R440 to R444), and the Hail handshake (R445). -/

namespace Sys2Proof.Machine

/-! The ends (R440, R441). -/

/-- The function at an end. -/
def endFunc (e : FerryEnd) : Func := if h : e.val < 16 then ⟨e.val, by omega⟩ else pf0
/-- The channel on which an end sends. -/
def txChan (e : FerryEnd) : Fin 64 := if h : e.val < 16 then ⟨e.val, by omega⟩ else if e = 16 then 32 else 34
/-- The channel on which an end receives. -/
def rxChan (e : FerryEnd) : Fin 64 := if h : e.val < 16 then ⟨16 + e.val, by omega⟩ else if e = 16 then 33 else 35
/-- The stamp of an end's own sends. -/
def endStamp (e : FerryEnd) : Nat := if e.val < 16 then 0x10 + e.val else 0
/-- The stamp of the firmware agent that sends to an end. -/
def coreStamp (e : FerryEnd) : Nat := if e.val < 16 then 0x20 + e.val % 6 else if e = 16 then 0x20 else 0x28
/-- The end at which a function shakes hands. -/
def hailEnd (f : Func) : FerryEnd := ⟨f.val, by omega⟩

/-- A channel. -/
def State.chan (s : State) (c : Fin 64) : Channel := s.channels[c]
/-- A channel changed. -/
def State.modChan (s : State) (c : Fin 64) (g : Channel → Channel) : State := { s with channels := s.channels.set c (g (s.chan c)) }

/-- A block that firmware sends to an end: stored and announced, or held until the receiver takes the one before it (R442, R446). -/
def coreSend (s : State) (e : FerryEnd) (b : Bytes) : State :=
  if (s.chan (rxChan e)).block.isSome then s.modChan (rxChan e) (fun c => { c with waiting := c.waiting ++ [b] })
  else raise (s.modChan (rxChan e) (fun c => { c with block := some (b, coreStamp e) })) (endFunc e) 1

/-! The host's accesses. -/

/-- The outgoing block of an end: the first bytes of FERRY_TX_DATA. -/
def txBlock (s : State) (e : FerryEnd) (n : Nat) : Bytes :=
  (List.flatten ((List.range 8).map (fun i => toLe 8 (fget s FERRY_TX_DATA.DATA e i)))).take n

/-- A write of FERRY_TX_CTRL: a block is stored or refused with BUSY, a notice is ORed in (R442, R443). -/
def writeTxCtrl (s : State) (e : FerryEnd) (v : Nat) : State :=
  if bit v 8 then
    s.modChan (txChan e) (fun c => { c with notice := c.notice ||| v / 2 ^ 32, noticeBy := endStamp e })
  else
    let n := v % 128
    if n = 0 ∨ 64 < n then s
    else if (s.chan (txChan e)).block.isSome then fset s FERRY_TX_STAT.BUSY e 0 1
    else s.modChan (txChan e) (fun c => { c with block := some (txBlock s e n, endStamp e) })

/-- FERRY_BLOCK_SEND (R442): a write of FERRY_TX_CTRL. -/
def execFerryBlockSend (e : FerryEnd) (v : Word) (s : State) : Res := .next (writeTxCtrl s e v.toNat)

/-- FERRY_NOTICE_SEND (R443): a write of FERRY_TX_CTRL. -/
def execFerryNoticeSend (e : FerryEnd) (v : Word) (s : State) : Res := .next (writeTxCtrl s e v.toNat)

/-- A write of FERRY_RX_TAKE: the held block is taken, and the next send that firmware holds is stored (R442). -/
def writeRxTake (s : State) (e : FerryEnd) (v : Nat) : State :=
  if ¬ bit v 0 ∨ (s.chan (rxChan e)).block.isNone then s
  else
    let s := s.modChan (rxChan e) (fun c => { c with block := none })
    match (s.chan (rxChan e)).waiting with
    | [] => s
    | b :: bs => coreSend (s.modChan (rxChan e) (fun c => { c with waiting := bs })) e b

/-- FERRY_TAKE (R442). -/
def execFerryTake (e : FerryEnd) (v : BitVec 32) (s : State) : Res := .next (writeRxTake s e v.toNat)

/-- A read of FERRY_RX_NOTICE: the notice word is read and cleared (R443). -/
def readNotice (s : State) (e : FerryEnd) : Nat × State := ((s.chan (rxChan e)).notice, s.modChan (rxChan e) (fun c => { c with notice := 0 }))

/-- The offset at which an end's registers begin: in the VF page, or in PF0's BAR0 (R451). -/
def endBase (e : FerryEnd) : Nat := if e.val < 16 then 0x100 else if e = 16 then 0x100000 else 0x100200

/-- FERRY_NOTICE_READ (R443). -/
def execFerryNoticeRead (e : FerryEnd) (s : State) : Res :=
  let (v, t) := readNotice s e
  .next (emit t (.readValue (endFunc e) (endBase e + 0xD0) v))

/-- A channel's receiver reset: nothing stored or held is delivered (R442, R444). -/
def resetReceiver (s : State) (e : FerryEnd) : State := s.modChan (rxChan e) (fun c => { c with block := none, notice := 0, waiting := [] })

/-- A Hail session falls due for a function (R445). -/
def dueHail (s : State) (f : Func) : State := { s with hailDue := if s.hailDue.contains f.val then s.hailDue else s.hailDue ++ [f.val] }

/-- A write of FERRY_CTRL (R444, R445). -/
def writeFerryCtrl (s : State) (e : FerryEnd) (v : Nat) : State := if bit v 0 then dueHail (resetReceiver s e) (endFunc e) else s

/-- FERRY_RX_RESET (R444). -/
def execFerryRxReset (e : FerryEnd) (v : BitVec 32) (s : State) : Res := .next (writeFerryCtrl s e v.toNat)

/-! Hail. -/

/-- A Hail message (R445). -/
def hailMsg (type session sw abis : Nat) : Bytes := toLe 1 type ++ [4] ++ zeros 2 ++ toLe 4 session ++ toLe 8 sw ++ toLe 1 abis ++ zeros 7

/-- HAIL_SEND (R445): firmware opens the session that is due with a function. -/
def execHailSend (f : Func) (s : State) : Res :=
  .next (if ¬ booted s ∨ ¬ s.hailDue.contains f.val then s
    else
      let n := s.hailCount
      let s := fset s HIF_VF_STATUS.HAIL_DONE f 0 0
      let s := { s with hailDue := s.hailDue.erase f.val, hailSession := putN s.hailSession f.val n, hailCount := (n + 1) % 2 ^ 32 }
      coreSend s (hailEnd f) (hailMsg 1 n s.fwVersion 6))

/-- An outage ends once every function has completed Hail (R595). -/
def endOutage (s : State) : State :=
  match s.outageFrom with
  | none => s
  | some t =>
    if allFuncs.all (fun f => fget s HIF_VF_STATUS.HAIL_DONE f 0 == 1) then
      { set1 s TRI_AVAIL.OUTAGE_MS (get1 s TRI_AVAIL.OUTAGE_MS + (s.clock - t) / 1000000) with outageFrom := none }
    else s

/-- Whether a block on a channel that firmware receives is a HAIL_ACK. -/
def isAck (b : Bytes) : Bool := leAt b 0 1 == 2

/-- The reply to a HAIL_ACK: the SESSION echoed; what firmware puts into SW_ID and RING_ABIS of a reply is not given (assumption 5). -/
def hailReply (s : State) (f : Func) (type session : Nat) : State :=
  let (a, s) := freeValue s
  let (b, s) := freeValue s
  coreSend s (hailEnd f) (hailMsg type session a.toNat b.toNat)

/-- HAIL_ACK (R445): firmware takes a function's answer; a valid one completes the handshake, any other draws a HAIL_NAK. -/
def execHailAck (f : Func) (s : State) : Res :=
  let c := txChan (hailEnd f)
  .next (match (s.chan c).block with
    | none => s
    | some (b, _) =>
      if ¬ booted s ∨ ¬ isAck b then s
      else
        let s := s.modChan c (fun c => { c with block := none })
        if lookup s.hailSession f.val = some (leAt b 4 4) ∧ leAt b 1 1 = 4 then
          endOutage (fset (hailReply s f 4 (leAt b 4 4)) HIF_VF_STATUS.HAIL_DONE f 0 1)
        else ev (hailReply s f 3 (leAt b 4 4)) HIF_EVENT.HAIL_FAIL_EV)

/-- Whether firmware receives on a channel from a host function (R440). -/
def coreReceives (c : Fin 64) : Bool := decide (c.val < 16) || c == 32 || c == 34

/-- FIRMWARE_BLOCK_TAKE (R442, R445): firmware takes and discards a block that is no HAIL_ACK, any block on channel 34, and every notice. -/
def execFirmwareBlockTake (ch : Fin 64) (s : State) : Res :=
  .next (if ¬ booted s ∨ ¬ coreReceives ch then s
    else s.modChan ch (fun c => { c with
      block := if ch = 34 ∨ (c.block.map (fun b => !isAck b.1)).getD false then none else c.block
      notice := 0 }))

end Sys2Proof.Machine
end

