-- ==== Sys2Proof/Machine/Link.lean ====
section
/-! DEFINITION. The CXL link: its training (R399), the HDM window (R405, R406), the loss of trust (R410, R560), and the function-level resets (R401, R632, R633). -/

namespace Sys2Proof.Machine

/-- LINK_TRAIN (R399): 16 lanes, or 8, or down with the attempt counted. -/
def execLinkTrain (lanes : Nat) (s : State) : Res :=
  .next (if lanes < 8 then
      countSat (set1 (set1 (set1 s HIF_LINK.UP 0) HIF_LINK.WIDTH 0) HIF_LINK.SPEED 0) HIF_LINK.TRAIN_FAILS 0 0 1
    else set1 (set1 (set1 s HIF_LINK.UP 1) HIF_LINK.WIDTH (if lanes < 16 then 8 else 16)) HIF_LINK.SPEED 0x40)

/-! The window. -/

/-- Whether an offset of the window lies in some job's region (R405). -/
def inSomeRegion (s : State) (a : Nat) : Bool :=
  decide (a < hdmBytes s) && (List.range 16).any (fun j =>
    let b := fget s HIF_HDM_REGION.BASE_GIB 0 j
    decide (b ≤ a / 2 ^ 30 ∧ a / 2 ^ 30 < b + fget s HIF_HDM_REGION.SIZE_GIB 0 j))

/-- HDM_ACCESS (R405, R406): a CXL.mem read of a line, or a write into it; outside every region a read answers zero with poison, a write is dropped, and both are counted. -/
def execHdmAccess (addr : Nat) (w : Option Bytes) (s : State) : Res :=
  .next (if inSomeRegion s addr then
      match w with
      | none => emit s (.hdm (memRead s.hdm (addr / 64 * 64) 64) false)
      | some d => { s with hdm := memWrite s.hdm addr (d.take (64 - addr % 64)) }
    else
      let s := ev (count s HIF_HDM_ERR.COUNT 0 0 1) HIF_EVENT.HDM_EV
      match w with
      | none => emit s (.hdm (zeros 64) true)
      | some _ => s)

/-! Trust. -/

/-- A VF leaves the TSP locked state. -/
def tspUnlock (s : State) (j : JobId) : State := { s with tspLocked := s.tspLocked.erase j.val }

/-- The confidential jobs that a test picks are aborted with TRUST_LOST (R410). -/
def trustLost (s : State) (p : JobId → Bool) : State :=
  (List.finRange 16).foldl (fun t (j : JobId) => if t.conf j ∧ p j then abortJob t j 4 0 false else t) s

/-- TRUST_LOSS (R410, R560): IDE stops, and with it every lock; or one VF leaves the locked state. -/
def execTrustLoss (vf : Option JobId) (s : State) : Res :=
  .next (match vf with
    | none =>
      if ¬ s.ideOn then s
      else trustLost (ev { set1 s HIF_LINK.IDE_ACTIVE 0 with ideOn := false, tspLocked := [] } HIF_EVENT.IDE_EV) (fun _ => true)
    | some j => if s.tspLocked.contains j.val then trustLost (ev (tspUnlock s j) HIF_EVENT.IDE_EV) (· == j) else s)

/-- TSP_LOCK (R560): a trusted guest's lock request locks its VF. -/
def execTspLock (j : JobId) (s : State) : Res :=
  .next { s with tspLocked := if s.tspLocked.contains j.val then s.tspLocked else s.tspLocked ++ [j.val] }

/-! Function-level resets. -/

/-- Whether a register is of the pages of the functions, the HIF and Ferry part of them and the job-scoped part (R403, R451). -/
def pageReg (r : Reg) : Bool := r.place.vfOff.isSome && r != .ENT_SW_DATA

/-- The registers of a VF page that are the VF's alone, returned to their reset values; whether the job exists and is confidential stays shown (R401, R403). -/
def resetPage (s : State) (j : JobId) : State :=
  resetRegs s (fun k => k.major == j.val && pageReg k.reg &&
    !(k.reg == .HIF_VF_STATUS && (k.lo == HIF_VF_STATUS.JOB_CREATED.lo || k.lo == HIF_VF_STATUS.CONFIDENTIAL.lo)))

/-- Everything that a function's rings hold discarded: it owes nothing (R429). -/
def dropRing (s : State) (f : Func) : State := s.modRing f (fun g => { g with descs := [], held := [], owed := 0 })

/-- The invocations of a job complete unwritten (R429). -/
def muteInvokes (s : State) (j : JobId) : State :=
  { s with
    contexts := s.contexts.map (fun c => if c.2.job == j then (c.1, { c.2 with fromHost := none }) else c)
    waiting := s.waiting.filter (fun w => w.job != j) }

/-- The abort that a function-level reset starts; one in progress goes on, and reports through the log alone (R632, R634). -/
def flrAbort (s : State) (j : JobId) : State :=
  if abortRuns s j then s.modJob j (fun J => { J with silent := true }) else abortJob s j 12 0 true

/-- VF_FLR (R632): the rings are disabled, the log is emptied, the job's abort starts, the channels are reset and the page returns to its reset values. -/
def execVfFlr (j : JobId) (s : State) : Res :=
  let f := vfOf j
  let e := hailEnd f
  let s := emptyLog (muteInvokes (dropRing (disableRings s f) f) j) f
  let s := if s.tspLocked.contains j.val then ev (tspUnlock s j) HIF_EVENT.IDE_EV else s
  let s := (resetReceiver (flrAbort s j) e).modChan (txChan e) (fun c => { c with block := none, notice := 0 })
  .next (dueHail (dropResults (resetPage s j) f) f)

/-- The descriptors of the admin ring at its function's reset: those that have not started are gone, the others complete unwritten (R633). -/
def muteAdmin (s : State) : State :=
  s.modRing pf0 (fun g => { g with
    descs := (g.descs.filter (·.started)).map (fun d => { d with silent := true })
    held := []
    owed := 0 })

/-- PF0_FLR (R633): the admin ring is disabled, its unstarted descriptors are cancelled, PF0's receivers and its HIF admin and log registers are reset; no job is touched. -/
def execPf0Flr (s : State) : Res :=
  let s := muteAdmin (disableRings s pf0)
  let s := resetReceiver (resetReceiver s 16) 17
  .next (dueHail (resetRegs s (fun k => k.major == 16 && (k.reg.place.vfOff.map (fun o => decide (o < 0x100))).getD false)) pf0)

end Sys2Proof.Machine
end

