-- ==== Sys2Proof/Machine/Rdma.lean ====
section
/-! DEFINITION. Field ports and the responder: the frames that a port accepts (R454, R455, R458, R461), the request checks (R467, R468, R470, R489, R490) and the operations into the Vat and HBM (R190 to R193, R469, R471 to R474), datagrams and peer notices (R468, R585, R586). -/

namespace Sys2Proof.Machine

/-! Frames. -/

/-- A port's address as an IPv6 address (R455). -/
def portIp (s : State) (p : Port) : Nat := fget s RDMA_PORT_IP.ADDR p 0 * 2 ^ 64 + fget s RDMA_PORT_IP.ADDR p 1

/-- Whether an address has the IPv4-mapped form (R455). -/
def isMapped (a : Nat) : Bool := a / 2 ^ 32 == 0xFFFF

/-- Whether a packet's network header is destined to the port: IPv4 for an IPv4-mapped port address, else IPv6 (R454, R455). -/
def toPort (s : State) (p : Port) : Net → Bool
  | .ipv4 dst _ _ => isMapped (portIp s p) && portIp s p % 2 ^ 32 == dst.toNat
  | .ipv6 dst _ => !isMapped (portIp s p) && portIp s p == dst.toNat
  | .other _ => false

/-- Whether a network header carries options, fragmentation or extension headers. -/
def Net.extended : Net → Bool
  | .ipv4 _ o f => o || f
  | .ipv6 _ e => e
  | .other _ => false

/-- Whether a frame's 802.1Q tag is as the port requires (R454). -/
def vlanOk (s : State) (p : Port) (f : Frame) : Bool :=
  match f.vlan with
  | some v => fget s RDMA_PORT_CFG.VLAN_EN p 0 == 1 && v.toNat == fget s RDMA_PORT_CFG.VLAN_ID p 0
  | none => fget s RDMA_PORT_CFG.VLAN_EN p 0 == 0

/-- Whether a frame matches the RoCEv2 row (R454). -/
def isRoce (s : State) (p : Port) (f : Frame) : Bool :=
  f.dmac.toNat == fget s RDMA_PORT_CFG.MAC p 0 && toPort s p f.net && !Net.extended f.net && f.udpPort == 4791

/-- Whether a frame matches a PTP row: over UDP to the port or the PTP multicast address of its family, without options, fragments or extension headers, or by Ethertype (R25, R454). -/
def isPtp (s : State) (p : Port) (f : Frame) : Bool :=
  let mine := f.dmac.toNat == fget s RDMA_PORT_CFG.MAC p 0
  let udp := f.udpPort == 319 || f.udpPort == 320
  match f.net with
  | .ipv4 dst _ _ => !Net.extended f.net && udp && (mine || f.dmac == 0x01005E000181) && (toPort s p f.net || dst == 0xE0000181)
  | .ipv6 dst _ => !Net.extended f.net && udp && (mine || f.dmac == 0x333300000181) && (toPort s p f.net || dst == 0xFF0E0000000000000000000000000181)
  | .other t => t == 0x88F7 && (mine || f.dmac == 0x011B19000000)

/-- A packet for a queue pair: its context is used, or where that is not on the die the packet is held while it loads (R461, R462). -/
def missContext (s : State) (q : Nat) : State :=
  if fget s RDMA_QP_STAT.RESIDENT q 0 = 1 then touchQp s q
  else if qpState s q = 0 then s
  else
    let s := pmu (countSat s RDMA_CACHE.MISSES 0 0 1) 0x06 (some (Fin.ofNat 16 (fget s RDMA_QP_CFG.JOB q 0))) 1
    if s.missQueue.length < 4096 then { s with missQueue := s.missQueue ++ [q] } else s

/-- A RoCEv2 packet taken into the port's FIFO (R99, R458, R461, R569, R570). -/
def takeRoce (s : State) (p : Port) (f : Frame) : State :=
  if ¬ f.icrcOk then countSat s RDMA_PORT_STAT.ICRC_ERR p 0 1
  else if f.q < 2 ∨ 2 ^ 20 ≤ f.q then dropFrame s p
  else if 2 ^ 20 < f.fifoOcc + f.bytes then ev (count s LND_PORT_FIFO.DROPS p 0 1) LND_EVENT.FIFO_EV
  else
    let s := fset s LND_PORT_FIFO.HWM p 0 (max (fget s LND_PORT_FIFO.HWM p 0) (f.fifoOcc + f.bytes))
    if f.parity then errLast (countSat s TRI_FAILS.PATH_PARITY 0 0 1) 1 (fget s RDMA_QP_CFG.JOB f.q 0) 1 p
    else missContext s f.q

/-- PORT_FRAME (R453 to R455): a frame is dropped and counted, or accepted for RoCEv2 or PTP. -/
def execPortFrame (p : Port) (f : Frame) (s : State) : Res :=
  .next (if ¬ portOn s p then s
    else if ¬ f.fcsOk then countSat s RDMA_PORT_STAT.FCS_ERR p 0 1
    else if ¬ vlanOk s p f ∨ ¬ f.sumOk then dropFrame s p
    else if isRoce s p f then takeRoce s p f
    else if isPtp s p f then s
    else dropFrame s p)

/-! The request checks. -/

/-- Step 2 on a sealed queue pair: the packet's payload in clear, or none where it is dropped (R489, R490). -/
def openSeal (s : State) (p : Packet) : Option Bytes × State :=
  if fget s RDMA_QP_CFG.SEALED p.q 0 = 0 then (some p.data, s)
  else
    let (n, aad, tag) := p.sealing.getD (0, [], [])
    match (s.qp p.q).keys with
    | none => (none, s)
    | some k =>
      if n ≤ (s.qp p.q).rxCount then (none, countSat s RDMA_ERR.REPLAY 0 0 1)
      else match gcmOpen k.2.1 (k.2.2.2 ++ toBe 8 n) aad p.data tag with
        | none =>
          let s := (countSat s RDMA_ERR.SEAL_FAIL 0 0 1).modQp p.q (fun x => { x with badTags := x.badTags + 1 })
          (none, if 16 ≤ (s.qp p.q).badTags then qpError s p.q 7 else s)
        | some d =>
          let s := s.modQp p.q (fun x => { x with rxCount := n, badTags := 0 })
          if 2 ^ 48 ≤ n then (none, qpError s p.q 7) else (some d, s)

/-- What steps 1 to 4 of the request checks find: nothing more to do, a duplicate, or a request to go on with, each with its payload in clear. -/
inductive Arrival where
  | done
  | again (data : Bytes)
  | proceed (data : Bytes)

/-- Steps 1 to 4 for a request that takes `n` PSNs on a queue pair of a class that `ok` allows (R457, R467). -/
def arrive (s : State) (p : Packet) (n : Nat) (ok : Nat → Bool) : Arrival × State :=
  if ¬ portOn s p.port then (.done, s)
  else if fget s RDMA_QP_CFG.TYPE p.q 0 = 1 ∨ (qpState s p.q ≠ 2 ∧ qpState s p.q ≠ 3) ∨ fget s RDMA_QP_CFG.PORT p.q 0 ≠ p.port.val then
    (.done, dropFrame s p.port)
  else match openSeal s p with
    | (none, s) => (.done, s)
    | (some d, s) =>
      let e := fget s RDMA_QP_PSN.RQ_PSN p.q 0
      if p.psn.toNat = e then
        let s := fset s RDMA_QP_PSN.RQ_PSN p.q 0 (e + n)
        if ok (fget s RDMA_QP_CFG.CLASS p.q 0) then (.proceed d, s) else (.done, sendNak s p.q p.psn.toNat .invalid)
      else if (e + 2 ^ 24 - p.psn.toNat) % 2 ^ 24 < 2 ^ 23 then (.again d, s)
      else (.done, sendNak s p.q p.psn.toNat .psn)

/-- Steps 5 to 8: the region that a key admits for a right and a range (R463, R467). -/
def keyCheck (s : State) (p : Packet) (right : Nat) : Option Nat :=
  let j := qpJob s p.q
  let k := p.rkey.toNat
  let g := k / 256 % 4096
  if (s.job j).present ∧ k / 2 ^ 20 = fget s RDMA_JOB_KEY.JOB_KEY j 0 ∧ fget s RDMA_REG_CFG.STATE j g = 1 ∧ fget s RDMA_REG_CFG.GEN j g = k % 256 ∧
      (fget s RDMA_REG_CFG.BIND_EN j g = 0 ∨ fget s RDMA_REG_CFG.BIND_QP j g = p.q.val) ∧ bit (fget s RDMA_REG_CFG.RIGHTS j g) right ∧
      fget s RDMA_REG_BASE.VA j g ≤ p.va ∧ p.va + p.len ≤ fget s RDMA_REG_BASE.VA j g + fget s RDMA_REG_LEN.LEN j g then some g
  else none

/-- Whether a range touches a job's add window. -/
def touchesWindow (s : State) (j : JobId) (a n : Nat) : Bool := overlap (a, max n 1) (window s j)

/-- Whether a job's add window is open (R192). -/
def windowOpen (s : State) (j : JobId) : Bool := fget s VAT_JOB_CTRL.ADD_OPEN j 0 == 1

/-- The peer-done line of the round whose totals the window holds: it follows the totals and the counts (R190, R193). -/
def peerDoneLine (s : State) (j : JobId) : Option Nat := ((windowRound s j).bind (s.round? j)).map (fun x => peerLine s j x.plan)

/-- Whether a range touches the peer-done line. -/
def touchesPeer (s : State) (j : JobId) (a n : Nat) : Bool := ((peerDoneLine s j).map (fun l => overlap (a, max n 1) (l, 64))).getD false

/-- Step 10 for a WRITE or an atomic add: inside the window, only while it is open, in whole words, and never on the peer-done line (R190, R192). -/
def windowOk (s : State) (j : JobId) (a n : Nat) : Bool :=
  !touchesWindow s j a n || windowOpen s j && a % 8 == 0 && n % 8 == 0 && !touchesPeer s j a n

/-! Placement. -/

/-- The GADDs of a part of a WRITE that lies in the window: one for each word (R190). -/
def addWords (s : State) (j : JobId) (a : Nat) (d : Bytes) : State :=
  (List.range (d.length / 8)).foldl (fun t i => gaddJob t j (a + 8 * i) (BitVec.ofNat 64 (leAt d (8 * i) 8))) s

/-- The part of a WRITE that falls on one line; none of it where a poisoned line refuses it, and nothing after that (R155, R471). -/
def placeLine (j : JobId) (a : Nat) (d : Bytes) (acc : State × Bool) (l : Nat) : State × Bool :=
  let lo := max a l
  let hi := min (l + 64) (a + d.length)
  let win := touchesWindow acc.1 j lo (hi - lo)
  if !acc.2 || acc.1.poison.contains (poisonKey acc.1 j l) && (win || decide (hi - lo < 64)) then (acc.1, false)
  else if win then (addWords acc.1 j lo (slice d (lo - a) (hi - lo)), true)
  else (storeLine j a d acc.1 l, true)

/-- A WRITE's payload placed: the machine after it, and whether all of it was placed (R469, R471). -/
def placeWrite (s : State) (j : JobId) (a : Nat) (d : Bytes) : State × Bool :=
  (linesOf a d.length).foldl (placeLine j a d) (bankWork s j a d.length (bankOps d.length), true)

/-- The open WRITE of a queue pair. -/
def openWrite (s : State) (q : Nat) : Option OpenWrite := s.openWrites.find? (fun w => w.qpn == q)

/-- What follows the placement of a packet: the write stays open until its last packet, which is acknowledged (R469, R471, R472). -/
def packetPlaced (p : Packet) (g va left : Nat) (s : State) (ok : Bool) : State :=
  if ¬ ok then sendNak s p.q p.psn.toNat .operational
  else
    let rest := s.openWrites.filter (fun w => w.qpn != p.q.val)
    let s := { s with openWrites := if p.last then rest else rest ++ [(⟨p.q.val, qpJob s p.q, g, va, left, false⟩ : OpenWrite)] }
    let s := fset (s.modQp p.q (fun x => { x with inMsg := if p.last then none else some (qpJob s p.q, g) })) RDMA_QP_STAT.IN_MSG p.q 0 (flag !p.last)
    if p.last then sendAckTo s p.q p.psn.toNat [] else s

/-- A packet of a WRITE placed, `left` bytes of whose length remain; a payload beyond the length with which the first packet passed the checks is refused (R31, assumption 98). -/
def placePacket (s : State) (p : Packet) (g va left : Nat) (d : Bytes) : State :=
  if left < d.length then sendNak s p.q p.psn.toNat .invalid
  else
    let (t, ok) := placeWrite s (qpJob s p.q) va d
    packetPlaced p g (va + d.length) (left - d.length) t ok

/-- The classes whose queue pairs carry WRITE, READ, atomics and FLUSH (R457). -/
def memoryClass (c : Nat) : Bool := c == 1 || c == 2

/-- RDMA_WRITE (R467, R469): a packet of a WRITE; the later packets take the outcome of the first, unless their write is cut off (R484). -/
def execRdmaWrite (p : Packet) (s : State) : Res :=
  .next (match arrive s p 1 memoryClass with
    | (.done, s) => s
    | (.again _, s) => if p.last then sendAckTo s p.q p.psn.toNat [] else s
    | (.proceed d, s) =>
      if p.first then
        match keyCheck s p 1 with
        | none => sendNak s p.q p.psn.toNat .access
        | some g => if windowOk s (qpJob s p.q) p.va p.len then placePacket s p g p.va p.len d else sendNak s p.q p.psn.toNat .access
      else match openWrite s p.q with
        | none => sendNak s p.q p.psn.toNat .invalid
        | some w => if w.cut then sendNak s p.q p.psn.toNat .access else placePacket s p w.region w.va w.left d)

/-- A READ from step 5 on: the lines as they stand, or an error, which a closed add window and a poisoned line draw; the line is recorded and aborts no job (R192, R467, R471). -/
def answerRead (s : State) (p : Packet) : State :=
  let j := qpJob s p.q
  match keyCheck s p 0 with
  | none => sendNak s p.q p.psn.toNat .access
  | some _ =>
    if touchesWindow s j p.va p.len ∧ ¬ windowOpen s j then sendNak s p.q p.psn.toNat .access
    else match (linesOf p.va p.len).find? (fun l => s.poison.contains (poisonKey s j l)) with
    | some l => sendNak (recordPoison s j l) p.q p.psn.toNat .operational
    | none => sendAckTo (bankWork s j p.va p.len (bankOps p.len)) p.q p.psn.toNat (jobRead s j p.va p.len)

/-- RDMA_READ (R467, R469, R470). -/
def execRdmaRead (p : Packet) (s : State) : Res :=
  .next (match arrive s p (psnCount s p.q p.len) memoryClass with
    | (.done, s) => s
    | (.again _, s) => answerRead s p
    | (.proceed _, s) => answerRead s p)

/-- The previous value of an atomic answered, and kept for a duplicate (R469, R470). -/
def answerAtomic (s : State) (p : Packet) (old : Word) : State :=
  sendAckTo (s.modQp p.q (fun x => { x with replay := ((p.psn.toNat, old.toNat) :: x.replay).take 16 })) p.q p.psn.toNat (toBe 8 old.toNat)

/-- An atomic: checked from step 5 on, or answered from the replay cache (R467, R469 to R471). -/
def runAtomic (s : State) (p : Packet) (inWindow : Bool) (act : State → JobId → Word → State) : State :=
  let p := { p with len := 8 }
  match arrive s p 1 memoryClass with
  | (.done, s) => s
  | (.again _, s) =>
    match lookup (s.qp p.q).replay p.psn.toNat with
    | none => sendNak s p.q p.psn.toNat .invalid
    | some v => sendAckTo s p.q p.psn.toNat (toBe 8 v)
  | (.proceed _, s) =>
    let j := qpJob s p.q
    if (keyCheck s p 2).isNone then sendNak s p.q p.psn.toNat .access
    else if p.va % 8 ≠ 0 then sendNak s p.q p.psn.toNat .invalid
    else if ¬ windowOk s j p.va 8 ∨ touchesWindow s j p.va 8 ∧ ¬ inWindow then sendNak s p.q p.psn.toNat .access
    else if poisoned s j p.va 8 then sendNak (recordPoison s j p.va) p.q p.psn.toNat .operational
    else
      let old := jobWord s j p.va
      answerAtomic (act (bankWork s j p.va 8 1) j old) p old

/-- ATOMIC_ADD (R190, R191, R469): GADD inside the add window, ADD64 outside it. -/
def execAtomicAdd (p : Packet) (x : Word) (s : State) : Res :=
  .next (runAtomic s p true (fun s j old => if touchesWindow s j p.va 8 then gaddJob s j p.va x else jobSetWord s j p.va (old + x)))

/-- COMPARE_AND_SWAP (R467, R469): CAS64, refused inside the add window. -/
def execCompareAndSwap (p : Packet) (cmp swap : Word) (s : State) : Res :=
  .next (runAtomic s p false (fun s j old => if old = cmp then jobSetWord s j p.va swap else s))

/-- RDMA_FLUSH (R473): every earlier operation of the queue pair has been applied at its bank, and the FLUSH is answered. -/
def execRdmaFlush (p : Packet) (s : State) : Res :=
  .next (match arrive s p 1 memoryClass with
    | (.done, s) => s
    | (.again _, s) => sendAckTo s p.q p.psn.toNat []
    | (.proceed _, s) => if (keyCheck s p 3).isSome then sendAckTo s p.q p.psn.toNat [] else sendNak s p.q p.psn.toNat .access)

/-- A peer counted among those that have reported (R193). -/
def countPeer (s : State) (j : JobId) (r i : Nat) : State :=
  let s := s.modRound j r (fun x => { x with peers := if x.peers.contains i then x.peers else x.peers ++ [i] })
  fset s VAT_JOB_PEER_WAIT.PEERS_DONE j 0 (((s.round? j r).map (·.peers.length)).getD 0)

/-- PEER_DONE_WRITE (R193, R474): a WRITE with immediate; inside the peer-done line of an open window it counts the peer, and stores nothing. -/
def execPeerDoneWrite (p : Packet) (imm : BitVec 32) (s : State) : Res :=
  .next (match arrive s p 1 (fun c => c == 1) with
    | (.done, s) => s
    | (.again _, s) => sendAckTo s p.q p.psn.toNat []
    | (.proceed _, s) =>
      let j := qpJob s p.q
      match keyCheck s p 1, peerDoneLine s j, windowRound s j with
      | some _, some l, some r =>
        if l ≤ p.va ∧ p.va + p.len ≤ l + 64 ∧ windowOpen s j ∧ imm.toNat < fget s VAT_JOB_CTRL.PEERS_EXPECTED j 0 then
          sendAckTo (countPeer s j r imm.toNat) p.q p.psn.toNat []
        else sendNak s p.q p.psn.toNat .access
      | _, _, _ => sendNak s p.q p.psn.toNat .access)

/-! Datagrams and peer notices. -/

/-- UD_DATAGRAM (R457, R468): one that passes the checks is delivered, any other is dropped and counted. -/
def execUdDatagram (p : Port) (d : Datagram) (s : State) : Res :=
  .next (if ¬ portOn s p then s
    else if fget s RDMA_QP_CFG.TYPE d.q 0 = 1 ∧ (qpState s d.q = 2 ∨ qpState s d.q = 3) ∧ fget s RDMA_QP_CFG.PORT d.q 0 = p.val ∧
        d.qkey.toNat = fget s RDMA_QP_QKEY.QKEY d.q 0 ∧ d.isSend then s
    else dropFrame s p)

/-- A notice's row: on a PEER queue pair the notice, on a FRONT_END queue pair a message that is no chunk (R53, R54, R72, R475, R586). -/
def noticeSend (s : State) (q type : Nat) (c : Bytes) : State :=
  let t := takeSend s q c
  if peerSend s q then peerNotice t q type c
  else if ¬ landed t q then t
  else if c.length < 32 ∨ hType c = 6 then silentMalformed t (qpFe t q) else answer t q c .malformed (qpFe t q) none false

/-- STREAM (R475, R586): a peer opens a stream. -/
def execStream (q : Qpn) (c : Bytes) (s : State) : Res := .next (noticeSend s q 1 c)

/-- RETRACT (R475, R586): recorded in the job's log. -/
def execRetract (q : Qpn) (c : Bytes) (s : State) : Res := .next (noticeSend s q 2 c)

/-- RETRACT_DONE (R475, R586): recorded in the job's log. -/
def execRetractDone (q : Qpn) (c : Bytes) (s : State) : Res := .next (noticeSend s q 3 c)

end Sys2Proof.Machine
end

