-- ==== Sys2Proof/Machine/Requester.lean ====
section
/-! DEFINITION. The requester side (R476 to R478), the states of a queue pair (R459 to R462, R479 to R481) and the sealed queue pairs' keys (R487, R488, R562). -/

namespace Sys2Proof.Machine

/-! Requester work. -/

/-- Whether a queue pair's class issues a kind of work (R457). -/
def classSends (cls : Nat) (k : WorkKind) : Bool :=
  match cls, k with
  | 0, .send => true
  | 1, _ => true
  | _, _ => false

/-- The RDMA extended transport header of a request. -/
def rethOf (w : WorkReq) (n : Nat) : Bytes := toBe 8 w.va ++ toBe 4 w.rkey.toNat ++ toBe 4 n

/-- The extension headers of a request and its payload. -/
def requestParts (w : WorkReq) : Bytes × Bytes :=
  match w.kind with
  | .send => ([], w.data)
  | .write => (rethOf w w.data.length, w.data)
  | .writeImm => (rethOf w w.data.length ++ toBe 4 w.imm.toNat, w.data)
  | .atomic => (toBe 8 w.va ++ toBe 4 w.rkey.toNat ++ slice w.data 0 8 ++ zeros 8, [])
  | .flush => (toBe 4 0 ++ rethOf w 0, [])

/-- The PSNs that a request takes. -/
def requestPsns (s : State) (q : Nat) (w : WorkReq) : Nat := psnCount s q (requestParts w).2.length

/-- A request's packets put on the wire under its first PSN. -/
def putRequest (s : State) (q psn : Nat) (w : WorkReq) : State :=
  let out := wireOf s q psn (requestParts w).1 (requestParts w).2
  emit out.2 (.request q psn out.1)

/-- Whether SCC has reached a target (R477). -/
def reached (scc x : Nat) : Bool := decide ((scc + 2 ^ 32 - x % 2 ^ 32) % 2 ^ 32 < 2 ^ 31)

/-- Whether a request may be sent: its queue pair has its keys, and the queue pair that it waits for has reached its target (R477). -/
def mayGo (s : State) (q : Nat) (w : WorkReq) : Bool :=
  canSend s q && match w.waitOn with
    | none => true
    | some (o, x) => reached (fget s RDMA_QP_STAT.SCC o.val 0) x.toNat

/-- The first request that is not sent takes its PSN. -/
def markSent (psn : Nat) : List (Nat × WorkReq × Nat) → List (Nat × WorkReq × Nat)
  | [] => []
  | w :: ws => if w.2.2 = 0 then (psn, w.2.1, 1) :: ws else w :: markSent psn ws

/-- The first request that is not sent goes out. -/
def sendNext (s : State) (q : Nat) (w : WorkReq) : State :=
  let psn := fget s RDMA_QP_PSN.SQ_PSN q 0
  let s := count s RDMA_QP_PSN.SQ_PSN q 0 (requestPsns s q w)
  let s := s.modQp q (fun x => { x with
    sent := markSent psn x.sent
    lastSend := if x.sent.any (fun e => e.2.2 == 1) then x.lastSend else s.now })
  putRequest (touchQp s q) q psn w

/-- A queue pair sends in posting order until a request has to wait (R477). -/
def pumpQp : Nat → Nat → State → State
  | 0, _, s => s
  | n + 1, q, s =>
    match (s.qp q).next with
    | none => s
    | some w => if qpState s q = 3 ∧ mayGo s q w then pumpQp n q (sendNext s q w) else s

/-- Every queue pair sends what no longer has to wait. -/
def pumpAll (s : State) : State := s.qps.foldl (fun t e => pumpQp (t.qp e.1).sent.length e.1 t) s

/-- What a notice brings about as it is posted on a PEER queue pair: STREAM carries the next check sequence of the job, and RETRACT is reported (R582, R585, R586). -/
def noticePosted (s : State) (q : Nat) (w : WorkReq) : WorkReq × State :=
  let j := qpJob s q
  if w.kind ≠ .send ∨ fget s RDMA_QP_CFG.CLASS q 0 ≠ 1 then (w, s)
  else match beAt w.data 0 1 with
    | 1 =>
      let (n, s) := nextCheckSeq s j
      ({ w with data := w.data.take 12 ++ toBe 4 n ++ w.data.drop 16 }, s)
    | 2 => (w, ev s TRI_EVENT.RETRACT_EV)
    | _ => (w, s)

/-- REQUESTER_POST (R194, R457, R476, R477, R582, R583, R585): work posted on a queue pair in RTS; a peer-done write only once every check group of the job has passed. -/
def execRequesterPost (q : Qpn) (w : WorkReq) (s : State) : Res :=
  .next (
    let j := qpJob s q
    let sameJob : Bool := match w.waitOn with
      | none => true
      | some (o, _) => decide (qpJob s o.val = j ∧ o ≠ q)
    if ¬ (qpState s q = 3 ∧ fget s RDMA_QP_CFG.TYPE q 0 = 0 ∧ classSends (fget s RDMA_QP_CFG.CLASS q 0) w.kind ∧ sameJob) ∨
        (w.kind = .writeImm ∧ checksPending s j) then s
    else
      let (w, s) := noticePosted s q w
      let s := s.modQp q (fun x => { x with sent := x.sent ++ [(0, w, 0)] })
      breakWaits s.qps.length (pumpQp (s.qp q).sent.length q s))

/-- The last PSN of a sent request. -/
def lastPsn (s : State) (q : Nat) (e : Nat × WorkReq × Nat) : Nat := (e.1 + requestPsns s q e.2.1 + 2 ^ 24 - 1) % 2 ^ 24

/-- Whether an acknowledgement of a PSN covers a sent request. -/
def covers (s : State) (q psn : Nat) (e : Nat × WorkReq × Nat) : Bool :=
  e.2.2 == 1 && decide ((psn + 2 ^ 24 - lastPsn s q e) % 2 ^ 24 < 2 ^ 23)

/-- The requests that an acknowledgement of a PSN covers complete, in posting order (R472, R477). -/
def ackWork (s : State) (q psn : Nat) : State :=
  let done := (s.qp q).sent.takeWhile (covers s q psn)
  let s := s.modQp q (fun x => { x with
    sent := x.sent.drop done.length
    retries := if done = [] then x.retries else 0
    lastSend := if done = [] then x.lastSend else s.now })
  done.foldl (fun t _ => workDone t q 0) s

/-- The sent requests of a queue pair sent again under their PSNs. -/
def sendAgain (s : State) (q : Nat) : State :=
  ((s.qp q).sent.filter (fun e => e.2.2 == 1)).foldl (fun t e => putRequest t q e.1 e.2.1) s

/-- The oldest outstanding request ends with an error, which moves its queue pair to ERROR (R468, R478 to R480). -/
def failOldest (s : State) (q status : Nat) : State :=
  let s := if (s.qp q).sent.isEmpty then s else workDone (s.modQp q (fun x => { x with sent := x.sent.drop 1 })) q status
  qpError s q status

/-- REQUESTER_RESPONSE (R468, R472, R477, R479): an acknowledgement or a negative acknowledgement of a PSN. -/
def execRequesterResponse (q : Qpn) (psn : BitVec 24) (nak : Option Nak) (s : State) : Res :=
  .next (if qpState s q ≠ 3 then s
    else
      let before := (psn.toNat + 2 ^ 24 - 1) % 2 ^ 24
      match nak with
      | none => pumpAll (ackWork s q psn.toNat)
      | some .psn => pumpAll (sendAgain (ackWork s q before) q)
      | some .access => pumpAll (failOldest (ackWork s q before) q 1)
      | some .invalid => pumpAll (failOldest (ackWork s q before) q 2)
      | some .operational => pumpAll (failOldest (ackWork s q before) q 3))

/-- The time after which a requester retransmits, in nanoseconds (R478). -/
def retransmitNs (s : State) (q : Nat) : Nat := 4096 * 2 ^ fget s RDMA_QP_CFG.TIMEOUT q 0

/-- RETRANSMIT_TIMEOUT (R478): the outstanding requests are sent again, at most RETRY times in a row. -/
def execRetransmitTimeout (q : Qpn) (s : State) : Res :=
  .next (
    let x := s.qp q
    if qpState s q ≠ 3 ∨ ¬ x.sent.any (fun e => e.2.2 == 1) ∨ s.now < x.lastSend + retransmitNs s q then s
    else if fget s RDMA_QP_CFG.RETRY q 0 ≤ x.retries then failOldest s q 4
    else sendAgain (s.modQp q (fun x => { x with retries := x.retries + 1, lastSend := s.now })) q)

/-! The state of a queue pair. -/

/-- The queue pairs with a one-bit field of their configuration set. -/
def qpsWith (s : State) (f : Fld) : List Nat :=
  s.regs.filterMap (fun e => if e.1.reg == f.reg && e.1.lo == f.lo && e.2 == 1 then some e.1.major else none)

/-- The lowest sealed slot that no sealed queue pair holds (R487). -/
def freeSealedSlot (s : State) : Nat :=
  ((List.range 256).find? (fun n => !(qpsWith s RDMA_QP_CFG.SEALED).any (fun q => fget s RDMA_SQP_CTRL.SLOT q 0 == n))).getD 0

/-- SEALED written in RESET: RC only, and at most 256 sealed queue pairs (R487). -/
def writeSealed (s : State) (q want : Nat) : State :=
  if want = 1 ∧ fget s RDMA_QP_CFG.TYPE q 0 = 0 then
    if fget s RDMA_QP_CFG.SEALED q 0 = 1 then s
    else if (qpsWith s RDMA_QP_CFG.SEALED).length < 256 then fset (fset s RDMA_SQP_CTRL.SLOT q 0 (freeSealedSlot s)) RDMA_QP_CFG.SEALED q 0 1
    else s
  else fset (fset s RDMA_QP_CFG.SEALED q 0 0) RDMA_SQP_CTRL.SLOT q 0 0

/-- PIN written: a pin above 8,192 is not performed (R462). -/
def writePin (s : State) (q want : Nat) : State :=
  if want = 1 ∧ fget s RDMA_QP_CFG.PIN q 0 = 0 ∧ 8192 ≤ (qpsWith s RDMA_QP_CFG.PIN).length then s else fset s RDMA_QP_CFG.PIN q 0 want

/-- The fields of RDMA_QP_CFG other than STATE written, in RESET (R18, R459, R462, R487). -/
def configureQp (s : State) (q v : Nat) : State :=
  let s := [RDMA_QP_CFG.TYPE, RDMA_QP_CFG.JOB, RDMA_QP_CFG.PORT, RDMA_QP_CFG.RETRY, RDMA_QP_CFG.TIMEOUT, RDMA_QP_CFG.FE,
    RDMA_QP_CFG.REMOTE_QPN].foldl (fun t (f : Fld) => fset t f q 0 (f.of v)) s
  let s := if RDMA_QP_CFG.CLASS.of v ≤ 2 then fset s RDMA_QP_CFG.CLASS q 0 (RDMA_QP_CFG.CLASS.of v) else s
  let s := if RDMA_QP_CFG.MTU.of v ≤ 2 then fset s RDMA_QP_CFG.MTU q 0 (RDMA_QP_CFG.MTU.of v) else s
  writePin (writeSealed s q (RDMA_QP_CFG.SEALED.of v)) q (RDMA_QP_CFG.PIN.of v)

/-- The class that a write leaves (R18). -/
def classLeft (s : State) (q v : Nat) : Nat :=
  if RDMA_QP_CFG.CLASS.of v ≤ 2 then RDMA_QP_CFG.CLASS.of v else fget s RDMA_QP_CFG.CLASS q 0

/-- Whether a queue pair cannot leave RESET: its front-end is quarantined (R460). -/
def heldInReset (s : State) (q : Nat) : Bool :=
  fget s RDMA_QP_CFG.CLASS q 0 == 0 && fget s LND_FE_STATE.QUARANTINED (fget s RDMA_QP_CFG.FE q 0) 0 == 1

/-- A queue pair enters RESET (R477, R481). -/
def resetQp (s : State) (q : Nat) : State :=
  let s := clearQp s q
  breakWaits s.qps.length s

/-- A STATE write (R459, R460, R479, R481). -/
def moveQp (s : State) (q next : Nat) : State :=
  let old := qpState s q
  let J := s.job (qpJob s q)
  if next = old ∨ (old = 4 ∧ (J.aborting.isSome ∨ J.aborted)) ∨ (old = 0 ∧ heldInReset s q) then s
  else if next = 0 then resetQp (fset s RDMA_QP_CFG.STATE q 0 0) q
  else if next = 4 then qpError s q 8
  else if next = old + 1 ∧ next ≤ 3 then fset s RDMA_QP_CFG.STATE q 0 next
  else s

/-- A write of RDMA_QP_CFG of the selected queue pair (R459, R460). -/
def writeQpCfg (s : State) (v : Nat) : State :=
  let q := get1 s RDMA_QP_SEL.QPN
  if q < 2 then s
  else if qpState s q = 0 then
    if classLeft s q v ≠ 0 ∧ RDMA_QP_CFG.TYPE.of v = 1 then s else moveQp (configureQp s q v) q (RDMA_QP_CFG.STATE.of v)
  else moveQp s q (RDMA_QP_CFG.STATE.of v)

/-- QP_STATE_WRITE (R459, R460, R477, R480, R481). -/
def execQpStateWrite (v : Word) (s : State) : Res := .next (writeQpCfg s v.toNat)

/-- A write of RDMA_QP_PSN: in RESET and INIT only (R493). -/
def writeQpPsn (s : State) (v : Nat) : State :=
  let q := get1 s RDMA_QP_SEL.QPN
  if qpState s q ≤ 1 then storeReg s .RDMA_QP_PSN q 0 v else s

/-- The queue pairs whose context is on the die (R461). -/
def residentQps (s : State) : List Nat := qpsWith s RDMA_QP_STAT.RESIDENT

/-- Whether a context may be evicted (R462). -/
def evictable (s : State) (q : Nat) : Bool :=
  fget s RDMA_QP_STAT.RESIDENT q 0 == 1 && fget s RDMA_QP_CFG.PIN q 0 == 0 && !qpSealed s q && (s.qp q).sent.isEmpty && (s.qp q).inMsg.isNone

/-- A queue pair's context on the die: the most recent in the order of use, and its held packets leave the miss queue (R461, R462). -/
def loadQp (s : State) (q : Nat) : State :=
  { fset s RDMA_QP_STAT.RESIDENT q 0 1 with missQueue := s.missQueue.filter (· != q), qpUse := s.qpUse.filter (· != q) ++ [q] }

/-- A context evicted (R462). -/
def evictQp (s : State) (q : Nat) : State := { fset s RDMA_QP_STAT.RESIDENT q 0 0 with qpUse := s.qpUse.filter (· != q) }

/-- QP_CONTEXT_LOAD (R461, R462): the context of a queue pair with held packets is loaded, the least recently used that may leave is evicted where 65,536 are on the die, and its held packets leave the miss queue. -/
def execQpContextLoad (q : Qpn) (s : State) : Res :=
  .next (if ¬ s.missQueue.contains q.val then s
    else
      if (residentQps s).length < 65536 then loadQp s q.val
      else match s.qpUse.find? (evictable s) with
        | none => s
        | some o => loadQp (evictQp s o) q.val)

/-! Sealed queue pairs. -/

/-- An ephemeral key pair for a sealed queue pair, with the entropy unit READY (R149, R488, R551). -/
def makeSqpKey (s : State) (q : Nat) : State :=
  let (d, s) := drawScalar (served s 1)
  let s := tollDone s (some (qpJob s q)) 1 0
  let s := s.modQp q (fun x => { x with priv := some d, keys := none, keyWait := false })
  let pt := publicOf d ++ zeros 7
  fset ((List.range 13).foldl (fun t n => fset t RDMA_SQP_LOCAL.POINT q n (beAt pt (8 * n) 8)) s) RDMA_SQP_CTRL.STATE q 0 1

/-- GEN_KEY: the draw waits in STARTUP and fails in FAILED (R488, R551). -/
def genSqpKey (s : State) (q : Nat) : State :=
  if ¬ qpSealed s q then s
  else if entropyReady s then makeSqpKey s q
  else if entropyStarting s then s.modQp q (fun x => { x with keyWait := true })
  else fset s RDMA_SQP_CTRL.STATE q 0 3

/-- The bytes of the peer's point (R493). -/
def peerPoint (s : State) (q : Nat) : Bytes := ((List.range 13).flatMap (fun n => toBe 8 (fget s RDMA_SQP_PEER.POINT q n))).take 97

/-- Whether the job's guest has vouched for the peer's point (R562). -/
def vouched (s : State) (q : Nat) : Bool :=
  let j := qpJob s q
  let h := digestBytes (sha384 (peerPoint s q))
  fget s KST_VF_ORIGIN_QPN.QPN j 0 == q && (List.range 6).all (fun n => fget s KST_VF_PEER_HASH.HASH j n == group64 h n)

/-- The keys and IVs of a sealed queue pair, the sending direction first (R488). -/
def sqpKeys (s : State) (q d : Nat) (pt : Nat × Nat) : Key256 × Key256 × Bytes × Bytes :=
  let responder := fget s RDMA_SQP_CTRL.ROLE q 0 == 1
  let other := fget s RDMA_QP_CFG.REMOTE_QPN q 0
  let salt := if responder then toBe 4 other ++ toBe 4 q else toBe 4 q ++ toBe 4 other
  let prk := hkdfExtract salt (ecdhX d pt)
  let i2r := keyOf (hkdfExpand prk (ascii "BR1 SQP I2R") 32)
  let r2i := keyOf (hkdfExpand prk (ascii "BR1 SQP R2I") 32)
  let iv := hkdfExpand prk (ascii "BR1 SQP IV") 8
  if responder then (r2i, i2r, slice iv 4 4, slice iv 0 4) else (i2r, r2i, slice iv 0 4, slice iv 4 4)

/-- APPLY: the ephemeral key is erased, and the queue pair is KEYED or FAILED (R488, R562). -/
def applySqp (s : State) (q : Nat) : State :=
  match (s.qp q).priv, fget s RDMA_SQP_CTRL.STATE q 0 with
  | some d, 1 =>
    let j := qpJob s q
    let keys := sqpKeys s q d
    let t := s.modQp q (fun x => { x with priv := none })
    let refused := fset t RDMA_SQP_CTRL.STATE q 0 3
    if s.conf j ∧ ¬ vouched s q then ev refused KST_EVENT.ORIGIN_EV
    else match decodePt (peerPoint s q) with
      | none => refused
      | some pt =>
        let t := if s.conf j then (List.range 6).foldl (fun u n => fset u KST_VF_PEER_HASH.HASH j n 0) (fset t KST_VF_ORIGIN_QPN.QPN j 0 0) else t
        let t := t.modQp q (fun x => { x with keys := some (keys pt), txCount := 0, rxCount := 0, badTags := 0 })
        pumpQp (t.qp q).sent.length q (fset (tollDone t (some j) 1 3) RDMA_SQP_CTRL.STATE q 0 2)
  | _, _ => s

/-- A write of RDMA_SQP_CTRL of the selected queue pair (R488). -/
def writeSqpCtrl (s : State) (v : Nat) : State :=
  let q := get1 s RDMA_QP_SEL.QPN
  if q < 2 then s
  else
    let s := fset s RDMA_SQP_CTRL.ROLE q 0 (RDMA_SQP_CTRL.ROLE.of v)
    let s := if RDMA_SQP_CTRL.GEN_KEY.of v = 1 then genSqpKey s q else s
    if RDMA_SQP_CTRL.APPLY.of v = 1 then applySqp s q else s

/-- SQP_GEN_KEY (R488): a write with GEN_KEY. -/
def execSqpGenKey (v : BitVec 32) (s : State) : Res := .next (writeSqpCtrl s v.toNat)

/-- SQP_APPLY (R488, R562): a write with APPLY. -/
def execSqpApply (v : BitVec 32) (s : State) : Res := .next (writeSqpCtrl s v.toNat)

end Sys2Proof.Machine
end

