-- ==== Sys2Proof/Machine/Regions.lean ====
section
/-! DEFINITION. Memory regions: registration (R464, R465), the lowering of rights (R485) and revocation in two phases (R483, R484, R486). -/

namespace Sys2Proof.Machine

/-- Whether a range and rights keep the rule of a region's kind (R465); rights are R 1, W 2, A 4, F 8. -/
def kindOk (s : State) (j : JobId) (kind base len rights : Nat) (bound : Bool) : Bool :=
  match kind with
  | 0 => !s.conf j
  | 1 => (base, len) == window s j && !bit rights 0
  | 2 => decide (hbmBase ≤ base) && rights &&& 14 == 0 && !bound
  | _ => decide (hbmBase ≤ base) && !bit rights 2 && bound

/-- Whether a range overlaps a round structure; the add window is no bar to a region of kind ADD_WINDOW (R465). -/
def hitsStructure (s : State) (j : JobId) (kind base len : Nat) : Bool :=
  (roundStructures s j).any (fun r => overlap (base, len) r && !(kind == 1 && r == window s j))

/-- Whether a region may be registered (R465). -/
def regionOk (s : State) (j : JobId) (g : Nat) : Bool :=
  let base := fget s RDMA_REG_BASE.VA j g
  let len := fget s RDMA_REG_LEN.LEN j g
  let kind := fget s RDMA_REG_CFG.KIND j g
  len != 0 && base % 64 == 0 && len % 64 == 0 && inReach s j base len && !hitsStructure s j kind base len &&
    kindOk s j kind base len (fget s RDMA_REG_CFG.RIGHTS j g) (fget s RDMA_REG_CFG.BIND_EN j g == 1)

/-- REGISTER on a FREE region (R464). -/
def registerRegion (s : State) (j : JobId) (g : Nat) : State :=
  if regionOk s j g then fset (count s RDMA_REG_CFG.GEN j g 1) RDMA_REG_CFG.STATE j g 1 else ev s RDMA_EVENT.REG_EV

/-- RIGHTS of a LIVE region written: a raise is ignored, a lowering revokes the rights removed (R485). -/
def writeRights (s : State) (j : JobId) (g new : Nat) : State :=
  let old := fget s RDMA_REG_CFG.RIGHTS j g
  if new = old ∨ new &&& old ≠ new then s
  else { fset s RDMA_REG_CFG.RIGHTS j g new with revoking := s.revoking ++ [(j.val, g, s.now, true)] }

/-- A write of RDMA_REG_CFG of the selected region (R464, R483, R485, R486). -/
def writeRegCfg (s : State) (v : Nat) : State :=
  let j : JobId := Fin.ofNat 16 (get1 s RDMA_JOB_SEL.JOB)
  let g := get1 s RDMA_REG_SEL.REGION
  match fget s RDMA_REG_CFG.STATE j g with
  | 0 =>
    let s := [RDMA_REG_CFG.KIND, RDMA_REG_CFG.RIGHTS, RDMA_REG_CFG.GROUP, RDMA_REG_CFG.MEMBER, RDMA_REG_CFG.BIND_EN,
      RDMA_REG_CFG.BIND_QP].foldl (fun t (f : Fld) => fset t f j g (f.of v)) s
    if RDMA_REG_CFG.REGISTER.of v = 1 then registerRegion s j g else s
  | 1 =>
    let s := writeRights s j g (RDMA_REG_CFG.RIGHTS.of v)
    if RDMA_REG_CFG.REVOKE.of v = 1 then beginRevoke s j g else s
  | _ => s

/-- A write of RDMA_REG_BASE or RDMA_REG_LEN: while the region is FREE (R464, R493); bits 5:0, which read 0, are kept for R465 to judge (assumption 59). -/
def writeRegRange (s : State) (f : Fld) (v : Nat) : State :=
  let j := get1 s RDMA_JOB_SEL.JOB
  let g := get1 s RDMA_REG_SEL.REGION
  if fget s RDMA_REG_CFG.STATE j g = 0 then fset s f j g v else s

/-- REGION_REGISTER (R464, R465): a write with REGISTER. -/
def execRegionRegister (v : Word) (s : State) : Res := .next (writeRegCfg s v.toNat)

/-- REGION_REVOKE (R483, R486): a write with REVOKE. -/
def execRegionRevoke (v : Word) (s : State) : Res := .next (writeRegCfg s v.toNat)

/-- RIGHTS_LOWER (R485): a write that lowers RIGHTS. -/
def execRightsLower (v : Word) (s : State) : Res := .next (writeRegCfg s v.toNat)

/-- The revocations of a region that run. -/
def revocations (s : State) (j : JobId) (g : Nat) : List (Nat × Nat × Nat × Bool) := s.revoking.filter (fun v => v.1 == j.val && v.2.1 == g)

/-- The WRITEs that passed the key check, have not delivered their last packet and are not cut off: a revocation of W waits for them (R483 to R485). -/
def unfinished (s : State) (j : JobId) (g : Nat) : List OpenWrite :=
  if fget s RDMA_REG_CFG.STATE j g = 1 ∧ bit (fget s RDMA_REG_CFG.RIGHTS j g) 1 then []
  else s.openWrites.filter (fun w => w.job == j && w.region == g && !w.cut)

/-- A revocation that is complete: the region is FREE, or stays LIVE with the lowered rights (R483, R485). -/
def finishRevoke (s : State) (j : JobId) (g : Nat) : State :=
  let whole := (revocations s j g).any (fun v => !v.2.2.2)
  let s := { s with revoking := s.revoking.filter (fun v => !(v.1 == j.val && v.2.1 == g)) }
  let s := if whole then fset s RDMA_REG_CFG.STATE j g 0 else s
  advanceTeardown (ev s RDMA_EVENT.REVOKE_DONE_EV) j

/-- REVOKE_COMPLETE (R483, R485): the last operation that had passed the key check has been placed. -/
def execRevokeComplete (j : JobId) (region : Fin 4096) (s : State) : Res :=
  .next (if revocations s j region = [] ∨ unfinished s j region ≠ [] then s else finishRevoke s j region)

/-- REVOKE_CUTOFF (R484): a WRITE unfinished after WAIT_US is cut off, and the revocation completes. -/
def execRevokeCutoff (j : JobId) (region : Fin 4096) (s : State) : Res :=
  .next (
    let late := (revocations s j region).any (fun v => decide (v.2.2.1 + 1000 * get1 s RDMA_REVOKE.WAIT_US ≤ s.now))
    if ¬ late ∨ unfinished s j region = [] then s
    else
      let s := { s with openWrites := s.openWrites.map (fun w => if w.job == j && w.region == region.val then { w with cut := true } else w) }
      finishRevoke (ev s RDMA_EVENT.CUTOFF_EV) j region)

end Sys2Proof.Machine
end

