-- ==== Sys2Proof/Machine/Tide.lean ====
section
/-! DEFINITION. Tide: the choice of the grandmaster (R495), the servo and the time states (R496 to R499, R509), the 1PPS input, and the USER and WAKE entries of the event table (R502 to R507, R525). -/

namespace Sys2Proof.Machine

/-! The grandmaster. -/

/-- Whether PTP is taken from a port (R495). -/
def ptpPort (s : State) (p : Port) : Bool := on s TIDE_CTRL.PTP_EN && bit (get1 s TIDE_CTRL.PORT_MASK) p.val && portOn s p

/-- A dataset as the number that the best-master comparison orders: the lower is the better (PRESUMED, IEEE 1588). -/
def rankOf (a : Announce) : Nat :=
  [(a.clockClass.toNat, 256), (a.accuracy.toNat, 256), (a.variance.toNat, 65536), (a.priority2.toNat, 256), (a.identity.toNat, 2 ^ 64),
    (a.steps, 65536)].foldl (fun n e => n * e.2 + e.1 % e.2) a.priority1.toNat

/-- Whether a dataset on a port is better than another: equal datasets are decided by the port number (R495). -/
def better (p : Nat) (a : Announce) (o : Nat × Announce) : Bool :=
  decide (rankOf a < rankOf o.2 ∨ rankOf a = rankOf o.2 ∧ p < o.1)

/-- Whether the chosen grandmaster's Announce has timed out (R496). -/
def announceGone (s : State) : Bool := decide (s.lastAnnounce + Config.announceTimeout ≤ s.now)

/-- PTP_ANNOUNCE (R495): the dataset is compared with the chosen grandmaster's; that grandmaster's own Announce replaces its dataset. -/
def execPtpAnnounce (p : Port) (a : Announce) (s : State) : Res :=
  .next (if ¬ ptpPort s p ∨ a.domain.toNat ≠ get1 s TIDE_CTRL.DOMAIN then s
    else
      let takes := match s.best with
        | none => true
        | some o => announceGone s || (o.1 == p.val && o.2.identity == a.identity) || better p a o
      if takes then
        let t := if get1 s TIDE_GM.ID = a.identity.toNat then s else ev s TIDE_EVENT.GM_EV
        { set1 (set1 t TIDE_GM.ID a.identity.toNat) TIDE_STATUS.PORT p.val with best := some (p.val, a), lastAnnounce := s.now }
      else s)

/-! The time states. -/

/-- Whether a 1PPS edge was accepted in the last 2 s (R498). -/
def ppsSeen (s : State) : Bool := (s.lastPps.map (fun t => decide (s.now < t + 2 * 10 ^ 9))).getD false

/-- The error estimate in nanoseconds (R497). -/
def estimate (s : State) : Nat :=
  match get1 s TIDE_STATUS.STATE with
  | 0 => 2 ^ 32 - 1
  | 1 => s.slew.natAbs + 4
  | 2 => s.slew.natAbs + 4
  | _ => if ppsSeen s then max s.holdErr (get1 s TIDE_HOLD.PPS_ERR_NS) else s.holdErr + 50 * (s.now - s.holdStart) / 10 ^ 9

/-- The change of the time state recorded in the log of every job and of the module (R509). -/
def logTimeState (s : State) (new : Nat) : State :=
  let e := estimate s
  let s := (List.finRange 16).foldl (fun t (j : JobId) => if (t.job j).present then logJob t j 3 0 new e else t) s
  logModule s 3 new e

/-- A new time state: STATE_EV, the records where DOUBTFUL is entered or left, and the held entries where time stops being doubtful (R507, R509). -/
def setTimeState (s : State) (new : Nat) : State :=
  let old := get1 s TIDE_STATUS.STATE
  if new = old then s
  else
    let was := doubtful s
    let s := ev (set1 s TIDE_STATUS.STATE new) TIDE_EVENT.STATE_EV
    let s := if old = 4 ∨ new = 4 then logTimeState s new else s
    if was ∧ ¬ doubtful s then fireHeld s else s

/-- Module time stepped by the offset (R499). -/
def stepTime (s : State) (offset : Int) : State :=
  let before := s.now
  let s := ev { s with now := ((s.now : Int) - offset).toNat, slew := 0, slewTicks := 0 } TIDE_EVENT.STEP_EV
  firePassed s before

/-- An offset corrected: stepped on the first lock and where the module is more than 1 ms behind, slewed otherwise (R499). -/
def correct (s : State) (offset : Int) : State :=
  if get1 s TIDE_STATUS.STATE = 0 ∨ offset < -1000000 then stepTime s offset else { s with slew := -offset, slewTicks := 0 }

/-- The time state after an accepted offset (R496, R497). -/
def afterOffset (s : State) (offset : Int) : State :=
  let good := if offset.natAbs ≤ 100 then s.goodOffsets + 1 else 0
  match get1 s TIDE_STATUS.STATE with
  | 1 =>
    let s := { s with goodOffsets := good }
    if 16 ≤ good then setTimeState s 2 else s
  | 2 => s
  | 4 =>
    let left := s.slew.natAbs + 4
    if left < 1000 * get1 s TIDE_HOLD.LIMIT_US then setTimeState { s with goodOffsets := good } 1 else { s with holdErr := left, holdStart := s.now }
  | _ => setTimeState { s with goodOffsets := good } 1

/-- An offset as the 32-bit register shows it. -/
def showOffset (o : Int) : Nat := unsignedOf 32 (max (-(2 ^ 31 : Int)) (min o (2 ^ 31 - 1)))

/-- Whether a Sync is accepted: from the chosen grandmaster on the chosen port, two-step, with an interval of −7 to 0 (R492, R495). -/
def syncAccepted (s : State) (p : Port) (m : SyncPair) : Bool :=
  ptpPort s p && m.domain.toNat == get1 s TIDE_CTRL.DOMAIN && m.twoStep && decide (-7 ≤ m.logInterval ∧ m.logInterval ≤ 0) &&
    (match s.best with
      | none => false
      | some o => o.1 == p.val && o.2.identity == m.identity)

/-- PTP_SYNC (R492, R495 to R497, R499): the offset of module time from the grandmaster's is corrected, and one Delay_Req is sent. -/
def execPtpSync (p : Port) (m : SyncPair) (s : State) : Res :=
  .next (if ¬ syncAccepted s p m then s
    else
      let s := set1 (emit s (.delayReq p)) TIDE_ERR.OFFSET (showOffset m.offset)
      let s := afterOffset (correct s m.offset) m.offset
      { s with lastSync := s.now })

/-- SYNC_LOSS_TIMEOUT (R496, R497): no pair accepted for 2 s, or no Announce, in LOCKING or LOCKED. -/
def execSyncLossTimeout (s : State) : Res :=
  .next (
    let st := get1 s TIDE_STATUS.STATE
    if (st = 1 ∨ st = 2) ∧ (s.lastSync + 2 * 10 ^ 9 ≤ s.now ∨ announceGone s) then
      setTimeState { s with holdErr := estimate s, holdStart := s.now, goodOffsets := 0 } 3
    else s)

/-- HOLDOVER_LIMIT (R496, R497): the estimate reaches LIMIT_US in HOLDOVER. -/
def execHoldoverLimit (s : State) : Res :=
  .next (if get1 s TIDE_STATUS.STATE = 3 ∧ 1000 * get1 s TIDE_HOLD.LIMIT_US ≤ estimate s then setTimeState s 4 else s)

/-- PPS_EDGE (R498): an edge within 1 µs of the second that Tide predicts is accepted; it never sets the time. -/
def execPpsEdge (err : Int) (s : State) : Res :=
  .next (if ¬ on s TIDE_CTRL.PPS_EN then s
    else if err.natAbs ≤ 1000 then { s with lastPps := some s.now }
    else ev s TIDE_EVENT.PPS_REJ_EV)

/-! The event table. -/

/-- Whether no USER or WAKE entry of a lower number that may fire is due at the same time (R505). -/
def inTurn (s : State) (e d : Nat) : Bool :=
  s.armed.all (fun a => decide (a.1 < 256 ∨ e ≤ a.1) || a.2.due != some d || heldEntry s a.1)

/-- Whether an entry is armed, its time has come, and it is its turn (R505). -/
def entryDue (s : State) (e : Nat) : Bool := ((lookup s.armed e).bind (·.due)).map (fun d => decide (d ≤ s.now) && inTurn s e d) == some true

/-- USER_EVENT_FIRE (R504, R505, R507): the entry fires, or is held in doubtful time. -/
def execUserEventFire (e : Fin 4096) (s : State) : Res :=
  .next (if e.val < 512 ∨ ¬ entryDue s e then s
    else if heldEntry s e then fset s TIDE_EVT_STAT.HELD e 0 1
    else fireEntry s e false)

/-- WAKE_EVENT_FIRE (R503, R505, R525): the entry fires and its domain begins to wake. -/
def execWakeEventFire (e : Fin 4096) (s : State) : Res :=
  .next (if e.val < 256 ∨ 352 ≤ e.val ∨ ¬ entryDue s e then s else wakeDomain (disarm (fireEntry s e false) e) (e.val - 256))

/-- The newest round of a job whose Offer has fired and that has not ended (R504). -/
def newestOffered (s : State) (j : JobId) : Option Round := ((s.job j).rounds.filter (fun x => x.phase != .planned)).getLast?

/-- A USER entry armed with what its registers hold (R504, R506). -/
def armUser (s : State) (e : Nat) : State :=
  let j : JobId := Fin.ofNat 16 (fget s TIDE_EVT_CFG.JOB e 0)
  let v := fget s TIDE_EVT_CFG.PHASE e 0
  let named := fget s TIDE_EVT_ROUND.ROUND e 0
  let J := s.job j
  let followed := if named = 0 then newestOffered s j else (J.round? named).bind (fun x => if x.phase = .planned then none else some x)
  let due := followed.map (fun x => pOfferTime x.plan + v * phaseUnit)
  let s := arm s e ⟨j.val, named, followed.map (·.number), v, due⟩
  if named ≠ 0 ∧ J.present ∧ (J.round? named).isNone ∧ named < J.nextRound then disarm (fireEntry s e true) e
  else if (due.map (fun d => decide (d < s.now))).getD false then
    if heldEntry s e then fset s TIDE_EVT_STAT.HELD e 0 1 else fireEntry s e true
  else s

/-- The invocations whose WAIT_EVT holds for an entry that is cancelled end with OPERAND_MALFORMED (R389, R506). -/
def breakEventWaits (s : State) (e : Nat) : State :=
  (s.contexts.filter (fun c => c.2.wait.isSome && !c.2.fired.contains (e + 4096) && iOpc c.2.word == 0x0F && c.2.imm % 4096 == e)).foldl (fun t c =>
    faultAt t ⟨Fin.ofNat 7 (c.1 / 32), Fin.ofNat 32 c.1⟩ c.2 .operandMalformed) s

/-- A write of TIDE_EVT_CFG of the selected entry: USER entries only (R502, R506). -/
def writeEvtCfg (s : State) (v : Nat) : State :=
  let e := get1 s TIDE_EVT_SEL.EVENT
  if e < 512 then ev s TIDE_EVENT.TABLE_EV
  else
    let s := [TIDE_EVT_CFG.DOUBTFUL_OK, TIDE_EVT_CFG.JOB, TIDE_EVT_CFG.PHASE].foldl (fun t (f : Fld) => fset t f e 0 (f.of v)) s
    if TIDE_EVT_CFG.VALID.of v = 1 then armUser s e else breakEventWaits (disarm s e) e

/-- A write of TIDE_EVT_ROUND of the selected entry (R502, R506). -/
def writeEvtRound (s : State) (v : Nat) : State :=
  let e := get1 s TIDE_EVT_SEL.EVENT
  if e < 512 then ev s TIDE_EVENT.TABLE_EV else fset s TIDE_EVT_ROUND.ROUND e 0 v

/-- EVENT_ARM (R504, R506): a write with VALID = 1. -/
def execEventArm (v : Word) (s : State) : Res := .next (writeEvtCfg s v.toNat)

/-- EVENT_CANCEL (R506): a write with VALID = 0. -/
def execEventCancel (v : Word) (s : State) : Res := .next (writeEvtCfg s v.toNat)

end Sys2Proof.Machine
end

