-- ==== Sys2Proof/Machine/Pilot.lean ====
section
/-! DEFINITION. Pilot: the crossing modes (R46 to R50), the DVFS loop (R517 to R521), the throttle (R616), pins and placement (R510 to R514). -/

namespace Sys2Proof.Machine

/-! Rates. -/

/-- A mode's envelope in watts (R46). -/
def envelopeW (mode : Nat) : Nat := if mode = 4 then 1400 else 2200

/-- A cluster's effective maximum (R520). -/
def effMax (s : State) (c : Nat) : Nat := min (fget s PLT_CLU_ENV.MAX_PCT c 0) (ceiling (get1 s PLT_MODE.MODE) c)

/-- A cluster's effective minimum (R50, R520). -/
def effMin (s : State) (c : Nat) : Nat := min (max (fget s PLT_CLU_ENV.MIN_PCT c 0) 10) (effMax s c)

/-- n sixteenths of the full rate, in whole percent (R520). -/
def sixteenths (n : Nat) : Nat := n * 100 / 16

/-- A rate at which a cluster can run: any up to 50 percent, above it the next step up, or the one below where that is beyond the effective maximum (R520). -/
def stepRate (top p : Nat) : Nat :=
  if p ≤ 50 then p
  else
    let up := sixteenths ((16 * p + 99) / 100)
    if up ≤ top then up else sixteenths (16 * p / 100)

/-- The rate one step lower, not below 10 percent (R50, R520). -/
def stepDown (p : Nat) : Nat := if p ≤ 10 then p else max 10 (sixteenths ((16 * p - 1) / 100))

/-- The rate one step higher. -/
def stepUp (p : Nat) : Nat := min 100 (sixteenths ((16 * p + 99) / 100 + 1))

/-- The rate to which the throttle holds a cluster; 100 where it holds none (R616). -/
def throttleCap (s : State) (c : Nat) : Nat := readD 100 s.throttleCap c

/-- A cluster's rate set; a safety limit that forces it below its minimum is recorded as it sets in (R519). -/
def setRate (s : State) (c p : Nat) : State :=
  let s := fset s PLT_CLU_STAT.RATE_PCT c 0 p
  let safe := decide (p < effMin s c)
  let was := fget s PLT_CLU_STAT.SAFETY c 0 == 1
  let s := fset s PLT_CLU_STAT.SAFETY c 0 (flag safe)
  if safe && !was then ev (logModule s 0x23 c p) PLT_EVENT.SAFETY_EV else s

/-! The DVFS loop. -/

/-- The DVFS loop's pinned mark of a cluster (R518). -/
def pinRate (s : State) (c bound : Nat) (out : Bool) : State :=
  let was := fget s PLT_CLU_STAT.PINNED_RATE c 0 == 1
  let s := fset s PLT_CLU_STAT.PINNED_RATE c 0 (flag out)
  if out && !was then ev (logModule s 0x21 1 bound) PLT_EVENT.PINNED_EV else s

/-- A cluster under the DVFS loop: the lowest rate that clears its work, inside its envelope (R518, R520, R521). -/
def dvfsCluster (s : State) (c : Nat) (l : ClusterLoad) : State :=
  let hi := effMax s c
  let lo := effMin s c
  let want := if l.due then hi else l.rate
  let above := decide (hi < want ∨ ceiling (get1 s PLT_MODE.MODE) c < fget s PLT_CLU_ENV.MIN_PCT c 0)
  let s := pinRate s c (if above then hi else lo) (above || decide (want < lo))
  setRate s c (min (throttleCap s c) (stepRate hi (max lo (min hi want))))

/-- The clusters that can still be lowered, the least pending work first (R521). -/
def lowerable (s : State) (load : List ClusterLoad) : List Nat :=
  ((List.range 5).filter (fun c => decide (effMin s c < fget s PLT_CLU_STAT.RATE_PCT c 0))).mergeSort
    (fun a b => decide ((load.map (·.work)).getD a 0 ≤ (load.map (·.work)).getD b 0))

/-- Clusters lowered one step at a time while the power would exceed the mode's envelope (R49, R521): the list gives what the averaged power would be with the rates as they are, and after each step. -/
def lowerPower (load : List ClusterLoad) : List Nat → State → State
  | [], s => s
  | p :: ps, s =>
    let s := set1 s PLT_POWER.POWER_MW p
    if 1000 * get1 s PLT_POWER.ENVELOPE_W < p then
      match lowerable s load with
      | [] => s
      | c :: _ => lowerPower load ps (setRate s c (max (effMin s c) (stepDown (fget s PLT_CLU_STAT.RATE_PCT c 0))))
    else s

/-- DVFS_TICK (R521): every 100 µs each cluster gets its rate, and clusters are lowered while the power would exceed the mode's envelope. -/
def execDvfsTick (load : List ClusterLoad) (powerMw : List Nat) (s : State) : Res :=
  .next (if s.now < s.dvfsAt then s
    else
      lowerPower load powerMw ((List.range 5).foldl (fun t c => dvfsCluster t c (load.getD c ⟨0, false, 0⟩)) { s with dvfsAt := s.now + 100000 }))

/-! Modes and envelopes. -/

/-- A cluster's effective maximum shown, and its rate brought under it (R48, R520). -/
def refreshCluster (s : State) (c : Nat) : State :=
  let s := fset s PLT_CLU_STAT.CEIL_PCT c 0 (effMax s c)
  if effMax s c < fget s PLT_CLU_STAT.RATE_PCT c 0 then setRate s c (stepRate (effMax s c) (effMax s c)) else s

/-- A write of PLT_MODE: the change takes effect, and no work is aborted (R18, R48). -/
def writeMode (s : State) (v : Nat) : State :=
  let m := PLT_MODE.MODE.of v
  if 4 < m ∨ m = get1 s PLT_MODE.MODE then s
  else ev (placementLoop ((List.range 5).foldl refreshCluster (set1 (set1 s PLT_MODE.MODE m) PLT_POWER.ENVELOPE_W (envelopeW m)))) PLT_EVENT.MODE_EV

/-- MODE_CHANGE (R46 to R48). -/
def execModeChange (v : BitVec 32) (s : State) : Res := .next (writeMode s v.toNat)

/-- A write of PLT_CLU_ENV: percentages of 10 to 100, the minimum not above the maximum (R18, R527). A write that would leave the minimum above the maximum leaves both fields unchanged (DESIGN CHOICE, assumption 97). -/
def writeCluEnv (s : State) (v : Nat) : State :=
  let c := get1 s PLT_CLU_SEL.CLUSTER
  let ok := fun (p : Nat) => decide (10 ≤ p ∧ p ≤ 100)
  let lo := if ok (PLT_CLU_ENV.MIN_PCT.of v) then PLT_CLU_ENV.MIN_PCT.of v else fget s PLT_CLU_ENV.MIN_PCT c 0
  let hi := if ok (PLT_CLU_ENV.MAX_PCT.of v) then PLT_CLU_ENV.MAX_PCT.of v else fget s PLT_CLU_ENV.MAX_PCT c 0
  let s := fset s PLT_CLU_ENV.PS_LIMIT c 0 (PLT_CLU_ENV.PS_LIMIT.of v)
  if lo ≤ hi then refreshCluster (fset (fset s PLT_CLU_ENV.MIN_PCT c 0 lo) PLT_CLU_ENV.MAX_PCT c 0 hi) c else s

/-- A write of PLT_JOB_FRAC: codes 0 to 6, both ignored where it would leave FRAC_MIN above FRAC_MAX (R18, R527; DESIGN CHOICE, assumption 97). -/
def writeJobFrac (s : State) (v : Nat) : State :=
  let j : JobId := Fin.ofNat 16 (get1 s PLT_JOB_SEL.JOB)
  let lo := if PLT_JOB_FRAC.FRAC_MIN.of v ≤ 6 then PLT_JOB_FRAC.FRAC_MIN.of v else fget s PLT_JOB_FRAC.FRAC_MIN j 0
  let hi := if PLT_JOB_FRAC.FRAC_MAX.of v ≤ 6 then PLT_JOB_FRAC.FRAC_MAX.of v else fget s PLT_JOB_FRAC.FRAC_MAX j 0
  if lo ≤ hi then trierLoop (fset (fset s PLT_JOB_FRAC.FRAC_MIN j 0 lo) PLT_JOB_FRAC.FRAC_MAX j 0 hi) j else s

/-! The throttle. -/

/-- Whether a quantity at a limit asks for lower rates; below 40 V and above 40 °C at the inlet the module is held to 1,400 W (R615). -/
def tooHigh (m : Limits) : Bool :=
  decide (2600 ≤ m.watts ∨ 66000 ≤ m.ma ∨ 95000 ≤ m.temps.die ∨ (m.mv < 40000 ∨ 40000 < m.temps.inlet) ∧ 1400 < m.watts)

/-- The hottest optical engine. -/
def optic (m : Limits) : Int := m.optics.toList.foldl max (m.optics.head)

/-- The ports whose queue pairs are throttled: from 70 °C on, until 5 °C below (R615, R616). -/
def hotAfter (s : State) (m : Limits) : List Nat :=
  (List.finRange 16).filterMap (fun (p : Fin 16) => if 70000 ≤ m.optics[p.val] ∨ s.hotPorts.contains p.val ∧ 65000 < m.optics[p.val] then some p.val else none)

/-- Whether a throttle limit is reached (R615). -/
def limitReached (m : Limits) : Bool := tooHigh m || decide (m.mv < 40000 ∨ 40000 < m.temps.inlet ∨ 85000 ≤ m.temps.hbm ∨ 70000 ≤ optic m)

/-- Whether every quantity has fallen far enough to release the throttle (R616). -/
def limitReleased (m : Limits) : Bool :=
  decide (40000 ≤ m.mv ∧ m.watts ≤ 2548 ∧ m.ma ≤ 64680 ∧ m.temps.die ≤ 90000 ∧ m.temps.hbm ≤ 80000 ∧ m.temps.inlet ≤ 39500 ∧ optic m ≤ 65000)

/-- A cluster throttled by one step (R616). -/
def lowerCluster (s : State) (c : Nat) : State :=
  let p := stepDown (fget s PLT_CLU_STAT.RATE_PCT c 0)
  setRate { s with throttleCap := putD id 100 s.throttleCap c p } c p

/-- The clusters that one throttle step lowers: the one that draws the most power, and cluster 2 for a hot HBM stack (R615, R616). -/
def throttled (s : State) (m : Limits) : List Nat :=
  let most := if tooHigh m then ((m.order.map (·.val)).filter (fun c => decide (10 < fget s PLT_CLU_STAT.RATE_PCT c 0))).take 1 else []
  if 85000 ≤ m.temps.hbm ∧ ¬ most.contains 2 then most ++ [2] else most

/-- The throttle lifted by one step: the lowest cluster that it still holds (R616). -/
def liftThrottle (s : State) : State :=
  match s.throttleCap with
  | [] => s
  | (c, p) :: _ =>
    let q := stepUp p
    { s with throttleCap := if effMax s c ≤ q then dropKey s.throttleCap c else putD id 100 s.throttleCap c q }

/-- What the input measurement shows (R615, R636). -/
def showInput (s : State) (mv ma watts : Nat) : State :=
  let s := set1 (set1 s PWR_INPUT.VOLT_MV (min mv 65535)) PWR_INPUT.CURR_MA (min ma 1048575)
  let s := set1 (set1 s PWR_INPUT.PEAK_W (max (get1 s PWR_INPUT.PEAK_W) (min watts 4095))) PWR_STATUS.LOW_INPUT (flag (decide (mv < 40000)))
  if mv < 40000 ∨ 60000 < mv then ev s PWR_EVENT.INPUT_EV else s

/-- THROTTLE_STEP (R615, R616, R519): at a limit one step lower every 100 µs; after its release one step higher every 1 ms; the queue pairs of a hot port are throttled by credit. -/
def execThrottleStep (m : Limits) (s : State) : Res :=
  .next (
    let s := showInput { s with hotPorts := hotAfter s m } m.mv m.ma m.watts
    if limitReached m then
      let s := if on s PWR_STATUS.THROTTLING then s else ev (set1 s PWR_STATUS.THROTTLING 1) PWR_EVENT.THROTTLE_EV
      if s.now < s.throttleAt ∨ throttled s m = [] then s
      else { (throttled s m).foldl lowerCluster s with throttleAt := s.now + 100000 }
    else if on s PWR_STATUS.THROTTLING ∧ ¬ limitReleased m then s
    else
      let s := set1 s PWR_STATUS.THROTTLING 0
      if s.now < s.throttleAt ∨ s.throttleCap = [] then s else { liftThrottle s with throttleAt := s.now + 1000000 })

/-! Pins and placement. -/

/-- Whether every accumulator of a job fits its partition beside what stays there (R514). -/
def residentFits (s : State) (j : JobId) : Bool :=
  decide ((demand s j).1 + ((s.job j).rounds.map (fun x => pCohortCount x.plan * accSpan x.plan)).sum ≤ partBytes s j)

/-- Whether a pin write can be met at once (R514). -/
def pinOk (s : State) (j : JobId) (arrays resident : Nat) : Bool :=
  (List.range 8).all (fun a => !bit arrays a || (unitState s 5 a != 1 && ((pinnedTo s a).map (· == j)).getD true)) &&
    (resident == 0 || residentFits s j)

/-! Moves between the Vat and HBM (R163, R512). -/

/-- A cohort's accumulator and sums moved to the other side, a poisoned line as a poisoned line (R164, R512). -/
def moveCohort (s : State) (j : JobId) (r c : Nat) (h : Bool) : State :=
  match s.round? j r with
  | none => s
  | some x =>
    let y := x.modCohort c (fun k => { k with inHbm := h })
    let t := s.modRound j r (fun _ => y)
    if s.poison.isEmpty then t
    else
      let hit := (linesOf (accAt s j x c) (accSpan x.plan)).zip (linesOf (accAt s j y c) (accSpan x.plan)) |>.filter (fun e => s.poison.contains (poisonKey s j (around s j e.1)))
      let t := clearPlace (clearPlace t j (accAt s j x c) (accSpan x.plan)) j (accAt s j y c) (accSpan x.plan)
      hit.foldl (fun t e => setPoison t (poisonKey t j (around t j e.2))) t

/-- Every accumulator of a job moved into the Vat (R514). -/
def moveAll (s : State) (j : JobId) : State :=
  (s.job j).rounds.foldl (fun t x =>
    ((List.range (pCohortCount x.plan)).filter (fun c => (x.cohort c).inHbm)).foldl (fun u c => moveCohort u j x.number c false) t) s

/-- The bytes of the job's HBM that a round's close table and accumulators reach from its end of the quota. -/
def hbmReach (s : State) (j : JobId) (x : Round) : Nat :=
  let first := ((List.range (pCohortCount x.plan)).filter (fun c => (x.cohort c).inHbm)).head?
  closeBytes s j + accSpan x.plan * (first.map (fun c => pCohortCount x.plan - c)).getD 0

/-- An accumulator's place in the order of priority, the lowest first: the round in Upload to Unmask before the other round, and lower cohort numbers first (R512). -/
def accRank (x : Round) (c : Nat) : Nat := (if 5 ≤ x.phase.code ∧ x.phase.code ≤ 7 then 0 else 16777216) + c

/-- Whether no accumulator of the job in the place `hbm` has a rank that `before` puts in front of this one's (R512). -/
def noneBefore (s : State) (j : JobId) (hbm : Bool) (before : Nat → Bool) : Bool :=
  (s.job j).rounds.all (fun z => (List.range (pCohortCount z.plan)).all (fun d => (z.cohort d).inHbm != hbm || !before (accRank z d)))

/-- Whether a move keeps the order of priority: out of the Vat only the last of the resident accumulators, into it only the first of the spilled ones (R512). -/
def moveTurn (s : State) (j : JobId) (x : Round) (c : Nat) (h : Bool) : Bool :=
  if h then noneBefore s j false (fun k => decide (accRank x c < k)) else noneBefore s j true (fun k => decide (k < accRank x c))

/-- Whether a cohort's accumulator may move: in the order of priority, where its place on the other side is free, and out of the Vat unless the job's are pinned there (R512, R514). -/
def moveOk (s : State) (j : JobId) (x : Round) (c : Nat) (h : Bool) : Bool :=
  let rs := (s.job j).rounds.map (fun z => if z.number = x.number then x.modCohort c (fun k => { k with inHbm := h }) else z)
  moveTurn s j x c h &&
  if h then fget s PLT_JOB_PIN.RESIDENT j 0 == 0 && decide ((rs.map (hbmReach s j)).sum ≤ quotaBytes s j)
  else decide ((window s j).2 + (rs.map (vatReach s j)).sum ≤ partBytes s j)

/-- A write of PLT_JOB_PIN of the selected job (R514). -/
def writePins (s : State) (v : Nat) : State :=
  let j : JobId := Fin.ofNat 16 (get1 s PLT_JOB_SEL.JOB)
  let s := storeField j 0 v s PLT_JOB_PIN.PIN_LOST
  if pinOk s j (PLT_JOB_PIN.ARRAYS.of v) (PLT_JOB_PIN.RESIDENT.of v) then
    let s := fset (fset (fset s PLT_JOB_PIN.PIN_REFUSED j 0 0) PLT_JOB_PIN.ARRAYS j 0 (PLT_JOB_PIN.ARRAYS.of v)) PLT_JOB_PIN.RESIDENT j 0 (PLT_JOB_PIN.RESIDENT.of v)
    if PLT_JOB_PIN.RESIDENT.of v = 1 then moveAll s j else s
  else ev (fset s PLT_JOB_PIN.PIN_REFUSED j 0 1) PLT_EVENT.PIN_EV

/-- PIN_WRITE (R514). -/
def execPinWrite (v : BitVec 32) (s : State) : Res := .next (writePins s v.toNat)

/-- PLACEMENT_MOVE (R512): a cohort's accumulator moves while no operation is applied to it. -/
def execPlacementMove (j : JobId) (r : RoundNo) (c : CohortId) (toHbm : Bool) (s : State) : Res :=
  .next (match s.round? j r with
    | none => s
    | some x =>
      if jobBusy s j ∨ (x.cohort c).inHbm = toHbm ∨ pCohortCount x.plan ≤ c ∨ ¬ moveOk s j x c toHbm then s
      else moveCohort s j r c toHbm)

end Sys2Proof.Machine
end

