-- ==== Sys2Proof/Machine/Keys.lean ====
section
/-! DEFINITION. PF0's key slots: clear-text keys and challenges (R542, R543), the fused SVN (R534), and the entropy unit: its states, health tests, DRBG and wires (R545 to R553). -/

namespace Sys2Proof.Machine

/-! PF0's slots. -/

/-- The bytes of a register group in the layout of R661. -/
def groupBytes (s : State) (f : Fld) (n : Nat) : Bytes := (List.range n).flatMap (fun i => toLe 8 (fget s f 0 i))

/-- The clear-text key that KST_WR_DATA holds for a slot of TYPE 3 (R535). -/
def writtenKey (s : State) : Bytes := groupBytes s KST_WR_DATA.DATA 6

/-- KST_WR_DATA zeroed (R542). -/
def zeroWrData (s : State) : State := resetRegs s (fun k => k.reg == .KST_WR_DATA)

/-- A write operation's status; a refused one sets DENIED_EV (R542, R566). -/
def writeStatus (s : State) (st : SStat) : State :=
  let s := zeroWrData (set1 s KST_OP_STAT.WR_STATUS st.code)
  if st = .ok then s else ev s KST_EVENT.DENIED_EV

/-- GO: a clear-text key stored in an EMPTY PF0 slot while no confidential job exists (R542). -/
def storeClearKey (s : State) : State :=
  let n := get1 s KST_WR_CTRL.SLOT
  if fget s KST_SLOT_INFO.STATE n 0 = 0 ∧ ¬ on s KST_STATUS.CONF_ACTIVE then
    let s := fillSlot s n 3 17 8 (get1 s KST_WR_CTRL.EXPIRE) (get1 s KST_WR_CTRL.LIMIT) (writtenKey s)
    writeStatus (set1 s KST_STATUS.CLEAR_WRITTEN 1) .ok
  else writeStatus s .slotDenied

/-- ERASE: a PF0 slot emptied; a BAD slot stays BAD (R538, R542). -/
def eraseClearKey (s : State) : State :=
  let n := get1 s KST_WR_CTRL.SLOT
  if fget s KST_SLOT_INFO.STATE n 0 = 2 then writeStatus s .slotBad else writeStatus (eraseSlot s n) .ok

/-- A write of KST_WR_CTRL: SLOT takes 224 to 255 (R18, R542). -/
def writeKstWr (s : State) (v : Nat) : State :=
  let s := set1 (set1 s KST_WR_CTRL.EXPIRE (KST_WR_CTRL.EXPIRE.of v)) KST_WR_CTRL.LIMIT (KST_WR_CTRL.LIMIT.of v)
  let s := if 224 ≤ KST_WR_CTRL.SLOT.of v then set1 s KST_WR_CTRL.SLOT (KST_WR_CTRL.SLOT.of v) else s
  let s := if KST_WR_CTRL.ERASE.of v = 1 then eraseClearKey s else s
  if KST_WR_CTRL.GO.of v = 1 then storeClearKey s else s

/-- KST_KEY_WRITE (R542): a write with GO. -/
def execKstKeyWrite (v : Word) (s : State) : Res := .next (writeKstWr s v.toNat)

/-- KST_KEY_ERASE (R542): a write with ERASE. -/
def execKstKeyErase (v : Word) (s : State) : Res := .next (writeKstWr s v.toNat)

/-- What a challenge's response covers (R543). -/
def challengeText (s : State) : Bytes := groupBytes s KST_CHAL.CHAL 6 ++ toBe 8 Config.serial.toNat ++ fwDigest s ++ toBe 4 (get1 s KST_FW.SVN)

/-- A write of KST_CHAL_CTRL: GO computes the response with the key of the PF0 slot (R536, R539, R543). -/
def writeChal (s : State) (v : Nat) : State :=
  let s := if 224 ≤ KST_CHAL_CTRL.SLOT.of v then set1 s KST_CHAL_CTRL.SLOT (KST_CHAL_CTRL.SLOT.of v) else s
  if KST_CHAL_CTRL.GO.of v = 1 then
    let n := get1 s KST_CHAL_CTRL.SLOT
    let (st, s) := takeSlot s n 17 3 3
    let resp := if st = .ok then hmac (readD [] s.keyMat n) (challengeText s) else zeros 48
    set1 (set1 (setGroup s KST_RESP.RESP 0 resp 6) KST_OP_STAT.CHAL_STATUS st.code) KST_CHAL_CTRL.DONE 1
  else s

/-- KST_CHALLENGE (R543). -/
def execKstChallenge (v : BitVec 32) (s : State) : Res := .next (writeChal s v.toNat)

/-- A write of KST_SVN_COMMIT (R534). -/
def writeSvn (s : State) (v : Nat) : State :=
  if v = get1 s KST_FW.SVN ∧ s.fuseSvn < v then { set1 s KST_FW.FUSED_SVN v with fuseSvn := v } else s

/-- SVN_COMMIT (R534). -/
def execSvnCommit (v : BitVec 32) (s : State) : Res := .next (writeSvn s v.toNat)

/-! The entropy unit. -/

/-- ENT_WIRE.WAITING: the wires with a request that waits (R551, R567). -/
def showWires (s : State) : State :=
  set1 s ENT_WIRE.WAITING (((List.range 8).filter (fun w => (s.wireWait ++ s.staged).any (fun q => q.wire == w))).map (2 ^ ·)).sum

/-- A wire request completed with ENTROPY_FAILED (R548). -/
def failWire (s : State) (q : WireReq) : State := emit s (.wire q.wire none)

/-- Random bytes drawn, 64 at a time. -/
def drawBytes : Nat → State → Bytes × State
  | 0, s => ([], s)
  | n + 1, s =>
    let (d, s) := draw s
    let (ds, s) := drawBytes n s
    (toBe 64 d.toNat ++ ds, s)

/-- A wire request served (R551). -/
def serveWire (s : State) (q : WireReq) : State :=
  let (d, s) := drawBytes q.count (served s q.count)
  emit s (.wire q.wire (some d))

/-- The unit in FAILED: the staged output is discarded and every request that waits completes with ENTROPY_FAILED, in request order (R548, R551). -/
def entropyFails (s : State) : State :=
  let reqs := s.staged ++ s.wireWait
  let s := ev { set1 s ENT_STATUS.STATE 2 with staged := [], wireWait := [] } ENT_EVENT.FAIL_EV
  showWires (reqs.foldl failWire s)

/-- The enabled latches of a mask. -/
def latchCount (m : Nat) : Nat := ((List.range 8).filter (bit m)).length

/-- A write of ENT_CTRL: at least four latches; UNIT_RESET enters STARTUP (R547, R549, R550). -/
def writeEntCtrl (s : State) (v : Nat) : State :=
  let s := if 4 ≤ latchCount (ENT_CTRL.LATCH_EN.of v) then set1 s ENT_CTRL.LATCH_EN (ENT_CTRL.LATCH_EN.of v) else s
  if ENT_CTRL.UNIT_RESET.of v = 1 ∧ ¬ on s ENT_STATUS.PERM_FAIL then showWires (entropyStartup s) else s

/-- UNIT_RESET (R547, R549, R550): a write of ENT_CTRL with UNIT_RESET. -/
def execUnitReset (v : BitVec 32) (s : State) : Res := .next (writeEntCtrl s v.toNat)

/-- HEALTH_WINDOW_PASS (R545, R546): the output staged in the window is released, and the software port's buffer is full again. -/
def execHealthWindowPass (s : State) : Res :=
  .next (if ¬ entropyReady s then s
    else
      let s := s.staged.foldl serveWire (countSat s ENT_HEALTH.WINDOWS 0 0 1)
      showWires { served s ((4096 - s.swBytes + 63) / 64) with staged := [], swBytes := 4096 })

/-- HEALTH_TEST_FAIL (R545, R548): an enabled latch fails a test in READY. -/
def execHealthTestFail (latch : Fin 8) (apt : Bool) (s : State) : Res :=
  .next (if ¬ entropyReady s ∨ ¬ bit s.latches latch.val then s
    else
      let s := if apt then countSat s ENT_HEALTH.APT_FAILS 0 0 1 else countSat s ENT_HEALTH.RCT_FAILS 0 0 1
      entropyFails (set1 s ENT_STATUS.LATCH_FAIL (2 ^ latch.val)))

/-- DRBG_RESEED (R546): after 1 ms or 2^20 requests. -/
def execDrbgReseed (s : State) : Res :=
  .next (if entropyReady s ∧ (s.reseedAt ≤ s.now ∨ 2 ^ 20 ≤ s.genCount) then
      { count s ENT_DRBG.RESEEDS 0 0 1 with reseedAt := s.now + 1000000, genCount := 0 }
    else s)

/-- PRIVATE_WIRE_REQUEST (R546, R551): served when its window passes, kept while the unit is in STARTUP, and failed at once in FAILED. -/
def execWireRequest (w : Fin 8) (n : Nat) (s : State) : Res :=
  .next (
    let q : WireReq := ⟨w.val, n⟩
    if entropyReady s then showWires { s with staged := s.staged ++ [q] }
    else if entropyStarting s then showWires { s with wireWait := s.wireWait ++ [q] }
    else failWire s q)

/-- A read of ENT_SW_DATA: fresh bits, or why there are none (R553). -/
def readSwData (s : State) : Nat × State :=
  if entropyStarting s then (2 ^ 63, s)
  else if ¬ entropyReady s then (2 ^ 62, s)
  else if s.swBytes < 6 then (2 ^ 61, s)
  else
    let (d, t) := draw s
    (d.toNat % 2 ^ 48, { t with swBytes := s.swBytes - 6 })

/-- ENT_SW_DATA_READ (R553). -/
def execEntSwDataRead (f : Func) (s : State) : Res :=
  let (v, t) := readSwData s
  .next (emit t (.readValue f (if f = pf0 then 0xF00028 else 0x1000) v))

end Sys2Proof.Machine
end

