-- ==== Sys2Proof/Machine/SpdmOps.lean ====
section
/-! DEFINITION. The SPDM responder (R556, R558), IDE keys (R559), and the end of the entropy unit's STARTUP with what has waited for it (R547, R550, R551, R554). The message codes and layouts are SPDM 1.2's (PRESUMED, assumption 9). -/

namespace Sys2Proof.Machine

/-- The responder changed. -/
def modSpdm (s : State) (g : Spdm → Spdm) : State := { s with spdm := g s.spdm }

/-- An ERROR response with its code. -/
def spdmError (s : State) (code : Nat) : State := emit s (.spdm ([0x12, 0x7F] ++ toLe 1 code ++ [0]))

/-- A response sent and added to the transcript with its request. -/
def spdmReply (s : State) (m r : Bytes) : State := modSpdm (emit s (.spdm r)) (fun p => { p with transcript := p.transcript ++ m ++ r })

/-- What the alias key signs: the message's signing prefix and the hash of the transcript (R558). -/
def spdmSign (s : State) (code : Nat) (m r : Bytes) : Bytes :=
  ecdsaSign s.aliasPriv (sha384 (Config.spdmField code 2 ++ digestBytes (sha384 (s.spdm.transcript ++ m ++ r))))

/-- The certificate chain of slot 0: its length, two reserved bytes and the root's hash before the certificates (PRESUMED, assumption 9). -/
def certChain (s : State) : Bytes :=
  let c := Config.certificates (beNat (fwDigest s))
  toLe 2 (52 + c.length) ++ zeros 2 ++ toBe 48 Config.rootHash.toNat ++ c

/-- The value of a measurement (R556, table *SPDM measurement indices*); none for an index that it does not list. -/
def measurement (s : State) (nonce : Bytes) (i : Nat) : Option Bytes :=
  match i with
  | 1 => some (digestBytes Config.romDigest)
  | 2 => some (fwDigest s)
  | 3 => some (digestBytes (Config.recipeDigest (BitVec.ofNat 384 (beNat (fwDigest s)))))
  | 4 => some (toBe 4 (get1 s KST_FW.SVN) ++ toBe 4 (get1 s KST_FW.FUSED_SVN))
  | 5 => some (toBe 1 (reportFlags s false))
  | _ =>
    if 0x20 ≤ i ∧ i < 0x30 then
      let j : JobId := Fin.ofNat 16 (i - 0x20)
      some (if (s.job j).present then report s j (digestBytes (sha384 nonce)) else [])
    else none

/-- The listed measurement indices. -/
def measurementIndices : List Nat := [1, 2, 3, 4, 5] ++ (List.range 16).map (0x20 + ·)

/-- A measurement block: index, specification and the DMTF value. -/
def measurementBlock (i : Nat) (v : Bytes) : Bytes := toLe 1 i ++ [1] ++ toLe 2 (v.length + 3) ++ Config.spdmField 0x60 i ++ toLe 2 v.length ++ v

/-- Every measurement block. -/
def allMeasurements (s : State) (nonce : Bytes) : Bytes :=
  measurementIndices.flatMap (fun i => ((measurement s nonce i).map (measurementBlock i)).getD [])

/-- The measurement summary hash that a request asks for. -/
def summaryHash (s : State) (kind : Nat) : Bytes := if kind = 0 then [] else digestBytes (sha384 (allMeasurements s (zeros 32)))

/-- GET_VERSION (R558): the connection starts afresh. -/
def execGetVersion (m : Bytes) (s : State) : Res :=
  .next (spdmReply (modSpdm s (fun p => { p with versionDone := true, capsDone := false, algsDone := false, transcript := [] })) m
    [0x10, 0x04, 0, 0, 0, 1, 0x00, 0x12])

/-- GET_CAPABILITIES (R558). -/
def execGetCapabilities (m : Bytes) (s : State) : Res :=
  .next (if s.spdm.versionDone then
      spdmReply (modSpdm s (fun p => { p with capsDone := true })) m ([0x12, 0x61, 0, 0] ++ Config.spdmField 0x61 0)
    else spdmError s 4)

/-- NEGOTIATE_ALGORITHMS (R558). -/
def execNegotiateAlgorithms (m : Bytes) (s : State) : Res :=
  .next (if s.spdm.capsDone then
      spdmReply (modSpdm s (fun p => { p with algsDone := true })) m ([0x12, 0x63, 0, 0] ++ Config.spdmField 0x63 0)
    else spdmError s 4)

/-- GET_DIGESTS (R558): the digest of the chain of slot 0. -/
def execGetDigests (m : Bytes) (s : State) : Res :=
  .next (if s.spdm.algsDone then spdmReply s m ([0x12, 0x01, 0, 1] ++ digestBytes (sha384 (certChain s))) else spdmError s 4)

/-- GET_CERTIFICATE (R558): a portion of the chain of slot 0. -/
def execGetCertificate (m : Bytes) (s : State) : Res :=
  .next (
    let off := leAt m 4 2
    let chain := certChain s
    if ¬ s.spdm.algsDone then spdmError s 4
    else if leAt m 2 1 % 16 ≠ 0 ∨ chain.length ≤ off then spdmError s 1
    else
      let n := min (leAt m 6 2) (chain.length - off)
      spdmReply s m ([0x12, 0x02, 0, 0] ++ toLe 2 n ++ toLe 2 (chain.length - off - n) ++ slice chain off n))

/-- CHALLENGE (R558): CHALLENGE_AUTH, signed by the alias key. -/
def execChallenge (m : Bytes) (s : State) : Res :=
  .next (if ¬ s.spdm.algsDone then spdmError s 4
    else if leAt m 2 1 ≠ 0 then spdmError s 1
    else
      let (nonce, s) := draw s
      let r := List.flatten [[0x12, 0x03, 0, 1], digestBytes (sha384 (certChain s)), (toBe 64 nonce.toNat).take 32, summaryHash s (leAt m 3 1), zeros 2]
      spdmReply s m (r ++ spdmSign s 0x03 m r))

/-- The measurement record that a request asks for: none, one or all; none for an index that is not listed. -/
def measurementRecord (s : State) (nonce : Bytes) (op : Nat) : Option (Nat × Bytes) :=
  if op = 0 then some (0, [])
  else if op = 0xFF then some (measurementIndices.length, allMeasurements s nonce)
  else (measurement s nonce op).map (fun v => (1, measurementBlock op v))

/-- GET_MEASUREMENTS (R556, R558): signed by the alias key where the request asks for it. -/
def execGetMeasurements (m : Bytes) (s : State) : Res :=
  .next (if ¬ s.spdm.algsDone then spdmError s 4
    else
      let sig := bit (leAt m 2 1) 0
      let nonce := if sig then slice m 4 32 else zeros 32
      match measurementRecord s nonce (leAt m 3 1) with
      | none => spdmError s 1
      | some (n, rec) =>
        let (mine, s) := draw s
        let total := if leAt m 3 1 = 0 then measurementIndices.length else 0
        let r := List.flatten [[0x12, 0x60], toLe 1 total, [0], toLe 1 n, toLe 3 rec.length, rec, (toBe 64 mine.toNat).take 32, zeros 2]
        spdmReply s m (if sig then r ++ spdmSign s 0x60 m r else r))

/-- A KEY_EXCHANGE answered, with the entropy unit READY (R558, R559): the ephemeral key is drawn on the die, and a session opens. -/
def openSession (s : State) (m : Bytes) : State :=
  let x := beAt m 40 48
  let y := beAt m 88 48
  if ¬ onCurve x y ∨ leAt m 3 1 ≠ 0 then spdmError s 1
  else
    let (d, s) := drawScalar (served s 1)
    let (mine, s) := draw (tollDone s none 2 0)
    let own := s.spdm.sessions.length + 1
    let r := List.flatten [[0x12, 0x64, 0, 0], toLe 2 own, [0, 0], (toBe 64 mine.toNat).take 32, (publicOf d).drop 1, summaryHash s (leAt m 2 1), zeros 2]
    let s := spdmReply s m (r ++ spdmSign s 0x64 m r ++ Config.spdmField 0x64 1)
    modSpdm s (fun p => { p with sessions := p.sessions ++ [⟨leAt m 4 2 + 2 ^ 16 * own, ecdhX d (x, y), false, 0⟩] })

/-- KEY_EXCHANGE (R551, R554, R558): it waits while the entropy unit is in STARTUP, and fails in FAILED. -/
def execKeyExchange (m : Bytes) (s : State) : Res :=
  .next (if ¬ s.spdm.algsDone then spdmError s 4
    else if entropyReady s then openSession s m
    else if entropyStarting s then modSpdm s (fun p => { p with waiting := p.waiting ++ [m] })
    else spdmError s 5)

/-- The newest session changed, or dropped. -/
def modSession (s : State) (g : Session → List Session) : State :=
  modSpdm s (fun p => match p.sessions.getLast? with
    | none => p
    | some x => { p with sessions := p.sessions.dropLast ++ g x })

/-- FINISH (R558): it completes the newest session that is being set up. -/
def execSpdmFinish (m : Bytes) (s : State) : Res :=
  .next (match s.spdm.sessions.getLast? with
    | none => spdmError s 4
    | some x =>
      if x.done then spdmError s 4
      else if Config.spdmVerify x.secret s.spdm.transcript m then
        spdmReply (modSession s (fun y => [{ y with done := true }])) m ([0x12, 0x65, 0, 0] ++ Config.spdmField 0x65 0)
      else spdmError (modSession s (fun _ => [])) 6)

/-- KEY_UPDATE (R558): the keys of the newest session are updated (operations 1 and 2) or verified (3). -/
def execKeyUpdate (m : Bytes) (s : State) : Res :=
  .next (match s.spdm.sessions.getLast? with
    | none => spdmError s 4
    | some x =>
      let op := leAt m 2 1
      if ¬ x.done then spdmError s 4
      else if op = 0 ∨ 3 < op then spdmError s 1
      else
        let s := if op = 3 then s else modSession s (fun y => [{ y with updates := y.updates + 1 }])
        emit s (.spdm ([0x12, 0x69] ++ slice m 2 2)))

/-- END_SESSION (R558): the newest session closes; the IDE keys that came through it stay (R559). -/
def execEndSession (_m : Bytes) (s : State) : Res :=
  .next (match s.spdm.sessions.getLast? with
    | none => spdmError s 4
    | some x => if x.done then emit (modSession s (fun _ => [])) (.spdm [0x12, 0x6C, 0, 0]) else spdmError s 4)

/-- IDE_KM (R559): a stream's keys inside a secured session; IDE_ACTIVE once every stream of the link runs under such keys. -/
def execIdeKm (m : IdeKey) (s : State) : Res :=
  .next (if s.spdm.sessions.any (fun x => x.id == m.session && x.done) then
      let s := modSpdm s (fun p => { p with ideKeys := p.ideKeys.filter (fun k => k.1 != m.stream) ++ [(m.stream, m.key)] })
      if m.allStreams then { set1 s HIF_LINK.IDE_ACTIVE 1 with ideOn := true } else s
    else s)

/-! The end of STARTUP. -/

/-- The draws of sealed queue pairs that have waited (R488, R551). -/
def serveSqpKeys (s : State) (ready : Bool) : State :=
  (s.qps.filter (fun e => e.2.keyWait)).foldl (fun t e =>
    if ready then makeSqpKey t e.1 else fset (t.modQp e.1 (fun x => { x with keyWait := false })) RDMA_SQP_CTRL.STATE e.1 0 3) s

/-- The KEY_EXCHANGE requests that have waited (R551, R554). -/
def serveSpdm (s : State) (ready : Bool) : State :=
  s.spdm.waiting.foldl (fun t m => if ready then openSession t m else spdmError t 5) (modSpdm s (fun p => { p with waiting := [] }))

/-- STARTUP passes: READY, and the requests are served in request order (R547, R550, R551). -/
def entropyPasses (s : State) : State :=
  let s := ev (set1 (set1 (set1 s ENT_STATUS.STATE 1) ENT_STATUS.STARTUP_FAILS 0) ENT_STATUS.LATCH_FAIL 0) ENT_EVENT.READY_EV
  let s := { s with staged := s.wireWait, wireWait := [], reseedAt := s.now + 1000000, genCount := 0 }
  releaseAll (serveSpdm (serveSqpKeys s true) true)

/-- STARTUP fails: FAILED, the fourth time in a row for good (R548, R550, R551). -/
def startupFails (s : State) (bad : Nat) : State :=
  let n := get1 s ENT_STATUS.STARTUP_FAILS + 1
  let s := entropyFails (set1 (set1 s ENT_STATUS.STARTUP_FAILS n) ENT_STATUS.LATCH_FAIL bad)
  let s := if n = 4 then ev (set1 s ENT_STATUS.PERM_FAIL 1) ENT_EVENT.PERM_EV else s
  releaseAll (serveSpdm (serveSqpKeys s false) false)

/-- ENTROPY_STARTUP_DONE (R547, R550, R551): the enabled latches' tests and the known-answer tests have run. -/
def execEntropyStartupDone (badLatches : BitVec 8) (kat : Bool) (s : State) : Res :=
  .next (
    let bad := badLatches.toNat &&& s.latches
    if ¬ entropyStarting s then s else if bad = 0 ∧ kat then entropyPasses s else startupFails s bad)

end Sys2Proof.Machine
end

