-- ==== Sys2Proof/Machine/Power.lean ====
section
/-! DEFINITION. The resets and what starts them (R592, R593, R627 to R635, R646, R647), the trips (R615, R617, R645), the test mode and the TAP (R650 to R657), and the end of a check failure's 24 hours (R581). -/

namespace Sys2Proof.Machine

/-- Whether the module is out of cold reset. -/
def running (s : State) : Bool := s.inputOn && s.holds.isEmpty

/-- A hold on cold reset added. -/
def addHold (s : State) (h : Hold) : State := { s with holds := if s.holds.contains h then s.holds else s.holds ++ [h] }

/-- A hold on cold reset gone: the module powers up where it was the last (R646, R651). -/
def dropHold (s : State) (h : Hold) (cause : Nat) : State :=
  if s.holds.contains h then leaveCold { s with holds := s.holds.filter (· != h) } cause else s

/-! Start-up. -/

/-- INPUT_GOOD (R617, R624, R635): the input rises through 40 V, after it was removed, and the power-up sequence runs; what the module held after a trip is gone. -/
def execInputGood (b : Boot) (s : State) : Res :=
  let s := if s.inputOn then startOutage s false else s
  let s := { coldClear s with inputOn := true, holds := s.holds.filter (fun h => h == .pin || h == .test), trips := [], lastBoot := some b }
  .next (emit (leaveCold s 0) (.faultPin false))

/-- RECOVERY_IMAGE_LOAD (R533): the recovery loader checks an image, writes it to bank A, and the ROM starts it; the milliseconds that FW_MS then shows are not given (assumption 5). -/
def execRecoveryImageLoad (image : Bytes) (s : State) : Res :=
  .next (if running s ∧ get1 s PWR_STATUS.BOOT_STAGE = 15 ∧ imageOk s.fuseSvn image then
      let (v, s) := freeValue { s with flash := s.flash.set 0 image }
      startImage s 0 (bootFindings s) (v.toNat % 65536)
    else s)

/-! Requested resets. -/

/-- Whether the firmware runs, so that a warm restart can be made. -/
def inService (s : State) : Bool := running s && get1 s PWR_STATUS.BOOT_STAGE == 5

/-- A warm restart, absorbed in a wider reset that holds the module (R634). -/
def restart (s : State) (cause : Nat) (requested : Bool) : State := if inService s then warmRestart s cause requested else s

/-- A write of PWR_CTRL: with the key, and one of the three resets alone (R630). -/
def writePwrCtrl (s : State) (v : Nat) : State :=
  let c := PWR_CTRL.COLD_RESET.of v
  let w := PWR_CTRL.WARM_RESTART.of v
  let e := PWR_CTRL.ENGINE_RESET.of v
  let n := PWR_CTRL.ENGINE.of v
  if PWR_CTRL.KEY.of v ≠ 0xB7 ∨ c + w + e ≠ 1 ∨ (e = 1 ∧ (n = 0 ∨ 8 < n)) then ev s PWR_EVENT.CTRL_EV
  else if c = 1 then coldReset s 1 true
  else if w = 1 then restart s 1 true
  else
    let busy := get1 s PWR_STATUS.ENG_BUSY
    if bit busy n then s else set1 s PWR_STATUS.ENG_BUSY (busy + 2 ^ n)

/-- COLD_RESET_REQUEST (R630, R634, R635). -/
def execColdResetRequest (v : BitVec 32) (s : State) : Res := .next (writePwrCtrl s v.toNat)

/-- WARM_RESTART_REQUEST (R593, R629, R630, R634, R635). -/
def execWarmRestartRequest (v : BitVec 32) (s : State) : Res := .next (writePwrCtrl s v.toNat)

/-- ENGINE_RESET_REQUEST (R630, R631). -/
def execEngineResetRequest (v : BitVec 32) (s : State) : Res := .next (writePwrCtrl s v.toNat)

/-- FIRMWARE_WATCHDOG (R593): the watchdog of WS expires. -/
def execFirmwareWatchdog (s : State) : Res := .next (restart s 9 false)

/-- MCTP_COLD_RESET (R647). -/
def execMctpColdReset (s : State) : Res := .next (coldReset s 3 true)

/-- PERST_RESET (R628): a warm restart; the link trains again, and the IDE keys are discarded. -/
def execPerstReset (s : State) : Res :=
  let s := restart s 8 true
  let s := if s.ideOn then ev s HIF_EVENT.IDE_EV else s
  let s := set1 (set1 (set1 (set1 s HIF_LINK.UP 0) HIF_LINK.WIDTH 0) HIF_LINK.SPEED 0) HIF_LINK.IDE_ACTIVE 0
  .next (modSpdm { s with ideOn := false, tspLocked := [] } (fun p => { p with ideKeys := [] }))

/-- CARRIER_RESET_PIN (R646): a low of 10 µs or more holds the module in cold reset. -/
def execCarrierResetPin (lowNs : Nat) (s : State) : Res := .next (if lowNs < 10000 then s else coldReset (addHold s .pin) 2 true)

/-- CARRIER_RESET_RELEASE (R646). -/
def execCarrierResetRelease (s : State) : Res := .next (dropHold s .pin 2)

/-! Engine resets. -/

/-- The sequencer of an engine of PWR_CTRL.ENGINE; none for Landing and Trier (R354, R631). -/
def engineSeq : Nat → Option Nat
  | 2 => some 3
  | 3 => some 2
  | 4 => some 0
  | 5 => some 4
  | 6 => some 5
  | 7 => some 6
  | _ => none

/-- Whether an invocation has work on an engine: issued work of its sequencer, a chain in a Press tile, or a drain through Wrap (R392, R592). -/
def worksOn (s : State) (e : Nat) (k : Nat) (c : Ctx) : Bool :=
  engineSeq e == some (k / 32) && (!c.issued.isEmpty || !c.chains.isEmpty) ||
    e == 5 && s.arrays.toList.any (fun a => a.drains.any (fun d => ctxNo d.x == k))

/-- The invocations with work on an engine end with ENGINE_RESET, their issued work with it (R392, R592). -/
def endEngineWork (s : State) (e : Nat) : State :=
  (s.contexts.filter (fun c => worksOn s e c.1 c.2)).foldl (fun t c =>
    let x : CtxId := ⟨Fin.ofNat 7 (c.1 / 32), Fin.ofNat 32 c.1⟩
    stopWith (t.modCtx x (fun d => { d with issued := [] })) x .engineReset 0 0 c.2.pc) s

/-- The Press check key of every job drawn again (R576). -/
def redrawPressKeys (s : State) : State :=
  (List.finRange 16).foldl (fun t (j : JobId) =>
    if ¬ t.alive j then t
    else if entropyReady t then
      let (k, t) := drawKey (served t 1)
      t.modJob j (fun J => { J with pressKey := some k })
    else t.modJob j (fun J => { J with pressKey := none })) s

/-- ENGINE_RESET_DONE (R212, R392, R576, R592, R631): the engine's work has ended; Press zeroes its tiles, Trier draws the jobs' Press check keys again once the entropy unit has left STARTUP. -/
def execEngineResetDone (e : Fin 9) (s : State) : Res :=
  .next (
    let busy := get1 s PWR_STATUS.ENG_BUSY
    if ¬ bit busy e.val ∨ (e.val = 8 ∧ entropyStarting s) then s
    else
      let s := endEngineWork (set1 s PWR_STATUS.ENG_BUSY (busy - 2 ^ e.val)) e.val
      if e.val = 4 then { s with arrays := Vector.replicate 8 .idle } else if e.val = 5 then { s with noiseFifo := none } else if e.val = 8 then redrawPressKeys s else s)

/-! Trips. -/

/-- A trip: FAULT# low from its start until the module leaves the cold reset that it starts (R615, R645). -/
def trip (s : State) (cause : Nat) : State :=
  let s := coldReset (emit s (.faultPin true)) cause false
  if running s then emit s (.faultPin false) else s

/-- BROWNOUT_TRIP (R615). -/
def execBrownoutTrip (mv us : Nat) (s : State) : Res := .next (if running s ∧ mv < 38000 ∧ 100 ≤ us then trip s 4 else s)

/-- OVERPOWER_TRIP (R615). -/
def execOverpowerTrip (watts : Nat) (s : State) : Res := .next (if running s ∧ 2800 ≤ watts then trip s 5 else s)

/-- OVERCURRENT_TRIP (R615). -/
def execOvercurrentTrip (ma us : Nat) (s : State) : Res := .next (if running s ∧ 70000 ≤ ma ∧ 50 ≤ us then trip s 6 else s)

/-- INPUT_OVERVOLTAGE (R615): the input is disconnected, and the module is off until it falls below 60 V. -/
def execInputOvervoltage (mv : Nat) (s : State) : Res :=
  .next (if s.inputOn ∧ 63000 < mv then coldReset (addHold s .overvoltage) 0 false else s)

/-- INPUT_OVERVOLTAGE_RELEASE (R615, R635). -/
def execInputOvervoltageRelease (mv : Nat) (s : State) : Res := .next (if mv < 60000 then dropHold s .overvoltage 0 else s)

/-- Whether a temperature is at its trip (R615). -/
def tooHot (t : Temps) : Bool := decide (110000 ≤ t.die ∨ 100000 ≤ t.hbm ∨ 45000 ≤ t.inlet)

/-- THERMAL_TRIP (R615, R617): a cold reset that holds; after the third within an hour, until the input is removed. -/
def execThermalTrip (t : Temps) (s : State) : Res :=
  .next (if ¬ running s ∨ ¬ tooHot t then s
    else
      let trips := s.trips.filter (fun c => decide (s.clock < c + hourNs)) ++ [s.clock]
      trip { addHold s (if 3 ≤ trips.length then .thermalLatched else .thermal) with trips := trips } 7)

/-- THERMAL_HOLD_RELEASE (R617, R645): the die below 85 °C and the coolant at 40 °C or below. -/
def execThermalHoldRelease (t : Temps) (s : State) : Res :=
  .next (if s.holds.contains .thermal ∧ t.die < 85000 ∧ t.inlet ≤ 40000 then
      let s := dropHold s .thermal 7
      if running s then emit s (.faultPin false) else s
    else s)

/-! Field ports. -/

/-- FIELD_PORT_LINK_CHANGE (R588, R627): an enabled port's link comes up, or goes down and its 10 s begin; a fenced port stays down. -/
def execFieldPortLinkChange (p : Port) (up : Bool) (s : State) : Res :=
  .next (
    let now := get1 s LND_STATUS.PORT_UP
    if ¬ portOn s p ∨ bit now p.val = up ∨ (up ∧ unitState s 1 p = 1) then s
    else if up then { set1 s LND_STATUS.PORT_UP (now + 2 ^ p.val) with portDown := dropKey s.portDown p.val }
    else { set1 s LND_STATUS.PORT_UP (now - 2 ^ p.val) with portDown := putN s.portDown p.val s.now })

/-! Boundary scan. -/

/-- The code that the TAP's instruction acts as (R652). -/
def tapActs (s : State) : Nat :=
  let ir := get1 s TST_STATUS.IR
  match ir with
  | 0x01 => 0x01
  | 0x02 => 0x02
  | 0x03 => if s.testMode then 0x03 else 0x02
  | 0x04 => if s.testMode then 0x04 else 0x02
  | 0x05 => if s.testMode then 0x05 else 0x02
  | 0x06 => if s.testMode then 0x06 else 0xFF
  | 0x07 => if s.testMode then 0x07 else 0xFF
  | 0x20 => if on s KST_STATUS.DEBUG_LOCKED then 0xFF else 0x20
  | _ => 0xFF

/-- Whether the instruction that a code acts as names the boundary-scan register (R652). -/
def isBoundary (code : Nat) : Bool := decide (2 ≤ code ∧ code ≤ 5)

/-- Whether it holds pins: the three forms of EXTEST and CLAMP drive them from the cells, HIGHZ releases them (R651, R652). -/
def holdsPins (code : Nat) : Bool := decide (3 ≤ code ∧ code ≤ 7)

/-- Cell `n` of the boundary-scan register. -/
def cell (s : State) (n : Nat) : Bool := s.cells.getLsbD n

/-- The CXL_TX lanes' P legs as cells 1 to 16 drive them while cell 0 holds 1 (R654). -/
def txCells (s : State) : Option (BitVec 16) := if cell s 0 then some (s.cells.extractLsb' 1 16) else none

/-- Whether each open-drain pin is driven low: its enable cell holds 1 and its output cell 0 (R654, R655). -/
def lowCells (s : State) : List Bool := [(53, 54), (56, 57), (58, 59), (61, 62)].map (fun e => cell s e.2 && !cell s e.1)

/-- The pins after an instruction or an update: driven from the cells, released, or given back where they were held before. -/
def driveCells (s : State) (was : Nat) : State :=
  let code := tapActs s
  if code = 7 then emit s (.scanPins 7 none [false, false, false, false])
  else if holdsPins code then emit s (.scanPins code (txCells s) (lowCells s))
  else if holdsPins was then emit s (.scanPins 0xFF none [])
  else s

/-- The pins given back where boundary scan held them under the code `was`. -/
def endDrive (s : State) (was : Nat) : State := if holdsPins was then emit s (.scanPins 0xFF none []) else s

/-- What the data register of the instruction captures, the bit nearest TDO first (R652 to R654): the identity, the cells, the 72 bits of the debug port, which the spec leaves open (assumption 5), or the bypass bit. -/
def captured (s : State) (pins : BitVec 63) : List Bool × State :=
  let code := tapActs s
  if code = 1 then ((List.range 32).map (bit (get1 s TST_IDCODE.IDCODE)), s)
  else if isBoundary code then ((List.range 63).map pins.getLsbD, s)
  else if code = 0x20 then
    let (a, s) := freeValue s
    let (b, s) := freeValue s
    ((List.range 64).map (bit a.toNat) ++ (List.range 8).map (bit b.toNat), s)
  else ([false], s)

/-- Bits as a number, the first the lowest. -/
def ofBits (l : List Bool) : Nat := l.foldr (fun b n => flag b + 2 * n) 0

/-- A scan of the data register: captured, shifted through towards TDO, and under a boundary instruction updated (R652, R654). -/
def scanData (s : State) (d : TapScan) : State :=
  let (dr, s) := captured s d.pins
  let s := emit s (.tdo ((dr ++ d.tdi).take d.tdi.length))
  if isBoundary (tapActs s) then
    let s := { s with cells := BitVec.ofNat 63 (ofBits ((dr ++ d.tdi).drop d.tdi.length)) }
    if holdsPins (tapActs s) then driveCells s (tapActs s) else s
  else s

/-! Test mode and the TAP. -/

/-- TEST_MODE_RISE (R651). -/
def execTestModeRise (s : State) : Res := .next (coldReset { addHold s .test with testMode := true } 2 true)

/-- TEST_MODE_FALL (R651). -/
def execTestModeFall (s : State) : Res := .next (dropHold (endDrive { s with testMode := false } (tapActs s)) .test 2)

/-- A debug session closes (R656). -/
def closeSession (s : State) : State := if on s TST_STATUS.SESSION then ev (set1 s TST_STATUS.SESSION 0) TST_EVENT.CLOSE_EV else s

/-- What an instruction brings about for the debug session (R656, R657): DEBUG_ACCESS opens one, or acts as BYPASS while DEBUG_LOCKED is 1; any other instruction closes one. -/
def loadInstruction (ir : Byte) (s : State) : State :=
  let s := set1 { s with trst := true } TST_STATUS.IR ir.toNat
  if ir ≠ 0x20 then closeSession s
  else if on s KST_STATUS.DEBUG_LOCKED then ev s TST_EVENT.LOCK_BYPASS_EV
  else if on s TST_CTRL.DBG_EN ∧ ¬ on s TST_STATUS.SESSION then ev (set1 s TST_STATUS.SESSION 1) TST_EVENT.OPEN_EV
  else s

/-- TAP_INSTRUCTION_LOAD (R652, R654 to R657): an instruction loaded, and the scan of its data register made under it, if any. -/
def execTapInstructionLoad (ir : Byte) (scan : Option TapScan) (s : State) : Res :=
  .next (
    let t := driveCells (loadInstruction ir s) (tapActs s)
    match scan with
    | none => t
    | some d => scanData t d)

/-- TEST_LOGIC_RESET (R650, R652, R656): the instruction is IDCODE and the session closes; `trst` says whether TRST# is high. -/
def execTestLogicReset (trst : Bool) (s : State) : Res :=
  .next (endDrive (closeSession (set1 { s with trst := trst } TST_STATUS.IR 1)) (tapActs s))

/-- A write of TST_CTRL: ignored while DEBUG_LOCKED is 1; clearing DBG_EN closes the session (R656, R658). -/
def writeTstCtrl (s : State) (v : Nat) : State :=
  if on s KST_STATUS.DEBUG_LOCKED then s
  else
    let s := storeReg s .TST_CTRL 0 0 v
    if on s TST_CTRL.DBG_EN then s else closeSession s

/-! The failure window. -/

/-- FAILURE_WINDOW_EXPIRY (R581): a check failure of 24 hours ago leaves the window, and the TRIER loop follows. -/
def execFailureWindowExpiry (j : JobId) (s : State) : Res :=
  .next (
    let keep := (s.job j).failTimes.filter (fun t => decide (s.now < t + 24 * hourNs))
    if keep.length = (s.job j).failTimes.length then s
    else trierLoop (fset (s.modJob j (fun J => { J with failTimes := keep })) TRI_JOB_CHECK.FAILS_24H j 0 (min keep.length 255)) j)

end Sys2Proof.Machine
end

