-- ==== Sys2Proof/Machine/RegViews.lean ====
section
/-! DEFINITION. What a read of a register returns: its stored fields, the fields that show other state, and those that a confidential job hides (R14, R17, R262, R305, R565). -/

namespace Sys2Proof.Machine

/-- A Roster entry as 64 bytes (R101). -/
def Entry.bytes (e : Entry) : Bytes :=
  List.flatten [toLe 1 (e.job % 16 + 128 * flag e.valid), toLe 1 e.state.code, toLe 2 (e.fe % 4096), toLe 4 e.round, toLe 2 e.cohort, toLe 2 e.chunks,
    toLe 4 e.keyHandle, toLe 8 e.bitmapPtr, toLe 8 e.shareOutPtr, toLe 8 e.shareInPtr, toLe 4 e.msgSeq, toLe 2 e.errAuth,
    toLe 2 e.errOther, toLe 2 e.dup, toLe 1 (flag e.unmaskAdm + 2 * flag e.resultSent + 4 * flag e.version3), toLe 1 e.reason,
    toLe 8 e.joinTime, zeros 4]

/-- Word `n` of ROS_PEEK_DATA (R107): the entry of the selected slot, 0 for a confidential job or a slot outside the job's range. -/
def peekWord (s : State) (n : Nat) : Nat :=
  let j : JobId := Fin.ofNat 16 (get1 s ROS_JOB_SEL.JOB)
  let slot := get1 s ROS_PEEK_SLOT.SLOT
  if s.conf j ∨ fget s ROS_JOB_RANGE.COUNT j 0 ≤ slot then 0 else group64 (readD Entry.free s.roster (entryNo s j slot)).bytes n

/-- The round phase of the job's newest round (R500). -/
def roundPhase (s : State) (j : JobId) : Nat :=
  if fget s TIDE_JOB_PHASE.ROUND j 0 = 0 then 0 else min ((s.now - (s.job j).offerTime) / 65536) (2 ^ 32 - 1)

/-- The cohorts of a job's rounds, as (accumulator and sums lie in HBM, bytes). -/
def accumulators (s : State) (j : JobId) : List (Bool × Nat) :=
  (s.job j).rounds.flatMap (fun x => (List.range (pCohortCount x.plan)).map (fun c => ((x.cohort c).inHbm, accSpan x.plan)))

/-- The cohorts whose accumulators lie in HBM. -/
def spilledAccs (s : State) (j : JobId) : List (Bool × Nat) := (accumulators s j).filter (·.1)

/-- The bytes of working buffers that the partition does not hold beside what lies there (R163, R512). -/
def spilledWork (s : State) (j : JobId) : Nat := ((s.job j).rounds.map (fun x => (Config.workingBytes j x.number).val)).sum - vatFree s j

/-- The bytes of a job's data that lie in HBM where they need not: accumulators, sums and working buffers (VAT_JOB_SPILL). -/
def spilledBytes (s : State) (j : JobId) : Nat := ((spilledAccs s j).map (·.2)).sum + spilledWork s j

/-- The bytes of a job's structures in HBM: what spills, and what always lies there (R510, PLT_JOB_HBM). -/
def hbmBytes (s : State) (j : JobId) : Nat :=
  spilledBytes s j + jobRest (s.job j) +
    ((s.job j).rounds.map (fun x => (if x.closed then closeBytes s j else 0) + 4 * pModel x.plan + pReleaseLen x.plan)).sum

/-- The highest reading of a sensor since its last read, as a 16-bit number; 0 before the first (R14, R636). -/
def sensorPeak (s : State) (n : Nat) : Nat :=
  let from_ := max s.peakBase (readD 0 s.peakRead n)
  match (List.range (s.clock - from_)).map (fun i => (Config.sensor n (from_ + 1 + i)).toInt) with
  | [] => 0
  | t :: ts => unsignedOf 16 (ts.foldl max t)

/-- Bytes as MiB, a part of one counted whole. -/
def mib (n : Nat) : Nat := (n + 2 ^ 20 - 1) / 2 ^ 20

/-- The recipe of a firmware slot (R356, R398). -/
def fwSlot (s : State) (n : Nat) : Option (Nat × Nat × Nat × List Word) := if n < 512 then recipeOf s n else none

/-- A field of HIF_RCP_SLOT_INFO for a firmware slot, or the stored one of a loadable slot. -/
def slotField (s : State) (f : Fld) (n : Nat) (g : Nat × Nat × Nat × List Word → Nat) : Nat :=
  if n < 512 then ((fwSlot s n).map g).getD 0 else fget s f n 0

/-- The SHA-384 digest of a firmware slot's words (R358, R398). -/
def slotDigestWord (s : State) (slot n : Nat) : Nat :=
  match fwSlot s slot with
  | some r => group64 (digestBytes (sha384 (r.2.2.2.flatMap (fun w => toLe 8 w.toNat)))) n
  | none => fget s HIF_RCP_SLOT_DIGEST.DIGEST slot n

/-- The hash that a job's guest reads of the local point that it vouches for (R562). -/
def localHash (s : State) (j : JobId) (n : Nat) : Nat :=
  let q := fget s KST_VF_ORIGIN_QPN.QPN j 0
  let k := fget s RDMA_SQP_CTRL.STATE q 0
  if qpJob s q = j ∧ (k = 1 ∨ k = 2) then
    group64 (digestBytes (sha384 (((List.range 13).flatMap (fun i => toBe 8 (fget s RDMA_SQP_LOCAL.POINT q i))).take 97))) n
  else 0

/-- The busy contexts of each sequencer, a byte each (HIF_RCP_CTX). -/
def busyContexts (s : State) : Nat :=
  ((List.range 7).map (fun q => (s.contexts.filter (fun c => c.1 / 32 == q)).length * 256 ^ q)).sum

/-- A Ferry end. -/
def ferryEnd (a : Nat) : FerryEnd := Fin.ofNat 18 a

/-- The block that a Ferry end holds, with its sender's stamp. -/
def rxBlock (s : State) (a : Nat) : Bytes × Nat := (s.chan (rxChan (ferryEnd a))).block.getD ([], 0)

/-- Whether an operation of Skim runs: an invocation of its sequencer has work issued (SKM_STATUS.BUSY). -/
def skimBusy (s : State) : Bool := s.contexts.any (fun c => c.1 / 32 == 5 && !c.2.issued.isEmpty)

/-- Whether a job's gate figures are hidden (R305). -/
def gateHidden (s : State) (a : Nat) : Bool :=
  s.conf (Fin.ofNat 16 a) && !polMetrics (s.job (Fin.ofNat 16 a)).policy

/-- What a field of a register shows, for copy (a, b). -/
def viewField (s : State) (f : Fld) (a b : Nat) : Nat :=
  let j : JobId := Fin.ofNat 16 a
  match f.reg with
  | .LND_STATUS => if f = LND_STATUS.BUF_OCC then min (bufUnits s * 100 / 1536) 100 else fget s f a b
  | .LND_VERSIONS => if f = LND_VERSIONS.ACCEPTED then (if on s LND_VERSIONS.ACCEPT_V2 then 12 else 8) else fget s f a b
  | .ROS_PEEK_DATA => peekWord s b
  | .VAT_BANK_STATE =>
    if f = VAT_BANK_STATE.GEN then fget s TRI_UNIT_STATE.GEN 4 a
    else if f = VAT_BANK_STATE.STATE then fget s TRI_UNIT_STATE.STATE 4 a
    else fget s f a b
  | .VAT_JOB_SPILL =>
    if f = VAT_JOB_SPILL.COHORTS then (spilledAccs s j).length else mib (spilledBytes s j)
  | .VAT_JOB_CTRL => if f = VAT_JOB_CTRL.EXPOSE_G64 ∧ s.conf j then 0 else fget s f a b
  | .PRS_STATUS => if f = PRS_STATUS.ARRAYS_BUSY then busyMask s else fget s f a b
  | .WRP_STATUS => if f = WRP_STATUS.FIFO_FULL then flag s.noiseFifo.isSome else fget s f a b
  | .SKM_STATUS => if f = SKM_STATUS.BUSY then flag (skimBusy s) else fget s f a b
  | .LND_FE_STATE => if f = LND_FE_STATE.CREDIT_NOW then creditOf s a else fget s f a b
  | .PRS_ARRAY_STATE =>
    if f = PRS_ARRAY_STATE.GEN then fget s TRI_UNIT_STATE.GEN 5 a
    else if f = PRS_ARRAY_STATE.STATE then fget s TRI_UNIT_STATE.STATE 5 a
    else
      let o := (s.arrays.toList.getD a .idle).owner
      if f = PRS_ARRAY_STATE.ASSIGNED then flag o.isSome else (o.map (·.val)).getD 0
  | .RDMA_REG_BASE => fget s f a b / 64 * 64
  | .RDMA_REG_LEN => fget s f a b / 64 * 64
  | .PRS_JOB_COND => if s.conf j then 0 else fget s f a b
  | .PRS_JOB_FLUSH => if s.conf j then 0 else fget s f a b
  | .PRS_JOB_NONFINITE => if s.conf j then 0 else fget s f a b
  | .PRS_JOB_SPARE => if s.conf j then 0 else fget s f a b
  | .PMU_VF_GRANT => if s.conf j then 0 else fget s f a b
  | .WRP_JOB_GATE => if gateHidden s a then 0 else fget s f a b
  | .WRP_JOB_LOSS => if gateHidden s a then 0 else fget s f a b
  | .WRP_JOB_METRICS => if gateHidden s a then 0 else fget s f a b
  | .HIF_RCP_SLOT_INFO =>
    if f = HIF_RCP_SLOT_INFO.VALID then slotField s f a (fun _ => 1)
    else if f = HIF_RCP_SLOT_INFO.FIRMWARE then flag (fwSlot s a).isSome
    else if f = HIF_RCP_SLOT_INFO.SEQ then slotField s f a (·.1)
    else if f = HIF_RCP_SLOT_INFO.CLASS then slotField s f a (·.2.1)
    else if f = HIF_RCP_SLOT_INFO.ARGS then slotField s f a (·.2.2.1)
    else if f = HIF_RCP_SLOT_INFO.WORDS then slotField s f a (·.2.2.2.length)
    else if f = HIF_RCP_SLOT_INFO.RUNNING then runningOn s a + (s.waiting.filter (fun w => w.slot == a)).length
    else fget s f a b
  | .HIF_RCP_SLOT_DIGEST => slotDigestWord s a b
  | .HIF_RCP_CTX => busyContexts s
  | .HIF_VF_EVLOG_STAT =>
    let n := (s.log (Fin.ofNat 17 a)).length
    if f = HIF_VF_EVLOG_STAT.RECORDS then n / 4
    else if f = HIF_VF_EVLOG_STAT.MID_RECORD then flag (n % 4 ≠ 0)
    else fget s f a b
  | .FERRY_TX_STAT =>
    if f = FERRY_TX_STAT.BLOCK_FULL then flag (s.chan (txChan (ferryEnd a))).block.isSome else fget s f a b
  | .FERRY_RX_DATA => group64 (rxBlock s a).1 b
  | .FERRY_RX_STAT =>
    if f = FERRY_RX_STAT.NOTICE_SENDER then (s.chan (rxChan (ferryEnd a))).noticeBy
    else if f = FERRY_RX_STAT.SENDER then (rxBlock s a).2
    else if f = FERRY_RX_STAT.LEN then (rxBlock s a).1.length
    else flag (s.chan (rxChan (ferryEnd a))).block.isSome
  | .RDMA_CACHE =>
    if f = RDMA_CACHE.RESIDENT then (residentQps s).length
    else if f = RDMA_CACHE.PINNED then (qpsWith s RDMA_QP_CFG.PIN).length
    else fget s f a b
  | .TIDE_STATUS => if f = TIDE_STATUS.PPS_SEEN then flag (ppsSeen s) else fget s f a b
  | .TIDE_TIME => s.now
  | .TIDE_ERR => estimate s
  | .TIDE_JOB_PHASE => if f = TIDE_JOB_PHASE.PHASE then roundPhase s j else fget s f a b
  | .TIDE_EVT_CFG =>
    if f = TIDE_EVT_CFG.TYPE then (if a < 256 then 1 else if a < 512 then 2 else 0)
    else if f = TIDE_EVT_CFG.PCODE then (if a < 256 then a % 8 else 0)
    else if f = TIDE_EVT_CFG.DOUBTFUL_OK ∧ a < 512 then 1
    else if f = TIDE_EVT_CFG.JOB ∧ a < 256 then a / 16
    else fget s f a b
  | .PLT_JOB_HBM =>
    if f = PLT_JOB_HBM.USED_MIB then
      mib (hbmBytes s j)
    else fget s f a b
  | .PLT_JOB_PLACE =>
    if f = PLT_JOB_PLACE.ARRAYS then servedMask s j
    else if f = PLT_JOB_PLACE.TOLL then shareOf s 2 j
    else if f = PLT_JOB_PLACE.CUL then shareOf s 3 j
    else if f = PLT_JOB_PLACE.RESIDENT then ((accumulators s j).filter (fun e => !e.1)).length
    else fget s f a b
  | .KST_ID => Config.serial.toNat
  | .KST_VF_LOCAL_HASH => localHash s j b
  | .PWR_TEMP => if f = PWR_TEMP.NOW then (Config.sensor a s.clock).toNat else sensorPeak s a
  | .PWR_DOM_STATE =>
    if f = PWR_DOM_STATE.HOLDS_DATA then flag (holdsData s a)
    else if f = PWR_DOM_STATE.CLUSTER then domCluster a
    else fget s f a b
  | .TST_CTRL => if on s KST_STATUS.DEBUG_LOCKED then 0 else fget s f a b
  | .TST_STATUS =>
    if f = TST_STATUS.LOCKED then get1 s KST_STATUS.DEBUG_LOCKED
    else if f = TST_STATUS.PROBE then flag s.trst
    else fget s f a b
  | _ => fget s f a b

/-- The value that a read of copy (a, b) of a register returns (R14, R17): a WO field and a reserved bit read 0. -/
def readReg (s : State) (r : Reg) (a b : Nat) : Nat :=
  (r.fields.map (fun f => if f.acc = .WO then 0 else viewField s f a b % 2 ^ f.width * 2 ^ f.lo)).sum

/-- The RCL fields of copy (a, b) of a register cleared by a read (R14). -/
def clearRcl (s : State) (r : Reg) (a b : Nat) : State :=
  if r = .PWR_TEMP then { s with peakRead := putN s.peakRead a s.clock }
  else r.fields.foldl (fun t (f : Fld) => if f.acc = .RCL then fset t f a b 0 else t) s

end Sys2Proof.Machine
end

