-- ==== Sys2Proof/Machine/RegAccess.lean ====
section
/-! DEFINITION. Register accesses by offset: what a function may reach, the read with its side effects, and the write with the operation that a register's rule gives (R14 to R19, R402 to R404, R451). -/

namespace Sys2Proof.Machine

/-! Where an access lands. -/

/-- The registers of a VF page that PF0's BAR0 does not hold with its own rings (R451). -/
def vfOnly (r : Reg) : Bool := r == .HIF_VF_STATUS || r == .HIF_VF_RES_STAT || r == .HIF_VF_RES_DIGEST

/-- The offset of a register in the page or BAR0 of a function. -/
def baseFor (f : Func) (r : Reg) : Option Nat :=
  if f = pf0 then (if vfOnly r then none else some r.place.off) else r.place.vfOff

/-- PF0's second pair of Ferry channels lies 0x200 above the first (R451). -/
def secondPair (f : Func) (off : Nat) : Bool := f == pf0 && decide (0x100200 ≤ off) && decide (off < 0x1002E0)

/-- An offset with the second pair of Ferry channels laid over the first. -/
def foldPair (f : Func) (off : Nat) : Nat := if secondPair f off then off - 0x200 else off

/-- Whether a byte offset lies in a register of a function. -/
def holdsOff (f : Func) (off : Nat) (r : Reg) : Bool :=
  match baseFor f r with
  | none => false
  | some base => decide (base ≤ off) && decide (off < base + 8 * r.place.count) && decide ((off - base) % 8 < r.place.width / 8)

/-- The register that an offset names (R402, R403). -/
def regAt (f : Func) (off : Nat) : Option Reg := Reg.all.find? (holdsOff f (foldPair f off))

/-- Whether a VF may reach a register of its page: a job-scoped register is granted while the VF's job exists (R403, assumption 21). -/
def granted (s : State) (f : Func) (r : Reg) : Bool :=
  f == pf0 || !(r == .KST_VF_ORIGIN_QPN || r == .KST_VF_PEER_HASH || r == .KST_VF_LOCAL_HASH) || (s.job (Fin.ofNat 16 f.val)).present

/-- The copy of a register that an access reaches: a Ferry end's, the selected one, or the function's. -/
def copyAt (s : State) (f : Func) (off : Nat) (r : Reg) : Nat × Nat :=
  let n := (foldPair f off - (baseFor f r).getD 0) / 8
  if secondPair f off then (17, n) else r.copy s f n

/-- Where an access lands: at no register, outside the permitted set, with a wrong size or alignment, or at a register's copy. -/
inductive Landing where
  | gap
  | denied
  | missized
  | reg (r : Reg) (a b : Nat)
  deriving DecidableEq, Repr

/-- An access of `size` bytes judged (R19, R402 to R404). -/
def access (s : State) (f : Func) (off size : Nat) : Landing :=
  match regAt f off with
  | none => .gap
  | some r =>
    if ¬ granted s f r then .denied
    else if size * 8 ≠ r.place.width ∨ (foldPair f off - (baseFor f r).getD 0) % 8 ≠ 0 then .missized
    else .reg r (copyAt s f off r).1 (copyAt s f off r).2

/-- A refused access counted (R19, R404). -/
def countAccess (s : State) (f : Func) (l : Landing) : State :=
  match l with
  | .denied => ev (count s HIF_VF_ACC.DENIED f 0 1) HIF_EVENT.ACC_EV
  | .missized => ev (count s HIF_VF_ACC.MISSIZED f 0 1) HIF_EVENT.ACC_EV
  | _ => s

/-! Reads. -/

/-- The counter that a VF page offset reads (R610). -/
def pmuPage (f : Func) (off : Nat) : Option Nat := if f ≠ pf0 ∧ 0x1200 ≤ off ∧ off < 0x1340 then some ((off - 0x1200) / 8) else none

/-- A VF's read of a counter: its live value where the counter is granted and counts the VF's job alone (R610). -/
def pmuPageValue (s : State) (f : Func) (i off size : Nat) : Nat :=
  if size = 8 ∧ off % 8 = 0 ∧ bit (fget s PMU_VF_GRANT.GRANT f 0) i ∧ fget s PMU_CNT_CFG.JOB_ALL i 0 = 0 ∧ fget s PMU_CNT_CFG.JOB i 0 = f.val then
    readReg s .PMU_CNT_VALUE i 0
  else 0

/-- A read of a register's copy: the value, and the machine after the read's effects. -/
def readCopy (s : State) (f : Func) (r : Reg) (a b : Nat) : Nat × State :=
  match r with
  | .HIF_VF_RES_STAT => readResult s f
  | .HIF_VF_EVLOG_DATA => readLog s f
  | .FERRY_RX_NOTICE => readNotice s (ferryEnd a)
  | .ENT_SW_DATA => readSwData s
  | _ => (readReg s r a b, clearRcl s r a b)

/-- A read by a function at an offset (R14, R19, R402 to R404, R610). -/
def readAt (s : State) (f : Func) (off size : Nat) : Nat × State :=
  match pmuPage f off with
  | some i => (pmuPageValue s f i off size, s)
  | none =>
    match access s f off size with
    | .reg r a b => readCopy s f r a b
    | l => (0, countAccess s f l)

/-- RCL_READ (R14, R16): a register read; the value is returned and the RCL fields clear. -/
def execRclRead (f : Func) (off : Nat) (size : Nat) (s : State) : Res :=
  let (v, t) := readAt s f off size
  .next (emit t (.readValue f off v))

/-- DENIED_REGISTER_READ (R19, R404): a read that the permitted set or the size rule refuses returns zero and is counted. -/
def execDeniedRegisterRead (f : Func) (off : Nat) (size : Nat) (s : State) : Res :=
  .next (match pmuPage f off with
    | some _ => s
    | none =>
      match access s f off size with
      | .denied => emit (countAccess s f .denied) (.readValue f off 0)
      | .missized => emit (countAccess s f .missized) (.readValue f off 0)
      | _ => s)

/-! Writes. -/

/-- A field port enabled or disabled: its domain wakes and its laser follows, or the laser goes off and the domain enters P3 (R618, R627, R649). -/
def switchPort (was now : Nat) (s : State) (p : Port) : State :=
  let d := 3 + p.val
  if bit now p.val && !bit was p.val then
    let s := { s with portDown := putN s.portDown p.val s.now }
    if fget s TRI_UNIT_STATE.STATE 1 p.val = 1 then s
    else if fget s PWR_DOM_STATE.STATE d 0 = 0 ∧ (lookup s.domMoves d).isNone then lightPort s p
    else wakeDomain s d
  else if bit was p.val && !bit now p.val then
    let s := { s with portDown := dropKey s.portDown p.val }
    let up := get1 s LND_STATUS.PORT_UP
    let s := if bit up p.val then set1 s LND_STATUS.PORT_UP (up - 2 ^ p.val) else s
    sleepDomain (emit s (.laser p.val false)) d 3
  else s

/-- A write of LND_CTRL. -/
def writeLndCtrl (s : State) (v : Nat) : State :=
  let was := get1 s LND_CTRL.PORT_EN
  let s := storeReg s .LND_CTRL 0 0 v
  (List.finRange 16).foldl (switchPort was (get1 s LND_CTRL.PORT_EN)) s

/-- A write that a register takes only while job `j` does not exist. -/
def whileAbsent (s : State) (j : Nat) (t : State) : State := if (s.job (Fin.ofNat 16 j)).present then s else t

/-- A write of LND_JOB_TAG: ignored for 0 and from the job's first Offer on. -/
def writeJobTag (s : State) (a v : Nat) : State :=
  if LND_JOB_TAG.TAG.of v = 0 ∨ (s.job (Fin.ofNat 16 a)).offered then s else storeReg s .LND_JOB_TAG a 0 v

/-- A write of VAT_JOB_CTRL: a value of PEERS_EXPECTED above 2,047, which reaches into the reserved bits above the field, leaves it unchanged (R18, R182). -/
def writeVatJobCtrl (s : State) (a v : Nat) : State :=
  if bits v 14 11 = 0 then storeReg s .VAT_JOB_CTRL a 0 v else storeField a 0 v s VAT_JOB_CTRL.EXPOSE_G64

/-- A write of RDMA_PORT_CFG: PMD only while the port is disabled. -/
def writePortCfg (s : State) (a v : Nat) : State :=
  let old := fget s RDMA_PORT_CFG.PMD a 0
  let t := storeReg s .RDMA_PORT_CFG a 0 v
  if bit (get1 s LND_CTRL.PORT_EN) a then fset t RDMA_PORT_CFG.PMD a 0 old else t

/-- A write of TRI_UNIT_CMD. -/
def writeUnitCmd (s : State) (v : Nat) (kat : Bool) : State :=
  let op := bits v 1 0
  if op = 1 ∨ op = 2 then
    let (st, t) := unitCommand s (get1 s TRI_UNIT_SEL.BLOCK) (get1 s TRI_UNIT_SEL.UNIT) (bits v 31 24) op kat
    enginesGoOn s (set1 t TRI_UNIT_CMD.STATUS st)
  else s

/-- TRI_FENCE (R589): a write of TRI_UNIT_CMD with OP FENCE. -/
def execTriFence (v : BitVec 32) (s : State) : Res := .next (if bits v.toNat 1 0 = 2 then s else writeUnitCmd s v.toNat false)

/-- TRI_UNFENCE (R590): a write of TRI_UNIT_CMD with OP UNFENCE, and what the unit's known-answer test found. -/
def execTriUnfence (v : BitVec 32) (kat : Bool) (s : State) : Res := .next (if bits v.toNat 1 0 = 2 then writeUnitCmd s v.toNat kat else s)

/-- A write of TRI_UNIT_CMD without the outcome of a known-answer test, which is then a free value (assumption 5). -/
def writeUnitCmdFree (s : State) (v : Nat) : State :=
  let (w, t) := freeValue s
  writeUnitCmd t v (bit w.toNat 0)

/-- The effect of a write on a register's copy: the operation that its rule gives, else its access codes (R14, R17, R18). -/
def writeCopy (s : State) (f : Func) (r : Reg) (a b v : Nat) : State :=
  match r with
  | .LND_CTRL => writeLndCtrl s v
  | .LND_JOB_TAG => writeJobTag s a v
  | .LND_FE_CFG => writeFeCfg s (BitVec.ofNat 64 v)
  | .LND_FE_STATE => writeFeState s v
  | .ROS_CTRL => writeRosCtrl s v
  | .ROS_JOB_RANGE => whileAbsent s a (storeReg s r a b v)
  | .TOL_CTRL => writeTolCtrl s v
  | .CUL_CTRL => writeCulCtrl s v
  | .VAT_JOB_BERTHS => writeBerths s b v
  | .VAT_JOB_CTRL => writeVatJobCtrl s a v
  | .VAT_JOB_G64 => whileAbsent s a (storeReg s r a b v)
  | .PRS_CTRL => writeCtrl s r 1 .press v
  | .WRP_CTRL => writeCtrl s r 1 .wrap v
  | .WRP_JOB_OVERRIDE => writeOverride s v
  | .SKM_CTRL => writeCtrl s r 1 .skim v
  | .RIND_CTRL => writeRindCtrl s v
  | .HIF_VF_SQ_BASE => if fget s HIF_VF_SQ_CFG.ENABLE a 0 = 1 then s else storeReg s r a b v
  | .HIF_VF_SQ_CFG => writeSqCfg s f v
  | .HIF_VF_SQ_TAIL => writeSqTail s f v
  | .HIF_VF_CQ_BASE => if fget s HIF_VF_CQ_CFG.ENABLE a 0 = 1 then s else storeReg s r a b v
  | .HIF_VF_CQ_CFG => writeCqCfg s f v
  | .HIF_VF_CQ_HEAD => writeCqHead s f v
  | .HIF_VF_EVLOG_CTRL => writeEvlogCtrl s f v
  | .FERRY_TX_CTRL => writeTxCtrl s (ferryEnd a) v
  | .FERRY_RX_TAKE => writeRxTake s (ferryEnd a) v
  | .FERRY_CTRL => writeFerryCtrl s (ferryEnd a) v
  | .HIF_HDM_REGION => whileAbsent s b (storeReg s r a b v)
  | .RDMA_PORT_CFG => writePortCfg s a v
  | .RDMA_QP_CFG => writeQpCfg s v
  | .RDMA_QP_PSN => writeQpPsn s v
  | .RDMA_REG_BASE => writeRegRange s RDMA_REG_BASE.VA v
  | .RDMA_REG_LEN => writeRegRange s RDMA_REG_LEN.LEN v
  | .RDMA_REG_CFG => writeRegCfg s v
  | .RDMA_SQP_CTRL => writeSqpCtrl s v
  | .TIDE_EVT_CFG => writeEvtCfg s v
  | .TIDE_EVT_ROUND => writeEvtRound s v
  | .PLT_MODE => writeMode s v
  | .PLT_CLU_ENV => writeCluEnv s v
  | .PLT_JOB_SHARE => placementLoop (storeReg s r a b v)
  | .PLT_JOB_FRAC => writeJobFrac s v
  | .PLT_JOB_PIN => writePins s v
  | .ENT_CTRL => writeEntCtrl s v
  | .KST_SVN_COMMIT => writeSvn s v
  | .KST_WR_DATA => fset s KST_WR_DATA.DATA a b v
  | .KST_WR_CTRL => writeKstWr s v
  | .KST_CHAL_CTRL => writeChal s v
  | .TRI_CTRL => writeCtrl s r 1 .trier v
  | .TRI_UNIT_CMD => writeUnitCmdFree s v
  | .PMU_CTRL => writePmuCtrl s v
  | .PMU_CNT_VALUE => writePmuValue s v
  | .PMU_VF_GRANT => writeGrant s v
  | .PMU_SBUF_BASE => if on s PMU_CTRL.SAMP_EN then s else storeReg s r a b v
  | .PMU_SBUF_CFG => if on s PMU_CTRL.SAMP_EN then s else storeReg s r a b v
  | .PMU_SBUF_RD => writeSbufRd s v
  | .PWR_CTRL => writePwrCtrl s v
  | .TST_CTRL => writeTstCtrl s v
  | _ => storeReg s r a b v

/-- A write by a function at an offset (R14, R19, R402 to R404); a VF's counters take no write (R610). -/
def writeAt (s : State) (f : Func) (off size v : Nat) : State :=
  match access s f off size with
  | .reg r a b => writeCopy s f r a b (v % 2 ^ r.place.width)
  | l => countAccess s f l

/-- REGISTER_WRITE (R14 to R19): a register write. -/
def execRegisterWrite (f : Func) (off : Nat) (size : Nat) (v : Word) (s : State) : Res := .next (writeAt s f off size v.toNat)

end Sys2Proof.Machine
end

