-- ==== Sys2Proof/Machine/Dispatch.lean ====
section
/-! DEFINITION. One arm per command: a direct call of its meaning. -/

namespace Sys2Proof.Machine

/-- The effect of a command on everything but the queue. -/
def exec (i : Instr) (s : State) : Host.Outcome State Fault Refusal :=
  match i with
  | .joinChunk q stamp c => Sys2Proof.Machine.execJoinChunk q stamp c s
  | .sharesChunk q stamp c => Sys2Proof.Machine.execSharesChunk q stamp c s
  | .uploadChunk q stamp c => Sys2Proof.Machine.execUploadChunk q stamp c s
  | .sealedUploadPiece q stamp c => Sys2Proof.Machine.execSealedUploadPiece q stamp c s
  | .unmaskSharesChunk q stamp c => Sys2Proof.Machine.execUnmaskSharesChunk q stamp c s
  | .manifest q stamp c => Sys2Proof.Machine.execManifest q stamp c s
  | .manifestHashDone j r slot => Sys2Proof.Machine.execManifestHashDone j r slot s
  | .abortChunk q stamp c => Sys2Proof.Machine.execAbortChunk q stamp c s
  | .fetchChunk q c => Sys2Proof.Machine.execFetchChunk q c s
  | .shortSend q c => Sys2Proof.Machine.execShortSend q c s
  | .admissionCommit txn badRuns => Sys2Proof.Machine.execAdmissionCommit txn badRuns s
  | .reinstate v => Sys2Proof.Machine.execReinstate v s
  | .creditRecompute => Sys2Proof.Machine.execCreditRecompute s
  | .lndFeCfgWrite v => Sys2Proof.Machine.execLndFeCfgWrite v s
  | .rosterFlush v => Sys2Proof.Machine.execRosterFlush v s
  | .closeDrainExpiry j r => Sys2Proof.Machine.execCloseDrainExpiry j r s
  | .closeFix j r => Sys2Proof.Machine.execCloseFix j r s
  | .cohortLinearCheck j r c => Sys2Proof.Machine.execCohortLinearCheck j r c s
  | .offerBegin j r => Sys2Proof.Machine.execOfferBegin j r s
  | .joinBegin j r => Sys2Proof.Machine.execJoinBegin j r s
  | .neighboursBegin j r => Sys2Proof.Machine.execNeighboursBegin j r s
  | .sharesBegin j r => Sys2Proof.Machine.execSharesBegin j r s
  | .uploadBegin j r => Sys2Proof.Machine.execUploadBegin j r s
  | .closeBegin j r => Sys2Proof.Machine.execCloseBegin j r s
  | .unmaskBegin j r => Sys2Proof.Machine.execUnmaskBegin j r s
  | .unmaskDeadline j r => Sys2Proof.Machine.execUnmaskDeadline j r s
  | .secretReconstruct j r about => Sys2Proof.Machine.execSecretReconstruct j r about s
  | .cohortUnmaskDone j r c => Sys2Proof.Machine.execCohortUnmaskDone j r c s
  | .cohortSettle j r c => Sys2Proof.Machine.execCohortSettle j r c s
  | .screenDecision j r => Sys2Proof.Machine.execScreenDecision j r s
  | .finishBegin j r => Sys2Proof.Machine.execFinishBegin j r s
  | .gateDecision j r => Sys2Proof.Machine.execGateDecision j r s
  | .gateOverride v => Sys2Proof.Machine.execGateOverride v s
  | .gateHoldExpiry j r => Sys2Proof.Machine.execGateHoldExpiry j r s
  | .releasePost j r => Sys2Proof.Machine.execReleasePost j r s
  | .peerWaitExpiry j r => Sys2Proof.Machine.execPeerWaitExpiry j r s
  | .peerDoneWrite p imm => Sys2Proof.Machine.execPeerDoneWrite p imm s
  | .stream q c => Sys2Proof.Machine.execStream q c s
  | .retract q c => Sys2Proof.Machine.execRetract q c s
  | .retractDone q c => Sys2Proof.Machine.execRetractDone q c s
  | .patrolScrub line e => Sys2Proof.Machine.execPatrolScrub line e s
  | .berthWrite n v => Sys2Proof.Machine.execBerthWrite n v s
  | .bankRead who line e => Sys2Proof.Machine.execBankRead who line e s
  | .lineWrite who addr d e => Sys2Proof.Machine.execLineWrite who addr d e s
  | .radd who addr ring d e => Sys2Proof.Machine.execRadd who addr ring d e s
  | .gadd who addr x ask e => Sys2Proof.Machine.execGadd who addr x ask e s
  | .add64 who addr x ask e => Sys2Proof.Machine.execAdd64 who addr x ask e s
  | .fadd who addr d e => Sys2Proof.Machine.execFadd who addr d e s
  | .maxMin who addr op x ask e => Sys2Proof.Machine.execMaxMin who addr op x ask e s
  | .cas64 who addr cmp swap e => Sys2Proof.Machine.execCas64 who addr cmp swap e s
  | .tileDrain array wrong => Sys2Proof.Machine.execTileDrain array wrong s
  | .chainCheck j n wrong => Sys2Proof.Machine.execChainCheck j n wrong s
  | .triFence v => Sys2Proof.Machine.execTriFence v s
  | .triUnfence v kat => Sys2Proof.Machine.execTriUnfence v kat s
  | .tolKatRun v => Sys2Proof.Machine.execTolKatRun v s
  | .culKatRun v => Sys2Proof.Machine.execCulKatRun v s
  | .prsKatRun v => Sys2Proof.Machine.execPrsKatRun v s
  | .wrpKatRun v => Sys2Proof.Machine.execWrpKatRun v s
  | .skmKatRun v => Sys2Proof.Machine.execSkmKatRun v s
  | .rindKatRun v => Sys2Proof.Machine.execRindKatRun v s
  | .triKatRun v => Sys2Proof.Machine.execTriKatRun v s
  | .katComplete e bad => Sys2Proof.Machine.execKatComplete e bad s
  | .tolEnableWrite v => Sys2Proof.Machine.execTolEnableWrite v s
  | .refreshWaitExpiry j => Sys2Proof.Machine.execRefreshWaitExpiry j s
  | .nop x => Sys2Proof.Machine.execNop x s
  | .endRecipe x => Sys2Proof.Machine.execEndRecipe x s
  | .loop x => Sys2Proof.Machine.execLoop x s
  | .endLoop x => Sys2Proof.Machine.execEndLoop x s
  | .movi x => Sys2Proof.Machine.execMovi x s
  | .movhi x => Sys2Proof.Machine.execMovhi x s
  | .addi x => Sys2Proof.Machine.execAddi x s
  | .add x => Sys2Proof.Machine.execAdd x s
  | .shli x => Sys2Proof.Machine.execShli x s
  | .ldp x => Sys2Proof.Machine.execLdp x s
  | .skipz x => Sys2Proof.Machine.execSkipz x s
  | .skipnz x => Sys2Proof.Machine.execSkipnz x s
  | .fence x => Sys2Proof.Machine.execFence x s
  | .waitCnt x => Sys2Proof.Machine.execWaitCnt x s
  | .signal x => Sys2Proof.Machine.execSignal x s
  | .waitEvt x => Sys2Proof.Machine.execWaitEvt x s
  | .mac x phys ready feedWait => Sys2Proof.Machine.execMac x phys ready feedWait s
  | .gather x => Sys2Proof.Machine.execGather x s
  | .drain x => Sys2Proof.Machine.execDrain x s
  | .layer x => Sys2Proof.Machine.execLayer x s
  | .vop x => Sys2Proof.Machine.execVop x s
  | .vcas x => Sys2Proof.Machine.execVcas x s
  | .vfill x => Sys2Proof.Machine.execVfill x s
  | .vcopy x => Sys2Proof.Machine.execVcopy x s
  | .settle x => Sys2Proof.Machine.execSettle x s
  | .exclude x => Sys2Proof.Machine.execExclude x s
  | .checkCohort x => Sys2Proof.Machine.execCheckCohort x s
  | .zeroRound x => Sys2Proof.Machine.execZeroRound x s
  | .maskSub x => Sys2Proof.Machine.execMaskSub x s
  | .expand x => Sys2Proof.Machine.execExpand x s
  | .ecdh x => Sys2Proof.Machine.execEcdh x s
  | .hkdf x => Sys2Proof.Machine.execHkdf x s
  | .recon x => Sys2Proof.Machine.execRecon x s
  | .sign x => Sys2Proof.Machine.execSign x s
  | .keyGen x => Sys2Proof.Machine.execKeyGen x s
  | .wpass x => Sys2Proof.Machine.execWpass x s
  | .finish x => Sys2Proof.Machine.execFinish x s
  | .master x => Sys2Proof.Machine.execMaster x s
  | .maxi x => Sys2Proof.Machine.execMaxi x s
  | .mini x => Sys2Proof.Machine.execMini x s
  | .topk x => Sys2Proof.Machine.execTopk x s
  | .botk x => Sys2Proof.Machine.execBotk x s
  | .farthest x => Sys2Proof.Machine.execFarthest x s
  | .ctAdd x badRuns => Sys2Proof.Machine.execCtAdd x badRuns s
  | .ctSub x badRuns => Sys2Proof.Machine.execCtSub x badRuns s
  | .ctMulc x badRuns => Sys2Proof.Machine.execCtMulc x badRuns s
  | .ctPadd x badRuns => Sys2Proof.Machine.execCtPadd x badRuns s
  | .modsw x badRuns => Sys2Proof.Machine.execModsw x badRuns s
  | .ksw x badRuns => Sys2Proof.Machine.execKsw x badRuns s
  | .refresh x => Sys2Proof.Machine.execRefresh x s
  | .exportCt x badRuns g => Sys2Proof.Machine.execExportCt x badRuns g s
  | .decode x badRuns g => Sys2Proof.Machine.execDecode x badRuns g s
  | .invokeTimeout x => Sys2Proof.Machine.execInvokeTimeout x s
  | .nopDescriptor f => Sys2Proof.Machine.execNopDescriptor f s
  | .jobCreate host => Sys2Proof.Machine.execJobCreate host s
  | .jobTeardown => Sys2Proof.Machine.execJobTeardown s
  | .jobAbort f => Sys2Proof.Machine.execJobAbort f s
  | .abortWaitDone j => Sys2Proof.Machine.execAbortWaitDone j s
  | .recipeLoad host => Sys2Proof.Machine.execRecipeLoad host s
  | .roundPlan j host => Sys2Proof.Machine.execRoundPlan j host s
  | .invoke j core => Sys2Proof.Machine.execInvoke j core s
  | .keyLoad j host => Sys2Proof.Machine.execKeyLoad j host s
  | .heldLoad j host => Sys2Proof.Machine.execHeldLoad j host s
  | .descriptorFetch f d => Sys2Proof.Machine.execDescriptorFetch f d s
  | .descriptorFetchFail f => Sys2Proof.Machine.execDescriptorFetchFail f s
  | .sqTailDoorbell f v => Sys2Proof.Machine.execSqTailDoorbell f v s
  | .cqHeadDoorbell f v => Sys2Proof.Machine.execCqHeadDoorbell f v s
  | .sqEnable f v => Sys2Proof.Machine.execSqEnable f v s
  | .cqEnable f v => Sys2Proof.Machine.execCqEnable f v s
  | .resStatRead j => Sys2Proof.Machine.execResStatRead j s
  | .evlogDataRead f => Sys2Proof.Machine.execEvlogDataRead f s
  | .evlogFlush f v => Sys2Proof.Machine.execEvlogFlush f v s
  | .evlogFlushAll f v => Sys2Proof.Machine.execEvlogFlushAll f v s
  | .ferryBlockSend e v => Sys2Proof.Machine.execFerryBlockSend e v s
  | .ferryNoticeSend e v => Sys2Proof.Machine.execFerryNoticeSend e v s
  | .ferryTake e v => Sys2Proof.Machine.execFerryTake e v s
  | .ferryNoticeRead e => Sys2Proof.Machine.execFerryNoticeRead e s
  | .ferryRxReset e v => Sys2Proof.Machine.execFerryRxReset e v s
  | .hailSend f => Sys2Proof.Machine.execHailSend f s
  | .hailAck f => Sys2Proof.Machine.execHailAck f s
  | .firmwareBlockTake ch => Sys2Proof.Machine.execFirmwareBlockTake ch s
  | .linkTrain lanes => Sys2Proof.Machine.execLinkTrain lanes s
  | .hdmAccess addr w => Sys2Proof.Machine.execHdmAccess addr w s
  | .trustLoss vf => Sys2Proof.Machine.execTrustLoss vf s
  | .tspLock j => Sys2Proof.Machine.execTspLock j s
  | .vfFlr j => Sys2Proof.Machine.execVfFlr j s
  | .pf0Flr => Sys2Proof.Machine.execPf0Flr s
  | .portFrame p f => Sys2Proof.Machine.execPortFrame p f s
  | .udDatagram p d => Sys2Proof.Machine.execUdDatagram p d s
  | .rdmaWrite p => Sys2Proof.Machine.execRdmaWrite p s
  | .rdmaRead p => Sys2Proof.Machine.execRdmaRead p s
  | .atomicAdd p x => Sys2Proof.Machine.execAtomicAdd p x s
  | .compareAndSwap p cmp swap => Sys2Proof.Machine.execCompareAndSwap p cmp swap s
  | .rdmaFlush p => Sys2Proof.Machine.execRdmaFlush p s
  | .requesterPost q w => Sys2Proof.Machine.execRequesterPost q w s
  | .requesterResponse q psn nak => Sys2Proof.Machine.execRequesterResponse q psn nak s
  | .retransmitTimeout q => Sys2Proof.Machine.execRetransmitTimeout q s
  | .qpStateWrite v => Sys2Proof.Machine.execQpStateWrite v s
  | .qpContextLoad q => Sys2Proof.Machine.execQpContextLoad q s
  | .regionRegister v => Sys2Proof.Machine.execRegionRegister v s
  | .regionRevoke v => Sys2Proof.Machine.execRegionRevoke v s
  | .rightsLower v => Sys2Proof.Machine.execRightsLower v s
  | .revokeComplete j region => Sys2Proof.Machine.execRevokeComplete j region s
  | .revokeCutoff j region => Sys2Proof.Machine.execRevokeCutoff j region s
  | .sqpGenKey v => Sys2Proof.Machine.execSqpGenKey v s
  | .sqpApply v => Sys2Proof.Machine.execSqpApply v s
  | .ptpAnnounce p a => Sys2Proof.Machine.execPtpAnnounce p a s
  | .ptpSync p m => Sys2Proof.Machine.execPtpSync p m s
  | .syncLossTimeout => Sys2Proof.Machine.execSyncLossTimeout s
  | .holdoverLimit => Sys2Proof.Machine.execHoldoverLimit s
  | .ppsEdge err => Sys2Proof.Machine.execPpsEdge err s
  | .userEventFire e => Sys2Proof.Machine.execUserEventFire e s
  | .wakeEventFire e => Sys2Proof.Machine.execWakeEventFire e s
  | .eventArm v => Sys2Proof.Machine.execEventArm v s
  | .eventCancel v => Sys2Proof.Machine.execEventCancel v s
  | .modeChange v => Sys2Proof.Machine.execModeChange v s
  | .dvfsTick load powerMw => Sys2Proof.Machine.execDvfsTick load powerMw s
  | .pinWrite v => Sys2Proof.Machine.execPinWrite v s
  | .placementMove j r c toHbm => Sys2Proof.Machine.execPlacementMove j r c toHbm s
  | .domainStateDone d => Sys2Proof.Machine.execDomainStateDone d s
  | .kstKeyWrite v => Sys2Proof.Machine.execKstKeyWrite v s
  | .kstKeyErase v => Sys2Proof.Machine.execKstKeyErase v s
  | .kstChallenge v => Sys2Proof.Machine.execKstChallenge v s
  | .svnCommit v => Sys2Proof.Machine.execSvnCommit v s
  | .unitReset v => Sys2Proof.Machine.execUnitReset v s
  | .entropyStartupDone badLatches kat => Sys2Proof.Machine.execEntropyStartupDone badLatches kat s
  | .healthWindowPass => Sys2Proof.Machine.execHealthWindowPass s
  | .healthTestFail latch apt => Sys2Proof.Machine.execHealthTestFail latch apt s
  | .drbgReseed => Sys2Proof.Machine.execDrbgReseed s
  | .wireRequest w n => Sys2Proof.Machine.execWireRequest w n s
  | .entSwDataRead f => Sys2Proof.Machine.execEntSwDataRead f s
  | .getVersion m => Sys2Proof.Machine.execGetVersion m s
  | .getCapabilities m => Sys2Proof.Machine.execGetCapabilities m s
  | .negotiateAlgorithms m => Sys2Proof.Machine.execNegotiateAlgorithms m s
  | .getDigests m => Sys2Proof.Machine.execGetDigests m s
  | .getCertificate m => Sys2Proof.Machine.execGetCertificate m s
  | .challenge m => Sys2Proof.Machine.execChallenge m s
  | .getMeasurements m => Sys2Proof.Machine.execGetMeasurements m s
  | .keyExchange m => Sys2Proof.Machine.execKeyExchange m s
  | .spdmFinish m => Sys2Proof.Machine.execSpdmFinish m s
  | .keyUpdate m => Sys2Proof.Machine.execKeyUpdate m s
  | .endSession m => Sys2Proof.Machine.execEndSession m s
  | .ideKm m => Sys2Proof.Machine.execIdeKm m s
  | .inputGood b => Sys2Proof.Machine.execInputGood b s
  | .recoveryImageLoad image => Sys2Proof.Machine.execRecoveryImageLoad image s
  | .coldResetRequest v => Sys2Proof.Machine.execColdResetRequest v s
  | .warmRestartRequest v => Sys2Proof.Machine.execWarmRestartRequest v s
  | .engineResetRequest v => Sys2Proof.Machine.execEngineResetRequest v s
  | .engineResetDone e => Sys2Proof.Machine.execEngineResetDone e s
  | .firmwareWatchdog => Sys2Proof.Machine.execFirmwareWatchdog s
  | .mctpColdReset => Sys2Proof.Machine.execMctpColdReset s
  | .carrierResetPin lowNs => Sys2Proof.Machine.execCarrierResetPin lowNs s
  | .perstReset => Sys2Proof.Machine.execPerstReset s
  | .brownoutTrip mv us => Sys2Proof.Machine.execBrownoutTrip mv us s
  | .overpowerTrip watts => Sys2Proof.Machine.execOverpowerTrip watts s
  | .overcurrentTrip ma us => Sys2Proof.Machine.execOvercurrentTrip ma us s
  | .inputOvervoltage mv => Sys2Proof.Machine.execInputOvervoltage mv s
  | .thermalTrip t => Sys2Proof.Machine.execThermalTrip t s
  | .thermalHoldRelease t => Sys2Proof.Machine.execThermalHoldRelease t s
  | .opticalOvertemp p milliC => Sys2Proof.Machine.execOpticalOvertemp p milliC s
  | .portDownTimeout p => Sys2Proof.Machine.execPortDownTimeout p s
  | .throttleStep m => Sys2Proof.Machine.execThrottleStep m s
  | .testModeRise => Sys2Proof.Machine.execTestModeRise s
  | .testModeFall => Sys2Proof.Machine.execTestModeFall s
  | .tapInstructionLoad ir scan => Sys2Proof.Machine.execTapInstructionLoad ir scan s
  | .testLogicReset trst => Sys2Proof.Machine.execTestLogicReset trst s
  | .pmuFreeze v => Sys2Proof.Machine.execPmuFreeze v s
  | .pmuSnapshot v => Sys2Proof.Machine.execPmuSnapshot v s
  | .pmuClearAll v => Sys2Proof.Machine.execPmuClearAll v s
  | .pmuValueWrite v => Sys2Proof.Machine.execPmuValueWrite v s
  | .sampEnable v => Sys2Proof.Machine.execSampEnable v s
  | .sampleTag x pc => Sys2Proof.Machine.execSampleTag x pc s
  | .sampleRecordWrite n m => Sys2Proof.Machine.execSampleRecordWrite n m s
  | .sbufRdWrite v => Sys2Proof.Machine.execSbufRdWrite v s
  | .vfGrantWrite v => Sys2Proof.Machine.execVfGrantWrite v s
  | .rclRead f off size => Sys2Proof.Machine.execRclRead f off size s
  | .registerWrite f off size v => Sys2Proof.Machine.execRegisterWrite f off size v s
  | .carrierResetRelease => Sys2Proof.Machine.execCarrierResetRelease s
  | .inputOvervoltageRelease mv => Sys2Proof.Machine.execInputOvervoltageRelease mv s
  | .fieldPortLinkChange p up => Sys2Proof.Machine.execFieldPortLinkChange p up s
  | .unknownTypeChunk q stamp c => Sys2Proof.Machine.execUnknownTypeChunk q stamp c s
  | .issuedWorkComplete x op => Sys2Proof.Machine.execIssuedWorkComplete x op s
  | .deniedRegisterRead f off size => Sys2Proof.Machine.execDeniedRegisterRead f off size s
  | .pmuCounterWrap who n => Sys2Proof.Machine.execPmuCounterWrap who n s
  | .failureWindowExpiry j => Sys2Proof.Machine.execFailureWindowExpiry j s

end Sys2Proof.Machine
end

