-- ==== Sys2Proof/Machine/Tick.lean ====
section
/-! DEFINITION. A nanosecond of module time: the clock with its slew (R494, R499) and the cycles of the clusters with their counters (R598, R600). -/

namespace Sys2Proof.Machine

/-- Module time one tick on: a slew adds or withholds a nanosecond every 10,000 ticks, or every 1,000 while the module is more than 1 ms ahead (R499). -/
def tickTime (s : State) : State :=
  let n := s.slewTicks + 1
  if s.slew = 0 then { s with now := s.now + 1, slewTicks := 0 }
  else if n < (if s.slew < -1000000 then 1000 else 10000) then { s with now := s.now + 1, slewTicks := n }
  else if 0 < s.slew then { s with now := s.now + 2, slew := s.slew - 1, slewTicks := 0 }
  else { s with slew := s.slew + 1, slewTicks := 0 }

/-- The occupancies that depend on cycles which no command shows, with their largest values: port FIFOs, Toll cores, Culture lanes, waiting banks, Rind lanes (table *Event catalogue*). -/
def openLevels : List (Nat × Nat) := [(0x07, 16384), (0x12, 64), (0x13, 128), (0x21, 2048), (0x42, 8192)]

/-- The occupancy of an event in a cycle: chunk buffer units, arrays with a MAC in flight or a drain pending, for the others a free value; a count event has none (assumption 12). -/
def occupancy (s : State) (code : Nat) : Nat :=
  if code = 0x04 then bufUnits s
  else if code = 0x31 then (s.arrays.toList.filter ArrayRec.inFlight).length
  else match openLevels.lookup code with
    | some most => min (Config.level code s.clock) most
    | none => 0

/-- One programmable counter in a cycle of its cluster. -/
def cycleCounter (s : State) (i : Nat) : State :=
  let code := fget s PMU_CNT_CFG.EVENT i 0
  if fget s PMU_CNT_CFG.EN i 0 = 1 then
    let v := if fget s PMU_CNT_CFG.JOB_ALL i 0 = 1 then occupancy s code else 0
    let t := pmuAdd s i (pmuAmount (fget s PMU_CNT_CFG.MODE i 0) (fget s PMU_CNT_CFG.THRESH i 0) (readD 0 s.pmuLast i) v)
    { t with pmuLast := putN t.pmuLast i v }
  else s

/-- One cycle of a cluster (R598). -/
def cycle (s : State) (c : Nat) : State :=
  (List.range 8).foldl (fun t n => cycleCounter t (8 * c + n)) (count s PMU_CYCLES.CYCLES 0 c 1)

/-- A cluster's clock for a nanosecond: RATE_PCT percent of 1.25 cycles, the rest carried on (R520, R598). -/
def tickCluster (s : State) (c : Nat) : State :=
  if on s PMU_CTRL.FREEZE ∨ ¬ clusterUp s c then s
  else
    let p := readD 0 s.pmuPart c + fget s PLT_CLU_STAT.RATE_PCT c 0
    if p < 80 then { s with pmuPart := putD id 0 s.pmuPart c p } else cycle { s with pmuPart := putD id 0 s.pmuPart c (p - 80) } c

/-- A nanosecond passes (assumption 11). -/
def tick (s : State) : State := (List.range 5).foldl tickCluster { tickTime s with clock := s.clock + 1 }

end Sys2Proof.Machine
end

