-- ==== Sys2Proof/Safety.lean ====
section
/-! DEFINITION. What every command owes the rest of the machine: the queue is left alone, nothing that was sent is taken back, no draw is used twice, the total time and the fused security version never fall, every memory and the register file keep their canonical form, and no log, sampler or Ferry channel holds more than the spec gives it. -/

namespace Sys2Proof.Machine

/-- The register file holds no field twice. -/
abbrev Registers.wf (m : List (RKey × Nat)) : Prop := (m.map (·.1)).Nodup

/-- A message that fits in a Ferry block: 1 to 64 bytes (R442). -/
abbrev blockFits (b : Bytes) : Prop := 1 ≤ b.length ∧ b.length ≤ 64

/-- A Ferry channel whose held block, and every send that firmware holds for it, fits in a block (R442). -/
structure Channel.wf (c : Channel) : Prop where
  block : ∀ b ∈ c.block, blockFits b.1
  waiting : ∀ b ∈ c.waiting, blockFits b

/-- The canonical form of a state: every memory lists rising addresses and no byte that reads as an unlisted one, the register file holds no field twice, each event log is within its records (R447), at most 16 tagged instructions are in flight (R606), and every Ferry channel holds messages that fit (R442). -/
structure State.Canonical (s : State) : Prop where
  mem : Memory.wf s.mem
  hdm : Memory.wf s.hdm
  hbm : ∀ j : JobId, Memory.wf (s.job j).hbm
  regs : Registers.wf s.regs
  logs : ∀ f : Func, (s.log f).length ≤ 4 * logCap f
  tags : s.tags.length ≤ 16
  channels : ∀ c : Fin 64, (s.chan c).wf

/-- What holds of the machine after a command, against the machine before it. -/
structure Keeps (s₀ s : State) : Prop where
  pending : s.pending = s₀.pending
  out : s₀.out <:+ s.out
  fresh : s₀.fresh ≤ s.fresh
  clock : s₀.clock ≤ s.clock
  fuse : s₀.fuseSvn ≤ s.fuseSvn
  canonical : State.Canonical s₀ → State.Canonical s

end Sys2Proof.Machine
end

