-- ==== Sys2Proof/Certificates/Slice0/Obligations.lean ====
section
/-! DEFINITION. The statements for the provers, from the numbered rules of the spec. -/

open Sys2Proof Sys2Proof.Machine

/-- A short SEND and a relayed FETCH are counted as MALFORMED and get no ACK; an unknown type is answered MALFORMED (R53, R55, R72, R96). On a queue pair whose SENDs reach Landing, SHORT_SEND and FETCH_CHUNK add one to the front-end's MALFORMED count and to its total of chunks in the round; while the front-end's AUTH_FAILED and MALFORMED counts together do not pass LND_QUAR_THRESH nothing else of the machine changes, so no ACK is sent. UNKNOWN_TYPE_CHUNK answers MALFORMED without a key. -/
def Obligations.UnansweredSendsAreCounted : Prop :=
  (∀ (s u : State) (q : Qpn) (c : Bytes),
     takeChunk s q c = u →
     landed u q = true →
     c.length < 32 →
     fget u LND_FE_ERR.AUTH_FAILED (qpFe u q) 0 + fget u LND_FE_ERR.MALFORMED (qpFe u q) 0 + 1 ≤ get1 u LND_QUAR_THRESH.THRESH →
     exec (.shortSend q c) s = .next (count (seeChunk u (qpFe u q)) LND_FE_ERR.MALFORMED (qpFe u q) 0 1)) ∧
  (∀ (s u : State) (q : Qpn) (c : Bytes),
     takeChunk s q c = u →
     landed u q = true →
     32 ≤ c.length →
     hType c = 6 →
     fget u LND_FE_ERR.AUTH_FAILED (qpFe u q) 0 + fget u LND_FE_ERR.MALFORMED (qpFe u q) 0 + 1 ≤ get1 u LND_QUAR_THRESH.THRESH →
     exec (.fetchChunk q c) s = .next (count (seeChunk u (qpFe u q)) LND_FE_ERR.MALFORMED (qpFe u q) 0 1)) ∧
  (∀ (s u : State) (q : Qpn) (stamp : Nat) (c : Bytes),
     takeChunk s q c = u →
     landed u q = true →
     32 ≤ c.length →
     typeFlags (hType c) = none →
     hType c ≠ 6 →
     exec (.unknownTypeChunk q stamp c) s = .next (answer u q c .malformed (qpFe u q) none false))

/-- A JOIN that passes the order of checks is recorded and acknowledged OK; its repeat is acknowledged DUPLICATE (R56, R64, R80, R102, R103). JOIN_CHUNK: a JOIN that meets its open window, whose slot is free, whose points lie on the curve and whose tag verifies under the derived key counts one multiplication and two derivations (tollDone; the counts are the model's choice, log entry 80) and one use of the round's key slot, resets the client's Roster entry to JOINED, stores its key record and an empty chunk bitmap, and answers OK signed under the new key. A JOIN with the stored points whose tag verifies answers DUPLICATE; one with other points answers SLOT_TAKEN; a tag that fails answers AUTH_FAILED. -/
def Obligations.JoinIsRecorded : Prop :=
  (∀ (s u : State) (q : Qpn) (stamp : Nat) (c : Bytes) (l : Look) (k : KeyRec) (pt : Bytes),
     takeChunk s q c = u →
     landed u q = true →
     32 ≤ c.length →
     hType c = 1 →
     judge u q stamp c = .open l →
     l.withdrawn = false →
     l.key = none →
     l.x.closed = false →
     tollOn (lookupEntry u l) = true →
     joinKeys l.x c = some k →
     openChunk k c = some pt →
     decodePt (slice c 129 97) ≠ none →
     exec (.joinChunk q stamp c) s = .next (
       let s1 := tollDone (lookupEntry u l) (some l.job) 1 2
       let s2 := count s1 KST_SLOT_USE.COUNT (((lookupEntry u l).job l.job).roundSlot l.r) 0 1
       let s3 := modEntry s2 l.job l.slot (fun _ => joinEntry s2 l c)
       let s4 := s3.modRound l.job l.r (fun x => { x with keys := putN x.keys l.slot k, bitmaps := putN x.bitmaps l.slot [] })
       let s5 := if (s4.job l.job).rounds.all (fun x => !x.offerDone || x.number ≤ l.r) then count s4 ROS_JOB_COUNTS.JOINED l.job 0 1 else s4
       answer s5 q c .ok l.fe (some { l with key := some k, state := .JOINED }) true)) ∧
  (∀ (s u : State) (q : Qpn) (stamp : Nat) (c : Bytes) (l : Look) (k : KeyRec) (pt : Bytes),
     takeChunk s q c = u →
     landed u q = true →
     32 ≤ c.length →
     hType c = 1 →
     judge u q stamp c = .open l →
     l.withdrawn = false →
     l.key = some k →
     slice c 32 97 = k.eph →
     slice c 129 97 = k.pair →
     openChunk k c = some pt →
     exec (.joinChunk q stamp c) s = .next (answer (lookupEntry u l) q c .duplicate l.fe (some l) true)) ∧
  (∀ (s u : State) (q : Qpn) (stamp : Nat) (c : Bytes) (l : Look) (k : KeyRec),
     takeChunk s q c = u →
     landed u q = true →
     32 ≤ c.length →
     hType c = 1 →
     judge u q stamp c = .open l →
     l.withdrawn = false →
     l.key = some k →
     slice c 32 97 ≠ k.eph →
     exec (.joinChunk q stamp c) s = .next (answer (lookupEntry u l) q c .slotTaken l.fe (some l) false))

/-- SHARES, UNMASK_SHARES and ABORT that pass the order of checks are recorded and acknowledged OK (R64, R66, R67, R68, R102, R142). SHARES_CHUNK, UNMASK_SHARES_CHUNK and ABORT_CHUNK of a client that has joined, is not withdrawn, and whose tag verifies: SHARES stores its bundles and moves the client to SHARED; UNMASK_SHARES adds each share to the secret it is about, unless the deadline has passed, and moves the client to UNMASKED; ABORT stores its REASON byte and moves the client to WITHDRAWN. Each answers OK signed under the client's key. -/
def Obligations.ClientMessagesAreAdmitted : Prop :=
  (∀ (s u : State) (q : Qpn) (stamp : Nat) (c : Bytes) (l : Look) (k : KeyRec) (pt : Bytes) (es : List (Nat × Bytes)),
     takeChunk s q c = u →
     landed u q = true →
     32 ≤ c.length →
     hType c = 2 →
     judge u q stamp c = .open l →
     standing l 2 = none →
     l.key = some k →
     openChunk k c = some pt →
     shareEntries pt = some es →
     es.length = pDegree l.x.plan →
     (es.map (·.1)).Nodup →
     es.all (fun e => ((lookup l.x.nbrs l.slot).getD []).contains e.1) = true →
     lookup l.x.bundles l.slot = none →
     l.x.bundleKey ≠ none →
     exec (.sharesChunk q stamp c) s = .next (
       let s1 := pmu (lookupEntry u l) 0x03 (some l.job) ((hLen c + 63) / 64)
       let s2 := s1.modRound l.job l.r (fun x => { x with bundles := putN x.bundles l.slot es })
       answer (modRec s2 l (fun e => { e with state := .SHARED }) id) q c .ok l.fe (some l) true)) ∧
  (∀ (s u : State) (q : Qpn) (stamp : Nat) (c : Bytes) (l : Look) (k : KeyRec) (pt : Bytes) (es : List (Nat × Nat × Nat)),
     takeChunk s q c = u →
     ((u.round? (feJob u (qpFe u q)) (hRound c)).map (fun x => x.offerDone && isMember x.plan (hSlot c))).getD false = false →
     landed u q = true →
     32 ≤ c.length →
     hType c = 4 →
     judge u q stamp c = .open l →
     standing l 4 = none →
     l.key = some k →
     openChunk k c = some pt →
     unmaskEntries pt = some es →
     es.all (fun e => (e.2.1 == 1 || e.2.1 == 2) && ((lookup l.x.requested l.slot).getD []).contains (e.1, e.2.1 == 1)) = true →
     l.unmaskAdm = false →
     l.x.deadline = false →
     exec (.unmaskSharesChunk q stamp c) s = .next (
       let s1 := pmu (lookupEntry u l) 0x03 (some l.job) ((hLen c + 63) / 64)
       let s2 := s1.modCohort l.job l.r ((cohortOf l.x.plan l.slot).getD 0) (fun k => es.foldl (fun k e => addShare l.slot e.1 (e.2.1 == 1) e.2.2 k) k)
       let s3 := modRec s2 l (fun e => { e with unmaskAdm := true, state := .UNMASKED }) (fun d => { d with unmaskAdm := true, state := .UNMASKED })
       answer s3 q c .ok l.fe (some l) true)) ∧
  (∀ (s u : State) (q : Qpn) (stamp : Nat) (c : Bytes) (l : Look) (k : KeyRec) (pt : Bytes),
     takeChunk s q c = u →
     landed u q = true →
     32 ≤ c.length →
     hType c = 5 →
     judge u q stamp c = .open l →
     standing l 5 = none →
     l.key = some k →
     openChunk k c = some pt →
     pt.length = 4 →
     zeroAt pt 1 3 = true →
     exec (.abortChunk q stamp c) s = .next (
       let s1 := pmu (lookupEntry u l) 0x03 (some l.job) ((hLen c + 63) / 64)
       let s2 := modRec s1 l (fun e => { e with state := .WITHDRAWN, reason := beAt pt 0 1 }) (fun d => { d with withdrawn := true, reason := beAt pt 0 1 })
       answer s2 q c .ok l.fe (some l) true))

/-- An authenticated UPLOAD or sealed piece claims its chunk and begins one transaction, or waits for the first copy, or is a DUPLICATE (R65, R78, R79, R82, R102, R201, R322, R323). UPLOAD_CHUNK and SEALED_UPLOAD_PIECE of a client whose tag verifies and whose plaintext is well framed, with no poison met: where the bitmap holds the index the answer is DUPLICATE; where another copy holds the claim the chunk is appended to the copies that wait and counts as outstanding; else a transaction begins with the elements and their check value and the client moves to UPLOADING. Nothing is added to an accumulator yet. -/
def Obligations.UploadsClaimTheirChunk : Prop :=
  (∀ (s u : State) (q : Qpn) (stamp : Nat) (c : Bytes) (l : Look) (k : KeyRec) (pt : Bytes),
     takeChunk s q c = u →
     sealedChunk u q c = false →
     landed u q = true →
     32 ≤ c.length →
     hType c = 3 →
     judge u q stamp c = .open l →
     standing l 3 = none →
     l.key = some k →
     openChunk k c = some pt →
     hIndex c < chunkCount l.x.plan →
     pt.length = pChunk l.x.plan * ((pRing l.x.plan).bits / 8) →
     metPoison (pmu (lookupEntry u l) 0x03 (some l.job) ((hLen c + 63) / 64)) l.job [bitPlace (pmu (lookupEntry u l) 0x03 (some l.job) ((hLen c + 63) / 64)) l.job l.x l.slot (hIndex c)] = none →
     ((lookup l.x.bitmaps l.slot).getD []).contains (hIndex c) = false →
     claimOf (pmu (lookupEntry u l) 0x03 (some l.job) ((hLen c + 63) / 64)) l.job l.r l.slot (hIndex c) = none →
     metPoison (pmu (lookupEntry u l) 0x03 (some l.job) ((hLen c + 63) / 64)) l.job (addPlaces (pmu (lookupEntry u l) 0x03 (some l.job) ((hLen c + 63) / 64)) l.job l.x l.slot (hIndex c)) = none →
     exec (.uploadChunk q stamp c) s = .next (
       let ys := uploadElems l.x.plan pt
       let k := l.x.cohort ((cohortOf l.x.plan l.slot).getD 0)
       beginTxn (pmu (lookupEntry u l) 0x03 (some l.job) ((hLen c + 63) / 64)) l q c ys (checkValue l.x.plan k.checkKey k.frac (hIndex c) ys) false)) ∧
  (∀ (s u : State) (q : Qpn) (stamp : Nat) (c : Bytes) (l : Look) (k : KeyRec) (pt : Bytes),
     takeChunk s q c = u →
     sealedChunk u q c = false →
     landed u q = true →
     32 ≤ c.length →
     hType c = 3 →
     judge u q stamp c = .open l →
     standing l 3 = none →
     l.key = some k →
     openChunk k c = some pt →
     hIndex c < chunkCount l.x.plan →
     pt.length = pChunk l.x.plan * ((pRing l.x.plan).bits / 8) →
     metPoison (pmu (lookupEntry u l) 0x03 (some l.job) ((hLen c + 63) / 64)) l.job [bitPlace (pmu (lookupEntry u l) 0x03 (some l.job) ((hLen c + 63) / 64)) l.job l.x l.slot (hIndex c)] = none →
     ((lookup l.x.bitmaps l.slot).getD []).contains (hIndex c) = true →
     exec (.uploadChunk q stamp c) s = .next (answer (pmu (lookupEntry u l) 0x03 (some l.job) ((hLen c + 63) / 64)) q c .duplicate l.fe (some l) true)) ∧
  (∀ (s u : State) (q : Qpn) (stamp : Nat) (c : Bytes) (l : Look) (k : KeyRec) (pt : Bytes) (n : Nat) (t : Txn),
     takeChunk s q c = u →
     sealedChunk u q c = false →
     landed u q = true →
     32 ≤ c.length →
     hType c = 3 →
     judge u q stamp c = .open l →
     standing l 3 = none →
     l.key = some k →
     openChunk k c = some pt →
     hIndex c < chunkCount l.x.plan →
     pt.length = pChunk l.x.plan * ((pRing l.x.plan).bits / 8) →
     metPoison (pmu (lookupEntry u l) 0x03 (some l.job) ((hLen c + 63) / 64)) l.job [bitPlace (pmu (lookupEntry u l) 0x03 (some l.job) ((hLen c + 63) / 64)) l.job l.x l.slot (hIndex c)] = none →
     ((lookup l.x.bitmaps l.slot).getD []).contains (hIndex c) = false →
     claimOf (pmu (lookupEntry u l) 0x03 (some l.job) ((hLen c + 63) / 64)) l.job l.r l.slot (hIndex c) = some (n, t) →
     exec (.uploadChunk q stamp c) s = .next (
       let s1 := pmu (lookupEntry u l) 0x03 (some l.job) ((hLen c + 63) / 64)
       { s1 with
         txns := putN s1.txns n { t with waiters := t.waiters ++ [(q, stamp, c)] }
         feOut := putN s1.feOut l.fe (readD 0 s1.feOut l.fe + 1) })) ∧
  (∀ (s u : State) (q : Qpn) (stamp : Nat) (c : Bytes) (l : Look) (k : KeyRec) (pt : Bytes) (x : Machine.PSet),
     takeChunk s q c = u →
     sealedChunk u q c = true →
     landed u q = true →
     32 ≤ c.length →
     hType c = 3 →
     judge u q stamp c = .open l →
     standing l 3 = none →
     l.key = some k →
     openChunk k c = some pt →
     hIndex c < chunkCount l.x.plan →
     pSet l.x.plan = some x →
     pt.length = 16 + 16384 * x.delta →
     zeroAt pt 9 7 = true →
     beAt pt 0 8 = spJobKey (pParams l.x.plan) →
     beAt pt 8 1 = spSet (pParams l.x.plan) →
     (List.range 16384).all (fun i => decide (beAt pt (16 + x.delta * i) x.delta < x.gam.getD (pieceLimb x (hIndex c)) 1)) = true →
     rindOn (pmu (lookupEntry u l) 0x03 (some l.job) ((hLen c + 63) / 64)) = true →
     metPoison (pmu (lookupEntry u l) 0x03 (some l.job) ((hLen c + 63) / 64)) l.job [bitPlace (pmu (lookupEntry u l) 0x03 (some l.job) ((hLen c + 63) / 64)) l.job l.x l.slot (hIndex c)] = none →
     ((lookup l.x.bitmaps l.slot).getD []).contains (hIndex c) = false →
     claimOf (pmu (lookupEntry u l) 0x03 (some l.job) ((hLen c + 63) / 64)) l.job l.r l.slot (hIndex c) = none →
     metPoison (pmu (lookupEntry u l) 0x03 (some l.job) ((hLen c + 63) / 64)) l.job (addPlaces (pmu (lookupEntry u l) 0x03 (some l.job) ((hLen c + 63) / 64)) l.job l.x l.slot (hIndex c)) = none →
     exec (.sealedUploadPiece q stamp c) s = .next (
       let ys := (List.range 16384).map (fun i => beAt pt (16 + x.delta * i) x.delta)
       beginTxn (pmu (lookupEntry u l) 0x03 (some l.job) ((hLen c + 63) / 64)) l q c ys [0, 0, 0, 0] true))

/-- ADMISSION_COMMIT applies the adds, sets the bit and only then answers OK; a piece that fails its residue check twice is discarded without an ACK (R78, R79, R82, R323, R330). ADMISSION_COMMIT of a transaction whose round is in flight and that meets no poison: a masked one is committed (commitMasked), then answered OK, then ended with its waiting copies resumed as duplicates; a sealed one is committed after its failed residue runs are counted; with two failed runs nothing is added and no ACK is sent, and the waiting copies go on as first arrivals. -/
def Obligations.CommitEndsTheTransaction : Prop :=
  (∀ (s : State) (n : Nat) (b : Fin 3) (t : Txn) (x y : Round),
     lookup s.txns n = some t →
     s.round? t.job t.round = some x →
     metPoison s t.job (bitPlace s t.job x t.slot t.chunk :: addPlaces s t.job x t.slot t.chunk) = none →
     t.sealing = false →
     (commitMasked s t (lookAt s (qpFe s t.qpn) t.job x t.slot)).round? t.job t.round = some y →
     exec (.admissionCommit n b) s = .next (
       let l := lookAt s (qpFe s t.qpn) t.job x t.slot
       endTxn (answer (commitMasked s t l) t.qpn t.head .ok (qpFe s t.qpn) (some { l with x := y }) true) n t true)) ∧
  (∀ (s : State) (n : Nat) (b : Fin 3) (t : Txn) (x y : Round),
     lookup s.txns n = some t →
     s.round? t.job t.round = some x →
     metPoison s t.job (bitPlace s t.job x t.slot t.chunk :: addPlaces s t.job x t.slot t.chunk) = none →
     t.sealing = true →
     b ≠ 2 →
     (commitSealed (residueRuns s false b) t (lookAt s (qpFe s t.qpn) t.job x t.slot)).round? t.job t.round = some y →
     exec (.admissionCommit n b) s = .next (
       let l := lookAt s (qpFe s t.qpn) t.job x t.slot
       endTxn (answer (commitSealed (residueRuns s false b) t l) t.qpn t.head .ok (qpFe s t.qpn) (some { l with x := y }) true) n t true)) ∧
  (∀ (s : State) (n : Nat) (t : Txn) (x : Round),
     lookup s.txns n = some t →
     s.round? t.job t.round = some x →
     metPoison s t.job (bitPlace s t.job x t.slot t.chunk :: addPlaces s t.job x t.slot t.chunk) = none →
     t.sealing = true →
     exec (.admissionCommit n 2) s = .next (endTxn (rindStatus (residueRuns s false 2) t.job 0 .residueFail) n t false))

/-- A manifest is recorded unanswered and its area is revoked; the hash of the area decides OK or MALFORMED (R344, R345, R346). MANIFEST of a member of a sealed round whose group, member number and record count are its own: the manifest is recorded as hashing, the W right of the member's import region is taken back and its revocation begins; no ACK is sent yet and the chunk counts as outstanding. A second copy that arrives meanwhile waits, unanswered. MANIFEST_HASH_DONE once that revocation is complete: where the SHA-384 digest of the area is the manifest's, the manifest is admitted, the member's slot is marked and answered OK, the copies that waited are answered DUPLICATE, and a group whose manifests are all admitted is complete; else the manifest is dropped, W is given back and the answer, to the copies that waited too, is MALFORMED. -/
def Obligations.ManifestsAreHashed : Prop :=
  (∀ (s u : State) (q : Qpn) (stamp : Nat) (c : Bytes) (l : Look) (k : KeyRec) (pt : Bytes) (g i n : Nat),
     takeChunk s q c = u →
     memberChunk u q c = true →
     landed u q = true →
     32 ≤ c.length →
     hType c = 4 →
     judge u q stamp c = .open l →
     standing l 4 = none →
     l.key = some k →
     openChunk k c = some pt →
     memberOf l.x.plan l.slot = some (g, i) →
     pt.length = 64 →
     zeroAt pt 2 2 = true →
     beAt pt 0 1 = g →
     beAt pt 1 1 = i →
     beAt pt 4 4 = (dirOf l.x g).length →
     lookup l.x.manifests l.slot = none →
     regionOf (pmu (lookupEntry u l) 0x03 (some l.job) ((hLen c + 63) / 64)) l.job 3 g i = some n →
     bit (fget (pmu (lookupEntry u l) 0x03 (some l.job) ((hLen c + 63) / 64)) RDMA_REG_CFG.RIGHTS l.job n) 1 = true →
     exec (.manifest q stamp c) s = .next (
       let s1 := pmu (lookupEntry u l) 0x03 (some l.job) ((hLen c + 63) / 64)
       let s2 := s1.modRound l.job l.r (fun x => { x with manifests := putN x.manifests l.slot ⟨g, i, slice pt 16 48, beAt pt 8 8, true, false, q, slice c 0 32, [], true⟩ })
       { fset s2 RDMA_REG_CFG.RIGHTS l.job n (fget s1 RDMA_REG_CFG.RIGHTS l.job n - 2) with revoking := s2.revoking ++ [(l.job.val, n, s2.now, true)], feOut := putN s2.feOut l.fe (readD 0 s2.feOut l.fe + 1) })) ∧
  (∀ (s u : State) (q : Qpn) (stamp : Nat) (c : Bytes) (l : Look) (k : KeyRec) (pt : Bytes) (g i : Nat) (m : Manifest),
     takeChunk s q c = u →
     memberChunk u q c = true →
     landed u q = true →
     32 ≤ c.length →
     hType c = 4 →
     judge u q stamp c = .open l →
     standing l 4 = none →
     l.key = some k →
     openChunk k c = some pt →
     memberOf l.x.plan l.slot = some (g, i) →
     pt.length = 64 →
     zeroAt pt 2 2 = true →
     beAt pt 0 1 = g →
     beAt pt 1 1 = i →
     beAt pt 4 4 = (dirOf l.x g).length →
     lookup l.x.manifests l.slot = some m →
     m.admitted = false →
     m.hashing = true →
     exec (.manifest q stamp c) s = .next (
       let s1 := pmu (lookupEntry u l) 0x03 (some l.job) ((hLen c + 63) / 64)
       let s2 := s1.modRound l.job l.r (fun x => { x with manifests := x.manifests.map (fun e => if e.1 == l.slot then (e.1, { e.2 with waiters := e.2.waiters ++ [(q.val, slice c 0 32)] }) else e) })
       { s2 with feOut := putN s2.feOut l.fe (readD 0 s2.feOut l.fe + 1) })) ∧
  (∀ (s : State) (j : JobId) (r : Nat) (slot : Slot) (rd : Round) (m : Manifest) (x : Machine.PSet) (n : Nat),
     s.round? j r = some rd →
     lookup rd.manifests slot.val = some m →
     pSet rd.plan = some x →
     regionOf s j 3 m.group m.member = some n →
     m.hashing = true →
     s.alive j = true →
     rindOn s = true →
     s.revoking.any (fun v => v.1 == j.val && v.2.1 == n) = false →
     poisoned (count s RIND_HASH_BYTES.COUNT 0 0 (areaBytes s j x rd m n).length) j (fget (count s RIND_HASH_BYTES.COUNT 0 0 (areaBytes s j x rd m n).length) RDMA_REG_BASE.VA j n) (areaBytes s j x rd m n).length = false →
     digestBytes (sha384 (areaBytes s j x rd m n)) = m.digest →
     exec (.manifestHashDone j r slot) s = .next (
       let s1 := count s RIND_HASH_BYTES.COUNT 0 0 (areaBytes s j x rd m n).length
       let l := lookAt s1 (fget s1 RDMA_QP_CFG.FE m.qpn 0) j rd slot
       let s2 := s1.modRound j r (fun y => { y with manifests := putN y.manifests slot { m with hashing := false, admitted := true, waiters := [] } })
       let s3 := modRec s2 l (fun e => { e with unmaskAdm := true }) (fun d => { d with unmaskAdm := true })
       let s4 := answerAll (answerAll s3 .ok l [(m.qpn, m.head)]) .duplicate l m.waiters
       if (List.range (spMembers (pParams rd.plan) m.group)).all (fun i =>
           ((s4.round? j r).map (fun y => y.manifests.any (fun e => e.2.admitted && e.2.group == m.group && e.2.member == i))).getD false)
       then groupComplete s4 j r m.group else s4)) ∧
  (∀ (s : State) (j : JobId) (r : Nat) (slot : Slot) (rd : Round) (m : Manifest) (x : Machine.PSet) (n : Nat),
     s.round? j r = some rd →
     lookup rd.manifests slot.val = some m →
     pSet rd.plan = some x →
     regionOf s j 3 m.group m.member = some n →
     m.hashing = true →
     s.alive j = true →
     rindOn s = true →
     s.revoking.any (fun v => v.1 == j.val && v.2.1 == n) = false →
     poisoned (count s RIND_HASH_BYTES.COUNT 0 0 (areaBytes s j x rd m n).length) j (fget (count s RIND_HASH_BYTES.COUNT 0 0 (areaBytes s j x rd m n).length) RDMA_REG_BASE.VA j n) (areaBytes s j x rd m n).length = false →
     digestBytes (sha384 (areaBytes s j x rd m n)) ≠ m.digest →
     exec (.manifestHashDone j r slot) s = .next (
       let s1 := count s RIND_HASH_BYTES.COUNT 0 0 (areaBytes s j x rd m n).length
       let l := lookAt s1 (fget s1 RDMA_QP_CFG.FE m.qpn 0) j rd slot
       let s2 := s1.modRound j r (fun y => { y with manifests := dropKey y.manifests slot })
       answerAll (giveBack j s2 m) .malformed l ((m.qpn, m.head) :: m.waiters)))

/-- REINSTATE, LND_FE_CFG_WRITE, CREDIT_RECOMPUTE and ROSTER_FLUSH act on their registers alone (R91, R93, R97, R107). REINSTATE with bit 31 set for the selected front-end in quarantine clears QUARANTINED and both error counts, and changes nothing else. LND_FE_CFG_WRITE stores the five fields of a range that fits its job and overlaps no other front-end's; any other write reads back VALID = 0, and the front-end's adaptive credit and its mark are gone. CREDIT_RECOMPUTE once 100 µs have passed sets the credit of each enabled front-end in turn and the time of the next. ROSTER_FLUSH with CACHE_EN kept writes every dirty cache entry back; with CACHE_EN 0 the cache holds nothing. -/
def Obligations.FrontEndRegistersAreWritten : Prop :=
  (∀ (s : State) (v : BitVec 32),
     bit v.toNat 31 = true →
     fget s LND_FE_STATE.QUARANTINED (get1 s LND_SEL.FE) 0 = 1 →
     exec (.reinstate v) s = .next (
       fset (fset (fset s LND_FE_STATE.QUARANTINED (get1 s LND_SEL.FE) 0 0) LND_FE_ERR.AUTH_FAILED (get1 s LND_SEL.FE) 0 0) LND_FE_ERR.MALFORMED (get1 s LND_SEL.FE) 0 0)) ∧
  (∀ (s : State) (v : Word),
     feValid (storeFeCfg s (get1 s LND_SEL.FE) v) (get1 s LND_SEL.FE) = true →
     feFits (storeFeCfg s (get1 s LND_SEL.FE) v) (get1 s LND_SEL.FE) = true →
     exec (.lndFeCfgWrite v) s = .next (
       let fe := get1 s LND_SEL.FE
       let s1 := fset (fset s LND_FE_CFG.VERSION3 fe 0 (wbits v 60 60)) LND_FE_CFG.JOB fe 0 (wbits v 51 48)
       let s2 := fset (fset s1 LND_FE_CFG.SLOT_BASE fe 0 (wbits v 47 24)) LND_FE_CFG.SLOT_COUNT fe 0 (wbits v 23 0)
       fset s2 LND_FE_CFG.VALID fe 0 (wbits v 59 59))) ∧
  (∀ (s : State) (v : Word),
     (feValid (storeFeCfg s (get1 s LND_SEL.FE) v) (get1 s LND_SEL.FE) && feFits (storeFeCfg s (get1 s LND_SEL.FE) v) (get1 s LND_SEL.FE)) = false →
     exec (.lndFeCfgWrite v) s = .next (
       let fe := get1 s LND_SEL.FE
       fset (fset (fset (storeFeCfg s fe v) LND_FE_CFG.VALID fe 0 0) LND_FE_STATE.CREDIT_NOW fe 0 0) LND_FE_STATE.PINNED fe 0 0)) ∧
  (∀ (s : State),
     s.creditAt ≤ s.now →
     exec .creditRecompute s = .next (
       let fes := (listedFes s).filter (feValid s)
       { fes.foldl (setCredit (1536 - bufUnits s) ((fes.map (feJoined s)).sum)) s with creditAt := s.now + 100000 })) ∧
  (∀ (s : State),
     exec (.rosterFlush 3) s = .next { set1 s ROS_CTRL.CACHE_EN 1 with dirty := [] }) ∧
  (∀ (s : State),
     exec (.rosterFlush 0) s = .next (set1 { set1 s ROS_CTRL.CACHE_EN 0 with cached := [], dirty := [] } ROS_CACHE_OCC.VALID 0))

/-- The Close drain discards what still waits, the fix writes the close table, and the linear check compares each cohort (R85, R104, R124, R130, R172, R192, R203, R204). CLOSE_DRAIN_EXPIRY once the drain is over answers LATE to every copy that still waits for a claim and every piece that Rind holds. CLOSE_FIX after the drain and the last transaction writes one close record for every slot that is not FREE, moves each Roster entry to its state there (the model's choice, assumption 87), destroys the bundle key, copies the weights, closes each cohort, skips the comparisons that need none and opens the add window. COHORT_LINEAR_CHECK of a closed cohort with a check key destroys the key, marks the cohort checked and, where one of the four lanes differs, abandons it and records CHECK_MISMATCH. -/
def Obligations.CloseFixesTheRound : Prop :=
  (∀ (s : State) (j : JobId) (r : Nat) (x : Round),
     s.round? j r = some x →
     begun x 6 = true →
     x.closed = false →
     x.drainEnd ≤ s.now →
     exec (.closeDrainExpiry j r) s = .next (
       let ws := (s.txns.filter (fun t => t.2.job == j && t.2.round == r)).flatMap (fun t => t.2.waiters) ++ s.waitingChunks.filter (heldUpload s j r)
       let s1 := { s with
         txns := s.txns.map (fun t => if t.2.job == j && t.2.round == r then (t.1, { t.2 with waiters := [] }) else t)
         waitingChunks := s.waitingChunks.filter (fun w => !heldUpload s j r w) }
       let s2 := if ws = [] then s1 else ev s1 LND_EVENT.DRAIN_EV
       ws.foldl (fun s w =>
         let fe := qpFe s w.1
         answer (settleOut s fe) w.1 w.2.2 .late fe (some (lookAt s fe j x (hSlot w.2.2))) true) s2)) ∧
  (∀ (s : State) (j : JobId) (r : Nat) (x y : Round),
     s.round? j r = some x →
     begun x 6 = true →
     x.closed = false →
     s.alive j = true →
     x.drainEnd ≤ s.now →
     s.txns.any (fun t => t.2.job == j && t.2.round == r) = false →
     s.waitingChunks.any (heldUpload s j r) = false →
     (!pSealed x.plan || rindOn s && cultureOn s) = true →
     ((let table := (joinedSlots s j r).foldl (fun m u => putN m u (closeRec x.plan u (entryOf s j r u))) ([] : NatMap CloseRec)
    let s1 := s.modRound j r (fun y => { y with closed := true, closeTable := table, bundleKey := none, weights := if pWeightPtr y.plan = 0 then [] else jobRead s j (pWeightPtr y.plan) (2 * pCohortCount y.plan) })
    fset (fset (fset (fset (eraseSlot (closeEntries s1 j table) ((s1.job j).bundleSlot r)) ROS_JOB_COUNTS.SURVIVORS j 0 (table.filter (fun e => e.2.state == .SURVIVOR)).length) CUL_JOB_VOID.VOID_CHUNKS j 0 0)
      VAT_JOB_SETTLE.SETTLED j 0 0) VAT_JOB_SETTLE.FAILED j 0 0).round? j r = some y) →
     exec (.closeFix j r) s = .next (
       let table := (joinedSlots s j r).foldl (fun m u => putN m u (closeRec x.plan u (entryOf s j r u))) ([] : NatMap CloseRec)
       let s1 := s.modRound j r (fun y => { y with closed := true, closeTable := table, bundleKey := none, weights := if pWeightPtr y.plan = 0 then [] else jobRead s j (pWeightPtr y.plan) (2 * pCohortCount y.plan) })
       let s2 := fset (fset (fset (fset (eraseSlot (closeEntries s1 j table) ((s1.job j).bundleSlot r)) ROS_JOB_COUNTS.SURVIVORS j 0 (table.filter (fun e => e.2.state == .SURVIVOR)).length) CUL_JOB_VOID.VOID_CHUNKS j 0 0)
         VAT_JOB_SETTLE.SETTLED j 0 0) VAT_JOB_SETTLE.FAILED j 0 0
       let s3 := (List.range (pCohortCount y.plan)).foldl (skipCompare j r) ((List.range (pCohortCount y.plan)).foldl (closeCohort j r y) s2)
       let s4 := openWindow s3 j r
       let s5 := if pSealed y.plan then exportRound s4 j r else s4
       releaseUnmask (((s5.job j).rounds.map (·.number)).foldl (fun t n => releaseHeld t j n) s5) j r)) ∧
  (∀ (s : State) (j : JobId) (r : Nat) (c : CohortId) (x : Round) (key : Key256),
     s.round? j r = some x →
     (x.cohort c).checkKey = some key →
     x.closed = true →
     (x.cohort c).checked = false →
     (x.cohort c).reason = 0 →
     s.alive j = true →
     metPoison s j (checkPlaces s j x c key) = none →
     exec (.cohortLinearCheck j r c) s = .next (
       let k := x.cohort c
       let n := ((List.range (chunkCount x.plan)).filter (chunkCovered (pRing x.plan) key k.frac)).length * pChunk x.plan
       let s1 := pmu (count s TRI_CHECKS.COHORTS 0 0 1) 0x24 (some j) n
       let s2 := endCheckGroup (s1.modCohort j r c (fun k => { k with checked := true, checkKey := none })) j r k
       let s3 := if lanesAgree x.plan key k then s2
         else
           let a := abandon (recordSettle s2 j r c 1) j r c reasonSettleFail
           countFailure (countSat (ev (ev (count a VAT_JOB_SETTLE.FAILED j 0 1) VAT_EVENT.CHECK_EV) TRI_EVENT.CHECK_EV) TRI_FAILS.COHORT 0 0 1) j
       releaseUnmask s3 j r))

/-- The PHASE events of Offer to Unmask begin their phases once nothing holds them (R37, R61, R84, R85, R98, R115, R116, R123, R124, R197). OFFER_BEGIN, JOIN_BEGIN, NEIGHBOURS_BEGIN, SHARES_BEGIN, UPLOAD_BEGIN, CLOSE_BEGIN and UNMASK_BEGIN at or after the scheduled time, for a phase that has not begun and is not held and that nothing holds back: after the event fires, the phase is marked begun at the present time (markPhase) with its own work. Offer draws the round key into the round's slot, clears the front-ends' counts and sends the OFFER; Neighbours runs each cohort; Shares draws the bundle key; Upload zeroes the accumulators and draws the check keys; Close fixes the drain's end; Unmask sends the requests and counts the secrets needed. A phase that something holds back is recorded as held. What it adds to Toll's counts (tollDone) is the model's choice, log entry 80. -/
def Obligations.PhasesBeginInTurn : Prop :=
  (∀ (s s1 s2 s3 : State) (j : JobId) (r : Nat) (x y : Round),
     s.round? j r = some x →
     phaseTime x.plan 1 ≤ s.now →
     begun x 1 = false →
     x.held.contains (phaseOf 1) = false →
     s.alive j = true →
     doubtfulCloses (fireEntry s (phaseEntry j r 0) false) j x 1 = s1 →
     mayBegin s1 j x 1 = true →
     entropyReady s1 = true →
     fillSlot (tollDone (drawScalar (served s1 1)).2 (some j) 1 0) (((drawScalar (served s1 1)).2.job j).roundSlot r) 2 j 2 1 0 (toBe 48 (drawScalar (served s1 1)).1) = s2 →
     ((let t := (s2.modRound j r (fun x => { x with offerDone := true, priv := (drawScalar (served s1 1)).1, pub := publicOf (drawScalar (served s1 1)).1, lockedKeys := usedEntries (s2.job j) x.plan })).modJob j
        (fun J => { J with offered := true })
    let u := fset (fset t RIND_JOB_KEYS.LOCKED j 0 (lockedMask t j)) ROS_JOB_COUNTS.JOINED j 0 0
    (fesOf u j).foldl clearFeCounts u) = s3) →
     s3.round? j r = some y →
     y.held.contains .join = false →
     exec (.offerBegin j r) s = .next (
       markPhase ((fesOf s3 j).foldl (sendOffer j y) (followOffer s3 j r (pOfferTime y.plan))) j r 1)) ∧
  (∀ (s s1 : State) (j : JobId) (r : Nat) (x : Round) (y : Round),
     s.round? j r = some x →
     phaseTime x.plan 2 ≤ s.now →
     begun x 2 = false →
     x.held.contains (phaseOf 2) = false →
     s.alive j = true →
     doubtfulCloses (fireEntry s (phaseEntry j r 1) false) j x 2 = s1 →
     mayBegin s1 j x 2 = true →
     (markPhase s1 j r 2).round? j r = some y →
     y.held.contains .neighbours = false →
     exec (.joinBegin j r) s = .next (markPhase s1 j r 2)) ∧
  (∀ (s s1 s2 s3 : State) (j : JobId) (r : Nat) (x y : Round),
     s.round? j r = some x →
     phaseTime x.plan 3 ≤ s.now →
     begun x 3 = false →
     x.held.contains (phaseOf 3) = false →
     s.alive j = true →
     doubtfulCloses (fireEntry s (phaseEntry j r 2) false) j x 3 = s1 →
     mayBegin s1 j x 3 = true →
     (markPhase s1 j r 3).round? j r = some y →
     fset (fset (markPhase s1 j r 3) CUL_JOB_COHORTS.ABANDONED j 0 0) CUL_JOB_COHORTS.UNMASKED j 0 0 = s2 →
     ((let joined := (joinedSlots s2 j r).filter (fun u => (entryOf s2 j r u).state == .JOINED)
    (joined.filter (fun u => isMember y.plan u)).foldl (fun t u => neighbour j r y t u []) ((List.range (pCohortCount y.plan)).foldl (neighboursCohort j r y joined) s2)) = s3) →
     ((s3.round? j r).map (fun z => z.held.contains .shares)) = some false →
     exec (.neighboursBegin j r) s = .next s3) ∧
  (∀ (s s1 : State) (j : JobId) (r : Nat) (x : Round) (y : Round),
     s.round? j r = some x →
     phaseTime x.plan 4 ≤ s.now →
     begun x 4 = false →
     x.held.contains (phaseOf 4) = false →
     s.alive j = true →
     doubtfulCloses (fireEntry s (phaseEntry j r 3) false) j x 4 = s1 →
     mayBegin s1 j x 4 = true →
     s1.round? j r = some y →
     pSealed y.plan = false →
     entropyReady s1 = true →
     exec (.sharesBegin j r) s = .next (
       let k := (drawKey (served s1 1)).1
       let s2 := (drawKey (served s1 1)).2
       let s3 := fillSlot s2 ((s2.job j).bundleSlot r) 0 j 1 1 0 (keyBytes k)
       enterShares (s3.modRound j r (fun x => { x with bundleKey := some k })) j r)) ∧
  (∀ (s s1 s2 s3 : State) (j : JobId) (r : Nat) (x y : Round),
     s.round? j r = some x →
     phaseTime x.plan 5 ≤ s.now →
     begun x 5 = false →
     x.held.contains (phaseOf 5) = false →
     s.alive j = true →
     doubtfulCloses (fireEntry s (phaseEntry j r 4) false) j x 5 = s1 →
     mayBegin s1 j x 5 = true →
     (markPhase s1 j r 5).round? j r = some y →
     pSealed y.plan = false →
     (trierLoop ((List.range (pCohortCount y.plan)).foldl (fun t c => (clearCohort t j y c).modCohort j r c (fun k => { k with accum := [], check := [0, 0, 0, 0], sums := [] }))
      ((y.bundles.map (·.1)).foldl (fun t u => tell t j r u 0x83 (bundleMsg (bundlesTo y u))) (markPhase s1 j r 5))) j = s2) →
     (liveCohorts y).foldl (drawCheckKey j r (appliedFrac s2 j)) s2 = s3 →
     ((s3.round? j r).map (fun z => z.held.contains .close)) = some false →
     exec (.uploadBegin j r) s = .next s3) ∧
  (∀ (s s1 : State) (j : JobId) (r : Nat) (x : Round),
     s.round? j r = some x →
     phaseTime x.plan 6 ≤ s.now →
     begun x 6 = false →
     x.held.contains (phaseOf 6) = false →
     s.alive j = true →
     doubtfulCloses (fireEntry s (phaseEntry j r 5) false) j x 6 = s1 →
     mayBegin s1 j x 6 = true →
     exec (.closeBegin j r) s = .next (
       (markPhase s1 j r 6).modRound j r (fun x => { x with drainEnd := s1.now + get1 s1 LND_CLOSE_DRAIN.DRAIN_US * 1000 }))) ∧
  (∀ (s s1 : State) (j : JobId) (r : Nat) (x : Round) (y : Round),
     s.round? j r = some x →
     phaseTime x.plan 7 ≤ s.now →
     begun x 7 = false →
     x.held.contains (phaseOf 7) = false →
     s.alive j = true →
     doubtfulCloses (fireEntry s (phaseEntry j r 6) false) j x 7 = s1 →
     mayBegin s1 j x 7 = true →
     (markPhase s1 j r 7).round? j r = some y →
     pSealed y.plan = false →
     y.deadline = false →
     exec (.unmaskBegin j r) s = .next (
       let s2 := (liveCohorts y).foldl (fun t c => (y.cohort c).survivors.foldl (requestShares j r y (y.cohort c)) t) (markPhase s1 j r 7)
       fset (fset s2 TOL_JOB_UNMASK.NEEDED j 0 ((liveCohorts y).map (fun c => (y.cohort c).secrets.length)).sum) TOL_JOB_UNMASK.DONE j 0 0)) ∧
  (∀ (s s1 : State) (j : JobId) (r : Nat) (x : Round),
     s.round? j r = some x →
     phaseTime x.plan 5 ≤ s.now →
     begun x 5 = false →
     x.held.contains (phaseOf 5) = false →
     s.alive j = true →
     doubtfulCloses (fireEntry s (phaseEntry j r 4) false) j x 5 = s1 →
     mayBegin s1 j x 5 = false →
     exec (.uploadBegin j r) s = .next (
       holdPhase (if begun x 4 then s1 else logJob s1 j 0x01 r 5 (phaseTime x.plan 5)) j r 5))

/-- The deadline, the reconstruction of a secret, the removal of the masks and Settle of a cohort (R137, R138, R139, R140, R141, R144, R171, R173, R175). UNMASK_DEADLINE at or after its time fires its event and marks the deadline passed; of a masked round it abandons each live cohort that still lacks shares and runs the due reconstructions. SECRET_RECONSTRUCT of a due secret counts the reconstruction, and where the checks pass marks it done and adds its mask keys; where they fail it raises INCONS_EV and abandons the cohort. COHORT_UNMASK_DONE of a checked cohort whose secrets are all done applies every mask to the accumulators, erases secrets and keys and counts the cohort unmasked. COHORT_SETTLE adds the totals and the counts that fall into the window the round settles (the whole model where it is resident), or undoes its addends where a ring sum leaves its range. What it adds to Toll's counts (tollDone) is the model's choice, log entry 80. -/
def Obligations.DropoutsAreUnmasked : Prop :=
  (∀ (s s1 : State) (j : JobId) (r : RoundNo) (x y : Round),
     s.round? j r = some x →
     phaseTime x.plan 8 ≤ s.now →
     x.deadline = false →
     s.alive j = true →
     doubtfulCloses (fireEntry s (phaseEntry j r 7) false) j x 8 = s1 →
     begun x 7 = true →
     (s1.modRound j r (fun z => { z with deadline := true })).round? j r = some y →
     pSealed y.plan = false →
     exec (.unmaskDeadline j r) s = .next (
       let s2 := s1.modRound j r (fun z => { z with deadline := true })
       reconstructDue ((liveCohorts y).foldl (fun t c =>
         if (y.cohort c).secrets.any (fun k => !k.done && decide (k.shares.length < pThreshold y.plan)) then abandon t j r c reasonSharesShort else t) s2) j r)) ∧
  (∀ (s s1 : State) (j : JobId) (r : RoundNo) (about : Slot) (x : Round) (k : Secret),
     s.round? j r = some x →
     (x.cohort ((cohortOf x.plan about).getD 0)).secrets.find? (fun k => k.about == about.val) = some k →
     begun x 7 = true →
     (x.cohort ((cohortOf x.plan about).getD 0)).reason = 0 →
     secretDue s x k = true →
     tollOn s = true →
     s.alive j = true →
     k.pairKey = false →
     count s TOL_RECON_CNT.COUNT 0 0 1 = s1 →
     poisoned s1 j (hbmPlace j placeKeys r k.about) 64 = false →
     secretOk x (pThreshold x.plan) (on s1 TOL_CTRL.SPARE_WAIT) k = true →
     exec (.secretReconstruct j r about) s = .next (
       let t := count (count s1 TOL_HKDF_CNT.COUNT 0 0 1) TOL_JOB_UNMASK.DONE j 0 1
       t.modCohort j r ((cohortOf x.plan about).getD 0) (fun y => markDone k.about y [⟨selfMaskKey (fget s1 LND_JOB_TAG.TAG j 0) x.number k.about (secretValue (pThreshold x.plan) k), false⟩]))) ∧
  (∀ (s s1 : State) (j : JobId) (r : RoundNo) (about : Slot) (x : Round) (k : Secret),
     s.round? j r = some x →
     (x.cohort ((cohortOf x.plan about).getD 0)).secrets.find? (fun k => k.about == about.val) = some k →
     begun x 7 = true →
     (x.cohort ((cohortOf x.plan about).getD 0)).reason = 0 →
     secretDue s x k = true →
     tollOn s = true →
     s.alive j = true →
     k.pairKey = true →
     tollDone (count s TOL_RECON_CNT.COUNT 0 0 1) (some j) 1 0 = s1 →
     poisoned s1 j (hbmPlace j placeKeys r k.about) 64 = false →
     secretOk x (pThreshold x.plan) (on s1 TOL_CTRL.SPARE_WAIT) k = true →
     exec (.secretReconstruct j r about) s = .next (
       let c := (cohortOf x.plan about).getD 0
       let ms := maskJobs x (fget s1 LND_JOB_TAG.TAG j 0) (x.cohort c).survivors k (secretValue (pThreshold x.plan) k)
       (count (tollDone s1 (some j) ms.length ms.length) TOL_JOB_UNMASK.DONE j 0 1).modCohort j r c (fun y => markDone k.about y ms))) ∧
  (∀ (s s1 : State) (j : JobId) (r : RoundNo) (about : Slot) (x : Round) (k : Secret),
     s.round? j r = some x →
     (x.cohort ((cohortOf x.plan about).getD 0)).secrets.find? (fun k => k.about == about.val) = some k →
     begun x 7 = true →
     (x.cohort ((cohortOf x.plan about).getD 0)).reason = 0 →
     secretDue s x k = true →
     tollOn s = true →
     s.alive j = true →
     k.pairKey = false →
     count s TOL_RECON_CNT.COUNT 0 0 1 = s1 →
     poisoned s1 j (hbmPlace j placeKeys r k.about) 64 = false →
     secretOk x (pThreshold x.plan) (on s1 TOL_CTRL.SPARE_WAIT) k = false →
     exec (.secretReconstruct j r about) s = .next (abandon (ev s1 TOL_EVENT.INCONS_EV) j r ((cohortOf x.plan about).getD 0) reasonInconsistent)) ∧
  (∀ (s : State) (j : JobId) (r : RoundNo) (c : CohortId) (x : Round),
     s.round? j r = some x →
     begun x 7 = true →
     c.val < pCohortCount x.plan →
     (x.cohort c).reason = 0 →
     (x.cohort c).unmasked = false →
     s.alive j = true →
     pSealed x.plan = false →
     cultureOn s = true →
     (x.cohort c).checked = true →
     (x.cohort c).secrets.all (·.done) = true →
     metPoison s j (unitPlaces s j x c (clearUnits x.plan (x.cohort c))) = none →
     exec (.cohortUnmaskDone j r c) s = .next (
       let p := x.plan
       let k := x.cohort c
       let js := clearCoords p k
       let s1 := cultureCounts s j (k.masks.length * blocksOf p js) (k.masks.length * js.length)
       let m := js.length * (pRing p).slot
       let s2 := bankWork s1 j (((s1.round? j r).map (fun x => accAt s1 j x c)).getD 0) (k.masks.length * m) (k.masks.length * bankOps m)
       countCohort (s2.modCohort j r c (fun y => { y with accum := k.masks.foldl (applyMask p js) y.accum, secrets := [], masks := [], unmasked := true })) CUL_JOB_COHORTS.UNMASKED j r)) ∧
  (∀ (s : State) (j : JobId) (r : RoundNo) (c : CohortId) (x : Round),
     s.round? j r = some x →
     settleDue s j x c = true →
     settlePoison s j x c = none →
     (coordsOf x.plan (x.cohort c)).any (beyond x.plan (x.cohort c)) = false →
     exec (.cohortSettle j r c) s = .next (
       let p := x.plan
       let k := x.cohort c
       let s1 := enterPhase s j x.number 8
       let s2 := applyAddends s1 j (totalAddr s1 j x) ((totalAddends p c k (coordsOf p k)).filter (fun e => inRange s1 j x e.1))
       let s3 := applyAddends s2 j (countAddr s1 j x) ((countAddends p c k).filter (fun e => inRange s1 j x (e.1 * pChunk p)))
       settled s3 j x c (markers s3 j x.number != markers s1 j x.number))) ∧
  (∀ (s : State) (j : JobId) (r : RoundNo) (c : CohortId) (x : Round),
     s.round? j r = some x →
     settleDue s j x c = true →
     settlePoison s j x c = none →
     (coordsOf x.plan (x.cohort c)).any (beyond x.plan (x.cohort c)) = true →
     exec (.cohortSettle j r c) s = .next (
       let p := x.plan
       let k := x.cohort c
       let s1 := enterPhase s j x.number 8
       let ts := (totalAddends p c k ((coordsOf p k).takeWhile (fun i => !beyond p k i))).filter (fun e => inRange s1 j x e.1)
       let s2 := applyAddends s1 j (totalAddr s1 j x) ts
       let s3 := applyAddends s2 j (totalAddr s1 j x) (negated ts)
       countFailure (count (abandon (recordSettle s3 j x.number c 2) j x.number c reasonSettleFail) VAT_JOB_SETTLE.FAILED j 0 1) j))

/-- Screening, Finish, the gate, its override and hold, the release, and the wait for peers (R195, R196, R280, R291, R292, R297, R298, R299, R300, R302, R303, R304). SCREEN_DECISION with every cohort settled or abandoned: a round with no live cohort ends with status 4 and releases nothing; with screening off every cohort counts as screened and the wait for peers starts. FINISH_BEGIN of a due round whose charge stays within RHO records the charge, closes the add window and runs the release path over the round's window, and in the later windows of a model settled in windows does so again with no charge; a charge beyond RHO gives BUDGET_EV and status 6. GATE_DECISION forms the candidate, evaluates it over the held-out set, shows the metrics, and accepts it as the base, or refuses it: held where the policy allows, else ended; with no held-out set imported the round ends with status 8. GATE_OVERRIDE of the held round in an open job accepts it; GATE_HOLD_EXPIRY ends it with status 2. RELEASE_POST, once no check of the job is pending, writes the release buffer and posts the round end with its digest. PEER_WAIT_EXPIRY after WAIT_MS closes the window, raises PEER_EV and ends the round with status 3. -/
def Obligations.TheRoundIsScreenedGatedAndReleased : Prop :=
  (∀ (s : State) (j : JobId) (r : RoundNo) (x : Round),
     s.round? j r = some x →
     screenReady s j x = true →
     x.screenDone = false →
     earliest s j r = true →
     s.alive j = true →
     liveCohorts x = [] →
     exec (.screenDecision j r) s = .next (endRound (showGate s j r 4 0 false false) j r 4 4 0 [])) ∧
  (∀ (s s1 : State) (j : JobId) (r : RoundNo) (x y : Round),
     s.round? j r = some x →
     screenReady s j x = true →
     x.screenDone = false →
     earliest s j r = true →
     s.alive j = true →
     polScreen (s.job j).policy = 0 →
     rangeChecked s j x = s1 →
     s1.round? j r = some y →
     liveCohorts y ≠ [] →
     polScreen ((enterPhase s1 j r 9).job j).policy = 0 →
     exec (.screenDecision j r) s = .next (
       let s2 := enterPhase s1 j r 9
       let cs := screenSet s2 j y
       let s3 := fset (fset s2 SKM_JOB_SCREEN.FLAGGED j 0 0) SKM_JOB_SCREEN.EXCLUDED j 0 0
       let s4 := cs.foldl (fun t c => t.modCohort j r c (fun k => { k with screened := true })) s3
       bump (s4.modRound j r (fun y => { y with screenDone := true, peerStart := some s4.now })) j 2 cs.length)) ∧
  (∀ (s s1 t : State) (j : JobId) (r : RoundNo) (x y : Round) (key : Key256),
     s.round? j r = some x →
     screenReady s j x = true →
     x.screenDone = false →
     earliest s j r = true →
     s.alive j = true →
     screenMay s x = true →
     rangeChecked s j x = s1 →
     s1.round? j r = some y →
     liveCohorts y ≠ [] →
     polScreen ((enterPhase s1 j r 9).job j).policy ≠ 0 →
     screeningKey (enterPhase s1 j r 9) j r = (some key, t) →
     metPoison t j ((screenSet (enterPhase s1 j r 9) j y).flatMap (sumPlaces t j y)) = none →
     exec (.screenDecision j r) s = .next (
       let cs := screenSet (enterPhase s1 j r 9) j y
       let pol := (t.job j).policy
       let fs := flagged pol (cs.map (fun c => (c, sketchOf y.plan key (polDirs pol) (y.cohort c))))
       let exclude := polScreen pol == 2
       let n := cs.length * polDirs pol
       let s2 := pmu (count (screenMacs t j y) SKM_ELEM_CNT.COUNT 0 0 n) 0x35 (some j) ((8 * n + 63) / 64)
       let s3 := fset (fset s2 SKM_JOB_SCREEN.FLAGGED j 0 fs.length) SKM_JOB_SCREEN.EXCLUDED j 0 (if exclude then fs.length else 0)
       decided ((fs.foldl (flagCohort j r exclude) s3).modRound j r (fun y => { y with screenRun := true })) j r cs)) ∧
  (∀ (s s1 s2 : State) (j : JobId) (r : RoundNo) (x y : Round),
     s.round? j r = some x →
     finishDue s j x = true →
     liveCohorts x ≠ [] →
     firstPoison s j (finishReads s j x) = none →
     x.charge.isSome = false →
     (dec64 (polRho (s.job j).policy)).lt (spentWith (dec64 (fget s WRP_JOB_RHO.RHO_SPENT j 0)) (chargeOf (s.job j).policy)) = false →
     chargeRound s j r (spentWith (dec64 (fget s WRP_JOB_RHO.RHO_SPENT j 0)) (chargeOf (s.job j).policy)) (chargeOf (s.job j).policy) = s1 →
     s1.round? j r = some y →
     exposeTotals (fset s1 VAT_JOB_CTRL.ADD_OPEN j 0 0) j y (finishInputs (fset s1 VAT_JOB_CTRL.ADD_OPEN j 0 0) j y) = s2 →
     entropyReady s2 = true →
     exec (.finishBegin j r) s = .next (finishWindow s2 j r y (finishInputs (fset s1 VAT_JOB_CTRL.ADD_OPEN j 0 0) j y))) ∧
  (∀ (s s1 : State) (j : JobId) (r : RoundNo) (x : Round),
     s.round? j r = some x →
     finishDue s j x = true →
     liveCohorts x ≠ [] →
     firstPoison s j (finishReads s j x) = none →
     x.charge.isSome = true →
     exposeTotals (fset s VAT_JOB_CTRL.ADD_OPEN j 0 0) j x (finishInputs (fset s VAT_JOB_CTRL.ADD_OPEN j 0 0) j x) = s1 →
     entropyReady s1 = true →
     exec (.finishBegin j r) s = .next (finishWindow s1 j r x (finishInputs (fset s VAT_JOB_CTRL.ADD_OPEN j 0 0) j x))) ∧
  (∀ (s : State) (j : JobId) (r : RoundNo) (x : Round),
     s.round? j r = some x →
     finishDue s j x = true →
     liveCohorts x ≠ [] →
     firstPoison s j (finishReads s j x) = none →
     x.charge.isSome = false →
     (dec64 (polRho (s.job j).policy)).lt (spentWith (dec64 (fget s WRP_JOB_RHO.RHO_SPENT j 0)) (chargeOf (s.job j).policy)) = true →
     exec (.finishBegin j r) s = .next (endRound (showGate (ev s WRP_EVENT.BUDGET_EV) j r 6 0 false false) j r 4 6 0 [])) ∧
  (∀ (s s1 : State) (j : JobId) (r : RoundNo) (x y : Round) (held : Bytes),
     s.round? j r = some x →
     staged s j x = true →
     x.gate = none →
     s.alive j = true →
     gateMay s j = true →
     (s.job j).heldOk = true →
     (s.job j).held = some held →
     firstPoison s j (gateReads s j x) = none →
     baseMeasured (formCandidate (enterPhase s j r 11) j r) j r held = s1 →
     s1.round? j r = some y →
     exec (.gateDecision j r) s = .next (
       let pol := (s.job j).policy
       let base := (s1.job j).baseCorrect.getD 0
       let m := (evaluate s1 j r held y.candidate).1
       let s2 := showMetrics (evaluate s1 j r held y.candidate).2 j pol m.correct base m.loss
       match verdictOf pol (y.nonfinite + badElems y.candidate + m.nonfinite) m.correct base m.loss with
       | none => showGate (acceptCandidate (s2.modRound j r (fun z => { z with candidateCorrect := m.correct, gate := some 0 })) j r false) j r 0 0 false true
       | some (status, why) => refuseCandidate (s2.modRound j r (fun z => { z with candidateCorrect := m.correct, gate := some status })) j r status why)) ∧
  (∀ (s : State) (j : JobId) (r : RoundNo) (x : Round),
     s.round? j r = some x →
     staged s j x = true →
     x.gate = none →
     s.alive j = true →
     gateMay s j = true →
     (s.job j).heldOk = false →
     exec (.gateDecision j r) s = .next (endRound (showGate (enterPhase s j r 11) j r 8 0 false false) j r 4 8 0 [])) ∧
  (∀ (s : State) (j : JobId) (v : BitVec 32) (x : Round) (e : Time),
     Fin.ofNat 16 (get1 s WRP_JOB_SEL.JOB) = j →
     s.round? j v.toNat = some x →
     x.holdEnd = some e →
     s.conf j = false →
     s.alive j = true →
     s.now < e →
     exec (.gateOverride v) s = .next (showGate (acceptCandidate s j v.toNat true) j v.toNat 1 0 false true)) ∧
  (∀ (s : State) (j : JobId) (r : RoundNo) (x : Round) (e : Time),
     s.round? j r = some x →
     x.holdEnd = some e →
     e ≤ s.now →
     s.alive j = true →
     exec (.gateHoldExpiry j r) s = .next (endRound (showGate s j r 2 (fget s WRP_JOB_GATE.REASON j 0) false true) j r 4 2 0 [])) ∧
  (∀ (s : State) (j : JobId) (r : RoundNo) (x : Round),
     s.round? j r = some x →
     x.accepted = true →
     s.alive j = true →
     checksPending s j = false →
     firstPoison s j [(hbmPlace j placeStaging r 0, pReleaseLen x.plan)] = none →
     exec (.releasePost j r) s = .next (
       let out := List.flatten x.stagedOut
       let s1 := hostPut (enterPhase s j r 12) (pReleaseAddr x.plan) out
       let s2 := if polMomentum (s1.job j).policy then s1.modJob j (fun J => { J with momentum := x.stagedMom }) else s1
       let status := if x.overridden then 1 else 0
       endRound (showGate s2 j r status 0 false true) j r 4 status out.length (digestBytes (sha384 out)))) ∧
  (∀ (s : State) (j : JobId) (r : RoundNo) (x : Round) (t : Time),
     s.round? j r = some x →
     x.peerStart = some t →
     t + fget s VAT_JOB_PEER_WAIT.WAIT_MS j 0 * 10 ^ 6 ≤ s.now →
     staged s j x = false →
     s.alive j = true →
     fget s VAT_JOB_PEER_WAIT.PEERS_DONE j 0 ≠ fget s VAT_JOB_CTRL.PEERS_EXPECTED j 0 →
     exec (.peerWaitExpiry j r) s = .next (
       let s1 := ev (fset s VAT_JOB_CTRL.ADD_OPEN j 0 0) VAT_EVENT.PEER_EV
       let s2 := logJob (fset (fset s1 VAT_JOB_LAST.COHORT j 0 0) VAT_JOB_LAST.STATUS j 0 3) j 0x11 r 0 3
       endRound s2 j r 3 3 0 []))

/-- A peer-done write counts its peer, a SEND is taken by the transport first, and peer notices act on the job they name (R193, R457, R467, R474, R475, R585, R586). PEER_DONE_WRITE that passes the request checks, lies in the peer-done line of the open add window and names a peer below PEERS_EXPECTED counts that peer once in the round whose totals the window holds, shows the count in PEERS_DONE and is acknowledged. The transport's steps for a message's row are the model's choice (log entry 57): a SEND on a queue pair outside RTR and RTS is dropped and counted; one on an ACCESS queue pair takes its PSNs and is answered by an invalid-request NAK. After the transport's steps (takeSend), a notice of a peer of the job, its round in flight: STREAM records the stream of its queue pair; RETRACT writes log record 0x27 and raises RETRACT_EV; RETRACT_DONE writes log record 0x28. A notice that does not match is dropped and counted in NOTICE_BAD. -/
def Obligations.FieldPeersReport : Prop :=
  (∀ (s s1 : State) (p : Packet) (imm : BitVec 32) (g l r : Nat),
     portOn s p.port = true →
     fget s RDMA_QP_CFG.TYPE p.q 0 ≠ 1 →
     ((qpState s p.q = 2 ∨ qpState s p.q = 3)) →
     fget s RDMA_QP_CFG.PORT p.q 0 = p.port.val →
     fget s RDMA_QP_CFG.SEALED p.q 0 = 0 →
     p.psn.toNat = fget s RDMA_QP_PSN.RQ_PSN p.q 0 →
     fset s RDMA_QP_PSN.RQ_PSN p.q 0 (p.psn.toNat + 1) = s1 →
     fget s1 RDMA_QP_CFG.CLASS p.q 0 = 1 →
     keyCheck s1 p 1 = some g →
     peerDoneLine s1 (qpJob s1 p.q) = some l →
     windowRound s1 (qpJob s1 p.q) = some r →
     l ≤ p.va →
     p.va + p.len ≤ l + 64 →
     windowOpen s1 (qpJob s1 p.q) = true →
     imm.toNat < fget s1 VAT_JOB_CTRL.PEERS_EXPECTED (qpJob s1 p.q) 0 →
     exec (.peerDoneWrite p imm) s = .next (
       let j := qpJob s1 p.q
       let s2 := s1.modRound j r (fun x => { x with peers := if x.peers.contains imm.toNat then x.peers else x.peers ++ [imm.toNat] })
       let s3 := fset s2 VAT_JOB_PEER_WAIT.PEERS_DONE j 0 (((s2.round? j r).map (·.peers.length)).getD 0)
       sendAckTo s3 p.q p.psn.toNat [])) ∧
  (∀ (s u : State) (q : Qpn) (c : Bytes),
     peerSend s q = true →
     takeSend s q c = u →
     noticeOk u q 1 c = true →
     exec (.stream q c) s = .next (u.modQp q (fun x => { x with stream := some (beAt c 2 2, beAt c 12 4) }))) ∧
  (∀ (s u : State) (q : Qpn) (c : Bytes),
     peerSend s q = true →
     takeSend s q c = u →
     noticeOk u q 2 c = true →
     exec (.retract q c) s = .next (ev (logJob u (qpJob u q) 0x27 (beAt c 8 4) (beAt c 12 4) (beAt c 2 2)) TRI_EVENT.RETRACT_EV)) ∧
  (∀ (s u : State) (q : Qpn) (c : Bytes),
     peerSend s q = true →
     takeSend s q c = u →
     noticeOk u q 3 c = true →
     exec (.retractDone q c) s = .next (logJob u (qpJob u q) 0x28 (beAt c 8 4) (beAt c 12 4) (beAt c 2 2))) ∧
  (∀ (s u : State) (q : Qpn) (c : Bytes),
     peerSend s q = true →
     takeSend s q c = u →
     noticeOk u q 2 c = false →
     exec (.retract q c) s = .next (countSat u TRI_FAILS.NOTICE_BAD 0 0 1)) ∧
  (∀ (s u : State) (q : Qpn) (c : Bytes) (cmd : Instr),
     ((∃ n, cmd = .joinChunk q n c) ∨ (∃ n, cmd = .sharesChunk q n c) ∨ (∃ n, cmd = .unmaskSharesChunk q n c) ∨ (∃ n, cmd = .abortChunk q n c) ∨ (∃ n, cmd = .uploadChunk q n c) ∨ (∃ n, cmd = .sealedUploadPiece q n c) ∨ (∃ n, cmd = .manifest q n c) ∨ (∃ n, cmd = .unknownTypeChunk q n c) ∨ cmd = .shortSend q c ∨ cmd = .fetchChunk q c ∨ cmd = .stream q c ∨ cmd = .retract q c ∨ cmd = .retractDone q c) →
     sendReaches s q = true →
     fget s RDMA_QP_CFG.TYPE q 0 = 0 →
     fget s RDMA_QP_CFG.CLASS q 0 = 2 →
     sendNak (fset s RDMA_QP_PSN.RQ_PSN q 0 (fget s RDMA_QP_PSN.RQ_PSN q 0 + psnCount s q c.length)) q (fget s RDMA_QP_PSN.RQ_PSN q 0) .invalid = u →
     landed u q = false →
     exec cmd s = .next u) ∧
  (∀ (s : State) (q : Qpn) (c : Bytes) (cmd : Instr),
     ((∃ n, cmd = .joinChunk q n c) ∨ (∃ n, cmd = .sharesChunk q n c) ∨ (∃ n, cmd = .unmaskSharesChunk q n c) ∨ (∃ n, cmd = .abortChunk q n c) ∨ (∃ n, cmd = .uploadChunk q n c) ∨ (∃ n, cmd = .sealedUploadPiece q n c) ∨ (∃ n, cmd = .manifest q n c) ∨ (∃ n, cmd = .unknownTypeChunk q n c) ∨ cmd = .shortSend q c ∨ cmd = .fetchChunk q c ∨ cmd = .stream q c ∨ cmd = .retract q c ∨ cmd = .retractDone q c) →
     portOn s (qpPort s q) = true →
     qpState s q ≠ 2 →
     qpState s q ≠ 3 →
     exec cmd s = .next (count s RDMA_PORT_STAT.DROPPED (qpPort s q) 0 1)) ∧
  (∀ (s u : State) (q : Qpn) (c : Bytes) (cmd : Instr),
     ((∃ n, cmd = .joinChunk q n c) ∨ (∃ n, cmd = .sharesChunk q n c) ∨ (∃ n, cmd = .unmaskSharesChunk q n c) ∨ (∃ n, cmd = .abortChunk q n c) ∨ (∃ n, cmd = .uploadChunk q n c) ∨ (∃ n, cmd = .sealedUploadPiece q n c) ∨ (∃ n, cmd = .manifest q n c) ∨ (∃ n, cmd = .unknownTypeChunk q n c) ∨ cmd = .shortSend q c ∨ cmd = .fetchChunk q c ∨ cmd = .stream q c ∨ cmd = .retract q c ∨ cmd = .retractDone q c) →
     takeSend s q c = u →
     peerSend s q = false →
     landed u q = false →
     exec cmd s = .next u)

/-- Frames, datagrams, and the RDMA requests WRITE, READ, the atomics and FLUSH on an unsealed queue pair (R190, R191, R454, R457, R467, R468, R469, R471, R472, R473). On an enabled port: a frame with a bad FCS is counted; a RoCEv2 frame with a good checksum and FIFO room is taken, the high-water mark following; a datagram that fails its checks is dropped and counted. A request that passes the arrival checks advances RQ_PSN. A WRITE whose region admits it and whose payload is no longer than its announced length is placed line by line, whole and acknowledged after its last packet, and answered by an access NAK where no region admits it. A READ answers the bytes of its range. ATOMIC_ADD on a word outside the add window stores the sum modulo 2^64 and answers the word before; inside the open window it is the exact G64 add. COMPARE_AND_SWAP stores the swap value where the word equals. FLUSH is acknowledged. -/
def Obligations.TheResponderServesRequests : Prop :=
  (∀ (s : State) (p : Port) (f : Frame),
     portOn s p = true →
     f.fcsOk = false →
     exec (.portFrame p f) s = .next (countSat s RDMA_PORT_STAT.FCS_ERR p 0 1)) ∧
  (∀ (s : State) (p : Port) (f : Frame),
     portOn s p = true →
     f.fcsOk = true →
     vlanOk s p f = true →
     f.sumOk = true →
     isRoce s p f = true →
     f.icrcOk = true →
     2 ≤ f.q →
     f.q < 2 ^ 20 →
     f.fifoOcc + f.bytes ≤ 2 ^ 20 →
     f.parity = false →
     exec (.portFrame p f) s = .next (missContext (fset s LND_PORT_FIFO.HWM p 0 (max (fget s LND_PORT_FIFO.HWM p 0) (f.fifoOcc + f.bytes))) f.q)) ∧
  (∀ (s : State) (p : Port) (f : Frame),
     portOn s p = true →
     f.fcsOk = true →
     vlanOk s p f = true →
     f.sumOk = true →
     isRoce s p f = false →
     isPtp s p f = false →
     exec (.portFrame p f) s = .next (count s RDMA_PORT_STAT.DROPPED p 0 1)) ∧
  (∀ (s : State) (p : Port) (d : Datagram),
     portOn s p = true →
     fget s RDMA_QP_CFG.TYPE d.q 0 = 1 →
     ((qpState s d.q = 2 ∨ qpState s d.q = 3)) →
     fget s RDMA_QP_CFG.PORT d.q 0 = p.val →
     d.qkey.toNat = fget s RDMA_QP_QKEY.QKEY d.q 0 →
     d.isSend = true →
     exec (.udDatagram p d) s = .next s) ∧
  (∀ (s : State) (p : Port) (d : Datagram),
     portOn s p = true →
     d.qkey.toNat ≠ fget s RDMA_QP_QKEY.QKEY d.q 0 →
     exec (.udDatagram p d) s = .next (count s RDMA_PORT_STAT.DROPPED p 0 1)) ∧
  (∀ (s s1 : State) (p : Packet) (g : Nat),
     portOn s p.port = true →
     fget s RDMA_QP_CFG.TYPE p.q 0 ≠ 1 →
     ((qpState s p.q = 2 ∨ qpState s p.q = 3)) →
     fget s RDMA_QP_CFG.PORT p.q 0 = p.port.val →
     fget s RDMA_QP_CFG.SEALED p.q 0 = 0 →
     p.psn.toNat = fget s RDMA_QP_PSN.RQ_PSN p.q 0 →
     fset s RDMA_QP_PSN.RQ_PSN p.q 0 (p.psn.toNat + 1) = s1 →
     memoryClass (fget s1 RDMA_QP_CFG.CLASS p.q 0) = true →
     p.first = true →
     p.last = true →
     keyCheck s1 p 1 = some g →
     windowOk s1 (qpJob s1 p.q) p.va p.len = true →
     p.data.length ≤ p.len →
     (placeWrite s1 (qpJob s1 p.q) p.va p.data).2 = true →
     exec (.rdmaWrite p) s = .next (
       let s2 := (placeWrite s1 (qpJob s1 p.q) p.va p.data).1
       let s3 := { s2 with openWrites := s2.openWrites.filter (fun w => w.qpn != p.q.val) }
       sendAckTo (fset (s3.modQp p.q (fun x => { x with inMsg := none })) RDMA_QP_STAT.IN_MSG p.q 0 0) p.q p.psn.toNat [])) ∧
  (∀ (s s1 : State) (p : Packet),
     portOn s p.port = true →
     fget s RDMA_QP_CFG.TYPE p.q 0 ≠ 1 →
     ((qpState s p.q = 2 ∨ qpState s p.q = 3)) →
     fget s RDMA_QP_CFG.PORT p.q 0 = p.port.val →
     fget s RDMA_QP_CFG.SEALED p.q 0 = 0 →
     p.psn.toNat = fget s RDMA_QP_PSN.RQ_PSN p.q 0 →
     fset s RDMA_QP_PSN.RQ_PSN p.q 0 (p.psn.toNat + 1) = s1 →
     memoryClass (fget s1 RDMA_QP_CFG.CLASS p.q 0) = true →
     p.first = true →
     keyCheck s1 p 1 = none →
     exec (.rdmaWrite p) s = .next (qpError (countSat (emit s1 (.rdma p.q p.psn.toNat (some .access) [])) RDMA_ERR.ACCESS_NAK 0 0 1) p.q 1)) ∧
  (∀ (s s1 : State) (p : Packet) (g : Nat),
     portOn s p.port = true →
     fget s RDMA_QP_CFG.TYPE p.q 0 ≠ 1 →
     ((qpState s p.q = 2 ∨ qpState s p.q = 3)) →
     fget s RDMA_QP_CFG.PORT p.q 0 = p.port.val →
     fget s RDMA_QP_CFG.SEALED p.q 0 = 0 →
     p.psn.toNat = fget s RDMA_QP_PSN.RQ_PSN p.q 0 →
     fset s RDMA_QP_PSN.RQ_PSN p.q 0 (p.psn.toNat + psnCount s p.q p.len) = s1 →
     memoryClass (fget s1 RDMA_QP_CFG.CLASS p.q 0) = true →
     keyCheck s1 p 0 = some g →
     (touchesWindow s1 (qpJob s1 p.q) p.va p.len && !windowOpen s1 (qpJob s1 p.q)) = false →
     (linesOf p.va p.len).find? (fun l => s1.poison.contains (poisonKey s1 (qpJob s1 p.q) l)) = none →
     exec (.rdmaRead p) s = .next (
       let j := qpJob s1 p.q
       sendAckTo (bankWork s1 j p.va p.len (bankOps p.len)) p.q p.psn.toNat (jobRead s1 j p.va p.len))) ∧
  (∀ (s s1 : State) (p : Packet) (x : Word) (g : Nat),
     portOn s p.port = true →
     fget s RDMA_QP_CFG.TYPE p.q 0 ≠ 1 →
     ((qpState s p.q = 2 ∨ qpState s p.q = 3)) →
     fget s RDMA_QP_CFG.PORT p.q 0 = p.port.val →
     fget s RDMA_QP_CFG.SEALED p.q 0 = 0 →
     p.psn.toNat = fget s RDMA_QP_PSN.RQ_PSN p.q 0 →
     fset s RDMA_QP_PSN.RQ_PSN p.q 0 (p.psn.toNat + 1) = s1 →
     memoryClass (fget s1 RDMA_QP_CFG.CLASS p.q 0) = true →
     keyCheck s1 { p with len := 8 } 2 = some g →
     p.va % 8 = 0 →
     touchesWindow s1 (qpJob s1 p.q) p.va 8 = false →
     touchesWindow (bankWork s1 (qpJob s1 p.q) p.va 8 1) (qpJob s1 p.q) p.va 8 = false →
     windowOk s1 (qpJob s1 p.q) p.va 8 = true →
     poisoned s1 (qpJob s1 p.q) p.va 8 = false →
     exec (.atomicAdd p x) s = .next (
       let j := qpJob s1 p.q
       let old := jobWord s1 j p.va
       answerAtomic (jobSetWord (bankWork s1 j p.va 8 1) j p.va (old + x)) { p with len := 8 } old)) ∧
  (∀ (s s1 : State) (p : Packet) (x : Word) (g : Nat),
     portOn s p.port = true →
     fget s RDMA_QP_CFG.TYPE p.q 0 ≠ 1 →
     ((qpState s p.q = 2 ∨ qpState s p.q = 3)) →
     fget s RDMA_QP_CFG.PORT p.q 0 = p.port.val →
     fget s RDMA_QP_CFG.SEALED p.q 0 = 0 →
     p.psn.toNat = fget s RDMA_QP_PSN.RQ_PSN p.q 0 →
     fset s RDMA_QP_PSN.RQ_PSN p.q 0 (p.psn.toNat + 1) = s1 →
     memoryClass (fget s1 RDMA_QP_CFG.CLASS p.q 0) = true →
     keyCheck s1 { p with len := 8 } 2 = some g →
     p.va % 8 = 0 →
     touchesWindow (bankWork s1 (qpJob s1 p.q) p.va 8 1) (qpJob s1 p.q) p.va 8 = true →
     windowOk s1 (qpJob s1 p.q) p.va 8 = true →
     poisoned s1 (qpJob s1 p.q) p.va 8 = false →
     exec (.atomicAdd p x) s = .next (
       let j := qpJob s1 p.q
       answerAtomic (gaddJob (bankWork s1 j p.va 8 1) j p.va x) { p with len := 8 } (jobWord s1 j p.va))) ∧
  (∀ (s s1 : State) (p : Packet) (cmp swap : Word) (g : Nat),
     portOn s p.port = true →
     fget s RDMA_QP_CFG.TYPE p.q 0 ≠ 1 →
     ((qpState s p.q = 2 ∨ qpState s p.q = 3)) →
     fget s RDMA_QP_CFG.PORT p.q 0 = p.port.val →
     fget s RDMA_QP_CFG.SEALED p.q 0 = 0 →
     p.psn.toNat = fget s RDMA_QP_PSN.RQ_PSN p.q 0 →
     fset s RDMA_QP_PSN.RQ_PSN p.q 0 (p.psn.toNat + 1) = s1 →
     memoryClass (fget s1 RDMA_QP_CFG.CLASS p.q 0) = true →
     keyCheck s1 { p with len := 8 } 2 = some g →
     p.va % 8 = 0 →
     touchesWindow s1 (qpJob s1 p.q) p.va 8 = false →
     windowOk s1 (qpJob s1 p.q) p.va 8 = true →
     poisoned s1 (qpJob s1 p.q) p.va 8 = false →
     exec (.compareAndSwap p cmp swap) s = .next (
       let j := qpJob s1 p.q
       let old := jobWord s1 j p.va
       let s2 := bankWork s1 j p.va 8 1
       answerAtomic (if old = cmp then jobSetWord s2 j p.va swap else s2) { p with len := 8 } old)) ∧
  (∀ (s s1 : State) (p : Packet) (g : Nat),
     portOn s p.port = true →
     fget s RDMA_QP_CFG.TYPE p.q 0 ≠ 1 →
     ((qpState s p.q = 2 ∨ qpState s p.q = 3)) →
     fget s RDMA_QP_CFG.PORT p.q 0 = p.port.val →
     fget s RDMA_QP_CFG.SEALED p.q 0 = 0 →
     p.psn.toNat = fget s RDMA_QP_PSN.RQ_PSN p.q 0 →
     fset s RDMA_QP_PSN.RQ_PSN p.q 0 (p.psn.toNat + 1) = s1 →
     memoryClass (fget s1 RDMA_QP_CFG.CLASS p.q 0) = true →
     keyCheck s1 p 3 = some g →
     exec (.rdmaFlush p) s = .next (sendAckTo s1 p.q p.psn.toNat []))

/-- Reads, writes and near-memory operations of the Vat banks, the scrubber and the berths (R153, R154, R155, R156, R160, R168, R180, R183, R186, R187). In a partition of the issuer: BANK_READ answers the line's 64 bytes, or poison, after what the code of the line finds. After that same finding, where the line is not poisoned: RADD, FADD and ADD64 store the sum of what stood there and the operand; GADD stores the exact G64 sum, MAX_MIN the maximum or minimum, CAS64 the swap value where the word equals; a LINE_WRITE of part of a line stores its bytes; on a poisoned line each changes nothing and returns poison. A LINE_WRITE of a whole line stores its bytes without reading and clears poison. Bytes of a LINE_WRITE or FADD that touch two lines are two operations, one on each line. Each counts its bank operations. PATROL_SCRUB of a line that is due reads it once in the pass, and the last line of a pass counts a pass; of a line that is not due nothing happens. BERTH_WRITE for a job that does not exist stores the berths unless another job holds one, which sets BERTH_EV and stores nothing. -/
def Obligations.TheBanksActOnLines : Prop :=
  (∀ (s : State) (i : Issuer) (line : VatLine),
     refusesAccess s i (line.val * 64) = false →
     s.poison.contains line.val = false →
     exec (.bankRead i line ⟨0, false⟩) s = .next (pmu (emit (count s VAT_ECC_CORR.COUNT 0 0 0) (.bank (some (vatRead (count s VAT_ECC_CORR.COUNT 0 0 0) (line.val * 64) 64)))) 0x20 i.job 2)) ∧
  (∀ (s : State) (i : Issuer) (line : VatLine) (e : EccRead),
     refusesAccess s i (line.val * 64) = false →
     exec (.bankRead i line e) s = .next (pmu (answerLine (eccRead s line e) line) 0x20 i.job 2)) ∧
  (∀ (s : State) (i : Issuer) (a : VatAddr) (d : Bytes) (e : EccRead),
     refusesAccess s i a = false →
     a.val % 64 = 0 →
     d.length = 64 →
     exec (.lineWrite i a d e) s = .next (pmu (emit (vatWrite (clearPoison s (a / 64)) a d) (.bank (some []))) 0x20 i.job 2)) ∧
  (∀ (s : State) (i : Issuer) (a : VatAddr) (d : Bytes) (e : EccRead),
     refusesAccess s i a = false →
     (eccRead s (a / 64) e).poison.contains (a / 64) = false →
     d.length ≠ 0 →
     d.length ≠ 64 →
     a.val % 64 + d.length ≤ 64 →
     exec (.lineWrite i a d e) s = .next (pmu (emit (vatWrite (eccRead s (a / 64) e) a d) (.bank (some []))) 0x20 i.job (bankOps d.length))) ∧
  (∀ (s : State) (i : Issuer) (a : VatAddr) (d : Bytes) (e : EccRead) (c : Instr),
     (c = .lineWrite i a d e ∨ c = .fadd i a d e) →
     64 < a.val % 64 + d.length →
     a.val % 64 + d.length ≤ 128 →
     exec c s = .next (
       let n := 64 - a.val % 64
       let part := fun (b : Nat) (x : Bytes) (u : State) => bankAccess u i b x.length (if c = .lineWrite i a d e then writePart e b x
         else onLine b e (fun v => emit (vatWrite v b (mapElems 4 fadd32 (vatRead v b x.length) x)) (.bank (some []))))
       part (a + n) (slice d n (d.length - n)) (part a (slice d 0 n) s))) ∧
  (∀ (s : State) (i : Issuer) (a : VatAddr) (ring : Ring) (d : Bytes) (e : EccRead),
     refusesAccess s i a = false →
     (eccRead s (a / 64) e).poison.contains (a / 64) = false →
     exec (.radd i a ring d e) s = .next (
       let t := eccRead s (a / 64) e
       pmu (emit (vatWrite t a (mapElems ring.slot (ringAdd ring.bits) (vatRead t a d.length) d)) (.bank (some []))) 0x20 i.job (bankOps d.length))) ∧
  (∀ (s : State) (i : Issuer) (a : VatAddr) (x : Word) (ask : Bool) (e : EccRead),
     refusesAccess s i a = false →
     (eccRead s (a / 64) e).poison.contains (a / 64) = false →
     g64Creates (vatWord (eccRead s (a / 64) e) a) x = false →
     exec (.gadd i a x ask e) s = .next (
       let t := eccRead s (a / 64) e
       pmu (emit (vatWrite t a (toLe 8 (g64Add (vatWord t a) x).toNat)) (.bank (some (if ask then toLe 8 (vatWord t a).toNat else [])))) 0x20 i.job 1)) ∧
  (∀ (s : State) (i : Issuer) (a : VatAddr) (x : Word) (ask : Bool) (e : EccRead) (j : JobId),
     refusesAccess s i a = false →
     (eccRead s (a / 64) e).poison.contains (a / 64) = false →
     i.job = some j →
     g64Creates (vatWord (eccRead s (a / 64) e) a) x = true →
     exec (.gadd i a x ask e) s = .next (
       let t := eccRead s (a / 64) e
       let s1 := countMarker t j (windowRound t j)
       pmu (emit (vatWrite s1 a (toLe 8 (g64Add (vatWord t a) x).toNat)) (.bank (some (if ask then toLe 8 (vatWord t a).toNat else [])))) 0x20 i.job 1)) ∧
  (∀ (s : State) (i : Issuer) (a : VatAddr) (x : Word) (ask : Bool) (e : EccRead),
     refusesAccess s i a = false →
     (eccRead s (a / 64) e).poison.contains (a / 64) = false →
     exec (.add64 i a x ask e) s = .next (
       let t := eccRead s (a / 64) e
       pmu (emit (vatWrite t a (toLe 8 (vatWord t a + x).toNat)) (.bank (some (if ask then toLe 8 (vatWord t a).toNat else [])))) 0x20 i.job 1)) ∧
  (∀ (s : State) (i : Issuer) (a : VatAddr) (d : Bytes) (e : EccRead),
     refusesAccess s i a = false →
     (eccRead s (a / 64) e).poison.contains (a / 64) = false →
     d.length ≠ 0 →
     a.val % 64 + d.length ≤ 64 →
     exec (.fadd i a d e) s = .next (
       let t := eccRead s (a / 64) e
       pmu (emit (vatWrite t a (mapElems 4 fadd32 (vatRead t a d.length) d)) (.bank (some []))) 0x20 i.job (bankOps d.length))) ∧
  (∀ (s : State) (i : Issuer) (a : VatAddr) (op : MaxMinOp) (x : Word) (ask : Bool) (e : EccRead),
     refusesAccess s i a = false →
     (eccRead s (a / 64) e).poison.contains (a / 64) = false →
     exec (.maxMin i a op x ask e) s = .next (
       let t := eccRead s (a / 64) e
       let old := vatRead t a (maxMinSize op)
       pmu (emit (vatWrite t a (toLe (maxMinSize op) (maxMinEval op (leNat old) x.toNat))) (.bank (some (if ask then old else [])))) 0x20 i.job 1)) ∧
  (∀ (s : State) (i : Issuer) (a : VatAddr) (cmp swap : Word) (e : EccRead),
     refusesAccess s i a = false →
     (eccRead s (a / 64) e).poison.contains (a / 64) = false →
     exec (.cas64 i a cmp swap e) s = .next (
       let t := eccRead s (a / 64) e
       let old := vatWord t a
       pmu (emit (vatWrite t a (toLe 8 (if old = cmp then swap else old).toNat)) (.bank (some (toLe 8 old.toNat)))) 0x20 i.job 1)) ∧
  (∀ (s : State) (i : Issuer) (a : VatAddr) (c : Instr) (n : Nat) (e : EccRead),
     refusesAccess s i a = false →
     (eccRead s (a / 64) e).poison.contains (a / 64) = true →
     ((∃ ring d, c = .radd i a ring d e ∧ n = d.length) ∨ (∃ x ask, c = .gadd i a x ask e ∧ n = 8) ∨ (∃ x ask, c = .add64 i a x ask e ∧ n = 8) ∨ (∃ op x ask, c = .maxMin i a op x ask e ∧ n = maxMinSize op) ∨
(∃ x y, c = .cas64 i a x y e ∧ n = 8) ∨ (∃ d, (c = .fadd i a d e ∨ c = .lineWrite i a d e ∧ n ≠ 64) ∧ n = d.length ∧ n ≠ 0 ∧ a.val % 64 + n ≤ 64)) →
     exec c s = .next (pmu (emit (eccRead s (a / 64) e) (.bank none)) 0x20 i.job (bankOps n))) ∧
  (∀ (s t : State) (line : VatLine) (e : EccRead),
     scrubDue s line = true →
     t = eccRead s line e →
     t.scrubRead ≠ [] →
     t.scrubRead.length + 1 < allLines →
     exec (.patrolScrub line e) s = .next { t with scrubRead := line.val :: t.scrubRead }) ∧
  (∀ (s t : State) (line : VatLine) (e : EccRead),
     scrubDue s line = true →
     t = eccRead s line e →
     t.scrubRead ≠ [] →
     allLines ≤ t.scrubRead.length + 1 →
     exec (.patrolScrub line e) s = .next (count { t with scrubRead := [] } VAT_SCRUB.PASSES 0 0 1)) ∧
  (∀ (s t : State) (line : VatLine) (e : EccRead),
     scrubDue s line = true →
     t = eccRead s line e →
     t.scrubRead = [] →
     exec (.patrolScrub line e) s = .next { t with scrubNext := t.clock + get1 t VAT_SCRUB.PERIOD_H * (3600 * 10 ^ 9), scrubRead := [line.val] }) ∧
  (∀ (s : State) (line : VatLine) (e : EccRead),
     scrubDue s line = false →
     exec (.patrolScrub line e) s = .next s) ∧
  (∀ (s : State) (n : Fin 6) (v : Word),
     (s.job (Fin.ofNat 16 (get1 s VAT_JOB_SEL.JOB))).present = false →
     (List.range 16).any (fun k => k != get1 s VAT_JOB_SEL.JOB && decide (fget s VAT_JOB_BERTHS.BERTH k n &&& v.toNat ≠ 0)) = false →
     exec (.berthWrite n v) s = .next (fset s VAT_JOB_BERTHS.BERTH (get1 s VAT_JOB_SEL.JOB) n v.toNat)) ∧
  (∀ (s : State) (n : Fin 6) (v : Word) (k : Fin 16),
     (s.job (Fin.ofNat 16 (get1 s VAT_JOB_SEL.JOB))).present = false →
     k.val ≠ get1 s VAT_JOB_SEL.JOB →
     fget s VAT_JOB_BERTHS.BERTH k n &&& v.toNat ≠ 0 →
     exec (.berthWrite n v) s = .next (ev s VAT_EVENT.BERTH_EV))

/-- A write of an engine's control register stores its fields and starts its known-answer tests, and their completion is shown (R149, R150, R262, R305, R306, R353, R588, R597). A write of TOL_CTRL, CUL_CTRL, PRS_CTRL, WRP_CTRL, SKM_CTRL, RIND_CTRL or TRI_CTRL stores the register's fields; with KAT_RUN set and no test of the engine running it starts the engine's tests; with it clear it starts none. A write of CUL_CTRL that leaves ENABLE set then lets the refreshes and exports that wait go on, one of RIND_CTRL the chunks, exports, decodes and refreshes that wait for Rind; a write of TOL_CTRL that raises ENABLE delivers the chunks that wait for Toll, runs the due reconstructions of every job and lets held phases go on. KAT_COMPLETE of running tests shows KAT_DONE and KAT_PASS; a failure also raises the engine's KAT_FAIL_EV and fences the unit that failed. -/
def Obligations.KnownAnswerTestsRun : Prop :=
  (∀ (s : State) (v : BitVec 32),
     bit v.toNat 1 = true →
     s.katRuns.contains .press = false →
     exec (.prsKatRun v) s = .next (let t := storeReg s .PRS_CTRL 0 0 v.toNat; { t with katRuns := t.katRuns ++ [.press] })) ∧
  (∀ (s : State) (v : BitVec 32),
     bit v.toNat 1 = true →
     s.katRuns.contains .wrap = false →
     exec (.wrpKatRun v) s = .next (let t := storeReg s .WRP_CTRL 0 0 v.toNat; { t with katRuns := t.katRuns ++ [.wrap] })) ∧
  (∀ (s : State) (v : BitVec 32),
     bit v.toNat 1 = true →
     s.katRuns.contains .skim = false →
     exec (.skmKatRun v) s = .next (let t := storeReg s .SKM_CTRL 0 0 v.toNat; { t with katRuns := t.katRuns ++ [.skim] })) ∧
  (∀ (s : State) (v : BitVec 32),
     bit v.toNat 1 = true →
     s.katRuns.contains .trier = false →
     exec (.triKatRun v) s = .next (let t := storeReg s .TRI_CTRL 0 0 v.toNat; { t with katRuns := t.katRuns ++ [.trier] })) ∧
  (∀ (s : State) (v : BitVec 32),
     bit v.toNat 2 = true →
     s.katRuns.contains .toll = false →
     (tollOn (storeReg s .TOL_CTRL 0 0 v.toNat) && !tollOn s) = false →
     exec (.tolKatRun v) s = .next (let t := storeReg s .TOL_CTRL 0 0 v.toNat; { t with katRuns := t.katRuns ++ [.toll] })) ∧
  (∀ (s : State) (v : BitVec 32),
     bit v.toNat 2 = false →
     tollOn (storeReg s .TOL_CTRL 0 0 v.toNat) = true →
     tollOn s = false →
     exec (.tolEnableWrite v) s = .next (
       releaseAll ((List.finRange 16).foldl (fun t (j : JobId) => ((t.job j).rounds.map (·.number)).foldl (fun u r => reconstructDue u j r) t) (resumeChunks (storeReg s .TOL_CTRL 0 0 v.toNat) 1)))) ∧
  (∀ (s u : State) (v : BitVec 32),
     bit v.toNat 1 = true →
     s.katRuns.contains .rind = false →
     u = (fun t => { t with katRuns := t.katRuns ++ [.rind] }) (storeReg s .RIND_CTRL 0 0 v.toNat) →
     exec (.rindKatRun v) s = .next (if rindOn u then rindGoesOn (resumeChunks u 3) else u)) ∧
  (∀ (s u : State) (v : BitVec 32),
     bit v.toNat 1 = true →
     s.katRuns.contains .culture = false →
     u = (fun t => { t with katRuns := t.katRuns ++ [.culture] }) (storeReg s .CUL_CTRL 0 0 v.toNat) →
     exec (.culKatRun v) s = .next (if cultureOn u then rindGoesOn u else u)) ∧
  (∀ (s u : State) (v : BitVec 32),
     bit v.toNat 1 = false →
     u = storeReg s .RIND_CTRL 0 0 v.toNat →
     exec (.rindKatRun v) s = .next (if rindOn u then rindGoesOn (resumeChunks u 3) else u)) ∧
  (∀ (s u : State) (v : BitVec 32),
     bit v.toNat 1 = false →
     u = storeReg s .CUL_CTRL 0 0 v.toNat →
     exec (.culKatRun v) s = .next (if cultureOn u then rindGoesOn u else u)) ∧
  (∀ (s : State) (e : KatEngine),
     s.katRuns.contains e = true →
     exec (.katComplete e none) s = .next (katStatus { s with katRuns := s.katRuns.erase e } e true)) ∧
  (∀ (s : State) (e : KatEngine) (b : Fin 11) (u : Nat),
     s.katRuns.contains e = true →
     unitExists b u = true →
     exec (.katComplete e (some (b, u))) s = .next (fence (katFailEv (katStatus { s with katRuns := s.katRuns.erase e } e false) e) b u 1))

/-- FENCE and UNFENCE commands, a tile's drain, a chain's check, and the refresh wait (R217, R243, R350, R577, R580, R584, R587, R589, R590). TRI_FENCE and TRI_UNFENCE on the selected unit: a command with an old GEN has STATUS 7, raises STALE_EV and does nothing else; FENCE fences the unit with cause 6 and STATUS 0 where that succeeds, and UNFENCE with a passed test of a unit that is not redirected makes it LIVE; the work of an engine that so gains its first live unit goes on (enginesGoOn). TILE_DRAIN takes the oldest pending drain of its array, a fenced array's apart, and, without poison, counts what is infinite, offers the chain to Trier and delivers the elements. CHAIN_CHECK draws for the oldest chain of the group and takes it; a failure counts it, marks the array SUSPECT and either retracts a provisional invocation, or runs the chain again on another array and ends the invocation with ENGINE_STATUS where that run fails too; with no other live array it waits. REFRESH_WAIT_EXPIRY drops the refreshes that have waited WAIT_S seconds. -/
def Obligations.UnitsAreFencedAndChecked : Prop :=
  (∀ (s : State) (v : BitVec 32),
     bits v.toNat 1 0 = 1 →
     unitExists (get1 s TRI_UNIT_SEL.BLOCK) (get1 s TRI_UNIT_SEL.UNIT) = true →
     bits v.toNat 31 24 = fget s TRI_UNIT_STATE.GEN (get1 s TRI_UNIT_SEL.BLOCK) (get1 s TRI_UNIT_SEL.UNIT) →
     exec (.triFence v) s = .next (
       let b := get1 s TRI_UNIT_SEL.BLOCK
       let u := get1 s TRI_UNIT_SEL.UNIT
       let t := fence s b u 6
       enginesGoOn s (set1 t TRI_UNIT_CMD.STATUS (if fget t TRI_UNIT_STATE.STATE b u = 1 then 0 else 8)))) ∧
  (∀ (s : State) (v : BitVec 32),
     bits v.toNat 1 0 = 1 →
     unitExists (get1 s TRI_UNIT_SEL.BLOCK) (get1 s TRI_UNIT_SEL.UNIT) = true →
     bits v.toNat 31 24 ≠ fget s TRI_UNIT_STATE.GEN (get1 s TRI_UNIT_SEL.BLOCK) (get1 s TRI_UNIT_SEL.UNIT) →
     exec (.triFence v) s = .next (set1 (ev s TRI_EVENT.STALE_EV) TRI_UNIT_CMD.STATUS 7)) ∧
  (∀ (s : State) (v : BitVec 32),
     bits v.toNat 1 0 = 2 →
     unitExists (get1 s TRI_UNIT_SEL.BLOCK) (get1 s TRI_UNIT_SEL.UNIT) = true →
     bits v.toNat 31 24 = fget s TRI_UNIT_STATE.GEN (get1 s TRI_UNIT_SEL.BLOCK) (get1 s TRI_UNIT_SEL.UNIT) →
     get1 s TRI_UNIT_SEL.BLOCK ≠ 4 →
     get1 s TRI_UNIT_SEL.BLOCK ≠ 1 →
     fget s TRI_UNIT_STATE.CAUSE (get1 s TRI_UNIT_SEL.BLOCK) (get1 s TRI_UNIT_SEL.UNIT) ≠ 7 →
     exec (.triUnfence v true) s = .next (
       enginesGoOn s (set1 (setUnit s (get1 s TRI_UNIT_SEL.BLOCK) (get1 s TRI_UNIT_SEL.UNIT) 0 0) TRI_UNIT_CMD.STATUS 0))) ∧
  (∀ (s u w : State) (a : Fin 8) (d : DrainRec) (ds : List DrainRec) (c : Ctx) (wrong : List (Nat × Int)) (t : Tile),
     u = replaceFenced s →
     (u.array a).drains = d :: ds →
     unitState u 5 a ≠ 1 →
     u.ctx? d.x = some c →
     t = ((u.array a).tile d.tile).faulty wrong →
     w = offerChain (countInf (u.setArray a { (u.array a).setTile d.tile t with drains := ds }) d.x c.job t) d a t →
     firstPoison w c.job (channelRanges d.record d.col0 t.n) = none →
     (∀ e ∈ drainElems w c.job d c.elems t, (t.cell (e.row - d.row0) (e.col - d.col0)).poison = false) →
     exec (.tileDrain a wrong) s = .next (deliver w d.x c.job d.record (if wrStoch d.record then c.roundKey else none) (drainElems w c.job d c.elems t))) ∧
  (∀ (s u : State) (a : Fin 8) (d : DrainRec) (ds : List DrainRec) (wrong : List (Nat × Int)),
     u = replaceFenced s →
     (u.array a).drains = d :: ds →
     unitState u 5 a = 1 →
     exec (.tileDrain a wrong) s = .next u) ∧
  (∀ (s : State) (j : JobId) (n : Nat) (wrong : List (Nat × Int)) (k : ChainCheck) (rest : List ChainCheck) (g : Group) (x : CtxId),
     s.groups.find? (fun g => g.job == j && g.seq == n) = some g →
     g.chains = k :: rest →
     g.x = some x →
     chainPasses? s g k k.drained = true →
     exec (.chainCheck j n wrong) s = .next (
       let t := takeDraws s k.drained.n
       reportGroup { t with groups := t.groups.map (fun o => if o == g then { o with chains := o.chains.drop 1 } else o) } g true)) ∧
  (∀ (s u : State) (j : JobId) (n : Nat) (wrong : List (Nat × Int)) (k : ChainCheck) (rest : List ChainCheck) (g : Group) (x : CtxId) (c : Ctx),
     s.groups.find? (fun g => g.job == j && g.seq == n) = some g →
     g.chains = k :: rest →
     g.x = some x →
     chainPasses? s g k k.drained = false →
     (liveArrays s).any (fun a => a != k.array) = true →
     u = failChain (takeChain (takeDraws s k.drained.n) g) g.job k.array →
     u.ctx? x = some c →
     exec (.chainCheck j n wrong) s = .next (
       let t := k.again.faulty wrong
       let v := rewriteChain (takeDraws u t.n) k g.job (if wrStoch k.drain.record then c.roundKey else none) t
       if chainPasses? u g k t then v else stopWith v x .engineStatus 7 9 c.pc)) ∧
  (∀ (s : State) (j : JobId) (n : Nat) (wrong : List (Nat × Int)) (k : ChainCheck) (rest : List ChainCheck) (g : Group),
     s.groups.find? (fun g => g.job == j && g.seq == n) = some g →
     g.chains = k :: rest →
     g.x = none →
     rest ≠ [] →
     chainPasses? s g k k.drained = false →
     exec (.chainCheck j n wrong) s = .next (reportGroup (failChain (takeChain (takeDraws s k.drained.n) g) g.job k.array) g false)) ∧
  (∀ (s : State) (j : JobId) (n : Nat) (wrong : List (Nat × Int)) (k : ChainCheck) (rest : List ChainCheck) (g : Group) (x : CtxId),
     s.groups.find? (fun g => g.job == j && g.seq == n) = some g →
     g.chains = k :: rest →
     g.x = some x →
     chainPasses? s g k k.drained = false →
     (liveArrays s).any (fun a => a != k.array) = false →
     exec (.chainCheck j n wrong) s = .next s) ∧
  (∀ (s : State) (j : JobId),
     0 < fget s RIND_JOB_REFRESH.WAIT_S j 0 →
     exec (.refreshWaitExpiry j) s = .next (dropRefresh s j (fun o => o.joined.isNone && decide (o.since + fget s RIND_JOB_REFRESH.WAIT_S j 0 * 10 ^ 9 ≤ s.now))))

/-- The control instructions of a recipe (R370, R371, R372, R374, R376, R391). For a context that stands at the instruction: NOP moves on; END with no issued work and no pending check group ends the invocation with OK; LOOP of a count n > 0 opens a loop of n passes, of 0 skips past its ENDLOOP; ENDLOOP returns to the body or, after the last pass, moves on; MOVI, MOVHI, ADDI, ADD, SHLI and LDP set P(DST) as R370 says; SKIPZ and SKIPNZ skip IMM words by P(SA); FENCE moves on and SIGNAL adds to its counter once nothing issued is left; WAIT_CNT moves on once the counter has reached P(SA) + IMM modulo 2^32; WAIT_EVT of an event of the job notes the wait, and moves on once it has fired. -/
def Obligations.ControlInstructionsRun : Prop :=
  (∀ (s : State) (x : CtxId) (c : Ctx),
     s.ctx? x = some c →
     standsAt s x c 0x00 = true →
     exec (.nop x) s = .next (
       advance s x c)) ∧
  (∀ (s : State) (x : CtxId) (c : Ctx),
     s.ctx? x = some c →
     standsAt s x c 0x01 = true →
     c.issued.isEmpty = true →
     groupPending s c = false →
     exec (.endRecipe x) s = .next (
       endInvoke (issueWords s x c 1) x .ok 0 0 c.pc)) ∧
  (∀ (s : State) (x : CtxId) (c : Ctx),
     s.ctx? x = some c →
     standsAt s x c 0x02 = true →
     (if bit c.mod 0 then c.sa else c.imm % 2 ^ 24) < 2 ^ 24 →
     (if bit c.mod 0 then c.sa else c.imm % 2 ^ 24) ≠ 0 →
     exec (.loop x) s = .next (
       let d := if bit c.mod 1 then c.setReg (iDst c.word) 0 else c
       advance s x { d with loops := ⟨c.pc + 1, if bit c.mod 0 then c.sa else c.imm % 2 ^ 24, if bit c.mod 1 then some (iDst c.word) else none⟩ :: d.loops })) ∧
  (∀ (s : State) (x : CtxId) (c : Ctx),
     s.ctx? x = some c →
     standsAt s x c 0x02 = true →
     (if bit c.mod 0 then c.sa else c.imm % 2 ^ 24) = 0 →
     exec (.loop x) s = .next (
       let d := if bit c.mod 1 then c.setReg (iDst c.word) 0 else c
       advanceTo s x d (matchEnd c.words c.words.length (c.pc + 1) 0 + 1))) ∧
  (∀ (s : State) (x : CtxId) (c : Ctx) (f : LoopFrame) (fs : List LoopFrame),
     s.ctx? x = some c →
     standsAt s x c 0x03 = true →
     c.loops = f :: fs →
     f.idx = none →
     f.left ≤ 1 →
     exec (.endLoop x) s = .next (
       advance s x { c with loops := fs })) ∧
  (∀ (s : State) (x : CtxId) (c : Ctx) (f : LoopFrame) (fs : List LoopFrame) (i : Nat),
     s.ctx? x = some c →
     standsAt s x c 0x03 = true →
     c.loops = f :: fs →
     f.idx = some i →
     1 < f.left →
     exec (.endLoop x) s = .next (
       advanceTo s x { c.setReg i (c.reg i + 1) with loops := { f with left := f.left - 1 } :: fs } f.body)) ∧
  (∀ (s : State) (x : CtxId) (c : Ctx),
     s.ctx? x = some c →
     standsAt s x c 0x04 = true →
     exec (.movi x) s = .next (
       advance s x (c.setReg (iDst c.word) (BitVec.ofNat 64 c.imm)))) ∧
  (∀ (s : State) (x : CtxId) (c : Ctx),
     s.ctx? x = some c →
     standsAt s x c 0x05 = true →
     exec (.movhi x) s = .next (
       advance s x (c.setReg (iDst c.word) (BitVec.ofNat 64 (c.imm * 2 ^ 32 + (c.reg (iDst c.word)).toNat % 2 ^ 32))))) ∧
  (∀ (s : State) (x : CtxId) (c : Ctx),
     s.ctx? x = some c →
     standsAt s x c 0x06 = true →
     exec (.addi x) s = .next (
       advance s x (c.setReg (iDst c.word) (c.reg (iSa c.word) + BitVec.ofInt 64 (signed 32 c.imm))))) ∧
  (∀ (s : State) (x : CtxId) (c : Ctx),
     s.ctx? x = some c →
     standsAt s x c 0x07 = true →
     exec (.add x) s = .next (
       advance s x (c.setReg (iDst c.word) (c.reg (iSa c.word) + c.reg (iSb c.word))))) ∧
  (∀ (s : State) (x : CtxId) (c : Ctx),
     s.ctx? x = some c →
     standsAt s x c 0x08 = true →
     exec (.shli x) s = .next (
       advance s x (c.setReg (iDst c.word) (c.reg (iSa c.word) <<< (c.imm % 64))))) ∧
  (∀ (s : State) (x : CtxId) (c : Ctx) (a : Nat),
     s.ctx? x = some c →
     standsAt s x c 0x09 = true →
     (c.reg (iSa c.word) + BitVec.ofInt 64 (signed 32 c.imm)).toNat = a →
     a % 8 = 0 →
     rangeFault s c [(a, 8)] = none →
     poisoned s c.job a 8 = false →
     exec (.ldp x) s = .next (
       advance s x (c.setReg (iDst c.word) (jobWord s c.job a)))) ∧
  (∀ (s : State) (x : CtxId) (c : Ctx),
     s.ctx? x = some c →
     standsAt s x c 0x0A = true →
     exec (.skipz x) s = .next (
       if c.sa = 0 then advanceTo s x c (c.pc + 1 + c.imm) else advance s x c)) ∧
  (∀ (s : State) (x : CtxId) (c : Ctx),
     s.ctx? x = some c →
     standsAt s x c 0x0B = true →
     exec (.skipnz x) s = .next (
       if c.sa = 0 then advance s x c else advanceTo s x c (c.pc + 1 + c.imm))) ∧
  (∀ (s : State) (x : CtxId) (c : Ctx),
     s.ctx? x = some c →
     standsAt s x c 0x0C = true →
     c.issued.isEmpty = true →
     exec (.fence x) s = .next (
       advance s x c)) ∧
  (∀ (s : State) (x : CtxId) (c : Ctx),
     s.ctx? x = some c →
     standsAt s x c 0x0D = true →
     (BitVec.ofNat 32 (readD 0 (s.job c.job).counters (c.mod % 256)) - BitVec.ofNat 32 (c.sa + c.imm)).toNat < 2 ^ 31 →
     exec (.waitCnt x) s = .next (
       advance s x c)) ∧
  (∀ (s : State) (x : CtxId) (c : Ctx),
     s.ctx? x = some c →
     standsAt s x c 0x0E = true →
     c.issued.isEmpty = true →
     exec (.signal x) s = .next (
       bump (advance s x c) c.job (c.mod % 256) (c.imm % 2 ^ 16))) ∧
  (∀ (s : State) (x : CtxId) (c : Ctx) (t : Nat),
     s.ctx? x = some c →
     standsAt s x c 0x0F = true →
     c.wait = some t →
     c.fired.contains (c.imm % 4096 + 4096) = true →
     exec (.waitEvt x) s = .next (
       advance s x { c with wait := none })) ∧
  (∀ (s : State) (x : CtxId) (c : Ctx),
     s.ctx? x = some c →
     standsAt s x c 0x0F = true →
     (lookup s.armed (c.imm % 4096)).map (·.job) = some c.job.val →
     c.wait = none →
     (bit c.mod 0 && c.fired.contains (c.imm % 4096)) = false →
     exec (.waitEvt x) s = .next (
       s.setCtx x { c with wait := some s.now, fired := c.fired.filter (fun n => decide (n < 4096)) }))

/-- LAYER, MAC, GATHER, DRAIN and WPASS on operands that are good (R230, R241, R252, R263, R265, R378, R379, R380, R381, R385). LAYER of a kind from 1 to 6 names the invocation's layer. A MAC whose operands, headers and spans are good, on an array that Pilot may use, draws the keys it needs and runs (keyedMac), once the chains of fenced arrays have moved; with PRS_CTRL.ENABLE clear it waits; of the sign matrix without a drain it runs with the round's screening key. GATHER takes the rows that the index vector names through Wrap into its destination. DRAIN queues the tile's drain on the array of its chain at the place of its latest MAC, and waits while WRP_CTRL.ENABLE is clear. WPASS takes P(SB) source elements through the release path into its destination. Each issued operation is registered and the context moves on. -/
def Obligations.PressAndWrapInstructionsRun : Prop :=
  (∀ (s : State) (x : CtxId) (c : Ctx),
     s.ctx? x = some c →
     standsAt s x c 0x2F = true →
     1 ≤ c.imm % 256 →
     c.imm % 256 ≤ 6 →
     exec (.layer x) s = .next (
       advance s x { c with layer := some (c.imm % 256) })) ∧
  (∀ (s₀ s : State) (x : CtxId) (c : Ctx) (phys : Fin 8) (ready wait : Nat) (rd : Option Round) (fresh : Bool),
     s = replaceFenced s₀ →
     s.ctx? x = some c →
     standsAt s x c 0x20 = true →
     ((if mModeA c = 1 ∨ mModeB c = 2 then pickRound s c.job (mNewest c) else none) = rd) →
     (chainAt c (mArray c) (mTile c)).isNone = fresh →
     on s PRS_CTRL.ENABLE = true →
     (mDrain c && !on s WRP_CTRL.ENABLE) = false →
     arrayFits s x c phys fresh = true →
     rangeFault s c (macHeads c) = none →
     (macOk s c (rd) && (!mDrain c || recordOk true (isSketch c) (drainRecord s c))) = true →
     rangeFault s c (macSpans s c) = none →
     firstPoison s c.job (macHeads c) = none →
     macWaits s c (rd) = false →
     exec (.mac x phys ready wait) s₀ = .next (
       keyedMac s x c phys ready wait fresh rd)) ∧
  (∀ (s₀ s : State) (x : CtxId) (c : Ctx) (phys : Fin 8) (ready wait : Nat) (y : Round) (fresh : Bool) (key : Key256) (t : State),
     s = replaceFenced s₀ →
     s.ctx? x = some c →
     standsAt s x c 0x20 = true →
     ((if mModeA c = 1 ∨ mModeB c = 2 then pickRound s c.job (mNewest c) else none) = some y) →
     (chainAt c (mArray c) (mTile c)).isNone = fresh →
     on s PRS_CTRL.ENABLE = true →
     (mDrain c && !on s WRP_CTRL.ENABLE) = false →
     arrayFits s x c phys fresh = true →
     rangeFault s c (macHeads c) = none →
     (macOk s c (some y) && (!mDrain c || recordOk true (isSketch c) (drainRecord s c))) = true →
     rangeFault s c (macSpans s c) = none →
     firstPoison s c.job (macHeads c) = none →
     macWaits s c (some y) = false →
     mDrain c = false →
     mModeA c = 1 →
     screeningKey s c.job y.number = (some key, t) →
     exec (.mac x phys ready wait) s₀ = .next (
       runMac t x c phys ready wait fresh (some y) (some key))) ∧
  (∀ (s₀ s : State) (x : CtxId) (c : Ctx) (phys : Fin 8) (ready wait : Nat),
     s = replaceFenced s₀ →
     s.ctx? x = some c →
     standsAt s x c 0x20 = true →
     on s PRS_CTRL.ENABLE = false →
     exec (.mac x phys ready wait) s₀ = .next (
       s)) ∧
  (∀ (s : State) (x : CtxId) (c : Ctx),
     s.ctx? x = some c →
     standsAt s x c 0x21 = true →
     on s WRP_CTRL.ENABLE = true →
     rangeFault s c [(c.dst, 64), (c.sa, 64), (c.sb, 4 * c.imm)] = none →
     (recordOk true (isSketch c) (drainRecord s c) && headerSound c.sa (jobRead s c.job c.sa 64) && ((List.range c.imm).map (gatherRow s c.job c.sb)).all (fun r => decide (r < thRows (jobRead s c.job c.sa 64)))) = true →
     rangeFault s c (tensorSpans s c.job c.sa ++ recordRanges s c.job (drainRecord s c) (thCols (jobRead s c.job c.sa 64)) ((c.ext 1 + c.imm) * thCols (jobRead s c.job c.sa 64))) = none →
     firstPoison s c.job [(c.dst, 64), (c.sa, 64), (c.sb, 4 * c.imm)] = none →
     firstPoison s c.job (gatherReads c (drainRecord s c) (jobRead s c.job c.sa 64) ((List.range c.imm).map (gatherRow s c.job c.sb))) = none →
     (wrStoch (drainRecord s c) && (c.roundKey.isNone && entropyStarting s)) = false →
     exec (.gather x) s = .next (
       let rows := (List.range c.imm).map (gatherRow s c.job c.sb)
       runGather s x c (drainRecord s c) rows)) ∧
  (∀ (s₀ s : State) (x : CtxId) (c : Ctx) (k : ChainRec),
     s = replaceFenced s₀ →
     s.ctx? x = some c →
     standsAt s x c 0x22 = true →
     chainAt c (mArray c) (mTile c) = some k →
     on s WRP_CTRL.ENABLE = true →
     unitState s 5 (Fin.ofNat 8 k.phys).val ≠ 1 →
     rangeFault s c [(c.dst, 64)] = none →
     recordOk true (isSketch c) (drainRecord s c) = true →
     rangeFault s c (recordRanges s c.job (drainRecord s c) ((s.array (Fin.ofNat 8 k.phys)).tile k.tile).n (((s.array (Fin.ofNat 8 k.phys)).tile k.tile).m * ((s.array (Fin.ofNat 8 k.phys)).tile k.tile).n)) = none →
     firstPoison s c.job [(c.dst, 64)] = none →
     wrStoch (drainRecord s c) = false →
     exec (.drain x) s₀ = .next (
       let at_ := ((c.tiles.find? (fun o => o.1 == mArray c && o.2.1 == mTile c)).map (fun o => o.2.2)).getD (0, 0)
       issueOp (queueDrain (s.setArray (Fin.ofNat 8 k.phys) (drainTimes (s.array (Fin.ofNat 8 k.phys)) k.tile)) x (Fin.ofNat 8 k.phys) k.tile (drainRecord s c) at_.1 at_.2) x 0 0)) ∧
  (∀ (s₀ s : State) (x : CtxId) (c : Ctx) (k : ChainRec),
     s = replaceFenced s₀ →
     s.ctx? x = some c →
     standsAt s x c 0x22 = true →
     chainAt c (mArray c) (mTile c) = some k →
     on s WRP_CTRL.ENABLE = false →
     exec (.drain x) s₀ = .next (
       s)) ∧
  (∀ (s : State) (x : CtxId) (c : Ctx),
     s.ctx? x = some c →
     standsAt s x c 0x60 = true →
     on s WRP_CTRL.ENABLE = true →
     rangeFault s c [(c.dst, 64)] = none →
     (recordOk false false (jobRead s c.job c.dst 64) && !(wrNoise (jobRead s c.job c.dst 64) || wrCountNorm (jobRead s c.job c.dst 64) || wrMomentum (jobRead s c.job c.dst 64))) = true →
     rangeFault s c ((c.sa, c.sb * srcBytes (wrSrc (jobRead s c.job c.dst 64))) :: recordRanges s c.job (jobRead s c.job c.dst 64) c.sb c.sb) = none →
     firstPoison s c.job ((c.dst, 64) :: (c.sa, c.sb * srcBytes (wrSrc (jobRead s c.job c.dst 64))) :: channelRanges (jobRead s c.job c.dst 64) 0 c.sb) = none →
     wrStoch (jobRead s c.job c.dst 64) = false →
     exec (.wpass x) s = .next (
       let b := jobRead s c.job c.dst 64
       issueOp (deliver s x c.job b none (passElems s c.job b c.elems c.sa c.sb)) x 0 0))

/-- The instructions of the Vat's sequencer on vectors and on cohorts (R169, R171, R177, R183, R188, R203, R204, R382, R383). With good operands in reach and no poison: VOP applies its near-memory operation to each element of the destination with the operand vector, on the clean lines alone where it meets a poisoned line, which it consumes; VCAS swaps the word at P(SA) where it equals P(SB) and P(DST) receives the word before; VFILL repeats the 4 bytes of IMM; VCOPY copies whole lines with their poison. SETTLE settles the cohort IMM of the served round, completing with status 2 of space 3 where the cohort is abandoned; EXCLUDE subtracts its addends exactly; CHECK runs its linear check, completing with status 1 where it fails; ZERO_ROUND zeroes the add window and the round's accumulators. -/
def Obligations.VatInstructionsRun : Prop :=
  (∀ (s : State) (x : CtxId) (c : Ctx),
     s.ctx? x = some c →
     standsAt s x c 0x30 = true →
     vopSize (c.mod % 16) ≠ 0 →
     (c.dst % 64 == 0 && c.sa % 64 == 0 && c.sb % (if c.mod % 16 ≤ 3 then 32 else 64) == 0) = true →
     rangeFault s c [(c.dst, c.sb), (c.sa, c.sb)] = none →
     firstPoison s c.job [(c.dst, c.sb), (c.sa, c.sb)] = none →
     exec (.vop x) s = .next (
       issueOp (bankWork (runVop s c.job (c.mod % 16) c.dst c.sa c.sb) c.job c.dst c.sb (bankOps c.sb)) x 0 0)) ∧
  (∀ (s : State) (x : CtxId) (c : Ctx),
     s.ctx? x = some c →
     standsAt s x c 0x31 = true →
     (c.sa % 8 == 0) = true →
     rangeFault s c [(c.sa, 8)] = none →
     firstPoison s c.job [(c.sa, 8)] = none →
     exec (.vcas x) s = .next (
       let old := jobWord s c.job c.sa
       let t := jobSetWord s c.job c.sa (if old = c.reg (iSb c.word) then BitVec.ofNat 64 (c.ext 1) else old)
       issueOp ((bankWork t c.job c.sa 8 1).modCtx x (fun c => c.setReg (iDst c.word) old)) x 0 0)) ∧
  (∀ (s : State) (x : CtxId) (c : Ctx),
     s.ctx? x = some c →
     standsAt s x c 0x32 = true →
     (c.dst % 64 == 0 && c.sb % 64 == 0) = true →
     rangeFault s c [(c.dst, c.sb)] = none →
     exec (.vfill x) s = .next (
       issueOp (bankWork (jobStore s c.job c.dst (List.flatten (List.replicate (c.sb / 4) (toLe 4 c.imm)))) c.job c.dst c.sb (bankOps c.sb)) x 0 0)) ∧
  (∀ (s : State) (x : CtxId) (c : Ctx),
     s.ctx? x = some c →
     standsAt s x c 0x33 = true →
     (c.dst % 64 == 0 && c.sa % 64 == 0 && c.sb % 64 == 0) = true →
     rangeFault s c [(c.dst, c.sb), (c.sa, c.sb)] = none →
     exec (.vcopy x) s = .next (
       let ls := (List.range (c.sb / 64)).map (fun i => (poisoned s c.job (c.sa + 64 * i) 64, jobRead s c.job (c.sa + 64 * i) 64))
       issueOp (bankWork (bankWork (copyLines s c.job c.dst ls) c.job c.sa c.sb (bankOps c.sb)) c.job c.dst c.sb (bankOps c.sb)) x 0 0)) ∧
  (∀ (s : State) (x : CtxId) (c : Ctx) (a : Nat),
     s.ctx? x = some c →
     standsAt s x c 0x30 = true →
     vopSize (c.mod % 16) ≠ 0 →
     (c.dst % 64 == 0 && c.sa % 64 == 0 && c.sb % (if c.mod % 16 ≤ 3 then 32 else 64) == 0) = true →
     rangeFault s c [(c.dst, c.sb), (c.sa, c.sb)] = none →
     firstPoison s c.job [(c.dst, c.sb), (c.sa, c.sb)] = some a →
     exec (.vop x) s = .next (
       consumeAt (bankWork (runVop s c.job (c.mod % 16) c.dst c.sa c.sb) c.job c.dst c.sb (bankOps c.sb)) c.job 4 a)) ∧
  (∀ (s : State) (x : CtxId) (c : Ctx) (y : Round) (t : State),
     s.ctx? x = some c →
     standsAt s x c 0x34 = true →
     servedRound s c = some y →
     settleDue s c.job y c.imm = true →
     settlePoison s c.job y c.imm = none →
     settleCohort s c.job c.imm y (y.cohort c.imm) = t →
     (t.cohort c.job y.number c.imm).reason = 0 →
     exec (.settle x) s = .next (
       issueOp t x 0 0)) ∧
  (∀ (s : State) (x : CtxId) (c : Ctx) (y : Round) (t : State),
     s.ctx? x = some c →
     standsAt s x c 0x34 = true →
     servedRound s c = some y →
     settleDue s c.job y c.imm = true →
     settlePoison s c.job y c.imm = none →
     settleCohort s c.job c.imm y (y.cohort c.imm) = t →
     (t.cohort c.job y.number c.imm).reason ≠ 0 →
     exec (.settle x) s = .next (
       issueOp t x 3 2)) ∧
  (∀ (s : State) (x : CtxId) (c : Ctx) (y z : Round),
     s.ctx? x = some c →
     standsAt s x c 0x35 = true →
     servedRound s c = some y →
     (y.cohort c.imm).settled = true →
     (y.cohort c.imm).excluded = false →
     (y.cohort c.imm).reason = 0 →
     settlePoison s c.job y c.imm = none →
     s.round? c.job y.number = some z →
     exec (.exclude x) s = .next (
       issueOp ((subtractCohort s c.job z c.imm (z.cohort c.imm)).modCohort c.job y.number c.imm (fun k => { k with excluded := true })) x 0 0)) ∧
  (∀ (s : State) (x : CtxId) (c : Ctx) (y : Round) (key : Key256) (t : State),
     s.ctx? x = some c →
     standsAt s x c 0x36 = true →
     servedRound s c = some y →
     (y.cohort c.imm).checkKey = some key →
     y.closed = true →
     (y.cohort c.imm).checked = false →
     (y.cohort c.imm).reason = 0 →
     metPoison s c.job (checkPlaces s c.job y c.imm key) = none →
     Machine.compare s c.job y.number c.imm y.plan (y.cohort c.imm) key = t →
     (t.cohort c.job y.number c.imm).reason = 0 →
     exec (.checkCohort x) s = .next (
       issueOp t x 0 0)) ∧
  (∀ (s : State) (x : CtxId) (c : Ctx) (y : Round) (key : Key256) (t : State),
     s.ctx? x = some c →
     standsAt s x c 0x36 = true →
     servedRound s c = some y →
     (y.cohort c.imm).checkKey = some key →
     y.closed = true →
     (y.cohort c.imm).checked = false →
     (y.cohort c.imm).reason = 0 →
     metPoison s c.job (checkPlaces s c.job y c.imm key) = none →
     Machine.compare s c.job y.number c.imm y.plan (y.cohort c.imm) key = t →
     (t.cohort c.job y.number c.imm).reason ≠ 0 →
     exec (.checkCohort x) s = .next (
       issueOp t x 3 1)) ∧
  (∀ (s : State) (x : CtxId) (c : Ctx) (y : Round),
     s.ctx? x = some c →
     standsAt s x c 0x37 = true →
     servedRound s c = some y →
     exec (.zeroRound x) s = .next (
       issueOp ((List.range (pCohortCount y.plan)).foldl (fun t n => (clearCohort t c.job y n).modCohort c.job y.number n (fun k => { k with accum := [], check := [0, 0, 0, 0], sums := [] })) (zeroWindow s c.job)) x 0 0))

/-- The instructions of Culture's and Toll's sequencers (R114, R127, R138, R140, R317, R384, R536, R564). With good operands in reach and no poison: MASKSUB applies the mask stream of its key to the coordinates outside the void chunks of the accumulator; EXPAND hands the seed and its KIND and DIGIT to Rind's key stream, a free number of keystream blocks being counted; ECDH stores the agreed x coordinate in its output handle; HKDF stores the derivation that its code names; RECON of a due secret reconstructs it, and of a done one completes; SIGN writes the ECDSA signature with its slot's key, and completes in space 6 with the slot's status where the slot may not be used; KEYGEN stores a drawn scalar and writes its point, and completes with ENTROPY_FAILED where the entropy unit has failed. -/
def Obligations.KeyInstructionsRun : Prop :=
  (∀ (s : State) (x : CtxId) (c : Ctx) (ring : Ring) (key : Bytes) (y : Round),
     s.ctx? x = some c →
     standsAt s x c 0x40 = true →
     maskRing c.mod = some ring →
     lookup s.handles c.imm = some key →
     servedRound s c = some y →
     cultureOn s = true →
     (key.length == 32) = true →
     rangeFault s c [(c.dst, c.sb * ring.slot), (c.sa, ((c.sb + pChunk y.plan - 1) / pChunk y.plan + 7) / 8)] = none →
     firstPoison s c.job [(c.dst, c.sb * ring.slot), (c.sa, ((c.sb + pChunk y.plan - 1) / pChunk y.plan + 7) / 8)] = none →
     exec (.maskSub x) s = .next (
       let is := unvoided (jobRead s c.job c.sa (((c.sb + pChunk y.plan - 1) / pChunk y.plan + 7) / 8)) (pChunk y.plan) c.sb
       let s1 := applyStream s c.job ring (keyOf key) (bit c.mod 2) c.dst is
       let s2 := cultureCounts s1 c.job (((is.map (· / perBlock ring)).dedup).length) is.length
       issueOp (bankWork s2 c.job c.dst (is.length * ring.slot) (bankOps (is.length * ring.slot))) x 0 0)) ∧
  (∀ (s : State) (x : CtxId) (c : Ctx) (seed : Bytes),
     s.ctx? x = some c →
     standsAt s x c 0x41 = true →
     lookup s.handles c.imm = some seed →
     cultureOn s = true →
     exec (.expand x) s = .next (
       let n := (freeValue s).1.toNat % 2 ^ 32
       let s1 := (freeValue s).2
       let s2 := { s1 with handles := putN s1.handles rindStream (seed ++ toLe 1 c.mod) }
       issueOp (pmu (count s2 CUL_BYTES.COUNT 0 0 (64 * n)) 0x11 (some c.job) n) x 0 0)) ∧
  (∀ (s : State) (x : CtxId) (c : Ctx) (d : Bytes) (pt : Nat × Nat),
     s.ctx? x = some c →
     standsAt s x c 0x50 = true →
     lookup s.handles (c.imm % 2 ^ 16) = some d →
     tollOn s = true →
     rangeFault s c [(c.sa, 97)] = none →
     firstPoison s c.job [(c.sa, 97)] = none →
     decodePt (jobRead s c.job c.sa 97) = some pt →
     exec (.ecdh x) s = .next (
       issueOp (countSmul { s with handles := putN s.handles (c.imm / 2 ^ 16) (ecdhX (beNat d) pt) } c.job) x 0 0)) ∧
  (∀ (s : State) (x : CtxId) (c : Ctx) (info : Bytes) (n : Nat) (z : Bytes),
     s.ctx? x = some c →
     standsAt s x c 0x51 = true →
     derivation ((Config.infoCode (c.mod % 16)).val) = (info, n) →
     lookup s.handles (c.imm % 2 ^ 16) = some z →
     tollOn s = true →
     rangeFault s c [(c.sa, n)] = none →
     firstPoison s c.job [(c.sa, n)] = none →
     exec (.hkdf x) s = .next (
       let k := hkdfExpand (hkdfExtract (jobRead s c.job c.sa n) z) info 32
       issueOp (count { s with handles := putN s.handles (c.imm / 2 ^ 16) k } TOL_HKDF_CNT.COUNT 0 0 1) x 0 0)) ∧
  (∀ (s : State) (x : CtxId) (c : Ctx) (y : Round) (k : Nat) (e : Secret),
     s.ctx? x = some c →
     standsAt s x c 0x52 = true →
     secretAt s c.job c.sa = some (y, k, e) →
     e.done = false →
     tollOn s = true →
     secretDue s y e = true →
     (y.cohort k).reason = 0 →
     begun y 7 = true →
     exec (.recon x) s = .next (
       issueOp (reconstruct s c.job y.number k y e) x 0 0)) ∧
  (∀ (s : State) (x : CtxId) (c : Ctx) (t : State),
     s.ctx? x = some c →
     standsAt s x c 0x53 = true →
     tollOn s = true →
     rangeFault s c [(c.sa, 48), (c.dst, 96)] = none →
     firstPoison s c.job [(c.sa, 48)] = none →
     takeSlot s c.imm c.job 2 2 = (.ok, t) →
     exec (.sign x) s = .next (
       let sig := ecdsaSign (slotNumber t c.imm) (BitVec.ofNat 384 (beNat (jobRead t c.job c.sa 48)))
       issueOp (countSmul (jobStore t c.job c.dst sig) c.job) x 0 0)) ∧
  (∀ (s : State) (x : CtxId) (c : Ctx) (t : State) (st : SStat),
     s.ctx? x = some c →
     standsAt s x c 0x53 = true →
     tollOn s = true →
     rangeFault s c [(c.sa, 48), (c.dst, 96)] = none →
     firstPoison s c.job [(c.sa, 48)] = none →
     takeSlot s c.imm c.job 2 2 = (st, t) →
     st ≠ .ok →
     exec (.sign x) s = .next (
       issueOp t x 6 st.code)) ∧
  (∀ (s : State) (x : CtxId) (c : Ctx),
     s.ctx? x = some c →
     standsAt s x c 0x54 = true →
     tollOn s = true →
     entropyStarting s = false →
     rangeFault s c [(c.dst, 97)] = none →
     entropyReady s = true →
     exec (.keyGen x) s = .next (
       let d := (drawScalar (served s 1)).1
       let t := (drawScalar (served s 1)).2
       issueOp (countSmul (jobStore { t with handles := putN t.handles c.imm (toBe 48 d) } c.job c.dst (publicOf d)) c.job) x 0 0)) ∧
  (∀ (s : State) (x : CtxId) (c : Ctx),
     s.ctx? x = some c →
     standsAt s x c 0x54 = true →
     tollOn s = true →
     entropyStarting s = false →
     rangeFault s c [(c.dst, 97)] = none →
     entropyReady s = false →
     exec (.keyGen x) s = .next (
       issueOp s x 6 1))

/-- The instructions of Skim's sequencer, FINISH and MASTER (R280, R285, R286, R287, R288, R291, R297, R385, R386). With good operands in reach and no poison: MAXI and MINI store the record of the largest or smallest element, TOPK and BOTK the records of the first IMM elements by rank in index order, each counting the elements read by its passes, and setting condition 8 and NONFINITE_EV where a selected element is non-finite; FARTHEST stores the cohorts that the screening procedure flags on the sketches given. FINISH of window IMM, the served round's next, runs its release path after it is issued once Finish is due, waits before that, and is malformed of a window that is finished or that the model has not (assumption 95, the model's choice); MASTER forms the candidate of a round whose windows are all finished: the base plus the staged release. -/
def Obligations.SelectionAndReleaseInstructionsRun : Prop :=
  (∀ (s : State) (x : CtxId) (c : Ctx),
     s.ctx? x = some c →
     standsAt s x c 0x70 = true →
     on s SKM_CTRL.ENABLE = true →
     1 ≤ c.sb →
     c.sb ≤ 2 ^ 32 →
     rangeFault s c [(c.sa, c.sb * skimBytes (c.mod % 4)), (c.dst, 16 * 1)] = none →
     firstPoison s c.job [(c.sa, c.sb * skimBytes (c.mod % 4))] = none →
     exec (.maxi x) s = .next (
       let t := c.mod % 4
       let out := skimPick t false 1 (skimElems s c.job t c.sa c.sb)
       let s1 := pmu (count s SKM_ELEM_CNT.COUNT 0 0 (c.sb * skimPasses t false)) 0x35 (some c.job) ((c.sb * skimBytes t + 63) / 64 * skimPasses t false)
       let s2 := jobStore s1 c.job c.dst (List.flatten (out.map (skimRecord t)))
       let s3 := if out.any (fun e => skimNonfinite t e.2) then setCond (ev s2 SKM_EVENT.NONFINITE_EV) x 8 else s2
       issueOp s3 x 0 0)) ∧
  (∀ (s : State) (x : CtxId) (c : Ctx),
     s.ctx? x = some c →
     standsAt s x c 0x71 = true →
     on s SKM_CTRL.ENABLE = true →
     1 ≤ c.sb →
     c.sb ≤ 2 ^ 32 →
     rangeFault s c [(c.sa, c.sb * skimBytes (c.mod % 4)), (c.dst, 16 * 1)] = none →
     firstPoison s c.job [(c.sa, c.sb * skimBytes (c.mod % 4))] = none →
     exec (.mini x) s = .next (
       let t := c.mod % 4
       let out := skimPick t true 1 (skimElems s c.job t c.sa c.sb)
       let s1 := pmu (count s SKM_ELEM_CNT.COUNT 0 0 (c.sb * skimPasses t false)) 0x35 (some c.job) ((c.sb * skimBytes t + 63) / 64 * skimPasses t false)
       let s2 := jobStore s1 c.job c.dst (List.flatten (out.map (skimRecord t)))
       let s3 := if out.any (fun e => skimNonfinite t e.2) then setCond (ev s2 SKM_EVENT.NONFINITE_EV) x 8 else s2
       issueOp s3 x 0 0)) ∧
  (∀ (s : State) (x : CtxId) (c : Ctx),
     s.ctx? x = some c →
     standsAt s x c 0x72 = true →
     on s SKM_CTRL.ENABLE = true →
     1 ≤ c.sb →
     c.sb ≤ 2 ^ 32 →
     1 ≤ c.imm →
     c.imm ≤ 2 ^ 24 →
     c.imm ≤ c.sb →
     rangeFault s c [(c.sa, c.sb * skimBytes (c.mod % 4)), (c.dst, 16 * c.imm)] = none →
     firstPoison s c.job [(c.sa, c.sb * skimBytes (c.mod % 4))] = none →
     exec (.topk x) s = .next (
       let t := c.mod % 4
       let out := skimPick t false c.imm (skimElems s c.job t c.sa c.sb)
       let s1 := pmu (count s SKM_ELEM_CNT.COUNT 0 0 (c.sb * skimPasses t true)) 0x35 (some c.job) ((c.sb * skimBytes t + 63) / 64 * skimPasses t true)
       let s2 := jobStore s1 c.job c.dst (List.flatten (out.map (skimRecord t)))
       let s3 := if out.any (fun e => skimNonfinite t e.2) then setCond (ev s2 SKM_EVENT.NONFINITE_EV) x 8 else s2
       issueOp s3 x 0 0)) ∧
  (∀ (s : State) (x : CtxId) (c : Ctx),
     s.ctx? x = some c →
     standsAt s x c 0x73 = true →
     on s SKM_CTRL.ENABLE = true →
     1 ≤ c.sb →
     c.sb ≤ 2 ^ 32 →
     1 ≤ c.imm →
     c.imm ≤ 2 ^ 24 →
     c.imm ≤ c.sb →
     rangeFault s c [(c.sa, c.sb * skimBytes (c.mod % 4)), (c.dst, 16 * c.imm)] = none →
     firstPoison s c.job [(c.sa, c.sb * skimBytes (c.mod % 4))] = none →
     exec (.botk x) s = .next (
       let t := c.mod % 4
       let out := skimPick t true c.imm (skimElems s c.job t c.sa c.sb)
       let s1 := pmu (count s SKM_ELEM_CNT.COUNT 0 0 (c.sb * skimPasses t true)) 0x35 (some c.job) ((c.sb * skimBytes t + 63) / 64 * skimPasses t true)
       let s2 := jobStore s1 c.job c.dst (List.flatten (out.map (skimRecord t)))
       let s3 := if out.any (fun e => skimNonfinite t e.2) then setCond (ev s2 SKM_EVENT.NONFINITE_EV) x 8 else s2
       issueOp s3 x 0 0)) ∧
  (∀ (s : State) (x : CtxId) (c : Ctx) (y : Round),
     s.ctx? x = some c →
     standsAt s x c 0x74 = true →
     servedRound s c = some y →
     on s SKM_CTRL.ENABLE = true →
     (c.sb == (screenSet s c.job y).length * polDirs (s.job c.job).policy) = true →
     rangeFault s c [(c.sa, 8 * ((screenSet s c.job y).length * polDirs (s.job c.job).policy)), (c.dst, 16 * polMaxExcl (s.job c.job).policy)] = none →
     firstPoison s c.job [(c.sa, 8 * ((screenSet s c.job y).length * polDirs (s.job c.job).policy))] = none →
     exec (.farthest x) s = .next (
       let pol := (s.job c.job).policy
       let cs := screenSet s c.job y
       let sk := cs.zipIdx.map (fun e => (e.1, (List.range (polDirs pol)).map (fun d => (jobWord s c.job (c.sa + 8 * (e.2 * polDirs pol + d))).toInt)))
       let n := cs.length * polDirs pol
       let t := pmu (count s SKM_ELEM_CNT.COUNT 0 0 n) 0x35 (some c.job) ((8 * n + 63) / 64)
       issueOp (jobStore t c.job c.dst (List.flatten ((flagged pol sk).map (fun f => toLe 8 f ++ toLe 4 f ++ toLe 4 0)))) x 0 0)) ∧
  (∀ (s : State) (x : CtxId) (c : Ctx) (y : Round),
     s.ctx? x = some c →
     standsAt s x c 0x61 = true →
     servedRound s c = some y →
     finishDue s c.job y = true →
     c.imm = y.windowNo →
     c.imm < windowCount s c.job y.plan →
     liveCohorts y ≠ [] →
     firstPoison (issueOp s x 0 0) c.job (finishReads (issueOp s x 0 0) c.job y) = none →
     exec (.finish x) s = .next (
       finishRound (issueOp s x 0 0) c.job y.number y)) ∧
  (∀ (s : State) (x : CtxId) (c : Ctx) (y : Round),
     s.ctx? x = some c →
     standsAt s x c 0x61 = true →
     servedRound s c = some y →
     finishDue s c.job y = false →
     y.windowNo ≤ c.imm →
     c.imm < windowCount s c.job y.plan →
     exec (.finish x) s = .next (
       s)) ∧
  (∀ (s : State) (x : CtxId) (c : Ctx) (y : Round),
     s.ctx? x = some c →
     standsAt s x c 0x61 = true →
     servedRound s c = some y →
     (c.imm < y.windowNo ∨ windowCount s c.job y.plan ≤ c.imm) →
     exec (.finish x) s = .next (
       faultAt s x c .operandMalformed)) ∧
  (∀ (s : State) (x : CtxId) (c : Ctx) (y : Round),
     s.ctx? x = some c →
     standsAt s x c 0x62 = true →
     servedRound s c = some y →
     staged s c.job y = true →
     on s WRP_CTRL.ENABLE = true →
     exec (.master x) s = .next (
       issueOp (s.modRound c.job y.number (fun z => { z with candidate := candidateOf (s.job c.job) z })) x 0 0))

/-- The instructions of Rind's sequencer on handles and on a sealed round (R326, R327, R328, R330, R332, R333, R338, R340, R346, R349, R387, R388). With Rind enabled, unlocked handles in reach, laid-out destinations, unpoisoned sources of one form and results within budget: CT_ADD and CT_SUB store the sum or difference with the joined budget, CT_MULC the multiple with its budget lowered, CT_PADD the sum with the scaled plaintext, MODSW the ciphertext at the lower level, KSW what the key-table entry's switch gives; each with no double residue failure. An operation's handles are locked until it completes, and CT_ADD or CT_SUB that meets a lock waits in its place. REFRESH locks its source and destination and joins the queue. EXPORT exports the cohort to every present group, writes the groups' regions, and completes with the first status other than OK; DECODE decodes the cohort once enough groups are complete, and one that fails is absent. -/
def Obligations.RindInstructionsRun : Prop :=
  (∀ (s t : State) (x : CtxId) (c : Ctx) (y z : Machine.PSet) (a b : Ct) (badRuns : Fin 3),
     s.ctx? x = some c →
     standsAt s x c 0x80 = true →
     rindOn s = true →
     (c.fromHost.isSome && ([c.sa, c.sb] ++ [c.dst]).any (fun a => inReach s c.job a 64 && roundOwned s c.job a)) = false →
     ([c.sa, c.sb] ++ [c.dst]).all (fun a => inReach s c.job a 64) = true →
     (true && [c.dst].all (fun d => layoutOk (ctHead s c.job d) (((psetOf (chSet (ctHead s c.job ([c.sa, c.sb].headD 0)))).map (·.n)).getD 0) (chLevel (ctHead s c.job ([c.sa, c.sb].headD 0))))) = true →
     rangeFault s c (([] : List (Nat × Nat)) ++ [c.sa, c.sb].flatMap (srcRanges s c.job) ++ [c.dst].flatMap (fun d => [(d, 64), ctData s c.job d (((psetOf (chSet (ctHead s c.job ([c.sa, c.sb].headD 0)))).map (·.n)).getD 0) (chLevel (ctHead s c.job ([c.sa, c.sb].headD 0)))])) = none →
     lockBlocked s x c.job ([c.sa, c.sb] ++ [c.dst]) = false →
     firstPoison s c.job (([] : List (Nat × Nat)) ++ [c.sa, c.sb].flatMap (srcRanges s c.job)) = none →
     [c.sa, c.sb].any (fun a => chPoison (ctHead s c.job a)) = false →
     t = takeLocks s x c.job ([c.sa, c.sb] ++ [c.dst]) →
     loadAll s c.job [c.sa, c.sb] = some [(y, a), (z, b)] →
     sameForm a b = true →
     0 ≤ joinBudget a.budget b.budget →
     badRuns.val ≠ 2 →
     exec (.ctAdd x badRuns) s = .next (
       let f := fun (p q : List (List Nat)) => List.zipWith (fun g (ab : List Nat × List Nat) => polyAdd g ab.1 ab.2) y.gam (p.zip q)
       let r : Ct := { a with budget := joinBudget a.budget b.budget, count := 0, c0 := f a.c0 b.c0, c1 := f a.c1 b.c1 }
       issueOp (storeCt (residueRuns (rindCounts t c.job (.lanes (2 * a.level * y.n)) badRuns) false badRuns) c.job c.dst r) x 0 0)) ∧
  (∀ (s t : State) (x : CtxId) (c : Ctx) (y z : Machine.PSet) (a b : Ct) (badRuns : Fin 3),
     s.ctx? x = some c →
     standsAt s x c 0x81 = true →
     rindOn s = true →
     (c.fromHost.isSome && ([c.sa, c.sb] ++ [c.dst]).any (fun a => inReach s c.job a 64 && roundOwned s c.job a)) = false →
     ([c.sa, c.sb] ++ [c.dst]).all (fun a => inReach s c.job a 64) = true →
     (true && [c.dst].all (fun d => layoutOk (ctHead s c.job d) (((psetOf (chSet (ctHead s c.job ([c.sa, c.sb].headD 0)))).map (·.n)).getD 0) (chLevel (ctHead s c.job ([c.sa, c.sb].headD 0))))) = true →
     rangeFault s c (([] : List (Nat × Nat)) ++ [c.sa, c.sb].flatMap (srcRanges s c.job) ++ [c.dst].flatMap (fun d => [(d, 64), ctData s c.job d (((psetOf (chSet (ctHead s c.job ([c.sa, c.sb].headD 0)))).map (·.n)).getD 0) (chLevel (ctHead s c.job ([c.sa, c.sb].headD 0)))])) = none →
     lockBlocked s x c.job ([c.sa, c.sb] ++ [c.dst]) = false →
     firstPoison s c.job (([] : List (Nat × Nat)) ++ [c.sa, c.sb].flatMap (srcRanges s c.job)) = none →
     [c.sa, c.sb].any (fun a => chPoison (ctHead s c.job a)) = false →
     t = takeLocks s x c.job ([c.sa, c.sb] ++ [c.dst]) →
     loadAll s c.job [c.sa, c.sb] = some [(y, a), (z, b)] →
     sameForm a b = true →
     0 ≤ joinBudget a.budget b.budget →
     badRuns.val ≠ 2 →
     exec (.ctSub x badRuns) s = .next (
       let f := fun (p q : List (List Nat)) => List.zipWith (fun g (ab : List Nat × List Nat) => polySub g ab.1 ab.2) y.gam (p.zip q)
       let r : Ct := { a with budget := joinBudget a.budget b.budget, count := 0, c0 := f a.c0 b.c0, c1 := f a.c1 b.c1 }
       issueOp (storeCt (residueRuns (rindCounts t c.job (.lanes (2 * a.level * y.n)) badRuns) false badRuns) c.job c.dst r) x 0 0)) ∧
  (∀ (s t : State) (x : CtxId) (c : Ctx) (y : Machine.PSet) (a : Ct) (badRuns : Fin 3),
     s.ctx? x = some c →
     standsAt s x c 0x82 = true →
     rindOn s = true →
     (c.fromHost.isSome && ([c.sa] ++ [c.dst]).any (fun a => inReach s c.job a 64 && roundOwned s c.job a)) = false →
     ([c.sa] ++ [c.dst]).all (fun a => inReach s c.job a 64) = true →
     ((c.imm != 0) && [c.dst].all (fun d => layoutOk (ctHead s c.job d) (((psetOf (chSet (ctHead s c.job ([c.sa].headD 0)))).map (·.n)).getD 0) (chLevel (ctHead s c.job ([c.sa].headD 0))))) = true →
     rangeFault s c (([] : List (Nat × Nat)) ++ [c.sa].flatMap (srcRanges s c.job) ++ [c.dst].flatMap (fun d => [(d, 64), ctData s c.job d (((psetOf (chSet (ctHead s c.job ([c.sa].headD 0)))).map (·.n)).getD 0) (chLevel (ctHead s c.job ([c.sa].headD 0)))])) = none →
     lockBlocked s x c.job ([c.sa] ++ [c.dst]) = false →
     firstPoison s c.job (([] : List (Nat × Nat)) ++ [c.sa].flatMap (srcRanges s c.job)) = none →
     [c.sa].any (fun a => chPoison (ctHead s c.job a)) = false →
     t = takeLocks s x c.job ([c.sa] ++ [c.dst]) →
     loadAll s c.job [c.sa] = some [(y, a)] →
     0 ≤ a.budget - log2Ceil (signed 32 c.imm).natAbs →
     badRuns.val ≠ 2 →
     exec (.ctMulc x badRuns) s = .next (
       let k := signed 32 c.imm
       let f := fun (p : List (List Nat)) => List.zipWith (fun g l => polyScale g k l) y.gam p
       let r : Ct := { a with budget := a.budget - log2Ceil k.natAbs, count := 0, c0 := f a.c0, c1 := f a.c1 }
       issueOp (storeCt (residueRuns (rindCounts t c.job (.lanes (2 * a.level * y.n)) badRuns) false badRuns) c.job c.dst r) x 0 0)) ∧
  (∀ (s t : State) (x : CtxId) (c : Ctx) (y : Machine.PSet) (a : Ct) (badRuns : Fin 3),
     s.ctx? x = some c →
     standsAt s x c 0x83 = true →
     rindOn s = true →
     (c.fromHost.isSome && ([c.sa] ++ [c.dst]).any (fun a => inReach s c.job a 64 && roundOwned s c.job a)) = false →
     ([c.sa] ++ [c.dst]).all (fun a => inReach s c.job a 64) = true →
     ((!inReach s c.job c.sb (8 * (((psetOf (chSet (ctHead s c.job c.sa))).map (·.n)).getD 0)) || (plainWords s c.job c.sb (((psetOf (chSet (ctHead s c.job c.sa))).map (·.n)).getD 0)).all (fun v => decide (v < 2 ^ chRing (ctHead s c.job c.sa)))) && [c.dst].all (fun d => layoutOk (ctHead s c.job d) (((psetOf (chSet (ctHead s c.job ([c.sa].headD 0)))).map (·.n)).getD 0) (chLevel (ctHead s c.job ([c.sa].headD 0))))) = true →
     rangeFault s c ([(c.sb, 8 * (((psetOf (chSet (ctHead s c.job c.sa))).map (·.n)).getD 0))] ++ [c.sa].flatMap (srcRanges s c.job) ++ [c.dst].flatMap (fun d => [(d, 64), ctData s c.job d (((psetOf (chSet (ctHead s c.job ([c.sa].headD 0)))).map (·.n)).getD 0) (chLevel (ctHead s c.job ([c.sa].headD 0)))])) = none →
     lockBlocked s x c.job ([c.sa] ++ [c.dst]) = false →
     firstPoison s c.job ([(c.sb, 8 * (((psetOf (chSet (ctHead s c.job c.sa))).map (·.n)).getD 0))] ++ [c.sa].flatMap (srcRanges s c.job)) = none →
     [c.sa].any (fun a => chPoison (ctHead s c.job a)) = false →
     t = takeLocks s x c.job ([c.sa] ++ [c.dst]) →
     loadAll s c.job [c.sa] = some [(y, a)] →
     0 ≤ a.budget →
     badRuns.val ≠ 2 →
     exec (.ctPadd x badRuns) s = .next (
       let pt := plainWords s c.job c.sb (((psetOf (chSet (ctHead s c.job c.sa))).map (·.n)).getD 0)
       let r : Ct := { a with count := 0, c0 := List.zipWith (fun g l => polyAdd g l (pt.map (fun v => deltaOf y a.ring a.level * v % g))) y.gam a.c0 }
       issueOp (storeCt (residueRuns (rindCounts t c.job (.lanes (a.level * y.n)) badRuns) false badRuns) c.job c.dst r) x 0 0)) ∧
  (∀ (s t : State) (x : CtxId) (c : Ctx) (y : Machine.PSet) (a : Ct) (badRuns : Fin 3),
     s.ctx? x = some c →
     standsAt s x c 0x84 = true →
     rindOn s = true →
     (c.fromHost.isSome && ([c.sa] ++ [c.dst]).any (fun a => inReach s c.job a 64 && roundOwned s c.job a)) = false →
     ([c.sa] ++ [c.dst]).all (fun a => inReach s c.job a 64) = true →
     ((decide (1 ≤ c.imm) && decide (c.imm < chLevel (ctHead s c.job c.sa))) && [c.dst].all (fun d => layoutOk (ctHead s c.job d) (((psetOf (chSet (ctHead s c.job ([c.sa].headD 0)))).map (·.n)).getD 0) (c.imm))) = true →
     rangeFault s c (([] : List (Nat × Nat)) ++ [c.sa].flatMap (srcRanges s c.job) ++ [c.dst].flatMap (fun d => [(d, 64), ctData s c.job d (((psetOf (chSet (ctHead s c.job ([c.sa].headD 0)))).map (·.n)).getD 0) (c.imm)])) = none →
     lockBlocked s x c.job ([c.sa] ++ [c.dst]) = false →
     firstPoison s c.job (([] : List (Nat × Nat)) ++ [c.sa].flatMap (srcRanges s c.job)) = none →
     [c.sa].any (fun a => chPoison (ctHead s c.job a)) = false →
     t = takeLocks s x c.job ([c.sa] ++ [c.dst]) →
     loadAll s c.job [c.sa] = some [(y, a)] →
     0 ≤ joinBudget a.budget (margin y a.ring c.imm (nuMs y)) →
     badRuns.val ≠ 2 →
     exec (.modsw x badRuns) s = .next (
       let r : Ct := { a with
         level := c.imm
         budget := joinBudget a.budget (margin y a.ring c.imm (nuMs y))
         count := 0
         c0 := modSwitch y a.level (a.level - c.imm) a.c0
         c1 := modSwitch y a.level (a.level - c.imm) a.c1 }
       issueOp (storeCt (residueRuns (rindCounts t c.job .lanesFree badRuns) false badRuns) c.job c.dst r) x 0 0)) ∧
  (∀ (s t : State) (x : CtxId) (c : Ctx) (cs : List (Machine.PSet × Ct)) (rs : List Ct) (ntt : Bool) (f : RindCounts) (badRuns : Fin 3),
     s.ctx? x = some c →
     standsAt s x c 0x85 = true →
     rindOn s = true →
     (c.fromHost.isSome && (((List.range (c.mod % 16 + 1)).map (fun i => leNat (jobRead s c.job (c.sa + 16 * i + 8 * 0) 8))) ++ ((List.range (c.mod % 16 + 1)).map (fun i => leNat (jobRead s c.job (c.sa + 16 * i + 8 * 1) 8)))).any (fun a => inReach s c.job a 64 && roundOwned s c.job a)) = false →
     (((List.range (c.mod % 16 + 1)).map (fun i => leNat (jobRead s c.job (c.sa + 16 * i + 8 * 0) 8))) ++ ((List.range (c.mod % 16 + 1)).map (fun i => leNat (jobRead s c.job (c.sa + 16 * i + 8 * 1) 8)))).all (fun a => inReach s c.job a 64) = true →
     (decide (c.imm < 16) && ((List.range (c.mod % 16 + 1)).map (fun i => leNat (jobRead s c.job (c.sa + 16 * i + 8 * 1) 8))).all (fun d => layoutOk (ctHead s c.job d) (((psetOf (chSet (ctHead s c.job (((List.range (c.mod % 16 + 1)).map (fun i => leNat (jobRead s c.job (c.sa + 16 * i + 8 * 0) 8))).headD 0)))).map (·.n)).getD 0) (chLevel (ctHead s c.job (((List.range (c.mod % 16 + 1)).map (fun i => leNat (jobRead s c.job (c.sa + 16 * i + 8 * 0) 8))).headD 0))))) = true →
     rangeFault s c ([(c.sa, 16 * (c.mod % 16 + 1))] ++ ((List.range (c.mod % 16 + 1)).map (fun i => leNat (jobRead s c.job (c.sa + 16 * i + 8 * 0) 8))).flatMap (srcRanges s c.job) ++ ((List.range (c.mod % 16 + 1)).map (fun i => leNat (jobRead s c.job (c.sa + 16 * i + 8 * 1) 8))).flatMap (fun d => [(d, 64), ctData s c.job d (((psetOf (chSet (ctHead s c.job (((List.range (c.mod % 16 + 1)).map (fun i => leNat (jobRead s c.job (c.sa + 16 * i + 8 * 0) 8))).headD 0)))).map (·.n)).getD 0) (chLevel (ctHead s c.job (((List.range (c.mod % 16 + 1)).map (fun i => leNat (jobRead s c.job (c.sa + 16 * i + 8 * 0) 8))).headD 0)))])) = none →
     lockBlocked s x c.job (((List.range (c.mod % 16 + 1)).map (fun i => leNat (jobRead s c.job (c.sa + 16 * i + 8 * 0) 8))) ++ ((List.range (c.mod % 16 + 1)).map (fun i => leNat (jobRead s c.job (c.sa + 16 * i + 8 * 1) 8)))) = false →
     firstPoison s c.job ([(c.sa, 16 * (c.mod % 16 + 1))] ++ ((List.range (c.mod % 16 + 1)).map (fun i => leNat (jobRead s c.job (c.sa + 16 * i + 8 * 0) 8))).flatMap (srcRanges s c.job)) = none →
     ((List.range (c.mod % 16 + 1)).map (fun i => leNat (jobRead s c.job (c.sa + 16 * i + 8 * 0) 8))).any (fun a => chPoison (ctHead s c.job a)) = false →
     t = takeLocks s x c.job (((List.range (c.mod % 16 + 1)).map (fun i => leNat (jobRead s c.job (c.sa + 16 * i + 8 * 0) 8))) ++ ((List.range (c.mod % 16 + 1)).map (fun i => leNat (jobRead s c.job (c.sa + 16 * i + 8 * 1) 8)))) →
     loadAll s c.job ((List.range (c.mod % 16 + 1)).map (fun i => leNat (jobRead s c.job (c.sa + 16 * i + 8 * 0) 8))) = some cs →
     ctSwitch (lookup (s.job c.job).keyTable c.imm) cs = .ok (rs, ntt, f) →
     rs.any (fun r => decide (r.budget < 0)) = false →
     badRuns.val ≠ 2 →
     cultureOn s = true →
     inReach s c.job c.sa (16 * (c.mod % 16 + 1)) = true →
     exec (.ksw x badRuns) s = .next (
       issueOp ((((List.range (c.mod % 16 + 1)).map (fun i => leNat (jobRead s c.job (c.sa + 16 * i + 8 * 1) 8))).zip rs).foldl (fun u e => storeCt u c.job e.1 e.2) (residueRuns (rindCounts t c.job f badRuns) ntt badRuns)) x 0 0)) ∧
  (∀ (s : State) (x : CtxId) (c : Ctx) (n : Nat) (badRuns : Fin 3) (cmd : Instr),
     s.ctx? x = some c →
     ((cmd = .ctAdd x badRuns ∧ n = 0x80) ∨ (cmd = .ctSub x badRuns ∧ n = 0x81)) →
     standsAt s x c n = true →
     rindOn s = true →
     (c.fromHost.isSome && [c.sa, c.sb, c.dst].any (fun a => inReach s c.job a 64 && roundOwned s c.job a)) = false →
     [c.sa, c.sb, c.dst].all (fun a => inReach s c.job a 64) = true →
     [c.dst].all (fun d => layoutOk (ctHead s c.job d) (((psetOf (chSet (ctHead s c.job c.sa))).map (·.n)).getD 0) (chLevel (ctHead s c.job c.sa))) = true →
     rangeFault s c ([c.sa, c.sb].flatMap (srcRanges s c.job) ++ [(c.dst, 64), ctData s c.job c.dst (((psetOf (chSet (ctHead s c.job c.sa))).map (·.n)).getD 0) (chLevel (ctHead s c.job c.sa))]) = none →
     lockBlocked s x c.job [c.sa, c.sb, c.dst] = true →
     exec cmd s = .next (awaitLocks s x c.job [c.sa, c.sb, c.dst])) ∧
  (∀ (s t : State) (x : CtxId) (c : Ctx),
     s.ctx? x = some c →
     standsAt s x c 0x86 = true →
     rindOn s = true →
     (c.fromHost.isSome && [c.sa, c.dst].any (fun a => inReach s c.job a 64 && roundOwned s c.job a)) = false →
     (decide (c.imm < 4) && layoutOk (ctHead s c.job c.dst) (((psetOf (chSet (ctHead s c.job c.sa))).map (·.n)).getD 0) (((psetOf (chSet (ctHead s c.job c.sa))).map (·.gam.length)).getD 0)) = true →
     rangeFault s c (srcRanges s c.job c.sa ++ [(c.dst, 64), ctData s c.job c.dst (((psetOf (chSet (ctHead s c.job c.sa))).map (·.n)).getD 0) (((psetOf (chSet (ctHead s c.job c.sa))).map (·.gam.length)).getD 0)]) = none →
     lockBlocked s x c.job [c.sa, c.dst] = false →
     firstPoison s c.job (srcRanges s c.job c.sa) = none →
     chPoison (ctHead s c.job c.sa) = false →
     (loadCt s c.job c.sa).isNone = false →
     chC1Only (ctHead s c.job c.sa) = false →
     (s.job c.job).refresh.length < 64 →
     t = takeLocks s x c.job [c.sa, c.dst] →
     exec (.refresh x) s = .next (
       let o : RefreshOp := ⟨c.sa, c.dst, c.imm, s.now, ctxNo x, s.opCount, [], none⟩
       let s1 := t.modJob c.job (fun J => { J with refresh := J.refresh ++ [o] })
       issueOp (fset s1 RIND_JOB_REFRESH.QUEUED c.job 0 (s1.job c.job).refresh.length) x 0 0)) ∧
  (∀ (s : State) (x : CtxId) (c : Ctx) (y : Round) (badRuns : Fin 3) (g : Fin 4) (r : RindStat × State),
     s.ctx? x = some c →
     standsAt s x c 0x87 = true →
     servedRound s c = some y →
     rindOn s = true →
     cultureOn s = true →
     pSealed y.plan = true →
     c.imm < pCohortCount y.plan →
     (y.cohort c.imm).reason = 0 →
     y.closed = true →
     ((presentGroups y).foldl (fun acc h =>
    let e := exportCohort acc.2 c.job y.number h c.imm (if h = g then badRuns else 0)
    (if acc.1 = .ok then e.1 else acc.1, if absentIn e.2 c.job y.number h then e.2 else writeExport e.2 c.job y.number h)) (RindStat.ok, s) = r) →
     exec (.exportCt x badRuns g) s = .next (if r.1 = .ok then issueOp r.2 x 0 0 else issueOp (tryDecode r.2 c.job y.number) x 5 r.1.code)) ∧
  (∀ (s : State) (x : CtxId) (c : Ctx) (y : Round) (badRuns : Fin 3) (g : Fin 4) (n : Nat) (r : RindStat × State),
     s.ctx? x = some c →
     standsAt s x c 0x88 = true →
     servedRound s c = some y →
     n = groupsWanted s y →
     pSealed y.plan = true →
     c.imm < pCohortCount y.plan →
     rindOn s = true →
     n ≤ (usableGroups y).length →
     decodeCohort s c.job y.number c.imm (((usableGroups y).take n).map (fun h => (h, if h = g.val then badRuns.val else 0))) = r →
     exec (.decode x badRuns g) s = .next (if r.1 = .ok then issueOp r.2 x 0 0 else issueOp (tryDecode r.2 c.job y.number) x 5 r.1.code))

/-- Descriptor fetch, NOP, JOB_CREATE, JOB_TEARDOWN, JOB_ABORT and the end of an abort's wait (R414, R415, R416, R423, R426, R429, R591, R662). A descriptor fetched from a ring that may be fetched from is queued and owes a completion; one that fails a check completes with its status; a failed fetch passes the slot and posts HOST_ACCESS. A descriptor that may start is taken off its ring: NOP completes with OK (JOB_STATE where its job is aborted); JOB_CREATE completes with JOB_REFUSED and the first missing part, or creates the job; JOB_ABORT completes with OK and aborts the job; JOB_TEARDOWN marks itself started and begins the teardown. Once nothing issued for an aborting job is left, its abort goes through and its teardown goes on. -/
def Obligations.DescriptorsAreFetchedAndStarted : Prop :=
  (∀ (s : State) (f : Func) (d : Bytes),
     mayFetch s f = true →
     fetchStatus s f d = none →
     exec (.descriptorFetch f d) s = .next ((takeSlotOf s f).modRing f (fun g => { g with descs := g.descs ++ [⟨d, false, false⟩] }))) ∧
  (∀ (s : State) (f : Func) (d : Bytes) (st : HStat),
     mayFetch s f = true →
     fetchStatus s f d = some st →
     dBarrier d = false →
     exec (.descriptorFetch f d) s = .next (complete (takeSlotOf s f) f d st (body 0 0 0 0))) ∧
  (∀ (s : State) (f : Func),
     mayFetch s f = true →
     exec (.descriptorFetchFail f) s = .next (post (takeSlotOf s f) f ⟨1, HStat.hostAccess.code, 0, zeros 16, 0, false⟩)) ∧
  (∀ (s : State) (d : Desc),
     startable s pf0 0 = some d →
     exec (.nopDescriptor pf0) s = .next (complete (takeDesc s pf0 d) pf0 d.bytes .ok (body 0 0 0 0))) ∧
  (∀ (s : State) (j : JobId) (d : Desc),
     abortRuns s j = false →
     startable s (vfOf j) 0 = some d →
     exec (.nopDescriptor (vfOf j)) s =
       .next (complete (takeDesc s (vfOf j) d) (vfOf j) d.bytes (if ((takeDesc s (vfOf j) d).job j).aborted then .jobState else .ok) (body 0 0 0 0))) ∧
  (∀ (s : State) (host : Option Bytes) (d : Desc) (t : State) (pol : Bytes),
     (booted s && entropyStarting s) = false →
     startable s pf0 1 = some d →
     takeDesc s pf0 d = t →
     (t.job (dJob d.bytes)).present = false →
     booted t = true →
     fetchBuf t (dJob d.bytes).val (leAt d.bytes 24 8) 128 host = .ok pol →
     jobRefusal t (dJob d.bytes) (leAt d.bytes 17 1 == 1) pol = none →
     exec (.jobCreate host) s = .next (complete (createJob t (dJob d.bytes) (leAt d.bytes 17 1 == 1) pol) pf0 d.bytes .ok (body 0 0 0 0))) ∧
  (∀ (s : State) (host : Option Bytes) (d : Desc) (t : State) (pol : Bytes) (why : Nat),
     (booted s && entropyStarting s) = false →
     startable s pf0 1 = some d →
     takeDesc s pf0 d = t →
     (t.job (dJob d.bytes)).present = false →
     booted t = true →
     fetchBuf t (dJob d.bytes).val (leAt d.bytes 24 8) 128 host = .ok pol →
     jobRefusal t (dJob d.bytes) (leAt d.bytes 17 1 == 1) pol = some why →
     exec (.jobCreate host) s = .next (complete t pf0 d.bytes .jobRefused (body 0x80 why 0 0))) ∧
  (∀ (s : State) (d : Desc),
     startable s pf0 2 = some d →
     (s.job (dJob d.bytes)).present = true →
     teardownDesc s (dJob d.bytes) = none →
     exec .jobTeardown s = .next (beginTeardown (s.modRing pf0 (fun g => { g with descs := g.descs.replace d { d with started := true } })) (dJob d.bytes))) ∧
  (∀ (s : State) (d : Desc),
     startable s pf0 3 = some d →
     (takeDesc s pf0 d).alive (dJob d.bytes) = true →
     exec (.jobAbort pf0) s = .next (abortJob (complete (takeDesc s pf0 d) pf0 d.bytes .ok (body 0 0 0 0)) (dJob d.bytes) 1 (leAt d.bytes 17 1) false)) ∧
  (∀ (s : State) (j : JobId) (d : Desc),
     abortRuns s j = false →
     startable s (vfOf j) 3 = some d →
     (takeDesc s (vfOf j) d).alive j = true →
     exec (.jobAbort (vfOf j)) s = .next (abortJob (complete (takeDesc s (vfOf j) d) (vfOf j) d.bytes .ok (body 0 0 0 0)) j 1 (leAt d.bytes 17 1) false)) ∧
  (∀ (s : State) (j : JobId),
     (s.job j).present = true →
     (s.job j).aborting.isSome = true →
     (s.job j).aborted = false →
     jobBusy s j = false →
     exec (.abortWaitDone j) s = .next (advanceTeardown (completeAbort s j) j))

/-- INVOKE, and the invocation watchdog (R355, R363, R364, R389, R394, R413). An INVOKE that may start on the ring of a live job whose recipe and arguments pass the checks wakes the engine's cluster and starts the recipe in the lowest free context, its registers the arguments and zeros; one that fails a check completes with the status in a result record. A round core invokes a recipe for its round in the same way, with no completion; an invocation of a job that already waits for a context of the sequencer waits behind. An invocation from a descriptor that has run for longer than HIF_RCP_WDOG.MS stops with TIMEOUT, its queued refreshes leaving the queue. -/
def Obligations.InvokeStartsRecipes : Prop :=
  (∀ (s : State) (j : JobId) (d : Desc) (w : Waiting) (q : Nat) (ws : List Word) (t : State) (c : Fin 32),
     abortRuns s j = false →
     startable s (vfOf j) 0x11 = some d →
     (takeDesc s (vfOf j) d).alive j = true →
     w = ⟨j, leAt d.bytes 16 2, (List.range (leAt d.bytes 18 1)).map (fun i => leAt d.bytes (24 + 8 * i) 8), some (descTag d.bytes, descIrq d.bytes), none⟩ →
     invocationCheck (takeDesc s (vfOf j) d) w = .ok (q, ws) →
     wakeCluster (takeDesc s (vfOf j) d) (seqCluster q) = t →
     waitsBehind t w = false →
     invocationCheck t w = .ok (q, ws) →
     freeCtx t (q - 1) j = some c →
     exec (.invoke j none) s = .next { t with contexts := putN t.contexts ((q - 1) * 32 + c.val) (newCtx t w ws) }) ∧
  (∀ (s : State) (j : JobId) (d : Desc) (w : Waiting) (st : RStat),
     abortRuns s j = false →
     startable s (vfOf j) 0x11 = some d →
     (takeDesc s (vfOf j) d).alive j = true →
     w = ⟨j, leAt d.bytes 16 2, (List.range (leAt d.bytes 18 1)).map (fun i => leAt d.bytes (24 + 8 * i) 8), some (descTag d.bytes, descIrq d.bytes), none⟩ →
     invocationCheck (takeDesc s (vfOf j) d) w = .error st →
     exec (.invoke j none) s = .next (postInvoke (takeDesc s (vfOf j) d) j (descTag d.bytes) (descIrq d.bytes) st 0 (resultRecord st 0 0 0 (w.slot * 2 ^ 19) 0))) ∧
  (∀ (s : State) (j : JobId) (i : CoreInvoke) (w : Waiting) (q : Nat) (ws : List Word) (t : State) (c : Fin 32),
     s.alive j = true →
     w = ⟨j, i.slot, i.args, none, some i.round⟩ →
     invocationCheck s w = .ok (q, ws) →
     wakeCluster s (seqCluster q) = t →
     waitsBehind t w = false →
     invocationCheck t w = .ok (q, ws) →
     freeCtx t (q - 1) j = some c →
     exec (.invoke j (some i)) s = .next { t with contexts := putN t.contexts ((q - 1) * 32 + c.val) (newCtx t w ws) }) ∧
  (∀ (s : State) (j : JobId) (i : CoreInvoke) (w : Waiting) (q : Nat) (ws : List Word) (t : State),
     s.alive j = true →
     w = ⟨j, i.slot, i.args, none, some i.round⟩ →
     invocationCheck s w = .ok (q, ws) →
     wakeCluster s (seqCluster q) = t →
     waitsBehind t w = true →
     exec (.invoke j (some i)) s = .next { t with waiting := t.waiting ++ [w] }) ∧
  (∀ (s : State) (x : CtxId) (c : Ctx),
     s.ctx? x = some c →
     c.fromHost.isSome = true →
     get1 s HIF_RCP_WDOG.MS ≠ 0 →
     get1 s HIF_RCP_WDOG.MS * 10 ^ 6 < s.now - c.start →
     c.ending = none →
     s.alive c.job = true →
     exec (.invokeTimeout x) s = .next (dropRefresh (stopWith s x .timeout 0 0 c.pc) c.job (fun o => o.ctx == ctxNo x && o.joined.isNone)))

/-- RECIPE_LOAD, ROUND_PLAN, KEY_LOAD and HELD_LOAD (R36, R296, R336, R357, R361, R417, R418, R420, R421, R426). A RECIPE_LOAD of a live job whose image passes every check stores the recipe and completes with OK; one that fails completes with ENGINE_REPORTED, the first status in DETAIL, and LOAD_FAIL_EV. A ROUND_PLAN whose plan passes every check adds the next round, before its Offer, with the accumulators that do not fit the Vat in HBM, arms its phases and completes with the round number; a refused one completes with ROUND_CONFIG and the first reason, PLACEMENT noting NOFIT too. A KEY_LOAD stores a well-formed image in an entry that is not busy; a busy one completes with KEY_BUSY, which RIND_JOB_LAST records. A HELD_LOAD stores the set, or the one that the import key opens for a confidential job, and completes by its hash. What it adds to Toll's counts (tollDone) is the model's choice, log entry 80. -/
def Obligations.LoadsAndPlansAreTaken : Prop :=
  (∀ (s : State) (host : Option Bytes) (d : Desc) (t : State) (img : Bytes),
     startable s pf0 4 = some d →
     takeDesc s pf0 d = t →
     t.alive (dJob d.bytes) = true →
     fetchBuf t (dJob d.bytes).val (leAt d.bytes 24 8) (leAt d.bytes 32 4) host = .ok img →
     loadStatus t (dJob d.bytes) (leAt d.bytes 18 2) img = .ok →
     exec (.recipeLoad host) s = .next (complete (storeRecipe t (dJob d.bytes) (leAt d.bytes 18 2) img) pf0 d.bytes .ok (body 0 0 0 0))) ∧
  (∀ (s : State) (host : Option Bytes) (d : Desc) (t : State) (img : Bytes) (st : RStat),
     startable s pf0 4 = some d →
     takeDesc s pf0 d = t →
     t.alive (dJob d.bytes) = true →
     fetchBuf t (dJob d.bytes).val (leAt d.bytes 24 8) (leAt d.bytes 32 4) host = .ok img →
     loadStatus t (dJob d.bytes) (leAt d.bytes 18 2) img = st →
     st ≠ .ok →
     exec (.recipeLoad host) s = .next (complete (ev t HIF_RCP_EVENT.LOAD_FAIL_EV) pf0 d.bytes .engine (body 0 st.code 0 0))) ∧
  (∀ (s : State) (j : JobId) (host : Option Bytes) (d : Desc) (t : State) (p : Bytes),
     abortRuns s j = false →
     startable s (vfOf j) 0x10 = some d →
     takeDesc s (vfOf j) d = t →
     t.alive j = true →
     fetchBuf t j.val (leAt d.bytes 16 8) (leAt d.bytes 24 4) host = .ok p →
     leAt d.bytes 24 4 = 256 + pSealedLen p →
     planRefusal t j p = none →
     exec (.roundPlan j host) s = .next (
       let n := (t.job j).nextRound
       let s1 := t.modJob j (fun J => { J with nextRound := n + 1, offerTime := pOfferTime p, rounds := J.rounds ++ [(newRound n (descTag d.bytes) p).placed (cohortsThatFit t j p)] })
       let s2 := fset (fset s1 PLT_JOB_PLACE.NOFIT j 0 0) TIDE_JOB_PHASE.ROUND j 0 n
       let s3 := (armPhases s2 j n p).modRing (vfOf j) (fun g => { g with owed := g.owed + 1 })
       choosePower (complete s3 (vfOf j) d.bytes .ok (body 0 0 n 0)))) ∧
  (∀ (s : State) (j : JobId) (host : Option Bytes) (d : Desc) (t : State) (p : Bytes) (why : Nat),
     abortRuns s j = false →
     startable s (vfOf j) 0x10 = some d →
     takeDesc s (vfOf j) d = t →
     t.alive j = true →
     fetchBuf t j.val (leAt d.bytes 16 8) (leAt d.bytes 24 4) host = .ok p →
     leAt d.bytes 24 4 = 256 + pSealedLen p →
     planRefusal t j p = some why →
     exec (.roundPlan j host) s = .next (
       let s1 := if why = 22 then ev (fset t PLT_JOB_PLACE.NOFIT j 0 1) PLT_EVENT.NOFIT_EV else t
       complete s1 (vfOf j) d.bytes .roundConfig (body 0x80 why 0 0))) ∧
  (∀ (s : State) (j : JobId) (host : Option Bytes) (d : Desc) (t : State) (img : Bytes),
     abortRuns s j = false →
     startable s (vfOf j) 0x12 = some d →
     takeDesc s (vfOf j) d = t →
     t.alive j = true →
     fetchBuf t j.val (leAt d.bytes 24 8) (leAt d.bytes 32 8) host = .ok img →
     keyImageOk img = true →
     keyBusy (t.job j) (leAt d.bytes 16 1) = false →
     exec (.keyLoad j host) s = .next (
       let n := leAt d.bytes 16 1
       let e := slice img 0 56 ++ toLe 8 64 ++ slice img 64 (img.length - 64)
       let s1 := t.modJob j (fun J => { J with keyTable := putN J.keyTable n e })
       let s2 := fset s1 RIND_JOB_KEYS.VALID j 0 (fget s1 RIND_JOB_KEYS.VALID j 0 ||| 2 ^ n)
       complete s2 (vfOf j) d.bytes .ok (body 0 0 0 0))) ∧
  (∀ (s : State) (j : JobId) (host : Option Bytes) (d : Desc) (t : State) (img : Bytes),
     abortRuns s j = false →
     startable s (vfOf j) 0x12 = some d →
     takeDesc s (vfOf j) d = t →
     t.alive j = true →
     fetchBuf t j.val (leAt d.bytes 24 8) (leAt d.bytes 32 8) host = .ok img →
     keyImageOk img = true →
     keyBusy (t.job j) (leAt d.bytes 16 1) = true →
     exec (.keyLoad j host) s = .next (complete (rindStatus t j 1 .keyBusy) (vfOf j) d.bytes .engine (body 5 RindStat.keyBusy.code 0 0))) ∧
  (∀ (s : State) (j : JobId) (host : Option Bytes) (d : Desc) (t : State) (b : Bytes),
     (s.job j).rounds.any (fun x => x.phase == .gate) = false →
     abortRuns s j = false →
     startable s (vfOf j) 0x13 = some d →
     takeDesc s (vfOf j) d = t →
     t.alive j = true →
     fetchBuf t j.val (leAt d.bytes 24 8) (leAt d.bytes 32 8) host = .ok b →
     t.conf j = false →
     exec (.heldLoad j host) s = .next (
       let ok := digestBytes (sha384 b) == polHeldDigest (t.job j).policy
       let s1 := t.modJob j (fun J => { J with held := some b, heldOk := ok })
       complete s1 (vfOf j) d.bytes (if ok then .ok else .heldDigest) (body 0 0 0 0))) ∧
  (∀ (s : State) (j : JobId) (host : Option Bytes) (d : Desc) (t : State) (b : Bytes) (u : State) (pt : Nat × Nat) (set : Bytes),
     (s.job j).rounds.any (fun x => x.phase == .gate) = false →
     abortRuns s j = false →
     startable s (vfOf j) 0x13 = some d →
     takeDesc s (vfOf j) d = t →
     t.alive j = true →
     fetchBuf t j.val (leAt d.bytes 24 8) (leAt d.bytes 32 8) host = .ok b →
     t.conf j = true →
     b.length = 144 + leAt b 8 8 →
     takeSlot t (t.job j).importSlot j 2 1 = (.ok, u) →
     wrapPoint b = some pt →
     unwrapSet (fget (tollDone u (some j) 1 1) LND_JOB_TAG.TAG j 0) (slotNumber (tollDone u (some j) 1 1) (t.job j).importSlot) b pt = some set →
     exec (.heldLoad j host) s = .next (
       let u := tollDone u (some j) 1 1
       let ok := digestBytes (sha384 set) == polHeldDigest (u.job j).policy
       let s1 := u.modJob j (fun J => { J with held := some set, heldOk := ok })
       complete s1 (vfOf j) d.bytes (if ok then .ok else .heldDigest) (body 0 0 0 0)))

/-- Doorbells, ring enables, results in registers and event-log reads (R412, R431, R432, R433, R436, R437, R438, R448, R450). On an enabled ring a tail inside it is stored and any other puts the ring in SQ_ERR; a completion head that frees entries written is stored and any other puts it in CQ_ERR. Enabling a disabled ring whose function may enable clears its pointers and its error, and a completion ring then posts what it held, in order; clearing ENABLE disables it. A read of RES_STAT takes the oldest untaken result and shows its digest, or repeats the last one as stale, or reads none. A read of EVLOG_DATA removes the next word; an empty log reads 0 and notes UNDERRUN. FLUSH drops the rest of a record partly read, FLUSH_ALL every word. -/
def Obligations.RingsAndLogsAnswerTheHost : Prop :=
  (∀ (s : State) (f : Func) (v : BitVec 32),
     fget s HIF_VF_SQ_CFG.ENABLE f 0 ≠ 0 →
     v.toNat % 65536 < sqSize s f →
     exec (.sqTailDoorbell f v) s = .next (fset s HIF_VF_SQ_TAIL.TAIL f 0 (v.toNat % 65536))) ∧
  (∀ (s : State) (f : Func) (v : BitVec 32),
     fget s HIF_VF_SQ_CFG.ENABLE f 0 ≠ 0 →
     sqSize s f ≤ v.toNat % 65536 →
     exec (.sqTailDoorbell f v) s = .next (raise (ev (fset s HIF_VF_STATUS.SQ_ERR f 0 1) HIF_EVENT.SQ_ERR_EV) f 3)) ∧
  (∀ (s : State) (f : Func) (v : BitVec 32),
     fget s HIF_VF_CQ_CFG.ENABLE f 0 ≠ 0 →
     v.toNat % 65536 < cqSize s f →
     (v.toNat % 65536 + cqSize s f - fget s HIF_VF_CQ_HEAD.HEAD f 0) % cqSize s f ≤ cqUsed s f →
     exec (.cqHeadDoorbell f v) s = .next (fset s HIF_VF_CQ_HEAD.HEAD f 0 (v.toNat % 65536))) ∧
  (∀ (s : State) (f : Func) (v : BitVec 32),
     fget s HIF_VF_CQ_CFG.ENABLE f 0 ≠ 0 →
     (cqSize s f ≤ v.toNat % 65536 ∨ cqUsed s f < (v.toNat % 65536 + cqSize s f - fget s HIF_VF_CQ_HEAD.HEAD f 0) % cqSize s f) →
     exec (.cqHeadDoorbell f v) s = .next (raise (ev (fset s HIF_VF_STATUS.CQ_ERR f 0 1) HIF_EVENT.CQ_ERR_EV) f 3)) ∧
  (∀ (s : State) (f : Func) (v : BitVec 32),
     ((jobOf f).any (fun j => s.conf j) && bits v.toNat 17 16 == 1) = false →
     bit v.toNat 31 = true →
     fget s HIF_VF_SQ_CFG.ENABLE f 0 = 0 →
     mayEnable (storeSqCfg s f v.toNat) f = true →
     exec (.sqEnable f v) s = .next (
       let t := fset (storeSqCfg s f v.toNat) HIF_VF_SQ_CFG.ENABLE f 0 1
       fset (fset (fset t HIF_VF_SQ_HEAD.HEAD f 0 0) HIF_VF_SQ_TAIL.TAIL f 0 0) HIF_VF_STATUS.SQ_ERR f 0 0)) ∧
  (∀ (s : State) (f : Func) (v : BitVec 32),
     bit v.toNat 31 = false →
     exec (.sqEnable f v) s = .next (fset (storeSqCfg s f v.toNat) HIF_VF_SQ_CFG.ENABLE f 0 0)) ∧
  (∀ (s : State) (f : Func) (v : BitVec 32),
     bit v.toNat 31 = true →
     fget s HIF_VF_CQ_CFG.ENABLE f 0 = 0 →
     mayEnable (storeField f 0 v.toNat s HIF_VF_CQ_CFG.LOG2_SIZE) f = true →
     exec (.cqEnable f v) s = .next (
       let t := fset (storeField f 0 v.toNat s HIF_VF_CQ_CFG.LOG2_SIZE) HIF_VF_CQ_CFG.ENABLE f 0 1
       let u := fset (fset (fset (fset t HIF_VF_CQ_HEAD.HEAD f 0 0) HIF_VF_CQ_TAIL.TAIL f 0 0) HIF_VF_CQ_TAIL.PHASE f 0 1) HIF_VF_STATUS.CQ_ERR f 0 0
       (u.ring f).held.foldl (fun w d => post w f d) (u.modRing f (fun r => { r with held := [], cseq := 1 })))) ∧
  (∀ (s : State) (f : Func) (v : BitVec 32),
     bit v.toNat 31 = false →
     exec (.cqEnable f v) s = .next (fset (storeField f 0 v.toNat s HIF_VF_CQ_CFG.LOG2_SIZE) HIF_VF_CQ_CFG.ENABLE f 0 0)) ∧
  (∀ (s : State) (j : JobId) (r : Nat × Nat × Nat × Bytes) (rs : List (Nat × Nat × Nat × Bytes)),
     (s.ring (vfOf j)).results = r :: rs →
     exec (.resStatRead j) s = .next (emit (setGroup (s.modRing (vfOf j) (fun g => { g with results := rs, taken := some r })) HIF_VF_RES_DIGEST.DIGEST (vfOf j) r.2.2.2 6)
       (.readValue (vfOf j) 0x48 (resultWord r)))) ∧
  (∀ (s : State) (j : JobId) (r : Nat × Nat × Nat × Bytes),
     (s.ring (vfOf j)).results = [] →
     (s.ring (vfOf j)).taken = some r →
     exec (.resStatRead j) s = .next (emit s (.readValue (vfOf j) 0x48 (2 ^ 62 + resultWord r)))) ∧
  (∀ (s : State) (j : JobId),
     (s.ring (vfOf j)).results = [] →
     (s.ring (vfOf j)).taken = none →
     exec (.resStatRead j) s = .next (emit s (.readValue (vfOf j) 0x48 (2 ^ 63)))) ∧
  (∀ (s : State) (f : Func) (w : Nat) (ws : List Nat),
     s.log f = w :: ws →
     exec (.evlogDataRead f) s = .next (emit (s.setLog f ws) (.readValue f 0x88 w))) ∧
  (∀ (s : State) (f : Func),
     s.log f = [] →
     exec (.evlogDataRead f) s = .next (emit (fset s HIF_VF_EVLOG_STAT.UNDERRUN f 0 1) (.readValue f 0x88 0))) ∧
  (∀ (s : State) (f : Func) (v : BitVec 32),
     bit v.toNat 1 = false →
     bit v.toNat 0 = true →
     exec (.evlogFlush f v) s = .next (s.setLog f ((s.log f).drop ((s.log f).length % 4)))) ∧
  (∀ (s : State) (f : Func) (v : BitVec 32),
     bit v.toNat 1 = true →
     exec (.evlogFlushAll f v) s = .next (s.setLog f []))

/-- Ferry blocks and notices at the host's ends, and the Hail handshake (R440, R442, R443, R444, R445, R446, R595). A block send of 1 to 64 bytes into an empty channel stores the block with the sender's stamp, into a full one sets BUSY; a notice is ORed into the channel's word. A take empties the held block and delivers the oldest send that firmware holds; a notice read answers the word and clears it; a receiver reset discards everything and makes a Hail session due. Firmware opens a due session; an acknowledgement that echoes the session and version 4 completes it, any other draws a HAIL_NAK and HAIL_FAIL_EV; firmware takes and drops other blocks and every notice. -/
def Obligations.FerryCarriesBlocksAndHail : Prop :=
  (∀ (s : State) (e : FerryEnd) (v : Word),
     bit v.toNat 8 = false →
     v.toNat % 128 ≠ 0 →
     v.toNat % 128 ≤ 64 →
     (s.chan (txChan e)).block.isSome = false →
     exec (.ferryBlockSend e v) s = .next (s.modChan (txChan e) (fun c => { c with block := some (txBlock s e (v.toNat % 128), endStamp e) }))) ∧
  (∀ (s : State) (e : FerryEnd) (v : Word),
     bit v.toNat 8 = false →
     v.toNat % 128 ≠ 0 →
     v.toNat % 128 ≤ 64 →
     (s.chan (txChan e)).block.isSome = true →
     exec (.ferryBlockSend e v) s = .next (fset s FERRY_TX_STAT.BUSY e 0 1)) ∧
  (∀ (s : State) (e : FerryEnd) (v : Word),
     bit v.toNat 8 = true →
     exec (.ferryNoticeSend e v) s = .next (s.modChan (txChan e) (fun c => { c with notice := c.notice ||| v.toNat / 2 ^ 32, noticeBy := endStamp e }))) ∧
  (∀ (s : State) (e : FerryEnd) (v : BitVec 32),
     bit v.toNat 0 = true →
     (s.chan (rxChan e)).block.isNone = false →
     ((s.modChan (rxChan e) (fun c => { c with block := none })).chan (rxChan e)).waiting = [] →
     exec (.ferryTake e v) s = .next (s.modChan (rxChan e) (fun c => { c with block := none }))) ∧
  (∀ (s : State) (e : FerryEnd) (v : BitVec 32) (b : Bytes) (bs : List Bytes),
     bit v.toNat 0 = true →
     (s.chan (rxChan e)).block.isNone = false →
     ((s.modChan (rxChan e) (fun c => { c with block := none })).chan (rxChan e)).waiting = b :: bs →
     exec (.ferryTake e v) s = .next (
       let t := s.modChan (rxChan e) (fun c => { c with block := none })
       coreSend (t.modChan (rxChan e) (fun c => { c with waiting := bs })) e b)) ∧
  (∀ (s : State) (e : FerryEnd),
     exec (.ferryNoticeRead e) s = .next (emit (s.modChan (rxChan e) (fun c => { c with notice := 0 })) (.readValue (endFunc e) (endBase e + 0xD0) (s.chan (rxChan e)).notice))) ∧
  (∀ (s : State) (e : FerryEnd) (v : BitVec 32),
     bit v.toNat 0 = true →
     exec (.ferryRxReset e v) s = .next (dueHail (s.modChan (rxChan e) (fun c => { c with block := none, notice := 0, waiting := [] })) (endFunc e))) ∧
  (∀ (s : State) (f : Func),
     booted s = true →
     s.hailDue.contains f.val = true →
     exec (.hailSend f) s = .next (
       let t := fset s HIF_VF_STATUS.HAIL_DONE f 0 0
       let u := { t with hailDue := t.hailDue.erase f.val, hailSession := putN t.hailSession f.val s.hailCount, hailCount := (s.hailCount + 1) % 2 ^ 32 }
       coreSend u (hailEnd f) (hailMsg 1 s.hailCount u.fwVersion 6))) ∧
  (∀ (s : State) (f : Func) (b : Bytes) (w : Nat),
     (s.chan (txChan (hailEnd f))).block = some (b, w) →
     booted s = true →
     isAck b = true →
     (lookup s.hailSession f.val = some (leAt b 4 4) ∧ leAt b 1 1 = 4) →
     exec (.hailAck f) s = .next (
       let t := s.modChan (txChan (hailEnd f)) (fun c => { c with block := none })
       endOutage (fset (hailReply t f 4 (leAt b 4 4)) HIF_VF_STATUS.HAIL_DONE f 0 1))) ∧
  (∀ (s : State) (f : Func) (b : Bytes) (w : Nat),
     (s.chan (txChan (hailEnd f))).block = some (b, w) →
     booted s = true →
     isAck b = true →
     (¬ (lookup s.hailSession f.val = some (leAt b 4 4) ∧ leAt b 1 1 = 4)) →
     exec (.hailAck f) s = .next (
       let t := s.modChan (txChan (hailEnd f)) (fun c => { c with block := none })
       ev (hailReply t f 3 (leAt b 4 4)) HIF_EVENT.HAIL_FAIL_EV)) ∧
  (∀ (s : State) (ch : Fin 64) (b : Bytes) (w : Nat),
     booted s = true →
     coreReceives ch = true →
     (s.chan ch).block = some (b, w) →
     isAck b = false →
     exec (.firmwareBlockTake ch) s = .next (s.modChan ch (fun c => { c with block := none, notice := 0 }))) ∧
  (∀ (s : State),
     booted s = true →
     exec (.firmwareBlockTake 34) s = .next (s.modChan 34 (fun c => { c with block := none, notice := 0 })))

/-- Link training, the HDM window, trust, and function-level resets (R399, R401, R405, R406, R410, R560, R632, R633). Training with 16 or more lanes brings the link up at width 16, with 8 to 15 at width 8; with fewer it goes down and the attempt is counted. A read of the window inside some region answers the line's bytes, a write stores into the line; outside every region a read answers zeros with poison, a write is dropped, and both are counted. IDE's stop ends every lock and aborts every confidential job; an unlocked VF aborts its own. A lock request locks the VF once. A VF's reset disables its rings, empties its log, starts its job's abort, resets its channels and its page, and makes Hail due; PF0's resets the admin ring and its own registers. -/
def Obligations.TheLinkAndItsResets : Prop :=
  (∀ (s : State) (lanes : Nat),
     8 ≤ lanes →
     exec (.linkTrain lanes) s = .next (set1 (set1 (set1 s HIF_LINK.UP 1) HIF_LINK.WIDTH (if lanes < 16 then 8 else 16)) HIF_LINK.SPEED 0x40)) ∧
  (∀ (s : State) (lanes : Nat),
     lanes < 8 →
     exec (.linkTrain lanes) s = .next (countSat (set1 (set1 (set1 s HIF_LINK.UP 0) HIF_LINK.WIDTH 0) HIF_LINK.SPEED 0) HIF_LINK.TRAIN_FAILS 0 0 1)) ∧
  (∀ (s : State) (a : Nat),
     inSomeRegion s a = true →
     exec (.hdmAccess a none) s = .next (emit s (.hdm (memRead s.hdm (a / 64 * 64) 64) false))) ∧
  (∀ (s : State) (a : Nat) (d : Bytes),
     inSomeRegion s a = true →
     exec (.hdmAccess a (some d)) s = .next ({ s with hdm := memWrite s.hdm a (d.take (64 - a % 64)) })) ∧
  (∀ (s : State) (a : Nat),
     inSomeRegion s a = false →
     exec (.hdmAccess a none) s = .next (emit (ev (count s HIF_HDM_ERR.COUNT 0 0 1) HIF_EVENT.HDM_EV) (.hdm (zeros 64) true))) ∧
  (∀ (s : State) (a : Nat) (d : Bytes),
     inSomeRegion s a = false →
     exec (.hdmAccess a (some d)) s = .next (ev (count s HIF_HDM_ERR.COUNT 0 0 1) HIF_EVENT.HDM_EV)) ∧
  (∀ (s : State),
     s.ideOn = true →
     exec (.trustLoss none) s = .next (
       let t := ev { set1 s HIF_LINK.IDE_ACTIVE 0 with ideOn := false, tspLocked := [] } HIF_EVENT.IDE_EV
       (List.finRange 16).foldl (fun (u : State) (j : JobId) => if u.conf j ∧ true then abortJob u j 4 0 false else u) t)) ∧
  (∀ (s : State) (k : JobId),
     s.tspLocked.contains k.val = true →
     exec (.trustLoss (some k)) s = .next (
       let t := ev { s with tspLocked := s.tspLocked.erase k.val } HIF_EVENT.IDE_EV
       (List.finRange 16).foldl (fun (u : State) (j : JobId) => if u.conf j ∧ (j == k) then abortJob u j 4 0 false else u) t)) ∧
  (∀ (s : State) (j : JobId),
     exec (.tspLock j) s = .next { s with tspLocked := if s.tspLocked.contains j.val then s.tspLocked else s.tspLocked ++ [j.val] }) ∧
  (∀ (s : State) (j : JobId),
     exec (.vfFlr j) s = .next (
       let f := vfOf j
       let t := emptyLog (muteInvokes (dropRing (disableRings s f) f) j) f
       let u := if t.tspLocked.contains j.val then ev (tspUnlock t j) HIF_EVENT.IDE_EV else t
       let v := (resetReceiver (flrAbort u j) (hailEnd f)).modChan (txChan (hailEnd f)) (fun c => { c with block := none, notice := 0 })
       dueHail (dropResults (resetPage v j) f) f)) ∧
  (∀ (s : State),
     exec .pf0Flr s = .next (
       let t := resetReceiver (resetReceiver (muteAdmin (disableRings s pf0)) 16) 17
       dueHail (resetRegs t (fun k => k.major == 16 && (k.reg.place.vfOff.map (fun o => decide (o < 0x100))).getD false)) pf0))

/-- Requester work, its responses and timeouts, queue-pair states and contexts (R457, R459, R460, R461, R462, R472, R476, R477, R478, R479, R480, R481). Work that a queue pair in RTS may issue joins its list (noticePosted: a STREAM notice of a PEER queue pair takes the job's next check sequence as its CHECK_SEQ, a RETRACT raises RETRACT_EV, any other work is posted as it is), the list sends as far as it may, and broken waits are resolved. An acknowledgement completes what it covers; a PSN sequence error sends the outstanding requests again; any other negative acknowledgement ends the oldest with its status and the queue pair. After a timeout with retries left everything outstanding is sent again, with none left the oldest ends with RETRY_EXCEEDED. STATE moves to the next state, to ERROR with ADMIN or to RESET; the other fields are stored in RESET. A context is loaded while fewer than 65,536 are on the die, else in place of an evictable one. -/
def Obligations.RequestersAndTheirQueuePairs : Prop :=
  (∀ (s : State) (q : Qpn) (w : WorkReq),
     qpState s q = 3 →
     fget s RDMA_QP_CFG.TYPE q 0 = 0 →
     classSends (fget s RDMA_QP_CFG.CLASS q 0) w.kind = true →
     w.waitOn = none →
     (w.kind == .writeImm && checksPending s (qpJob s q)) = false →
     exec (.requesterPost q w) s = .next (
       let u := (noticePosted s q w).2
       let t := u.modQp q (fun x => { x with sent := x.sent ++ [(0, (noticePosted s q w).1, 0)] })
       breakWaits t.qps.length (pumpQp (t.qp q).sent.length q t))) ∧
  (∀ (s : State) (q : Qpn) (w : WorkReq) (o : Qpn) (x : BitVec 32),
     qpState s q = 3 →
     fget s RDMA_QP_CFG.TYPE q 0 = 0 →
     classSends (fget s RDMA_QP_CFG.CLASS q 0) w.kind = true →
     w.waitOn = some (o, x) →
     qpJob s o.val = qpJob s q →
     o ≠ q →
     (w.kind == .writeImm && checksPending s (qpJob s q)) = false →
     exec (.requesterPost q w) s = .next (
       let u := (noticePosted s q w).2
       let t := u.modQp q (fun x => { x with sent := x.sent ++ [(0, (noticePosted s q w).1, 0)] })
       breakWaits t.qps.length (pumpQp (t.qp q).sent.length q t))) ∧
  (∀ (s t : State) (q : Qpn) (w : WorkReq) (n : Nat),
     nextCheckSeq s (qpJob s q) = (n, t) →
     ((w.kind ≠ .send ∨ fget s RDMA_QP_CFG.CLASS q 0 ≠ 1) → noticePosted s q w = (w, s)) ∧
       (w.kind = .send → fget s RDMA_QP_CFG.CLASS q 0 = 1 → beAt w.data 0 1 = 1 → noticePosted s q w = ({ w with data := w.data.take 12 ++ toBe 4 n ++ w.data.drop 16 }, t)) ∧
       (w.kind = .send → fget s RDMA_QP_CFG.CLASS q 0 = 1 → beAt w.data 0 1 = 2 → noticePosted s q w = (w, ev s TRI_EVENT.RETRACT_EV)) ∧
       (w.kind = .send → fget s RDMA_QP_CFG.CLASS q 0 = 1 → beAt w.data 0 1 ≠ 1 → beAt w.data 0 1 ≠ 2 → noticePosted s q w = (w, s))) ∧
  (∀ (s : State) (q : Qpn) (psn : BitVec 24),
     qpState s q = 3 →
     exec (.requesterResponse q psn none) s = .next (pumpAll (ackWork s q psn.toNat)) ∧
     exec (.requesterResponse q psn (some .psn)) s = .next (pumpAll (sendAgain (ackWork s q ((psn.toNat + 2 ^ 24 - 1) % 2 ^ 24)) q)) ∧
     exec (.requesterResponse q psn (some .access)) s = .next (pumpAll (failOldest (ackWork s q ((psn.toNat + 2 ^ 24 - 1) % 2 ^ 24)) q 1)) ∧
     exec (.requesterResponse q psn (some .invalid)) s = .next (pumpAll (failOldest (ackWork s q ((psn.toNat + 2 ^ 24 - 1) % 2 ^ 24)) q 2)) ∧
     exec (.requesterResponse q psn (some .operational)) s = .next (pumpAll (failOldest (ackWork s q ((psn.toNat + 2 ^ 24 - 1) % 2 ^ 24)) q 3))) ∧
  (∀ (s : State) (q : Qpn),
     qpState s q = 3 →
     (s.qp q).sent.any (fun e => e.2.2 == 1) = true →
     (s.qp q).lastSend + retransmitNs s q ≤ s.now →
     (s.qp q).retries < fget s RDMA_QP_CFG.RETRY q 0 →
     exec (.retransmitTimeout q) s = .next (sendAgain (s.modQp q (fun x => { x with retries := x.retries + 1, lastSend := s.now })) q)) ∧
  (∀ (s : State) (q : Qpn),
     qpState s q = 3 →
     (s.qp q).sent.any (fun e => e.2.2 == 1) = true →
     (s.qp q).lastSend + retransmitNs s q ≤ s.now →
     fget s RDMA_QP_CFG.RETRY q 0 ≤ (s.qp q).retries →
     exec (.retransmitTimeout q) s = .next (failOldest s q 4)) ∧
  (∀ (s : State) (v : Word) (q : Nat),
     get1 s RDMA_QP_SEL.QPN = q →
     2 ≤ q →
     qpState s q ≠ 0 →
     RDMA_QP_CFG.STATE.of v.toNat = qpState s q + 1 →
     qpState s q + 1 ≤ 3 →
     exec (.qpStateWrite v) s = .next (fset s RDMA_QP_CFG.STATE q 0 (qpState s q + 1))) ∧
  (∀ (s : State) (v : Word) (q : Nat),
     get1 s RDMA_QP_SEL.QPN = q →
     2 ≤ q →
     qpState s q ≠ 0 →
     qpState s q ≠ 4 →
     RDMA_QP_CFG.STATE.of v.toNat = 4 →
     exec (.qpStateWrite v) s = .next (qpError s q 8)) ∧
  (∀ (s : State) (v : Word) (q : Nat),
     get1 s RDMA_QP_SEL.QPN = q →
     2 ≤ q →
     qpState s q ≠ 0 →
     (qpState s q == 4 && ((s.job (qpJob s q)).aborting.isSome || (s.job (qpJob s q)).aborted)) = false →
     RDMA_QP_CFG.STATE.of v.toNat = 0 →
     exec (.qpStateWrite v) s = .next (
       let t := clearQp (fset s RDMA_QP_CFG.STATE q 0 0) q
       breakWaits t.qps.length t)) ∧
  (∀ (s : State) (v : Word) (q : Nat),
     get1 s RDMA_QP_SEL.QPN = q →
     2 ≤ q →
     qpState s q = 0 →
     (classLeft s q v.toNat = 0 ∨ RDMA_QP_CFG.TYPE.of v.toNat ≠ 1) →
     exec (.qpStateWrite v) s = .next (moveQp (configureQp s q v.toNat) q (RDMA_QP_CFG.STATE.of v.toNat))) ∧
  (∀ (s : State) (q : Qpn),
     s.missQueue.contains q.val = true →
     (residentQps s).length < 65536 →
     exec (.qpContextLoad q) s = .next { fset s RDMA_QP_STAT.RESIDENT q 0 1 with
         missQueue := s.missQueue.filter (· != q.val), qpUse := s.qpUse.filter (· != q.val) ++ [q.val] }) ∧
  (∀ (s : State) (q : Qpn) (o : Nat),
     s.missQueue.contains q.val = true →
     65536 ≤ (residentQps s).length →
     s.qpUse.find? (evictable s) = some o →
     exec (.qpContextLoad q) s = .next (
       let t := fset s RDMA_QP_STAT.RESIDENT o 0 0
       { fset t RDMA_QP_STAT.RESIDENT q 0 1 with missQueue := s.missQueue.filter (· != q.val), qpUse := (s.qpUse.filter (· != o)).filter (· != q.val) ++ [q.val] }))

/-- GEN_KEY and APPLY of a sealed queue pair (R487, R488, R551, R562). GEN_KEY on a sealed queue pair draws an ephemeral key with the entropy unit READY, shows its public point and state 1; in STARTUP it waits, in FAILED it shows state 3. APPLY with an ephemeral key erases it: with a valid peer point the keys of R488 are installed with cleared counters, the state becomes KEYED and queued requests go out; an invalid point, or for a confidential job one that its guest has not vouched for (with ORIGIN_EV), gives FAILED; a vouched point uses up the vouch. What it adds to Toll's counts (tollDone) is the model's choice, log entry 80. -/
def Obligations.SealedQueuePairsAreKeyed : Prop :=
  (∀ (s : State) (v : BitVec 32) (q : Nat) (t : State) (d : Nat) (u : State),
     get1 s RDMA_QP_SEL.QPN = q →
     2 ≤ q →
     RDMA_SQP_CTRL.GEN_KEY.of v.toNat = 1 →
     RDMA_SQP_CTRL.APPLY.of v.toNat = 0 →
     fset s RDMA_SQP_CTRL.ROLE q 0 (RDMA_SQP_CTRL.ROLE.of v.toNat) = t →
     qpSealed t q = true →
     entropyReady t = true →
     drawScalar (served t 1) = (d, u) →
     exec (.sqpGenKey v) s = .next (
       let w := (tollDone u (some (qpJob u q)) 1 0).modQp q (fun x => { x with priv := some d, keys := none, keyWait := false })
       let z := (List.range 13).foldl (fun (t : State) (n : Nat) => fset t RDMA_SQP_LOCAL.POINT q n (beAt (publicOf d ++ zeros 7) (8 * n) 8)) w
       fset z RDMA_SQP_CTRL.STATE q 0 1)) ∧
  (∀ (s : State) (v : BitVec 32) (q : Nat) (t : State),
     get1 s RDMA_QP_SEL.QPN = q →
     2 ≤ q →
     RDMA_SQP_CTRL.GEN_KEY.of v.toNat = 1 →
     RDMA_SQP_CTRL.APPLY.of v.toNat = 0 →
     fset s RDMA_SQP_CTRL.ROLE q 0 (RDMA_SQP_CTRL.ROLE.of v.toNat) = t →
     qpSealed t q = true →
     entropyReady t = false →
     entropyStarting t = true →
     exec (.sqpGenKey v) s = .next (
       t.modQp q (fun x => { x with keyWait := true }))) ∧
  (∀ (s : State) (v : BitVec 32) (q : Nat) (t : State),
     get1 s RDMA_QP_SEL.QPN = q →
     2 ≤ q →
     RDMA_SQP_CTRL.GEN_KEY.of v.toNat = 1 →
     RDMA_SQP_CTRL.APPLY.of v.toNat = 0 →
     fset s RDMA_SQP_CTRL.ROLE q 0 (RDMA_SQP_CTRL.ROLE.of v.toNat) = t →
     qpSealed t q = true →
     entropyReady t = false →
     entropyStarting t = false →
     exec (.sqpGenKey v) s = .next (
       fset t RDMA_SQP_CTRL.STATE q 0 3)) ∧
  (∀ (s : State) (v : BitVec 32) (q : Nat) (t : State) (d : Nat) (pt : Nat × Nat),
     get1 s RDMA_QP_SEL.QPN = q →
     2 ≤ q →
     RDMA_SQP_CTRL.GEN_KEY.of v.toNat = 0 →
     RDMA_SQP_CTRL.APPLY.of v.toNat = 1 →
     fset s RDMA_SQP_CTRL.ROLE q 0 (RDMA_SQP_CTRL.ROLE.of v.toNat) = t →
     (t.qp q).priv = some d →
     fget t RDMA_SQP_CTRL.STATE q 0 = 1 →
     t.conf (qpJob t q) = false →
     decodePt (peerPoint t q) = some pt →
     exec (.sqpApply v) s = .next (
       let k := sqpKeys t q d pt
       let u := t.modQp q (fun x => { x with priv := none })
       let w := u.modQp q (fun x => { x with keys := some k, txCount := 0, rxCount := 0, badTags := 0 })
       pumpQp (w.qp q).sent.length q (fset (tollDone w (some (qpJob t q)) 1 3) RDMA_SQP_CTRL.STATE q 0 2))) ∧
  (∀ (s : State) (v : BitVec 32) (q : Nat) (t : State) (d : Nat) (pt : Nat × Nat),
     get1 s RDMA_QP_SEL.QPN = q →
     2 ≤ q →
     RDMA_SQP_CTRL.GEN_KEY.of v.toNat = 0 →
     RDMA_SQP_CTRL.APPLY.of v.toNat = 1 →
     fset s RDMA_SQP_CTRL.ROLE q 0 (RDMA_SQP_CTRL.ROLE.of v.toNat) = t →
     (t.qp q).priv = some d →
     fget t RDMA_SQP_CTRL.STATE q 0 = 1 →
     t.conf (qpJob t q) = true →
     vouched t q = true →
     decodePt (peerPoint t q) = some pt →
     exec (.sqpApply v) s = .next (
       let k := sqpKeys t q d pt
       let u := t.modQp q (fun x => { x with priv := none })
       let y := (List.range 6).foldl (fun (u : State) (n : Nat) => fset u KST_VF_PEER_HASH.HASH (qpJob t q) n 0) (fset u KST_VF_ORIGIN_QPN.QPN (qpJob t q) 0 0)
       let w := y.modQp q (fun x => { x with keys := some k, txCount := 0, rxCount := 0, badTags := 0 })
       pumpQp (w.qp q).sent.length q (fset (tollDone w (some (qpJob t q)) 1 3) RDMA_SQP_CTRL.STATE q 0 2))) ∧
  (∀ (s : State) (v : BitVec 32) (q : Nat) (t : State) (d : Nat),
     get1 s RDMA_QP_SEL.QPN = q →
     2 ≤ q →
     RDMA_SQP_CTRL.GEN_KEY.of v.toNat = 0 →
     RDMA_SQP_CTRL.APPLY.of v.toNat = 1 →
     fset s RDMA_SQP_CTRL.ROLE q 0 (RDMA_SQP_CTRL.ROLE.of v.toNat) = t →
     (t.qp q).priv = some d →
     fget t RDMA_SQP_CTRL.STATE q 0 = 1 →
     t.conf (qpJob t q) = true →
     vouched t q = false →
     exec (.sqpApply v) s = .next (
       ev (fset (t.modQp q (fun x => { x with priv := none })) RDMA_SQP_CTRL.STATE q 0 3) KST_EVENT.ORIGIN_EV)) ∧
  (∀ (s : State) (v : BitVec 32) (q : Nat) (t : State) (d : Nat),
     get1 s RDMA_QP_SEL.QPN = q →
     2 ≤ q →
     RDMA_SQP_CTRL.GEN_KEY.of v.toNat = 0 →
     RDMA_SQP_CTRL.APPLY.of v.toNat = 1 →
     fset s RDMA_SQP_CTRL.ROLE q 0 (RDMA_SQP_CTRL.ROLE.of v.toNat) = t →
     (t.qp q).priv = some d →
     fget t RDMA_SQP_CTRL.STATE q 0 = 1 →
     t.conf (qpJob t q) = false →
     decodePt (peerPoint t q) = none →
     exec (.sqpApply v) s = .next (
       fset (t.modQp q (fun x => { x with priv := none })) RDMA_SQP_CTRL.STATE q 0 3))

/-- Memory regions: registration, revocation, lowered rights and the cut-off (R464, R465, R483, R484, R485, R486). REGISTER on a FREE region stores its fields; a region that keeps the rules becomes LIVE with its generation counted, any other sets REG_EV. REVOKE on a LIVE region marks it REVOKING and notes the time. A write that lowers RIGHTS stores them and revokes the rights removed; one that raises any right changes nothing. Once no WRITE that passed the key check is unfinished a revocation completes: the region is FREE, or stays LIVE with its lowered rights, with REVOKE_DONE_EV, and a waiting teardown goes on. After WAIT_US an unfinished WRITE is cut off with CUTOFF_EV and the revocation completes. -/
def Obligations.RegionsAreRegisteredAndRevoked : Prop :=
  (∀ (s : State) (v : Word) (j : JobId) (g : Nat) (t : State),
     Fin.ofNat 16 (get1 s RDMA_JOB_SEL.JOB) = j →
     get1 s RDMA_REG_SEL.REGION = g →
     fget s RDMA_REG_CFG.STATE j g = 0 →
     RDMA_REG_CFG.REGISTER.of v.toNat = 1 →
     [RDMA_REG_CFG.KIND, RDMA_REG_CFG.RIGHTS, RDMA_REG_CFG.GROUP, RDMA_REG_CFG.MEMBER, RDMA_REG_CFG.BIND_EN, RDMA_REG_CFG.BIND_QP].foldl (fun (u : State) (f : Fld) => fset u f j g (f.of v.toNat)) s = t →
     regionOk t j g = true →
     exec (.regionRegister v) s = .next (fset (count t RDMA_REG_CFG.GEN j g 1) RDMA_REG_CFG.STATE j g 1)) ∧
  (∀ (s : State) (v : Word) (j : JobId) (g : Nat) (t : State),
     Fin.ofNat 16 (get1 s RDMA_JOB_SEL.JOB) = j →
     get1 s RDMA_REG_SEL.REGION = g →
     fget s RDMA_REG_CFG.STATE j g = 0 →
     RDMA_REG_CFG.REGISTER.of v.toNat = 1 →
     [RDMA_REG_CFG.KIND, RDMA_REG_CFG.RIGHTS, RDMA_REG_CFG.GROUP, RDMA_REG_CFG.MEMBER, RDMA_REG_CFG.BIND_EN, RDMA_REG_CFG.BIND_QP].foldl (fun (u : State) (f : Fld) => fset u f j g (f.of v.toNat)) s = t →
     regionOk t j g = false →
     exec (.regionRegister v) s = .next (ev t RDMA_EVENT.REG_EV)) ∧
  (∀ (s : State) (v : Word) (j : JobId) (g : Nat),
     Fin.ofNat 16 (get1 s RDMA_JOB_SEL.JOB) = j →
     get1 s RDMA_REG_SEL.REGION = g →
     fget s RDMA_REG_CFG.STATE j g = 1 →
     RDMA_REG_CFG.RIGHTS.of v.toNat = fget s RDMA_REG_CFG.RIGHTS j g →
     RDMA_REG_CFG.REVOKE.of v.toNat = 1 →
     exec (.regionRevoke v) s = .next ({ fset s RDMA_REG_CFG.STATE j g 2 with revoking := s.revoking ++ [(j.val, g, s.now, false)] })) ∧
  (∀ (s : State) (v : Word) (j : JobId) (g : Nat),
     Fin.ofNat 16 (get1 s RDMA_JOB_SEL.JOB) = j →
     get1 s RDMA_REG_SEL.REGION = g →
     fget s RDMA_REG_CFG.STATE j g = 1 →
     RDMA_REG_CFG.RIGHTS.of v.toNat ≠ fget s RDMA_REG_CFG.RIGHTS j g →
     RDMA_REG_CFG.RIGHTS.of v.toNat &&& fget s RDMA_REG_CFG.RIGHTS j g = RDMA_REG_CFG.RIGHTS.of v.toNat →
     RDMA_REG_CFG.REVOKE.of v.toNat = 0 →
     exec (.rightsLower v) s = .next ({ fset s RDMA_REG_CFG.RIGHTS j g (RDMA_REG_CFG.RIGHTS.of v.toNat) with revoking := s.revoking ++ [(j.val, g, s.now, true)] })) ∧
  (∀ (s : State) (v : Word) (j : JobId) (g : Nat),
     Fin.ofNat 16 (get1 s RDMA_JOB_SEL.JOB) = j →
     get1 s RDMA_REG_SEL.REGION = g →
     fget s RDMA_REG_CFG.STATE j g = 1 →
     RDMA_REG_CFG.RIGHTS.of v.toNat &&& fget s RDMA_REG_CFG.RIGHTS j g ≠ RDMA_REG_CFG.RIGHTS.of v.toNat →
     RDMA_REG_CFG.REVOKE.of v.toNat = 0 →
     exec (.rightsLower v) s = .next (s)) ∧
  (∀ (s : State) (j : JobId) (g : Fin 4096),
     revocations s j g ≠ [] →
     unfinished s j g = [] →
     exec (.revokeComplete j g) s = .next (
       let t := { s with revoking := s.revoking.filter (fun v => !(v.1 == j.val && v.2.1 == g.val)) }
       let u := if (revocations s j g).any (fun v => !v.2.2.2) then fset t RDMA_REG_CFG.STATE j g 0 else t
       advanceTeardown (ev u RDMA_EVENT.REVOKE_DONE_EV) j)) ∧
  (∀ (s : State) (j : JobId) (g : Fin 4096),
     (revocations s j g).any (fun v => decide (v.2.2.1 + 1000 * get1 s RDMA_REVOKE.WAIT_US ≤ s.now)) = true →
     unfinished s j g ≠ [] →
     exec (.revokeCutoff j g) s = .next (
       let t := { s with openWrites := s.openWrites.map (fun w => if w.job == j && w.region == g.val then { w with cut := true } else w) }
       finishRevoke (ev t RDMA_EVENT.CUTOFF_EV) j g))

/-- PTP Announce and Sync, the loss of sync, holdover, and 1PPS (R492, R495, R496, R497, R498, R499, R507, R509). An Announce of the configured domain on an enabled port takes over where none is chosen, the chosen one has gone, it is its own, or it is better: its identity and port show, a new identity sets GM_EV. An accepted Sync shows its offset, corrects time (a step on the first lock and when more than 1 ms behind, else a slew), may change the state, and sends one Delay_Req. Two seconds without one put LOCKING or LOCKED into HOLDOVER from the estimate then; at LIMIT_US HOLDOVER becomes DOUBTFUL. A 1PPS edge within 1 µs is noted, any other sets PPS_REJ_EV. -/
def Obligations.TimeIsKept : Prop :=
  (∀ (s : State) (p : Port) (a : Announce),
     ptpPort s p = true →
     a.domain.toNat = get1 s TIDE_CTRL.DOMAIN →
     (s.best = none ∨ announceGone s = true ∨ (∃ o, s.best = some o ∧ (o.1 == p.val && o.2.identity == a.identity || better p a o) = true)) →
     exec (.ptpAnnounce p a) s = .next (
       let t := if get1 s TIDE_GM.ID = a.identity.toNat then s else ev s TIDE_EVENT.GM_EV
       { set1 (set1 t TIDE_GM.ID a.identity.toNat) TIDE_STATUS.PORT p.val with best := some (p.val, a), lastAnnounce := s.now })) ∧
  (∀ (s : State) (p : Port) (a : Announce) (o : Nat × Announce),
     s.best = some o →
     announceGone s = false →
     (o.1 == p.val && o.2.identity == a.identity || better p a o) = false →
     exec (.ptpAnnounce p a) s = .next s) ∧
  (∀ (s : State) (p : Port) (m : SyncPair),
     syncAccepted s p m = true →
     exec (.ptpSync p m) s = .next (
       let t := set1 (emit s (.delayReq p)) TIDE_ERR.OFFSET (showOffset m.offset)
       let u := afterOffset (correct t m.offset) m.offset
       { u with lastSync := u.now })) ∧
  (∀ (s : State) (o : Int),
     (get1 s TIDE_STATUS.STATE = 0 ∨ o < -1000000) →
     correct s o = firePassed (ev { s with now := ((s.now : Int) - o).toNat, slew := 0, slewTicks := 0 } TIDE_EVENT.STEP_EV) s.now) ∧
  (∀ (s : State) (o : Int),
     get1 s TIDE_STATUS.STATE ≠ 0 →
     -1000000 ≤ o →
     correct s o = { s with slew := -o, slewTicks := 0 }) ∧
  (∀ (s : State),
     (get1 s TIDE_STATUS.STATE = 1 ∨ get1 s TIDE_STATUS.STATE = 2) →
     (s.lastSync + 2 * 10 ^ 9 ≤ s.now ∨ announceGone s = true) →
     exec .syncLossTimeout s = .next (setTimeState { s with holdErr := estimate s, holdStart := s.now, goodOffsets := 0 } 3)) ∧
  (∀ (s : State),
     get1 s TIDE_STATUS.STATE = 3 →
     1000 * get1 s TIDE_HOLD.LIMIT_US ≤ estimate s →
     exec .holdoverLimit s = .next (setTimeState s 4)) ∧
  (∀ (s : State) (e : Int),
     on s TIDE_CTRL.PPS_EN = true →
     e.natAbs ≤ 1000 →
     exec (.ppsEdge e) s = .next { s with lastPps := some s.now }) ∧
  (∀ (s : State) (e : Int),
     on s TIDE_CTRL.PPS_EN = true →
     1000 < e.natAbs →
     exec (.ppsEdge e) s = .next (ev s TIDE_EVENT.PPS_REJ_EV))

/-- USER and WAKE entries of the event table: firing, arming and cancelling (R502, R503, R504, R505, R506, R507, R525). A due USER entry fires: FIRED is set, HELD cleared, COUNT counted, the invocations of its job note it, and it is due no more; in doubtful time one without DOUBTFUL_OK is HELD instead. A due WAKE entry fires, is disarmed, and its domain begins to wake. A write that arms the selected USER entry stores its fields and arms it at the round's Offer time plus PHASE units; a time already past fires at once with LATE, or is held. A write with VALID 0 disarms it and breaks the waits on it. A write of an entry below 512 only sets TABLE_EV. -/
def Obligations.EventEntriesFire : Prop :=
  (∀ (s : State) (e : Fin 4096),
     512 ≤ e.val →
     entryDue s e = true →
     heldEntry s e = false →
     exec (.userEventFire e) s = .next (
       let t := fset (fset s TIDE_EVT_STAT.FIRED e 0 1) TIDE_EVT_STAT.LATE e 0 (flag (s.passed.contains e.val))
       let u := count (fset t TIDE_EVT_STAT.HELD e 0 0) TIDE_EVT_STAT.COUNT e 0 1
       { u with
         passed := u.passed.filter (· != e.val)
         contexts := u.contexts.map (fun c => if (lookup u.armed e.val).map (·.job) = some c.2.job.val then (c.1, noteEvent e c.2) else c)
         armed := u.armed.map (fun a => if a.1 == e.val then (a.1, { a.2 with due := none }) else a) })) ∧
  (∀ (s : State) (e : Fin 4096),
     512 ≤ e.val →
     entryDue s e = true →
     heldEntry s e = true →
     exec (.userEventFire e) s = .next (fset s TIDE_EVT_STAT.HELD e 0 1)) ∧
  (∀ (s : State) (e : Fin 4096),
     256 ≤ e.val →
     e.val < 352 →
     entryDue s e = true →
     exec (.wakeEventFire e) s = .next (wakeDomain (disarm (fireEntry s e false) e) (e.val - 256))) ∧
  (∀ (s : State) (v : Word) (e : Nat) (t : State) (x : Round),
     get1 s TIDE_EVT_SEL.EVENT = e →
     512 ≤ e →
     TIDE_EVT_CFG.VALID.of v.toNat = 1 →
     [TIDE_EVT_CFG.DOUBTFUL_OK, TIDE_EVT_CFG.JOB, TIDE_EVT_CFG.PHASE].foldl (fun (t : State) (f : Fld) => fset t f e 0 (f.of v.toNat)) s = t →
     fget t TIDE_EVT_ROUND.ROUND e 0 = 0 →
     newestOffered t (Fin.ofNat 16 (fget t TIDE_EVT_CFG.JOB e 0)) = some x →
     t.now ≤ pOfferTime x.plan + fget t TIDE_EVT_CFG.PHASE e 0 * phaseUnit →
     exec (.eventArm v) s = .next (arm t e ⟨fget t TIDE_EVT_CFG.JOB e 0 % 16, 0, some x.number, fget t TIDE_EVT_CFG.PHASE e 0, some (pOfferTime x.plan + fget t TIDE_EVT_CFG.PHASE e 0 * phaseUnit)⟩)) ∧
  (∀ (s : State) (v : Word) (e : Nat) (t u : State) (x : Round),
     get1 s TIDE_EVT_SEL.EVENT = e →
     512 ≤ e →
     TIDE_EVT_CFG.VALID.of v.toNat = 1 →
     [TIDE_EVT_CFG.DOUBTFUL_OK, TIDE_EVT_CFG.JOB, TIDE_EVT_CFG.PHASE].foldl (fun (t : State) (f : Fld) => fset t f e 0 (f.of v.toNat)) s = t →
     fget t TIDE_EVT_ROUND.ROUND e 0 = 0 →
     newestOffered t (Fin.ofNat 16 (fget t TIDE_EVT_CFG.JOB e 0)) = some x →
     pOfferTime x.plan + fget t TIDE_EVT_CFG.PHASE e 0 * phaseUnit < t.now →
     arm t e ⟨fget t TIDE_EVT_CFG.JOB e 0 % 16, 0, some x.number, fget t TIDE_EVT_CFG.PHASE e 0, some (pOfferTime x.plan + fget t TIDE_EVT_CFG.PHASE e 0 * phaseUnit)⟩ = u →
     exec (.eventArm v) s = .next (if heldEntry u e then fset u TIDE_EVT_STAT.HELD e 0 1 else fireEntry u e true)) ∧
  (∀ (s : State) (v : Word) (e : Nat) (t : State),
     get1 s TIDE_EVT_SEL.EVENT = e →
     512 ≤ e →
     TIDE_EVT_CFG.VALID.of v.toNat = 0 →
     [TIDE_EVT_CFG.DOUBTFUL_OK, TIDE_EVT_CFG.JOB, TIDE_EVT_CFG.PHASE].foldl (fun (t : State) (f : Fld) => fset t f e 0 (f.of v.toNat)) s = t →
     exec (.eventCancel v) s = .next (breakEventWaits (disarm t e) e)) ∧
  (∀ (s : State) (v : Word),
     get1 s TIDE_EVT_SEL.EVENT < 512 →
     exec (.eventArm v) s = .next (ev s TIDE_EVENT.TABLE_EV) ∧ exec (.eventCancel v) s = .next (ev s TIDE_EVENT.TABLE_EV))

/-- Crossing modes, the DVFS loop, the throttle, pins and placement moves (R46, R48, R512, R513, R514, R518, R519, R520, R521, R615, R616). A new defined mode takes effect at once: mode and envelope show, every cluster's maximum and rate and the jobs' shares follow, with MODE_EV. Each job's share of a class lies inside its bounds while it has work, and the reduced MINs of all jobs never ask for more than the live units (the division is the model's, log entry 100). Every 100 µs the DVFS loop gives each cluster its rate; while the power would exceed the envelope the cluster with the least pending work that can go lower loses a step, and no cluster once none can. At a throttle limit THROTTLING shows (with its event) and every 100 µs the chosen clusters lose a step; after the release they gain one every 1 ms. A port whose optics reach 70 °C is hot until 65 °C. A pin write that can be met is stored; any other shows PIN_REFUSED. A cohort's accumulator moves to the other memory, with the poison of its lines, while its job has no issued work, in the order of priority, where it has a place free there, and never out of a pinned job's Vat. -/
def Obligations.PilotSetsModesRatesAndPins : Prop :=
  (∀ (s : State) (v : BitVec 32),
     PLT_MODE.MODE.of v.toNat ≤ 4 →
     PLT_MODE.MODE.of v.toNat ≠ get1 s PLT_MODE.MODE →
     exec (.modeChange v) s = .next (
       let m := PLT_MODE.MODE.of v.toNat
       ev (placementLoop ((List.range 5).foldl refreshCluster (set1 (set1 s PLT_MODE.MODE m) PLT_POWER.ENVELOPE_W (if m = 4 then 1400 else 2200)))) PLT_EVENT.MODE_EV)) ∧
  (∀ (s : State) (v : BitVec 32),
     4 < PLT_MODE.MODE.of v.toNat →
     exec (.modeChange v) s = .next s) ∧
  (∀ (s : State) (l : List ClusterLoad) (p : Nat) (ps : List Nat) (t : State),
     s.dvfsAt ≤ s.now →
     set1 ((List.range 5).foldl (fun (u : State) (c : Nat) => dvfsCluster u c (l.getD c ⟨0, false, 0⟩)) { s with dvfsAt := s.now + 100000 }) PLT_POWER.POWER_MW p = t →
     p ≤ 1000 * get1 t PLT_POWER.ENVELOPE_W →
     exec (.dvfsTick l (p :: ps)) s = .next t) ∧
  (∀ (s : State) (l : List ClusterLoad) (p : Nat) (ps : List Nat) (t : State) (c : Nat) (cs : List Nat),
     s.dvfsAt ≤ s.now →
     set1 ((List.range 5).foldl (fun (u : State) (c : Nat) => dvfsCluster u c (l.getD c ⟨0, false, 0⟩)) { s with dvfsAt := s.now + 100000 }) PLT_POWER.POWER_MW p = t →
     1000 * get1 t PLT_POWER.ENVELOPE_W < p →
     lowerable t l = c :: cs →
     exec (.dvfsTick l (p :: ps)) s = .next (lowerPower l ps (setRate t c (max (effMin t c) (stepDown (fget t PLT_CLU_STAT.RATE_PCT c 0)))))) ∧
  (∀ (s t : State) (l : List ClusterLoad) (p : Nat) (ps : List Nat) (c : Nat) (cs : List Nat),
     t = set1 s PLT_POWER.POWER_MW p →
     lowerPower l [] s = s ∧ (p ≤ 1000 * get1 t PLT_POWER.ENVELOPE_W → lowerPower l (p :: ps) s = t) ∧
       (1000 * get1 t PLT_POWER.ENVELOPE_W < p → lowerable t l = c :: cs →
         lowerPower l (p :: ps) s = lowerPower l ps (setRate t c (max (effMin t c) (stepDown (fget t PLT_CLU_STAT.RATE_PCT c 0))))) ∧
       (1000 * get1 t PLT_POWER.ENVELOPE_W < p → lowerable t l = [] → lowerPower l (p :: ps) s = t)) ∧
  (∀ (s : State) (m : Limits) (t u : State),
     limitReached m = true →
     showInput { s with hotPorts := hotAfter s m } m.mv m.ma m.watts = t →
     (if on t PWR_STATUS.THROTTLING then t else ev (set1 t PWR_STATUS.THROTTLING 1) PWR_EVENT.THROTTLE_EV) = u →
     u.throttleAt ≤ u.now →
     throttled u m ≠ [] →
     exec (.throttleStep m) s = .next { (throttled u m).foldl lowerCluster u with throttleAt := u.now + 100000 }) ∧
  (∀ (s : State) (m : Limits) (t : State),
     limitReached m = false →
     set1 (showInput { s with hotPorts := hotAfter s m } m.mv m.ma m.watts) PWR_STATUS.THROTTLING 0 = t →
     (on (showInput { s with hotPorts := hotAfter s m } m.mv m.ma m.watts) PWR_STATUS.THROTTLING && !limitReleased m) = false →
     t.throttleAt ≤ t.now →
     t.throttleCap ≠ [] →
     exec (.throttleStep m) s = .next { liftThrottle t with throttleAt := t.now + 1000000 }) ∧
  (∀ (s : State) (k : Nat) (j : JobId),
     (classWork s k j = false → shareOf s k j = 0) ∧
       (classWork s k j = true → metMin s k j ≤ shareMax s k j → metMin s k j ≤ shareOf s k j ∧ shareOf s k j ≤ shareMax s k j) ∧
       (minSum s k ≤ liveUnits s k → metMin s k j = shareMin s k j) ∧
       (liveUnits s k < minSum s k → ((List.finRange 16).map (metMin s k)).sum ≤ liveUnits s k)) ∧
  (∀ (s : State) (v : BitVec 32) (j : JobId) (t : State),
     Fin.ofNat 16 (get1 s PLT_JOB_SEL.JOB) = j →
     storeField j 0 v.toNat s PLT_JOB_PIN.PIN_LOST = t →
     pinOk t j (PLT_JOB_PIN.ARRAYS.of v.toNat) (PLT_JOB_PIN.RESIDENT.of v.toNat) = true →
     exec (.pinWrite v) s = .next (
       let u := fset (fset (fset t PLT_JOB_PIN.PIN_REFUSED j 0 0) PLT_JOB_PIN.ARRAYS j 0 (PLT_JOB_PIN.ARRAYS.of v.toNat)) PLT_JOB_PIN.RESIDENT j 0 (PLT_JOB_PIN.RESIDENT.of v.toNat)
       if PLT_JOB_PIN.RESIDENT.of v.toNat = 1 then
         (u.job j).rounds.foldl (fun a x => ((List.range (pCohortCount x.plan)).filter (fun c => (x.cohort c).inHbm)).foldl (fun b c => moveCohort b j x.number c false) a) u
       else u)) ∧
  (∀ (s : State) (v : BitVec 32) (j : JobId) (t : State),
     Fin.ofNat 16 (get1 s PLT_JOB_SEL.JOB) = j →
     storeField j 0 v.toNat s PLT_JOB_PIN.PIN_LOST = t →
     pinOk t j (PLT_JOB_PIN.ARRAYS.of v.toNat) (PLT_JOB_PIN.RESIDENT.of v.toNat) = false →
     exec (.pinWrite v) s = .next (ev (fset t PLT_JOB_PIN.PIN_REFUSED j 0 1) PLT_EVENT.PIN_EV)) ∧
  (∀ (s : State) (j : JobId) (r : RoundNo) (c : CohortId) (h : Bool) (x y : Round),
     s.round? j r = some x →
     jobBusy s j = false →
     (x.cohort c).inHbm ≠ h →
     c.val < pCohortCount x.plan →
     moveOk s j x c h = true →
     s.poison = [] →
     y = x.modCohort c (fun k => { k with inHbm := h }) →
     exec (.placementMove j r c h) s = .next (s.modRound j r (fun _ => y))) ∧
  (∀ (s : State) (j : JobId) (r : RoundNo) (c : CohortId) (h : Bool) (x y : Round),
     s.round? j r = some x →
     jobBusy s j = false →
     (x.cohort c).inHbm ≠ h →
     c.val < pCohortCount x.plan →
     moveOk s j x c h = true →
     s.poison ≠ [] →
     y = x.modCohort c (fun k => { k with inHbm := h }) →
     exec (.placementMove j r c h) s = .next (
       let hit := ((linesOf (accAt s j x c) (accSpan x.plan)).zip (linesOf (accAt s j y c) (accSpan x.plan))).filter (fun e => s.poison.contains (poisonKey s j (around s j e.1)))
       let t := clearPlace (clearPlace (s.modRound j r (fun _ => y)) j (accAt s j x c) (accSpan x.plan)) j (accAt s j y c) (accSpan x.plan)
       hit.foldl (fun u e => setPoison u (poisonKey u j (around u j e.2))) t)) ∧
  (∀ (s : State) (j : JobId) (r : RoundNo) (c : CohortId) (h : Bool) (x : Round),
     s.round? j r = some x →
     (jobBusy s j = true ∨ moveOk s j x c h = false) →
     exec (.placementMove j r c h) s = .next s)

/-- A power domain's entry or exit completes (R620, R621, R622, R618). When a domain's entry into a state completes, STATE shows it and CHANGING clears; a wake request that met the entry begins the exit at once. When its exit completes it is in P0: a wake from P2 or P3 is counted, and a field port's laser is lit, or the port, disabled meanwhile, goes to P3. PS_DEEP of the cluster follows. -/
def Obligations.DomainsChangeState : Prop :=
  (∀ (s : State) (d : Fin 96) (t e : Nat) (u : State),
     lookup s.domMoves d.val = some (t, e) →
     e ≤ s.now →
     t ≠ 0 →
     t < 8 →
     { fset (fset s PWR_DOM_STATE.STATE d 0 (t % 8)) PWR_DOM_STATE.CHANGING d 0 0 with domMoves := dropKey s.domMoves d.val } = u →
     exec (.domainStateDone d) s = .next (if domCluster d ≤ 4 then fset u PLT_CLU_STAT.PS_DEEP (domCluster d) 0 (psDeep u (domCluster d)) else u)) ∧
  (∀ (s : State) (d : Fin 96) (t e : Nat) (u v : State),
     lookup s.domMoves d.val = some (t, e) →
     e ≤ s.now →
     8 ≤ t →
     { fset (fset s PWR_DOM_STATE.STATE d 0 (t % 8)) PWR_DOM_STATE.CHANGING d 0 0 with domMoves := dropKey s.domMoves d.val } = u →
     wakeDomain u d = v →
     exec (.domainStateDone d) s = .next (if domCluster d ≤ 4 then fset v PLT_CLU_STAT.PS_DEEP (domCluster d) 0 (psDeep v (domCluster d)) else v)) ∧
  (∀ (s : State) (d : Fin 96) (e : Nat) (u v w : State),
     lookup s.domMoves d.val = some (0, e) →
     e ≤ s.now →
     { fset (fset s PWR_DOM_STATE.STATE d 0 0) PWR_DOM_STATE.CHANGING d 0 0 with domMoves := dropKey s.domMoves d.val } = u →
     (if 2 ≤ fget s PWR_DOM_STATE.STATE d 0 then countSat u PWR_DOM_STATE.WAKES d 0 1 else u) = v →
     ((if 3 ≤ d.val ∧ d.val ≤ 18 then portAwake v (Fin.ofNat 16 (d.val - 3)) else v) = w) →
     exec (.domainStateDone d) s = .next (if domCluster d ≤ 4 then fset w PLT_CLU_STAT.PS_DEEP (domCluster d) 0 (psDeep w (domCluster d)) else w))

/-- Clear-text keys, their erasure, challenges and the fused SVN (R534, R536, R538, R539, R542, R543). GO with an EMPTY PF0 slot and no confidential job stores the key that KST_WR_DATA holds with its EXPIRE and LIMIT, sets CLEAR_WRITTEN and status OK; any other GO is SLOT_DENIED with DENIED_EV. ERASE empties the slot with OK; a BAD slot stays BAD with SLOT_BAD. Each zeroes KST_WR_DATA. A challenge that the slot allows answers the HMAC of the challenge text, any other zeros, with the status and DONE. A write of the running image's SVN above the fused one fuses it; any other write changes nothing. -/
def Obligations.KeySlotsOfPf0 : Prop :=
  (∀ (s : State) (v : Word) (t : State) (n : Nat),
     KST_WR_CTRL.GO.of v.toNat = 1 →
     KST_WR_CTRL.ERASE.of v.toNat = 0 →
     (if 224 ≤ KST_WR_CTRL.SLOT.of v.toNat then set1 (set1 (set1 s KST_WR_CTRL.EXPIRE (KST_WR_CTRL.EXPIRE.of v.toNat)) KST_WR_CTRL.LIMIT (KST_WR_CTRL.LIMIT.of v.toNat)) KST_WR_CTRL.SLOT (KST_WR_CTRL.SLOT.of v.toNat) else set1 (set1 s KST_WR_CTRL.EXPIRE (KST_WR_CTRL.EXPIRE.of v.toNat)) KST_WR_CTRL.LIMIT (KST_WR_CTRL.LIMIT.of v.toNat)) = t →
     get1 t KST_WR_CTRL.SLOT = n →
     fget t KST_SLOT_INFO.STATE n 0 = 0 →
     on t KST_STATUS.CONF_ACTIVE = false →
     exec (.kstKeyWrite v) s = .next (
       let u := set1 (fillSlot t n 3 17 8 (get1 t KST_WR_CTRL.EXPIRE) (get1 t KST_WR_CTRL.LIMIT) (writtenKey t)) KST_STATUS.CLEAR_WRITTEN 1
       zeroWrData (set1 u KST_OP_STAT.WR_STATUS SStat.ok.code))) ∧
  (∀ (s : State) (v : Word) (t : State) (n : Nat),
     KST_WR_CTRL.GO.of v.toNat = 1 →
     KST_WR_CTRL.ERASE.of v.toNat = 0 →
     (if 224 ≤ KST_WR_CTRL.SLOT.of v.toNat then set1 (set1 (set1 s KST_WR_CTRL.EXPIRE (KST_WR_CTRL.EXPIRE.of v.toNat)) KST_WR_CTRL.LIMIT (KST_WR_CTRL.LIMIT.of v.toNat)) KST_WR_CTRL.SLOT (KST_WR_CTRL.SLOT.of v.toNat) else set1 (set1 s KST_WR_CTRL.EXPIRE (KST_WR_CTRL.EXPIRE.of v.toNat)) KST_WR_CTRL.LIMIT (KST_WR_CTRL.LIMIT.of v.toNat)) = t →
     get1 t KST_WR_CTRL.SLOT = n →
     (fget t KST_SLOT_INFO.STATE n 0 == 0 && !on t KST_STATUS.CONF_ACTIVE) = false →
     exec (.kstKeyWrite v) s = .next (ev (zeroWrData (set1 t KST_OP_STAT.WR_STATUS SStat.slotDenied.code)) KST_EVENT.DENIED_EV)) ∧
  (∀ (s : State) (v : Word) (t : State) (n : Nat),
     KST_WR_CTRL.GO.of v.toNat = 0 →
     KST_WR_CTRL.ERASE.of v.toNat = 1 →
     (if 224 ≤ KST_WR_CTRL.SLOT.of v.toNat then set1 (set1 (set1 s KST_WR_CTRL.EXPIRE (KST_WR_CTRL.EXPIRE.of v.toNat)) KST_WR_CTRL.LIMIT (KST_WR_CTRL.LIMIT.of v.toNat)) KST_WR_CTRL.SLOT (KST_WR_CTRL.SLOT.of v.toNat) else set1 (set1 s KST_WR_CTRL.EXPIRE (KST_WR_CTRL.EXPIRE.of v.toNat)) KST_WR_CTRL.LIMIT (KST_WR_CTRL.LIMIT.of v.toNat)) = t →
     get1 t KST_WR_CTRL.SLOT = n →
     fget t KST_SLOT_INFO.STATE n 0 ≠ 2 →
     exec (.kstKeyErase v) s = .next (zeroWrData (set1 (eraseSlot t n) KST_OP_STAT.WR_STATUS SStat.ok.code))) ∧
  (∀ (s : State) (v : Word) (t : State) (n : Nat),
     KST_WR_CTRL.GO.of v.toNat = 0 →
     KST_WR_CTRL.ERASE.of v.toNat = 1 →
     (if 224 ≤ KST_WR_CTRL.SLOT.of v.toNat then set1 (set1 (set1 s KST_WR_CTRL.EXPIRE (KST_WR_CTRL.EXPIRE.of v.toNat)) KST_WR_CTRL.LIMIT (KST_WR_CTRL.LIMIT.of v.toNat)) KST_WR_CTRL.SLOT (KST_WR_CTRL.SLOT.of v.toNat) else set1 (set1 s KST_WR_CTRL.EXPIRE (KST_WR_CTRL.EXPIRE.of v.toNat)) KST_WR_CTRL.LIMIT (KST_WR_CTRL.LIMIT.of v.toNat)) = t →
     get1 t KST_WR_CTRL.SLOT = n →
     fget t KST_SLOT_INFO.STATE n 0 = 2 →
     exec (.kstKeyErase v) s = .next (ev (zeroWrData (set1 t KST_OP_STAT.WR_STATUS SStat.slotBad.code)) KST_EVENT.DENIED_EV)) ∧
  (∀ (s : State) (v : BitVec 32) (t u : State) (n : Nat) (st : SStat),
     KST_CHAL_CTRL.GO.of v.toNat = 1 →
     (if 224 ≤ KST_CHAL_CTRL.SLOT.of v.toNat then set1 s KST_CHAL_CTRL.SLOT (KST_CHAL_CTRL.SLOT.of v.toNat) else s) = t →
     get1 t KST_CHAL_CTRL.SLOT = n →
     takeSlot t n 17 3 3 = (st, u) →
     exec (.kstChallenge v) s = .next (
       let resp := if st = .ok then hmac (readD [] u.keyMat n) (challengeText u) else zeros 48
       set1 (set1 (setGroup u KST_RESP.RESP 0 resp 6) KST_OP_STAT.CHAL_STATUS st.code) KST_CHAL_CTRL.DONE 1)) ∧
  (∀ (s : State) (v : BitVec 32),
     v.toNat = get1 s KST_FW.SVN →
     s.fuseSvn < v.toNat →
     exec (.svnCommit v) s = .next { set1 s KST_FW.FUSED_SVN v.toNat with fuseSvn := v.toNat }) ∧
  (∀ (s : State) (v : BitVec 32),
     (v.toNat ≠ get1 s KST_FW.SVN ∨ v.toNat ≤ s.fuseSvn) →
     exec (.svnCommit v) s = .next s)

/-- The entropy unit: reset, start-up, health tests, reseeds, wires and the software port (R545, R546, R547, R548, R549, R550, R551, R553, R554, R567). UNIT_RESET stores at least four latches and enters STARTUP unless failure is permanent. STARTUP ends READY where every enabled latch and the known answers pass, serving what waited, else FAILED, the fourth time in a row for good. A passing window is counted, releases the staged requests and refills the software port; a failing enabled latch is counted, shown, and fails every waiting request. After 1 ms or 2^20 requests the DRBG reseeds. A wire request is staged in READY, waits in STARTUP, fails in FAILED. A read of ENT_SW_DATA answers 48 fresh bits, or NOT_READY, ERR or EMPTY. -/
def Obligations.TheEntropyUnitServes : Prop :=
  (∀ (s : State) (v : BitVec 32) (t : State),
     ENT_CTRL.UNIT_RESET.of v.toNat = 1 →
     (if 4 ≤ latchCount (ENT_CTRL.LATCH_EN.of v.toNat) then set1 s ENT_CTRL.LATCH_EN (ENT_CTRL.LATCH_EN.of v.toNat) else s) = t →
     on t ENT_STATUS.PERM_FAIL = false →
     exec (.unitReset v) s = .next (showWires (entropyStartup t))) ∧
  (∀ (s : State) (v : BitVec 32) (t : State),
     (ENT_CTRL.UNIT_RESET.of v.toNat = 0 ∨ on t ENT_STATUS.PERM_FAIL = true) →
     (if 4 ≤ latchCount (ENT_CTRL.LATCH_EN.of v.toNat) then set1 s ENT_CTRL.LATCH_EN (ENT_CTRL.LATCH_EN.of v.toNat) else s) = t →
     exec (.unitReset v) s = .next t) ∧
  (∀ (s : State) (b : BitVec 8),
     entropyStarting s = true →
     b.toNat &&& s.latches = 0 →
     exec (.entropyStartupDone b true) s = .next (
       let t := ev (set1 (set1 (set1 s ENT_STATUS.STATE 1) ENT_STATUS.STARTUP_FAILS 0) ENT_STATUS.LATCH_FAIL 0) ENT_EVENT.READY_EV
       let u := { t with staged := t.wireWait, wireWait := [], reseedAt := t.now + 1000000, genCount := 0 }
       releaseAll (serveSpdm (serveSqpKeys u true) true))) ∧
  (∀ (s : State) (b : BitVec 8) (k : Bool),
     entropyStarting s = true →
     (b.toNat &&& s.latches ≠ 0 ∨ k = false) →
     exec (.entropyStartupDone b k) s = .next (
       let n := get1 s ENT_STATUS.STARTUP_FAILS + 1
       let t := entropyFails (set1 (set1 s ENT_STATUS.STARTUP_FAILS n) ENT_STATUS.LATCH_FAIL (b.toNat &&& s.latches))
       let u := if n = 4 then ev (set1 t ENT_STATUS.PERM_FAIL 1) ENT_EVENT.PERM_EV else t
       releaseAll (serveSpdm (serveSqpKeys u false) false))) ∧
  (∀ (s : State),
     entropyReady s = true →
     exec .healthWindowPass s = .next (
       let t := s.staged.foldl serveWire (countSat s ENT_HEALTH.WINDOWS 0 0 1)
       showWires { served t ((4096 - t.swBytes + 63) / 64) with staged := [], swBytes := 4096 })) ∧
  (∀ (s : State) (l : Fin 8) (a : Bool),
     entropyReady s = true →
     bit s.latches l.val = true →
     exec (.healthTestFail l a) s = .next (
       let t := set1 (countSat s (if a then ENT_HEALTH.APT_FAILS else ENT_HEALTH.RCT_FAILS) 0 0 1) ENT_STATUS.LATCH_FAIL (2 ^ l.val)
       let u := ev { set1 t ENT_STATUS.STATE 2 with staged := [], wireWait := [] } ENT_EVENT.FAIL_EV
       showWires ((t.staged ++ t.wireWait).foldl failWire u))) ∧
  (∀ (s : State),
     entropyReady s = true →
     (s.reseedAt ≤ s.now ∨ 2 ^ 20 ≤ s.genCount) →
     exec .drbgReseed s = .next { count s ENT_DRBG.RESEEDS 0 0 1 with reseedAt := s.now + 1000000, genCount := 0 }) ∧
  (∀ (s : State) (w : Fin 8) (n : Nat),
     entropyReady s = true →
     exec (.wireRequest w n) s = .next (showWires { s with staged := s.staged ++ [⟨w.val, n⟩] })) ∧
  (∀ (s : State) (w : Fin 8) (n : Nat),
     entropyReady s = false →
     entropyStarting s = true →
     exec (.wireRequest w n) s = .next (showWires { s with wireWait := s.wireWait ++ [⟨w.val, n⟩] })) ∧
  (∀ (s : State) (w : Fin 8) (n : Nat),
     entropyReady s = false →
     entropyStarting s = false →
     exec (.wireRequest w n) s = .next (emit s (.wire w.val none))) ∧
  (∀ (s : State) (f : Func) (d : BitVec 512) (t : State),
     entropyStarting s = false →
     entropyReady s = true →
     6 ≤ s.swBytes →
     draw s = (d, t) →
     exec (.entSwDataRead f) s = .next (emit { t with swBytes := s.swBytes - 6 } (.readValue f (if f = pf0 then 0xF00028 else 0x1000) (d.toNat % 2 ^ 48)))) ∧
  (∀ (s : State) (f : Func) (x : Nat),
     (if entropyStarting s then 2 ^ 63 else if entropyReady s then 2 ^ 61 else 2 ^ 62) = x →
     (entropyStarting s || !entropyReady s || decide (s.swBytes < 6)) = true →
     exec (.entSwDataRead f) s = .next (emit s (.readValue f (if f = pf0 then 0xF00028 else 0x1000) x)))

/-- The SPDM responder: negotiation, certificates, signatures, sessions and IDE keys (R534, R551, R554, R556, R558, R559). The message layouts are the model's (log entry 9). GET_VERSION starts the connection afresh; capabilities, algorithms, digests, certificate portions, challenges, measurements and key exchanges are answered in that order of progress, and out of it with an error. CHALLENGE_AUTH, signed measurements and KEY_EXCHANGE_RSP carry the alias key's signature over the transcript and fresh nonces. With the entropy unit READY a key exchange with a point on the curve opens a session from a key drawn on the die; in STARTUP it waits. FINISH completes the newest session or drops it; a completed one takes key updates and its end. An IDE key in a completed session is stored; once every stream has one IDE_ACTIVE is 1. What it adds to Toll's counts (tollDone) is the model's choice, log entry 80. -/
def Obligations.SpdmAnswersAndSessions : Prop :=
  (∀ (s : State) (m : Bytes),
     exec (.getVersion m) s = .next (spdmReply (modSpdm s (fun p => { p with versionDone := true, capsDone := false, algsDone := false, transcript := [] })) m [0x10, 0x04, 0, 0, 0, 1, 0x00, 0x12])) ∧
  (∀ (s : State) (m : Bytes),
     s.spdm.versionDone = true →
     exec (.getCapabilities m) s = .next (spdmReply (modSpdm s (fun p => { p with capsDone := true })) m ([0x12, 0x61, 0, 0] ++ Config.spdmField 0x61 0))) ∧
  (∀ (s : State) (m : Bytes),
     s.spdm.capsDone = true →
     exec (.negotiateAlgorithms m) s = .next (spdmReply (modSpdm s (fun p => { p with algsDone := true })) m ([0x12, 0x63, 0, 0] ++ Config.spdmField 0x63 0))) ∧
  (∀ (s : State) (m : Bytes),
     s.spdm.algsDone = true →
     exec (.getDigests m) s = .next (spdmReply s m ([0x12, 0x01, 0, 1] ++ digestBytes (sha384 (certChain s))))) ∧
  (∀ (s : State) (m : Bytes),
     s.spdm.algsDone = true →
     leAt m 2 1 % 16 = 0 →
     leAt m 4 2 < (certChain s).length →
     exec (.getCertificate m) s = .next (
       let off := leAt m 4 2
       let n := min (leAt m 6 2) ((certChain s).length - off)
       spdmReply s m ([0x12, 0x02, 0, 0] ++ toLe 2 n ++ toLe 2 ((certChain s).length - off - n) ++ slice (certChain s) off n))) ∧
  (∀ (s : State) (m : Bytes) (d : BitVec 512) (t : State),
     s.spdm.algsDone = true →
     leAt m 2 1 = 0 →
     draw s = (d, t) →
     exec (.challenge m) s = .next (
       let r := List.flatten [[0x12, 0x03, 0, 1], digestBytes (sha384 (certChain t)), (toBe 64 d.toNat).take 32, summaryHash t (leAt m 3 1), zeros 2]
       spdmReply t m (r ++ spdmSign t 0x03 m r))) ∧
  (∀ (s : State) (m : Bytes) (n : Nat) (r : Bytes) (d : BitVec 512) (t : State),
     s.spdm.algsDone = true →
     measurementRecord s (if bit (leAt m 2 1) 0 then slice m 4 32 else zeros 32) (leAt m 3 1) = some (n, r) →
     draw s = (d, t) →
     exec (.getMeasurements m) s = .next (
       let total := if leAt m 3 1 = 0 then measurementIndices.length else 0
       let x := List.flatten [[0x12, 0x60], toLe 1 total, [0], toLe 1 n, toLe 3 r.length, r, (toBe 64 d.toNat).take 32, zeros 2]
       spdmReply t m (if bit (leAt m 2 1) 0 then x ++ spdmSign t 0x60 m x else x))) ∧
  (∀ (s : State) (m : Bytes) (d : Nat) (e : BitVec 512) (t u : State),
     s.spdm.algsDone = true →
     entropyReady s = true →
     onCurve (beAt m 40 48) (beAt m 88 48) = true →
     leAt m 3 1 = 0 →
     drawScalar (served s 1) = (d, t) →
     draw (tollDone t none 2 0) = (e, u) →
     exec (.keyExchange m) s = .next (
       let own := u.spdm.sessions.length + 1
       let r := List.flatten [[0x12, 0x64, 0, 0], toLe 2 own, [0, 0], (toBe 64 e.toNat).take 32, (publicOf d).drop 1, summaryHash u (leAt m 2 1), zeros 2]
       let w := spdmReply u m (r ++ spdmSign u 0x64 m r ++ Config.spdmField 0x64 1)
       modSpdm w (fun p => { p with sessions := p.sessions ++ [⟨leAt m 4 2 + 2 ^ 16 * own, ecdhX d (beAt m 40 48, beAt m 88 48), false, 0⟩] }))) ∧
  (∀ (s : State) (m : Bytes),
     s.spdm.algsDone = true →
     entropyReady s = false →
     entropyStarting s = true →
     exec (.keyExchange m) s = .next (modSpdm s (fun p => { p with waiting := p.waiting ++ [m] }))) ∧
  (∀ (s : State) (m : Bytes) (x : Session),
     s.spdm.sessions.getLast? = some x →
     x.done = false →
     exec (.spdmFinish m) s = .next (
       if Config.spdmVerify x.secret s.spdm.transcript m then
         spdmReply (modSession s (fun y => [{ y with done := true }])) m ([0x12, 0x65, 0, 0] ++ Config.spdmField 0x65 0)
       else spdmError (modSession s (fun _ => [])) 6)) ∧
  (∀ (s : State) (m : Bytes) (x : Session),
     s.spdm.sessions.getLast? = some x →
     x.done = true →
     1 ≤ leAt m 2 1 →
     leAt m 2 1 ≤ 3 →
     exec (.keyUpdate m) s = .next (
       emit (if leAt m 2 1 = 3 then s else modSession s (fun y => [{ y with updates := y.updates + 1 }])) (.spdm ([0x12, 0x69] ++ slice m 2 2)))) ∧
  (∀ (s : State) (m : Bytes) (x : Session),
     s.spdm.sessions.getLast? = some x →
     x.done = true →
     exec (.endSession m) s = .next (emit (modSession s (fun _ => [])) (.spdm [0x12, 0x6C, 0, 0]))) ∧
  (∀ (s : State) (m : IdeKey),
     s.spdm.sessions.any (fun x => x.id == m.session && x.done) = true →
     exec (.ideKm m) s = .next (
       let t := modSpdm s (fun p => { p with ideKeys := p.ideKeys.filter (fun k => k.1 != m.stream) ++ [(m.stream, m.key)] })
       if m.allStreams then { set1 t HIF_LINK.IDE_ACTIVE 1 with ideOn := true } else t)) ∧
  (∀ (s : State) (m : Bytes),
     s.spdm.algsDone = false →
     exec (.getDigests m) s = .next (spdmError s 4) ∧ exec (.getCertificate m) s = .next (spdmError s 4) ∧ exec (.challenge m) s = .next (spdmError s 4) ∧
     exec (.getMeasurements m) s = .next (spdmError s 4) ∧ exec (.keyExchange m) s = .next (spdmError s 4))

/-- Cold resets, warm restarts, engine resets and what starts them (R533, R592, R593, R624, R628, R629, R630, R631, R634, R646, R647, R651). With the key and one request alone, PWR_CTRL starts a cold reset, a warm restart (where the firmware runs; absorbed otherwise) or the reset of engine 1 to 8, shown busy until it is done; any other write sets CTRL_EV. The watchdog and PERST restart warmly, PERST taking down the link and its IDE keys. An MCTP request, a low of 10 µs on the carrier's pin and TEST_MODE reset coldly, the last two holding the module until they end. A completed engine reset ends the engine's work; Press's tiles are zeroed, Wrap's noise FIFO is empty and Trier draws the Press keys again. INPUT_GOOD starts the module afresh. A good recovery image in the loader is stored in bank A and started. -/
def Obligations.ResetsActOnTheirDomains : Prop :=
  (∀ (s : State) (b : Boot),
     s.inputOn = false →
     exec (.inputGood b) s = .next (
       let t := { coldClear s with inputOn := true, holds := s.holds.filter (fun h => h == .pin || h == .test), trips := [], lastBoot := some b }
       emit (leaveCold t 0) (.faultPin false))) ∧
  (∀ (s : State) (b : Boot) (t : State),
     s.inputOn = true →
     startOutage s false = t →
     exec (.inputGood b) s = .next (
       let u := { coldClear t with inputOn := true, holds := t.holds.filter (fun h => h == .pin || h == .test), trips := [], lastBoot := some b }
       emit (leaveCold u 0) (.faultPin false))) ∧
  (∀ (s : State) (i : Bytes),
     running s = true →
     get1 s PWR_STATUS.BOOT_STAGE = 15 →
     exec (.recoveryImageLoad i) s = .next (
       let t := { s with flash := s.flash.set 0 i }
       if imageOk s.fuseSvn i then startImage (freeValue t).2 0 (bootFindings t) ((freeValue t).1.toNat % 65536) else s)) ∧
  (∀ (s : State) (v : BitVec 32),
     PWR_CTRL.KEY.of v.toNat = 0xB7 →
     PWR_CTRL.COLD_RESET.of v.toNat = 1 →
     PWR_CTRL.WARM_RESTART.of v.toNat = 0 →
     PWR_CTRL.ENGINE_RESET.of v.toNat = 0 →
     exec (.coldResetRequest v) s = .next (coldReset s 1 true)) ∧
  (∀ (s : State) (v : BitVec 32),
     PWR_CTRL.KEY.of v.toNat = 0xB7 →
     PWR_CTRL.COLD_RESET.of v.toNat = 0 →
     PWR_CTRL.WARM_RESTART.of v.toNat = 1 →
     PWR_CTRL.ENGINE_RESET.of v.toNat = 0 →
     inService s = true →
     exec (.warmRestartRequest v) s = .next (warmRestart s 1 true)) ∧
  (∀ (s : State) (v : BitVec 32),
     PWR_CTRL.KEY.of v.toNat = 0xB7 →
     PWR_CTRL.COLD_RESET.of v.toNat = 0 →
     PWR_CTRL.WARM_RESTART.of v.toNat = 1 →
     PWR_CTRL.ENGINE_RESET.of v.toNat = 0 →
     inService s = false →
     exec (.warmRestartRequest v) s = .next (s)) ∧
  (∀ (s : State) (v : BitVec 32),
     PWR_CTRL.KEY.of v.toNat = 0xB7 →
     PWR_CTRL.COLD_RESET.of v.toNat = 0 →
     PWR_CTRL.WARM_RESTART.of v.toNat = 0 →
     PWR_CTRL.ENGINE_RESET.of v.toNat = 1 →
     1 ≤ PWR_CTRL.ENGINE.of v.toNat →
     PWR_CTRL.ENGINE.of v.toNat ≤ 8 →
     bit (get1 s PWR_STATUS.ENG_BUSY) (PWR_CTRL.ENGINE.of v.toNat) = false →
     exec (.engineResetRequest v) s = .next (set1 s PWR_STATUS.ENG_BUSY (get1 s PWR_STATUS.ENG_BUSY + 2 ^ PWR_CTRL.ENGINE.of v.toNat))) ∧
  (∀ (s : State) (v : BitVec 32),
     (PWR_CTRL.KEY.of v.toNat ≠ 0xB7 ∨ PWR_CTRL.COLD_RESET.of v.toNat + PWR_CTRL.WARM_RESTART.of v.toNat + PWR_CTRL.ENGINE_RESET.of v.toNat ≠ 1 ∨ (PWR_CTRL.ENGINE_RESET.of v.toNat = 1 ∧ (PWR_CTRL.ENGINE.of v.toNat = 0 ∨ 8 < PWR_CTRL.ENGINE.of v.toNat))) →
     exec (.coldResetRequest v) s = .next (ev s PWR_EVENT.CTRL_EV) ∧ exec (.warmRestartRequest v) s = .next (ev s PWR_EVENT.CTRL_EV) ∧ exec (.engineResetRequest v) s = .next (ev s PWR_EVENT.CTRL_EV)) ∧
  (∀ (s : State) (e : Fin 9) (t : State),
     bit (get1 s PWR_STATUS.ENG_BUSY) e.val = true →
     (e.val == 8 && entropyStarting s) = false →
     endEngineWork (set1 s PWR_STATUS.ENG_BUSY (get1 s PWR_STATUS.ENG_BUSY - 2 ^ e.val)) e.val = t →
     exec (.engineResetDone e) s = .next (
       if e.val = 4 then { t with arrays := Vector.replicate 8 .idle } else if e.val = 5 then { t with noiseFifo := none } else if e.val = 8 then redrawPressKeys t else t)) ∧
  (∀ (s : State),
     inService s = true →
     exec .firmwareWatchdog s = .next (warmRestart s 9 false)) ∧
  (∀ (s t : State),
     (if inService s then warmRestart s 8 true else s) = t →
     exec .perstReset s = .next (
       let u := if t.ideOn then ev t HIF_EVENT.IDE_EV else t
       let w := set1 (set1 (set1 (set1 u HIF_LINK.UP 0) HIF_LINK.WIDTH 0) HIF_LINK.SPEED 0) HIF_LINK.IDE_ACTIVE 0
       modSpdm { w with ideOn := false, tspLocked := [] } (fun p => { p with ideKeys := [] }))) ∧
  (∀ (s : State),
     exec .mctpColdReset s = .next (coldReset s 3 true) ∧
     exec .testModeRise s = .next (coldReset { addHold s .test with testMode := true } 2 true) ∧
     exec .testModeFall s = .next (dropHold (endDrive { s with testMode := false } (tapActs s)) .test 2) ∧
     exec .carrierResetRelease s = .next (dropHold s .pin 2)) ∧
  (∀ (s : State) (n : Nat),
     10000 ≤ n →
     exec (.carrierResetPin n) s = .next (coldReset (addHold s .pin) 2 true)) ∧
  (∀ (s : State) (n : Nat),
     n < 10000 →
     exec (.carrierResetPin n) s = .next s)

/-- Trips, thermal holds, field ports and the failure window (R581, R587, R588, R615, R617, R627, R645). A brown-out below 38 V for 100 µs, 2,800 W, or 70 A for 50 µs trips a running module: FAULT# low, a cold reset with the cause, FAULT# high again once it is out. Above 63 V the input is disconnected until it falls below 60 V. A temperature at its trip resets coldly and holds, for good at the third within an hour; the hold ends with the die below 85 °C and the coolant at 40 °C or below. An optic at 80 °C or an enabled port down for 10 s is fenced. A port's link shows as it changes. A check failure older than 24 hours leaves the window, and the TRIER loop follows. -/
def Obligations.TripsAndPortsAreGuarded : Prop :=
  (∀ (s : State) (mv us : Nat),
     running s = true →
     mv < 38000 →
     100 ≤ us →
     exec (.brownoutTrip mv us) s = .next (
       let t := coldReset (emit s (.faultPin true)) 4 false
       if running t then emit t (.faultPin false) else t)) ∧
  (∀ (s : State) (w : Nat),
     running s = true →
     2800 ≤ w →
     exec (.overpowerTrip w) s = .next (
       let t := coldReset (emit s (.faultPin true)) 5 false
       if running t then emit t (.faultPin false) else t)) ∧
  (∀ (s : State) (ma us : Nat),
     running s = true →
     70000 ≤ ma →
     50 ≤ us →
     exec (.overcurrentTrip ma us) s = .next (
       let t := coldReset (emit s (.faultPin true)) 6 false
       if running t then emit t (.faultPin false) else t)) ∧
  (∀ (s : State) (a b : Nat),
     (running s = false ∨ 38000 ≤ a ∨ b < 100) →
     exec (.brownoutTrip a b) s = .next s) ∧
  (∀ (s : State) (mv : Nat),
     s.inputOn = true →
     63000 < mv →
     exec (.inputOvervoltage mv) s = .next (coldReset (addHold s .overvoltage) 0 false)) ∧
  (∀ (s : State) (mv : Nat),
     mv < 60000 →
     exec (.inputOvervoltageRelease mv) s = .next (if s.holds.contains .overvoltage then leaveCold { s with holds := s.holds.filter (· != .overvoltage) } 0 else s)) ∧
  (∀ (s : State) (t : Temps) (trips : List Nat) (u : State),
     running s = true →
     tooHot t = true →
     s.trips.filter (fun c => decide (s.clock < c + hourNs)) ++ [s.clock] = trips →
     { addHold s (if 3 ≤ trips.length then .thermalLatched else .thermal) with trips := trips } = u →
     exec (.thermalTrip t) s = .next (
       let w := coldReset (emit u (.faultPin true)) 7 false
       if running w then emit w (.faultPin false) else w)) ∧
  (∀ (s : State) (t : Temps) (u : State),
     s.holds.contains .thermal = true →
     t.die < 85000 →
     t.inlet ≤ 40000 →
     dropHold s .thermal 7 = u →
     exec (.thermalHoldRelease t) s = .next (if running u then emit u (.faultPin false) else u)) ∧
  (∀ (s : State) (p : Port) (c : Int),
     80000 ≤ c →
     exec (.opticalOvertemp p c) s = .next (fence (ev s PWR_EVENT.TRIP_EV) 1 p 0)) ∧
  (∀ (s : State) (p : Port) (t : Nat),
     lookup s.portDown p.val = some t →
     bit (get1 s LND_CTRL.PORT_EN) p.val = true →
     t + 10 * 10 ^ 9 ≤ s.now →
     exec (.portDownTimeout p) s = .next { fence s 1 p 5 with portDown := dropKey s.portDown p.val }) ∧
  (∀ (s : State) (p : Port),
     portOn s p = true →
     bit (get1 s LND_STATUS.PORT_UP) p.val = false →
     unitState s 1 p.val ≠ 1 →
     exec (.fieldPortLinkChange p true) s = .next { set1 s LND_STATUS.PORT_UP (get1 s LND_STATUS.PORT_UP + 2 ^ p.val) with portDown := dropKey s.portDown p.val }) ∧
  (∀ (s : State) (p : Port),
     portOn s p = true →
     bit (get1 s LND_STATUS.PORT_UP) p.val = true →
     exec (.fieldPortLinkChange p false) s = .next { set1 s LND_STATUS.PORT_UP (get1 s LND_STATUS.PORT_UP - 2 ^ p.val) with portDown := putN s.portDown p.val s.now }) ∧
  (∀ (s : State) (j : JobId) (keep : List Nat),
     (s.job j).failTimes.filter (fun t => decide (s.now < t + 24 * hourNs)) = keep →
     keep.length ≠ (s.job j).failTimes.length →
     exec (.failureWindowExpiry j) s = .next (
       trierLoop (fset (s.modJob j (fun J => { J with failTimes := keep })) TRI_JOB_CHECK.FAILS_24H j 0 (min keep.length 255)) j))

/-- TAP instructions and scans, the pins that boundary scan holds, debug sessions and test-logic reset (R650, R651, R652, R654, R655, R656, R657). An instruction loaded shows in IR. DEBUG_ACCESS opens a session where DBG_EN is set and none is open, sets LOCK_BYPASS_EV while DEBUG_LOCKED is 1, and has no other effect otherwise. Any other instruction, and test-logic reset (which loads IDCODE), closes an open session with CLOSE_EV. A scan shifts the captured data register out and the scanned bits in: IDCODE's number, one 0 for BYPASS, and under a boundary instruction the pins, whose place the last 63 bits take as the cells. In test mode the forms of EXTEST and CLAMP drive the pins from the cells, an open-drain pin low while its enable cell holds 1 and its output cell 0; HIGHZ releases all; the pins are given back when neither holds them. -/
def Obligations.TheTestPortObeysTheLock : Prop :=
  (∀ (s : State) (i : Byte) (t : State),
     i ≠ 0x20 →
     set1 { s with trst := true } TST_STATUS.IR i.toNat = t →
     exec (.tapInstructionLoad i none) s = .next (driveCells (if on t TST_STATUS.SESSION then ev (set1 t TST_STATUS.SESSION 0) TST_EVENT.CLOSE_EV else t) (tapActs s))) ∧
  (∀ (s t : State),
     set1 { s with trst := true } TST_STATUS.IR 0x20 = t →
     on t KST_STATUS.DEBUG_LOCKED = true →
     exec (.tapInstructionLoad 0x20 none) s = .next (driveCells (ev t TST_EVENT.LOCK_BYPASS_EV) (tapActs s))) ∧
  (∀ (s t : State),
     set1 { s with trst := true } TST_STATUS.IR 0x20 = t →
     on t KST_STATUS.DEBUG_LOCKED = false →
     exec (.tapInstructionLoad 0x20 none) s = .next (driveCells (if on t TST_CTRL.DBG_EN ∧ ¬ on t TST_STATUS.SESSION then ev (set1 t TST_STATUS.SESSION 1) TST_EVENT.OPEN_EV else t) (tapActs s))) ∧
  (∀ (s t : State) (i : Byte) (d : TapScan),
     exec (.tapInstructionLoad i none) s = .next t →
     2 ≤ tapActs t →
     tapActs t ≤ 5 →
     exec (.tapInstructionLoad i (some d)) s = .next (
       let q := (List.range 63).map d.pins.getLsbD ++ d.tdi
       let u := { emit t (.tdo (q.take d.tdi.length)) with cells := BitVec.ofNat 63 (ofBits (q.drop d.tdi.length)) }
       if 3 ≤ tapActs t then driveCells u (tapActs t) else u)) ∧
  (∀ (s t : State) (i : Byte) (d : TapScan),
     exec (.tapInstructionLoad i none) s = .next t →
     (tapActs t = 1 ∨ 6 ≤ tapActs t) →
     tapActs t ≠ 0x20 →
     exec (.tapInstructionLoad i (some d)) s = .next (
       let q := (if tapActs t = 1 then (List.range 32).map (bit (get1 t TST_IDCODE.IDCODE)) else [false]) ++ d.tdi
       emit t (.tdo (q.take d.tdi.length)))) ∧
  (∀ (s : State) (was : Nat),
     3 ≤ tapActs s →
     tapActs s ≤ 7 →
     driveCells s was = emit s (if tapActs s = 7 then .scanPins 7 none [false, false, false, false]
       else .scanPins (tapActs s) (if s.cells.getLsbD 0 then some (s.cells.extractLsb' 1 16) else none)
         [s.cells.getLsbD 54 && !s.cells.getLsbD 53, s.cells.getLsbD 57 && !s.cells.getLsbD 56, s.cells.getLsbD 59 && !s.cells.getLsbD 58, s.cells.getLsbD 62 && !s.cells.getLsbD 61])) ∧
  (∀ (s : State) (was : Nat),
     (tapActs s < 3 ∨ 7 < tapActs s) →
     driveCells s was = if 3 ≤ was ∧ was ≤ 7 then emit s (.scanPins 0xFF none []) else s) ∧
  (∀ (s : State) (x : Bool) (t : State),
     set1 { s with trst := x } TST_STATUS.IR 1 = t →
     exec (.testLogicReset x) s = .next (
       let u := if on t TST_STATUS.SESSION then ev (set1 t TST_STATUS.SESSION 0) TST_EVENT.CLOSE_EV else t
       if 3 ≤ tapActs s ∧ tapActs s ≤ 7 then emit u (.scanPins 0xFF none []) else u))

/-- PMU control, counter writes and wraps, tags, sample records and grants (R601, R603, R604, R605, R606, R608, R609, R610, R611, R612). A write of PMU_CTRL stores FREEZE and SAMP_EN, starts sampling as SAMP_EN rises, then takes a snapshot, then clears, as its bits ask. A counter is written while frozen only; running and enabled it wraps at 2^48 with OVF and its event. With the countdown at 0 a sampled instruction is tagged and the countdown reloaded, or skipped and counted with 16 in flight. A tag's record goes to the next entry of the buffer, or is counted lost with SBUF_EV where the buffer is full or the write fails. A read pointer below the size is stored. Grants are stored except for a confidential job's VF. -/
def Obligations.ThePmuCountsAndSamples : Prop :=
  (∀ (s : State) (v : BitVec 32),
     exec (.pmuFreeze v) s = .next (
       let t := storeReg s .PMU_CTRL 0 0 v.toNat
       let u := if on t PMU_CTRL.SAMP_EN && !on s PMU_CTRL.SAMP_EN then sampleStart t else t
       let w := if bit v.toNat 1 then snapshot u else u
       if bit v.toNat 3 then clearCounters w else w) ∧
     exec (.pmuSnapshot v) s = .next (
       let t := storeReg s .PMU_CTRL 0 0 v.toNat
       let u := if on t PMU_CTRL.SAMP_EN && !on s PMU_CTRL.SAMP_EN then sampleStart t else t
       let w := if bit v.toNat 1 then snapshot u else u
       if bit v.toNat 3 then clearCounters w else w) ∧
     exec (.pmuClearAll v) s = .next (
       let t := storeReg s .PMU_CTRL 0 0 v.toNat
       let u := if on t PMU_CTRL.SAMP_EN && !on s PMU_CTRL.SAMP_EN then sampleStart t else t
       let w := if bit v.toNat 1 then snapshot u else u
       if bit v.toNat 3 then clearCounters w else w) ∧
     exec (.sampEnable v) s = .next (
       let t := storeReg s .PMU_CTRL 0 0 v.toNat
       let u := if on t PMU_CTRL.SAMP_EN && !on s PMU_CTRL.SAMP_EN then sampleStart t else t
       let w := if bit v.toNat 1 then snapshot u else u
       if bit v.toNat 3 then clearCounters w else w)) ∧
  (∀ (s : State) (v : Word),
     on s PMU_CTRL.FREEZE = true →
     exec (.pmuValueWrite v) s = .next (storeSel s .PMU_CNT_VALUE v.toNat)) ∧
  (∀ (s : State) (v : Word),
     on s PMU_CTRL.FREEZE = false →
     exec (.pmuValueWrite v) s = .next s) ∧
  (∀ (s : State) (i : Fin 40) (n : Nat),
     on s PMU_CTRL.FREEZE = false →
     fget s PMU_CNT_CFG.EN i 0 ≠ 0 →
     2 ^ 48 ≤ fget s PMU_CNT_VALUE.VALUE i 0 + n →
     exec (.pmuCounterWrap i n) s = .next (
       ev (fset (fset s PMU_CNT_VALUE.VALUE i 0 (fget s PMU_CNT_VALUE.VALUE i 0 + n)) PMU_CNT_VALUE.OVF i 0 1) PMU_EVENT.OVF_EV)) ∧
  (∀ (s : State) (x : CtxId) (c : Ctx) (p : Fin 1024) (t : State),
     s.ctx? x = some c →
     sampled s x c = true →
     s.countdown = 0 →
     s.tags.length < 16 →
     reload { s with tags := s.tags ++ [newTag s x c p], tagNo := (s.tagNo + 1) % 2 ^ 32 } = t →
     exec (.sampleTag x p) s = .next (set1 t PMU_SAMP_STAT.INFLIGHT t.tags.length)) ∧
  (∀ (s : State) (x : CtxId) (c : Ctx) (p : Fin 1024),
     s.ctx? x = some c →
     sampled s x c = true →
     s.countdown = 0 →
     16 ≤ s.tags.length →
     exec (.sampleTag x p) s = .next (reload (countSat s PMU_SAMP_STAT.SKIPPED 0 0 1))) ∧
  (∀ (s : State) (n : Nat) (m : SampleMeasure) (g : Tag) (t : State),
     s.tags.find? (fun t => t.number == n) = some g →
     set1 { s with tags := s.tags.filter (fun u => u.number != n) } PMU_SAMP_STAT.INFLIGHT (s.tags.filter (fun u => u.number != n)).length = t →
     (get1 t PMU_SBUF_WR.WR + 1) % 2 ^ get1 t PMU_SBUF_CFG.LOG2_RECORDS ≠ get1 t PMU_SBUF_RD.RD →
     m.written = true →
     exec (.sampleRecordWrite n m) s = .next (
       let wr := get1 t PMU_SBUF_WR.WR
       let u := hostPut t (get1 t PMU_SBUF_BASE.ADDR * 4096 + 32 * wr) (sampleBytes g m t.sampleLost)
       { set1 u PMU_SBUF_WR.WR ((wr + 1) % 2 ^ get1 t PMU_SBUF_CFG.LOG2_RECORDS) with sampleLost := false })) ∧
  (∀ (s : State) (n : Nat) (m : SampleMeasure) (g : Tag) (t : State),
     s.tags.find? (fun t => t.number == n) = some g →
     set1 { s with tags := s.tags.filter (fun u => u.number != n) } PMU_SAMP_STAT.INFLIGHT (s.tags.filter (fun u => u.number != n)).length = t →
     ((get1 t PMU_SBUF_WR.WR + 1) % 2 ^ get1 t PMU_SBUF_CFG.LOG2_RECORDS = get1 t PMU_SBUF_RD.RD ∨ m.written = false) →
     exec (.sampleRecordWrite n m) s = .next { ev (countSat t PMU_SAMP_STAT.LOST 0 0 1) PMU_EVENT.SBUF_EV with sampleLost := true }) ∧
  (∀ (s : State) (v : BitVec 32),
     v.toNat < 2 ^ get1 s PMU_SBUF_CFG.LOG2_RECORDS →
     exec (.sbufRdWrite v) s = .next (storeReg s .PMU_SBUF_RD 0 0 v.toNat)) ∧
  (∀ (s : State) (v : BitVec 32),
     2 ^ get1 s PMU_SBUF_CFG.LOG2_RECORDS ≤ v.toNat →
     exec (.sbufRdWrite v) s = .next s) ∧
  (∀ (s : State) (v : Word) (j : JobId),
     Fin.ofNat 16 (get1 s PMU_VF_SEL.VF) = j →
     s.conf j = false →
     exec (.vfGrantWrite v) s = .next (storeReg s .PMU_VF_GRANT (get1 s PMU_VF_SEL.VF) 0 v.toNat)) ∧
  (∀ (s : State) (v : Word) (j : JobId),
     Fin.ofNat 16 (get1 s PMU_VF_SEL.VF) = j →
     s.conf j = true →
     exec (.vfGrantWrite v) s = .next s)

/-- Register reads and writes by a function at an offset (R14, R16, R18, R19, R402, R403, R404, R610). A read that lands on a register's copy answers what the copy reads as and has the read's effects; one that lands on no register reads 0 and changes nothing; a refused one (outside the permitted set, or of a wrong size or alignment) reads 0 and is counted with ACC_EV. A VF's read in its counter page answers the granted counter or 0. A write that lands on a copy acts on it with the value cut to the register's width; one on no register does nothing; a refused one is counted. -/
def Obligations.RegisterAccessesFollowTheirOffsets : Prop :=
  (∀ (s : State) (f : Func) (off size : Nat) (r : Reg) (a b v : Nat) (t : State),
     pmuPage f off = none →
     access s f off size = .reg r a b →
     readCopy s f r a b = (v, t) →
     exec (.rclRead f off size) s = .next (emit t (.readValue f off v))) ∧
  (∀ (s : State) (f : Func) (off size : Nat),
     pmuPage f off = none →
     access s f off size = .gap →
     exec (.rclRead f off size) s = .next (emit s (.readValue f off 0)) ∧ ∀ v, exec (.registerWrite f off size v) s = .next s) ∧
  (∀ (s : State) (f : Func) (off size : Nat),
     pmuPage f off = none →
     access s f off size = .denied →
     exec (.rclRead f off size) s = .next (emit (ev (count s HIF_VF_ACC.DENIED f 0 1) HIF_EVENT.ACC_EV) (.readValue f off 0)) ∧
     exec (.deniedRegisterRead f off size) s = .next (emit (ev (count s HIF_VF_ACC.DENIED f 0 1) HIF_EVENT.ACC_EV) (.readValue f off 0)) ∧
     ∀ v, exec (.registerWrite f off size v) s = .next (ev (count s HIF_VF_ACC.DENIED f 0 1) HIF_EVENT.ACC_EV)) ∧
  (∀ (s : State) (f : Func) (off size : Nat),
     pmuPage f off = none →
     access s f off size = .missized →
     exec (.rclRead f off size) s = .next (emit (ev (count s HIF_VF_ACC.MISSIZED f 0 1) HIF_EVENT.ACC_EV) (.readValue f off 0)) ∧
     exec (.deniedRegisterRead f off size) s = .next (emit (ev (count s HIF_VF_ACC.MISSIZED f 0 1) HIF_EVENT.ACC_EV) (.readValue f off 0)) ∧
     ∀ v, exec (.registerWrite f off size v) s = .next (ev (count s HIF_VF_ACC.MISSIZED f 0 1) HIF_EVENT.ACC_EV)) ∧
  (∀ (s : State) (f : Func) (off size i : Nat),
     pmuPage f off = some i →
     exec (.rclRead f off size) s = .next (emit s (.readValue f off (
       if size = 8 ∧ off % 8 = 0 ∧ bit (fget s PMU_VF_GRANT.GRANT f 0) i ∧ fget s PMU_CNT_CFG.JOB_ALL i 0 = 0 ∧ fget s PMU_CNT_CFG.JOB i 0 = f.val then
         readReg s .PMU_CNT_VALUE i 0
       else 0)))) ∧
  (∀ (s : State) (f : Func) (off size : Nat) (r : Reg) (a b : Nat) (v : Word),
     access s f off size = .reg r a b →
     exec (.registerWrite f off size v) s = .next (writeCopy s f r a b (v.toNat % 2 ^ r.place.width)))

/-- Work that an instruction issued completes (R369, R389, R390). Work that an instruction issued stays while an array drain, a MAC on a fenced array or a refresh still acts on it. After that it leaves its invocation's list, a MAC its array, and the handles that it locked are free: with no status the invocation settles where it was ending; with a status it stops with ENGINE_STATUS, the status's space and value, and the instruction's place. -/
def Obligations.IssuedWorkEnds : Prop :=
  (∀ (s₀ s t : State) (x : CtxId) (n : Nat) (c : Ctx) (o : IssuedOp),
     s = replaceFenced s₀ →
     s.ctx? x = some c →
     c.issued.find? (fun o => o.id == n) = some o →
     stillActing s c.job x n = false →
     t = { (macDone s x n).modCtx x (fun c => { c with issued := c.issued.filter (fun o => o.id != n) }) with locks := s.locks.filter (fun l => !(l.ctx == ctxNo x && l.op == n)) } →
     o.space = 0 →
     o.detail = 0 →
     exec (.issuedWorkComplete x n) s₀ = .next (settleEnd t x)) ∧
  (∀ (s₀ s t : State) (x : CtxId) (n : Nat) (c : Ctx) (o : IssuedOp),
     s = replaceFenced s₀ →
     s.ctx? x = some c →
     c.issued.find? (fun o => o.id == n) = some o →
     stillActing s c.job x n = false →
     t = { (macDone s x n).modCtx x (fun c => { c with issued := c.issued.filter (fun o => o.id != n) }) with locks := s.locks.filter (fun l => !(l.ctx == ctxNo x && l.op == n)) } →
     (o.space ≠ 0 ∨ o.detail ≠ 0) →
     exec (.issuedWorkComplete x n) s₀ = .next (stopWith t x .engineStatus o.space o.detail o.pc)) ∧
  (∀ (s₀ s : State) (x : CtxId) (n : Nat) (c : Ctx) (o : IssuedOp),
     s = replaceFenced s₀ →
     s.ctx? x = some c →
     c.issued.find? (fun o => o.id == n) = some o →
     stillActing s c.job x n = true →
     exec (.issuedWorkComplete x n) s₀ = .next s)

/-- A step runs the command at the front of the queue (R28). For every command and state, a step of the state with the command at the front of its queue is the command's meaning on the state with the queue's rest. The queue is the model's own. -/
def Obligations.ACommandAtTheFrontRuns : Prop :=
  (∀ (s : State) (c : Instr) (rest : List Instr),
     step { s with pending := c :: rest } = exec c { s with pending := rest }) ∧
  (∀ (s : State) (c : Instr) (rest : List Instr),
     s.pending = c :: rest →
     step s = exec c { s with pending := rest })

/-- A step on an empty queue is a nanosecond of module time (R494, R499, R598). On an empty queue a step answers a next state, a nanosecond later in all. Module time goes on by 1 with nothing to slew; a slew forward adds 1 more at every 10,000th tick, one backward withholds the 1 at every 10,000th, or at every 1,000th while the module is more than 1 ms ahead. That idling is a tick is the model's choice (assumption 11). -/
def Obligations.AnEmptyQueueLetsANanosecondPass : Prop :=
  (∀ (s : State),
     s.pending = [] →
     ∃ t, step s = .next t ∧ t.pending = [] ∧ t.clock = s.clock + 1 ∧ s.now ≤ t.now ∧ t.now ≤ s.now + 2 ∧ t.mem = s.mem ∧ t.jobs = s.jobs ∧ t.out = s.out) ∧
  (∀ (s : State),
     s.pending = [] →
     s.slew = 0 →
     ∃ t, step s = .next t ∧ t.now = s.now + 1 ∧ t.slew = 0) ∧
  (∀ (s : State),
     s.pending = [] →
     0 < s.slew →
     s.slewTicks = 9999 →
     ∃ t, step s = .next t ∧ t.now = s.now + 2 ∧ t.slew = s.slew - 1 ∧ t.slewTicks = 0) ∧
  (∀ (s : State),
     s.pending = [] →
     s.slew < -1000000 →
     s.slewTicks = 999 →
     ∃ t, step s = .next t ∧ t.now = s.now ∧ t.slew = s.slew + 1 ∧ t.slewTicks = 0) ∧
  (∀ (s : State),
     s.pending = [] →
     -1000000 ≤ s.slew →
     s.slew < 0 →
     s.slewTicks = 9999 →
     ∃ t, step s = .next t ∧ t.now = s.now ∧ t.slew = s.slew + 1 ∧ t.slewTicks = 0)

/-- The state after reset (R12, R13, R20). After reset every field of every register copy reads its reset value, and among them the values that the register tables give Landing, the Vat, the Key Store and the counters; the queue, the memories, the Roster, the logs, the channels and the jobs are empty, and the state is canonical. -/
def Obligations.TheResetStateIsAsTheSpecGives : Prop :=
  (∀ (f : Fld) (a b : Nat),
     fget State.reset f a b = f.reset) ∧
  (∀ (f : Nat),
     (fget State.reset LND_QUAR_THRESH.THRESH 0 0 = 1024 ∧ fget State.reset LND_CLOSE_DRAIN.DRAIN_US 0 0 = 100 ∧ fget State.reset LND_FE_CREDIT.CREDIT_MAX f 0 = 4096 ∧
     fget State.reset LND_FE_CREDIT.CREDIT_MIN f 0 = 64 ∧ fget State.reset LND_CTRL.ENABLE 0 0 = 0 ∧ fget State.reset LND_VERSIONS.ACCEPT_V2 0 0 = 1)) ∧
  (State.reset.Canonical ∧ State.reset.pending = [] ∧ State.reset.out = [] ∧ State.reset.roster = [] ∧ ∀ j, (State.reset.job j).present = false)

/-- Every command answers a next state and leaves alone what it owes the machine (R442, R447, R534, R551, R606). For every command and every state, the command answers a next state: it never faults and is never refused. That state has the same queue, has sent all that had been sent, uses no draw twice, and neither its total time nor its fused security version is smaller; and where the memories, register file, logs, tags and Ferry channels were in their form, they still are. -/
def Obligations.EveryCommandAnswers : Prop :=
  ∀ (c : Instr) (s : State),
    ∃ t, exec c s = .next t ∧ Keeps s t

/-- Every step keeps the machine in canonical form and within its capacities (R442, R447, R606). In every state in canonical form, whatever command stands at the front of the queue, a step answers a next state in canonical form: every memory lists rising addresses and no byte that reads as an unlisted one, the register file holds no field twice, no event log holds more than its 1,024 or 2,048 records, at most 16 tagged instructions are in flight, and every Ferry block and held send has 1 to 64 bytes. -/
def Obligations.EveryStepKeepsTheCanonicalForm : Prop :=
  (∀ (s : State),
     s.Canonical →
     ∃ t, step s = .next t ∧ t.Canonical) ∧
  (∀ (s t : State),
     s.Canonical →
     step s = .next t →
     (∀ f : Func, (t.log f).length ≤ 4 * logCap f) ∧ t.tags.length ≤ 16 ∧ ∀ (c : Fin 64) (b : Bytes) (by_ : Nat), (t.chan c).block = some (b, by_) → 1 ≤ b.length ∧ b.length ≤ 64)

/-- A run takes the commands in order and takes nothing back (R534, R551). Along any run of steps, after n steps the queue holds what is left of it after its first n commands, everything sent earlier is still on record in the same order, no random draw is used twice, the total time has not fallen, the fused security version has not fallen, and a canonical state has stayed canonical. -/
def Obligations.RunsTakeTheCommandsInOrder : Prop :=
  ∀ (run : Nat → State),
    (∀ i, step (run i) = .next (run (i + 1))) →
    ∀ n, (run n).pending = (run 0).pending.drop n ∧ (run 0).out <:+ (run n).out ∧ (run 0).fresh ≤ (run n).fresh ∧ (run 0).clock ≤ (run n).clock ∧
      (run 0).fuseSvn ≤ (run n).fuseSvn ∧ ((run 0).Canonical → (run n).Canonical)

/-- A register field set reads back, and no other field changes (R6, R12, R13). A field of a register copy that is set reads the value cut to the field's width; every field of another place or copy reads as before; nothing but the register file changes; and the register file still holds no field twice. -/
def Obligations.FieldsReadBack : Prop :=
  ∀ (s : State) (f : Fld) (a b v : Nat),
    fget (fset s f a b v) f a b = v % 2 ^ f.width ∧ (∀ (g : Fld) (x y : Nat), g.key x y ≠ f.key a b → fget (fset s f a b v) g x y = fget s g x y) ∧
      { fset s f a b v with regs := s.regs } = s ∧ (Registers.wf s.regs → Registers.wf (fset s f a b v).regs)

/-- Bytes written read back, and canonical memories that read alike are equal (R8, R151). After bytes are written to a cell list, each of them reads at its address and every other address reads as before; a write keeps the canonical form; and two canonical cell lists that read alike at every address are the same list. -/
def Obligations.BytesReadBack : Prop :=
  (∀ (m : List Host.Cell) (a : Nat) (d : Bytes) (x : Nat),
     memByte (memWrite m a d) x = if a ≤ x ∧ x < a + d.length then d.getD (x - a) 0 else memByte m x) ∧
  (∀ (m : List Host.Cell) (a : Nat) (d : Bytes),
     memRead (memWrite m a d) a d.length = d ∧ (Memory.wf m → Memory.wf (memWrite m a d))) ∧
  (∀ (m n : List Host.Cell),
     Memory.wf m = true →
     Memory.wf n = true →
     (∀ a, memByte m a = memByte n a) →
     m = n)

/-- The fused SVN moves only to the running image's SVN, and only up (R534). A write to KST_SVN_COMMIT of a value that equals the running image's SVN and exceeds the fused SVN makes the fused SVN that value; any other write is ignored. No command whatever lowers the fused SVN. -/
def Obligations.TheFusedVersionNeverFalls : Prop :=
  (∀ (s : State) (v : BitVec 32),
     v.toNat = get1 s KST_FW.SVN →
     s.fuseSvn < v.toNat →
     exec (.svnCommit v) s = .next { set1 s KST_FW.FUSED_SVN v.toNat with fuseSvn := v.toNat }) ∧
  (∀ (s : State) (v : BitVec 32),
     (v.toNat ≠ get1 s KST_FW.SVN ∨ v.toNat ≤ s.fuseSvn) →
     exec (.svnCommit v) s = .next s) ∧
  (∀ (s t : State) (c : Instr),
     exec c s = .next t →
     s.fuseSvn ≤ t.fuseSvn)

/-- Reads of the event log, and records that find it full (R448, R449). A read of EVLOG_DATA returns the next word and removes it; a read of an empty log returns 0 and sets UNDERRUN. A record that arrives at a full log is not stored, is counted in LOST, and sets OVERRUN; the next record that the log accepts carries LOST = 1, and the one after it does not. -/
def Obligations.TheEventLogKeepsItsOrder : Prop :=
  (∀ (s : State) (f : Func) (w : Nat) (ws : List Nat),
     s.log f = w :: ws →
     exec (.evlogDataRead f) s = .next (emit (s.setLog f ws) (.readValue f 0x88 w)) ∧ (s.setLog f ws).log f = ws) ∧
  (∀ (s : State) (f : Func),
     s.log f = [] →
     ∃ t, exec (.evlogDataRead f) s = .next (emit t (.readValue f 0x88 0)) ∧ fget t HIF_VF_EVLOG_STAT.UNDERRUN f 0 = 1 ∧ t.log f = []) ∧
  (∀ (s t : State) (f : Func) (type round a b : Nat),
     logCap f ≤ ((s.log f).length + 3) / 4 →
     logRecord s f type round a b = t →
     t.log f = s.log f ∧ fget t HIF_VF_EVLOG_STAT.LOST f 0 = min (fget s HIF_VF_EVLOG_STAT.LOST f 0 + 1) (2 ^ HIF_VF_EVLOG_STAT.LOST.width - 1) ∧ fget t HIF_VF_EVLOG_STAT.OVERRUN f 0 = 1 ∧ f.val ∈ t.logLost) ∧
  (∀ (s t u : State) (f : Func) (type round a b type2 round2 a2 b2 : Nat),
     f.val ∈ s.logLost →
     ((s.log f).length + 3) / 4 < logCap f →
     logRecord s f type round a b = t →
     ((t.log f).length + 3) / 4 < logCap f →
     logRecord t f type2 round2 a2 b2 = u →
     t.log f = s.log f ++ recordWords true type round s.now a b ∧ u.log f = t.log f ++ recordWords false type2 round2 t.now a2 b2)

/-- No write gives one berth to two jobs (R160). While no berth is held by two jobs, a write of VAT_JOB_BERTHS, whatever it names and whichever job is selected, leaves no berth held by two jobs; at reset none is held. So a job-relative address of one job and one of another never map to the same byte of the Vat. -/
def Obligations.BerthsStayApart : Prop :=
  (∀ (s t : State) (n : Fin 6) (v : Word),
     (∀ (m : Fin 6) (j k : Fin 16), j ≠ k → fget s VAT_JOB_BERTHS.BERTH j m &&& fget s VAT_JOB_BERTHS.BERTH k m = 0) →
     exec (.berthWrite n v) s = .next t →
     ∀ (m : Fin 6) (j k : Fin 16), j ≠ k → fget t VAT_JOB_BERTHS.BERTH j m &&& fget t VAT_JOB_BERTHS.BERTH k m = 0) ∧
  (∀ (m : Fin 6) (j k : Fin 16),
     fget State.reset VAT_JOB_BERTHS.BERTH j m &&& fget State.reset VAT_JOB_BERTHS.BERTH k m = 0) ∧
  (∀ (s : State) (j k : JobId) (a b x : Nat),
     j ≠ k →
     (∀ (m : Fin 6) (j k : Fin 16), j ≠ k → fget s VAT_JOB_BERTHS.BERTH j m &&& fget s VAT_JOB_BERTHS.BERTH k m = 0) →
     vatOf s j a = some x →
     vatOf s k b ≠ some x)

/-- A near-memory operation or a line write changes no byte but those it names (R153, R155, R183). Of a RADD, GADD, ADD64, FADD, MAX_MIN, CAS64 or LINE_WRITE that is not refused and whose reads find no error, whatever state it leaves, every Vat byte outside the bytes that it names (8 for the 64-bit operations, its data's length for the element operations and the write, 4 or 8 for a maximum or minimum) reads as before, the bytes of the bitmaps, check accumulators and ring accumulators that rounds keep in the Vat among them; no HBM byte of any job outside a round's structures, no byte of the HDM window, no Roster entry, queue or context changes. The rounds are masked and no two of a job have one number; of a sealed round's sums a store to a header byte changes what the header's other bytes derive from it. -/
def Obligations.BankCommandsWriteTheirOwnBytes : Prop :=
  ∀ (s t : State) (i : Issuer) (addr : VatAddr) (n : Nat) (c : Instr),
    ((∃ ring d, c = .radd i addr ring d ⟨0, false⟩ ∧ n = d.length) ∨ (∃ x ask, c = .gadd i addr x ask ⟨0, false⟩ ∧ n = 8) ∨ (∃ x ask, c = .add64 i addr x ask ⟨0, false⟩ ∧ n = 8) ∨
(∃ d, c = .fadd i addr d ⟨0, false⟩ ∧ n = d.length) ∨ (∃ op x ask, c = .maxMin i addr op x ask ⟨0, false⟩ ∧ n = maxMinSize op) ∨ (∃ a b, c = .cas64 i addr a b ⟨0, false⟩ ∧ n = 8) ∨
(∃ d, c = .lineWrite i addr d ⟨0, false⟩ ∧ n = d.length)) →
    (∀ x, addr.val ≤ x → x < addr.val + max 1 n → refusesAccess s i x = false) →
    (∀ j : JobId, ((s.job j).rounds.map (·.number)).Nodup ∧ ∀ x ∈ (s.job j).rounds, pSealed x.plan = false) →
    exec c s = .next t →
    (∀ x, ¬ (addr.val ≤ x ∧ x < addr.val + n) → vatByte t x = vatByte s x) ∧ t.hdm = s.hdm ∧ (∀ j, (t.job j).hbm = (s.job j).hbm) ∧ t.roster = s.roster ∧
      t.pending = s.pending ∧ t.contexts = s.contexts

/-- Chunks added into a ring accumulator add coordinate by coordinate, in any order (R78, R168, R187). The elements of a chunk added into an accumulator change exactly the chunk's coordinates, each to its ring sum with the element, and two chunks, of the same or of different coordinates, give the same sums in either order. -/
def Obligations.RingSumsDoNotDependOnOrder : Prop :=
  (∀ (w base k : Nat) (acc : NatMap Nat) (ys : List Nat),
     readD 0 (addElems w base acc ys) k = if base ≤ k ∧ k < base + ys.length then ringAdd w (readD 0 acc k) (ys.getD (k - base) 0) else readD 0 acc k) ∧
  (∀ (w a b k : Nat) (acc : NatMap Nat) (xs ys : List Nat),
     readD 0 (addElems w b (addElems w a acc xs) ys) k = readD 0 (addElems w a (addElems w b acc ys) xs) k)

/-- Removing a cohort's masks leaves the survivors' sum (R127, R140, R141). Let a masked cohort's accumulator hold, at a coordinate outside the void chunks, a value q plus the contribution of every mask still to be removed, modulo 2^w: a stream that is to be added back entered negatively, one that is to be subtracted positively. When Unmask completes, the coordinate holds q modulo 2^w, every coordinate of a void chunk is as it was, and the cohort's secrets and mask keys are erased. -/
def Obligations.UnmaskingLeavesTheExactSum : Prop :=
  ∀ (s : State) (j : JobId) (r : RoundNo) (c : CohortId) (x : Round) (i q : Nat),
    s.round? j r = some x →
    begun x 7 = true →
    c.val < pCohortCount x.plan →
    (x.cohort c).reason = 0 →
    (x.cohort c).unmasked = false →
    s.alive j = true →
    pSealed x.plan = false →
    cultureOn s = true →
    (x.cohort c).checked = true →
    (x.cohort c).secrets.all (·.done) = true →
    metPoison s j (unitPlaces s j x c (clearUnits x.plan (x.cohort c))) = none →
    i < pSlice x.plan →
    (readD 0 (x.cohort c).accum i % 2 ^ (pRing x.plan).bits = (q + ((x.cohort c).masks.map (fun m =>
      let e := maskElem (pRing x.plan) m.key (maskNonce (pRing x.plan)) i
      if m.adds then ringNeg (pRing x.plan).bits e else e)).sum) % 2 ^ (pRing x.plan).bits) →
    ∃ t, exec (.cohortUnmaskDone j r c) s = .next t ∧ (t.cohort j r c).secrets = [] ∧ (t.cohort j r c).masks = [] ∧ (t.cohort j r c).unmasked = true ∧
      ((x.cohort c).voids.contains (i / pChunk x.plan) = false → readD 0 (t.cohort j r c).accum i % 2 ^ (pRing x.plan).bits = q % 2 ^ (pRing x.plan).bits) ∧
      ((x.cohort c).voids.contains (i / pChunk x.plan) = true → readD 0 (t.cohort j r c).accum i = readD 0 (x.cohort c).accum i)

/-- G64 sums are exact or the marker, whatever the order (R179, R180, R187). Addends that hold no marker and whose magnitudes add to at most 2^63 - 1 sum, from 0 and in any order, to their exact sum; one marker among the addends makes the sum the marker; and two addends give the same sum in either order. -/
def Obligations.ExactTotalsDoNotDependOnOrder : Prop :=
  (∀ (l : List Word),
     (∀ x ∈ l, x ≠ g64Marker) →
     (l.map (fun x => x.toInt.natAbs)).sum < 2 ^ 63 →
     (l.foldl g64Add 0).toInt = (l.map (·.toInt)).sum ∧ ∀ l₂, l.Perm l₂ → l₂.foldl g64Add 0 = l.foldl g64Add 0) ∧
  (∀ (l : List Word) (a : Word),
     g64Marker ∈ l →
     l.foldl g64Add a = g64Marker) ∧
  (∀ (a b : Word),
     g64Add a b = g64Add b a)

/-- What the narrow commands leave unchanged (R370, R440, R448, R495, R558, R601, R610, R650). Whatever state they leave: a control instruction changes no entry but its own context's and the sampling countdown; an SPDM request no field but the responder's, the draw counter and what is sent; a Ferry or Hail command none but registers, channels, the handshake's fields, the outage in progress, the draw counter and what is sent; a doorbell, result or log access none but registers, rings, logs and what is sent; the berth, grant, sample-pointer, counter, reinstate and datagram commands none but registers; a 1PPS edge or an Announce none but registers and the time unit's choice; a TAP reset none but registers, TRST# and what is sent. -/
def Obligations.NarrowCommandsTouchTheirOwnFields : Prop :=
  (∀ (s t : State) (c : Instr) (x : CtxId),
     (c = .nop x ∨ c = .endLoop x ∨ c = .movi x ∨ c = .movhi x ∨ c = .addi x ∨ c = .add x ∨ c = .shli x ∨ c = .skipz x ∨ c = .skipnz x ∨ c = .fence x ∨ c = .waitCnt x) →
     exec c s = .next t →
     { t with contexts := s.contexts, countdown := s.countdown } = s ∧ ∀ y, y ≠ ctxNo x → lookup t.contexts y = lookup s.contexts y) ∧
  (∀ (s t : State) (c : Instr),
     ((∃ m, c = .getVersion m) ∨ (∃ m, c = .getCapabilities m) ∨ (∃ m, c = .negotiateAlgorithms m) ∨ (∃ m, c = .getDigests m) ∨ (∃ m, c = .getCertificate m) ∨ (∃ m, c = .challenge m) ∨ (∃ m, c = .getMeasurements m) ∨ (∃ m, c = .spdmFinish m) ∨ (∃ m, c = .keyUpdate m) ∨ (∃ m, c = .endSession m)) →
     exec c s = .next t →
     { t with spdm := s.spdm, fresh := s.fresh, out := s.out } = s) ∧
  (∀ (s t : State) (c : Instr),
     ((∃ e v, c = .ferryBlockSend e v) ∨ (∃ e v, c = .ferryNoticeSend e v) ∨ (∃ e v, c = .ferryTake e v) ∨ (∃ e, c = .ferryNoticeRead e) ∨ (∃ e v, c = .ferryRxReset e v) ∨ (∃ f, c = .hailSend f) ∨ (∃ f, c = .hailAck f) ∨ (∃ n, c = .firmwareBlockTake n)) →
     exec c s = .next t →
     { t with regs := s.regs, channels := s.channels, hailCount := s.hailCount, hailSession := s.hailSession, hailDue := s.hailDue, outageFrom := s.outageFrom, fresh := s.fresh, out := s.out } = s) ∧
  (∀ (s t : State) (c : Instr),
     ((∃ f v, c = .sqTailDoorbell f v) ∨ (∃ f v, c = .cqHeadDoorbell f v) ∨ (∃ j, c = .resStatRead j) ∨ (∃ f, c = .evlogDataRead f) ∨ (∃ f v, c = .evlogFlush f v) ∨ (∃ f v, c = .evlogFlushAll f v)) →
     exec c s = .next t →
     { t with regs := s.regs, rings := s.rings, logs := s.logs, out := s.out } = s) ∧
  (∀ (s t : State) (c : Instr),
     ((∃ n v, c = .berthWrite n v) ∨ (∃ v, c = .vfGrantWrite v) ∨ (∃ v, c = .sbufRdWrite v) ∨ (∃ v, c = .pmuValueWrite v) ∨ (∃ i n, c = .pmuCounterWrap i n) ∨ (∃ p d, c = .udDatagram p d) ∨ (∃ v, c = .reinstate v)) →
     exec c s = .next t →
     { t with regs := s.regs } = s) ∧
  (∀ (s t : State) (c : Instr),
     ((∃ p, c = .ppsEdge p) ∨ (∃ p a, c = .ptpAnnounce p a)) →
     exec c s = .next t →
     { t with regs := s.regs, lastPps := s.lastPps, best := s.best, lastAnnounce := s.lastAnnounce } = s) ∧
  (∀ (s t : State) (x : Bool),
     exec (.testLogicReset x) s = .next t →
     { t with regs := s.regs, trst := s.trst, out := s.out } = s)
end

