-- ==== Sys2Proof/Laws/Sparse.lean ====
section
/-! SUPPORT. The laws of sparse tables: read after write, and the operations that keep the canonical form. -/

namespace Sys2Proof.Machine

variable {κ α : Type} [DecidableEq κ]

theorem lookup_dropKey (m : List (κ × α)) (k k' : κ) : lookup (dropKey m k) k' = if k' = k then none else lookup m k' := by
  induction m with
  | nil => simp [dropKey, lookup]
  | cons e m ih =>
    unfold dropKey at ih
    by_cases h : e.1 = k
    · by_cases h' : k' = k <;> simp_all [dropKey, lookup, eq_comm]
    · by_cases h' : e.1 = k'
      · simp_all [dropKey, lookup]
      · simp_all [dropKey, lookup, List.filter_cons]

theorem lookup_place (ord : κ → Nat) (m : List (κ × α)) (k k' : κ) (v : α) (h : lookup m k = none) :
    lookup (place ord m k v) k' = if k = k' then some v else lookup m k' := by
  induction m with
  | nil => simp [place, lookup]
  | cons e m ih =>
    obtain ⟨e1, e2⟩ := e
    have hne : e1 ≠ k := by rintro rfl; simp [lookup] at h
    have hm : lookup m k = none := by simpa [lookup, hne] using h
    unfold place
    split
    · simp [lookup]
    · by_cases h1 : e1 = k'
      · subst h1; simp [lookup, Ne.symm hne]
      · simp [lookup, h1, ih hm]

/-- Reading a key after a write of it, or of another. -/
theorem lookup_put (ord : κ → Nat) (m : List (κ × α)) (k k' : κ) (v : α) :
    lookup (put ord m k v) k' = if k = k' then some v else lookup m k' := by
  rw [put, lookup_place _ _ _ _ _ (by simp [lookup_dropKey]), lookup_dropKey]
  by_cases h : k = k' <;> simp [h, eq_comm]

@[simp] theorem lookup_putN (m : NatMap α) (k k' : Nat) (v : α) : lookup (putN m k v) k' = if k = k' then some v else lookup m k' :=
  lookup_put _ _ _ _ _

/-- Reading a key after a write of it, or of another, where an unlisted key reads as `d`. -/
theorem readD_putD [DecidableEq α] (ord : κ → Nat) (d : α) (m : List (κ × α)) (k k' : κ) (v : α) :
    readD d (putD ord d m k v) k' = if k = k' then v else readD d m k' := by
  unfold readD putD
  split
  · rw [lookup_dropKey]; by_cases h : k = k' <;> simp_all [eq_comm]
  · rw [lookup_put]; split <;> rfl

theorem mem_place (ord : κ → Nat) (m : List (κ × α)) (k : κ) (v : α) (e : κ × α) : e ∈ place ord m k v ↔ e = (k, v) ∨ e ∈ m := by
  induction m with
  | nil => simp [place]
  | cons f m ih =>
    obtain ⟨f1, f2⟩ := f
    unfold place
    split
    · simp
    · simp [ih]; tauto

theorem nodup_dropKey (m : List (κ × α)) (k : κ) (h : (m.map (·.1)).Nodup) : ((dropKey m k).map (·.1)).Nodup :=
  h.sublist (List.filter_sublist.map _)

omit [DecidableEq κ] in
theorem nodup_keepKeys (p : κ → Bool) (m : List (κ × α)) (h : (m.map (·.1)).Nodup) : ((keepKeys p m).map (·.1)).Nodup :=
  h.sublist (List.filter_sublist.map _)

theorem nodup_place (ord : κ → Nat) (m : List (κ × α)) (k : κ) (v : α) (h : (m.map (·.1)).Nodup) (hk : ∀ e ∈ m, e.1 ≠ k) :
    ((place ord m k v).map (·.1)).Nodup := by
  induction m with
  | nil => simp [place]
  | cons f m ih =>
    obtain ⟨f1, f2⟩ := f
    simp only [List.map_cons, List.nodup_cons] at h
    unfold place
    split
    · simp only [List.map_cons, List.nodup_cons]
      refine ⟨?_, h⟩
      intro hm
      simp only [List.mem_cons, List.mem_map] at hm
      rcases hm with hm | ⟨e, he, hm⟩
      · exact hk (f1, f2) (by simp) hm.symm
      · exact hk e (by simp [he]) hm
    · simp only [List.map_cons, List.nodup_cons]
      refine ⟨?_, ih h.2 (fun e he => hk e (by simp [he]))⟩
      intro hm
      obtain ⟨e, he, hm⟩ := List.mem_map.1 hm
      rcases (mem_place _ _ _ _ _).1 he with rfl | he
      · exact hk (f1, f2) (by simp) hm.symm
      · exact h.1 (List.mem_map.2 ⟨e, he, hm⟩)

theorem nodup_putD [DecidableEq α] (ord : κ → Nat) (d : α) (m : List (κ × α)) (k : κ) (v : α) (h : (m.map (·.1)).Nodup) :
    ((putD ord d m k v).map (·.1)).Nodup := by
  unfold putD
  split
  · exact nodup_dropKey m k h
  · exact nodup_place ord _ k v (nodup_dropKey m k h) (by simp [dropKey])

omit [DecidableEq κ] in
theorem rising_filter (ord : κ → Nat) (p : κ × α → Bool) (m : List (κ × α)) (h : rising ord m) : rising ord (m.filter p) := by
  induction m with
  | nil => rfl
  | cons e m ih =>
    obtain ⟨e1, e2⟩ := e
    simp only [rising, Bool.and_eq_true, List.all_eq_true, decide_eq_true_eq] at h
    rw [List.filter_cons]
    split
    · simp only [rising, Bool.and_eq_true, List.all_eq_true, decide_eq_true_eq]
      exact ⟨fun f hf => h.1 f (List.mem_filter.1 hf).1, ih h.2⟩
    · exact ih h.2

theorem rising_place (m : NatMap α) (k : Nat) (v : α) (h : rising id m) (hk : ∀ e ∈ m, e.1 ≠ k) : rising id (place id m k v) := by
  induction m with
  | nil => rfl
  | cons e m ih =>
    obtain ⟨e1, e2⟩ := e
    simp only [rising, Bool.and_eq_true, List.all_eq_true, decide_eq_true_eq, id] at h
    unfold place
    split
    · rename_i hlt
      simp only [rising, Bool.and_eq_true, List.all_eq_true, decide_eq_true_eq, id, List.mem_cons]
      refine ⟨?_, h⟩
      rintro f (rfl | hf)
      · exact hlt
      · exact Nat.lt_trans hlt (h.1 f hf)
    · rename_i hlt
      simp only [rising, Bool.and_eq_true, List.all_eq_true, decide_eq_true_eq, id]
      refine ⟨?_, ih h.2 (fun e he => hk e (by simp [he]))⟩
      intro f hf
      have hne : e1 ≠ k := hk (e1, e2) (by simp)
      simp only [id] at hlt
      rcases (mem_place _ _ _ _ _).1 hf with rfl | hf
      · simp only; omega
      · exact h.1 f hf

/-- A memory keeps its canonical form as a byte is written. -/
theorem memPut_wf (m : List Host.Cell) (a : Nat) (v : Byte) (h : Memory.wf m) : Memory.wf (memPut m a v) := by
  simp only [Memory.wf, Bool.and_eq_true, List.all_eq_true] at h ⊢
  unfold memPut putD
  split
  · exact ⟨rising_filter _ _ _ h.1, fun e he => h.2 e (List.mem_filter.1 he).1⟩
  · rename_i hv
    refine ⟨rising_place _ _ _ (rising_filter _ _ _ h.1) (by simp [dropKey]), ?_⟩
    intro e he
    rcases (mem_place _ _ _ _ _).1 he with rfl | he
    · simpa using hv
    · exact h.2 e (List.mem_filter.1 he).1

/-- A memory keeps its canonical form as bytes are written. -/
theorem memWrite_wf (d : Bytes) (m : List Host.Cell) (a : Nat) (h : Memory.wf m) : Memory.wf (memWrite m a d) := by
  induction d generalizing m a with
  | nil => exact h
  | cons b d ih => exact ih _ _ (memPut_wf m a b h)

/-- A memory keeps its canonical form as bytes are dropped. -/
theorem keepKeys_wf (p : Nat → Bool) (m : List Host.Cell) (h : Memory.wf m) : Memory.wf (keepKeys p m) := by
  simp only [Memory.wf, Bool.and_eq_true, List.all_eq_true] at h ⊢
  exact ⟨rising_filter _ _ _ h.1, fun e he => h.2 e (List.mem_filter.1 he).1⟩

/-- A byte read after a byte written. -/
theorem memByte_memPut (m : List Host.Cell) (a b : Nat) (v : Byte) : memByte (memPut m a v) b = if a = b then v else memByte m b :=
  readD_putD _ _ _ _ _ _

end Sys2Proof.Machine
end

