-- ==== Sys2Proof/Laws/KeepsBase.lean ====
section
/-! SUPPORT. The primitive operations keep the rest of the machine (Safety): every other lemma of the kind is built from these. -/

namespace Sys2Proof.Machine

theorem Keeps.rfl {s : State} : Keeps s s := ⟨Eq.refl _, List.suffix_refl _, Nat.le_refl _, Nat.le_refl _, Nat.le_refl _, id⟩

theorem Keeps.trans {s₀ s t : State} (h : Keeps s₀ s) (k : Keeps s t) : Keeps s₀ t :=
  ⟨k.pending.trans h.pending, h.out.trans k.out, h.fresh.trans k.fresh, h.clock.trans k.clock, h.fuse.trans k.fuse, k.canonical ∘ h.canonical⟩

/-- A state that differs from one that keeps the rest in other fields alone. -/
theorem Keeps.other {s₀ s : State} (h : Keeps s₀ s) {a2 a4 a5 a6 a7 a8 a9 a10 a11 a12 a14 a17 a18 a19 a20 a21 a22 a23 a24
    a25 a27 a29 a30 a31 a32 a33 a34 a35 a36 a37 a38 a39 a40 a41 a42 a43 a44 a45 a46 a47 a48 a49 a50 a51 a52 a53 a54 a55 a56
    a57 a58 a59 a60 a61 a62 a63 a64 a65 a66 a68 a69 a70 a71 a72 a73 a74 a75 a76 a77 a78 a79 a80 a81 a82 a83 a84 a85 a86 a87
    a88 a89 a90 a91 a92 a94 a95} : Keeps s₀ (State.mk s.pending s.regs a2 s.clock a4 a5 a6 a7 a8 a9 a10 a11 a12 s.mem a14
    s.hdm s.jobs a17 a18 a19 a20 a21 a22 a23 a24 a25 s.logs a27 s.channels a29 a30 a31 a32 a33 a34 a35 a36 a37 a38 a39 a40 a41
    a42 a43 a44 a45 a46 a47 a48 a49 a50 a51 a52 a53 a54 a55 a56 a57 a58 a59 a60 a61 a62 a63 a64 a65 a66 s.fuseSvn a68 a69 a70
    a71 a72 a73 a74 a75 a76 a77 a78 a79 a80 a81 a82 a83 a84 a85 a86 a87 a88 a89 a90 a91 a92 s.tags a94 a95 s.fresh s.out) :=
  ⟨h.pending, h.out, h.fresh, h.clock, h.fuse, fun c => ⟨(h.canonical c).mem, (h.canonical c).hdm, (h.canonical c).hbm,
    (h.canonical c).regs, (h.canonical c).logs, (h.canonical c).tags, (h.canonical c).channels⟩⟩
/-- A field of the register file set keeps the rest. -/
theorem fset_keeps {s₀ s : State} (h : Keeps s₀ s) (f : Fld) (a b v : Nat) : Keeps s₀ (fset s f a b v) :=
  ⟨h.pending, h.out, h.fresh, h.clock, h.fuse,
    fun c => ⟨(h.canonical c).mem, (h.canonical c).hdm, (h.canonical c).hbm, nodup_putD _ _ _ _ _ (h.canonical c).regs,
      (h.canonical c).logs, (h.canonical c).tags, (h.canonical c).channels⟩⟩

/-- Fields returned to their reset values keep the rest. -/
theorem resetRegs_keeps {s₀ s : State} (h : Keeps s₀ s) (p : RKey → Bool) : Keeps s₀ (resetRegs s p) :=
  ⟨h.pending, h.out, h.fresh, h.clock, h.fuse,
    fun c => ⟨(h.canonical c).mem, (h.canonical c).hdm, (h.canonical c).hbm, nodup_keepKeys (fun k => !p k) _ (h.canonical c).regs,
      (h.canonical c).logs, (h.canonical c).tags, (h.canonical c).channels⟩⟩

/-- An output sent keeps the rest. -/
theorem emit_keeps {s₀ s : State} (h : Keeps s₀ s) (o : Output) : Keeps s₀ (emit s o) :=
  ⟨h.pending, h.out.trans (List.suffix_cons _ _), h.fresh, h.clock, h.fuse,
    fun c => ⟨(h.canonical c).mem, (h.canonical c).hdm, (h.canonical c).hbm, (h.canonical c).regs,
      (h.canonical c).logs, (h.canonical c).tags, (h.canonical c).channels⟩⟩

/-- A step of the draw counter keeps the rest. -/
theorem Keeps.advance {s₀ s : State} (h : Keeps s₀ s) (n : Nat) : Keeps s₀ { s with fresh := s.fresh + n } :=
  ⟨h.pending, h.out, h.fresh.trans (Nat.le_add_right _ _), h.clock, h.fuse,
    fun c => ⟨(h.canonical c).mem, (h.canonical c).hdm, (h.canonical c).hbm, (h.canonical c).regs,
      (h.canonical c).logs, (h.canonical c).tags, (h.canonical c).channels⟩⟩

/-- A job changed, its HBM in canonical form, keeps the rest. -/
theorem State.modJob_keeps {s₀ s : State} (h : Keeps s₀ s) (j : JobId) (g : Job → Job)
    (hg : Memory.wf (s.job j).hbm → Memory.wf (g (s.job j)).hbm) : Keeps s₀ (s.modJob j g) :=
  ⟨h.pending, h.out, h.fresh, h.clock, h.fuse, fun c => ⟨(h.canonical c).mem, (h.canonical c).hdm, fun k => by
    by_cases hk : j = k
    · subst hk; simpa [State.modJob, State.job] using hg ((h.canonical c).hbm j)
    · have hne : (j : Nat) ≠ k := fun e => hk (Fin.ext e)
      simpa [State.modJob, State.job, hne] using (h.canonical c).hbm k, (h.canonical c).regs,
      (h.canonical c).logs, (h.canonical c).tags, (h.canonical c).channels⟩⟩

/-- The Vat changed to a memory in canonical form keeps the rest. -/
theorem Keeps.mem {s₀ s : State} (h : Keeps s₀ s) (m : List Host.Cell) (hm : Memory.wf s.mem → Memory.wf m) :
    Keeps s₀ { s with mem := m } :=
  ⟨h.pending, h.out, h.fresh, h.clock, h.fuse,
    fun c => ⟨hm (h.canonical c).mem, (h.canonical c).hdm, (h.canonical c).hbm, (h.canonical c).regs,
      (h.canonical c).logs, (h.canonical c).tags, (h.canonical c).channels⟩⟩

/-- The HDM window changed to a memory in canonical form keeps the rest. -/
theorem Keeps.hdm {s₀ s : State} (h : Keeps s₀ s) (m : List Host.Cell) (hm : Memory.wf s.hdm → Memory.wf m) :
    Keeps s₀ { s with hdm := m } :=
  ⟨h.pending, h.out, h.fresh, h.clock, h.fuse,
    fun c => ⟨(h.canonical c).mem, hm (h.canonical c).hdm, (h.canonical c).hbm, (h.canonical c).regs,
      (h.canonical c).logs, (h.canonical c).tags, (h.canonical c).channels⟩⟩

/-- A log changed to one within its records keeps the rest. -/
theorem State.setLog_keeps {s₀ s : State} (h : Keeps s₀ s) (f : Func) (ws : List Nat)
    (hw : (s.log f).length ≤ 4 * logCap f → ws.length ≤ 4 * logCap f) : Keeps s₀ (s.setLog f ws) :=
  ⟨h.pending, h.out, h.fresh, h.clock, h.fuse, fun c => ⟨(h.canonical c).mem, (h.canonical c).hdm, (h.canonical c).hbm,
    (h.canonical c).regs, fun g => by
      by_cases hk : f = g
      · subst hk; simpa [State.setLog, State.log] using hw ((h.canonical c).logs f)
      · have hne : (f : Nat) ≠ g := fun e => hk (Fin.ext e)
        simpa [State.setLog, State.log, hne] using (h.canonical c).logs g, (h.canonical c).tags, (h.canonical c).channels⟩⟩

/-- The tags changed to at most 16 keep the rest. -/
theorem Keeps.tags {s₀ s : State} (h : Keeps s₀ s) (l : List Tag) (hl : s.tags.length ≤ 16 → l.length ≤ 16) :
    Keeps s₀ { s with tags := l } :=
  ⟨h.pending, h.out, h.fresh, h.clock, h.fuse, fun c => ⟨(h.canonical c).mem, (h.canonical c).hdm, (h.canonical c).hbm,
    (h.canonical c).regs, (h.canonical c).logs, hl (h.canonical c).tags, (h.canonical c).channels⟩⟩

/-- A Ferry channel changed to one whose messages fit keeps the rest. -/
theorem State.modChan_keeps {s₀ s : State} (h : Keeps s₀ s) (n : Fin 64) (g : Channel → Channel)
    (hg : State.Canonical s₀ → (s.chan n).wf → (g (s.chan n)).wf) : Keeps s₀ (s.modChan n g) :=
  ⟨h.pending, h.out, h.fresh, h.clock, h.fuse, fun c => ⟨(h.canonical c).mem, (h.canonical c).hdm, (h.canonical c).hbm,
    (h.canonical c).regs, (h.canonical c).logs, (h.canonical c).tags, fun m => by
      by_cases hk : n = m
      · subst hk; simpa [State.modChan, State.chan] using hg c ((h.canonical c).channels n)
      · have hne : (n : Nat) ≠ m := fun e => hk (Fin.ext e)
        simpa [State.modChan, State.chan, hne] using (h.canonical c).channels m⟩⟩

theorem toLe_length (n v : Nat) : (toLe n v).length = n := by
  induction n generalizing v with
  | zero => rfl
  | succ n ih => simp [toLe, ih]

/-- A Hail message fits in a block. -/
theorem hailMsg_fits (type session sw abis : Nat) : blockFits (hailMsg type session sw abis) := by
  simp [blockFits, hailMsg, toLe_length, zeros]

/-- An outgoing block is as long as its sender says. -/
theorem txBlock_length (s : State) (e : FerryEnd) (n : Nat) : (txBlock s e n).length = min n 64 := by
  simp [txBlock, toLe_length, List.range_succ]

theorem reset_logs (f : Func) : (State.reset.log f).length ≤ 4 * logCap f := by simp [State.log, State.reset]

theorem reset_tags : State.reset.tags.length ≤ 16 := Nat.zero_le _

theorem reset_channels (c : Fin 64) : (State.reset.chan c).wf := by
  simp only [State.chan, State.reset, Fin.getElem_fin, Vector.getElem_replicate]
  exact ⟨by simp [Channel.empty], by simp [Channel.empty]⟩

/-- What each pass of a fold keeps, the fold keeps. -/
theorem Keeps.foldl {α : Type} {s₀ s : State} {f : State → α → State} {l : List α} (hf : ∀ t a, Keeps s₀ t → Keeps s₀ (f t a))
    (h : Keeps s₀ s) : Keeps s₀ (l.foldl f s) := by
  induction l generalizing s with
  | nil => exact h
  | cons a l ih => exact ih (hf s a h)

/-- What each pass of a fold over a pair keeps, the fold keeps. -/
theorem Keeps.foldl1 {α β : Type} {s₀ : State} {f : State × β → α → State × β} {l : List α} {p : State × β}
    (hf : ∀ p a, Keeps s₀ p.1 → Keeps s₀ (f p a).1) (h : Keeps s₀ p.1) : Keeps s₀ (l.foldl f p).1 := by
  induction l generalizing p with
  | nil => exact h
  | cons a l ih => exact ih (hf p a h)

/-- What each pass of a fold over a pair keeps, the fold keeps. -/
theorem Keeps.foldl2 {α β : Type} {s₀ : State} {f : β × State → α → β × State} {l : List α} {p : β × State}
    (hf : ∀ p a, Keeps s₀ p.2 → Keeps s₀ (f p a).2) (h : Keeps s₀ p.2) : Keeps s₀ (l.foldl f p).2 := by
  induction l generalizing p with
  | nil => exact h
  | cons a l ih => exact ih (hf p a h)

/-- A state taken from a pair. -/
theorem Keeps.snd {α : Type} {s₀ s : State} {a : α} {e : α × State} (he : e = (a, s)) (h : Keeps s₀ e.2) : Keeps s₀ s := by
  subst he; exact h

/-- A state taken from a pair. -/
theorem Keeps.fst {α : Type} {s₀ s : State} {a : α} {e : State × α} (he : e = (s, a)) (h : Keeps s₀ e.1) : Keeps s₀ s := by
  subst he; exact h

theorem Keeps.ite {s₀ a b : State} {c : Prop} [Decidable c] (ha : Keeps s₀ a) (hb : Keeps s₀ b) : Keeps s₀ (if c then a else b) := by
  split
  · exact ha
  · exact hb

theorem Keeps.ite1 {α : Type} {s₀ : State} {a b : State × α} {c : Prop} [Decidable c] (ha : Keeps s₀ a.1) (hb : Keeps s₀ b.1) :
    Keeps s₀ (if c then a else b).1 := by
  split
  · exact ha
  · exact hb

theorem Keeps.ite2 {α : Type} {s₀ : State} {a b : α × State} {c : Prop} [Decidable c] (ha : Keeps s₀ a.2) (hb : Keeps s₀ b.2) :
    Keeps s₀ (if c then a else b).2 := by
  split
  · exact ha
  · exact hb

theorem Keeps.pair1 {α : Type} {s₀ s : State} {a : α} (h : Keeps s₀ s) : Keeps s₀ (s, a).1 := h

theorem Keeps.pair2 {α : Type} {s₀ s : State} {a : α} (h : Keeps s₀ s) : Keeps s₀ (a, s).2 := h

/-- A command answers a next state, and that state keeps the rest. -/
def Answers (s₀ : State) (r : Res) : Prop := ∃ t, r = .next t ∧ Keeps s₀ t

theorem Answers.next {s₀ t : State} (h : Keeps s₀ t) : Answers s₀ (.next t) := ⟨t, Eq.refl _, h⟩

theorem Answers.ite {s₀ : State} {a b : Res} {c : Prop} [Decidable c] (ha : Answers s₀ a) (hb : Answers s₀ b) :
    Answers s₀ (if c then a else b) := by
  split
  · exact ha
  · exact hb

end Sys2Proof.Machine
end

