-- ==== Sys2Proof/Laws/KeepsOps.lean ====
section
/-! SUPPORT. What the operations of Machine/Ops.lean leave alone (Safety). -/

set_option linter.unusedTactic false
set_option linter.unreachableTactic false
set_option linter.tactic.unusedName false

namespace Sys2Proof.Machine

theorem set1_keeps {s₀ : State} {s : State} {f : Fld} {v : Nat} (keep : Keeps s₀ s) :
    Keeps s₀ (set1 s f v) := by
  unfold set1
  repeat' first
    | with_reducible assumption
    | (with_reducible refine fun _ (_ : Keeps s₀ _) => ?_)
    | with_reducible apply fset_keeps
    | (with_reducible refine Keeps.snd (by with_reducible assumption) ?_)
    | (with_reducible refine Keeps.fst (by with_reducible assumption) ?_)

theorem ev_keeps {s₀ : State} {s : State} {f : Fld} (keep : Keeps s₀ s) :
    Keeps s₀ (ev s f) := by
  unfold ev
  repeat' first
    | with_reducible assumption
    | (with_reducible refine fun _ (_ : Keeps s₀ _) => ?_)
    | with_reducible apply set1_keeps
    | (with_reducible refine Keeps.snd (by with_reducible assumption) ?_)
    | (with_reducible refine Keeps.fst (by with_reducible assumption) ?_)

theorem count_keeps {s₀ : State} {s : State} {f : Fld} {a b n : Nat} (keep : Keeps s₀ s) :
    Keeps s₀ (count s f a b n) := by
  unfold count
  repeat' first
    | with_reducible assumption
    | (with_reducible refine fun _ (_ : Keeps s₀ _) => ?_)
    | with_reducible apply fset_keeps
    | (with_reducible refine Keeps.snd (by with_reducible assumption) ?_)
    | (with_reducible refine Keeps.fst (by with_reducible assumption) ?_)

theorem countSat_keeps {s₀ : State} {s : State} {f : Fld} {a b n : Nat} (keep : Keeps s₀ s) :
    Keeps s₀ (countSat s f a b n) := by
  unfold countSat
  repeat' first
    | with_reducible assumption
    | (with_reducible refine fun _ (_ : Keeps s₀ _) => ?_)
    | with_reducible apply fset_keeps
    | (with_reducible refine Keeps.snd (by with_reducible assumption) ?_)
    | (with_reducible refine Keeps.fst (by with_reducible assumption) ?_)

theorem setGroup_keeps {s₀ s : State} {f : Fld} {a : Nat} {bs : Bytes} {n : Nat} (h : Keeps s₀ s) :
    Keeps s₀ (setGroup s f a bs n) := by
  induction n with
  | zero => exact h
  | succ n ih => exact fset_keeps ih _ _ _ _

theorem raise_keeps {s₀ : State} {s : State} {f n : Nat} (keep : Keeps s₀ s) :
    Keeps s₀ (raise s f n) := by
  unfold raise
  repeat' first
    | with_reducible assumption
    | (with_reducible refine fun _ (_ : Keeps s₀ _) => ?_)
    | with_reducible apply emit_keeps
    | (with_reducible refine Keeps.snd (by with_reducible assumption) ?_)
    | (with_reducible refine Keeps.fst (by with_reducible assumption) ?_)

theorem draw_keeps {s₀ s : State} (h : Keeps s₀ s) : Keeps s₀ (draw s).2 := h.advance 1

theorem takeDraws_keeps {s₀ s : State} {n : Nat} (keep : Keeps s₀ s) : Keeps s₀ (takeDraws s n) := keep.advance n

theorem drawKey_keeps {s₀ : State} {s : State} (keep : Keeps s₀ s) :
    Keeps s₀ (drawKey s).2 := by
  unfold drawKey
  repeat' first
    | with_reducible assumption
    | (with_reducible refine fun _ (_ : Keeps s₀ _) => ?_)
    | with_reducible apply draw_keeps
    | with_reducible apply Keeps.pair2
    | (with_reducible refine Keeps.snd (by with_reducible assumption) ?_)
    | (with_reducible refine Keeps.fst (by with_reducible assumption) ?_)

theorem drawScalar_keeps {s₀ : State} {s : State} (keep : Keeps s₀ s) :
    Keeps s₀ (drawScalar s).2 := by
  unfold drawScalar
  repeat' first
    | with_reducible assumption
    | (with_reducible refine fun _ (_ : Keeps s₀ _) => ?_)
    | with_reducible apply draw_keeps
    | with_reducible apply Keeps.pair2
    | (with_reducible refine Keeps.snd (by with_reducible assumption) ?_)
    | (with_reducible refine Keeps.fst (by with_reducible assumption) ?_)

theorem freeValue_keeps {s₀ s : State} (h : Keeps s₀ s) : Keeps s₀ (freeValue s).2 := h.advance 1

theorem State.modRound_keeps {s₀ : State} {s : State} {j : JobId} {r : Nat} {g : Round → Round} (keep : Keeps s₀ s) :
    Keeps s₀ (State.modRound s j r g) := by
  unfold State.modRound
  repeat' first
    | with_reducible assumption
    | (with_reducible refine fun _ (_ : Keeps s₀ _) => ?_)
    | with_reducible apply State.modJob_keeps
    | with_reducible exact id
    | exact fun _ => rfl
    | with_reducible apply Keeps.ite
    | with_reducible apply Keeps.ite1
    | with_reducible apply Keeps.ite2
    | (with_reducible refine Keeps.snd (by with_reducible assumption) ?_)
    | (with_reducible refine Keeps.fst (by with_reducible assumption) ?_)
    | (fail_if_no_progress with_reducible apply Keeps.other)

theorem State.modCohort_keeps {s₀ : State} {s : State} {j : JobId} {r c : Nat} {g : Cohort → Cohort} (keep : Keeps s₀ s) :
    Keeps s₀ (State.modCohort s j r c g) := by
  unfold State.modCohort
  repeat' first
    | with_reducible assumption
    | (with_reducible refine fun _ (_ : Keeps s₀ _) => ?_)
    | with_reducible apply State.modRound_keeps
    | with_reducible exact id
    | exact fun _ => rfl
    | (with_reducible refine Keeps.snd (by with_reducible assumption) ?_)
    | (with_reducible refine Keeps.fst (by with_reducible assumption) ?_)

theorem hostPut_keeps {s₀ s : State} {a : Nat} {d : Bytes} (h : Keeps s₀ s) : Keeps s₀ (hostPut s a d) := by
  unfold hostPut
  split
  · exact h.hdm _ (memWrite_wf _ _ _)
  · exact emit_keeps h _

theorem setPoison_keeps {s₀ : State} {s : State} {k : Nat} (keep : Keeps s₀ s) :
    Keeps s₀ (setPoison s k) := by
  unfold setPoison
  repeat' first
    | with_reducible assumption
    | (with_reducible refine fun _ (_ : Keeps s₀ _) => ?_)
    | with_reducible apply Keeps.ite
    | with_reducible apply Keeps.ite1
    | with_reducible apply Keeps.ite2
    | (with_reducible refine Keeps.snd (by with_reducible assumption) ?_)
    | (with_reducible refine Keeps.fst (by with_reducible assumption) ?_)
    | (fail_if_no_progress with_reducible apply Keeps.other)

theorem clearPoison_keeps {s₀ : State} {s : State} {k : Nat} (keep : Keeps s₀ s) :
    Keeps s₀ (clearPoison s k) := by
  unfold clearPoison
  repeat' first
    | with_reducible assumption
    | (with_reducible refine fun _ (_ : Keeps s₀ _) => ?_)
    | (with_reducible refine Keeps.snd (by with_reducible assumption) ?_)
    | (with_reducible refine Keeps.fst (by with_reducible assumption) ?_)
    | (fail_if_no_progress with_reducible apply Keeps.other)

theorem recordPoison_keeps {s₀ : State} {s : State} {j : JobId} {a : Nat} (keep : Keeps s₀ s) :
    Keeps s₀ (recordPoison s j a) := by
  unfold recordPoison
  repeat' first
    | with_reducible assumption
    | (with_reducible refine fun _ (_ : Keeps s₀ _) => ?_)
    | with_reducible apply set1_keeps
    | with_reducible apply countSat_keeps
    | with_reducible apply ev_keeps
    | with_reducible apply Keeps.ite
    | with_reducible apply Keeps.ite1
    | with_reducible apply Keeps.ite2
    | (with_reducible refine Keeps.snd (by with_reducible assumption) ?_)
    | (with_reducible refine Keeps.fst (by with_reducible assumption) ?_)

theorem poisonLine_keeps {s₀ : State} {s : State} {j : JobId} {a : Nat} (keep : Keeps s₀ s) :
    Keeps s₀ (poisonLine s j a) := by
  unfold poisonLine
  repeat' first
    | with_reducible assumption
    | (with_reducible refine fun _ (_ : Keeps s₀ _) => ?_)
    | (extract_lets -underBinder +onlyGivenNames x; have hx : Keeps s₀ x := ?_; on_goal 2 => dsimp only [x]; on_goal 1 => clear_value x)
    | (extract_lets -underBinder +onlyGivenNames x; have hx : Keeps s₀ x.2 := ?_; on_goal 2 => dsimp only [x]; on_goal 1 => clear_value x)
    | (extract_lets -underBinder +onlyGivenNames x; have hx : Keeps s₀ x.1 := ?_; on_goal 2 => dsimp only [x]; on_goal 1 => clear_value x)
    | (extract_lets -underBinder +onlyGivenNames x)
    | with_reducible apply setPoison_keeps
    | with_reducible apply recordPoison_keeps
    | with_reducible apply Keeps.ite
    | with_reducible apply Keeps.ite1
    | with_reducible apply Keeps.ite2
    | (with_reducible refine Keeps.snd (by with_reducible assumption) ?_)
    | (with_reducible refine Keeps.fst (by with_reducible assumption) ?_)

theorem poisonRange_keeps {s₀ : State} {s : State} {j : JobId} {a n : Nat} (keep : Keeps s₀ s) :
    Keeps s₀ (poisonRange s j a n) := by
  unfold poisonRange
  repeat' first
    | with_reducible assumption
    | (with_reducible refine fun _ (_ : Keeps s₀ _) => ?_)
    | with_reducible apply poisonLine_keeps
    | (with_reducible refine Keeps.foldl (fun t a ht => ?_) ?_)
    | (with_reducible refine Keeps.foldl1 (fun p a hp => ?_) ?_)
    | (with_reducible refine Keeps.foldl2 (fun p a hp => ?_) ?_)
    | (with_reducible refine Keeps.snd (by with_reducible assumption) ?_)
    | (with_reducible refine Keeps.fst (by with_reducible assumption) ?_)

theorem zeroBerth_keeps {s₀ s : State} {n : Nat} (h : Keeps s₀ s) : Keeps s₀ (zeroBerth s n) :=
  Keeps.other (h.mem (keepKeys (fun a => a / 2 ^ 24 != n) s.mem) (keepKeys_wf _ _))

theorem zeroBerths_keeps {s₀ : State} {s : State} {j : JobId} (keep : Keeps s₀ s) :
    Keeps s₀ (zeroBerths s j) := by
  unfold zeroBerths
  repeat' first
    | with_reducible assumption
    | (with_reducible refine fun _ (_ : Keeps s₀ _) => ?_)
    | with_reducible apply zeroBerth_keeps
    | (with_reducible refine Keeps.foldl (fun t a ht => ?_) ?_)
    | (with_reducible refine Keeps.foldl1 (fun p a hp => ?_) ?_)
    | (with_reducible refine Keeps.foldl2 (fun p a hp => ?_) ?_)
    | (with_reducible refine Keeps.snd (by with_reducible assumption) ?_)
    | (with_reducible refine Keeps.fst (by with_reducible assumption) ?_)

theorem logRecord_keeps {s₀ s : State} {f : Func} {type round a b : Nat} (h : Keeps s₀ s) : Keeps s₀ (logRecord s f type round a b) := by
  unfold logRecord
  split
  · exact raise_keeps (Keeps.other (fset_keeps (countSat_keeps h) _ _ _ _))
  · rename_i hn
    have hl : Keeps s₀ (s.setLog f (s.log f ++ recordWords (s.logLost.contains f.val) type round s.now a b)) :=
      State.setLog_keeps h _ _ (fun _ => by simp only [List.length_append, recordWords, List.length_cons, List.length_nil]; omega)
    dsimp only
    split
    · exact raise_keeps (Keeps.other hl)
    · exact Keeps.other hl

theorem logJob_keeps {s₀ : State} {s : State} {j : JobId} {type round a b : Nat} (keep : Keeps s₀ s) :
    Keeps s₀ (logJob s j type round a b) := by
  unfold logJob
  repeat' first
    | with_reducible assumption
    | (with_reducible refine fun _ (_ : Keeps s₀ _) => ?_)
    | with_reducible apply logRecord_keeps
    | (with_reducible refine Keeps.snd (by with_reducible assumption) ?_)
    | (with_reducible refine Keeps.fst (by with_reducible assumption) ?_)

theorem logModule_keeps {s₀ : State} {s : State} {type a b : Nat} (keep : Keeps s₀ s) :
    Keeps s₀ (logModule s type a b) := by
  unfold logModule
  repeat' first
    | with_reducible assumption
    | (with_reducible refine fun _ (_ : Keeps s₀ _) => ?_)
    | with_reducible apply logRecord_keeps
    | (with_reducible refine Keeps.snd (by with_reducible assumption) ?_)
    | (with_reducible refine Keeps.fst (by with_reducible assumption) ?_)

theorem emptyLog_keeps {s₀ s : State} {f : Func} (h : Keeps s₀ s) : Keeps s₀ (emptyLog s f) :=
  Keeps.other (fset_keeps (fset_keeps (fset_keeps (State.setLog_keeps h f [] (fun _ => Nat.zero_le _)) _ _ _ _) _ _ _ _) _ _ _ _)

theorem State.modRing_keeps {s₀ : State} {s : State} {f : Func} {g : Ring2 → Ring2} (keep : Keeps s₀ s) :
    Keeps s₀ (State.modRing s f g) := by
  unfold State.modRing
  repeat' first
    | with_reducible assumption
    | (with_reducible refine fun _ (_ : Keeps s₀ _) => ?_)
    | (with_reducible refine Keeps.snd (by with_reducible assumption) ?_)
    | (with_reducible refine Keeps.fst (by with_reducible assumption) ?_)
    | (fail_if_no_progress with_reducible apply Keeps.other)

theorem writeCompletion_keeps {s₀ : State} {s : State} {f : Func} {d : Due} (keep : Keeps s₀ s) :
    Keeps s₀ (writeCompletion s f d) := by
  unfold writeCompletion
  repeat' first
    | with_reducible assumption
    | (with_reducible refine fun _ (_ : Keeps s₀ _) => ?_)
    | (extract_lets -underBinder +onlyGivenNames x; have hx : Keeps s₀ x := ?_; on_goal 2 => dsimp only [x]; on_goal 1 => clear_value x)
    | (extract_lets -underBinder +onlyGivenNames x; have hx : Keeps s₀ x.2 := ?_; on_goal 2 => dsimp only [x]; on_goal 1 => clear_value x)
    | (extract_lets -underBinder +onlyGivenNames x; have hx : Keeps s₀ x.1 := ?_; on_goal 2 => dsimp only [x]; on_goal 1 => clear_value x)
    | (extract_lets -underBinder +onlyGivenNames x)
    | with_reducible apply emit_keeps
    | with_reducible apply fset_keeps
    | with_reducible apply State.modRing_keeps
    | with_reducible apply raise_keeps
    | with_reducible apply Keeps.ite
    | with_reducible apply Keeps.ite1
    | with_reducible apply Keeps.ite2
    | (with_reducible refine Keeps.snd (by with_reducible assumption) ?_)
    | (with_reducible refine Keeps.fst (by with_reducible assumption) ?_)
    | (fail_if_no_progress with_reducible apply Keeps.other)

theorem post_keeps {s₀ : State} {s : State} {f : Func} {d : Due} (keep : Keeps s₀ s) :
    Keeps s₀ (post s f d) := by
  unfold post
  repeat' first
    | with_reducible assumption
    | (with_reducible refine fun _ (_ : Keeps s₀ _) => ?_)
    | with_reducible apply writeCompletion_keeps
    | with_reducible apply State.modRing_keeps
    | with_reducible apply Keeps.ite
    | with_reducible apply Keeps.ite1
    | with_reducible apply Keeps.ite2
    | (with_reducible refine Keeps.snd (by with_reducible assumption) ?_)
    | (with_reducible refine Keeps.fst (by with_reducible assumption) ?_)
    | (fail_if_no_progress with_reducible apply Keeps.other)

theorem complete_keeps {s₀ : State} {s : State} {f : Func} {d : Bytes} {st : HStat} {bd : Bytes} (keep : Keeps s₀ s) :
    Keeps s₀ (complete s f d st bd) := by
  unfold complete
  repeat' first
    | with_reducible assumption
    | (with_reducible refine fun _ (_ : Keeps s₀ _) => ?_)
    | with_reducible apply post_keeps
    | (with_reducible refine Keeps.snd (by with_reducible assumption) ?_)
    | (with_reducible refine Keeps.fst (by with_reducible assumption) ?_)

theorem nextCheckSeq_keeps {s₀ : State} {s : State} {j : JobId} (keep : Keeps s₀ s) :
    Keeps s₀ (nextCheckSeq s j).2 := by
  unfold nextCheckSeq
  repeat' first
    | with_reducible assumption
    | (with_reducible refine fun _ (_ : Keeps s₀ _) => ?_)
    | with_reducible apply count_keeps
    | with_reducible apply Keeps.pair2
    | (with_reducible refine Keeps.snd (by with_reducible assumption) ?_)
    | (with_reducible refine Keeps.fst (by with_reducible assumption) ?_)

theorem pinLoop_keeps {s₀ : State} {s : State} {j : JobId} {loop bound : Nat} {out : Bool} (keep : Keeps s₀ s) :
    Keeps s₀ (pinLoop s j loop bound out) := by
  unfold pinLoop
  repeat' first
    | with_reducible assumption
    | (with_reducible refine fun _ (_ : Keeps s₀ _) => ?_)
    | (extract_lets -underBinder +onlyGivenNames x; have hx : Keeps s₀ x := ?_; on_goal 2 => dsimp only [x]; on_goal 1 => clear_value x)
    | (extract_lets -underBinder +onlyGivenNames x; have hx : Keeps s₀ x.2 := ?_; on_goal 2 => dsimp only [x]; on_goal 1 => clear_value x)
    | (extract_lets -underBinder +onlyGivenNames x; have hx : Keeps s₀ x.1 := ?_; on_goal 2 => dsimp only [x]; on_goal 1 => clear_value x)
    | (extract_lets -underBinder +onlyGivenNames x)
    | with_reducible apply ev_keeps
    | with_reducible apply logJob_keeps
    | with_reducible apply fset_keeps
    | with_reducible apply Keeps.ite
    | with_reducible apply Keeps.ite1
    | with_reducible apply Keeps.ite2
    | (with_reducible refine Keeps.snd (by with_reducible assumption) ?_)
    | (with_reducible refine Keeps.fst (by with_reducible assumption) ?_)

theorem trierLoop_keeps {s₀ : State} {s : State} {j : JobId} (keep : Keeps s₀ s) :
    Keeps s₀ (trierLoop s j) := by
  unfold trierLoop
  repeat' first
    | with_reducible assumption
    | (with_reducible refine fun _ (_ : Keeps s₀ _) => ?_)
    | (extract_lets -underBinder +onlyGivenNames x; have hx : Keeps s₀ x := ?_; on_goal 2 => dsimp only [x]; on_goal 1 => clear_value x)
    | (extract_lets -underBinder +onlyGivenNames x; have hx : Keeps s₀ x.2 := ?_; on_goal 2 => dsimp only [x]; on_goal 1 => clear_value x)
    | (extract_lets -underBinder +onlyGivenNames x; have hx : Keeps s₀ x.1 := ?_; on_goal 2 => dsimp only [x]; on_goal 1 => clear_value x)
    | (extract_lets -underBinder +onlyGivenNames x)
    | with_reducible apply fset_keeps
    | with_reducible apply pinLoop_keeps
    | (with_reducible refine Keeps.snd (by with_reducible assumption) ?_)
    | (with_reducible refine Keeps.fst (by with_reducible assumption) ?_)

theorem countFailure_keeps {s₀ : State} {s : State} {j : JobId} (keep : Keeps s₀ s) :
    Keeps s₀ (countFailure s j) := by
  unfold countFailure
  repeat' first
    | with_reducible assumption
    | (with_reducible refine fun _ (_ : Keeps s₀ _) => ?_)
    | (extract_lets -underBinder +onlyGivenNames x; have hx : Keeps s₀ x := ?_; on_goal 2 => dsimp only [x]; on_goal 1 => clear_value x)
    | (extract_lets -underBinder +onlyGivenNames x; have hx : Keeps s₀ x.2 := ?_; on_goal 2 => dsimp only [x]; on_goal 1 => clear_value x)
    | (extract_lets -underBinder +onlyGivenNames x; have hx : Keeps s₀ x.1 := ?_; on_goal 2 => dsimp only [x]; on_goal 1 => clear_value x)
    | (extract_lets -underBinder +onlyGivenNames x)
    | with_reducible apply State.modJob_keeps
    | with_reducible apply trierLoop_keeps
    | with_reducible apply countSat_keeps
    | with_reducible exact id
    | exact fun _ => rfl
    | (with_reducible refine Keeps.snd (by with_reducible assumption) ?_)
    | (with_reducible refine Keeps.fst (by with_reducible assumption) ?_)
    | (fail_if_no_progress with_reducible apply Keeps.other)

theorem pmuAdd_keeps {s₀ : State} {s : State} {i n : Nat} (keep : Keeps s₀ s) :
    Keeps s₀ (pmuAdd s i n) := by
  unfold pmuAdd
  repeat' first
    | with_reducible assumption
    | (with_reducible refine fun _ (_ : Keeps s₀ _) => ?_)
    | (extract_lets -underBinder +onlyGivenNames x; have hx : Keeps s₀ x := ?_; on_goal 2 => dsimp only [x]; on_goal 1 => clear_value x)
    | (extract_lets -underBinder +onlyGivenNames x; have hx : Keeps s₀ x.2 := ?_; on_goal 2 => dsimp only [x]; on_goal 1 => clear_value x)
    | (extract_lets -underBinder +onlyGivenNames x; have hx : Keeps s₀ x.1 := ?_; on_goal 2 => dsimp only [x]; on_goal 1 => clear_value x)
    | (extract_lets -underBinder +onlyGivenNames x)
    | with_reducible apply fset_keeps
    | with_reducible apply ev_keeps
    | with_reducible apply Keeps.ite
    | with_reducible apply Keeps.ite1
    | with_reducible apply Keeps.ite2
    | (with_reducible refine Keeps.snd (by with_reducible assumption) ?_)
    | (with_reducible refine Keeps.fst (by with_reducible assumption) ?_)

theorem pmu_keeps {s₀ : State} {s : State} {code : Nat} {j : Option JobId} {v : Nat} (keep : Keeps s₀ s) :
    Keeps s₀ (pmu s code j v) := by
  unfold pmu
  repeat' first
    | with_reducible assumption
    | (with_reducible refine fun _ (_ : Keeps s₀ _) => ?_)
    | (extract_lets -underBinder +onlyGivenNames x; have hx : Keeps s₀ x := ?_; on_goal 2 => dsimp only [x]; on_goal 1 => clear_value x)
    | (extract_lets -underBinder +onlyGivenNames x; have hx : Keeps s₀ x.2 := ?_; on_goal 2 => dsimp only [x]; on_goal 1 => clear_value x)
    | (extract_lets -underBinder +onlyGivenNames x; have hx : Keeps s₀ x.1 := ?_; on_goal 2 => dsimp only [x]; on_goal 1 => clear_value x)
    | (extract_lets -underBinder +onlyGivenNames x)
    | with_reducible apply pmuAdd_keeps
    | (with_reducible refine Keeps.foldl (fun t a ht => ?_) ?_)
    | (with_reducible refine Keeps.foldl1 (fun p a hp => ?_) ?_)
    | (with_reducible refine Keeps.foldl2 (fun p a hp => ?_) ?_)
    | with_reducible apply Keeps.ite
    | with_reducible apply Keeps.ite1
    | with_reducible apply Keeps.ite2
    | (with_reducible refine Keeps.snd (by with_reducible assumption) ?_)
    | (with_reducible refine Keeps.fst (by with_reducible assumption) ?_)
    | (fail_if_no_progress with_reducible apply Keeps.other)

theorem tollDone_keeps {s₀ : State} {s : State} {j : Option JobId} {muls derivations : Nat} (keep : Keeps s₀ s) :
    Keeps s₀ (tollDone s j muls derivations) := by
  unfold tollDone
  repeat' first
    | with_reducible assumption
    | (with_reducible refine fun _ (_ : Keeps s₀ _) => ?_)
    | with_reducible apply pmu_keeps
    | with_reducible apply count_keeps
    | (with_reducible refine Keeps.snd (by with_reducible assumption) ?_)
    | (with_reducible refine Keeps.fst (by with_reducible assumption) ?_)

theorem State.modQp_keeps {s₀ : State} {s : State} {q : Nat} {g : Qp → Qp} (keep : Keeps s₀ s) :
    Keeps s₀ (State.modQp s q g) := by
  unfold State.modQp
  repeat' first
    | with_reducible assumption
    | (with_reducible refine fun _ (_ : Keeps s₀ _) => ?_)
    | (with_reducible refine Keeps.snd (by with_reducible assumption) ?_)
    | (with_reducible refine Keeps.fst (by with_reducible assumption) ?_)
    | (fail_if_no_progress with_reducible apply Keeps.other)

theorem workDone_keeps {s₀ : State} {s : State} {q status : Nat} (keep : Keeps s₀ s) :
    Keeps s₀ (workDone s q status) := by
  unfold workDone
  repeat' first
    | with_reducible assumption
    | (with_reducible refine fun _ (_ : Keeps s₀ _) => ?_)
    | with_reducible apply emit_keeps
    | with_reducible apply count_keeps
    | with_reducible apply Keeps.ite
    | with_reducible apply Keeps.ite1
    | with_reducible apply Keeps.ite2
    | (with_reducible refine Keeps.snd (by with_reducible assumption) ?_)
    | (with_reducible refine Keeps.fst (by with_reducible assumption) ?_)

theorem flushWork_keeps {s₀ s : State} {q : Nat} {ws : List (Nat × WorkReq × Nat)} {b : Bool} (h : Keeps s₀ s) :
    Keeps s₀ (flushWork q ws b s) := by
  induction ws generalizing b s with
  | nil => exact h
  | cons w ws ih =>
    unfold flushWork
    split <;> exact ih (workDone_keeps h)

theorem qpFail_keeps {s₀ : State} {s : State} {q status : Nat} (keep : Keeps s₀ s) :
    Keeps s₀ (qpFail s q status) := by
  unfold qpFail
  repeat' first
    | with_reducible assumption
    | (with_reducible refine fun _ (_ : Keeps s₀ _) => ?_)
    | (extract_lets -underBinder +onlyGivenNames x; have hx : Keeps s₀ x := ?_; on_goal 2 => dsimp only [x]; on_goal 1 => clear_value x)
    | (extract_lets -underBinder +onlyGivenNames x; have hx : Keeps s₀ x.2 := ?_; on_goal 2 => dsimp only [x]; on_goal 1 => clear_value x)
    | (extract_lets -underBinder +onlyGivenNames x; have hx : Keeps s₀ x.1 := ?_; on_goal 2 => dsimp only [x]; on_goal 1 => clear_value x)
    | (extract_lets -underBinder +onlyGivenNames x)
    | with_reducible apply flushWork_keeps
    | with_reducible apply State.modQp_keeps
    | with_reducible apply fset_keeps
    | with_reducible apply ev_keeps
    | with_reducible apply Keeps.ite
    | with_reducible apply Keeps.ite1
    | with_reducible apply Keeps.ite2
    | (with_reducible refine Keeps.snd (by with_reducible assumption) ?_)
    | (with_reducible refine Keeps.fst (by with_reducible assumption) ?_)
    | (fail_if_no_progress with_reducible apply Keeps.other)

theorem breakWaits_keeps {s₀ s : State} {n : Nat} (h : Keeps s₀ s) : Keeps s₀ (breakWaits n s) := by
  induction n generalizing s with
  | zero => exact h
  | succ n ih =>
    unfold breakWaits
    split
    · exact h
    · exact ih (Keeps.foldl (fun _ _ ht => qpFail_keeps ht) h)

theorem qpError_keeps {s₀ : State} {s : State} {q status : Nat} (keep : Keeps s₀ s) :
    Keeps s₀ (qpError s q status) := by
  unfold qpError
  repeat' first
    | with_reducible assumption
    | (with_reducible refine fun _ (_ : Keeps s₀ _) => ?_)
    | with_reducible apply breakWaits_keeps
    | with_reducible apply qpFail_keeps
    | (with_reducible refine Keeps.snd (by with_reducible assumption) ?_)
    | (with_reducible refine Keeps.fst (by with_reducible assumption) ?_)

theorem qpErrors_keeps {s₀ : State} {s : State} {qs : List Nat} {status : Nat} (keep : Keeps s₀ s) :
    Keeps s₀ (qpErrors s qs status) := by
  unfold qpErrors
  repeat' first
    | with_reducible assumption
    | (with_reducible refine fun _ (_ : Keeps s₀ _) => ?_)
    | with_reducible apply qpError_keeps
    | (with_reducible refine Keeps.foldl (fun t a ht => ?_) ?_)
    | (with_reducible refine Keeps.foldl1 (fun p a hp => ?_) ?_)
    | (with_reducible refine Keeps.foldl2 (fun p a hp => ?_) ?_)
    | with_reducible apply Keeps.ite
    | with_reducible apply Keeps.ite1
    | with_reducible apply Keeps.ite2
    | (with_reducible refine Keeps.snd (by with_reducible assumption) ?_)
    | (with_reducible refine Keeps.fst (by with_reducible assumption) ?_)

theorem sealPacket_keeps {s₀ s : State} {q psn : Nat} {ext payload : Bytes} (h : Keeps s₀ s) :
    Keeps s₀ (sealPacket s q psn ext payload).2 := by
  unfold sealPacket
  split
  · exact h
  · have hm : ∀ g, Keeps s₀ (s.modQp q g) := fun g => State.modQp_keeps h
    by_cases hc : (s.qp q).txCount + 1 = 2 ^ 48
    · simp only [hc, if_true]; exact qpError_keeps (hm _)
    · simp only [hc, if_false]; exact hm _

theorem sealPackets_keeps {s₀ s : State} {q psn : Nat} {ext : Bytes} {ds : List Bytes} (h : Keeps s₀ s) :
    Keeps s₀ (sealPackets q psn ext ds s).2 := by
  induction ds generalizing s psn ext with
  | nil => exact h
  | cons d ds ih => exact ih (sealPacket_keeps h)

theorem wireOf_keeps {s₀ : State} {s : State} {q psn : Nat} {ext payload : Bytes} (keep : Keeps s₀ s) :
    Keeps s₀ (wireOf s q psn ext payload).2 := by
  unfold wireOf
  repeat' first
    | with_reducible assumption
    | (with_reducible refine fun _ (_ : Keeps s₀ _) => ?_)
    | with_reducible apply sealPackets_keeps
    | with_reducible apply Keeps.ite
    | with_reducible apply Keeps.ite1
    | with_reducible apply Keeps.ite2
    | with_reducible apply Keeps.pair2
    | (with_reducible refine Keeps.snd (by with_reducible assumption) ?_)
    | (with_reducible refine Keeps.fst (by with_reducible assumption) ?_)

theorem touchQp_keeps {s₀ : State} {s : State} {q : Nat} (keep : Keeps s₀ s) :
    Keeps s₀ (touchQp s q) := by
  unfold touchQp
  repeat' first
    | with_reducible assumption
    | (with_reducible refine fun _ (_ : Keeps s₀ _) => ?_)
    | with_reducible apply Keeps.ite
    | with_reducible apply Keeps.ite1
    | with_reducible apply Keeps.ite2
    | (with_reducible refine Keeps.snd (by with_reducible assumption) ?_)
    | (with_reducible refine Keeps.fst (by with_reducible assumption) ?_)
    | (fail_if_no_progress with_reducible apply Keeps.other)

theorem sendChunk_keeps {s₀ : State} {s : State} {q : Nat} {d : Bytes} (keep : Keeps s₀ s) :
    Keeps s₀ (sendChunk s q d) := by
  unfold sendChunk
  repeat' first
    | with_reducible assumption
    | (with_reducible refine fun _ (_ : Keeps s₀ _) => ?_)
    | (extract_lets -underBinder +onlyGivenNames x; have hx : Keeps s₀ x := ?_; on_goal 2 => dsimp only [x]; on_goal 1 => clear_value x)
    | (extract_lets -underBinder +onlyGivenNames x; have hx : Keeps s₀ x.2 := ?_; on_goal 2 => dsimp only [x]; on_goal 1 => clear_value x)
    | (extract_lets -underBinder +onlyGivenNames x; have hx : Keeps s₀ x.1 := ?_; on_goal 2 => dsimp only [x]; on_goal 1 => clear_value x)
    | (extract_lets -underBinder +onlyGivenNames x)
    | with_reducible apply workDone_keeps
    | with_reducible apply emit_keeps
    | with_reducible apply State.modQp_keeps
    | with_reducible apply count_keeps
    | with_reducible apply wireOf_keeps
    | with_reducible apply touchQp_keeps
    | with_reducible apply Keeps.ite
    | with_reducible apply Keeps.ite1
    | with_reducible apply Keeps.ite2
    | (with_reducible refine Keeps.snd (by with_reducible assumption) ?_)
    | (with_reducible refine Keeps.fst (by with_reducible assumption) ?_)
    | (fail_if_no_progress with_reducible apply Keeps.other)

theorem served_keeps {s₀ : State} {s : State} {n : Nat} (keep : Keeps s₀ s) :
    Keeps s₀ (served s n) := by
  unfold served
  repeat' first
    | with_reducible assumption
    | (with_reducible refine fun _ (_ : Keeps s₀ _) => ?_)
    | with_reducible apply count_keeps
    | (with_reducible refine Keeps.snd (by with_reducible assumption) ?_)
    | (with_reducible refine Keeps.fst (by with_reducible assumption) ?_)
    | (fail_if_no_progress with_reducible apply Keeps.other)

theorem bump_keeps {s₀ : State} {s : State} {j : JobId} {c n : Nat} (keep : Keeps s₀ s) :
    Keeps s₀ (bump s j c n) := by
  unfold bump
  repeat' first
    | with_reducible assumption
    | (with_reducible refine fun _ (_ : Keeps s₀ _) => ?_)
    | with_reducible apply State.modJob_keeps
    | with_reducible exact id
    | exact fun _ => rfl
    | (with_reducible refine Keeps.snd (by with_reducible assumption) ?_)
    | (with_reducible refine Keeps.fst (by with_reducible assumption) ?_)
    | (fail_if_no_progress with_reducible apply Keeps.other)

end Sys2Proof.Machine
end

