-- ==== Sys2Proof/Laws/KeepsMemory.lean ====
section
/-! SUPPORT. What the operations of Machine/Memory.lean leave alone (Safety). -/

set_option linter.unusedTactic false
set_option linter.unreachableTactic false
set_option linter.tactic.unusedName false

namespace Sys2Proof.Machine

theorem clearPlace_keeps {s₀ : State} {s : State} {j : JobId} {o n : Nat} (keep : Keeps s₀ s) :
    Keeps s₀ (clearPlace s j o n) := by
  unfold clearPlace
  repeat' first
    | with_reducible assumption
    | (with_reducible refine fun _ (_ : Keeps s₀ _) => ?_)
    | with_reducible apply clearPoison_keeps
    | (with_reducible refine Keeps.foldl (fun t a ht => ?_) ?_)
    | (with_reducible refine Keeps.foldl1 (fun p a hp => ?_) ?_)
    | (with_reducible refine Keeps.foldl2 (fun p a hp => ?_) ?_)
    | with_reducible apply Keeps.ite
    | with_reducible apply Keeps.ite1
    | with_reducible apply Keeps.ite2
    | (with_reducible refine Keeps.snd (by with_reducible assumption) ?_)
    | (with_reducible refine Keeps.fst (by with_reducible assumption) ?_)

theorem plainPut_keeps {s₀ s : State} {j : JobId} {a : Nat} {v : Byte} (h : Keeps s₀ s) : Keeps s₀ (plainPut s j a v) := by
  unfold plainPut
  split
  · exact State.modJob_keeps h _ _ id
  · split
    · exact State.modJob_keeps h _ _ (memPut_wf _ _ _)
    · split
      · exact h.mem _ (memPut_wf _ _ _)
      · exact h

theorem jobPut_keeps {s₀ s : State} {j : JobId} {a : Nat} {v : Byte} (h : Keeps s₀ s) : Keeps s₀ (jobPut s j a v) := by
  unfold jobPut
  split
  · exact State.modRound_keeps h
  · exact plainPut_keeps h

theorem jobWrite_keeps {s₀ s : State} {j : JobId} {a : Nat} {d : Bytes} (h : Keeps s₀ s) : Keeps s₀ (jobWrite s j a d) := by
  induction d generalizing s a with
  | nil => exact h
  | cons b d ih => exact ih (jobPut_keeps h)

theorem storeLine_keeps {s₀ : State} {j : JobId} {a : Nat} {d : Bytes} {s : State} {l : Nat} (keep : Keeps s₀ s) :
    Keeps s₀ (storeLine j a d s l) := by
  unfold storeLine
  repeat' first
    | with_reducible assumption
    | (with_reducible refine fun _ (_ : Keeps s₀ _) => ?_)
    | (extract_lets -underBinder +onlyGivenNames x; have hx : Keeps s₀ x := ?_; on_goal 2 => dsimp only [x]; on_goal 1 => clear_value x)
    | (extract_lets -underBinder +onlyGivenNames x; have hx : Keeps s₀ x.2 := ?_; on_goal 2 => dsimp only [x]; on_goal 1 => clear_value x)
    | (extract_lets -underBinder +onlyGivenNames x; have hx : Keeps s₀ x.1 := ?_; on_goal 2 => dsimp only [x]; on_goal 1 => clear_value x)
    | (extract_lets -underBinder +onlyGivenNames x)
    | with_reducible apply clearPoison_keeps
    | with_reducible apply jobWrite_keeps
    | with_reducible apply Keeps.ite
    | with_reducible apply Keeps.ite1
    | with_reducible apply Keeps.ite2
    | (with_reducible refine Keeps.snd (by with_reducible assumption) ?_)
    | (with_reducible refine Keeps.fst (by with_reducible assumption) ?_)

theorem jobStore_keeps {s₀ : State} {s : State} {j : JobId} {a : Nat} {d : Bytes} (keep : Keeps s₀ s) :
    Keeps s₀ (jobStore s j a d) := by
  unfold jobStore
  repeat' first
    | with_reducible assumption
    | (with_reducible refine fun _ (_ : Keeps s₀ _) => ?_)
    | with_reducible apply storeLine_keeps
    | (with_reducible refine Keeps.foldl (fun t a ht => ?_) ?_)
    | (with_reducible refine Keeps.foldl1 (fun p a hp => ?_) ?_)
    | (with_reducible refine Keeps.foldl2 (fun p a hp => ?_) ?_)
    | (with_reducible refine Keeps.snd (by with_reducible assumption) ?_)
    | (with_reducible refine Keeps.fst (by with_reducible assumption) ?_)

theorem jobSetWord_keeps {s₀ : State} {s : State} {j : JobId} {a : Nat} {v : Word} (keep : Keeps s₀ s) :
    Keeps s₀ (jobSetWord s j a v) := by
  unfold jobSetWord
  repeat' first
    | with_reducible assumption
    | (with_reducible refine fun _ (_ : Keeps s₀ _) => ?_)
    | with_reducible apply jobWrite_keeps
    | (with_reducible refine Keeps.snd (by with_reducible assumption) ?_)
    | (with_reducible refine Keeps.fst (by with_reducible assumption) ?_)

theorem bankWork_keeps {s₀ : State} {s : State} {j : JobId} {a n ops : Nat} (keep : Keeps s₀ s) :
    Keeps s₀ (bankWork s j a n ops) := by
  unfold bankWork
  repeat' first
    | with_reducible assumption
    | (with_reducible refine fun _ (_ : Keeps s₀ _) => ?_)
    | (extract_lets -underBinder +onlyGivenNames x; have hx : Keeps s₀ x := ?_; on_goal 2 => dsimp only [x]; on_goal 1 => clear_value x)
    | (extract_lets -underBinder +onlyGivenNames x; have hx : Keeps s₀ x.2 := ?_; on_goal 2 => dsimp only [x]; on_goal 1 => clear_value x)
    | (extract_lets -underBinder +onlyGivenNames x; have hx : Keeps s₀ x.1 := ?_; on_goal 2 => dsimp only [x]; on_goal 1 => clear_value x)
    | (extract_lets -underBinder +onlyGivenNames x)
    | with_reducible apply pmu_keeps
    | with_reducible apply Keeps.ite
    | with_reducible apply Keeps.ite1
    | with_reducible apply Keeps.ite2
    | (with_reducible refine Keeps.snd (by with_reducible assumption) ?_)
    | (with_reducible refine Keeps.fst (by with_reducible assumption) ?_)

theorem vatPut_keeps {s₀ s : State} {a : Nat} {v : Byte} (h : Keeps s₀ s) : Keeps s₀ (vatPut s a v) := by
  unfold vatPut
  split
  · exact State.modRound_keeps h
  · exact h.mem _ (memPut_wf _ _ _)

theorem vatWrite_keeps {s₀ s : State} {a : Nat} {d : Bytes} (h : Keeps s₀ s) : Keeps s₀ (vatWrite s a d) := by
  induction d generalizing s a with
  | nil => exact h
  | cons b d ih => exact ih (vatPut_keeps h)

end Sys2Proof.Machine
end

