-- ==== Sys2Proof/Laws/KeepsRegFile.lean ====
section
/-! SUPPORT. What the operations of Machine/RegFile.lean leave alone (Safety). -/

set_option linter.unusedTactic false
set_option linter.unreachableTactic false
set_option linter.tactic.unusedName false

namespace Sys2Proof.Machine

theorem storeField_keeps {s₀ : State} {a b v : Nat} {s : State} {f : Fld} (keep : Keeps s₀ s) :
    Keeps s₀ (storeField a b v s f) := by
  unfold storeField
  repeat' first
    | with_reducible assumption
    | (with_reducible refine fun _ (_ : Keeps s₀ _) => ?_)
    | with_reducible apply fset_keeps
    | with_reducible apply Keeps.ite
    | with_reducible apply Keeps.ite1
    | with_reducible apply Keeps.ite2
    | split
    | (with_reducible refine Keeps.snd (by with_reducible assumption) ?_)
    | (with_reducible refine Keeps.fst (by with_reducible assumption) ?_)
    | (fail_if_no_progress with_reducible apply Keeps.other)

theorem storeReg_keeps {s₀ : State} {s : State} {r : Reg} {a b v : Nat} (keep : Keeps s₀ s) :
    Keeps s₀ (storeReg s r a b v) := by
  unfold storeReg
  repeat' first
    | with_reducible assumption
    | (with_reducible refine fun _ (_ : Keeps s₀ _) => ?_)
    | with_reducible apply storeField_keeps
    | (with_reducible refine Keeps.foldl (fun t a ht => ?_) ?_)
    | (with_reducible refine Keeps.foldl1 (fun p a hp => ?_) ?_)
    | (with_reducible refine Keeps.foldl2 (fun p a hp => ?_) ?_)
    | (with_reducible refine Keeps.snd (by with_reducible assumption) ?_)
    | (with_reducible refine Keeps.fst (by with_reducible assumption) ?_)

theorem storeSel_keeps {s₀ : State} {s : State} {r : Reg} {v : Nat} (keep : Keeps s₀ s) :
    Keeps s₀ (storeSel s r v) := by
  unfold storeSel
  repeat' first
    | with_reducible assumption
    | (with_reducible refine fun _ (_ : Keeps s₀ _) => ?_)
    | with_reducible apply storeReg_keeps
    | (with_reducible refine Keeps.snd (by with_reducible assumption) ?_)
    | (with_reducible refine Keeps.fst (by with_reducible assumption) ?_)

end Sys2Proof.Machine
end

