-- ==== Sys2Proof/Laws/KeepsPmu.lean ====
section
/-! SUPPORT. What the operations of Machine/Pmu.lean leave alone (Safety). -/

set_option linter.unusedTactic false
set_option linter.unreachableTactic false
set_option linter.tactic.unusedName false

namespace Sys2Proof.Machine

theorem clearCounters_keeps {s₀ : State} {s : State} (keep : Keeps s₀ s) :
    Keeps s₀ (clearCounters s) := by
  unfold clearCounters
  repeat' first
    | with_reducible assumption
    | (with_reducible refine fun _ (_ : Keeps s₀ _) => ?_)
    | with_reducible apply resetRegs_keeps
    | (with_reducible refine Keeps.snd (by with_reducible assumption) ?_)
    | (with_reducible refine Keeps.fst (by with_reducible assumption) ?_)

theorem snapshot_keeps {s₀ : State} {s : State} (keep : Keeps s₀ s) :
    Keeps s₀ (snapshot s) := by
  unfold snapshot
  repeat' first
    | with_reducible assumption
    | (with_reducible refine fun _ (_ : Keeps s₀ _) => ?_)
    | (extract_lets -underBinder +onlyGivenNames x; have hx : Keeps s₀ x := ?_; on_goal 2 => dsimp only [x]; on_goal 1 => clear_value x)
    | (extract_lets -underBinder +onlyGivenNames x; have hx : Keeps s₀ x.2 := ?_; on_goal 2 => dsimp only [x]; on_goal 1 => clear_value x)
    | (extract_lets -underBinder +onlyGivenNames x; have hx : Keeps s₀ x.1 := ?_; on_goal 2 => dsimp only [x]; on_goal 1 => clear_value x)
    | (extract_lets -underBinder +onlyGivenNames x)
    | with_reducible apply fset_keeps
    | with_reducible apply count_keeps
    | (with_reducible refine Keeps.foldl (fun t a ht => ?_) ?_)
    | (with_reducible refine Keeps.foldl1 (fun p a hp => ?_) ?_)
    | (with_reducible refine Keeps.foldl2 (fun p a hp => ?_) ?_)
    | (with_reducible refine Keeps.snd (by with_reducible assumption) ?_)
    | (with_reducible refine Keeps.fst (by with_reducible assumption) ?_)

theorem sampleStart_keeps {s₀ : State} {s : State} (keep : Keeps s₀ s) :
    Keeps s₀ (sampleStart s) := by
  unfold sampleStart
  repeat' first
    | with_reducible assumption
    | (with_reducible refine fun _ (_ : Keeps s₀ _) => ?_)
    | with_reducible apply set1_keeps
    | (with_reducible refine Keeps.snd (by with_reducible assumption) ?_)
    | (with_reducible refine Keeps.fst (by with_reducible assumption) ?_)
    | (fail_if_no_progress with_reducible apply Keeps.other)

theorem writePmuCtrl_keeps {s₀ : State} {s : State} {v : Nat} (keep : Keeps s₀ s) :
    Keeps s₀ (writePmuCtrl s v) := by
  unfold writePmuCtrl
  repeat' first
    | with_reducible assumption
    | (with_reducible refine fun _ (_ : Keeps s₀ _) => ?_)
    | (extract_lets -underBinder +onlyGivenNames x; have hx : Keeps s₀ x := ?_; on_goal 2 => dsimp only [x]; on_goal 1 => clear_value x)
    | (extract_lets -underBinder +onlyGivenNames x; have hx : Keeps s₀ x.2 := ?_; on_goal 2 => dsimp only [x]; on_goal 1 => clear_value x)
    | (extract_lets -underBinder +onlyGivenNames x; have hx : Keeps s₀ x.1 := ?_; on_goal 2 => dsimp only [x]; on_goal 1 => clear_value x)
    | (extract_lets -underBinder +onlyGivenNames x)
    | with_reducible apply storeReg_keeps
    | with_reducible apply sampleStart_keeps
    | with_reducible apply snapshot_keeps
    | with_reducible apply clearCounters_keeps
    | with_reducible apply Keeps.ite
    | with_reducible apply Keeps.ite1
    | with_reducible apply Keeps.ite2
    | (with_reducible refine Keeps.snd (by with_reducible assumption) ?_)
    | (with_reducible refine Keeps.fst (by with_reducible assumption) ?_)

theorem execPmuFreeze_keeps {s₀ : State} {v : BitVec 32} {s : State} (keep : Keeps s₀ s) :
    Answers s₀ (execPmuFreeze v s) := by
  unfold execPmuFreeze
  repeat' first
    | with_reducible assumption
    | (with_reducible refine fun _ (_ : Keeps s₀ _) => ?_)
    | with_reducible apply Answers.next
    | with_reducible apply writePmuCtrl_keeps
    | (with_reducible refine Keeps.snd (by with_reducible assumption) ?_)
    | (with_reducible refine Keeps.fst (by with_reducible assumption) ?_)

theorem execPmuSnapshot_keeps {s₀ : State} {v : BitVec 32} {s : State} (keep : Keeps s₀ s) :
    Answers s₀ (execPmuSnapshot v s) := by
  unfold execPmuSnapshot
  repeat' first
    | with_reducible assumption
    | (with_reducible refine fun _ (_ : Keeps s₀ _) => ?_)
    | with_reducible apply Answers.next
    | with_reducible apply writePmuCtrl_keeps
    | (with_reducible refine Keeps.snd (by with_reducible assumption) ?_)
    | (with_reducible refine Keeps.fst (by with_reducible assumption) ?_)

theorem execPmuClearAll_keeps {s₀ : State} {v : BitVec 32} {s : State} (keep : Keeps s₀ s) :
    Answers s₀ (execPmuClearAll v s) := by
  unfold execPmuClearAll
  repeat' first
    | with_reducible assumption
    | (with_reducible refine fun _ (_ : Keeps s₀ _) => ?_)
    | with_reducible apply Answers.next
    | with_reducible apply writePmuCtrl_keeps
    | (with_reducible refine Keeps.snd (by with_reducible assumption) ?_)
    | (with_reducible refine Keeps.fst (by with_reducible assumption) ?_)

theorem execSampEnable_keeps {s₀ : State} {v : BitVec 32} {s : State} (keep : Keeps s₀ s) :
    Answers s₀ (execSampEnable v s) := by
  unfold execSampEnable
  repeat' first
    | with_reducible assumption
    | (with_reducible refine fun _ (_ : Keeps s₀ _) => ?_)
    | with_reducible apply Answers.next
    | with_reducible apply writePmuCtrl_keeps
    | (with_reducible refine Keeps.snd (by with_reducible assumption) ?_)
    | (with_reducible refine Keeps.fst (by with_reducible assumption) ?_)

theorem writePmuValue_keeps {s₀ : State} {s : State} {v : Nat} (keep : Keeps s₀ s) :
    Keeps s₀ (writePmuValue s v) := by
  unfold writePmuValue
  repeat' first
    | with_reducible assumption
    | (with_reducible refine fun _ (_ : Keeps s₀ _) => ?_)
    | with_reducible apply storeSel_keeps
    | with_reducible apply Keeps.ite
    | with_reducible apply Keeps.ite1
    | with_reducible apply Keeps.ite2
    | (with_reducible refine Keeps.snd (by with_reducible assumption) ?_)
    | (with_reducible refine Keeps.fst (by with_reducible assumption) ?_)

theorem execPmuValueWrite_keeps {s₀ : State} {v : Word} {s : State} (keep : Keeps s₀ s) :
    Answers s₀ (execPmuValueWrite v s) := by
  unfold execPmuValueWrite
  repeat' first
    | with_reducible assumption
    | (with_reducible refine fun _ (_ : Keeps s₀ _) => ?_)
    | with_reducible apply Answers.next
    | with_reducible apply writePmuValue_keeps
    | (with_reducible refine Keeps.snd (by with_reducible assumption) ?_)
    | (with_reducible refine Keeps.fst (by with_reducible assumption) ?_)

theorem execPmuCounterWrap_keeps {s₀ : State} {i : Fin 40} {n : Nat} {s : State} (keep : Keeps s₀ s) :
    Answers s₀ (execPmuCounterWrap i n s) := by
  unfold execPmuCounterWrap
  repeat' first
    | with_reducible assumption
    | (with_reducible refine fun _ (_ : Keeps s₀ _) => ?_)
    | with_reducible apply Answers.next
    | with_reducible apply pmuAdd_keeps
    | with_reducible apply Keeps.ite
    | with_reducible apply Keeps.ite1
    | with_reducible apply Keeps.ite2
    | with_reducible apply Answers.ite
    | (with_reducible refine Keeps.snd (by with_reducible assumption) ?_)
    | (with_reducible refine Keeps.fst (by with_reducible assumption) ?_)

theorem writeGrant_keeps {s₀ : State} {s : State} {v : Nat} (keep : Keeps s₀ s) :
    Keeps s₀ (writeGrant s v) := by
  unfold writeGrant
  repeat' first
    | with_reducible assumption
    | (with_reducible refine fun _ (_ : Keeps s₀ _) => ?_)
    | with_reducible apply storeReg_keeps
    | with_reducible apply Keeps.ite
    | with_reducible apply Keeps.ite1
    | with_reducible apply Keeps.ite2
    | (with_reducible refine Keeps.snd (by with_reducible assumption) ?_)
    | (with_reducible refine Keeps.fst (by with_reducible assumption) ?_)

theorem execVfGrantWrite_keeps {s₀ : State} {v : Word} {s : State} (keep : Keeps s₀ s) :
    Answers s₀ (execVfGrantWrite v s) := by
  unfold execVfGrantWrite
  repeat' first
    | with_reducible assumption
    | (with_reducible refine fun _ (_ : Keeps s₀ _) => ?_)
    | with_reducible apply Answers.next
    | with_reducible apply writeGrant_keeps
    | (with_reducible refine Keeps.snd (by with_reducible assumption) ?_)
    | (with_reducible refine Keeps.fst (by with_reducible assumption) ?_)

theorem writeSbufRd_keeps {s₀ : State} {s : State} {v : Nat} (keep : Keeps s₀ s) :
    Keeps s₀ (writeSbufRd s v) := by
  unfold writeSbufRd
  repeat' first
    | with_reducible assumption
    | (with_reducible refine fun _ (_ : Keeps s₀ _) => ?_)
    | with_reducible apply storeReg_keeps
    | with_reducible apply Keeps.ite
    | with_reducible apply Keeps.ite1
    | with_reducible apply Keeps.ite2
    | (with_reducible refine Keeps.snd (by with_reducible assumption) ?_)
    | (with_reducible refine Keeps.fst (by with_reducible assumption) ?_)

theorem execSbufRdWrite_keeps {s₀ : State} {v : BitVec 32} {s : State} (keep : Keeps s₀ s) :
    Answers s₀ (execSbufRdWrite v s) := by
  unfold execSbufRdWrite
  repeat' first
    | with_reducible assumption
    | (with_reducible refine fun _ (_ : Keeps s₀ _) => ?_)
    | with_reducible apply Answers.next
    | with_reducible apply writeSbufRd_keeps
    | (with_reducible refine Keeps.snd (by with_reducible assumption) ?_)
    | (with_reducible refine Keeps.fst (by with_reducible assumption) ?_)

theorem issueWords_keeps {s₀ : State} {s : State} {x : CtxId} {c : Ctx} {n : Nat} (keep : Keeps s₀ s) :
    Keeps s₀ (issueWords s x c n) := by
  unfold issueWords
  repeat' first
    | with_reducible assumption
    | (with_reducible refine fun _ (_ : Keeps s₀ _) => ?_)
    | with_reducible apply Keeps.ite
    | with_reducible apply Keeps.ite1
    | with_reducible apply Keeps.ite2
    | (with_reducible refine Keeps.snd (by with_reducible assumption) ?_)
    | (with_reducible refine Keeps.fst (by with_reducible assumption) ?_)
    | (fail_if_no_progress with_reducible apply Keeps.other)

theorem reload_keeps {s₀ : State} {s : State} (keep : Keeps s₀ s) :
    Keeps s₀ (reload s) := by
  unfold reload
  repeat' first
    | with_reducible assumption
    | (with_reducible refine fun _ (_ : Keeps s₀ _) => ?_)
    | (extract_lets -underBinder +onlyGivenNames x; have hx : Keeps s₀ x := ?_; on_goal 2 => dsimp only [x]; on_goal 1 => clear_value x)
    | (extract_lets -underBinder +onlyGivenNames x; have hx : Keeps s₀ x.2 := ?_; on_goal 2 => dsimp only [x]; on_goal 1 => clear_value x)
    | (extract_lets -underBinder +onlyGivenNames x; have hx : Keeps s₀ x.1 := ?_; on_goal 2 => dsimp only [x]; on_goal 1 => clear_value x)
    | (extract_lets -underBinder +onlyGivenNames x)
    | (with_reducible refine Keeps.snd (by with_reducible assumption) ?_)
    | (with_reducible refine Keeps.fst (by with_reducible assumption) ?_)
    | (fail_if_no_progress with_reducible apply Keeps.other)

theorem execSampleTag_keeps {s₀ : State} {x : CtxId} {pc : Fin 1024} {s : State} (keep : Keeps s₀ s) :
    Answers s₀ (execSampleTag x pc s) := by
  unfold execSampleTag
  refine Answers.next ?_
  split
  · exact keep
  · refine Keeps.ite keep ?_
    split
    · exact reload_keeps (countSat_keeps keep)
    · rename_i hn
      have hl : (s.tags ++ [newTag s x ‹Ctx› pc]).length ≤ 16 := by simp only [List.length_append, List.length_singleton]; omega
      exact fset_keeps (reload_keeps (Keeps.other (keep.tags _ (fun _ => hl)))) _ _ _ _

theorem execSampleRecordWrite_keeps {s₀ : State} {n : Nat} {m : SampleMeasure} {s : State} (keep : Keeps s₀ s) :
    Answers s₀ (execSampleRecordWrite n m s) := by
  unfold execSampleRecordWrite
  refine Answers.next ?_
  split
  · exact keep
  · have h := fset_keeps (keep.tags (s.tags.filter (fun u => u.number != n)) (fun h => (List.length_filter_le _ _).trans h))
      PMU_SAMP_STAT.INFLIGHT 0 0 (s.tags.filter (fun u => u.number != n)).length
    dsimp only
    split
    · exact Keeps.other (fset_keeps (countSat_keeps h) _ _ _ _)
    · exact Keeps.other (fset_keeps (hostPut_keeps h) _ _ _ _)

end Sys2Proof.Machine
end

