-- ==== Sys2Proof/Laws/KeepsEvents.lean ====
section
/-! SUPPORT. What the operations of Machine/Events.lean leave alone (Safety). -/

set_option linter.unusedTactic false
set_option linter.unreachableTactic false
set_option linter.tactic.unusedName false

namespace Sys2Proof.Machine

theorem fireEntry_keeps {s₀ : State} {s : State} {e : Nat} {late : Bool} (keep : Keeps s₀ s) :
    Keeps s₀ (fireEntry s e late) := by
  unfold fireEntry
  repeat' first
    | with_reducible assumption
    | (with_reducible refine fun _ (_ : Keeps s₀ _) => ?_)
    | (extract_lets -underBinder +onlyGivenNames x; have hx : Keeps s₀ x := ?_; on_goal 2 => dsimp only [x]; on_goal 1 => clear_value x)
    | (extract_lets -underBinder +onlyGivenNames x; have hx : Keeps s₀ x.2 := ?_; on_goal 2 => dsimp only [x]; on_goal 1 => clear_value x)
    | (extract_lets -underBinder +onlyGivenNames x; have hx : Keeps s₀ x.1 := ?_; on_goal 2 => dsimp only [x]; on_goal 1 => clear_value x)
    | (extract_lets -underBinder +onlyGivenNames x)
    | with_reducible apply fset_keeps
    | with_reducible apply count_keeps
    | with_reducible apply Keeps.ite
    | with_reducible apply Keeps.ite1
    | with_reducible apply Keeps.ite2
    | split
    | (with_reducible refine Keeps.snd (by with_reducible assumption) ?_)
    | (with_reducible refine Keeps.fst (by with_reducible assumption) ?_)
    | (fail_if_no_progress with_reducible apply Keeps.other)

theorem disarm_keeps {s₀ : State} {s : State} {e : Nat} (keep : Keeps s₀ s) :
    Keeps s₀ (disarm s e) := by
  unfold disarm
  repeat' first
    | with_reducible assumption
    | (with_reducible refine fun _ (_ : Keeps s₀ _) => ?_)
    | with_reducible apply fset_keeps
    | (with_reducible refine Keeps.snd (by with_reducible assumption) ?_)
    | (with_reducible refine Keeps.fst (by with_reducible assumption) ?_)
    | (fail_if_no_progress with_reducible apply Keeps.other)

theorem clearEntry_keeps {s₀ : State} {s : State} {e : Nat} (keep : Keeps s₀ s) :
    Keeps s₀ (clearEntry s e) := by
  unfold clearEntry
  repeat' first
    | with_reducible assumption
    | (with_reducible refine fun _ (_ : Keeps s₀ _) => ?_)
    | with_reducible apply fset_keeps
    | (with_reducible refine Keeps.snd (by with_reducible assumption) ?_)
    | (with_reducible refine Keeps.fst (by with_reducible assumption) ?_)

theorem arm_keeps {s₀ : State} {s : State} {e : Nat} {a : Armed} (keep : Keeps s₀ s) :
    Keeps s₀ (arm s e a) := by
  unfold arm
  repeat' first
    | with_reducible assumption
    | (with_reducible refine fun _ (_ : Keeps s₀ _) => ?_)
    | (extract_lets -underBinder +onlyGivenNames x; have hx : Keeps s₀ x := ?_; on_goal 2 => dsimp only [x]; on_goal 1 => clear_value x)
    | (extract_lets -underBinder +onlyGivenNames x; have hx : Keeps s₀ x.2 := ?_; on_goal 2 => dsimp only [x]; on_goal 1 => clear_value x)
    | (extract_lets -underBinder +onlyGivenNames x; have hx : Keeps s₀ x.1 := ?_; on_goal 2 => dsimp only [x]; on_goal 1 => clear_value x)
    | (extract_lets -underBinder +onlyGivenNames x)
    | with_reducible apply clearEntry_keeps
    | with_reducible apply fset_keeps
    | (with_reducible refine Keeps.snd (by with_reducible assumption) ?_)
    | (with_reducible refine Keeps.fst (by with_reducible assumption) ?_)
    | (fail_if_no_progress with_reducible apply Keeps.other)

theorem armPhases_keeps {s₀ : State} {s : State} {j : JobId} {r : Nat} {p : Bytes} (keep : Keeps s₀ s) :
    Keeps s₀ (armPhases s j r p) := by
  unfold armPhases
  repeat' first
    | with_reducible assumption
    | (with_reducible refine fun _ (_ : Keeps s₀ _) => ?_)
    | (extract_lets -underBinder +onlyGivenNames x; have hx : Keeps s₀ x := ?_; on_goal 2 => dsimp only [x]; on_goal 1 => clear_value x)
    | (extract_lets -underBinder +onlyGivenNames x; have hx : Keeps s₀ x.2 := ?_; on_goal 2 => dsimp only [x]; on_goal 1 => clear_value x)
    | (extract_lets -underBinder +onlyGivenNames x; have hx : Keeps s₀ x.1 := ?_; on_goal 2 => dsimp only [x]; on_goal 1 => clear_value x)
    | (extract_lets -underBinder +onlyGivenNames x)
    | with_reducible apply fset_keeps
    | with_reducible apply arm_keeps
    | (with_reducible refine Keeps.foldl (fun t a ht => ?_) ?_)
    | (with_reducible refine Keeps.foldl1 (fun p a hp => ?_) ?_)
    | (with_reducible refine Keeps.foldl2 (fun p a hp => ?_) ?_)
    | with_reducible apply Keeps.ite
    | with_reducible apply Keeps.ite1
    | with_reducible apply Keeps.ite2
    | (with_reducible refine Keeps.snd (by with_reducible assumption) ?_)
    | (with_reducible refine Keeps.fst (by with_reducible assumption) ?_)

theorem followOffer_keeps {s₀ : State} {s : State} {j : JobId} {r offer : Nat} (keep : Keeps s₀ s) :
    Keeps s₀ (followOffer s j r offer) := by
  unfold followOffer
  repeat' first
    | with_reducible assumption
    | (with_reducible refine fun _ (_ : Keeps s₀ _) => ?_)
    | with_reducible apply clearEntry_keeps
    | (with_reducible refine Keeps.foldl (fun t a ht => ?_) ?_)
    | (with_reducible refine Keeps.foldl1 (fun p a hp => ?_) ?_)
    | (with_reducible refine Keeps.foldl2 (fun p a hp => ?_) ?_)
    | with_reducible apply Keeps.ite
    | with_reducible apply Keeps.ite1
    | with_reducible apply Keeps.ite2
    | (with_reducible refine Keeps.snd (by with_reducible assumption) ?_)
    | (with_reducible refine Keeps.fst (by with_reducible assumption) ?_)
    | (fail_if_no_progress with_reducible apply Keeps.other)

theorem unfollow_keeps {s₀ : State} {s : State} {j : JobId} {r : Nat} (keep : Keeps s₀ s) :
    Keeps s₀ (unfollow s j r) := by
  unfold unfollow
  repeat' first
    | with_reducible assumption
    | (with_reducible refine fun _ (_ : Keeps s₀ _) => ?_)
    | (extract_lets -underBinder +onlyGivenNames x; have hx : Keeps s₀ x := ?_; on_goal 2 => dsimp only [x]; on_goal 1 => clear_value x)
    | (extract_lets -underBinder +onlyGivenNames x; have hx : Keeps s₀ x.2 := ?_; on_goal 2 => dsimp only [x]; on_goal 1 => clear_value x)
    | (extract_lets -underBinder +onlyGivenNames x; have hx : Keeps s₀ x.1 := ?_; on_goal 2 => dsimp only [x]; on_goal 1 => clear_value x)
    | (extract_lets -underBinder +onlyGivenNames x)
    | with_reducible apply fireEntry_keeps
    | with_reducible apply disarm_keeps
    | (with_reducible refine Keeps.foldl (fun t a ht => ?_) ?_)
    | (with_reducible refine Keeps.foldl1 (fun p a hp => ?_) ?_)
    | (with_reducible refine Keeps.foldl2 (fun p a hp => ?_) ?_)
    | with_reducible apply Keeps.ite
    | with_reducible apply Keeps.ite1
    | with_reducible apply Keeps.ite2
    | split
    | (with_reducible refine Keeps.snd (by with_reducible assumption) ?_)
    | (with_reducible refine Keeps.fst (by with_reducible assumption) ?_)
    | (fail_if_no_progress with_reducible apply Keeps.other)

theorem dropPhases_keeps {s₀ : State} {s : State} {j : JobId} {r : Nat} (keep : Keeps s₀ s) :
    Keeps s₀ (dropPhases s j r) := by
  unfold dropPhases
  repeat' first
    | with_reducible assumption
    | (with_reducible refine fun _ (_ : Keeps s₀ _) => ?_)
    | with_reducible apply disarm_keeps
    | (with_reducible refine Keeps.foldl (fun t a ht => ?_) ?_)
    | (with_reducible refine Keeps.foldl1 (fun p a hp => ?_) ?_)
    | (with_reducible refine Keeps.foldl2 (fun p a hp => ?_) ?_)
    | with_reducible apply Keeps.ite
    | with_reducible apply Keeps.ite1
    | with_reducible apply Keeps.ite2
    | (with_reducible refine Keeps.snd (by with_reducible assumption) ?_)
    | (with_reducible refine Keeps.fst (by with_reducible assumption) ?_)

theorem fireHeld_keeps {s₀ : State} {s : State} (keep : Keeps s₀ s) :
    Keeps s₀ (fireHeld s) := by
  unfold fireHeld
  repeat' first
    | with_reducible assumption
    | (with_reducible refine fun _ (_ : Keeps s₀ _) => ?_)
    | (extract_lets -underBinder +onlyGivenNames x; have hx : Keeps s₀ x := ?_; on_goal 2 => dsimp only [x]; on_goal 1 => clear_value x)
    | (extract_lets -underBinder +onlyGivenNames x; have hx : Keeps s₀ x.2 := ?_; on_goal 2 => dsimp only [x]; on_goal 1 => clear_value x)
    | (extract_lets -underBinder +onlyGivenNames x; have hx : Keeps s₀ x.1 := ?_; on_goal 2 => dsimp only [x]; on_goal 1 => clear_value x)
    | (extract_lets -underBinder +onlyGivenNames x)
    | with_reducible apply fireEntry_keeps
    | (with_reducible refine Keeps.foldl (fun t a ht => ?_) ?_)
    | (with_reducible refine Keeps.foldl1 (fun p a hp => ?_) ?_)
    | (with_reducible refine Keeps.foldl2 (fun p a hp => ?_) ?_)
    | (with_reducible refine Keeps.snd (by with_reducible assumption) ?_)
    | (with_reducible refine Keeps.fst (by with_reducible assumption) ?_)

theorem firePassed_keeps {s₀ : State} {s : State} {before : Nat} (keep : Keeps s₀ s) :
    Keeps s₀ (firePassed s before) := by
  unfold firePassed
  repeat' first
    | with_reducible assumption
    | (with_reducible refine fun _ (_ : Keeps s₀ _) => ?_)
    | (extract_lets -underBinder +onlyGivenNames x; have hx : Keeps s₀ x := ?_; on_goal 2 => dsimp only [x]; on_goal 1 => clear_value x)
    | (extract_lets -underBinder +onlyGivenNames x; have hx : Keeps s₀ x.2 := ?_; on_goal 2 => dsimp only [x]; on_goal 1 => clear_value x)
    | (extract_lets -underBinder +onlyGivenNames x; have hx : Keeps s₀ x.1 := ?_; on_goal 2 => dsimp only [x]; on_goal 1 => clear_value x)
    | (extract_lets -underBinder +onlyGivenNames x)
    | with_reducible apply fset_keeps
    | with_reducible apply fireEntry_keeps
    | (with_reducible refine Keeps.foldl (fun t a ht => ?_) ?_)
    | (with_reducible refine Keeps.foldl1 (fun p a hp => ?_) ?_)
    | (with_reducible refine Keeps.foldl2 (fun p a hp => ?_) ?_)
    | with_reducible apply Keeps.ite
    | with_reducible apply Keeps.ite1
    | with_reducible apply Keeps.ite2
    | (with_reducible refine Keeps.snd (by with_reducible assumption) ?_)
    | (with_reducible refine Keeps.fst (by with_reducible assumption) ?_)
    | (fail_if_no_progress with_reducible apply Keeps.other)

end Sys2Proof.Machine
end

