-- ==== Sys2Proof/Laws/KeepsShares.lean ====
section
/-! SUPPORT. What the operations of Machine/Shares.lean leave alone (Safety). -/

set_option linter.unusedTactic false
set_option linter.unreachableTactic false
set_option linter.tactic.unusedName false

namespace Sys2Proof.Machine

theorem placeJob_keeps {s₀ : State} {s : State} {j : JobId} (keep : Keeps s₀ s) :
    Keeps s₀ (placeJob s j) := by
  unfold placeJob
  repeat' first
    | with_reducible assumption
    | (with_reducible refine fun _ (_ : Keeps s₀ _) => ?_)
    | with_reducible apply pinLoop_keeps
    | split
    | (with_reducible refine Keeps.snd (by with_reducible assumption) ?_)
    | (with_reducible refine Keeps.fst (by with_reducible assumption) ?_)
    | (fail_if_no_progress with_reducible apply Keeps.other)

theorem placementLoop_keeps {s₀ : State} {s : State} (keep : Keeps s₀ s) :
    Keeps s₀ (placementLoop s) := by
  unfold placementLoop
  repeat' first
    | with_reducible assumption
    | (with_reducible refine fun _ (_ : Keeps s₀ _) => ?_)
    | with_reducible apply placeJob_keeps
    | (with_reducible refine Keeps.foldl (fun t a ht => ?_) ?_)
    | (with_reducible refine Keeps.foldl1 (fun p a hp => ?_) ?_)
    | (with_reducible refine Keeps.foldl2 (fun p a hp => ?_) ?_)
    | (with_reducible refine Keeps.snd (by with_reducible assumption) ?_)
    | (with_reducible refine Keeps.fst (by with_reducible assumption) ?_)

end Sys2Proof.Machine
end

