-- ==== Sys2Proof/Laws/KeepsDomains.lean ====
section
/-! SUPPORT. What the operations of Machine/Domains.lean leave alone (Safety). -/

set_option linter.unusedTactic false
set_option linter.unreachableTactic false
set_option linter.tactic.unusedName false

namespace Sys2Proof.Machine

theorem wakeDomain_keeps {s₀ : State} {s : State} {d : Nat} (keep : Keeps s₀ s) :
    Keeps s₀ (wakeDomain s d) := by
  unfold wakeDomain
  repeat' first
    | with_reducible assumption
    | (with_reducible refine fun _ (_ : Keeps s₀ _) => ?_)
    | (extract_lets -underBinder +onlyGivenNames x; have hx : Keeps s₀ x := ?_; on_goal 2 => dsimp only [x]; on_goal 1 => clear_value x)
    | (extract_lets -underBinder +onlyGivenNames x; have hx : Keeps s₀ x.2 := ?_; on_goal 2 => dsimp only [x]; on_goal 1 => clear_value x)
    | (extract_lets -underBinder +onlyGivenNames x; have hx : Keeps s₀ x.1 := ?_; on_goal 2 => dsimp only [x]; on_goal 1 => clear_value x)
    | (extract_lets -underBinder +onlyGivenNames x)
    | with_reducible apply fset_keeps
    | with_reducible apply Keeps.ite
    | with_reducible apply Keeps.ite1
    | with_reducible apply Keeps.ite2
    | split
    | (with_reducible refine Keeps.snd (by with_reducible assumption) ?_)
    | (with_reducible refine Keeps.fst (by with_reducible assumption) ?_)
    | (fail_if_no_progress with_reducible apply Keeps.other)
    | (clear_value *; split)

theorem sleepDomain_keeps {s₀ : State} {s : State} {d p : Nat} (keep : Keeps s₀ s) :
    Keeps s₀ (sleepDomain s d p) := by
  unfold sleepDomain
  repeat' first
    | with_reducible assumption
    | (with_reducible refine fun _ (_ : Keeps s₀ _) => ?_)
    | with_reducible apply fset_keeps
    | with_reducible apply Keeps.ite
    | with_reducible apply Keeps.ite1
    | with_reducible apply Keeps.ite2
    | (with_reducible refine Keeps.snd (by with_reducible assumption) ?_)
    | (with_reducible refine Keeps.fst (by with_reducible assumption) ?_)
    | (fail_if_no_progress with_reducible apply Keeps.other)

theorem armWake_keeps {s₀ : State} {s : State} {d p : Nat} {need : Option Nat} (keep : Keeps s₀ s) :
    Keeps s₀ (armWake s d p need) := by
  unfold armWake
  repeat' first
    | with_reducible assumption
    | (with_reducible refine fun _ (_ : Keeps s₀ _) => ?_)
    | with_reducible apply disarm_keeps
    | with_reducible apply arm_keeps
    | with_reducible apply fset_keeps
    | split
    | (with_reducible refine Keeps.snd (by with_reducible assumption) ?_)
    | (with_reducible refine Keeps.fst (by with_reducible assumption) ?_)
    | (fail_if_no_progress with_reducible apply Keeps.other)

theorem pinPs_keeps {s₀ : State} {s : State} {c : Nat} {out : Bool} (keep : Keeps s₀ s) :
    Keeps s₀ (pinPs s c out) := by
  unfold pinPs
  repeat' first
    | with_reducible assumption
    | (with_reducible refine fun _ (_ : Keeps s₀ _) => ?_)
    | (extract_lets -underBinder +onlyGivenNames x; have hx : Keeps s₀ x := ?_; on_goal 2 => dsimp only [x]; on_goal 1 => clear_value x)
    | (extract_lets -underBinder +onlyGivenNames x; have hx : Keeps s₀ x.2 := ?_; on_goal 2 => dsimp only [x]; on_goal 1 => clear_value x)
    | (extract_lets -underBinder +onlyGivenNames x; have hx : Keeps s₀ x.1 := ?_; on_goal 2 => dsimp only [x]; on_goal 1 => clear_value x)
    | (extract_lets -underBinder +onlyGivenNames x)
    | with_reducible apply fset_keeps
    | with_reducible apply ev_keeps
    | with_reducible apply logModule_keeps
    | with_reducible apply Keeps.ite
    | with_reducible apply Keeps.ite1
    | with_reducible apply Keeps.ite2
    | (with_reducible refine Keeps.snd (by with_reducible assumption) ?_)
    | (with_reducible refine Keeps.fst (by with_reducible assumption) ?_)

theorem pstateDomain_keeps {s₀ : State} {s : State} {c : Nat} {need : Option Nat} {late : Bool} {d : Nat} (keep : Keeps s₀ s) :
    Keeps s₀ (pstateDomain s c need late d) := by
  unfold pstateDomain
  repeat' first
    | with_reducible assumption
    | (with_reducible refine fun _ (_ : Keeps s₀ _) => ?_)
    | (extract_lets -underBinder +onlyGivenNames x; have hx : Keeps s₀ x := ?_; on_goal 2 => dsimp only [x]; on_goal 1 => clear_value x)
    | (extract_lets -underBinder +onlyGivenNames x; have hx : Keeps s₀ x.2 := ?_; on_goal 2 => dsimp only [x]; on_goal 1 => clear_value x)
    | (extract_lets -underBinder +onlyGivenNames x; have hx : Keeps s₀ x.1 := ?_; on_goal 2 => dsimp only [x]; on_goal 1 => clear_value x)
    | (extract_lets -underBinder +onlyGivenNames x)
    | with_reducible apply ev_keeps
    | with_reducible apply wakeDomain_keeps
    | with_reducible apply armWake_keeps
    | with_reducible apply sleepDomain_keeps
    | with_reducible apply Keeps.ite
    | with_reducible apply Keeps.ite1
    | with_reducible apply Keeps.ite2
    | (with_reducible refine Keeps.snd (by with_reducible assumption) ?_)
    | (with_reducible refine Keeps.fst (by with_reducible assumption) ?_)

theorem pstateCluster_keeps {s₀ : State} {s : State} {c : Nat} (keep : Keeps s₀ s) :
    Keeps s₀ (pstateCluster s c) := by
  unfold pstateCluster
  repeat' first
    | with_reducible assumption
    | (with_reducible refine fun _ (_ : Keeps s₀ _) => ?_)
    | (extract_lets -underBinder +onlyGivenNames x; have hx : Keeps s₀ x := ?_; on_goal 2 => dsimp only [x]; on_goal 1 => clear_value x)
    | (extract_lets -underBinder +onlyGivenNames x; have hx : Keeps s₀ x.2 := ?_; on_goal 2 => dsimp only [x]; on_goal 1 => clear_value x)
    | (extract_lets -underBinder +onlyGivenNames x; have hx : Keeps s₀ x.1 := ?_; on_goal 2 => dsimp only [x]; on_goal 1 => clear_value x)
    | (extract_lets -underBinder +onlyGivenNames x)
    | with_reducible apply pstateDomain_keeps
    | with_reducible apply pinPs_keeps
    | with_reducible apply fset_keeps
    | (with_reducible refine Keeps.foldl (fun t a ht => ?_) ?_)
    | (with_reducible refine Keeps.foldl1 (fun p a hp => ?_) ?_)
    | (with_reducible refine Keeps.foldl2 (fun p a hp => ?_) ?_)
    | (with_reducible refine Keeps.snd (by with_reducible assumption) ?_)
    | (with_reducible refine Keeps.fst (by with_reducible assumption) ?_)

theorem choosePower_keeps {s₀ : State} {s : State} (keep : Keeps s₀ s) :
    Keeps s₀ (choosePower s) := by
  unfold choosePower
  repeat' first
    | with_reducible assumption
    | (with_reducible refine fun _ (_ : Keeps s₀ _) => ?_)
    | with_reducible apply pstateCluster_keeps
    | with_reducible apply placementLoop_keeps
    | (with_reducible refine Keeps.foldl (fun t a ht => ?_) ?_)
    | (with_reducible refine Keeps.foldl1 (fun p a hp => ?_) ?_)
    | (with_reducible refine Keeps.foldl2 (fun p a hp => ?_) ?_)
    | (with_reducible refine Keeps.snd (by with_reducible assumption) ?_)
    | (with_reducible refine Keeps.fst (by with_reducible assumption) ?_)

theorem lightPort_keeps {s₀ : State} {s : State} {p : Port} (keep : Keeps s₀ s) :
    Keeps s₀ (lightPort s p) := by
  unfold lightPort
  repeat' first
    | with_reducible assumption
    | (with_reducible refine fun _ (_ : Keeps s₀ _) => ?_)
    | with_reducible apply emit_keeps
    | with_reducible apply Keeps.ite
    | with_reducible apply Keeps.ite1
    | with_reducible apply Keeps.ite2
    | (with_reducible refine Keeps.snd (by with_reducible assumption) ?_)
    | (with_reducible refine Keeps.fst (by with_reducible assumption) ?_)

theorem portAwake_keeps {s₀ : State} {s : State} {p : Port} (keep : Keeps s₀ s) :
    Keeps s₀ (portAwake s p) := by
  unfold portAwake
  repeat' first
    | with_reducible assumption
    | (with_reducible refine fun _ (_ : Keeps s₀ _) => ?_)
    | with_reducible apply lightPort_keeps
    | with_reducible apply sleepDomain_keeps
    | with_reducible apply Keeps.ite
    | with_reducible apply Keeps.ite1
    | with_reducible apply Keeps.ite2
    | (with_reducible refine Keeps.snd (by with_reducible assumption) ?_)
    | (with_reducible refine Keeps.fst (by with_reducible assumption) ?_)

theorem execDomainStateDone_keeps {s₀ : State} {d : Fin 96} {s : State} (keep : Keeps s₀ s) :
    Answers s₀ (execDomainStateDone d s) := by
  unfold execDomainStateDone
  repeat' first
    | with_reducible assumption
    | (with_reducible refine fun _ (_ : Keeps s₀ _) => ?_)
    | (extract_lets -underBinder +onlyGivenNames x; have hx : Keeps s₀ x := ?_; on_goal 2 => dsimp only [x]; on_goal 1 => clear_value x)
    | (extract_lets -underBinder +onlyGivenNames x; have hx : Keeps s₀ x.2 := ?_; on_goal 2 => dsimp only [x]; on_goal 1 => clear_value x)
    | (extract_lets -underBinder +onlyGivenNames x; have hx : Keeps s₀ x.1 := ?_; on_goal 2 => dsimp only [x]; on_goal 1 => clear_value x)
    | (extract_lets -underBinder +onlyGivenNames x)
    | with_reducible apply Answers.next
    | with_reducible apply fset_keeps
    | with_reducible apply countSat_keeps
    | with_reducible apply wakeDomain_keeps
    | with_reducible apply portAwake_keeps
    | with_reducible apply Keeps.ite
    | with_reducible apply Keeps.ite1
    | with_reducible apply Keeps.ite2
    | with_reducible apply Answers.ite
    | split
    | (with_reducible refine Keeps.snd (by with_reducible assumption) ?_)
    | (with_reducible refine Keeps.fst (by with_reducible assumption) ?_)
    | (fail_if_no_progress with_reducible apply Keeps.other)
    | (clear_value *; split)

end Sys2Proof.Machine
end

