-- ==== Sys2Proof/Laws/KeepsVat.lean ====
section
/-! SUPPORT. What the operations of Machine/Vat.lean leave alone (Safety). -/

set_option linter.unusedTactic false
set_option linter.unreachableTactic false
set_option linter.tactic.unusedName false

namespace Sys2Proof.Machine

theorem isolate_keeps {s₀ : State} {s : State} {i : Issuer} {named : Nat} (keep : Keeps s₀ s) :
    Keeps s₀ (isolate s i named) := by
  unfold isolate
  repeat' first
    | with_reducible assumption
    | (with_reducible refine fun _ (_ : Keeps s₀ _) => ?_)
    | (extract_lets -underBinder +onlyGivenNames x; have hx : Keeps s₀ x := ?_; on_goal 2 => dsimp only [x]; on_goal 1 => clear_value x)
    | (extract_lets -underBinder +onlyGivenNames x; have hx : Keeps s₀ x.2 := ?_; on_goal 2 => dsimp only [x]; on_goal 1 => clear_value x)
    | (extract_lets -underBinder +onlyGivenNames x; have hx : Keeps s₀ x.1 := ?_; on_goal 2 => dsimp only [x]; on_goal 1 => clear_value x)
    | (extract_lets -underBinder +onlyGivenNames x)
    | with_reducible apply freeValue_keeps
    | with_reducible apply warmRestart_keeps
    | with_reducible apply abortJob_keeps
    | with_reducible apply faultFence_keeps
    | with_reducible apply suspect_keeps
    | with_reducible apply errLast_keeps
    | with_reducible apply ev_keeps
    | with_reducible apply logModule_keeps
    | with_reducible apply Keeps.ite
    | with_reducible apply Keeps.ite1
    | with_reducible apply Keeps.ite2
    | split
    | (with_reducible refine Keeps.snd (by with_reducible assumption) ?_)
    | (with_reducible refine Keeps.fst (by with_reducible assumption) ?_)
    | (fail_if_no_progress with_reducible apply Keeps.other)
    | (clear_value *; split)

theorem bankAccess_keeps {s₀ : State} {s : State} {i : Issuer} {a n : Nat} {act : State → State} (keep : Keeps s₀ s) (hact : ∀ t, Keeps s₀ t → Keeps s₀ (act t)) :
    Keeps s₀ (bankAccess s i a n act) := by
  unfold bankAccess
  repeat' first
    | with_reducible assumption
    | with_reducible apply hact
    | (with_reducible refine fun _ (_ : Keeps s₀ _) => ?_)
    | with_reducible apply isolate_keeps
    | with_reducible apply pmu_keeps
    | with_reducible apply Keeps.ite
    | with_reducible apply Keeps.ite1
    | with_reducible apply Keeps.ite2
    | (with_reducible refine Keeps.snd (by with_reducible assumption) ?_)
    | (with_reducible refine Keeps.fst (by with_reducible assumption) ?_)

theorem firmwarePoison_keeps {s₀ : State} {s : State} {line : Nat} (keep : Keeps s₀ s) :
    Keeps s₀ (firmwarePoison s line) := by
  unfold firmwarePoison
  repeat' first
    | with_reducible assumption
    | (with_reducible refine fun _ (_ : Keeps s₀ _) => ?_)
    | with_reducible apply warmRestart_keeps
    | with_reducible apply errLast_keeps
    | (with_reducible refine Keeps.snd (by with_reducible assumption) ?_)
    | (with_reducible refine Keeps.fst (by with_reducible assumption) ?_)

theorem uncorrectable_keeps {s₀ : State} {s : State} {line : Nat} (keep : Keeps s₀ s) :
    Keeps s₀ (uncorrectable s line) := by
  unfold uncorrectable
  repeat' first
    | with_reducible assumption
    | (with_reducible refine fun _ (_ : Keeps s₀ _) => ?_)
    | (extract_lets -underBinder +onlyGivenNames x; have hx : Keeps s₀ x := ?_; on_goal 2 => dsimp only [x]; on_goal 1 => clear_value x)
    | (extract_lets -underBinder +onlyGivenNames x; have hx : Keeps s₀ x.2 := ?_; on_goal 2 => dsimp only [x]; on_goal 1 => clear_value x)
    | (extract_lets -underBinder +onlyGivenNames x; have hx : Keeps s₀ x.1 := ?_; on_goal 2 => dsimp only [x]; on_goal 1 => clear_value x)
    | (extract_lets -underBinder +onlyGivenNames x)
    | with_reducible apply ev_keeps
    | with_reducible apply count_keeps
    | with_reducible apply setPoison_keeps
    | with_reducible apply set1_keeps
    | with_reducible apply freeValue_keeps
    | with_reducible apply faultFence_keeps
    | with_reducible apply firmwarePoison_keeps
    | with_reducible apply Keeps.ite
    | with_reducible apply Keeps.ite1
    | with_reducible apply Keeps.ite2
    | (with_reducible refine Keeps.snd (by with_reducible assumption) ?_)
    | (with_reducible refine Keeps.fst (by with_reducible assumption) ?_)

theorem eccRead_keeps {s₀ : State} {s : State} {line : Nat} {e : EccRead} (keep : Keeps s₀ s) :
    Keeps s₀ (eccRead s line e) := by
  unfold eccRead
  repeat' first
    | with_reducible assumption
    | (with_reducible refine fun _ (_ : Keeps s₀ _) => ?_)
    | (extract_lets -underBinder +onlyGivenNames x; have hx : Keeps s₀ x := ?_; on_goal 2 => dsimp only [x]; on_goal 1 => clear_value x)
    | (extract_lets -underBinder +onlyGivenNames x; have hx : Keeps s₀ x.2 := ?_; on_goal 2 => dsimp only [x]; on_goal 1 => clear_value x)
    | (extract_lets -underBinder +onlyGivenNames x; have hx : Keeps s₀ x.1 := ?_; on_goal 2 => dsimp only [x]; on_goal 1 => clear_value x)
    | (extract_lets -underBinder +onlyGivenNames x)
    | with_reducible apply count_keeps
    | with_reducible apply faultFence_keeps
    | with_reducible apply uncorrectable_keeps
    | (with_reducible refine Keeps.foldl (fun t a ht => ?_) ?_)
    | (with_reducible refine Keeps.foldl1 (fun p a hp => ?_) ?_)
    | (with_reducible refine Keeps.foldl2 (fun p a hp => ?_) ?_)
    | with_reducible apply Keeps.ite
    | with_reducible apply Keeps.ite1
    | with_reducible apply Keeps.ite2
    | (with_reducible refine Keeps.snd (by with_reducible assumption) ?_)
    | (with_reducible refine Keeps.fst (by with_reducible assumption) ?_)

theorem answerLine_keeps {s₀ : State} {s : State} {line : Nat} (keep : Keeps s₀ s) :
    Keeps s₀ (answerLine s line) := by
  unfold answerLine
  repeat' first
    | with_reducible assumption
    | (with_reducible refine fun _ (_ : Keeps s₀ _) => ?_)
    | with_reducible apply emit_keeps
    | with_reducible apply Keeps.ite
    | with_reducible apply Keeps.ite1
    | with_reducible apply Keeps.ite2
    | (with_reducible refine Keeps.snd (by with_reducible assumption) ?_)
    | (with_reducible refine Keeps.fst (by with_reducible assumption) ?_)

theorem execBankRead_keeps {s₀ : State} {i : Issuer} {line : VatLine} {e : EccRead} {s : State} (keep : Keeps s₀ s) :
    Answers s₀ (execBankRead i line e s) := by
  unfold execBankRead
  repeat' first
    | with_reducible assumption
    | (with_reducible refine fun _ (_ : Keeps s₀ _) => ?_)
    | (with_reducible refine fun _ _ (_ : Keeps s₀ _) => ?_)
    | (with_reducible refine fun _ _ _ (_ : Keeps s₀ _) => ?_)
    | (with_reducible refine fun _ _ _ _ (_ : Keeps s₀ _) => ?_)
    | (with_reducible refine fun _ _ _ _ _ (_ : Keeps s₀ _) => ?_)
    | (with_reducible refine fun (_ : Ctx) => ?_)
    | with_reducible apply Answers.next
    | with_reducible apply bankAccess_keeps
    | with_reducible apply answerLine_keeps
    | with_reducible apply eccRead_keeps
    | (with_reducible refine Keeps.snd (by with_reducible assumption) ?_)
    | (with_reducible refine Keeps.fst (by with_reducible assumption) ?_)

theorem scrubbed_keeps {s₀ : State} {s : State} {line : Nat} (keep : Keeps s₀ s) :
    Keeps s₀ (scrubbed s line) := by
  unfold scrubbed
  repeat' first
    | with_reducible assumption
    | (with_reducible refine fun _ (_ : Keeps s₀ _) => ?_)
    | (extract_lets -underBinder +onlyGivenNames x; have hx : Keeps s₀ x := ?_; on_goal 2 => dsimp only [x]; on_goal 1 => clear_value x)
    | (extract_lets -underBinder +onlyGivenNames x; have hx : Keeps s₀ x.2 := ?_; on_goal 2 => dsimp only [x]; on_goal 1 => clear_value x)
    | (extract_lets -underBinder +onlyGivenNames x; have hx : Keeps s₀ x.1 := ?_; on_goal 2 => dsimp only [x]; on_goal 1 => clear_value x)
    | (extract_lets -underBinder +onlyGivenNames x)
    | with_reducible apply count_keeps
    | with_reducible apply Keeps.ite
    | with_reducible apply Keeps.ite1
    | with_reducible apply Keeps.ite2
    | (with_reducible refine Keeps.snd (by with_reducible assumption) ?_)
    | (with_reducible refine Keeps.fst (by with_reducible assumption) ?_)
    | (fail_if_no_progress with_reducible apply Keeps.other)

theorem execPatrolScrub_keeps {s₀ : State} {line : VatLine} {e : EccRead} {s : State} (keep : Keeps s₀ s) :
    Answers s₀ (execPatrolScrub line e s) := by
  unfold execPatrolScrub
  repeat' first
    | with_reducible assumption
    | (with_reducible refine fun _ (_ : Keeps s₀ _) => ?_)
    | with_reducible apply Answers.next
    | with_reducible apply scrubbed_keeps
    | with_reducible apply eccRead_keeps
    | with_reducible apply Keeps.ite
    | with_reducible apply Keeps.ite1
    | with_reducible apply Keeps.ite2
    | with_reducible apply Answers.ite
    | (with_reducible refine Keeps.snd (by with_reducible assumption) ?_)
    | (with_reducible refine Keeps.fst (by with_reducible assumption) ?_)

theorem onLine_keeps {s₀ : State} {a : Nat} {e : EccRead} {act : State → State} {s : State} (keep : Keeps s₀ s) (hact : ∀ t, Keeps s₀ t → Keeps s₀ (act t)) :
    Keeps s₀ (onLine a e act s) := by
  unfold onLine
  repeat' first
    | with_reducible assumption
    | with_reducible apply hact
    | (with_reducible refine fun _ (_ : Keeps s₀ _) => ?_)
    | (extract_lets -underBinder +onlyGivenNames x; have hx : Keeps s₀ x := ?_; on_goal 2 => dsimp only [x]; on_goal 1 => clear_value x)
    | (extract_lets -underBinder +onlyGivenNames x; have hx : Keeps s₀ x.2 := ?_; on_goal 2 => dsimp only [x]; on_goal 1 => clear_value x)
    | (extract_lets -underBinder +onlyGivenNames x; have hx : Keeps s₀ x.1 := ?_; on_goal 2 => dsimp only [x]; on_goal 1 => clear_value x)
    | (extract_lets -underBinder +onlyGivenNames x)
    | with_reducible apply eccRead_keeps
    | with_reducible apply emit_keeps
    | with_reducible apply Keeps.ite
    | with_reducible apply Keeps.ite1
    | with_reducible apply Keeps.ite2
    | (with_reducible refine Keeps.snd (by with_reducible assumption) ?_)
    | (with_reducible refine Keeps.fst (by with_reducible assumption) ?_)

theorem lineStore_keeps {s₀ : State} {s : State} {a : Nat} {d ret : Bytes} (keep : Keeps s₀ s) :
    Keeps s₀ (lineStore s a d ret) := by
  unfold lineStore
  repeat' first
    | with_reducible assumption
    | (with_reducible refine fun _ (_ : Keeps s₀ _) => ?_)
    | with_reducible apply emit_keeps
    | with_reducible apply vatWrite_keeps
    | (with_reducible refine Keeps.snd (by with_reducible assumption) ?_)
    | (with_reducible refine Keeps.fst (by with_reducible assumption) ?_)

theorem byLine_keeps {s₀ : State} {a : Nat} {d : Bytes} {act : Nat → Bytes → State → State} {s : State} (keep : Keeps s₀ s) (hact : ∀ n b t, Keeps s₀ t → Keeps s₀ (act n b t)) :
    Keeps s₀ (byLine a d act s) := by
  unfold byLine
  repeat' first
    | with_reducible assumption
    | with_reducible apply hact
    | (with_reducible refine fun _ (_ : Keeps s₀ _) => ?_)
    | (extract_lets -underBinder +onlyGivenNames x; have hx : Keeps s₀ x := ?_; on_goal 2 => dsimp only [x]; on_goal 1 => clear_value x)
    | (extract_lets -underBinder +onlyGivenNames x; have hx : Keeps s₀ x.2 := ?_; on_goal 2 => dsimp only [x]; on_goal 1 => clear_value x)
    | (extract_lets -underBinder +onlyGivenNames x; have hx : Keeps s₀ x.1 := ?_; on_goal 2 => dsimp only [x]; on_goal 1 => clear_value x)
    | (extract_lets -underBinder +onlyGivenNames x)
    | (with_reducible refine Keeps.foldl (fun t a ht => ?_) ?_)
    | (with_reducible refine Keeps.foldl1 (fun p a hp => ?_) ?_)
    | (with_reducible refine Keeps.foldl2 (fun p a hp => ?_) ?_)
    | (with_reducible refine Keeps.snd (by with_reducible assumption) ?_)
    | (with_reducible refine Keeps.fst (by with_reducible assumption) ?_)

theorem writePart_keeps {s₀ : State} {e : EccRead} {a : Nat} {d : Bytes} {s : State} (keep : Keeps s₀ s) :
    Keeps s₀ (writePart e a d s) := by
  unfold writePart
  repeat' first
    | with_reducible assumption
    | (with_reducible refine fun _ (_ : Keeps s₀ _) => ?_)
    | (with_reducible refine fun _ _ (_ : Keeps s₀ _) => ?_)
    | (with_reducible refine fun _ _ _ (_ : Keeps s₀ _) => ?_)
    | (with_reducible refine fun _ _ _ _ (_ : Keeps s₀ _) => ?_)
    | (with_reducible refine fun _ _ _ _ _ (_ : Keeps s₀ _) => ?_)
    | (with_reducible refine fun (_ : Ctx) => ?_)
    | with_reducible apply lineStore_keeps
    | with_reducible apply clearPoison_keeps
    | with_reducible apply onLine_keeps
    | with_reducible apply Keeps.ite
    | with_reducible apply Keeps.ite1
    | with_reducible apply Keeps.ite2
    | (with_reducible refine Keeps.snd (by with_reducible assumption) ?_)
    | (with_reducible refine Keeps.fst (by with_reducible assumption) ?_)

theorem execLineWrite_keeps {s₀ : State} {i : Issuer} {addr : VatAddr} {d : Bytes} {e : EccRead} {s : State} (keep : Keeps s₀ s) :
    Answers s₀ (execLineWrite i addr d e s) := by
  unfold execLineWrite
  repeat' first
    | with_reducible assumption
    | (with_reducible refine fun _ (_ : Keeps s₀ _) => ?_)
    | (with_reducible refine fun _ _ (_ : Keeps s₀ _) => ?_)
    | (with_reducible refine fun _ _ _ (_ : Keeps s₀ _) => ?_)
    | (with_reducible refine fun _ _ _ _ (_ : Keeps s₀ _) => ?_)
    | (with_reducible refine fun _ _ _ _ _ (_ : Keeps s₀ _) => ?_)
    | (with_reducible refine fun (_ : Ctx) => ?_)
    | with_reducible apply Answers.next
    | with_reducible apply byLine_keeps
    | with_reducible apply bankAccess_keeps
    | with_reducible apply writePart_keeps
    | (with_reducible refine Keeps.snd (by with_reducible assumption) ?_)
    | (with_reducible refine Keeps.fst (by with_reducible assumption) ?_)

theorem execRadd_keeps {s₀ : State} {i : Issuer} {addr : VatAddr} {ring : Ring} {d : Bytes} {e : EccRead} {s : State} (keep : Keeps s₀ s) :
    Answers s₀ (execRadd i addr ring d e s) := by
  unfold execRadd
  repeat' first
    | with_reducible assumption
    | (with_reducible refine fun _ (_ : Keeps s₀ _) => ?_)
    | (with_reducible refine fun _ _ (_ : Keeps s₀ _) => ?_)
    | (with_reducible refine fun _ _ _ (_ : Keeps s₀ _) => ?_)
    | (with_reducible refine fun _ _ _ _ (_ : Keeps s₀ _) => ?_)
    | (with_reducible refine fun _ _ _ _ _ (_ : Keeps s₀ _) => ?_)
    | (with_reducible refine fun (_ : Ctx) => ?_)
    | with_reducible apply Answers.next
    | with_reducible apply bankAccess_keeps
    | with_reducible apply onLine_keeps
    | with_reducible apply lineStore_keeps
    | (with_reducible refine Keeps.snd (by with_reducible assumption) ?_)
    | (with_reducible refine Keeps.fst (by with_reducible assumption) ?_)

theorem countMarker_keeps {s₀ : State} {s : State} {j : JobId} {r : Option Nat} (keep : Keeps s₀ s) :
    Keeps s₀ (countMarker s j r) := by
  unfold countMarker
  repeat' first
    | with_reducible assumption
    | (with_reducible refine fun _ (_ : Keeps s₀ _) => ?_)
    | (extract_lets -underBinder +onlyGivenNames x; have hx : Keeps s₀ x := ?_; on_goal 2 => dsimp only [x]; on_goal 1 => clear_value x)
    | (extract_lets -underBinder +onlyGivenNames x; have hx : Keeps s₀ x.2 := ?_; on_goal 2 => dsimp only [x]; on_goal 1 => clear_value x)
    | (extract_lets -underBinder +onlyGivenNames x; have hx : Keeps s₀ x.1 := ?_; on_goal 2 => dsimp only [x]; on_goal 1 => clear_value x)
    | (extract_lets -underBinder +onlyGivenNames x)
    | with_reducible apply count_keeps
    | with_reducible apply State.modRound_keeps
    | with_reducible apply ev_keeps
    | with_reducible exact id
    | exact fun _ => rfl
    | with_reducible apply Keeps.ite
    | with_reducible apply Keeps.ite1
    | with_reducible apply Keeps.ite2
    | split
    | (with_reducible refine Keeps.snd (by with_reducible assumption) ?_)
    | (with_reducible refine Keeps.fst (by with_reducible assumption) ?_)
    | (fail_if_no_progress with_reducible apply Keeps.other)
    | (clear_value *; split)

theorem gaddJob_keeps {s₀ : State} {s : State} {j : JobId} {a : Nat} {t : Word} (keep : Keeps s₀ s) :
    Keeps s₀ (gaddJob s j a t) := by
  unfold gaddJob
  repeat' first
    | with_reducible assumption
    | (with_reducible refine fun _ (_ : Keeps s₀ _) => ?_)
    | (extract_lets -underBinder +onlyGivenNames x; have hx : Keeps s₀ x := ?_; on_goal 2 => dsimp only [x]; on_goal 1 => clear_value x)
    | (extract_lets -underBinder +onlyGivenNames x; have hx : Keeps s₀ x.2 := ?_; on_goal 2 => dsimp only [x]; on_goal 1 => clear_value x)
    | (extract_lets -underBinder +onlyGivenNames x; have hx : Keeps s₀ x.1 := ?_; on_goal 2 => dsimp only [x]; on_goal 1 => clear_value x)
    | (extract_lets -underBinder +onlyGivenNames x)
    | with_reducible apply countMarker_keeps
    | with_reducible apply jobSetWord_keeps
    | with_reducible apply Keeps.ite
    | with_reducible apply Keeps.ite1
    | with_reducible apply Keeps.ite2
    | (with_reducible refine Keeps.snd (by with_reducible assumption) ?_)
    | (with_reducible refine Keeps.fst (by with_reducible assumption) ?_)

theorem wordOp_keeps {s₀ : State} {s : State} {a : Nat} {v : Word} {old : Word} {ask : Bool} (keep : Keeps s₀ s) :
    Keeps s₀ (wordOp s a v old ask) := by
  unfold wordOp
  repeat' first
    | with_reducible assumption
    | (with_reducible refine fun _ (_ : Keeps s₀ _) => ?_)
    | with_reducible apply lineStore_keeps
    | with_reducible apply Keeps.ite
    | with_reducible apply Keeps.ite1
    | with_reducible apply Keeps.ite2
    | (with_reducible refine Keeps.snd (by with_reducible assumption) ?_)
    | (with_reducible refine Keeps.fst (by with_reducible assumption) ?_)

theorem execGadd_keeps {s₀ : State} {i : Issuer} {addr : VatAddr} {x : Word} {ask : Bool} {e : EccRead} {s : State} (keep : Keeps s₀ s) :
    Answers s₀ (execGadd i addr x ask e s) := by
  unfold execGadd
  repeat' first
    | with_reducible assumption
    | (with_reducible refine fun _ (_ : Keeps s₀ _) => ?_)
    | (with_reducible refine fun _ _ (_ : Keeps s₀ _) => ?_)
    | (with_reducible refine fun _ _ _ (_ : Keeps s₀ _) => ?_)
    | (with_reducible refine fun _ _ _ _ (_ : Keeps s₀ _) => ?_)
    | (with_reducible refine fun _ _ _ _ _ (_ : Keeps s₀ _) => ?_)
    | (with_reducible refine fun (_ : Ctx) => ?_)
    | (extract_lets -underBinder +onlyGivenNames x; have hx : Keeps s₀ x := ?_; on_goal 2 => dsimp only [x]; on_goal 1 => clear_value x)
    | (extract_lets -underBinder +onlyGivenNames x; have hx : Keeps s₀ x.2 := ?_; on_goal 2 => dsimp only [x]; on_goal 1 => clear_value x)
    | (extract_lets -underBinder +onlyGivenNames x; have hx : Keeps s₀ x.1 := ?_; on_goal 2 => dsimp only [x]; on_goal 1 => clear_value x)
    | (extract_lets -underBinder +onlyGivenNames x)
    | with_reducible apply Answers.next
    | with_reducible apply bankAccess_keeps
    | with_reducible apply onLine_keeps
    | with_reducible apply countMarker_keeps
    | with_reducible apply wordOp_keeps
    | with_reducible apply Keeps.ite
    | with_reducible apply Keeps.ite1
    | with_reducible apply Keeps.ite2
    | with_reducible apply Answers.ite
    | split
    | (with_reducible refine Keeps.snd (by with_reducible assumption) ?_)
    | (with_reducible refine Keeps.fst (by with_reducible assumption) ?_)
    | (fail_if_no_progress with_reducible apply Keeps.other)
    | (clear_value *; split)

theorem execAdd64_keeps {s₀ : State} {i : Issuer} {addr : VatAddr} {x : Word} {ask : Bool} {e : EccRead} {s : State} (keep : Keeps s₀ s) :
    Answers s₀ (execAdd64 i addr x ask e s) := by
  unfold execAdd64
  repeat' first
    | with_reducible assumption
    | (with_reducible refine fun _ (_ : Keeps s₀ _) => ?_)
    | (with_reducible refine fun _ _ (_ : Keeps s₀ _) => ?_)
    | (with_reducible refine fun _ _ _ (_ : Keeps s₀ _) => ?_)
    | (with_reducible refine fun _ _ _ _ (_ : Keeps s₀ _) => ?_)
    | (with_reducible refine fun _ _ _ _ _ (_ : Keeps s₀ _) => ?_)
    | (with_reducible refine fun (_ : Ctx) => ?_)
    | with_reducible apply Answers.next
    | with_reducible apply bankAccess_keeps
    | with_reducible apply onLine_keeps
    | with_reducible apply wordOp_keeps
    | (with_reducible refine Keeps.snd (by with_reducible assumption) ?_)
    | (with_reducible refine Keeps.fst (by with_reducible assumption) ?_)

theorem execFadd_keeps {s₀ : State} {i : Issuer} {addr : VatAddr} {d : Bytes} {e : EccRead} {s : State} (keep : Keeps s₀ s) :
    Answers s₀ (execFadd i addr d e s) := by
  unfold execFadd
  repeat' first
    | with_reducible assumption
    | (with_reducible refine fun _ (_ : Keeps s₀ _) => ?_)
    | (with_reducible refine fun _ _ (_ : Keeps s₀ _) => ?_)
    | (with_reducible refine fun _ _ _ (_ : Keeps s₀ _) => ?_)
    | (with_reducible refine fun _ _ _ _ (_ : Keeps s₀ _) => ?_)
    | (with_reducible refine fun _ _ _ _ _ (_ : Keeps s₀ _) => ?_)
    | (with_reducible refine fun (_ : Ctx) => ?_)
    | with_reducible apply Answers.next
    | with_reducible apply byLine_keeps
    | with_reducible apply bankAccess_keeps
    | with_reducible apply onLine_keeps
    | with_reducible apply lineStore_keeps
    | (with_reducible refine Keeps.snd (by with_reducible assumption) ?_)
    | (with_reducible refine Keeps.fst (by with_reducible assumption) ?_)

theorem execMaxMin_keeps {s₀ : State} {i : Issuer} {addr : VatAddr} {op : MaxMinOp} {x : Word} {ask : Bool} {e : EccRead} {s : State} (keep : Keeps s₀ s) :
    Answers s₀ (execMaxMin i addr op x ask e s) := by
  unfold execMaxMin
  repeat' first
    | with_reducible assumption
    | (with_reducible refine fun _ (_ : Keeps s₀ _) => ?_)
    | (with_reducible refine fun _ _ (_ : Keeps s₀ _) => ?_)
    | (with_reducible refine fun _ _ _ (_ : Keeps s₀ _) => ?_)
    | (with_reducible refine fun _ _ _ _ (_ : Keeps s₀ _) => ?_)
    | (with_reducible refine fun _ _ _ _ _ (_ : Keeps s₀ _) => ?_)
    | (with_reducible refine fun (_ : Ctx) => ?_)
    | (extract_lets -underBinder +onlyGivenNames x; have hx : Keeps s₀ x := ?_; on_goal 2 => dsimp only [x]; on_goal 1 => clear_value x)
    | (extract_lets -underBinder +onlyGivenNames x; have hx : Keeps s₀ x.2 := ?_; on_goal 2 => dsimp only [x]; on_goal 1 => clear_value x)
    | (extract_lets -underBinder +onlyGivenNames x; have hx : Keeps s₀ x.1 := ?_; on_goal 2 => dsimp only [x]; on_goal 1 => clear_value x)
    | (extract_lets -underBinder +onlyGivenNames x)
    | with_reducible apply Answers.next
    | with_reducible apply bankAccess_keeps
    | with_reducible apply onLine_keeps
    | with_reducible apply lineStore_keeps
    | with_reducible apply Keeps.ite
    | with_reducible apply Keeps.ite1
    | with_reducible apply Keeps.ite2
    | with_reducible apply Answers.ite
    | (with_reducible refine Keeps.snd (by with_reducible assumption) ?_)
    | (with_reducible refine Keeps.fst (by with_reducible assumption) ?_)

theorem execCas64_keeps {s₀ : State} {i : Issuer} {addr : VatAddr} {cmp swap : Word} {e : EccRead} {s : State} (keep : Keeps s₀ s) :
    Answers s₀ (execCas64 i addr cmp swap e s) := by
  unfold execCas64
  repeat' first
    | with_reducible assumption
    | (with_reducible refine fun _ (_ : Keeps s₀ _) => ?_)
    | (with_reducible refine fun _ _ (_ : Keeps s₀ _) => ?_)
    | (with_reducible refine fun _ _ _ (_ : Keeps s₀ _) => ?_)
    | (with_reducible refine fun _ _ _ _ (_ : Keeps s₀ _) => ?_)
    | (with_reducible refine fun _ _ _ _ _ (_ : Keeps s₀ _) => ?_)
    | (with_reducible refine fun (_ : Ctx) => ?_)
    | (extract_lets -underBinder +onlyGivenNames x; have hx : Keeps s₀ x := ?_; on_goal 2 => dsimp only [x]; on_goal 1 => clear_value x)
    | (extract_lets -underBinder +onlyGivenNames x; have hx : Keeps s₀ x.2 := ?_; on_goal 2 => dsimp only [x]; on_goal 1 => clear_value x)
    | (extract_lets -underBinder +onlyGivenNames x; have hx : Keeps s₀ x.1 := ?_; on_goal 2 => dsimp only [x]; on_goal 1 => clear_value x)
    | (extract_lets -underBinder +onlyGivenNames x)
    | with_reducible apply Answers.next
    | with_reducible apply bankAccess_keeps
    | with_reducible apply onLine_keeps
    | with_reducible apply wordOp_keeps
    | with_reducible apply Keeps.ite
    | with_reducible apply Keeps.ite1
    | with_reducible apply Keeps.ite2
    | with_reducible apply Answers.ite
    | (with_reducible refine Keeps.snd (by with_reducible assumption) ?_)
    | (with_reducible refine Keeps.fst (by with_reducible assumption) ?_)

theorem writeBerths_keeps {s₀ : State} {s : State} {n : Nat} {v : Nat} (keep : Keeps s₀ s) :
    Keeps s₀ (writeBerths s n v) := by
  unfold writeBerths
  repeat' first
    | with_reducible assumption
    | (with_reducible refine fun _ (_ : Keeps s₀ _) => ?_)
    | (extract_lets -underBinder +onlyGivenNames x; have hx : Keeps s₀ x := ?_; on_goal 2 => dsimp only [x]; on_goal 1 => clear_value x)
    | (extract_lets -underBinder +onlyGivenNames x; have hx : Keeps s₀ x.2 := ?_; on_goal 2 => dsimp only [x]; on_goal 1 => clear_value x)
    | (extract_lets -underBinder +onlyGivenNames x; have hx : Keeps s₀ x.1 := ?_; on_goal 2 => dsimp only [x]; on_goal 1 => clear_value x)
    | (extract_lets -underBinder +onlyGivenNames x)
    | with_reducible apply ev_keeps
    | with_reducible apply fset_keeps
    | with_reducible apply Keeps.ite
    | with_reducible apply Keeps.ite1
    | with_reducible apply Keeps.ite2
    | (with_reducible refine Keeps.snd (by with_reducible assumption) ?_)
    | (with_reducible refine Keeps.fst (by with_reducible assumption) ?_)

theorem execBerthWrite_keeps {s₀ : State} {n : Fin 6} {v : Word} {s : State} (keep : Keeps s₀ s) :
    Answers s₀ (execBerthWrite n v s) := by
  unfold execBerthWrite
  repeat' first
    | with_reducible assumption
    | (with_reducible refine fun _ (_ : Keeps s₀ _) => ?_)
    | with_reducible apply Answers.next
    | with_reducible apply writeBerths_keeps
    | (with_reducible refine Keeps.snd (by with_reducible assumption) ?_)
    | (with_reducible refine Keeps.fst (by with_reducible assumption) ?_)

end Sys2Proof.Machine
end

