-- ==== Sys2Proof/Laws/KeepsCiphers.lean ====
section
/-! SUPPORT. What the operations of Machine/Ciphers.lean leave alone (Safety). -/

set_option linter.unusedTactic false
set_option linter.unreachableTactic false
set_option linter.tactic.unusedName false

namespace Sys2Proof.Machine

theorem laneOps_keeps {s₀ : State} {s : State} {j : JobId} {n : Nat} (keep : Keeps s₀ s) :
    Keeps s₀ (laneOps s j n) := by
  unfold laneOps
  repeat' first
    | with_reducible assumption
    | (with_reducible refine fun _ (_ : Keeps s₀ _) => ?_)
    | with_reducible apply pmu_keeps
    | with_reducible apply count_keeps
    | (with_reducible refine Keeps.snd (by with_reducible assumption) ?_)
    | (with_reducible refine Keeps.fst (by with_reducible assumption) ?_)

theorem nttOps_keeps {s₀ : State} {s : State} {j : JobId} {n : Nat} (keep : Keeps s₀ s) :
    Keeps s₀ (nttOps s j n) := by
  unfold nttOps
  repeat' first
    | with_reducible assumption
    | (with_reducible refine fun _ (_ : Keeps s₀ _) => ?_)
    | with_reducible apply pmu_keeps
    | with_reducible apply count_keeps
    | (with_reducible refine Keeps.snd (by with_reducible assumption) ?_)
    | (with_reducible refine Keeps.fst (by with_reducible assumption) ?_)

theorem laneOpsFree_keeps {s₀ : State} {s : State} {j : JobId} (keep : Keeps s₀ s) :
    Keeps s₀ (laneOpsFree s j) := by
  unfold laneOpsFree
  repeat' first
    | with_reducible assumption
    | (with_reducible refine fun _ (_ : Keeps s₀ _) => ?_)
    | (extract_lets -underBinder +onlyGivenNames x; have hx : Keeps s₀ x := ?_; on_goal 2 => dsimp only [x]; on_goal 1 => clear_value x)
    | (extract_lets -underBinder +onlyGivenNames x; have hx : Keeps s₀ x.2 := ?_; on_goal 2 => dsimp only [x]; on_goal 1 => clear_value x)
    | (extract_lets -underBinder +onlyGivenNames x; have hx : Keeps s₀ x.1 := ?_; on_goal 2 => dsimp only [x]; on_goal 1 => clear_value x)
    | (extract_lets -underBinder +onlyGivenNames x)
    | with_reducible apply freeValue_keeps
    | with_reducible apply laneOps_keeps
    | split
    | (with_reducible refine Keeps.snd (by with_reducible assumption) ?_)
    | (with_reducible refine Keeps.fst (by with_reducible assumption) ?_)

theorem expandOps_keeps {s₀ : State} {s : State} {j : JobId} {blocks : Nat} (keep : Keeps s₀ s) :
    Keeps s₀ (expandOps s j blocks) := by
  unfold expandOps
  repeat' first
    | with_reducible assumption
    | (with_reducible refine fun _ (_ : Keeps s₀ _) => ?_)
    | with_reducible apply pmu_keeps
    | with_reducible apply count_keeps
    | (with_reducible refine Keeps.snd (by with_reducible assumption) ?_)
    | (with_reducible refine Keeps.fst (by with_reducible assumption) ?_)

theorem kswCounts_keeps {s₀ : State} {s : State} {j : JobId} {x : PSet} {e : Bytes} {l n : Nat} (keep : Keeps s₀ s) :
    Keeps s₀ (kswCounts s j x e l n) := by
  unfold kswCounts
  repeat' first
    | with_reducible assumption
    | (with_reducible refine fun _ (_ : Keeps s₀ _) => ?_)
    | with_reducible apply laneOpsFree_keeps
    | with_reducible apply expandOps_keeps
    | with_reducible apply nttOps_keeps
    | (with_reducible refine Keeps.snd (by with_reducible assumption) ?_)
    | (with_reducible refine Keeps.fst (by with_reducible assumption) ?_)

end Sys2Proof.Machine
end

