-- ==== Sys2Proof/Laws/KeepsPhases.lean ====
section
/-! SUPPORT. What the operations of Machine/Phases.lean leave alone (Safety). -/

set_option linter.unusedTactic false
set_option linter.unreachableTactic false
set_option linter.tactic.unusedName false

namespace Sys2Proof.Machine

theorem doubtfulCloses_keeps {s₀ : State} {s : State} {j : JobId} {x : Round} {ph : Nat} (keep : Keeps s₀ s) :
    Keeps s₀ (doubtfulCloses s j x ph) := by
  unfold doubtfulCloses
  repeat' first
    | with_reducible assumption
    | (with_reducible refine fun _ (_ : Keeps s₀ _) => ?_)
    | with_reducible apply logJob_keeps
    | (with_reducible refine Keeps.foldl (fun t a ht => ?_) ?_)
    | (with_reducible refine Keeps.foldl1 (fun p a hp => ?_) ?_)
    | (with_reducible refine Keeps.foldl2 (fun p a hp => ?_) ?_)
    | with_reducible apply Keeps.ite
    | with_reducible apply Keeps.ite1
    | with_reducible apply Keeps.ite2
    | (with_reducible refine Keeps.snd (by with_reducible assumption) ?_)
    | (with_reducible refine Keeps.fst (by with_reducible assumption) ?_)

theorem markPhase_keeps {s₀ : State} {s : State} {j : JobId} {r ph : Nat} (keep : Keeps s₀ s) :
    Keeps s₀ (markPhase s j r ph) := by
  unfold markPhase
  repeat' first
    | with_reducible assumption
    | (with_reducible refine fun _ (_ : Keeps s₀ _) => ?_)
    | with_reducible apply choosePower_keeps
    | with_reducible apply bump_keeps
    | with_reducible apply State.modRound_keeps
    | with_reducible exact id
    | exact fun _ => rfl
    | (with_reducible refine Keeps.snd (by with_reducible assumption) ?_)
    | (with_reducible refine Keeps.fst (by with_reducible assumption) ?_)
    | (fail_if_no_progress with_reducible apply Keeps.other)

theorem holdPhase_keeps {s₀ : State} {s : State} {j : JobId} {r ph : Nat} (keep : Keeps s₀ s) :
    Keeps s₀ (holdPhase s j r ph) := by
  unfold holdPhase
  repeat' first
    | with_reducible assumption
    | (with_reducible refine fun _ (_ : Keeps s₀ _) => ?_)
    | with_reducible apply State.modRound_keeps
    | with_reducible exact id
    | exact fun _ => rfl
    | with_reducible apply Keeps.ite
    | with_reducible apply Keeps.ite1
    | with_reducible apply Keeps.ite2
    | (with_reducible refine Keeps.snd (by with_reducible assumption) ?_)
    | (with_reducible refine Keeps.fst (by with_reducible assumption) ?_)
    | (fail_if_no_progress with_reducible apply Keeps.other)

theorem tell_keeps {s₀ : State} {s : State} {j : JobId} {r slot type : Nat} {payload : Bytes} (keep : Keeps s₀ s) :
    Keeps s₀ (tell s j r slot type payload) := by
  unfold tell
  repeat' first
    | with_reducible assumption
    | (with_reducible refine fun _ (_ : Keeps s₀ _) => ?_)
    | with_reducible apply sendMsg_keeps
    | with_reducible apply Keeps.ite
    | with_reducible apply Keeps.ite1
    | with_reducible apply Keeps.ite2
    | split
    | (with_reducible refine Keeps.snd (by with_reducible assumption) ?_)
    | (with_reducible refine Keeps.fst (by with_reducible assumption) ?_)
    | (fail_if_no_progress with_reducible apply Keeps.other)

theorem beginClose_keeps {s₀ : State} {s : State} {j : JobId} {r : Nat} (keep : Keeps s₀ s) :
    Keeps s₀ (beginClose s j r) := by
  unfold beginClose
  repeat' first
    | with_reducible assumption
    | (with_reducible refine fun _ (_ : Keeps s₀ _) => ?_)
    | with_reducible apply markPhase_keeps
    | with_reducible apply State.modRound_keeps
    | with_reducible exact id
    | exact fun _ => rfl
    | (with_reducible refine Keeps.snd (by with_reducible assumption) ?_)
    | (with_reducible refine Keeps.fst (by with_reducible assumption) ?_)
    | (fail_if_no_progress with_reducible apply Keeps.other)

theorem drawCheckKey_keeps {s₀ : State} {j : JobId} {r frac : Nat} {s : State} {c : Nat} (keep : Keeps s₀ s) :
    Keeps s₀ (drawCheckKey j r frac s c) := by
  unfold drawCheckKey
  repeat' first
    | with_reducible assumption
    | (with_reducible refine fun _ (_ : Keeps s₀ _) => ?_)
    | (extract_lets -underBinder +onlyGivenNames x; have hx : Keeps s₀ x := ?_; on_goal 2 => dsimp only [x]; on_goal 1 => clear_value x)
    | (extract_lets -underBinder +onlyGivenNames x; have hx : Keeps s₀ x.2 := ?_; on_goal 2 => dsimp only [x]; on_goal 1 => clear_value x)
    | (extract_lets -underBinder +onlyGivenNames x; have hx : Keeps s₀ x.1 := ?_; on_goal 2 => dsimp only [x]; on_goal 1 => clear_value x)
    | (extract_lets -underBinder +onlyGivenNames x)
    | with_reducible apply nextCheckSeq_keeps
    | with_reducible apply count_keeps
    | with_reducible apply drawKey_keeps
    | with_reducible apply served_keeps
    | with_reducible apply State.modCohort_keeps
    | with_reducible exact id
    | exact fun _ => rfl
    | with_reducible apply Keeps.ite
    | with_reducible apply Keeps.ite1
    | with_reducible apply Keeps.ite2
    | split
    | (with_reducible refine Keeps.snd (by with_reducible assumption) ?_)
    | (with_reducible refine Keeps.fst (by with_reducible assumption) ?_)
    | (fail_if_no_progress with_reducible apply Keeps.other)

theorem beginUpload_keeps {s₀ : State} {s : State} {j : JobId} {r : Nat} (keep : Keeps s₀ s) :
    Keeps s₀ (beginUpload s j r) := by
  unfold beginUpload
  repeat' first
    | with_reducible assumption
    | (with_reducible refine fun _ (_ : Keeps s₀ _) => ?_)
    | (extract_lets -underBinder +onlyGivenNames x; have hx : Keeps s₀ x := ?_; on_goal 2 => dsimp only [x]; on_goal 1 => clear_value x)
    | (extract_lets -underBinder +onlyGivenNames x; have hx : Keeps s₀ x.2 := ?_; on_goal 2 => dsimp only [x]; on_goal 1 => clear_value x)
    | (extract_lets -underBinder +onlyGivenNames x; have hx : Keeps s₀ x.1 := ?_; on_goal 2 => dsimp only [x]; on_goal 1 => clear_value x)
    | (extract_lets -underBinder +onlyGivenNames x)
    | with_reducible apply markPhase_keeps
    | with_reducible apply tell_keeps
    | with_reducible apply clearCohort_keeps
    | with_reducible apply State.modCohort_keeps
    | with_reducible apply trierLoop_keeps
    | with_reducible apply drawCheckKey_keeps
    | with_reducible apply beginClose_keeps
    | (with_reducible refine Keeps.foldl (fun t a ht => ?_) ?_)
    | (with_reducible refine Keeps.foldl1 (fun p a hp => ?_) ?_)
    | (with_reducible refine Keeps.foldl2 (fun p a hp => ?_) ?_)
    | with_reducible exact id
    | exact fun _ => rfl
    | with_reducible apply Keeps.ite
    | with_reducible apply Keeps.ite1
    | with_reducible apply Keeps.ite2
    | split
    | (with_reducible refine Keeps.snd (by with_reducible assumption) ?_)
    | (with_reducible refine Keeps.fst (by with_reducible assumption) ?_)
    | (fail_if_no_progress with_reducible apply Keeps.other)
    | (clear_value *; split)

theorem enterShares_keeps {s₀ : State} {s : State} {j : JobId} {r : Nat} (keep : Keeps s₀ s) :
    Keeps s₀ (enterShares s j r) := by
  unfold enterShares
  repeat' first
    | with_reducible assumption
    | (with_reducible refine fun _ (_ : Keeps s₀ _) => ?_)
    | (extract_lets -underBinder +onlyGivenNames x; have hx : Keeps s₀ x := ?_; on_goal 2 => dsimp only [x]; on_goal 1 => clear_value x)
    | (extract_lets -underBinder +onlyGivenNames x; have hx : Keeps s₀ x.2 := ?_; on_goal 2 => dsimp only [x]; on_goal 1 => clear_value x)
    | (extract_lets -underBinder +onlyGivenNames x; have hx : Keeps s₀ x.1 := ?_; on_goal 2 => dsimp only [x]; on_goal 1 => clear_value x)
    | (extract_lets -underBinder +onlyGivenNames x)
    | with_reducible apply markPhase_keeps
    | with_reducible apply beginUpload_keeps
    | with_reducible apply Keeps.ite
    | with_reducible apply Keeps.ite1
    | with_reducible apply Keeps.ite2
    | split
    | (with_reducible refine Keeps.snd (by with_reducible assumption) ?_)
    | (with_reducible refine Keeps.fst (by with_reducible assumption) ?_)
    | (fail_if_no_progress with_reducible apply Keeps.other)
    | (clear_value *; split)

theorem beginShares_keeps {s₀ : State} {s : State} {j : JobId} {r : Nat} (keep : Keeps s₀ s) :
    Keeps s₀ (beginShares s j r) := by
  unfold beginShares
  repeat' first
    | with_reducible assumption
    | (with_reducible refine fun _ (_ : Keeps s₀ _) => ?_)
    | (extract_lets -underBinder +onlyGivenNames x; have hx : Keeps s₀ x := ?_; on_goal 2 => dsimp only [x]; on_goal 1 => clear_value x)
    | (extract_lets -underBinder +onlyGivenNames x; have hx : Keeps s₀ x.2 := ?_; on_goal 2 => dsimp only [x]; on_goal 1 => clear_value x)
    | (extract_lets -underBinder +onlyGivenNames x; have hx : Keeps s₀ x.1 := ?_; on_goal 2 => dsimp only [x]; on_goal 1 => clear_value x)
    | (extract_lets -underBinder +onlyGivenNames x)
    | with_reducible apply enterShares_keeps
    | with_reducible apply abortJob_keeps
    | with_reducible apply drawKey_keeps
    | with_reducible apply served_keeps
    | with_reducible apply fillSlot_keeps
    | with_reducible apply State.modRound_keeps
    | with_reducible exact id
    | exact fun _ => rfl
    | with_reducible apply Keeps.ite
    | with_reducible apply Keeps.ite1
    | with_reducible apply Keeps.ite2
    | split
    | (with_reducible refine Keeps.snd (by with_reducible assumption) ?_)
    | (with_reducible refine Keeps.fst (by with_reducible assumption) ?_)
    | (fail_if_no_progress with_reducible apply Keeps.other)
    | (clear_value *; split)

theorem neighbour_keeps {s₀ : State} {j : JobId} {r : Nat} {x : Round} {s : State} {slot : Nat} {nb : List Nat} (keep : Keeps s₀ s) :
    Keeps s₀ (neighbour j r x s slot nb) := by
  unfold neighbour
  repeat' first
    | with_reducible assumption
    | (with_reducible refine fun _ (_ : Keeps s₀ _) => ?_)
    | with_reducible apply modEntry_keeps
    | with_reducible apply tell_keeps
    | (with_reducible refine Keeps.snd (by with_reducible assumption) ?_)
    | (with_reducible refine Keeps.fst (by with_reducible assumption) ?_)
    | (fail_if_no_progress with_reducible apply Keeps.other)

theorem neighboursCohort_keeps {s₀ : State} {j : JobId} {r : Nat} {x : Round} {joined : List Nat} {s : State} {c : Nat} (keep : Keeps s₀ s) :
    Keeps s₀ (neighboursCohort j r x joined s c) := by
  unfold neighboursCohort
  repeat' first
    | with_reducible assumption
    | (with_reducible refine fun _ (_ : Keeps s₀ _) => ?_)
    | (extract_lets -underBinder +onlyGivenNames x; have hx : Keeps s₀ x := ?_; on_goal 2 => dsimp only [x]; on_goal 1 => clear_value x)
    | (extract_lets -underBinder +onlyGivenNames x; have hx : Keeps s₀ x.2 := ?_; on_goal 2 => dsimp only [x]; on_goal 1 => clear_value x)
    | (extract_lets -underBinder +onlyGivenNames x; have hx : Keeps s₀ x.1 := ?_; on_goal 2 => dsimp only [x]; on_goal 1 => clear_value x)
    | (extract_lets -underBinder +onlyGivenNames x)
    | with_reducible apply State.modCohort_keeps
    | with_reducible apply abandon_keeps
    | with_reducible apply neighbour_keeps
    | with_reducible apply State.modRound_keeps
    | (with_reducible refine Keeps.foldl (fun t a ht => ?_) ?_)
    | (with_reducible refine Keeps.foldl1 (fun p a hp => ?_) ?_)
    | (with_reducible refine Keeps.foldl2 (fun p a hp => ?_) ?_)
    | with_reducible exact id
    | exact fun _ => rfl
    | with_reducible apply Keeps.ite
    | with_reducible apply Keeps.ite1
    | with_reducible apply Keeps.ite2
    | (with_reducible refine Keeps.snd (by with_reducible assumption) ?_)
    | (with_reducible refine Keeps.fst (by with_reducible assumption) ?_)
    | (fail_if_no_progress with_reducible apply Keeps.other)

theorem beginNeighbours_keeps {s₀ : State} {s : State} {j : JobId} {r : Nat} (keep : Keeps s₀ s) :
    Keeps s₀ (beginNeighbours s j r) := by
  unfold beginNeighbours
  repeat' first
    | with_reducible assumption
    | (with_reducible refine fun _ (_ : Keeps s₀ _) => ?_)
    | (extract_lets -underBinder +onlyGivenNames x; have hx : Keeps s₀ x := ?_; on_goal 2 => dsimp only [x]; on_goal 1 => clear_value x)
    | (extract_lets -underBinder +onlyGivenNames x; have hx : Keeps s₀ x.2 := ?_; on_goal 2 => dsimp only [x]; on_goal 1 => clear_value x)
    | (extract_lets -underBinder +onlyGivenNames x; have hx : Keeps s₀ x.1 := ?_; on_goal 2 => dsimp only [x]; on_goal 1 => clear_value x)
    | (extract_lets -underBinder +onlyGivenNames x)
    | with_reducible apply markPhase_keeps
    | with_reducible apply fset_keeps
    | with_reducible apply neighboursCohort_keeps
    | with_reducible apply neighbour_keeps
    | with_reducible apply beginShares_keeps
    | (with_reducible refine Keeps.foldl (fun t a ht => ?_) ?_)
    | (with_reducible refine Keeps.foldl1 (fun p a hp => ?_) ?_)
    | (with_reducible refine Keeps.foldl2 (fun p a hp => ?_) ?_)
    | with_reducible apply Keeps.ite
    | with_reducible apply Keeps.ite1
    | with_reducible apply Keeps.ite2
    | split
    | (with_reducible refine Keeps.snd (by with_reducible assumption) ?_)
    | (with_reducible refine Keeps.fst (by with_reducible assumption) ?_)
    | (fail_if_no_progress with_reducible apply Keeps.other)
    | (clear_value *; split)

theorem beginJoin_keeps {s₀ : State} {s : State} {j : JobId} {r : Nat} (keep : Keeps s₀ s) :
    Keeps s₀ (beginJoin s j r) := by
  unfold beginJoin
  repeat' first
    | with_reducible assumption
    | (with_reducible refine fun _ (_ : Keeps s₀ _) => ?_)
    | (extract_lets -underBinder +onlyGivenNames x; have hx : Keeps s₀ x := ?_; on_goal 2 => dsimp only [x]; on_goal 1 => clear_value x)
    | (extract_lets -underBinder +onlyGivenNames x; have hx : Keeps s₀ x.2 := ?_; on_goal 2 => dsimp only [x]; on_goal 1 => clear_value x)
    | (extract_lets -underBinder +onlyGivenNames x; have hx : Keeps s₀ x.1 := ?_; on_goal 2 => dsimp only [x]; on_goal 1 => clear_value x)
    | (extract_lets -underBinder +onlyGivenNames x)
    | with_reducible apply markPhase_keeps
    | with_reducible apply beginNeighbours_keeps
    | with_reducible apply Keeps.ite
    | with_reducible apply Keeps.ite1
    | with_reducible apply Keeps.ite2
    | split
    | (with_reducible refine Keeps.snd (by with_reducible assumption) ?_)
    | (with_reducible refine Keeps.fst (by with_reducible assumption) ?_)
    | (fail_if_no_progress with_reducible apply Keeps.other)
    | (clear_value *; split)

theorem sendOffer_keeps {s₀ : State} {j : JobId} {x : Round} {s : State} {fe : Nat} (keep : Keeps s₀ s) :
    Keeps s₀ (sendOffer j x s fe) := by
  unfold sendOffer
  repeat' first
    | with_reducible assumption
    | (with_reducible refine fun _ (_ : Keeps s₀ _) => ?_)
    | (extract_lets -underBinder +onlyGivenNames x; have hx : Keeps s₀ x := ?_; on_goal 2 => dsimp only [x]; on_goal 1 => clear_value x)
    | (extract_lets -underBinder +onlyGivenNames x; have hx : Keeps s₀ x.2 := ?_; on_goal 2 => dsimp only [x]; on_goal 1 => clear_value x)
    | (extract_lets -underBinder +onlyGivenNames x; have hx : Keeps s₀ x.1 := ?_; on_goal 2 => dsimp only [x]; on_goal 1 => clear_value x)
    | (extract_lets -underBinder +onlyGivenNames x)
    | with_reducible apply takeSlot_keeps
    | with_reducible apply sendChunk_keeps
    | with_reducible apply tollDone_keeps
    | with_reducible apply Keeps.ite
    | with_reducible apply Keeps.ite1
    | with_reducible apply Keeps.ite2
    | split
    | (with_reducible refine Keeps.snd (by with_reducible assumption) ?_)
    | (with_reducible refine Keeps.fst (by with_reducible assumption) ?_)
    | (fail_if_no_progress with_reducible apply Keeps.other)
    | (clear_value *; split)

theorem clearFeCounts_keeps {s₀ : State} {s : State} {fe : Nat} (keep : Keeps s₀ s) :
    Keeps s₀ (clearFeCounts s fe) := by
  unfold clearFeCounts
  repeat' first
    | with_reducible assumption
    | (with_reducible refine fun _ (_ : Keeps s₀ _) => ?_)
    | (extract_lets -underBinder +onlyGivenNames x; have hx : Keeps s₀ x := ?_; on_goal 2 => dsimp only [x]; on_goal 1 => clear_value x)
    | (extract_lets -underBinder +onlyGivenNames x; have hx : Keeps s₀ x.2 := ?_; on_goal 2 => dsimp only [x]; on_goal 1 => clear_value x)
    | (extract_lets -underBinder +onlyGivenNames x; have hx : Keeps s₀ x.1 := ?_; on_goal 2 => dsimp only [x]; on_goal 1 => clear_value x)
    | (extract_lets -underBinder +onlyGivenNames x)
    | with_reducible apply fset_keeps
    | (with_reducible refine Keeps.snd (by with_reducible assumption) ?_)
    | (with_reducible refine Keeps.fst (by with_reducible assumption) ?_)
    | (fail_if_no_progress with_reducible apply Keeps.other)

theorem beginOffer_keeps {s₀ : State} {s : State} {j : JobId} {r : Nat} (keep : Keeps s₀ s) :
    Keeps s₀ (beginOffer s j r) := by
  unfold beginOffer
  repeat' first
    | with_reducible assumption
    | (with_reducible refine fun _ (_ : Keeps s₀ _) => ?_)
    | (extract_lets -underBinder +onlyGivenNames x; have hx : Keeps s₀ x := ?_; on_goal 2 => dsimp only [x]; on_goal 1 => clear_value x)
    | (extract_lets -underBinder +onlyGivenNames x; have hx : Keeps s₀ x.2 := ?_; on_goal 2 => dsimp only [x]; on_goal 1 => clear_value x)
    | (extract_lets -underBinder +onlyGivenNames x; have hx : Keeps s₀ x.1 := ?_; on_goal 2 => dsimp only [x]; on_goal 1 => clear_value x)
    | (extract_lets -underBinder +onlyGivenNames x)
    | with_reducible apply abortJob_keeps
    | with_reducible apply drawScalar_keeps
    | with_reducible apply served_keeps
    | with_reducible apply fillSlot_keeps
    | with_reducible apply tollDone_keeps
    | with_reducible apply State.modRound_keeps
    | with_reducible apply State.modJob_keeps
    | with_reducible apply fset_keeps
    | with_reducible apply clearFeCounts_keeps
    | with_reducible apply sendOffer_keeps
    | with_reducible apply followOffer_keeps
    | with_reducible apply markPhase_keeps
    | with_reducible apply beginJoin_keeps
    | (with_reducible refine Keeps.foldl (fun t a ht => ?_) ?_)
    | (with_reducible refine Keeps.foldl1 (fun p a hp => ?_) ?_)
    | (with_reducible refine Keeps.foldl2 (fun p a hp => ?_) ?_)
    | with_reducible exact id
    | exact fun _ => rfl
    | with_reducible apply Keeps.ite
    | with_reducible apply Keeps.ite1
    | with_reducible apply Keeps.ite2
    | split
    | (with_reducible refine Keeps.snd (by with_reducible assumption) ?_)
    | (with_reducible refine Keeps.fst (by with_reducible assumption) ?_)
    | (fail_if_no_progress with_reducible apply Keeps.other)
    | (clear_value *; split)

theorem beginPhase_keeps {s₀ : State} {s : State} {j : JobId} {r ph : Nat} (keep : Keeps s₀ s) :
    Keeps s₀ (beginPhase s j r ph) := by
  unfold beginPhase
  repeat' first
    | with_reducible assumption
    | (with_reducible refine fun _ (_ : Keeps s₀ _) => ?_)
    | with_reducible apply beginOffer_keeps
    | with_reducible apply beginJoin_keeps
    | with_reducible apply beginNeighbours_keeps
    | with_reducible apply beginShares_keeps
    | with_reducible apply beginUpload_keeps
    | with_reducible apply beginClose_keeps
    | split
    | (with_reducible refine Keeps.snd (by with_reducible assumption) ?_)
    | (with_reducible refine Keeps.fst (by with_reducible assumption) ?_)
    | (fail_if_no_progress with_reducible apply Keeps.other)

theorem phaseEvent_keeps {s₀ : State} {s : State} {j : JobId} {r ph : Nat} {go : State → State} (keep : Keeps s₀ s) (hact : ∀ t, Keeps s₀ t → Keeps s₀ (go t)) :
    Keeps s₀ (phaseEvent s j r ph go) := by
  unfold phaseEvent
  repeat' first
    | with_reducible assumption
    | with_reducible apply hact
    | (with_reducible refine fun _ (_ : Keeps s₀ _) => ?_)
    | (extract_lets -underBinder +onlyGivenNames x; have hx : Keeps s₀ x := ?_; on_goal 2 => dsimp only [x]; on_goal 1 => clear_value x)
    | (extract_lets -underBinder +onlyGivenNames x; have hx : Keeps s₀ x.2 := ?_; on_goal 2 => dsimp only [x]; on_goal 1 => clear_value x)
    | (extract_lets -underBinder +onlyGivenNames x; have hx : Keeps s₀ x.1 := ?_; on_goal 2 => dsimp only [x]; on_goal 1 => clear_value x)
    | (extract_lets -underBinder +onlyGivenNames x)
    | with_reducible apply doubtfulCloses_keeps
    | with_reducible apply fireEntry_keeps
    | with_reducible apply logJob_keeps
    | with_reducible apply holdPhase_keeps
    | with_reducible apply Keeps.ite
    | with_reducible apply Keeps.ite1
    | with_reducible apply Keeps.ite2
    | split
    | (with_reducible refine Keeps.snd (by with_reducible assumption) ?_)
    | (with_reducible refine Keeps.fst (by with_reducible assumption) ?_)
    | (fail_if_no_progress with_reducible apply Keeps.other)
    | (clear_value *; split)

theorem releaseHeld_keeps {s₀ : State} {s : State} {j : JobId} {r : Nat} (keep : Keeps s₀ s) :
    Keeps s₀ (releaseHeld s j r) := by
  unfold releaseHeld
  repeat' first
    | with_reducible assumption
    | (with_reducible refine fun _ (_ : Keeps s₀ _) => ?_)
    | with_reducible apply beginPhase_keeps
    | (with_reducible refine Keeps.foldl (fun t a ht => ?_) ?_)
    | (with_reducible refine Keeps.foldl1 (fun p a hp => ?_) ?_)
    | (with_reducible refine Keeps.foldl2 (fun p a hp => ?_) ?_)
    | with_reducible apply Keeps.ite
    | with_reducible apply Keeps.ite1
    | with_reducible apply Keeps.ite2
    | split
    | (with_reducible refine Keeps.snd (by with_reducible assumption) ?_)
    | (with_reducible refine Keeps.fst (by with_reducible assumption) ?_)
    | (fail_if_no_progress with_reducible apply Keeps.other)

theorem releaseAll_keeps {s₀ : State} {s : State} (keep : Keeps s₀ s) :
    Keeps s₀ (releaseAll s) := by
  unfold releaseAll
  repeat' first
    | with_reducible assumption
    | (with_reducible refine fun _ (_ : Keeps s₀ _) => ?_)
    | with_reducible apply releaseHeld_keeps
    | (with_reducible refine Keeps.foldl (fun t a ht => ?_) ?_)
    | (with_reducible refine Keeps.foldl1 (fun p a hp => ?_) ?_)
    | (with_reducible refine Keeps.foldl2 (fun p a hp => ?_) ?_)
    | (with_reducible refine Keeps.snd (by with_reducible assumption) ?_)
    | (with_reducible refine Keeps.fst (by with_reducible assumption) ?_)

theorem execOfferBegin_keeps {s₀ : State} {j : JobId} {r : RoundNo} {s : State} (keep : Keeps s₀ s) :
    Answers s₀ (execOfferBegin j r s) := by
  unfold execOfferBegin
  repeat' first
    | with_reducible assumption
    | (with_reducible refine fun _ (_ : Keeps s₀ _) => ?_)
    | (with_reducible refine fun _ _ (_ : Keeps s₀ _) => ?_)
    | (with_reducible refine fun _ _ _ (_ : Keeps s₀ _) => ?_)
    | (with_reducible refine fun _ _ _ _ (_ : Keeps s₀ _) => ?_)
    | (with_reducible refine fun _ _ _ _ _ (_ : Keeps s₀ _) => ?_)
    | (with_reducible refine fun (_ : Ctx) => ?_)
    | with_reducible apply Answers.next
    | with_reducible apply phaseEvent_keeps
    | with_reducible apply beginOffer_keeps
    | (with_reducible refine Keeps.snd (by with_reducible assumption) ?_)
    | (with_reducible refine Keeps.fst (by with_reducible assumption) ?_)

theorem execJoinBegin_keeps {s₀ : State} {j : JobId} {r : RoundNo} {s : State} (keep : Keeps s₀ s) :
    Answers s₀ (execJoinBegin j r s) := by
  unfold execJoinBegin
  repeat' first
    | with_reducible assumption
    | (with_reducible refine fun _ (_ : Keeps s₀ _) => ?_)
    | (with_reducible refine fun _ _ (_ : Keeps s₀ _) => ?_)
    | (with_reducible refine fun _ _ _ (_ : Keeps s₀ _) => ?_)
    | (with_reducible refine fun _ _ _ _ (_ : Keeps s₀ _) => ?_)
    | (with_reducible refine fun _ _ _ _ _ (_ : Keeps s₀ _) => ?_)
    | (with_reducible refine fun (_ : Ctx) => ?_)
    | with_reducible apply Answers.next
    | with_reducible apply phaseEvent_keeps
    | with_reducible apply beginJoin_keeps
    | (with_reducible refine Keeps.snd (by with_reducible assumption) ?_)
    | (with_reducible refine Keeps.fst (by with_reducible assumption) ?_)

theorem execNeighboursBegin_keeps {s₀ : State} {j : JobId} {r : RoundNo} {s : State} (keep : Keeps s₀ s) :
    Answers s₀ (execNeighboursBegin j r s) := by
  unfold execNeighboursBegin
  repeat' first
    | with_reducible assumption
    | (with_reducible refine fun _ (_ : Keeps s₀ _) => ?_)
    | (with_reducible refine fun _ _ (_ : Keeps s₀ _) => ?_)
    | (with_reducible refine fun _ _ _ (_ : Keeps s₀ _) => ?_)
    | (with_reducible refine fun _ _ _ _ (_ : Keeps s₀ _) => ?_)
    | (with_reducible refine fun _ _ _ _ _ (_ : Keeps s₀ _) => ?_)
    | (with_reducible refine fun (_ : Ctx) => ?_)
    | with_reducible apply Answers.next
    | with_reducible apply phaseEvent_keeps
    | with_reducible apply beginNeighbours_keeps
    | (with_reducible refine Keeps.snd (by with_reducible assumption) ?_)
    | (with_reducible refine Keeps.fst (by with_reducible assumption) ?_)

theorem execSharesBegin_keeps {s₀ : State} {j : JobId} {r : RoundNo} {s : State} (keep : Keeps s₀ s) :
    Answers s₀ (execSharesBegin j r s) := by
  unfold execSharesBegin
  repeat' first
    | with_reducible assumption
    | (with_reducible refine fun _ (_ : Keeps s₀ _) => ?_)
    | (with_reducible refine fun _ _ (_ : Keeps s₀ _) => ?_)
    | (with_reducible refine fun _ _ _ (_ : Keeps s₀ _) => ?_)
    | (with_reducible refine fun _ _ _ _ (_ : Keeps s₀ _) => ?_)
    | (with_reducible refine fun _ _ _ _ _ (_ : Keeps s₀ _) => ?_)
    | (with_reducible refine fun (_ : Ctx) => ?_)
    | with_reducible apply Answers.next
    | with_reducible apply phaseEvent_keeps
    | with_reducible apply beginShares_keeps
    | (with_reducible refine Keeps.snd (by with_reducible assumption) ?_)
    | (with_reducible refine Keeps.fst (by with_reducible assumption) ?_)

theorem execUploadBegin_keeps {s₀ : State} {j : JobId} {r : RoundNo} {s : State} (keep : Keeps s₀ s) :
    Answers s₀ (execUploadBegin j r s) := by
  unfold execUploadBegin
  repeat' first
    | with_reducible assumption
    | (with_reducible refine fun _ (_ : Keeps s₀ _) => ?_)
    | (with_reducible refine fun _ _ (_ : Keeps s₀ _) => ?_)
    | (with_reducible refine fun _ _ _ (_ : Keeps s₀ _) => ?_)
    | (with_reducible refine fun _ _ _ _ (_ : Keeps s₀ _) => ?_)
    | (with_reducible refine fun _ _ _ _ _ (_ : Keeps s₀ _) => ?_)
    | (with_reducible refine fun (_ : Ctx) => ?_)
    | with_reducible apply Answers.next
    | with_reducible apply phaseEvent_keeps
    | with_reducible apply beginUpload_keeps
    | (with_reducible refine Keeps.snd (by with_reducible assumption) ?_)
    | (with_reducible refine Keeps.fst (by with_reducible assumption) ?_)

theorem execCloseBegin_keeps {s₀ : State} {j : JobId} {r : RoundNo} {s : State} (keep : Keeps s₀ s) :
    Answers s₀ (execCloseBegin j r s) := by
  unfold execCloseBegin
  repeat' first
    | with_reducible assumption
    | (with_reducible refine fun _ (_ : Keeps s₀ _) => ?_)
    | (with_reducible refine fun _ _ (_ : Keeps s₀ _) => ?_)
    | (with_reducible refine fun _ _ _ (_ : Keeps s₀ _) => ?_)
    | (with_reducible refine fun _ _ _ _ (_ : Keeps s₀ _) => ?_)
    | (with_reducible refine fun _ _ _ _ _ (_ : Keeps s₀ _) => ?_)
    | (with_reducible refine fun (_ : Ctx) => ?_)
    | with_reducible apply Answers.next
    | with_reducible apply phaseEvent_keeps
    | with_reducible apply beginClose_keeps
    | (with_reducible refine Keeps.snd (by with_reducible assumption) ?_)
    | (with_reducible refine Keeps.fst (by with_reducible assumption) ?_)

end Sys2Proof.Machine
end

