-- ==== Sys2Proof/Laws/KeepsFerry.lean ====
section
/-! SUPPORT. What the operations of Machine/Ferry.lean leave alone (Safety). -/

set_option linter.unusedTactic false
set_option linter.unreachableTactic false
set_option linter.tactic.unusedName false

namespace Sys2Proof.Machine

theorem coreSend_keeps {s₀ : State} {s : State} {e : FerryEnd} {b : Bytes} (keep : Keeps s₀ s)
    (fits : State.Canonical s₀ → blockFits b) : Keeps s₀ (coreSend s e b) := by
  unfold coreSend
  split
  · exact State.modChan_keeps keep _ _ (fun u w => ⟨w.block, fun c hc => by
      rcases List.mem_append.1 hc with hc | hc
      · exact w.waiting c hc
      · rw [List.mem_singleton.1 hc]; exact fits u⟩)
  · exact raise_keeps (State.modChan_keeps keep _ _ (fun u w => ⟨by simpa using fits u, w.waiting⟩))

theorem writeTxCtrl_keeps {s₀ : State} {s : State} {e : FerryEnd} {v : Nat} (keep : Keeps s₀ s) : Keeps s₀ (writeTxCtrl s e v) := by
  unfold writeTxCtrl
  refine Keeps.ite (State.modChan_keeps keep _ _ (fun _ w => ⟨w.block, w.waiting⟩)) ?_
  dsimp only
  split
  · exact keep
  · rename_i hn
    refine Keeps.ite (fset_keeps keep _ _ _ _) (State.modChan_keeps keep _ _ (fun _ w => ⟨?_, w.waiting⟩))
    have hl := txBlock_length s e (v % 128)
    simp only [Option.mem_def, Option.some.injEq, forall_eq', blockFits]
    omega

theorem execFerryBlockSend_keeps {s₀ : State} {e : FerryEnd} {v : Word} {s : State} (keep : Keeps s₀ s) :
    Answers s₀ (execFerryBlockSend e v s) := by
  unfold execFerryBlockSend
  repeat' first
    | with_reducible assumption
    | (with_reducible refine fun _ (_ : Keeps s₀ _) => ?_)
    | with_reducible apply Answers.next
    | with_reducible apply writeTxCtrl_keeps
    | (with_reducible refine Keeps.snd (by with_reducible assumption) ?_)
    | (with_reducible refine Keeps.fst (by with_reducible assumption) ?_)

theorem execFerryNoticeSend_keeps {s₀ : State} {e : FerryEnd} {v : Word} {s : State} (keep : Keeps s₀ s) :
    Answers s₀ (execFerryNoticeSend e v s) := by
  unfold execFerryNoticeSend
  repeat' first
    | with_reducible assumption
    | (with_reducible refine fun _ (_ : Keeps s₀ _) => ?_)
    | with_reducible apply Answers.next
    | with_reducible apply writeTxCtrl_keeps
    | (with_reducible refine Keeps.snd (by with_reducible assumption) ?_)
    | (with_reducible refine Keeps.fst (by with_reducible assumption) ?_)

theorem writeRxTake_keeps {s₀ : State} {s : State} {e : FerryEnd} {v : Nat} (keep : Keeps s₀ s) : Keeps s₀ (writeRxTake s e v) := by
  unfold writeRxTake
  refine Keeps.ite keep ?_
  have hc : Keeps s₀ (s.modChan (rxChan e) (fun c => { c with block := none })) :=
    State.modChan_keeps keep _ _ (fun _ w => ⟨by simp, w.waiting⟩)
  dsimp only
  generalize s.modChan (rxChan e) (fun c => { c with block := none }) = t at hc
  split
  · exact hc
  · rename_i b bs hb
    exact coreSend_keeps (State.modChan_keeps hc _ _ (fun _ w => ⟨w.block, fun c h => w.waiting c (by simp [hb, h])⟩))
      (fun u => ((hc.canonical u).channels (rxChan e)).waiting b (by simp [hb]))

theorem execFerryTake_keeps {s₀ : State} {e : FerryEnd} {v : BitVec 32} {s : State} (keep : Keeps s₀ s) :
    Answers s₀ (execFerryTake e v s) := by
  unfold execFerryTake
  repeat' first
    | with_reducible assumption
    | (with_reducible refine fun _ (_ : Keeps s₀ _) => ?_)
    | with_reducible apply Answers.next
    | with_reducible apply writeRxTake_keeps
    | (with_reducible refine Keeps.snd (by with_reducible assumption) ?_)
    | (with_reducible refine Keeps.fst (by with_reducible assumption) ?_)

theorem readNotice_keeps {s₀ : State} {s : State} {e : FerryEnd} (keep : Keeps s₀ s) :
    Keeps s₀ (readNotice s e).2 := by
  unfold readNotice
  repeat' first
    | with_reducible assumption
    | (with_reducible refine fun _ (_ : Keeps s₀ _) => ?_)
    | with_reducible apply State.modChan_keeps
    | with_reducible apply Keeps.pair2
    | (with_reducible refine Keeps.snd (by with_reducible assumption) ?_)
    | (with_reducible refine Keeps.fst (by with_reducible assumption) ?_)
    | exact fun _ w => ⟨w.block, w.waiting⟩
    | exact fun _ w => ⟨by simp, w.waiting⟩
    | exact fun _ _ => ⟨by simp, by simp⟩
    | (fail_if_no_progress with_reducible apply Keeps.other)

theorem execFerryNoticeRead_keeps {s₀ : State} {e : FerryEnd} {s : State} (keep : Keeps s₀ s) :
    Answers s₀ (execFerryNoticeRead e s) := by
  unfold execFerryNoticeRead
  repeat' first
    | with_reducible assumption
    | (with_reducible refine fun _ (_ : Keeps s₀ _) => ?_)
    | (extract_lets -underBinder +onlyGivenNames x; have hx : Keeps s₀ x := ?_; on_goal 2 => dsimp only [x]; on_goal 1 => clear_value x)
    | (extract_lets -underBinder +onlyGivenNames x; have hx : Keeps s₀ x.2 := ?_; on_goal 2 => dsimp only [x]; on_goal 1 => clear_value x)
    | (extract_lets -underBinder +onlyGivenNames x; have hx : Keeps s₀ x.1 := ?_; on_goal 2 => dsimp only [x]; on_goal 1 => clear_value x)
    | (extract_lets -underBinder +onlyGivenNames x)
    | with_reducible apply Answers.next
    | with_reducible apply readNotice_keeps
    | with_reducible apply emit_keeps
    | split
    | (with_reducible refine Keeps.snd (by with_reducible assumption) ?_)
    | (with_reducible refine Keeps.fst (by with_reducible assumption) ?_)

theorem resetReceiver_keeps {s₀ : State} {s : State} {e : FerryEnd} (keep : Keeps s₀ s) :
    Keeps s₀ (resetReceiver s e) := by
  unfold resetReceiver
  repeat' first
    | with_reducible assumption
    | (with_reducible refine fun _ (_ : Keeps s₀ _) => ?_)
    | with_reducible apply State.modChan_keeps
    | (with_reducible refine Keeps.snd (by with_reducible assumption) ?_)
    | (with_reducible refine Keeps.fst (by with_reducible assumption) ?_)
    | exact fun _ w => ⟨w.block, w.waiting⟩
    | exact fun _ w => ⟨by simp, w.waiting⟩
    | exact fun _ _ => ⟨by simp, by simp⟩
    | (fail_if_no_progress with_reducible apply Keeps.other)

theorem dueHail_keeps {s₀ : State} {s : State} {f : Func} (keep : Keeps s₀ s) :
    Keeps s₀ (dueHail s f) := by
  unfold dueHail
  repeat' first
    | with_reducible assumption
    | (with_reducible refine fun _ (_ : Keeps s₀ _) => ?_)
    | with_reducible apply Keeps.ite
    | with_reducible apply Keeps.ite1
    | with_reducible apply Keeps.ite2
    | (with_reducible refine Keeps.snd (by with_reducible assumption) ?_)
    | (with_reducible refine Keeps.fst (by with_reducible assumption) ?_)
    | (fail_if_no_progress with_reducible apply Keeps.other)

theorem writeFerryCtrl_keeps {s₀ : State} {s : State} {e : FerryEnd} {v : Nat} (keep : Keeps s₀ s) :
    Keeps s₀ (writeFerryCtrl s e v) := by
  unfold writeFerryCtrl
  repeat' first
    | with_reducible assumption
    | (with_reducible refine fun _ (_ : Keeps s₀ _) => ?_)
    | with_reducible apply dueHail_keeps
    | with_reducible apply resetReceiver_keeps
    | with_reducible apply Keeps.ite
    | with_reducible apply Keeps.ite1
    | with_reducible apply Keeps.ite2
    | (with_reducible refine Keeps.snd (by with_reducible assumption) ?_)
    | (with_reducible refine Keeps.fst (by with_reducible assumption) ?_)

theorem execFerryRxReset_keeps {s₀ : State} {e : FerryEnd} {v : BitVec 32} {s : State} (keep : Keeps s₀ s) :
    Answers s₀ (execFerryRxReset e v s) := by
  unfold execFerryRxReset
  repeat' first
    | with_reducible assumption
    | (with_reducible refine fun _ (_ : Keeps s₀ _) => ?_)
    | with_reducible apply Answers.next
    | with_reducible apply writeFerryCtrl_keeps
    | (with_reducible refine Keeps.snd (by with_reducible assumption) ?_)
    | (with_reducible refine Keeps.fst (by with_reducible assumption) ?_)

theorem execHailSend_keeps {s₀ : State} {f : Func} {s : State} (keep : Keeps s₀ s) :
    Answers s₀ (execHailSend f s) := by
  unfold execHailSend
  repeat' first
    | with_reducible assumption
    | (with_reducible refine fun _ (_ : Keeps s₀ _) => ?_)
    | (with_reducible refine fun _ _ (_ : Keeps s₀ _) => ?_)
    | (with_reducible refine fun _ _ _ (_ : Keeps s₀ _) => ?_)
    | (with_reducible refine fun _ _ _ _ (_ : Keeps s₀ _) => ?_)
    | (with_reducible refine fun _ _ _ _ _ (_ : Keeps s₀ _) => ?_)
    | (with_reducible refine fun (_ : Ctx) => ?_)
    | (extract_lets -underBinder +onlyGivenNames x; have hx : Keeps s₀ x := ?_; on_goal 2 => dsimp only [x]; on_goal 1 => clear_value x)
    | (extract_lets -underBinder +onlyGivenNames x; have hx : Keeps s₀ x.2 := ?_; on_goal 2 => dsimp only [x]; on_goal 1 => clear_value x)
    | (extract_lets -underBinder +onlyGivenNames x; have hx : Keeps s₀ x.1 := ?_; on_goal 2 => dsimp only [x]; on_goal 1 => clear_value x)
    | (extract_lets -underBinder +onlyGivenNames x)
    | with_reducible apply Answers.next
    | with_reducible apply fset_keeps
    | with_reducible apply coreSend_keeps
    | with_reducible apply Keeps.ite
    | with_reducible apply Keeps.ite1
    | with_reducible apply Keeps.ite2
    | with_reducible apply Answers.ite
    | (with_reducible refine Keeps.snd (by with_reducible assumption) ?_)
    | (with_reducible refine Keeps.fst (by with_reducible assumption) ?_)
    | exact fun _ => hailMsg_fits _ _ _ _
    | (fail_if_no_progress with_reducible apply Keeps.other)

theorem endOutage_keeps {s₀ : State} {s : State} (keep : Keeps s₀ s) :
    Keeps s₀ (endOutage s) := by
  unfold endOutage
  repeat' first
    | with_reducible assumption
    | (with_reducible refine fun _ (_ : Keeps s₀ _) => ?_)
    | with_reducible apply set1_keeps
    | with_reducible apply Keeps.ite
    | with_reducible apply Keeps.ite1
    | with_reducible apply Keeps.ite2
    | split
    | (with_reducible refine Keeps.snd (by with_reducible assumption) ?_)
    | (with_reducible refine Keeps.fst (by with_reducible assumption) ?_)
    | (fail_if_no_progress with_reducible apply Keeps.other)

theorem hailReply_keeps {s₀ : State} {s : State} {f : Func} {type session : Nat} (keep : Keeps s₀ s) :
    Keeps s₀ (hailReply s f type session) := by
  unfold hailReply
  repeat' first
    | with_reducible assumption
    | (with_reducible refine fun _ (_ : Keeps s₀ _) => ?_)
    | (with_reducible refine fun _ _ (_ : Keeps s₀ _) => ?_)
    | (with_reducible refine fun _ _ _ (_ : Keeps s₀ _) => ?_)
    | (with_reducible refine fun _ _ _ _ (_ : Keeps s₀ _) => ?_)
    | (with_reducible refine fun _ _ _ _ _ (_ : Keeps s₀ _) => ?_)
    | (with_reducible refine fun (_ : Ctx) => ?_)
    | (extract_lets -underBinder +onlyGivenNames x; have hx : Keeps s₀ x := ?_; on_goal 2 => dsimp only [x]; on_goal 1 => clear_value x)
    | (extract_lets -underBinder +onlyGivenNames x; have hx : Keeps s₀ x.2 := ?_; on_goal 2 => dsimp only [x]; on_goal 1 => clear_value x)
    | (extract_lets -underBinder +onlyGivenNames x; have hx : Keeps s₀ x.1 := ?_; on_goal 2 => dsimp only [x]; on_goal 1 => clear_value x)
    | (extract_lets -underBinder +onlyGivenNames x)
    | with_reducible apply freeValue_keeps
    | with_reducible apply coreSend_keeps
    | split
    | (with_reducible refine Keeps.snd (by with_reducible assumption) ?_)
    | (with_reducible refine Keeps.fst (by with_reducible assumption) ?_)
    | exact fun _ => hailMsg_fits _ _ _ _

theorem execHailAck_keeps {s₀ : State} {f : Func} {s : State} (keep : Keeps s₀ s) :
    Answers s₀ (execHailAck f s) := by
  unfold execHailAck
  repeat' first
    | with_reducible assumption
    | (with_reducible refine fun _ (_ : Keeps s₀ _) => ?_)
    | (extract_lets -underBinder +onlyGivenNames x; have hx : Keeps s₀ x := ?_; on_goal 2 => dsimp only [x]; on_goal 1 => clear_value x)
    | (extract_lets -underBinder +onlyGivenNames x; have hx : Keeps s₀ x.2 := ?_; on_goal 2 => dsimp only [x]; on_goal 1 => clear_value x)
    | (extract_lets -underBinder +onlyGivenNames x; have hx : Keeps s₀ x.1 := ?_; on_goal 2 => dsimp only [x]; on_goal 1 => clear_value x)
    | (extract_lets -underBinder +onlyGivenNames x)
    | with_reducible apply Answers.next
    | with_reducible apply State.modChan_keeps
    | with_reducible apply endOutage_keeps
    | with_reducible apply fset_keeps
    | with_reducible apply hailReply_keeps
    | with_reducible apply ev_keeps
    | with_reducible apply Keeps.ite
    | with_reducible apply Keeps.ite1
    | with_reducible apply Keeps.ite2
    | with_reducible apply Answers.ite
    | split
    | (with_reducible refine Keeps.snd (by with_reducible assumption) ?_)
    | (with_reducible refine Keeps.fst (by with_reducible assumption) ?_)
    | exact fun _ w => ⟨w.block, w.waiting⟩
    | exact fun _ w => ⟨by simp, w.waiting⟩
    | exact fun _ _ => ⟨by simp, by simp⟩
    | (fail_if_no_progress with_reducible apply Keeps.other)
    | (clear_value *; split)

theorem execFirmwareBlockTake_keeps {s₀ : State} {ch : Fin 64} {s : State} (keep : Keeps s₀ s) :
    Answers s₀ (execFirmwareBlockTake ch s) := by
  unfold execFirmwareBlockTake
  refine Answers.next (Keeps.ite keep (State.modChan_keeps keep _ _ (fun _ w => ⟨?_, w.waiting⟩)))
  split
  · simp
  · exact w.block

end Sys2Proof.Machine
end

