-- ==== Sys2Proof/Laws/KeepsRegAccess.lean ====
section
/-! SUPPORT. What the operations of Machine/RegAccess.lean leave alone (Safety). -/

set_option linter.unusedTactic false
set_option linter.unreachableTactic false
set_option linter.tactic.unusedName false

namespace Sys2Proof.Machine

theorem countAccess_keeps {s₀ : State} {s : State} {f : Func} {l : Landing} (keep : Keeps s₀ s) :
    Keeps s₀ (countAccess s f l) := by
  unfold countAccess
  repeat' first
    | with_reducible assumption
    | (with_reducible refine fun _ (_ : Keeps s₀ _) => ?_)
    | with_reducible apply ev_keeps
    | with_reducible apply count_keeps
    | split
    | (with_reducible refine Keeps.snd (by with_reducible assumption) ?_)
    | (with_reducible refine Keeps.fst (by with_reducible assumption) ?_)
    | (fail_if_no_progress with_reducible apply Keeps.other)

theorem readCopy_keeps {s₀ : State} {s : State} {f : Func} {r : Reg} {a b : Nat} (keep : Keeps s₀ s) :
    Keeps s₀ (readCopy s f r a b).2 := by
  unfold readCopy
  repeat' first
    | with_reducible assumption
    | (with_reducible refine fun _ (_ : Keeps s₀ _) => ?_)
    | with_reducible apply readResult_keeps
    | with_reducible apply readLog_keeps
    | with_reducible apply readNotice_keeps
    | with_reducible apply readSwData_keeps
    | with_reducible apply clearRcl_keeps
    | split
    | with_reducible apply Keeps.pair2
    | (with_reducible refine Keeps.snd (by with_reducible assumption) ?_)
    | (with_reducible refine Keeps.fst (by with_reducible assumption) ?_)
    | (fail_if_no_progress with_reducible apply Keeps.other)

theorem readAt_keeps {s₀ : State} {s : State} {f : Func} {off size : Nat} (keep : Keeps s₀ s) :
    Keeps s₀ (readAt s f off size).2 := by
  unfold readAt
  repeat' first
    | with_reducible assumption
    | (with_reducible refine fun _ (_ : Keeps s₀ _) => ?_)
    | with_reducible apply readCopy_keeps
    | with_reducible apply countAccess_keeps
    | split
    | with_reducible apply Keeps.pair2
    | (with_reducible refine Keeps.snd (by with_reducible assumption) ?_)
    | (with_reducible refine Keeps.fst (by with_reducible assumption) ?_)
    | (fail_if_no_progress with_reducible apply Keeps.other)

theorem execRclRead_keeps {s₀ : State} {f : Func} {off : Nat} {size : Nat} {s : State} (keep : Keeps s₀ s) :
    Answers s₀ (execRclRead f off size s) := by
  unfold execRclRead
  repeat' first
    | with_reducible assumption
    | (with_reducible refine fun _ (_ : Keeps s₀ _) => ?_)
    | (extract_lets -underBinder +onlyGivenNames x; have hx : Keeps s₀ x := ?_; on_goal 2 => dsimp only [x]; on_goal 1 => clear_value x)
    | (extract_lets -underBinder +onlyGivenNames x; have hx : Keeps s₀ x.2 := ?_; on_goal 2 => dsimp only [x]; on_goal 1 => clear_value x)
    | (extract_lets -underBinder +onlyGivenNames x; have hx : Keeps s₀ x.1 := ?_; on_goal 2 => dsimp only [x]; on_goal 1 => clear_value x)
    | (extract_lets -underBinder +onlyGivenNames x)
    | with_reducible apply Answers.next
    | with_reducible apply readAt_keeps
    | with_reducible apply emit_keeps
    | split
    | (with_reducible refine Keeps.snd (by with_reducible assumption) ?_)
    | (with_reducible refine Keeps.fst (by with_reducible assumption) ?_)

theorem execDeniedRegisterRead_keeps {s₀ : State} {f : Func} {off : Nat} {size : Nat} {s : State} (keep : Keeps s₀ s) :
    Answers s₀ (execDeniedRegisterRead f off size s) := by
  unfold execDeniedRegisterRead
  repeat' first
    | with_reducible assumption
    | (with_reducible refine fun _ (_ : Keeps s₀ _) => ?_)
    | with_reducible apply Answers.next
    | with_reducible apply emit_keeps
    | with_reducible apply countAccess_keeps
    | split
    | (with_reducible refine Keeps.snd (by with_reducible assumption) ?_)
    | (with_reducible refine Keeps.fst (by with_reducible assumption) ?_)
    | (fail_if_no_progress with_reducible apply Keeps.other)

theorem switchPort_keeps {s₀ : State} {was now : Nat} {s : State} {p : Port} (keep : Keeps s₀ s) :
    Keeps s₀ (switchPort was now s p) := by
  unfold switchPort
  repeat' first
    | with_reducible assumption
    | (with_reducible refine fun _ (_ : Keeps s₀ _) => ?_)
    | (extract_lets -underBinder +onlyGivenNames x; have hx : Keeps s₀ x := ?_; on_goal 2 => dsimp only [x]; on_goal 1 => clear_value x)
    | (extract_lets -underBinder +onlyGivenNames x; have hx : Keeps s₀ x.2 := ?_; on_goal 2 => dsimp only [x]; on_goal 1 => clear_value x)
    | (extract_lets -underBinder +onlyGivenNames x; have hx : Keeps s₀ x.1 := ?_; on_goal 2 => dsimp only [x]; on_goal 1 => clear_value x)
    | (extract_lets -underBinder +onlyGivenNames x)
    | with_reducible apply lightPort_keeps
    | with_reducible apply wakeDomain_keeps
    | with_reducible apply set1_keeps
    | with_reducible apply sleepDomain_keeps
    | with_reducible apply emit_keeps
    | with_reducible apply Keeps.ite
    | with_reducible apply Keeps.ite1
    | with_reducible apply Keeps.ite2
    | (with_reducible refine Keeps.snd (by with_reducible assumption) ?_)
    | (with_reducible refine Keeps.fst (by with_reducible assumption) ?_)
    | (fail_if_no_progress with_reducible apply Keeps.other)

theorem writeLndCtrl_keeps {s₀ : State} {s : State} {v : Nat} (keep : Keeps s₀ s) :
    Keeps s₀ (writeLndCtrl s v) := by
  unfold writeLndCtrl
  repeat' first
    | with_reducible assumption
    | (with_reducible refine fun _ (_ : Keeps s₀ _) => ?_)
    | (extract_lets -underBinder +onlyGivenNames x; have hx : Keeps s₀ x := ?_; on_goal 2 => dsimp only [x]; on_goal 1 => clear_value x)
    | (extract_lets -underBinder +onlyGivenNames x; have hx : Keeps s₀ x.2 := ?_; on_goal 2 => dsimp only [x]; on_goal 1 => clear_value x)
    | (extract_lets -underBinder +onlyGivenNames x; have hx : Keeps s₀ x.1 := ?_; on_goal 2 => dsimp only [x]; on_goal 1 => clear_value x)
    | (extract_lets -underBinder +onlyGivenNames x)
    | with_reducible apply storeReg_keeps
    | with_reducible apply switchPort_keeps
    | (with_reducible refine Keeps.foldl (fun t a ht => ?_) ?_)
    | (with_reducible refine Keeps.foldl1 (fun p a hp => ?_) ?_)
    | (with_reducible refine Keeps.foldl2 (fun p a hp => ?_) ?_)
    | (with_reducible refine Keeps.snd (by with_reducible assumption) ?_)
    | (with_reducible refine Keeps.fst (by with_reducible assumption) ?_)

theorem whileAbsent_keeps {s₀ : State} {s : State} {j : Nat} {t : State} (keep : Keeps s₀ s) (hact : Keeps s₀ t) :
    Keeps s₀ (whileAbsent s j t) := by
  unfold whileAbsent
  repeat' first
    | with_reducible assumption
    | (with_reducible refine fun _ (_ : Keeps s₀ _) => ?_)
    | with_reducible apply Keeps.ite
    | with_reducible apply Keeps.ite1
    | with_reducible apply Keeps.ite2
    | (with_reducible refine Keeps.snd (by with_reducible assumption) ?_)
    | (with_reducible refine Keeps.fst (by with_reducible assumption) ?_)

theorem writeJobTag_keeps {s₀ : State} {s : State} {a v : Nat} (keep : Keeps s₀ s) :
    Keeps s₀ (writeJobTag s a v) := by
  unfold writeJobTag
  repeat' first
    | with_reducible assumption
    | (with_reducible refine fun _ (_ : Keeps s₀ _) => ?_)
    | with_reducible apply storeReg_keeps
    | with_reducible apply Keeps.ite
    | with_reducible apply Keeps.ite1
    | with_reducible apply Keeps.ite2
    | (with_reducible refine Keeps.snd (by with_reducible assumption) ?_)
    | (with_reducible refine Keeps.fst (by with_reducible assumption) ?_)

theorem writeVatJobCtrl_keeps {s₀ : State} {s : State} {a v : Nat} (keep : Keeps s₀ s) :
    Keeps s₀ (writeVatJobCtrl s a v) := by
  unfold writeVatJobCtrl
  repeat' first
    | with_reducible assumption
    | (with_reducible refine fun _ (_ : Keeps s₀ _) => ?_)
    | with_reducible apply storeReg_keeps
    | with_reducible apply storeField_keeps
    | with_reducible apply Keeps.ite
    | with_reducible apply Keeps.ite1
    | with_reducible apply Keeps.ite2
    | (with_reducible refine Keeps.snd (by with_reducible assumption) ?_)
    | (with_reducible refine Keeps.fst (by with_reducible assumption) ?_)

theorem writePortCfg_keeps {s₀ : State} {s : State} {a v : Nat} (keep : Keeps s₀ s) :
    Keeps s₀ (writePortCfg s a v) := by
  unfold writePortCfg
  repeat' first
    | with_reducible assumption
    | (with_reducible refine fun _ (_ : Keeps s₀ _) => ?_)
    | (extract_lets -underBinder +onlyGivenNames x; have hx : Keeps s₀ x := ?_; on_goal 2 => dsimp only [x]; on_goal 1 => clear_value x)
    | (extract_lets -underBinder +onlyGivenNames x; have hx : Keeps s₀ x.2 := ?_; on_goal 2 => dsimp only [x]; on_goal 1 => clear_value x)
    | (extract_lets -underBinder +onlyGivenNames x; have hx : Keeps s₀ x.1 := ?_; on_goal 2 => dsimp only [x]; on_goal 1 => clear_value x)
    | (extract_lets -underBinder +onlyGivenNames x)
    | with_reducible apply storeReg_keeps
    | with_reducible apply fset_keeps
    | with_reducible apply Keeps.ite
    | with_reducible apply Keeps.ite1
    | with_reducible apply Keeps.ite2
    | (with_reducible refine Keeps.snd (by with_reducible assumption) ?_)
    | (with_reducible refine Keeps.fst (by with_reducible assumption) ?_)

theorem writeUnitCmd_keeps {s₀ : State} {s : State} {v : Nat} {kat : Bool} (keep : Keeps s₀ s) :
    Keeps s₀ (writeUnitCmd s v kat) := by
  unfold writeUnitCmd
  repeat' first
    | with_reducible assumption
    | (with_reducible refine fun _ (_ : Keeps s₀ _) => ?_)
    | (with_reducible refine fun _ _ (_ : Keeps s₀ _) => ?_)
    | (with_reducible refine fun _ _ _ (_ : Keeps s₀ _) => ?_)
    | (with_reducible refine fun _ _ _ _ (_ : Keeps s₀ _) => ?_)
    | (with_reducible refine fun _ _ _ _ _ (_ : Keeps s₀ _) => ?_)
    | (with_reducible refine fun (_ : Ctx) => ?_)
    | (extract_lets -underBinder +onlyGivenNames x; have hx : Keeps s₀ x := ?_; on_goal 2 => dsimp only [x]; on_goal 1 => clear_value x)
    | (extract_lets -underBinder +onlyGivenNames x; have hx : Keeps s₀ x.2 := ?_; on_goal 2 => dsimp only [x]; on_goal 1 => clear_value x)
    | (extract_lets -underBinder +onlyGivenNames x; have hx : Keeps s₀ x.1 := ?_; on_goal 2 => dsimp only [x]; on_goal 1 => clear_value x)
    | (extract_lets -underBinder +onlyGivenNames x)
    | with_reducible apply unitCommand_keeps
    | with_reducible apply enginesGoOn_keeps
    | with_reducible apply set1_keeps
    | with_reducible apply Keeps.ite
    | with_reducible apply Keeps.ite1
    | with_reducible apply Keeps.ite2
    | split
    | (with_reducible refine Keeps.snd (by with_reducible assumption) ?_)
    | (with_reducible refine Keeps.fst (by with_reducible assumption) ?_)

theorem execTriFence_keeps {s₀ : State} {v : BitVec 32} {s : State} (keep : Keeps s₀ s) :
    Answers s₀ (execTriFence v s) := by
  unfold execTriFence
  repeat' first
    | with_reducible assumption
    | (with_reducible refine fun _ (_ : Keeps s₀ _) => ?_)
    | with_reducible apply Answers.next
    | with_reducible apply writeUnitCmd_keeps
    | with_reducible apply Keeps.ite
    | with_reducible apply Keeps.ite1
    | with_reducible apply Keeps.ite2
    | with_reducible apply Answers.ite
    | (with_reducible refine Keeps.snd (by with_reducible assumption) ?_)
    | (with_reducible refine Keeps.fst (by with_reducible assumption) ?_)

theorem execTriUnfence_keeps {s₀ : State} {v : BitVec 32} {kat : Bool} {s : State} (keep : Keeps s₀ s) :
    Answers s₀ (execTriUnfence v kat s) := by
  unfold execTriUnfence
  repeat' first
    | with_reducible assumption
    | (with_reducible refine fun _ (_ : Keeps s₀ _) => ?_)
    | with_reducible apply Answers.next
    | with_reducible apply writeUnitCmd_keeps
    | with_reducible apply Keeps.ite
    | with_reducible apply Keeps.ite1
    | with_reducible apply Keeps.ite2
    | with_reducible apply Answers.ite
    | (with_reducible refine Keeps.snd (by with_reducible assumption) ?_)
    | (with_reducible refine Keeps.fst (by with_reducible assumption) ?_)

theorem writeUnitCmdFree_keeps {s₀ : State} {s : State} {v : Nat} (keep : Keeps s₀ s) :
    Keeps s₀ (writeUnitCmdFree s v) := by
  unfold writeUnitCmdFree
  repeat' first
    | with_reducible assumption
    | (with_reducible refine fun _ (_ : Keeps s₀ _) => ?_)
    | (extract_lets -underBinder +onlyGivenNames x; have hx : Keeps s₀ x := ?_; on_goal 2 => dsimp only [x]; on_goal 1 => clear_value x)
    | (extract_lets -underBinder +onlyGivenNames x; have hx : Keeps s₀ x.2 := ?_; on_goal 2 => dsimp only [x]; on_goal 1 => clear_value x)
    | (extract_lets -underBinder +onlyGivenNames x; have hx : Keeps s₀ x.1 := ?_; on_goal 2 => dsimp only [x]; on_goal 1 => clear_value x)
    | (extract_lets -underBinder +onlyGivenNames x)
    | with_reducible apply freeValue_keeps
    | with_reducible apply writeUnitCmd_keeps
    | split
    | (with_reducible refine Keeps.snd (by with_reducible assumption) ?_)
    | (with_reducible refine Keeps.fst (by with_reducible assumption) ?_)

theorem writeCopy_keeps {s₀ : State} {s : State} {f : Func} {r : Reg} {a b v : Nat} (keep : Keeps s₀ s) :
    Keeps s₀ (writeCopy s f r a b v) := by
  unfold writeCopy
  repeat' first
    | with_reducible assumption
    | (with_reducible refine fun _ (_ : Keeps s₀ _) => ?_)
    | (with_reducible refine fun _ _ (_ : Keeps s₀ _) => ?_)
    | (with_reducible refine fun _ _ _ (_ : Keeps s₀ _) => ?_)
    | (with_reducible refine fun _ _ _ _ (_ : Keeps s₀ _) => ?_)
    | (with_reducible refine fun _ _ _ _ _ (_ : Keeps s₀ _) => ?_)
    | (with_reducible refine fun (_ : Ctx) => ?_)
    | with_reducible apply writeLndCtrl_keeps
    | with_reducible apply writeJobTag_keeps
    | with_reducible apply writeFeCfg_keeps
    | with_reducible apply writeFeState_keeps
    | with_reducible apply writeRosCtrl_keeps
    | with_reducible apply whileAbsent_keeps
    | with_reducible apply storeReg_keeps
    | with_reducible apply writeTolCtrl_keeps
    | with_reducible apply writeCulCtrl_keeps
    | with_reducible apply writeBerths_keeps
    | with_reducible apply writeVatJobCtrl_keeps
    | with_reducible apply writeCtrl_keeps
    | with_reducible apply writeOverride_keeps
    | with_reducible apply writeRindCtrl_keeps
    | with_reducible apply writeSqCfg_keeps
    | with_reducible apply writeSqTail_keeps
    | with_reducible apply writeCqCfg_keeps
    | with_reducible apply writeCqHead_keeps
    | with_reducible apply writeEvlogCtrl_keeps
    | with_reducible apply writeTxCtrl_keeps
    | with_reducible apply writeRxTake_keeps
    | with_reducible apply writeFerryCtrl_keeps
    | with_reducible apply writePortCfg_keeps
    | with_reducible apply writeQpCfg_keeps
    | with_reducible apply writeQpPsn_keeps
    | with_reducible apply writeRegRange_keeps
    | with_reducible apply writeRegCfg_keeps
    | with_reducible apply writeSqpCtrl_keeps
    | with_reducible apply writeEvtCfg_keeps
    | with_reducible apply writeEvtRound_keeps
    | with_reducible apply writeMode_keeps
    | with_reducible apply writeCluEnv_keeps
    | with_reducible apply placementLoop_keeps
    | with_reducible apply writeJobFrac_keeps
    | with_reducible apply writePins_keeps
    | with_reducible apply writeEntCtrl_keeps
    | with_reducible apply writeSvn_keeps
    | with_reducible apply fset_keeps
    | with_reducible apply writeKstWr_keeps
    | with_reducible apply writeChal_keeps
    | with_reducible apply writeUnitCmdFree_keeps
    | with_reducible apply writePmuCtrl_keeps
    | with_reducible apply writePmuValue_keeps
    | with_reducible apply writeGrant_keeps
    | with_reducible apply writeSbufRd_keeps
    | with_reducible apply writePwrCtrl_keeps
    | with_reducible apply writeTstCtrl_keeps
    | with_reducible apply Keeps.ite
    | with_reducible apply Keeps.ite1
    | with_reducible apply Keeps.ite2
    | split
    | (with_reducible refine Keeps.snd (by with_reducible assumption) ?_)
    | (with_reducible refine Keeps.fst (by with_reducible assumption) ?_)
    | (fail_if_no_progress with_reducible apply Keeps.other)

theorem writeAt_keeps {s₀ : State} {s : State} {f : Func} {off size v : Nat} (keep : Keeps s₀ s) :
    Keeps s₀ (writeAt s f off size v) := by
  unfold writeAt
  repeat' first
    | with_reducible assumption
    | (with_reducible refine fun _ (_ : Keeps s₀ _) => ?_)
    | with_reducible apply writeCopy_keeps
    | with_reducible apply countAccess_keeps
    | split
    | (with_reducible refine Keeps.snd (by with_reducible assumption) ?_)
    | (with_reducible refine Keeps.fst (by with_reducible assumption) ?_)
    | (fail_if_no_progress with_reducible apply Keeps.other)

theorem execRegisterWrite_keeps {s₀ : State} {f : Func} {off : Nat} {size : Nat} {v : Word} {s : State} (keep : Keeps s₀ s) :
    Answers s₀ (execRegisterWrite f off size v s) := by
  unfold execRegisterWrite
  repeat' first
    | with_reducible assumption
    | (with_reducible refine fun _ (_ : Keeps s₀ _) => ?_)
    | with_reducible apply Answers.next
    | with_reducible apply writeAt_keeps
    | (with_reducible refine Keeps.snd (by with_reducible assumption) ?_)
    | (with_reducible refine Keeps.fst (by with_reducible assumption) ?_)

end Sys2Proof.Machine
end

