-- ==== Sys2Proof/Laws/State.lean ====
section
/-! SUPPORT. One lemma for each field and each update of the state, and what a field of the register file, a job, a round, a ring, a channel, a queue pair, a context and an array read as after an update. -/

namespace Sys2Proof.Machine

variable (s : State) (f : Fld) (a b v : Nat) (o : Output) (j : JobId) (g : Job → Job) (r : Nat) (h : Round → Round) (p : Func)
  (k : Ring2 → Ring2) (ws : List Nat) (c : Fin 64) (ch : Channel → Channel) (n : Nat) (q : Qp → Qp) (x : CtxId) (y : Ctx) (e : Fin 8)
  (ar : ArrayRec)

/-! A field of the register file. -/

@[simp] theorem set1_eq : set1 s f v = fset s f 0 0 v := rfl
@[simp] theorem ev_eq : ev s f = fset s f 0 0 1 := rfl
@[simp] theorem get1_eq : get1 s f = fget s f 0 0 := rfl
@[simp] theorem raise_eq (i : Nat) : raise s p i = emit s (.vector p i) := rfl

/-- A field read after a field was set: the value cut to the width, or the field as it was. -/
theorem fget_fset (f' : Fld) (a' b' : Nat) :
    fget (fset s f a b v) f' a' b' = if f.key a b = f'.key a' b' then (if f.reset = f'.reset then v % 2 ^ f.width else fget (fset s f a b v) f' a' b')
      else fget s f' a' b' := by
  split
  · rename_i hk
    split
    · rename_i hr
      unfold fget fset
      rw [← hk, ← hr]
      exact (readD_putD _ _ _ _ _ _).trans (if_pos rfl)
    · rfl
  · rename_i hk
    unfold fget fset putD
    simp only
    unfold readD
    split
    · rw [lookup_dropKey, if_neg (Ne.symm hk)]
    · rw [lookup_put, if_neg hk]

/-- A field read after it was set. -/
@[simp] theorem fget_fset_self : fget (fset s f a b v) f a b = v % 2 ^ f.width := by simp [fget_fset]

/-- A field read after a field of another key was set. -/
theorem fget_fset_ne (f' : Fld) (a' b' : Nat) (hk : f.key a b ≠ f'.key a' b') : fget (fset s f a b v) f' a' b' = fget s f' a' b' := by
  rw [fget_fset, if_neg hk]

@[simp] theorem fget_emit : fget (emit s o) f a b = fget s f a b := rfl
@[simp] theorem fget_modJob : fget (s.modJob j g) f a b = fget s f a b := rfl
@[simp] theorem fget_modRound : fget (s.modRound j r h) f a b = fget s f a b := rfl
@[simp] theorem fget_modRing : fget (s.modRing p k) f a b = fget s f a b := rfl
@[simp] theorem fget_setLog : fget (s.setLog p ws) f a b = fget s f a b := rfl
@[simp] theorem fget_modChan : fget (s.modChan c ch) f a b = fget s f a b := rfl
@[simp] theorem fget_modQp : fget (s.modQp n q) f a b = fget s f a b := rfl
@[simp] theorem fget_setCtx : fget (s.setCtx x y) f a b = fget s f a b := rfl
@[simp] theorem fget_setArray : fget (s.setArray e ar) f a b = fget s f a b := rfl

/-! What is read after an update of the same kind. -/

@[simp] theorem job_modJob : (s.modJob j g).job j = g (s.job j) := by simp [State.modJob, State.job]

@[simp] theorem job_modJob_ne (i : JobId) (hi : j ≠ i) : (s.modJob j g).job i = s.job i := by
  have hne : (j : Nat) ≠ i := fun e => hi (Fin.ext e)
  simp [State.modJob, State.job, hne]

/-- A round read after it was changed by a change that keeps its number. -/
theorem round?_modRound (z : Round) (hz : s.round? j r = some z) (hn : ∀ w : Round, (h w).number = w.number) :
    (s.modRound j r h).round? j r = some (h z) := by
  simp only [State.round?, Job.round?, State.modRound, job_modJob] at hz ⊢
  generalize (s.job j).rounds = l at hz
  induction l with
  | nil => simp at hz
  | cons w l ih =>
    by_cases hw : w.number == r
    · simp only [List.find?_cons, hw, Option.some.injEq] at hz
      subst hz
      have hw' : w.number = r := by simpa using hw
      simp [hn, hw']
    · simp only [List.find?_cons, hw] at hz
      simp only [List.map_cons, List.find?_cons, hw, Bool.false_eq_true, if_false]
      exact ih hz

@[simp] theorem ring_modRing : (s.modRing p k).ring p = k (s.ring p) := by simp [State.modRing, State.ring]
@[simp] theorem log_setLog : (s.setLog p ws).log p = ws := by simp [State.setLog, State.log]
@[simp] theorem chan_modChan : (s.modChan c ch).chan c = ch (s.chan c) := by simp [State.modChan, State.chan]
@[simp] theorem qp_modQp : (s.modQp n q).qp n = q (s.qp n) := by simp [State.modQp, State.qp, readD]
@[simp] theorem ctx?_setCtx : (s.setCtx x y).ctx? x = some y := by simp [State.setCtx, State.ctx?]
@[simp] theorem array_setArray : (s.setArray e ar).array e = ar := by simp [State.setArray, State.array]

@[simp] theorem job_fset : (fset s f a b v).job j = s.job j := rfl
@[simp] theorem job_emit : (emit s o).job j = s.job j := rfl
@[simp] theorem job_modRing : (s.modRing p k).job j = s.job j := rfl
@[simp] theorem job_setLog : (s.setLog p ws).job j = s.job j := rfl
@[simp] theorem job_modChan : (s.modChan c ch).job j = s.job j := rfl
@[simp] theorem job_modQp : (s.modQp n q).job j = s.job j := rfl
@[simp] theorem job_setCtx : (s.setCtx x y).job j = s.job j := rfl
@[simp] theorem job_setArray : (s.setArray e ar).job j = s.job j := rfl
@[simp] theorem round?_fset : (fset s f a b v).round? j r = s.round? j r := rfl
@[simp] theorem round?_emit : (emit s o).round? j r = s.round? j r := rfl
@[simp] theorem round?_modRing : (s.modRing p k).round? j r = s.round? j r := rfl
@[simp] theorem round?_setLog : (s.setLog p ws).round? j r = s.round? j r := rfl
@[simp] theorem round?_modChan : (s.modChan c ch).round? j r = s.round? j r := rfl
@[simp] theorem round?_modQp : (s.modQp n q).round? j r = s.round? j r := rfl
@[simp] theorem round?_setCtx : (s.setCtx x y).round? j r = s.round? j r := rfl
@[simp] theorem round?_setArray : (s.setArray e ar).round? j r = s.round? j r := rfl
@[simp] theorem ring_fset : (fset s f a b v).ring p = s.ring p := rfl
@[simp] theorem ring_emit : (emit s o).ring p = s.ring p := rfl
@[simp] theorem ring_modJob : (s.modJob j g).ring p = s.ring p := rfl
@[simp] theorem ring_modRound : (s.modRound j r h).ring p = s.ring p := rfl
@[simp] theorem ring_setLog : (s.setLog p ws).ring p = s.ring p := rfl
@[simp] theorem ring_modChan : (s.modChan c ch).ring p = s.ring p := rfl
@[simp] theorem ring_modQp : (s.modQp n q).ring p = s.ring p := rfl
@[simp] theorem ring_setCtx : (s.setCtx x y).ring p = s.ring p := rfl
@[simp] theorem ring_setArray : (s.setArray e ar).ring p = s.ring p := rfl
@[simp] theorem log_fset : (fset s f a b v).log p = s.log p := rfl
@[simp] theorem log_emit : (emit s o).log p = s.log p := rfl
@[simp] theorem log_modJob : (s.modJob j g).log p = s.log p := rfl
@[simp] theorem log_modRound : (s.modRound j r h).log p = s.log p := rfl
@[simp] theorem log_modRing : (s.modRing p k).log p = s.log p := rfl
@[simp] theorem log_modChan : (s.modChan c ch).log p = s.log p := rfl
@[simp] theorem log_modQp : (s.modQp n q).log p = s.log p := rfl
@[simp] theorem log_setCtx : (s.setCtx x y).log p = s.log p := rfl
@[simp] theorem log_setArray : (s.setArray e ar).log p = s.log p := rfl
@[simp] theorem chan_fset : (fset s f a b v).chan c = s.chan c := rfl
@[simp] theorem chan_emit : (emit s o).chan c = s.chan c := rfl
@[simp] theorem chan_modJob : (s.modJob j g).chan c = s.chan c := rfl
@[simp] theorem chan_modRound : (s.modRound j r h).chan c = s.chan c := rfl
@[simp] theorem chan_modRing : (s.modRing p k).chan c = s.chan c := rfl
@[simp] theorem chan_setLog : (s.setLog p ws).chan c = s.chan c := rfl
@[simp] theorem chan_modQp : (s.modQp n q).chan c = s.chan c := rfl
@[simp] theorem chan_setCtx : (s.setCtx x y).chan c = s.chan c := rfl
@[simp] theorem chan_setArray : (s.setArray e ar).chan c = s.chan c := rfl
@[simp] theorem qp_fset : (fset s f a b v).qp n = s.qp n := rfl
@[simp] theorem qp_emit : (emit s o).qp n = s.qp n := rfl
@[simp] theorem qp_modJob : (s.modJob j g).qp n = s.qp n := rfl
@[simp] theorem qp_modRound : (s.modRound j r h).qp n = s.qp n := rfl
@[simp] theorem qp_modRing : (s.modRing p k).qp n = s.qp n := rfl
@[simp] theorem qp_setLog : (s.setLog p ws).qp n = s.qp n := rfl
@[simp] theorem qp_modChan : (s.modChan c ch).qp n = s.qp n := rfl
@[simp] theorem qp_setCtx : (s.setCtx x y).qp n = s.qp n := rfl
@[simp] theorem qp_setArray : (s.setArray e ar).qp n = s.qp n := rfl
@[simp] theorem ctx?_fset : (fset s f a b v).ctx? x = s.ctx? x := rfl
@[simp] theorem ctx?_emit : (emit s o).ctx? x = s.ctx? x := rfl
@[simp] theorem ctx?_modJob : (s.modJob j g).ctx? x = s.ctx? x := rfl
@[simp] theorem ctx?_modRound : (s.modRound j r h).ctx? x = s.ctx? x := rfl
@[simp] theorem ctx?_modRing : (s.modRing p k).ctx? x = s.ctx? x := rfl
@[simp] theorem ctx?_setLog : (s.setLog p ws).ctx? x = s.ctx? x := rfl
@[simp] theorem ctx?_modChan : (s.modChan c ch).ctx? x = s.ctx? x := rfl
@[simp] theorem ctx?_modQp : (s.modQp n q).ctx? x = s.ctx? x := rfl
@[simp] theorem ctx?_setArray : (s.setArray e ar).ctx? x = s.ctx? x := rfl
@[simp] theorem array_fset : (fset s f a b v).array e = s.array e := rfl
@[simp] theorem array_emit : (emit s o).array e = s.array e := rfl
@[simp] theorem array_modJob : (s.modJob j g).array e = s.array e := rfl
@[simp] theorem array_modRound : (s.modRound j r h).array e = s.array e := rfl
@[simp] theorem array_modRing : (s.modRing p k).array e = s.array e := rfl
@[simp] theorem array_setLog : (s.setLog p ws).array e = s.array e := rfl
@[simp] theorem array_modChan : (s.modChan c ch).array e = s.array e := rfl
@[simp] theorem array_modQp : (s.modQp n q).array e = s.array e := rfl
@[simp] theorem array_setCtx : (s.setCtx x y).array e = s.array e := rfl
@[simp] theorem alive_fset : (fset s f a b v).alive j = s.alive j := rfl
@[simp] theorem alive_emit : (emit s o).alive j = s.alive j := rfl
@[simp] theorem alive_modRing : (s.modRing p k).alive j = s.alive j := rfl
@[simp] theorem alive_setLog : (s.setLog p ws).alive j = s.alive j := rfl
@[simp] theorem alive_modChan : (s.modChan c ch).alive j = s.alive j := rfl
@[simp] theorem alive_modQp : (s.modQp n q).alive j = s.alive j := rfl
@[simp] theorem alive_setCtx : (s.setCtx x y).alive j = s.alive j := rfl
@[simp] theorem alive_setArray : (s.setArray e ar).alive j = s.alive j := rfl

/-! The fields of the state. -/

@[simp] theorem fset_pending : (fset s f a b v).pending = s.pending := rfl
@[simp] theorem fset_now : (fset s f a b v).now = s.now := rfl
@[simp] theorem fset_clock : (fset s f a b v).clock = s.clock := rfl
@[simp] theorem fset_slew : (fset s f a b v).slew = s.slew := rfl
@[simp] theorem fset_slewTicks : (fset s f a b v).slewTicks = s.slewTicks := rfl
@[simp] theorem fset_goodOffsets : (fset s f a b v).goodOffsets = s.goodOffsets := rfl
@[simp] theorem fset_lastSync : (fset s f a b v).lastSync = s.lastSync := rfl
@[simp] theorem fset_lastAnnounce : (fset s f a b v).lastAnnounce = s.lastAnnounce := rfl
@[simp] theorem fset_best : (fset s f a b v).best = s.best := rfl
@[simp] theorem fset_holdStart : (fset s f a b v).holdStart = s.holdStart := rfl
@[simp] theorem fset_holdErr : (fset s f a b v).holdErr = s.holdErr := rfl
@[simp] theorem fset_lastPps : (fset s f a b v).lastPps = s.lastPps := rfl
@[simp] theorem fset_mem : (fset s f a b v).mem = s.mem := rfl
@[simp] theorem fset_poison : (fset s f a b v).poison = s.poison := rfl
@[simp] theorem fset_hdm : (fset s f a b v).hdm = s.hdm := rfl
@[simp] theorem fset_jobs : (fset s f a b v).jobs = s.jobs := rfl
@[simp] theorem fset_roster : (fset s f a b v).roster = s.roster := rfl
@[simp] theorem fset_cached : (fset s f a b v).cached = s.cached := rfl
@[simp] theorem fset_dirty : (fset s f a b v).dirty = s.dirty := rfl
@[simp] theorem fset_txns : (fset s f a b v).txns = s.txns := rfl
@[simp] theorem fset_nextTxn : (fset s f a b v).nextTxn = s.nextTxn := rfl
@[simp] theorem fset_feOut : (fset s f a b v).feOut = s.feOut := rfl
@[simp] theorem fset_feSeen : (fset s f a b v).feSeen = s.feSeen := rfl
@[simp] theorem fset_waitingChunks : (fset s f a b v).waitingChunks = s.waitingChunks := rfl
@[simp] theorem fset_rings : (fset s f a b v).rings = s.rings := rfl
@[simp] theorem fset_logs : (fset s f a b v).logs = s.logs := rfl
@[simp] theorem fset_logLost : (fset s f a b v).logLost = s.logLost := rfl
@[simp] theorem fset_channels : (fset s f a b v).channels = s.channels := rfl
@[simp] theorem fset_hailCount : (fset s f a b v).hailCount = s.hailCount := rfl
@[simp] theorem fset_hailSession : (fset s f a b v).hailSession = s.hailSession := rfl
@[simp] theorem fset_hailDue : (fset s f a b v).hailDue = s.hailDue := rfl
@[simp] theorem fset_qps : (fset s f a b v).qps = s.qps := rfl
@[simp] theorem fset_openWrites : (fset s f a b v).openWrites = s.openWrites := rfl
@[simp] theorem fset_revoking : (fset s f a b v).revoking = s.revoking := rfl
@[simp] theorem fset_missQueue : (fset s f a b v).missQueue = s.missQueue := rfl
@[simp] theorem fset_qpUse : (fset s f a b v).qpUse = s.qpUse := rfl
@[simp] theorem fset_contexts : (fset s f a b v).contexts = s.contexts := rfl
@[simp] theorem fset_waiting : (fset s f a b v).waiting = s.waiting := rfl
@[simp] theorem fset_store : (fset s f a b v).store = s.store := rfl
@[simp] theorem fset_arrays : (fset s f a b v).arrays = s.arrays := rfl
@[simp] theorem fset_groups : (fset s f a b v).groups = s.groups := rfl
@[simp] theorem fset_opCount : (fset s f a b v).opCount = s.opCount := rfl
@[simp] theorem fset_handles : (fset s f a b v).handles = s.handles := rfl
@[simp] theorem fset_locks : (fset s f a b v).locks = s.locks := rfl
@[simp] theorem fset_lockWait : (fset s f a b v).lockWait = s.lockWait := rfl
@[simp] theorem fset_armed : (fset s f a b v).armed = s.armed := rfl
@[simp] theorem fset_passed : (fset s f a b v).passed = s.passed := rfl
@[simp] theorem fset_unitFaults : (fset s f a b v).unitFaults = s.unitFaults := rfl
@[simp] theorem fset_remap : (fset s f a b v).remap = s.remap := rfl
@[simp] theorem fset_scrubRead : (fset s f a b v).scrubRead = s.scrubRead := rfl
@[simp] theorem fset_scrubNext : (fset s f a b v).scrubNext = s.scrubNext := rfl
@[simp] theorem fset_noiseFifo : (fset s f a b v).noiseFifo = s.noiseFifo := rfl
@[simp] theorem fset_katRuns : (fset s f a b v).katRuns = s.katRuns := rfl
@[simp] theorem fset_wireWait : (fset s f a b v).wireWait = s.wireWait := rfl
@[simp] theorem fset_staged : (fset s f a b v).staged = s.staged := rfl
@[simp] theorem fset_swBytes : (fset s f a b v).swBytes = s.swBytes := rfl
@[simp] theorem fset_reseedAt : (fset s f a b v).reseedAt = s.reseedAt := rfl
@[simp] theorem fset_genCount : (fset s f a b v).genCount = s.genCount := rfl
@[simp] theorem fset_latches : (fset s f a b v).latches = s.latches := rfl
@[simp] theorem fset_keyMat : (fset s f a b v).keyMat = s.keyMat := rfl
@[simp] theorem fset_keyTag : (fset s f a b v).keyTag = s.keyTag := rfl
@[simp] theorem fset_aliasPriv : (fset s f a b v).aliasPriv = s.aliasPriv := rfl
@[simp] theorem fset_devidPub : (fset s f a b v).devidPub = s.devidPub := rfl
@[simp] theorem fset_endorse : (fset s f a b v).endorse = s.endorse := rfl
@[simp] theorem fset_tagKey : (fset s f a b v).tagKey = s.tagKey := rfl
@[simp] theorem fset_fwVersion : (fset s f a b v).fwVersion = s.fwVersion := rfl
@[simp] theorem fset_fuseSvn : (fset s f a b v).fuseSvn = s.fuseSvn := rfl
@[simp] theorem fset_flash : (fset s f a b v).flash = s.flash := rfl
@[simp] theorem fset_spdm : (fset s f a b v).spdm = s.spdm := rfl
@[simp] theorem fset_tspLocked : (fset s f a b v).tspLocked = s.tspLocked := rfl
@[simp] theorem fset_ideOn : (fset s f a b v).ideOn = s.ideOn := rfl
@[simp] theorem fset_inputOn : (fset s f a b v).inputOn = s.inputOn := rfl
@[simp] theorem fset_holds : (fset s f a b v).holds = s.holds := rfl
@[simp] theorem fset_trips : (fset s f a b v).trips = s.trips := rfl
@[simp] theorem fset_lastBoot : (fset s f a b v).lastBoot = s.lastBoot := rfl
@[simp] theorem fset_outageFrom : (fset s f a b v).outageFrom = s.outageFrom := rfl
@[simp] theorem fset_domMoves : (fset s f a b v).domMoves = s.domMoves := rfl
@[simp] theorem fset_portDown : (fset s f a b v).portDown = s.portDown := rfl
@[simp] theorem fset_throttleCap : (fset s f a b v).throttleCap = s.throttleCap := rfl
@[simp] theorem fset_hotPorts : (fset s f a b v).hotPorts = s.hotPorts := rfl
@[simp] theorem fset_throttleAt : (fset s f a b v).throttleAt = s.throttleAt := rfl
@[simp] theorem fset_dvfsAt : (fset s f a b v).dvfsAt = s.dvfsAt := rfl
@[simp] theorem fset_creditAt : (fset s f a b v).creditAt = s.creditAt := rfl
@[simp] theorem fset_trst : (fset s f a b v).trst = s.trst := rfl
@[simp] theorem fset_testMode : (fset s f a b v).testMode = s.testMode := rfl
@[simp] theorem fset_cells : (fset s f a b v).cells = s.cells := rfl
@[simp] theorem fset_peakBase : (fset s f a b v).peakBase = s.peakBase := rfl
@[simp] theorem fset_peakRead : (fset s f a b v).peakRead = s.peakRead := rfl
@[simp] theorem fset_pmuPart : (fset s f a b v).pmuPart = s.pmuPart := rfl
@[simp] theorem fset_pmuLast : (fset s f a b v).pmuLast = s.pmuLast := rfl
@[simp] theorem fset_countdown : (fset s f a b v).countdown = s.countdown := rfl
@[simp] theorem fset_lfsr : (fset s f a b v).lfsr = s.lfsr := rfl
@[simp] theorem fset_tags : (fset s f a b v).tags = s.tags := rfl
@[simp] theorem fset_tagNo : (fset s f a b v).tagNo = s.tagNo := rfl
@[simp] theorem fset_sampleLost : (fset s f a b v).sampleLost = s.sampleLost := rfl
@[simp] theorem fset_fresh : (fset s f a b v).fresh = s.fresh := rfl
@[simp] theorem fset_out : (fset s f a b v).out = s.out := rfl
@[simp] theorem emit_pending : (emit s o).pending = s.pending := rfl
@[simp] theorem emit_regs : (emit s o).regs = s.regs := rfl
@[simp] theorem emit_now : (emit s o).now = s.now := rfl
@[simp] theorem emit_clock : (emit s o).clock = s.clock := rfl
@[simp] theorem emit_slew : (emit s o).slew = s.slew := rfl
@[simp] theorem emit_slewTicks : (emit s o).slewTicks = s.slewTicks := rfl
@[simp] theorem emit_goodOffsets : (emit s o).goodOffsets = s.goodOffsets := rfl
@[simp] theorem emit_lastSync : (emit s o).lastSync = s.lastSync := rfl
@[simp] theorem emit_lastAnnounce : (emit s o).lastAnnounce = s.lastAnnounce := rfl
@[simp] theorem emit_best : (emit s o).best = s.best := rfl
@[simp] theorem emit_holdStart : (emit s o).holdStart = s.holdStart := rfl
@[simp] theorem emit_holdErr : (emit s o).holdErr = s.holdErr := rfl
@[simp] theorem emit_lastPps : (emit s o).lastPps = s.lastPps := rfl
@[simp] theorem emit_mem : (emit s o).mem = s.mem := rfl
@[simp] theorem emit_poison : (emit s o).poison = s.poison := rfl
@[simp] theorem emit_hdm : (emit s o).hdm = s.hdm := rfl
@[simp] theorem emit_jobs : (emit s o).jobs = s.jobs := rfl
@[simp] theorem emit_roster : (emit s o).roster = s.roster := rfl
@[simp] theorem emit_cached : (emit s o).cached = s.cached := rfl
@[simp] theorem emit_dirty : (emit s o).dirty = s.dirty := rfl
@[simp] theorem emit_txns : (emit s o).txns = s.txns := rfl
@[simp] theorem emit_nextTxn : (emit s o).nextTxn = s.nextTxn := rfl
@[simp] theorem emit_feOut : (emit s o).feOut = s.feOut := rfl
@[simp] theorem emit_feSeen : (emit s o).feSeen = s.feSeen := rfl
@[simp] theorem emit_waitingChunks : (emit s o).waitingChunks = s.waitingChunks := rfl
@[simp] theorem emit_rings : (emit s o).rings = s.rings := rfl
@[simp] theorem emit_logs : (emit s o).logs = s.logs := rfl
@[simp] theorem emit_logLost : (emit s o).logLost = s.logLost := rfl
@[simp] theorem emit_channels : (emit s o).channels = s.channels := rfl
@[simp] theorem emit_hailCount : (emit s o).hailCount = s.hailCount := rfl
@[simp] theorem emit_hailSession : (emit s o).hailSession = s.hailSession := rfl
@[simp] theorem emit_hailDue : (emit s o).hailDue = s.hailDue := rfl
@[simp] theorem emit_qps : (emit s o).qps = s.qps := rfl
@[simp] theorem emit_openWrites : (emit s o).openWrites = s.openWrites := rfl
@[simp] theorem emit_revoking : (emit s o).revoking = s.revoking := rfl
@[simp] theorem emit_missQueue : (emit s o).missQueue = s.missQueue := rfl
@[simp] theorem emit_qpUse : (emit s o).qpUse = s.qpUse := rfl
@[simp] theorem emit_contexts : (emit s o).contexts = s.contexts := rfl
@[simp] theorem emit_waiting : (emit s o).waiting = s.waiting := rfl
@[simp] theorem emit_store : (emit s o).store = s.store := rfl
@[simp] theorem emit_arrays : (emit s o).arrays = s.arrays := rfl
@[simp] theorem emit_groups : (emit s o).groups = s.groups := rfl
@[simp] theorem emit_opCount : (emit s o).opCount = s.opCount := rfl
@[simp] theorem emit_handles : (emit s o).handles = s.handles := rfl
@[simp] theorem emit_locks : (emit s o).locks = s.locks := rfl
@[simp] theorem emit_lockWait : (emit s o).lockWait = s.lockWait := rfl
@[simp] theorem emit_armed : (emit s o).armed = s.armed := rfl
@[simp] theorem emit_passed : (emit s o).passed = s.passed := rfl
@[simp] theorem emit_unitFaults : (emit s o).unitFaults = s.unitFaults := rfl
@[simp] theorem emit_remap : (emit s o).remap = s.remap := rfl
@[simp] theorem emit_scrubRead : (emit s o).scrubRead = s.scrubRead := rfl
@[simp] theorem emit_scrubNext : (emit s o).scrubNext = s.scrubNext := rfl
@[simp] theorem emit_noiseFifo : (emit s o).noiseFifo = s.noiseFifo := rfl
@[simp] theorem emit_katRuns : (emit s o).katRuns = s.katRuns := rfl
@[simp] theorem emit_wireWait : (emit s o).wireWait = s.wireWait := rfl
@[simp] theorem emit_staged : (emit s o).staged = s.staged := rfl
@[simp] theorem emit_swBytes : (emit s o).swBytes = s.swBytes := rfl
@[simp] theorem emit_reseedAt : (emit s o).reseedAt = s.reseedAt := rfl
@[simp] theorem emit_genCount : (emit s o).genCount = s.genCount := rfl
@[simp] theorem emit_latches : (emit s o).latches = s.latches := rfl
@[simp] theorem emit_keyMat : (emit s o).keyMat = s.keyMat := rfl
@[simp] theorem emit_keyTag : (emit s o).keyTag = s.keyTag := rfl
@[simp] theorem emit_aliasPriv : (emit s o).aliasPriv = s.aliasPriv := rfl
@[simp] theorem emit_devidPub : (emit s o).devidPub = s.devidPub := rfl
@[simp] theorem emit_endorse : (emit s o).endorse = s.endorse := rfl
@[simp] theorem emit_tagKey : (emit s o).tagKey = s.tagKey := rfl
@[simp] theorem emit_fwVersion : (emit s o).fwVersion = s.fwVersion := rfl
@[simp] theorem emit_fuseSvn : (emit s o).fuseSvn = s.fuseSvn := rfl
@[simp] theorem emit_flash : (emit s o).flash = s.flash := rfl
@[simp] theorem emit_spdm : (emit s o).spdm = s.spdm := rfl
@[simp] theorem emit_tspLocked : (emit s o).tspLocked = s.tspLocked := rfl
@[simp] theorem emit_ideOn : (emit s o).ideOn = s.ideOn := rfl
@[simp] theorem emit_inputOn : (emit s o).inputOn = s.inputOn := rfl
@[simp] theorem emit_holds : (emit s o).holds = s.holds := rfl
@[simp] theorem emit_trips : (emit s o).trips = s.trips := rfl
@[simp] theorem emit_lastBoot : (emit s o).lastBoot = s.lastBoot := rfl
@[simp] theorem emit_outageFrom : (emit s o).outageFrom = s.outageFrom := rfl
@[simp] theorem emit_domMoves : (emit s o).domMoves = s.domMoves := rfl
@[simp] theorem emit_portDown : (emit s o).portDown = s.portDown := rfl
@[simp] theorem emit_throttleCap : (emit s o).throttleCap = s.throttleCap := rfl
@[simp] theorem emit_hotPorts : (emit s o).hotPorts = s.hotPorts := rfl
@[simp] theorem emit_throttleAt : (emit s o).throttleAt = s.throttleAt := rfl
@[simp] theorem emit_dvfsAt : (emit s o).dvfsAt = s.dvfsAt := rfl
@[simp] theorem emit_creditAt : (emit s o).creditAt = s.creditAt := rfl
@[simp] theorem emit_trst : (emit s o).trst = s.trst := rfl
@[simp] theorem emit_testMode : (emit s o).testMode = s.testMode := rfl
@[simp] theorem emit_cells : (emit s o).cells = s.cells := rfl
@[simp] theorem emit_peakBase : (emit s o).peakBase = s.peakBase := rfl
@[simp] theorem emit_peakRead : (emit s o).peakRead = s.peakRead := rfl
@[simp] theorem emit_pmuPart : (emit s o).pmuPart = s.pmuPart := rfl
@[simp] theorem emit_pmuLast : (emit s o).pmuLast = s.pmuLast := rfl
@[simp] theorem emit_countdown : (emit s o).countdown = s.countdown := rfl
@[simp] theorem emit_lfsr : (emit s o).lfsr = s.lfsr := rfl
@[simp] theorem emit_tags : (emit s o).tags = s.tags := rfl
@[simp] theorem emit_tagNo : (emit s o).tagNo = s.tagNo := rfl
@[simp] theorem emit_sampleLost : (emit s o).sampleLost = s.sampleLost := rfl
@[simp] theorem emit_fresh : (emit s o).fresh = s.fresh := rfl
@[simp] theorem modJob_pending : (s.modJob j g).pending = s.pending := rfl
@[simp] theorem modJob_regs : (s.modJob j g).regs = s.regs := rfl
@[simp] theorem modJob_now : (s.modJob j g).now = s.now := rfl
@[simp] theorem modJob_clock : (s.modJob j g).clock = s.clock := rfl
@[simp] theorem modJob_slew : (s.modJob j g).slew = s.slew := rfl
@[simp] theorem modJob_slewTicks : (s.modJob j g).slewTicks = s.slewTicks := rfl
@[simp] theorem modJob_goodOffsets : (s.modJob j g).goodOffsets = s.goodOffsets := rfl
@[simp] theorem modJob_lastSync : (s.modJob j g).lastSync = s.lastSync := rfl
@[simp] theorem modJob_lastAnnounce : (s.modJob j g).lastAnnounce = s.lastAnnounce := rfl
@[simp] theorem modJob_best : (s.modJob j g).best = s.best := rfl
@[simp] theorem modJob_holdStart : (s.modJob j g).holdStart = s.holdStart := rfl
@[simp] theorem modJob_holdErr : (s.modJob j g).holdErr = s.holdErr := rfl
@[simp] theorem modJob_lastPps : (s.modJob j g).lastPps = s.lastPps := rfl
@[simp] theorem modJob_mem : (s.modJob j g).mem = s.mem := rfl
@[simp] theorem modJob_poison : (s.modJob j g).poison = s.poison := rfl
@[simp] theorem modJob_hdm : (s.modJob j g).hdm = s.hdm := rfl
@[simp] theorem modJob_roster : (s.modJob j g).roster = s.roster := rfl
@[simp] theorem modJob_cached : (s.modJob j g).cached = s.cached := rfl
@[simp] theorem modJob_dirty : (s.modJob j g).dirty = s.dirty := rfl
@[simp] theorem modJob_txns : (s.modJob j g).txns = s.txns := rfl
@[simp] theorem modJob_nextTxn : (s.modJob j g).nextTxn = s.nextTxn := rfl
@[simp] theorem modJob_feOut : (s.modJob j g).feOut = s.feOut := rfl
@[simp] theorem modJob_feSeen : (s.modJob j g).feSeen = s.feSeen := rfl
@[simp] theorem modJob_waitingChunks : (s.modJob j g).waitingChunks = s.waitingChunks := rfl
@[simp] theorem modJob_rings : (s.modJob j g).rings = s.rings := rfl
@[simp] theorem modJob_logs : (s.modJob j g).logs = s.logs := rfl
@[simp] theorem modJob_logLost : (s.modJob j g).logLost = s.logLost := rfl
@[simp] theorem modJob_channels : (s.modJob j g).channels = s.channels := rfl
@[simp] theorem modJob_hailCount : (s.modJob j g).hailCount = s.hailCount := rfl
@[simp] theorem modJob_hailSession : (s.modJob j g).hailSession = s.hailSession := rfl
@[simp] theorem modJob_hailDue : (s.modJob j g).hailDue = s.hailDue := rfl
@[simp] theorem modJob_qps : (s.modJob j g).qps = s.qps := rfl
@[simp] theorem modJob_openWrites : (s.modJob j g).openWrites = s.openWrites := rfl
@[simp] theorem modJob_revoking : (s.modJob j g).revoking = s.revoking := rfl
@[simp] theorem modJob_missQueue : (s.modJob j g).missQueue = s.missQueue := rfl
@[simp] theorem modJob_qpUse : (s.modJob j g).qpUse = s.qpUse := rfl
@[simp] theorem modJob_contexts : (s.modJob j g).contexts = s.contexts := rfl
@[simp] theorem modJob_waiting : (s.modJob j g).waiting = s.waiting := rfl
@[simp] theorem modJob_store : (s.modJob j g).store = s.store := rfl
@[simp] theorem modJob_arrays : (s.modJob j g).arrays = s.arrays := rfl
@[simp] theorem modJob_groups : (s.modJob j g).groups = s.groups := rfl
@[simp] theorem modJob_opCount : (s.modJob j g).opCount = s.opCount := rfl
@[simp] theorem modJob_handles : (s.modJob j g).handles = s.handles := rfl
@[simp] theorem modJob_locks : (s.modJob j g).locks = s.locks := rfl
@[simp] theorem modJob_lockWait : (s.modJob j g).lockWait = s.lockWait := rfl
@[simp] theorem modJob_armed : (s.modJob j g).armed = s.armed := rfl
@[simp] theorem modJob_passed : (s.modJob j g).passed = s.passed := rfl
@[simp] theorem modJob_unitFaults : (s.modJob j g).unitFaults = s.unitFaults := rfl
@[simp] theorem modJob_remap : (s.modJob j g).remap = s.remap := rfl
@[simp] theorem modJob_scrubRead : (s.modJob j g).scrubRead = s.scrubRead := rfl
@[simp] theorem modJob_scrubNext : (s.modJob j g).scrubNext = s.scrubNext := rfl
@[simp] theorem modJob_noiseFifo : (s.modJob j g).noiseFifo = s.noiseFifo := rfl
@[simp] theorem modJob_katRuns : (s.modJob j g).katRuns = s.katRuns := rfl
@[simp] theorem modJob_wireWait : (s.modJob j g).wireWait = s.wireWait := rfl
@[simp] theorem modJob_staged : (s.modJob j g).staged = s.staged := rfl
@[simp] theorem modJob_swBytes : (s.modJob j g).swBytes = s.swBytes := rfl
@[simp] theorem modJob_reseedAt : (s.modJob j g).reseedAt = s.reseedAt := rfl
@[simp] theorem modJob_genCount : (s.modJob j g).genCount = s.genCount := rfl
@[simp] theorem modJob_latches : (s.modJob j g).latches = s.latches := rfl
@[simp] theorem modJob_keyMat : (s.modJob j g).keyMat = s.keyMat := rfl
@[simp] theorem modJob_keyTag : (s.modJob j g).keyTag = s.keyTag := rfl
@[simp] theorem modJob_aliasPriv : (s.modJob j g).aliasPriv = s.aliasPriv := rfl
@[simp] theorem modJob_devidPub : (s.modJob j g).devidPub = s.devidPub := rfl
@[simp] theorem modJob_endorse : (s.modJob j g).endorse = s.endorse := rfl
@[simp] theorem modJob_tagKey : (s.modJob j g).tagKey = s.tagKey := rfl
@[simp] theorem modJob_fwVersion : (s.modJob j g).fwVersion = s.fwVersion := rfl
@[simp] theorem modJob_fuseSvn : (s.modJob j g).fuseSvn = s.fuseSvn := rfl
@[simp] theorem modJob_flash : (s.modJob j g).flash = s.flash := rfl
@[simp] theorem modJob_spdm : (s.modJob j g).spdm = s.spdm := rfl
@[simp] theorem modJob_tspLocked : (s.modJob j g).tspLocked = s.tspLocked := rfl
@[simp] theorem modJob_ideOn : (s.modJob j g).ideOn = s.ideOn := rfl
@[simp] theorem modJob_inputOn : (s.modJob j g).inputOn = s.inputOn := rfl
@[simp] theorem modJob_holds : (s.modJob j g).holds = s.holds := rfl
@[simp] theorem modJob_trips : (s.modJob j g).trips = s.trips := rfl
@[simp] theorem modJob_lastBoot : (s.modJob j g).lastBoot = s.lastBoot := rfl
@[simp] theorem modJob_outageFrom : (s.modJob j g).outageFrom = s.outageFrom := rfl
@[simp] theorem modJob_domMoves : (s.modJob j g).domMoves = s.domMoves := rfl
@[simp] theorem modJob_portDown : (s.modJob j g).portDown = s.portDown := rfl
@[simp] theorem modJob_throttleCap : (s.modJob j g).throttleCap = s.throttleCap := rfl
@[simp] theorem modJob_hotPorts : (s.modJob j g).hotPorts = s.hotPorts := rfl
@[simp] theorem modJob_throttleAt : (s.modJob j g).throttleAt = s.throttleAt := rfl
@[simp] theorem modJob_dvfsAt : (s.modJob j g).dvfsAt = s.dvfsAt := rfl
@[simp] theorem modJob_creditAt : (s.modJob j g).creditAt = s.creditAt := rfl
@[simp] theorem modJob_trst : (s.modJob j g).trst = s.trst := rfl
@[simp] theorem modJob_testMode : (s.modJob j g).testMode = s.testMode := rfl
@[simp] theorem modJob_cells : (s.modJob j g).cells = s.cells := rfl
@[simp] theorem modJob_peakBase : (s.modJob j g).peakBase = s.peakBase := rfl
@[simp] theorem modJob_peakRead : (s.modJob j g).peakRead = s.peakRead := rfl
@[simp] theorem modJob_pmuPart : (s.modJob j g).pmuPart = s.pmuPart := rfl
@[simp] theorem modJob_pmuLast : (s.modJob j g).pmuLast = s.pmuLast := rfl
@[simp] theorem modJob_countdown : (s.modJob j g).countdown = s.countdown := rfl
@[simp] theorem modJob_lfsr : (s.modJob j g).lfsr = s.lfsr := rfl
@[simp] theorem modJob_tags : (s.modJob j g).tags = s.tags := rfl
@[simp] theorem modJob_tagNo : (s.modJob j g).tagNo = s.tagNo := rfl
@[simp] theorem modJob_sampleLost : (s.modJob j g).sampleLost = s.sampleLost := rfl
@[simp] theorem modJob_fresh : (s.modJob j g).fresh = s.fresh := rfl
@[simp] theorem modJob_out : (s.modJob j g).out = s.out := rfl
@[simp] theorem modRound_pending : (s.modRound j r h).pending = s.pending := rfl
@[simp] theorem modRound_regs : (s.modRound j r h).regs = s.regs := rfl
@[simp] theorem modRound_now : (s.modRound j r h).now = s.now := rfl
@[simp] theorem modRound_clock : (s.modRound j r h).clock = s.clock := rfl
@[simp] theorem modRound_slew : (s.modRound j r h).slew = s.slew := rfl
@[simp] theorem modRound_slewTicks : (s.modRound j r h).slewTicks = s.slewTicks := rfl
@[simp] theorem modRound_goodOffsets : (s.modRound j r h).goodOffsets = s.goodOffsets := rfl
@[simp] theorem modRound_lastSync : (s.modRound j r h).lastSync = s.lastSync := rfl
@[simp] theorem modRound_lastAnnounce : (s.modRound j r h).lastAnnounce = s.lastAnnounce := rfl
@[simp] theorem modRound_best : (s.modRound j r h).best = s.best := rfl
@[simp] theorem modRound_holdStart : (s.modRound j r h).holdStart = s.holdStart := rfl
@[simp] theorem modRound_holdErr : (s.modRound j r h).holdErr = s.holdErr := rfl
@[simp] theorem modRound_lastPps : (s.modRound j r h).lastPps = s.lastPps := rfl
@[simp] theorem modRound_mem : (s.modRound j r h).mem = s.mem := rfl
@[simp] theorem modRound_poison : (s.modRound j r h).poison = s.poison := rfl
@[simp] theorem modRound_hdm : (s.modRound j r h).hdm = s.hdm := rfl
@[simp] theorem modRound_roster : (s.modRound j r h).roster = s.roster := rfl
@[simp] theorem modRound_cached : (s.modRound j r h).cached = s.cached := rfl
@[simp] theorem modRound_dirty : (s.modRound j r h).dirty = s.dirty := rfl
@[simp] theorem modRound_txns : (s.modRound j r h).txns = s.txns := rfl
@[simp] theorem modRound_nextTxn : (s.modRound j r h).nextTxn = s.nextTxn := rfl
@[simp] theorem modRound_feOut : (s.modRound j r h).feOut = s.feOut := rfl
@[simp] theorem modRound_feSeen : (s.modRound j r h).feSeen = s.feSeen := rfl
@[simp] theorem modRound_waitingChunks : (s.modRound j r h).waitingChunks = s.waitingChunks := rfl
@[simp] theorem modRound_rings : (s.modRound j r h).rings = s.rings := rfl
@[simp] theorem modRound_logs : (s.modRound j r h).logs = s.logs := rfl
@[simp] theorem modRound_logLost : (s.modRound j r h).logLost = s.logLost := rfl
@[simp] theorem modRound_channels : (s.modRound j r h).channels = s.channels := rfl
@[simp] theorem modRound_hailCount : (s.modRound j r h).hailCount = s.hailCount := rfl
@[simp] theorem modRound_hailSession : (s.modRound j r h).hailSession = s.hailSession := rfl
@[simp] theorem modRound_hailDue : (s.modRound j r h).hailDue = s.hailDue := rfl
@[simp] theorem modRound_qps : (s.modRound j r h).qps = s.qps := rfl
@[simp] theorem modRound_openWrites : (s.modRound j r h).openWrites = s.openWrites := rfl
@[simp] theorem modRound_revoking : (s.modRound j r h).revoking = s.revoking := rfl
@[simp] theorem modRound_missQueue : (s.modRound j r h).missQueue = s.missQueue := rfl
@[simp] theorem modRound_qpUse : (s.modRound j r h).qpUse = s.qpUse := rfl
@[simp] theorem modRound_contexts : (s.modRound j r h).contexts = s.contexts := rfl
@[simp] theorem modRound_waiting : (s.modRound j r h).waiting = s.waiting := rfl
@[simp] theorem modRound_store : (s.modRound j r h).store = s.store := rfl
@[simp] theorem modRound_arrays : (s.modRound j r h).arrays = s.arrays := rfl
@[simp] theorem modRound_groups : (s.modRound j r h).groups = s.groups := rfl
@[simp] theorem modRound_opCount : (s.modRound j r h).opCount = s.opCount := rfl
@[simp] theorem modRound_handles : (s.modRound j r h).handles = s.handles := rfl
@[simp] theorem modRound_locks : (s.modRound j r h).locks = s.locks := rfl
@[simp] theorem modRound_lockWait : (s.modRound j r h).lockWait = s.lockWait := rfl
@[simp] theorem modRound_armed : (s.modRound j r h).armed = s.armed := rfl
@[simp] theorem modRound_passed : (s.modRound j r h).passed = s.passed := rfl
@[simp] theorem modRound_unitFaults : (s.modRound j r h).unitFaults = s.unitFaults := rfl
@[simp] theorem modRound_remap : (s.modRound j r h).remap = s.remap := rfl
@[simp] theorem modRound_scrubRead : (s.modRound j r h).scrubRead = s.scrubRead := rfl
@[simp] theorem modRound_scrubNext : (s.modRound j r h).scrubNext = s.scrubNext := rfl
@[simp] theorem modRound_noiseFifo : (s.modRound j r h).noiseFifo = s.noiseFifo := rfl
@[simp] theorem modRound_katRuns : (s.modRound j r h).katRuns = s.katRuns := rfl
@[simp] theorem modRound_wireWait : (s.modRound j r h).wireWait = s.wireWait := rfl
@[simp] theorem modRound_staged : (s.modRound j r h).staged = s.staged := rfl
@[simp] theorem modRound_swBytes : (s.modRound j r h).swBytes = s.swBytes := rfl
@[simp] theorem modRound_reseedAt : (s.modRound j r h).reseedAt = s.reseedAt := rfl
@[simp] theorem modRound_genCount : (s.modRound j r h).genCount = s.genCount := rfl
@[simp] theorem modRound_latches : (s.modRound j r h).latches = s.latches := rfl
@[simp] theorem modRound_keyMat : (s.modRound j r h).keyMat = s.keyMat := rfl
@[simp] theorem modRound_keyTag : (s.modRound j r h).keyTag = s.keyTag := rfl
@[simp] theorem modRound_aliasPriv : (s.modRound j r h).aliasPriv = s.aliasPriv := rfl
@[simp] theorem modRound_devidPub : (s.modRound j r h).devidPub = s.devidPub := rfl
@[simp] theorem modRound_endorse : (s.modRound j r h).endorse = s.endorse := rfl
@[simp] theorem modRound_tagKey : (s.modRound j r h).tagKey = s.tagKey := rfl
@[simp] theorem modRound_fwVersion : (s.modRound j r h).fwVersion = s.fwVersion := rfl
@[simp] theorem modRound_fuseSvn : (s.modRound j r h).fuseSvn = s.fuseSvn := rfl
@[simp] theorem modRound_flash : (s.modRound j r h).flash = s.flash := rfl
@[simp] theorem modRound_spdm : (s.modRound j r h).spdm = s.spdm := rfl
@[simp] theorem modRound_tspLocked : (s.modRound j r h).tspLocked = s.tspLocked := rfl
@[simp] theorem modRound_ideOn : (s.modRound j r h).ideOn = s.ideOn := rfl
@[simp] theorem modRound_inputOn : (s.modRound j r h).inputOn = s.inputOn := rfl
@[simp] theorem modRound_holds : (s.modRound j r h).holds = s.holds := rfl
@[simp] theorem modRound_trips : (s.modRound j r h).trips = s.trips := rfl
@[simp] theorem modRound_lastBoot : (s.modRound j r h).lastBoot = s.lastBoot := rfl
@[simp] theorem modRound_outageFrom : (s.modRound j r h).outageFrom = s.outageFrom := rfl
@[simp] theorem modRound_domMoves : (s.modRound j r h).domMoves = s.domMoves := rfl
@[simp] theorem modRound_portDown : (s.modRound j r h).portDown = s.portDown := rfl
@[simp] theorem modRound_throttleCap : (s.modRound j r h).throttleCap = s.throttleCap := rfl
@[simp] theorem modRound_hotPorts : (s.modRound j r h).hotPorts = s.hotPorts := rfl
@[simp] theorem modRound_throttleAt : (s.modRound j r h).throttleAt = s.throttleAt := rfl
@[simp] theorem modRound_dvfsAt : (s.modRound j r h).dvfsAt = s.dvfsAt := rfl
@[simp] theorem modRound_creditAt : (s.modRound j r h).creditAt = s.creditAt := rfl
@[simp] theorem modRound_trst : (s.modRound j r h).trst = s.trst := rfl
@[simp] theorem modRound_testMode : (s.modRound j r h).testMode = s.testMode := rfl
@[simp] theorem modRound_cells : (s.modRound j r h).cells = s.cells := rfl
@[simp] theorem modRound_peakBase : (s.modRound j r h).peakBase = s.peakBase := rfl
@[simp] theorem modRound_peakRead : (s.modRound j r h).peakRead = s.peakRead := rfl
@[simp] theorem modRound_pmuPart : (s.modRound j r h).pmuPart = s.pmuPart := rfl
@[simp] theorem modRound_pmuLast : (s.modRound j r h).pmuLast = s.pmuLast := rfl
@[simp] theorem modRound_countdown : (s.modRound j r h).countdown = s.countdown := rfl
@[simp] theorem modRound_lfsr : (s.modRound j r h).lfsr = s.lfsr := rfl
@[simp] theorem modRound_tags : (s.modRound j r h).tags = s.tags := rfl
@[simp] theorem modRound_tagNo : (s.modRound j r h).tagNo = s.tagNo := rfl
@[simp] theorem modRound_sampleLost : (s.modRound j r h).sampleLost = s.sampleLost := rfl
@[simp] theorem modRound_fresh : (s.modRound j r h).fresh = s.fresh := rfl
@[simp] theorem modRound_out : (s.modRound j r h).out = s.out := rfl
@[simp] theorem modRing_pending : (s.modRing p k).pending = s.pending := rfl
@[simp] theorem modRing_regs : (s.modRing p k).regs = s.regs := rfl
@[simp] theorem modRing_now : (s.modRing p k).now = s.now := rfl
@[simp] theorem modRing_clock : (s.modRing p k).clock = s.clock := rfl
@[simp] theorem modRing_slew : (s.modRing p k).slew = s.slew := rfl
@[simp] theorem modRing_slewTicks : (s.modRing p k).slewTicks = s.slewTicks := rfl
@[simp] theorem modRing_goodOffsets : (s.modRing p k).goodOffsets = s.goodOffsets := rfl
@[simp] theorem modRing_lastSync : (s.modRing p k).lastSync = s.lastSync := rfl
@[simp] theorem modRing_lastAnnounce : (s.modRing p k).lastAnnounce = s.lastAnnounce := rfl
@[simp] theorem modRing_best : (s.modRing p k).best = s.best := rfl
@[simp] theorem modRing_holdStart : (s.modRing p k).holdStart = s.holdStart := rfl
@[simp] theorem modRing_holdErr : (s.modRing p k).holdErr = s.holdErr := rfl
@[simp] theorem modRing_lastPps : (s.modRing p k).lastPps = s.lastPps := rfl
@[simp] theorem modRing_mem : (s.modRing p k).mem = s.mem := rfl
@[simp] theorem modRing_poison : (s.modRing p k).poison = s.poison := rfl
@[simp] theorem modRing_hdm : (s.modRing p k).hdm = s.hdm := rfl
@[simp] theorem modRing_jobs : (s.modRing p k).jobs = s.jobs := rfl
@[simp] theorem modRing_roster : (s.modRing p k).roster = s.roster := rfl
@[simp] theorem modRing_cached : (s.modRing p k).cached = s.cached := rfl
@[simp] theorem modRing_dirty : (s.modRing p k).dirty = s.dirty := rfl
@[simp] theorem modRing_txns : (s.modRing p k).txns = s.txns := rfl
@[simp] theorem modRing_nextTxn : (s.modRing p k).nextTxn = s.nextTxn := rfl
@[simp] theorem modRing_feOut : (s.modRing p k).feOut = s.feOut := rfl
@[simp] theorem modRing_feSeen : (s.modRing p k).feSeen = s.feSeen := rfl
@[simp] theorem modRing_waitingChunks : (s.modRing p k).waitingChunks = s.waitingChunks := rfl
@[simp] theorem modRing_logs : (s.modRing p k).logs = s.logs := rfl
@[simp] theorem modRing_logLost : (s.modRing p k).logLost = s.logLost := rfl
@[simp] theorem modRing_channels : (s.modRing p k).channels = s.channels := rfl
@[simp] theorem modRing_hailCount : (s.modRing p k).hailCount = s.hailCount := rfl
@[simp] theorem modRing_hailSession : (s.modRing p k).hailSession = s.hailSession := rfl
@[simp] theorem modRing_hailDue : (s.modRing p k).hailDue = s.hailDue := rfl
@[simp] theorem modRing_qps : (s.modRing p k).qps = s.qps := rfl
@[simp] theorem modRing_openWrites : (s.modRing p k).openWrites = s.openWrites := rfl
@[simp] theorem modRing_revoking : (s.modRing p k).revoking = s.revoking := rfl
@[simp] theorem modRing_missQueue : (s.modRing p k).missQueue = s.missQueue := rfl
@[simp] theorem modRing_qpUse : (s.modRing p k).qpUse = s.qpUse := rfl
@[simp] theorem modRing_contexts : (s.modRing p k).contexts = s.contexts := rfl
@[simp] theorem modRing_waiting : (s.modRing p k).waiting = s.waiting := rfl
@[simp] theorem modRing_store : (s.modRing p k).store = s.store := rfl
@[simp] theorem modRing_arrays : (s.modRing p k).arrays = s.arrays := rfl
@[simp] theorem modRing_groups : (s.modRing p k).groups = s.groups := rfl
@[simp] theorem modRing_opCount : (s.modRing p k).opCount = s.opCount := rfl
@[simp] theorem modRing_handles : (s.modRing p k).handles = s.handles := rfl
@[simp] theorem modRing_locks : (s.modRing p k).locks = s.locks := rfl
@[simp] theorem modRing_lockWait : (s.modRing p k).lockWait = s.lockWait := rfl
@[simp] theorem modRing_armed : (s.modRing p k).armed = s.armed := rfl
@[simp] theorem modRing_passed : (s.modRing p k).passed = s.passed := rfl
@[simp] theorem modRing_unitFaults : (s.modRing p k).unitFaults = s.unitFaults := rfl
@[simp] theorem modRing_remap : (s.modRing p k).remap = s.remap := rfl
@[simp] theorem modRing_scrubRead : (s.modRing p k).scrubRead = s.scrubRead := rfl
@[simp] theorem modRing_scrubNext : (s.modRing p k).scrubNext = s.scrubNext := rfl
@[simp] theorem modRing_noiseFifo : (s.modRing p k).noiseFifo = s.noiseFifo := rfl
@[simp] theorem modRing_katRuns : (s.modRing p k).katRuns = s.katRuns := rfl
@[simp] theorem modRing_wireWait : (s.modRing p k).wireWait = s.wireWait := rfl
@[simp] theorem modRing_staged : (s.modRing p k).staged = s.staged := rfl
@[simp] theorem modRing_swBytes : (s.modRing p k).swBytes = s.swBytes := rfl
@[simp] theorem modRing_reseedAt : (s.modRing p k).reseedAt = s.reseedAt := rfl
@[simp] theorem modRing_genCount : (s.modRing p k).genCount = s.genCount := rfl
@[simp] theorem modRing_latches : (s.modRing p k).latches = s.latches := rfl
@[simp] theorem modRing_keyMat : (s.modRing p k).keyMat = s.keyMat := rfl
@[simp] theorem modRing_keyTag : (s.modRing p k).keyTag = s.keyTag := rfl
@[simp] theorem modRing_aliasPriv : (s.modRing p k).aliasPriv = s.aliasPriv := rfl
@[simp] theorem modRing_devidPub : (s.modRing p k).devidPub = s.devidPub := rfl
@[simp] theorem modRing_endorse : (s.modRing p k).endorse = s.endorse := rfl
@[simp] theorem modRing_tagKey : (s.modRing p k).tagKey = s.tagKey := rfl
@[simp] theorem modRing_fwVersion : (s.modRing p k).fwVersion = s.fwVersion := rfl
@[simp] theorem modRing_fuseSvn : (s.modRing p k).fuseSvn = s.fuseSvn := rfl
@[simp] theorem modRing_flash : (s.modRing p k).flash = s.flash := rfl
@[simp] theorem modRing_spdm : (s.modRing p k).spdm = s.spdm := rfl
@[simp] theorem modRing_tspLocked : (s.modRing p k).tspLocked = s.tspLocked := rfl
@[simp] theorem modRing_ideOn : (s.modRing p k).ideOn = s.ideOn := rfl
@[simp] theorem modRing_inputOn : (s.modRing p k).inputOn = s.inputOn := rfl
@[simp] theorem modRing_holds : (s.modRing p k).holds = s.holds := rfl
@[simp] theorem modRing_trips : (s.modRing p k).trips = s.trips := rfl
@[simp] theorem modRing_lastBoot : (s.modRing p k).lastBoot = s.lastBoot := rfl
@[simp] theorem modRing_outageFrom : (s.modRing p k).outageFrom = s.outageFrom := rfl
@[simp] theorem modRing_domMoves : (s.modRing p k).domMoves = s.domMoves := rfl
@[simp] theorem modRing_portDown : (s.modRing p k).portDown = s.portDown := rfl
@[simp] theorem modRing_throttleCap : (s.modRing p k).throttleCap = s.throttleCap := rfl
@[simp] theorem modRing_hotPorts : (s.modRing p k).hotPorts = s.hotPorts := rfl
@[simp] theorem modRing_throttleAt : (s.modRing p k).throttleAt = s.throttleAt := rfl
@[simp] theorem modRing_dvfsAt : (s.modRing p k).dvfsAt = s.dvfsAt := rfl
@[simp] theorem modRing_creditAt : (s.modRing p k).creditAt = s.creditAt := rfl
@[simp] theorem modRing_trst : (s.modRing p k).trst = s.trst := rfl
@[simp] theorem modRing_testMode : (s.modRing p k).testMode = s.testMode := rfl
@[simp] theorem modRing_cells : (s.modRing p k).cells = s.cells := rfl
@[simp] theorem modRing_peakBase : (s.modRing p k).peakBase = s.peakBase := rfl
@[simp] theorem modRing_peakRead : (s.modRing p k).peakRead = s.peakRead := rfl
@[simp] theorem modRing_pmuPart : (s.modRing p k).pmuPart = s.pmuPart := rfl
@[simp] theorem modRing_pmuLast : (s.modRing p k).pmuLast = s.pmuLast := rfl
@[simp] theorem modRing_countdown : (s.modRing p k).countdown = s.countdown := rfl
@[simp] theorem modRing_lfsr : (s.modRing p k).lfsr = s.lfsr := rfl
@[simp] theorem modRing_tags : (s.modRing p k).tags = s.tags := rfl
@[simp] theorem modRing_tagNo : (s.modRing p k).tagNo = s.tagNo := rfl
@[simp] theorem modRing_sampleLost : (s.modRing p k).sampleLost = s.sampleLost := rfl
@[simp] theorem modRing_fresh : (s.modRing p k).fresh = s.fresh := rfl
@[simp] theorem modRing_out : (s.modRing p k).out = s.out := rfl
@[simp] theorem setLog_pending : (s.setLog p ws).pending = s.pending := rfl
@[simp] theorem setLog_regs : (s.setLog p ws).regs = s.regs := rfl
@[simp] theorem setLog_now : (s.setLog p ws).now = s.now := rfl
@[simp] theorem setLog_clock : (s.setLog p ws).clock = s.clock := rfl
@[simp] theorem setLog_slew : (s.setLog p ws).slew = s.slew := rfl
@[simp] theorem setLog_slewTicks : (s.setLog p ws).slewTicks = s.slewTicks := rfl
@[simp] theorem setLog_goodOffsets : (s.setLog p ws).goodOffsets = s.goodOffsets := rfl
@[simp] theorem setLog_lastSync : (s.setLog p ws).lastSync = s.lastSync := rfl
@[simp] theorem setLog_lastAnnounce : (s.setLog p ws).lastAnnounce = s.lastAnnounce := rfl
@[simp] theorem setLog_best : (s.setLog p ws).best = s.best := rfl
@[simp] theorem setLog_holdStart : (s.setLog p ws).holdStart = s.holdStart := rfl
@[simp] theorem setLog_holdErr : (s.setLog p ws).holdErr = s.holdErr := rfl
@[simp] theorem setLog_lastPps : (s.setLog p ws).lastPps = s.lastPps := rfl
@[simp] theorem setLog_mem : (s.setLog p ws).mem = s.mem := rfl
@[simp] theorem setLog_poison : (s.setLog p ws).poison = s.poison := rfl
@[simp] theorem setLog_hdm : (s.setLog p ws).hdm = s.hdm := rfl
@[simp] theorem setLog_jobs : (s.setLog p ws).jobs = s.jobs := rfl
@[simp] theorem setLog_roster : (s.setLog p ws).roster = s.roster := rfl
@[simp] theorem setLog_cached : (s.setLog p ws).cached = s.cached := rfl
@[simp] theorem setLog_dirty : (s.setLog p ws).dirty = s.dirty := rfl
@[simp] theorem setLog_txns : (s.setLog p ws).txns = s.txns := rfl
@[simp] theorem setLog_nextTxn : (s.setLog p ws).nextTxn = s.nextTxn := rfl
@[simp] theorem setLog_feOut : (s.setLog p ws).feOut = s.feOut := rfl
@[simp] theorem setLog_feSeen : (s.setLog p ws).feSeen = s.feSeen := rfl
@[simp] theorem setLog_waitingChunks : (s.setLog p ws).waitingChunks = s.waitingChunks := rfl
@[simp] theorem setLog_rings : (s.setLog p ws).rings = s.rings := rfl
@[simp] theorem setLog_logLost : (s.setLog p ws).logLost = s.logLost := rfl
@[simp] theorem setLog_channels : (s.setLog p ws).channels = s.channels := rfl
@[simp] theorem setLog_hailCount : (s.setLog p ws).hailCount = s.hailCount := rfl
@[simp] theorem setLog_hailSession : (s.setLog p ws).hailSession = s.hailSession := rfl
@[simp] theorem setLog_hailDue : (s.setLog p ws).hailDue = s.hailDue := rfl
@[simp] theorem setLog_qps : (s.setLog p ws).qps = s.qps := rfl
@[simp] theorem setLog_openWrites : (s.setLog p ws).openWrites = s.openWrites := rfl
@[simp] theorem setLog_revoking : (s.setLog p ws).revoking = s.revoking := rfl
@[simp] theorem setLog_missQueue : (s.setLog p ws).missQueue = s.missQueue := rfl
@[simp] theorem setLog_qpUse : (s.setLog p ws).qpUse = s.qpUse := rfl
@[simp] theorem setLog_contexts : (s.setLog p ws).contexts = s.contexts := rfl
@[simp] theorem setLog_waiting : (s.setLog p ws).waiting = s.waiting := rfl
@[simp] theorem setLog_store : (s.setLog p ws).store = s.store := rfl
@[simp] theorem setLog_arrays : (s.setLog p ws).arrays = s.arrays := rfl
@[simp] theorem setLog_groups : (s.setLog p ws).groups = s.groups := rfl
@[simp] theorem setLog_opCount : (s.setLog p ws).opCount = s.opCount := rfl
@[simp] theorem setLog_handles : (s.setLog p ws).handles = s.handles := rfl
@[simp] theorem setLog_locks : (s.setLog p ws).locks = s.locks := rfl
@[simp] theorem setLog_lockWait : (s.setLog p ws).lockWait = s.lockWait := rfl
@[simp] theorem setLog_armed : (s.setLog p ws).armed = s.armed := rfl
@[simp] theorem setLog_passed : (s.setLog p ws).passed = s.passed := rfl
@[simp] theorem setLog_unitFaults : (s.setLog p ws).unitFaults = s.unitFaults := rfl
@[simp] theorem setLog_remap : (s.setLog p ws).remap = s.remap := rfl
@[simp] theorem setLog_scrubRead : (s.setLog p ws).scrubRead = s.scrubRead := rfl
@[simp] theorem setLog_scrubNext : (s.setLog p ws).scrubNext = s.scrubNext := rfl
@[simp] theorem setLog_noiseFifo : (s.setLog p ws).noiseFifo = s.noiseFifo := rfl
@[simp] theorem setLog_katRuns : (s.setLog p ws).katRuns = s.katRuns := rfl
@[simp] theorem setLog_wireWait : (s.setLog p ws).wireWait = s.wireWait := rfl
@[simp] theorem setLog_staged : (s.setLog p ws).staged = s.staged := rfl
@[simp] theorem setLog_swBytes : (s.setLog p ws).swBytes = s.swBytes := rfl
@[simp] theorem setLog_reseedAt : (s.setLog p ws).reseedAt = s.reseedAt := rfl
@[simp] theorem setLog_genCount : (s.setLog p ws).genCount = s.genCount := rfl
@[simp] theorem setLog_latches : (s.setLog p ws).latches = s.latches := rfl
@[simp] theorem setLog_keyMat : (s.setLog p ws).keyMat = s.keyMat := rfl
@[simp] theorem setLog_keyTag : (s.setLog p ws).keyTag = s.keyTag := rfl
@[simp] theorem setLog_aliasPriv : (s.setLog p ws).aliasPriv = s.aliasPriv := rfl
@[simp] theorem setLog_devidPub : (s.setLog p ws).devidPub = s.devidPub := rfl
@[simp] theorem setLog_endorse : (s.setLog p ws).endorse = s.endorse := rfl
@[simp] theorem setLog_tagKey : (s.setLog p ws).tagKey = s.tagKey := rfl
@[simp] theorem setLog_fwVersion : (s.setLog p ws).fwVersion = s.fwVersion := rfl
@[simp] theorem setLog_fuseSvn : (s.setLog p ws).fuseSvn = s.fuseSvn := rfl
@[simp] theorem setLog_flash : (s.setLog p ws).flash = s.flash := rfl
@[simp] theorem setLog_spdm : (s.setLog p ws).spdm = s.spdm := rfl
@[simp] theorem setLog_tspLocked : (s.setLog p ws).tspLocked = s.tspLocked := rfl
@[simp] theorem setLog_ideOn : (s.setLog p ws).ideOn = s.ideOn := rfl
@[simp] theorem setLog_inputOn : (s.setLog p ws).inputOn = s.inputOn := rfl
@[simp] theorem setLog_holds : (s.setLog p ws).holds = s.holds := rfl
@[simp] theorem setLog_trips : (s.setLog p ws).trips = s.trips := rfl
@[simp] theorem setLog_lastBoot : (s.setLog p ws).lastBoot = s.lastBoot := rfl
@[simp] theorem setLog_outageFrom : (s.setLog p ws).outageFrom = s.outageFrom := rfl
@[simp] theorem setLog_domMoves : (s.setLog p ws).domMoves = s.domMoves := rfl
@[simp] theorem setLog_portDown : (s.setLog p ws).portDown = s.portDown := rfl
@[simp] theorem setLog_throttleCap : (s.setLog p ws).throttleCap = s.throttleCap := rfl
@[simp] theorem setLog_hotPorts : (s.setLog p ws).hotPorts = s.hotPorts := rfl
@[simp] theorem setLog_throttleAt : (s.setLog p ws).throttleAt = s.throttleAt := rfl
@[simp] theorem setLog_dvfsAt : (s.setLog p ws).dvfsAt = s.dvfsAt := rfl
@[simp] theorem setLog_creditAt : (s.setLog p ws).creditAt = s.creditAt := rfl
@[simp] theorem setLog_trst : (s.setLog p ws).trst = s.trst := rfl
@[simp] theorem setLog_testMode : (s.setLog p ws).testMode = s.testMode := rfl
@[simp] theorem setLog_cells : (s.setLog p ws).cells = s.cells := rfl
@[simp] theorem setLog_peakBase : (s.setLog p ws).peakBase = s.peakBase := rfl
@[simp] theorem setLog_peakRead : (s.setLog p ws).peakRead = s.peakRead := rfl
@[simp] theorem setLog_pmuPart : (s.setLog p ws).pmuPart = s.pmuPart := rfl
@[simp] theorem setLog_pmuLast : (s.setLog p ws).pmuLast = s.pmuLast := rfl
@[simp] theorem setLog_countdown : (s.setLog p ws).countdown = s.countdown := rfl
@[simp] theorem setLog_lfsr : (s.setLog p ws).lfsr = s.lfsr := rfl
@[simp] theorem setLog_tags : (s.setLog p ws).tags = s.tags := rfl
@[simp] theorem setLog_tagNo : (s.setLog p ws).tagNo = s.tagNo := rfl
@[simp] theorem setLog_sampleLost : (s.setLog p ws).sampleLost = s.sampleLost := rfl
@[simp] theorem setLog_fresh : (s.setLog p ws).fresh = s.fresh := rfl
@[simp] theorem setLog_out : (s.setLog p ws).out = s.out := rfl
@[simp] theorem modChan_pending : (s.modChan c ch).pending = s.pending := rfl
@[simp] theorem modChan_regs : (s.modChan c ch).regs = s.regs := rfl
@[simp] theorem modChan_now : (s.modChan c ch).now = s.now := rfl
@[simp] theorem modChan_clock : (s.modChan c ch).clock = s.clock := rfl
@[simp] theorem modChan_slew : (s.modChan c ch).slew = s.slew := rfl
@[simp] theorem modChan_slewTicks : (s.modChan c ch).slewTicks = s.slewTicks := rfl
@[simp] theorem modChan_goodOffsets : (s.modChan c ch).goodOffsets = s.goodOffsets := rfl
@[simp] theorem modChan_lastSync : (s.modChan c ch).lastSync = s.lastSync := rfl
@[simp] theorem modChan_lastAnnounce : (s.modChan c ch).lastAnnounce = s.lastAnnounce := rfl
@[simp] theorem modChan_best : (s.modChan c ch).best = s.best := rfl
@[simp] theorem modChan_holdStart : (s.modChan c ch).holdStart = s.holdStart := rfl
@[simp] theorem modChan_holdErr : (s.modChan c ch).holdErr = s.holdErr := rfl
@[simp] theorem modChan_lastPps : (s.modChan c ch).lastPps = s.lastPps := rfl
@[simp] theorem modChan_mem : (s.modChan c ch).mem = s.mem := rfl
@[simp] theorem modChan_poison : (s.modChan c ch).poison = s.poison := rfl
@[simp] theorem modChan_hdm : (s.modChan c ch).hdm = s.hdm := rfl
@[simp] theorem modChan_jobs : (s.modChan c ch).jobs = s.jobs := rfl
@[simp] theorem modChan_roster : (s.modChan c ch).roster = s.roster := rfl
@[simp] theorem modChan_cached : (s.modChan c ch).cached = s.cached := rfl
@[simp] theorem modChan_dirty : (s.modChan c ch).dirty = s.dirty := rfl
@[simp] theorem modChan_txns : (s.modChan c ch).txns = s.txns := rfl
@[simp] theorem modChan_nextTxn : (s.modChan c ch).nextTxn = s.nextTxn := rfl
@[simp] theorem modChan_feOut : (s.modChan c ch).feOut = s.feOut := rfl
@[simp] theorem modChan_feSeen : (s.modChan c ch).feSeen = s.feSeen := rfl
@[simp] theorem modChan_waitingChunks : (s.modChan c ch).waitingChunks = s.waitingChunks := rfl
@[simp] theorem modChan_rings : (s.modChan c ch).rings = s.rings := rfl
@[simp] theorem modChan_logs : (s.modChan c ch).logs = s.logs := rfl
@[simp] theorem modChan_logLost : (s.modChan c ch).logLost = s.logLost := rfl
@[simp] theorem modChan_hailCount : (s.modChan c ch).hailCount = s.hailCount := rfl
@[simp] theorem modChan_hailSession : (s.modChan c ch).hailSession = s.hailSession := rfl
@[simp] theorem modChan_hailDue : (s.modChan c ch).hailDue = s.hailDue := rfl
@[simp] theorem modChan_qps : (s.modChan c ch).qps = s.qps := rfl
@[simp] theorem modChan_openWrites : (s.modChan c ch).openWrites = s.openWrites := rfl
@[simp] theorem modChan_revoking : (s.modChan c ch).revoking = s.revoking := rfl
@[simp] theorem modChan_missQueue : (s.modChan c ch).missQueue = s.missQueue := rfl
@[simp] theorem modChan_qpUse : (s.modChan c ch).qpUse = s.qpUse := rfl
@[simp] theorem modChan_contexts : (s.modChan c ch).contexts = s.contexts := rfl
@[simp] theorem modChan_waiting : (s.modChan c ch).waiting = s.waiting := rfl
@[simp] theorem modChan_store : (s.modChan c ch).store = s.store := rfl
@[simp] theorem modChan_arrays : (s.modChan c ch).arrays = s.arrays := rfl
@[simp] theorem modChan_groups : (s.modChan c ch).groups = s.groups := rfl
@[simp] theorem modChan_opCount : (s.modChan c ch).opCount = s.opCount := rfl
@[simp] theorem modChan_handles : (s.modChan c ch).handles = s.handles := rfl
@[simp] theorem modChan_locks : (s.modChan c ch).locks = s.locks := rfl
@[simp] theorem modChan_lockWait : (s.modChan c ch).lockWait = s.lockWait := rfl
@[simp] theorem modChan_armed : (s.modChan c ch).armed = s.armed := rfl
@[simp] theorem modChan_passed : (s.modChan c ch).passed = s.passed := rfl
@[simp] theorem modChan_unitFaults : (s.modChan c ch).unitFaults = s.unitFaults := rfl
@[simp] theorem modChan_remap : (s.modChan c ch).remap = s.remap := rfl
@[simp] theorem modChan_scrubRead : (s.modChan c ch).scrubRead = s.scrubRead := rfl
@[simp] theorem modChan_scrubNext : (s.modChan c ch).scrubNext = s.scrubNext := rfl
@[simp] theorem modChan_noiseFifo : (s.modChan c ch).noiseFifo = s.noiseFifo := rfl
@[simp] theorem modChan_katRuns : (s.modChan c ch).katRuns = s.katRuns := rfl
@[simp] theorem modChan_wireWait : (s.modChan c ch).wireWait = s.wireWait := rfl
@[simp] theorem modChan_staged : (s.modChan c ch).staged = s.staged := rfl
@[simp] theorem modChan_swBytes : (s.modChan c ch).swBytes = s.swBytes := rfl
@[simp] theorem modChan_reseedAt : (s.modChan c ch).reseedAt = s.reseedAt := rfl
@[simp] theorem modChan_genCount : (s.modChan c ch).genCount = s.genCount := rfl
@[simp] theorem modChan_latches : (s.modChan c ch).latches = s.latches := rfl
@[simp] theorem modChan_keyMat : (s.modChan c ch).keyMat = s.keyMat := rfl
@[simp] theorem modChan_keyTag : (s.modChan c ch).keyTag = s.keyTag := rfl
@[simp] theorem modChan_aliasPriv : (s.modChan c ch).aliasPriv = s.aliasPriv := rfl
@[simp] theorem modChan_devidPub : (s.modChan c ch).devidPub = s.devidPub := rfl
@[simp] theorem modChan_endorse : (s.modChan c ch).endorse = s.endorse := rfl
@[simp] theorem modChan_tagKey : (s.modChan c ch).tagKey = s.tagKey := rfl
@[simp] theorem modChan_fwVersion : (s.modChan c ch).fwVersion = s.fwVersion := rfl
@[simp] theorem modChan_fuseSvn : (s.modChan c ch).fuseSvn = s.fuseSvn := rfl
@[simp] theorem modChan_flash : (s.modChan c ch).flash = s.flash := rfl
@[simp] theorem modChan_spdm : (s.modChan c ch).spdm = s.spdm := rfl
@[simp] theorem modChan_tspLocked : (s.modChan c ch).tspLocked = s.tspLocked := rfl
@[simp] theorem modChan_ideOn : (s.modChan c ch).ideOn = s.ideOn := rfl
@[simp] theorem modChan_inputOn : (s.modChan c ch).inputOn = s.inputOn := rfl
@[simp] theorem modChan_holds : (s.modChan c ch).holds = s.holds := rfl
@[simp] theorem modChan_trips : (s.modChan c ch).trips = s.trips := rfl
@[simp] theorem modChan_lastBoot : (s.modChan c ch).lastBoot = s.lastBoot := rfl
@[simp] theorem modChan_outageFrom : (s.modChan c ch).outageFrom = s.outageFrom := rfl
@[simp] theorem modChan_domMoves : (s.modChan c ch).domMoves = s.domMoves := rfl
@[simp] theorem modChan_portDown : (s.modChan c ch).portDown = s.portDown := rfl
@[simp] theorem modChan_throttleCap : (s.modChan c ch).throttleCap = s.throttleCap := rfl
@[simp] theorem modChan_hotPorts : (s.modChan c ch).hotPorts = s.hotPorts := rfl
@[simp] theorem modChan_throttleAt : (s.modChan c ch).throttleAt = s.throttleAt := rfl
@[simp] theorem modChan_dvfsAt : (s.modChan c ch).dvfsAt = s.dvfsAt := rfl
@[simp] theorem modChan_creditAt : (s.modChan c ch).creditAt = s.creditAt := rfl
@[simp] theorem modChan_trst : (s.modChan c ch).trst = s.trst := rfl
@[simp] theorem modChan_testMode : (s.modChan c ch).testMode = s.testMode := rfl
@[simp] theorem modChan_cells : (s.modChan c ch).cells = s.cells := rfl
@[simp] theorem modChan_peakBase : (s.modChan c ch).peakBase = s.peakBase := rfl
@[simp] theorem modChan_peakRead : (s.modChan c ch).peakRead = s.peakRead := rfl
@[simp] theorem modChan_pmuPart : (s.modChan c ch).pmuPart = s.pmuPart := rfl
@[simp] theorem modChan_pmuLast : (s.modChan c ch).pmuLast = s.pmuLast := rfl
@[simp] theorem modChan_countdown : (s.modChan c ch).countdown = s.countdown := rfl
@[simp] theorem modChan_lfsr : (s.modChan c ch).lfsr = s.lfsr := rfl
@[simp] theorem modChan_tags : (s.modChan c ch).tags = s.tags := rfl
@[simp] theorem modChan_tagNo : (s.modChan c ch).tagNo = s.tagNo := rfl
@[simp] theorem modChan_sampleLost : (s.modChan c ch).sampleLost = s.sampleLost := rfl
@[simp] theorem modChan_fresh : (s.modChan c ch).fresh = s.fresh := rfl
@[simp] theorem modChan_out : (s.modChan c ch).out = s.out := rfl
@[simp] theorem modQp_pending : (s.modQp n q).pending = s.pending := rfl
@[simp] theorem modQp_regs : (s.modQp n q).regs = s.regs := rfl
@[simp] theorem modQp_now : (s.modQp n q).now = s.now := rfl
@[simp] theorem modQp_clock : (s.modQp n q).clock = s.clock := rfl
@[simp] theorem modQp_slew : (s.modQp n q).slew = s.slew := rfl
@[simp] theorem modQp_slewTicks : (s.modQp n q).slewTicks = s.slewTicks := rfl
@[simp] theorem modQp_goodOffsets : (s.modQp n q).goodOffsets = s.goodOffsets := rfl
@[simp] theorem modQp_lastSync : (s.modQp n q).lastSync = s.lastSync := rfl
@[simp] theorem modQp_lastAnnounce : (s.modQp n q).lastAnnounce = s.lastAnnounce := rfl
@[simp] theorem modQp_best : (s.modQp n q).best = s.best := rfl
@[simp] theorem modQp_holdStart : (s.modQp n q).holdStart = s.holdStart := rfl
@[simp] theorem modQp_holdErr : (s.modQp n q).holdErr = s.holdErr := rfl
@[simp] theorem modQp_lastPps : (s.modQp n q).lastPps = s.lastPps := rfl
@[simp] theorem modQp_mem : (s.modQp n q).mem = s.mem := rfl
@[simp] theorem modQp_poison : (s.modQp n q).poison = s.poison := rfl
@[simp] theorem modQp_hdm : (s.modQp n q).hdm = s.hdm := rfl
@[simp] theorem modQp_jobs : (s.modQp n q).jobs = s.jobs := rfl
@[simp] theorem modQp_roster : (s.modQp n q).roster = s.roster := rfl
@[simp] theorem modQp_cached : (s.modQp n q).cached = s.cached := rfl
@[simp] theorem modQp_dirty : (s.modQp n q).dirty = s.dirty := rfl
@[simp] theorem modQp_txns : (s.modQp n q).txns = s.txns := rfl
@[simp] theorem modQp_nextTxn : (s.modQp n q).nextTxn = s.nextTxn := rfl
@[simp] theorem modQp_feOut : (s.modQp n q).feOut = s.feOut := rfl
@[simp] theorem modQp_feSeen : (s.modQp n q).feSeen = s.feSeen := rfl
@[simp] theorem modQp_waitingChunks : (s.modQp n q).waitingChunks = s.waitingChunks := rfl
@[simp] theorem modQp_rings : (s.modQp n q).rings = s.rings := rfl
@[simp] theorem modQp_logs : (s.modQp n q).logs = s.logs := rfl
@[simp] theorem modQp_logLost : (s.modQp n q).logLost = s.logLost := rfl
@[simp] theorem modQp_channels : (s.modQp n q).channels = s.channels := rfl
@[simp] theorem modQp_hailCount : (s.modQp n q).hailCount = s.hailCount := rfl
@[simp] theorem modQp_hailSession : (s.modQp n q).hailSession = s.hailSession := rfl
@[simp] theorem modQp_hailDue : (s.modQp n q).hailDue = s.hailDue := rfl
@[simp] theorem modQp_openWrites : (s.modQp n q).openWrites = s.openWrites := rfl
@[simp] theorem modQp_revoking : (s.modQp n q).revoking = s.revoking := rfl
@[simp] theorem modQp_missQueue : (s.modQp n q).missQueue = s.missQueue := rfl
@[simp] theorem modQp_qpUse : (s.modQp n q).qpUse = s.qpUse := rfl
@[simp] theorem modQp_contexts : (s.modQp n q).contexts = s.contexts := rfl
@[simp] theorem modQp_waiting : (s.modQp n q).waiting = s.waiting := rfl
@[simp] theorem modQp_store : (s.modQp n q).store = s.store := rfl
@[simp] theorem modQp_arrays : (s.modQp n q).arrays = s.arrays := rfl
@[simp] theorem modQp_groups : (s.modQp n q).groups = s.groups := rfl
@[simp] theorem modQp_opCount : (s.modQp n q).opCount = s.opCount := rfl
@[simp] theorem modQp_handles : (s.modQp n q).handles = s.handles := rfl
@[simp] theorem modQp_locks : (s.modQp n q).locks = s.locks := rfl
@[simp] theorem modQp_lockWait : (s.modQp n q).lockWait = s.lockWait := rfl
@[simp] theorem modQp_armed : (s.modQp n q).armed = s.armed := rfl
@[simp] theorem modQp_passed : (s.modQp n q).passed = s.passed := rfl
@[simp] theorem modQp_unitFaults : (s.modQp n q).unitFaults = s.unitFaults := rfl
@[simp] theorem modQp_remap : (s.modQp n q).remap = s.remap := rfl
@[simp] theorem modQp_scrubRead : (s.modQp n q).scrubRead = s.scrubRead := rfl
@[simp] theorem modQp_scrubNext : (s.modQp n q).scrubNext = s.scrubNext := rfl
@[simp] theorem modQp_noiseFifo : (s.modQp n q).noiseFifo = s.noiseFifo := rfl
@[simp] theorem modQp_katRuns : (s.modQp n q).katRuns = s.katRuns := rfl
@[simp] theorem modQp_wireWait : (s.modQp n q).wireWait = s.wireWait := rfl
@[simp] theorem modQp_staged : (s.modQp n q).staged = s.staged := rfl
@[simp] theorem modQp_swBytes : (s.modQp n q).swBytes = s.swBytes := rfl
@[simp] theorem modQp_reseedAt : (s.modQp n q).reseedAt = s.reseedAt := rfl
@[simp] theorem modQp_genCount : (s.modQp n q).genCount = s.genCount := rfl
@[simp] theorem modQp_latches : (s.modQp n q).latches = s.latches := rfl
@[simp] theorem modQp_keyMat : (s.modQp n q).keyMat = s.keyMat := rfl
@[simp] theorem modQp_keyTag : (s.modQp n q).keyTag = s.keyTag := rfl
@[simp] theorem modQp_aliasPriv : (s.modQp n q).aliasPriv = s.aliasPriv := rfl
@[simp] theorem modQp_devidPub : (s.modQp n q).devidPub = s.devidPub := rfl
@[simp] theorem modQp_endorse : (s.modQp n q).endorse = s.endorse := rfl
@[simp] theorem modQp_tagKey : (s.modQp n q).tagKey = s.tagKey := rfl
@[simp] theorem modQp_fwVersion : (s.modQp n q).fwVersion = s.fwVersion := rfl
@[simp] theorem modQp_fuseSvn : (s.modQp n q).fuseSvn = s.fuseSvn := rfl
@[simp] theorem modQp_flash : (s.modQp n q).flash = s.flash := rfl
@[simp] theorem modQp_spdm : (s.modQp n q).spdm = s.spdm := rfl
@[simp] theorem modQp_tspLocked : (s.modQp n q).tspLocked = s.tspLocked := rfl
@[simp] theorem modQp_ideOn : (s.modQp n q).ideOn = s.ideOn := rfl
@[simp] theorem modQp_inputOn : (s.modQp n q).inputOn = s.inputOn := rfl
@[simp] theorem modQp_holds : (s.modQp n q).holds = s.holds := rfl
@[simp] theorem modQp_trips : (s.modQp n q).trips = s.trips := rfl
@[simp] theorem modQp_lastBoot : (s.modQp n q).lastBoot = s.lastBoot := rfl
@[simp] theorem modQp_outageFrom : (s.modQp n q).outageFrom = s.outageFrom := rfl
@[simp] theorem modQp_domMoves : (s.modQp n q).domMoves = s.domMoves := rfl
@[simp] theorem modQp_portDown : (s.modQp n q).portDown = s.portDown := rfl
@[simp] theorem modQp_throttleCap : (s.modQp n q).throttleCap = s.throttleCap := rfl
@[simp] theorem modQp_hotPorts : (s.modQp n q).hotPorts = s.hotPorts := rfl
@[simp] theorem modQp_throttleAt : (s.modQp n q).throttleAt = s.throttleAt := rfl
@[simp] theorem modQp_dvfsAt : (s.modQp n q).dvfsAt = s.dvfsAt := rfl
@[simp] theorem modQp_creditAt : (s.modQp n q).creditAt = s.creditAt := rfl
@[simp] theorem modQp_trst : (s.modQp n q).trst = s.trst := rfl
@[simp] theorem modQp_testMode : (s.modQp n q).testMode = s.testMode := rfl
@[simp] theorem modQp_cells : (s.modQp n q).cells = s.cells := rfl
@[simp] theorem modQp_peakBase : (s.modQp n q).peakBase = s.peakBase := rfl
@[simp] theorem modQp_peakRead : (s.modQp n q).peakRead = s.peakRead := rfl
@[simp] theorem modQp_pmuPart : (s.modQp n q).pmuPart = s.pmuPart := rfl
@[simp] theorem modQp_pmuLast : (s.modQp n q).pmuLast = s.pmuLast := rfl
@[simp] theorem modQp_countdown : (s.modQp n q).countdown = s.countdown := rfl
@[simp] theorem modQp_lfsr : (s.modQp n q).lfsr = s.lfsr := rfl
@[simp] theorem modQp_tags : (s.modQp n q).tags = s.tags := rfl
@[simp] theorem modQp_tagNo : (s.modQp n q).tagNo = s.tagNo := rfl
@[simp] theorem modQp_sampleLost : (s.modQp n q).sampleLost = s.sampleLost := rfl
@[simp] theorem modQp_fresh : (s.modQp n q).fresh = s.fresh := rfl
@[simp] theorem modQp_out : (s.modQp n q).out = s.out := rfl
@[simp] theorem setCtx_pending : (s.setCtx x y).pending = s.pending := rfl
@[simp] theorem setCtx_regs : (s.setCtx x y).regs = s.regs := rfl
@[simp] theorem setCtx_now : (s.setCtx x y).now = s.now := rfl
@[simp] theorem setCtx_clock : (s.setCtx x y).clock = s.clock := rfl
@[simp] theorem setCtx_slew : (s.setCtx x y).slew = s.slew := rfl
@[simp] theorem setCtx_slewTicks : (s.setCtx x y).slewTicks = s.slewTicks := rfl
@[simp] theorem setCtx_goodOffsets : (s.setCtx x y).goodOffsets = s.goodOffsets := rfl
@[simp] theorem setCtx_lastSync : (s.setCtx x y).lastSync = s.lastSync := rfl
@[simp] theorem setCtx_lastAnnounce : (s.setCtx x y).lastAnnounce = s.lastAnnounce := rfl
@[simp] theorem setCtx_best : (s.setCtx x y).best = s.best := rfl
@[simp] theorem setCtx_holdStart : (s.setCtx x y).holdStart = s.holdStart := rfl
@[simp] theorem setCtx_holdErr : (s.setCtx x y).holdErr = s.holdErr := rfl
@[simp] theorem setCtx_lastPps : (s.setCtx x y).lastPps = s.lastPps := rfl
@[simp] theorem setCtx_mem : (s.setCtx x y).mem = s.mem := rfl
@[simp] theorem setCtx_poison : (s.setCtx x y).poison = s.poison := rfl
@[simp] theorem setCtx_hdm : (s.setCtx x y).hdm = s.hdm := rfl
@[simp] theorem setCtx_jobs : (s.setCtx x y).jobs = s.jobs := rfl
@[simp] theorem setCtx_roster : (s.setCtx x y).roster = s.roster := rfl
@[simp] theorem setCtx_cached : (s.setCtx x y).cached = s.cached := rfl
@[simp] theorem setCtx_dirty : (s.setCtx x y).dirty = s.dirty := rfl
@[simp] theorem setCtx_txns : (s.setCtx x y).txns = s.txns := rfl
@[simp] theorem setCtx_nextTxn : (s.setCtx x y).nextTxn = s.nextTxn := rfl
@[simp] theorem setCtx_feOut : (s.setCtx x y).feOut = s.feOut := rfl
@[simp] theorem setCtx_feSeen : (s.setCtx x y).feSeen = s.feSeen := rfl
@[simp] theorem setCtx_waitingChunks : (s.setCtx x y).waitingChunks = s.waitingChunks := rfl
@[simp] theorem setCtx_rings : (s.setCtx x y).rings = s.rings := rfl
@[simp] theorem setCtx_logs : (s.setCtx x y).logs = s.logs := rfl
@[simp] theorem setCtx_logLost : (s.setCtx x y).logLost = s.logLost := rfl
@[simp] theorem setCtx_channels : (s.setCtx x y).channels = s.channels := rfl
@[simp] theorem setCtx_hailCount : (s.setCtx x y).hailCount = s.hailCount := rfl
@[simp] theorem setCtx_hailSession : (s.setCtx x y).hailSession = s.hailSession := rfl
@[simp] theorem setCtx_hailDue : (s.setCtx x y).hailDue = s.hailDue := rfl
@[simp] theorem setCtx_qps : (s.setCtx x y).qps = s.qps := rfl
@[simp] theorem setCtx_openWrites : (s.setCtx x y).openWrites = s.openWrites := rfl
@[simp] theorem setCtx_revoking : (s.setCtx x y).revoking = s.revoking := rfl
@[simp] theorem setCtx_missQueue : (s.setCtx x y).missQueue = s.missQueue := rfl
@[simp] theorem setCtx_qpUse : (s.setCtx x y).qpUse = s.qpUse := rfl
@[simp] theorem setCtx_waiting : (s.setCtx x y).waiting = s.waiting := rfl
@[simp] theorem setCtx_store : (s.setCtx x y).store = s.store := rfl
@[simp] theorem setCtx_arrays : (s.setCtx x y).arrays = s.arrays := rfl
@[simp] theorem setCtx_groups : (s.setCtx x y).groups = s.groups := rfl
@[simp] theorem setCtx_opCount : (s.setCtx x y).opCount = s.opCount := rfl
@[simp] theorem setCtx_handles : (s.setCtx x y).handles = s.handles := rfl
@[simp] theorem setCtx_locks : (s.setCtx x y).locks = s.locks := rfl
@[simp] theorem setCtx_lockWait : (s.setCtx x y).lockWait = s.lockWait := rfl
@[simp] theorem setCtx_armed : (s.setCtx x y).armed = s.armed := rfl
@[simp] theorem setCtx_passed : (s.setCtx x y).passed = s.passed := rfl
@[simp] theorem setCtx_unitFaults : (s.setCtx x y).unitFaults = s.unitFaults := rfl
@[simp] theorem setCtx_remap : (s.setCtx x y).remap = s.remap := rfl
@[simp] theorem setCtx_scrubRead : (s.setCtx x y).scrubRead = s.scrubRead := rfl
@[simp] theorem setCtx_scrubNext : (s.setCtx x y).scrubNext = s.scrubNext := rfl
@[simp] theorem setCtx_noiseFifo : (s.setCtx x y).noiseFifo = s.noiseFifo := rfl
@[simp] theorem setCtx_katRuns : (s.setCtx x y).katRuns = s.katRuns := rfl
@[simp] theorem setCtx_wireWait : (s.setCtx x y).wireWait = s.wireWait := rfl
@[simp] theorem setCtx_staged : (s.setCtx x y).staged = s.staged := rfl
@[simp] theorem setCtx_swBytes : (s.setCtx x y).swBytes = s.swBytes := rfl
@[simp] theorem setCtx_reseedAt : (s.setCtx x y).reseedAt = s.reseedAt := rfl
@[simp] theorem setCtx_genCount : (s.setCtx x y).genCount = s.genCount := rfl
@[simp] theorem setCtx_latches : (s.setCtx x y).latches = s.latches := rfl
@[simp] theorem setCtx_keyMat : (s.setCtx x y).keyMat = s.keyMat := rfl
@[simp] theorem setCtx_keyTag : (s.setCtx x y).keyTag = s.keyTag := rfl
@[simp] theorem setCtx_aliasPriv : (s.setCtx x y).aliasPriv = s.aliasPriv := rfl
@[simp] theorem setCtx_devidPub : (s.setCtx x y).devidPub = s.devidPub := rfl
@[simp] theorem setCtx_endorse : (s.setCtx x y).endorse = s.endorse := rfl
@[simp] theorem setCtx_tagKey : (s.setCtx x y).tagKey = s.tagKey := rfl
@[simp] theorem setCtx_fwVersion : (s.setCtx x y).fwVersion = s.fwVersion := rfl
@[simp] theorem setCtx_fuseSvn : (s.setCtx x y).fuseSvn = s.fuseSvn := rfl
@[simp] theorem setCtx_flash : (s.setCtx x y).flash = s.flash := rfl
@[simp] theorem setCtx_spdm : (s.setCtx x y).spdm = s.spdm := rfl
@[simp] theorem setCtx_tspLocked : (s.setCtx x y).tspLocked = s.tspLocked := rfl
@[simp] theorem setCtx_ideOn : (s.setCtx x y).ideOn = s.ideOn := rfl
@[simp] theorem setCtx_inputOn : (s.setCtx x y).inputOn = s.inputOn := rfl
@[simp] theorem setCtx_holds : (s.setCtx x y).holds = s.holds := rfl
@[simp] theorem setCtx_trips : (s.setCtx x y).trips = s.trips := rfl
@[simp] theorem setCtx_lastBoot : (s.setCtx x y).lastBoot = s.lastBoot := rfl
@[simp] theorem setCtx_outageFrom : (s.setCtx x y).outageFrom = s.outageFrom := rfl
@[simp] theorem setCtx_domMoves : (s.setCtx x y).domMoves = s.domMoves := rfl
@[simp] theorem setCtx_portDown : (s.setCtx x y).portDown = s.portDown := rfl
@[simp] theorem setCtx_throttleCap : (s.setCtx x y).throttleCap = s.throttleCap := rfl
@[simp] theorem setCtx_hotPorts : (s.setCtx x y).hotPorts = s.hotPorts := rfl
@[simp] theorem setCtx_throttleAt : (s.setCtx x y).throttleAt = s.throttleAt := rfl
@[simp] theorem setCtx_dvfsAt : (s.setCtx x y).dvfsAt = s.dvfsAt := rfl
@[simp] theorem setCtx_creditAt : (s.setCtx x y).creditAt = s.creditAt := rfl
@[simp] theorem setCtx_trst : (s.setCtx x y).trst = s.trst := rfl
@[simp] theorem setCtx_testMode : (s.setCtx x y).testMode = s.testMode := rfl
@[simp] theorem setCtx_cells : (s.setCtx x y).cells = s.cells := rfl
@[simp] theorem setCtx_peakBase : (s.setCtx x y).peakBase = s.peakBase := rfl
@[simp] theorem setCtx_peakRead : (s.setCtx x y).peakRead = s.peakRead := rfl
@[simp] theorem setCtx_pmuPart : (s.setCtx x y).pmuPart = s.pmuPart := rfl
@[simp] theorem setCtx_pmuLast : (s.setCtx x y).pmuLast = s.pmuLast := rfl
@[simp] theorem setCtx_countdown : (s.setCtx x y).countdown = s.countdown := rfl
@[simp] theorem setCtx_lfsr : (s.setCtx x y).lfsr = s.lfsr := rfl
@[simp] theorem setCtx_tags : (s.setCtx x y).tags = s.tags := rfl
@[simp] theorem setCtx_tagNo : (s.setCtx x y).tagNo = s.tagNo := rfl
@[simp] theorem setCtx_sampleLost : (s.setCtx x y).sampleLost = s.sampleLost := rfl
@[simp] theorem setCtx_fresh : (s.setCtx x y).fresh = s.fresh := rfl
@[simp] theorem setCtx_out : (s.setCtx x y).out = s.out := rfl
@[simp] theorem setArray_pending : (s.setArray e ar).pending = s.pending := rfl
@[simp] theorem setArray_regs : (s.setArray e ar).regs = s.regs := rfl
@[simp] theorem setArray_now : (s.setArray e ar).now = s.now := rfl
@[simp] theorem setArray_clock : (s.setArray e ar).clock = s.clock := rfl
@[simp] theorem setArray_slew : (s.setArray e ar).slew = s.slew := rfl
@[simp] theorem setArray_slewTicks : (s.setArray e ar).slewTicks = s.slewTicks := rfl
@[simp] theorem setArray_goodOffsets : (s.setArray e ar).goodOffsets = s.goodOffsets := rfl
@[simp] theorem setArray_lastSync : (s.setArray e ar).lastSync = s.lastSync := rfl
@[simp] theorem setArray_lastAnnounce : (s.setArray e ar).lastAnnounce = s.lastAnnounce := rfl
@[simp] theorem setArray_best : (s.setArray e ar).best = s.best := rfl
@[simp] theorem setArray_holdStart : (s.setArray e ar).holdStart = s.holdStart := rfl
@[simp] theorem setArray_holdErr : (s.setArray e ar).holdErr = s.holdErr := rfl
@[simp] theorem setArray_lastPps : (s.setArray e ar).lastPps = s.lastPps := rfl
@[simp] theorem setArray_mem : (s.setArray e ar).mem = s.mem := rfl
@[simp] theorem setArray_poison : (s.setArray e ar).poison = s.poison := rfl
@[simp] theorem setArray_hdm : (s.setArray e ar).hdm = s.hdm := rfl
@[simp] theorem setArray_jobs : (s.setArray e ar).jobs = s.jobs := rfl
@[simp] theorem setArray_roster : (s.setArray e ar).roster = s.roster := rfl
@[simp] theorem setArray_cached : (s.setArray e ar).cached = s.cached := rfl
@[simp] theorem setArray_dirty : (s.setArray e ar).dirty = s.dirty := rfl
@[simp] theorem setArray_txns : (s.setArray e ar).txns = s.txns := rfl
@[simp] theorem setArray_nextTxn : (s.setArray e ar).nextTxn = s.nextTxn := rfl
@[simp] theorem setArray_feOut : (s.setArray e ar).feOut = s.feOut := rfl
@[simp] theorem setArray_feSeen : (s.setArray e ar).feSeen = s.feSeen := rfl
@[simp] theorem setArray_waitingChunks : (s.setArray e ar).waitingChunks = s.waitingChunks := rfl
@[simp] theorem setArray_rings : (s.setArray e ar).rings = s.rings := rfl
@[simp] theorem setArray_logs : (s.setArray e ar).logs = s.logs := rfl
@[simp] theorem setArray_logLost : (s.setArray e ar).logLost = s.logLost := rfl
@[simp] theorem setArray_channels : (s.setArray e ar).channels = s.channels := rfl
@[simp] theorem setArray_hailCount : (s.setArray e ar).hailCount = s.hailCount := rfl
@[simp] theorem setArray_hailSession : (s.setArray e ar).hailSession = s.hailSession := rfl
@[simp] theorem setArray_hailDue : (s.setArray e ar).hailDue = s.hailDue := rfl
@[simp] theorem setArray_qps : (s.setArray e ar).qps = s.qps := rfl
@[simp] theorem setArray_openWrites : (s.setArray e ar).openWrites = s.openWrites := rfl
@[simp] theorem setArray_revoking : (s.setArray e ar).revoking = s.revoking := rfl
@[simp] theorem setArray_missQueue : (s.setArray e ar).missQueue = s.missQueue := rfl
@[simp] theorem setArray_qpUse : (s.setArray e ar).qpUse = s.qpUse := rfl
@[simp] theorem setArray_contexts : (s.setArray e ar).contexts = s.contexts := rfl
@[simp] theorem setArray_waiting : (s.setArray e ar).waiting = s.waiting := rfl
@[simp] theorem setArray_store : (s.setArray e ar).store = s.store := rfl
@[simp] theorem setArray_groups : (s.setArray e ar).groups = s.groups := rfl
@[simp] theorem setArray_opCount : (s.setArray e ar).opCount = s.opCount := rfl
@[simp] theorem setArray_handles : (s.setArray e ar).handles = s.handles := rfl
@[simp] theorem setArray_locks : (s.setArray e ar).locks = s.locks := rfl
@[simp] theorem setArray_lockWait : (s.setArray e ar).lockWait = s.lockWait := rfl
@[simp] theorem setArray_armed : (s.setArray e ar).armed = s.armed := rfl
@[simp] theorem setArray_passed : (s.setArray e ar).passed = s.passed := rfl
@[simp] theorem setArray_unitFaults : (s.setArray e ar).unitFaults = s.unitFaults := rfl
@[simp] theorem setArray_remap : (s.setArray e ar).remap = s.remap := rfl
@[simp] theorem setArray_scrubRead : (s.setArray e ar).scrubRead = s.scrubRead := rfl
@[simp] theorem setArray_scrubNext : (s.setArray e ar).scrubNext = s.scrubNext := rfl
@[simp] theorem setArray_noiseFifo : (s.setArray e ar).noiseFifo = s.noiseFifo := rfl
@[simp] theorem setArray_katRuns : (s.setArray e ar).katRuns = s.katRuns := rfl
@[simp] theorem setArray_wireWait : (s.setArray e ar).wireWait = s.wireWait := rfl
@[simp] theorem setArray_staged : (s.setArray e ar).staged = s.staged := rfl
@[simp] theorem setArray_swBytes : (s.setArray e ar).swBytes = s.swBytes := rfl
@[simp] theorem setArray_reseedAt : (s.setArray e ar).reseedAt = s.reseedAt := rfl
@[simp] theorem setArray_genCount : (s.setArray e ar).genCount = s.genCount := rfl
@[simp] theorem setArray_latches : (s.setArray e ar).latches = s.latches := rfl
@[simp] theorem setArray_keyMat : (s.setArray e ar).keyMat = s.keyMat := rfl
@[simp] theorem setArray_keyTag : (s.setArray e ar).keyTag = s.keyTag := rfl
@[simp] theorem setArray_aliasPriv : (s.setArray e ar).aliasPriv = s.aliasPriv := rfl
@[simp] theorem setArray_devidPub : (s.setArray e ar).devidPub = s.devidPub := rfl
@[simp] theorem setArray_endorse : (s.setArray e ar).endorse = s.endorse := rfl
@[simp] theorem setArray_tagKey : (s.setArray e ar).tagKey = s.tagKey := rfl
@[simp] theorem setArray_fwVersion : (s.setArray e ar).fwVersion = s.fwVersion := rfl
@[simp] theorem setArray_fuseSvn : (s.setArray e ar).fuseSvn = s.fuseSvn := rfl
@[simp] theorem setArray_flash : (s.setArray e ar).flash = s.flash := rfl
@[simp] theorem setArray_spdm : (s.setArray e ar).spdm = s.spdm := rfl
@[simp] theorem setArray_tspLocked : (s.setArray e ar).tspLocked = s.tspLocked := rfl
@[simp] theorem setArray_ideOn : (s.setArray e ar).ideOn = s.ideOn := rfl
@[simp] theorem setArray_inputOn : (s.setArray e ar).inputOn = s.inputOn := rfl
@[simp] theorem setArray_holds : (s.setArray e ar).holds = s.holds := rfl
@[simp] theorem setArray_trips : (s.setArray e ar).trips = s.trips := rfl
@[simp] theorem setArray_lastBoot : (s.setArray e ar).lastBoot = s.lastBoot := rfl
@[simp] theorem setArray_outageFrom : (s.setArray e ar).outageFrom = s.outageFrom := rfl
@[simp] theorem setArray_domMoves : (s.setArray e ar).domMoves = s.domMoves := rfl
@[simp] theorem setArray_portDown : (s.setArray e ar).portDown = s.portDown := rfl
@[simp] theorem setArray_throttleCap : (s.setArray e ar).throttleCap = s.throttleCap := rfl
@[simp] theorem setArray_hotPorts : (s.setArray e ar).hotPorts = s.hotPorts := rfl
@[simp] theorem setArray_throttleAt : (s.setArray e ar).throttleAt = s.throttleAt := rfl
@[simp] theorem setArray_dvfsAt : (s.setArray e ar).dvfsAt = s.dvfsAt := rfl
@[simp] theorem setArray_creditAt : (s.setArray e ar).creditAt = s.creditAt := rfl
@[simp] theorem setArray_trst : (s.setArray e ar).trst = s.trst := rfl
@[simp] theorem setArray_testMode : (s.setArray e ar).testMode = s.testMode := rfl
@[simp] theorem setArray_cells : (s.setArray e ar).cells = s.cells := rfl
@[simp] theorem setArray_peakBase : (s.setArray e ar).peakBase = s.peakBase := rfl
@[simp] theorem setArray_peakRead : (s.setArray e ar).peakRead = s.peakRead := rfl
@[simp] theorem setArray_pmuPart : (s.setArray e ar).pmuPart = s.pmuPart := rfl
@[simp] theorem setArray_pmuLast : (s.setArray e ar).pmuLast = s.pmuLast := rfl
@[simp] theorem setArray_countdown : (s.setArray e ar).countdown = s.countdown := rfl
@[simp] theorem setArray_lfsr : (s.setArray e ar).lfsr = s.lfsr := rfl
@[simp] theorem setArray_tags : (s.setArray e ar).tags = s.tags := rfl
@[simp] theorem setArray_tagNo : (s.setArray e ar).tagNo = s.tagNo := rfl
@[simp] theorem setArray_sampleLost : (s.setArray e ar).sampleLost = s.sampleLost := rfl
@[simp] theorem setArray_fresh : (s.setArray e ar).fresh = s.fresh := rfl
@[simp] theorem setArray_out : (s.setArray e ar).out = s.out := rfl

end Sys2Proof.Machine
end

