-- ==== Sys2Proof/Laws/Rdma.lean ====
section
/-! SUPPORT. What the request checks of the responder find on a queue pair that is not sealed. -/

namespace Sys2Proof.Machine

/-- A request with the expected PSN on an unsealed queue pair in its state, on its port and of a class that the request may use: it goes on, past its PSNs (R467, R468). -/
theorem arrive_proceed (s : State) (p : Packet) (n : Nat) (ok : Nat → Bool) (h1 : portOn s p.port = true)
    (h2 : fget s RDMA_QP_CFG.TYPE p.q 0 ≠ 1) (h3 : qpState s p.q = 2 ∨ qpState s p.q = 3) (h4 : fget s RDMA_QP_CFG.PORT p.q 0 = p.port.val)
    (h5 : fget s RDMA_QP_CFG.SEALED p.q 0 = 0) (h6 : p.psn.toNat = fget s RDMA_QP_PSN.RQ_PSN p.q 0)
    (h7 : ok (fget (fset s RDMA_QP_PSN.RQ_PSN p.q 0 (p.psn.toNat + n)) RDMA_QP_CFG.CLASS p.q 0) = true) :
    arrive s p n ok = (.proceed p.data, fset s RDMA_QP_PSN.RQ_PSN p.q 0 (p.psn.toNat + n)) := by
  have h3' : ¬ (qpState s p.q ≠ 2 ∧ qpState s p.q ≠ 3) := by omega
  unfold arrive
  rw [if_neg (by simp [h1]), if_neg (by simp only [h2, h3', h4]; simp)]
  simp only [openSeal, h5, if_true]
  rw [if_pos h6, ← h6, if_pos h7]

end Sys2Proof.Machine
end

