-- ==== Sys2Proof/WellFormed.lean ====
section
/-! DEFINITION. Which commands the outside world can send: the lengths and ranges that the spec gives a command's operands and that their types do not say. A step does not ask for it; it says of which commands the spec speaks. -/

namespace Sys2Proof

/-- The largest SEND that the transport carries (PRESUMED, InfiniBand; assumption 23); Landing itself refuses one that R52 calls too long. -/
def maxChunk : Nat := 2 ^ 31

/-- Whether an inbound packet is of a form that arrives: its data is at most an MTU of 4096 bytes (R467). -/
def Packet.wf (p : Packet) : Bool := decide (p.data.length ≤ 4096) && decide (p.va < 2 ^ 64) && decide (p.len < 2 ^ 31)

/-- Whether a bank access carries whole elements and stays inside one line (R155, R183). -/
def lineWf (a : VatAddr) (size n : Nat) : Bool :=
  decide (n ≠ 0) && decide (n % size = 0) && decide (a.val % size = 0) && decide (a.val % 64 + n ≤ 64)

/-- Whether a write or an element-wise operation carries whole elements and touches at most two lines (R155, R183, R186). -/
def spanWf (a : VatAddr) (size n : Nat) : Bool :=
  decide (n ≠ 0) && decide (n % size = 0) && decide (a.val % size = 0) && decide (a.val % 64 + n ≤ 128)

/-- Whether an invocation by a round core names at most four arguments of 64 bits (R363). -/
def CoreInvoke.wf (c : CoreInvoke) : Bool := decide (c.args.length ≤ 4) && c.args.all (fun a => decide (a < 2 ^ 64))

/-- Whether wrong cells name cells of a tile (R210). -/
def cellsWf (w : List (Nat × Int)) : Bool := w.all (fun e => decide (e.1 < 16384))

/-- Whether a register access is of 1, 2, 4 or 8 bytes inside the function's BAR0: 64 MiB for PF0, 64 KiB for a VF (R402, R403). -/
def accessWf (f : Func) (off size : Nat) : Bool :=
  (size == 1 || size == 2 || size == 4 || size == 8) && decide (off + size ≤ if f = 16 then 2 ^ 26 else 2 ^ 16)

/-- Whether a command can be sent. -/
def Instr.wf : Instr → Bool
  | .joinChunk _ _ c => decide (c.length ≤ maxChunk)
  | .sharesChunk _ _ c => decide (c.length ≤ maxChunk)
  | .uploadChunk _ _ c => decide (c.length ≤ maxChunk)
  | .sealedUploadPiece _ _ c => decide (c.length ≤ maxChunk)
  | .unmaskSharesChunk _ _ c => decide (c.length ≤ maxChunk)
  | .manifest _ _ c => decide (c.length ≤ maxChunk)
  | .abortChunk _ _ c => decide (c.length ≤ maxChunk)
  | .fetchChunk _ c => decide (c.length ≤ maxChunk)
  | .shortSend _ c => decide (c.length < 32)
  | .unknownTypeChunk _ _ c => decide (c.length ≤ maxChunk)
  | .lineWrite _ a d _ => spanWf a 1 d.length
  | .radd _ a _ d _ => (d.length == 32 || d.length == 64) && decide (a.val % d.length = 0)
  | .gadd _ a _ _ _ => lineWf a 8 8
  | .add64 _ a _ _ _ => lineWf a 8 8
  | .fadd _ a d _ => spanWf a 4 d.length
  | .maxMin _ a op _ _ _ => let n := if op = .maxS64 ∨ op = .minS64 then 8 else 4; lineWf a n n
  | .cas64 _ a _ _ _ => lineWf a 8 8
  | .tileDrain _ w => cellsWf w
  | .chainCheck _ _ w => cellsWf w
  | .invoke _ c => (c.map CoreInvoke.wf).getD true
  | .descriptorFetch _ d => d.length == 64
  | .rdmaWrite p => p.wf
  | .rdmaRead p => p.wf
  | .atomicAdd p _ => p.wf
  | .compareAndSwap p _ _ => p.wf
  | .rdmaFlush p => p.wf
  | .peerDoneWrite p _ => p.wf
  | .hdmAccess _ w => (w.map (fun d => d.length == 64)).getD true
  | .rclRead f off size => accessWf f off size
  | .registerWrite f off size v => accessWf f off size && decide (v.toNat < 2 ^ (8 * size))
  | .deniedRegisterRead f off size => accessWf f off size
  | _ => true

end Sys2Proof
end

