-- ==== Sys2Proof/Tests/Slice0.lean ====
section
/-! SUPPORT. Small states, a witness for the hypotheses of every statement, the checks of WellFormed, and tests of single steps. -/

set_option Elab.async false
set_option linter.unusedVariables false

open Sys2Proof Sys2Proof.Machine

namespace Sys2Proof.Tests

/-- The reset state with fields (field, copy, copy, value) set. -/
def st (l : List (Fld × Nat × Nat × Nat)) : State := l.foldl (fun s e => fset s e.1 e.2.1 e.2.2.1 e.2.2.2) State.reset

/-- A plan: two cohorts of four slots, eight coordinates in two chunks, Offer at 10, the later phases at 20, 30 and so on. -/
def plan (sealing ring : Nat) : Bytes :=
  let p := toBe 1 sealing ++ [4] ++ toBe 1 ring ++ [1] ++ toBe 2 1 ++ toBe 2 1 ++ toBe 4 4 ++ toBe 4 2 ++ toBe 4 8 ++ toBe 4 8 ++ toBe 4 16 ++
    toBe 4 4 ++ zeros 8 ++ toBe 8 10 ++ toBe 8 20 ++ toBe 8 30 ++ toBe 8 40 ++ toBe 8 50 ++ toBe 8 60 ++ toBe 8 70 ++ toBe 8 80
  p ++ zeros (256 - p.length)

/-- A round of that plan past its Offer. -/
def rd (p : Bytes) (begun : List Nat) : Round :=
  { newRound 1 9 p with offerDone := true, priv := 1, begunAt := begun.map (fun n => (n, 10 * n)) }

/-- A job with one round. -/
def jb (x : Round) : Job := { Job.absent with present := true, rounds := [x], nextRound := 2 }

/-- A state whose job 0 holds a round. -/
def withRound (s : State) (x : Round) : State := { s with jobs := s.jobs.set 0 (jb x) }

/-- Landing enabled, with front-end 0 of job 0 on queue pair 5. -/
def landing (l : List (Fld × Nat × Nat × Nat)) : State :=
  st ([(LND_CTRL.ENABLE, 0, 0, 1), (LND_CTRL.PORT_EN, 0, 0, 1), (LND_FE_CFG.VALID, 0, 0, 1), (LND_FE_CFG.SLOT_COUNT, 0, 0, 8),
    (ROS_JOB_RANGE.COUNT, 0, 0, 8), (LND_JOB_TAG.TAG, 0, 0, 7), (RDMA_QP_CFG.STATE, 5, 0, 3), (TOL_CTRL.ENABLE, 0, 0, 1),
    (CUL_CTRL.ENABLE, 0, 0, 1), (ENT_STATUS.STATE, 0, 0, 1)] ++ l)

/-- The point G, whose private key is 1. -/
def pG : Bytes := encodePt p384G

/-- The keys of a client of slot 0 in round 1 under JOB_TAG 7, whose ephemeral key and whose round key are both 1. -/
def keyRec : KeyRec :=
  ⟨true, 0x674de414c29c0a1df32244ab0f95f084c1fc17e29acf849378c899f0dfd988f8, 0x8e203b556bc390561d984cc1752bd781cfce2fb4ac204884c38f4c8917fc972, pG, pG⟩

/-- The Roster entry of slot 0 in a state of round 1. -/
def entry (st : CState) : Entry := { Entry.free with valid := true, state := st, round := 1, version3 := true }

/-- Front-end 0's client in slot 0 in a state, its keys on record. -/
def client (x : Round) (c : CState) : State :=
  { withRound (landing []) { x with keys := putN x.keys 0 (keyRec) } with roster := [(0, entry c)] }

/-- The look at slot 0. -/
def look0 (s : State) : Look := lookAt s 0 0 (((s.job 0).round? 1).getD (newRound 0 0 [])) 0

/-- Slot 0 with neighbours 1 and 2 in Shares. -/
def sharesRd : Round := { rd (plan 0 16) [1, 2, 3, 4] with nbrs := [(0, [1, 2])], bundleKey := some 7 }

/-- One bundle of zeros, to slot 1. -/
def sharesPt : Bytes := [0, 1, 0, 0] ++ toBe 4 1 ++ toBe 4 120 ++ zeros 120

/-- A round in Unmask that asked slot 0 for a share of slot 1's seed. -/
def unmaskRd : Round := { rd (plan 0 16) [1, 2, 3, 4, 5, 6, 7] with requested := [(0, [(1, false)])] }

/-- One share, of slot 1's seed. -/
def unmaskPt : Bytes := [0, 1, 0, 0] ++ toBe 4 1 ++ [2, 0, 0, 0] ++ toBe 48 5

/-- The JOIN of that client, both points G. -/
def joinC : Bytes := toBe 242 0x301000200000007000000010000000000000000000000c2000000000000000004aa87ca22be8b05378eb1c71ef320ad746e1d3b628ba79b9859f741e082542a385502f25dbf55296c3a545e3872760ab73617de4a96262c6f5d9e98bf9292dc29f8f41dbd289a147ce9da3113b5f0b8c00a60b1ce1d7e819d7a431d7c90ea0e5f04aa87ca22be8b05378eb1c71ef320ad746e1d3b628ba79b9859f741e082542a385502f25dbf55296c3a545e3872760ab73617de4a96262c6f5d9e98bf9292dc29f8f41dbd289a147ce9da3113b5f0b8c00a60b1ce1d7e819d7a431d7c90ea0e5fe1575d87c3b126fb555f7eed8da50cb9

/-- SHARES with one bundle of zeros, to slot 1, encrypted and tagged under that key. -/
def sharesC : Bytes := toBe 180 0x302000300000007000000010000000000000000000000840000000000000000fff8e1cdb171f993a6abcc6639dedf71e2850642671c2f97e9596f398c5b9258b3996d18182724b7fd25c0a497f648b4dd8bce5b826c73a62ba4b3331cd1df53164bcabe4464ada14b5a07f34e77df95bb12922f773e52a3a41a872c636eae2dcb7f4d5e2bbae3e190a8548a6e3212ff2365697e7238ac6c04cf36cdd51ab4ee9c40544bd7db3a03a5a35b8825a372c24640ec0e

/-- UNMASK_SHARES with one share, 5, of slot 1's seed. -/
def unmaskC : Bytes := toBe 108 0x3040003000000070000000100000000000000000000003c00000000000000009b4fd96c82b1a66d816d88122b671b5c20be6e248c85122e131b3bedeb47cabd055fa43a881d864abfa3809fd3f3b59f6e80df506573ae88a34ff3a795259d1061c74e1a7262d985d6cbeae8

/-- ABORT with REASON 9. -/
def abortC : Bytes := toBe 52 0x3050003000000070000000100000000000000000000000400000000000000004e7fdd6f790aae36fafc829b6b0b8cb36566362b

/-- A round in Upload. -/
def uploadRd : Round := rd (plan 0 16) [1, 2, 3, 4, 5]

/-- UPLOAD of chunk 1 with the elements 1, 2, 3, 4. -/
def uploadC : Bytes := toBe 56 0x30300030000000700000001000000000000000100000008000000000000000041757b8336cc7f1c318a30754786d5342f361f08419173e4

/-- A transaction of slot 0's chunk 1. -/
def txn0 : Txn := ⟨0, 1, 0, 1, 5, slice uploadC 0 32, [1, 2, 3, 4], [0, 0, 0, 0], false, []⟩

/-- The plan of a sealed round with a parameter set, one ciphertext in the slice, and one group whose member is a slot. -/
def sealedPlan (set m : Nat) : Bytes :=
  let p := (plan 1 16).take 16 ++ toBe 4 16384 ++ (plan 1 16).drop 20
  p.take 202 ++ toBe 2 172 ++ p.drop 204 ++ [1] ++ toBe 1 set ++ [1] ++ zeros 5 ++ toBe 8 3 ++ zeros 80 ++ toBe 8 4 ++ [1] ++ zeros 3 ++ toBe 4 m ++ zeros 60

/-- A sealed round in Upload whose member is slot 7. -/
def sealedRd0 : Round := rd (sealedPlan 2 7) [1, 2, 3, 4, 5]
def sealedRd : Round := { sealedRd0 with keys := [(0, keyRec)] }

/-- A transaction of a sealed piece of slot 0. -/
def sealedTxn : Txn := { txn0 with sealing := true }
def sealedSt : State := { client sealedRd0 .UPLOADING with txns := [(0, sealedTxn)] }

/-- A sealed round in Unmask whose member is slot 0. -/
def memberRd : Round := { rd (sealedPlan 1 0) [1, 2, 3, 4, 5, 6, 7] with closed := true, closeTable := [(0, closeRec (sealedPlan 1 0) 0 (entry .JOINED))] }

/-- That member's client, its import region 4 live and writable. -/
def memberSt : State :=
  let s := client memberRd .JOINED
  [(RDMA_REG_CFG.STATE, 1), (RDMA_REG_CFG.KIND, 3), (RDMA_REG_CFG.RIGHTS, 2), (RIND_CTRL.ENABLE, 1)].foldl
    (fun t e => if e.1 = RIND_CTRL.ENABLE then set1 t e.1 1 else fset t e.1 0 4 e.2) s

/-- A manifest with no record and a digest of zeros. -/
def manifestPt : Bytes := zeros 64

def manifestC : Bytes := toBe 112 0x3040003000000070000000100000000000000000000004000000000000000009b4ed96c82b1a66c836d88122b671b5c20be6e248c85122e131b3bedeb47cabd055fa43a881d864abfa3809fd3f3b59f6e80df506573ae88a34ff3a2b66ea897714c25f6001b9d95e703301267820a59

/-- A manifest that awaits its hash: of an empty area, and one with another digest. -/
def hashM : Manifest :=
  ⟨0, 0, toBe 48 0x38b060a751ac96384cd9327eb1b1e36a21fdb71114be07434c0cc7bf63f6e1da274edebfe76f65fbd51ad2f14898b95b, 0, true, false, 5, slice manifestC 0 32, [], true⟩
def hashRd : Round := { memberRd with keys := [(0, keyRec)], manifests := [(0, hashM)] }
def badHashRd : Round := { memberRd with keys := [(0, keyRec)], manifests := [(0, { hashM with digest := [] })] }
def hashSt : State := { memberSt with jobs := memberSt.jobs.set 0 (jb hashRd) }
def badHashSt : State := { memberSt with jobs := memberSt.jobs.set 0 (jb badHashRd) }

/-- No line of a state is poisoned where none is listed. -/
theorem notPoisoned (s : State) (j : JobId) (a n : Nat) (h : s.poison = []) : poisoned s j a n = false := by
  simp [poisoned, h]

theorem noPoison (s : State) (j : JobId) (ps : List (Nat × Nat)) (h : s.poison = []) : metPoison s j ps = none := by
  simp [metPoison, h]

/-- A closed round whose cohorts are compared. -/
def closedRd : Round :=
  { rd (plan 0 16) [1, 2, 3, 4, 5, 6] with closed := true, cohorts := [(0, { Cohort.empty with checked := true }), (1, { Cohort.empty with checked := true })] }

/-- A closed round whose first cohort awaits its comparison. -/
def checkRd : Round :=
  { rd (plan 0 16) [1, 2, 3, 4, 5, 6] with closed := true, cohorts := [(0, { Cohort.empty with checkKey := some 5 })] }
def checkSt : State := withRound (landing []) checkRd

/-- A planned round at its Offer time, and the state of its Offer before the messages are sent. -/
def offerSt : State := { withRound (landing []) (newRound 1 9 (plan 0 16)) with now := 10 }
def offerSt1 : State := doubtfulCloses (fireEntry offerSt (phaseEntry 0 1 0) false) 0 (newRound 1 9 (plan 0 16)) 1
def offerSt2 : State :=
  fillSlot (tollDone (drawScalar (served offerSt1 1)).2 (some 0) 1 0)
    (((drawScalar (served offerSt1 1)).2.job 0).roundSlot 1) 2 0 2 1 0 (toBe 48 (drawScalar (served offerSt1 1)).1)
def offerSt3 : State :=
  let t := (offerSt2.modRound 0 1 (fun x => { x with
    offerDone := true
    priv := (drawScalar (served offerSt1 1)).1
    pub := publicOf (drawScalar (served offerSt1 1)).1
    lockedKeys := usedEntries (offerSt2.job 0) x.plan })).modJob 0 (fun J => { J with offered := true })
  let t := fset (fset t RIND_JOB_KEYS.LOCKED 0 0 (lockedMask t 0)) ROS_JOB_COUNTS.JOINED 0 0 0
  (fesOf t 0).foldl clearFeCounts t

/-- Secrets about slot 1 that hold enough shares: its seed, its pair key 1, and a seed whose spare share does not agree. -/
def secret1 : Secret := ⟨1, false, 1, [(0, 5)], false⟩
def secret2 : Secret := ⟨1, true, 1, [(0, 1)], false⟩
def secret3 : Secret := ⟨1, false, 2, [(0, 5), (2, 6)], false⟩

/-- A closed round in Unmask whose first cohort holds secrets; slot 1's public key is G. -/
def maskRd (ss : List Secret) : Round :=
  { rd (plan 0 16) [1, 2, 3, 4, 5, 6, 7] with closed := true, keys := [(1, keyRec)], cohorts := [(0, { Cohort.empty with checked := true, survivors := [0, 2], secrets := ss })] }
def maskSt : State := withRound (landing []) (maskRd [secret1])
def maskSt2 : State := withRound (landing []) (maskRd [secret2])
def maskSt3 : State := withRound (landing [(TOL_CTRL.SPARE_WAIT, 0, 0, 1)]) (maskRd [secret3])

/-- The same with the secret done and one mask to remove. -/
def unmaskedRd : Round :=
  { maskRd [] with cohorts := [(0, { Cohort.empty with checked := true, survivors := [0, 2], secrets := [{ secret1 with done := true, shares := [] }], masks := [⟨5, false⟩] })] }

/-- A closed round whose first cohort is unmasked, and one whose ring sums leave their range. -/
def settleRd : Round := { maskRd [] with cohorts := [(0, { Cohort.empty with checked := true, survivors := [0, 2], unmasked := true, weight := 1, accum := [(0, 3)] })] }
def settleRd2 : Round := { maskRd [] with cohorts := [(0, { Cohort.empty with checked := true, survivors := [0, 2], unmasked := true, weight := 1, accum := [(0, 60000)] })] }
def settleSt : State := withRound (landing [(VAT_JOB_G64.LEN_LINES, 0, 0, 8)]) settleRd
def settleSt2 : State := withRound (landing [(VAT_JOB_G64.LEN_LINES, 0, 0, 8)]) settleRd2

/-- A closed round whose two cohorts are unmasked, the same with a screening key and settled, one past its screening, and one past Finish. -/
def gateRd0 : Round :=
  { maskRd [] with cohorts := [(0, { Cohort.empty with checked := true, unmasked := true }), (1, { Cohort.empty with checked := true, unmasked := true })] }
def gateRd0k : Round := { gateRd0 with screenKey := some 9 }
def polBytes (l : List (Nat × Bytes)) : Bytes := l.foldl (fun p e => p.take e.1 ++ e.2 ++ p.drop (e.1 + e.2.length)) (zeros 128)

/-- Screening with sixteen directions, over the round with its key. -/
def screenSt : State :=
  (withRound (landing [(PRS_CTRL.ENABLE, 0, 0, 1), (WRP_CTRL.ENABLE, 0, 0, 1), (SKM_CTRL.ENABLE, 0, 0, 1)]) gateRd0k).modJob 0 (fun J => { J with policy := polBytes [(2, [1]), (3, [16]), (6, [0, 1])] })
/-- A pair with a known first component. -/
theorem pairFst {α β : Type} {p : α × β} {a : α} (h : p.1 = a) : p = (a, p.2) := by
  cases p; subst h; rfl

/-- A round whose cohorts are settled and screened, under a policy whose RHO admits the charge, and under one whose RHO is 0. -/
def finishRd : Round :=
  { gateRd0 with
    screenDone := true
    cohorts := [(0, { Cohort.empty with settled := true }), (1, { Cohort.empty with settled := true })] }
def finishPol (rho : Nat) : Bytes :=
  polBytes [(12, toLe 4 1), (16, toLe 4 1), (32, toLe 8 0x3FF0000000000000), (40, toLe 8 rho)]
def finishSt : State := (withRound (landing [(WRP_CTRL.ENABLE, 0, 0, 1), (VAT_JOB_G64.LEN_LINES, 0, 0, 2)]) finishRd).modJob 0 (fun J => { J with policy := finishPol 0x3FF0000000000000 })
def overSt : State := (withRound (landing [(WRP_CTRL.ENABLE, 0, 0, 1)]) finishRd).modJob 0 (fun J => { J with policy := finishPol 0 })

/-- The same at its second window, its charge recorded. -/
def windowRd : Round := { finishRd with charge := some 0, windowNo := 1 }
def windowSt : State := withRound (landing [(WRP_CTRL.ENABLE, 0, 0, 1), (VAT_JOB_G64.LEN_LINES, 0, 0, 2)]) windowRd

/-- A round past Finish, and the state in which its gate decides. -/
def gateRd1 : Round := { finishRd with charge := some 0, windowNo := 1, begunAt := finishRd.begunAt ++ [(10, 90)] }
def gateSt : State := (withRound (landing [(VAT_JOB_G64.LEN_LINES, 0, 0, 8), (PRS_CTRL.ENABLE, 0, 0, 1), (SKM_CTRL.ENABLE, 0, 0, 1), (WRP_CTRL.ENABLE, 0, 0, 1)]) gateRd1).modJob 0 (fun J => { J with heldOk := true, held := some [], baseCorrect := some 0 })

/-- An RC queue pair 5 of class 2, and region 1 with every right over the first 256 bytes of job 0. -/
def rdmaFields (cls : Nat) : List (Fld × Nat × Nat × Nat) :=
  [(RDMA_QP_CFG.CLASS, 5, 0, cls), (RDMA_REG_CFG.STATE, 0, 1, 1), (RDMA_REG_CFG.RIGHTS, 0, 1, 15), (RDMA_REG_LEN.LEN, 0, 1, 256), (VAT_JOB_CTRL.ADD_OPEN, 0, 0, 1)]
def rdmaSt : State := withRound (landing (rdmaFields 2)) (maskRd [])
def rdmaWinSt : State := withRound (landing (rdmaFields 2 ++ [(VAT_JOB_G64.BASE_LINE, 0, 0, 2), (VAT_JOB_G64.LEN_LINES, 0, 0, 8)])) (maskRd [])
def packet0 : Packet := ⟨5, 0, 0, true, true, 0x100, 64, 8, zeros 8, none⟩

/-- A peer's queue pair of class 1, the round's peer-done line, and a notice of peer 0. -/
def peerSt : State :=
  withRound (landing (rdmaFields 1 ++ [(VAT_JOB_CTRL.PEERS_EXPECTED, 0, 0, 2), (VAT_JOB_G64.BASE_LINE, 0, 0, 0), (VAT_JOB_G64.LEN_LINES, 0, 0, 8)])) (maskRd [])
def peerPacket : Packet := { packet0 with va := 192 }
/-- An ACCESS queue pair in RTS. -/
def accessSt : State := landing [(RDMA_QP_CFG.CLASS, 5, 0, 2)]
def noticeSt : State := peerSt
def noticeSt2 : State := noticeSt.modQp 5 (fun x => { x with stream := some (0, 0) })
def noticeC (t : Nat) : Bytes := toBe 1 t ++ zeros 3 ++ toBe 4 7 ++ toBe 4 1 ++ toBe 4 3 ++ zeros 16
def frame0 : Frame := ⟨true, 0, none, .ipv6 0 false, 4791, true, true, 5, 100, 0, false⟩
def datagram0 : Datagram := ⟨5, 0, true, 0, []⟩

/-- A job 0 that exists and holds berth 0. -/
def berthSt : State := withRound (landing [(VAT_JOB_BERTHS.BERTH, 0, 0, 1)]) (maskRd [])

/-- A context of job 0 that serves a descriptor of stored recipe 0, at a first word of an opcode with fields, and the state that holds it in context 0 of a sequencer. -/
def word (op mod dst sa sb imm : Nat) : Word := BitVec.ofNat 64 (op * 2 ^ 56 + dst * 2 ^ 51 + sa * 2 ^ 46 + sb * 2 ^ 41 + mod * 2 ^ 32 + imm)
def ctxOf (ws : List Word) (regs : List Nat) : Ctx := newCtx State.reset ⟨0, 0, regs, some (0, false), none⟩ ws
def ctx0 (op : Nat) (regs : List Nat) : Ctx := ctxOf [word op 0 0 1 2 0, 0, 0, 0] regs
def ctxSt (s : State) (seq : Fin 7) (c : Ctx) : State := { s with contexts := [(ctxNo ⟨seq, 0⟩, c)] }

/-- A drain of tile 0 of array 0, and a check group of an invocation with one chain on array 3. -/
def drain0 : DrainRec := ⟨⟨0, 0⟩, 0, 0, [], 0, 0⟩
def drainSt : State :=
  let s := ctxSt (withRound (landing []) (maskRd [])) 0 (ctx0 0x20 [])
  s.setArray 0 { s.array 0 with drains := [drain0] }
def check0 : ChainCheck := ⟨3, drain0, 0, [], .zero⟩
def group0 : Group := ⟨1, 0, some ⟨0, 0⟩, some 1, [check0], 0, 0⟩
/-- A chain whose one drained sum is not what its operands, which are none, come to. -/
def badCheck : ChainCheck := { check0 with drained := (⟨[(0, ⟨some 1, 0, false, false, true⟩)], 1, 1⟩ : Tile) }
def badGroup : Group := { group0 with chains := [badCheck], frac := 6 }
def groupSt : State := { ctxSt (withRound (landing []) (maskRd [])) 0 (ctx0 0x20 []) with groups := [group0] }
def badGroupSt : State := { groupSt with groups := [badGroup] }

/-- A context at WAIT_EVT of event 0, which is armed for its job. -/
def waitSt : State :=
  { ctxSt (withRound (landing []) (maskRd [])) 0 { ctx0 0x0F [] with wait := some 0, fired := [4096] } with armed := [(0, ⟨0, 0, none, 5, none⟩)] }
def waitSt2 : State := { ctxSt (withRound (landing []) (maskRd [])) 0 (ctx0 0x0F []) with armed := [(0, ⟨0, 0, none, 5, none⟩)] }

/-- A firmware context at an instruction, and the state with bytes placed in job 0's memory that runs it on a sequencer. -/
def fwCtx (ws : List Word) (regs : List Nat) : Ctx := { ctxOf ws regs with fromHost := none }
def poke (s : State) (l : List (Nat × Bytes)) : State := { s with mem := l.foldl (fun m e => memWrite m e.1 e.2) s.mem }
def onCtrls : List (Fld × Nat × Nat × Nat) :=
  [(VAT_JOB_BERTHS.BERTH, 0, 0, 1), (PRS_CTRL.ENABLE, 0, 0, 1), (WRP_CTRL.ENABLE, 0, 0, 1), (SKM_CTRL.ENABLE, 0, 0, 1), (RIND_CTRL.ENABLE, 0, 0, 1)]
def fwSt (seq : Fin 7) (x : Round) (l : List (Nat × Bytes)) (c : Ctx) : State := ctxSt (poke (withRound (landing onCtrls) x) l) seq c

/-- The same with no round. -/
def bareSt (seq : Fin 7) (l : List (Nat × Bytes)) (c : Ctx) : State :=
  let s := landing onCtrls
  ctxSt (poke { s with jobs := s.jobs.set 0 { Job.absent with present := true } } l) seq c

/-- The plan with a slice of 64 coordinates, a closed round of it with a screening key, and a MAC of the sign matrix with that round's ring sums. -/
def slicePlan : Bytes := (plan 0 16).take 16 ++ toBe 4 64 ++ (plan 0 16).drop 20
def sliceRd : Round :=
  { rd slicePlan [1, 2, 3, 4, 5, 6] with
    closed := true
    screenKey := some 9
    cohorts := [(0, { Cohort.empty with settled := true, accum := [(0, 3)] })] }
def macCtx (m : Nat) : Ctx :=
  { fwCtx [word 0x20 m 0 1 2 1, BitVec.ofNat 64 (2 ^ 14 + 2 ^ 18 + 2 ^ 21), 0, 0] [128] with layer := some 6 }
def macSt : State := fwSt 0 sliceRd [] (macCtx 0)

/-- A record: source, format, flags, binary32 scale 1, destination. -/
def record (src f flags dest : Nat) : Bytes := toLe 1 src ++ toLe 1 f ++ [0] ++ toLe 1 flags ++ zeros 4 ++ toLe 4 0x3F800000 ++ zeros 36 ++ toLe 8 dest ++ zeros 8
/-- A tensor's header: format 4, one row of 32 elements, scales at 64, data at 128. -/
def tensor : Bytes := [4, 0, 0, 0] ++ toLe 4 1 ++ toLe 4 32 ++ zeros 4 ++ toLe 8 64 ++ toLe 8 128 ++ toLe 8 64 ++ zeros 24
def gatherCtx : Ctx := { fwCtx [word 0x21 0 0 1 2 1, 0, 0, 0] [0, 64, 512] with layer := some 1 }
def gatherSt : State := bareSt 0 [(0, record 0 0x11 0 1024), (64, tensor)] gatherCtx
def drainCtx : Ctx := { fwCtx [word 0x22 0 0 1 2 0, 0, 0, 0] [0] with chains := [⟨0, 0, 3, 0, false, []⟩], tiles := [(0, 0, 5, 6)] }
def tileSt : State := bareSt 0 [(0, record 0 0x11 0 1024)] drainCtx
def wpassCtx : Ctx := fwCtx [word 0x60 0 0 1 2 0, 0, 0, 0] [0, 64, 2]
def wpassSt : State := bareSt 4 [(0, record 2 0x11 0 1024)] wpassCtx

theorem noFirstPoison (s : State) (j : JobId) (rs : List (Nat × Nat)) (h : s.poison = []) : firstPoison s j rs = none := by
  simp [firstPoison, h]
theorem noSettlePoison (s : State) (j : JobId) (x : Round) (c : Nat) (h : s.poison = []) : settlePoison s j x c = none := by
  simp [settlePoison, metPoison, h]

/-- Contexts of the Vat's sequencer on job 0's memory. -/
def vopCtx : Ctx := fwCtx [word 0x30 6 0 1 2 0, 0, 0, 0] [0, 64, 64]
def vcasCtx : Ctx := fwCtx [word 0x31 0 0 1 2 0, 7, 0, 0] [0, 64, 0]
def vfillCtx : Ctx := fwCtx [word 0x32 0 0 1 2 5, 0, 0, 0] [0, 64, 64]
def vcopyCtx : Ctx := fwCtx [word 0x33 0 0 1 2 0, 0, 0, 0] [0, 64, 64]
def cohortCtx (op : Nat) : Ctx := { fwCtx [word op 0 0 1 2 0, 0, 0, 0] [] with round := some 1 }
def cohortSt (op : Nat) (x : Round) : State := ctxSt (withRound (landing [(VAT_JOB_G64.LEN_LINES, 0, 0, 8)]) x) 1 (cohortCtx op)
def settledRd : Round := { settleRd with cohorts := [(0, { Cohort.empty with settled := true })] }
/-- A cohort whose check lanes do not agree with its sums. -/
def badCheckRd : Round := { checkRd with cohorts := [(0, { Cohort.empty with checkKey := some 5, frac := 0, check := [1, 0, 0, 0] })] }

/-- Contexts of Culture's and Toll's sequencers, with key 7 of 32 zero bytes and key 8 of the number 1, and slot 0 with a signing key of job 0. -/
def keyCtx (op imm : Nat) (regs : List Nat) : Ctx := { fwCtx [word op 0 0 1 2 imm, 0, 0, 0] regs with round := some 1 }
def keySt (seq : Fin 7) (c : Ctx) (l : List (Nat × Bytes)) : State :=
  fillSlot { fwSt seq settleRd l c with handles := [(7, zeros 32), (8, toBe 48 1)] } 0 2 0 4 0 0 (toBe 48 5)
def reconSt : State := keySt 3 (keyCtx 0x52 0 []) []
theorem derivReach : ∀ k : Fin 7, rangeFault (keySt 3 (keyCtx 0x51 7 [0, 64]) []) (keyCtx 0x51 7 [0, 64]) [((keyCtx 0x51 7 [0, 64]).sa, (derivation k.val).2)] = none := by
  decide +kernel
/-- RECON of the secret of `maskRd`, whose share list lies where the placement puts it. -/
def reconCtx : Ctx := keyCtx 0x52 0 [0, shareListAt 0 1 1]
def reconSt2 : State := fwSt 3 (maskRd [secret1]) [] reconCtx
theorem reconCtx_sa : reconCtx.sa = shareListAt 0 1 1 := by
  have h : reconCtx.sa = shareListAt 0 1 1 % 2 ^ 64 := rfl
  rw [h, shareListAt, Nat.mod_mod]
theorem recon_secretAt : secretAt reconSt2 reconCtx.job reconCtx.sa = some (maskRd [secret1], 0, secret1) := by
  rw [reconCtx_sa]
  have h : ((reconSt2.job reconCtx.job).rounds.flatMap (fun y => y.cohorts.flatMap (fun k => k.2.secrets.map (fun e => (y, k.1, e))))) =
      [(maskRd [secret1], 0, secret1)] := by decide +kernel
  unfold secretAt
  rw [h]
  exact List.find?_cons_of_pos (by simp [reconCtx, keyCtx, fwCtx, ctxOf, newCtx, maskRd, rd, newRound, secret1])

/-- Contexts of Skim's and of Wrap's sequencer. -/
def skimCtx (op : Nat) : Ctx := fwCtx [word op 0 0 1 2 2, 0, 0, 0] [512, 64, 4]
def skimSt (op : Nat) : State := bareSt 5 [(64, toLe 4 5 ++ toLe 4 9 ++ toLe 4 7 ++ toLe 4 6)] (skimCtx op)
def farCtx : Ctx := { fwCtx [word 0x74 0 0 1 2 0, 0, 0, 0] [512, 64, 32] with round := some 1 }
def farSt : State := (fwSt 5 gateRd0 [] farCtx).modJob 0 (fun J => { J with policy := polBytes [(2, [1]), (3, [16]), (6, [0, 1])] })
def finCtx (op : Nat) : Ctx := { fwCtx [word op 0 0 1 2 0, 0, 0, 0] [] with round := some 1 }
def finSt (op : Nat) (s : State) (_ : Round) : State := ctxSt s 4 (finCtx op)

/-- A ciphertext's header of set 1 at level 3 with a ring width, and a context of Rind's sequencer with two of them as sources. -/
def ctHeader (w budget : Nat) : Bytes := [1, 1, 3, 0] ++ toLe 1 w ++ zeros 3 ++ toLe 8 3 ++ toLe 4 budget ++ zeros 4 ++ toLe 8 64 ++ toLe 8 131072 ++ toLe 8 393216 ++ zeros 16
@[irreducible] def rindCtx (op : Nat) : Ctx := fwCtx [word op 0 0 1 2 2, 0, 0, 0] [2097152, 0, 1048576]
@[irreducible] def rindSt (op : Nat) : State := bareSt 6 [(0, ctHeader 64 2490367), (1048576, ctHeader 64 2490367), (2097152, ctHeader 64 2490367)] (rindCtx op)
@[irreducible] def ctOf (op a : Nat) : Machine.PSet × Ct := (loadCt (rindSt op) 0 a).getD (pset1, ⟨0, 0, 0, 0, 0, 0, false, [], []⟩)
theorem loadCt_get (s : State) (j : JobId) (a : Nat) (d : Machine.PSet × Ct) (h : (loadCt s j a).isSome = true) : loadCt s j a = some ((loadCt s j a).getD d) := by
  obtain ⟨v, h⟩ := Option.isSome_iff_exists.1 h
  rw [h, Option.getD_some]
theorem ctOf_ok (op a : Nat) (h : (loadCt (rindSt op) 0 a).isSome = true) : loadCt (rindSt op) 0 a = some (ctOf op a) := by
  unfold ctOf
  exact loadCt_get _ _ _ _ h
theorem loadAll1 (s : State) (j : JobId) (a : Nat) (p : Machine.PSet × Ct) (h : loadCt s j a = some p) (g : chC1Only (ctHead s j a) = false) :
    loadAll s j [a] = some [p] := by simp [loadAll, h, g]
theorem loadAll2 (s : State) (j : JobId) (a b : Nat) (p q : Machine.PSet × Ct) (h : loadCt s j a = some p) (h' : loadCt s j b = some q)
    (g : chC1Only (ctHead s j a) = false) (g' : chC1Only (ctHead s j b) = false) : loadAll s j [a, b] = some [p, q] := by simp [loadAll, h, h', g, g']
theorem rind_load1 (op : Nat) (hj : (rindCtx op).job = 0) (ha : (rindCtx op).sa = 0) (h : (loadCt (rindSt op) 0 0).isSome = true)
    (g : chC1Only (ctHead (rindSt op) 0 0) = false) :
    loadAll (rindSt op) (rindCtx op).job [(rindCtx op).sa] = some [((ctOf op 0).1, (ctOf op 0).2)] := by
  rw [hj, ha]
  exact loadAll1 _ _ _ _ (ctOf_ok op 0 h) g
theorem rind_load2 (op : Nat) (hj : (rindCtx op).job = 0) (ha : (rindCtx op).sa = 0) (hb : (rindCtx op).sb = 1048576)
    (h : (loadCt (rindSt op) 0 0).isSome = true) (h' : (loadCt (rindSt op) 0 1048576).isSome = true)
    (g : chC1Only (ctHead (rindSt op) 0 0) = false) (g' : chC1Only (ctHead (rindSt op) 0 1048576) = false) :
    loadAll (rindSt op) (rindCtx op).job [(rindCtx op).sa, (rindCtx op).sb] =
      some [((ctOf op 0).1, (ctOf op 0).2), ((ctOf op 1048576).1, (ctOf op 1048576).2)] := by
  rw [hj, ha, hb]
  exact loadAll2 _ _ _ _ _ _ (ctOf_ok op 0 h) (ctOf_ok op 1048576 h') g g'
theorem leNat_lt (bs : Bytes) : leNat bs < 256 ^ bs.length := by
  induction bs with
  | nil => simp [leNat]
  | cons b bs ih => have := b.isLt; simp only [leNat, List.length_cons, Nat.pow_succ]; omega
theorem plainWords_lt (s : State) (j : JobId) (a n : Nat) : (plainWords s j a n).all (fun v => decide (v < 2 ^ 64)) = true := by
  rw [List.all_eq_true]
  intro v hv
  simp only [plainWords, elemsOf, List.mem_map] at hv
  obtain ⟨i, -, rfl⟩ := hv
  have h := leNat_lt (slice (jobRead s j a (8 * n)) (8 * i) 8)
  have e : (slice (jobRead s j a (8 * n)) (8 * i) 8).length = 8 := by simp [slice]
  rw [e] at h
  exact decide_eq_true h

/-- The logarithm of a number, from the powers of 2 around its 65536th power. -/
theorem log2Floor_eq (x k : Nat) (h0 : x ^ 65536 ≠ 0) (h1 : 2 ^ k ≤ x ^ 65536) (h2 : x ^ 65536 < 2 ^ (k + 1)) : log2Floor x = k := by
  simp only [log2Floor, (Nat.log2_eq_iff h0).2 ⟨h1, h2⟩]
theorem margin_ms : margin pset1 64 2 (nuMs pset1) = 2490367 := by
  have e1 : log2Floor (pset1.gam.take 2).prod = (7733247 : Nat) := log2Floor_eq _ 7733247 (by decide +kernel) (by decide +kernel) (by decide +kernel)
  have e2 : nuMs pset1 = 983040 := by decide +kernel
  rw [margin, e1, e2]
  decide
theorem margin_ks : margin pset1 16 3 (nuKs pset1) = 9202238 := by
  have e1 : log2Floor (pset1.gam.take 3).prod = (11599871 : Nat) := log2Floor_eq _ 11599871 (by decide +kernel) (by decide +kernel) (by decide +kernel)
  have e2 : log2Floor (48 * 16384) = (1283520 : Nat) := log2Floor_eq _ 1283520 (by decide +kernel) (by decide +kernel) (by decide +kernel)
  have e3 : nuKs pset1 = 1283521 := by
    have h : ¬ 2 ^ Nat.log2 (48 * 16384) = 48 * 16384 := by decide +kernel
    show log2Ceil (48 * 16384) = 1283521
    rw [log2Ceil, if_neg h, e2]
    decide
  rw [margin, e1, e3]
  decide
theorem join_self (a : Int) : joinBudget a a = a - 65536 := by simp [joinBudget]

/-- KSW of one pair with an entry from key 3 to key 4. -/
@[irreducible] def kswCtx : Ctx := fwCtx [word 0x85 0 0 1 2 0, 0, 0, 0] [0, 3145728]
def kswEntry : Bytes := [0, 1, 3, 0, 0, 0, 0, 0] ++ toLe 8 3 ++ toLe 8 4 ++ zeros 40
@[irreducible] def kswSt : State :=
  (bareSt 6 [(0, ctHeader 16 9202238), (2097152, ctHeader 16 9202238), (3145728, toLe 8 0 ++ toLe 8 2097152)] kswCtx).modJob 0 (fun J => { J with keyTable := [(0, kswEntry)] })
@[irreducible] def kswCt : Machine.PSet × Ct := (loadCt kswSt 0 0).getD (pset1, ⟨0, 0, 0, 0, 0, 0, false, [], []⟩)
def switched (y : Machine.PSet) (e : Bytes) (a : Ct) : Ct :=
  { a with
    keyId := keDst e
    budget := joinBudget a.budget (margin y a.ring a.level (nuKs y))
    count := 0
    c0 := (keySwitch y e a.level a.c0 a.c1).1
    c1 := (keySwitch y e a.level a.c0 a.c1).2 }
def kswOut : Ct := switched kswCt.1 kswEntry kswCt.2
theorem switchOne (e : Bytes) (y : Machine.PSet) (a : Ct) (h1 : kePset e = a.set) (h2 : keDigits e = y.digits) (h3 : a.keyId = keSrc e) :
    ctSwitch (some e) [(y, a)] = .ok ([switched y e a], true, .switches y e a.level 1) := by
  simp [ctSwitch, h1, h2, h3, switched]
theorem ksw_load : loadAll kswSt kswCtx.job ((List.range (kswCtx.mod % 16 + 1)).map (fun i => leNat (jobRead kswSt kswCtx.job (kswCtx.sa + 16 * i + 8 * 0) 8))) = some [kswCt] := by
  have e : (List.range (kswCtx.mod % 16 + 1)).map (fun i => leNat (jobRead kswSt kswCtx.job (kswCtx.sa + 16 * i + 8 * 0) 8)) = [0] := by decide +kernel
  have ej : kswCtx.job = 0 := by decide +kernel
  have h : loadCt kswSt 0 0 = some kswCt := by
    unfold kswCt
    exact loadCt_get kswSt 0 0 _ (by decide +kernel)
  rw [e, ej]
  exact loadAll1 kswSt 0 0 kswCt h (by decide +kernel)
theorem ksw_switch : ctSwitch (lookup (kswSt.job kswCtx.job).keyTable kswCtx.imm) [kswCt] = .ok ([kswOut], true, .switches kswCt.1 kswEntry kswCt.2.level 1) := by
  have e : lookup (kswSt.job kswCtx.job).keyTable kswCtx.imm = some kswEntry := by decide +kernel
  rw [e, ← Prod.mk.eta (p := kswCt)]
  exact switchOne kswEntry kswCt.1 kswCt.2 (by decide +kernel) (by decide +kernel) (by decide +kernel)
theorem ksw_budget : [kswOut].any (fun r => decide (r.budget < 0)) = false := by
  have e : kswOut.budget = joinBudget kswCt.2.budget (margin kswCt.1 kswCt.2.ring kswCt.2.level (nuKs kswCt.1)) := rfl
  have e1 : kswCt.1 = pset1 := by decide +kernel
  have e2 : kswCt.2.ring = 16 := by decide +kernel
  have e3 : kswCt.2.level = 3 := by decide +kernel
  have e4 : kswCt.2.budget = 9202238 := by decide +kernel
  rw [e1, e2, e3, e4, margin_ks, join_self] at e
  simp [e]
theorem modsw_budget : 0 ≤ joinBudget (ctOf 0x84 0).2.budget (margin (ctOf 0x84 0).1 (ctOf 0x84 0).2.ring (rindCtx 0x84).imm (nuMs (ctOf 0x84 0).1)) := by
  have e1 : (ctOf 0x84 0).1 = pset1 := by decide +kernel
  have e2 : (ctOf 0x84 0).2.ring = 64 := by decide +kernel
  have e3 : (rindCtx 0x84).imm = 2 := by decide +kernel
  have e4 : (ctOf 0x84 0).2.budget = 2490367 := by decide +kernel
  rw [e1, e2, e3, e4, margin_ms, join_self]
  decide

def sealCtxSt (op : Nat) : State := fwSt 6 memberRd [] (cohortCtx op)
def decodeSt : State := fwSt 6 { memberRd with groupDone := [0] } [] (cohortCtx 0x88)

/-- A descriptor: opcode, flags, and operand bytes at places. -/
def desc (opc fl : Nat) (l : List (Nat × Bytes)) : Bytes :=
  l.foldl (fun p e => p.take e.1 ++ e.2 ++ p.drop (e.1 + e.2.length)) (toLe 1 opc ++ toLe 1 fl ++ zeros 62)

/-- Job 0 with descriptors on its ring, whose tail lies one slot ahead of its head; no HDM window. -/
def ringFields : List (Fld × Nat × Nat × Nat) :=
  [(HIF_VF_SQ_CFG.ENABLE, 0, 0, 1), (HIF_VF_CQ_CFG.ENABLE, 0, 0, 1), (HIF_VF_SQ_CFG.LOG2_SIZE, 0, 0, 4), (HIF_VF_CQ_CFG.LOG2_SIZE, 0, 0, 4),
    (HIF_VF_SQ_TAIL.TAIL, 0, 0, 1), (HIF_VF_SQ_CFG.ABI, 0, 0, 2), (HIF_HDM_CTRL.WINDOW_GIB, 0, 0, 0), (HIF_VF_STATUS.HAIL_DONE, 0, 0, 1),
    (PWR_STATUS.BOOT_STAGE, 0, 0, 5)]
def ringSt (ds : List Bytes) : State :=
  (withRound (landing ringFields) (maskRd [])).modRing (vfOf 0) (fun g => { g with descs := ds.map (fun d => ⟨d, false, false⟩) })
def adminSt (d : Bytes) : State := (ringSt []).modRing pf0 (fun g => { g with descs := [⟨d, false, false⟩] })

/-- JOB_CREATE of job 0, which has a berth, a Roster range and a tag. -/
def createD : Desc := ⟨desc 1 0 [], false, false⟩
def createSt (_ : Bytes) : State :=
  { (st (ringFields ++ [(VAT_JOB_BERTHS.BERTH, 0, 0, 1), (VAT_JOB_G64.LEN_LINES, 0, 0, 8), (ROS_JOB_RANGE.COUNT, 0, 0, 8), (LND_JOB_TAG.TAG, 0, 0, 7),
      (ENT_STATUS.STATE, 0, 0, 1)])).modRing pf0 (fun g => { g with descs := [createD] }) with pending := [] }
def goodPol : Bytes :=
  polBytes [(0, [1]), (3, [16]), (8, [0x11]), (12, toLe 4 1), (16, toLe 4 1), (60, toLe 4 1), (112, toLe 4 1)]
def abortingSt : State := (ringSt []).modJob 0 (fun J => { J with aborting := some (1, 0) })

/-- INVOKE of loadable slot 512, whose recipe is one word. -/
def invokeD : Desc := ⟨desc 0x11 0 [(16, toLe 2 512)], false, false⟩
def invokeSt : State :=
  { [(HIF_RCP_SLOT_INFO.VALID, 1), (HIF_RCP_SLOT_INFO.SEQ, 1)].foldl (fun t e => fset t e.1 512 0 e.2) (ringSt [invokeD.bytes]) with store := [(512, [0])] }
def lateSt : State := { ctxSt (ringSt []) 0 (ctx0 1 []) with now := 10 ^ 12 }

/-- A recipe of one END word, and its RECIPE_LOAD into slot 512. -/
def recipeImg : Bytes :=
  ascii "WHEY" ++ [1, 1, 0, 0] ++ toLe 2 1 ++ zeros 6 ++ digestBytes (sha384 (toLe 8 (2 ^ 56))) ++ toLe 8 (2 ^ 56)
def recipeD : Desc := ⟨desc 4 0 [(18, toLe 2 512), (32, toLe 4 72)], false, false⟩

/-- A plan that passes every check, and its ROUND_PLAN by job 0 with no round, a quota, a berth and locked time. -/
def planB : Bytes :=
  [(6, toBe 2 64), (8, toBe 4 128), (16, toBe 4 1024), (20, toBe 4 1024), (24, toBe 4 1024), (28, toBe 4 1024), (216, toLe 8 (2 ^ 20)), (3, toBe 1 16), (4, toBe 2 9)].foldl
    (fun p e => p.take e.1 ++ e.2 ++ p.drop (e.1 + e.2.length)) (plan 0 16)
def planD : Desc := ⟨desc 0x10 0 [(24, toLe 4 256)], false, false⟩
def planSt : State :=
  [(VAT_JOB_BERTHS.BERTH, 0, 1), (PLT_JOB_HBM.QUOTA_GIB, 0, 1023), (VAT_JOB_G64.LEN_LINES, 0, 256), (ROS_JOB_RANGE.COUNT, 0, 8), (TIDE_STATUS.STATE, 0, 2)].foldl (fun t e => fset t e.1 0 e.2.1 e.2.2)
    ((ringSt [planD.bytes]).modJob 0 (fun J => { J with rounds := [] }))
def planT : State := takeDesc planSt (vfOf 0) planD
theorem module_hbm : 480 * 2 ^ 30 ≤ moduleHbm := by
  unfold moduleHbm
  split <;> decide
theorem placed_of (s : State) (j : JobId) (p : Bytes) (n : Nat) (h0 : (s.job j).nextRound = n) (h1 : (demand s j).1 + vatOnly s j p ≤ partBytes s j)
    (h2 : (demand s j).1 + vatOnly s j p + (demand s j).2 + roundRest s j n p + 8 * (pModel p - modelOf (s.job j)) ≤ partBytes s j + quotaBytes s j)
    (h3 : reservedHbm + othersHbm s j + ((demand s j).1 + vatOnly s j p + (demand s j).2 + roundRest s j n p + 8 * (pModel p - modelOf (s.job j)) - partBytes s j) ≤ moduleHbm)
    (h4 : 1 ≤ windowGranules s j p) (h5 : fget s PLT_JOB_PIN.RESIDENT j 0 = 0) : placementOk s j p = true := by
  simp [placementOk, h0, h1, h2, h3, h4, h5]
theorem room_for (a b c k d q o u w : Nat) (hr : w ≤ c) (h1 : a + b + c + k ≤ d + q) (h2 : o + (a + b + c + k) ≤ 480 * 2 ^ 30) (hm : 480 * 2 ^ 30 ≤ u) :
    a + b + w + k ≤ d + q ∧ o + (a + b + w + k - d) ≤ u := by omega
theorem plan_placed : placementOk planT 0 planB = true := by
  have e3 : (demand planT 0).1 + vatOnly planT 0 planB + (demand planT 0).2 + (pCohortCount planB * accSpan planB + closeBytes planT 0 + 4 * pModel planB + pReleaseLen planB + 2 ^ 36) +
      8 * (pModel planB - modelOf (planT.job 0)) ≤ partBytes planT (0 : JobId) + quotaBytes planT (0 : JobId) := by decide +kernel
  have e4 : reservedHbm + othersHbm planT 0 + ((demand planT 0).1 + vatOnly planT 0 planB + (demand planT 0).2 +
      (pCohortCount planB * accSpan planB + closeBytes planT 0 + 4 * pModel planB + pReleaseLen planB + 2 ^ 36) + 8 * (pModel planB - modelOf (planT.job 0))) ≤ 480 * 2 ^ 30 := by
    decide +kernel
  have hr : roundRest planT 0 2 planB ≤ pCohortCount planB * accSpan planB + closeBytes planT 0 + 4 * pModel planB + pReleaseLen planB + 2 ^ 36 :=
    Nat.add_le_add_left (Config.workingBytes 0 2).isLt.le _
  have h := room_for _ _ _ _ _ _ _ _ _ hr e3 e4 module_hbm
  exact placed_of planT 0 planB 2 (by decide +kernel) (by decide +kernel) h.1 h.2 (by decide +kernel) (by decide +kernel)
theorem plan_accepted : planRefusal planT 0 planB = none := by
  have e1 : admissible planB = true := by decide +kernel
  have e2 : geometryOk planB = true := by decide +kernel
  have e3 : sealedOk planT 0 planB = true := by decide +kernel
  have e4 : timesOk planT 0 planB = true := by decide +kernel
  have e5 : limitOk (planT.job 0) = true := by decide +kernel
  have e6 : buffersOk planT 0 planB = true := by decide +kernel
  simp only [planRefusal, e1, e2, e3, e4, e5, e6, plan_placed, not_true_eq_false, if_false]

/-- A slice of a slice that stays inside it. -/
theorem slice_slice (bs : Bytes) (n o k : Nat) (h : o + k ≤ n) : slice (slice bs 0 n) o k = slice bs o k := by
  simp only [slice, List.map_inj_left, List.mem_range]
  intro i hi
  rw [List.getD_eq_getElem?_getD, List.getElem?_map, List.getElem?_range (by omega : o + i < n)]
  simp
theorem slice_length (bs : Bytes) (o n : Nat) : (slice bs o n).length = n := by simp [slice]

/-- KEY_LOAD of an image of set 1 into entry 0, without and with a round that locks the entry. -/
def keyLen : Nat := keBytes pset1
def keyImg : Bytes := [1, 1, 3] ++ zeros 61
def keyLoadD : Desc := ⟨desc 0x12 0 [(32, toLe 8 (keBytes pset1))], false, false⟩
def keyLoadSt : State := (ringSt [keyLoadD.bytes]).modJob 0 (fun J => { J with rounds := [] })
def keyBusySt : State := (ringSt [keyLoadD.bytes]).modJob 0 (fun J => { J with rounds := [{ maskRd [] with lockedKeys := [0] }] })
theorem key_fetch (s : State) (h : mayName s 0 (leAt keyLoadD.bytes 24 8) (leAt keyLoadD.bytes 32 8) = true)
    (h' : inHdm s (leAt keyLoadD.bytes 24 8) (leAt keyLoadD.bytes 32 8) = false) :
    fetchBuf s (0 : JobId).val (leAt keyLoadD.bytes 24 8) (leAt keyLoadD.bytes 32 8) (some keyImg) = .ok (slice (keyImg ++ zeros keyLen) 0 keyLen) := by
  have e : leAt keyLoadD.bytes 32 8 = keyLen := by decide +kernel
  have h0 : mayName s (0 : JobId).val (leAt keyLoadD.bytes 24 8) (leAt keyLoadD.bytes 32 8) = true := h
  rw [e] at h0 h' ⊢
  simp only [fetchBuf, h0, h', not_true_eq_false, Bool.false_eq_true, if_false]
theorem keyLoad_fetch : fetchBuf (takeDesc keyLoadSt (vfOf 0) keyLoadD) (0 : JobId).val (leAt keyLoadD.bytes 24 8) (leAt keyLoadD.bytes 32 8) (some keyImg) =
    .ok (slice (keyImg ++ zeros keyLen) 0 keyLen) := key_fetch _ (by decide +kernel) (by decide +kernel)
theorem keyBusy_fetch : fetchBuf (takeDesc keyBusySt (vfOf 0) keyLoadD) (0 : JobId).val (leAt keyLoadD.bytes 24 8) (leAt keyLoadD.bytes 32 8) (some keyImg) =
    .ok (slice (keyImg ++ zeros keyLen) 0 keyLen) := key_fetch _ (by decide +kernel) (by decide +kernel)
theorem keyLoad_ok : keyImageOk (slice (keyImg ++ zeros keyLen) 0 keyLen) = true := by
  have e : ∀ o k, o + k ≤ 64 → slice (slice (keyImg ++ zeros keyLen) 0 keyLen) o k = slice (keyImg ++ zeros keyLen) o k :=
    fun o k h => slice_slice _ _ _ _ (by have : 64 ≤ keyLen := by decide +kernel
                                         omega)
  have e1 : psetOf (leNat (slice (keyImg ++ zeros keyLen) 1 1)) = some pset1 := by decide +kernel
  simp only [keyImageOk, leAt, zeroAt, kePset, keDigits, slice_length, e 0 1 (by decide), e 1 1 (by decide), e 2 1 (by decide), e 3 5 (by decide), e1]
  decide +kernel

/-- HELD_LOAD of a set, and of one wrapped for the import key, whose number is 1, of a confidential job. -/
def heldD (n : Nat) : Desc := ⟨desc 0x13 0 [(32, toLe 8 n)], false, false⟩
def heldSt : State := ringSt [(heldD 2).bytes]
def wrapped : Bytes := ascii "BRIN" ++ [1] ++ zeros 3 ++ toLe 8 2 ++ pG ++ zeros 15 ++ toBe 18 0xcc839d82c19156220ab8b49914711b14d3bb
def sealedHeldSt : State :=
  fillSlot ((ringSt [(heldD 146).bytes]).modJob 0 (fun J => { J with confidential := true, slots := [16, 17, 18, 19, 20, 21, 22] })) 18 2 0 2 1 0 (toBe 48 1)

/-- Job 0's rings with one completion written, disabled rings after Hail, and untaken and taken results. -/
def cqSt : State := fset (ringSt []) HIF_VF_CQ_TAIL.TAIL 0 0 1
def offSt : State := disableRings (ringSt []) (vfOf 0)
def resultSt (l : List (Nat × Nat × Nat × Bytes)) (t : Option (Nat × Nat × Nat × Bytes)) : State :=
  (ringSt []).modRing (vfOf 0) (fun g => { g with results := l, taken := t })

/-- Channels of function 0: a block that it sent, one that it holds with others waiting, and its answer to Hail session 3. -/
def heldChanSt : State := (ringSt []).modChan 0 (fun c => { c with block := some ([9], 16) })
def takeSt (w : List Bytes) : State := (ringSt []).modChan 16 (fun c => { c with block := some ([1], 0x20), waiting := w })
def ackSt (n : Nat) : State :=
  { (ringSt []).modChan 0 (fun c => { c with block := some (hailMsg 2 n 0 0, 16) }) with hailSession := [(0, 3)] }
/-- A window of a gibibyte that is job 0's region. -/
def hdmSt : State := fset (fset (ringSt []) HIF_HDM_REGION.SIZE_GIB 0 0 1) HIF_HDM_CTRL.WINDOW_GIB 0 0 1

/-- Queue pairs 5 and 6 of class 1 in RTS; 5 with a request out long ago; 5 in a state, and selected. -/
def rdmaReqSt : State := withRound (landing (rdmaFields 1 ++ [(RDMA_QP_CFG.STATE, 6, 0, 3), (RDMA_QP_SEL.QPN, 0, 0, 5)])) (maskRd [])
def sentSt (retry : Nat) : State :=
  { (fset rdmaReqSt RDMA_QP_CFG.RETRY 5 0 retry).modQp 5 (fun x => { x with sent := [(0, ⟨.write, [1], 64, 0, 0, none⟩, 1)] }) with now := 10 ^ 12 }
def qpSt (n : Nat) : State := fset (fset rdmaReqSt RDMA_QP_CFG.STATE 5 0 n) RDMA_QP_CFG.CLASS 5 0 0

/-- A state whose list of fields says that 65,536 contexts are on the die; queue pair 7's may go. -/
@[irreducible] def fullRegs : List (RKey × Nat) := (List.range 65536).map (fun n => (RDMA_QP_STAT.RESIDENT.key n 0, 1))
def fullSt : State := { rdmaReqSt with missQueue := [5], qpUse := [7], regs := fullRegs }
theorem full_length : 65536 ≤ (residentQps fullSt).length := by
  have e : residentQps fullSt = List.range 65536 := by
    unfold residentQps qpsWith
    show List.filterMap _ fullRegs = _
    unfold fullRegs
    rw [List.filterMap_map, ← List.filterMap_some (l := List.range 65536), List.filterMap_filterMap]
    rfl
  rw [e, List.length_range]
theorem lookup_full_other (l : List Nat) (k : RKey) (h : k.reg ≠ .RDMA_QP_STAT) : lookup (l.map (fun n => (RDMA_QP_STAT.RESIDENT.key n 0, 1))) k = none := by
  induction l with
  | nil => rfl
  | cons n l ih =>
    rw [List.map_cons, lookup, if_neg (fun e => h (by rw [← e]; rfl)), ih]
theorem lookup_full (l : List Nat) (q : Nat) (h : q ∈ l) : lookup (l.map (fun n => (RDMA_QP_STAT.RESIDENT.key n 0, 1))) (RDMA_QP_STAT.RESIDENT.key q 0) = some 1 := by
  induction l with
  | nil => simp at h
  | cons n l ih =>
    rw [List.map_cons, lookup]
    split
    · rfl
    · rename_i g
      exact ih ((List.mem_cons.1 h).resolve_left (fun e => g (by rw [e])))
theorem full_fget (f : Fld) (a b : Nat) : fget fullSt f a b = readD f.reset fullRegs (f.key a b) := by simp only [fget, fullSt]
theorem full_resident : lookup fullRegs (RDMA_QP_STAT.RESIDENT.key 7 0) = some 1 := by
  unfold fullRegs
  exact lookup_full (List.range 65536) 7 (List.mem_range.2 (by decide +kernel))
theorem full_other (k : RKey) (h : k.reg ≠ .RDMA_QP_STAT) : lookup fullRegs k = none := by
  unfold fullRegs
  exact lookup_full_other (List.range 65536) k h
theorem full_evictable : evictable fullSt 7 = true := by
  have a : fget fullSt RDMA_QP_STAT.RESIDENT 7 0 = 1 := by rw [full_fget, readD, full_resident, Option.getD_some]
  have b : fget fullSt RDMA_QP_CFG.PIN 7 0 = 0 := by
    rw [full_fget, readD, full_other (RDMA_QP_CFG.PIN.key 7 0) (by decide +kernel), Option.getD_none]
    decide +kernel
  have c : qpSealed fullSt 7 = false := by
    rw [qpSealed, full_fget, readD, full_other (RDMA_QP_CFG.SEALED.key 7 0) (by decide +kernel), Option.getD_none]
    decide +kernel
  have d : fullSt.qp 7 = rdmaReqSt.qp 7 := by simp only [fullSt, State.qp]
  have e : (rdmaReqSt.qp 7).sent.isEmpty = true := by decide +kernel
  have f : (rdmaReqSt.qp 7).inMsg.isNone = true := by decide +kernel
  simp only [evictable, a, b, c, d, e, f]
  decide
theorem full_victim : fullSt.qpUse.find? (evictable fullSt) = some 7 := List.find?_cons_of_pos (by rw [full_evictable])

/-- A sealed queue pair 5; the same with ephemeral key 1 and the peer's point G; for a confidential job whose guest vouched for that point on a queue pair. -/
def sqpSt : State := fset rdmaReqSt RDMA_QP_CFG.SEALED 5 0 1
def applySt (l : List (Fld × Nat × Nat × Nat)) : State :=
  let s := (List.range 13).foldl (fun (t : State) (n : Nat) => fset t RDMA_SQP_PEER.POINT 5 n (beAt (pG ++ zeros 7) (8 * n) 8)) (fset sqpSt RDMA_SQP_CTRL.STATE 5 0 1)
  l.foldl (fun t e => fset t e.1 e.2.1 e.2.2.1 e.2.2.2) (s.modQp 5 (fun x => { x with priv := some 1 }))
def vouchSt (q : Nat) : State :=
  ((List.range 6).foldl (fun (t : State) (n : Nat) => fset t KST_VF_PEER_HASH.HASH 0 n (group64 (digestBytes (sha384 pG)) n)) (fset (applySt []) KST_VF_ORIGIN_QPN.QPN 0 0 q)).modJob 0
    (fun J => { J with confidential := true })

/-- Region 1 of job 0, selected: FREE over a 64-byte range of its partition, or LIVE with every right; and its revocation. -/
def regSt (n : Nat) : State :=
  (withRound (landing [(VAT_JOB_BERTHS.BERTH, 0, 0, 1), (RDMA_REG_SEL.REGION, 0, 0, 1), (RDMA_REG_CFG.STATE, 0, 1, n), (RDMA_REG_CFG.RIGHTS, 0, 1, 15), (RDMA_REG_LEN.LEN, 0, 1, 64),
    (RDMA_REG_BASE.VA, 0, 1, 1048576), (PLT_JOB_HBM.QUOTA_GIB, 0, 0, 1)]) (newRound 1 0 [])).modJob 0 (fun J => { J with rounds := [] })
def regV : Word := BitVec.ofNat 64 (2 ^ 60 + 15 * 2 ^ 54)
def revokingSt (w : List OpenWrite) : State := { regSt 2 with revoking := [(0, 1, 0, false)], now := 10 ^ 12, openWrites := w }

/-- PTP and 1PPS enabled on port 0 in a state of free running; the same with a chosen grandmaster. -/
def tideSt : State := landing [(TIDE_CTRL.PTP_EN, 0, 0, 1), (TIDE_CTRL.PPS_EN, 0, 0, 1), (TIDE_CTRL.PORT_MASK, 0, 0, 1)]
def announce0 : Announce := ⟨0, 1, 6, 0x20, 100, 1, 77, 0⟩
def bestSt : State := { fset (fset tideSt TIDE_CTRL.PORT_MASK 0 0 3) TIDE_GM.ID 0 0 77 with best := some (0, announce0), lastAnnounce := 1 }
theorem not_gone : announceGone bestSt = false := by
  have a : bestSt.lastAnnounce = 1 := rfl
  have b : bestSt.now = 0 := by decide +kernel
  simp only [announceGone, a, b, decide_eq_false_iff_not]
  omega
def sync0 : SyncPair := ⟨0, 77, true, -3, 50⟩

/-- Entry `e` armed and due in a time state; an entry selected beside a round whose Offer time was 10, at a time. -/
def eventSt (e n : Nat) : State := { set1 tideSt TIDE_STATUS.STATE n with armed := [(e, ⟨0, 0, none, 0, some 0⟩)] }
def armRd : Round := { maskRd [] with phase := .unmask }
def armSt (t : Nat) : State := { withRound (landing [(TIDE_EVT_SEL.EVENT, 0, 0, 512), (TIDE_STATUS.STATE, 0, 0, 2)]) armRd with now := t }
def armT : State :=
  [TIDE_EVT_CFG.DOUBTFUL_OK, TIDE_EVT_CFG.JOB, TIDE_EVT_CFG.PHASE].foldl (fun (t : State) (f : Fld) => fset t f 512 0 (f.of (BitVec.ofNat 64 (2 ^ TIDE_EVT_CFG.VALID.lo)).toNat)) (armSt 1000)
def armU : State :=
  arm armT 512 ⟨fget armT TIDE_EVT_CFG.JOB 512 0 % 16, 0, some armRd.number, fget armT TIDE_EVT_CFG.PHASE 512 0,
    some (pOfferTime armRd.plan + fget armT TIDE_EVT_CFG.PHASE 512 0 * phaseUnit)⟩

/-- Cluster 4 due, the others at their lowest rate; a hot module and a cool one; array 0 fenced; domain 40's move to a state. -/
def busyLoad : List ClusterLoad := [⟨10, false, 5⟩, ⟨10, false, 4⟩, ⟨10, false, 3⟩, ⟨10, false, 2⟩, ⟨100, true, 1⟩]
def dvfsT : State :=
  set1 ((List.range 5).foldl (fun (u : State) (c : Nat) => dvfsCluster u c (busyLoad.getD c ⟨0, false, 0⟩)) { tideSt with dvfsAt := tideSt.now + 100000 }) PLT_POWER.POWER_MW 2200001
theorem dvfs_lowerable : lowerable dvfsT busyLoad = [4] := by
  have e : (List.range 5).filter (fun c => decide (effMin dvfsT c < fget dvfsT PLT_CLU_STAT.RATE_PCT c 0)) = [4] := by decide +kernel
  rw [lowerable, e, List.mergeSort_singleton]
theorem bneNot (b : Bool) : b ≠ !b := by cases b <;> decide
def coolM : Limits := ⟨48000, 1000, 100, ⟨40000, 40000, 20000⟩, Vector.replicate 16 30000, [0, 1, 2, 3, 4]⟩
def hotM : Limits := { coolM with watts := 2700 }
def fencedArr : State := fset tideSt TRI_UNIT_STATE.STATE 5 0 1
def domSt (t : Nat) : State := { tideSt with domMoves := [(40, t, 0)] }
def domU : State := { fset (fset (domSt 0) PWR_DOM_STATE.STATE 40 0 0) PWR_DOM_STATE.CHANGING 40 0 0 with domMoves := dropKey (domSt 0).domMoves 40 }

/-- The state after KST_WR_CTRL is stored, for a slot of 224 or more; a PF0 key in slot 224 and a challenge with it; ENT_CTRL with every latch and UNIT_RESET. -/
def kstT (s : State) (v : Word) : State :=
  set1 (set1 (set1 s KST_WR_CTRL.EXPIRE (KST_WR_CTRL.EXPIRE.of v.toNat)) KST_WR_CTRL.LIMIT (KST_WR_CTRL.LIMIT.of v.toNat)) KST_WR_CTRL.SLOT (KST_WR_CTRL.SLOT.of v.toNat)
def chalSt : State := fillSlot tideSt 224 3 17 8 0 0 (toBe 48 9)
def chalV : BitVec 32 := BitVec.ofNat 32 (224 * 2 ^ KST_CHAL_CTRL.SLOT.lo + 2 ^ KST_CHAL_CTRL.GO.lo)
def entV : BitVec 32 := BitVec.ofNat 32 (255 * 2 ^ ENT_CTRL.LATCH_EN.lo + 2 ^ ENT_CTRL.UNIT_RESET.lo)

/-- A connection that has come through its negotiation; one with a session; a module out of cold reset at a boot stage. -/
def spdmSt : State := { tideSt with spdm := { tideSt.spdm with versionDone := true, capsDone := true, algsDone := true } }
def sessionSt (d : Bool) : State := { spdmSt with spdm := { spdmSt.spdm with sessions := [⟨1, [], d, 0⟩] } }
theorem cert_pos (s : State) : leAt (zeros 8) 4 2 < (certChain s).length := by
  have e : leAt (zeros 8) 4 2 = 0 := by decide +kernel
  rw [e]
  simp [certChain, zeros]
def onSt (n : Nat) : State := { set1 tideSt PWR_STATUS.BOOT_STAGE n with inputOn := true, holds := [] }

/-- Sampling of every job's invocations of the first sequencer, with the countdown at 0 and tags in flight. -/
def sampSt (l : List Tag) : State :=
  { ctxSt (withRound (landing [(PMU_CTRL.SAMP_EN, 0, 0, 1), (PMU_SAMP_CFG.PERIOD, 0, 0, 1000), (PMU_SAMP_CFG.SEQ_MASK, 0, 0, 1), (PMU_SAMP_CFG.JOB_ALL, 0, 0, 1),
      (PMU_SBUF_CFG.LOG2_RECORDS, 0, 0, 8)]) (maskRd [])) 0 (ctx0 0x20 []) with countdown := 0, tags := l }
def tag0 : Tag := newTag (sampSt []) ⟨0, 0⟩ (ctx0 0x20 []) 0
def measure0 (w : Bool) : SampleMeasure := ⟨5, 6, false, false, false, w⟩
def sampT : State :=
  set1 { sampSt [tag0] with tags := (sampSt [tag0]).tags.filter (fun u => u.number != 0) } PMU_SAMP_STAT.INFLIGHT ((sampSt [tag0]).tags.filter (fun u => u.number != 0)).length

def issuedCtx (sp : Nat) : Ctx := { ctx0 0x20 [] with issued := [⟨7, sp, 0, 3⟩] }
def issuedSt (sp : Nat) : State := ctxSt (withRound (landing []) (maskRd [])) 0 (issuedCtx sp)
/-- The same with its drain still pending. -/
def actingSt : State :=
  let s := issuedSt 0
  s.setArray 0 { s.array 0 with drains := [{ drain0 with op := 7 }] }

/-- A run of an idle module. -/
theorem idleRun (i : Nat) : step (Nat.rec State.reset (fun _ s => tick s) i : State) = .next (tick (Nat.rec State.reset (fun _ s => tick s) i : State)) := by
  have hp : (Nat.rec State.reset (fun _ s => tick s) i : State).pending = [] := by
    induction i with
    | zero => rfl
    | succ i ih => exact (tick_keeps Keeps.rfl).pending.trans ih
  unfold step
  rw [hp]

theorem berthSt_apart (m : Fin 6) (j k : Fin 16) (h : j ≠ k) : fget berthSt VAT_JOB_BERTHS.BERTH j m &&& fget berthSt VAT_JOB_BERTHS.BERTH k m = 0 := by
  revert m j k
  decide +kernel

/-- What a coordinate of that round is to hold beside its mask. -/
def unmaskedQ : Nat :=
  ((unmaskedRd.cohort 0).masks.map (fun m => ringNeg 16 (maskElem .z16 m.key (maskNonce .z16) 0))).sum

/-- A sealed piece of zeros of slot 0, encrypted under its client's key. -/
def pieceHd : Bytes := moduleHeader 3 3 3 7 1 0 0 65552 0
def piecePt : Bytes := (toBe 8 3 ++ toBe 1 2 ++ zeros 7) ++ zeros 65536
def pieceKey : Bytes := keyBytes keyRec.c2m
def pieceCt : Bytes := gcmCtr pieceKey (chunkNonce 1 3 0 0) piecePt
def pieceTag : Bytes := gcmTag pieceKey (chunkNonce 1 3 0 0) pieceHd pieceCt
def pieceC : Bytes := pieceHd ++ (pieceCt ++ pieceTag)

theorem slice_app (a b : Bytes) (o n : Nat) (h : o + n ≤ a.length) : slice (a ++ b) o n = slice a o n := by
  simp only [slice, List.map_inj_left, List.mem_range]
  intro i hi
  rw [List.getD_append _ _ _ _ (by omega)]

theorem slice_right (a b : Bytes) (o n : Nat) (h : a.length ≤ o) : slice (a ++ b) o n = slice b (o - a.length) n := by
  simp only [slice, List.map_inj_left, List.mem_range]
  intro i hi
  rw [List.getD_append_right _ _ _ _ (by omega), Nat.sub_add_comm h]

theorem slice_zeros (k o n : Nat) : slice (zeros k) o n = zeros n := by
  apply List.ext_getElem
  · simp [slice, zeros]
  · intro i h1 h2
    simp only [slice, zeros, List.getElem_map, List.getElem_range, List.getElem_replicate, List.getD_eq_getElem?_getD, List.getElem?_replicate]
    split <;> rfl

theorem slice_whole (a : Bytes) : slice a 0 a.length = a := by
  apply List.ext_getElem
  · simp [slice]
  · intro i h1 h2
    simp [slice, List.getElem?_eq_getElem h2]

theorem pieceBlock_length (b : Bytes) : (aesBlock pieceKey b).length = 16 := by
  have h : ((aesRoundKeys pieceKey).getD 14 []).length = 16 := by decide +kernel
  unfold aesBlock
  simp only [xorBytes, List.length_zipWith, h]
  simp [aesShiftRows]

theorem pieceStream_length (n : Nat) (f : Nat → Bytes) : ((List.range n).flatMap (fun i => aesBlock pieceKey (f i))).length = 16 * n := by
  simp [List.length_flatMap, pieceBlock_length, Nat.mul_comm]

theorem pieceCtr_length (t : Bytes) : (gcmCtr pieceKey (chunkNonce 1 3 0 0) t).length = t.length := by
  unfold gcmCtr
  simp only [xorBytes, List.length_zipWith, pieceStream_length]
  omega

theorem xor_twice (a k : Bytes) (h : a.length ≤ k.length) : xorBytes (xorBytes a k) k = a := by
  induction a generalizing k with
  | nil => rfl
  | cons x a ih =>
    cases k with
    | nil => simp at h
    | cons y k =>
      have := ih k (by simpa using h)
      simp only [xorBytes, List.zipWith_cons_cons] at this ⊢
      rw [this, BitVec.xor_assoc, BitVec.xor_self, BitVec.xor_zero]

theorem pieceCtr_twice (t : Bytes) : gcmCtr pieceKey (chunkNonce 1 3 0 0) (gcmCtr pieceKey (chunkNonce 1 3 0 0) t) = t := by
  have h := pieceCtr_length t
  have e : ∀ t, gcmCtr pieceKey (chunkNonce 1 3 0 0) t = xorBytes t ((List.range (t.length / 16 + 1)).flatMap (fun i => aesBlock pieceKey (chunkNonce 1 3 0 0 ++ toBe 4 (i + 2)))) := fun _ => rfl
  rw [e (gcmCtr _ _ _), h, e t]
  apply xor_twice
  rw [pieceStream_length]
  omega

theorem pieceHd_length : pieceHd.length = 32 := by decide +kernel
theorem piecePt_length : piecePt.length = 65552 := by
  unfold piecePt
  rw [List.length_append, show (toBe 8 3 ++ toBe 1 2 ++ zeros 7).length = 16 by decide +kernel, zeros, List.length_replicate]
theorem pieceCt_length : pieceCt.length = 65552 := by rw [pieceCt, pieceCtr_length, piecePt_length]
theorem pieceTag_length : pieceTag.length = 16 := by
  unfold pieceTag gcmTag
  simp only [xorBytes, List.length_zipWith, pieceBlock_length]
  simp [toBe, toLe_length]
theorem pieceC_length : pieceC.length = 65600 := by
  rw [pieceC, List.length_append, List.length_append, pieceHd_length, pieceCt_length, pieceTag_length]
theorem pieceC_field (o n : Nat) (h : o + n ≤ 32) : beAt pieceC o n = beAt pieceHd o n := by
  rw [beAt, beAt, pieceC, slice_app _ _ _ _ (by rw [pieceHd_length]; exact h)]
theorem pieceC_version : hVersion pieceC = 3 := (pieceC_field _ _ (by decide)).trans (by decide +kernel)
theorem pieceC_type : hType pieceC = 3 := (pieceC_field _ _ (by decide)).trans (by decide +kernel)
theorem pieceC_flags : hFlags pieceC = 3 := (pieceC_field _ _ (by decide)).trans (by decide +kernel)
theorem pieceC_tag : hJobTag pieceC = 7 := (pieceC_field _ _ (by decide)).trans (by decide +kernel)
theorem pieceC_round : hRound pieceC = 1 := (pieceC_field _ _ (by decide)).trans (by decide +kernel)
theorem pieceC_slot : hSlot pieceC = 0 := (pieceC_field _ _ (by decide)).trans (by decide +kernel)
theorem pieceC_index : hIndex pieceC = 0 := (pieceC_field _ _ (by decide)).trans (by decide +kernel)
theorem pieceC_len : hLen pieceC = 65552 := (pieceC_field _ _ (by decide)).trans (by decide +kernel)
theorem pieceC_seq : hSeq pieceC = 0 := (pieceC_field _ _ (by decide)).trans (by decide +kernel)
theorem pieceC_zero : zeroAt pieceC 28 4 = true := by
  rw [zeroAt, pieceC, slice_app _ _ _ _ (by rw [pieceHd_length])]
  decide +kernel
theorem pieceC_header : slice pieceC 0 32 = pieceHd := by
  rw [pieceC, slice_app _ _ _ _ (by rw [pieceHd_length])]
  have := slice_whole pieceHd
  rwa [pieceHd_length] at this
theorem pieceC_payload : hPayload pieceC = pieceCt := by
  rw [hPayload, pieceC_len, pieceC, slice_right _ _ _ _ (by rw [pieceHd_length]), pieceHd_length, slice_app _ _ _ _ (by rw [pieceCt_length])]
  have := slice_whole pieceCt
  rwa [pieceCt_length] at this
theorem pieceC_mac : Machine.hTag pieceC = pieceTag := by
  rw [Machine.hTag, pieceC_len, pieceC, slice_right _ _ _ _ (by rw [pieceHd_length]; omega), pieceHd_length, slice_right _ _ _ _ (by rw [pieceCt_length]), pieceCt_length]
  have := slice_whole pieceTag
  rwa [pieceTag_length] at this
theorem pieceC_opens : openChunk keyRec pieceC = some piecePt := by
  unfold openChunk
  rw [if_neg (by rw [pieceC_type]; decide), pieceC_type, pieceC_index, pieceC_header, pieceC_payload, pieceC_mac, gcmOpen]
  unfold pieceTag pieceKey
  rw [if_pos rfl]
  exact congrArg some (pieceCtr_twice piecePt)
theorem piecePt_zero (o n : Nat) (h : 16 ≤ o) (h2 : n ≤ 4) : beAt piecePt o n = 0 := by
  have e : slice piecePt o n = zeros n := by
    rw [piecePt, slice_right _ _ _ _ (by rw [show (toBe 8 3 ++ toBe 1 2 ++ zeros 7).length = 16 by decide +kernel]; exact h)]
    exact slice_zeros _ _ _
  rw [beAt, e]
  have : n = 0 ∨ n = 1 ∨ n = 2 ∨ n = 3 ∨ n = 4 := by omega
  rcases this with rfl | rfl | rfl | rfl | rfl <;> rfl
theorem piecePt_head (o n : Nat) (h : o + n ≤ 16) : slice piecePt o n = slice (toBe 8 3 ++ toBe 1 2 ++ zeros 7) o n :=
  slice_app _ _ _ _ (by rw [show (toBe 8 3 ++ toBe 1 2 ++ zeros 7).length = 16 by decide +kernel]; exact h)
def pieceSt0 : State := set1 (client sealedRd0 .UPLOADING) RIND_CTRL.ENABLE 1
def pieceSt : State := sendAckTo (fset pieceSt0 RDMA_QP_PSN.RQ_PSN 5 0 (0 + psnCount pieceSt0 5 65600)) 5 ((0 + psnCount pieceSt0 5 65600 - 1) % 2 ^ 24) []
theorem piece_taken : takeChunk pieceSt0 5 pieceC = pieceSt := by
  unfold takeChunk takeSend
  rw [if_neg (by decide +kernel), if_neg (by decide +kernel), if_neg (by decide +kernel), pieceC_length, if_neg (by decide +kernel)]
  rfl
def pset2 : Machine.PSet := (psetOf 2).getD pset1
theorem pieceC_judged : judge pieceSt 5 55 pieceC = .open (look0 pieceSt) := by
  unfold judge judgeRound headerOk
  simp only [pieceC_version, pieceC_type, pieceC_flags, pieceC_tag, pieceC_round, pieceC_slot, pieceC_index, pieceC_len, pieceC_seq, pieceC_zero, pieceC_length]
  decide +kernel
theorem piece_sealed : sealedChunk pieceSt 5 pieceC = true := by
  unfold sealedChunk
  rw [pieceC_round]
  decide +kernel
theorem piece_residues : (List.range 16384).all (fun i => decide (beAt piecePt (16 + pset2.delta * i) pset2.delta < pset2.gam.getD (pieceLimb pset2 (hIndex pieceC)) 1)) = true := by
  rw [List.all_eq_true]
  intro i _
  rw [piecePt_zero _ _ (by omega) (by decide +kernel), pieceC_index]
  decide +kernel

/-- A pass of the scrubber that has read `l`. -/
def scrubSt (l : List Nat) : State := { st [(VAT_CTRL.SCRUB_EN, 0, 0, 1)] with scrubRead := l }
theorem scrubSt_due (l : List Nat) (h : l.contains 5 = false) (k : l ≠ []) : scrubDue (scrubSt l) 5 = true := by
  have e : on (scrubSt l) VAT_CTRL.SCRUB_EN = true := by
    show on (st [(VAT_CTRL.SCRUB_EN, 0, 0, 1)]) VAT_CTRL.SCRUB_EN = true
    decide +kernel
  have g : (scrubSt l).scrubRead.isEmpty = false := by cases l with | nil => exact absurd rfl k | cons _ _ => rfl
  have h' : (scrubSt l).scrubRead.contains 5 = false := h
  simp only [scrubDue, e, h', g, Bool.not_false, Bool.true_and, Bool.true_or]
theorem scrubSt_read (l : List Nat) : (eccRead (scrubSt l) 5 ⟨0, false⟩).scrubRead = l := rfl
theorem pass_exists : ∃ l : List Nat, l.contains 5 = false ∧ l ≠ [] ∧ allLines ≤ l.length + 1 := by
  refine ⟨List.replicate allLines 4, ?_, ?_, ?_⟩
  · rw [List.contains_replicate]; decide
  · intro h
    have := congrArg List.length h
    rw [List.length_replicate] at this
    exact absurd this (by decide)
  · rw [List.length_replicate]; exact Nat.le_succ _

/-- A job with a quota of HBM whose round has an accumulator to move. -/
def moveRd : Round := maskRd [secret1]
def moveSt : State := withRound (landing [(VAT_JOB_BERTHS.BERTH, 0, 0, 1), (PLT_JOB_HBM.QUOTA_GIB, 0, 0, 64)]) moveRd

/-! A witness for the hypotheses of every statement. -/

theorem wit_UnansweredSendsAreCounted_1 : ∃ (s u : State) (q : Qpn) (c : Bytes),
    takeChunk s q c = u ∧
    landed u q = true ∧
    c.length < 32 ∧
    fget u LND_FE_ERR.AUTH_FAILED (qpFe u q) 0 + fget u LND_FE_ERR.MALFORMED (qpFe u q) 0 + 1 ≤ get1 u LND_QUAR_THRESH.THRESH :=
  ⟨landing [], _, 5, [], rfl, by decide +kernel⟩

theorem wit_UnansweredSendsAreCounted_2 : ∃ (s u : State) (q : Qpn) (c : Bytes),
    takeChunk s q c = u ∧
    landed u q = true ∧
    32 ≤ c.length ∧
    hType c = 6 ∧
    fget u LND_FE_ERR.AUTH_FAILED (qpFe u q) 0 + fget u LND_FE_ERR.MALFORMED (qpFe u q) 0 + 1 ≤ get1 u LND_QUAR_THRESH.THRESH :=
  ⟨landing [], _, 5, [3, 6] ++ zeros 30, rfl, by decide +kernel⟩

theorem wit_UnansweredSendsAreCounted_3 : ∃ (s u : State) (q : Qpn) (stamp : Nat) (c : Bytes),
    takeChunk s q c = u ∧
    landed u q = true ∧
    32 ≤ c.length ∧
    typeFlags (hType c) = none ∧
    hType c ≠ 6 :=
  ⟨landing [], _, 5, 0, [3, 0x81] ++ zeros 30, rfl, by decide +kernel⟩

theorem wit_JoinIsRecorded_1 : ∃ (s u : State) (q : Qpn) (stamp : Nat) (c : Bytes) (l : Look) (k : KeyRec) (pt : Bytes),
    takeChunk s q c = u ∧
    landed u q = true ∧
    32 ≤ c.length ∧
    hType c = 1 ∧
    judge u q stamp c = .open l ∧
    l.withdrawn = false ∧
    l.key = none ∧
    l.x.closed = false ∧
    tollOn (lookupEntry u l) = true ∧
    joinKeys l.x c = some k ∧
    openChunk k c = some pt ∧
    decodePt (slice c 129 97) ≠ none :=
  ⟨withRound (landing []) (rd (plan 0 16) [1, 2]), _, 5, 25, joinC, look0 (withRound (landing []) (rd (plan 0 16) [1, 2])), keyRec, [], rfl, by decide +kernel⟩

theorem wit_JoinIsRecorded_2 : ∃ (s u : State) (q : Qpn) (stamp : Nat) (c : Bytes) (l : Look) (k : KeyRec) (pt : Bytes),
    takeChunk s q c = u ∧
    landed u q = true ∧
    32 ≤ c.length ∧
    hType c = 1 ∧
    judge u q stamp c = .open l ∧
    l.withdrawn = false ∧
    l.key = some k ∧
    slice c 32 97 = k.eph ∧
    slice c 129 97 = k.pair ∧
    openChunk k c = some pt :=
  ⟨client (rd (plan 0 16) [1, 2]) .JOINED, _, 5, 25, joinC, look0 (client (rd (plan 0 16) [1, 2]) .JOINED), keyRec, [], rfl, by decide +kernel⟩

theorem wit_JoinIsRecorded_3 : ∃ (s u : State) (q : Qpn) (stamp : Nat) (c : Bytes) (l : Look) (k : KeyRec),
    takeChunk s q c = u ∧
    landed u q = true ∧
    32 ≤ c.length ∧
    hType c = 1 ∧
    judge u q stamp c = .open l ∧
    l.withdrawn = false ∧
    l.key = some k ∧
    slice c 32 97 ≠ k.eph :=
  ⟨client (rd (plan 0 16) [1, 2]) .JOINED, _, 5, 25, (joinC.set 40 0), look0 (client (rd (plan 0 16) [1, 2]) .JOINED), keyRec, rfl, by decide +kernel⟩

theorem wit_ClientMessagesAreAdmitted_1 : ∃ (s u : State) (q : Qpn) (stamp : Nat) (c : Bytes) (l : Look) (k : KeyRec) (pt : Bytes) (es : List (Nat × Bytes)),
    takeChunk s q c = u ∧
    landed u q = true ∧
    32 ≤ c.length ∧
    hType c = 2 ∧
    judge u q stamp c = .open l ∧
    standing l 2 = none ∧
    l.key = some k ∧
    openChunk k c = some pt ∧
    shareEntries pt = some es ∧
    es.length = pDegree l.x.plan ∧
    (es.map (·.1)).Nodup ∧
    es.all (fun e => ((lookup l.x.nbrs l.slot).getD []).contains e.1) = true ∧
    lookup l.x.bundles l.slot = none ∧
    l.x.bundleKey ≠ none :=
  ⟨client sharesRd .NEIGHBOURED, _, 5, 45, sharesC, look0 (client sharesRd .NEIGHBOURED), keyRec, sharesPt, [(1, zeros 120)], rfl, by decide +kernel⟩

theorem wit_ClientMessagesAreAdmitted_2 : ∃ (s u : State) (q : Qpn) (stamp : Nat) (c : Bytes) (l : Look) (k : KeyRec) (pt : Bytes) (es : List (Nat × Nat × Nat)),
    takeChunk s q c = u ∧
    ((u.round? (feJob u (qpFe u q)) (hRound c)).map (fun x => x.offerDone && isMember x.plan (hSlot c))).getD false = false ∧
    landed u q = true ∧
    32 ≤ c.length ∧
    hType c = 4 ∧
    judge u q stamp c = .open l ∧
    standing l 4 = none ∧
    l.key = some k ∧
    openChunk k c = some pt ∧
    unmaskEntries pt = some es ∧
    es.all (fun e => (e.2.1 == 1 || e.2.1 == 2) && ((lookup l.x.requested l.slot).getD []).contains (e.1, e.2.1 == 1)) = true ∧
    l.unmaskAdm = false ∧
    l.x.deadline = false :=
  ⟨client unmaskRd .SHARED, _, 5, 75, unmaskC, look0 (client unmaskRd .SHARED), keyRec, unmaskPt, [(1, 2, 5)], rfl, by decide +kernel⟩

theorem wit_ClientMessagesAreAdmitted_3 : ∃ (s u : State) (q : Qpn) (stamp : Nat) (c : Bytes) (l : Look) (k : KeyRec) (pt : Bytes),
    takeChunk s q c = u ∧
    landed u q = true ∧
    32 ≤ c.length ∧
    hType c = 5 ∧
    judge u q stamp c = .open l ∧
    standing l 5 = none ∧
    l.key = some k ∧
    openChunk k c = some pt ∧
    pt.length = 4 ∧
    zeroAt pt 1 3 = true :=
  ⟨client (rd (plan 0 16) [1, 2]) .JOINED, _, 5, 25, abortC, look0 (client (rd (plan 0 16) [1, 2]) .JOINED), keyRec, [9, 0, 0, 0], rfl, by decide +kernel⟩

theorem wit_UploadsClaimTheirChunk_1 : ∃ (s u : State) (q : Qpn) (stamp : Nat) (c : Bytes) (l : Look) (k : KeyRec) (pt : Bytes),
    takeChunk s q c = u ∧
    sealedChunk u q c = false ∧
    landed u q = true ∧
    32 ≤ c.length ∧
    hType c = 3 ∧
    judge u q stamp c = .open l ∧
    standing l 3 = none ∧
    l.key = some k ∧
    openChunk k c = some pt ∧
    hIndex c < chunkCount l.x.plan ∧
    pt.length = pChunk l.x.plan * ((pRing l.x.plan).bits / 8) ∧
    metPoison (pmu (lookupEntry u l) 0x03 (some l.job) ((hLen c + 63) / 64)) l.job [bitPlace (pmu (lookupEntry u l) 0x03 (some l.job) ((hLen c + 63) / 64)) l.job l.x l.slot (hIndex c)] = none ∧
    ((lookup l.x.bitmaps l.slot).getD []).contains (hIndex c) = false ∧
    claimOf (pmu (lookupEntry u l) 0x03 (some l.job) ((hLen c + 63) / 64)) l.job l.r l.slot (hIndex c) = none ∧
    metPoison (pmu (lookupEntry u l) 0x03 (some l.job) ((hLen c + 63) / 64)) l.job (addPlaces (pmu (lookupEntry u l) 0x03 (some l.job) ((hLen c + 63) / 64)) l.job l.x l.slot (hIndex c)) = none :=
  ⟨client uploadRd .SHARED, _, 5, 55, uploadC, look0 (client uploadRd .SHARED), keyRec, [0, 1, 0, 2, 0, 3, 0, 4], rfl, by decide +kernel, by decide +kernel, by decide +kernel, by decide +kernel, by decide +kernel, by decide +kernel, by decide +kernel, by decide +kernel, by decide +kernel, by decide +kernel, noPoison _ _ _ (by decide +kernel), by decide +kernel, by decide +kernel, noPoison _ _ _ (by decide +kernel)⟩

theorem wit_UploadsClaimTheirChunk_2 : ∃ (s u : State) (q : Qpn) (stamp : Nat) (c : Bytes) (l : Look) (k : KeyRec) (pt : Bytes),
    takeChunk s q c = u ∧
    sealedChunk u q c = false ∧
    landed u q = true ∧
    32 ≤ c.length ∧
    hType c = 3 ∧
    judge u q stamp c = .open l ∧
    standing l 3 = none ∧
    l.key = some k ∧
    openChunk k c = some pt ∧
    hIndex c < chunkCount l.x.plan ∧
    pt.length = pChunk l.x.plan * ((pRing l.x.plan).bits / 8) ∧
    metPoison (pmu (lookupEntry u l) 0x03 (some l.job) ((hLen c + 63) / 64)) l.job [bitPlace (pmu (lookupEntry u l) 0x03 (some l.job) ((hLen c + 63) / 64)) l.job l.x l.slot (hIndex c)] = none ∧
    ((lookup l.x.bitmaps l.slot).getD []).contains (hIndex c) = true :=
  ⟨client { uploadRd with bitmaps := [(0, [1])] } .UPLOADING, _, 5, 55, uploadC, look0 (client { uploadRd with bitmaps := [(0, [1])] } .UPLOADING), keyRec, [0, 1, 0, 2, 0, 3, 0, 4], rfl, by decide +kernel, by decide +kernel, by decide +kernel, by decide +kernel, by decide +kernel, by decide +kernel, by decide +kernel, by decide +kernel, by decide +kernel, by decide +kernel, noPoison _ _ _ (by decide +kernel), by decide +kernel⟩

theorem wit_UploadsClaimTheirChunk_3 : ∃ (s u : State) (q : Qpn) (stamp : Nat) (c : Bytes) (l : Look) (k : KeyRec) (pt : Bytes) (n : Nat) (t : Txn),
    takeChunk s q c = u ∧
    sealedChunk u q c = false ∧
    landed u q = true ∧
    32 ≤ c.length ∧
    hType c = 3 ∧
    judge u q stamp c = .open l ∧
    standing l 3 = none ∧
    l.key = some k ∧
    openChunk k c = some pt ∧
    hIndex c < chunkCount l.x.plan ∧
    pt.length = pChunk l.x.plan * ((pRing l.x.plan).bits / 8) ∧
    metPoison (pmu (lookupEntry u l) 0x03 (some l.job) ((hLen c + 63) / 64)) l.job [bitPlace (pmu (lookupEntry u l) 0x03 (some l.job) ((hLen c + 63) / 64)) l.job l.x l.slot (hIndex c)] = none ∧
    ((lookup l.x.bitmaps l.slot).getD []).contains (hIndex c) = false ∧
    claimOf (pmu (lookupEntry u l) 0x03 (some l.job) ((hLen c + 63) / 64)) l.job l.r l.slot (hIndex c) = some (n, t) :=
  ⟨{ client uploadRd .UPLOADING with txns := [(0, txn0)] }, _, 5, 55, uploadC, look0 (client uploadRd .UPLOADING), keyRec, [0, 1, 0, 2, 0, 3, 0, 4], 0, txn0, rfl, by decide +kernel, by decide +kernel, by decide +kernel, by decide +kernel, by decide +kernel, by decide +kernel, by decide +kernel, by decide +kernel, by decide +kernel, by decide +kernel, noPoison _ _ _ (by decide +kernel), by decide +kernel⟩

theorem wit_UploadsClaimTheirChunk_4 : ∃ (s u : State) (q : Qpn) (stamp : Nat) (c : Bytes) (l : Look) (k : KeyRec) (pt : Bytes) (x : Machine.PSet),
    takeChunk s q c = u ∧
    sealedChunk u q c = true ∧
    landed u q = true ∧
    32 ≤ c.length ∧
    hType c = 3 ∧
    judge u q stamp c = .open l ∧
    standing l 3 = none ∧
    l.key = some k ∧
    openChunk k c = some pt ∧
    hIndex c < chunkCount l.x.plan ∧
    pSet l.x.plan = some x ∧
    pt.length = 16 + 16384 * x.delta ∧
    zeroAt pt 9 7 = true ∧
    beAt pt 0 8 = spJobKey (pParams l.x.plan) ∧
    beAt pt 8 1 = spSet (pParams l.x.plan) ∧
    (List.range 16384).all (fun i => decide (beAt pt (16 + x.delta * i) x.delta < x.gam.getD (pieceLimb x (hIndex c)) 1)) = true ∧
    rindOn (pmu (lookupEntry u l) 0x03 (some l.job) ((hLen c + 63) / 64)) = true ∧
    metPoison (pmu (lookupEntry u l) 0x03 (some l.job) ((hLen c + 63) / 64)) l.job [bitPlace (pmu (lookupEntry u l) 0x03 (some l.job) ((hLen c + 63) / 64)) l.job l.x l.slot (hIndex c)] = none ∧
    ((lookup l.x.bitmaps l.slot).getD []).contains (hIndex c) = false ∧
    claimOf (pmu (lookupEntry u l) 0x03 (some l.job) ((hLen c + 63) / 64)) l.job l.r l.slot (hIndex c) = none ∧
    metPoison (pmu (lookupEntry u l) 0x03 (some l.job) ((hLen c + 63) / 64)) l.job (addPlaces (pmu (lookupEntry u l) 0x03 (some l.job) ((hLen c + 63) / 64)) l.job l.x l.slot (hIndex c)) = none :=
  ⟨pieceSt0, _, 5, 55, pieceC, look0 pieceSt, keyRec, piecePt, pset2, piece_taken, piece_sealed, by decide +kernel, by rw [pieceC_length]; decide, pieceC_type, pieceC_judged, by decide +kernel, by decide +kernel, pieceC_opens, by rw [pieceC_index]; decide +kernel, by decide +kernel, piecePt_length.trans (by decide +kernel), by rw [zeroAt, piecePt_head _ _ (by decide)]; decide +kernel, by rw [beAt, piecePt_head _ _ (by decide)]; decide +kernel, by rw [beAt, piecePt_head _ _ (by decide)]; decide +kernel, piece_residues, by rw [pieceC_len]; decide +kernel, noPoison _ _ _ (by rw [pieceC_len]; decide +kernel), by rw [pieceC_index]; decide +kernel, by rw [pieceC_len, pieceC_index]; decide +kernel, noPoison _ _ _ (by rw [pieceC_len]; decide +kernel)⟩

theorem wit_CommitEndsTheTransaction_1 : ∃ (s : State) (n : Nat) (b : Fin 3) (t : Txn) (x y : Round),
    lookup s.txns n = some t ∧
    s.round? t.job t.round = some x ∧
    metPoison s t.job (bitPlace s t.job x t.slot t.chunk :: addPlaces s t.job x t.slot t.chunk) = none ∧
    t.sealing = false ∧
    (commitMasked s t (lookAt s (qpFe s t.qpn) t.job x t.slot)).round? t.job t.round = some y :=
  ⟨{ client uploadRd .UPLOADING with txns := [(0, txn0)] }, 0, 0, txn0, { uploadRd with keys := [(0, keyRec)] },
    Option.get ((commitMasked { client uploadRd .UPLOADING with txns := [(0, txn0)] } txn0 (lookAt { client uploadRd .UPLOADING with txns := [(0, txn0)] } 0 0 { uploadRd with keys := [(0, keyRec)] } 0)).round? 0 1) (by decide +kernel), by decide +kernel, by decide +kernel, noPoison _ _ _ (by decide +kernel), by decide +kernel, (Option.some_get _).symm⟩

theorem wit_CommitEndsTheTransaction_2 : ∃ (s : State) (n : Nat) (b : Fin 3) (t : Txn) (x y : Round),
    lookup s.txns n = some t ∧
    s.round? t.job t.round = some x ∧
    metPoison s t.job (bitPlace s t.job x t.slot t.chunk :: addPlaces s t.job x t.slot t.chunk) = none ∧
    t.sealing = true ∧
    b ≠ 2 ∧
    (commitSealed (residueRuns s false b) t (lookAt s (qpFe s t.qpn) t.job x t.slot)).round? t.job t.round = some y :=
  ⟨sealedSt, 0, 0, sealedTxn, sealedRd, Option.get ((commitSealed sealedSt sealedTxn (lookAt sealedSt 0 0 sealedRd 0)).round? 0 1) (by decide +kernel), by decide +kernel, by decide +kernel, noPoison _ _ _ (by decide +kernel), by decide +kernel, by decide +kernel, (Option.some_get _).symm⟩

theorem wit_CommitEndsTheTransaction_3 : ∃ (s : State) (n : Nat) (t : Txn) (x : Round),
    lookup s.txns n = some t ∧
    s.round? t.job t.round = some x ∧
    metPoison s t.job (bitPlace s t.job x t.slot t.chunk :: addPlaces s t.job x t.slot t.chunk) = none ∧
    t.sealing = true :=
  ⟨sealedSt, 0, sealedTxn, sealedRd, by decide +kernel, by decide +kernel, noPoison _ _ _ (by decide +kernel), by decide +kernel⟩

theorem wit_ManifestsAreHashed_1 : ∃ (s u : State) (q : Qpn) (stamp : Nat) (c : Bytes) (l : Look) (k : KeyRec) (pt : Bytes) (g i n : Nat),
    takeChunk s q c = u ∧
    memberChunk u q c = true ∧
    landed u q = true ∧
    32 ≤ c.length ∧
    hType c = 4 ∧
    judge u q stamp c = .open l ∧
    standing l 4 = none ∧
    l.key = some k ∧
    openChunk k c = some pt ∧
    memberOf l.x.plan l.slot = some (g, i) ∧
    pt.length = 64 ∧
    zeroAt pt 2 2 = true ∧
    beAt pt 0 1 = g ∧
    beAt pt 1 1 = i ∧
    beAt pt 4 4 = (dirOf l.x g).length ∧
    lookup l.x.manifests l.slot = none ∧
    regionOf (pmu (lookupEntry u l) 0x03 (some l.job) ((hLen c + 63) / 64)) l.job 3 g i = some n ∧
    bit (fget (pmu (lookupEntry u l) 0x03 (some l.job) ((hLen c + 63) / 64)) RDMA_REG_CFG.RIGHTS l.job n) 1 = true :=
  ⟨memberSt, _, 5, 75, manifestC, look0 memberSt, keyRec, manifestPt, 0, 0, 4, rfl, by decide +kernel⟩

theorem wit_ManifestsAreHashed_2 : ∃ (s u : State) (q : Qpn) (stamp : Nat) (c : Bytes) (l : Look) (k : KeyRec) (pt : Bytes) (g i : Nat) (m : Manifest),
    takeChunk s q c = u ∧
    memberChunk u q c = true ∧
    landed u q = true ∧
    32 ≤ c.length ∧
    hType c = 4 ∧
    judge u q stamp c = .open l ∧
    standing l 4 = none ∧
    l.key = some k ∧
    openChunk k c = some pt ∧
    memberOf l.x.plan l.slot = some (g, i) ∧
    pt.length = 64 ∧
    zeroAt pt 2 2 = true ∧
    beAt pt 0 1 = g ∧
    beAt pt 1 1 = i ∧
    beAt pt 4 4 = (dirOf l.x g).length ∧
    lookup l.x.manifests l.slot = some m ∧
    m.admitted = false ∧
    m.hashing = true :=
  ⟨hashSt, _, 5, 75, manifestC, look0 hashSt, keyRec, manifestPt, 0, 0, hashM, rfl, by decide +kernel⟩

theorem wit_ManifestsAreHashed_3 : ∃ (s : State) (j : JobId) (r : Nat) (slot : Slot) (rd : Round) (m : Manifest) (x : Machine.PSet) (n : Nat),
    s.round? j r = some rd ∧
    lookup rd.manifests slot.val = some m ∧
    pSet rd.plan = some x ∧
    regionOf s j 3 m.group m.member = some n ∧
    m.hashing = true ∧
    s.alive j = true ∧
    rindOn s = true ∧
    s.revoking.any (fun v => v.1 == j.val && v.2.1 == n) = false ∧
    poisoned (count s RIND_HASH_BYTES.COUNT 0 0 (areaBytes s j x rd m n).length) j (fget (count s RIND_HASH_BYTES.COUNT 0 0 (areaBytes s j x rd m n).length) RDMA_REG_BASE.VA j n) (areaBytes s j x rd m n).length = false ∧
    digestBytes (sha384 (areaBytes s j x rd m n)) = m.digest :=
  ⟨hashSt, 0, 1, 0, hashRd, hashM, pset1, 4, by decide +kernel, by decide +kernel, by decide +kernel, by decide +kernel, by decide +kernel, by decide +kernel, by decide +kernel, by decide +kernel, notPoisoned _ _ _ _ (by decide +kernel), by decide +kernel⟩

theorem wit_ManifestsAreHashed_4 : ∃ (s : State) (j : JobId) (r : Nat) (slot : Slot) (rd : Round) (m : Manifest) (x : Machine.PSet) (n : Nat),
    s.round? j r = some rd ∧
    lookup rd.manifests slot.val = some m ∧
    pSet rd.plan = some x ∧
    regionOf s j 3 m.group m.member = some n ∧
    m.hashing = true ∧
    s.alive j = true ∧
    rindOn s = true ∧
    s.revoking.any (fun v => v.1 == j.val && v.2.1 == n) = false ∧
    poisoned (count s RIND_HASH_BYTES.COUNT 0 0 (areaBytes s j x rd m n).length) j (fget (count s RIND_HASH_BYTES.COUNT 0 0 (areaBytes s j x rd m n).length) RDMA_REG_BASE.VA j n) (areaBytes s j x rd m n).length = false ∧
    digestBytes (sha384 (areaBytes s j x rd m n)) ≠ m.digest :=
  ⟨badHashSt, 0, 1, 0, badHashRd, { hashM with digest := [] }, pset1, 4, by decide +kernel, by decide +kernel, by decide +kernel, by decide +kernel, by decide +kernel, by decide +kernel, by decide +kernel, by decide +kernel, notPoisoned _ _ _ _ (by decide +kernel), by decide +kernel⟩

theorem wit_FrontEndRegistersAreWritten_1 : ∃ (s : State) (v : BitVec 32),
    bit v.toNat 31 = true ∧
    fget s LND_FE_STATE.QUARANTINED (get1 s LND_SEL.FE) 0 = 1 :=
  ⟨st [(LND_FE_STATE.QUARANTINED, 0, 0, 1)], 0x80000000, by decide +kernel⟩

theorem wit_FrontEndRegistersAreWritten_2 : ∃ (s : State) (v : Word),
    feValid (storeFeCfg s (get1 s LND_SEL.FE) v) (get1 s LND_SEL.FE) = true ∧
    feFits (storeFeCfg s (get1 s LND_SEL.FE) v) (get1 s LND_SEL.FE) = true :=
  ⟨st [(ROS_JOB_RANGE.COUNT, 2, 0, 8)], 0x0802000000000008, by decide +kernel⟩

theorem wit_FrontEndRegistersAreWritten_3 : ∃ (s : State) (v : Word),
    (feValid (storeFeCfg s (get1 s LND_SEL.FE) v) (get1 s LND_SEL.FE) && feFits (storeFeCfg s (get1 s LND_SEL.FE) v) (get1 s LND_SEL.FE)) = false :=
  ⟨State.reset, 0x0802000000000008, by decide +kernel⟩

theorem wit_FrontEndRegistersAreWritten_4 : ∃ (s : State),
    s.creditAt ≤ s.now :=
  ⟨landing [], by decide +kernel⟩

theorem wit_CloseFixesTheRound_1 : ∃ (s : State) (j : JobId) (r : Nat) (x : Round),
    s.round? j r = some x ∧
    begun x 6 = true ∧
    x.closed = false ∧
    x.drainEnd ≤ s.now :=
  ⟨{ client (rd (plan 0 16) [1, 2, 3, 4, 5, 6]) .UPLOADING with txns := [(0, { txn0 with waiters := [(5, 55, uploadC)] })] }, 0, 1, { rd (plan 0 16) [1, 2, 3, 4, 5, 6] with keys := [(0, keyRec)] }, by decide +kernel⟩

theorem wit_CloseFixesTheRound_2 : ∃ (s : State) (j : JobId) (r : Nat) (x y : Round),
    s.round? j r = some x ∧
    begun x 6 = true ∧
    x.closed = false ∧
    s.alive j = true ∧
    x.drainEnd ≤ s.now ∧
    s.txns.any (fun t => t.2.job == j && t.2.round == r) = false ∧
    s.waitingChunks.any (heldUpload s j r) = false ∧
    (!pSealed x.plan || rindOn s && cultureOn s) = true ∧
    ((let table := (joinedSlots s j r).foldl (fun m u => putN m u (closeRec x.plan u (entryOf s j r u))) ([] : NatMap CloseRec)
    let s1 := s.modRound j r (fun y => { y with closed := true, closeTable := table, bundleKey := none, weights := if pWeightPtr y.plan = 0 then [] else jobRead s j (pWeightPtr y.plan) (2 * pCohortCount y.plan) })
    fset (fset (fset (fset (eraseSlot (closeEntries s1 j table) ((s1.job j).bundleSlot r)) ROS_JOB_COUNTS.SURVIVORS j 0 (table.filter (fun e => e.2.state == .SURVIVOR)).length) CUL_JOB_VOID.VOID_CHUNKS j 0 0)
      VAT_JOB_SETTLE.SETTLED j 0 0) VAT_JOB_SETTLE.FAILED j 0 0).round? j r = some y) :=
  ⟨client (rd (plan 0 16) [1, 2, 3, 4, 5, 6]) .COMPLETE, 0, 1, { rd (plan 0 16) [1, 2, 3, 4, 5, 6] with keys := [(0, keyRec)] },
    { rd (plan 0 16) [1, 2, 3, 4, 5, 6] with keys := [(0, keyRec)], closed := true, closeTable := [(0, closeRec (plan 0 16) 0 (entry .COMPLETE))] }, by decide +kernel⟩

theorem wit_CloseFixesTheRound_3 : ∃ (s : State) (j : JobId) (r : Nat) (c : CohortId) (x : Round) (key : Key256),
    s.round? j r = some x ∧
    (x.cohort c).checkKey = some key ∧
    x.closed = true ∧
    (x.cohort c).checked = false ∧
    (x.cohort c).reason = 0 ∧
    s.alive j = true ∧
    metPoison s j (checkPlaces s j x c key) = none :=
  ⟨checkSt, 0, 1, 0, checkRd, 5, by decide +kernel, by decide +kernel, by decide +kernel, by decide +kernel, by decide +kernel, by decide +kernel, noPoison _ _ _ (by decide +kernel)⟩

theorem wit_PhasesBeginInTurn_1 : ∃ (s s1 s2 s3 : State) (j : JobId) (r : Nat) (x y : Round),
    s.round? j r = some x ∧
    phaseTime x.plan 1 ≤ s.now ∧
    begun x 1 = false ∧
    x.held.contains (phaseOf 1) = false ∧
    s.alive j = true ∧
    doubtfulCloses (fireEntry s (phaseEntry j r 0) false) j x 1 = s1 ∧
    mayBegin s1 j x 1 = true ∧
    entropyReady s1 = true ∧
    fillSlot (tollDone (drawScalar (served s1 1)).2 (some j) 1 0) (((drawScalar (served s1 1)).2.job j).roundSlot r) 2 j 2 1 0 (toBe 48 (drawScalar (served s1 1)).1) = s2 ∧
    ((let t := (s2.modRound j r (fun x => { x with offerDone := true, priv := (drawScalar (served s1 1)).1, pub := publicOf (drawScalar (served s1 1)).1, lockedKeys := usedEntries (s2.job j) x.plan })).modJob j
        (fun J => { J with offered := true })
    let u := fset (fset t RIND_JOB_KEYS.LOCKED j 0 (lockedMask t j)) ROS_JOB_COUNTS.JOINED j 0 0
    (fesOf u j).foldl clearFeCounts u) = s3) ∧
    s3.round? j r = some y ∧
    y.held.contains .join = false :=
  ⟨offerSt, offerSt1, offerSt2, offerSt3, 0, 1, newRound 1 9 (plan 0 16), Option.get (offerSt3.round? 0 1) (by decide +kernel), by decide +kernel, by decide +kernel, by decide +kernel, by decide +kernel, by decide +kernel, rfl, by decide +kernel, by decide +kernel, rfl, rfl, (Option.some_get _).symm, by decide +kernel⟩

theorem wit_PhasesBeginInTurn_2 : ∃ (s s1 : State) (j : JobId) (r : Nat) (x : Round) (y : Round),
    s.round? j r = some x ∧
    phaseTime x.plan 2 ≤ s.now ∧
    begun x 2 = false ∧
    x.held.contains (phaseOf 2) = false ∧
    s.alive j = true ∧
    doubtfulCloses (fireEntry s (phaseEntry j r 1) false) j x 2 = s1 ∧
    mayBegin s1 j x 2 = true ∧
    (markPhase s1 j r 2).round? j r = some y ∧
    y.held.contains .neighbours = false :=
  ⟨{ withRound (landing []) (rd (plan 0 16) [1]) with now := 20 }, _, 0, 1, rd (plan 0 16) [1], { rd (plan 0 16) [1] with phase := .join, begunAt := [(1, 10), (2, 20)] }, by decide +kernel, by decide +kernel, by decide +kernel, by decide +kernel, by decide +kernel, rfl, by decide +kernel⟩

theorem wit_PhasesBeginInTurn_3 : ∃ (s s1 s2 s3 : State) (j : JobId) (r : Nat) (x y : Round),
    s.round? j r = some x ∧
    phaseTime x.plan 3 ≤ s.now ∧
    begun x 3 = false ∧
    x.held.contains (phaseOf 3) = false ∧
    s.alive j = true ∧
    doubtfulCloses (fireEntry s (phaseEntry j r 2) false) j x 3 = s1 ∧
    mayBegin s1 j x 3 = true ∧
    (markPhase s1 j r 3).round? j r = some y ∧
    fset (fset (markPhase s1 j r 3) CUL_JOB_COHORTS.ABANDONED j 0 0) CUL_JOB_COHORTS.UNMASKED j 0 0 = s2 ∧
    ((let joined := (joinedSlots s2 j r).filter (fun u => (entryOf s2 j r u).state == .JOINED)
    (joined.filter (fun u => isMember y.plan u)).foldl (fun t u => neighbour j r y t u []) ((List.range (pCohortCount y.plan)).foldl (neighboursCohort j r y joined) s2)) = s3) ∧
    ((s3.round? j r).map (fun z => z.held.contains .shares)) = some false :=
  ⟨{ withRound (landing []) (rd (plan 0 16) [1, 2]) with now := 30 }, _, _, _, 0, 1, rd (plan 0 16) [1, 2], { rd (plan 0 16) [1, 2] with phase := .neighbours, begunAt := [(1, 10), (2, 20), (3, 30)] }, by decide +kernel, by decide +kernel, by decide +kernel, by decide +kernel, by decide +kernel, rfl, by decide +kernel, by decide +kernel, rfl, rfl, by decide +kernel⟩

theorem wit_PhasesBeginInTurn_4 : ∃ (s s1 : State) (j : JobId) (r : Nat) (x : Round) (y : Round),
    s.round? j r = some x ∧
    phaseTime x.plan 4 ≤ s.now ∧
    begun x 4 = false ∧
    x.held.contains (phaseOf 4) = false ∧
    s.alive j = true ∧
    doubtfulCloses (fireEntry s (phaseEntry j r 3) false) j x 4 = s1 ∧
    mayBegin s1 j x 4 = true ∧
    s1.round? j r = some y ∧
    pSealed y.plan = false ∧
    entropyReady s1 = true :=
  ⟨{ withRound (landing []) (rd (plan 0 16) [1, 2, 3]) with now := 40 }, _, 0, 1, rd (plan 0 16) [1, 2, 3], rd (plan 0 16) [1, 2, 3], by decide +kernel, by decide +kernel, by decide +kernel, by decide +kernel, by decide +kernel, rfl, by decide +kernel⟩

theorem wit_PhasesBeginInTurn_5 : ∃ (s s1 s2 s3 : State) (j : JobId) (r : Nat) (x y : Round),
    s.round? j r = some x ∧
    phaseTime x.plan 5 ≤ s.now ∧
    begun x 5 = false ∧
    x.held.contains (phaseOf 5) = false ∧
    s.alive j = true ∧
    doubtfulCloses (fireEntry s (phaseEntry j r 4) false) j x 5 = s1 ∧
    mayBegin s1 j x 5 = true ∧
    (markPhase s1 j r 5).round? j r = some y ∧
    pSealed y.plan = false ∧
    (trierLoop ((List.range (pCohortCount y.plan)).foldl (fun t c => (clearCohort t j y c).modCohort j r c (fun k => { k with accum := [], check := [0, 0, 0, 0], sums := [] }))
      ((y.bundles.map (·.1)).foldl (fun t u => tell t j r u 0x83 (bundleMsg (bundlesTo y u))) (markPhase s1 j r 5))) j = s2) ∧
    (liveCohorts y).foldl (drawCheckKey j r (appliedFrac s2 j)) s2 = s3 ∧
    ((s3.round? j r).map (fun z => z.held.contains .close)) = some false :=
  ⟨{ withRound (landing []) (rd (plan 0 16) [1, 2, 3, 4]) with now := 50 }, _, _, _, 0, 1, rd (plan 0 16) [1, 2, 3, 4], { rd (plan 0 16) [1, 2, 3, 4] with phase := .upload, begunAt := [(1, 10), (2, 20), (3, 30), (4, 40), (5, 50)] }, by decide +kernel, by decide +kernel, by decide +kernel, by decide +kernel, by decide +kernel, rfl, by decide +kernel, by decide +kernel, by decide +kernel, rfl, rfl, by decide +kernel⟩

theorem wit_PhasesBeginInTurn_6 : ∃ (s s1 : State) (j : JobId) (r : Nat) (x : Round),
    s.round? j r = some x ∧
    phaseTime x.plan 6 ≤ s.now ∧
    begun x 6 = false ∧
    x.held.contains (phaseOf 6) = false ∧
    s.alive j = true ∧
    doubtfulCloses (fireEntry s (phaseEntry j r 5) false) j x 6 = s1 ∧
    mayBegin s1 j x 6 = true :=
  ⟨{ withRound (landing []) (rd (plan 0 16) [1, 2, 3, 4, 5]) with now := 60 }, _, 0, 1, rd (plan 0 16) [1, 2, 3, 4, 5], by decide +kernel, by decide +kernel, by decide +kernel, by decide +kernel, by decide +kernel, rfl, by decide +kernel⟩

theorem wit_PhasesBeginInTurn_7 : ∃ (s s1 : State) (j : JobId) (r : Nat) (x : Round) (y : Round),
    s.round? j r = some x ∧
    phaseTime x.plan 7 ≤ s.now ∧
    begun x 7 = false ∧
    x.held.contains (phaseOf 7) = false ∧
    s.alive j = true ∧
    doubtfulCloses (fireEntry s (phaseEntry j r 6) false) j x 7 = s1 ∧
    mayBegin s1 j x 7 = true ∧
    (markPhase s1 j r 7).round? j r = some y ∧
    pSealed y.plan = false ∧
    y.deadline = false :=
  ⟨{ withRound (landing []) closedRd with now := 70 }, _, 0, 1, closedRd, { closedRd with phase := .unmask, begunAt := [(1, 10), (2, 20), (3, 30), (4, 40), (5, 50), (6, 60), (7, 70)] }, by decide +kernel, by decide +kernel, by decide +kernel, by decide +kernel, by decide +kernel, rfl, by decide +kernel⟩

theorem wit_PhasesBeginInTurn_8 : ∃ (s s1 : State) (j : JobId) (r : Nat) (x : Round),
    s.round? j r = some x ∧
    phaseTime x.plan 5 ≤ s.now ∧
    begun x 5 = false ∧
    x.held.contains (phaseOf 5) = false ∧
    s.alive j = true ∧
    doubtfulCloses (fireEntry s (phaseEntry j r 4) false) j x 5 = s1 ∧
    mayBegin s1 j x 5 = false :=
  ⟨{ withRound (landing []) (rd (plan 0 16) [1, 2, 3]) with now := 50 }, _, 0, 1, rd (plan 0 16) [1, 2, 3], by decide +kernel, by decide +kernel, by decide +kernel, by decide +kernel, by decide +kernel, rfl, by decide +kernel⟩

theorem wit_DropoutsAreUnmasked_1 : ∃ (s s1 : State) (j : JobId) (r : RoundNo) (x y : Round),
    s.round? j r = some x ∧
    phaseTime x.plan 8 ≤ s.now ∧
    x.deadline = false ∧
    s.alive j = true ∧
    doubtfulCloses (fireEntry s (phaseEntry j r 7) false) j x 8 = s1 ∧
    begun x 7 = true ∧
    (s1.modRound j r (fun z => { z with deadline := true })).round? j r = some y ∧
    pSealed y.plan = false :=
  ⟨{ withRound (landing []) (rd (plan 0 16) [1, 2, 3, 4, 5, 6, 7]) with now := 80 }, _, 0, 1, rd (plan 0 16) [1, 2, 3, 4, 5, 6, 7], { rd (plan 0 16) [1, 2, 3, 4, 5, 6, 7] with deadline := true }, by decide +kernel, by decide +kernel, by decide +kernel, by decide +kernel, rfl, by decide +kernel⟩

theorem wit_DropoutsAreUnmasked_2 : ∃ (s s1 : State) (j : JobId) (r : RoundNo) (about : Slot) (x : Round) (k : Secret),
    s.round? j r = some x ∧
    (x.cohort ((cohortOf x.plan about).getD 0)).secrets.find? (fun k => k.about == about.val) = some k ∧
    begun x 7 = true ∧
    (x.cohort ((cohortOf x.plan about).getD 0)).reason = 0 ∧
    secretDue s x k = true ∧
    tollOn s = true ∧
    s.alive j = true ∧
    k.pairKey = false ∧
    count s TOL_RECON_CNT.COUNT 0 0 1 = s1 ∧
    poisoned s1 j (hbmPlace j placeKeys r k.about) 64 = false ∧
    secretOk x (pThreshold x.plan) (on s1 TOL_CTRL.SPARE_WAIT) k = true :=
  ⟨maskSt, _, 0, 1, 1, maskRd [secret1], secret1, by decide +kernel, by decide +kernel, by decide +kernel, by decide +kernel, by decide +kernel, by decide +kernel, by decide +kernel, by decide +kernel, rfl, notPoisoned _ _ _ _ (by decide +kernel), by decide +kernel⟩

theorem wit_DropoutsAreUnmasked_3 : ∃ (s s1 : State) (j : JobId) (r : RoundNo) (about : Slot) (x : Round) (k : Secret),
    s.round? j r = some x ∧
    (x.cohort ((cohortOf x.plan about).getD 0)).secrets.find? (fun k => k.about == about.val) = some k ∧
    begun x 7 = true ∧
    (x.cohort ((cohortOf x.plan about).getD 0)).reason = 0 ∧
    secretDue s x k = true ∧
    tollOn s = true ∧
    s.alive j = true ∧
    k.pairKey = true ∧
    tollDone (count s TOL_RECON_CNT.COUNT 0 0 1) (some j) 1 0 = s1 ∧
    poisoned s1 j (hbmPlace j placeKeys r k.about) 64 = false ∧
    secretOk x (pThreshold x.plan) (on s1 TOL_CTRL.SPARE_WAIT) k = true :=
  ⟨maskSt2, _, 0, 1, 1, maskRd [secret2], secret2, by decide +kernel, by decide +kernel, by decide +kernel, by decide +kernel, by decide +kernel, by decide +kernel, by decide +kernel, by decide +kernel, rfl, notPoisoned _ _ _ _ (by decide +kernel), by decide +kernel⟩

theorem wit_DropoutsAreUnmasked_4 : ∃ (s s1 : State) (j : JobId) (r : RoundNo) (about : Slot) (x : Round) (k : Secret),
    s.round? j r = some x ∧
    (x.cohort ((cohortOf x.plan about).getD 0)).secrets.find? (fun k => k.about == about.val) = some k ∧
    begun x 7 = true ∧
    (x.cohort ((cohortOf x.plan about).getD 0)).reason = 0 ∧
    secretDue s x k = true ∧
    tollOn s = true ∧
    s.alive j = true ∧
    k.pairKey = false ∧
    count s TOL_RECON_CNT.COUNT 0 0 1 = s1 ∧
    poisoned s1 j (hbmPlace j placeKeys r k.about) 64 = false ∧
    secretOk x (pThreshold x.plan) (on s1 TOL_CTRL.SPARE_WAIT) k = false :=
  ⟨maskSt3, _, 0, 1, 1, maskRd [secret3], secret3, by decide +kernel, by decide +kernel, by decide +kernel, by decide +kernel, by decide +kernel, by decide +kernel, by decide +kernel, by decide +kernel, rfl, notPoisoned _ _ _ _ (by decide +kernel), by decide +kernel⟩

theorem wit_DropoutsAreUnmasked_5 : ∃ (s : State) (j : JobId) (r : RoundNo) (c : CohortId) (x : Round),
    s.round? j r = some x ∧
    begun x 7 = true ∧
    c.val < pCohortCount x.plan ∧
    (x.cohort c).reason = 0 ∧
    (x.cohort c).unmasked = false ∧
    s.alive j = true ∧
    pSealed x.plan = false ∧
    cultureOn s = true ∧
    (x.cohort c).checked = true ∧
    (x.cohort c).secrets.all (·.done) = true ∧
    metPoison s j (unitPlaces s j x c (clearUnits x.plan (x.cohort c))) = none :=
  ⟨withRound (landing []) unmaskedRd, 0, 1, 0, unmaskedRd, by decide +kernel, by decide +kernel, by decide +kernel, by decide +kernel, by decide +kernel, by decide +kernel, by decide +kernel, by decide +kernel, rfl, by decide +kernel, noPoison _ _ _ (by decide +kernel)⟩

theorem wit_DropoutsAreUnmasked_6 : ∃ (s : State) (j : JobId) (r : RoundNo) (c : CohortId) (x : Round),
    s.round? j r = some x ∧
    settleDue s j x c = true ∧
    settlePoison s j x c = none ∧
    (coordsOf x.plan (x.cohort c)).any (beyond x.plan (x.cohort c)) = false :=
  ⟨settleSt, 0, 1, 0, settleRd, by decide +kernel, by decide +kernel, noSettlePoison _ _ _ _ (by decide +kernel), by decide +kernel⟩

theorem wit_DropoutsAreUnmasked_7 : ∃ (s : State) (j : JobId) (r : RoundNo) (c : CohortId) (x : Round),
    s.round? j r = some x ∧
    settleDue s j x c = true ∧
    settlePoison s j x c = none ∧
    (coordsOf x.plan (x.cohort c)).any (beyond x.plan (x.cohort c)) = true :=
  ⟨settleSt2, 0, 1, 0, settleRd2, by decide +kernel, by decide +kernel, noSettlePoison _ _ _ _ (by decide +kernel), by decide +kernel⟩

theorem wit_TheRoundIsScreenedGatedAndReleased_1 : ∃ (s : State) (j : JobId) (r : RoundNo) (x : Round),
    s.round? j r = some x ∧
    screenReady s j x = true ∧
    x.screenDone = false ∧
    earliest s j r = true ∧
    s.alive j = true ∧
    liveCohorts x = [] :=
  ⟨withRound (landing []) { settleRd with cohorts := [(0, { Cohort.empty with reason := 3 }), (1, { Cohort.empty with reason := 3 })] }, 0, 1, { settleRd with cohorts := [(0, { Cohort.empty with reason := 3 }), (1, { Cohort.empty with reason := 3 })] }, by decide +kernel⟩

theorem wit_TheRoundIsScreenedGatedAndReleased_2 : ∃ (s s1 : State) (j : JobId) (r : RoundNo) (x y : Round),
    s.round? j r = some x ∧
    screenReady s j x = true ∧
    x.screenDone = false ∧
    earliest s j r = true ∧
    s.alive j = true ∧
    polScreen (s.job j).policy = 0 ∧
    rangeChecked s j x = s1 ∧
    s1.round? j r = some y ∧
    liveCohorts y ≠ [] ∧
    polScreen ((enterPhase s1 j r 9).job j).policy = 0 :=
  ⟨withRound (landing []) gateRd0, _, 0, 1, gateRd0, Option.get ((rangeChecked (withRound (landing []) gateRd0) 0 gateRd0).round? 0 1) (by decide +kernel), by decide +kernel, by decide +kernel, by decide +kernel, by decide +kernel, by decide +kernel, by decide +kernel, rfl, (Option.some_get _).symm, by decide +kernel⟩

theorem wit_TheRoundIsScreenedGatedAndReleased_3 : ∃ (s s1 t : State) (j : JobId) (r : RoundNo) (x y : Round) (key : Key256),
    s.round? j r = some x ∧
    screenReady s j x = true ∧
    x.screenDone = false ∧
    earliest s j r = true ∧
    s.alive j = true ∧
    screenMay s x = true ∧
    rangeChecked s j x = s1 ∧
    s1.round? j r = some y ∧
    liveCohorts y ≠ [] ∧
    polScreen ((enterPhase s1 j r 9).job j).policy ≠ 0 ∧
    screeningKey (enterPhase s1 j r 9) j r = (some key, t) ∧
    metPoison t j ((screenSet (enterPhase s1 j r 9) j y).flatMap (sumPlaces t j y)) = none :=
  ⟨screenSt, _, (screeningKey (enterPhase (rangeChecked screenSt 0 gateRd0k) 0 ((1 : RoundNo) : Nat) 9) 0 ((1 : RoundNo) : Nat)).2, 0, 1, gateRd0k, Option.get ((rangeChecked screenSt 0 gateRd0k).round? 0 1) (by decide +kernel), 9, by decide +kernel, by decide +kernel, by decide +kernel, by decide +kernel, by decide +kernel, by decide +kernel, rfl, (Option.some_get _).symm, by decide +kernel, by decide +kernel, pairFst (by decide +kernel), noPoison _ _ _ (by decide +kernel)⟩

theorem wit_TheRoundIsScreenedGatedAndReleased_4 : ∃ (s s1 s2 : State) (j : JobId) (r : RoundNo) (x y : Round),
    s.round? j r = some x ∧
    finishDue s j x = true ∧
    liveCohorts x ≠ [] ∧
    firstPoison s j (finishReads s j x) = none ∧
    x.charge.isSome = false ∧
    (dec64 (polRho (s.job j).policy)).lt (spentWith (dec64 (fget s WRP_JOB_RHO.RHO_SPENT j 0)) (chargeOf (s.job j).policy)) = false ∧
    chargeRound s j r (spentWith (dec64 (fget s WRP_JOB_RHO.RHO_SPENT j 0)) (chargeOf (s.job j).policy)) (chargeOf (s.job j).policy) = s1 ∧
    s1.round? j r = some y ∧
    exposeTotals (fset s1 VAT_JOB_CTRL.ADD_OPEN j 0 0) j y (finishInputs (fset s1 VAT_JOB_CTRL.ADD_OPEN j 0 0) j y) = s2 ∧
    entropyReady s2 = true :=
  ⟨finishSt, _, _, 0, 1, finishRd, Option.get ((chargeRound finishSt 0 1 (spentWith (dec64 (fget finishSt WRP_JOB_RHO.RHO_SPENT 0 0)) (chargeOf (finishSt.job 0).policy)) (chargeOf (finishSt.job 0).policy)).round? 0 1) (by decide +kernel), by decide +kernel, by decide +kernel, by decide +kernel, noFirstPoison _ _ _ (by decide +kernel), by decide +kernel, by decide +kernel, rfl, (Option.some_get _).symm, rfl, by decide +kernel⟩

theorem wit_TheRoundIsScreenedGatedAndReleased_5 : ∃ (s s1 : State) (j : JobId) (r : RoundNo) (x : Round),
    s.round? j r = some x ∧
    finishDue s j x = true ∧
    liveCohorts x ≠ [] ∧
    firstPoison s j (finishReads s j x) = none ∧
    x.charge.isSome = true ∧
    exposeTotals (fset s VAT_JOB_CTRL.ADD_OPEN j 0 0) j x (finishInputs (fset s VAT_JOB_CTRL.ADD_OPEN j 0 0) j x) = s1 ∧
    entropyReady s1 = true :=
  ⟨windowSt, _, 0, 1, windowRd, by decide +kernel, by decide +kernel, by decide +kernel, noFirstPoison _ _ _ (by decide +kernel), by decide +kernel, rfl, by decide +kernel⟩

theorem wit_TheRoundIsScreenedGatedAndReleased_6 : ∃ (s : State) (j : JobId) (r : RoundNo) (x : Round),
    s.round? j r = some x ∧
    finishDue s j x = true ∧
    liveCohorts x ≠ [] ∧
    firstPoison s j (finishReads s j x) = none ∧
    x.charge.isSome = false ∧
    (dec64 (polRho (s.job j).policy)).lt (spentWith (dec64 (fget s WRP_JOB_RHO.RHO_SPENT j 0)) (chargeOf (s.job j).policy)) = true :=
  ⟨overSt, 0, 1, finishRd, by decide +kernel, by decide +kernel, by decide +kernel, noFirstPoison _ _ _ (by decide +kernel), by decide +kernel⟩

theorem wit_TheRoundIsScreenedGatedAndReleased_7 : ∃ (s s1 : State) (j : JobId) (r : RoundNo) (x y : Round) (held : Bytes),
    s.round? j r = some x ∧
    staged s j x = true ∧
    x.gate = none ∧
    s.alive j = true ∧
    gateMay s j = true ∧
    (s.job j).heldOk = true ∧
    (s.job j).held = some held ∧
    firstPoison s j (gateReads s j x) = none ∧
    baseMeasured (formCandidate (enterPhase s j r 11) j r) j r held = s1 ∧
    s1.round? j r = some y :=
  ⟨gateSt, _, 0, 1, gateRd1, Option.get ((baseMeasured (formCandidate (enterPhase gateSt 0 1 11) 0 1) 0 1 []).round? 0 1) (by decide +kernel), [], by decide +kernel, by decide +kernel, by decide +kernel, by decide +kernel, by decide +kernel, by decide +kernel, by decide +kernel, noFirstPoison _ _ _ (by decide +kernel), rfl, (Option.some_get _).symm⟩

theorem wit_TheRoundIsScreenedGatedAndReleased_8 : ∃ (s : State) (j : JobId) (r : RoundNo) (x : Round),
    s.round? j r = some x ∧
    staged s j x = true ∧
    x.gate = none ∧
    s.alive j = true ∧
    gateMay s j = true ∧
    (s.job j).heldOk = false :=
  ⟨gateSt.modJob 0 (fun J => { J with heldOk := false }), 0, 1, gateRd1, by decide +kernel⟩

theorem wit_TheRoundIsScreenedGatedAndReleased_9 : ∃ (s : State) (j : JobId) (v : BitVec 32) (x : Round) (e : Time),
    Fin.ofNat 16 (get1 s WRP_JOB_SEL.JOB) = j ∧
    s.round? j v.toNat = some x ∧
    x.holdEnd = some e ∧
    s.conf j = false ∧
    s.alive j = true ∧
    s.now < e :=
  ⟨withRound (landing []) { gateRd1 with holdEnd := some 5 }, 0, 1, { gateRd1 with holdEnd := some 5 }, 5, by decide +kernel⟩

theorem wit_TheRoundIsScreenedGatedAndReleased_10 : ∃ (s : State) (j : JobId) (r : RoundNo) (x : Round) (e : Time),
    s.round? j r = some x ∧
    x.holdEnd = some e ∧
    e ≤ s.now ∧
    s.alive j = true :=
  ⟨{ withRound (landing []) { gateRd1 with holdEnd := some 5 } with now := 5 }, 0, 1, { gateRd1 with holdEnd := some 5 }, 5, by decide +kernel⟩

theorem wit_TheRoundIsScreenedGatedAndReleased_11 : ∃ (s : State) (j : JobId) (r : RoundNo) (x : Round),
    s.round? j r = some x ∧
    x.accepted = true ∧
    s.alive j = true ∧
    checksPending s j = false ∧
    firstPoison s j [(hbmPlace j placeStaging r 0, pReleaseLen x.plan)] = none :=
  ⟨withRound (landing []) { gateRd1 with accepted := true }, 0, 1, { gateRd1 with accepted := true }, by decide +kernel, by decide +kernel, by decide +kernel, by decide +kernel, noFirstPoison _ _ _ (by decide +kernel)⟩

theorem wit_TheRoundIsScreenedGatedAndReleased_12 : ∃ (s : State) (j : JobId) (r : RoundNo) (x : Round) (t : Time),
    s.round? j r = some x ∧
    x.peerStart = some t ∧
    t + fget s VAT_JOB_PEER_WAIT.WAIT_MS j 0 * 10 ^ 6 ≤ s.now ∧
    staged s j x = false ∧
    s.alive j = true ∧
    fget s VAT_JOB_PEER_WAIT.PEERS_DONE j 0 ≠ fget s VAT_JOB_CTRL.PEERS_EXPECTED j 0 :=
  ⟨{ withRound (landing [(VAT_JOB_CTRL.PEERS_EXPECTED, 0, 0, 2), (VAT_JOB_PEER_WAIT.WAIT_MS, 0, 0, 1)]) { gateRd0 with peerStart := some 0 } with now := 1000000 }, 0, 1, { gateRd0 with peerStart := some 0 }, 0, by decide +kernel⟩

theorem wit_FieldPeersReport_1 : ∃ (s s1 : State) (p : Packet) (imm : BitVec 32) (g l r : Nat),
    portOn s p.port = true ∧
    fget s RDMA_QP_CFG.TYPE p.q 0 ≠ 1 ∧
    ((qpState s p.q = 2 ∨ qpState s p.q = 3)) ∧
    fget s RDMA_QP_CFG.PORT p.q 0 = p.port.val ∧
    fget s RDMA_QP_CFG.SEALED p.q 0 = 0 ∧
    p.psn.toNat = fget s RDMA_QP_PSN.RQ_PSN p.q 0 ∧
    fset s RDMA_QP_PSN.RQ_PSN p.q 0 (p.psn.toNat + 1) = s1 ∧
    fget s1 RDMA_QP_CFG.CLASS p.q 0 = 1 ∧
    keyCheck s1 p 1 = some g ∧
    peerDoneLine s1 (qpJob s1 p.q) = some l ∧
    windowRound s1 (qpJob s1 p.q) = some r ∧
    l ≤ p.va ∧
    p.va + p.len ≤ l + 64 ∧
    windowOpen s1 (qpJob s1 p.q) = true ∧
    imm.toNat < fget s1 VAT_JOB_CTRL.PEERS_EXPECTED (qpJob s1 p.q) 0 :=
  ⟨peerSt, _, peerPacket, 1, 1, 192, 1, by decide +kernel, by decide +kernel, by decide +kernel, by decide +kernel, by decide +kernel, by decide +kernel, rfl, by decide +kernel⟩

theorem wit_FieldPeersReport_2 : ∃ (s u : State) (q : Qpn) (c : Bytes),
    peerSend s q = true ∧
    takeSend s q c = u ∧
    noticeOk u q 1 c = true :=
  ⟨noticeSt, _, 5, noticeC 1, by decide +kernel, rfl, by decide +kernel⟩

theorem wit_FieldPeersReport_3 : ∃ (s u : State) (q : Qpn) (c : Bytes),
    peerSend s q = true ∧
    takeSend s q c = u ∧
    noticeOk u q 2 c = true :=
  ⟨noticeSt2, _, 5, noticeC 2, by decide +kernel, rfl, by decide +kernel⟩

theorem wit_FieldPeersReport_4 : ∃ (s u : State) (q : Qpn) (c : Bytes),
    peerSend s q = true ∧
    takeSend s q c = u ∧
    noticeOk u q 3 c = true :=
  ⟨noticeSt2, _, 5, noticeC 3, by decide +kernel, rfl, by decide +kernel⟩

theorem wit_FieldPeersReport_5 : ∃ (s u : State) (q : Qpn) (c : Bytes),
    peerSend s q = true ∧
    takeSend s q c = u ∧
    noticeOk u q 2 c = false :=
  ⟨noticeSt2, _, 5, noticeC 3, by decide +kernel, rfl, by decide +kernel⟩

theorem wit_FieldPeersReport_6 : ∃ (s u : State) (q : Qpn) (c : Bytes) (cmd : Instr),
    ((∃ n, cmd = .joinChunk q n c) ∨ (∃ n, cmd = .sharesChunk q n c) ∨ (∃ n, cmd = .unmaskSharesChunk q n c) ∨ (∃ n, cmd = .abortChunk q n c) ∨ (∃ n, cmd = .uploadChunk q n c) ∨ (∃ n, cmd = .sealedUploadPiece q n c) ∨ (∃ n, cmd = .manifest q n c) ∨ (∃ n, cmd = .unknownTypeChunk q n c) ∨ cmd = .shortSend q c ∨ cmd = .fetchChunk q c ∨ cmd = .stream q c ∨ cmd = .retract q c ∨ cmd = .retractDone q c) ∧
    sendReaches s q = true ∧
    fget s RDMA_QP_CFG.TYPE q 0 = 0 ∧
    fget s RDMA_QP_CFG.CLASS q 0 = 2 ∧
    sendNak (fset s RDMA_QP_PSN.RQ_PSN q 0 (fget s RDMA_QP_PSN.RQ_PSN q 0 + psnCount s q c.length)) q (fget s RDMA_QP_PSN.RQ_PSN q 0) .invalid = u ∧
    landed u q = false :=
  ⟨accessSt, _, 5, [1], .shortSend 5 [1], .inr (.inr (.inr (.inr (.inr (.inr (.inr (.inr (.inl rfl)))))))), by decide +kernel, by decide +kernel, by decide +kernel, rfl, by decide +kernel⟩

theorem wit_FieldPeersReport_7 : ∃ (s : State) (q : Qpn) (c : Bytes) (cmd : Instr),
    ((∃ n, cmd = .joinChunk q n c) ∨ (∃ n, cmd = .sharesChunk q n c) ∨ (∃ n, cmd = .unmaskSharesChunk q n c) ∨ (∃ n, cmd = .abortChunk q n c) ∨ (∃ n, cmd = .uploadChunk q n c) ∨ (∃ n, cmd = .sealedUploadPiece q n c) ∨ (∃ n, cmd = .manifest q n c) ∨ (∃ n, cmd = .unknownTypeChunk q n c) ∨ cmd = .shortSend q c ∨ cmd = .fetchChunk q c ∨ cmd = .stream q c ∨ cmd = .retract q c ∨ cmd = .retractDone q c) ∧
    portOn s (qpPort s q) = true ∧
    qpState s q ≠ 2 ∧
    qpState s q ≠ 3 :=
  ⟨State.reset |> fun s => set1 s LND_CTRL.PORT_EN 1, 5, [1], .shortSend 5 [1], .inr (.inr (.inr (.inr (.inr (.inr (.inr (.inr (.inl rfl)))))))), by decide +kernel⟩

theorem wit_FieldPeersReport_8 : ∃ (s u : State) (q : Qpn) (c : Bytes) (cmd : Instr),
    ((∃ n, cmd = .joinChunk q n c) ∨ (∃ n, cmd = .sharesChunk q n c) ∨ (∃ n, cmd = .unmaskSharesChunk q n c) ∨ (∃ n, cmd = .abortChunk q n c) ∨ (∃ n, cmd = .uploadChunk q n c) ∨ (∃ n, cmd = .sealedUploadPiece q n c) ∨ (∃ n, cmd = .manifest q n c) ∨ (∃ n, cmd = .unknownTypeChunk q n c) ∨ cmd = .shortSend q c ∨ cmd = .fetchChunk q c ∨ cmd = .stream q c ∨ cmd = .retract q c ∨ cmd = .retractDone q c) ∧
    takeSend s q c = u ∧
    peerSend s q = false ∧
    landed u q = false :=
  ⟨accessSt, _, 5, [1], .shortSend 5 [1], .inr (.inr (.inr (.inr (.inr (.inr (.inr (.inr (.inl rfl)))))))), rfl, by decide +kernel⟩

theorem wit_TheResponderServesRequests_1 : ∃ (s : State) (p : Port) (f : Frame),
    portOn s p = true ∧
    f.fcsOk = false :=
  ⟨landing [], 0, { frame0 with fcsOk := false }, by decide +kernel⟩

theorem wit_TheResponderServesRequests_2 : ∃ (s : State) (p : Port) (f : Frame),
    portOn s p = true ∧
    f.fcsOk = true ∧
    vlanOk s p f = true ∧
    f.sumOk = true ∧
    isRoce s p f = true ∧
    f.icrcOk = true ∧
    2 ≤ f.q ∧
    f.q < 2 ^ 20 ∧
    f.fifoOcc + f.bytes ≤ 2 ^ 20 ∧
    f.parity = false :=
  ⟨landing [], 0, frame0, by decide +kernel⟩

theorem wit_TheResponderServesRequests_3 : ∃ (s : State) (p : Port) (f : Frame),
    portOn s p = true ∧
    f.fcsOk = true ∧
    vlanOk s p f = true ∧
    f.sumOk = true ∧
    isRoce s p f = false ∧
    isPtp s p f = false :=
  ⟨landing [], 0, { frame0 with udpPort := 5 }, by decide +kernel⟩

theorem wit_TheResponderServesRequests_4 : ∃ (s : State) (p : Port) (d : Datagram),
    portOn s p = true ∧
    fget s RDMA_QP_CFG.TYPE d.q 0 = 1 ∧
    ((qpState s d.q = 2 ∨ qpState s d.q = 3)) ∧
    fget s RDMA_QP_CFG.PORT d.q 0 = p.val ∧
    d.qkey.toNat = fget s RDMA_QP_QKEY.QKEY d.q 0 ∧
    d.isSend = true :=
  ⟨landing [(RDMA_QP_CFG.TYPE, 5, 0, 1)], 0, datagram0, by decide +kernel⟩

theorem wit_TheResponderServesRequests_5 : ∃ (s : State) (p : Port) (d : Datagram),
    portOn s p = true ∧
    d.qkey.toNat ≠ fget s RDMA_QP_QKEY.QKEY d.q 0 :=
  ⟨landing [(RDMA_QP_CFG.TYPE, 5, 0, 1)], 0, { datagram0 with qkey := 9 }, by decide +kernel⟩

theorem wit_TheResponderServesRequests_6 : ∃ (s s1 : State) (p : Packet) (g : Nat),
    portOn s p.port = true ∧
    fget s RDMA_QP_CFG.TYPE p.q 0 ≠ 1 ∧
    ((qpState s p.q = 2 ∨ qpState s p.q = 3)) ∧
    fget s RDMA_QP_CFG.PORT p.q 0 = p.port.val ∧
    fget s RDMA_QP_CFG.SEALED p.q 0 = 0 ∧
    p.psn.toNat = fget s RDMA_QP_PSN.RQ_PSN p.q 0 ∧
    fset s RDMA_QP_PSN.RQ_PSN p.q 0 (p.psn.toNat + 1) = s1 ∧
    memoryClass (fget s1 RDMA_QP_CFG.CLASS p.q 0) = true ∧
    p.first = true ∧
    p.last = true ∧
    keyCheck s1 p 1 = some g ∧
    windowOk s1 (qpJob s1 p.q) p.va p.len = true ∧
    p.data.length ≤ p.len ∧
    (placeWrite s1 (qpJob s1 p.q) p.va p.data).2 = true :=
  ⟨rdmaSt, _, packet0, 1, by decide +kernel, by decide +kernel, by decide +kernel, by decide +kernel, by decide +kernel, by decide +kernel, rfl, by decide +kernel⟩

theorem wit_TheResponderServesRequests_7 : ∃ (s s1 : State) (p : Packet),
    portOn s p.port = true ∧
    fget s RDMA_QP_CFG.TYPE p.q 0 ≠ 1 ∧
    ((qpState s p.q = 2 ∨ qpState s p.q = 3)) ∧
    fget s RDMA_QP_CFG.PORT p.q 0 = p.port.val ∧
    fget s RDMA_QP_CFG.SEALED p.q 0 = 0 ∧
    p.psn.toNat = fget s RDMA_QP_PSN.RQ_PSN p.q 0 ∧
    fset s RDMA_QP_PSN.RQ_PSN p.q 0 (p.psn.toNat + 1) = s1 ∧
    memoryClass (fget s1 RDMA_QP_CFG.CLASS p.q 0) = true ∧
    p.first = true ∧
    keyCheck s1 p 1 = none :=
  ⟨rdmaSt, _, { packet0 with rkey := 0 }, by decide +kernel, by decide +kernel, by decide +kernel, by decide +kernel, by decide +kernel, by decide +kernel, rfl, by decide +kernel⟩

theorem wit_TheResponderServesRequests_8 : ∃ (s s1 : State) (p : Packet) (g : Nat),
    portOn s p.port = true ∧
    fget s RDMA_QP_CFG.TYPE p.q 0 ≠ 1 ∧
    ((qpState s p.q = 2 ∨ qpState s p.q = 3)) ∧
    fget s RDMA_QP_CFG.PORT p.q 0 = p.port.val ∧
    fget s RDMA_QP_CFG.SEALED p.q 0 = 0 ∧
    p.psn.toNat = fget s RDMA_QP_PSN.RQ_PSN p.q 0 ∧
    fset s RDMA_QP_PSN.RQ_PSN p.q 0 (p.psn.toNat + psnCount s p.q p.len) = s1 ∧
    memoryClass (fget s1 RDMA_QP_CFG.CLASS p.q 0) = true ∧
    keyCheck s1 p 0 = some g ∧
    (touchesWindow s1 (qpJob s1 p.q) p.va p.len && !windowOpen s1 (qpJob s1 p.q)) = false ∧
    (linesOf p.va p.len).find? (fun l => s1.poison.contains (poisonKey s1 (qpJob s1 p.q) l)) = none :=
  ⟨rdmaSt, _, packet0, 1, by decide +kernel, by decide +kernel, by decide +kernel, by decide +kernel, by decide +kernel, by decide +kernel, rfl, by decide +kernel⟩

theorem wit_TheResponderServesRequests_9 : ∃ (s s1 : State) (p : Packet) (x : Word) (g : Nat),
    portOn s p.port = true ∧
    fget s RDMA_QP_CFG.TYPE p.q 0 ≠ 1 ∧
    ((qpState s p.q = 2 ∨ qpState s p.q = 3)) ∧
    fget s RDMA_QP_CFG.PORT p.q 0 = p.port.val ∧
    fget s RDMA_QP_CFG.SEALED p.q 0 = 0 ∧
    p.psn.toNat = fget s RDMA_QP_PSN.RQ_PSN p.q 0 ∧
    fset s RDMA_QP_PSN.RQ_PSN p.q 0 (p.psn.toNat + 1) = s1 ∧
    memoryClass (fget s1 RDMA_QP_CFG.CLASS p.q 0) = true ∧
    keyCheck s1 { p with len := 8 } 2 = some g ∧
    p.va % 8 = 0 ∧
    touchesWindow s1 (qpJob s1 p.q) p.va 8 = false ∧
    touchesWindow (bankWork s1 (qpJob s1 p.q) p.va 8 1) (qpJob s1 p.q) p.va 8 = false ∧
    windowOk s1 (qpJob s1 p.q) p.va 8 = true ∧
    poisoned s1 (qpJob s1 p.q) p.va 8 = false :=
  ⟨rdmaSt, _, packet0, 7, 1, by decide +kernel, by decide +kernel, by decide +kernel, by decide +kernel, by decide +kernel, by decide +kernel, rfl, by decide +kernel, by decide +kernel, by decide +kernel, by decide +kernel, by decide +kernel, by decide +kernel, notPoisoned _ _ _ _ (by decide +kernel)⟩

theorem wit_TheResponderServesRequests_10 : ∃ (s s1 : State) (p : Packet) (x : Word) (g : Nat),
    portOn s p.port = true ∧
    fget s RDMA_QP_CFG.TYPE p.q 0 ≠ 1 ∧
    ((qpState s p.q = 2 ∨ qpState s p.q = 3)) ∧
    fget s RDMA_QP_CFG.PORT p.q 0 = p.port.val ∧
    fget s RDMA_QP_CFG.SEALED p.q 0 = 0 ∧
    p.psn.toNat = fget s RDMA_QP_PSN.RQ_PSN p.q 0 ∧
    fset s RDMA_QP_PSN.RQ_PSN p.q 0 (p.psn.toNat + 1) = s1 ∧
    memoryClass (fget s1 RDMA_QP_CFG.CLASS p.q 0) = true ∧
    keyCheck s1 { p with len := 8 } 2 = some g ∧
    p.va % 8 = 0 ∧
    touchesWindow (bankWork s1 (qpJob s1 p.q) p.va 8 1) (qpJob s1 p.q) p.va 8 = true ∧
    windowOk s1 (qpJob s1 p.q) p.va 8 = true ∧
    poisoned s1 (qpJob s1 p.q) p.va 8 = false :=
  ⟨rdmaWinSt, _, { packet0 with va := 128 }, 7, 1, by decide +kernel, by decide +kernel, by decide +kernel, by decide +kernel, by decide +kernel, by decide +kernel, rfl, by decide +kernel, by decide +kernel, by decide +kernel, by decide +kernel, by decide +kernel, notPoisoned _ _ _ _ (by decide +kernel)⟩

theorem wit_TheResponderServesRequests_11 : ∃ (s s1 : State) (p : Packet) (cmp swap : Word) (g : Nat),
    portOn s p.port = true ∧
    fget s RDMA_QP_CFG.TYPE p.q 0 ≠ 1 ∧
    ((qpState s p.q = 2 ∨ qpState s p.q = 3)) ∧
    fget s RDMA_QP_CFG.PORT p.q 0 = p.port.val ∧
    fget s RDMA_QP_CFG.SEALED p.q 0 = 0 ∧
    p.psn.toNat = fget s RDMA_QP_PSN.RQ_PSN p.q 0 ∧
    fset s RDMA_QP_PSN.RQ_PSN p.q 0 (p.psn.toNat + 1) = s1 ∧
    memoryClass (fget s1 RDMA_QP_CFG.CLASS p.q 0) = true ∧
    keyCheck s1 { p with len := 8 } 2 = some g ∧
    p.va % 8 = 0 ∧
    touchesWindow s1 (qpJob s1 p.q) p.va 8 = false ∧
    windowOk s1 (qpJob s1 p.q) p.va 8 = true ∧
    poisoned s1 (qpJob s1 p.q) p.va 8 = false :=
  ⟨rdmaSt, _, packet0, 0, 7, 1, by decide +kernel, by decide +kernel, by decide +kernel, by decide +kernel, by decide +kernel, by decide +kernel, rfl, by decide +kernel, by decide +kernel, by decide +kernel, by decide +kernel, by decide +kernel, notPoisoned _ _ _ _ (by decide +kernel)⟩

theorem wit_TheResponderServesRequests_12 : ∃ (s s1 : State) (p : Packet) (g : Nat),
    portOn s p.port = true ∧
    fget s RDMA_QP_CFG.TYPE p.q 0 ≠ 1 ∧
    ((qpState s p.q = 2 ∨ qpState s p.q = 3)) ∧
    fget s RDMA_QP_CFG.PORT p.q 0 = p.port.val ∧
    fget s RDMA_QP_CFG.SEALED p.q 0 = 0 ∧
    p.psn.toNat = fget s RDMA_QP_PSN.RQ_PSN p.q 0 ∧
    fset s RDMA_QP_PSN.RQ_PSN p.q 0 (p.psn.toNat + 1) = s1 ∧
    memoryClass (fget s1 RDMA_QP_CFG.CLASS p.q 0) = true ∧
    keyCheck s1 p 3 = some g :=
  ⟨rdmaSt, _, packet0, 1, by decide +kernel, by decide +kernel, by decide +kernel, by decide +kernel, by decide +kernel, by decide +kernel, rfl, by decide +kernel⟩

theorem wit_TheBanksActOnLines_1 : ∃ (s : State) (i : Issuer) (line : VatLine),
    refusesAccess s i (line.val * 64) = false ∧
    s.poison.contains line.val = false :=
  ⟨berthSt, ⟨4, 0, some 0⟩, 3, by decide +kernel⟩

theorem wit_TheBanksActOnLines_2 : ∃ (s : State) (i : Issuer) (line : VatLine) (e : EccRead),
    refusesAccess s i (line.val * 64) = false :=
  ⟨berthSt, ⟨4, 0, some 0⟩, 3, ⟨1, true⟩, by decide +kernel⟩

theorem wit_TheBanksActOnLines_3 : ∃ (s : State) (i : Issuer) (a : VatAddr) (d : Bytes) (e : EccRead),
    refusesAccess s i a = false ∧
    a.val % 64 = 0 ∧
    d.length = 64 :=
  ⟨berthSt, ⟨4, 0, some 0⟩, 64, zeros 64, ⟨0, false⟩, by decide +kernel⟩

theorem wit_TheBanksActOnLines_4 : ∃ (s : State) (i : Issuer) (a : VatAddr) (d : Bytes) (e : EccRead),
    refusesAccess s i a = false ∧
    (eccRead s (a / 64) e).poison.contains (a / 64) = false ∧
    d.length ≠ 0 ∧
    d.length ≠ 64 ∧
    a.val % 64 + d.length ≤ 64 :=
  ⟨berthSt, ⟨4, 0, some 0⟩, 64, zeros 4, ⟨0, false⟩, by decide +kernel⟩

theorem wit_TheBanksActOnLines_5 : ∃ (s : State) (i : Issuer) (a : VatAddr) (d : Bytes) (e : EccRead) (c : Instr),
    (c = .lineWrite i a d e ∨ c = .fadd i a d e) ∧
    64 < a.val % 64 + d.length ∧
    a.val % 64 + d.length ≤ 128 :=
  ⟨berthSt, ⟨4, 0, some 0⟩, 96, zeros 64, ⟨0, false⟩, .fadd ⟨4, 0, some 0⟩ 96 (zeros 64) ⟨0, false⟩, Or.inr rfl, by decide +kernel⟩

theorem wit_TheBanksActOnLines_6 : ∃ (s : State) (i : Issuer) (a : VatAddr) (ring : Ring) (d : Bytes) (e : EccRead),
    refusesAccess s i a = false ∧
    (eccRead s (a / 64) e).poison.contains (a / 64) = false :=
  ⟨berthSt, ⟨4, 0, some 0⟩, 64, .z16, zeros 32, ⟨0, false⟩, by decide +kernel⟩

theorem wit_TheBanksActOnLines_7 : ∃ (s : State) (i : Issuer) (a : VatAddr) (x : Word) (ask : Bool) (e : EccRead),
    refusesAccess s i a = false ∧
    (eccRead s (a / 64) e).poison.contains (a / 64) = false ∧
    g64Creates (vatWord (eccRead s (a / 64) e) a) x = false :=
  ⟨berthSt, ⟨4, 0, some 0⟩, 64, 5, true, ⟨0, false⟩, by decide +kernel⟩

theorem wit_TheBanksActOnLines_8 : ∃ (s : State) (i : Issuer) (a : VatAddr) (x : Word) (ask : Bool) (e : EccRead) (j : JobId),
    refusesAccess s i a = false ∧
    (eccRead s (a / 64) e).poison.contains (a / 64) = false ∧
    i.job = some j ∧
    g64Creates (vatWord (eccRead s (a / 64) e) a) x = true :=
  ⟨{ landing [(VAT_JOB_BERTHS.BERTH, 0, 0, 1)] with mem := memWrite [] 64 (toLe 8 (2 ^ 63 - 1)) }, ⟨4, 0, some 0⟩, 64, 5, true, ⟨0, false⟩, 0, by decide +kernel⟩

theorem wit_TheBanksActOnLines_9 : ∃ (s : State) (i : Issuer) (a : VatAddr) (x : Word) (ask : Bool) (e : EccRead),
    refusesAccess s i a = false ∧
    (eccRead s (a / 64) e).poison.contains (a / 64) = false :=
  ⟨berthSt, ⟨4, 0, some 0⟩, 64, 5, false, ⟨0, false⟩, by decide +kernel⟩

theorem wit_TheBanksActOnLines_10 : ∃ (s : State) (i : Issuer) (a : VatAddr) (d : Bytes) (e : EccRead),
    refusesAccess s i a = false ∧
    (eccRead s (a / 64) e).poison.contains (a / 64) = false ∧
    d.length ≠ 0 ∧
    a.val % 64 + d.length ≤ 64 :=
  ⟨berthSt, ⟨4, 0, some 0⟩, 64, zeros 4, ⟨0, false⟩, by decide +kernel⟩

theorem wit_TheBanksActOnLines_11 : ∃ (s : State) (i : Issuer) (a : VatAddr) (op : MaxMinOp) (x : Word) (ask : Bool) (e : EccRead),
    refusesAccess s i a = false ∧
    (eccRead s (a / 64) e).poison.contains (a / 64) = false :=
  ⟨berthSt, ⟨4, 0, some 0⟩, 64, .minS32, 5, true, ⟨0, false⟩, by decide +kernel⟩

theorem wit_TheBanksActOnLines_12 : ∃ (s : State) (i : Issuer) (a : VatAddr) (cmp swap : Word) (e : EccRead),
    refusesAccess s i a = false ∧
    (eccRead s (a / 64) e).poison.contains (a / 64) = false :=
  ⟨berthSt, ⟨4, 0, some 0⟩, 64, 5, 6, ⟨0, false⟩, by decide +kernel⟩

theorem wit_TheBanksActOnLines_13 : ∃ (s : State) (i : Issuer) (a : VatAddr) (c : Instr) (n : Nat) (e : EccRead),
    refusesAccess s i a = false ∧
    (eccRead s (a / 64) e).poison.contains (a / 64) = true ∧
    ((∃ ring d, c = .radd i a ring d e ∧ n = d.length) ∨ (∃ x ask, c = .gadd i a x ask e ∧ n = 8) ∨ (∃ x ask, c = .add64 i a x ask e ∧ n = 8) ∨ (∃ op x ask, c = .maxMin i a op x ask e ∧ n = maxMinSize op) ∨
(∃ x y, c = .cas64 i a x y e ∧ n = 8) ∨ (∃ d, (c = .fadd i a d e ∨ c = .lineWrite i a d e ∧ n ≠ 64) ∧ n = d.length ∧ n ≠ 0 ∧ a.val % 64 + n ≤ 64)) :=
  ⟨{ berthSt with poison := [1] }, ⟨4, 0, some 0⟩, 64, .gadd ⟨4, 0, some 0⟩ 64 3 true ⟨0, false⟩, 8, ⟨0, false⟩, by decide +kernel, by decide +kernel, Or.inr (Or.inl ⟨3, true, rfl, rfl⟩)⟩

theorem wit_TheBanksActOnLines_14 : ∃ (s t : State) (line : VatLine) (e : EccRead),
    scrubDue s line = true ∧
    t = eccRead s line e ∧
    t.scrubRead ≠ [] ∧
    t.scrubRead.length + 1 < allLines :=
  ⟨{ st [(VAT_CTRL.SCRUB_EN, 0, 0, 1)] with scrubRead := [4] }, _, 5, ⟨0, false⟩, by decide +kernel, rfl, by decide +kernel⟩

theorem wit_TheBanksActOnLines_15 : ∃ (s t : State) (line : VatLine) (e : EccRead),
    scrubDue s line = true ∧
    t = eccRead s line e ∧
    t.scrubRead ≠ [] ∧
    allLines ≤ t.scrubRead.length + 1 := by
  obtain ⟨l, h1, h2, h3⟩ := pass_exists
  exact ⟨scrubSt l, _, 5, ⟨0, false⟩, scrubSt_due l h1 h2, rfl, (scrubSt_read l).symm ▸ h2, (scrubSt_read l).symm ▸ h3⟩

theorem wit_TheBanksActOnLines_16 : ∃ (s t : State) (line : VatLine) (e : EccRead),
    scrubDue s line = true ∧
    t = eccRead s line e ∧
    t.scrubRead = [] :=
  ⟨st [(VAT_CTRL.SCRUB_EN, 0, 0, 1)], _, 5, ⟨0, false⟩, by decide +kernel, rfl, by decide +kernel⟩

theorem wit_TheBanksActOnLines_17 : ∃ (s : State) (line : VatLine) (e : EccRead),
    scrubDue s line = false :=
  ⟨st [(VAT_CTRL.SCRUB_EN, 0, 0, 0)], 5, ⟨0, false⟩, by decide +kernel⟩

theorem wit_TheBanksActOnLines_18 : ∃ (s : State) (n : Fin 6) (v : Word),
    (s.job (Fin.ofNat 16 (get1 s VAT_JOB_SEL.JOB))).present = false ∧
    (List.range 16).any (fun k => k != get1 s VAT_JOB_SEL.JOB && decide (fget s VAT_JOB_BERTHS.BERTH k n &&& v.toNat ≠ 0)) = false :=
  ⟨State.reset, 0, 1, by decide +kernel⟩

theorem wit_TheBanksActOnLines_19 : ∃ (s : State) (n : Fin 6) (v : Word) (k : Fin 16),
    (s.job (Fin.ofNat 16 (get1 s VAT_JOB_SEL.JOB))).present = false ∧
    k.val ≠ get1 s VAT_JOB_SEL.JOB ∧
    fget s VAT_JOB_BERTHS.BERTH k n &&& v.toNat ≠ 0 :=
  ⟨berthSt.modJob 1 (fun _ => Job.absent) |> fun s => set1 s VAT_JOB_SEL.JOB 1, 0, 1, 0, by decide +kernel⟩

theorem wit_KnownAnswerTestsRun_1 : ∃ (s : State) (v : BitVec 32),
    bit v.toNat 1 = true ∧
    s.katRuns.contains .press = false :=
  ⟨State.reset, 2, by decide +kernel⟩

theorem wit_KnownAnswerTestsRun_2 : ∃ (s : State) (v : BitVec 32),
    bit v.toNat 1 = true ∧
    s.katRuns.contains .wrap = false :=
  ⟨State.reset, 2, by decide +kernel⟩

theorem wit_KnownAnswerTestsRun_3 : ∃ (s : State) (v : BitVec 32),
    bit v.toNat 1 = true ∧
    s.katRuns.contains .skim = false :=
  ⟨State.reset, 2, by decide +kernel⟩

theorem wit_KnownAnswerTestsRun_4 : ∃ (s : State) (v : BitVec 32),
    bit v.toNat 1 = true ∧
    s.katRuns.contains .trier = false :=
  ⟨State.reset, 2, by decide +kernel⟩

theorem wit_KnownAnswerTestsRun_5 : ∃ (s : State) (v : BitVec 32),
    bit v.toNat 2 = true ∧
    s.katRuns.contains .toll = false ∧
    (tollOn (storeReg s .TOL_CTRL 0 0 v.toNat) && !tollOn s) = false :=
  ⟨State.reset, 4, by decide +kernel⟩

theorem wit_KnownAnswerTestsRun_6 : ∃ (s : State) (v : BitVec 32),
    bit v.toNat 2 = false ∧
    tollOn (storeReg s .TOL_CTRL 0 0 v.toNat) = true ∧
    tollOn s = false :=
  ⟨st [(TOL_CTRL.ENABLE, 0, 0, 0)], 1, by decide +kernel⟩

theorem wit_KnownAnswerTestsRun_7 : ∃ (s u : State) (v : BitVec 32),
    bit v.toNat 1 = true ∧
    s.katRuns.contains .rind = false ∧
    u = (fun t => { t with katRuns := t.katRuns ++ [.rind] }) (storeReg s .RIND_CTRL 0 0 v.toNat) :=
  ⟨State.reset, _, 2, by decide +kernel, by decide +kernel, rfl⟩

theorem wit_KnownAnswerTestsRun_8 : ∃ (s u : State) (v : BitVec 32),
    bit v.toNat 1 = true ∧
    s.katRuns.contains .culture = false ∧
    u = (fun t => { t with katRuns := t.katRuns ++ [.culture] }) (storeReg s .CUL_CTRL 0 0 v.toNat) :=
  ⟨State.reset, _, 2, by decide +kernel, by decide +kernel, rfl⟩

theorem wit_KnownAnswerTestsRun_9 : ∃ (s u : State) (v : BitVec 32),
    bit v.toNat 1 = false ∧
    u = storeReg s .RIND_CTRL 0 0 v.toNat :=
  ⟨State.reset, _, 1, by decide +kernel, rfl⟩

theorem wit_KnownAnswerTestsRun_10 : ∃ (s u : State) (v : BitVec 32),
    bit v.toNat 1 = false ∧
    u = storeReg s .CUL_CTRL 0 0 v.toNat :=
  ⟨State.reset, _, 1, by decide +kernel, rfl⟩

theorem wit_KnownAnswerTestsRun_11 : ∃ (s : State) (e : KatEngine),
    s.katRuns.contains e = true :=
  ⟨{ State.reset with katRuns := [.press] }, .press, by decide +kernel⟩

theorem wit_KnownAnswerTestsRun_12 : ∃ (s : State) (e : KatEngine) (b : Fin 11) (u : Nat),
    s.katRuns.contains e = true ∧
    unitExists b u = true :=
  ⟨{ State.reset with katRuns := [.press] }, .press, 5, 3, by decide +kernel⟩

theorem wit_UnitsAreFencedAndChecked_1 : ∃ (s : State) (v : BitVec 32),
    bits v.toNat 1 0 = 1 ∧
    unitExists (get1 s TRI_UNIT_SEL.BLOCK) (get1 s TRI_UNIT_SEL.UNIT) = true ∧
    bits v.toNat 31 24 = fget s TRI_UNIT_STATE.GEN (get1 s TRI_UNIT_SEL.BLOCK) (get1 s TRI_UNIT_SEL.UNIT) :=
  ⟨st [(TRI_UNIT_SEL.BLOCK, 0, 0, 5)], 1, by decide +kernel⟩

theorem wit_UnitsAreFencedAndChecked_2 : ∃ (s : State) (v : BitVec 32),
    bits v.toNat 1 0 = 1 ∧
    unitExists (get1 s TRI_UNIT_SEL.BLOCK) (get1 s TRI_UNIT_SEL.UNIT) = true ∧
    bits v.toNat 31 24 ≠ fget s TRI_UNIT_STATE.GEN (get1 s TRI_UNIT_SEL.BLOCK) (get1 s TRI_UNIT_SEL.UNIT) :=
  ⟨st [(TRI_UNIT_SEL.BLOCK, 0, 0, 5)], 0x1000001, by decide +kernel⟩

theorem wit_UnitsAreFencedAndChecked_3 : ∃ (s : State) (v : BitVec 32),
    bits v.toNat 1 0 = 2 ∧
    unitExists (get1 s TRI_UNIT_SEL.BLOCK) (get1 s TRI_UNIT_SEL.UNIT) = true ∧
    bits v.toNat 31 24 = fget s TRI_UNIT_STATE.GEN (get1 s TRI_UNIT_SEL.BLOCK) (get1 s TRI_UNIT_SEL.UNIT) ∧
    get1 s TRI_UNIT_SEL.BLOCK ≠ 4 ∧
    get1 s TRI_UNIT_SEL.BLOCK ≠ 1 ∧
    fget s TRI_UNIT_STATE.CAUSE (get1 s TRI_UNIT_SEL.BLOCK) (get1 s TRI_UNIT_SEL.UNIT) ≠ 7 :=
  ⟨st [(TRI_UNIT_SEL.BLOCK, 0, 0, 5), (TRI_UNIT_STATE.STATE, 5, 0, 1)], 2, by decide +kernel⟩

theorem wit_UnitsAreFencedAndChecked_4 : ∃ (s u w : State) (a : Fin 8) (d : DrainRec) (ds : List DrainRec) (c : Ctx) (wrong : List (Nat × Int)) (t : Tile),
    u = replaceFenced s ∧
    (u.array a).drains = d :: ds ∧
    unitState u 5 a ≠ 1 ∧
    u.ctx? d.x = some c ∧
    t = ((u.array a).tile d.tile).faulty wrong ∧
    w = offerChain (countInf (u.setArray a { (u.array a).setTile d.tile t with drains := ds }) d.x c.job t) d a t ∧
    firstPoison w c.job (channelRanges d.record d.col0 t.n) = none ∧
    (∀ e ∈ drainElems w c.job d c.elems t, (t.cell (e.row - d.row0) (e.col - d.col0)).poison = false) :=
  ⟨drainSt, _, _, 0, drain0, [], ctx0 0x20 [], [], _, rfl, by decide +kernel, by decide +kernel, by decide +kernel, rfl, rfl, noFirstPoison _ _ _ (by decide +kernel), by decide +kernel⟩

theorem wit_UnitsAreFencedAndChecked_5 : ∃ (s u : State) (a : Fin 8) (d : DrainRec) (ds : List DrainRec) (wrong : List (Nat × Int)),
    u = replaceFenced s ∧
    (u.array a).drains = d :: ds ∧
    unitState u 5 a = 1 :=
  ⟨(List.range 8).foldl (fun s a => fset s TRI_UNIT_STATE.STATE 5 a 1) drainSt, _, 0, drain0, [], [], rfl, by decide +kernel⟩

theorem wit_UnitsAreFencedAndChecked_6 : ∃ (s : State) (j : JobId) (n : Nat) (wrong : List (Nat × Int)) (k : ChainCheck) (rest : List ChainCheck) (g : Group) (x : CtxId),
    s.groups.find? (fun g => g.job == j && g.seq == n) = some g ∧
    g.chains = k :: rest ∧
    g.x = some x ∧
    chainPasses? s g k k.drained = true :=
  ⟨groupSt, 0, 1, [], check0, [], group0, ⟨0, 0⟩, by decide +kernel⟩

theorem wit_UnitsAreFencedAndChecked_7 : ∃ (s u : State) (j : JobId) (n : Nat) (wrong : List (Nat × Int)) (k : ChainCheck) (rest : List ChainCheck) (g : Group) (x : CtxId) (c : Ctx),
    s.groups.find? (fun g => g.job == j && g.seq == n) = some g ∧
    g.chains = k :: rest ∧
    g.x = some x ∧
    chainPasses? s g k k.drained = false ∧
    (liveArrays s).any (fun a => a != k.array) = true ∧
    u = failChain (takeChain (takeDraws s k.drained.n) g) g.job k.array ∧
    u.ctx? x = some c :=
  ⟨badGroupSt.modJob 0 (fun J => { J with present := false }), _, 0, 1, [], badCheck, [], badGroup, ⟨0, 0⟩, ctx0 0x20 [], by decide +kernel, by decide +kernel, by decide +kernel, by decide +kernel, by decide +kernel, rfl, by decide +kernel⟩

theorem wit_UnitsAreFencedAndChecked_8 : ∃ (s : State) (j : JobId) (n : Nat) (wrong : List (Nat × Int)) (k : ChainCheck) (rest : List ChainCheck) (g : Group),
    s.groups.find? (fun g => g.job == j && g.seq == n) = some g ∧
    g.chains = k :: rest ∧
    g.x = none ∧
    rest ≠ [] ∧
    chainPasses? s g k k.drained = false :=
  ⟨{ groupSt with groups := [{ badGroup with x := none, chains := [badCheck, check0] }] }, 0, 1, [], badCheck, [check0], { badGroup with x := none, chains := [badCheck, check0] }, by decide +kernel⟩

theorem wit_UnitsAreFencedAndChecked_9 : ∃ (s : State) (j : JobId) (n : Nat) (wrong : List (Nat × Int)) (k : ChainCheck) (rest : List ChainCheck) (g : Group) (x : CtxId),
    s.groups.find? (fun g => g.job == j && g.seq == n) = some g ∧
    g.chains = k :: rest ∧
    g.x = some x ∧
    chainPasses? s g k k.drained = false ∧
    (liveArrays s).any (fun a => a != k.array) = false :=
  ⟨(List.range 8).foldl (fun s a => if a = 3 then s else fset s TRI_UNIT_STATE.STATE 5 a 1) badGroupSt, 0, 1, [], badCheck, [], badGroup, ⟨0, 0⟩, by decide +kernel⟩

theorem wit_UnitsAreFencedAndChecked_10 : ∃ (s : State) (j : JobId),
    0 < fget s RIND_JOB_REFRESH.WAIT_S j 0 :=
  ⟨st [(RIND_JOB_REFRESH.WAIT_S, 0, 0, 1)], 0, by decide +kernel⟩

theorem wit_ControlInstructionsRun_1 : ∃ (s : State) (x : CtxId) (c : Ctx),
    s.ctx? x = some c ∧
    standsAt s x c 0x00 = true :=
  ⟨ctxSt (withRound (landing []) (maskRd [])) 0 (ctx0 0x00 []), ⟨0, 0⟩, ctx0 0x00 [], by decide +kernel⟩

theorem wit_ControlInstructionsRun_2 : ∃ (s : State) (x : CtxId) (c : Ctx),
    s.ctx? x = some c ∧
    standsAt s x c 0x01 = true ∧
    c.issued.isEmpty = true ∧
    groupPending s c = false :=
  ⟨ctxSt (withRound (landing []) (maskRd [])) 0 (ctx0 0x01 []), ⟨0, 0⟩, ctx0 0x01 [], by decide +kernel⟩

theorem wit_ControlInstructionsRun_3 : ∃ (s : State) (x : CtxId) (c : Ctx),
    s.ctx? x = some c ∧
    standsAt s x c 0x02 = true ∧
    (if bit c.mod 0 then c.sa else c.imm % 2 ^ 24) < 2 ^ 24 ∧
    (if bit c.mod 0 then c.sa else c.imm % 2 ^ 24) ≠ 0 :=
  ⟨ctxSt (withRound (landing []) (maskRd [])) 0 (ctxOf [word 2 0 0 0 0 5] []), ⟨0, 0⟩, ctxOf [word 2 0 0 0 0 5] [], by decide +kernel⟩

theorem wit_ControlInstructionsRun_4 : ∃ (s : State) (x : CtxId) (c : Ctx),
    s.ctx? x = some c ∧
    standsAt s x c 0x02 = true ∧
    (if bit c.mod 0 then c.sa else c.imm % 2 ^ 24) = 0 :=
  ⟨ctxSt (withRound (landing []) (maskRd [])) 0 (ctxOf [word 2 0 0 0 0 0] []), ⟨0, 0⟩, ctxOf [word 2 0 0 0 0 0] [], by decide +kernel⟩

theorem wit_ControlInstructionsRun_5 : ∃ (s : State) (x : CtxId) (c : Ctx) (f : LoopFrame) (fs : List LoopFrame),
    s.ctx? x = some c ∧
    standsAt s x c 0x03 = true ∧
    c.loops = f :: fs ∧
    f.idx = none ∧
    f.left ≤ 1 :=
  ⟨ctxSt (withRound (landing []) (maskRd [])) 0 { ctx0 0x03 [] with loops := [⟨0, 1, none⟩] }, ⟨0, 0⟩, { ctx0 0x03 [] with loops := [⟨0, 1, none⟩] }, ⟨0, 1, none⟩, [], by decide +kernel⟩

theorem wit_ControlInstructionsRun_6 : ∃ (s : State) (x : CtxId) (c : Ctx) (f : LoopFrame) (fs : List LoopFrame) (i : Nat),
    s.ctx? x = some c ∧
    standsAt s x c 0x03 = true ∧
    c.loops = f :: fs ∧
    f.idx = some i ∧
    1 < f.left :=
  ⟨ctxSt (withRound (landing []) (maskRd [])) 0 { ctx0 0x03 [] with loops := [⟨0, 2, some 4⟩] }, ⟨0, 0⟩, { ctx0 0x03 [] with loops := [⟨0, 2, some 4⟩] }, ⟨0, 2, some 4⟩, [], 4, by decide +kernel⟩

theorem wit_ControlInstructionsRun_7 : ∃ (s : State) (x : CtxId) (c : Ctx),
    s.ctx? x = some c ∧
    standsAt s x c 0x04 = true :=
  ⟨ctxSt (withRound (landing []) (maskRd [])) 0 (ctx0 0x04 []), ⟨0, 0⟩, ctx0 0x04 [], by decide +kernel⟩

theorem wit_ControlInstructionsRun_8 : ∃ (s : State) (x : CtxId) (c : Ctx),
    s.ctx? x = some c ∧
    standsAt s x c 0x05 = true :=
  ⟨ctxSt (withRound (landing []) (maskRd [])) 0 (ctx0 0x05 []), ⟨0, 0⟩, ctx0 0x05 [], by decide +kernel⟩

theorem wit_ControlInstructionsRun_9 : ∃ (s : State) (x : CtxId) (c : Ctx),
    s.ctx? x = some c ∧
    standsAt s x c 0x06 = true :=
  ⟨ctxSt (withRound (landing []) (maskRd [])) 0 (ctx0 0x06 []), ⟨0, 0⟩, ctx0 0x06 [], by decide +kernel⟩

theorem wit_ControlInstructionsRun_10 : ∃ (s : State) (x : CtxId) (c : Ctx),
    s.ctx? x = some c ∧
    standsAt s x c 0x07 = true :=
  ⟨ctxSt (withRound (landing []) (maskRd [])) 0 (ctx0 0x07 []), ⟨0, 0⟩, ctx0 0x07 [], by decide +kernel⟩

theorem wit_ControlInstructionsRun_11 : ∃ (s : State) (x : CtxId) (c : Ctx),
    s.ctx? x = some c ∧
    standsAt s x c 0x08 = true :=
  ⟨ctxSt (withRound (landing []) (maskRd [])) 0 (ctx0 0x08 []), ⟨0, 0⟩, ctx0 0x08 [], by decide +kernel⟩

theorem wit_ControlInstructionsRun_12 : ∃ (s : State) (x : CtxId) (c : Ctx) (a : Nat),
    s.ctx? x = some c ∧
    standsAt s x c 0x09 = true ∧
    (c.reg (iSa c.word) + BitVec.ofInt 64 (signed 32 c.imm)).toNat = a ∧
    a % 8 = 0 ∧
    rangeFault s c [(a, 8)] = none ∧
    poisoned s c.job a 8 = false :=
  ⟨ctxSt berthSt 0 { ctx0 0x09 [] with fromHost := none }, ⟨0, 0⟩, { ctx0 0x09 [] with fromHost := none }, 0, by decide +kernel, by decide +kernel, by decide +kernel, by decide +kernel, by decide +kernel, notPoisoned _ _ _ _ (by decide +kernel)⟩

theorem wit_ControlInstructionsRun_13 : ∃ (s : State) (x : CtxId) (c : Ctx),
    s.ctx? x = some c ∧
    standsAt s x c 0x0A = true :=
  ⟨ctxSt (withRound (landing []) (maskRd [])) 0 (ctx0 0x0A []), ⟨0, 0⟩, ctx0 0x0A [], by decide +kernel⟩

theorem wit_ControlInstructionsRun_14 : ∃ (s : State) (x : CtxId) (c : Ctx),
    s.ctx? x = some c ∧
    standsAt s x c 0x0B = true :=
  ⟨ctxSt (withRound (landing []) (maskRd [])) 0 (ctx0 0x0B []), ⟨0, 0⟩, ctx0 0x0B [], by decide +kernel⟩

theorem wit_ControlInstructionsRun_15 : ∃ (s : State) (x : CtxId) (c : Ctx),
    s.ctx? x = some c ∧
    standsAt s x c 0x0C = true ∧
    c.issued.isEmpty = true :=
  ⟨ctxSt (withRound (landing []) (maskRd [])) 0 (ctx0 0x0C []), ⟨0, 0⟩, ctx0 0x0C [], by decide +kernel⟩

theorem wit_ControlInstructionsRun_16 : ∃ (s : State) (x : CtxId) (c : Ctx),
    s.ctx? x = some c ∧
    standsAt s x c 0x0D = true ∧
    (BitVec.ofNat 32 (readD 0 (s.job c.job).counters (c.mod % 256)) - BitVec.ofNat 32 (c.sa + c.imm)).toNat < 2 ^ 31 :=
  ⟨ctxSt (withRound (landing []) (maskRd [])) 0 (ctx0 0x0D []), ⟨0, 0⟩, ctx0 0x0D [], by decide +kernel⟩

theorem wit_ControlInstructionsRun_17 : ∃ (s : State) (x : CtxId) (c : Ctx),
    s.ctx? x = some c ∧
    standsAt s x c 0x0E = true ∧
    c.issued.isEmpty = true :=
  ⟨ctxSt (withRound (landing []) (maskRd [])) 0 (ctx0 0x0E []), ⟨0, 0⟩, ctx0 0x0E [], by decide +kernel⟩

theorem wit_ControlInstructionsRun_18 : ∃ (s : State) (x : CtxId) (c : Ctx) (t : Nat),
    s.ctx? x = some c ∧
    standsAt s x c 0x0F = true ∧
    c.wait = some t ∧
    c.fired.contains (c.imm % 4096 + 4096) = true :=
  ⟨waitSt, ⟨0, 0⟩, { ctx0 0x0F [] with wait := some 0, fired := [4096] }, 0, by decide +kernel⟩

theorem wit_ControlInstructionsRun_19 : ∃ (s : State) (x : CtxId) (c : Ctx),
    s.ctx? x = some c ∧
    standsAt s x c 0x0F = true ∧
    (lookup s.armed (c.imm % 4096)).map (·.job) = some c.job.val ∧
    c.wait = none ∧
    (bit c.mod 0 && c.fired.contains (c.imm % 4096)) = false :=
  ⟨waitSt2, ⟨0, 0⟩, ctx0 0x0F [], by decide +kernel⟩

theorem wit_PressAndWrapInstructionsRun_1 : ∃ (s : State) (x : CtxId) (c : Ctx),
    s.ctx? x = some c ∧
    standsAt s x c 0x2F = true ∧
    1 ≤ c.imm % 256 ∧
    c.imm % 256 ≤ 6 :=
  ⟨bareSt 0 [] (fwCtx [word 0x2F 0 0 0 0 6] []), ⟨0, 0⟩, fwCtx [word 0x2F 0 0 0 0 6] [], by decide +kernel⟩

theorem wit_PressAndWrapInstructionsRun_2 : ∃ (s₀ s : State) (x : CtxId) (c : Ctx) (phys : Fin 8) (ready wait : Nat) (rd : Option Round) (fresh : Bool),
    s = replaceFenced s₀ ∧
    s.ctx? x = some c ∧
    standsAt s x c 0x20 = true ∧
    ((if mModeA c = 1 ∨ mModeB c = 2 then pickRound s c.job (mNewest c) else none) = rd) ∧
    (chainAt c (mArray c) (mTile c)).isNone = fresh ∧
    on s PRS_CTRL.ENABLE = true ∧
    (mDrain c && !on s WRP_CTRL.ENABLE) = false ∧
    arrayFits s x c phys fresh = true ∧
    rangeFault s c (macHeads c) = none ∧
    (macOk s c (rd) && (!mDrain c || recordOk true (isSketch c) (drainRecord s c))) = true ∧
    rangeFault s c (macSpans s c) = none ∧
    firstPoison s c.job (macHeads c) = none ∧
    macWaits s c (rd) = false :=
  ⟨macSt, _, ⟨0, 0⟩, macCtx 0, 3, 0, 0, some sliceRd, true, rfl, by decide +kernel, by decide +kernel, by decide +kernel, by decide +kernel, by decide +kernel, by decide +kernel, by decide +kernel, by decide +kernel, by decide +kernel, by decide +kernel, noFirstPoison _ _ _ (by decide +kernel), by decide +kernel⟩

theorem wit_PressAndWrapInstructionsRun_3 : ∃ (s₀ s : State) (x : CtxId) (c : Ctx) (phys : Fin 8) (ready wait : Nat) (y : Round) (fresh : Bool) (key : Key256) (t : State),
    s = replaceFenced s₀ ∧
    s.ctx? x = some c ∧
    standsAt s x c 0x20 = true ∧
    ((if mModeA c = 1 ∨ mModeB c = 2 then pickRound s c.job (mNewest c) else none) = some y) ∧
    (chainAt c (mArray c) (mTile c)).isNone = fresh ∧
    on s PRS_CTRL.ENABLE = true ∧
    (mDrain c && !on s WRP_CTRL.ENABLE) = false ∧
    arrayFits s x c phys fresh = true ∧
    rangeFault s c (macHeads c) = none ∧
    (macOk s c (some y) && (!mDrain c || recordOk true (isSketch c) (drainRecord s c))) = true ∧
    rangeFault s c (macSpans s c) = none ∧
    firstPoison s c.job (macHeads c) = none ∧
    macWaits s c (some y) = false ∧
    mDrain c = false ∧
    mModeA c = 1 ∧
    screeningKey s c.job y.number = (some key, t) :=
  ⟨macSt, _, ⟨0, 0⟩, macCtx 0, 3, 0, 0, sliceRd, true, 9, (screeningKey macSt (macCtx 0).job sliceRd.number).2, rfl, by decide +kernel, by decide +kernel, by decide +kernel, by decide +kernel, by decide +kernel, by decide +kernel, by decide +kernel, by decide +kernel, by decide +kernel, by decide +kernel, noFirstPoison _ _ _ (by decide +kernel), by decide +kernel, by decide +kernel, by decide +kernel, pairFst (by decide +kernel)⟩

theorem wit_PressAndWrapInstructionsRun_4 : ∃ (s₀ s : State) (x : CtxId) (c : Ctx) (phys : Fin 8) (ready wait : Nat),
    s = replaceFenced s₀ ∧
    s.ctx? x = some c ∧
    standsAt s x c 0x20 = true ∧
    on s PRS_CTRL.ENABLE = false :=
  ⟨{ macSt with poison := [] } |> fun s => set1 s PRS_CTRL.ENABLE 0, _, ⟨0, 0⟩, macCtx 0, 3, 0, 0, rfl, by decide +kernel⟩

theorem wit_PressAndWrapInstructionsRun_5 : ∃ (s : State) (x : CtxId) (c : Ctx),
    s.ctx? x = some c ∧
    standsAt s x c 0x21 = true ∧
    on s WRP_CTRL.ENABLE = true ∧
    rangeFault s c [(c.dst, 64), (c.sa, 64), (c.sb, 4 * c.imm)] = none ∧
    (recordOk true (isSketch c) (drainRecord s c) && headerSound c.sa (jobRead s c.job c.sa 64) && ((List.range c.imm).map (gatherRow s c.job c.sb)).all (fun r => decide (r < thRows (jobRead s c.job c.sa 64)))) = true ∧
    rangeFault s c (tensorSpans s c.job c.sa ++ recordRanges s c.job (drainRecord s c) (thCols (jobRead s c.job c.sa 64)) ((c.ext 1 + c.imm) * thCols (jobRead s c.job c.sa 64))) = none ∧
    firstPoison s c.job [(c.dst, 64), (c.sa, 64), (c.sb, 4 * c.imm)] = none ∧
    firstPoison s c.job (gatherReads c (drainRecord s c) (jobRead s c.job c.sa 64) ((List.range c.imm).map (gatherRow s c.job c.sb))) = none ∧
    (wrStoch (drainRecord s c) && (c.roundKey.isNone && entropyStarting s)) = false :=
  ⟨gatherSt, ⟨0, 0⟩, gatherCtx, by decide +kernel, by decide +kernel, by decide +kernel, by decide +kernel, by decide +kernel, by decide +kernel, noFirstPoison _ _ _ (by decide +kernel), noFirstPoison _ _ _ (by decide +kernel), by decide +kernel⟩

theorem wit_PressAndWrapInstructionsRun_6 : ∃ (s₀ s : State) (x : CtxId) (c : Ctx) (k : ChainRec),
    s = replaceFenced s₀ ∧
    s.ctx? x = some c ∧
    standsAt s x c 0x22 = true ∧
    chainAt c (mArray c) (mTile c) = some k ∧
    on s WRP_CTRL.ENABLE = true ∧
    unitState s 5 (Fin.ofNat 8 k.phys).val ≠ 1 ∧
    rangeFault s c [(c.dst, 64)] = none ∧
    recordOk true (isSketch c) (drainRecord s c) = true ∧
    rangeFault s c (recordRanges s c.job (drainRecord s c) ((s.array (Fin.ofNat 8 k.phys)).tile k.tile).n (((s.array (Fin.ofNat 8 k.phys)).tile k.tile).m * ((s.array (Fin.ofNat 8 k.phys)).tile k.tile).n)) = none ∧
    firstPoison s c.job [(c.dst, 64)] = none ∧
    wrStoch (drainRecord s c) = false :=
  ⟨tileSt, _, ⟨0, 0⟩, drainCtx, ⟨0, 0, 3, 0, false, []⟩, rfl, by decide +kernel, by decide +kernel, by decide +kernel, by decide +kernel, by decide +kernel, by decide +kernel, by decide +kernel, by decide +kernel, noFirstPoison _ _ _ (by decide +kernel), by decide +kernel⟩

theorem wit_PressAndWrapInstructionsRun_7 : ∃ (s₀ s : State) (x : CtxId) (c : Ctx) (k : ChainRec),
    s = replaceFenced s₀ ∧
    s.ctx? x = some c ∧
    standsAt s x c 0x22 = true ∧
    chainAt c (mArray c) (mTile c) = some k ∧
    on s WRP_CTRL.ENABLE = false :=
  ⟨tileSt |> fun s => set1 s WRP_CTRL.ENABLE 0, _, ⟨0, 0⟩, drainCtx, ⟨0, 0, 3, 0, false, []⟩, rfl, by decide +kernel⟩

theorem wit_PressAndWrapInstructionsRun_8 : ∃ (s : State) (x : CtxId) (c : Ctx),
    s.ctx? x = some c ∧
    standsAt s x c 0x60 = true ∧
    on s WRP_CTRL.ENABLE = true ∧
    rangeFault s c [(c.dst, 64)] = none ∧
    (recordOk false false (jobRead s c.job c.dst 64) && !(wrNoise (jobRead s c.job c.dst 64) || wrCountNorm (jobRead s c.job c.dst 64) || wrMomentum (jobRead s c.job c.dst 64))) = true ∧
    rangeFault s c ((c.sa, c.sb * srcBytes (wrSrc (jobRead s c.job c.dst 64))) :: recordRanges s c.job (jobRead s c.job c.dst 64) c.sb c.sb) = none ∧
    firstPoison s c.job ((c.dst, 64) :: (c.sa, c.sb * srcBytes (wrSrc (jobRead s c.job c.dst 64))) :: channelRanges (jobRead s c.job c.dst 64) 0 c.sb) = none ∧
    wrStoch (jobRead s c.job c.dst 64) = false :=
  ⟨wpassSt, ⟨4, 0⟩, wpassCtx, by decide +kernel, by decide +kernel, by decide +kernel, by decide +kernel, by decide +kernel, by decide +kernel, noFirstPoison _ _ _ (by decide +kernel), by decide +kernel⟩

theorem wit_VatInstructionsRun_1 : ∃ (s : State) (x : CtxId) (c : Ctx),
    s.ctx? x = some c ∧
    standsAt s x c 0x30 = true ∧
    vopSize (c.mod % 16) ≠ 0 ∧
    (c.dst % 64 == 0 && c.sa % 64 == 0 && c.sb % (if c.mod % 16 ≤ 3 then 32 else 64) == 0) = true ∧
    rangeFault s c [(c.dst, c.sb), (c.sa, c.sb)] = none ∧
    firstPoison s c.job [(c.dst, c.sb), (c.sa, c.sb)] = none :=
  ⟨bareSt 1 [] vopCtx, ⟨1, 0⟩, vopCtx, by decide +kernel, by decide +kernel, by decide +kernel, by decide +kernel, by decide +kernel, noFirstPoison _ _ _ (by decide +kernel)⟩

theorem wit_VatInstructionsRun_2 : ∃ (s : State) (x : CtxId) (c : Ctx),
    s.ctx? x = some c ∧
    standsAt s x c 0x31 = true ∧
    (c.sa % 8 == 0) = true ∧
    rangeFault s c [(c.sa, 8)] = none ∧
    firstPoison s c.job [(c.sa, 8)] = none :=
  ⟨bareSt 1 [] vcasCtx, ⟨1, 0⟩, vcasCtx, by decide +kernel, by decide +kernel, by decide +kernel, by decide +kernel, noFirstPoison _ _ _ (by decide +kernel)⟩

theorem wit_VatInstructionsRun_3 : ∃ (s : State) (x : CtxId) (c : Ctx),
    s.ctx? x = some c ∧
    standsAt s x c 0x32 = true ∧
    (c.dst % 64 == 0 && c.sb % 64 == 0) = true ∧
    rangeFault s c [(c.dst, c.sb)] = none :=
  ⟨bareSt 1 [] vfillCtx, ⟨1, 0⟩, vfillCtx, by decide +kernel⟩

theorem wit_VatInstructionsRun_4 : ∃ (s : State) (x : CtxId) (c : Ctx),
    s.ctx? x = some c ∧
    standsAt s x c 0x33 = true ∧
    (c.dst % 64 == 0 && c.sa % 64 == 0 && c.sb % 64 == 0) = true ∧
    rangeFault s c [(c.dst, c.sb), (c.sa, c.sb)] = none :=
  ⟨bareSt 1 [] vcopyCtx, ⟨1, 0⟩, vcopyCtx, by decide +kernel⟩

theorem wit_VatInstructionsRun_5 : ∃ (s : State) (x : CtxId) (c : Ctx) (a : Nat),
    s.ctx? x = some c ∧
    standsAt s x c 0x30 = true ∧
    vopSize (c.mod % 16) ≠ 0 ∧
    (c.dst % 64 == 0 && c.sa % 64 == 0 && c.sb % (if c.mod % 16 ≤ 3 then 32 else 64) == 0) = true ∧
    rangeFault s c [(c.dst, c.sb), (c.sa, c.sb)] = none ∧
    firstPoison s c.job [(c.dst, c.sb), (c.sa, c.sb)] = some a :=
  ⟨{ bareSt 1 [] vopCtx with poison := [poisonKey (bareSt 1 [] vopCtx) 0 64] }, ⟨1, 0⟩, vopCtx, 64, by decide +kernel⟩

theorem wit_VatInstructionsRun_6 : ∃ (s : State) (x : CtxId) (c : Ctx) (y : Round) (t : State),
    s.ctx? x = some c ∧
    standsAt s x c 0x34 = true ∧
    servedRound s c = some y ∧
    settleDue s c.job y c.imm = true ∧
    settlePoison s c.job y c.imm = none ∧
    settleCohort s c.job c.imm y (y.cohort c.imm) = t ∧
    (t.cohort c.job y.number c.imm).reason = 0 :=
  ⟨cohortSt 0x34 settleRd, ⟨1, 0⟩, cohortCtx 0x34, settleRd, _, by decide +kernel, by decide +kernel, by decide +kernel, by decide +kernel, noSettlePoison _ _ _ _ (by decide +kernel), rfl, by decide +kernel⟩

theorem wit_VatInstructionsRun_7 : ∃ (s : State) (x : CtxId) (c : Ctx) (y : Round) (t : State),
    s.ctx? x = some c ∧
    standsAt s x c 0x34 = true ∧
    servedRound s c = some y ∧
    settleDue s c.job y c.imm = true ∧
    settlePoison s c.job y c.imm = none ∧
    settleCohort s c.job c.imm y (y.cohort c.imm) = t ∧
    (t.cohort c.job y.number c.imm).reason ≠ 0 :=
  ⟨cohortSt 0x34 settleRd2, ⟨1, 0⟩, cohortCtx 0x34, settleRd2, _, by decide +kernel, by decide +kernel, by decide +kernel, by decide +kernel, noSettlePoison _ _ _ _ (by decide +kernel), rfl, by decide +kernel⟩

theorem wit_VatInstructionsRun_8 : ∃ (s : State) (x : CtxId) (c : Ctx) (y z : Round),
    s.ctx? x = some c ∧
    standsAt s x c 0x35 = true ∧
    servedRound s c = some y ∧
    (y.cohort c.imm).settled = true ∧
    (y.cohort c.imm).excluded = false ∧
    (y.cohort c.imm).reason = 0 ∧
    settlePoison s c.job y c.imm = none ∧
    s.round? c.job y.number = some z :=
  ⟨cohortSt 0x35 settledRd, ⟨1, 0⟩, cohortCtx 0x35, settledRd, settledRd, by decide +kernel, by decide +kernel, by decide +kernel, by decide +kernel, by decide +kernel, by decide +kernel, noSettlePoison _ _ _ _ (by decide +kernel), by decide +kernel⟩

theorem wit_VatInstructionsRun_9 : ∃ (s : State) (x : CtxId) (c : Ctx) (y : Round) (key : Key256) (t : State),
    s.ctx? x = some c ∧
    standsAt s x c 0x36 = true ∧
    servedRound s c = some y ∧
    (y.cohort c.imm).checkKey = some key ∧
    y.closed = true ∧
    (y.cohort c.imm).checked = false ∧
    (y.cohort c.imm).reason = 0 ∧
    metPoison s c.job (checkPlaces s c.job y c.imm key) = none ∧
    Machine.compare s c.job y.number c.imm y.plan (y.cohort c.imm) key = t ∧
    (t.cohort c.job y.number c.imm).reason = 0 :=
  ⟨cohortSt 0x36 checkRd, ⟨1, 0⟩, cohortCtx 0x36, checkRd, 5, _, by decide +kernel, by decide +kernel, by decide +kernel, by decide +kernel, by decide +kernel, by decide +kernel, by decide +kernel, noPoison _ _ _ (by decide +kernel), rfl, by decide +kernel⟩

theorem wit_VatInstructionsRun_10 : ∃ (s : State) (x : CtxId) (c : Ctx) (y : Round) (key : Key256) (t : State),
    s.ctx? x = some c ∧
    standsAt s x c 0x36 = true ∧
    servedRound s c = some y ∧
    (y.cohort c.imm).checkKey = some key ∧
    y.closed = true ∧
    (y.cohort c.imm).checked = false ∧
    (y.cohort c.imm).reason = 0 ∧
    metPoison s c.job (checkPlaces s c.job y c.imm key) = none ∧
    Machine.compare s c.job y.number c.imm y.plan (y.cohort c.imm) key = t ∧
    (t.cohort c.job y.number c.imm).reason ≠ 0 :=
  ⟨cohortSt 0x36 badCheckRd, ⟨1, 0⟩, cohortCtx 0x36, badCheckRd, 5, _, by decide +kernel, by decide +kernel, by decide +kernel, by decide +kernel, by decide +kernel, by decide +kernel, by decide +kernel, noPoison _ _ _ (by decide +kernel), rfl, by decide +kernel⟩

theorem wit_VatInstructionsRun_11 : ∃ (s : State) (x : CtxId) (c : Ctx) (y : Round),
    s.ctx? x = some c ∧
    standsAt s x c 0x37 = true ∧
    servedRound s c = some y :=
  ⟨cohortSt 0x37 settleRd, ⟨1, 0⟩, cohortCtx 0x37, settleRd, by decide +kernel⟩

theorem wit_KeyInstructionsRun_1 : ∃ (s : State) (x : CtxId) (c : Ctx) (ring : Ring) (key : Bytes) (y : Round),
    s.ctx? x = some c ∧
    standsAt s x c 0x40 = true ∧
    maskRing c.mod = some ring ∧
    lookup s.handles c.imm = some key ∧
    servedRound s c = some y ∧
    cultureOn s = true ∧
    (key.length == 32) = true ∧
    rangeFault s c [(c.dst, c.sb * ring.slot), (c.sa, ((c.sb + pChunk y.plan - 1) / pChunk y.plan + 7) / 8)] = none ∧
    firstPoison s c.job [(c.dst, c.sb * ring.slot), (c.sa, ((c.sb + pChunk y.plan - 1) / pChunk y.plan + 7) / 8)] = none :=
  ⟨keySt 2 (keyCtx 0x40 7 [0, 64, 4]) [], ⟨2, 0⟩, keyCtx 0x40 7 [0, 64, 4], .z16, zeros 32, settleRd, by decide +kernel, by decide +kernel, by decide +kernel, by decide +kernel, by decide +kernel, by decide +kernel, by decide +kernel, by decide +kernel, noFirstPoison _ _ _ (by decide +kernel)⟩

theorem wit_KeyInstructionsRun_2 : ∃ (s : State) (x : CtxId) (c : Ctx) (seed : Bytes),
    s.ctx? x = some c ∧
    standsAt s x c 0x41 = true ∧
    lookup s.handles c.imm = some seed ∧
    cultureOn s = true :=
  ⟨keySt 2 (keyCtx 0x41 7 []) [], ⟨2, 0⟩, keyCtx 0x41 7 [], zeros 32, by decide +kernel⟩

theorem wit_KeyInstructionsRun_3 : ∃ (s : State) (x : CtxId) (c : Ctx) (d : Bytes) (pt : Nat × Nat),
    s.ctx? x = some c ∧
    standsAt s x c 0x50 = true ∧
    lookup s.handles (c.imm % 2 ^ 16) = some d ∧
    tollOn s = true ∧
    rangeFault s c [(c.sa, 97)] = none ∧
    firstPoison s c.job [(c.sa, 97)] = none ∧
    decodePt (jobRead s c.job c.sa 97) = some pt :=
  ⟨keySt 3 (keyCtx 0x50 8 [0, 1048576]) [(1048576, pG)], ⟨3, 0⟩, keyCtx 0x50 8 [0, 1048576], toBe 48 1, p384G.getD (0, 0), by decide +kernel, by decide +kernel, by decide +kernel, by decide +kernel, by decide +kernel, noFirstPoison _ _ _ (by decide +kernel), by decide +kernel⟩

theorem wit_KeyInstructionsRun_4 : ∃ (s : State) (x : CtxId) (c : Ctx) (info : Bytes) (n : Nat) (z : Bytes),
    s.ctx? x = some c ∧
    standsAt s x c 0x51 = true ∧
    derivation ((Config.infoCode (c.mod % 16)).val) = (info, n) ∧
    lookup s.handles (c.imm % 2 ^ 16) = some z ∧
    tollOn s = true ∧
    rangeFault s c [(c.sa, n)] = none ∧
    firstPoison s c.job [(c.sa, n)] = none :=
  ⟨keySt 3 (keyCtx 0x51 7 [0, 64]) [], ⟨3, 0⟩, keyCtx 0x51 7 [0, 64], _, _, zeros 32, by decide +kernel, by decide +kernel, rfl, by decide +kernel, by decide +kernel, derivReach _, noFirstPoison _ _ _ (by decide +kernel)⟩

theorem wit_KeyInstructionsRun_5 : ∃ (s : State) (x : CtxId) (c : Ctx) (y : Round) (k : Nat) (e : Secret),
    s.ctx? x = some c ∧
    standsAt s x c 0x52 = true ∧
    secretAt s c.job c.sa = some (y, k, e) ∧
    e.done = false ∧
    tollOn s = true ∧
    secretDue s y e = true ∧
    (y.cohort k).reason = 0 ∧
    begun y 7 = true :=
  ⟨reconSt2, ⟨3, 0⟩, reconCtx, maskRd [secret1], 0, secret1, rfl, by decide +kernel, recon_secretAt, by decide +kernel⟩

theorem wit_KeyInstructionsRun_6 : ∃ (s : State) (x : CtxId) (c : Ctx) (t : State),
    s.ctx? x = some c ∧
    standsAt s x c 0x53 = true ∧
    tollOn s = true ∧
    rangeFault s c [(c.sa, 48), (c.dst, 96)] = none ∧
    firstPoison s c.job [(c.sa, 48)] = none ∧
    takeSlot s c.imm c.job 2 2 = (.ok, t) :=
  ⟨keySt 3 (keyCtx 0x53 0 [0, 64]) [], ⟨3, 0⟩, keyCtx 0x53 0 [0, 64], (takeSlot (keySt 3 (keyCtx 0x53 0 [0, 64]) []) (keyCtx 0x53 0 [0, 64]).imm (keyCtx 0x53 0 [0, 64]).job 2 2).2, by decide +kernel, by decide +kernel, by decide +kernel, by decide +kernel, noFirstPoison _ _ _ (by decide +kernel), pairFst (by decide +kernel)⟩

theorem wit_KeyInstructionsRun_7 : ∃ (s : State) (x : CtxId) (c : Ctx) (t : State) (st : SStat),
    s.ctx? x = some c ∧
    standsAt s x c 0x53 = true ∧
    tollOn s = true ∧
    rangeFault s c [(c.sa, 48), (c.dst, 96)] = none ∧
    firstPoison s c.job [(c.sa, 48)] = none ∧
    takeSlot s c.imm c.job 2 2 = (st, t) ∧
    st ≠ .ok :=
  ⟨keySt 3 (keyCtx 0x53 1 [0, 64]) [], ⟨3, 0⟩, keyCtx 0x53 1 [0, 64], (takeSlot (keySt 3 (keyCtx 0x53 1 [0, 64]) []) (keyCtx 0x53 1 [0, 64]).imm (keyCtx 0x53 1 [0, 64]).job 2 2).2, .slotEmpty, by decide +kernel, by decide +kernel, by decide +kernel, by decide +kernel, noFirstPoison _ _ _ (by decide +kernel), pairFst (by decide +kernel), by decide +kernel⟩

theorem wit_KeyInstructionsRun_8 : ∃ (s : State) (x : CtxId) (c : Ctx),
    s.ctx? x = some c ∧
    standsAt s x c 0x54 = true ∧
    tollOn s = true ∧
    entropyStarting s = false ∧
    rangeFault s c [(c.dst, 97)] = none ∧
    entropyReady s = true :=
  ⟨keySt 3 (keyCtx 0x54 0 [0]) [], ⟨3, 0⟩, keyCtx 0x54 0 [0], by decide +kernel⟩

theorem wit_KeyInstructionsRun_9 : ∃ (s : State) (x : CtxId) (c : Ctx),
    s.ctx? x = some c ∧
    standsAt s x c 0x54 = true ∧
    tollOn s = true ∧
    entropyStarting s = false ∧
    rangeFault s c [(c.dst, 97)] = none ∧
    entropyReady s = false :=
  ⟨set1 (keySt 3 (keyCtx 0x54 0 [0]) []) ENT_STATUS.STATE 2, ⟨3, 0⟩, keyCtx 0x54 0 [0], by decide +kernel⟩

theorem wit_SelectionAndReleaseInstructionsRun_1 : ∃ (s : State) (x : CtxId) (c : Ctx),
    s.ctx? x = some c ∧
    standsAt s x c 0x70 = true ∧
    on s SKM_CTRL.ENABLE = true ∧
    1 ≤ c.sb ∧
    c.sb ≤ 2 ^ 32 ∧
    rangeFault s c [(c.sa, c.sb * skimBytes (c.mod % 4)), (c.dst, 16 * 1)] = none ∧
    firstPoison s c.job [(c.sa, c.sb * skimBytes (c.mod % 4))] = none :=
  ⟨skimSt 0x70, ⟨5, 0⟩, skimCtx 0x70, by decide +kernel, by decide +kernel, by decide +kernel, by decide +kernel, by decide +kernel, by decide +kernel, noFirstPoison _ _ _ (by decide +kernel)⟩

theorem wit_SelectionAndReleaseInstructionsRun_2 : ∃ (s : State) (x : CtxId) (c : Ctx),
    s.ctx? x = some c ∧
    standsAt s x c 0x71 = true ∧
    on s SKM_CTRL.ENABLE = true ∧
    1 ≤ c.sb ∧
    c.sb ≤ 2 ^ 32 ∧
    rangeFault s c [(c.sa, c.sb * skimBytes (c.mod % 4)), (c.dst, 16 * 1)] = none ∧
    firstPoison s c.job [(c.sa, c.sb * skimBytes (c.mod % 4))] = none :=
  ⟨skimSt 0x71, ⟨5, 0⟩, skimCtx 0x71, by decide +kernel, by decide +kernel, by decide +kernel, by decide +kernel, by decide +kernel, by decide +kernel, noFirstPoison _ _ _ (by decide +kernel)⟩

theorem wit_SelectionAndReleaseInstructionsRun_3 : ∃ (s : State) (x : CtxId) (c : Ctx),
    s.ctx? x = some c ∧
    standsAt s x c 0x72 = true ∧
    on s SKM_CTRL.ENABLE = true ∧
    1 ≤ c.sb ∧
    c.sb ≤ 2 ^ 32 ∧
    1 ≤ c.imm ∧
    c.imm ≤ 2 ^ 24 ∧
    c.imm ≤ c.sb ∧
    rangeFault s c [(c.sa, c.sb * skimBytes (c.mod % 4)), (c.dst, 16 * c.imm)] = none ∧
    firstPoison s c.job [(c.sa, c.sb * skimBytes (c.mod % 4))] = none :=
  ⟨skimSt 0x72, ⟨5, 0⟩, skimCtx 0x72, by decide +kernel, by decide +kernel, by decide +kernel, by decide +kernel, by decide +kernel, by decide +kernel, by decide +kernel, by decide +kernel, by decide +kernel, noFirstPoison _ _ _ (by decide +kernel)⟩

theorem wit_SelectionAndReleaseInstructionsRun_4 : ∃ (s : State) (x : CtxId) (c : Ctx),
    s.ctx? x = some c ∧
    standsAt s x c 0x73 = true ∧
    on s SKM_CTRL.ENABLE = true ∧
    1 ≤ c.sb ∧
    c.sb ≤ 2 ^ 32 ∧
    1 ≤ c.imm ∧
    c.imm ≤ 2 ^ 24 ∧
    c.imm ≤ c.sb ∧
    rangeFault s c [(c.sa, c.sb * skimBytes (c.mod % 4)), (c.dst, 16 * c.imm)] = none ∧
    firstPoison s c.job [(c.sa, c.sb * skimBytes (c.mod % 4))] = none :=
  ⟨skimSt 0x73, ⟨5, 0⟩, skimCtx 0x73, by decide +kernel, by decide +kernel, by decide +kernel, by decide +kernel, by decide +kernel, by decide +kernel, by decide +kernel, by decide +kernel, by decide +kernel, noFirstPoison _ _ _ (by decide +kernel)⟩

theorem wit_SelectionAndReleaseInstructionsRun_5 : ∃ (s : State) (x : CtxId) (c : Ctx) (y : Round),
    s.ctx? x = some c ∧
    standsAt s x c 0x74 = true ∧
    servedRound s c = some y ∧
    on s SKM_CTRL.ENABLE = true ∧
    (c.sb == (screenSet s c.job y).length * polDirs (s.job c.job).policy) = true ∧
    rangeFault s c [(c.sa, 8 * ((screenSet s c.job y).length * polDirs (s.job c.job).policy)), (c.dst, 16 * polMaxExcl (s.job c.job).policy)] = none ∧
    firstPoison s c.job [(c.sa, 8 * ((screenSet s c.job y).length * polDirs (s.job c.job).policy))] = none :=
  ⟨farSt, ⟨5, 0⟩, farCtx, gateRd0, by decide +kernel, by decide +kernel, by decide +kernel, by decide +kernel, by decide +kernel, by decide +kernel, noFirstPoison _ _ _ (by decide +kernel)⟩

theorem wit_SelectionAndReleaseInstructionsRun_6 : ∃ (s : State) (x : CtxId) (c : Ctx) (y : Round),
    s.ctx? x = some c ∧
    standsAt s x c 0x61 = true ∧
    servedRound s c = some y ∧
    finishDue s c.job y = true ∧
    c.imm = y.windowNo ∧
    c.imm < windowCount s c.job y.plan ∧
    liveCohorts y ≠ [] ∧
    firstPoison (issueOp s x 0 0) c.job (finishReads (issueOp s x 0 0) c.job y) = none :=
  ⟨finSt 0x61 finishSt finishRd, ⟨4, 0⟩, finCtx 0x61, finishRd, by decide +kernel, by decide +kernel, by decide +kernel, by decide +kernel, by decide +kernel, by decide +kernel, by decide +kernel, noFirstPoison _ _ _ (by decide +kernel)⟩

theorem wit_SelectionAndReleaseInstructionsRun_7 : ∃ (s : State) (x : CtxId) (c : Ctx) (y : Round),
    s.ctx? x = some c ∧
    standsAt s x c 0x61 = true ∧
    servedRound s c = some y ∧
    finishDue s c.job y = false ∧
    y.windowNo ≤ c.imm ∧
    c.imm < windowCount s c.job y.plan :=
  ⟨(fun s => set1 s WRP_CTRL.ENABLE 0) (finSt 0x61 finishSt finishRd), ⟨4, 0⟩, finCtx 0x61, finishRd, by decide +kernel⟩

theorem wit_SelectionAndReleaseInstructionsRun_8 : ∃ (s : State) (x : CtxId) (c : Ctx) (y : Round),
    s.ctx? x = some c ∧
    standsAt s x c 0x61 = true ∧
    servedRound s c = some y ∧
    (c.imm < y.windowNo ∨ windowCount s c.job y.plan ≤ c.imm) :=
  ⟨finSt 0x61 windowSt windowRd, ⟨4, 0⟩, finCtx 0x61, windowRd, by decide +kernel⟩

theorem wit_SelectionAndReleaseInstructionsRun_9 : ∃ (s : State) (x : CtxId) (c : Ctx) (y : Round),
    s.ctx? x = some c ∧
    standsAt s x c 0x62 = true ∧
    servedRound s c = some y ∧
    staged s c.job y = true ∧
    on s WRP_CTRL.ENABLE = true :=
  ⟨finSt 0x62 gateSt gateRd1, ⟨4, 0⟩, finCtx 0x62, gateRd1, by decide +kernel⟩

theorem wit_RindInstructionsRun_1 : ∃ (s t : State) (x : CtxId) (c : Ctx) (y z : Machine.PSet) (a b : Ct) (badRuns : Fin 3),
    s.ctx? x = some c ∧
    standsAt s x c 0x80 = true ∧
    rindOn s = true ∧
    (c.fromHost.isSome && ([c.sa, c.sb] ++ [c.dst]).any (fun a => inReach s c.job a 64 && roundOwned s c.job a)) = false ∧
    ([c.sa, c.sb] ++ [c.dst]).all (fun a => inReach s c.job a 64) = true ∧
    (true && [c.dst].all (fun d => layoutOk (ctHead s c.job d) (((psetOf (chSet (ctHead s c.job ([c.sa, c.sb].headD 0)))).map (·.n)).getD 0) (chLevel (ctHead s c.job ([c.sa, c.sb].headD 0))))) = true ∧
    rangeFault s c (([] : List (Nat × Nat)) ++ [c.sa, c.sb].flatMap (srcRanges s c.job) ++ [c.dst].flatMap (fun d => [(d, 64), ctData s c.job d (((psetOf (chSet (ctHead s c.job ([c.sa, c.sb].headD 0)))).map (·.n)).getD 0) (chLevel (ctHead s c.job ([c.sa, c.sb].headD 0)))])) = none ∧
    lockBlocked s x c.job ([c.sa, c.sb] ++ [c.dst]) = false ∧
    firstPoison s c.job (([] : List (Nat × Nat)) ++ [c.sa, c.sb].flatMap (srcRanges s c.job)) = none ∧
    [c.sa, c.sb].any (fun a => chPoison (ctHead s c.job a)) = false ∧
    t = takeLocks s x c.job ([c.sa, c.sb] ++ [c.dst]) ∧
    loadAll s c.job [c.sa, c.sb] = some [(y, a), (z, b)] ∧
    sameForm a b = true ∧
    0 ≤ joinBudget a.budget b.budget ∧
    badRuns.val ≠ 2 :=
  ⟨rindSt 0x80, _, ⟨6, 0⟩, rindCtx 0x80, (ctOf 0x80 0).1, (ctOf 0x80 1048576).1, (ctOf 0x80 0).2, (ctOf 0x80 1048576).2, 0, by decide +kernel, by decide +kernel, by decide +kernel, by decide +kernel, by decide +kernel, by decide +kernel, by decide +kernel, by decide +kernel, noFirstPoison _ _ _ (by decide +kernel), by decide +kernel, rfl, rind_load2 0x80 (by decide +kernel) (by decide +kernel) (by decide +kernel) (by decide +kernel) (by decide +kernel) (by decide +kernel) (by decide +kernel), by decide +kernel⟩

theorem wit_RindInstructionsRun_2 : ∃ (s t : State) (x : CtxId) (c : Ctx) (y z : Machine.PSet) (a b : Ct) (badRuns : Fin 3),
    s.ctx? x = some c ∧
    standsAt s x c 0x81 = true ∧
    rindOn s = true ∧
    (c.fromHost.isSome && ([c.sa, c.sb] ++ [c.dst]).any (fun a => inReach s c.job a 64 && roundOwned s c.job a)) = false ∧
    ([c.sa, c.sb] ++ [c.dst]).all (fun a => inReach s c.job a 64) = true ∧
    (true && [c.dst].all (fun d => layoutOk (ctHead s c.job d) (((psetOf (chSet (ctHead s c.job ([c.sa, c.sb].headD 0)))).map (·.n)).getD 0) (chLevel (ctHead s c.job ([c.sa, c.sb].headD 0))))) = true ∧
    rangeFault s c (([] : List (Nat × Nat)) ++ [c.sa, c.sb].flatMap (srcRanges s c.job) ++ [c.dst].flatMap (fun d => [(d, 64), ctData s c.job d (((psetOf (chSet (ctHead s c.job ([c.sa, c.sb].headD 0)))).map (·.n)).getD 0) (chLevel (ctHead s c.job ([c.sa, c.sb].headD 0)))])) = none ∧
    lockBlocked s x c.job ([c.sa, c.sb] ++ [c.dst]) = false ∧
    firstPoison s c.job (([] : List (Nat × Nat)) ++ [c.sa, c.sb].flatMap (srcRanges s c.job)) = none ∧
    [c.sa, c.sb].any (fun a => chPoison (ctHead s c.job a)) = false ∧
    t = takeLocks s x c.job ([c.sa, c.sb] ++ [c.dst]) ∧
    loadAll s c.job [c.sa, c.sb] = some [(y, a), (z, b)] ∧
    sameForm a b = true ∧
    0 ≤ joinBudget a.budget b.budget ∧
    badRuns.val ≠ 2 :=
  ⟨rindSt 0x81, _, ⟨6, 0⟩, rindCtx 0x81, (ctOf 0x81 0).1, (ctOf 0x81 1048576).1, (ctOf 0x81 0).2, (ctOf 0x81 1048576).2, 0, by decide +kernel, by decide +kernel, by decide +kernel, by decide +kernel, by decide +kernel, by decide +kernel, by decide +kernel, by decide +kernel, noFirstPoison _ _ _ (by decide +kernel), by decide +kernel, rfl, rind_load2 0x81 (by decide +kernel) (by decide +kernel) (by decide +kernel) (by decide +kernel) (by decide +kernel) (by decide +kernel) (by decide +kernel), by decide +kernel⟩

theorem wit_RindInstructionsRun_3 : ∃ (s t : State) (x : CtxId) (c : Ctx) (y : Machine.PSet) (a : Ct) (badRuns : Fin 3),
    s.ctx? x = some c ∧
    standsAt s x c 0x82 = true ∧
    rindOn s = true ∧
    (c.fromHost.isSome && ([c.sa] ++ [c.dst]).any (fun a => inReach s c.job a 64 && roundOwned s c.job a)) = false ∧
    ([c.sa] ++ [c.dst]).all (fun a => inReach s c.job a 64) = true ∧
    ((c.imm != 0) && [c.dst].all (fun d => layoutOk (ctHead s c.job d) (((psetOf (chSet (ctHead s c.job ([c.sa].headD 0)))).map (·.n)).getD 0) (chLevel (ctHead s c.job ([c.sa].headD 0))))) = true ∧
    rangeFault s c (([] : List (Nat × Nat)) ++ [c.sa].flatMap (srcRanges s c.job) ++ [c.dst].flatMap (fun d => [(d, 64), ctData s c.job d (((psetOf (chSet (ctHead s c.job ([c.sa].headD 0)))).map (·.n)).getD 0) (chLevel (ctHead s c.job ([c.sa].headD 0)))])) = none ∧
    lockBlocked s x c.job ([c.sa] ++ [c.dst]) = false ∧
    firstPoison s c.job (([] : List (Nat × Nat)) ++ [c.sa].flatMap (srcRanges s c.job)) = none ∧
    [c.sa].any (fun a => chPoison (ctHead s c.job a)) = false ∧
    t = takeLocks s x c.job ([c.sa] ++ [c.dst]) ∧
    loadAll s c.job [c.sa] = some [(y, a)] ∧
    0 ≤ a.budget - log2Ceil (signed 32 c.imm).natAbs ∧
    badRuns.val ≠ 2 :=
  ⟨rindSt 0x82, _, ⟨6, 0⟩, rindCtx 0x82, (ctOf 0x82 0).1, (ctOf 0x82 0).2, 0, by decide +kernel, by decide +kernel, by decide +kernel, by decide +kernel, by decide +kernel, by decide +kernel, by decide +kernel, by decide +kernel, noFirstPoison _ _ _ (by decide +kernel), by decide +kernel, rfl, rind_load1 0x82 (by decide +kernel) (by decide +kernel) (by decide +kernel) (by decide +kernel), by decide +kernel⟩

theorem wit_RindInstructionsRun_4 : ∃ (s t : State) (x : CtxId) (c : Ctx) (y : Machine.PSet) (a : Ct) (badRuns : Fin 3),
    s.ctx? x = some c ∧
    standsAt s x c 0x83 = true ∧
    rindOn s = true ∧
    (c.fromHost.isSome && ([c.sa] ++ [c.dst]).any (fun a => inReach s c.job a 64 && roundOwned s c.job a)) = false ∧
    ([c.sa] ++ [c.dst]).all (fun a => inReach s c.job a 64) = true ∧
    ((!inReach s c.job c.sb (8 * (((psetOf (chSet (ctHead s c.job c.sa))).map (·.n)).getD 0)) || (plainWords s c.job c.sb (((psetOf (chSet (ctHead s c.job c.sa))).map (·.n)).getD 0)).all (fun v => decide (v < 2 ^ chRing (ctHead s c.job c.sa)))) && [c.dst].all (fun d => layoutOk (ctHead s c.job d) (((psetOf (chSet (ctHead s c.job ([c.sa].headD 0)))).map (·.n)).getD 0) (chLevel (ctHead s c.job ([c.sa].headD 0))))) = true ∧
    rangeFault s c ([(c.sb, 8 * (((psetOf (chSet (ctHead s c.job c.sa))).map (·.n)).getD 0))] ++ [c.sa].flatMap (srcRanges s c.job) ++ [c.dst].flatMap (fun d => [(d, 64), ctData s c.job d (((psetOf (chSet (ctHead s c.job ([c.sa].headD 0)))).map (·.n)).getD 0) (chLevel (ctHead s c.job ([c.sa].headD 0)))])) = none ∧
    lockBlocked s x c.job ([c.sa] ++ [c.dst]) = false ∧
    firstPoison s c.job ([(c.sb, 8 * (((psetOf (chSet (ctHead s c.job c.sa))).map (·.n)).getD 0))] ++ [c.sa].flatMap (srcRanges s c.job)) = none ∧
    [c.sa].any (fun a => chPoison (ctHead s c.job a)) = false ∧
    t = takeLocks s x c.job ([c.sa] ++ [c.dst]) ∧
    loadAll s c.job [c.sa] = some [(y, a)] ∧
    0 ≤ a.budget ∧
    badRuns.val ≠ 2 :=
  ⟨rindSt 0x83, _, ⟨6, 0⟩, rindCtx 0x83, (ctOf 0x83 0).1, (ctOf 0x83 0).2, 0, by decide +kernel, by decide +kernel, by decide +kernel, by decide +kernel, by decide +kernel, by rw [show chRing (ctHead (rindSt 0x83) (rindCtx 0x83).job (rindCtx 0x83).sa) = 64 from by decide +kernel, plainWords_lt]; decide +kernel, by decide +kernel, by decide +kernel, noFirstPoison _ _ _ (by decide +kernel), by decide +kernel, rfl, rind_load1 0x83 (by decide +kernel) (by decide +kernel) (by decide +kernel) (by decide +kernel), by decide +kernel⟩

theorem wit_RindInstructionsRun_5 : ∃ (s t : State) (x : CtxId) (c : Ctx) (y : Machine.PSet) (a : Ct) (badRuns : Fin 3),
    s.ctx? x = some c ∧
    standsAt s x c 0x84 = true ∧
    rindOn s = true ∧
    (c.fromHost.isSome && ([c.sa] ++ [c.dst]).any (fun a => inReach s c.job a 64 && roundOwned s c.job a)) = false ∧
    ([c.sa] ++ [c.dst]).all (fun a => inReach s c.job a 64) = true ∧
    ((decide (1 ≤ c.imm) && decide (c.imm < chLevel (ctHead s c.job c.sa))) && [c.dst].all (fun d => layoutOk (ctHead s c.job d) (((psetOf (chSet (ctHead s c.job ([c.sa].headD 0)))).map (·.n)).getD 0) (c.imm))) = true ∧
    rangeFault s c (([] : List (Nat × Nat)) ++ [c.sa].flatMap (srcRanges s c.job) ++ [c.dst].flatMap (fun d => [(d, 64), ctData s c.job d (((psetOf (chSet (ctHead s c.job ([c.sa].headD 0)))).map (·.n)).getD 0) (c.imm)])) = none ∧
    lockBlocked s x c.job ([c.sa] ++ [c.dst]) = false ∧
    firstPoison s c.job (([] : List (Nat × Nat)) ++ [c.sa].flatMap (srcRanges s c.job)) = none ∧
    [c.sa].any (fun a => chPoison (ctHead s c.job a)) = false ∧
    t = takeLocks s x c.job ([c.sa] ++ [c.dst]) ∧
    loadAll s c.job [c.sa] = some [(y, a)] ∧
    0 ≤ joinBudget a.budget (margin y a.ring c.imm (nuMs y)) ∧
    badRuns.val ≠ 2 :=
  ⟨rindSt 0x84, _, ⟨6, 0⟩, rindCtx 0x84, (ctOf 0x84 0).1, (ctOf 0x84 0).2, 0, by decide +kernel, by decide +kernel, by decide +kernel, by decide +kernel, by decide +kernel, by decide +kernel, by decide +kernel, by decide +kernel, noFirstPoison _ _ _ (by decide +kernel), by decide +kernel, rfl, rind_load1 0x84 (by decide +kernel) (by decide +kernel) (by decide +kernel) (by decide +kernel), modsw_budget, by decide +kernel⟩

theorem wit_RindInstructionsRun_6 : ∃ (s t : State) (x : CtxId) (c : Ctx) (cs : List (Machine.PSet × Ct)) (rs : List Ct) (ntt : Bool) (f : RindCounts) (badRuns : Fin 3),
    s.ctx? x = some c ∧
    standsAt s x c 0x85 = true ∧
    rindOn s = true ∧
    (c.fromHost.isSome && (((List.range (c.mod % 16 + 1)).map (fun i => leNat (jobRead s c.job (c.sa + 16 * i + 8 * 0) 8))) ++ ((List.range (c.mod % 16 + 1)).map (fun i => leNat (jobRead s c.job (c.sa + 16 * i + 8 * 1) 8)))).any (fun a => inReach s c.job a 64 && roundOwned s c.job a)) = false ∧
    (((List.range (c.mod % 16 + 1)).map (fun i => leNat (jobRead s c.job (c.sa + 16 * i + 8 * 0) 8))) ++ ((List.range (c.mod % 16 + 1)).map (fun i => leNat (jobRead s c.job (c.sa + 16 * i + 8 * 1) 8)))).all (fun a => inReach s c.job a 64) = true ∧
    (decide (c.imm < 16) && ((List.range (c.mod % 16 + 1)).map (fun i => leNat (jobRead s c.job (c.sa + 16 * i + 8 * 1) 8))).all (fun d => layoutOk (ctHead s c.job d) (((psetOf (chSet (ctHead s c.job (((List.range (c.mod % 16 + 1)).map (fun i => leNat (jobRead s c.job (c.sa + 16 * i + 8 * 0) 8))).headD 0)))).map (·.n)).getD 0) (chLevel (ctHead s c.job (((List.range (c.mod % 16 + 1)).map (fun i => leNat (jobRead s c.job (c.sa + 16 * i + 8 * 0) 8))).headD 0))))) = true ∧
    rangeFault s c ([(c.sa, 16 * (c.mod % 16 + 1))] ++ ((List.range (c.mod % 16 + 1)).map (fun i => leNat (jobRead s c.job (c.sa + 16 * i + 8 * 0) 8))).flatMap (srcRanges s c.job) ++ ((List.range (c.mod % 16 + 1)).map (fun i => leNat (jobRead s c.job (c.sa + 16 * i + 8 * 1) 8))).flatMap (fun d => [(d, 64), ctData s c.job d (((psetOf (chSet (ctHead s c.job (((List.range (c.mod % 16 + 1)).map (fun i => leNat (jobRead s c.job (c.sa + 16 * i + 8 * 0) 8))).headD 0)))).map (·.n)).getD 0) (chLevel (ctHead s c.job (((List.range (c.mod % 16 + 1)).map (fun i => leNat (jobRead s c.job (c.sa + 16 * i + 8 * 0) 8))).headD 0)))])) = none ∧
    lockBlocked s x c.job (((List.range (c.mod % 16 + 1)).map (fun i => leNat (jobRead s c.job (c.sa + 16 * i + 8 * 0) 8))) ++ ((List.range (c.mod % 16 + 1)).map (fun i => leNat (jobRead s c.job (c.sa + 16 * i + 8 * 1) 8)))) = false ∧
    firstPoison s c.job ([(c.sa, 16 * (c.mod % 16 + 1))] ++ ((List.range (c.mod % 16 + 1)).map (fun i => leNat (jobRead s c.job (c.sa + 16 * i + 8 * 0) 8))).flatMap (srcRanges s c.job)) = none ∧
    ((List.range (c.mod % 16 + 1)).map (fun i => leNat (jobRead s c.job (c.sa + 16 * i + 8 * 0) 8))).any (fun a => chPoison (ctHead s c.job a)) = false ∧
    t = takeLocks s x c.job (((List.range (c.mod % 16 + 1)).map (fun i => leNat (jobRead s c.job (c.sa + 16 * i + 8 * 0) 8))) ++ ((List.range (c.mod % 16 + 1)).map (fun i => leNat (jobRead s c.job (c.sa + 16 * i + 8 * 1) 8)))) ∧
    loadAll s c.job ((List.range (c.mod % 16 + 1)).map (fun i => leNat (jobRead s c.job (c.sa + 16 * i + 8 * 0) 8))) = some cs ∧
    ctSwitch (lookup (s.job c.job).keyTable c.imm) cs = .ok (rs, ntt, f) ∧
    rs.any (fun r => decide (r.budget < 0)) = false ∧
    badRuns.val ≠ 2 ∧
    cultureOn s = true ∧
    inReach s c.job c.sa (16 * (c.mod % 16 + 1)) = true :=
  ⟨kswSt, _, ⟨6, 0⟩, kswCtx, [kswCt], [kswOut], true, .switches kswCt.1 kswEntry kswCt.2.level 1, 0, by decide +kernel, by decide +kernel, by decide +kernel, by decide +kernel, by decide +kernel, by decide +kernel, by decide +kernel, by decide +kernel, noFirstPoison _ _ _ (by decide +kernel), by decide +kernel, rfl, ksw_load, ksw_switch, ksw_budget, by decide +kernel⟩

theorem wit_RindInstructionsRun_7 : ∃ (s : State) (x : CtxId) (c : Ctx) (n : Nat) (badRuns : Fin 3) (cmd : Instr),
    s.ctx? x = some c ∧
    ((cmd = .ctAdd x badRuns ∧ n = 0x80) ∨ (cmd = .ctSub x badRuns ∧ n = 0x81)) ∧
    standsAt s x c n = true ∧
    rindOn s = true ∧
    (c.fromHost.isSome && [c.sa, c.sb, c.dst].any (fun a => inReach s c.job a 64 && roundOwned s c.job a)) = false ∧
    [c.sa, c.sb, c.dst].all (fun a => inReach s c.job a 64) = true ∧
    [c.dst].all (fun d => layoutOk (ctHead s c.job d) (((psetOf (chSet (ctHead s c.job c.sa))).map (·.n)).getD 0) (chLevel (ctHead s c.job c.sa))) = true ∧
    rangeFault s c ([c.sa, c.sb].flatMap (srcRanges s c.job) ++ [(c.dst, 64), ctData s c.job c.dst (((psetOf (chSet (ctHead s c.job c.sa))).map (·.n)).getD 0) (chLevel (ctHead s c.job c.sa))]) = none ∧
    lockBlocked s x c.job [c.sa, c.sb, c.dst] = true :=
  ⟨{ rindSt 0x80 with locks := [⟨0, 0, 99, 0⟩] }, ⟨6, 0⟩, rindCtx 0x80, 0x80, 0, _, by decide +kernel, Or.inl ⟨rfl, rfl⟩, by decide +kernel⟩

theorem wit_RindInstructionsRun_8 : ∃ (s t : State) (x : CtxId) (c : Ctx),
    s.ctx? x = some c ∧
    standsAt s x c 0x86 = true ∧
    rindOn s = true ∧
    (c.fromHost.isSome && [c.sa, c.dst].any (fun a => inReach s c.job a 64 && roundOwned s c.job a)) = false ∧
    (decide (c.imm < 4) && layoutOk (ctHead s c.job c.dst) (((psetOf (chSet (ctHead s c.job c.sa))).map (·.n)).getD 0) (((psetOf (chSet (ctHead s c.job c.sa))).map (·.gam.length)).getD 0)) = true ∧
    rangeFault s c (srcRanges s c.job c.sa ++ [(c.dst, 64), ctData s c.job c.dst (((psetOf (chSet (ctHead s c.job c.sa))).map (·.n)).getD 0) (((psetOf (chSet (ctHead s c.job c.sa))).map (·.gam.length)).getD 0)]) = none ∧
    lockBlocked s x c.job [c.sa, c.dst] = false ∧
    firstPoison s c.job (srcRanges s c.job c.sa) = none ∧
    chPoison (ctHead s c.job c.sa) = false ∧
    (loadCt s c.job c.sa).isNone = false ∧
    chC1Only (ctHead s c.job c.sa) = false ∧
    (s.job c.job).refresh.length < 64 ∧
    t = takeLocks s x c.job [c.sa, c.dst] :=
  ⟨rindSt 0x86, _, ⟨6, 0⟩, rindCtx 0x86, by decide +kernel, by decide +kernel, by decide +kernel, by decide +kernel, by decide +kernel, by decide +kernel, by decide +kernel, noFirstPoison _ _ _ (by decide +kernel), by decide +kernel, by decide +kernel, by decide +kernel, by decide +kernel, rfl⟩

theorem wit_RindInstructionsRun_9 : ∃ (s : State) (x : CtxId) (c : Ctx) (y : Round) (badRuns : Fin 3) (g : Fin 4) (r : RindStat × State),
    s.ctx? x = some c ∧
    standsAt s x c 0x87 = true ∧
    servedRound s c = some y ∧
    rindOn s = true ∧
    cultureOn s = true ∧
    pSealed y.plan = true ∧
    c.imm < pCohortCount y.plan ∧
    (y.cohort c.imm).reason = 0 ∧
    y.closed = true ∧
    ((presentGroups y).foldl (fun acc h =>
    let e := exportCohort acc.2 c.job y.number h c.imm (if h = g then badRuns else 0)
    (if acc.1 = .ok then e.1 else acc.1, if absentIn e.2 c.job y.number h then e.2 else writeExport e.2 c.job y.number h)) (RindStat.ok, s) = r) :=
  ⟨sealCtxSt 0x87, ⟨6, 0⟩, cohortCtx 0x87, memberRd, 0, 0, _, by decide +kernel, by decide +kernel, by decide +kernel, by decide +kernel, by decide +kernel, by decide +kernel, by decide +kernel, by decide +kernel, by decide +kernel, rfl⟩

theorem wit_RindInstructionsRun_10 : ∃ (s : State) (x : CtxId) (c : Ctx) (y : Round) (badRuns : Fin 3) (g : Fin 4) (n : Nat) (r : RindStat × State),
    s.ctx? x = some c ∧
    standsAt s x c 0x88 = true ∧
    servedRound s c = some y ∧
    n = groupsWanted s y ∧
    pSealed y.plan = true ∧
    c.imm < pCohortCount y.plan ∧
    rindOn s = true ∧
    n ≤ (usableGroups y).length ∧
    decodeCohort s c.job y.number c.imm (((usableGroups y).take n).map (fun h => (h, if h = g.val then badRuns.val else 0))) = r :=
  ⟨decodeSt, ⟨6, 0⟩, cohortCtx 0x88, { memberRd with groupDone := [0] }, 0, 0, _, _, by decide +kernel, by decide +kernel, by decide +kernel, rfl, by decide +kernel, by decide +kernel, by decide +kernel, by decide +kernel, rfl⟩

theorem wit_DescriptorsAreFetchedAndStarted_1 : ∃ (s : State) (f : Func) (d : Bytes),
    mayFetch s f = true ∧
    fetchStatus s f d = none :=
  ⟨ringSt [] , vfOf 0, desc 0 0 [], by decide +kernel⟩

theorem wit_DescriptorsAreFetchedAndStarted_2 : ∃ (s : State) (f : Func) (d : Bytes) (st : HStat),
    mayFetch s f = true ∧
    fetchStatus s f d = some st ∧
    dBarrier d = false :=
  ⟨ringSt [], vfOf 0, desc 0x20 0 [], .badDescriptor, by decide +kernel⟩

theorem wit_DescriptorsAreFetchedAndStarted_3 : ∃ (s : State) (f : Func),
    mayFetch s f = true :=
  ⟨ringSt [], vfOf 0, by decide +kernel⟩

theorem wit_DescriptorsAreFetchedAndStarted_4 : ∃ (s : State) (d : Desc),
    startable s pf0 0 = some d :=
  ⟨adminSt (desc 0 0 []), ⟨desc 0 0 [], false, false⟩, by decide +kernel⟩

theorem wit_DescriptorsAreFetchedAndStarted_5 : ∃ (s : State) (j : JobId) (d : Desc),
    abortRuns s j = false ∧
    startable s (vfOf j) 0 = some d :=
  ⟨ringSt [desc 0 0 []], 0, ⟨desc 0 0 [], false, false⟩, by decide +kernel⟩

theorem wit_DescriptorsAreFetchedAndStarted_6 : ∃ (s : State) (host : Option Bytes) (d : Desc) (t : State) (pol : Bytes),
    (booted s && entropyStarting s) = false ∧
    startable s pf0 1 = some d ∧
    takeDesc s pf0 d = t ∧
    (t.job (dJob d.bytes)).present = false ∧
    booted t = true ∧
    fetchBuf t (dJob d.bytes).val (leAt d.bytes 24 8) 128 host = .ok pol ∧
    jobRefusal t (dJob d.bytes) (leAt d.bytes 17 1 == 1) pol = none :=
  ⟨createSt goodPol, some goodPol, createD, takeDesc (createSt goodPol) pf0 createD, goodPol, by decide +kernel, by decide +kernel, rfl, by decide +kernel⟩

theorem wit_DescriptorsAreFetchedAndStarted_7 : ∃ (s : State) (host : Option Bytes) (d : Desc) (t : State) (pol : Bytes) (why : Nat),
    (booted s && entropyStarting s) = false ∧
    startable s pf0 1 = some d ∧
    takeDesc s pf0 d = t ∧
    (t.job (dJob d.bytes)).present = false ∧
    booted t = true ∧
    fetchBuf t (dJob d.bytes).val (leAt d.bytes 24 8) 128 host = .ok pol ∧
    jobRefusal t (dJob d.bytes) (leAt d.bytes 17 1 == 1) pol = some why :=
  ⟨createSt (zeros 128), some (zeros 128), createD, takeDesc (createSt (zeros 128)) pf0 createD, zeros 128, 1, by decide +kernel, by decide +kernel, rfl, by decide +kernel⟩

theorem wit_DescriptorsAreFetchedAndStarted_8 : ∃ (s : State) (d : Desc),
    startable s pf0 2 = some d ∧
    (s.job (dJob d.bytes)).present = true ∧
    teardownDesc s (dJob d.bytes) = none :=
  ⟨adminSt (desc 2 0 []), ⟨desc 2 0 [], false, false⟩, by decide +kernel⟩

theorem wit_DescriptorsAreFetchedAndStarted_9 : ∃ (s : State) (d : Desc),
    startable s pf0 3 = some d ∧
    (takeDesc s pf0 d).alive (dJob d.bytes) = true :=
  ⟨adminSt (desc 3 0 []), ⟨desc 3 0 [], false, false⟩, by decide +kernel⟩

theorem wit_DescriptorsAreFetchedAndStarted_10 : ∃ (s : State) (j : JobId) (d : Desc),
    abortRuns s j = false ∧
    startable s (vfOf j) 3 = some d ∧
    (takeDesc s (vfOf j) d).alive j = true :=
  ⟨ringSt [desc 3 0 []], 0, ⟨desc 3 0 [], false, false⟩, by decide +kernel⟩

theorem wit_DescriptorsAreFetchedAndStarted_11 : ∃ (s : State) (j : JobId),
    (s.job j).present = true ∧
    (s.job j).aborting.isSome = true ∧
    (s.job j).aborted = false ∧
    jobBusy s j = false :=
  ⟨abortingSt, 0, by decide +kernel⟩

theorem wit_InvokeStartsRecipes_1 : ∃ (s : State) (j : JobId) (d : Desc) (w : Waiting) (q : Nat) (ws : List Word) (t : State) (c : Fin 32),
    abortRuns s j = false ∧
    startable s (vfOf j) 0x11 = some d ∧
    (takeDesc s (vfOf j) d).alive j = true ∧
    w = ⟨j, leAt d.bytes 16 2, (List.range (leAt d.bytes 18 1)).map (fun i => leAt d.bytes (24 + 8 * i) 8), some (descTag d.bytes, descIrq d.bytes), none⟩ ∧
    invocationCheck (takeDesc s (vfOf j) d) w = .ok (q, ws) ∧
    wakeCluster (takeDesc s (vfOf j) d) (seqCluster q) = t ∧
    waitsBehind t w = false ∧
    invocationCheck t w = .ok (q, ws) ∧
    freeCtx t (q - 1) j = some c :=
  ⟨invokeSt, 0, invokeD, ⟨0, 512, [], some (0, false), none⟩, 1, [0], wakeCluster (takeDesc invokeSt (vfOf 0) invokeD) (seqCluster 1), 0, by decide +kernel, by decide +kernel, by decide +kernel, by decide +kernel, by decide +kernel, rfl, by decide +kernel⟩

theorem wit_InvokeStartsRecipes_2 : ∃ (s : State) (j : JobId) (d : Desc) (w : Waiting) (st : RStat),
    abortRuns s j = false ∧
    startable s (vfOf j) 0x11 = some d ∧
    (takeDesc s (vfOf j) d).alive j = true ∧
    w = ⟨j, leAt d.bytes 16 2, (List.range (leAt d.bytes 18 1)).map (fun i => leAt d.bytes (24 + 8 * i) 8), some (descTag d.bytes, descIrq d.bytes), none⟩ ∧
    invocationCheck (takeDesc s (vfOf j) d) w = .error st :=
  ⟨ringSt [desc 0x11 0 [(16, toLe 2 512)]], 0, ⟨desc 0x11 0 [(16, toLe 2 512)], false, false⟩, ⟨0, 512, [], some (0, false), none⟩, .slotRefused, by decide +kernel⟩

theorem wit_InvokeStartsRecipes_3 : ∃ (s : State) (j : JobId) (i : CoreInvoke) (w : Waiting) (q : Nat) (ws : List Word) (t : State) (c : Fin 32),
    s.alive j = true ∧
    w = ⟨j, i.slot, i.args, none, some i.round⟩ ∧
    invocationCheck s w = .ok (q, ws) ∧
    wakeCluster s (seqCluster q) = t ∧
    waitsBehind t w = false ∧
    invocationCheck t w = .ok (q, ws) ∧
    freeCtx t (q - 1) j = some c :=
  ⟨invokeSt, 0, ⟨512, [], 1⟩, ⟨0, 512, [], none, some 1⟩, 1, [0], wakeCluster invokeSt (seqCluster 1), 0, by decide +kernel, by decide +kernel, by decide +kernel, rfl, by decide +kernel⟩

theorem wit_InvokeStartsRecipes_4 : ∃ (s : State) (j : JobId) (i : CoreInvoke) (w : Waiting) (q : Nat) (ws : List Word) (t : State),
    s.alive j = true ∧
    w = ⟨j, i.slot, i.args, none, some i.round⟩ ∧
    invocationCheck s w = .ok (q, ws) ∧
    wakeCluster s (seqCluster q) = t ∧
    waitsBehind t w = true :=
  ⟨{ invokeSt with waiting := [⟨0, 512, [], none, some 1⟩] }, 0, ⟨512, [], 1⟩, ⟨0, 512, [], none, some 1⟩, 1, [0], wakeCluster { invokeSt with waiting := [⟨0, 512, [], none, some 1⟩] } (seqCluster 1), by decide +kernel, by decide +kernel, by decide +kernel, rfl, by decide +kernel⟩

theorem wit_InvokeStartsRecipes_5 : ∃ (s : State) (x : CtxId) (c : Ctx),
    s.ctx? x = some c ∧
    c.fromHost.isSome = true ∧
    get1 s HIF_RCP_WDOG.MS ≠ 0 ∧
    get1 s HIF_RCP_WDOG.MS * 10 ^ 6 < s.now - c.start ∧
    c.ending = none ∧
    s.alive c.job = true :=
  ⟨lateSt, ⟨0, 0⟩, ctx0 1 [], by decide +kernel⟩

theorem wit_LoadsAndPlansAreTaken_1 : ∃ (s : State) (host : Option Bytes) (d : Desc) (t : State) (img : Bytes),
    startable s pf0 4 = some d ∧
    takeDesc s pf0 d = t ∧
    t.alive (dJob d.bytes) = true ∧
    fetchBuf t (dJob d.bytes).val (leAt d.bytes 24 8) (leAt d.bytes 32 4) host = .ok img ∧
    loadStatus t (dJob d.bytes) (leAt d.bytes 18 2) img = .ok :=
  ⟨adminSt recipeD.bytes, some recipeImg, recipeD, takeDesc (adminSt recipeD.bytes) pf0 recipeD, recipeImg, by decide +kernel, rfl, by decide +kernel⟩

theorem wit_LoadsAndPlansAreTaken_2 : ∃ (s : State) (host : Option Bytes) (d : Desc) (t : State) (img : Bytes) (st : RStat),
    startable s pf0 4 = some d ∧
    takeDesc s pf0 d = t ∧
    t.alive (dJob d.bytes) = true ∧
    fetchBuf t (dJob d.bytes).val (leAt d.bytes 24 8) (leAt d.bytes 32 4) host = .ok img ∧
    loadStatus t (dJob d.bytes) (leAt d.bytes 18 2) img = st ∧
    st ≠ .ok :=
  ⟨adminSt recipeD.bytes, some (zeros 72), recipeD, takeDesc (adminSt recipeD.bytes) pf0 recipeD, zeros 72, .badEncoding, by decide +kernel, rfl, by decide +kernel⟩

theorem wit_LoadsAndPlansAreTaken_3 : ∃ (s : State) (j : JobId) (host : Option Bytes) (d : Desc) (t : State) (p : Bytes),
    abortRuns s j = false ∧
    startable s (vfOf j) 0x10 = some d ∧
    takeDesc s (vfOf j) d = t ∧
    t.alive j = true ∧
    fetchBuf t j.val (leAt d.bytes 16 8) (leAt d.bytes 24 4) host = .ok p ∧
    leAt d.bytes 24 4 = 256 + pSealedLen p ∧
    planRefusal t j p = none :=
  ⟨planSt, 0, some planB, planD, takeDesc planSt (vfOf 0) planD, planB, by decide +kernel, by decide +kernel, rfl, by decide +kernel, by decide +kernel, by decide +kernel, plan_accepted⟩

theorem wit_LoadsAndPlansAreTaken_4 : ∃ (s : State) (j : JobId) (host : Option Bytes) (d : Desc) (t : State) (p : Bytes) (why : Nat),
    abortRuns s j = false ∧
    startable s (vfOf j) 0x10 = some d ∧
    takeDesc s (vfOf j) d = t ∧
    t.alive j = true ∧
    fetchBuf t j.val (leAt d.bytes 16 8) (leAt d.bytes 24 4) host = .ok p ∧
    leAt d.bytes 24 4 = 256 + pSealedLen p ∧
    planRefusal t j p = some why :=
  ⟨planSt, 0, some (zeros 256), planD, takeDesc planSt (vfOf 0) planD, zeros 256, 16, by decide +kernel, by decide +kernel, rfl, by decide +kernel⟩

theorem wit_LoadsAndPlansAreTaken_5 : ∃ (s : State) (j : JobId) (host : Option Bytes) (d : Desc) (t : State) (img : Bytes),
    abortRuns s j = false ∧
    startable s (vfOf j) 0x12 = some d ∧
    takeDesc s (vfOf j) d = t ∧
    t.alive j = true ∧
    fetchBuf t j.val (leAt d.bytes 24 8) (leAt d.bytes 32 8) host = .ok img ∧
    keyImageOk img = true ∧
    keyBusy (t.job j) (leAt d.bytes 16 1) = false :=
  ⟨keyLoadSt, 0, some keyImg, keyLoadD, takeDesc keyLoadSt (vfOf 0) keyLoadD, slice (keyImg ++ zeros keyLen) 0 keyLen, by decide +kernel, by decide +kernel, rfl, by decide +kernel, keyLoad_fetch, keyLoad_ok, by decide +kernel⟩

theorem wit_LoadsAndPlansAreTaken_6 : ∃ (s : State) (j : JobId) (host : Option Bytes) (d : Desc) (t : State) (img : Bytes),
    abortRuns s j = false ∧
    startable s (vfOf j) 0x12 = some d ∧
    takeDesc s (vfOf j) d = t ∧
    t.alive j = true ∧
    fetchBuf t j.val (leAt d.bytes 24 8) (leAt d.bytes 32 8) host = .ok img ∧
    keyImageOk img = true ∧
    keyBusy (t.job j) (leAt d.bytes 16 1) = true :=
  ⟨keyBusySt, 0, some keyImg, keyLoadD, takeDesc keyBusySt (vfOf 0) keyLoadD, slice (keyImg ++ zeros keyLen) 0 keyLen, by decide +kernel, by decide +kernel, rfl, by decide +kernel, keyBusy_fetch, keyLoad_ok, by decide +kernel⟩

theorem wit_LoadsAndPlansAreTaken_7 : ∃ (s : State) (j : JobId) (host : Option Bytes) (d : Desc) (t : State) (b : Bytes),
    (s.job j).rounds.any (fun x => x.phase == .gate) = false ∧
    abortRuns s j = false ∧
    startable s (vfOf j) 0x13 = some d ∧
    takeDesc s (vfOf j) d = t ∧
    t.alive j = true ∧
    fetchBuf t j.val (leAt d.bytes 24 8) (leAt d.bytes 32 8) host = .ok b ∧
    t.conf j = false :=
  ⟨heldSt, 0, some [1, 2], heldD 2, takeDesc heldSt (vfOf 0) (heldD 2), [1, 2], by decide +kernel, by decide +kernel, by decide +kernel, rfl, by decide +kernel⟩

theorem wit_LoadsAndPlansAreTaken_8 : ∃ (s : State) (j : JobId) (host : Option Bytes) (d : Desc) (t : State) (b : Bytes) (u : State) (pt : Nat × Nat) (set : Bytes),
    (s.job j).rounds.any (fun x => x.phase == .gate) = false ∧
    abortRuns s j = false ∧
    startable s (vfOf j) 0x13 = some d ∧
    takeDesc s (vfOf j) d = t ∧
    t.alive j = true ∧
    fetchBuf t j.val (leAt d.bytes 24 8) (leAt d.bytes 32 8) host = .ok b ∧
    t.conf j = true ∧
    b.length = 144 + leAt b 8 8 ∧
    takeSlot t (t.job j).importSlot j 2 1 = (.ok, u) ∧
    wrapPoint b = some pt ∧
    unwrapSet (fget (tollDone u (some j) 1 1) LND_JOB_TAG.TAG j 0) (slotNumber (tollDone u (some j) 1 1) (t.job j).importSlot) b pt = some set :=
  ⟨sealedHeldSt, 0, some wrapped, heldD 146, takeDesc sealedHeldSt (vfOf 0) (heldD 146), wrapped, (takeSlot (takeDesc sealedHeldSt (vfOf 0) (heldD 146)) ((takeDesc sealedHeldSt (vfOf 0) (heldD 146)).job 0).importSlot 0 2 1).2, Option.get (wrapPoint wrapped) (by decide +kernel), [1, 2], by decide +kernel, by decide +kernel, by decide +kernel, rfl, by decide +kernel, by decide +kernel, by decide +kernel, by decide +kernel, pairFst (by decide +kernel), (Option.some_get _).symm, by decide +kernel⟩

theorem wit_RingsAndLogsAnswerTheHost_1 : ∃ (s : State) (f : Func) (v : BitVec 32),
    fget s HIF_VF_SQ_CFG.ENABLE f 0 ≠ 0 ∧
    v.toNat % 65536 < sqSize s f :=
  ⟨ringSt [], vfOf 0, 3, by decide +kernel⟩

theorem wit_RingsAndLogsAnswerTheHost_2 : ∃ (s : State) (f : Func) (v : BitVec 32),
    fget s HIF_VF_SQ_CFG.ENABLE f 0 ≠ 0 ∧
    sqSize s f ≤ v.toNat % 65536 :=
  ⟨ringSt [], vfOf 0, 16, by decide +kernel⟩

theorem wit_RingsAndLogsAnswerTheHost_3 : ∃ (s : State) (f : Func) (v : BitVec 32),
    fget s HIF_VF_CQ_CFG.ENABLE f 0 ≠ 0 ∧
    v.toNat % 65536 < cqSize s f ∧
    (v.toNat % 65536 + cqSize s f - fget s HIF_VF_CQ_HEAD.HEAD f 0) % cqSize s f ≤ cqUsed s f :=
  ⟨cqSt, vfOf 0, 1, by decide +kernel⟩

theorem wit_RingsAndLogsAnswerTheHost_4 : ∃ (s : State) (f : Func) (v : BitVec 32),
    fget s HIF_VF_CQ_CFG.ENABLE f 0 ≠ 0 ∧
    (cqSize s f ≤ v.toNat % 65536 ∨ cqUsed s f < (v.toNat % 65536 + cqSize s f - fget s HIF_VF_CQ_HEAD.HEAD f 0) % cqSize s f) :=
  ⟨ringSt [], vfOf 0, 2, by decide +kernel⟩

theorem wit_RingsAndLogsAnswerTheHost_5 : ∃ (s : State) (f : Func) (v : BitVec 32),
    ((jobOf f).any (fun j => s.conf j) && bits v.toNat 17 16 == 1) = false ∧
    bit v.toNat 31 = true ∧
    fget s HIF_VF_SQ_CFG.ENABLE f 0 = 0 ∧
    mayEnable (storeSqCfg s f v.toNat) f = true :=
  ⟨offSt, vfOf 0, 0x80020004, by decide +kernel⟩

theorem wit_RingsAndLogsAnswerTheHost_6 : ∃ (s : State) (f : Func) (v : BitVec 32),
    bit v.toNat 31 = false :=
  ⟨ringSt [], vfOf 0, 0, by decide +kernel⟩

theorem wit_RingsAndLogsAnswerTheHost_7 : ∃ (s : State) (f : Func) (v : BitVec 32),
    bit v.toNat 31 = true ∧
    fget s HIF_VF_CQ_CFG.ENABLE f 0 = 0 ∧
    mayEnable (storeField f 0 v.toNat s HIF_VF_CQ_CFG.LOG2_SIZE) f = true :=
  ⟨offSt, vfOf 0, 0x80000004, by decide +kernel⟩

theorem wit_RingsAndLogsAnswerTheHost_8 : ∃ (s : State) (f : Func) (v : BitVec 32),
    bit v.toNat 31 = false :=
  ⟨ringSt [], vfOf 0, 0, by decide +kernel⟩

theorem wit_RingsAndLogsAnswerTheHost_9 : ∃ (s : State) (j : JobId) (r : Nat × Nat × Nat × Bytes) (rs : List (Nat × Nat × Nat × Bytes)),
    (s.ring (vfOf j)).results = r :: rs :=
  ⟨resultSt [(1, 4, 0, [])] none, 0, (1, 4, 0, []), [], by decide +kernel⟩

theorem wit_RingsAndLogsAnswerTheHost_10 : ∃ (s : State) (j : JobId) (r : Nat × Nat × Nat × Bytes),
    (s.ring (vfOf j)).results = [] ∧
    (s.ring (vfOf j)).taken = some r :=
  ⟨resultSt [] (some (1, 4, 0, [])), 0, (1, 4, 0, []), by decide +kernel⟩

theorem wit_RingsAndLogsAnswerTheHost_11 : ∃ (s : State) (j : JobId),
    (s.ring (vfOf j)).results = [] ∧
    (s.ring (vfOf j)).taken = none :=
  ⟨resultSt [] none, 0, by decide +kernel⟩

theorem wit_RingsAndLogsAnswerTheHost_12 : ∃ (s : State) (f : Func) (w : Nat) (ws : List Nat),
    s.log f = w :: ws :=
  ⟨(ringSt []).setLog (vfOf 0) [5, 6], vfOf 0, 5, [6], by decide +kernel⟩

theorem wit_RingsAndLogsAnswerTheHost_13 : ∃ (s : State) (f : Func),
    s.log f = [] :=
  ⟨ringSt [], vfOf 0, by decide +kernel⟩

theorem wit_RingsAndLogsAnswerTheHost_14 : ∃ (s : State) (f : Func) (v : BitVec 32),
    bit v.toNat 1 = false ∧
    bit v.toNat 0 = true :=
  ⟨ringSt [], vfOf 0, 1, by decide +kernel⟩

theorem wit_RingsAndLogsAnswerTheHost_15 : ∃ (s : State) (f : Func) (v : BitVec 32),
    bit v.toNat 1 = true :=
  ⟨ringSt [], vfOf 0, 2, by decide +kernel⟩

theorem wit_FerryCarriesBlocksAndHail_1 : ∃ (s : State) (e : FerryEnd) (v : Word),
    bit v.toNat 8 = false ∧
    v.toNat % 128 ≠ 0 ∧
    v.toNat % 128 ≤ 64 ∧
    (s.chan (txChan e)).block.isSome = false :=
  ⟨ringSt [], 0, 8, by decide +kernel⟩

theorem wit_FerryCarriesBlocksAndHail_2 : ∃ (s : State) (e : FerryEnd) (v : Word),
    bit v.toNat 8 = false ∧
    v.toNat % 128 ≠ 0 ∧
    v.toNat % 128 ≤ 64 ∧
    (s.chan (txChan e)).block.isSome = true :=
  ⟨heldChanSt, 0, 8, by decide +kernel⟩

theorem wit_FerryCarriesBlocksAndHail_3 : ∃ (s : State) (e : FerryEnd) (v : Word),
    bit v.toNat 8 = true :=
  ⟨ringSt [], 0, 0x500000100, by decide +kernel⟩

theorem wit_FerryCarriesBlocksAndHail_4 : ∃ (s : State) (e : FerryEnd) (v : BitVec 32),
    bit v.toNat 0 = true ∧
    (s.chan (rxChan e)).block.isNone = false ∧
    ((s.modChan (rxChan e) (fun c => { c with block := none })).chan (rxChan e)).waiting = [] :=
  ⟨takeSt [], 0, 1, by decide +kernel⟩

theorem wit_FerryCarriesBlocksAndHail_5 : ∃ (s : State) (e : FerryEnd) (v : BitVec 32) (b : Bytes) (bs : List Bytes),
    bit v.toNat 0 = true ∧
    (s.chan (rxChan e)).block.isNone = false ∧
    ((s.modChan (rxChan e) (fun c => { c with block := none })).chan (rxChan e)).waiting = b :: bs :=
  ⟨takeSt [[7]], 0, 1, [7], [], by decide +kernel⟩

theorem wit_FerryCarriesBlocksAndHail_7 : ∃ (s : State) (e : FerryEnd) (v : BitVec 32),
    bit v.toNat 0 = true :=
  ⟨ringSt [], 0, 1, by decide +kernel⟩

theorem wit_FerryCarriesBlocksAndHail_8 : ∃ (s : State) (f : Func),
    booted s = true ∧
    s.hailDue.contains f.val = true :=
  ⟨dueHail (ringSt []) (vfOf 0), vfOf 0, by decide +kernel⟩

theorem wit_FerryCarriesBlocksAndHail_9 : ∃ (s : State) (f : Func) (b : Bytes) (w : Nat),
    (s.chan (txChan (hailEnd f))).block = some (b, w) ∧
    booted s = true ∧
    isAck b = true ∧
    (lookup s.hailSession f.val = some (leAt b 4 4) ∧ leAt b 1 1 = 4) :=
  ⟨ackSt 3, vfOf 0, hailMsg 2 3 0 0, 16, by decide +kernel⟩

theorem wit_FerryCarriesBlocksAndHail_10 : ∃ (s : State) (f : Func) (b : Bytes) (w : Nat),
    (s.chan (txChan (hailEnd f))).block = some (b, w) ∧
    booted s = true ∧
    isAck b = true ∧
    (¬ (lookup s.hailSession f.val = some (leAt b 4 4) ∧ leAt b 1 1 = 4)) :=
  ⟨ackSt 4, vfOf 0, hailMsg 2 4 0 0, 16, by decide +kernel⟩

theorem wit_FerryCarriesBlocksAndHail_11 : ∃ (s : State) (ch : Fin 64) (b : Bytes) (w : Nat),
    booted s = true ∧
    coreReceives ch = true ∧
    (s.chan ch).block = some (b, w) ∧
    isAck b = false :=
  ⟨heldChanSt, 0, [9], 16, by decide +kernel⟩

theorem wit_FerryCarriesBlocksAndHail_12 : ∃ (s : State),
    booted s = true :=
  ⟨ringSt [], by decide +kernel⟩

theorem wit_TheLinkAndItsResets_1 : ∃ (s : State) (lanes : Nat),
    8 ≤ lanes :=
  ⟨ringSt [], 16, by decide +kernel⟩

theorem wit_TheLinkAndItsResets_2 : ∃ (s : State) (lanes : Nat),
    lanes < 8 :=
  ⟨ringSt [], 7, by decide +kernel⟩

theorem wit_TheLinkAndItsResets_3 : ∃ (s : State) (a : Nat),
    inSomeRegion s a = true :=
  ⟨hdmSt, 64, by decide +kernel⟩

theorem wit_TheLinkAndItsResets_4 : ∃ (s : State) (a : Nat) (d : Bytes),
    inSomeRegion s a = true :=
  ⟨hdmSt, 64, [1], by decide +kernel⟩

theorem wit_TheLinkAndItsResets_5 : ∃ (s : State) (a : Nat),
    inSomeRegion s a = false :=
  ⟨ringSt [], 64, by decide +kernel⟩

theorem wit_TheLinkAndItsResets_6 : ∃ (s : State) (a : Nat) (d : Bytes),
    inSomeRegion s a = false :=
  ⟨ringSt [], 64, [1], by decide +kernel⟩

theorem wit_TheLinkAndItsResets_7 : ∃ (s : State),
    s.ideOn = true :=
  ⟨{ ringSt [] with ideOn := true }, by decide +kernel⟩

theorem wit_TheLinkAndItsResets_8 : ∃ (s : State) (k : JobId),
    s.tspLocked.contains k.val = true :=
  ⟨{ ringSt [] with tspLocked := [0] }, 0, by decide +kernel⟩

theorem wit_RequestersAndTheirQueuePairs_1 : ∃ (s : State) (q : Qpn) (w : WorkReq),
    qpState s q = 3 ∧
    fget s RDMA_QP_CFG.TYPE q 0 = 0 ∧
    classSends (fget s RDMA_QP_CFG.CLASS q 0) w.kind = true ∧
    w.waitOn = none ∧
    (w.kind == .writeImm && checksPending s (qpJob s q)) = false :=
  ⟨rdmaReqSt, 5, ⟨.write, [1], 64, 0, 0, none⟩, by decide +kernel⟩

theorem wit_RequestersAndTheirQueuePairs_2 : ∃ (s : State) (q : Qpn) (w : WorkReq) (o : Qpn) (x : BitVec 32),
    qpState s q = 3 ∧
    fget s RDMA_QP_CFG.TYPE q 0 = 0 ∧
    classSends (fget s RDMA_QP_CFG.CLASS q 0) w.kind = true ∧
    w.waitOn = some (o, x) ∧
    qpJob s o.val = qpJob s q ∧
    o ≠ q ∧
    (w.kind == .writeImm && checksPending s (qpJob s q)) = false :=
  ⟨rdmaReqSt, 5, ⟨.flush, [], 64, 0, 0, some (6, 1)⟩, 6, 1, by decide +kernel⟩

theorem wit_RequestersAndTheirQueuePairs_3 : ∃ (s t : State) (q : Qpn) (w : WorkReq) (n : Nat),
    nextCheckSeq s (qpJob s q) = (n, t) :=
  ⟨rdmaReqSt, (nextCheckSeq rdmaReqSt (qpJob rdmaReqSt 5)).2, 5, ⟨.send, [1], 64, 0, 0, none⟩, (nextCheckSeq rdmaReqSt (qpJob rdmaReqSt 5)).1, rfl⟩

theorem wit_RequestersAndTheirQueuePairs_4 : ∃ (s : State) (q : Qpn) (psn : BitVec 24),
    qpState s q = 3 :=
  ⟨rdmaReqSt, 5, 0, by decide +kernel⟩

theorem wit_RequestersAndTheirQueuePairs_5 : ∃ (s : State) (q : Qpn),
    qpState s q = 3 ∧
    (s.qp q).sent.any (fun e => e.2.2 == 1) = true ∧
    (s.qp q).lastSend + retransmitNs s q ≤ s.now ∧
    (s.qp q).retries < fget s RDMA_QP_CFG.RETRY q 0 :=
  ⟨sentSt 3, 5, by decide +kernel⟩

theorem wit_RequestersAndTheirQueuePairs_6 : ∃ (s : State) (q : Qpn),
    qpState s q = 3 ∧
    (s.qp q).sent.any (fun e => e.2.2 == 1) = true ∧
    (s.qp q).lastSend + retransmitNs s q ≤ s.now ∧
    fget s RDMA_QP_CFG.RETRY q 0 ≤ (s.qp q).retries :=
  ⟨sentSt 0, 5, by decide +kernel⟩

theorem wit_RequestersAndTheirQueuePairs_7 : ∃ (s : State) (v : Word) (q : Nat),
    get1 s RDMA_QP_SEL.QPN = q ∧
    2 ≤ q ∧
    qpState s q ≠ 0 ∧
    RDMA_QP_CFG.STATE.of v.toNat = qpState s q + 1 ∧
    qpState s q + 1 ≤ 3 :=
  ⟨qpSt 2, BitVec.ofNat 64 (3 * 2 ^ 61), 5, by decide +kernel⟩

theorem wit_RequestersAndTheirQueuePairs_8 : ∃ (s : State) (v : Word) (q : Nat),
    get1 s RDMA_QP_SEL.QPN = q ∧
    2 ≤ q ∧
    qpState s q ≠ 0 ∧
    qpState s q ≠ 4 ∧
    RDMA_QP_CFG.STATE.of v.toNat = 4 :=
  ⟨qpSt 2, BitVec.ofNat 64 (4 * 2 ^ 61), 5, by decide +kernel⟩

theorem wit_RequestersAndTheirQueuePairs_9 : ∃ (s : State) (v : Word) (q : Nat),
    get1 s RDMA_QP_SEL.QPN = q ∧
    2 ≤ q ∧
    qpState s q ≠ 0 ∧
    (qpState s q == 4 && ((s.job (qpJob s q)).aborting.isSome || (s.job (qpJob s q)).aborted)) = false ∧
    RDMA_QP_CFG.STATE.of v.toNat = 0 :=
  ⟨qpSt 2, 0, 5, by decide +kernel⟩

theorem wit_RequestersAndTheirQueuePairs_10 : ∃ (s : State) (v : Word) (q : Nat),
    get1 s RDMA_QP_SEL.QPN = q ∧
    2 ≤ q ∧
    qpState s q = 0 ∧
    (classLeft s q v.toNat = 0 ∨ RDMA_QP_CFG.TYPE.of v.toNat ≠ 1) :=
  ⟨qpSt 0, BitVec.ofNat 64 (2 ^ 61 + 2 ^ 60), 5, by decide +kernel⟩

theorem wit_RequestersAndTheirQueuePairs_11 : ∃ (s : State) (q : Qpn),
    s.missQueue.contains q.val = true ∧
    (residentQps s).length < 65536 :=
  ⟨{ rdmaReqSt with missQueue := [5] }, 5, by decide +kernel⟩

theorem wit_RequestersAndTheirQueuePairs_12 : ∃ (s : State) (q : Qpn) (o : Nat),
    s.missQueue.contains q.val = true ∧
    65536 ≤ (residentQps s).length ∧
    s.qpUse.find? (evictable s) = some o :=
  ⟨fullSt, 5, 7, by decide +kernel, full_length, full_victim⟩

theorem wit_SealedQueuePairsAreKeyed_1 : ∃ (s : State) (v : BitVec 32) (q : Nat) (t : State) (d : Nat) (u : State),
    get1 s RDMA_QP_SEL.QPN = q ∧
    2 ≤ q ∧
    RDMA_SQP_CTRL.GEN_KEY.of v.toNat = 1 ∧
    RDMA_SQP_CTRL.APPLY.of v.toNat = 0 ∧
    fset s RDMA_SQP_CTRL.ROLE q 0 (RDMA_SQP_CTRL.ROLE.of v.toNat) = t ∧
    qpSealed t q = true ∧
    entropyReady t = true ∧
    drawScalar (served t 1) = (d, u) :=
  ⟨sqpSt, 1, 5, fset sqpSt RDMA_SQP_CTRL.ROLE 5 0 0, (drawScalar (served (fset sqpSt RDMA_SQP_CTRL.ROLE 5 0 0) 1)).1, (drawScalar (served (fset sqpSt RDMA_SQP_CTRL.ROLE 5 0 0) 1)).2, by decide +kernel, by decide +kernel, by decide +kernel, by decide +kernel, rfl, by decide +kernel, by decide +kernel, rfl⟩

theorem wit_SealedQueuePairsAreKeyed_2 : ∃ (s : State) (v : BitVec 32) (q : Nat) (t : State),
    get1 s RDMA_QP_SEL.QPN = q ∧
    2 ≤ q ∧
    RDMA_SQP_CTRL.GEN_KEY.of v.toNat = 1 ∧
    RDMA_SQP_CTRL.APPLY.of v.toNat = 0 ∧
    fset s RDMA_SQP_CTRL.ROLE q 0 (RDMA_SQP_CTRL.ROLE.of v.toNat) = t ∧
    qpSealed t q = true ∧
    entropyReady t = false ∧
    entropyStarting t = true :=
  ⟨set1 sqpSt ENT_STATUS.STATE 0, 1, 5, fset (set1 sqpSt ENT_STATUS.STATE 0) RDMA_SQP_CTRL.ROLE 5 0 0, by decide +kernel, by decide +kernel, by decide +kernel, by decide +kernel, rfl, by decide +kernel⟩

theorem wit_SealedQueuePairsAreKeyed_3 : ∃ (s : State) (v : BitVec 32) (q : Nat) (t : State),
    get1 s RDMA_QP_SEL.QPN = q ∧
    2 ≤ q ∧
    RDMA_SQP_CTRL.GEN_KEY.of v.toNat = 1 ∧
    RDMA_SQP_CTRL.APPLY.of v.toNat = 0 ∧
    fset s RDMA_SQP_CTRL.ROLE q 0 (RDMA_SQP_CTRL.ROLE.of v.toNat) = t ∧
    qpSealed t q = true ∧
    entropyReady t = false ∧
    entropyStarting t = false :=
  ⟨set1 sqpSt ENT_STATUS.STATE 2, 1, 5, fset (set1 sqpSt ENT_STATUS.STATE 2) RDMA_SQP_CTRL.ROLE 5 0 0, by decide +kernel, by decide +kernel, by decide +kernel, by decide +kernel, rfl, by decide +kernel⟩

theorem wit_SealedQueuePairsAreKeyed_4 : ∃ (s : State) (v : BitVec 32) (q : Nat) (t : State) (d : Nat) (pt : Nat × Nat),
    get1 s RDMA_QP_SEL.QPN = q ∧
    2 ≤ q ∧
    RDMA_SQP_CTRL.GEN_KEY.of v.toNat = 0 ∧
    RDMA_SQP_CTRL.APPLY.of v.toNat = 1 ∧
    fset s RDMA_SQP_CTRL.ROLE q 0 (RDMA_SQP_CTRL.ROLE.of v.toNat) = t ∧
    (t.qp q).priv = some d ∧
    fget t RDMA_SQP_CTRL.STATE q 0 = 1 ∧
    t.conf (qpJob t q) = false ∧
    decodePt (peerPoint t q) = some pt :=
  ⟨applySt [], 4, 5, fset (applySt []) RDMA_SQP_CTRL.ROLE 5 0 0, 1, Option.get (decodePt pG) (by decide +kernel), by decide +kernel, by decide +kernel, by decide +kernel, by decide +kernel, rfl, by decide +kernel, by decide +kernel, by decide +kernel, by rw [show peerPoint (fset (applySt []) RDMA_SQP_CTRL.ROLE 5 0 0) 5 = pG from by decide +kernel]; exact (Option.some_get _).symm⟩

theorem wit_SealedQueuePairsAreKeyed_5 : ∃ (s : State) (v : BitVec 32) (q : Nat) (t : State) (d : Nat) (pt : Nat × Nat),
    get1 s RDMA_QP_SEL.QPN = q ∧
    2 ≤ q ∧
    RDMA_SQP_CTRL.GEN_KEY.of v.toNat = 0 ∧
    RDMA_SQP_CTRL.APPLY.of v.toNat = 1 ∧
    fset s RDMA_SQP_CTRL.ROLE q 0 (RDMA_SQP_CTRL.ROLE.of v.toNat) = t ∧
    (t.qp q).priv = some d ∧
    fget t RDMA_SQP_CTRL.STATE q 0 = 1 ∧
    t.conf (qpJob t q) = true ∧
    vouched t q = true ∧
    decodePt (peerPoint t q) = some pt :=
  ⟨vouchSt 5, 4, 5, fset (vouchSt 5) RDMA_SQP_CTRL.ROLE 5 0 0, 1, Option.get (decodePt pG) (by decide +kernel), by decide +kernel, by decide +kernel, by decide +kernel, by decide +kernel, rfl, by decide +kernel, by decide +kernel, by decide +kernel, by decide +kernel, by rw [show peerPoint (fset (vouchSt 5) RDMA_SQP_CTRL.ROLE 5 0 0) 5 = pG from by decide +kernel]; exact (Option.some_get _).symm⟩

theorem wit_SealedQueuePairsAreKeyed_6 : ∃ (s : State) (v : BitVec 32) (q : Nat) (t : State) (d : Nat),
    get1 s RDMA_QP_SEL.QPN = q ∧
    2 ≤ q ∧
    RDMA_SQP_CTRL.GEN_KEY.of v.toNat = 0 ∧
    RDMA_SQP_CTRL.APPLY.of v.toNat = 1 ∧
    fset s RDMA_SQP_CTRL.ROLE q 0 (RDMA_SQP_CTRL.ROLE.of v.toNat) = t ∧
    (t.qp q).priv = some d ∧
    fget t RDMA_SQP_CTRL.STATE q 0 = 1 ∧
    t.conf (qpJob t q) = true ∧
    vouched t q = false :=
  ⟨vouchSt 6, 4, 5, fset (vouchSt 6) RDMA_SQP_CTRL.ROLE 5 0 0, 1, by decide +kernel, by decide +kernel, by decide +kernel, by decide +kernel, rfl, by decide +kernel⟩

theorem wit_SealedQueuePairsAreKeyed_7 : ∃ (s : State) (v : BitVec 32) (q : Nat) (t : State) (d : Nat),
    get1 s RDMA_QP_SEL.QPN = q ∧
    2 ≤ q ∧
    RDMA_SQP_CTRL.GEN_KEY.of v.toNat = 0 ∧
    RDMA_SQP_CTRL.APPLY.of v.toNat = 1 ∧
    fset s RDMA_SQP_CTRL.ROLE q 0 (RDMA_SQP_CTRL.ROLE.of v.toNat) = t ∧
    (t.qp q).priv = some d ∧
    fget t RDMA_SQP_CTRL.STATE q 0 = 1 ∧
    t.conf (qpJob t q) = false ∧
    decodePt (peerPoint t q) = none :=
  ⟨applySt [(RDMA_SQP_PEER.POINT, 5, 0, 0)], 4, 5, fset (applySt [(RDMA_SQP_PEER.POINT, 5, 0, 0)]) RDMA_SQP_CTRL.ROLE 5 0 0, 1, by decide +kernel, by decide +kernel, by decide +kernel, by decide +kernel, rfl, by decide +kernel⟩

theorem wit_RegionsAreRegisteredAndRevoked_1 : ∃ (s : State) (v : Word) (j : JobId) (g : Nat) (t : State),
    Fin.ofNat 16 (get1 s RDMA_JOB_SEL.JOB) = j ∧
    get1 s RDMA_REG_SEL.REGION = g ∧
    fget s RDMA_REG_CFG.STATE j g = 0 ∧
    RDMA_REG_CFG.REGISTER.of v.toNat = 1 ∧
    [RDMA_REG_CFG.KIND, RDMA_REG_CFG.RIGHTS, RDMA_REG_CFG.GROUP, RDMA_REG_CFG.MEMBER, RDMA_REG_CFG.BIND_EN, RDMA_REG_CFG.BIND_QP].foldl (fun (u : State) (f : Fld) => fset u f j g (f.of v.toNat)) s = t ∧
    regionOk t j g = true :=
  ⟨regSt 0, regV, 0, 1, [RDMA_REG_CFG.KIND, RDMA_REG_CFG.RIGHTS, RDMA_REG_CFG.GROUP, RDMA_REG_CFG.MEMBER, RDMA_REG_CFG.BIND_EN, RDMA_REG_CFG.BIND_QP].foldl (fun (u : State) (f : Fld) => fset u f 0 1 (f.of regV.toNat)) (regSt 0), by decide +kernel, by decide +kernel, by decide +kernel, by decide +kernel, rfl, by decide +kernel⟩

theorem wit_RegionsAreRegisteredAndRevoked_2 : ∃ (s : State) (v : Word) (j : JobId) (g : Nat) (t : State),
    Fin.ofNat 16 (get1 s RDMA_JOB_SEL.JOB) = j ∧
    get1 s RDMA_REG_SEL.REGION = g ∧
    fget s RDMA_REG_CFG.STATE j g = 0 ∧
    RDMA_REG_CFG.REGISTER.of v.toNat = 1 ∧
    [RDMA_REG_CFG.KIND, RDMA_REG_CFG.RIGHTS, RDMA_REG_CFG.GROUP, RDMA_REG_CFG.MEMBER, RDMA_REG_CFG.BIND_EN, RDMA_REG_CFG.BIND_QP].foldl (fun (u : State) (f : Fld) => fset u f j g (f.of v.toNat)) s = t ∧
    regionOk t j g = false :=
  ⟨fset (regSt 0) RDMA_REG_LEN.LEN 0 1 0, regV, 0, 1, [RDMA_REG_CFG.KIND, RDMA_REG_CFG.RIGHTS, RDMA_REG_CFG.GROUP, RDMA_REG_CFG.MEMBER, RDMA_REG_CFG.BIND_EN, RDMA_REG_CFG.BIND_QP].foldl (fun (u : State) (f : Fld) => fset u f 0 1 (f.of regV.toNat)) (fset (regSt 0) RDMA_REG_LEN.LEN 0 1 0), by decide +kernel, by decide +kernel, by decide +kernel, by decide +kernel, rfl, by decide +kernel⟩

theorem wit_RegionsAreRegisteredAndRevoked_3 : ∃ (s : State) (v : Word) (j : JobId) (g : Nat),
    Fin.ofNat 16 (get1 s RDMA_JOB_SEL.JOB) = j ∧
    get1 s RDMA_REG_SEL.REGION = g ∧
    fget s RDMA_REG_CFG.STATE j g = 1 ∧
    RDMA_REG_CFG.RIGHTS.of v.toNat = fget s RDMA_REG_CFG.RIGHTS j g ∧
    RDMA_REG_CFG.REVOKE.of v.toNat = 1 :=
  ⟨regSt 1, BitVec.ofNat 64 (2 ^ 61 + 15 * 2 ^ 54), 0, 1, by decide +kernel⟩

theorem wit_RegionsAreRegisteredAndRevoked_4 : ∃ (s : State) (v : Word) (j : JobId) (g : Nat),
    Fin.ofNat 16 (get1 s RDMA_JOB_SEL.JOB) = j ∧
    get1 s RDMA_REG_SEL.REGION = g ∧
    fget s RDMA_REG_CFG.STATE j g = 1 ∧
    RDMA_REG_CFG.RIGHTS.of v.toNat ≠ fget s RDMA_REG_CFG.RIGHTS j g ∧
    RDMA_REG_CFG.RIGHTS.of v.toNat &&& fget s RDMA_REG_CFG.RIGHTS j g = RDMA_REG_CFG.RIGHTS.of v.toNat ∧
    RDMA_REG_CFG.REVOKE.of v.toNat = 0 :=
  ⟨regSt 1, BitVec.ofNat 64 (3 * 2 ^ 54), 0, 1, by decide +kernel⟩

theorem wit_RegionsAreRegisteredAndRevoked_5 : ∃ (s : State) (v : Word) (j : JobId) (g : Nat),
    Fin.ofNat 16 (get1 s RDMA_JOB_SEL.JOB) = j ∧
    get1 s RDMA_REG_SEL.REGION = g ∧
    fget s RDMA_REG_CFG.STATE j g = 1 ∧
    RDMA_REG_CFG.RIGHTS.of v.toNat &&& fget s RDMA_REG_CFG.RIGHTS j g ≠ RDMA_REG_CFG.RIGHTS.of v.toNat ∧
    RDMA_REG_CFG.REVOKE.of v.toNat = 0 :=
  ⟨fset (regSt 1) RDMA_REG_CFG.RIGHTS 0 1 1, BitVec.ofNat 64 (3 * 2 ^ 54), 0, 1, by decide +kernel⟩

theorem wit_RegionsAreRegisteredAndRevoked_6 : ∃ (s : State) (j : JobId) (g : Fin 4096),
    revocations s j g ≠ [] ∧
    unfinished s j g = [] :=
  ⟨revokingSt [], 0, 1, by decide +kernel⟩

theorem wit_RegionsAreRegisteredAndRevoked_7 : ∃ (s : State) (j : JobId) (g : Fin 4096),
    (revocations s j g).any (fun v => decide (v.2.2.1 + 1000 * get1 s RDMA_REVOKE.WAIT_US ≤ s.now)) = true ∧
    unfinished s j g ≠ [] :=
  ⟨revokingSt [⟨5, 0, 1, 0, 64, false⟩], 0, 1, by decide +kernel⟩

theorem wit_TimeIsKept_1 : ∃ (s : State) (p : Port) (a : Announce),
    ptpPort s p = true ∧
    a.domain.toNat = get1 s TIDE_CTRL.DOMAIN ∧
    (s.best = none ∨ announceGone s = true ∨ (∃ o, s.best = some o ∧ (o.1 == p.val && o.2.identity == a.identity || better p a o) = true)) :=
  ⟨tideSt, 0, announce0, by decide +kernel, by decide +kernel, Or.inl (by decide +kernel)⟩

theorem wit_TimeIsKept_2 : ∃ (s : State) (p : Port) (a : Announce) (o : Nat × Announce),
    s.best = some o ∧
    announceGone s = false ∧
    (o.1 == p.val && o.2.identity == a.identity || better p a o) = false :=
  ⟨bestSt, 1, { announce0 with priority1 := 9 }, (0, announce0), by decide +kernel, not_gone, by decide +kernel⟩

theorem wit_TimeIsKept_3 : ∃ (s : State) (p : Port) (m : SyncPair),
    syncAccepted s p m = true :=
  ⟨bestSt, 0, sync0, by decide +kernel⟩

theorem wit_TimeIsKept_4 : ∃ (s : State) (o : Int),
    (get1 s TIDE_STATUS.STATE = 0 ∨ o < -1000000) :=
  ⟨tideSt, 5, by decide +kernel⟩

theorem wit_TimeIsKept_5 : ∃ (s : State) (o : Int),
    get1 s TIDE_STATUS.STATE ≠ 0 ∧
    -1000000 ≤ o :=
  ⟨set1 tideSt TIDE_STATUS.STATE 1, 5, by decide +kernel⟩

theorem wit_TimeIsKept_6 : ∃ (s : State),
    (get1 s TIDE_STATUS.STATE = 1 ∨ get1 s TIDE_STATUS.STATE = 2) ∧
    (s.lastSync + 2 * 10 ^ 9 ≤ s.now ∨ announceGone s = true) :=
  ⟨{ set1 tideSt TIDE_STATUS.STATE 1 with now := 10 ^ 10 }, Or.inl (by decide +kernel), Or.inl (by decide +kernel)⟩

theorem wit_TimeIsKept_7 : ∃ (s : State),
    get1 s TIDE_STATUS.STATE = 3 ∧
    1000 * get1 s TIDE_HOLD.LIMIT_US ≤ estimate s :=
  ⟨set1 (set1 tideSt TIDE_STATUS.STATE 3) TIDE_HOLD.LIMIT_US 0, by decide +kernel⟩

theorem wit_TimeIsKept_8 : ∃ (s : State) (e : Int),
    on s TIDE_CTRL.PPS_EN = true ∧
    e.natAbs ≤ 1000 :=
  ⟨tideSt, -1000, by decide +kernel⟩

theorem wit_TimeIsKept_9 : ∃ (s : State) (e : Int),
    on s TIDE_CTRL.PPS_EN = true ∧
    1000 < e.natAbs :=
  ⟨tideSt, 1001, by decide +kernel⟩

theorem wit_EventEntriesFire_1 : ∃ (s : State) (e : Fin 4096),
    512 ≤ e.val ∧
    entryDue s e = true ∧
    heldEntry s e = false :=
  ⟨eventSt 600 1, 600, by decide +kernel⟩

theorem wit_EventEntriesFire_2 : ∃ (s : State) (e : Fin 4096),
    512 ≤ e.val ∧
    entryDue s e = true ∧
    heldEntry s e = true :=
  ⟨eventSt 600 4, 600, by decide +kernel⟩

theorem wit_EventEntriesFire_3 : ∃ (s : State) (e : Fin 4096),
    256 ≤ e.val ∧
    e.val < 352 ∧
    entryDue s e = true :=
  ⟨eventSt 300 1, 300, by decide +kernel⟩

theorem wit_EventEntriesFire_4 : ∃ (s : State) (v : Word) (e : Nat) (t : State) (x : Round),
    get1 s TIDE_EVT_SEL.EVENT = e ∧
    512 ≤ e ∧
    TIDE_EVT_CFG.VALID.of v.toNat = 1 ∧
    [TIDE_EVT_CFG.DOUBTFUL_OK, TIDE_EVT_CFG.JOB, TIDE_EVT_CFG.PHASE].foldl (fun (t : State) (f : Fld) => fset t f e 0 (f.of v.toNat)) s = t ∧
    fget t TIDE_EVT_ROUND.ROUND e 0 = 0 ∧
    newestOffered t (Fin.ofNat 16 (fget t TIDE_EVT_CFG.JOB e 0)) = some x ∧
    t.now ≤ pOfferTime x.plan + fget t TIDE_EVT_CFG.PHASE e 0 * phaseUnit :=
  ⟨armSt 0, BitVec.ofNat 64 (2 ^ TIDE_EVT_CFG.VALID.lo), 512, [TIDE_EVT_CFG.DOUBTFUL_OK, TIDE_EVT_CFG.JOB, TIDE_EVT_CFG.PHASE].foldl (fun (t : State) (f : Fld) => fset t f 512 0 (f.of (BitVec.ofNat 64 (2 ^ TIDE_EVT_CFG.VALID.lo) : Word).toNat)) (armSt 0), armRd, by decide +kernel, by decide +kernel, by decide +kernel, rfl, by decide +kernel⟩

theorem wit_EventEntriesFire_5 : ∃ (s : State) (v : Word) (e : Nat) (t u : State) (x : Round),
    get1 s TIDE_EVT_SEL.EVENT = e ∧
    512 ≤ e ∧
    TIDE_EVT_CFG.VALID.of v.toNat = 1 ∧
    [TIDE_EVT_CFG.DOUBTFUL_OK, TIDE_EVT_CFG.JOB, TIDE_EVT_CFG.PHASE].foldl (fun (t : State) (f : Fld) => fset t f e 0 (f.of v.toNat)) s = t ∧
    fget t TIDE_EVT_ROUND.ROUND e 0 = 0 ∧
    newestOffered t (Fin.ofNat 16 (fget t TIDE_EVT_CFG.JOB e 0)) = some x ∧
    pOfferTime x.plan + fget t TIDE_EVT_CFG.PHASE e 0 * phaseUnit < t.now ∧
    arm t e ⟨fget t TIDE_EVT_CFG.JOB e 0 % 16, 0, some x.number, fget t TIDE_EVT_CFG.PHASE e 0, some (pOfferTime x.plan + fget t TIDE_EVT_CFG.PHASE e 0 * phaseUnit)⟩ = u :=
  ⟨armSt 1000, BitVec.ofNat 64 (2 ^ TIDE_EVT_CFG.VALID.lo), 512, armT, armU, armRd, by decide +kernel, by decide +kernel, by decide +kernel, rfl, by decide +kernel, by decide +kernel, by decide +kernel, rfl⟩

theorem wit_EventEntriesFire_6 : ∃ (s : State) (v : Word) (e : Nat) (t : State),
    get1 s TIDE_EVT_SEL.EVENT = e ∧
    512 ≤ e ∧
    TIDE_EVT_CFG.VALID.of v.toNat = 0 ∧
    [TIDE_EVT_CFG.DOUBTFUL_OK, TIDE_EVT_CFG.JOB, TIDE_EVT_CFG.PHASE].foldl (fun (t : State) (f : Fld) => fset t f e 0 (f.of v.toNat)) s = t :=
  ⟨armSt 0, 0, 512, [TIDE_EVT_CFG.DOUBTFUL_OK, TIDE_EVT_CFG.JOB, TIDE_EVT_CFG.PHASE].foldl (fun (t : State) (f : Fld) => fset t f 512 0 (f.of (0 : Word).toNat)) (armSt 0), by decide +kernel, by decide +kernel, by decide +kernel, rfl⟩

theorem wit_EventEntriesFire_7 : ∃ (s : State) (v : Word),
    get1 s TIDE_EVT_SEL.EVENT < 512 :=
  ⟨tideSt, 0, by decide +kernel⟩

theorem wit_PilotSetsModesRatesAndPins_1 : ∃ (s : State) (v : BitVec 32),
    PLT_MODE.MODE.of v.toNat ≤ 4 ∧
    PLT_MODE.MODE.of v.toNat ≠ get1 s PLT_MODE.MODE :=
  ⟨tideSt, 4, by decide +kernel⟩

theorem wit_PilotSetsModesRatesAndPins_2 : ∃ (s : State) (v : BitVec 32),
    4 < PLT_MODE.MODE.of v.toNat :=
  ⟨tideSt, 7, by decide +kernel⟩

theorem wit_PilotSetsModesRatesAndPins_3 : ∃ (s : State) (l : List ClusterLoad) (p : Nat) (ps : List Nat) (t : State),
    s.dvfsAt ≤ s.now ∧
    set1 ((List.range 5).foldl (fun (u : State) (c : Nat) => dvfsCluster u c (l.getD c ⟨0, false, 0⟩)) { s with dvfsAt := s.now + 100000 }) PLT_POWER.POWER_MW p = t ∧
    p ≤ 1000 * get1 t PLT_POWER.ENVELOPE_W :=
  ⟨tideSt, [], 0, [], set1 ((List.range 5).foldl (fun (u : State) (c : Nat) => dvfsCluster u c (([] : List ClusterLoad).getD c ⟨0, false, 0⟩)) { tideSt with dvfsAt := tideSt.now + 100000 }) PLT_POWER.POWER_MW 0, by decide +kernel, rfl, by decide +kernel⟩

theorem wit_PilotSetsModesRatesAndPins_4 : ∃ (s : State) (l : List ClusterLoad) (p : Nat) (ps : List Nat) (t : State) (c : Nat) (cs : List Nat),
    s.dvfsAt ≤ s.now ∧
    set1 ((List.range 5).foldl (fun (u : State) (c : Nat) => dvfsCluster u c (l.getD c ⟨0, false, 0⟩)) { s with dvfsAt := s.now + 100000 }) PLT_POWER.POWER_MW p = t ∧
    1000 * get1 t PLT_POWER.ENVELOPE_W < p ∧
    lowerable t l = c :: cs :=
  ⟨tideSt, busyLoad, 2200001, [2100000], dvfsT, 4, [], by decide +kernel, rfl, by decide +kernel, dvfs_lowerable⟩

theorem wit_PilotSetsModesRatesAndPins_5 : ∃ (s t : State) (l : List ClusterLoad) (p : Nat) (ps : List Nat) (c : Nat) (cs : List Nat),
    t = set1 s PLT_POWER.POWER_MW p :=
  ⟨tideSt, _, [], 0, [], 0, [], rfl⟩

theorem wit_PilotSetsModesRatesAndPins_6 : ∃ (s : State) (m : Limits) (t u : State),
    limitReached m = true ∧
    showInput { s with hotPorts := hotAfter s m } m.mv m.ma m.watts = t ∧
    (if on t PWR_STATUS.THROTTLING then t else ev (set1 t PWR_STATUS.THROTTLING 1) PWR_EVENT.THROTTLE_EV) = u ∧
    u.throttleAt ≤ u.now ∧
    throttled u m ≠ [] :=
  ⟨dvfsT, hotM, showInput { dvfsT with hotPorts := hotAfter dvfsT hotM } hotM.mv hotM.ma hotM.watts, ev (set1 (showInput { dvfsT with hotPorts := hotAfter dvfsT hotM } hotM.mv hotM.ma hotM.watts) PWR_STATUS.THROTTLING 1) PWR_EVENT.THROTTLE_EV, by decide +kernel, rfl, by rw [if_neg (by decide +kernel)], by decide +kernel⟩

theorem wit_PilotSetsModesRatesAndPins_7 : ∃ (s : State) (m : Limits) (t : State),
    limitReached m = false ∧
    set1 (showInput { s with hotPorts := hotAfter s m } m.mv m.ma m.watts) PWR_STATUS.THROTTLING 0 = t ∧
    (on (showInput { s with hotPorts := hotAfter s m } m.mv m.ma m.watts) PWR_STATUS.THROTTLING && !limitReleased m) = false ∧
    t.throttleAt ≤ t.now ∧
    t.throttleCap ≠ [] :=
  ⟨{ tideSt with throttleCap := [(0, 50)] }, coolM, _, by decide +kernel, rfl, by decide +kernel⟩

theorem wit_PilotSetsModesRatesAndPins_9 : ∃ (s : State) (v : BitVec 32) (j : JobId) (t : State),
    Fin.ofNat 16 (get1 s PLT_JOB_SEL.JOB) = j ∧
    storeField j 0 v.toNat s PLT_JOB_PIN.PIN_LOST = t ∧
    pinOk t j (PLT_JOB_PIN.ARRAYS.of v.toNat) (PLT_JOB_PIN.RESIDENT.of v.toNat) = true :=
  ⟨tideSt, 1, 0, storeField ((0 : JobId) : Nat) 0 (1 : BitVec 32).toNat tideSt PLT_JOB_PIN.PIN_LOST, by decide +kernel, rfl, by decide +kernel⟩

theorem wit_PilotSetsModesRatesAndPins_10 : ∃ (s : State) (v : BitVec 32) (j : JobId) (t : State),
    Fin.ofNat 16 (get1 s PLT_JOB_SEL.JOB) = j ∧
    storeField j 0 v.toNat s PLT_JOB_PIN.PIN_LOST = t ∧
    pinOk t j (PLT_JOB_PIN.ARRAYS.of v.toNat) (PLT_JOB_PIN.RESIDENT.of v.toNat) = false :=
  ⟨fencedArr, BitVec.ofNat 32 255, 0, storeField ((0 : JobId) : Nat) 0 (BitVec.ofNat 32 255).toNat fencedArr PLT_JOB_PIN.PIN_LOST, by decide +kernel, rfl, by decide +kernel⟩

theorem wit_PilotSetsModesRatesAndPins_11 : ∃ (s : State) (j : JobId) (r : RoundNo) (c : CohortId) (h : Bool) (x y : Round),
    s.round? j r = some x ∧
    jobBusy s j = false ∧
    (x.cohort c).inHbm ≠ h ∧
    c.val < pCohortCount x.plan ∧
    moveOk s j x c h = true ∧
    s.poison = [] ∧
    y = x.modCohort c (fun k => { k with inHbm := h }) :=
  ⟨moveSt, 0, 1, 1, true, moveRd, _, by decide +kernel, by decide +kernel, by decide +kernel, by decide +kernel, by decide +kernel, by decide +kernel, rfl⟩

theorem wit_PilotSetsModesRatesAndPins_12 : ∃ (s : State) (j : JobId) (r : RoundNo) (c : CohortId) (h : Bool) (x y : Round),
    s.round? j r = some x ∧
    jobBusy s j = false ∧
    (x.cohort c).inHbm ≠ h ∧
    c.val < pCohortCount x.plan ∧
    moveOk s j x c h = true ∧
    s.poison ≠ [] ∧
    y = x.modCohort c (fun k => { k with inHbm := h }) :=
  ⟨{ moveSt with poison := [9] }, 0, 1, 1, true, moveRd, _, by decide +kernel, by decide +kernel, by decide +kernel, by decide +kernel, by decide +kernel, by decide +kernel, rfl⟩

theorem wit_PilotSetsModesRatesAndPins_13 : ∃ (s : State) (j : JobId) (r : RoundNo) (c : CohortId) (h : Bool) (x : Round),
    s.round? j r = some x ∧
    (jobBusy s j = true ∨ moveOk s j x c h = false) :=
  ⟨fset moveSt PLT_JOB_PIN.RESIDENT 0 0 1, 0, 1, 0, true, moveRd, by decide +kernel, Or.inr (by decide +kernel)⟩

theorem wit_DomainsChangeState_1 : ∃ (s : State) (d : Fin 96) (t e : Nat) (u : State),
    lookup s.domMoves d.val = some (t, e) ∧
    e ≤ s.now ∧
    t ≠ 0 ∧
    t < 8 ∧
    { fset (fset s PWR_DOM_STATE.STATE d 0 (t % 8)) PWR_DOM_STATE.CHANGING d 0 0 with domMoves := dropKey s.domMoves d.val } = u :=
  ⟨domSt 2, 40, 2, 0, { fset (fset (domSt 2) PWR_DOM_STATE.STATE 40 0 (2 % 8)) PWR_DOM_STATE.CHANGING 40 0 0 with domMoves := dropKey (domSt 2).domMoves 40 }, by decide +kernel, by decide +kernel, by decide +kernel, by decide +kernel, rfl⟩

theorem wit_DomainsChangeState_2 : ∃ (s : State) (d : Fin 96) (t e : Nat) (u v : State),
    lookup s.domMoves d.val = some (t, e) ∧
    e ≤ s.now ∧
    8 ≤ t ∧
    { fset (fset s PWR_DOM_STATE.STATE d 0 (t % 8)) PWR_DOM_STATE.CHANGING d 0 0 with domMoves := dropKey s.domMoves d.val } = u ∧
    wakeDomain u d = v :=
  ⟨domSt 10, 40, 10, 0, { fset (fset (domSt 10) PWR_DOM_STATE.STATE 40 0 (10 % 8)) PWR_DOM_STATE.CHANGING 40 0 0 with domMoves := dropKey (domSt 10).domMoves 40 }, wakeDomain { fset (fset (domSt 10) PWR_DOM_STATE.STATE 40 0 (10 % 8)) PWR_DOM_STATE.CHANGING 40 0 0 with domMoves := dropKey (domSt 10).domMoves 40 } 40, by decide +kernel, by decide +kernel, by decide +kernel, rfl, rfl⟩

theorem wit_DomainsChangeState_3 : ∃ (s : State) (d : Fin 96) (e : Nat) (u v w : State),
    lookup s.domMoves d.val = some (0, e) ∧
    e ≤ s.now ∧
    { fset (fset s PWR_DOM_STATE.STATE d 0 0) PWR_DOM_STATE.CHANGING d 0 0 with domMoves := dropKey s.domMoves d.val } = u ∧
    (if 2 ≤ fget s PWR_DOM_STATE.STATE d 0 then countSat u PWR_DOM_STATE.WAKES d 0 1 else u) = v ∧
    ((if 3 ≤ d.val ∧ d.val ≤ 18 then portAwake v (Fin.ofNat 16 (d.val - 3)) else v) = w) :=
  ⟨domSt 0, 40, 0, domU, domU, domU, by decide +kernel, by decide +kernel, rfl, if_neg (by decide +kernel), if_neg (by decide +kernel)⟩

theorem wit_KeySlotsOfPf0_1 : ∃ (s : State) (v : Word) (t : State) (n : Nat),
    KST_WR_CTRL.GO.of v.toNat = 1 ∧
    KST_WR_CTRL.ERASE.of v.toNat = 0 ∧
    (if 224 ≤ KST_WR_CTRL.SLOT.of v.toNat then set1 (set1 (set1 s KST_WR_CTRL.EXPIRE (KST_WR_CTRL.EXPIRE.of v.toNat)) KST_WR_CTRL.LIMIT (KST_WR_CTRL.LIMIT.of v.toNat)) KST_WR_CTRL.SLOT (KST_WR_CTRL.SLOT.of v.toNat) else set1 (set1 s KST_WR_CTRL.EXPIRE (KST_WR_CTRL.EXPIRE.of v.toNat)) KST_WR_CTRL.LIMIT (KST_WR_CTRL.LIMIT.of v.toNat)) = t ∧
    get1 t KST_WR_CTRL.SLOT = n ∧
    fget t KST_SLOT_INFO.STATE n 0 = 0 ∧
    on t KST_STATUS.CONF_ACTIVE = false :=
  ⟨tideSt, BitVec.ofNat 64 (224 * 2 ^ KST_WR_CTRL.SLOT.lo + 2 ^ KST_WR_CTRL.GO.lo), kstT (tideSt) (BitVec.ofNat 64 (224 * 2 ^ KST_WR_CTRL.SLOT.lo + 2 ^ KST_WR_CTRL.GO.lo)), 224, by decide +kernel, by decide +kernel, if_pos (by decide +kernel), by decide +kernel⟩

theorem wit_KeySlotsOfPf0_2 : ∃ (s : State) (v : Word) (t : State) (n : Nat),
    KST_WR_CTRL.GO.of v.toNat = 1 ∧
    KST_WR_CTRL.ERASE.of v.toNat = 0 ∧
    (if 224 ≤ KST_WR_CTRL.SLOT.of v.toNat then set1 (set1 (set1 s KST_WR_CTRL.EXPIRE (KST_WR_CTRL.EXPIRE.of v.toNat)) KST_WR_CTRL.LIMIT (KST_WR_CTRL.LIMIT.of v.toNat)) KST_WR_CTRL.SLOT (KST_WR_CTRL.SLOT.of v.toNat) else set1 (set1 s KST_WR_CTRL.EXPIRE (KST_WR_CTRL.EXPIRE.of v.toNat)) KST_WR_CTRL.LIMIT (KST_WR_CTRL.LIMIT.of v.toNat)) = t ∧
    get1 t KST_WR_CTRL.SLOT = n ∧
    (fget t KST_SLOT_INFO.STATE n 0 == 0 && !on t KST_STATUS.CONF_ACTIVE) = false :=
  ⟨set1 tideSt KST_STATUS.CONF_ACTIVE 1, BitVec.ofNat 64 (224 * 2 ^ KST_WR_CTRL.SLOT.lo + 2 ^ KST_WR_CTRL.GO.lo), kstT (set1 tideSt KST_STATUS.CONF_ACTIVE 1) (BitVec.ofNat 64 (224 * 2 ^ KST_WR_CTRL.SLOT.lo + 2 ^ KST_WR_CTRL.GO.lo)), 224, by decide +kernel, by decide +kernel, if_pos (by decide +kernel), by decide +kernel⟩

theorem wit_KeySlotsOfPf0_3 : ∃ (s : State) (v : Word) (t : State) (n : Nat),
    KST_WR_CTRL.GO.of v.toNat = 0 ∧
    KST_WR_CTRL.ERASE.of v.toNat = 1 ∧
    (if 224 ≤ KST_WR_CTRL.SLOT.of v.toNat then set1 (set1 (set1 s KST_WR_CTRL.EXPIRE (KST_WR_CTRL.EXPIRE.of v.toNat)) KST_WR_CTRL.LIMIT (KST_WR_CTRL.LIMIT.of v.toNat)) KST_WR_CTRL.SLOT (KST_WR_CTRL.SLOT.of v.toNat) else set1 (set1 s KST_WR_CTRL.EXPIRE (KST_WR_CTRL.EXPIRE.of v.toNat)) KST_WR_CTRL.LIMIT (KST_WR_CTRL.LIMIT.of v.toNat)) = t ∧
    get1 t KST_WR_CTRL.SLOT = n ∧
    fget t KST_SLOT_INFO.STATE n 0 ≠ 2 :=
  ⟨tideSt, BitVec.ofNat 64 (224 * 2 ^ KST_WR_CTRL.SLOT.lo + 2 ^ KST_WR_CTRL.ERASE.lo), kstT (tideSt) (BitVec.ofNat 64 (224 * 2 ^ KST_WR_CTRL.SLOT.lo + 2 ^ KST_WR_CTRL.ERASE.lo)), 224, by decide +kernel, by decide +kernel, if_pos (by decide +kernel), by decide +kernel⟩

theorem wit_KeySlotsOfPf0_4 : ∃ (s : State) (v : Word) (t : State) (n : Nat),
    KST_WR_CTRL.GO.of v.toNat = 0 ∧
    KST_WR_CTRL.ERASE.of v.toNat = 1 ∧
    (if 224 ≤ KST_WR_CTRL.SLOT.of v.toNat then set1 (set1 (set1 s KST_WR_CTRL.EXPIRE (KST_WR_CTRL.EXPIRE.of v.toNat)) KST_WR_CTRL.LIMIT (KST_WR_CTRL.LIMIT.of v.toNat)) KST_WR_CTRL.SLOT (KST_WR_CTRL.SLOT.of v.toNat) else set1 (set1 s KST_WR_CTRL.EXPIRE (KST_WR_CTRL.EXPIRE.of v.toNat)) KST_WR_CTRL.LIMIT (KST_WR_CTRL.LIMIT.of v.toNat)) = t ∧
    get1 t KST_WR_CTRL.SLOT = n ∧
    fget t KST_SLOT_INFO.STATE n 0 = 2 :=
  ⟨fset tideSt KST_SLOT_INFO.STATE 224 0 2, BitVec.ofNat 64 (224 * 2 ^ KST_WR_CTRL.SLOT.lo + 2 ^ KST_WR_CTRL.ERASE.lo), kstT (fset tideSt KST_SLOT_INFO.STATE 224 0 2) (BitVec.ofNat 64 (224 * 2 ^ KST_WR_CTRL.SLOT.lo + 2 ^ KST_WR_CTRL.ERASE.lo)), 224, by decide +kernel, by decide +kernel, if_pos (by decide +kernel), by decide +kernel⟩

theorem wit_KeySlotsOfPf0_5 : ∃ (s : State) (v : BitVec 32) (t u : State) (n : Nat) (st : SStat),
    KST_CHAL_CTRL.GO.of v.toNat = 1 ∧
    (if 224 ≤ KST_CHAL_CTRL.SLOT.of v.toNat then set1 s KST_CHAL_CTRL.SLOT (KST_CHAL_CTRL.SLOT.of v.toNat) else s) = t ∧
    get1 t KST_CHAL_CTRL.SLOT = n ∧
    takeSlot t n 17 3 3 = (st, u) :=
  ⟨chalSt, chalV, set1 chalSt KST_CHAL_CTRL.SLOT 224, (takeSlot (set1 chalSt KST_CHAL_CTRL.SLOT 224) 224 17 3 3).2, 224, .ok, by decide +kernel, if_pos (by decide +kernel), by decide +kernel, pairFst (by decide +kernel)⟩

theorem wit_KeySlotsOfPf0_6 : ∃ (s : State) (v : BitVec 32),
    v.toNat = get1 s KST_FW.SVN ∧
    s.fuseSvn < v.toNat :=
  ⟨set1 tideSt KST_FW.SVN 5, 5, by decide +kernel⟩

theorem wit_KeySlotsOfPf0_7 : ∃ (s : State) (v : BitVec 32),
    (v.toNat ≠ get1 s KST_FW.SVN ∨ v.toNat ≤ s.fuseSvn) :=
  ⟨tideSt, 9, Or.inl (by decide +kernel)⟩

theorem wit_TheEntropyUnitServes_1 : ∃ (s : State) (v : BitVec 32) (t : State),
    ENT_CTRL.UNIT_RESET.of v.toNat = 1 ∧
    (if 4 ≤ latchCount (ENT_CTRL.LATCH_EN.of v.toNat) then set1 s ENT_CTRL.LATCH_EN (ENT_CTRL.LATCH_EN.of v.toNat) else s) = t ∧
    on t ENT_STATUS.PERM_FAIL = false :=
  ⟨tideSt, entV, set1 tideSt ENT_CTRL.LATCH_EN 255, by decide +kernel, if_pos (by decide +kernel), by decide +kernel⟩

theorem wit_TheEntropyUnitServes_2 : ∃ (s : State) (v : BitVec 32) (t : State),
    (ENT_CTRL.UNIT_RESET.of v.toNat = 0 ∨ on t ENT_STATUS.PERM_FAIL = true) ∧
    (if 4 ≤ latchCount (ENT_CTRL.LATCH_EN.of v.toNat) then set1 s ENT_CTRL.LATCH_EN (ENT_CTRL.LATCH_EN.of v.toNat) else s) = t :=
  ⟨tideSt, 0xFF00, set1 tideSt ENT_CTRL.LATCH_EN 255, Or.inl (by decide +kernel), if_pos (by decide +kernel)⟩

theorem wit_TheEntropyUnitServes_3 : ∃ (s : State) (b : BitVec 8),
    entropyStarting s = true ∧
    b.toNat &&& s.latches = 0 :=
  ⟨set1 tideSt ENT_STATUS.STATE 0, 0, by decide +kernel⟩

theorem wit_TheEntropyUnitServes_4 : ∃ (s : State) (b : BitVec 8) (k : Bool),
    entropyStarting s = true ∧
    (b.toNat &&& s.latches ≠ 0 ∨ k = false) :=
  ⟨set1 tideSt ENT_STATUS.STATE 0, 0, false, by decide +kernel, Or.inr rfl⟩

theorem wit_TheEntropyUnitServes_5 : ∃ (s : State),
    entropyReady s = true :=
  ⟨tideSt, by decide +kernel⟩

theorem wit_TheEntropyUnitServes_6 : ∃ (s : State) (l : Fin 8) (a : Bool),
    entropyReady s = true ∧
    bit s.latches l.val = true :=
  ⟨{ tideSt with latches := 255 }, 3, true, by decide +kernel⟩

theorem wit_TheEntropyUnitServes_7 : ∃ (s : State),
    entropyReady s = true ∧
    (s.reseedAt ≤ s.now ∨ 2 ^ 20 ≤ s.genCount) :=
  ⟨tideSt, by decide +kernel, Or.inl (by decide +kernel)⟩

theorem wit_TheEntropyUnitServes_8 : ∃ (s : State) (w : Fin 8) (n : Nat),
    entropyReady s = true :=
  ⟨tideSt, 0, 1, by decide +kernel⟩

theorem wit_TheEntropyUnitServes_9 : ∃ (s : State) (w : Fin 8) (n : Nat),
    entropyReady s = false ∧
    entropyStarting s = true :=
  ⟨set1 tideSt ENT_STATUS.STATE 0, 0, 1, by decide +kernel⟩

theorem wit_TheEntropyUnitServes_10 : ∃ (s : State) (w : Fin 8) (n : Nat),
    entropyReady s = false ∧
    entropyStarting s = false :=
  ⟨set1 tideSt ENT_STATUS.STATE 2, 0, 1, by decide +kernel⟩

theorem wit_TheEntropyUnitServes_11 : ∃ (s : State) (f : Func) (d : BitVec 512) (t : State),
    entropyStarting s = false ∧
    entropyReady s = true ∧
    6 ≤ s.swBytes ∧
    draw s = (d, t) :=
  ⟨{ tideSt with swBytes := 6 }, 0, (draw { tideSt with swBytes := 6 }).1, (draw { tideSt with swBytes := 6 }).2, by decide +kernel, by decide +kernel, by decide +kernel, rfl⟩

theorem wit_TheEntropyUnitServes_12 : ∃ (s : State) (f : Func) (x : Nat),
    (if entropyStarting s then 2 ^ 63 else if entropyReady s then 2 ^ 61 else 2 ^ 62) = x ∧
    (entropyStarting s || !entropyReady s || decide (s.swBytes < 6)) = true :=
  ⟨{ tideSt with swBytes := 0 }, 0, 2 ^ 61, by decide +kernel⟩

theorem wit_SpdmAnswersAndSessions_2 : ∃ (s : State) (m : Bytes),
    s.spdm.versionDone = true :=
  ⟨spdmSt, [], by decide +kernel⟩

theorem wit_SpdmAnswersAndSessions_3 : ∃ (s : State) (m : Bytes),
    s.spdm.capsDone = true :=
  ⟨spdmSt, [], by decide +kernel⟩

theorem wit_SpdmAnswersAndSessions_4 : ∃ (s : State) (m : Bytes),
    s.spdm.algsDone = true :=
  ⟨spdmSt, [], by decide +kernel⟩

theorem wit_SpdmAnswersAndSessions_5 : ∃ (s : State) (m : Bytes),
    s.spdm.algsDone = true ∧
    leAt m 2 1 % 16 = 0 ∧
    leAt m 4 2 < (certChain s).length :=
  ⟨spdmSt, zeros 8, by decide +kernel, by decide +kernel, cert_pos _⟩

theorem wit_SpdmAnswersAndSessions_6 : ∃ (s : State) (m : Bytes) (d : BitVec 512) (t : State),
    s.spdm.algsDone = true ∧
    leAt m 2 1 = 0 ∧
    draw s = (d, t) :=
  ⟨spdmSt, zeros 36, (draw spdmSt).1, (draw spdmSt).2, by decide +kernel, by decide +kernel, rfl⟩

theorem wit_SpdmAnswersAndSessions_7 : ∃ (s : State) (m : Bytes) (n : Nat) (r : Bytes) (d : BitVec 512) (t : State),
    s.spdm.algsDone = true ∧
    measurementRecord s (if bit (leAt m 2 1) 0 then slice m 4 32 else zeros 32) (leAt m 3 1) = some (n, r) ∧
    draw s = (d, t) :=
  ⟨spdmSt, zeros 37, 0, [], (draw spdmSt).1, (draw spdmSt).2, by decide +kernel, by decide +kernel, rfl⟩

theorem wit_SpdmAnswersAndSessions_8 : ∃ (s : State) (m : Bytes) (d : Nat) (e : BitVec 512) (t u : State),
    s.spdm.algsDone = true ∧
    entropyReady s = true ∧
    onCurve (beAt m 40 48) (beAt m 88 48) = true ∧
    leAt m 3 1 = 0 ∧
    drawScalar (served s 1) = (d, t) ∧
    draw (tollDone t none 2 0) = (e, u) :=
  ⟨spdmSt, zeros 40 ++ pG.drop 1, (drawScalar (served spdmSt 1)).1, (draw (tollDone (drawScalar (served spdmSt 1)).2 none 2 0)).1, (drawScalar (served spdmSt 1)).2, (draw (tollDone (drawScalar (served spdmSt 1)).2 none 2 0)).2, by decide +kernel, by decide +kernel, by decide +kernel, by decide +kernel, rfl, rfl⟩

theorem wit_SpdmAnswersAndSessions_9 : ∃ (s : State) (m : Bytes),
    s.spdm.algsDone = true ∧
    entropyReady s = false ∧
    entropyStarting s = true :=
  ⟨set1 spdmSt ENT_STATUS.STATE 0, [], by decide +kernel⟩

theorem wit_SpdmAnswersAndSessions_10 : ∃ (s : State) (m : Bytes) (x : Session),
    s.spdm.sessions.getLast? = some x ∧
    x.done = false :=
  ⟨sessionSt false, [], ⟨1, [], false, 0⟩, by decide +kernel⟩

theorem wit_SpdmAnswersAndSessions_11 : ∃ (s : State) (m : Bytes) (x : Session),
    s.spdm.sessions.getLast? = some x ∧
    x.done = true ∧
    1 ≤ leAt m 2 1 ∧
    leAt m 2 1 ≤ 3 :=
  ⟨sessionSt true, [0x12, 0xE9, 1, 0], ⟨1, [], true, 0⟩, by decide +kernel⟩

theorem wit_SpdmAnswersAndSessions_12 : ∃ (s : State) (m : Bytes) (x : Session),
    s.spdm.sessions.getLast? = some x ∧
    x.done = true :=
  ⟨sessionSt true, [], ⟨1, [], true, 0⟩, by decide +kernel⟩

theorem wit_SpdmAnswersAndSessions_13 : ∃ (s : State) (m : IdeKey),
    s.spdm.sessions.any (fun x => x.id == m.session && x.done) = true :=
  ⟨sessionSt true, ⟨1, 0, [], true⟩, by decide +kernel⟩

theorem wit_SpdmAnswersAndSessions_14 : ∃ (s : State) (m : Bytes),
    s.spdm.algsDone = false :=
  ⟨tideSt, [], by decide +kernel⟩

theorem wit_ResetsActOnTheirDomains_1 : ∃ (s : State) (b : Boot),
    s.inputOn = false :=
  ⟨{ tideSt with inputOn := false }, ⟨[], [], 0, 0⟩, by decide +kernel⟩

theorem wit_ResetsActOnTheirDomains_2 : ∃ (s : State) (b : Boot) (t : State),
    s.inputOn = true ∧
    startOutage s false = t :=
  ⟨onSt 5, ⟨[], [], 0, 0⟩, startOutage (onSt 5) false, by decide +kernel, rfl⟩

theorem wit_ResetsActOnTheirDomains_3 : ∃ (s : State) (i : Bytes),
    running s = true ∧
    get1 s PWR_STATUS.BOOT_STAGE = 15 :=
  ⟨onSt 15, [], by decide +kernel⟩

theorem wit_ResetsActOnTheirDomains_4 : ∃ (s : State) (v : BitVec 32),
    PWR_CTRL.KEY.of v.toNat = 0xB7 ∧
    PWR_CTRL.COLD_RESET.of v.toNat = 1 ∧
    PWR_CTRL.WARM_RESTART.of v.toNat = 0 ∧
    PWR_CTRL.ENGINE_RESET.of v.toNat = 0 :=
  ⟨onSt 5, BitVec.ofNat 32 (0xB7 * 2 ^ PWR_CTRL.KEY.lo + 1 * 2 ^ PWR_CTRL.COLD_RESET.lo), by decide +kernel⟩

theorem wit_ResetsActOnTheirDomains_5 : ∃ (s : State) (v : BitVec 32),
    PWR_CTRL.KEY.of v.toNat = 0xB7 ∧
    PWR_CTRL.COLD_RESET.of v.toNat = 0 ∧
    PWR_CTRL.WARM_RESTART.of v.toNat = 1 ∧
    PWR_CTRL.ENGINE_RESET.of v.toNat = 0 ∧
    inService s = true :=
  ⟨onSt 5, BitVec.ofNat 32 (0xB7 * 2 ^ PWR_CTRL.KEY.lo + 1 * 2 ^ PWR_CTRL.WARM_RESTART.lo), by decide +kernel⟩

theorem wit_ResetsActOnTheirDomains_6 : ∃ (s : State) (v : BitVec 32),
    PWR_CTRL.KEY.of v.toNat = 0xB7 ∧
    PWR_CTRL.COLD_RESET.of v.toNat = 0 ∧
    PWR_CTRL.WARM_RESTART.of v.toNat = 1 ∧
    PWR_CTRL.ENGINE_RESET.of v.toNat = 0 ∧
    inService s = false :=
  ⟨onSt 15, BitVec.ofNat 32 (0xB7 * 2 ^ PWR_CTRL.KEY.lo + 1 * 2 ^ PWR_CTRL.WARM_RESTART.lo), by decide +kernel⟩

theorem wit_ResetsActOnTheirDomains_7 : ∃ (s : State) (v : BitVec 32),
    PWR_CTRL.KEY.of v.toNat = 0xB7 ∧
    PWR_CTRL.COLD_RESET.of v.toNat = 0 ∧
    PWR_CTRL.WARM_RESTART.of v.toNat = 0 ∧
    PWR_CTRL.ENGINE_RESET.of v.toNat = 1 ∧
    1 ≤ PWR_CTRL.ENGINE.of v.toNat ∧
    PWR_CTRL.ENGINE.of v.toNat ≤ 8 ∧
    bit (get1 s PWR_STATUS.ENG_BUSY) (PWR_CTRL.ENGINE.of v.toNat) = false :=
  ⟨onSt 5, BitVec.ofNat 32 (0xB7 * 2 ^ PWR_CTRL.KEY.lo + 1 * 2 ^ PWR_CTRL.ENGINE_RESET.lo + 4 * 2 ^ PWR_CTRL.ENGINE.lo), by decide +kernel⟩

theorem wit_ResetsActOnTheirDomains_8 : ∃ (s : State) (v : BitVec 32),
    (PWR_CTRL.KEY.of v.toNat ≠ 0xB7 ∨ PWR_CTRL.COLD_RESET.of v.toNat + PWR_CTRL.WARM_RESTART.of v.toNat + PWR_CTRL.ENGINE_RESET.of v.toNat ≠ 1 ∨ (PWR_CTRL.ENGINE_RESET.of v.toNat = 1 ∧ (PWR_CTRL.ENGINE.of v.toNat = 0 ∨ 8 < PWR_CTRL.ENGINE.of v.toNat))) :=
  ⟨onSt 5, 0, Or.inl (by decide +kernel)⟩

theorem wit_ResetsActOnTheirDomains_9 : ∃ (s : State) (e : Fin 9) (t : State),
    bit (get1 s PWR_STATUS.ENG_BUSY) e.val = true ∧
    (e.val == 8 && entropyStarting s) = false ∧
    endEngineWork (set1 s PWR_STATUS.ENG_BUSY (get1 s PWR_STATUS.ENG_BUSY - 2 ^ e.val)) e.val = t :=
  ⟨set1 (onSt 5) PWR_STATUS.ENG_BUSY 16, 4, endEngineWork (set1 (set1 (onSt 5) PWR_STATUS.ENG_BUSY 16) PWR_STATUS.ENG_BUSY (get1 (set1 (onSt 5) PWR_STATUS.ENG_BUSY 16) PWR_STATUS.ENG_BUSY - 2 ^ 4)) 4, by decide +kernel, by decide +kernel, rfl⟩

theorem wit_ResetsActOnTheirDomains_10 : ∃ (s : State),
    inService s = true :=
  ⟨onSt 5, by decide +kernel⟩

theorem wit_ResetsActOnTheirDomains_11 : ∃ (s t : State),
    (if inService s then warmRestart s 8 true else s) = t :=
  ⟨onSt 15, onSt 15, if_neg (by decide +kernel)⟩

theorem wit_ResetsActOnTheirDomains_13 : ∃ (s : State) (n : Nat),
    10000 ≤ n :=
  ⟨onSt 5, 10000, by decide +kernel⟩

theorem wit_ResetsActOnTheirDomains_14 : ∃ (s : State) (n : Nat),
    n < 10000 :=
  ⟨onSt 5, 9999, by decide +kernel⟩

theorem wit_TripsAndPortsAreGuarded_1 : ∃ (s : State) (mv us : Nat),
    running s = true ∧
    mv < 38000 ∧
    100 ≤ us :=
  ⟨onSt 5, 37999, 100, by decide +kernel⟩

theorem wit_TripsAndPortsAreGuarded_2 : ∃ (s : State) (w : Nat),
    running s = true ∧
    2800 ≤ w :=
  ⟨onSt 5, 2800, by decide +kernel⟩

theorem wit_TripsAndPortsAreGuarded_3 : ∃ (s : State) (ma us : Nat),
    running s = true ∧
    70000 ≤ ma ∧
    50 ≤ us :=
  ⟨onSt 5, 70000, 50, by decide +kernel⟩

theorem wit_TripsAndPortsAreGuarded_4 : ∃ (s : State) (a b : Nat),
    (running s = false ∨ 38000 ≤ a ∨ b < 100) :=
  ⟨onSt 5, 38000, 100, Or.inr (Or.inl (by decide))⟩

theorem wit_TripsAndPortsAreGuarded_5 : ∃ (s : State) (mv : Nat),
    s.inputOn = true ∧
    63000 < mv :=
  ⟨onSt 5, 63001, by decide +kernel⟩

theorem wit_TripsAndPortsAreGuarded_6 : ∃ (s : State) (mv : Nat),
    mv < 60000 :=
  ⟨onSt 5, 59999, by decide +kernel⟩

theorem wit_TripsAndPortsAreGuarded_7 : ∃ (s : State) (t : Temps) (trips : List Nat) (u : State),
    running s = true ∧
    tooHot t = true ∧
    s.trips.filter (fun c => decide (s.clock < c + hourNs)) ++ [s.clock] = trips ∧
    { addHold s (if 3 ≤ trips.length then .thermalLatched else .thermal) with trips := trips } = u :=
  ⟨onSt 5, ⟨110000, 0, 0⟩, [0], { addHold (onSt 5) (if 3 ≤ [0].length then .thermalLatched else .thermal) with trips := [0] }, by decide +kernel, by decide +kernel, by decide +kernel, rfl⟩

theorem wit_TripsAndPortsAreGuarded_8 : ∃ (s : State) (t : Temps) (u : State),
    s.holds.contains .thermal = true ∧
    t.die < 85000 ∧
    t.inlet ≤ 40000 ∧
    dropHold s .thermal 7 = u :=
  ⟨{ onSt 5 with holds := [.thermal] }, ⟨84999, 0, 40000⟩, dropHold { onSt 5 with holds := [.thermal] } .thermal 7, by decide +kernel, by decide +kernel, by decide +kernel, rfl⟩

theorem wit_TripsAndPortsAreGuarded_9 : ∃ (s : State) (p : Port) (c : Int),
    80000 ≤ c :=
  ⟨onSt 5, 0, 80000, by decide +kernel⟩

theorem wit_TripsAndPortsAreGuarded_10 : ∃ (s : State) (p : Port) (t : Nat),
    lookup s.portDown p.val = some t ∧
    bit (get1 s LND_CTRL.PORT_EN) p.val = true ∧
    t + 10 * 10 ^ 9 ≤ s.now :=
  ⟨{ onSt 5 with portDown := [(0, 0)], now := 10 ^ 11 }, 0, 0, by decide +kernel⟩

theorem wit_TripsAndPortsAreGuarded_11 : ∃ (s : State) (p : Port),
    portOn s p = true ∧
    bit (get1 s LND_STATUS.PORT_UP) p.val = false ∧
    unitState s 1 p.val ≠ 1 :=
  ⟨onSt 5, 0, by decide +kernel⟩

theorem wit_TripsAndPortsAreGuarded_12 : ∃ (s : State) (p : Port),
    portOn s p = true ∧
    bit (get1 s LND_STATUS.PORT_UP) p.val = true :=
  ⟨set1 (onSt 5) LND_STATUS.PORT_UP 1, 0, by decide +kernel⟩

theorem wit_TripsAndPortsAreGuarded_13 : ∃ (s : State) (j : JobId) (keep : List Nat),
    (s.job j).failTimes.filter (fun t => decide (s.now < t + 24 * hourNs)) = keep ∧
    keep.length ≠ (s.job j).failTimes.length :=
  ⟨{ (withRound (onSt 5) (maskRd [])).modJob 0 (fun J => { J with failTimes := [0] }) with now := 10 ^ 18 }, 0, [], by decide +kernel⟩

theorem wit_TheTestPortObeysTheLock_1 : ∃ (s : State) (i : Byte) (t : State),
    i ≠ 0x20 ∧
    set1 { s with trst := true } TST_STATUS.IR i.toNat = t :=
  ⟨onSt 5, 1, set1 { onSt 5 with trst := true } TST_STATUS.IR (1 : Byte).toNat, by decide +kernel, rfl⟩

theorem wit_TheTestPortObeysTheLock_2 : ∃ (s t : State),
    set1 { s with trst := true } TST_STATUS.IR 0x20 = t ∧
    on t KST_STATUS.DEBUG_LOCKED = true :=
  ⟨set1 (onSt 5) KST_STATUS.DEBUG_LOCKED 1, set1 { set1 (onSt 5) KST_STATUS.DEBUG_LOCKED 1 with trst := true } TST_STATUS.IR 0x20, rfl, by decide +kernel⟩

theorem wit_TheTestPortObeysTheLock_3 : ∃ (s t : State),
    set1 { s with trst := true } TST_STATUS.IR 0x20 = t ∧
    on t KST_STATUS.DEBUG_LOCKED = false :=
  ⟨onSt 5, set1 { onSt 5 with trst := true } TST_STATUS.IR 0x20, rfl, by decide +kernel⟩

theorem wit_TheTestPortObeysTheLock_4 : ∃ (s t : State) (i : Byte) (d : TapScan),
    exec (.tapInstructionLoad i none) s = .next t ∧
    2 ≤ tapActs t ∧
    tapActs t ≤ 5 :=
  ⟨onSt 5, driveCells (loadInstruction 2 (onSt 5)) (tapActs (onSt 5)), 2, ⟨0, [true]⟩, rfl, by decide +kernel⟩

theorem wit_TheTestPortObeysTheLock_5 : ∃ (s t : State) (i : Byte) (d : TapScan),
    exec (.tapInstructionLoad i none) s = .next t ∧
    (tapActs t = 1 ∨ 6 ≤ tapActs t) ∧
    tapActs t ≠ 0x20 :=
  ⟨onSt 5, driveCells (loadInstruction 1 (onSt 5)) (tapActs (onSt 5)), 1, ⟨0, [true]⟩, rfl, Or.inl (by decide +kernel), by decide +kernel⟩

theorem wit_TheTestPortObeysTheLock_6 : ∃ (s : State) (was : Nat),
    3 ≤ tapActs s ∧
    tapActs s ≤ 7 :=
  ⟨{ set1 (onSt 5) TST_STATUS.IR 3 with testMode := true }, 1, by decide +kernel⟩

theorem wit_TheTestPortObeysTheLock_7 : ∃ (s : State) (was : Nat),
    (tapActs s < 3 ∨ 7 < tapActs s) :=
  ⟨onSt 5, 3, Or.inl (by decide +kernel)⟩

theorem wit_TheTestPortObeysTheLock_8 : ∃ (s : State) (x : Bool) (t : State),
    set1 { s with trst := x } TST_STATUS.IR 1 = t :=
  ⟨onSt 5, true, set1 { onSt 5 with trst := true } TST_STATUS.IR 1, rfl⟩

theorem wit_ThePmuCountsAndSamples_2 : ∃ (s : State) (v : Word),
    on s PMU_CTRL.FREEZE = true :=
  ⟨set1 tideSt PMU_CTRL.FREEZE 1, 5, by decide +kernel⟩

theorem wit_ThePmuCountsAndSamples_3 : ∃ (s : State) (v : Word),
    on s PMU_CTRL.FREEZE = false :=
  ⟨tideSt, 5, by decide +kernel⟩

theorem wit_ThePmuCountsAndSamples_4 : ∃ (s : State) (i : Fin 40) (n : Nat),
    on s PMU_CTRL.FREEZE = false ∧
    fget s PMU_CNT_CFG.EN i 0 ≠ 0 ∧
    2 ^ 48 ≤ fget s PMU_CNT_VALUE.VALUE i 0 + n :=
  ⟨fset tideSt PMU_CNT_CFG.EN 3 0 1, 3, 2 ^ 48, by decide +kernel⟩

theorem wit_ThePmuCountsAndSamples_5 : ∃ (s : State) (x : CtxId) (c : Ctx) (p : Fin 1024) (t : State),
    s.ctx? x = some c ∧
    sampled s x c = true ∧
    s.countdown = 0 ∧
    s.tags.length < 16 ∧
    reload { s with tags := s.tags ++ [newTag s x c p], tagNo := (s.tagNo + 1) % 2 ^ 32 } = t :=
  ⟨sampSt [], ⟨0, 0⟩, ctx0 0x20 [], 0, reload { sampSt [] with tags := (sampSt []).tags ++ [newTag (sampSt []) ⟨0, 0⟩ (ctx0 0x20 []) (0 : Fin 1024)], tagNo := ((sampSt []).tagNo + 1) % 2 ^ 32 }, by decide +kernel, by decide +kernel, by decide +kernel, by decide +kernel, rfl⟩

theorem wit_ThePmuCountsAndSamples_6 : ∃ (s : State) (x : CtxId) (c : Ctx) (p : Fin 1024),
    s.ctx? x = some c ∧
    sampled s x c = true ∧
    s.countdown = 0 ∧
    16 ≤ s.tags.length :=
  ⟨sampSt (List.replicate 16 tag0), ⟨0, 0⟩, ctx0 0x20 [], 0, by decide +kernel⟩

theorem wit_ThePmuCountsAndSamples_7 : ∃ (s : State) (n : Nat) (m : SampleMeasure) (g : Tag) (t : State),
    s.tags.find? (fun t => t.number == n) = some g ∧
    set1 { s with tags := s.tags.filter (fun u => u.number != n) } PMU_SAMP_STAT.INFLIGHT (s.tags.filter (fun u => u.number != n)).length = t ∧
    (get1 t PMU_SBUF_WR.WR + 1) % 2 ^ get1 t PMU_SBUF_CFG.LOG2_RECORDS ≠ get1 t PMU_SBUF_RD.RD ∧
    m.written = true :=
  ⟨sampSt [tag0], 0, measure0 true, tag0, sampT, by decide +kernel, rfl, by decide +kernel⟩

theorem wit_ThePmuCountsAndSamples_8 : ∃ (s : State) (n : Nat) (m : SampleMeasure) (g : Tag) (t : State),
    s.tags.find? (fun t => t.number == n) = some g ∧
    set1 { s with tags := s.tags.filter (fun u => u.number != n) } PMU_SAMP_STAT.INFLIGHT (s.tags.filter (fun u => u.number != n)).length = t ∧
    ((get1 t PMU_SBUF_WR.WR + 1) % 2 ^ get1 t PMU_SBUF_CFG.LOG2_RECORDS = get1 t PMU_SBUF_RD.RD ∨ m.written = false) :=
  ⟨sampSt [tag0], 0, measure0 false, tag0, sampT, by decide +kernel, rfl, Or.inr rfl⟩

theorem wit_ThePmuCountsAndSamples_9 : ∃ (s : State) (v : BitVec 32),
    v.toNat < 2 ^ get1 s PMU_SBUF_CFG.LOG2_RECORDS :=
  ⟨sampSt [], 3, by decide +kernel⟩

theorem wit_ThePmuCountsAndSamples_10 : ∃ (s : State) (v : BitVec 32),
    2 ^ get1 s PMU_SBUF_CFG.LOG2_RECORDS ≤ v.toNat :=
  ⟨sampSt [], 0xFFFFFFFF, by decide +kernel⟩

theorem wit_ThePmuCountsAndSamples_11 : ∃ (s : State) (v : Word) (j : JobId),
    Fin.ofNat 16 (get1 s PMU_VF_SEL.VF) = j ∧
    s.conf j = false :=
  ⟨tideSt, 5, 0, by decide +kernel⟩

theorem wit_ThePmuCountsAndSamples_12 : ∃ (s : State) (v : Word) (j : JobId),
    Fin.ofNat 16 (get1 s PMU_VF_SEL.VF) = j ∧
    s.conf j = true :=
  ⟨(ringSt []).modJob 0 (fun J => { J with confidential := true }), 5, 0, by decide +kernel⟩

theorem wit_RegisterAccessesFollowTheirOffsets_1 : ∃ (s : State) (f : Func) (off size : Nat) (r : Reg) (a b v : Nat) (t : State),
    pmuPage f off = none ∧
    access s f off size = .reg r a b ∧
    readCopy s f r a b = (v, t) :=
  ⟨tideSt, pf0, Reg.LND_CTRL.place.off, Reg.LND_CTRL.place.width / 8, .LND_CTRL, 0, 0, (readCopy tideSt pf0 .LND_CTRL 0 0).1, (readCopy tideSt pf0 .LND_CTRL 0 0).2, by decide +kernel, by decide +kernel, rfl⟩

theorem wit_RegisterAccessesFollowTheirOffsets_2 : ∃ (s : State) (f : Func) (off size : Nat),
    pmuPage f off = none ∧
    access s f off size = .gap :=
  ⟨tideSt, pf0, 0xFFFFFFF8, 8, by decide +kernel⟩

theorem wit_RegisterAccessesFollowTheirOffsets_3 : ∃ (s : State) (f : Func) (off size : Nat),
    pmuPage f off = none ∧
    access s f off size = .denied :=
  ⟨tideSt, vfOf 3, (Reg.KST_VF_ORIGIN_QPN.place.vfOff).getD 0, Reg.KST_VF_ORIGIN_QPN.place.width / 8, by decide +kernel⟩

theorem wit_RegisterAccessesFollowTheirOffsets_4 : ∃ (s : State) (f : Func) (off size : Nat),
    pmuPage f off = none ∧
    access s f off size = .missized :=
  ⟨tideSt, pf0, Reg.LND_CTRL.place.off, 1, by decide +kernel⟩

theorem wit_RegisterAccessesFollowTheirOffsets_5 : ∃ (s : State) (f : Func) (off size i : Nat),
    pmuPage f off = some i :=
  ⟨tideSt, vfOf 2, 0x1208, 8, 1, by decide +kernel⟩

theorem wit_RegisterAccessesFollowTheirOffsets_6 : ∃ (s : State) (f : Func) (off size : Nat) (r : Reg) (a b : Nat) (v : Word),
    access s f off size = .reg r a b :=
  ⟨tideSt, pf0, Reg.LND_CTRL.place.off, Reg.LND_CTRL.place.width / 8, .LND_CTRL, 0, 0, 1, by decide +kernel⟩

theorem wit_IssuedWorkEnds_1 : ∃ (s₀ s t : State) (x : CtxId) (n : Nat) (c : Ctx) (o : IssuedOp),
    s = replaceFenced s₀ ∧
    s.ctx? x = some c ∧
    c.issued.find? (fun o => o.id == n) = some o ∧
    stillActing s c.job x n = false ∧
    t = { (macDone s x n).modCtx x (fun c => { c with issued := c.issued.filter (fun o => o.id != n) }) with locks := s.locks.filter (fun l => !(l.ctx == ctxNo x && l.op == n)) } ∧
    o.space = 0 ∧
    o.detail = 0 :=
  ⟨issuedSt 0, _, _, ⟨0, 0⟩, 7, issuedCtx 0, ⟨7, 0, 0, 3⟩, rfl, by decide +kernel, by decide +kernel, by decide +kernel, rfl, by decide +kernel⟩

theorem wit_IssuedWorkEnds_2 : ∃ (s₀ s t : State) (x : CtxId) (n : Nat) (c : Ctx) (o : IssuedOp),
    s = replaceFenced s₀ ∧
    s.ctx? x = some c ∧
    c.issued.find? (fun o => o.id == n) = some o ∧
    stillActing s c.job x n = false ∧
    t = { (macDone s x n).modCtx x (fun c => { c with issued := c.issued.filter (fun o => o.id != n) }) with locks := s.locks.filter (fun l => !(l.ctx == ctxNo x && l.op == n)) } ∧
    (o.space ≠ 0 ∨ o.detail ≠ 0) :=
  ⟨issuedSt 5, _, _, ⟨0, 0⟩, 7, issuedCtx 5, ⟨7, 5, 0, 3⟩, rfl, by decide +kernel, by decide +kernel, by decide +kernel, rfl, Or.inl (by decide)⟩

theorem wit_IssuedWorkEnds_3 : ∃ (s₀ s : State) (x : CtxId) (n : Nat) (c : Ctx) (o : IssuedOp),
    s = replaceFenced s₀ ∧
    s.ctx? x = some c ∧
    c.issued.find? (fun o => o.id == n) = some o ∧
    stillActing s c.job x n = true :=
  ⟨actingSt, _, ⟨0, 0⟩, 7, issuedCtx 0, ⟨7, 0, 0, 3⟩, rfl, by decide +kernel⟩

theorem wit_ACommandAtTheFrontRuns_2 : ∃ (s : State) (c : Instr) (rest : List Instr),
    s.pending = c :: rest :=
  ⟨{ State.reset with pending := [.getVersion []] }, .getVersion [], [], by decide +kernel⟩

theorem wit_AnEmptyQueueLetsANanosecondPass_1 : ∃ (s : State),
    s.pending = [] :=
  ⟨State.reset, by decide +kernel⟩

theorem wit_AnEmptyQueueLetsANanosecondPass_2 : ∃ (s : State),
    s.pending = [] ∧
    s.slew = 0 :=
  ⟨State.reset, by decide +kernel⟩

theorem wit_AnEmptyQueueLetsANanosecondPass_3 : ∃ (s : State),
    s.pending = [] ∧
    0 < s.slew ∧
    s.slewTicks = 9999 :=
  ⟨{ State.reset with slew := 5, slewTicks := 9999 }, by decide +kernel⟩

theorem wit_AnEmptyQueueLetsANanosecondPass_4 : ∃ (s : State),
    s.pending = [] ∧
    s.slew < -1000000 ∧
    s.slewTicks = 999 :=
  ⟨{ State.reset with slew := -1000001, slewTicks := 999 }, by decide +kernel⟩

theorem wit_AnEmptyQueueLetsANanosecondPass_5 : ∃ (s : State),
    s.pending = [] ∧
    -1000000 ≤ s.slew ∧
    s.slew < 0 ∧
    s.slewTicks = 9999 :=
  ⟨{ State.reset with slew := -1000000, slewTicks := 9999 }, by decide +kernel⟩

theorem wit_EveryStepKeepsTheCanonicalForm_1 : ∃ (s : State),
    s.Canonical :=
  ⟨State.reset, ⟨rfl, rfl, fun j => by simp [State.job, State.reset, Job.absent, rising], List.nodup_nil, fun f => by simp [State.log, State.reset], Nat.zero_le _, fun c => ⟨by simp [State.chan, State.reset, Channel.empty], by simp [State.chan, State.reset, Channel.empty]⟩⟩⟩

theorem wit_EveryStepKeepsTheCanonicalForm_2 : ∃ (s t : State),
    s.Canonical ∧
    step s = .next t :=
  ⟨State.reset, tick State.reset, ⟨rfl, rfl, fun j => by simp [State.job, State.reset, Job.absent, rising], List.nodup_nil, fun f => by simp [State.log, State.reset], Nat.zero_le _, fun c => ⟨by simp [State.chan, State.reset, Channel.empty], by simp [State.chan, State.reset, Channel.empty]⟩⟩, rfl⟩

theorem wit_RunsTakeTheCommandsInOrder : ∃ (run : Nat → State),
    (∀ i, step (run i) = .next (run (i + 1))) :=
  ⟨fun i => Nat.rec State.reset (fun _ s => tick s) i, fun i => idleRun i⟩

theorem wit_BytesReadBack_3 : ∃ (m n : List Host.Cell),
    Memory.wf m = true ∧
    Memory.wf n = true ∧
    (∀ a, memByte m a = memByte n a) :=
  ⟨[(3, 1)], [(3, 1)], by decide +kernel, by decide +kernel, fun _ => rfl⟩

theorem wit_TheFusedVersionNeverFalls_1 : ∃ (s : State) (v : BitVec 32),
    v.toNat = get1 s KST_FW.SVN ∧
    s.fuseSvn < v.toNat :=
  ⟨st [(KST_FW.SVN, 0, 0, 3)], 3, by decide +kernel⟩

theorem wit_TheFusedVersionNeverFalls_2 : ∃ (s : State) (v : BitVec 32),
    (v.toNat ≠ get1 s KST_FW.SVN ∨ v.toNat ≤ s.fuseSvn) :=
  ⟨st [(KST_FW.SVN, 0, 0, 3)], 4, Or.inl (by decide +kernel)⟩

theorem wit_TheFusedVersionNeverFalls_3 : ∃ (s t : State) (c : Instr),
    exec c s = .next t :=
  ⟨State.reset, _, .reinstate 0, rfl⟩

theorem wit_TheEventLogKeepsItsOrder_1 : ∃ (s : State) (f : Func) (w : Nat) (ws : List Nat),
    s.log f = w :: ws :=
  ⟨(ringSt []).setLog (vfOf 0) [5, 6], vfOf 0, 5, [6], by decide +kernel⟩

theorem wit_TheEventLogKeepsItsOrder_2 : ∃ (s : State) (f : Func),
    s.log f = [] :=
  ⟨ringSt [], vfOf 0, by decide +kernel⟩

theorem wit_TheEventLogKeepsItsOrder_3 : ∃ (s t : State) (f : Func) (type round a b : Nat),
    logCap f ≤ ((s.log f).length + 3) / 4 ∧
    logRecord s f type round a b = t :=
  ⟨(ringSt []).setLog (vfOf 0) (List.replicate 4096 0), _, vfOf 0, 1, 1, 0, 0, by decide +kernel, rfl⟩

theorem wit_TheEventLogKeepsItsOrder_4 : ∃ (s t u : State) (f : Func) (type round a b type2 round2 a2 b2 : Nat),
    f.val ∈ s.logLost ∧
    ((s.log f).length + 3) / 4 < logCap f ∧
    logRecord s f type round a b = t ∧
    ((t.log f).length + 3) / 4 < logCap f ∧
    logRecord t f type2 round2 a2 b2 = u :=
  ⟨{ ringSt [] with logLost := [0] }, _, _, vfOf 0, 1, 1, 0, 0, 2, 1, 0, 0, by decide +kernel, by decide +kernel, rfl, by decide +kernel, rfl⟩

theorem wit_BerthsStayApart_1 : ∃ (s t : State) (n : Fin 6) (v : Word),
    (∀ (m : Fin 6) (j k : Fin 16), j ≠ k → fget s VAT_JOB_BERTHS.BERTH j m &&& fget s VAT_JOB_BERTHS.BERTH k m = 0) ∧
    exec (.berthWrite n v) s = .next t :=
  ⟨State.reset, _, 2, 5, fun _ _ _ _ => Nat.and_self _, rfl⟩

theorem wit_BerthsStayApart_3 : ∃ (s : State) (j k : JobId) (a b x : Nat),
    j ≠ k ∧
    (∀ (m : Fin 6) (j k : Fin 16), j ≠ k → fget s VAT_JOB_BERTHS.BERTH j m &&& fget s VAT_JOB_BERTHS.BERTH k m = 0) ∧
    vatOf s j a = some x :=
  ⟨berthSt, 0, 1, 0, 0, 0, by decide +kernel, berthSt_apart, by decide +kernel⟩

theorem wit_BankCommandsWriteTheirOwnBytes : ∃ (s t : State) (i : Issuer) (addr : VatAddr) (n : Nat) (c : Instr),
    ((∃ ring d, c = .radd i addr ring d ⟨0, false⟩ ∧ n = d.length) ∨ (∃ x ask, c = .gadd i addr x ask ⟨0, false⟩ ∧ n = 8) ∨ (∃ x ask, c = .add64 i addr x ask ⟨0, false⟩ ∧ n = 8) ∨
(∃ d, c = .fadd i addr d ⟨0, false⟩ ∧ n = d.length) ∨ (∃ op x ask, c = .maxMin i addr op x ask ⟨0, false⟩ ∧ n = maxMinSize op) ∨ (∃ a b, c = .cas64 i addr a b ⟨0, false⟩ ∧ n = 8) ∨
(∃ d, c = .lineWrite i addr d ⟨0, false⟩ ∧ n = d.length)) ∧
    (∀ x, addr.val ≤ x → x < addr.val + max 1 n → refusesAccess s i x = false) ∧
    (∀ j : JobId, ((s.job j).rounds.map (·.number)).Nodup ∧ ∀ x ∈ (s.job j).rounds, pSealed x.plan = false) ∧
    exec c s = .next t :=
  ⟨berthSt, _, ⟨5, 1, some 0⟩, 64, 8, .gadd ⟨5, 1, some 0⟩ 64 3 true ⟨0, false⟩, Or.inr (Or.inl ⟨3, true, rfl, rfl⟩), (by intro x h1 h2; have h2 : x < 64 + 8 := h2; have h1 : 64 ≤ x := h1; interval_cases x <;> decide +kernel), by decide +kernel, rfl⟩

theorem wit_UnmaskingLeavesTheExactSum : ∃ (s : State) (j : JobId) (r : RoundNo) (c : CohortId) (x : Round) (i q : Nat),
    s.round? j r = some x ∧
    begun x 7 = true ∧
    c.val < pCohortCount x.plan ∧
    (x.cohort c).reason = 0 ∧
    (x.cohort c).unmasked = false ∧
    s.alive j = true ∧
    pSealed x.plan = false ∧
    cultureOn s = true ∧
    (x.cohort c).checked = true ∧
    (x.cohort c).secrets.all (·.done) = true ∧
    metPoison s j (unitPlaces s j x c (clearUnits x.plan (x.cohort c))) = none ∧
    i < pSlice x.plan ∧
    (readD 0 (x.cohort c).accum i % 2 ^ (pRing x.plan).bits = (q + ((x.cohort c).masks.map (fun m =>
      let e := maskElem (pRing x.plan) m.key (maskNonce (pRing x.plan)) i
      if m.adds then ringNeg (pRing x.plan).bits e else e)).sum) % 2 ^ (pRing x.plan).bits) :=
  ⟨withRound (landing []) unmaskedRd, 0, 1, 0, unmaskedRd, 0, unmaskedQ, by decide +kernel, by decide +kernel, by decide +kernel, by decide +kernel, by decide +kernel, by decide +kernel, by decide +kernel, by decide +kernel, by decide +kernel, by decide +kernel, noPoison _ _ _ (by decide +kernel), by decide +kernel⟩

theorem wit_ExactTotalsDoNotDependOnOrder_1 : ∃ (l : List Word),
    (∀ x ∈ l, x ≠ g64Marker) ∧
    (l.map (fun x => x.toInt.natAbs)).sum < 2 ^ 63 :=
  ⟨[5, -7], by intro x hx; simp only [List.mem_cons, List.not_mem_nil, or_false] at hx; rcases hx with rfl | rfl <;> decide, by rw [show (([5, -7] : List Word).map (fun x => x.toInt.natAbs)).sum = 12 by decide]; norm_num⟩

theorem wit_ExactTotalsDoNotDependOnOrder_2 : ∃ (l : List Word) (a : Word),
    g64Marker ∈ l :=
  ⟨[g64Marker, 5], 1, by decide +kernel⟩

theorem wit_NarrowCommandsTouchTheirOwnFields_1 : ∃ (s t : State) (c : Instr) (x : CtxId),
    (c = .nop x ∨ c = .endLoop x ∨ c = .movi x ∨ c = .movhi x ∨ c = .addi x ∨ c = .add x ∨ c = .shli x ∨ c = .skipz x ∨ c = .skipnz x ∨ c = .fence x ∨ c = .waitCnt x) ∧
    exec c s = .next t :=
  ⟨issuedSt 0, _, .nop ⟨0, 0⟩, ⟨0, 0⟩, Or.inl (rfl), rfl⟩

theorem wit_NarrowCommandsTouchTheirOwnFields_2 : ∃ (s t : State) (c : Instr),
    ((∃ m, c = .getVersion m) ∨ (∃ m, c = .getCapabilities m) ∨ (∃ m, c = .negotiateAlgorithms m) ∨ (∃ m, c = .getDigests m) ∨ (∃ m, c = .getCertificate m) ∨ (∃ m, c = .challenge m) ∨ (∃ m, c = .getMeasurements m) ∨ (∃ m, c = .spdmFinish m) ∨ (∃ m, c = .keyUpdate m) ∨ (∃ m, c = .endSession m)) ∧
    exec c s = .next t :=
  ⟨State.reset, _, .getVersion [], Or.inl (⟨[], rfl⟩), rfl⟩

theorem wit_NarrowCommandsTouchTheirOwnFields_3 : ∃ (s t : State) (c : Instr),
    ((∃ e v, c = .ferryBlockSend e v) ∨ (∃ e v, c = .ferryNoticeSend e v) ∨ (∃ e v, c = .ferryTake e v) ∨ (∃ e, c = .ferryNoticeRead e) ∨ (∃ e v, c = .ferryRxReset e v) ∨ (∃ f, c = .hailSend f) ∨ (∃ f, c = .hailAck f) ∨ (∃ n, c = .firmwareBlockTake n)) ∧
    exec c s = .next t :=
  ⟨ringSt [], _, .ferryNoticeSend 0 256, Or.inr (Or.inl (⟨0, 256, rfl⟩)), rfl⟩

theorem wit_NarrowCommandsTouchTheirOwnFields_4 : ∃ (s t : State) (c : Instr),
    ((∃ f v, c = .sqTailDoorbell f v) ∨ (∃ f v, c = .cqHeadDoorbell f v) ∨ (∃ j, c = .resStatRead j) ∨ (∃ f, c = .evlogDataRead f) ∨ (∃ f v, c = .evlogFlush f v) ∨ (∃ f v, c = .evlogFlushAll f v)) ∧
    exec c s = .next t :=
  ⟨ringSt [], _, .evlogDataRead (vfOf 0), Or.inr (Or.inr (Or.inr (Or.inl (⟨_, rfl⟩)))), rfl⟩

theorem wit_NarrowCommandsTouchTheirOwnFields_5 : ∃ (s t : State) (c : Instr),
    ((∃ n v, c = .berthWrite n v) ∨ (∃ v, c = .vfGrantWrite v) ∨ (∃ v, c = .sbufRdWrite v) ∨ (∃ v, c = .pmuValueWrite v) ∨ (∃ i n, c = .pmuCounterWrap i n) ∨ (∃ p d, c = .udDatagram p d) ∨ (∃ v, c = .reinstate v)) ∧
    exec c s = .next t :=
  ⟨State.reset, _, .berthWrite 0 1, Or.inl (⟨0, 1, rfl⟩), rfl⟩

theorem wit_NarrowCommandsTouchTheirOwnFields_6 : ∃ (s t : State) (c : Instr),
    ((∃ p, c = .ppsEdge p) ∨ (∃ p a, c = .ptpAnnounce p a)) ∧
    exec c s = .next t :=
  ⟨tideSt, _, .ppsEdge 5, Or.inl (⟨5, rfl⟩), rfl⟩

theorem wit_NarrowCommandsTouchTheirOwnFields_7 : ∃ (s t : State) (x : Bool),
    exec (.testLogicReset x) s = .next t :=
  ⟨tideSt, _, true, rfl⟩

/-! Commands that cannot be sent. -/

theorem test_wf_chunk (d : List Byte) (h : d.length = 2147483649) : Instr.wf (.uploadChunk 5 0 d) = false := by
  simp [Instr.wf, h, maxChunk]
theorem test_wf_short : Instr.wf (.shortSend 5 (zeros 32)) = false := by decide +kernel
theorem test_wf_line : Instr.wf (.lineWrite ⟨5, 0, none⟩ 60 [] ⟨0, false⟩) = false := by decide +kernel
theorem test_wf_radd : Instr.wf (.radd ⟨5, 0, none⟩ 64 .z32 (zeros 6) ⟨0, false⟩) = false := by decide +kernel
theorem test_wf_gadd : Instr.wf (.gadd ⟨5, 0, none⟩ 4 1 true ⟨0, false⟩) = false := by decide +kernel
theorem test_wf_add64 : Instr.wf (.add64 ⟨5, 0, none⟩ 4 1 true ⟨0, false⟩) = false := by decide +kernel
theorem test_wf_descriptor : Instr.wf (.descriptorFetch 0 (zeros 63)) = false := by decide +kernel
theorem test_wf_packet (p : Packet) (h : p.data.length = 4097) : Instr.wf (.rdmaWrite p) = false := by
  simp [Instr.wf, Packet.wf, h]
theorem test_wf_fadd : Instr.wf (.fadd ⟨5, 0, none⟩ 2 (zeros 4) ⟨0, false⟩) = false := by decide +kernel
theorem test_wf_max : Instr.wf (.maxMin ⟨5, 0, none⟩ 4 .maxS64 1 true ⟨0, false⟩) = false := by decide +kernel
theorem test_wf_cas : Instr.wf (.cas64 ⟨5, 0, none⟩ 4 1 2 ⟨0, false⟩) = false := by decide +kernel
theorem test_wf_read : Instr.wf (.rclRead 0 0xFFFE 4) = false := by decide +kernel
theorem test_wf_write : Instr.wf (.registerWrite 16 0 4 0x100000000) = false := by decide +kernel
theorem test_wf_denied : Instr.wf (.deniedRegisterRead 0 0 3) = false := by decide +kernel
theorem test_wf_hdm : Instr.wf (.hdmAccess 0 (some (zeros 63))) = false := by decide +kernel

/-! Values from outside the model. -/

/-- FIPS 180-4: SHA-384 of the three bytes abc. -/
theorem test_sha384 : sha384 (ascii "abc") =
    0xcb00753f45a35e8bb5a03d699ac65007272c32ab0eded1631a8b605a43ff5bed8086072ba1e7cc2358baeca134c825a7 := by decide +kernel

/-- FIPS 197, C.3: AES-256 of one block. -/
theorem test_aes : beNat (aesBlock ((List.range 32).map (BitVec.ofNat 8)) (toBe 16 0x00112233445566778899aabbccddeeff)) =
    0x8ea2b7ca516745bfeafc49904b496089 := by decide +kernel

/-- RFC 8439, 2.3.2: a ChaCha20 block's first bytes. -/
theorem test_chacha : (chachaBlock 0x000102030405060708090a0b0c0d0e0f101112131415161718191a1b1c1d1e1f
    (toBe 12 0x000000090000004a00000000) 1).take 8 = toBe 8 0x10f1e7e4d13b5915 := by decide +kernel

/-- 00: a digest whose first eight bytes are A1, B2, C3, D4, E5, F6, 07 and 18 reads 0x1807F6E5D4C3B2A1 in register 0. -/
theorem test_digest_register : group64 (toBe 8 0xA1B2C3D4E5F60718 ++ zeros 40) 0 = 0x1807F6E5D4C3B2A1 := by decide +kernel

/-- A policy with the gate enabled, ACC_MIN 6,500 and MAX_DROP 64. -/
def gatePolicy : Bytes := (List.range 256).map (fun i => if i = 48 then 0x64 else if i = 49 then 0x19 else if i = 52 then 64 else if polGate ((zeros 256).set i 1) then 1 else 0)

/-- 06: with ACC_MIN 6,500, MAX_DROP 64 and base_correct 6,840, 6,791 correct pass; then 6,720 fail with reason DROP. -/
theorem test_gate_passes : verdictOf gatePolicy 0 6791 6840 0 = none := by decide +kernel
theorem test_gate_drop : verdictOf gatePolicy 0 6720 6791 0 = some (2, 2) := by decide +kernel

/-- R168: a ring sum wraps, and a subtraction is the add of the complement. -/
theorem test_ring_wraps : ringAdd 24 0xFFFFFF 2 = 1 := by decide
theorem test_ring_subtracts : ringAdd 16 3 (ringNeg 16 5) = 0xFFFE := by decide

/-- R180: a sum outside the finite range is the marker. -/
theorem test_g64_overflow : g64Add 0x7FFFFFFFFFFFFFFF 1 = g64Marker := by decide
theorem test_g64_negative : g64Add (-5) 3 = -2 := by decide

/-- R183: a NaN sum is 0x7FC00000, and −0 is below +0. -/
theorem test_fadd_nan : fadd32 0x7F800000 0xFF800000 = 0x7FC00000 := by decide +kernel
theorem test_fadd_subnormal : fadd32 1 2 = 3 := by decide +kernel
theorem test_max_zero : maxMin32 true 0x80000000 0 = 0 := by decide

/-- No word spells a command: the table gives no bits. -/
theorem test_no_words : decodeTableWord 64 5 = none := rfl

end Sys2Proof.Tests
end

/-! PROOFS. The registers and bytes of the machine as its commands read and write them (spec/00_scope.md). -/

namespace Sys2Proof.Machine

/-! Bytes of a cell list. -/

theorem memByte_nil (a : Nat) : memByte [] a = 0 := rfl

theorem memByte_cons (k : Nat) (v : Byte) (m : List Host.Cell) (a : Nat) :
    memByte ((k, v) :: m) a = if k = a then v else memByte m a := by
  by_cases h : k = a <;> simp [memByte, readD, lookup, h]

/-- An address that reads anything but 0 is listed. -/
theorem exists_cell_of_memByte_ne_zero {m : List Host.Cell} {a : Nat} (h : memByte m a ≠ 0) : ∃ c ∈ m, c.1 = a := by
  induction m with
  | nil => exact absurd (memByte_nil a) h
  | cons c m ih =>
    obtain ⟨k, v⟩ := c
    by_cases hk : k = a
    · exact ⟨(k, v), List.mem_cons_self, hk⟩
    · rw [memByte_cons, if_neg hk] at h
      obtain ⟨c, hc, hca⟩ := ih h
      exact ⟨c, List.mem_cons_of_mem _ hc, hca⟩

/-- An address below every listed one reads 0. -/
theorem memByte_eq_zero_of_lt {m : List Host.Cell} {a : Nat} (h : ∀ c ∈ m, a < c.1) : memByte m a = 0 := by
  by_contra h0
  obtain ⟨c, hc, rfl⟩ := exists_cell_of_memByte_ne_zero h0
  exact Nat.lt_irrefl _ (h c hc)

theorem memory_wf_cons {k : Nat} {v : Byte} {m : List Host.Cell} :
    Memory.wf ((k, v) :: m) = true ↔ (∀ c ∈ m, k < c.1) ∧ v ≠ 0 ∧ Memory.wf m = true := by
  simp only [Memory.wf, rising, List.all_cons, Bool.and_eq_true, List.all_eq_true, decide_eq_true_eq, id, bne_iff_ne]
  tauto

theorem memByte_memWrite (m : List Host.Cell) (a : Nat) (d : Bytes) (x : Nat) :
    memByte (memWrite m a d) x = if a ≤ x ∧ x < a + d.length then d.getD (x - a) 0 else memByte m x := by
  induction d generalizing m a with
  | nil => rw [if_neg (by simp)]; rfl
  | cons b d ih =>
    rw [memWrite, ih, memByte_memPut, List.length_cons]
    rcases Nat.lt_trichotomy x a with hlt | rfl | hgt
    · rw [if_neg (by omega), if_neg (by omega), if_neg (by omega)]
    · rw [if_neg (by omega), if_pos rfl, if_pos (by omega), Nat.sub_self, List.getD_cons_zero]
    · have hstep : x - a = x - (a + 1) + 1 := by omega
      have hrange : (a + 1 ≤ x ∧ x < a + 1 + d.length) ↔ (a ≤ x ∧ x < a + (d.length + 1)) := by omega
      rw [hstep, List.getD_cons_succ, if_neg (show a ≠ x by omega), if_congr hrange rfl rfl]

theorem memRead_memWrite_same (m : List Host.Cell) (a : Nat) (d : Bytes) : memRead (memWrite m a d) a d.length = d := by
  refine List.ext_getElem (by simp [memRead]) fun i _ hi => ?_
  simp [memRead, memByte_memWrite, hi]

/-- A list that reads as a canonical one does lists the first address of that one. -/
theorem exists_cell_of_reads_alike {k : Nat} {v : Byte} {m n : List Host.Cell} (hm : Memory.wf ((k, v) :: m) = true)
    (h : ∀ a, memByte ((k, v) :: m) a = memByte n a) : ∃ c ∈ n, c.1 = k := by
  obtain ⟨-, hv, -⟩ := memory_wf_cons.1 hm
  refine exists_cell_of_memByte_ne_zero ?_
  rwa [← h k, memByte_cons, if_pos rfl]

/-- Past a common first address, canonical lists that read alike have rests that read alike. -/
theorem tails_read_alike {k : Nat} {v : Byte} {m n : List Host.Cell} (hm : ∀ c ∈ m, k < c.1) (hn : ∀ c ∈ n, k < c.1)
    (h : ∀ a, memByte ((k, v) :: m) a = memByte ((k, v) :: n) a) (a : Nat) : memByte m a = memByte n a := by
  by_cases hk : k = a
  · rw [← hk, memByte_eq_zero_of_lt hm, memByte_eq_zero_of_lt hn]
  · simpa [memByte_cons, hk] using h a

/-- The canonical form is one per memory: its lists are told apart by what they read. -/
theorem memory_eq_of_reads_alike {m n : List Host.Cell} (hm : Memory.wf m = true) (hn : Memory.wf n = true)
    (h : ∀ a, memByte m a = memByte n a) : m = n := by
  induction m generalizing n with
  | nil =>
    cases n with
    | nil => rfl
    | cons c n =>
      obtain ⟨e, he, -⟩ := exists_cell_of_reads_alike hn fun a => (h a).symm
      cases he
  | cons c m ih =>
    obtain ⟨k, v⟩ := c
    obtain ⟨e, he, hek⟩ := exists_cell_of_reads_alike hm h
    cases n with
    | nil => cases he
    | cons c' n =>
      obtain ⟨k', v'⟩ := c'
      obtain ⟨e', he', hek'⟩ := exists_cell_of_reads_alike hn fun a => (h a).symm
      obtain ⟨hkm, -, hm'⟩ := memory_wf_cons.1 hm
      obtain ⟨hkn, -, hn'⟩ := memory_wf_cons.1 hn
      have hkk : k = k' := by
        rcases List.mem_cons.1 he with rfl | he
        · exact hek.symm
        · rcases List.mem_cons.1 he' with rfl | he'
          · exact hek'
          · have := hkn e he
            have := hkm e' he'
            omega
      subst hkk
      have hvv : v = v' := by simpa [memByte_cons] using h k
      subst hvv
      rw [ih hm' hn' (tails_read_alike hkm hkn h)]

/-- Settles O52: a byte written is read by induction on the bytes, and a canonical list is found again, cell by cell, from what it reads. -/
theorem bytesReadBack : Obligations.BytesReadBack :=
  ⟨memByte_memWrite, fun m a d => ⟨memRead_memWrite_same m a d, memWrite_wf d m a⟩,
    fun _ _ hm hn h => memory_eq_of_reads_alike hm hn h⟩

/-! A field of the register file. -/

/-- Settles O51, from the laws of sparse tables under the field's key. -/
theorem fieldsReadBack : Obligations.FieldsReadBack := fun s f a b v =>
  ⟨fget_fset_self s f a b v, fun g x y hk => fget_fset_ne s f a b v g x y (Ne.symm hk), rfl,
    fun h => nodup_putD RKey.ord f.reset s.regs (f.key a b) (v % 2 ^ f.width) h⟩

/-! Register accesses by offset (R14, R19, R402 to R404, R610). -/

section accesses

variable {s : State} {f : Func} {off size : Nat}

theorem exec_rclRead : exec (.rclRead f off size) s =
    .next (emit (readAt s f off size).2 (.readValue f off (readAt s f off size).1)) := rfl

theorem exec_registerWrite (v : Word) : exec (.registerWrite f off size v) s = .next (writeAt s f off size v.toNat) := rfl

theorem exec_deniedRegisterRead : exec (.deniedRegisterRead f off size) s = execDeniedRegisterRead f off size s := rfl

theorem readAt_counter {i : Nat} (hp : pmuPage f off = some i) : readAt s f off size = (pmuPageValue s f i off size, s) := by
  simp [readAt, hp]

theorem readAt_copy {r : Reg} {a b : Nat} (hp : pmuPage f off = none) (ha : access s f off size = .reg r a b) :
    readAt s f off size = readCopy s f r a b := by
  simp [readAt, hp, ha]

/-- A read that reaches no register's copy reads 0 and is counted as its landing says. -/
theorem readAt_off_registers (hp : pmuPage f off = none) (ha : ∀ r a b, access s f off size ≠ .reg r a b) :
    readAt s f off size = (0, countAccess s f (access s f off size)) := by
  unfold readAt
  rw [hp]
  cases hl : access s f off size with
  | reg r a b => exact absurd hl (ha r a b)
  | gap | denied | missized => rfl

theorem writeAt_copy {r : Reg} {a b v : Nat} (ha : access s f off size = .reg r a b) :
    writeAt s f off size v = writeCopy s f r a b (v % 2 ^ r.place.width) := by
  simp [writeAt, ha]

/-- A write that reaches no register's copy is counted as its landing says. -/
theorem writeAt_off_registers {v : Nat} (ha : ∀ r a b, access s f off size ≠ .reg r a b) :
    writeAt s f off size v = countAccess s f (access s f off size) := by
  unfold writeAt
  cases hl : access s f off size with
  | reg r a b => exact absurd hl (ha r a b)
  | gap | denied | missized => rfl

/-- A read off the registers answers 0, whatever kept it off. -/
theorem exec_rclRead_off_registers {l : Landing} (hp : pmuPage f off = none) (hl : access s f off size = l) (hr : ∀ r a b, l ≠ .reg r a b) :
    exec (.rclRead f off size) s = .next (emit (countAccess s f l) (.readValue f off 0)) := by
  subst hl
  rw [exec_rclRead, readAt_off_registers hp hr]

/-- A write off the registers is at most counted. -/
theorem exec_registerWrite_off_registers {l : Landing} (hl : access s f off size = l) (hr : ∀ r a b, l ≠ .reg r a b) (v : Word) :
    exec (.registerWrite f off size v) s = .next (countAccess s f l) := by
  subst hl
  rw [exec_registerWrite, writeAt_off_registers hr]

theorem exec_deniedRegisterRead_refused {l : Landing} (hp : pmuPage f off = none) (hl : access s f off size = l) (h : l = .denied ∨ l = .missized) :
    exec (.deniedRegisterRead f off size) s = .next (emit (countAccess s f l) (.readValue f off 0)) := by
  rcases h with rfl | rfl <;> simp [exec_deniedRegisterRead, execDeniedRegisterRead, hp, hl]

end accesses

/-- Settles O43, by where the access lands. -/
theorem registerAccessesFollowTheirOffsets : Obligations.RegisterAccessesFollowTheirOffsets := by
  refine ⟨?copyRead, ?gap, ?denied, ?missized, ?counter, ?copyWrite⟩
  case copyRead =>
    intro s f off size r a b v t hp ha hv
    rw [exec_rclRead, readAt_copy hp ha, hv]
  case gap =>
    intro s f off size hp ha
    exact ⟨exec_rclRead_off_registers hp ha (by simp), exec_registerWrite_off_registers ha (by simp)⟩
  case denied =>
    intro s f off size hp ha
    exact ⟨exec_rclRead_off_registers hp ha (by simp), exec_deniedRegisterRead_refused hp ha (.inl rfl),
      exec_registerWrite_off_registers ha (by simp)⟩
  case missized =>
    intro s f off size hp ha
    exact ⟨exec_rclRead_off_registers hp ha (by simp), exec_deniedRegisterRead_refused hp ha (.inr rfl),
      exec_registerWrite_off_registers ha (by simp)⟩
  case counter =>
    intro s f off size i hp
    rw [exec_rclRead, readAt_counter hp]
    rfl
  case copyWrite =>
    intro s f off size r a b v ha
    rw [exec_registerWrite, writeAt_copy ha]

end Sys2Proof.Machine

/-! PROOFS. A step on a queue with a command at its front (R28). -/

namespace Sys2Proof.Machine

theorem step_of_pending_cons {s : State} {c : Instr} {rest : List Instr} (h : s.pending = c :: rest) :
    step s = exec c { s with pending := rest } := by
  simp only [step, h]

/-- Settles O45: the step's case of a queue that is not empty. -/
theorem aCommandAtTheFrontRuns : Obligations.ACommandAtTheFrontRuns :=
  ⟨fun _ _ _ => step_of_pending_cons rfl, fun _ _ _ => step_of_pending_cons⟩

end Sys2Proof.Machine

/-! PROOFS. The PHASE events of a round (R37, R61, R84, R85, R116, R123, R124, R134). -/

namespace Sys2Proof.Machine

/-! A PHASE event at its time, of a phase that has not begun and is not held. -/

section phaseEvents

variable {s s1 : State} {j : JobId} {r ph : Nat} {x : Round} {go : State → State}

/-- A phase that nothing holds back does its work after its event has fired. -/
theorem phaseEvent_of_mayBegin (hx : s.round? j r = some x) (hdue : phaseTime x.plan ph ≤ s.now) (hnew : begun x ph = false)
    (hfree : x.held.contains (phaseOf ph) = false) (hj : s.alive j = true)
    (hfired : doubtfulCloses (fireEntry s (phaseEntry j r (ph - 1)) false) j x ph = s1) (hmay : mayBegin s1 j x ph = true) :
    phaseEvent s j r ph go = go s1 := by
  simp only [phaseEvent, hx, hnew, hfree, hj, Nat.not_lt.2 hdue, hfired, hmay, Bool.false_eq_true, not_true_eq_false, or_self, if_false, if_true]

/-- A phase that something holds back is noted as held; its slip is recorded where it is the Offer or the phase before it has not begun. -/
theorem phaseEvent_of_not_mayBegin (hx : s.round? j r = some x) (hdue : phaseTime x.plan ph ≤ s.now) (hnew : begun x ph = false)
    (hfree : x.held.contains (phaseOf ph) = false) (hj : s.alive j = true)
    (hfired : doubtfulCloses (fireEntry s (phaseEntry j r (ph - 1)) false) j x ph = s1) (hmay : mayBegin s1 j x ph = false) :
    phaseEvent s j r ph go =
      holdPhase (if ph = 1 ∨ ¬ begun x (ph - 1) then logJob s1 j 0x01 r ph (phaseTime x.plan ph) else s1) j r ph := by
  simp only [phaseEvent, hx, hnew, hfree, hj, Nat.not_lt.2 hdue, hfired, hmay, Bool.false_eq_true, not_true_eq_false, or_self, if_false]

end phaseEvents

/-! The work of each phase where no later one is held. -/

/-- The round key drawn into the round's ROUND slot (R61). -/
def roundKeyDrawn (s : State) (j : JobId) (r : Nat) : State :=
  fillSlot (tollDone (drawScalar (served s 1)).2 (some j) 1 0) (((drawScalar (served s 1)).2.job j).roundSlot r) 2 j 2 1 0
    (toBe 48 (drawScalar (served s 1)).1)

/-- The round key `d` and the locked entries noted in the round, and the front-ends' counts cleared (R98, R337). -/
def offerNoted (s : State) (j : JobId) (r d : Nat) : State :=
  let t := (s.modRound j r (fun x => { x with offerDone := true, priv := d, pub := publicOf d, lockedKeys := usedEntries (s.job j) x.plan })).modJob j
    (fun J => { J with offered := true })
  let u := fset (fset t RIND_JOB_KEYS.LOCKED j 0 (lockedMask t j)) ROS_JOB_COUNTS.JOINED j 0 0
  (fesOf u j).foldl clearFeCounts u

/-- Each cohort's Neighbours, then the NEIGHBOURS of the members (R116, R310). -/
def cohortsJoined (s : State) (j : JobId) (r : Nat) (y : Round) : State :=
  let joined := (joinedSlots s j r).filter (fun u => (entryOf s j r u).state == .JOINED)
  (joined.filter (fun u => isMember y.plan u)).foldl (fun t u => neighbour j r y t u [])
    ((List.range (pCohortCount y.plan)).foldl (neighboursCohort j r y joined) s)

/-- The share bundles sent and the accumulators zeroed (R123, R169). -/
def bundlesSentAndZeroed (s : State) (j : JobId) (r : Nat) (y : Round) : State :=
  (List.range (pCohortCount y.plan)).foldl (fun t c =>
    (clearCohort t j y c).modCohort j r c (fun k => { k with accum := [], check := [0, 0, 0, 0], sums := [] }))
    ((y.bundles.map (·.1)).foldl (fun t u => tell t j r u 0x83 (bundleMsg (bundlesTo y u))) s)

section phaseWork

variable {s s2 s3 : State} {j : JobId} {r : Nat} {x y : Round}

theorem beginOffer_of_ready (hready : entropyReady s = true) (hslot : roundKeyDrawn s j r = s2)
    (hround : offerNoted s2 j r (drawScalar (served s 1)).1 = s3) (hy : s3.round? j r = some y) (hlater : y.held.contains .join = false) :
    beginOffer s j r = markPhase ((fesOf s3 j).foldl (sendOffer j y) (followOffer s3 j r (pOfferTime y.plan))) j r 1 := by
  subst hslot hround
  simp only [roundKeyDrawn, offerNoted] at hy ⊢
  unfold beginOffer
  simp only [hready, not_true_eq_false, hy, hlater, Bool.false_eq_true, if_false]

theorem beginJoin_of_free (hy : (markPhase s j r 2).round? j r = some y) (hlater : y.held.contains .neighbours = false) :
    beginJoin s j r = markPhase s j r 2 := by
  unfold beginJoin
  simp only [hy, hlater, Bool.false_eq_true, if_false]

theorem beginNeighbours_of_free (hy : (markPhase s j r 3).round? j r = some y)
    (hcounts : fset (fset (markPhase s j r 3) CUL_JOB_COHORTS.ABANDONED j 0 0) CUL_JOB_COHORTS.UNMASKED j 0 0 = s2)
    (hcohorts : cohortsJoined s2 j r y = s3) (hlater : (s3.round? j r).map (fun z => z.held.contains .shares) = some false) :
    beginNeighbours s j r = s3 := by
  obtain ⟨z, hz, hfree⟩ := Option.map_eq_some_iff.1 hlater
  subst hcounts hcohorts
  simp only [cohortsJoined] at hz ⊢
  unfold beginNeighbours
  simp only [hy, hz, hfree, Bool.false_eq_true, false_and, if_false]

theorem beginShares_of_masked (hy : s.round? j r = some y) (hmasked : pSealed y.plan = false) (hready : entropyReady s = true) :
    beginShares s j r =
      enterShares ((fillSlot (drawKey (served s 1)).2 (((drawKey (served s 1)).2.job j).bundleSlot r) 0 j 1 1 0 (keyBytes (drawKey (served s 1)).1)).modRound j r
        (fun x => { x with bundleKey := some (drawKey (served s 1)).1 })) j r := by
  simp only [beginShares, hy, hmasked, hready, Bool.false_eq_true, not_true_eq_false, if_false]

theorem beginUpload_of_masked (hy : (markPhase s j r 5).round? j r = some y) (hmasked : pSealed y.plan = false)
    (hzeroed : trierLoop (bundlesSentAndZeroed (markPhase s j r 5) j r y) j = s2)
    (hkeys : (liveCohorts y).foldl (drawCheckKey j r (appliedFrac s2 j)) s2 = s3)
    (hlater : (s3.round? j r).map (fun z => z.held.contains .close) = some false) :
    beginUpload s j r = s3 := by
  obtain ⟨z, hz, hfree⟩ := Option.map_eq_some_iff.1 hlater
  subst hzeroed hkeys
  simp only [bundlesSentAndZeroed] at hz ⊢
  unfold beginUpload
  simp only [hy, hmasked, hz, hfree, Bool.false_eq_true, if_false]

theorem beginUnmask_of_masked (hy : (markPhase s j r 7).round? j r = some y) (hmasked : pSealed y.plan = false) (hopen : y.deadline = false) :
    beginUnmask s j r =
      fset (fset ((liveCohorts y).foldl (fun t c => (y.cohort c).survivors.foldl (requestShares j r y (y.cohort c)) t) (markPhase s j r 7))
        TOL_JOB_UNMASK.NEEDED j 0 ((liveCohorts y).map (fun c => (y.cohort c).secrets.length)).sum) TOL_JOB_UNMASK.DONE j 0 0 := by
  unfold beginUnmask
  simp only [hy, hmasked, hopen, Bool.false_eq_true, if_false]

end phaseWork

section phaseCommands

variable {s : State} {j : JobId} {r : Nat}

theorem exec_offerBegin : exec (.offerBegin j r) s = .next (phaseEvent s j r 1 (fun t => beginOffer t j r)) := rfl
theorem exec_joinBegin : exec (.joinBegin j r) s = .next (phaseEvent s j r 2 (fun t => beginJoin t j r)) := rfl
theorem exec_neighboursBegin : exec (.neighboursBegin j r) s = .next (phaseEvent s j r 3 (fun t => beginNeighbours t j r)) := rfl
theorem exec_sharesBegin : exec (.sharesBegin j r) s = .next (phaseEvent s j r 4 (fun t => beginShares t j r)) := rfl
theorem exec_uploadBegin : exec (.uploadBegin j r) s = .next (phaseEvent s j r 5 (fun t => beginUpload t j r)) := rfl
theorem exec_closeBegin : exec (.closeBegin j r) s = .next (phaseEvent s j r 6 (fun t => beginClose t j r)) := rfl
theorem exec_unmaskBegin : exec (.unmaskBegin j r) s = .next (phaseEvent s j r 7 (fun t => beginUnmask t j r)) := rfl

end phaseCommands

/-- Settles O9: each event does its phase's own work, or notes the phase as held. -/
theorem phasesBeginInTurn : Obligations.PhasesBeginInTurn := by
  refine ⟨?offer, ?join, ?neighbours, ?shares, ?upload, ?close, ?unmask, ?held⟩
  case offer =>
    intro s s1 s2 s3 j r x y hx hdue hnew hfree hj hfired hmay hready hslot hround hy hlater
    rw [exec_offerBegin, phaseEvent_of_mayBegin hx hdue hnew hfree hj hfired hmay, beginOffer_of_ready hready hslot hround hy hlater]
  case join =>
    intro s s1 j r x y hx hdue hnew hfree hj hfired hmay hy hlater
    rw [exec_joinBegin, phaseEvent_of_mayBegin hx hdue hnew hfree hj hfired hmay, beginJoin_of_free hy hlater]
  case neighbours =>
    intro s s1 s2 s3 j r x y hx hdue hnew hfree hj hfired hmay hy hcounts hcohorts hlater
    rw [exec_neighboursBegin, phaseEvent_of_mayBegin hx hdue hnew hfree hj hfired hmay, beginNeighbours_of_free hy hcounts hcohorts hlater]
  case shares =>
    intro s s1 j r x y hx hdue hnew hfree hj hfired hmay hy hmasked hready
    rw [exec_sharesBegin, phaseEvent_of_mayBegin hx hdue hnew hfree hj hfired hmay, beginShares_of_masked hy hmasked hready]
  case upload =>
    intro s s1 s2 s3 j r x y hx hdue hnew hfree hj hfired hmay hy hmasked hzeroed hkeys hlater
    rw [exec_uploadBegin, phaseEvent_of_mayBegin hx hdue hnew hfree hj hfired hmay, beginUpload_of_masked hy hmasked hzeroed hkeys hlater]
  case close =>
    intro s s1 j r x hx hdue hnew hfree hj hfired hmay
    rw [exec_closeBegin, phaseEvent_of_mayBegin hx hdue hnew hfree hj hfired hmay, beginClose]
  case unmask =>
    intro s s1 j r x y hx hdue hnew hfree hj hfired hmay hy hmasked hopen
    rw [exec_unmaskBegin, phaseEvent_of_mayBegin hx hdue hnew hfree hj hfired hmay, beginUnmask_of_masked hy hmasked hopen]
  case held =>
    intro s s1 j r x hx hdue hnew hfree hj hfired hmay
    rw [exec_uploadBegin, phaseEvent_of_not_mayBegin hx hdue hnew hfree hj hfired hmay]
    cases begun x 4 <;> simp

end Sys2Proof.Machine

/-! PROOFS. The loads and ROUND_PLAN (R36, R296, R336, R357, R361, R417 to R421, R426). -/

namespace Sys2Proof.Machine

/-! A descriptor that may start. -/

section starts

variable {s t : State} {j : JobId} {f : Func} {opc : Nat} {d : Desc} {go : State → Bytes → State}

theorem startDesc_of_startable (hd : startable s f opc = some d) (ht : takeDesc s f d = t) : startDesc s f opc go = go t d.bytes := by
  simp only [startDesc, hd, ht]

/-- A VF's descriptor starts while its job is alive and no abort of it runs. -/
theorem startVf_of_alive (hrun : abortRuns s j = false) (hd : startable s (vfOf j) opc = some d) (ht : takeDesc s (vfOf j) d = t)
    (hj : t.alive j = true) : startVf s j opc go = go t d.bytes := by
  simp only [startVf, hrun, Bool.false_eq_true, if_false, startDesc_of_startable hd ht, hj, if_true]

end starts

/-! What each load does with the bytes that it fetched. -/

section loads

variable {s u : State} {j : JobId} {d img p b set : Bytes} {host : Option Bytes} {pt : Nat × Nat}

theorem loadDesc_of_ok (hj : s.alive (dJob d) = true) (himg : fetchBuf s (dJob d) (leAt d 24 8) (leAt d 32 4) host = .ok img)
    (hok : loadStatus s (dJob d) (leAt d 18 2) img = .ok) :
    loadDesc s d host = complete (storeRecipe s (dJob d) (leAt d 18 2) img) pf0 d .ok (body 0 0 0 0) := by
  unfold loadDesc
  simp only [hj, himg, hok, not_true_eq_false, if_false, if_true]

theorem loadDesc_of_refused {st : RStat} (hj : s.alive (dJob d) = true)
    (himg : fetchBuf s (dJob d) (leAt d 24 8) (leAt d 32 4) host = .ok img)
    (hst : loadStatus s (dJob d) (leAt d 18 2) img = st) (hbad : st ≠ .ok) :
    loadDesc s d host = complete (ev s HIF_RCP_EVENT.LOAD_FAIL_EV) pf0 d .engine (body 0 st.code 0 0) := by
  unfold loadDesc
  simp only [hj, himg, hst, hbad, not_true_eq_false, if_false]

theorem planDesc_of_accepted (hp : fetchBuf s j (leAt d 16 8) (leAt d 24 4) host = .ok p) (hlen : leAt d 24 4 = 256 + pSealedLen p)
    (hok : planRefusal s j p = none) : planDesc s j d host = acceptPlan s j d p := by
  unfold planDesc
  simp only [hp, hok]
  exact if_neg (not_not_intro hlen)

theorem planDesc_of_refused {why : Nat} (hp : fetchBuf s j (leAt d 16 8) (leAt d 24 4) host = .ok p)
    (hlen : leAt d 24 4 = 256 + pSealedLen p) (hbad : planRefusal s j p = some why) : planDesc s j d host = refusePlan s j d why := by
  unfold planDesc
  simp only [hp, hbad]
  exact if_neg (not_not_intro hlen)

theorem keyDesc_of_free (himg : fetchBuf s j (leAt d 24 8) (leAt d 32 8) host = .ok img) (hform : keyImageOk img = true)
    (hfree : keyBusy (s.job j) (leAt d 16 1) = false) :
    keyDesc s j d host = complete (storeKey s j (leAt d 16 1) img) (vfOf j) d .ok (body 0 0 0 0) := by
  unfold keyDesc
  simp only [himg, hform, hfree, not_true_eq_false, Bool.false_eq_true, if_false]

theorem keyDesc_of_busy (himg : fetchBuf s j (leAt d 24 8) (leAt d 32 8) host = .ok img) (hform : keyImageOk img = true)
    (hbusy : keyBusy (s.job j) (leAt d 16 1) = true) :
    keyDesc s j d host = complete (rindStatus s j 1 .keyBusy) (vfOf j) d .engine (body 5 RindStat.keyBusy.code 0 0) := by
  unfold keyDesc
  simp only [himg, hform, hbusy, not_true_eq_false, if_false, if_true]

theorem heldDesc_of_not_conf (hb : fetchBuf s j (leAt d 24 8) (leAt d 32 8) host = .ok b) (hplain : s.conf j = false) :
    heldDesc s j d host = holdSet s j d b := by
  unfold heldDesc
  simp only [hb, hplain, Bool.false_eq_true, not_false_eq_true, if_true]

theorem heldDesc_of_conf (hb : fetchBuf s j (leAt d 24 8) (leAt d 32 8) host = .ok b) (hconf : s.conf j = true)
    (hlen : b.length = 144 + leAt b 8 8) : heldDesc s j d host = importSet s j d b := by
  unfold heldDesc
  simp only [hb, hconf, not_true_eq_false, if_false]
  exact if_neg (not_not_intro hlen)

/-- A wrapped set that the import key opens is held as any other. -/
theorem importSet_of_opens (hslot : takeSlot s (s.job j).importSlot j 2 1 = (.ok, u)) (hpt : wrapPoint b = some pt)
    (hset : unwrapSet (fget (tollDone u (some j) 1 1) LND_JOB_TAG.TAG j 0) (slotNumber (tollDone u (some j) 1 1) (s.job j).importSlot) b pt = some set) :
    importSet s j d b = holdSet (tollDone u (some j) 1 1) j d set := by
  unfold importSet
  simp only [hslot, hpt, hset, ne_eq, not_true_eq_false, if_false]

end loads

section loadCommands

variable {s : State} {j : JobId} {host : Option Bytes}

theorem exec_recipeLoad : exec (.recipeLoad host) s = .next (startDesc s pf0 4 (fun t d => loadDesc t d host)) := rfl
theorem exec_roundPlan : exec (.roundPlan j host) s = .next (startVf s j 0x10 (fun t d => planDesc t j d host)) := rfl
theorem exec_keyLoad : exec (.keyLoad j host) s = .next (startVf s j 0x12 (fun t d => keyDesc t j d host)) := rfl

/-- HELD_LOAD goes on while no round of the job is in its gate. -/
theorem exec_heldLoad (hgate : (s.job j).rounds.any (fun x => x.phase == .gate) = false) :
    exec (.heldLoad j host) s = .next (startVf s j 0x13 (fun t d => heldDesc t j d host)) :=
  congrArg Host.Outcome.next (if_neg (by rw [hgate]; decide))

end loadCommands

/-- Settles O25: each descriptor that starts does what its load does with the bytes fetched. -/
theorem loadsAndPlansAreTaken : Obligations.LoadsAndPlansAreTaken := by
  refine ⟨?recipe, ?badRecipe, ?plan, ?badPlan, ?key, ?busyKey, ?held, ?imported⟩
  case recipe =>
    intro s host d t img hd ht hj himg hok
    rw [exec_recipeLoad, startDesc_of_startable hd ht, loadDesc_of_ok hj himg hok]
  case badRecipe =>
    intro s host d t img st hd ht hj himg hst hbad
    rw [exec_recipeLoad, startDesc_of_startable hd ht, loadDesc_of_refused hj himg hst hbad]
  case plan =>
    intro s j host d t p hrun hd ht hj hp hlen hok
    rw [exec_roundPlan, startVf_of_alive hrun hd ht hj, planDesc_of_accepted hp hlen hok]
    rfl
  case badPlan =>
    intro s j host d t p why hrun hd ht hj hp hlen hbad
    rw [exec_roundPlan, startVf_of_alive hrun hd ht hj, planDesc_of_refused hp hlen hbad]
    rfl
  case key =>
    intro s j host d t img hrun hd ht hj himg hform hfree
    rw [exec_keyLoad, startVf_of_alive hrun hd ht hj, keyDesc_of_free himg hform hfree]
    rfl
  case busyKey =>
    intro s j host d t img hrun hd ht hj himg hform hbusy
    rw [exec_keyLoad, startVf_of_alive hrun hd ht hj, keyDesc_of_busy himg hform hbusy]
  case held =>
    intro s j host d t b hgate hrun hd ht hj hb hplain
    rw [exec_heldLoad hgate, startVf_of_alive hrun hd ht hj, heldDesc_of_not_conf hb hplain]
    rfl
  case imported =>
    intro s j host d t b u pt set hgate hrun hd ht hj hb hconf hlen hslot hpt hset
    rw [exec_heldLoad hgate, startVf_of_alive hrun hd ht hj, heldDesc_of_conf hb hconf hlen, importSet_of_opens hslot hpt hset]
    rfl

end Sys2Proof.Machine

/-! PROOFS. Pilot's modes, rates, throttle, shares, pins and moves (R46, R48, R512 to R514, R518 to R521, R615, R616). -/

namespace Sys2Proof.Machine

/-! A write of the mode. -/

section modes

variable {s : State} {v : Nat}

theorem writeMode_of_new (hdef : PLT_MODE.MODE.of v ≤ 4) (hnew : PLT_MODE.MODE.of v ≠ get1 s PLT_MODE.MODE) :
    writeMode s v = ev (placementLoop ((List.range 5).foldl refreshCluster
      (set1 (set1 s PLT_MODE.MODE (PLT_MODE.MODE.of v)) PLT_POWER.ENVELOPE_W (envelopeW (PLT_MODE.MODE.of v))))) PLT_EVENT.MODE_EV :=
  if_neg (not_or.2 ⟨Nat.not_lt.2 hdef, hnew⟩)

theorem writeMode_of_undefined (hundef : 4 < PLT_MODE.MODE.of v) : writeMode s v = s :=
  if_pos (.inl hundef)

end modes

/-! The DVFS loop. -/

section dvfs

variable {s : State} {l : List ClusterLoad} {p c : Nat} {ps cs : List Nat}

theorem lowerPower_nil : lowerPower l [] s = s := rfl

theorem lowerPower_of_within (h : p ≤ 1000 * get1 (set1 s PLT_POWER.POWER_MW p) PLT_POWER.ENVELOPE_W) :
    lowerPower l (p :: ps) s = set1 s PLT_POWER.POWER_MW p :=
  if_neg (Nat.not_lt.2 h)

/-- Above the envelope the first cluster that can go lower loses a step. -/
theorem lowerPower_of_above (h : 1000 * get1 (set1 s PLT_POWER.POWER_MW p) PLT_POWER.ENVELOPE_W < p)
    (hc : lowerable (set1 s PLT_POWER.POWER_MW p) l = c :: cs) :
    lowerPower l (p :: ps) s = lowerPower l ps (setRate (set1 s PLT_POWER.POWER_MW p) c
      (max (effMin (set1 s PLT_POWER.POWER_MW p) c) (stepDown (fget (set1 s PLT_POWER.POWER_MW p) PLT_CLU_STAT.RATE_PCT c 0)))) := by
  rw [lowerPower, if_pos h, hc]

/-- Above the envelope the rates stay once no cluster can go lower. -/
theorem lowerPower_of_lowest (h : 1000 * get1 (set1 s PLT_POWER.POWER_MW p) PLT_POWER.ENVELOPE_W < p)
    (hc : lowerable (set1 s PLT_POWER.POWER_MW p) l = []) : lowerPower l (p :: ps) s = set1 s PLT_POWER.POWER_MW p := by
  rw [lowerPower, if_pos h, hc]

theorem exec_dvfsTick_of_due (hdue : s.dvfsAt ≤ s.now) :
    exec (.dvfsTick l ps) s = .next (lowerPower l ps
      ((List.range 5).foldl (fun t c => dvfsCluster t c (l.getD c ⟨0, false, 0⟩)) { s with dvfsAt := s.now + 100000 })) :=
  congrArg Host.Outcome.next (if_neg (Nat.not_lt.2 hdue))

end dvfs

/-! The throttle. -/

section throttle

variable {s t u : State} {m : Limits}

theorem exec_throttleStep_of_limit (hlimit : limitReached m = true)
    (ht : showInput { s with hotPorts := hotAfter s m } m.mv m.ma m.watts = t)
    (hu : (if on t PWR_STATUS.THROTTLING then t else ev (set1 t PWR_STATUS.THROTTLING 1) PWR_EVENT.THROTTLE_EV) = u)
    (hdue : u.throttleAt ≤ u.now) (hsome : throttled u m ≠ []) :
    exec (.throttleStep m) s = .next { (throttled u m).foldl lowerCluster u with throttleAt := u.now + 100000 } := by
  change execThrottleStep m s = _
  unfold execThrottleStep
  simp only [hlimit, if_true, ht, hu]
  exact congrArg Host.Outcome.next (if_neg (not_or.2 ⟨Nat.not_lt.2 hdue, hsome⟩))

theorem exec_throttleStep_of_release (hlimit : limitReached m = false)
    (ht : set1 (showInput { s with hotPorts := hotAfter s m } m.mv m.ma m.watts) PWR_STATUS.THROTTLING 0 = t)
    (hreleased : (on (showInput { s with hotPorts := hotAfter s m } m.mv m.ma m.watts) PWR_STATUS.THROTTLING && !limitReleased m) = false)
    (hdue : t.throttleAt ≤ t.now) (hsome : t.throttleCap ≠ []) :
    exec (.throttleStep m) s = .next { liftThrottle t with throttleAt := t.now + 1000000 } := by
  have hgo : ¬ (on (showInput { s with hotPorts := hotAfter s m } m.mv m.ma m.watts) PWR_STATUS.THROTTLING = true ∧ ¬ limitReleased m = true) := by
    simpa using hreleased
  change execThrottleStep m s = _
  unfold execThrottleStep
  simp only [hlimit, Bool.false_eq_true, if_false, hgo, ht]
  exact congrArg Host.Outcome.next (if_neg (not_or.2 ⟨Nat.not_lt.2 hdue, hsome⟩))

end throttle

/-! The shares of a unit class (R513). -/

section shares

variable {s : State} {k : Nat} {j : JobId}

theorem shareOf_of_idle (h : classWork s k j = false) : shareOf s k j = 0 :=
  if_neg (by rw [h]; decide)

theorem shareOf_of_work (h : classWork s k j = true) : shareOf s k j = min (max (wantedShare s k j) (metMin s k j)) (shareMax s k j) :=
  if_pos h

theorem metMin_le_shareOf (h : classWork s k j = true) (hb : metMin s k j ≤ shareMax s k j) : metMin s k j ≤ shareOf s k j := by
  rw [shareOf_of_work h]
  exact le_min (le_max_right _ _) hb

theorem shareOf_le_shareMax (h : classWork s k j = true) : shareOf s k j ≤ shareMax s k j := by
  rw [shareOf_of_work h]
  exact min_le_right _ _

theorem scaledMin_of_met (h : minSum s k ≤ liveUnits s k) : scaledMin s k j = shareMin s k j := if_pos h

theorem metMin_of_met (h : minSum s k ≤ liveUnits s k) : metMin s k j = shareMin s k j := by
  simp [metMin, scaledMin_of_met h]

theorem minSum_eq : minSum s k = ∑ i, shareMin s k i := (Fin.sum_univ_def _).symm

/-- The scaled MINs, rounded down, ask for no more than the live units. -/
theorem sum_scaledMin_le (h : liveUnits s k < minSum s k) : ∑ i, scaledMin s k i ≤ liveUnits s k := by
  refine Nat.le_of_mul_le_mul_right ?_ (Nat.zero_lt_of_lt h)
  calc (∑ i, scaledMin s k i) * minSum s k
      = ∑ i, shareMin s k i * liveUnits s k / minSum s k * minSum s k := by
        simp only [Finset.sum_mul, scaledMin, if_neg (Nat.not_le.2 h)]
    _ ≤ ∑ i, shareMin s k i * liveUnits s k := Finset.sum_le_sum fun i _ => Nat.div_mul_le_self _ _
    _ = liveUnits s k * minSum s k := by rw [← Finset.sum_mul, ← minSum_eq, Nat.mul_comm]

/-- One unit each for the jobs of a list is no more units than the list is long. -/
theorem sum_contains_le (l : List JobId) : ∑ i, (if l.contains i then 1 else 0) ≤ l.length := by
  have hset : Finset.univ.filter (fun i => l.contains i = true) = l.toFinset := by ext; simp
  rw [← Finset.card_filter, hset]
  exact l.toFinset_card_le

/-- The reduced MINs ask for no more than the live units: what scaling gives, and at most the units that it leaves over. -/
theorem sum_metMin_le (h : liveUnits s k < minSum s k) : ((List.finRange 16).map (metMin s k)).sum ≤ liveUnits s k := by
  rw [← Fin.sum_univ_def]
  simp only [metMin, Finset.sum_add_distrib]
  refine (Nat.add_le_add_left ((sum_contains_le _).trans (List.length_take_le _ _)) _).trans ?_
  rw [← Fin.sum_univ_def]
  exact (Nat.add_sub_cancel' (sum_scaledMin_le h)).le

end shares

/-! Pins and moves. -/

section placement

variable {s t : State} {v : Nat} {j : JobId} {r : Nat} {c : CohortId} {h : Bool} {x : Round}

theorem writePins_of_met (hj : Fin.ofNat 16 (get1 s PLT_JOB_SEL.JOB) = j) (ht : storeField j 0 v s PLT_JOB_PIN.PIN_LOST = t)
    (hok : pinOk t j (PLT_JOB_PIN.ARRAYS.of v) (PLT_JOB_PIN.RESIDENT.of v) = true) :
    writePins s v =
      let u := fset (fset (fset t PLT_JOB_PIN.PIN_REFUSED j 0 0) PLT_JOB_PIN.ARRAYS j 0 (PLT_JOB_PIN.ARRAYS.of v)) PLT_JOB_PIN.RESIDENT j 0 (PLT_JOB_PIN.RESIDENT.of v)
      if PLT_JOB_PIN.RESIDENT.of v = 1 then moveAll u j else u := by
  unfold writePins
  simp only [hj, ht, hok, if_true]

theorem writePins_of_refused (hj : Fin.ofNat 16 (get1 s PLT_JOB_SEL.JOB) = j) (ht : storeField j 0 v s PLT_JOB_PIN.PIN_LOST = t)
    (hbad : pinOk t j (PLT_JOB_PIN.ARRAYS.of v) (PLT_JOB_PIN.RESIDENT.of v) = false) :
    writePins s v = ev (fset t PLT_JOB_PIN.PIN_REFUSED j 0 1) PLT_EVENT.PIN_EV := by
  unfold writePins
  simp only [hj, ht, hbad, Bool.false_eq_true, if_false]

theorem moveCohort_of_clean (hx : s.round? j r = some x) (hclean : s.poison = []) :
    moveCohort s j r c h = s.modRound j r (fun _ => x.modCohort c (fun k => { k with inHbm := h })) := by
  unfold moveCohort
  simp only [hx, hclean, List.isEmpty_nil, if_true]

theorem moveCohort_of_poison {y : Round} (hx : s.round? j r = some x) (hpoison : s.poison ≠ [])
    (hy : y = x.modCohort c (fun k => { k with inHbm := h })) :
    moveCohort s j r c h =
      let hit := ((linesOf (accAt s j x c) (accSpan x.plan)).zip (linesOf (accAt s j y c) (accSpan x.plan))).filter (fun e => s.poison.contains (poisonKey s j (around s j e.1)))
      let t := clearPlace (clearPlace (s.modRound j r (fun _ => y)) j (accAt s j x c) (accSpan x.plan)) j (accAt s j y c) (accSpan x.plan)
      hit.foldl (fun u e => setPoison u (poisonKey u j (around u j e.2))) t := by
  have hdirty : s.poison.isEmpty = false := by simpa using hpoison
  subst hy
  unfold moveCohort
  simp only [hx, hdirty, Bool.false_eq_true, if_false]

theorem exec_placementMove_of_ok (hx : s.round? j r = some x) (hidle : jobBusy s j = false) (hside : (x.cohort c).inHbm ≠ h)
    (hc : c.val < pCohortCount x.plan) (hok : moveOk s j x c h = true) :
    exec (.placementMove j r c h) s = .next (moveCohort s j r c h) := by
  change execPlacementMove j r c h s = _
  unfold execPlacementMove
  simp only [hx, hidle, hside, Nat.not_le.2 hc, hok, Bool.false_eq_true, not_true_eq_false, or_self, if_false]

/-- A cohort stays where it is while its job has issued work, or where it may not move. -/
theorem exec_placementMove_of_held (hx : s.round? j r = some x) (hheld : jobBusy s j = true ∨ moveOk s j x c h = false) :
    exec (.placementMove j r c h) s = .next s := by
  change execPlacementMove j r c h s = _
  unfold execPlacementMove
  rcases hheld with hbusy | hno
  · simp only [hx, hbusy, true_or, if_true]
  · simp only [hx, hno, Bool.false_eq_true, not_false_eq_true, or_true, if_true]

end placement

/-- Settles O34: each command by the case of its meaning; the MINs by their sum over the jobs. -/
theorem pilotSetsModesRatesAndPins : Obligations.PilotSetsModesRatesAndPins := by
  refine ⟨?mode, ?undefinedMode, ?within, ?above, ?loop, ?throttle, ?release, ?shares, ?pin, ?refusedPin, ?cleanMove, ?poisonedMove, ?noMove⟩
  case mode =>
    intro s v hdef hnew
    exact congrArg Host.Outcome.next (writeMode_of_new hdef hnew)
  case undefinedMode =>
    intro s v hundef
    exact congrArg Host.Outcome.next (writeMode_of_undefined hundef)
  case within =>
    rintro s l p ps t hdue rfl hle
    rw [exec_dvfsTick_of_due hdue, lowerPower_of_within hle]
  case above =>
    rintro s l p ps t c cs hdue rfl hlt hc
    rw [exec_dvfsTick_of_due hdue, lowerPower_of_above hlt hc]
  case loop =>
    rintro s t l p ps c cs rfl
    exact ⟨lowerPower_nil, lowerPower_of_within, lowerPower_of_above, lowerPower_of_lowest⟩
  case throttle => exact fun _ _ _ _ => exec_throttleStep_of_limit
  case release => exact fun _ _ _ => exec_throttleStep_of_release
  case shares =>
    intro s k j
    exact ⟨shareOf_of_idle, fun hwork hb => ⟨metMin_le_shareOf hwork hb, shareOf_le_shareMax hwork⟩, metMin_of_met, sum_metMin_le⟩
  case pin =>
    intro s v j t hj ht hok
    exact congrArg Host.Outcome.next (writePins_of_met hj ht hok)
  case refusedPin =>
    intro s v j t hj ht hbad
    exact congrArg Host.Outcome.next (writePins_of_refused hj ht hbad)
  case cleanMove =>
    rintro s j r c h x y hx hidle hside hc hok hclean rfl
    rw [exec_placementMove_of_ok hx hidle hside hc hok, moveCohort_of_clean hx hclean]
  case poisonedMove =>
    intro s j r c h x y hx hidle hside hc hok hpoison hy
    rw [exec_placementMove_of_ok hx hidle hside hc hok, moveCohort_of_poison hx hpoison hy]
  case noMove => exact fun _ _ _ _ _ _ => exec_placementMove_of_held

end Sys2Proof.Machine

/-! PROOFS. The sums of a ring accumulator (R78, R168, R187). -/

namespace Sys2Proof.Machine

theorem ringAdd_right_comm (w a x y : Nat) : ringAdd w (ringAdd w a x) y = ringAdd w (ringAdd w a y) x := by
  simp only [ringAdd, Nat.mod_add_mod, Nat.add_right_comm a x y]

/-- The first element is added at the base, the others from the next coordinate on. -/
theorem addElems_cons (w base : Nat) (acc : NatMap Nat) (y : Nat) (ys : List Nat) :
    addElems w base acc (y :: ys) = addElems w (base + 1) (putD id 0 acc base (ringAdd w (readD 0 acc base) y)) ys := by
  simp only [addElems, List.zipIdx_cons', List.foldl_cons, List.foldl_map, Prod.map_fst, Prod.map_snd, id, Nat.add_zero,
    Nat.add_assoc, Nat.add_comm 1]

theorem readD_addElems (w base k : Nat) (acc : NatMap Nat) (ys : List Nat) :
    readD 0 (addElems w base acc ys) k =
      if base ≤ k ∧ k < base + ys.length then ringAdd w (readD 0 acc k) (ys.getD (k - base) 0) else readD 0 acc k := by
  induction ys generalizing base acc with
  | nil => exact (if_neg (by simp)).symm
  | cons y ys ih =>
    rw [addElems_cons, ih, readD_putD, List.length_cons]
    rcases Nat.lt_trichotomy k base with hlt | rfl | hgt
    · rw [if_neg (by omega), if_neg (by omega), if_neg (by omega)]
    · rw [if_neg (by omega), if_pos rfl, if_pos (by omega), Nat.sub_self, List.getD_cons_zero]
    · have hstep : k - base = k - (base + 1) + 1 := by omega
      have hrange : (base + 1 ≤ k ∧ k < base + 1 + ys.length) ↔ (base ≤ k ∧ k < base + (ys.length + 1)) := by omega
      rw [hstep, List.getD_cons_succ, if_neg (show base ≠ k by omega), if_congr hrange rfl rfl]

/-- Two chunks give each coordinate the same sum in either order: where both reach it, the two ring sums commute. -/
theorem readD_addElems_comm (w a b k : Nat) (acc : NatMap Nat) (xs ys : List Nat) :
    readD 0 (addElems w b (addElems w a acc xs) ys) k = readD 0 (addElems w a (addElems w b acc ys) xs) k := by
  simp only [readD_addElems]
  split <;> split
  · exact ringAdd_right_comm ..
  all_goals rfl

/-- Settles O57, by induction on the chunk's elements. -/
theorem ringSumsDoNotDependOnOrder : Obligations.RingSumsDoNotDependOnOrder :=
  ⟨readD_addElems, readD_addElems_comm⟩

end Sys2Proof.Machine

/-! PROOFS. A message that reaches Landing: the counted refusals and the order of checks (R53, R55, R72, R77, R96). -/

namespace Sys2Proof.Machine

/-! The error counts of a front-end. -/

section counts

variable {s : State} {fe : Nat}

/-- Fields of different registers, or at different bits of one, have different keys. -/
theorem Fld.key_ne {f g : Fld} (h : (f.reg, f.lo) ≠ (g.reg, g.lo)) (a b c d : Nat) : f.key a b ≠ g.key c d :=
  fun e => h (congrArg (fun k => (k.reg, k.lo)) e)

/-- A count grows by at most what is added. -/
theorem fget_count_self_le (f : Fld) (a b n : Nat) : fget (count s f a b n) f a b ≤ fget s f a b + n := by
  rw [count, fget_fset_self]
  exact Nat.mod_le _ _

theorem quarantine_of_within (h : fget s LND_FE_ERR.AUTH_FAILED fe 0 + fget s LND_FE_ERR.MALFORMED fe 0 ≤ get1 s LND_QUAR_THRESH.THRESH) :
    quarantine s fe = s :=
  if_neg fun hover => Nat.not_lt.2 h hover.1

/-- Within the limit the refusal is only counted. -/
theorem silentMalformed_of_within
    (h : fget s LND_FE_ERR.AUTH_FAILED fe 0 + fget s LND_FE_ERR.MALFORMED fe 0 + 1 ≤ get1 s LND_QUAR_THRESH.THRESH) :
    silentMalformed s fe = count (seeChunk s fe) LND_FE_ERR.MALFORMED fe 0 1 := by
  refine quarantine_of_within ?_
  have hauth : fget (count (seeChunk s fe) LND_FE_ERR.MALFORMED fe 0 1) LND_FE_ERR.AUTH_FAILED fe 0 = fget s LND_FE_ERR.AUTH_FAILED fe 0 :=
    fget_fset_ne _ _ _ _ _ _ _ _ (Fld.key_ne (by decide) _ _ _ _)
  have hlimit : get1 (count (seeChunk s fe) LND_FE_ERR.MALFORMED fe 0 1) LND_QUAR_THRESH.THRESH = get1 s LND_QUAR_THRESH.THRESH :=
    fget_fset_ne _ _ _ _ _ _ _ _ (Fld.key_ne (by decide) _ _ _ _)
  have hmal : fget (count (seeChunk s fe) LND_FE_ERR.MALFORMED fe 0 1) LND_FE_ERR.MALFORMED fe 0 ≤ fget s LND_FE_ERR.MALFORMED fe 0 + 1 :=
    fget_count_self_le ..
  rw [hauth, hlimit]
  omega

end counts

/-! The messages that are refused before the order of checks. -/

section unanswered

variable {s : State} {q : Qpn} {c : Bytes}

theorem exec_shortSend_of_landed (hland : landed (takeChunk s q c) q = true) (hlen : c.length < 32) :
    exec (.shortSend q c) s = .next (silentMalformed (takeChunk s q c) (qpFe (takeChunk s q c) q)) :=
  congrArg Host.Outcome.next (if_pos ⟨hland, hlen⟩)

theorem exec_fetchChunk_of_landed (hland : landed (takeChunk s q c) q = true) (hlen : 32 ≤ c.length) (htype : hType c = 6) :
    exec (.fetchChunk q c) s = .next (silentMalformed (takeChunk s q c) (qpFe (takeChunk s q c) q)) :=
  congrArg Host.Outcome.next (if_pos ⟨hland, hlen, htype⟩)

theorem exec_unknownTypeChunk_of_landed {stamp : Nat} (hland : landed (takeChunk s q c) q = true) (hlen : 32 ≤ c.length)
    (hundef : typeFlags (hType c) = none) (hfetch : hType c ≠ 6) :
    exec (.unknownTypeChunk q stamp c) s = .next (answer (takeChunk s q c) q c .malformed (qpFe (takeChunk s q c) q) none false) :=
  congrArg Host.Outcome.next (if_pos ⟨hland, hlen, by rw [hundef]; rfl, hfetch⟩)

end unanswered

/-- Settles O1: the refusal is counted, and within the limit no quarantine follows. -/
theorem unansweredSendsAreCounted : Obligations.UnansweredSendsAreCounted := by
  refine ⟨?short, ?fetch, ?unknown⟩
  case short =>
    rintro s u q c rfl hland hlen hwithin
    rw [exec_shortSend_of_landed hland hlen, silentMalformed_of_within hwithin]
  case fetch =>
    rintro s u q c rfl hland hlen htype hwithin
    rw [exec_fetchChunk_of_landed hland hlen htype, silentMalformed_of_within hwithin]
  case unknown =>
    rintro s u q stamp c rfl hland hlen hundef hfetch
    exact exec_unknownTypeChunk_of_landed hland hlen hundef hfetch

/-! A JOIN (R56, R64, R103). -/

section joins

variable {s : State} {q : Qpn} {stamp : Nat} {c pt : Bytes} {l : Look} {k : KeyRec}

/-- A JOIN that meets its open window goes on from step 9. -/
theorem joinChunk_of_open (hland : landed s q = true) (hlen : 32 ≤ c.length) (htype : hType c = 1) (hopen : judge s q stamp c = .open l) :
    joinChunk s q stamp c = joinAt (lookupEntry s l) q stamp c l := by
  have hpass : ¬ (¬ landed s q = true ∨ c.length < 32 ∨ hType c ≠ 1) := by simp [hland, hlen, htype]
  simp only [joinChunk, if_neg hpass, hopen]

theorem joinToll_of_valid (hkeys : joinKeys l.x c = some k) (hpt : openChunk k c = some pt) (hpair : decodePt (slice c 129 97) ≠ none) :
    joinToll s q c l =
      admitJoin (count (tollDone s (some l.job) 1 2) KST_SLOT_USE.COUNT ((s.job l.job).roundSlot l.r) 0 1) q c l k := by
  simp [joinToll, hkeys, hpt, hpair]

/-- The first JOIN of a slot goes to Toll. -/
theorem joinAt_of_new (hstay : l.withdrawn = false) (hnew : l.key = none) (hbefore : l.x.closed = false) (htoll : tollOn s = true) :
    joinAt s q stamp c l = joinToll s q c l := by
  simp [joinAt, hstay, hnew, hbefore, htoll]

theorem joinAt_of_repeat (hstay : l.withdrawn = false) (hkey : l.key = some k) (heph : slice c 32 97 = k.eph) (hpair : slice c 129 97 = k.pair)
    (hpt : openChunk k c = some pt) : joinAt s q stamp c l = answer s q c .duplicate l.fe (some l) true := by
  simp [joinAt, hstay, hkey, heph, hpair, hpt]

theorem joinAt_of_other_point (hstay : l.withdrawn = false) (hkey : l.key = some k) (heph : slice c 32 97 ≠ k.eph) :
    joinAt s q stamp c l = answer s q c .slotTaken l.fe (some l) false := by
  simp [joinAt, hstay, hkey, heph]

theorem exec_joinChunk : exec (.joinChunk q stamp c) s = .next (joinChunk (takeChunk s q c) q stamp c) := rfl

end joins

/-- Settles O2, by what the slot's key record holds as the JOIN meets step 9. -/
theorem joinIsRecorded : Obligations.JoinIsRecorded := by
  refine ⟨?first, ?repeated, ?other⟩
  case first =>
    rintro s u q stamp c l k pt rfl hland hlen htype hopen hstay hnew hbefore htoll hkeys hpt hpair
    rw [exec_joinChunk, joinChunk_of_open hland hlen htype hopen, joinAt_of_new hstay hnew hbefore htoll, joinToll_of_valid hkeys hpt hpair]
    rfl
  case repeated =>
    rintro s u q stamp c l k pt rfl hland hlen htype hopen hstay hkey heph hpair hpt
    rw [exec_joinChunk, joinChunk_of_open hland hlen htype hopen, joinAt_of_repeat hstay hkey heph hpair hpt]
  case other =>
    rintro s u q stamp c l k rfl hland hlen htype hopen hstay hkey heph
    rw [exec_joinChunk, joinChunk_of_open hland hlen htype hopen, joinAt_of_other_point hstay hkey heph]

/-! The other chunks of a client: from the open window to the authenticated plaintext. -/

/-- A chunk of a client in good standing whose tag verifies is counted as decrypted, then goes to its type's own step. -/
theorem clientChunk_of_authentic {s : State} {q stamp type : Nat} {c pt : Bytes} {l : Look} {k : KeyRec} {pass : State → Look → Bytes → State}
    (hland : landed s q = true) (hlen : 32 ≤ c.length) (htype : hType c = type) (hopen : judge s q stamp c = .open l)
    (hstand : standing l type = none) (hindex : type = 3 → hIndex c < chunkCount l.x.plan) (hkey : l.key = some k)
    (hpt : openChunk k c = some pt) :
    clientChunk type s q stamp c pass = pass (pmu (lookupEntry s l) 0x03 (some l.job) ((hLen c + 63) / 64)) l pt := by
  have hpass : ¬ (¬ landed s q = true ∨ c.length < 32 ∨ hType c ≠ type) := by simp [hland, hlen, htype]
  have hrange : ¬ (type = 3 ∧ chunkCount l.x.plan ≤ hIndex c) := fun h => Nat.not_le.2 (hindex h.1) h.2
  simp only [clientChunk, if_neg hpass, hopen, hstand, hkey, if_neg hrange, hpt]

section messages

variable {s : State} {q : Qpn} {stamp : Nat} {c pt : Bytes} {l : Look}

theorem admitShares_of_first {es : List (Nat × Bytes)} (hes : shareEntries pt = some es) (hdegree : es.length = pDegree l.x.plan)
    (hnodup : (es.map (·.1)).Nodup) (hnbrs : es.all (fun e => ((lookup l.x.nbrs l.slot).getD []).contains e.1) = true)
    (hfirst : lookup l.x.bundles l.slot = none) (hbundle : l.x.bundleKey ≠ none) :
    admitShares q c s l pt =
      answer (modRec (s.modRound l.job l.r (fun x => { x with bundles := putN x.bundles l.slot es })) l (fun e => { e with state := .SHARED }) id)
        q c .ok l.fe (some l) true := by
  have hform : ¬ (es.length ≠ pDegree l.x.plan ∨ ¬ (es.map (·.1)).Nodup ∨
      ¬ es.all (fun e => ((lookup l.x.nbrs l.slot).getD []).contains e.1) = true) := by
    rw [hnbrs]; simp [hdegree, hnodup]
  have hkeep : l.x.bundleKey.isNone = false := Option.isNone_eq_false_iff.2 (Option.ne_none_iff_isSome.1 hbundle)
  simp only [admitShares, hes, if_neg hform, hfirst, hkeep, Option.isSome_none, Bool.false_eq_true, if_false]

theorem admitUnmask_of_requested {es : List (Nat × Nat × Nat)} (hes : unmaskEntries pt = some es)
    (hasked : es.all (fun e => (e.2.1 == 1 || e.2.1 == 2) && ((lookup l.x.requested l.slot).getD []).contains (e.1, e.2.1 == 1)) = true)
    (hfirst : l.unmaskAdm = false) (htime : l.x.deadline = false) :
    admitUnmask q c s l pt =
      answer (modRec (s.modCohort l.job l.r ((cohortOf l.x.plan l.slot).getD 0) (fun k => es.foldl (fun k e => addShare l.slot e.1 (e.2.1 == 1) e.2.2 k) k)) l
        (fun e => { e with unmaskAdm := true, state := .UNMASKED }) (fun d => { d with unmaskAdm := true, state := .UNMASKED }))
        q c .ok l.fe (some l) true := by
  simp only [admitUnmask, hes, hasked, hfirst, htime, not_true_eq_false, Bool.false_eq_true, if_false]

theorem admitAbort_of_framed (hlen : pt.length = 4) (hzero : zeroAt pt 1 3 = true) :
    admitAbort q c s l pt =
      answer (modRec s l (fun e => { e with state := .WITHDRAWN, reason := beAt pt 0 1 }) (fun d => { d with withdrawn := true, reason := beAt pt 0 1 }))
        q c .ok l.fe (some l) true := by
  simp only [admitAbort, hlen, hzero, ne_eq, not_true_eq_false, or_self, if_false]

theorem exec_sharesChunk : exec (.sharesChunk q stamp c) s = .next (clientChunk 2 (takeChunk s q c) q stamp c (admitShares q c)) := rfl

theorem exec_abortChunk : exec (.abortChunk q stamp c) s = .next (clientChunk 5 (takeChunk s q c) q stamp c (admitAbort q c)) := rfl

/-- UNMASK_SHARES goes to the order of checks unless its slot is a member of a round on offer. -/
theorem exec_unmaskSharesChunk_of_client {u : State} (hu : takeChunk s q c = u)
    (hclient : ((u.round? (feJob u (qpFe u q)) (hRound c)).map (fun x => x.offerDone && isMember x.plan (hSlot c))).getD false = false) :
    exec (.unmaskSharesChunk q stamp c) s = .next (clientChunk 4 u q stamp c (admitUnmask q c)) := by
  subst hu
  exact congrArg Host.Outcome.next (if_neg (by rw [hclient]; decide))

end messages

/-- Settles O3: each message passes the checks of every type, then its own. -/
theorem clientMessagesAreAdmitted : Obligations.ClientMessagesAreAdmitted := by
  refine ⟨?shares, ?unmask, ?abort⟩
  case shares =>
    rintro s u q stamp c l k pt es rfl hland hlen htype hopen hstand hkey hpt hes hdegree hnodup hnbrs hfirst hbundle
    rw [exec_sharesChunk, clientChunk_of_authentic hland hlen htype hopen hstand nofun hkey hpt,
      admitShares_of_first hes hdegree hnodup hnbrs hfirst hbundle]
  case unmask =>
    intro s u q stamp c l k pt es hu hclient hland hlen htype hopen hstand hkey hpt hes hasked hfirst htime
    rw [exec_unmaskSharesChunk_of_client hu hclient, clientChunk_of_authentic hland hlen htype hopen hstand nofun hkey hpt,
      admitUnmask_of_requested hes hasked hfirst htime]
  case abort =>
    rintro s u q stamp c l k pt rfl hland hlen htype hopen hstand hkey hpt hfour hzero
    rw [exec_abortChunk, clientChunk_of_authentic hland hlen htype hopen hstand nofun hkey hpt, admitAbort_of_framed hfour hzero]

end Sys2Proof.Machine

/-! PROOFS. The admission of an UPLOAD and of a sealed piece, and the commit (R65, R78, R79, R82, R201, R322, R323, R330). -/

namespace Sys2Proof.Machine

/-! The claim of a chunk whose bit meets no poison. -/

section claims

variable {s : State} {q : Qpn} {stamp : Nat} {c : Bytes} {l : Look} {elems check : List Nat} {sealing : Bool}

theorem claim_of_admitted (hbit : metPoison s l.job [bitPlace s l.job l.x l.slot (hIndex c)] = none)
    (hdone : ((lookup l.x.bitmaps l.slot).getD []).contains (hIndex c) = true) :
    claim q stamp c s l elems check sealing = answer s q c .duplicate l.fe (some l) true := by
  simp only [claim, hbit, hdone, if_true]

theorem claim_of_held {n : Nat} {t : Txn} (hbit : metPoison s l.job [bitPlace s l.job l.x l.slot (hIndex c)] = none)
    (hopen : ((lookup l.x.bitmaps l.slot).getD []).contains (hIndex c) = false) (hheld : claimOf s l.job l.r l.slot (hIndex c) = some (n, t)) :
    claim q stamp c s l elems check sealing = waitFor s n t l.fe q stamp c := by
  simp only [claim, hbit, hopen, hheld, Bool.false_eq_true, if_false]

theorem claim_of_new (hbit : metPoison s l.job [bitPlace s l.job l.x l.slot (hIndex c)] = none)
    (hopen : ((lookup l.x.bitmaps l.slot).getD []).contains (hIndex c) = false) (hfree : claimOf s l.job l.r l.slot (hIndex c) = none)
    (hadds : metPoison s l.job (addPlaces s l.job l.x l.slot (hIndex c)) = none) :
    claim q stamp c s l elems check sealing = beginTxn s l q c elems check sealing := by
  simp only [claim, hbit, hopen, hfree, hadds, Bool.false_eq_true, if_false]

end claims

/-! From the authenticated plaintext to the claim. -/

section plaintexts

variable {s u : State} {q : Qpn} {stamp : Nat} {c pt : Bytes} {l : Look} {k : KeyRec}

theorem admitUpload_of_length (hlen : pt.length = pChunk l.x.plan * ((pRing l.x.plan).bits / 8)) :
    admitUpload q stamp c s l pt =
      let k := l.x.cohort ((cohortOf l.x.plan l.slot).getD 0)
      claim q stamp c s l (uploadElems l.x.plan pt) (checkValue l.x.plan k.checkKey k.frac (hIndex c) (uploadElems l.x.plan pt)) false :=
  if_neg (not_not_intro hlen)

theorem admitPiece_of_framed {x : PSet} (hset : pSet l.x.plan = some x) (hlen : pt.length = 16 + 16384 * x.delta) (hzero : zeroAt pt 9 7 = true)
    (hjobKey : beAt pt 0 8 = spJobKey (pParams l.x.plan)) (hparam : beAt pt 8 1 = spSet (pParams l.x.plan))
    (hsmall : (List.range 16384).all (fun i => decide (beAt pt (16 + x.delta * i) x.delta < x.gam.getD (pieceLimb x (hIndex c)) 1)) = true)
    (hrind : rindOn s = true) :
    admitPiece q stamp c s l pt =
      claim q stamp c s l ((List.range 16384).map (fun i => beAt pt (16 + x.delta * i) x.delta)) [0, 0, 0, 0] true := by
  have hall : ((List.range 16384).map (fun i => beAt pt (16 + x.delta * i) x.delta)).all (· < x.gam.getD (pieceLimb x (hIndex c)) 1) = true := by
    rw [List.all_map]; exact hsmall
  simp only [admitPiece, hset, hlen, hzero, hjobKey, hparam, hall, hrind, ne_eq, not_true_eq_false, or_self, if_false]

/-- An UPLOAD of a masked round, authenticated and of its length, goes to the claim. -/
theorem exec_uploadChunk_of_authentic (hu : takeChunk s q c = u) (hmasked : sealedChunk u q c = false) (hland : landed u q = true)
    (hlen : 32 ≤ c.length) (htype : hType c = 3) (hopen : judge u q stamp c = .open l) (hstand : standing l 3 = none) (hkey : l.key = some k)
    (hpt : openChunk k c = some pt) (hindex : hIndex c < chunkCount l.x.plan) (hform : pt.length = pChunk l.x.plan * ((pRing l.x.plan).bits / 8)) :
    exec (.uploadChunk q stamp c) s = .next (
      let k := l.x.cohort ((cohortOf l.x.plan l.slot).getD 0)
      claim q stamp c (pmu (lookupEntry u l) 0x03 (some l.job) ((hLen c + 63) / 64)) l (uploadElems l.x.plan pt)
        (checkValue l.x.plan k.checkKey k.frac (hIndex c) (uploadElems l.x.plan pt)) false) := by
  subst hu
  change Host.Outcome.next (if sealedChunk (takeChunk s q c) q c then _ else _) = _
  rw [if_neg (Bool.eq_false_iff.1 hmasked), clientChunk_of_authentic hland hlen htype hopen hstand (fun _ => hindex) hkey hpt, admitUpload_of_length hform]

/-- A piece of a sealed round goes through the checks of every type to its own. -/
theorem exec_sealedUploadPiece_of_authentic (hu : takeChunk s q c = u) (hsealed : sealedChunk u q c = true) (hland : landed u q = true)
    (hlen : 32 ≤ c.length) (htype : hType c = 3) (hopen : judge u q stamp c = .open l) (hstand : standing l 3 = none) (hkey : l.key = some k)
    (hpt : openChunk k c = some pt) (hindex : hIndex c < chunkCount l.x.plan) :
    exec (.sealedUploadPiece q stamp c) s =
      .next (admitPiece q stamp c (pmu (lookupEntry u l) 0x03 (some l.job) ((hLen c + 63) / 64)) l pt) := by
  subst hu
  change Host.Outcome.next (if sealedChunk (takeChunk s q c) q c then _ else _) = _
  rw [if_pos hsealed, clientChunk_of_authentic hland hlen htype hopen hstand (fun _ => hindex) hkey hpt]

end plaintexts

/-- Settles O4, by what the claim finds. -/
theorem uploadsClaimTheirChunk : Obligations.UploadsClaimTheirChunk := by
  refine ⟨?begins, ?duplicate, ?waits, ?piece⟩
  case begins =>
    intro s u q stamp c l k pt hu hmasked hland hlen htype hopen hstand hkey hpt hindex hform hbit hmiss hfree hadds
    rw [exec_uploadChunk_of_authentic hu hmasked hland hlen htype hopen hstand hkey hpt hindex hform]
    exact congrArg Host.Outcome.next (claim_of_new hbit hmiss hfree hadds)
  case duplicate =>
    intro s u q stamp c l k pt hu hmasked hland hlen htype hopen hstand hkey hpt hindex hform hbit hdone
    rw [exec_uploadChunk_of_authentic hu hmasked hland hlen htype hopen hstand hkey hpt hindex hform]
    exact congrArg Host.Outcome.next (claim_of_admitted hbit hdone)
  case waits =>
    intro s u q stamp c l k pt n t hu hmasked hland hlen htype hopen hstand hkey hpt hindex hform hbit hmiss hheld
    rw [exec_uploadChunk_of_authentic hu hmasked hland hlen htype hopen hstand hkey hpt hindex hform]
    exact congrArg Host.Outcome.next (claim_of_held hbit hmiss hheld)
  case piece =>
    intro s u q stamp c l k pt x hu hsealed hland hlen htype hopen hstand hkey hpt hindex hset hform hzero hjobKey hparam hsmall hrind hbit hmiss hfree hadds
    rw [exec_sealedUploadPiece_of_authentic hu hsealed hland hlen htype hopen hstand hkey hpt hindex,
      admitPiece_of_framed hset hform hzero hjobKey hparam hsmall hrind, claim_of_new hbit hmiss hfree hadds]

/-! The commit of a transaction that meets no poison. -/

section commits

variable {s : State} {n : Nat} {b : Fin 3} {t : Txn} {x y : Round}

/-- A transaction not discarded is committed by its kind, then answered OK, then ended. -/
theorem exec_admissionCommit_of_kept {s1 : State} (ht : lookup s.txns n = some t) (hx : s.round? t.job t.round = some x)
    (hclean : metPoison s t.job (bitPlace s t.job x t.slot t.chunk :: addPlaces s t.job x t.slot t.chunk) = none)
    (hkept : ¬ (t.sealing = true ∧ b = 2))
    (hs1 : (if t.sealing then commitSealed (residueRuns s false b) t (lookAt s (qpFe s t.qpn) t.job x t.slot)
      else commitMasked s t (lookAt s (qpFe s t.qpn) t.job x t.slot)) = s1)
    (hy : s1.round? t.job t.round = some y) :
    exec (.admissionCommit n b) s = .next (
      endTxn (answer s1 t.qpn t.head .ok (qpFe s t.qpn) (some { lookAt s (qpFe s t.qpn) t.job x t.slot with x := y }) true) n t true) := by
  change execAdmissionCommit n b s = _
  subst hs1
  simp only [execAdmissionCommit, ht, hx, hclean, if_neg hkept, hy]

theorem exec_admissionCommit_of_discarded (ht : lookup s.txns n = some t) (hx : s.round? t.job t.round = some x)
    (hclean : metPoison s t.job (bitPlace s t.job x t.slot t.chunk :: addPlaces s t.job x t.slot t.chunk) = none) (hsealed : t.sealing = true) :
    exec (.admissionCommit n 2) s = .next (endTxn (rindStatus (residueRuns s false 2) t.job 0 .residueFail) n t false) := by
  change execAdmissionCommit n 2 s = _
  simp only [execAdmissionCommit, ht, hx, hclean, hsealed, and_self, if_true]

end commits

/-- Settles O5, by the kind of the transaction and its failed runs. -/
theorem commitEndsTheTransaction : Obligations.CommitEndsTheTransaction := by
  refine ⟨?masked, ?sealed, ?discarded⟩
  case masked =>
    intro s n b t x y ht hx hclean hmasked hy
    have hkind : t.sealing ≠ true := Bool.eq_false_iff.1 hmasked
    exact exec_admissionCommit_of_kept ht hx hclean (fun h => hkind h.1) (if_neg hkind) hy
  case sealed =>
    intro s n b t x y ht hx hclean hsealed hruns hy
    exact exec_admissionCommit_of_kept ht hx hclean (fun h => hruns h.2) (if_pos hsealed) hy
  case discarded =>
    intro s n t x ht hx hclean hsealed
    exact exec_admissionCommit_of_discarded ht hx hclean hsealed

end Sys2Proof.Machine

/-! PROOFS. The registers of the front-ends and of the Roster cache (R91, R93, R97, R107). -/

namespace Sys2Proof.Machine

section registers

variable {s : State}

/-- A range that fits is stored. -/
theorem writeFeCfg_of_fits {v : Word} (hvalid : feValid (storeFeCfg s (get1 s LND_SEL.FE) v) (get1 s LND_SEL.FE) = true)
    (hfits : feFits (storeFeCfg s (get1 s LND_SEL.FE) v) (get1 s LND_SEL.FE) = true) :
    writeFeCfg s v = storeFeCfg s (get1 s LND_SEL.FE) v :=
  if_pos ⟨hvalid, hfits⟩

theorem writeFeCfg_of_not_fits {v : Word}
    (h : (feValid (storeFeCfg s (get1 s LND_SEL.FE) v) (get1 s LND_SEL.FE) && feFits (storeFeCfg s (get1 s LND_SEL.FE) v) (get1 s LND_SEL.FE)) = false) :
    writeFeCfg s v = disableFe (storeFeCfg s (get1 s LND_SEL.FE) v) (get1 s LND_SEL.FE) :=
  if_neg fun hboth => Bool.eq_false_iff.1 h (Bool.and_eq_true_iff.2 hboth)

theorem writeFeState_of_quarantined {v : Nat} (hbit : bit v 31 = true) (hquar : fget s LND_FE_STATE.QUARANTINED (get1 s LND_SEL.FE) 0 = 1) :
    writeFeState s v =
      fset (fset (fset s LND_FE_STATE.QUARANTINED (get1 s LND_SEL.FE) 0 0) LND_FE_ERR.AUTH_FAILED (get1 s LND_SEL.FE) 0 0) LND_FE_ERR.MALFORMED (get1 s LND_SEL.FE) 0 0 :=
  if_pos ⟨hbit, hquar⟩

/-- The enable bit of the Roster cache reads as it was written. -/
theorem on_set1_cacheEn (b : Bool) : on (set1 s ROS_CTRL.CACHE_EN (flag b)) ROS_CTRL.CACHE_EN = b := by
  rw [on, get1_eq, set1_eq, fget_fset_self]
  cases b <;> rfl

/-- A flush with the cache kept. -/
theorem writeRosCtrl_flush : writeRosCtrl s 3 = { set1 s ROS_CTRL.CACHE_EN 1 with dirty := [] } := by
  have hon : on (set1 s ROS_CTRL.CACHE_EN 1) ROS_CTRL.CACHE_EN = true := on_set1_cacheEn true
  have hflush : bit 3 1 = true := by decide
  simp only [writeRosCtrl, Nat.reduceMod, hon, hflush, if_true]

/-- The cache switched off holds nothing. -/
theorem writeRosCtrl_off : writeRosCtrl s 0 = set1 { set1 s ROS_CTRL.CACHE_EN 0 with cached := [], dirty := [] } ROS_CACHE_OCC.VALID 0 := by
  have hoff : on (set1 s ROS_CTRL.CACHE_EN 0) ROS_CTRL.CACHE_EN = false := on_set1_cacheEn false
  have hflush : bit 0 1 = false := by decide
  simp only [writeRosCtrl, Nat.reduceMod, hoff, hflush, Bool.false_eq_true, if_false]

end registers

/-- Settles O7: each write by the case of its meaning. -/
theorem frontEndRegistersAreWritten : Obligations.FrontEndRegistersAreWritten := by
  refine ⟨?reinstate, ?fits, ?bad, ?credit, ?flush, ?cacheOff⟩
  case reinstate => exact fun _ _ hbit hquar => congrArg Host.Outcome.next (writeFeState_of_quarantined hbit hquar)
  case fits => exact fun _ _ hvalid hfits => congrArg Host.Outcome.next (writeFeCfg_of_fits hvalid hfits)
  case bad => exact fun _ _ h => congrArg Host.Outcome.next (writeFeCfg_of_not_fits h)
  case credit => exact fun _ hdue => congrArg Host.Outcome.next (if_neg (Nat.not_lt.2 hdue))
  case flush => exact fun _ => congrArg Host.Outcome.next writeRosCtrl_flush
  case cacheOff => exact fun _ => congrArg Host.Outcome.next writeRosCtrl_off

end Sys2Proof.Machine

/-! PROOFS. The end of the Close drain, the fix and the linear check (R85, R104, R124, R130, R172, R192, R203, R204). -/

namespace Sys2Proof.Machine

/-- The close records of a round's joined slots, from the Roster entries (R104). -/
def closeTableOf (s : State) (j : JobId) (r : Nat) (x : Round) : NatMap CloseRec :=
  (joinedSlots s j r).foldl (fun m u => putN m u (closeRec x.plan u (entryOf s j r u))) []

/-- The round fixed by its close table: the Roster entries moved, the bundle key destroyed, the weights copied, the job's counts set (R104, R124, R172). -/
def closeNoted (s : State) (j : JobId) (r : Nat) (table : NatMap CloseRec) : State :=
  let s1 := s.modRound j r (fun y => { y with
    closed := true, closeTable := table, bundleKey := none
    weights := if pWeightPtr y.plan = 0 then [] else jobRead s j (pWeightPtr y.plan) (2 * pCohortCount y.plan) })
  let s2 := fset (eraseSlot (closeEntries s1 j table) ((s1.job j).bundleSlot r)) ROS_JOB_COUNTS.SURVIVORS j 0
    (table.filter (fun e => e.2.state == .SURVIVOR)).length
  fset (fset (fset s2 CUL_JOB_VOID.VOID_CHUNKS j 0 0) VAT_JOB_SETTLE.SETTLED j 0 0) VAT_JOB_SETTLE.FAILED j 0 0

section close

variable {s : State} {j : JobId} {r : Nat} {x y : Round}

theorem fixClose_of_round (hx : s.round? j r = some x) (hy : (closeNoted s j r (closeTableOf s j r x)).round? j r = some y) :
    fixClose s j r =
      let s3 := (List.range (pCohortCount y.plan)).foldl (skipCompare j r)
        ((List.range (pCohortCount y.plan)).foldl (closeCohort j r y) (closeNoted s j r (closeTableOf s j r x)))
      let s4 := openWindow s3 j r
      let s5 := if pSealed y.plan then exportRound s4 j r else s4
      releaseUnmask (((s5.job j).rounds.map (·.number)).foldl (fun t n => releaseHeld t j n) s5) j r := by
  simp only [closeNoted, closeTableOf] at hy ⊢
  unfold fixClose
  simp only [hx, hy]

/-- CLOSE_FIX goes on once the drain and the last transaction are over and, of a sealed round, its engines accept work. -/
theorem exec_closeFix_of_due (hx : s.round? j r = some x) (hbegun : begun x 6 = true) (hopen : x.closed = false) (halive : s.alive j = true)
    (hdrain : x.drainEnd ≤ s.now) (htxns : s.txns.any (fun t => t.2.job == j && t.2.round == r) = false)
    (hheld : s.waitingChunks.any (heldUpload s j r) = false) (hready : (!pSealed x.plan || rindOn s && cultureOn s) = true) :
    exec (.closeFix j r) s = .next (fixClose s j r) := by
  have hengines : ¬ (pSealed x.plan = true ∧ (¬ rindOn s = true ∨ ¬ cultureOn s = true)) := by
    rintro ⟨hsealed, hoff⟩
    rw [hsealed, Bool.not_true, Bool.false_or, Bool.and_eq_true] at hready
    exact hoff.elim (absurd hready.1) (absurd hready.2)
  change execCloseFix j r s = _
  simp only [execCloseFix, hx, hbegun, hopen, halive, Nat.not_lt.2 hdrain, htxns, hheld, if_neg hengines, not_true_eq_false, Bool.false_eq_true,
    or_self, if_false]

/-- The drain's end answers every chunk of the round that waits. -/
theorem exec_closeDrainExpiry_of_over (hx : s.round? j r = some x) (hbegun : begun x 6 = true) (hopen : x.closed = false) (hdrain : x.drainEnd ≤ s.now) :
    exec (.closeDrainExpiry j r) s = .next (
      let ws := (s.txns.filter (fun t => t.2.job == j && t.2.round == r)).flatMap (fun t => t.2.waiters) ++ s.waitingChunks.filter (heldUpload s j r)
      let s1 := { s with
        txns := s.txns.map (fun t => if t.2.job == j && t.2.round == r then (t.1, { t.2 with waiters := [] }) else t)
        waitingChunks := s.waitingChunks.filter (fun w => !heldUpload s j r w) }
      ws.foldl (fun s w => answer (settleOut s (qpFe s w.1)) w.1 w.2.2 .late (qpFe s w.1) (some (lookAt s (qpFe s w.1) j x (hSlot w.2.2))) true)
        (if ws = [] then s1 else ev s1 LND_EVENT.DRAIN_EV)) := by
  have hdue : ¬ ((lookup x.begunAt 6).isNone = true ∨ x.closed = true ∨ s.now < x.drainEnd) := by
    have hsome : (lookup x.begunAt 6).isSome = true := hbegun
    simp [hopen, Nat.not_lt.2 hdrain, Option.isSome_iff_ne_none.1 hsome]
  change execCloseDrainExpiry j r s = _
  simp only [execCloseDrainExpiry, hx, if_neg hdue]

theorem exec_cohortLinearCheck_of_due {c : CohortId} {key : Key256} (hx : s.round? j r = some x) (hkey : (x.cohort c).checkKey = some key)
    (hclosed : x.closed = true) (hnew : (x.cohort c).checked = false) (hlive : (x.cohort c).reason = 0) (halive : s.alive j = true)
    (hclean : metPoison s j (checkPlaces s j x c key) = none) :
    exec (.cohortLinearCheck j r c) s = .next (compare s j r c x.plan (x.cohort c) key) := by
  change execCohortLinearCheck j r c s = _
  simp only [execCohortLinearCheck, hx, hkey, hclosed, hnew, hlive, halive, hclean, ne_eq, not_true_eq_false, Bool.false_eq_true, or_self, if_false]

end close

/-- Settles O8: each command does its work once its conditions hold. -/
theorem closeFixesTheRound : Obligations.CloseFixesTheRound := by
  refine ⟨?drain, ?fix, ?check⟩
  case drain => exact fun _ _ _ _ => exec_closeDrainExpiry_of_over
  case fix =>
    intro s j r x y hx hbegun hopen halive hdrain htxns hheld hready hy
    rw [exec_closeFix_of_due hx hbegun hopen halive hdrain htxns hheld hready, fixClose_of_round hx hy]
    rfl
  case check =>
    intro s j r c x key hx hkey hclosed hnew hlive halive hclean
    rw [exec_cohortLinearCheck_of_due hx hkey hclosed hnew hlive halive hclean]
    rfl

end Sys2Proof.Machine

/-! PROOFS. The removal of a cohort's masks (R127, R140, R141). -/

namespace Sys2Proof.Machine

/-! Counting leaves the jobs as they are. -/

section counting

variable {s t : State}

theorem round?_of_jobs_eq (h : t.jobs = s.jobs) (j : JobId) (r : Nat) : t.round? j r = s.round? j r := by
  simp only [State.round?, State.job, h]

@[simp] theorem jobs_count (f : Fld) (a b n : Nat) : (count s f a b n).jobs = s.jobs := rfl

@[simp] theorem jobs_pmuAdd (i n : Nat) : (pmuAdd s i n).jobs = s.jobs := by
  unfold pmuAdd
  dsimp only
  split <;> rfl

@[simp] theorem jobs_pmu (code : Nat) (j : Option JobId) (v : Nat) : (pmu s code j v).jobs = s.jobs := by
  unfold pmu
  split
  · rfl
  · refine List.foldlRecOn (motive := fun t : State => t.jobs = s.jobs) _ _ rfl fun t ht n _ => ?_
    dsimp only
    split
    · exact (jobs_pmuAdd _ _).trans ht
    · exact ht

@[simp] theorem jobs_cultureCounts (j : JobId) (blocks elems : Nat) : (cultureCounts s j blocks elems).jobs = s.jobs := by
  simp only [cultureCounts, jobs_pmu, jobs_count]

@[simp] theorem jobs_bankWork (j : JobId) (a n ops : Nat) : (bankWork s j a n ops).jobs = s.jobs := by
  unfold bankWork
  dsimp only
  split <;> simp only [jobs_pmu]

@[simp] theorem jobs_countCohort (f : Fld) (j : JobId) (r : Nat) : (countCohort s f j r).jobs = s.jobs := by
  unfold countCohort
  split <;> rfl

/-- A cohort changed reads as changed. -/
theorem cohort_modCohort {j : JobId} {r c : Nat} {x : Round} (g : Cohort → Cohort) (hx : s.round? j r = some x) :
    (s.modCohort j r c g).cohort j r c = g (x.cohort c) := by
  have hy : (s.modCohort j r c g).round? j r = some (x.modCohort c g) :=
    round?_modRound s j r (fun y => y.modCohort c g) x hx fun _ => rfl
  simp only [State.cohort, hy, Option.map_some, Option.getD_some, Round.modCohort, Round.cohort, readD, lookup_putN, if_true]

end counting

/-! What a mask adds as it is removed. -/

section masks

variable {p : Bytes} {i : Nat}

/-- What a mask's removal adds at a coordinate (R127, R140). -/
def maskTerm (p : Bytes) (i : Nat) (m : MaskJob) : Nat :=
  let e := maskElem (pRing p) m.key (maskNonce (pRing p)) i
  if m.adds then e else ringNeg (pRing p).bits e

/-- What a mask that is still to be removed has put into a coordinate: a stream that is to be added back entered negatively. -/
def maskShare (p : Bytes) (i : Nat) (m : MaskJob) : Nat :=
  let e := maskElem (pRing p) m.key (maskNonce (pRing p)) i
  if m.adds then ringNeg (pRing p).bits e else e

theorem ringNeg_add_modEq (w e : Nat) : ringNeg w e + e ≡ 0 [MOD 2 ^ w] := by
  have hle : e % 2 ^ w ≤ 2 ^ w := (Nat.mod_lt e (Nat.two_pow_pos w)).le
  calc ringNeg w e + e
      ≡ (2 ^ w - e % 2 ^ w) + e % 2 ^ w [MOD 2 ^ w] := (Nat.mod_modEq _ _).add (Nat.mod_modEq _ _).symm
    _ = 2 ^ w := Nat.sub_add_cancel hle
    _ ≡ 0 [MOD 2 ^ w] := Nat.modEq_zero_iff_dvd.2 (dvd_refl _)

/-- Removing a mask cancels what it had put in. -/
theorem maskShare_add_maskTerm_modEq (p : Bytes) (i : Nat) (m : MaskJob) :
    maskShare p i m + maskTerm p i m ≡ 0 [MOD 2 ^ (pRing p).bits] := by
  unfold maskShare maskTerm
  cases m.adds
  · exact Nat.add_comm _ _ ▸ ringNeg_add_modEq _ _
  · exact ringNeg_add_modEq _ _

theorem sum_maskShare_add_sum_maskTerm_modEq (p : Bytes) (i : Nat) (ms : List MaskJob) :
    (ms.map (maskShare p i)).sum + (ms.map (maskTerm p i)).sum ≡ 0 [MOD 2 ^ (pRing p).bits] := by
  induction ms with
  | nil => rfl
  | cons m ms ih =>
    simp only [List.map_cons, List.sum_cons]
    rw [Nat.add_add_add_comm]
    exact (maskShare_add_maskTerm_modEq p i m).add ih

/-- A pass over distinct keys changes each of them once, by its own value. -/
theorem readD_foldl_putD (f : Nat → Nat → Nat) (js : List Nat) (hjs : js.Nodup) (acc : NatMap Nat) (i : Nat) :
    readD 0 (js.foldl (fun a k => putD id 0 a k (f k (readD 0 a k))) acc) i =
      if i ∈ js then f i (readD 0 acc i) else readD 0 acc i := by
  induction js generalizing acc with
  | nil => rfl
  | cons k js ih =>
    obtain ⟨hk, hjs⟩ := List.nodup_cons.1 hjs
    rw [List.foldl_cons, ih hjs, readD_putD]
    by_cases hik : k = i
    · subst hik
      rw [if_neg hk, if_pos rfl, if_pos List.mem_cons_self]
    · have hmem : i ∈ k :: js ↔ i ∈ js := List.mem_cons.trans (or_iff_right (Ne.symm hik))
      rw [if_neg hik, if_congr hmem rfl rfl]

theorem nodup_clearCoords (p : Bytes) (k : Cohort) : (clearCoords p k).Nodup := List.nodup_range.filter _

theorem mem_clearCoords {k : Cohort} : i ∈ clearCoords p k ↔ i < pSlice p ∧ k.voids.contains (i / pChunk p) = false := by
  simp [clearCoords]

theorem readD_applyMask {js : List Nat} (hjs : js.Nodup) (acc : NatMap Nat) (m : MaskJob) (i : Nat) :
    readD 0 (applyMask p js acc m) i = if i ∈ js then ringAdd (pRing p).bits (readD 0 acc i) (maskTerm p i m) else readD 0 acc i :=
  readD_foldl_putD (fun k v => ringAdd (pRing p).bits v (maskTerm p k m)) js hjs acc i

/-- A coordinate that the masks reach holds its value plus what each of them adds. -/
theorem readD_foldl_applyMask_modEq {js : List Nat} (hjs : js.Nodup) (hi : i ∈ js) (ms : List MaskJob) (acc : NatMap Nat) :
    readD 0 (ms.foldl (applyMask p js) acc) i ≡ readD 0 acc i + (ms.map (maskTerm p i)).sum [MOD 2 ^ (pRing p).bits] := by
  induction ms generalizing acc with
  | nil => rfl
  | cons m ms ih =>
    rw [List.foldl_cons, List.map_cons, List.sum_cons, ← Nat.add_assoc]
    refine (ih _).trans (Nat.ModEq.add_right _ ?_)
    rw [readD_applyMask hjs, if_pos hi, ringAdd]
    exact Nat.mod_modEq _ _

/-- A coordinate outside the masks' reach stays. -/
theorem readD_foldl_applyMask_of_not_mem {js : List Nat} (hjs : js.Nodup) (hi : i ∉ js) (ms : List MaskJob) (acc : NatMap Nat) :
    readD 0 (ms.foldl (applyMask p js) acc) i = readD 0 acc i := by
  induction ms generalizing acc with
  | nil => rfl
  | cons m ms ih => rw [List.foldl_cons, ih, readD_applyMask hjs, if_neg hi]

/-- All masks removed from a coordinate that held `q` and their contributions leave `q`. -/
theorem readD_foldl_applyMask_of_masked {js : List Nat} {q : Nat} {ms : List MaskJob} {acc : NatMap Nat} (hjs : js.Nodup) (hi : i ∈ js)
    (hq : readD 0 acc i ≡ q + (ms.map (maskShare p i)).sum [MOD 2 ^ (pRing p).bits]) :
    readD 0 (ms.foldl (applyMask p js) acc) i ≡ q [MOD 2 ^ (pRing p).bits] :=
  calc readD 0 (ms.foldl (applyMask p js) acc) i
      ≡ readD 0 acc i + (ms.map (maskTerm p i)).sum [MOD 2 ^ (pRing p).bits] := readD_foldl_applyMask_modEq hjs hi ms acc
    _ ≡ q + (ms.map (maskShare p i)).sum + (ms.map (maskTerm p i)).sum [MOD 2 ^ (pRing p).bits] := hq.add_right _
    _ = q + ((ms.map (maskShare p i)).sum + (ms.map (maskTerm p i)).sum) := Nat.add_assoc ..
    _ ≡ q [MOD 2 ^ (pRing p).bits] := (sum_maskShare_add_sum_maskTerm_modEq p i ms).add_left q

end masks

/-! The command. -/

section command

variable {s : State} {j : JobId} {r : RoundNo} {c : CohortId} {x : Round}

/-- COHORT_UNMASK_DONE of a checked masked cohort whose secrets are all reconstructed (R141). -/
theorem exec_cohortUnmaskDone_of_masked (hx : s.round? j r = some x) (hbegun : begun x 7 = true) (hc : c.val < pCohortCount x.plan)
    (hlive : (x.cohort c).reason = 0) (hnew : (x.cohort c).unmasked = false) (halive : s.alive j = true) (hmasked : pSealed x.plan = false)
    (hon : cultureOn s = true) (hchecked : (x.cohort c).checked = true) (hdone : (x.cohort c).secrets.all (·.done) = true)
    (hclean : metPoison s j (unitPlaces s j x c (clearUnits x.plan (x.cohort c))) = none) :
    exec (.cohortUnmaskDone j r c) s = .next (unmaskCohort s j r c x.plan (x.cohort c)) := by
  change execCohortUnmaskDone j r c s = _
  simp only [execCohortUnmaskDone, hx, hbegun, hlive, hnew, halive, hmasked, hon, hchecked, hdone, hclean, Nat.not_le.2 hc, ne_eq,
    not_true_eq_false, Bool.false_eq_true, or_self, if_false]

/-- The cohort as its unmasking leaves it. -/
theorem cohort_unmaskCohort {p : Bytes} {k : Cohort} (hx : s.round? j r = some x) :
    (unmaskCohort s j r c p k).cohort j r c =
      { x.cohort c with accum := k.masks.foldl (applyMask p (clearCoords p k)) (x.cohort c).accum, secrets := [], masks := [], unmasked := true } := by
  unfold unmaskCohort
  rw [State.cohort, round?_of_jobs_eq (jobs_countCohort ..)]
  refine cohort_modCohort _ ?_
  rw [round?_of_jobs_eq (jobs_bankWork ..), round?_of_jobs_eq (jobs_cultureCounts ..), hx]

end command

/-- Settles O58: each mask's removal cancels what the mask had put into the coordinate, and reaches no void chunk. -/
theorem unmaskingLeavesTheExactSum : Obligations.UnmaskingLeavesTheExactSum := by
  intro s j r c x i q hx hbegun hc hlive hnew halive hmasked hon hchecked hdone hclean hi hq
  refine ⟨_, exec_cohortUnmaskDone_of_masked hx hbegun hc hlive hnew halive hmasked hon hchecked hdone hclean, ?_⟩
  rw [cohort_unmaskCohort hx]
  refine ⟨rfl, rfl, rfl, fun hclear => ?_, fun hvoid => ?_⟩
  · exact readD_foldl_applyMask_of_masked (nodup_clearCoords _ _) (mem_clearCoords.2 ⟨hi, hclear⟩) hq
  · refine readD_foldl_applyMask_of_not_mem (nodup_clearCoords _ _) (fun hmem => ?_) _ _
    exact absurd (mem_clearCoords.1 hmem).2 (by rw [hvoid]; decide)

end Sys2Proof.Machine

/-! PROOFS. The deadline, the reconstruction of a secret and the Settle of a cohort (R137 to R140, R144, R171, R173, R175). -/

namespace Sys2Proof.Machine

/-! The deadline. -/

section deadline

variable {s s1 : State} {j : JobId} {r : RoundNo} {x y : Round}

/-- A deadline that passes in Unmask acts at once. -/
theorem exec_unmaskDeadline_of_begun (hx : s.round? j r = some x) (hdue : phaseTime x.plan 8 ≤ s.now) (hnew : x.deadline = false)
    (halive : s.alive j = true) (hfired : doubtfulCloses (fireEntry s (phaseEntry j r 7) false) j x 8 = s1) (hbegun : begun x 7 = true) :
    exec (.unmaskDeadline j r) s = .next (applyDeadline s1 j r) := by
  change execUnmaskDeadline j r s = _
  simp only [execUnmaskDeadline, hx, Nat.not_lt.2 hdue, hnew, halive, hfired, hbegun, Bool.false_eq_true, not_true_eq_false, or_self, if_false, if_true]

theorem applyDeadline_of_masked (hy : (s.modRound j r (fun z => { z with deadline := true })).round? j r = some y) (hmasked : pSealed y.plan = false) :
    applyDeadline s j r = maskedDeadline (s.modRound j r (fun z => { z with deadline := true })) j r y := by
  simp only [applyDeadline, hy, hmasked, Bool.false_eq_true, if_false]

end deadline

/-! A reconstruction. -/

section reconstruction

variable {s s1 : State} {j : JobId} {r c : Nat} {x : Round} {k : Secret}

/-- SECRET_RECONSTRUCT of a secret that is due (R137, R138). -/
theorem exec_secretReconstruct_of_due {r : RoundNo} {about : Slot} (hx : s.round? j r = some x)
    (hk : (x.cohort ((cohortOf x.plan about).getD 0)).secrets.find? (fun k => k.about == about.val) = some k) (hbegun : begun x 7 = true)
    (hlive : (x.cohort ((cohortOf x.plan about).getD 0)).reason = 0) (hdue : secretDue s x k = true) (hon : tollOn s = true)
    (halive : s.alive j = true) :
    exec (.secretReconstruct j r about) s = .next (reconstruct s j r ((cohortOf x.plan about).getD 0) x k) := by
  change execSecretReconstruct j r about s = _
  simp only [execSecretReconstruct, hx, hk, hbegun, hlive, hdue, hon, halive, ne_eq, not_true_eq_false, or_self, if_false]

/-- The reconstruction counted: of a pairwise key with the multiplication that its check takes (R138, R149). -/
def reconstructCounted (s : State) (j : JobId) (k : Secret) : State :=
  if k.pairKey then tollDone (count s TOL_RECON_CNT.COUNT 0 0 1) (some j) 1 0 else count s TOL_RECON_CNT.COUNT 0 0 1

theorem reconstructCounted_of_self (h : k.pairKey = false) : reconstructCounted s j k = count s TOL_RECON_CNT.COUNT 0 0 1 :=
  if_neg (by rw [h]; decide)

theorem reconstructCounted_of_pair (h : k.pairKey = true) : reconstructCounted s j k = tollDone (count s TOL_RECON_CNT.COUNT 0 0 1) (some j) 1 0 :=
  if_pos h

/-- The mask keys that a reconstruction derived counted: of a pairwise key with a multiplication each (R139, R149). -/
def masksCounted (s : State) (j : JobId) (k : Secret) (n : Nat) : State :=
  if k.pairKey then tollDone s (some j) n n else count s TOL_HKDF_CNT.COUNT 0 0 n

theorem reconstruct_of_ok (hcount : reconstructCounted s j k = s1) (hclean : poisoned s1 j (hbmPlace j placeKeys r k.about) 64 = false)
    (hok : secretOk x (pThreshold x.plan) (on s1 TOL_CTRL.SPARE_WAIT) k = true) :
    reconstruct s j r c x k =
      let ms := maskJobs x (fget s1 LND_JOB_TAG.TAG j 0) (x.cohort c).survivors k (secretValue (pThreshold x.plan) k)
      (count (masksCounted s1 j k ms.length) TOL_JOB_UNMASK.DONE j 0 1).modCohort j r c (fun y => markDone k.about y ms) := by
  subst hcount
  unfold reconstructCounted at hclean hok ⊢
  simp only [reconstruct, masksCounted, hclean, hok, Bool.false_eq_true, not_true_eq_false, if_false]

theorem reconstruct_of_not_ok (hcount : reconstructCounted s j k = s1) (hclean : poisoned s1 j (hbmPlace j placeKeys r k.about) 64 = false)
    (hbad : secretOk x (pThreshold x.plan) (on s1 TOL_CTRL.SPARE_WAIT) k = false) :
    reconstruct s j r c x k = abandon (ev s1 TOL_EVENT.INCONS_EV) j r c reasonInconsistent := by
  subst hcount
  unfold reconstructCounted at hclean hbad ⊢
  simp only [reconstruct, hclean, hbad, inconsistent, Bool.false_eq_true, not_false_eq_true, if_false, if_true]

end reconstruction

/-! Settle. -/

section settle

variable {s : State} {j : JobId} {r : RoundNo} {c : CohortId} {x : Round} {k : Cohort}

/-- COHORT_SETTLE of a cohort that is due and meets no poison (R171). -/
theorem exec_cohortSettle_of_due (hx : s.round? j r = some x) (hdue : settleDue s j x c = true) (hclean : settlePoison s j x c = none) :
    exec (.cohortSettle j r c) s = .next (settleCohort s j c x (x.cohort c)) := by
  change execCohortSettle j r c s = _
  simp only [execCohortSettle, unlessSettle, hx, hdue, hclean, if_true]

/-- The coordinates before the first that fails a test are all of them where none fails it. -/
theorem takeWhile_not_of_any_eq_false {l : List Nat} {p : Nat → Bool} (h : l.any p = false) : l.takeWhile (fun i => !p i) = l :=
  List.takeWhile_eq_self_iff.2 fun i hi => by simp [List.any_eq_false.1 h i hi]

/-- One that fails the test ends them early. -/
theorem length_takeWhile_not_lt {l : List Nat} {p : Nat → Bool} (h : l.any p = true) : (l.takeWhile (fun i => !p i)).length < l.length := by
  refine lt_of_le_of_ne (List.takeWhile_sublist _).length_le fun heq => ?_
  obtain ⟨i, hi, hp⟩ := List.any_eq_true.1 h
  have hall := List.takeWhile_eq_self_iff.1 ((List.takeWhile_sublist _).eq_of_length heq) i hi
  simp [hp] at hall

/-- Sums in their range settle whole (R171, R173). -/
theorem settleCohort_of_within (hrange : (coordsOf x.plan k).any (beyond x.plan k) = false) :
    settleCohort s j c x k =
      let s1 := enterPhase s j x.number 8
      let s2 := applyAddends s1 j (totalAddr s1 j x) (windowTotals s1 j x c k (coordsOf x.plan k))
      let s3 := applyAddends s2 j (countAddr s1 j x) (windowCounts s1 j x c k)
      settled s3 j x c (markers s3 j x.number != markers s1 j x.number) := by
  simp only [settleCohort, takeWhile_not_of_any_eq_false hrange, lt_irrefl, if_false]

/-- The addends up to a sum that leaves its range are undone (R175). -/
theorem settleCohort_of_beyond (hrange : (coordsOf x.plan k).any (beyond x.plan k) = true) :
    settleCohort s j c x k =
      let s1 := enterPhase s j x.number 8
      let ts := windowTotals s1 j x c k ((coordsOf x.plan k).takeWhile (fun i => !beyond x.plan k i))
      let s2 := applyAddends s1 j (totalAddr s1 j x) ts
      rangeFail (applyAddends s2 j (totalAddr s1 j x) (negated ts)) j x.number c := by
  simp only [settleCohort, length_takeWhile_not_lt hrange, if_true]

end settle

/-- Settles O10: each command by the case of its meaning. -/
theorem dropoutsAreUnmasked : Obligations.DropoutsAreUnmasked := by
  refine ⟨?deadline, ?selfKey, ?pairKey, ?inconsistent, ?unmasked, ?settled, ?beyond⟩
  case deadline =>
    intro s s1 j r x y hx hdue hnew halive hfired hbegun hy hmasked
    rw [exec_unmaskDeadline_of_begun hx hdue hnew halive hfired hbegun, applyDeadline_of_masked hy hmasked, maskedDeadline]
  case selfKey =>
    intro s s1 j r about x k hx hk hbegun hlive hdue hon halive hself hcount hclean hok
    have hcounted : reconstructCounted s j k = s1 := (reconstructCounted_of_self hself).trans hcount
    rw [exec_secretReconstruct_of_due hx hk hbegun hlive hdue hon halive, reconstruct_of_ok hcounted hclean hok]
    simp only [masksCounted, maskJobs, hself, Bool.false_eq_true, if_false, List.length_singleton]
  case pairKey =>
    intro s s1 j r about x k hx hk hbegun hlive hdue hon halive hpair hcount hclean hok
    have hcounted : reconstructCounted s j k = s1 := (reconstructCounted_of_pair hpair).trans hcount
    rw [exec_secretReconstruct_of_due hx hk hbegun hlive hdue hon halive, reconstruct_of_ok hcounted hclean hok]
    simp only [masksCounted, hpair, if_true]
  case inconsistent =>
    intro s s1 j r about x k hx hk hbegun hlive hdue hon halive hself hcount hclean hbad
    have hcounted : reconstructCounted s j k = s1 := (reconstructCounted_of_self hself).trans hcount
    rw [exec_secretReconstruct_of_due hx hk hbegun hlive hdue hon halive, reconstruct_of_not_ok hcounted hclean hbad]
  case unmasked =>
    intro s j r c x hx hbegun hc hlive hnew halive hmasked hon hchecked hdone hclean
    exact exec_cohortUnmaskDone_of_masked hx hbegun hc hlive hnew halive hmasked hon hchecked hdone hclean
  case settled =>
    intro s j r c x hx hdue hclean hrange
    rw [exec_cohortSettle_of_due hx hdue hclean, settleCohort_of_within hrange]
    rfl
  case beyond =>
    intro s j r c x hx hdue hclean hrange
    rw [exec_cohortSettle_of_due hx hdue hclean, settleCohort_of_beyond hrange]
    rfl

end Sys2Proof.Machine

/-! PROOFS. The engines' control registers and their known-answer tests (R149, R150, R262, R305, R306, R353, R588, R597). -/

namespace Sys2Proof.Machine

section controls

variable {s t : State} {e : KatEngine} {r : Reg} {n v : Nat}

/-- A register stored starts and ends no test. -/
theorem katRuns_storeReg (a b : Nat) : (storeReg s r a b v).katRuns = s.katRuns := by
  refine List.foldlRecOn (motive := fun t : State => t.katRuns = s.katRuns) r.fields _ rfl fun t ht f _ => ?_
  unfold storeField
  split
  · split
    · exact ht
    · exact ht
  all_goals exact ht

theorem runKat_of_idle (h : s.katRuns.contains e = false) : runKat s e = { s with katRuns := s.katRuns ++ [e] } :=
  if_neg (by rw [h]; decide)

/-- With KAT_RUN set the fields are stored and the idle engine's tests start. -/
theorem writeCtrl_of_run (hrun : bit v n = true) (hidle : s.katRuns.contains e = false) :
    writeCtrl s r n e v = { storeReg s r 0 0 v with katRuns := (storeReg s r 0 0 v).katRuns ++ [e] } :=
  (if_pos hrun).trans (runKat_of_idle (by rw [katRuns_storeReg, hidle]))

/-- With KAT_RUN clear the fields are stored alone. -/
theorem writeCtrl_of_not_run (h : bit v n = false) : writeCtrl s r n e v = storeReg s r 0 0 v :=
  if_neg (by rw [h]; decide)

theorem writeTolCtrl_of_not_raised (ht : writeCtrl s .TOL_CTRL 2 .toll v = t) (h : (tollOn t && !tollOn s) = false) : writeTolCtrl s v = t := by
  subst ht
  exact if_neg fun hraised => by simp [hraised] at h

/-- As ENABLE returns to 1 the work that waits for Toll goes on. -/
theorem writeTolCtrl_of_raised (ht : writeCtrl s .TOL_CTRL 2 .toll v = t) (hon : tollOn t = true) (hoff : tollOn s = false) :
    writeTolCtrl s v = tollGoesOn t := by
  subst ht
  exact if_pos ⟨hon, by rw [hoff]; decide⟩

theorem writeRindCtrl_of_written (ht : writeCtrl s .RIND_CTRL 1 .rind v = t) :
    writeRindCtrl s v = if rindOn t then rindGoesOn (resumeChunks t 3) else t := by
  rw [writeRindCtrl, ht]

theorem writeCulCtrl_of_written (ht : writeCtrl s .CUL_CTRL 1 .culture v = t) :
    writeCulCtrl s v = if cultureOn t then rindGoesOn t else t := by
  rw [writeCulCtrl, ht]

end controls

section commands

variable {s : State} {v : BitVec 32} {e : KatEngine}

theorem exec_prsKatRun : exec (.prsKatRun v) s = .next (writeCtrl s .PRS_CTRL 1 .press v.toNat) := rfl
theorem exec_wrpKatRun : exec (.wrpKatRun v) s = .next (writeCtrl s .WRP_CTRL 1 .wrap v.toNat) := rfl
theorem exec_skmKatRun : exec (.skmKatRun v) s = .next (writeCtrl s .SKM_CTRL 1 .skim v.toNat) := rfl
theorem exec_triKatRun : exec (.triKatRun v) s = .next (writeCtrl s .TRI_CTRL 1 .trier v.toNat) := rfl
theorem exec_tolKatRun : exec (.tolKatRun v) s = .next (writeTolCtrl s v.toNat) := rfl
theorem exec_tolEnableWrite : exec (.tolEnableWrite v) s = .next (writeTolCtrl s v.toNat) := rfl
theorem exec_rindKatRun : exec (.rindKatRun v) s = .next (writeRindCtrl s v.toNat) := rfl
theorem exec_culKatRun : exec (.culKatRun v) s = .next (writeCulCtrl s v.toNat) := rfl

/-- KAT_COMPLETE of tests that run and pass. -/
theorem exec_katComplete_of_pass (h : s.katRuns.contains e = true) :
    exec (.katComplete e none) s = .next (katStatus { s with katRuns := s.katRuns.erase e } e true) :=
  congrArg Host.Outcome.next (if_neg (not_not_intro h))

/-- KAT_COMPLETE of tests that run and find a unit that fails. -/
theorem exec_katComplete_of_fail {b : Fin 11} {u : Nat} (h : s.katRuns.contains e = true) (hunit : unitExists b u = true) :
    exec (.katComplete e (some (b, u))) s = .next (fence (katFailEv (katStatus { s with katRuns := s.katRuns.erase e } e false) e) b u 1) :=
  congrArg Host.Outcome.next ((if_neg (not_not_intro h)).trans (if_pos hunit))

end commands

/-- Settles O15: each write by its KAT_RUN bit, and the completion by what the tests found. -/
theorem knownAnswerTestsRun : Obligations.KnownAnswerTestsRun := by
  refine ⟨?press, ?wrap, ?skim, ?trier, ?toll, ?tollRaised, ?rind, ?culture, ?rindStored, ?cultureStored, ?pass, ?fail⟩
  case press => exact fun s v hrun hidle => exec_prsKatRun.trans (congrArg _ (writeCtrl_of_run hrun hidle))
  case wrap => exact fun s v hrun hidle => exec_wrpKatRun.trans (congrArg _ (writeCtrl_of_run hrun hidle))
  case skim => exact fun s v hrun hidle => exec_skmKatRun.trans (congrArg _ (writeCtrl_of_run hrun hidle))
  case trier => exact fun s v hrun hidle => exec_triKatRun.trans (congrArg _ (writeCtrl_of_run hrun hidle))
  case toll =>
    intro s v hrun hidle hraised
    exact exec_tolKatRun.trans (congrArg _ (writeTolCtrl_of_not_raised (writeCtrl_of_run hrun hidle) hraised))
  case tollRaised =>
    intro s v hrun hon hoff
    exact exec_tolEnableWrite.trans (congrArg _ (writeTolCtrl_of_raised (writeCtrl_of_not_run hrun) hon hoff))
  case rind =>
    rintro s u v hrun hidle rfl
    exact exec_rindKatRun.trans (congrArg _ (writeRindCtrl_of_written (writeCtrl_of_run hrun hidle)))
  case culture =>
    rintro s u v hrun hidle rfl
    exact exec_culKatRun.trans (congrArg _ (writeCulCtrl_of_written (writeCtrl_of_run hrun hidle)))
  case rindStored =>
    rintro s u v hrun rfl
    exact exec_rindKatRun.trans (congrArg _ (writeRindCtrl_of_written (writeCtrl_of_not_run hrun)))
  case cultureStored =>
    rintro s u v hrun rfl
    exact exec_culKatRun.trans (congrArg _ (writeCulCtrl_of_written (writeCtrl_of_not_run hrun)))
  case pass => exact fun _ _ => exec_katComplete_of_pass
  case fail => exact fun _ _ _ _ => exec_katComplete_of_fail

end Sys2Proof.Machine

/-! PROOFS. The instructions of Culture's and Toll's sequencers (R114, R127, R138, R140, R317, R384, R536, R564). -/

namespace Sys2Proof.Machine

/-! The common course of an instruction: its context stands at it, its operands are good and in reach, and it meets no poison. -/

section course

variable {s go : State} {x : CtxId} {c : Ctx} {opc : Nat} {ok : Bool} {rs : List (Nat × Nat)}

theorem instr_of_stands {run : Ctx → State} (hc : s.ctx? x = some c) (hst : standsAt s x c opc = true) : instr s x opc run = run c := by
  simp only [instr, hc, hst, if_true]

theorem guarded_of_ok (hok : ok = true) (hreach : rangeFault s c rs = none) : guarded s x c ok rs go = go := by
  simp only [guarded, hok, hreach, if_true]

theorem unlessPoison_of_clean {j : JobId} (block : Nat) (hclean : firstPoison s j rs = none) : unlessPoison s j block rs go = go := by
  simp only [unlessPoison, hclean]

end course

/-! Each instruction at which its context stands. -/

section instructions

variable {s t : State} {x : CtxId} {c : Ctx}

/-- What MASKSUB does over the coordinates `is` (R127, R140). -/
def maskSubWork (s : State) (x : CtxId) (c : Ctx) (ring : Ring) (key : Bytes) (is : List Nat) : State :=
  let s1 := applyStream s c.job ring (keyOf key) (bit c.mod 2) c.dst is
  let s2 := cultureCounts s1 c.job (((is.map (· / perBlock ring)).dedup).length) is.length
  issueOp (bankWork s2 c.job c.dst (is.length * ring.slot) (bankOps (is.length * ring.slot))) x 0 0

theorem exec_maskSub_of_stands {ring : Ring} {key : Bytes} {y : Round} (hc : s.ctx? x = some c) (hst : standsAt s x c 0x40 = true)
    (hring : maskRing c.mod = some ring) (hkey : lookup s.handles c.imm = some key) (hy : servedRound s c = some y) (hon : cultureOn s = true)
    (hlen : (key.length == 32) = true)
    (hreach : rangeFault s c [(c.dst, c.sb * ring.slot), (c.sa, ((c.sb + pChunk y.plan - 1) / pChunk y.plan + 7) / 8)] = none)
    (hclean : firstPoison s c.job [(c.dst, c.sb * ring.slot), (c.sa, ((c.sb + pChunk y.plan - 1) / pChunk y.plan + 7) / 8)] = none) :
    exec (.maskSub x) s = .next (maskSubWork s x c ring key
      (unvoided (jobRead s c.job c.sa (((c.sb + pChunk y.plan - 1) / pChunk y.plan + 7) / 8)) (pChunk y.plan) c.sb)) := by
  change execMaskSub x s = _
  rw [execMaskSub, instr_of_stands hc hst]
  simp only [hring, hkey, hy, hon, guarded_of_ok hlen hreach, unlessPoison_of_clean 3 hclean, not_true_eq_false, if_false]
  rfl

theorem exec_expand_of_stands {seed : Bytes} (hc : s.ctx? x = some c) (hst : standsAt s x c 0x41 = true)
    (hseed : lookup s.handles c.imm = some seed) (hon : cultureOn s = true) :
    exec (.expand x) s = .next (
      let n := (freeValue s).1.toNat % 2 ^ 32
      let s1 := (freeValue s).2
      let s2 := { s1 with handles := putN s1.handles rindStream (seed ++ toLe 1 c.mod) }
      issueOp (pmu (count s2 CUL_BYTES.COUNT 0 0 (64 * n)) 0x11 (some c.job) n) x 0 0) := by
  change execExpand x s = _
  rw [execExpand, instr_of_stands hc hst]
  simp only [hseed, hon, not_true_eq_false, if_false]

theorem exec_ecdh_of_stands {d : Bytes} {pt : Nat × Nat} (hc : s.ctx? x = some c) (hst : standsAt s x c 0x50 = true)
    (hd : lookup s.handles (c.imm % 2 ^ 16) = some d) (hon : tollOn s = true) (hreach : rangeFault s c [(c.sa, 97)] = none)
    (hclean : firstPoison s c.job [(c.sa, 97)] = none) (hpt : decodePt (jobRead s c.job c.sa 97) = some pt) :
    exec (.ecdh x) s = .next (issueOp (countSmul (setHandle s (c.imm / 2 ^ 16) (ecdhX (beNat d) pt)) c.job) x 0 0) := by
  change execEcdh x s = _
  rw [execEcdh, instr_of_stands hc hst]
  simp only [hd, hon, guarded_of_ok rfl hreach, unlessPoison_of_clean 2 hclean, agreed, hpt, not_true_eq_false, if_false]

theorem exec_hkdf_of_stands {info z : Bytes} {n : Nat} (hc : s.ctx? x = some c) (hst : standsAt s x c 0x51 = true)
    (hinfo : derivation ((Config.infoCode (c.mod % 16)).val) = (info, n)) (hz : lookup s.handles (c.imm % 2 ^ 16) = some z)
    (hon : tollOn s = true) (hreach : rangeFault s c [(c.sa, n)] = none) (hclean : firstPoison s c.job [(c.sa, n)] = none) :
    exec (.hkdf x) s = .next (issueOp (count
      (setHandle s (c.imm / 2 ^ 16) (hkdfExpand (hkdfExtract (jobRead s c.job c.sa n) z) info 32)) TOL_HKDF_CNT.COUNT 0 0 1) x 0 0) := by
  change execHkdf x s = _
  rw [execHkdf, instr_of_stands hc hst]
  simp only [hinfo, hz, hon, guarded_of_ok rfl hreach, unlessPoison_of_clean 2 hclean, not_true_eq_false, if_false]

/-- RECON of a secret that is due. -/
theorem exec_recon_of_due {y : Round} {k : Nat} {e : Secret} (hc : s.ctx? x = some c) (hst : standsAt s x c 0x52 = true)
    (he : secretAt s c.job c.sa = some (y, k, e)) (hnew : e.done = false) (hon : tollOn s = true) (hdue : secretDue s y e = true)
    (hlive : (y.cohort k).reason = 0) (hbegun : begun y 7 = true) :
    exec (.recon x) s = .next (issueOp (reconstruct s c.job y.number k y e) x 0 0) := by
  change execRecon x s = _
  rw [execRecon, instr_of_stands hc hst]
  simp only [he, hnew, hon, hdue, hlive, hbegun, ne_eq, Bool.false_eq_true, not_true_eq_false, or_self, if_false]

/-- SIGN goes on to what the use of its key slot answers. -/
theorem exec_sign_of_stands {st : SStat} (hc : s.ctx? x = some c) (hst : standsAt s x c 0x53 = true) (hon : tollOn s = true)
    (hreach : rangeFault s c [(c.sa, 48), (c.dst, 96)] = none) (hclean : firstPoison s c.job [(c.sa, 48)] = none)
    (hslot : takeSlot s c.imm c.job 2 2 = (st, t)) :
    exec (.sign x) s = .next (if st = .ok then
      issueOp (countSmul (jobStore t c.job c.dst
        (ecdsaSign (slotNumber t c.imm) (BitVec.ofNat 384 (beNat (jobRead t c.job c.sa 48))))) c.job) x 0 0
      else issueOp t x 6 st.code) := by
  change execSign x s = _
  rw [execSign, instr_of_stands hc hst]
  simp only [hon, guarded_of_ok rfl hreach, unlessPoison_of_clean 2 hclean, hslot, not_true_eq_false, if_false]

/-- KEYGEN goes on to what the entropy unit gives. -/
theorem exec_keyGen_of_stands (hc : s.ctx? x = some c) (hst : standsAt s x c 0x54 = true) (hon : tollOn s = true)
    (hstarted : entropyStarting s = false) (hreach : rangeFault s c [(c.dst, 97)] = none) :
    exec (.keyGen x) s = .next (if ¬ entropyReady s then issueOp s x 6 entropyFailed
      else
        let d := (drawScalar (served s 1)).1
        let t := (drawScalar (served s 1)).2
        issueOp (countSmul (jobStore (setHandle t c.imm (toBe 48 d)) c.job c.dst (publicOf d)) c.job) x 0 0) := by
  change execKeyGen x s = _
  rw [execKeyGen, instr_of_stands hc hst]
  simp only [hon, hstarted, guarded_of_ok rfl hreach, Bool.false_eq_true, not_true_eq_false, or_self, if_false]

end instructions

/-- Settles O20: each instruction by the course that its hypotheses describe. -/
theorem keyInstructionsRun : Obligations.KeyInstructionsRun := by
  refine ⟨?maskSub, ?expand, ?ecdh, ?hkdf, ?recon, ?sign, ?signRefused, ?keyGen, ?keyGenFailed⟩
  case maskSub =>
    intro s x c ring key y hc hst hring hkey hy hon hlen hreach hclean
    exact exec_maskSub_of_stands hc hst hring hkey hy hon hlen hreach hclean
  case expand => exact fun _ _ _ _ => exec_expand_of_stands
  case ecdh => exact fun _ _ _ _ _ => exec_ecdh_of_stands
  case hkdf =>
    intro s x c info n z hc hst hinfo hz hon hreach hclean
    exact exec_hkdf_of_stands hc hst hinfo hz hon hreach hclean
  case recon => exact fun _ _ _ _ _ _ => exec_recon_of_due
  case sign =>
    intro s x c t hc hst hon hreach hclean hslot
    exact (exec_sign_of_stands hc hst hon hreach hclean hslot).trans (congrArg _ (if_pos rfl))
  case signRefused =>
    intro s x c t st hc hst hon hreach hclean hslot hbad
    exact (exec_sign_of_stands hc hst hon hreach hclean hslot).trans (congrArg _ (if_neg hbad))
  case keyGen =>
    intro s x c hc hst hon hstarted hreach hready
    exact (exec_keyGen_of_stands hc hst hon hstarted hreach).trans (congrArg _ (if_neg (not_not_intro hready)))
  case keyGenFailed =>
    intro s x c hc hst hon hstarted hreach hfailed
    exact (exec_keyGen_of_stands hc hst hon hstarted hreach).trans (congrArg _ (if_pos (by rw [hfailed]; decide)))

end Sys2Proof.Machine

/-! PROOFS. The G64 sums of the Vat (R179, R180, R187). -/

namespace Sys2Proof.Machine

section exactSums

variable {a b : Word}

/-- The marker is the one word whose magnitude is 2^63. -/
theorem ne_g64Marker_of_natAbs_lt (h : a.toInt.natAbs < 2 ^ 63) : a ≠ g64Marker := by
  rintro rfl
  revert h
  decide

theorem g64Add_marker_left (b : Word) : g64Add g64Marker b = g64Marker := if_pos (.inl rfl)

theorem g64Add_marker_right (a : Word) : g64Add a g64Marker = g64Marker := if_pos (.inr rfl)

theorem g64Add_comm (a b : Word) : g64Add a b = g64Add b a := by
  simp only [g64Add, or_comm (a := a = g64Marker), Int.add_comm a.toInt]

/-- A sum in the finite range is exact. -/
theorem toInt_g64Add_of_lt (ha : a ≠ g64Marker) (hb : b ≠ g64Marker) (h : (a.toInt + b.toInt).natAbs < 2 ^ 63) :
    (g64Add a b).toInt = a.toInt + b.toInt := by
  rw [g64Add, if_neg (not_or.2 ⟨ha, hb⟩), if_pos (by omega)]
  exact BitVec.toInt_ofInt_eq_self (by decide) (by omega) (by omega)

/-- Addends without a marker, whose magnitudes keep within the finite range, sum exactly from any finite start. -/
theorem toInt_foldl_g64Add (l : List Word) (a : Word) (hl : ∀ x ∈ l, x ≠ g64Marker)
    (h : a.toInt.natAbs + (l.map (fun x => x.toInt.natAbs)).sum < 2 ^ 63) :
    (l.foldl g64Add a).toInt = a.toInt + (l.map (·.toInt)).sum := by
  induction l generalizing a with
  | nil => simp
  | cons x l ih =>
    simp only [List.map_cons, List.sum_cons] at h
    obtain ⟨hx, hl⟩ := List.forall_mem_cons.1 hl
    have hsum : (g64Add a x).toInt = a.toInt + x.toInt :=
      toInt_g64Add_of_lt (ne_g64Marker_of_natAbs_lt (by omega)) hx (by omega)
    rw [List.foldl_cons, ih _ hl (by omega), hsum, List.map_cons, List.sum_cons, Int.add_assoc]

/-- The order of such addends does not matter: each order gives the one word of their exact sum. -/
theorem foldl_g64Add_perm {l₁ l₂ : List Word} (hl : ∀ x ∈ l₁, x ≠ g64Marker)
    (h : (l₁.map (fun x => x.toInt.natAbs)).sum < 2 ^ 63) (hperm : l₁.Perm l₂) : l₂.foldl g64Add 0 = l₁.foldl g64Add 0 := by
  have hmag := (hperm.map fun x : Word => x.toInt.natAbs).sum_eq
  have hval := (hperm.map fun x : Word => x.toInt).sum_eq
  have hzero : (0 : Word).toInt.natAbs = 0 := by decide
  refine BitVec.eq_of_toInt_eq ?_
  rw [toInt_foldl_g64Add l₂ 0 (fun x hx => hl x (hperm.mem_iff.2 hx)) (by omega), toInt_foldl_g64Add l₁ 0 hl (by omega), hval]

/-- Once a sum is the marker it stays so. -/
theorem foldl_g64Add_marker (l : List Word) : l.foldl g64Add g64Marker = g64Marker := by
  induction l with
  | nil => rfl
  | cons x l ih => rw [List.foldl_cons, g64Add_marker_left, ih]

theorem foldl_g64Add_of_marker_mem {l : List Word} (h : g64Marker ∈ l) (a : Word) : l.foldl g64Add a = g64Marker := by
  obtain ⟨l₁, l₂, rfl⟩ := List.append_of_mem h
  rw [List.foldl_append, List.foldl_cons, g64Add_marker_right, foldl_g64Add_marker]

end exactSums

/-- Settles O59, by induction on the addends. -/
theorem exactTotalsDoNotDependOnOrder : Obligations.ExactTotalsDoNotDependOnOrder := by
  refine ⟨fun l hl h => ⟨?_, fun l₂ => foldl_g64Add_perm hl h⟩, fun l a hmem => foldl_g64Add_of_marker_mem hmem a, g64Add_comm⟩
  have hzero : (0 : Word).toInt = 0 := by decide
  simpa [hzero] using toInt_foldl_g64Add l 0 hl (by simpa [hzero] using h)

end Sys2Proof.Machine

/-! PROOFS. The berths of the Vat (R160). -/

namespace Sys2Proof.Machine

section berths

variable {s : State}

/-- No berth is held by two jobs (R160). -/
def BerthsApart (s : State) : Prop :=
  ∀ (m : Fin 6) (j k : Fin 16), j ≠ k → fget s VAT_JOB_BERTHS.BERTH j m &&& fget s VAT_JOB_BERTHS.BERTH k m = 0

/-- Whether a job other than the selected one holds a berth that a write of VAT_JOB_BERTHS names. -/
def berthsClash (s : State) (n v : Nat) : Bool :=
  (List.range 16).any (fun k => k != get1 s VAT_JOB_SEL.JOB && decide (fget s VAT_JOB_BERTHS.BERTH k n &&& v ≠ 0))

theorem berthsClash_iff {n v : Nat} :
    berthsClash s n v = true ↔ ∃ k : Fin 16, k.val ≠ get1 s VAT_JOB_SEL.JOB ∧ fget s VAT_JOB_BERTHS.BERTH k n &&& v ≠ 0 := by
  simp only [berthsClash, List.any_eq_true, List.mem_range, Bool.and_eq_true, bne_iff_ne, decide_eq_true_eq]
  exact ⟨fun ⟨k, hk, h⟩ => ⟨⟨k, hk⟩, h⟩, fun ⟨k, h⟩ => ⟨k, k.isLt, h⟩⟩

/-- A write for a job that exists is ignored. -/
theorem writeBerths_of_present {n v : Nat} (h : (s.job (Fin.ofNat 16 (get1 s VAT_JOB_SEL.JOB))).present = true) : writeBerths s n v = s :=
  if_pos h

theorem writeBerths_of_clash {n v : Nat} (h : (s.job (Fin.ofNat 16 (get1 s VAT_JOB_SEL.JOB))).present = false)
    (hclash : berthsClash s n v = true) : writeBerths s n v = ev s VAT_EVENT.BERTH_EV :=
  (if_neg (Bool.eq_false_iff.1 h)).trans (if_pos hclash)

theorem writeBerths_of_free {n v : Nat} (h : (s.job (Fin.ofNat 16 (get1 s VAT_JOB_SEL.JOB))).present = false)
    (hfree : berthsClash s n v = false) : writeBerths s n v = fset s VAT_JOB_BERTHS.BERTH (get1 s VAT_JOB_SEL.JOB) n v :=
  (if_neg (Bool.eq_false_iff.1 h)).trans (if_neg (Bool.eq_false_iff.1 hfree))

theorem exec_berthWrite (n : Fin 6) (v : Word) : exec (.berthWrite n v) s = .next (writeBerths s n v.toNat) := rfl

/-- A field of another register set leaves the berths apart. -/
theorem berthsApart_fset {f : Fld} {a b v : Nat} (hs : BerthsApart s) (hf : f.reg ≠ .VAT_JOB_BERTHS) : BerthsApart (fset s f a b v) := by
  intro m j k hjk
  have hkey : (f.reg, f.lo) ≠ (VAT_JOB_BERTHS.BERTH.reg, VAT_JOB_BERTHS.BERTH.lo) := fun h => hf (Prod.ext_iff.1 h).1
  rw [fget_fset_ne _ _ _ _ _ _ _ _ (Fld.key_ne hkey _ _ _ _), fget_fset_ne _ _ _ _ _ _ _ _ (Fld.key_ne hkey _ _ _ _)]
  exact hs m j k hjk

/-- Copies of one field have different keys. -/
theorem Fld.key_copy_ne {f : Fld} {a b c d : Nat} (h : ¬ (a = c ∧ b = d)) : f.key a b ≠ f.key c d := by
  intro e
  simp only [Fld.key, RKey.mk.injEq, true_and] at e
  exact h e

/-- Berths that no other job holds, given to the selected job, leave the berths apart. -/
theorem berthsApart_of_free {a v : Nat} {n : Fin 6} (hs : BerthsApart s)
    (hfree : ∀ k : Fin 16, k.val ≠ a → fget s VAT_JOB_BERTHS.BERTH k n &&& v = 0) (hv : v < 2 ^ 64) :
    BerthsApart (fset s VAT_JOB_BERTHS.BERTH a n v) := by
  have hread (m : Fin 6) (k : Fin 16) : fget (fset s VAT_JOB_BERTHS.BERTH a n v) VAT_JOB_BERTHS.BERTH k m =
      if a = k ∧ n.val = m then v else fget s VAT_JOB_BERTHS.BERTH k m := by
    split_ifs with h
    · rw [h.1, h.2, fget_fset_self]
      exact Nat.mod_eq_of_lt hv
    · exact fget_fset_ne _ _ _ _ _ _ _ _ (Fld.key_copy_ne h)
  intro m j k hjk
  have hjk' : j.val ≠ k.val := Fin.val_ne_of_ne hjk
  rw [hread, hread]
  split_ifs with hj hk hk
  · exact absurd (hj.1.symm.trans hk.1) hjk'
  · rw [Nat.and_comm, ← Fin.ext hj.2]
    exact hfree k (by omega)
  · rw [← Fin.ext hk.2]
    exact hfree j (by omega)
  · exact hs m j k hjk

theorem berthsApart_writeBerths {n : Fin 6} {v : Nat} (hs : BerthsApart s) (hv : v < 2 ^ 64) : BerthsApart (writeBerths s n v) := by
  cases hp : (s.job (Fin.ofNat 16 (get1 s VAT_JOB_SEL.JOB))).present with
  | true => rwa [writeBerths_of_present hp]
  | false =>
    cases hc : berthsClash s n v with
    | true =>
      rw [writeBerths_of_clash hp hc]
      exact berthsApart_fset hs (by decide)
    | false =>
      rw [writeBerths_of_free hp hc]
      refine berthsApart_of_free hs (fun k hk => ?_) hv
      by_contra hne
      exact Bool.eq_false_iff.1 hc (berthsClash_iff.2 ⟨k, hk, hne⟩)

/-- The berth of a module Vat address is one of the job whose address it is. -/
theorem berth_mem_of_vatOf {j a x : Nat} (h : vatOf s j a = some x) : x / 2 ^ 24 ∈ berthsOf s j := by
  obtain ⟨b, hb, rfl⟩ := Option.map_eq_some_iff.1 h
  have hdiv : (b * 2 ^ 24 + a % 2 ^ 24) / 2 ^ 24 = b := by omega
  rw [hdiv]
  exact List.mem_of_getElem? hb

theorem mem_berthsOf {j n : Nat} : n ∈ berthsOf s j ↔ n < 384 ∧ bit (fget s VAT_JOB_BERTHS.BERTH j (n / 64)) (n % 64) = true := by
  rw [berthsOf, List.mem_filter, List.mem_range]

theorem bit_eq_testBit (v n : Nat) : bit v n = v.testBit n := by
  rw [bit, Nat.testBit_eq_decide_div_mod_eq]
  rfl

/-- At reset every field reads as its reset value. -/
theorem fget_reset (f : Fld) (a b : Nat) : fget State.reset f a b = f.reset := rfl

theorem not_mem_berthsOf_of_apart {j k : JobId} {n : Nat} (hs : BerthsApart s) (hjk : j ≠ k) (hj : n ∈ berthsOf s j) : n ∉ berthsOf s k := by
  intro hk
  obtain ⟨hn, hj⟩ := mem_berthsOf.1 hj
  obtain ⟨-, hk⟩ := mem_berthsOf.1 hk
  rw [bit_eq_testBit] at hj hk
  have hboth := congrArg (Nat.testBit · (n % 64)) (hs ⟨n / 64, by omega⟩ j k hjk)
  simp [hj, hk] at hboth

end berths

/-- Settles O55: a write gives the selected job only berths that no other job holds. -/
theorem berthsStayApart : Obligations.BerthsStayApart := by
  refine ⟨?write, fun _ _ _ => by rw [fget_reset, fget_reset]; rfl, ?apart⟩
  case write =>
    intro s t n v hs ht
    rw [exec_berthWrite] at ht
    cases ht
    exact berthsApart_writeBerths hs v.isLt
  case apart =>
    intro s j k a b x hjk hs ha hb
    exact not_mem_berthsOf_of_apart hs hjk (berth_mem_of_vatOf ha) (berth_mem_of_vatOf hb)

end Sys2Proof.Machine

/-! PROOFS. The bytes of the Vat as rounds and banks hold them, and what a write of one leaves (R106, R152, R153, R155, R167, R201). -/

namespace Sys2Proof.Machine

/-! A number's bytes. -/

theorem withByte_mod (v o : Nat) (b : Byte) : withByte v o b % 256 ^ o = v % 256 ^ o := by
  have hdvd : 256 ^ (o + 1) = 256 ^ o * 256 := pow_succ _ _
  rw [withByte, hdvd, Nat.mul_comm (256 ^ o) 256, ← Nat.mul_assoc, Nat.add_mul_mod_self_right, Nat.add_mul_mod_self_right, Nat.mod_mod]

theorem withByte_div (v o : Nat) (b : Byte) : withByte v o b / 256 ^ (o + 1) = v / 256 ^ (o + 1) := by
  have hlow : v % 256 ^ o + b.toNat * 256 ^ o < 256 ^ (o + 1) := by
    have hv := Nat.mod_lt v (Nat.pow_pos (n := o) (show 0 < 256 by decide))
    have hb := Nat.mul_le_mul_right (256 ^ o) (Nat.le_of_lt_succ b.isLt)
    rw [pow_succ]
    omega
  rw [withByte, Nat.add_mul_div_right _ _ (Nat.pow_pos (by decide)), Nat.div_eq_of_lt hlow, Nat.zero_add]

/-- A byte written leaves the others of the number. -/
theorem byteOf_withByte_ne {o o' : Nat} (h : o' ≠ o) (v : Nat) (b : Byte) : byteOf (withByte v o b) o' = byteOf v o' := by
  have hmod : withByte v o b / 256 ^ o' % 256 = v / 256 ^ o' % 256 := by
    rcases Nat.lt_or_gt_of_ne h with hlt | hgt
    · have hdvd : 256 ^ (o' + 1) ∣ 256 ^ o := pow_dvd_pow 256 hlt
      rw [← Nat.mod_mul_right_div_self, ← Nat.mod_mul_right_div_self, ← pow_succ, ← Nat.mod_mod_of_dvd _ hdvd, withByte_mod,
        Nat.mod_mod_of_dvd _ hdvd]
    · obtain ⟨d, rfl⟩ := Nat.exists_eq_add_of_lt hgt
      rw [show o + d + 1 = (o + 1) + d by omega, pow_add, ← Nat.div_div_eq_div_mul, ← Nat.div_div_eq_div_mul, withByte_div]
  exact BitVec.eq_of_toNat_eq hmod

/-- A byte of a bitmap written leaves the indices of the others. -/
theorem contains_bitmapWith_of_ne {o i : Nat} (h : i / 8 ≠ o) (is : List Nat) (v : Byte) :
    (bitmapWith is o v).contains i = is.contains i := by
  rw [Bool.eq_iff_iff]
  simp only [bitmapWith, List.contains_iff_mem, List.mem_append, List.mem_filter, List.mem_map, List.mem_range]
  constructor
  · rintro (⟨hi, -⟩ | ⟨⟨b, hb, rfl⟩, -⟩)
    · exact hi
    · omega
  · exact fun hi => .inl ⟨hi, by simp [h]⟩

theorem bitmapByte_bitmapWith_ne {o o' : Nat} (h : o' ≠ o) (is : List Nat) (v : Byte) :
    bitmapByte (bitmapWith is o v) o' = bitmapByte is o' := by
  refine congrArg (fun l : List Nat => BitVec.ofNat 8 l.sum) (List.map_congr_left fun b hb => ?_)
  rw [contains_bitmapWith_of_ne (by have := List.mem_range.1 hb; omega)]

theorem getD_set_ne {α : Type} {i j : Nat} (h : i ≠ j) (l : List α) (v d : α) : (l.set i v).getD j d = l.getD j d := by
  simp [List.getD_eq_getElem?_getD, List.getElem?_set_ne h]

/-- A byte written of a list of words leaves every other byte of the words. -/
theorem byteOf_set_withByte_ne {o o' : Nat} (h : o' ≠ o) (l : List Nat) (v : Byte) :
    byteOf ((l.set (o / 4) (withByte (l.getD (o / 4) 0) (o % 4) v)).getD (o' / 4) 0) (o' % 4) = byteOf (l.getD (o' / 4) 0) (o' % 4) := by
  by_cases hw : o / 4 = o' / 4
  · by_cases hl : o / 4 < l.length
    · rw [← hw, List.getD_eq_getElem _ _ (by rwa [List.length_set]), List.getElem_set_self, byteOf_withByte_ne (by omega)]
    · rw [List.set_eq_of_length_le (Nat.le_of_not_lt hl)]
  · rw [getD_set_ne hw]

/-! A piece of a masked round in the Vat. -/

/-- The pieces of a masked round that lie in the Vat: no sum ciphertexts, and the close table lies in HBM (R163, R325). -/
def Piece.inVat : Piece → Bool
  | .bitmap _ | .check _ | .weights | .element _ _ => true
  | .sumHead _ _ | .residue .. | .record _ => false

theorem cohort_modCohort_ite (x : Round) (c d : Nat) (g : Cohort → Cohort) :
    (x.modCohort c g).cohort d = if c = d then g (x.cohort c) else x.cohort d := by
  simp only [Round.modCohort, Round.cohort, readD, lookup_putN]
  split <;> rfl

/-- A change of one cohort leaves what every other one reads as, and what it keeps of its own. -/
theorem cohort_modCohort_congr {α : Type} {g : Cohort → Cohort} {p : Cohort → α} (hg : ∀ k, p (g k) = p k) (x : Round) (c d : Nat) :
    p ((x.modCohort c g).cohort d) = p (x.cohort d) := by
  rw [cohort_modCohort_ite]
  split
  next h => rw [hg, h]
  next => rfl

section pieces

variable {x : Round} {q q' : Piece} {o o' : Nat} {v : Byte}

theorem pieceByte_set_bitmap_ne {slot : Nat} (hq : q'.inVat = true) (hne : ¬ (q' = .bitmap slot ∧ o' = o)) :
    pieceByte (pieceSet x (.bitmap slot) o v) q' o' = pieceByte x q' o' := by
  cases q' with
  | bitmap slot' =>
    simp only [pieceSet, pieceByte, lookup_putN]
    split
    next h =>
      subst h
      exact bitmapByte_bitmapWith_ne (fun h => hne ⟨rfl, h⟩) _ _
    next => rfl
  | check c' => rfl
  | weights => rfl
  | element c' i' => rfl
  | sumHead | residue | record => exact absurd hq Bool.false_ne_true

theorem pieceByte_set_check_ne {c : Nat} (hq : q'.inVat = true) (hne : ¬ (q' = .check c ∧ o' = o)) :
    pieceByte (pieceSet x (.check c) o v) q' o' = pieceByte x q' o' := by
  unfold pieceSet
  dsimp only
  split
  next =>
    cases q' with
    | bitmap slot' => rfl
    | check c' =>
      simp only [pieceByte, cohort_modCohort_ite]
      by_cases hc : c = c'
      · subst hc
        simp only [if_true, byteOf_set_withByte_ne (fun h => hne ⟨rfl, h⟩)]
      · simp only [hc, if_false]
    | weights => rfl
    | element c' i' =>
      refine congrArg (byteOf · o') (cohort_modCohort_congr (p := fun k => readD 0 k.accum i') ?_ x c c')
      exact fun _ => rfl
    | sumHead | residue | record => exact absurd hq Bool.false_ne_true
  next => rfl

theorem pieceByte_set_weights_ne (hq : q'.inVat = true) (hne : ¬ (q' = .weights ∧ o' = o)) :
    pieceByte (pieceSet x .weights o v) q' o' = pieceByte x q' o' := by
  cases q' with
  | weights => exact getD_set_ne (fun h => hne ⟨rfl, h.symm⟩) _ _ _
  | bitmap slot' => rfl
  | check c' => rfl
  | element c' i' => rfl
  | sumHead | residue | record => exact absurd hq Bool.false_ne_true

theorem pieceByte_set_element_ne {c i : Nat} (hq : q'.inVat = true) (hne : ¬ (q' = .element c i ∧ o' = o)) :
    pieceByte (pieceSet x (.element c i) o v) q' o' = pieceByte x q' o' := by
  cases q' with
  | bitmap slot' => rfl
  | check c' =>
    refine congrArg (fun l : List Nat => if o' < 16 then byteOf (l.getD (o' / 4) 0) (o' % 4) else 0)
      (cohort_modCohort_congr (p := (·.check)) ?_ x c c')
    exact fun _ => rfl
  | weights => rfl
  | element c' i' =>
    simp only [pieceSet, pieceByte, cohort_modCohort_ite]
    by_cases hc : c = c'
    · subst hc
      simp only [if_true, readD_putD]
      split
      next hi =>
        subst hi
        exact byteOf_withByte_ne (fun h => hne ⟨rfl, h⟩) _ _
      next => rfl
    · simp only [hc, if_false]
  | sumHead | residue | record => exact absurd hq Bool.false_ne_true

/-- A byte of a piece in the Vat written leaves every other byte of the round's pieces there. -/
theorem pieceByte_pieceSet_ne (hq : q.inVat = true) (hq' : q'.inVat = true) (hne : ¬ (q' = q ∧ o' = o)) :
    pieceByte (pieceSet x q o v) q' o' = pieceByte x q' o' := by
  cases q with
  | bitmap => exact pieceByte_set_bitmap_ne hq' hne
  | check => exact pieceByte_set_check_ne hq' hne
  | weights => exact pieceByte_set_weights_ne hq' hne
  | element => exact pieceByte_set_element_ne hq' hne
  | sumHead | residue | record => exact absurd hq Bool.false_ne_true

end pieces

/-- A change of a round that keeps its number and plan and where its structures lie. -/
structure SamePlaces (g : Round → Round) : Prop where
  number : ∀ x, (g x).number = x.number
  plan : ∀ x, (g x).plan = x.plan
  closed : ∀ x, (g x).closed = x.closed
  inHbm : ∀ x c, ((g x).cohort c).inHbm = (x.cohort c).inHbm

theorem samePlaces_modCohort (c : Nat) {g : Round → Cohort → Cohort} (hg : ∀ x k, (g x k).inHbm = k.inHbm) :
    SamePlaces (fun x => x.modCohort c (g x)) :=
  ⟨fun _ => rfl, fun _ => rfl, fun _ => rfl, fun x d => cohort_modCohort_congr (p := (·.inHbm)) (hg x) x c d⟩

/-- A byte of a close record written changes the close table alone. -/
theorem proj_set_record {α : Type} (p : Round → α) (hp : ∀ x t, p { x with closeTable := t } = p x) {slot o : Nat} {v : Byte} (x : Round) :
    p (pieceSet x (.record slot) o v) = p x := by
  simp only [pieceSet]
  split
  · rfl
  · exact hp x _

theorem samePlaces_pieceSet (q : Piece) (o : Nat) (v : Byte) : SamePlaces (fun x => pieceSet x q o v) := by
  cases q with
  | bitmap | weights => exact ⟨fun _ => rfl, fun _ => rfl, fun _ => rfl, fun _ _ => rfl⟩
  | check c =>
    unfold pieceSet
    dsimp only
    split
    · exact samePlaces_modCohort c fun _ _ => rfl
    · exact ⟨fun _ => rfl, fun _ => rfl, fun _ => rfl, fun _ _ => rfl⟩
  | element c i =>
    dsimp only [pieceSet]
    exact samePlaces_modCohort c fun _ _ => rfl
  | sumHead c i =>
    dsimp only [pieceSet]
    exact samePlaces_modCohort c fun _ _ => rfl
  | residue c i poly limb n =>
    dsimp only [pieceSet]
    exact samePlaces_modCohort c fun _ _ => rfl
  | record slot =>
    exact ⟨proj_set_record (·.number) fun _ _ => rfl, proj_set_record (·.plan) fun _ _ => rfl, proj_set_record (·.closed) fun _ _ => rfl,
      fun x c => proj_set_record (fun y => (y.cohort c).inHbm) (fun _ _ => rfl) x⟩

/-! The places of a round's pieces, back from the pieces. -/

section places

variable {s : State} {j : JobId} {x : Round}

/-- The first byte of a piece of a round in the Vat (R106, R163, R167, R201). -/
def pieceStart (s : State) (j : JobId) (x : Round) : Piece → Nat
  | .bitmap slot => bitmapAt s j x slot
  | .check c => checkAt s j x c
  | .weights => vatAt s j x + weightOff s j x.plan
  | .element c i => ringAt s j x c + i * (pRing x.plan).slot
  | .sumHead .. | .residue .. | .record .. => 0

theorem eq_stackPlace_of_stackFind {r block n span o c k : Nat} (h : stackFind r block n span o = some (c, k)) :
    o = stackPlace r block n span c + k := by
  unfold stackFind at h
  unfold stackPlace
  dsimp only at h
  split_ifs at h with hspan hlow hin hbelow hfit <;> (simp only [Option.some.injEq, Prod.mk.injEq] at h; obtain ⟨rfl, rfl⟩ := h)
  · rw [if_pos hlow, Nat.add_assoc, Nat.mul_comm, Nat.div_add_mod]
    omega
  · rw [if_neg hlow]
    have := Nat.lt_div_mul_add (a := block - 1 - o) (Nat.pos_of_ne_zero hspan)
    rw [Nat.add_mul, Nat.one_mul] at hfit ⊢
    omega

theorem sumsBytes_of_masked {p : Bytes} (hp : pSealed p = false) : sumsBytes p = 0 := if_neg (Bool.eq_false_iff.1 hp)

theorem accPiece_of_masked {p : Bytes} (hp : pSealed p = false) (c o : Nat) :
    accPiece p c o = some (.element c (o / (pRing p).slot), o % (pRing p).slot) := by
  simp only [accPiece, sumsBytes_of_masked hp, Nat.not_lt_zero, if_false, Nat.sub_zero]

/-- A place among the Vat-only structures is that of the piece that it holds. -/
theorem eq_pieceStart_of_fixedPiece {q : Piece} {o k : Nat} (h : fixedPiece s j x.plan o = some (q, k)) :
    q.inVat = true ∧ vatAt s j x + o = pieceStart s j x q + k := by
  unfold fixedPiece at h
  split_ifs at h with hcheck hmap hweight hin <;> (simp only [Option.some.injEq, Prod.mk.injEq] at h; obtain ⟨rfl, rfl⟩ := h)
  · exact ⟨rfl, by rw [pieceStart, bitmapAt, Nat.add_assoc, Nat.mul_comm, Nat.div_add_mod]⟩
  · exact ⟨rfl, by rw [pieceStart, checkAt, Nat.add_assoc, Nat.div_add_mod]; omega⟩
  · exact ⟨rfl, by rw [pieceStart]; omega⟩

/-- A place in the Vat is that of the piece of a masked round that it holds. -/
theorem eq_pieceStart_of_pieceAt {q : Piece} {o k : Nat} (hx : pSealed x.plan = false) (ho : o < hbmBase) (h : pieceAt s j x o = some (q, k)) :
    q.inVat = true ∧ o = pieceStart s j x q + k := by
  simp only [pieceAt, if_neg (Nat.not_le.2 ho)] at h
  split at h
  next hfixed =>
    obtain ⟨hq, hstart⟩ := eq_pieceStart_of_fixedPiece h
    exact ⟨hq, by omega⟩
  next =>
    obtain ⟨⟨c, e⟩, hfind, hpiece⟩ := Option.bind_eq_some_iff.1 h
    simp only [Bool.false_eq_true, if_false, accPiece_of_masked hx] at hpiece
    split at hpiece
    next hc =>
      simp only [Option.some.injEq, Prod.mk.injEq] at hpiece
      obtain ⟨rfl, rfl⟩ := hpiece
      refine ⟨rfl, ?_⟩
      rw [pieceStart, ringAt, accAt, hc.2, sumsBytes_of_masked hx, if_neg Bool.false_ne_true, Nat.add_zero, Nat.add_assoc, Nat.mul_comm,
        Nat.div_add_mod]
      exact eq_stackPlace_of_stackFind hfind
    next => cases hpiece

/-- An address outside the add window is that of its place (R163, R190). -/
theorem around_of_unaround {a o : Nat} (ha : a < hbmBase) (h : unaround s j a = some o) : o < hbmBase ∧ a = around s j o := by
  unfold unaround at h
  unfold around
  split_ifs at h with hreach hlow hin <;> (simp only [Option.some.injEq] at h; subst h)
  · exact ⟨ha, (if_pos hlow).symm⟩
  · exact ⟨by omega, by rw [if_neg (by omega)]; omega⟩

/-- The rounds in flight are masked, and no two of a job have one number. -/
def MaskedRounds (s : State) : Prop :=
  ∀ j : JobId, ((s.job j).rounds.map (·.number)).Nodup ∧ ∀ x ∈ (s.job j).rounds, pSealed x.plan = false

/-- A byte of a structure in the Vat belongs to a round of the job, and its address is that of its place in the piece. -/
theorem of_viewAt {a : Nat} {q : Piece} {k : Nat} (hs : MaskedRounds s) (ha : a < hbmBase) (h : viewAt s j a = some (x, q, k)) :
    x ∈ (s.job j).rounds ∧ q.inVat = true ∧ a = around s j (pieceStart s j x q + k) := by
  unfold viewAt at h
  split at h
  · cases h
  · obtain ⟨o, ho, hround⟩ := Option.bind_eq_some_iff.1 h
    obtain ⟨y, hy, hpiece⟩ := List.exists_of_findSome?_eq_some hround
    obtain ⟨e, he, heq⟩ := Option.map_eq_some_iff.1 hpiece
    simp only [Prod.mk.injEq] at heq
    obtain ⟨rfl, rfl⟩ := heq
    obtain ⟨hlt, rfl⟩ := around_of_unaround ha ho
    obtain ⟨hq, rfl⟩ := eq_pieceStart_of_pieceAt ((hs j).2 y hy) hlt he
    exact ⟨hy, hq, rfl⟩

theorem length_berthsOf_le (j : Nat) : (berthsOf s j).length ≤ 384 :=
  (List.length_filter_le _ _).trans_eq List.length_range

/-- A byte of a berth that its owner holds lies below the owner's HBM, at the owner's address of it (R160, R162). -/
theorem of_vatOwner {a b : Nat} (h : vatOwner s a = some (j, b)) : b < hbmBase ∧ vatOf s j b = some a := by
  obtain ⟨i, -, hrel⟩ := Option.bind_eq_some_iff.1 h
  obtain ⟨y, hy, heq⟩ := Option.map_eq_some_iff.1 hrel
  simp only [Prod.mk.injEq] at heq
  obtain ⟨rfl, rfl⟩ := heq
  obtain ⟨n, hn, rfl⟩ := Option.map_eq_some_iff.1 hy
  obtain ⟨hlt, hberth, -⟩ := List.findIdx?_eq_some_iff_getElem.1 hn
  have hlen := length_berthsOf_le (s := s) i
  have hdiv : (n * 2 ^ 24 + a % 2 ^ 24) / 2 ^ 24 = n := by omega
  refine ⟨by unfold hbmBase; omega, ?_⟩
  rw [vatOf, hdiv, List.getElem?_eq_getElem hlt, Option.map_some, beq_iff_eq.1 hberth]
  exact congrArg some (by omega)

/-- Two bytes of the Vat that are the same byte of one piece are one. -/
theorem eq_of_same_view {a b a' b' : Nat} {q : Piece} {k : Nat} (hs : MaskedRounds s) (ha : vatOwner s a = some (j, a'))
    (hb : vatOwner s b = some (j, b')) (hva : viewAt s j a' = some (x, q, k)) (hvb : viewAt s j b' = some (x, q, k)) : a = b := by
  obtain ⟨hlta, hrela⟩ := of_vatOwner ha
  obtain ⟨hltb, hrelb⟩ := of_vatOwner hb
  obtain ⟨-, -, rfl⟩ := of_viewAt hs hlta hva
  obtain ⟨-, -, rfl⟩ := of_viewAt hs hltb hvb
  exact Option.some.inj (hrela.symm.trans hrelb)

end places

/-! A round changed where it stands. -/

section rounds

variable {s : State} {j : JobId} {r : Nat} {g : Round → Round}

/-- What a round of job i is after a change of round r of job j. -/
def changedRound (j i : JobId) (r : Nat) (g : Round → Round) (x : Round) : Round := if i = j ∧ x.number = r then g x else x

theorem rounds_modRound (i : JobId) : ((s.modRound j r g).job i).rounds = (s.job i).rounds.map (changedRound j i r g) := by
  by_cases h : i = j
  · subst h
    simp [State.modRound, changedRound]
  · have hid : changedRound j i r g = id := funext fun x => if_neg fun hx => h hx.1
    rw [State.modRound, job_modJob_ne _ _ _ _ (Ne.symm h), hid, List.map_id]

theorem hbm_modRound (i : JobId) : ((s.modRound j r g).job i).hbm = (s.job i).hbm := by
  by_cases h : i = j
  · subst h
    simp [State.modRound]
  · rw [State.modRound, job_modJob_ne _ _ _ _ (Ne.symm h)]

theorem changedRound_samePlaces (hg : SamePlaces g) (i : JobId) : SamePlaces (changedRound j i r g) := by
  refine ⟨fun x => ?_, fun x => ?_, fun x => ?_, fun x c => ?_⟩ <;> unfold changedRound <;> split
  · exact hg.number x
  · rfl
  · exact hg.plan x
  · rfl
  · exact hg.closed x
  · rfl
  · exact hg.inHbm x c
  · rfl

theorem maskedRounds_modRound (hs : MaskedRounds s) (hg : SamePlaces g) : MaskedRounds (s.modRound j r g) := by
  intro i
  have hsame := changedRound_samePlaces (j := j) (r := r) hg i
  rw [rounds_modRound]
  refine ⟨?_, fun y hy => ?_⟩
  · have hnumber : (fun x : Round => x.number) ∘ changedRound j i r g = fun x => x.number := funext hsame.number
    rw [List.map_map, hnumber]
    exact (hs i).1
  · obtain ⟨x, hx, rfl⟩ := List.mem_map.1 hy
    rw [hsame.plan]
    exact (hs i).2 x hx

/-- A change that keeps the places shows the same pieces at them. -/
theorem pieceAt_samePlaces (hg : SamePlaces g) (x : Round) (o : Nat) : pieceAt s j (g x) o = pieceAt s j x o := by
  have hstack (hbm : Bool) (f : Option (Nat × Nat)) : stackPiece (g x) hbm f = stackPiece x hbm f := by
    simp only [stackPiece, hg.plan, hg.inHbm]
  have hclose : closeAt s j (g x) = closeAt s j x := by rw [closeAt, closeAt, hg.number]
  have hvat : vatAt s j (g x) = vatAt s j x := by rw [vatAt, vatAt, hg.number, hg.plan]
  unfold pieceAt
  dsimp only
  rw [hclose, hvat, hg.number, hg.plan, hg.closed, hstack, hstack]

theorem viewAt_modRound (hg : SamePlaces g) (i : JobId) (a : Nat) :
    viewAt (s.modRound j r g) i a = (viewAt s i a).map (fun e => (changedRound j i r g e.1, e.2)) := by
  have hpiece (x : Round) (o : Nat) : pieceAt (s.modRound j r g) i (changedRound j i r g x) o = pieceAt s i x o :=
    pieceAt_samePlaces (s := s) (changedRound_samePlaces hg i) x o
  have hunaround : unaround (s.modRound j r g) i a = unaround s i a := rfl
  simp only [viewAt, rounds_modRound, List.isEmpty_map, hunaround]
  split
  · rfl
  · cases unaround s i a with
    | none => rfl
    | some o =>
      simp only [Option.bind_some, List.findSome?_map, Function.comp_def, hpiece, List.map_findSome?, Option.map_map]

end rounds

end Sys2Proof.Machine

/-! PROOFS. The commands of the banks write their own bytes (R153, R155, R183). -/

namespace Sys2Proof.Machine

/-! A byte of the Vat written. -/

section vatPuts

variable {s : State} {a b : Nat} {v : Byte}

theorem vatByte_of_structure {j : JobId} {x : Round} {b' : Nat} {e : Piece × Nat} (hb : vatOwner s b = some (j, b'))
    (hv : viewAt s j b' = some (x, e)) : vatByte s b = pieceByte x e.1 e.2 := by
  simp only [vatByte, hb, Option.bind_some, hv]

theorem vatByte_of_no_structure (h : (vatOwner s b).bind (fun e => viewAt s e.1 e.2) = none) : vatByte s b = memByte s.mem b := by
  simp only [vatByte, h]

/-- A byte of the Vat is one of a round's structure, or one of the Vat's own. -/
theorem vatPut_cases (s : State) (a : Nat) (v : Byte) :
    ((vatOwner s a).bind (fun e => viewAt s e.1 e.2) = none ∧ vatPut s a v = { s with mem := memPut s.mem a v }) ∨
    ∃ j a' x q o, vatOwner s a = some (j, a') ∧ viewAt s j a' = some (x, q, o) ∧
      vatPut s a v = s.modRound j x.number (fun y => pieceSet y q o v) := by
  cases hown : vatOwner s a with
  | none => exact .inl ⟨rfl, by simp only [vatPut, hown, Option.bind_none]⟩
  | some e =>
    cases hview : viewAt s e.1 e.2 with
    | none => exact .inl ⟨hview, by simp only [vatPut, hown, hview, Option.bind_some, Option.map_none]⟩
    | some w =>
      exact .inr ⟨e.1, e.2, w.1, w.2.1, w.2.2, rfl, hview, by simp only [vatPut, hown, hview, Option.bind_some, Option.map_some]⟩

/-- A change of a round leaves the bytes of the Vat that it leaves in the pieces shown. -/
theorem vatByte_modRound {j : JobId} {r : Nat} {g : Round → Round} (hg : SamePlaces g)
    (hbyte : ∀ b' x q k, vatOwner s b = some (j, b') → viewAt s j b' = some (x, q, k) → x.number = r → pieceByte (g x) q k = pieceByte x q k) :
    vatByte (s.modRound j r g) b = vatByte s b := by
  have hown : vatOwner (s.modRound j r g) b = vatOwner s b := rfl
  unfold vatByte
  rw [hown]
  cases ho : vatOwner s b with
  | none => rfl
  | some e =>
    obtain ⟨i, b'⟩ := e
    simp only [Option.bind_some, viewAt_modRound hg]
    cases hv : viewAt s i b' with
    | none => rfl
    | some w =>
      obtain ⟨x, q, k⟩ := w
      simp only [Option.map_some, changedRound]
      split
      next h =>
        obtain ⟨rfl, hx⟩ := h
        exact hbyte b' x q k ho hv hx
      next => rfl

theorem eq_of_same_number {j : JobId} {x y : Round} (hs : MaskedRounds s) (hx : x ∈ (s.job j).rounds) (hy : y ∈ (s.job j).rounds)
    (h : y.number = x.number) : y = x :=
  List.inj_on_of_nodup_map (hs j).1 hy hx h

/-- A byte written leaves every other byte of the Vat. -/
theorem vatByte_vatPut_ne (hs : MaskedRounds s) (hab : a ≠ b) : vatByte (vatPut s a v) b = vatByte s b := by
  rcases vatPut_cases s a v with ⟨-, hput⟩ | ⟨j, a', x, q, o, hown, hview, hput⟩ <;> rw [hput]
  · have hmem : memByte (memPut s.mem a v) b = memByte s.mem b := by rw [memByte_memPut, if_neg hab]
    cases hv : (vatOwner s b).bind (fun e => viewAt s e.1 e.2) with
    | none => exact (vatByte_of_no_structure (s := { s with mem := memPut s.mem a v }) hv).trans (hmem.trans (vatByte_of_no_structure hv).symm)
    | some w =>
      obtain ⟨e, he, hw⟩ := Option.bind_eq_some_iff.1 hv
      exact (vatByte_of_structure (s := { s with mem := memPut s.mem a v }) he hw).trans (vatByte_of_structure he hw).symm
  · refine vatByte_modRound (samePlaces_pieceSet q o v) fun b' y q' k hownb hviewb hy => ?_
    obtain ⟨hmem, hq, -⟩ := of_viewAt hs (of_vatOwner hown).1 hview
    obtain ⟨hmemb, hqb, -⟩ := of_viewAt hs (of_vatOwner hownb).1 hviewb
    obtain rfl := eq_of_same_number hs hmem hmemb hy
    refine pieceByte_pieceSet_ne hq hqb ?_
    rintro ⟨rfl, rfl⟩
    exact hab (eq_of_same_view hs hown hownb hview hviewb)

end vatPuts

/-! What the registers say of the places. -/

/-- The registers that say where the structures of rounds lie: berths, add window, HBM quota and Roster range (R160, R163, R190, R510). -/
def placeRegs : List Reg := [.VAT_JOB_BERTHS, .VAT_JOB_G64, .PLT_JOB_HBM, .ROS_JOB_RANGE]

theorem fget_fset_placeRegs {s : State} {f g : Fld} {a b v c d : Nat} (hf : f.reg ∉ placeRegs) (hg : g.reg ∈ placeRegs) :
    fget (fset s f a b v) g c d = fget s g c d :=
  have hreg : (f.reg, f.lo) ≠ (g.reg, g.lo) := fun h => hf ((Prod.mk.inj h).1 ▸ hg)
  fget_fset_ne _ _ _ _ _ _ _ _ (Fld.key_ne hreg _ _ _ _)

section fieldSet

variable {s : State} {f : Fld} {a b v : Nat}

theorem berthsOf_fset (hf : f.reg ∉ placeRegs) (j : Nat) : berthsOf (fset s f a b v) j = berthsOf s j := by
  simp only [berthsOf, fget_fset_placeRegs (g := VAT_JOB_BERTHS.BERTH) hf (by decide)]

theorem berthOwner_fset (hf : f.reg ∉ placeRegs) (n : Nat) : berthOwner (fset s f a b v) n = berthOwner s n := by
  simp only [berthOwner, fget_fset_placeRegs (g := VAT_JOB_BERTHS.BERTH) hf (by decide)]

theorem window_fset (hf : f.reg ∉ placeRegs) (j : Nat) : window (fset s f a b v) j = window s j := by
  simp only [window, fget_fset_placeRegs (g := VAT_JOB_G64.BASE_LINE) hf (by decide), fget_fset_placeRegs (g := VAT_JOB_G64.LEN_LINES) hf (by decide)]

theorem partBytes_fset (hf : f.reg ∉ placeRegs) (j : Nat) : partBytes (fset s f a b v) j = partBytes s j := by
  rw [partBytes, partBytes, berthsOf_fset hf]

theorem quotaBytes_fset (hf : f.reg ∉ placeRegs) (j : Nat) : quotaBytes (fset s f a b v) j = quotaBytes s j := by
  rw [quotaBytes, quotaBytes, fget_fset_placeRegs hf (by decide)]

theorem planSlots_fset (hf : f.reg ∉ placeRegs) (j : JobId) (p : Bytes) : planSlots (fset s f a b v) j p = planSlots s j p := by
  rw [planSlots, planSlots, fget_fset_placeRegs hf (by decide)]

theorem closeBytes_fset (hf : f.reg ∉ placeRegs) (j : JobId) : closeBytes (fset s f a b v) j = closeBytes s j := by
  rw [closeBytes, closeBytes, fget_fset_placeRegs hf (by decide)]

theorem checkOff_fset (hf : f.reg ∉ placeRegs) (j : JobId) (p : Bytes) : checkOff (fset s f a b v) j p = checkOff s j p := by
  rw [checkOff, checkOff, planSlots_fset hf]

theorem weightOff_fset (hf : f.reg ∉ placeRegs) (j : JobId) (p : Bytes) : weightOff (fset s f a b v) j p = weightOff s j p := by
  rw [weightOff, weightOff, checkOff_fset hf]

theorem vatOnly_fset (hf : f.reg ∉ placeRegs) (j : JobId) (p : Bytes) : vatOnly (fset s f a b v) j p = vatOnly s j p := by
  rw [vatOnly, vatOnly, weightOff_fset hf]

theorem vatAt_fset (hf : f.reg ∉ placeRegs) (j : JobId) (x : Round) : vatAt (fset s f a b v) j x = vatAt s j x := by
  rw [vatAt, vatAt, partBytes_fset hf, window_fset hf, vatOnly_fset hf]

theorem closeAt_fset (hf : f.reg ∉ placeRegs) (j : JobId) (x : Round) : closeAt (fset s f a b v) j x = closeAt s j x := by
  rw [closeAt, closeAt, quotaBytes_fset hf, closeBytes_fset hf]

theorem fixedPiece_fset (hf : f.reg ∉ placeRegs) (j : JobId) (p : Bytes) (o : Nat) : fixedPiece (fset s f a b v) j p o = fixedPiece s j p o := by
  rw [fixedPiece, fixedPiece, checkOff_fset hf, weightOff_fset hf, vatOnly_fset hf, planSlots_fset hf]

theorem pieceAt_fset (hf : f.reg ∉ placeRegs) (j : JobId) (x : Round) (o : Nat) : pieceAt (fset s f a b v) j x o = pieceAt s j x o := by
  unfold pieceAt
  dsimp only
  rw [closeAt_fset hf, closeBytes_fset hf, vatAt_fset hf, vatOnly_fset hf, fixedPiece_fset hf]

theorem inReach_fset (hf : f.reg ∉ placeRegs) (j : JobId) (x n : Nat) : inReach (fset s f a b v) j x n = inReach s j x n := by
  rw [inReach, inReach, partBytes_fset hf, quotaBytes_fset hf]

theorem unaround_fset (hf : f.reg ∉ placeRegs) (j : JobId) (x : Nat) : unaround (fset s f a b v) j x = unaround s j x := by
  rw [unaround, unaround, inReach_fset hf, window_fset hf]

theorem viewAt_fset (hf : f.reg ∉ placeRegs) (j : JobId) (x : Nat) : viewAt (fset s f a b v) j x = viewAt s j x := by
  simp only [viewAt, job_fset, unaround_fset hf, pieceAt_fset hf]

theorem vatOwner_fset (hf : f.reg ∉ placeRegs) (x : Nat) : vatOwner (fset s f a b v) x = vatOwner s x := by
  simp only [vatOwner, berthOwner_fset hf, jobRelative, berthsOf_fset hf]

theorem vatByte_fset (hf : f.reg ∉ placeRegs) (x : Nat) : vatByte (fset s f a b v) x = vatByte s x := by
  simp only [vatByte, vatOwner_fset hf, viewAt_fset hf, fset_mem]

theorem refusesAccess_fset (hf : f.reg ∉ placeRegs) (i : Issuer) (x : Nat) : refusesAccess (fset s f a b v) i x = refusesAccess s i x := by
  simp only [refusesAccess, ownerOf, berthOwner_fset hf]

end fieldSet

/-! What keeps within the bytes from `lo` up to `hi`. -/

/-- Between two states no byte of the Vat outside [lo, hi) changes, and no other memory, Roster entry, queue or context; berths and rounds stay where
they are. -/
structure WritesWithin (lo hi : Nat) (s t : State) : Prop where
  bytes : ∀ x, ¬ (lo ≤ x ∧ x < hi) → vatByte t x = vatByte s x
  hdm : t.hdm = s.hdm
  hbm : ∀ j, (t.job j).hbm = (s.job j).hbm
  roster : t.roster = s.roster
  pending : t.pending = s.pending
  contexts : t.contexts = s.contexts
  refuses : ∀ i x, refusesAccess t i x = refusesAccess s i x
  masked : MaskedRounds t

namespace WritesWithin

variable {lo hi : Nat} {s t : State}

theorem refl (hs : MaskedRounds s) : WritesWithin lo hi s s :=
  ⟨fun _ _ => rfl, rfl, fun _ => rfl, rfl, rfl, rfl, fun _ _ => rfl, hs⟩

theorem fset (h : WritesWithin lo hi s t) {f : Fld} (hf : f.reg ∉ placeRegs) (a b v : Nat) : WritesWithin lo hi s (fset t f a b v) :=
  ⟨fun x hx => (vatByte_fset hf x).trans (h.bytes x hx), h.hdm, h.hbm, h.roster, h.pending, h.contexts,
    fun i x => (refusesAccess_fset hf i x).trans (h.refuses i x), h.masked⟩

theorem count (h : WritesWithin lo hi s t) {f : Fld} (hf : f.reg ∉ placeRegs) (a b n : Nat) : WritesWithin lo hi s (count t f a b n) :=
  h.fset hf _ _ _

theorem emit (h : WritesWithin lo hi s t) (o : Output) : WritesWithin lo hi s (emit t o) :=
  ⟨h.bytes, h.hdm, h.hbm, h.roster, h.pending, h.contexts, h.refuses, h.masked⟩

theorem clearPoison (h : WritesWithin lo hi s t) (k : Nat) : WritesWithin lo hi s (clearPoison t k) :=
  ⟨h.bytes, h.hdm, h.hbm, h.roster, h.pending, h.contexts, h.refuses, h.masked⟩

theorem pmuLast (h : WritesWithin lo hi s t) (l : NatMap Nat) : WritesWithin lo hi s { t with pmuLast := l } :=
  ⟨h.bytes, h.hdm, h.hbm, h.roster, h.pending, h.contexts, h.refuses, h.masked⟩

theorem pmuAdd (h : WritesWithin lo hi s t) (i n : Nat) : WritesWithin lo hi s (pmuAdd t i n) := by
  have hvalue := h.fset (f := PMU_CNT_VALUE.VALUE) (by decide) i 0 (fget t PMU_CNT_VALUE.VALUE i 0 + n)
  unfold Machine.pmuAdd
  dsimp only
  split
  · exact (hvalue.fset (by decide) _ _ _).fset (by decide) _ _ _
  · exact hvalue

theorem pmu (h : WritesWithin lo hi s t) (code : Nat) (j : Option JobId) (v : Nat) : WritesWithin lo hi s (pmu t code j v) := by
  unfold Machine.pmu
  split
  · exact h
  · refine List.foldlRecOn (motive := WritesWithin lo hi s) _ _ h fun u hu n _ => ?_
    dsimp only
    split
    · exact (hu.pmuAdd _ _).pmuLast _
    · exact hu

/-- A marker counted in a round. -/
theorem samePlaces_nonfinite : SamePlaces (fun x => { x with nonfinite := x.nonfinite + 1 }) :=
  ⟨fun _ => rfl, fun _ => rfl, fun _ => rfl, fun _ _ => rfl⟩

theorem pieceByte_nonfinite (x : Round) (q : Piece) (k : Nat) : pieceByte { x with nonfinite := x.nonfinite + 1 } q k = pieceByte x q k := by
  cases q <;> rfl

/-- A round changed in what no byte of the Vat shows. -/
theorem modRound (h : WritesWithin lo hi s t) {g : Round → Round} (hg : SamePlaces g) (hbyte : ∀ x q k, pieceByte (g x) q k = pieceByte x q k)
    (j : JobId) (r : Nat) : WritesWithin lo hi s (t.modRound j r g) :=
  ⟨fun x hx => (vatByte_modRound hg fun _ _ _ _ _ _ _ => hbyte _ _ _).trans (h.bytes x hx), h.hdm, fun i => (hbm_modRound i).trans (h.hbm i),
    h.roster, h.pending, h.contexts, h.refuses, maskedRounds_modRound h.masked hg⟩

theorem countMarker (h : WritesWithin lo hi s t) (j : JobId) (r : Option Nat) : WritesWithin lo hi s (countMarker t j r) := by
  have hcount := h.count (f := VAT_JOB_NONFINITE.COUNT) (by decide) j 0 1
  unfold Machine.countMarker
  dsimp only
  cases r with
  | none =>
    dsimp only
    split
    · exact hcount.fset (by decide) _ _ _
    · exact hcount
  | some r =>
    have hround := hcount.modRound samePlaces_nonfinite pieceByte_nonfinite j r
    dsimp only
    split
    · exact hround.fset (f := VAT_EVENT.NONFINITE_EV) (by decide) _ _ _
    · exact hround

theorem vatPut (h : WritesWithin lo hi s t) {a : Nat} (hlo : lo ≤ a) (hhi : a < hi) (v : Byte) : WritesWithin lo hi s (vatPut t a v) := by
  have hbytes (x : Nat) (hx : ¬ (lo ≤ x ∧ x < hi)) : vatByte (Machine.vatPut t a v) x = vatByte s x :=
    (vatByte_vatPut_ne h.masked (by rintro rfl; exact hx ⟨hlo, hhi⟩)).trans (h.bytes x hx)
  rcases vatPut_cases t a v with ⟨-, hput⟩ | ⟨j, a', x, q, o, -, -, hput⟩ <;> rw [hput] at hbytes ⊢
  · exact ⟨hbytes, h.hdm, h.hbm, h.roster, h.pending, h.contexts, h.refuses, h.masked⟩
  · exact ⟨hbytes, h.hdm, fun i => (hbm_modRound i).trans (h.hbm i), h.roster, h.pending, h.contexts, h.refuses,
      maskedRounds_modRound h.masked (samePlaces_pieceSet q o v)⟩

theorem vatWrite (h : WritesWithin lo hi s t) {a : Nat} {d : Bytes} (hlo : lo ≤ a) (hhi : a + d.length ≤ hi) :
    WritesWithin lo hi s (vatWrite t a d) := by
  induction d generalizing t a with
  | nil => exact h
  | cons b d ih =>
    rw [List.length_cons] at hhi
    exact ih (h.vatPut hlo (by omega) b) (by omega) (by omega)

theorem lineStore (h : WritesWithin lo hi s t) {a : Nat} {d : Bytes} (hlo : lo ≤ a) (hhi : a + d.length ≤ hi) (ret : Bytes) :
    WritesWithin lo hi s (lineStore t a d ret) :=
  (h.vatWrite hlo hhi).emit _

/-- A read whose code finds no error counts, and no more. -/
theorem eccRead_clean (h : WritesWithin lo hi s t) (line : Nat) : WritesWithin lo hi s (eccRead t line ⟨0, false⟩) :=
  h.count (f := VAT_ECC_CORR.COUNT) (by decide) 0 0 0

theorem onLine_clean (h : WritesWithin lo hi s t) {a : Nat} {act : State → State}
    (hact : ∀ u, WritesWithin lo hi s u → WritesWithin lo hi s (act u)) : WritesWithin lo hi s (onLine a ⟨0, false⟩ act t) := by
  have hread := h.eccRead_clean (a / 64)
  unfold onLine
  dsimp only
  split
  · exact hread.emit _
  · exact hact _ hread

theorem bankAccess (h : WritesWithin lo hi s t) {i : Issuer} {a n : Nat} {act : State → State} (hmay : refusesAccess s i a = false)
    (hact : ∀ u, WritesWithin lo hi s u → WritesWithin lo hi s (act u)) : WritesWithin lo hi s (bankAccess t i a n act) := by
  unfold Machine.bankAccess
  rw [h.refuses, hmay, if_neg Bool.false_ne_true]
  exact (hact t h).pmu _ _ _

end WritesWithin

/-! The parts of an operation that touches several lines. -/

/-- A line that a range touches begins below the range's end and ends above its start. -/
theorem of_mem_linesOf {a n l : Nat} (h : l ∈ linesOf a n) : 0 < n ∧ l < a + n ∧ a < l + 64 := by
  unfold linesOf at h
  split at h
  · cases h
  · obtain ⟨i, hi, rfl⟩ := List.mem_map.1 h
    have := List.mem_range.1 hi
    omega

theorem length_slice (bs : Bytes) (off n : Nat) : (slice bs off n).length = n := by simp [slice]

/-- Work on each line of a range's bytes keeps within the range where each part's work keeps within its part. -/
theorem writesWithin_byLine {s t : State} {a : Nat} {d : Bytes} {act : Nat → Bytes → State → State} (h : WritesWithin a (a + d.length) s t)
    (hact : ∀ b x u, a ≤ b → b < a + d.length → b + x.length ≤ a + d.length → WritesWithin a (a + d.length) s u →
      WritesWithin a (a + d.length) s (act b x u)) : WritesWithin a (a + d.length) s (byLine a d act t) := by
  refine List.foldlRecOn (motive := WritesWithin a (a + d.length) s) _ _ h fun u hu l hl => ?_
  obtain ⟨hpos, hlt, hgt⟩ := of_mem_linesOf hl
  refine hact _ _ u (le_max_left _ _) (by omega) ?_ hu
  rw [length_slice]
  omega

/-! The elements of a line. -/

theorem length_mapElems_le (n : Nat) (g : Nat → Nat → Nat) (old new : Bytes) : (mapElems n g old new).length ≤ new.length := by
  have hlen : ∀ l ∈ List.zipWith (fun a b => toLe n (g a b)) (elemsOf n old) (elemsOf n new), l.length = n := by
    intro l hl
    obtain ⟨i, hi, rfl⟩ := List.mem_iff_getElem.1 hl
    rw [List.getElem_zipWith, toLe_length]
  calc (mapElems n g old new).length
      = (List.zipWith (fun a b => toLe n (g a b)) (elemsOf n old) (elemsOf n new)).length * n := by
        rw [mapElems, List.length_flatten, List.map_congr_left hlen, List.map_const', List.sum_replicate, smul_eq_mul]
    _ ≤ (elemsOf n new).length * n := Nat.mul_le_mul_right n (by rw [List.length_zipWith]; exact min_le_right _ _)
    _ = new.length / n * n := by simp [elemsOf]
    _ ≤ new.length := Nat.div_mul_le_self _ _

/-! Each command. -/

section commands

variable {s : State} {i : Issuer} {addr : VatAddr} {lo hi : Nat}

theorem writesWithin_wordOp {t : State} {a : Nat} (h : WritesWithin a (a + 8) s t) (v old : Word) (ask : Bool) :
    WritesWithin a (a + 8) s (wordOp t a v old ask) :=
  h.lineStore (le_refl a) (by rw [toLe_length]) _

variable (hs : MaskedRounds s)
include hs

theorem writesWithin_radd {ring : Ring} {d : Bytes} (hmay : refusesAccess s i addr = false) :
    ∃ t, exec (.radd i addr ring d ⟨0, false⟩) s = .next t ∧ WritesWithin addr (addr + d.length) s t :=
  ⟨_, rfl, (WritesWithin.refl hs).bankAccess hmay fun _ hu => hu.onLine_clean fun _ hv =>
    hv.lineStore (le_refl _) (Nat.add_le_add_left (length_mapElems_le _ _ _ _) _) _⟩

theorem writesWithin_gadd {x : Word} {ask : Bool} (hmay : refusesAccess s i addr = false) :
    ∃ t, exec (.gadd i addr x ask ⟨0, false⟩) s = .next t ∧ WritesWithin addr (addr + 8) s t := by
  refine ⟨_, rfl, (WritesWithin.refl hs).bankAccess hmay fun _ hu => hu.onLine_clean fun v hv => writesWithin_wordOp ?_ _ _ _⟩
  split
  · split
    · exact hv.countMarker _ _
    · exact hv
  · exact hv

theorem writesWithin_add64 {x : Word} {ask : Bool} (hmay : refusesAccess s i addr = false) :
    ∃ t, exec (.add64 i addr x ask ⟨0, false⟩) s = .next t ∧ WritesWithin addr (addr + 8) s t :=
  ⟨_, rfl, (WritesWithin.refl hs).bankAccess hmay fun _ hu => hu.onLine_clean fun _ hv => writesWithin_wordOp hv _ _ _⟩

theorem writesWithin_maxMin {op : MaxMinOp} {x : Word} {ask : Bool} (hmay : refusesAccess s i addr = false) :
    ∃ t, exec (.maxMin i addr op x ask ⟨0, false⟩) s = .next t ∧ WritesWithin addr (addr + maxMinSize op) s t :=
  ⟨_, rfl, (WritesWithin.refl hs).bankAccess hmay fun _ hu => hu.onLine_clean fun _ hv =>
    hv.lineStore (le_refl _) (by rw [toLe_length]) _⟩

theorem writesWithin_cas64 {cmp swap : Word} (hmay : refusesAccess s i addr = false) :
    ∃ t, exec (.cas64 i addr cmp swap ⟨0, false⟩) s = .next t ∧ WritesWithin addr (addr + 8) s t :=
  ⟨_, rfl, (WritesWithin.refl hs).bankAccess hmay fun _ hu => hu.onLine_clean fun _ hv => writesWithin_wordOp hv _ _ _⟩

theorem writesWithin_fadd {d : Bytes} (hmay : ∀ x, addr.val ≤ x → x < addr + d.length → refusesAccess s i x = false) :
    ∃ t, exec (.fadd i addr d ⟨0, false⟩) s = .next t ∧ WritesWithin addr (addr + d.length) s t :=
  ⟨_, rfl, writesWithin_byLine (.refl hs) fun b _ _ hlo hlt hhi hu => hu.bankAccess (hmay b hlo hlt) fun _ hv => hv.onLine_clean fun _ hw =>
    hw.lineStore hlo ((Nat.add_le_add_left (length_mapElems_le _ _ _ _) _).trans hhi) _⟩

theorem writesWithin_lineWrite {d : Bytes} (hmay : ∀ x, addr.val ≤ x → x < addr + d.length → refusesAccess s i x = false) :
    ∃ t, exec (.lineWrite i addr d ⟨0, false⟩) s = .next t ∧ WritesWithin addr (addr + d.length) s t := by
  refine ⟨_, rfl, writesWithin_byLine (.refl hs) fun b x _ hlo hlt hhi hu => hu.bankAccess (hmay b hlo hlt) fun v hv => ?_⟩
  unfold writePart
  split
  · exact (hv.clearPoison _).lineStore hlo hhi _
  · exact hv.onLine_clean fun _ hw => hw.lineStore hlo hhi _

end commands

/-- Settles O56: each command's work keeps within the bytes that it names, whose places no other byte of a structure shares. -/
theorem bankCommandsWriteTheirOwnBytes : Obligations.BankCommandsWriteTheirOwnBytes := by
  intro s t i addr n c hc hmay hs ht
  have hfirst : refusesAccess s i addr = false := hmay addr (le_refl _) (by omega)
  have hall (x : Nat) (hlo : addr.val ≤ x) (hhi : x < addr + n) : refusesAccess s i x = false := hmay x hlo (by omega)
  have hwrites : ∃ t, exec c s = .next t ∧ WritesWithin addr (addr + n) s t := by
    rcases hc with ⟨ring, d, rfl, rfl⟩ | ⟨x, ask, rfl, rfl⟩ | ⟨x, ask, rfl, rfl⟩ | ⟨d, rfl, rfl⟩ | ⟨op, x, ask, rfl, rfl⟩ | ⟨a, b, rfl, rfl⟩ |
      ⟨d, rfl, rfl⟩
    · exact writesWithin_radd hs hfirst
    · exact writesWithin_gadd hs hfirst
    · exact writesWithin_add64 hs hfirst
    · exact writesWithin_fadd hs hall
    · exact writesWithin_maxMin hs hfirst
    · exact writesWithin_cas64 hs hfirst
    · exact writesWithin_lineWrite hs hall
  obtain ⟨u, hu, h⟩ := hwrites
  cases hu.symm.trans ht
  exact ⟨h.bytes, h.hdm, h.hbm, h.roster, h.pending, h.contexts⟩

end Sys2Proof.Machine

/-! PROOFS. The operations of the banks on a line, the scrubber and the berths (R153 to R156, R160, R168, R180, R183, R186, R187). -/

namespace Sys2Proof.Machine

section banks

variable {s : State} {i : Issuer} {a n line : Nat} {act : State → State} {e : EccRead}

theorem bankAccess_of_admitted (h : refusesAccess s i a = false) : bankAccess s i a n act = pmu (act s) 0x20 i.job (bankOps n) :=
  if_neg (Bool.eq_false_iff.1 h)

theorem onLine_of_clean (h : (eccRead s (a / 64) e).poison.contains (a / 64) = false) : onLine a e act s = act (eccRead s (a / 64) e) :=
  if_neg (Bool.eq_false_iff.1 h)

theorem onLine_of_poisoned (h : (eccRead s (a / 64) e).poison.contains (a / 64) = true) :
    onLine a e act s = emit (eccRead s (a / 64) e) (.bank none) :=
  if_pos h

/-- An admitted operation on a clean line. -/
theorem bankAccess_onLine_of_clean (hmay : refusesAccess s i a = false) (h : (eccRead s (a / 64) e).poison.contains (a / 64) = false) :
    bankAccess s i a n (onLine a e act) = pmu (act (eccRead s (a / 64) e)) 0x20 i.job (bankOps n) := by
  rw [bankAccess_of_admitted hmay, onLine_of_clean h]

/-- An admitted operation on a poisoned line. -/
theorem bankAccess_onLine_of_poisoned (hmay : refusesAccess s i a = false) (h : (eccRead s (a / 64) e).poison.contains (a / 64) = true) :
    bankAccess s i a n (onLine a e act) = pmu (emit (eccRead s (a / 64) e) (.bank none)) 0x20 i.job (bankOps n) := by
  rw [bankAccess_of_admitted hmay, onLine_of_poisoned h]

/-! The lines that an operation's bytes touch. -/

theorem linesOf_of_within (hpos : 0 < n) (hfit : a % 64 + n ≤ 64) : linesOf a n = [a / 64 * 64] := by
  have hlast : (a + n - 1) / 64 = a / 64 := by omega
  rw [linesOf, if_neg (Nat.pos_iff_ne_zero.1 hpos), hlast, Nat.sub_self]
  rfl

theorem linesOf_of_across (hover : 64 < a % 64 + n) (hfit : a % 64 + n ≤ 128) : linesOf a n = [a / 64 * 64, (a / 64 + 1) * 64] := by
  have hlast : (a + n - 1) / 64 - a / 64 = 1 := by omega
  rw [linesOf, if_neg (by omega), hlast]
  rfl

variable {d : Bytes} {part : Nat → Bytes → State → State}

theorem slice_zero_length (d : Bytes) : slice d 0 d.length = d := by
  refine List.ext_getElem (length_slice _ _ _) fun k hk _ => ?_
  simp only [slice, List.getElem_map, List.getElem_range, Nat.zero_add]
  exact List.getD_eq_getElem _ _ _

/-- Bytes that lie on one line are one operation (R186). -/
theorem byLine_of_within (hpos : d.length ≠ 0) (hfit : a % 64 + d.length ≤ 64) : byLine a d part s = part a d s := by
  have hlo : max a (a / 64 * 64) = a := by omega
  have hlen : min (a / 64 * 64 + 64) (a + d.length) - a = d.length := by omega
  simp only [byLine, linesOf_of_within (Nat.pos_of_ne_zero hpos) hfit, List.foldl_cons, List.foldl_nil, hlo, hlen, Nat.sub_self, slice_zero_length]

/-- Bytes that touch two lines are two operations, one on each line (R186). -/
theorem byLine_of_across (hover : 64 < a % 64 + d.length) (hfit : a % 64 + d.length ≤ 128) :
    byLine a d part s =
      part (a + (64 - a % 64)) (slice d (64 - a % 64) (d.length - (64 - a % 64))) (part a (slice d 0 (64 - a % 64)) s) := by
  have hlo : max a (a / 64 * 64) = a := by omega
  have hlen : min (a / 64 * 64 + 64) (a + d.length) - a = 64 - a % 64 := by omega
  have hlo' : max a ((a / 64 + 1) * 64) = a + (64 - a % 64) := by omega
  have hlen' : min ((a / 64 + 1) * 64 + 64) (a + d.length) - (a + (64 - a % 64)) = d.length - (64 - a % 64) := by omega
  simp only [byLine, linesOf_of_across hover hfit, List.foldl_cons, List.foldl_nil, hlo, hlen, hlo', hlen', Nat.sub_self, Nat.add_sub_cancel_left]

theorem writePart_of_whole (h : d.length = 64) : writePart e a d s = lineStore (clearPoison s (a / 64)) a d [] := if_pos h

theorem writePart_of_part (h : d.length ≠ 64) : writePart e a d = onLine a e (fun s => lineStore s a d []) := funext fun _ => if_neg h

/-! The scrubber. -/

variable {t : State}

theorem exec_patrolScrub_of_due {line : VatLine} (hdue : scrubDue s line = true) (ht : t = eccRead s line e) :
    exec (.patrolScrub line e) s = .next (scrubbed t line) := by
  subst ht
  exact congrArg Host.Outcome.next (if_pos hdue)

/-- A line read within a pass is noted. -/
theorem scrubbed_of_within (hpass : t.scrubRead ≠ []) (hmore : t.scrubRead.length + 1 < allLines) :
    scrubbed t line = { t with scrubRead := line :: t.scrubRead } := by
  simp only [scrubbed, List.isEmpty_eq_false_iff.2 hpass, Bool.false_eq_true, if_false, Nat.not_le.2 hmore]

/-- The last line of a pass completes it. -/
theorem scrubbed_of_last (hpass : t.scrubRead ≠ []) (hlast : allLines ≤ t.scrubRead.length + 1) :
    scrubbed t line = count { t with scrubRead := [] } VAT_SCRUB.PASSES 0 0 1 := by
  simp only [scrubbed, List.isEmpty_eq_false_iff.2 hpass, Bool.false_eq_true, if_false, hlast, if_true]

/-- The first line begins a pass. -/
theorem scrubbed_of_first (hpass : t.scrubRead = []) :
    scrubbed t line = { t with scrubNext := t.clock + get1 t VAT_SCRUB.PERIOD_H * hourNs, scrubRead := [line] } := by
  simp only [scrubbed, hpass, List.isEmpty_nil, if_true, List.length_nil]
  exact if_neg (by decide)

end banks

/-! Each command on a clean line. -/

section commands

variable {s : State} {i : Issuer} {addr : VatAddr} {d : Bytes} {e : EccRead}

theorem exec_lineWrite_of_whole (hmay : refusesAccess s i addr = false) (halign : addr.val % 64 = 0) (hlen : d.length = 64) :
    exec (.lineWrite i addr d e) s = .next (pmu (emit (vatWrite (clearPoison s (addr / 64)) addr d) (.bank (some []))) 0x20 i.job 2) := by
  refine congrArg Host.Outcome.next ((byLine_of_within (by omega) (by omega)).trans ((bankAccess_of_admitted hmay).trans ?_))
  rw [writePart_of_whole hlen, hlen]
  rfl

theorem exec_lineWrite_of_part (hpos : d.length ≠ 0) (hpart : d.length ≠ 64) (hfit : addr.val % 64 + d.length ≤ 64) :
    exec (.lineWrite i addr d e) s =
      .next (bankAccess s i addr d.length (onLine addr e fun t => lineStore t addr d [])) := by
  refine congrArg Host.Outcome.next ((byLine_of_within hpos hfit).trans ?_)
  rw [writePart_of_part hpart]

theorem exec_lineWrite_of_across (hover : 64 < addr.val % 64 + d.length) (hfit : addr.val % 64 + d.length ≤ 128) :
    exec (.lineWrite i addr d e) s = .next (
      let part := fun (b : Nat) (x : Bytes) (u : State) => bankAccess u i b x.length (writePart e b x)
      part (addr + (64 - addr.val % 64)) (slice d (64 - addr.val % 64) (d.length - (64 - addr.val % 64)))
        (part addr (slice d 0 (64 - addr.val % 64)) s)) :=
  congrArg Host.Outcome.next (byLine_of_across hover hfit)

theorem exec_fadd_of_across (hover : 64 < addr.val % 64 + d.length) (hfit : addr.val % 64 + d.length ≤ 128) :
    exec (.fadd i addr d e) s = .next (
      let part := fun (b : Nat) (x : Bytes) (u : State) => bankAccess u i b x.length
        (onLine b e (fun v => lineStore v b (mapElems 4 fadd32 (vatRead v b x.length) x) []))
      part (addr + (64 - addr.val % 64)) (slice d (64 - addr.val % 64) (d.length - (64 - addr.val % 64)))
        (part addr (slice d 0 (64 - addr.val % 64)) s)) :=
  congrArg Host.Outcome.next (byLine_of_across hover hfit)

theorem exec_fadd_of_within (hpos : d.length ≠ 0) (hfit : addr.val % 64 + d.length ≤ 64) :
    exec (.fadd i addr d e) s =
      .next (bankAccess s i addr d.length (onLine addr e fun t => lineStore t addr (mapElems 4 fadd32 (vatRead t addr d.length) d) [])) :=
  congrArg Host.Outcome.next (byLine_of_within hpos hfit)

theorem exec_radd (ring : Ring) :
    exec (.radd i addr ring d e) s = .next (bankAccess s i addr d.length (onLine addr e fun t =>
      lineStore t addr (mapElems ring.slot (ringAdd ring.bits) (vatRead t addr d.length) d) [])) := rfl

theorem exec_add64 (x : Word) (ask : Bool) :
    exec (.add64 i addr x ask e) s = .next (bankAccess s i addr 8 (onLine addr e fun t =>
      wordOp t addr (vatWord t addr + x) (vatWord t addr) ask)) := rfl

theorem exec_maxMin (op : MaxMinOp) (x : Word) (ask : Bool) :
    exec (.maxMin i addr op x ask e) s = .next (bankAccess s i addr (maxMinSize op) (onLine addr e fun t =>
      let old := vatRead t addr (maxMinSize op)
      lineStore t addr (toLe (maxMinSize op) (maxMinEval op (leNat old) x.toNat)) (if ask then old else []))) := rfl

theorem bankOps_maxMinSize (op : MaxMinOp) : bankOps (maxMinSize op) = 1 := by cases op <;> rfl

theorem exec_cas64 (cmp swap : Word) :
    exec (.cas64 i addr cmp swap e) s = .next (bankAccess s i addr 8 (onLine addr e fun t =>
      wordOp t addr (if vatWord t addr = cmp then swap else vatWord t addr) (vatWord t addr) true)) := rfl

theorem exec_gadd (x : Word) (ask : Bool) :
    exec (.gadd i addr x ask e) s = .next (bankAccess s i addr 8 (onLine addr e fun t =>
      wordOp (match i.job with | some j => if g64Creates (vatWord t addr) x then countMarker t j (windowRound t j) else t | none => t) addr
        (g64Add (vatWord t addr) x) (vatWord t addr) ask)) := rfl

end commands

/-- Settles O14: each operation by what it finds on its line. -/
theorem theBanksActOnLines : Obligations.TheBanksActOnLines := by
  refine ⟨?cleanRead, ?read, ?wholeLine, ?partLine, ?twoLines, ?radd, ?gadd, ?marker, ?add64, ?fadd, ?maxMin, ?cas64, ?poisoned, ?scrub, ?lastScrub,
    ?firstScrub, ?noScrub, ?berths, ?heldBerths⟩
  case cleanRead =>
    intro s i line hmay hclean
    refine congrArg Host.Outcome.next ((bankAccess_of_admitted hmay).trans ?_)
    have hread : linePoisoned (eccRead s line ⟨0, false⟩) line = false := hclean
    simp only [answerLine, hread]
    rfl
  case read => exact fun s i line e hmay => congrArg Host.Outcome.next (bankAccess_of_admitted hmay)
  case wholeLine => exact fun s i a d e => exec_lineWrite_of_whole
  case partLine =>
    intro s i a d e hmay hclean hpos hpart hfit
    rw [exec_lineWrite_of_part hpos hpart hfit, bankAccess_onLine_of_clean hmay hclean]
    rfl
  case twoLines =>
    rintro s i a d e c (rfl | rfl) hover hfit
    · rw [exec_lineWrite_of_across hover hfit]
      simp only [if_true]
    · rw [exec_fadd_of_across hover hfit]
      simp only [reduceCtorEq, if_false, lineStore]
  case radd =>
    intro s i a ring d e hmay hclean
    rw [exec_radd, bankAccess_onLine_of_clean hmay hclean]
    rfl
  case gadd =>
    intro s i a x ask e hmay hclean hexact
    rw [exec_gadd, bankAccess_onLine_of_clean hmay hclean]
    simp only [hexact, Bool.false_eq_true, if_false]
    cases i.job <;> rfl
  case marker =>
    intro s i a x ask e j hmay hclean hj hcreates
    rw [exec_gadd, bankAccess_onLine_of_clean hmay hclean]
    simp only [hj, hcreates, if_true]
    rfl
  case add64 =>
    intro s i a x ask e hmay hclean
    rw [exec_add64, bankAccess_onLine_of_clean hmay hclean]
    rfl
  case fadd =>
    intro s i a d e hmay hclean hpos hfit
    rw [exec_fadd_of_within hpos hfit, bankAccess_onLine_of_clean hmay hclean]
    rfl
  case maxMin =>
    intro s i a op x ask e hmay hclean
    rw [exec_maxMin, bankAccess_onLine_of_clean hmay hclean, bankOps_maxMinSize]
    rfl
  case cas64 =>
    intro s i a cmp swap e hmay hclean
    rw [exec_cas64, bankAccess_onLine_of_clean hmay hclean]
    rfl
  case poisoned =>
    rintro s i a c n e hmay hpoison
      (⟨ring, d, rfl, rfl⟩ | ⟨x, ask, rfl, rfl⟩ | ⟨x, ask, rfl, rfl⟩ | ⟨op, x, ask, rfl, rfl⟩ | ⟨x, y, rfl, rfl⟩ | ⟨d, rfl | ⟨rfl, hpart⟩, rfl, hpos, hfit⟩)
    · rw [exec_radd, bankAccess_onLine_of_poisoned hmay hpoison]
    · rw [exec_gadd, bankAccess_onLine_of_poisoned hmay hpoison]
    · rw [exec_add64, bankAccess_onLine_of_poisoned hmay hpoison]
    · rw [exec_maxMin, bankAccess_onLine_of_poisoned hmay hpoison]
    · rw [exec_cas64, bankAccess_onLine_of_poisoned hmay hpoison]
    · rw [exec_fadd_of_within hpos hfit, bankAccess_onLine_of_poisoned hmay hpoison]
    · rw [exec_lineWrite_of_part hpos hpart hfit, bankAccess_onLine_of_poisoned hmay hpoison]
  case scrub =>
    intro s t line e hdue ht hpass hmore
    rw [exec_patrolScrub_of_due hdue ht, scrubbed_of_within hpass hmore]
  case lastScrub =>
    intro s t line e hdue ht hpass hlast
    rw [exec_patrolScrub_of_due hdue ht, scrubbed_of_last hpass hlast]
  case firstScrub =>
    intro s t line e hdue ht hpass
    rw [exec_patrolScrub_of_due hdue ht, scrubbed_of_first hpass]
    rfl
  case noScrub => exact fun s line e h => congrArg Host.Outcome.next (if_neg (Bool.eq_false_iff.1 h))
  case berths => exact fun s n v habsent hfree => congrArg Host.Outcome.next (writeBerths_of_free habsent hfree)
  case heldBerths =>
    exact fun s n v k habsent hother hheld => congrArg Host.Outcome.next (writeBerths_of_clash habsent (berthsClash_iff.2 ⟨k, hother, hheld⟩))

end Sys2Proof.Machine

/-! PROOFS. Frames, datagrams and the requests of the responder on an unsealed queue pair (R190, R191, R454, R457, R467 to R469, R471 to R473). -/

namespace Sys2Proof.Machine

/-! Frames and datagrams. -/

section frames

variable {s : State} {p : Port} {f : Frame} {d : Datagram}

theorem exec_portFrame_of_fcs_bad (hport : portOn s p = true) (hfcs : f.fcsOk = false) :
    exec (.portFrame p f) s = .next (countSat s RDMA_PORT_STAT.FCS_ERR p 0 1) := by
  change execPortFrame p f s = _
  simp only [execPortFrame, hport, hfcs, not_true_eq_false, Bool.false_eq_true, not_false_eq_true, if_false, if_true]

/-- A frame that reads well goes on to what it is for. -/
theorem exec_portFrame_of_good (hport : portOn s p = true) (hfcs : f.fcsOk = true) (hvlan : vlanOk s p f = true) (hsum : f.sumOk = true) :
    exec (.portFrame p f) s = .next (if isRoce s p f then takeRoce s p f else if isPtp s p f then s else dropFrame s p) := by
  change execPortFrame p f s = _
  simp only [execPortFrame, hport, hfcs, hvlan, hsum, not_true_eq_false, or_self, if_false]

theorem takeRoce_of_room (hicrc : f.icrcOk = true) (hlow : 2 ≤ f.q) (hhigh : f.q < 2 ^ 20) (hroom : f.fifoOcc + f.bytes ≤ 2 ^ 20)
    (hparity : f.parity = false) :
    takeRoce s p f = missContext (fset s LND_PORT_FIFO.HWM p 0 (max (fget s LND_PORT_FIFO.HWM p 0) (f.fifoOcc + f.bytes))) f.q := by
  have hq : ¬ (f.q < 2 ∨ 2 ^ 20 ≤ f.q) := by omega
  simp only [takeRoce, hicrc, hq, Nat.not_lt.2 hroom, hparity, not_true_eq_false, Bool.false_eq_true, if_false]

theorem exec_udDatagram_of_good (hport : portOn s p = true) (htype : fget s RDMA_QP_CFG.TYPE d.q 0 = 1) (hstate : qpState s d.q = 2 ∨ qpState s d.q = 3)
    (hqport : fget s RDMA_QP_CFG.PORT d.q 0 = p.val) (hkey : d.qkey.toNat = fget s RDMA_QP_QKEY.QKEY d.q 0) (hsend : d.isSend = true) :
    exec (.udDatagram p d) s = .next s :=
  congrArg Host.Outcome.next ((if_neg (by rw [hport]; decide)).trans (if_pos ⟨htype, hstate, hqport, hkey, hsend⟩))

theorem exec_udDatagram_of_other_key (hport : portOn s p = true) (hkey : d.qkey.toNat ≠ fget s RDMA_QP_QKEY.QKEY d.q 0) :
    exec (.udDatagram p d) s = .next (dropFrame s p) :=
  congrArg Host.Outcome.next ((if_neg (by rw [hport]; decide)).trans (if_neg fun h => hkey h.2.2.2.1))

end frames

/-! The answers of an unsealed queue pair. -/

section answers

variable {s : State} {q psn : Nat}

theorem wireOf_of_unsealed (h : fget s RDMA_QP_CFG.SEALED q 0 = 0) (ext payload : Bytes) : wireOf s q psn ext payload = (ext ++ payload, s) :=
  if_neg (by rw [qpSealed, h]; decide)

theorem sendNak_access_of_unsealed (h : fget s RDMA_QP_CFG.SEALED q 0 = 0) :
    sendNak s q psn .access = qpError (countSat (emit s (.rdma q psn (some .access) [])) RDMA_ERR.ACCESS_NAK 0 0 1) q 1 := by
  simp only [sendNak, wireOf_of_unsealed h, List.append_nil]

/-- The PSN of a queue pair set leaves it unsealed. -/
theorem sealed_fset_psn (a v : Nat) : fget (fset s RDMA_QP_PSN.RQ_PSN a 0 v) RDMA_QP_CFG.SEALED q 0 = fget s RDMA_QP_CFG.SEALED q 0 :=
  fget_fset_ne _ _ _ _ _ _ _ _ (Fld.key_ne (by decide) _ _ _ _)

end answers

/-! Requests that have passed the first four checks. -/

section requests

variable {s s1 : State} {p : Packet} {d : Bytes} {g : Nat}

theorem placePacket_of_within {va left : Nat} (hlen : d.length ≤ left) :
    placePacket s p g va left d = packetPlaced p g (va + d.length) (left - d.length) (placeWrite s (qpJob s p.q) va d).1 (placeWrite s (qpJob s p.q) va d).2 :=
  if_neg (Nat.not_lt.2 hlen)

/-- The last packet of a WRITE closes it and is acknowledged. -/
theorem packetPlaced_of_last {va left : Nat} (hlast : p.last = true) :
    packetPlaced p g va left s true =
      sendAckTo (fset (State.modQp { s with openWrites := s.openWrites.filter (fun w => w.qpn != p.q.val) } p.q (fun x => { x with inMsg := none }))
        RDMA_QP_STAT.IN_MSG p.q 0 0) p.q p.psn.toNat [] := by
  simp only [packetPlaced, hlast, not_true_eq_false, if_false, if_true]
  rfl

theorem exec_rdmaWrite_of_last (harr : arrive s p 1 memoryClass = (.proceed d, s1)) (hfirst : p.first = true) (hlast : p.last = true)
    (hkey : keyCheck s1 p 1 = some g) (hwin : windowOk s1 (qpJob s1 p.q) p.va p.len = true) (hlen : d.length ≤ p.len)
    (hplaced : (placeWrite s1 (qpJob s1 p.q) p.va d).2 = true) :
    exec (.rdmaWrite p) s = .next (
      let s2 := (placeWrite s1 (qpJob s1 p.q) p.va d).1
      let s3 := { s2 with openWrites := s2.openWrites.filter (fun w => w.qpn != p.q.val) }
      sendAckTo (fset (s3.modQp p.q (fun x => { x with inMsg := none })) RDMA_QP_STAT.IN_MSG p.q 0 0) p.q p.psn.toNat []) := by
  change execRdmaWrite p s = _
  simp only [execRdmaWrite, harr, hfirst, hkey, hwin, placePacket_of_within hlen, hplaced, packetPlaced_of_last hlast, if_true]

theorem exec_rdmaWrite_of_no_region (harr : arrive s p 1 memoryClass = (.proceed d, s1)) (hfirst : p.first = true) (hkey : keyCheck s1 p 1 = none) :
    exec (.rdmaWrite p) s = .next (sendNak s1 p.q p.psn.toNat .access) := by
  change execRdmaWrite p s = _
  simp only [execRdmaWrite, harr, hfirst, hkey, if_true]

theorem answerRead_of_admitted (hkey : keyCheck s p 0 = some g) (hwin : (touchesWindow s (qpJob s p.q) p.va p.len && !windowOpen s (qpJob s p.q)) = false)
    (hclean : (linesOf p.va p.len).find? (fun l => s.poison.contains (poisonKey s (qpJob s p.q) l)) = none) :
    answerRead s p = sendAckTo (bankWork s (qpJob s p.q) p.va p.len (bankOps p.len)) p.q p.psn.toNat (jobRead s (qpJob s p.q) p.va p.len) := by
  have hopen : ¬ (touchesWindow s (qpJob s p.q) p.va p.len = true ∧ ¬ windowOpen s (qpJob s p.q) = true) := by simpa using hwin
  simp only [answerRead, hkey, hopen, hclean, if_false]

theorem exec_rdmaRead_of_proceed (harr : arrive s p (psnCount s p.q p.len) memoryClass = (.proceed d, s1)) :
    exec (.rdmaRead p) s = .next (answerRead s1 p) := by
  change execRdmaRead p s = _
  simp only [execRdmaRead, harr]

theorem exec_rdmaFlush_of_admitted (harr : arrive s p 1 memoryClass = (.proceed d, s1)) (hkey : keyCheck s1 p 3 = some g) :
    exec (.rdmaFlush p) s = .next (sendAckTo s1 p.q p.psn.toNat []) := by
  change execRdmaFlush p s = _
  simp only [execRdmaFlush, harr, hkey, Option.isSome_some, if_true]

/-- An atomic that a region admits acts on its word and answers the word before. -/
theorem runAtomic_of_admitted {inWindow : Bool} {act : State → JobId → Word → State}
    (harr : arrive s { p with len := 8 } 1 memoryClass = (.proceed d, s1)) (hkey : keyCheck s1 { p with len := 8 } 2 = some g) (halign : p.va % 8 = 0)
    (hwin : windowOk s1 (qpJob s1 p.q) p.va 8 = true) (hplace : touchesWindow s1 (qpJob s1 p.q) p.va 8 = true → inWindow = true)
    (hclean : poisoned s1 (qpJob s1 p.q) p.va 8 = false) :
    runAtomic s p inWindow act =
      answerAtomic (act (bankWork s1 (qpJob s1 p.q) p.va 8 1) (qpJob s1 p.q) (jobWord s1 (qpJob s1 p.q) p.va)) { p with len := 8 }
        (jobWord s1 (qpJob s1 p.q) p.va) := by
  have hmay : ¬ (¬ windowOk s1 (qpJob s1 p.q) p.va 8 = true ∨ touchesWindow s1 (qpJob s1 p.q) p.va 8 = true ∧ ¬ inWindow = true) := by
    simpa [hwin] using hplace
  simp only [runAtomic, harr, hkey, halign, hmay, hclean, Option.isNone_some, Bool.false_eq_true, ne_eq, not_true_eq_false, if_false]

theorem exec_atomicAdd (x : Word) :
    exec (.atomicAdd p x) s =
      .next (runAtomic s p true fun s j old => if touchesWindow s j p.va 8 then gaddJob s j p.va x else jobSetWord s j p.va (old + x)) := rfl

theorem exec_compareAndSwap (cmp swap : Word) :
    exec (.compareAndSwap p cmp swap) s = .next (runAtomic s p false fun s j old => if old = cmp then jobSetWord s j p.va swap else s) := rfl

end requests

/-- Settles O13: each request arrives, then does what its region and its place admit. -/
theorem theResponderServesRequests : Obligations.TheResponderServesRequests := by
  refine ⟨?fcs, ?roce, ?noRow, ?datagram, ?badDatagram, ?write, ?badWrite, ?read, ?add, ?windowAdd, ?swap, ?flush⟩
  case fcs => exact fun _ _ _ => exec_portFrame_of_fcs_bad
  case roce =>
    intro s p f hport hfcs hvlan hsum hroce hicrc hlow hhigh hroom hparity
    rw [exec_portFrame_of_good hport hfcs hvlan hsum, if_pos hroce, takeRoce_of_room hicrc hlow hhigh hroom hparity]
  case noRow =>
    intro s p f hport hfcs hvlan hsum hroce hptp
    rw [exec_portFrame_of_good hport hfcs hvlan hsum, if_neg (Bool.eq_false_iff.1 hroce), if_neg (Bool.eq_false_iff.1 hptp), dropFrame]
  case datagram => exact fun _ _ _ => exec_udDatagram_of_good
  case badDatagram => exact fun _ _ _ => exec_udDatagram_of_other_key
  case write =>
    rintro s s1 p g hport htype hstate hqport hseal hpsn rfl hclass hfirst hlast hkey hwin hlen hplaced
    exact exec_rdmaWrite_of_last (arrive_proceed s p 1 memoryClass hport htype hstate hqport hseal hpsn hclass) hfirst hlast hkey hwin hlen hplaced
  case badWrite =>
    rintro s s1 p hport htype hstate hqport hseal hpsn rfl hclass hfirst hkey
    rw [exec_rdmaWrite_of_no_region (arrive_proceed s p 1 memoryClass hport htype hstate hqport hseal hpsn hclass) hfirst hkey,
      sendNak_access_of_unsealed ((sealed_fset_psn _ _).trans hseal)]
  case read =>
    rintro s s1 p g hport htype hstate hqport hseal hpsn rfl hclass hkey hwin hclean
    rw [exec_rdmaRead_of_proceed (arrive_proceed s p _ memoryClass hport htype hstate hqport hseal hpsn hclass), answerRead_of_admitted hkey hwin hclean]
  case add =>
    rintro s s1 p x g hport htype hstate hqport hseal hpsn rfl hclass hkey halign hout hout' hwin hclean
    rw [exec_atomicAdd, runAtomic_of_admitted (arrive_proceed s { p with len := 8 } 1 memoryClass hport htype hstate hqport hseal hpsn hclass) hkey halign hwin
      (fun _ => rfl) hclean, if_neg (Bool.eq_false_iff.1 hout')]
  case windowAdd =>
    rintro s s1 p x g hport htype hstate hqport hseal hpsn rfl hclass hkey halign hin hwin hclean
    rw [exec_atomicAdd, runAtomic_of_admitted (arrive_proceed s { p with len := 8 } 1 memoryClass hport htype hstate hqport hseal hpsn hclass) hkey halign hwin
      (fun _ => rfl) hclean, if_pos hin]
  case swap =>
    rintro s s1 p cmp swap g hport htype hstate hqport hseal hpsn rfl hclass hkey halign hout hwin hclean
    rw [exec_compareAndSwap, runAtomic_of_admitted (arrive_proceed s { p with len := 8 } 1 memoryClass hport htype hstate hqport hseal hpsn hclass) hkey
      halign hwin (fun h => absurd h (Bool.eq_false_iff.1 hout)) hclean]
  case flush =>
    rintro s s1 p g hport htype hstate hqport hseal hpsn rfl hclass hkey
    exact exec_rdmaFlush_of_admitted (arrive_proceed s p 1 memoryClass hport htype hstate hqport hseal hpsn hclass) hkey

end Sys2Proof.Machine

/-! PROOFS. The peer-done write, the messages that go no further than the transport, and the notices of peers (R193, R457, R467, R474, R475, R585, R586). -/

namespace Sys2Proof.Machine

theorem exec_peerDoneWrite_of_admitted {s s1 : State} {p : Packet} {imm : BitVec 32} {d : Bytes} {g l r : Nat}
    (harr : arrive s p 1 (fun c => c == 1) = (.proceed d, s1)) (hkey : keyCheck s1 p 1 = some g) (hline : peerDoneLine s1 (qpJob s1 p.q) = some l)
    (hround : windowRound s1 (qpJob s1 p.q) = some r) (hlow : l ≤ p.va) (hhigh : p.va + p.len ≤ l + 64) (hopen : windowOpen s1 (qpJob s1 p.q) = true)
    (hpeer : imm.toNat < fget s1 VAT_JOB_CTRL.PEERS_EXPECTED (qpJob s1 p.q) 0) :
    exec (.peerDoneWrite p imm) s = .next (sendAckTo (countPeer s1 (qpJob s1 p.q) r imm.toNat) p.q p.psn.toNat []) := by
  change execPeerDoneWrite p imm s = _
  simp only [execPeerDoneWrite, harr, hkey, hline, hround, hlow, hhigh, hopen, hpeer, and_self, if_true]

section sends

variable {s u : State} {q : Qpn} {c : Bytes}

/-- The commands that carry a message of queue pair `q`. -/
def IsSend (q : Qpn) (c : Bytes) (cmd : Instr) : Prop :=
  (∃ n, cmd = .joinChunk q n c) ∨ (∃ n, cmd = .sharesChunk q n c) ∨ (∃ n, cmd = .unmaskSharesChunk q n c) ∨ (∃ n, cmd = .abortChunk q n c) ∨
    (∃ n, cmd = .uploadChunk q n c) ∨ (∃ n, cmd = .sealedUploadPiece q n c) ∨ (∃ n, cmd = .manifest q n c) ∨ (∃ n, cmd = .unknownTypeChunk q n c) ∨
    cmd = .shortSend q c ∨ cmd = .fetchChunk q c ∨ cmd = .stream q c ∨ cmd = .retract q c ∨ cmd = .retractDone q c

theorem takeChunk_of_not_peer (hpeer : peerSend s q = false) : takeChunk s q c = takeSend s q c :=
  if_neg (Bool.eq_false_iff.1 hpeer)

theorem clientChunk_of_not_landed {type stamp : Nat} {pass : State → Look → Bytes → State} (hland : landed u q = false) :
    clientChunk type u q stamp c pass = u :=
  if_pos (.inl (Bool.eq_false_iff.1 hland))

theorem joinChunk_of_not_landed {stamp : Nat} (hland : landed u q = false) : joinChunk u q stamp c = u :=
  if_pos (.inl (Bool.eq_false_iff.1 hland))

theorem noticeSend_of_not_landed {type : Nat} (hpeer : peerSend s q = false) (hland : landed (takeSend s q c) q = false) :
    noticeSend s q type c = takeSend s q c :=
  (if_neg (Bool.eq_false_iff.1 hpeer)).trans (if_pos (Bool.eq_false_iff.1 hland))

/-- A message that is no peer's and does not reach Landing goes no further than the transport. -/
theorem exec_send_of_not_landed {cmd : Instr} (hcmd : IsSend q c cmd) (hu : takeSend s q c = u) (hpeer : peerSend s q = false)
    (hland : landed u q = false) : exec cmd s = .next u := by
  subst hu
  have htake : takeChunk s q c = takeSend s q c := takeChunk_of_not_peer hpeer
  rcases hcmd with ⟨n, rfl⟩ | ⟨n, rfl⟩ | ⟨n, rfl⟩ | ⟨n, rfl⟩ | ⟨n, rfl⟩ | ⟨n, rfl⟩ | ⟨n, rfl⟩ | ⟨n, rfl⟩ | rfl | rfl | rfl | rfl | rfl
  · change execJoinChunk q n c s = _
    rw [execJoinChunk, htake, joinChunk_of_not_landed hland]
  · change execSharesChunk q n c s = _
    rw [execSharesChunk, htake, clientChunk_of_not_landed hland]
  · change execUnmaskSharesChunk q n c s = _
    simp only [execUnmaskSharesChunk, htake, clientChunk_of_not_landed hland, ite_self]
  · change execAbortChunk q n c s = _
    rw [execAbortChunk, htake, clientChunk_of_not_landed hland]
  · change execUploadChunk q n c s = _
    simp only [execUploadChunk, htake, clientChunk_of_not_landed hland, ite_self]
  · change execSealedUploadPiece q n c s = _
    simp only [execSealedUploadPiece, htake, clientChunk_of_not_landed hland, ite_self]
  · change execManifest q n c s = _
    simp only [execManifest, htake, clientChunk_of_not_landed hland, ite_self]
  · change execUnknownTypeChunk q n c s = _
    simp only [execUnknownTypeChunk, htake, hland, Bool.false_eq_true, false_and, if_false]
  · change execShortSend q c s = _
    simp only [execShortSend, htake, hland, Bool.false_eq_true, false_and, if_false]
  · change execFetchChunk q c s = _
    simp only [execFetchChunk, htake, hland, Bool.false_eq_true, false_and, if_false]
  · exact congrArg Host.Outcome.next (noticeSend_of_not_landed hpeer hland)
  · exact congrArg Host.Outcome.next (noticeSend_of_not_landed hpeer hland)
  · exact congrArg Host.Outcome.next (noticeSend_of_not_landed hpeer hland)

theorem peerSend_of_class_ne (hclass : fget s RDMA_QP_CFG.CLASS q 0 ≠ 1) : peerSend s q = false := by
  rw [peerSend, beq_eq_false_iff_ne.2 hclass, Bool.and_false]

/-- A SEND on an RC queue pair of class ACCESS takes its PSNs and is an invalid request (R457). -/
theorem takeSend_of_access (hreach : sendReaches s q = true) (htype : fget s RDMA_QP_CFG.TYPE q 0 = 0) (hclass : fget s RDMA_QP_CFG.CLASS q 0 = 2) :
    takeSend s q c = sendNak (fset s RDMA_QP_PSN.RQ_PSN q 0 (fget s RDMA_QP_PSN.RQ_PSN q 0 + psnCount s q c.length)) q (fget s RDMA_QP_PSN.RQ_PSN q 0) .invalid := by
  have hclass' (v : Nat) : fget (fset s RDMA_QP_PSN.RQ_PSN q 0 v) RDMA_QP_CFG.CLASS q 0 = 2 :=
    (fget_fset_ne _ _ _ _ _ _ _ _ (Fld.key_ne (by decide) _ _ _ _)).trans hclass
  simp only [takeSend, hreach, htype, hclass', not_true_eq_false, Nat.zero_ne_one, if_false, if_true]

theorem sendReaches_of_idle (hrtr : qpState s q ≠ 2) (hrts : qpState s q ≠ 3) : sendReaches s q = false := by
  rw [sendReaches, beq_eq_false_iff_ne.2 hrtr, beq_eq_false_iff_ne.2 hrts, Bool.or_false, Bool.and_false, Bool.false_and]

/-- A SEND outside RTR and RTS is dropped (R467). -/
theorem takeSend_of_idle (hport : portOn s (qpPort s q) = true) (hrtr : qpState s q ≠ 2) (hrts : qpState s q ≠ 3) :
    takeSend s q c = count s RDMA_PORT_STAT.DROPPED (qpPort s q) 0 1 := by
  have hreach : ¬ sendReaches s q = true := Bool.eq_false_iff.1 (sendReaches_of_idle hrtr hrts)
  exact (if_pos hreach).trans (if_pos ⟨hport, hrtr, hrts⟩)

theorem landed_of_idle (hrtr : qpState s q ≠ 2) (hrts : qpState s q ≠ 3) : landed s q = false := by
  rw [landed, beq_eq_false_iff_ne.2 hrtr, beq_eq_false_iff_ne.2 hrts, Bool.or_false, Bool.and_false]

theorem qpState_count_dropped (p n : Nat) : qpState (count s RDMA_PORT_STAT.DROPPED p 0 n) q = qpState s q :=
  fget_fset_ne _ _ _ _ _ _ _ _ (Fld.key_ne (by decide) _ _ _ _)

/-! Notices on a PEER queue pair. -/

theorem noticeSend_of_good {type : Nat} (hpeer : peerSend s q = true) (hu : takeSend s q c = u) (hok : noticeOk u q type c = true) :
    noticeSend s q type c = noticeAct u q type c := by
  subst hu
  exact (if_pos hpeer).trans (if_pos hok)

theorem noticeSend_of_bad {type : Nat} (hpeer : peerSend s q = true) (hu : takeSend s q c = u) (hbad : noticeOk u q type c = false) :
    noticeSend s q type c = countSat u TRI_FAILS.NOTICE_BAD 0 0 1 := by
  subst hu
  exact (if_pos hpeer).trans (if_neg (Bool.eq_false_iff.1 hbad))

end sends

/-- Settles O12: the peer-done write by its checks, a message by what the transport makes of it. -/
theorem fieldPeersReport : Obligations.FieldPeersReport := by
  refine ⟨?peerDone, ?stream, ?retract, ?retractDone, ?badNotice, ?access, ?idle, ?other⟩
  case peerDone =>
    rintro s s1 p imm g l r hport htype hstate hqport hseal hpsn rfl hclass hkey hline hround hlow hhigh hopen hpeer
    exact exec_peerDoneWrite_of_admitted (arrive_proceed s p 1 (fun c => c == 1) hport htype hstate hqport hseal hpsn (beq_iff_eq.2 hclass)) hkey hline hround
      hlow hhigh hopen hpeer
  case stream => exact fun s u q c hpeer hu hok => congrArg Host.Outcome.next (noticeSend_of_good hpeer hu hok)
  case retract => exact fun s u q c hpeer hu hok => congrArg Host.Outcome.next (noticeSend_of_good hpeer hu hok)
  case retractDone => exact fun s u q c hpeer hu hok => congrArg Host.Outcome.next (noticeSend_of_good hpeer hu hok)
  case badNotice => exact fun s u q c hpeer hu hbad => congrArg Host.Outcome.next (noticeSend_of_bad hpeer hu hbad)
  case access =>
    intro s u q c cmd hcmd hreach htype hclass hu hland
    exact exec_send_of_not_landed hcmd ((takeSend_of_access hreach htype hclass).trans hu) (peerSend_of_class_ne (by rw [hclass]; decide)) hland
  case idle =>
    intro s q c cmd hcmd hport hrtr hrts
    have hpeer : peerSend s q = false := by rw [peerSend, sendReaches_of_idle hrtr hrts, Bool.false_and]
    refine exec_send_of_not_landed hcmd (takeSend_of_idle hport hrtr hrts) hpeer (landed_of_idle ?_ ?_) <;> rwa [qpState_count_dropped]
  case other => exact fun s u q c cmd hcmd hu hpeer hland => exec_send_of_not_landed hcmd hu hpeer hland

end Sys2Proof.Machine

/-! PROOFS. The instructions of the Vat's sequencer on vectors and cohorts (R169, R171, R177, R183, R188, R203, R204, R382, R383). -/

namespace Sys2Proof.Machine

section vectors

variable {s : State} {x : CtxId} {c : Ctx}

/-- VOP performs the clean lines; it then meets the poison that it finds or issues. -/
theorem exec_vop_of_stands (hc : s.ctx? x = some c) (hst : standsAt s x c 0x30 = true) (hcode : vopSize (c.mod % 16) ≠ 0)
    (hok : (c.dst % 64 == 0 && c.sa % 64 == 0 && c.sb % (if c.mod % 16 ≤ 3 then 32 else 64) == 0) = true)
    (hreach : rangeFault s c [(c.dst, c.sb), (c.sa, c.sb)] = none) :
    exec (.vop x) s = .next (
      let t := bankWork (runVop s c.job (c.mod % 16) c.dst c.sa c.sb) c.job c.dst c.sb (bankOps c.sb)
      match firstPoison s c.job [(c.dst, c.sb), (c.sa, c.sb)] with
      | some a => consumeAt t c.job 4 a
      | none => issueOp t x 0 0) := by
  change execVop x s = _
  rw [execVop, instr_of_stands hc hst]
  exact congrArg Host.Outcome.next ((if_neg hcode).trans (guarded_of_ok hok hreach))

theorem exec_vcas_of_stands (hc : s.ctx? x = some c) (hst : standsAt s x c 0x31 = true) (hok : (c.sa % 8 == 0) = true)
    (hreach : rangeFault s c [(c.sa, 8)] = none) (hclean : firstPoison s c.job [(c.sa, 8)] = none) :
    exec (.vcas x) s = .next (
      let old := jobWord s c.job c.sa
      let t := jobSetWord s c.job c.sa (if old = c.reg (iSb c.word) then BitVec.ofNat 64 (c.ext 1) else old)
      issueOp ((bankWork t c.job c.sa 8 1).modCtx x (fun c => c.setReg (iDst c.word) old)) x 0 0) := by
  change execVcas x s = _
  rw [execVcas, instr_of_stands hc hst, guarded_of_ok hok hreach, unlessPoison_of_clean 4 hclean]

theorem exec_vfill_of_stands (hc : s.ctx? x = some c) (hst : standsAt s x c 0x32 = true) (hok : (c.dst % 64 == 0 && c.sb % 64 == 0) = true)
    (hreach : rangeFault s c [(c.dst, c.sb)] = none) :
    exec (.vfill x) s = .next (issueOp (bankWork
      (jobStore s c.job c.dst (List.flatten (List.replicate (c.sb / 4) (toLe 4 c.imm)))) c.job c.dst c.sb (bankOps c.sb)) x 0 0) := by
  change execVfill x s = _
  rw [execVfill, instr_of_stands hc hst]
  exact congrArg Host.Outcome.next (guarded_of_ok hok hreach)

theorem exec_vcopy_of_stands (hc : s.ctx? x = some c) (hst : standsAt s x c 0x33 = true)
    (hok : (c.dst % 64 == 0 && c.sa % 64 == 0 && c.sb % 64 == 0) = true) (hreach : rangeFault s c [(c.dst, c.sb), (c.sa, c.sb)] = none) :
    exec (.vcopy x) s = .next (
      let ls := (List.range (c.sb / 64)).map (fun i => (poisoned s c.job (c.sa + 64 * i) 64, jobRead s c.job (c.sa + 64 * i) 64))
      issueOp (bankWork (bankWork (copyLines s c.job c.dst ls) c.job c.sa c.sb (bankOps c.sb)) c.job c.dst c.sb (bankOps c.sb)) x 0 0) := by
  change execVcopy x s = _
  rw [execVcopy, instr_of_stands hc hst]
  exact congrArg Host.Outcome.next (guarded_of_ok hok hreach)

end vectors

section cohorts

variable {s t : State} {x : CtxId} {c : Ctx} {y : Round}

theorem unlessSettle_of_clean {j : JobId} {n : Nat} {go : State} (hclean : settlePoison s j y n = none) : unlessSettle s j y n go = go := by
  simp only [unlessSettle, hclean]

theorem issueCohort_of_live {j : JobId} {r n status : Nat} (h : (t.cohort j r n).reason = 0) : issueCohort t x j r n status = issueOp t x 0 0 :=
  if_neg (not_not_intro h)

theorem issueCohort_of_abandoned {j : JobId} {r n status : Nat} (h : (t.cohort j r n).reason ≠ 0) :
    issueCohort t x j r n status = issueOp t x 3 status :=
  if_pos h

theorem exec_settle_of_due (hc : s.ctx? x = some c) (hst : standsAt s x c 0x34 = true) (hy : servedRound s c = some y)
    (hdue : settleDue s c.job y c.imm = true) (hclean : settlePoison s c.job y c.imm = none)
    (ht : settleCohort s c.job c.imm y (y.cohort c.imm) = t) :
    exec (.settle x) s = .next (issueCohort t x c.job y.number c.imm 2) := by
  change execSettle x s = _
  rw [execSettle, instr_of_stands hc hst]
  simp only [hy, hdue, if_true, unlessSettle_of_clean hclean, ht]

theorem excludeCohort_of_round {j : JobId} {r n : Nat} {z : Round} (hz : s.round? j r = some z) :
    excludeCohort s j r n = (subtractCohort s j z n (z.cohort n)).modCohort j r n (fun k => { k with excluded := true }) := by
  simp only [excludeCohort, hz]

theorem exec_exclude_of_settled (hc : s.ctx? x = some c) (hst : standsAt s x c 0x35 = true) (hy : servedRound s c = some y)
    (hsettled : (y.cohort c.imm).settled = true) (hkept : (y.cohort c.imm).excluded = false) (hlive : (y.cohort c.imm).reason = 0)
    (hclean : settlePoison s c.job y c.imm = none) :
    exec (.exclude x) s = .next (issueOp (excludeCohort s c.job y.number c.imm) x 0 0) := by
  change execExclude x s = _
  rw [execExclude, instr_of_stands hc hst]
  simp only [hy, hsettled, hkept, hlive, unlessSettle_of_clean hclean, not_true_eq_false, ne_eq, Bool.false_eq_true, or_self, if_false]

theorem exec_checkCohort_of_due {key : Key256} (hc : s.ctx? x = some c) (hst : standsAt s x c 0x36 = true) (hy : servedRound s c = some y)
    (hkey : (y.cohort c.imm).checkKey = some key) (hclosed : y.closed = true) (hnew : (y.cohort c.imm).checked = false)
    (hlive : (y.cohort c.imm).reason = 0) (hclean : metPoison s c.job (checkPlaces s c.job y c.imm key) = none)
    (ht : Machine.compare s c.job y.number c.imm y.plan (y.cohort c.imm) key = t) :
    exec (.checkCohort x) s = .next (issueCohort t x c.job y.number c.imm 1) := by
  change execCheckCohort x s = _
  rw [execCheckCohort, instr_of_stands hc hst]
  simp only [hy, hkey, hclosed, hnew, hlive, hclean, ht, not_true_eq_false, ne_eq, Bool.false_eq_true, or_self, if_false]

theorem exec_zeroRound_of_stands (hc : s.ctx? x = some c) (hst : standsAt s x c 0x37 = true) (hy : servedRound s c = some y) :
    exec (.zeroRound x) s = .next (issueOp (zeroRoundOf s c.job y) x 0 0) := by
  change execZeroRound x s = _
  rw [execZeroRound, instr_of_stands hc hst]
  simp only [hy]

end cohorts

/-- Settles O19: each instruction by the course that its hypotheses describe. -/
theorem vatInstructionsRun : Obligations.VatInstructionsRun := by
  refine ⟨?vop, ?vcas, ?vfill, ?vcopy, ?vopPoison, ?settle, ?settleFails, ?exclude, ?check, ?checkFails, ?zeroRound⟩
  case vop =>
    intro s x c hc hst hcode hok hreach hclean
    rw [exec_vop_of_stands hc hst hcode hok hreach, hclean]
  case vcas => exact fun _ _ _ => exec_vcas_of_stands
  case vfill => exact fun _ _ _ => exec_vfill_of_stands
  case vcopy => exact fun _ _ _ => exec_vcopy_of_stands
  case vopPoison =>
    intro s x c a hc hst hcode hok hreach hpoison
    rw [exec_vop_of_stands hc hst hcode hok hreach, hpoison]
  case settle =>
    intro s x c y t hc hst hy hdue hclean ht hlive
    rw [exec_settle_of_due hc hst hy hdue hclean ht, issueCohort_of_live hlive]
  case settleFails =>
    intro s x c y t hc hst hy hdue hclean ht hgone
    rw [exec_settle_of_due hc hst hy hdue hclean ht, issueCohort_of_abandoned hgone]
  case exclude =>
    intro s x c y z hc hst hy hsettled hkept hlive hclean hz
    rw [exec_exclude_of_settled hc hst hy hsettled hkept hlive hclean, excludeCohort_of_round hz]
  case check =>
    intro s x c y key t hc hst hy hkey hclosed hnew hlive hclean ht hstays
    rw [exec_checkCohort_of_due hc hst hy hkey hclosed hnew hlive hclean ht, issueCohort_of_live hstays]
  case checkFails =>
    intro s x c y key t hc hst hy hkey hclosed hnew hlive hclean ht hgone
    rw [exec_checkCohort_of_due hc hst hy hkey hclosed hnew hlive hclean ht, issueCohort_of_abandoned hgone]
  case zeroRound =>
    intro s x c y hc hst hy
    rw [exec_zeroRound_of_stands hc hst hy, zeroRoundOf]

end Sys2Proof.Machine

/-! PROOFS. Screening, Finish, the gate, the release and the wait for peers (R195, R196, R280, R291, R292, R297 to R300, R302 to R304). -/

namespace Sys2Proof.Machine

/-! The screening decision. -/

section screening

variable {s s1 t : State} {j : JobId} {r : Nat} {x y : Round}

/-- A round that no cohort is live in has no sums to check (R178). -/
theorem rangeChecked_of_no_live (hdead : liveCohorts x = []) : rangeChecked s j x = s := by
  simp only [rangeChecked, screenSet, hdead, List.filter_nil, List.foldl_nil, ite_self]

/-- A decision that is due and may be made goes on, past the range check of a windowed model, to the round's end or its screening. -/
theorem exec_screenDecision_of_due {r : RoundNo} (hx : s.round? j r = some x) (hready : screenReady s j x = true) (hnew : x.screenDone = false)
    (hfirst : earliest s j r = true) (hj : s.alive j = true)
    (hmay : polScreen (s.job j).policy = 0 ∨ screenMay s x = true ∨ liveCohorts x = []) (hs1 : rangeChecked s j x = s1) (hy : s1.round? j r = some y) :
    exec (.screenDecision j r) s = .next (if liveCohorts y = [] then withhold s1 j r 4 0 false else screenRound s1 j r) := by
  have hgo : ¬ (polScreen (s.job j).policy ≠ 0 ∧ ¬ screenMay s x = true ∧ liveCohorts x ≠ []) := by tauto
  change execScreenDecision j r s = _
  simp only [execScreenDecision, hx, hready, hnew, hfirst, hj, hgo, hs1, hy, not_true_eq_false, Bool.false_eq_true, or_self, if_false, Option.map_some,
    Option.getD_some, decide_eq_true_eq]

theorem screenRound_of_off (hy : s.round? j r = some y) (hoff : polScreen ((enterPhase s j r 9).job j).policy = 0) :
    screenRound s j r =
      decided (fset (fset (enterPhase s j r 9) SKM_JOB_SCREEN.FLAGGED j 0 0) SKM_JOB_SCREEN.EXCLUDED j 0 0) j r (screenSet (enterPhase s j r 9) j y) := by
  simp only [screenRound, hy, hoff, if_true]

theorem screenRound_of_key {key : Key256} (hy : s.round? j r = some y) (hon : polScreen ((enterPhase s j r 9).job j).policy ≠ 0)
    (hkey : screeningKey (enterPhase s j r 9) j r = (some key, t))
    (hclean : metPoison t j ((screenSet (enterPhase s j r 9) j y).flatMap (sumPlaces t j y)) = none) :
    screenRound s j r = runScreen t j r y key (screenSet (enterPhase s j r 9) j y) := by
  simp only [screenRound, hy, hon, if_false, screenWith, hkey, hclean]

end screening

/-! Finish. -/

section finish

variable {s s1 s2 : State} {j : JobId} {r : Nat} {x y : Round}

theorem exec_finishBegin_of_due {r : RoundNo} (hx : s.round? j r = some x) (hdue : finishDue s j x = true) (hlive : liveCohorts x ≠ [])
    (hclean : firstPoison s j (finishReads s j x) = none) : exec (.finishBegin j r) s = .next (finishRound s j r x) := by
  change execFinishBegin j r s = _
  simp only [execFinishBegin, hx, hdue, finishOrPoison, hlive, unlessPoison_of_clean 9 hclean, if_true, if_false]

theorem finishRound_of_charged (hcharge : x.charge.isSome = true) : finishRound s j r x = runFinish s j r := if_pos hcharge

theorem finishRound_of_new (hnew : x.charge.isSome = false) :
    finishRound s j r x =
      let charge := chargeOf (s.job j).policy
      let after := spentWith (dec64 (fget s WRP_JOB_RHO.RHO_SPENT j 0)) charge
      if (dec64 (polRho (s.job j).policy)).lt after then withhold (ev s WRP_EVENT.BUDGET_EV) j r 6 0 false
      else runFinish (chargeRound s j r after charge) j r :=
  if_neg (Bool.eq_false_iff.1 hnew)

theorem runFinish_of_ready (hy : s.round? j r = some y)
    (hs2 : exposeTotals (fset s VAT_JOB_CTRL.ADD_OPEN j 0 0) j y (finishInputs (fset s VAT_JOB_CTRL.ADD_OPEN j 0 0) j y) = s2)
    (hready : entropyReady s2 = true) : runFinish s j r = finishWindow s2 j r y (finishInputs (fset s VAT_JOB_CTRL.ADD_OPEN j 0 0) j y) := by
  simp only [runFinish, hy, hs2, hready, if_true]

end finish

/-! The gate and its hold. -/

section gate

variable {s s1 : State} {j : JobId} {r : RoundNo} {x y : Round} {held : Bytes}

theorem exec_gateDecision_of_due (hx : s.round? j r = some x) (hstaged : staged s j x = true) (hnew : x.gate = none) (hj : s.alive j = true)
    (hmay : gateMay s j = true) (hok : (s.job j).heldOk = true) (hheld : (s.job j).held = some held)
    (hclean : firstPoison s j (gateReads s j x) = none) : exec (.gateDecision j r) s = .next (gateRound s j r held) := by
  change execGateDecision j r s = _
  simp only [execGateDecision, hx, hstaged, hnew, hj, hmay, hok, hheld, unlessPoison_of_clean 5 hclean, Option.isSome_none, not_true_eq_false,
    Bool.false_eq_true, or_self, if_false]

theorem exec_gateDecision_of_no_set (hx : s.round? j r = some x) (hstaged : staged s j x = true) (hnew : x.gate = none) (hj : s.alive j = true)
    (hmay : gateMay s j = true) (hno : (s.job j).heldOk = false) :
    exec (.gateDecision j r) s = .next (withhold (enterPhase s j r 11) j r 8 0 false) := by
  change execGateDecision j r s = _
  simp only [execGateDecision, hx, hstaged, hnew, hj, hmay, hno, Option.isSome_none, not_true_eq_false, Bool.false_eq_true, or_self, if_false]

/-- The gate's verdict over the metrics of the candidate (R298, R299). -/
theorem gateRound_of_measured (hs1 : baseMeasured (formCandidate (enterPhase s j r 11) j r) j r held = s1) (hy : s1.round? j r = some y) :
    gateRound s j r held =
      let pol := (s.job j).policy
      let base := (s1.job j).baseCorrect.getD 0
      let m := (evaluate s1 j r held y.candidate).1
      let s2 := showMetrics (evaluate s1 j r held y.candidate).2 j pol m.correct base m.loss
      match verdictOf pol (y.nonfinite + badElems y.candidate + m.nonfinite) m.correct base m.loss with
      | none => showGate (acceptCandidate (s2.modRound j r (fun z => { z with candidateCorrect := m.correct, gate := some 0 })) j r false) j r 0 0 false true
      | some (status, why) => refuseCandidate (s2.modRound j r (fun z => { z with candidateCorrect := m.correct, gate := some status })) j r status why := by
  simp only [gateRound, hs1, hy]
  generalize verdictOf _ _ _ _ _ = verdict
  rcases verdict with _ | ⟨status, why⟩ <;> rfl

theorem exec_gateOverride_of_held {v : BitVec 32} {e : Time} (hj : Fin.ofNat 16 (get1 s WRP_JOB_SEL.JOB) = j) (hx : s.round? j v.toNat = some x)
    (hhold : x.holdEnd = some e) (hopen : s.conf j = false) (halive : s.alive j = true) (hbefore : s.now < e) :
    exec (.gateOverride v) s = .next (showGate (acceptCandidate s j v.toNat true) j v.toNat 1 0 false true) := by
  change Host.Outcome.next (writeOverride s v.toNat) = _
  simp only [writeOverride, hj, hx, hhold, hopen, halive, Nat.not_le.2 hbefore, Bool.false_eq_true, not_true_eq_false, or_self, if_false]

theorem exec_gateHoldExpiry_of_over {e : Time} (hx : s.round? j r = some x) (hhold : x.holdEnd = some e) (hover : e ≤ s.now) (hj : s.alive j = true) :
    exec (.gateHoldExpiry j r) s = .next (withhold s j r 2 (fget s WRP_JOB_GATE.REASON j 0) true) := by
  change execGateHoldExpiry j r s = _
  simp only [execGateHoldExpiry, hx, hhold, Nat.not_lt.2 hover, hj, not_true_eq_false, or_self, if_false]

/-! The release and the wait for peers. -/

theorem exec_releasePost_of_accepted (hx : s.round? j r = some x) (hacc : x.accepted = true) (hj : s.alive j = true) (hchecks : checksPending s j = false)
    (hclean : firstPoison s j [(hbmPlace j placeStaging r 0, pReleaseLen x.plan)] = none) :
    exec (.releasePost j r) s = .next (releaseRound s j r x) := by
  change execReleasePost j r s = _
  simp only [execReleasePost, hx, hacc, hj, hchecks, unlessPoison_of_clean 0 hclean, Bool.false_eq_true, not_true_eq_false, or_self, if_false]

theorem exec_peerWaitExpiry_of_over {t : Time} (hx : s.round? j r = some x) (hstart : x.peerStart = some t)
    (hover : t + fget s VAT_JOB_PEER_WAIT.WAIT_MS j 0 * 10 ^ 6 ≤ s.now) (hstaged : staged s j x = false) (hj : s.alive j = true)
    (hmissing : fget s VAT_JOB_PEER_WAIT.PEERS_DONE j 0 ≠ fget s VAT_JOB_CTRL.PEERS_EXPECTED j 0) :
    exec (.peerWaitExpiry j r) s = .next (
      let s1 := ev (fset s VAT_JOB_CTRL.ADD_OPEN j 0 0) VAT_EVENT.PEER_EV
      let s2 := logJob (fset (fset s1 VAT_JOB_LAST.COHORT j 0 0) VAT_JOB_LAST.STATUS j 0 3) j 0x11 r 0 3
      endRound s2 j r 3 3 0 []) := by
  change execPeerWaitExpiry j r s = _
  simp only [execPeerWaitExpiry, hx, hstart, Nat.not_lt.2 hover, hstaged, hj, hmissing, Bool.false_eq_true, not_true_eq_false, or_self, if_false]

end gate

/-- Settles O11: each event of a round that is due, by the course that its hypotheses describe. -/
theorem theRoundIsScreenedGatedAndReleased : Obligations.TheRoundIsScreenedGatedAndReleased := by
  refine ⟨?noLive, ?screenOff, ?screen, ?finish, ?nextWindow, ?budget, ?gate, ?noSet, ?override, ?holdExpiry, ?release, ?peerWait⟩
  case noLive =>
    intro s j r x hx hready hnew hfirst hj hdead
    rw [exec_screenDecision_of_due hx hready hnew hfirst hj (.inr (.inr hdead)) (rangeChecked_of_no_live hdead) hx, if_pos hdead, withhold]
  case screenOff =>
    intro s s1 j r x y hx hready hnew hfirst hj hoff hs1 hy hlive hoff1
    rw [exec_screenDecision_of_due hx hready hnew hfirst hj (.inl hoff) hs1 hy, if_neg hlive, screenRound_of_off hy hoff1]
    rfl
  case screen =>
    intro s s1 t j r x y key hx hready hnew hfirst hj hmay hs1 hy hlive hon hkey hclean
    rw [exec_screenDecision_of_due hx hready hnew hfirst hj (.inr (.inl hmay)) hs1 hy, if_neg hlive, screenRound_of_key hy hon hkey hclean]
    rfl
  case finish =>
    intro s s1 s2 j r x y hx hdue hlive hclean hnew hwithin hs1 hy hs2 hready
    rw [exec_finishBegin_of_due hx hdue hlive hclean, finishRound_of_new hnew]
    simp only [hwithin, Bool.false_eq_true, if_false, hs1, runFinish_of_ready hy hs2 hready]
  case nextWindow =>
    intro s s1 j r x hx hdue hlive hclean hcharged hs1 hready
    rw [exec_finishBegin_of_due hx hdue hlive hclean, finishRound_of_charged hcharged, runFinish_of_ready hx hs1 hready]
  case budget =>
    intro s j r x hx hdue hlive hclean hnew hbeyond
    rw [exec_finishBegin_of_due hx hdue hlive hclean, finishRound_of_new hnew]
    simp only [hbeyond, if_true, withhold]
  case gate =>
    intro s s1 j r x y held hx hstaged hnew hj hmay hok hheld hclean hs1 hy
    exact (exec_gateDecision_of_due hx hstaged hnew hj hmay hok hheld hclean).trans (congrArg Host.Outcome.next (gateRound_of_measured hs1 hy))
  case noSet =>
    intro s j r x hx hstaged hnew hj hmay hno
    rw [exec_gateDecision_of_no_set hx hstaged hnew hj hmay hno, withhold]
  case override => exact fun s j v x e => exec_gateOverride_of_held
  case holdExpiry =>
    intro s j r x e hx hhold hover hj
    rw [exec_gateHoldExpiry_of_over hx hhold hover hj, withhold]
  case release =>
    intro s j r x hx hacc hj hchecks hclean
    rw [exec_releasePost_of_accepted hx hacc hj hchecks hclean]
    rfl
  case peerWait => exact fun s j r x t => exec_peerWaitExpiry_of_over

end Sys2Proof.Machine

/-! PROOFS. The unit commands, a tile's drain, a chain's check and the refresh wait (R217, R243, R350, R577, R580, R584, R587, R589, R590). -/

namespace Sys2Proof.Machine

/-! The commands on the selected unit. -/

section unitCommands

variable {s t : State} {b u gen st : Nat} {v : BitVec 32} {kat : Bool}

theorem unitCommand_of_stale (op : Nat) (kat : Bool) (hexists : unitExists b u = true) (hgen : gen ≠ fget s TRI_UNIT_STATE.GEN b u) :
    unitCommand s b u gen op kat = (7, ev s TRI_EVENT.STALE_EV) :=
  (if_neg (not_not_intro hexists)).trans (if_pos hgen)

theorem unitCommand_of_fence (kat : Bool) (hexists : unitExists b u = true) (hgen : gen = fget s TRI_UNIT_STATE.GEN b u) :
    unitCommand s b u gen 1 kat = (if unitState (fence s b u 6) b u = 1 then 0 else 8, fence s b u 6) :=
  (if_neg (not_not_intro hexists)).trans ((if_neg (not_not_intro hgen)).trans (if_neg (by decide)))

theorem unitCommand_of_unfence (kat : Bool) (hexists : unitExists b u = true) (hgen : gen = fget s TRI_UNIT_STATE.GEN b u) :
    unitCommand s b u gen 2 kat = unfence s b u kat :=
  (if_neg (not_not_intro hexists)).trans ((if_neg (not_not_intro hgen)).trans (if_pos rfl))

/-- A passed test makes LIVE a unit that is neither a bank, which may be redirected, nor a port, which lights again, nor held by cause 7. -/
theorem unfence_of_passed (hbank : b ≠ 4) (hport : b ≠ 1) (hcause : fget s TRI_UNIT_STATE.CAUSE b u ≠ 7) :
    unfence s b u true = (0, setUnit s b u 0 0) := by
  simp only [unfence, hbank, hport, hcause, false_and, or_self, not_true_eq_false, if_false]

theorem writeUnitCmd_of_answered {v : Nat} (hop : bits v 1 0 = 1 ∨ bits v 1 0 = 2)
    (hanswer : unitCommand s (get1 s TRI_UNIT_SEL.BLOCK) (get1 s TRI_UNIT_SEL.UNIT) (bits v 31 24) (bits v 1 0) kat = (st, t)) :
    writeUnitCmd s v kat = enginesGoOn s (set1 t TRI_UNIT_CMD.STATUS st) := by
  simp only [writeUnitCmd, if_pos hop, hanswer]

theorem exec_triFence_of_answered (hop : bits v.toNat 1 0 = 1)
    (hanswer : unitCommand s (get1 s TRI_UNIT_SEL.BLOCK) (get1 s TRI_UNIT_SEL.UNIT) (bits v.toNat 31 24) 1 false = (st, t)) :
    exec (.triFence v) s = .next (enginesGoOn s (set1 t TRI_UNIT_CMD.STATUS st)) :=
  congrArg Host.Outcome.next ((if_neg (by rw [hop]; decide)).trans (writeUnitCmd_of_answered (.inl hop) (by rw [hop, hanswer])))

theorem exec_triUnfence_of_answered (hop : bits v.toNat 1 0 = 2)
    (hanswer : unitCommand s (get1 s TRI_UNIT_SEL.BLOCK) (get1 s TRI_UNIT_SEL.UNIT) (bits v.toNat 31 24) 2 kat = (st, t)) :
    exec (.triUnfence v kat) s = .next (enginesGoOn s (set1 t TRI_UNIT_CMD.STATUS st)) :=
  congrArg Host.Outcome.next ((if_pos hop).trans (writeUnitCmd_of_answered (.inr hop) (by rw [hop, hanswer])))

/-- Where no engine turns on, no work goes on. -/
theorem enginesGoOn_of_unchanged (htoll : tollOn t = tollOn s) (hrind : rindOn t = rindOn s) (hculture : cultureOn t = cultureOn s) :
    enginesGoOn s t = t := by
  simp only [enginesGoOn, htoll, hrind, hculture, and_not_self, if_false]

/-- The refusal of an old GEN writes an event and STATUS, on which no engine depends. -/
theorem enginesGoOn_of_refused (s : State) (st : Nat) :
    enginesGoOn s (set1 (ev s TRI_EVENT.STALE_EV) TRI_UNIT_CMD.STATUS st) = set1 (ev s TRI_EVENT.STALE_EV) TRI_UNIT_CMD.STATUS st := by
  have hread (f : Fld) (hevent : (TRI_EVENT.STALE_EV.reg, TRI_EVENT.STALE_EV.lo) ≠ (f.reg, f.lo))
      (hstatus : (TRI_UNIT_CMD.STATUS.reg, TRI_UNIT_CMD.STATUS.lo) ≠ (f.reg, f.lo)) :
      get1 (set1 (ev s TRI_EVENT.STALE_EV) TRI_UNIT_CMD.STATUS st) f = get1 s f :=
    (fget_fset_ne _ _ _ _ _ _ _ _ (Fld.key_ne hstatus _ _ _ _)).trans (fget_fset_ne _ _ _ _ _ _ _ _ (Fld.key_ne hevent _ _ _ _))
  refine enginesGoOn_of_unchanged ?toll ?rind ?culture
  case toll => rw [tollOn, on, hread _ (by decide) (by decide), hread _ (by decide) (by decide), ← on, ← tollOn]
  case rind =>
    rw [rindOn, on, hread _ (by decide) (by decide), hread _ (by decide) (by decide), hread _ (by decide) (by decide), ← on, ← rindOn]
  case culture => rw [cultureOn, on, hread _ (by decide) (by decide), hread _ (by decide) (by decide), ← on, ← cultureOn]

end unitCommands

/-! The drain of a tile. -/

section tileDrain

variable {s u w : State} {a : Fin 8} {d : DrainRec} {ds : List DrainRec} {c : Ctx} {t : Tile} {wrong : List (Nat × Int)}

theorem exec_tileDrain_of_pending (hu : u = replaceFenced s) (hdrains : (u.array a).drains = d :: ds) (hlive : unitState u 5 a ≠ 1)
    (hc : u.ctx? d.x = some c) (ht : t = ((u.array a).tile d.tile).faulty wrong) :
    exec (.tileDrain a wrong) s = .next (drainTile (u.setArray a { (u.array a).setTile d.tile t with drains := ds }) a d c t) := by
  subst ht
  change execTileDrain a wrong s = _
  simp only [execTileDrain, ← hu, hdrains, hlive, hc, if_false]

theorem exec_tileDrain_of_fenced (hu : u = replaceFenced s) (hdrains : (u.array a).drains = d :: ds) (hfenced : unitState u 5 a = 1) :
    exec (.tileDrain a wrong) s = .next u := by
  change execTileDrain a wrong s = _
  simp only [execTileDrain, ← hu, hdrains, hfenced, if_true]

/-- Without poison in the tile and in the channels' entries the elements are delivered. -/
theorem drainTile_of_clean (hw : w = offerChain (countInf s d.x c.job t) d a t)
    (hchannels : firstPoison w c.job (channelRanges d.record d.col0 t.n) = none)
    (hcells : ∀ e ∈ drainElems w c.job d c.elems t, (t.cell (e.row - d.row0) (e.col - d.col0)).poison = false) :
    drainTile s a d c t = deliver w d.x c.job d.record (if wrStoch d.record then c.roundKey else none) (drainElems w c.job d c.elems t) := by
  have hbad : (drainElems w c.job d c.elems t).filter (fun e => (t.cell (e.row - d.row0) (e.col - d.col0)).poison) = [] :=
    List.filter_eq_nil_iff.2 fun e he => Bool.eq_false_iff.1 (hcells e he)
  simp only [drainTile, ← hw, unlessPoison_of_clean 9 hchannels, hbad, List.isEmpty_nil, if_true]

end tileDrain

/-! The check of a group's oldest chain. -/

section chainCheck

variable {s t : State} {j : JobId} {n : Nat} {wrong : List (Nat × Int)} {k : ChainCheck} {rest : List ChainCheck} {g : Group} {x : CtxId}

theorem canRerun_of_provisional (hx : g.x = none) : canRerun s g k = true := by
  rw [canRerun, hx, Option.isNone_none, Bool.true_or]

theorem canRerun_of_invoked (hx : g.x = some x) : canRerun s g k = (liveArrays s).any (fun a => a != k.array) := by
  rw [canRerun, hx, Option.isNone_some, Bool.false_or]

theorem exec_chainCheck_of_waiting (hg : s.groups.find? (fun g => g.job == j && g.seq == n) = some g) (hk : g.chains = k :: rest)
    (hfails : chainPasses? s g k k.drained = false) (hwaits : canRerun s g k = false) : exec (.chainCheck j n wrong) s = .next s := by
  change execChainCheck j n wrong s = _
  simp only [execChainCheck, hg, hk, hfails, hwaits, Bool.not_false, Bool.and_self, if_true]

/-- A group that stays after this chain: one of an invocation, or one with further chains. -/
theorem exec_chainCheck_of_pass (hg : s.groups.find? (fun g => g.job == j && g.seq == n) = some g) (hk : g.chains = k :: rest)
    (hpass : chainPasses? s g k k.drained = true) (hstays : ¬ (g.x.isNone = true ∧ rest.isEmpty = true)) :
    exec (.chainCheck j n wrong) s = .next (reportGroup (takeChain (takeDraws s k.drained.n) g) g true) := by
  change execChainCheck j n wrong s = _
  simp only [execChainCheck, hg, hk, hpass, hstays, Bool.not_true, Bool.false_and, Bool.false_eq_true, if_true, if_false]

theorem exec_chainCheck_of_failure (hg : s.groups.find? (fun g => g.job == j && g.seq == n) = some g) (hk : g.chains = k :: rest)
    (hfails : chainPasses? s g k k.drained = false) (hrerun : canRerun s g k = true) (hstays : ¬ (g.x.isNone = true ∧ rest.isEmpty = true)) :
    exec (.chainCheck j n wrong) s = .next (chainFails (takeChain (takeDraws s k.drained.n) g) g k wrong) := by
  change execChainCheck j n wrong s = _
  simp only [execChainCheck, hg, hk, hfails, hrerun, hstays, Bool.not_true, Bool.and_false, Bool.false_eq_true, if_false]

theorem chainFails_of_provisional (hx : g.x = none) : chainFails s g k wrong = reportGroup (failChain s g.job k.array) g false := by
  simp only [chainFails, hx]

theorem chainFails_of_invoked {c : Ctx} (ht : t = failChain s g.job k.array) (hx : g.x = some x) (hc : t.ctx? x = some c) :
    chainFails s g k wrong = rerunChain t g k x c wrong := by
  simp only [chainFails, hx, ← ht, hc]

end chainCheck

/-- REFRESH_WAIT_EXPIRY with a wait set (R350). -/
theorem exec_refreshWaitExpiry_of_limited {s : State} {j : JobId} (hwait : 0 < fget s RIND_JOB_REFRESH.WAIT_S j 0) :
    exec (.refreshWaitExpiry j) s = .next (dropRefresh s j
      (fun o => o.joined.isNone && decide (o.since + fget s RIND_JOB_REFRESH.WAIT_S j 0 * 10 ^ 9 ≤ s.now))) :=
  congrArg Host.Outcome.next (if_neg hwait.ne')

/-- Settles O16: a unit command by what it answers, a drain by its array, and a chain by its check and whether its invocation still runs. -/
theorem unitsAreFencedAndChecked : Obligations.UnitsAreFencedAndChecked := by
  refine ⟨?fence, ?stale, ?unfence, ?drain, ?fencedDrain, ?pass, ?rerun, ?retract, ?waits, ?refresh⟩
  case fence => exact fun s v hop hexists hgen => exec_triFence_of_answered hop (unitCommand_of_fence false hexists hgen)
  case stale =>
    intro s v hop hexists hgen
    rw [exec_triFence_of_answered hop (unitCommand_of_stale 1 false hexists hgen), enginesGoOn_of_refused]
  case unfence =>
    intro s v hop hexists hgen hbank hport hcause
    exact exec_triUnfence_of_answered hop ((unitCommand_of_unfence true hexists hgen).trans (unfence_of_passed hbank hport hcause))
  case drain =>
    intro s u w a d ds c wrong t hu hdrains hlive hc ht hw hchannels hcells
    rw [exec_tileDrain_of_pending hu hdrains hlive hc ht, drainTile_of_clean hw hchannels hcells]
  case fencedDrain => exact fun s u a d ds wrong => exec_tileDrain_of_fenced
  case pass =>
    intro s j n wrong k rest g x hg hk hx hpass
    exact exec_chainCheck_of_pass hg hk hpass (by simp [hx])
  case rerun =>
    intro s u j n wrong k rest g x c hg hk hx hfails hother hu hc
    rw [exec_chainCheck_of_failure hg hk hfails ((canRerun_of_invoked hx).trans hother) (by simp [hx]), chainFails_of_invoked hu hx hc, rerunChain]
  case retract =>
    intro s j n wrong k rest g hg hk hx hrest hfails
    rw [exec_chainCheck_of_failure hg hk hfails (canRerun_of_provisional hx) (by simp [hrest]), chainFails_of_provisional hx]
  case waits =>
    intro s j n wrong k rest g x hg hk hx hfails hnone
    exact exec_chainCheck_of_waiting hg hk hfails ((canRerun_of_invoked hx).trans hnone)
  case refresh => exact fun s j => exec_refreshWaitExpiry_of_limited

end Sys2Proof.Machine

/-! PROOFS. LAYER, MAC, GATHER, DRAIN and WPASS (R230, R241, R252, R263, R265, R378, R379, R380, R381, R385). -/

namespace Sys2Proof.Machine

section pressInstructions

variable {s₀ s : State} {x : CtxId} {c : Ctx}

theorem exec_layer_of_kind (hc : s.ctx? x = some c) (hst : standsAt s x c 0x2F = true) (hlow : 1 ≤ c.imm % 256) (hhigh : c.imm % 256 ≤ 6) :
    exec (.layer x) s = .next (advance s x { c with layer := some (c.imm % 256) }) := by
  change execLayer x s = _
  rw [execLayer, instr_of_stands hc hst]
  exact congrArg Host.Outcome.next (if_pos ⟨hlow, hhigh⟩)

section mac

variable {phys : Fin 8} {ready wait : Nat} {rd : Option Round} {fresh : Bool}

theorem exec_mac_of_disabled (hs : s = replaceFenced s₀) (hc : s.ctx? x = some c) (hst : standsAt s x c 0x20 = true)
    (hoff : on s PRS_CTRL.ENABLE = false) : exec (.mac x phys ready wait) s₀ = .next s := by
  change execMac x phys ready wait s₀ = _
  rw [execMac, ← hs, instr_of_stands hc hst]
  exact congrArg Host.Outcome.next (if_pos (.inl (Bool.eq_false_iff.1 hoff)))

theorem exec_mac_of_good (hs : s = replaceFenced s₀) (hc : s.ctx? x = some c) (hst : standsAt s x c 0x20 = true)
    (hrd : (if mModeA c = 1 ∨ mModeB c = 2 then pickRound s c.job (mNewest c) else none) = rd)
    (hfresh : (chainAt c (mArray c) (mTile c)).isNone = fresh) (hon : on s PRS_CTRL.ENABLE = true)
    (hwrap : (mDrain c && !on s WRP_CTRL.ENABLE) = false) (hfits : arrayFits s x c phys fresh = true)
    (hheads : rangeFault s c (macHeads c) = none)
    (hok : (macOk s c rd && (!mDrain c || recordOk true (isSketch c) (drainRecord s c))) = true)
    (hspans : rangeFault s c (macSpans s c) = none) (hclean : firstPoison s c.job (macHeads c) = none) (hready : macWaits s c rd = false) :
    exec (.mac x phys ready wait) s₀ = .next (keyedMac s x c phys ready wait fresh rd) := by
  have hgo : ¬ (¬ on s PRS_CTRL.ENABLE = true ∨ (mDrain c = true ∧ ¬ on s WRP_CTRL.ENABLE = true) ∨ ¬ arrayFits s x c phys fresh = true) := by
    simpa [hon, hfits] using hwrap
  change execMac x phys ready wait s₀ = _
  rw [execMac, ← hs, instr_of_stands hc hst]
  simp only [hrd, hfresh, hgo, guarded_of_ok rfl hheads, guarded_of_ok hok hspans, unlessPoison_of_clean 5 hclean, hready, Bool.false_eq_true, if_false]

/-- The sign matrix without a drain needs the round's screening key alone (R252). -/
theorem keyedMac_of_sign {y : Round} {key : Key256} {t : State} (hdrain : mDrain c = false) (hsign : mModeA c = 1)
    (hkey : screeningKey s c.job y.number = (some key, t)) :
    keyedMac s x c phys ready wait fresh (some y) = runMac t x c phys ready wait fresh (some y) (some key) := by
  simp only [keyedMac, hdrain, hsign, hkey, Bool.false_and, Bool.false_eq_true, if_false]

end mac

theorem exec_gather_of_good (hc : s.ctx? x = some c) (hst : standsAt s x c 0x21 = true) (hon : on s WRP_CTRL.ENABLE = true)
    (hheads : rangeFault s c [(c.dst, 64), (c.sa, 64), (c.sb, 4 * c.imm)] = none)
    (hok : (recordOk true (isSketch c) (drainRecord s c) && headerSound c.sa (jobRead s c.job c.sa 64) &&
      ((List.range c.imm).map (gatherRow s c.job c.sb)).all (fun r => decide (r < thRows (jobRead s c.job c.sa 64)))) = true)
    (hspans : rangeFault s c (tensorSpans s c.job c.sa ++
      recordRanges s c.job (drainRecord s c) (thCols (jobRead s c.job c.sa 64)) ((c.ext 1 + c.imm) * thCols (jobRead s c.job c.sa 64))) = none)
    (hclean : firstPoison s c.job [(c.dst, 64), (c.sa, 64), (c.sb, 4 * c.imm)] = none)
    (hreads : firstPoison s c.job
      (gatherReads c (drainRecord s c) (jobRead s c.job c.sa 64) ((List.range c.imm).map (gatherRow s c.job c.sb))) = none)
    (hready : (wrStoch (drainRecord s c) && (c.roundKey.isNone && entropyStarting s)) = false) :
    exec (.gather x) s = .next (runGather s x c (drainRecord s c) ((List.range c.imm).map (gatherRow s c.job c.sb))) := by
  have hgo : ¬ (wrStoch (drainRecord s c) = true ∧ c.roundKey.isNone = true ∧ entropyStarting s = true) := by simpa using hready
  change execGather x s = _
  rw [execGather, instr_of_stands hc hst]
  simp only [hon, guarded_of_ok rfl hheads, unlessPoison_of_clean 9 hclean, guarded_of_ok hok hspans, unlessPoison_of_clean 9 hreads, hgo,
    not_true_eq_false, if_false]

section drain

variable {k : ChainRec}

theorem exec_drain_of_disabled (hs : s = replaceFenced s₀) (hc : s.ctx? x = some c) (hst : standsAt s x c 0x22 = true)
    (hk : chainAt c (mArray c) (mTile c) = some k) (hoff : on s WRP_CTRL.ENABLE = false) : exec (.drain x) s₀ = .next s := by
  change execDrain x s₀ = _
  rw [execDrain, ← hs, instr_of_stands hc hst]
  simp only [hk, hoff, Bool.false_eq_true, not_false_eq_true, true_or, if_true]

/-- A drain without stochastic rounding needs no key. -/
theorem exec_drain_of_good (hs : s = replaceFenced s₀) (hc : s.ctx? x = some c) (hst : standsAt s x c 0x22 = true)
    (hk : chainAt c (mArray c) (mTile c) = some k) (hon : on s WRP_CTRL.ENABLE = true) (hlive : unitState s 5 (Fin.ofNat 8 k.phys).val ≠ 1)
    (hhead : rangeFault s c [(c.dst, 64)] = none) (hok : recordOk true (isSketch c) (drainRecord s c) = true)
    (hspans : rangeFault s c (recordRanges s c.job (drainRecord s c) ((s.array (Fin.ofNat 8 k.phys)).tile k.tile).n
      (((s.array (Fin.ofNat 8 k.phys)).tile k.tile).m * ((s.array (Fin.ofNat 8 k.phys)).tile k.tile).n)) = none)
    (hclean : firstPoison s c.job [(c.dst, 64)] = none) (hexact : wrStoch (drainRecord s c) = false) :
    exec (.drain x) s₀ = .next (runDrain s x c (Fin.ofNat 8 k.phys) k.tile (drainRecord s c)) := by
  change execDrain x s₀ = _
  rw [execDrain, ← hs, instr_of_stands hc hst]
  simp only [hk, hon, hlive, guarded_of_ok rfl hhead, guarded_of_ok hok hspans, unlessPoison_of_clean 5 hclean, hexact, not_true_eq_false,
    Bool.false_eq_true, or_self, false_and, if_false]

end drain

/-- WPASS without stochastic rounding needs no key. -/
theorem exec_wpass_of_good (hc : s.ctx? x = some c) (hst : standsAt s x c 0x60 = true) (hon : on s WRP_CTRL.ENABLE = true)
    (hhead : rangeFault s c [(c.dst, 64)] = none)
    (hok : (recordOk false false (jobRead s c.job c.dst 64) &&
      !(wrNoise (jobRead s c.job c.dst 64) || wrCountNorm (jobRead s c.job c.dst 64) || wrMomentum (jobRead s c.job c.dst 64))) = true)
    (hspans : rangeFault s c ((c.sa, c.sb * srcBytes (wrSrc (jobRead s c.job c.dst 64))) ::
      recordRanges s c.job (jobRead s c.job c.dst 64) c.sb c.sb) = none)
    (hclean : firstPoison s c.job ((c.dst, 64) :: (c.sa, c.sb * srcBytes (wrSrc (jobRead s c.job c.dst 64))) ::
      channelRanges (jobRead s c.job c.dst 64) 0 c.sb) = none)
    (hexact : wrStoch (jobRead s c.job c.dst 64) = false) :
    exec (.wpass x) s = .next (
      let b := jobRead s c.job c.dst 64
      issueOp (deliver s x c.job b none (passElems s c.job b c.elems c.sa c.sb)) x 0 0) := by
  change execWpass x s = _
  rw [execWpass, instr_of_stands hc hst]
  simp only [hon, guarded_of_ok rfl hhead, guarded_of_ok hok hspans, unlessPoison_of_clean 9 hclean, runWpass, hexact, not_true_eq_false,
    Bool.false_and, Bool.false_eq_true, if_false]

end pressInstructions

/-- Settles O18: each instruction by the course that its hypotheses describe. -/
theorem pressAndWrapInstructionsRun : Obligations.PressAndWrapInstructionsRun := by
  refine ⟨?layer, ?mac, ?signMac, ?macWaits, ?gather, ?drain, ?drainWaits, ?wpass⟩
  case layer => exact fun s x c => exec_layer_of_kind
  case mac => exact fun s₀ s x c phys ready wait rd fresh => exec_mac_of_good
  case signMac =>
    intro s₀ s x c phys ready wait y fresh key t hs hc hst hrd hfresh hon hwrap hfits hheads hok hspans hclean hready hdrain hsign hkey
    rw [exec_mac_of_good hs hc hst hrd hfresh hon hwrap hfits hheads hok hspans hclean hready, keyedMac_of_sign hdrain hsign hkey]
  case macWaits => exact fun s₀ s x c phys ready wait => exec_mac_of_disabled
  case gather => exact fun s x c => exec_gather_of_good
  case drain => exact fun s₀ s x c k => exec_drain_of_good
  case drainWaits => exact fun s₀ s x c k => exec_drain_of_disabled
  case wpass => exact fun s x c => exec_wpass_of_good

end Sys2Proof.Machine

/-! PROOFS. Skim's instructions, FINISH and MASTER (R280, R285, R286, R287, R288, R291, R297, R385, R386). -/

namespace Sys2Proof.Machine

section selection

variable {s : State} {x : CtxId} {c : Ctx} {y : Round}

/-- What the four selections share: with their operands good, in reach and clean, the work over `k` records. -/
theorem skimOp_of_good {opc k : Nat} {smallest many : Bool} (hc : s.ctx? x = some c) (hst : standsAt s x c opc = true)
    (hon : on s SKM_CTRL.ENABLE = true) (hk : (if many then c.imm else 1) = k) (hsb : 1 ≤ c.sb) (hsb' : c.sb ≤ 2 ^ 32) (hpos : 1 ≤ k)
    (hmax : k ≤ 2 ^ 24) (hle : k ≤ c.sb)
    (hreach : rangeFault s c [(c.sa, c.sb * skimBytes (c.mod % 4)), (c.dst, 16 * k)] = none)
    (hclean : firstPoison s c.job [(c.sa, c.sb * skimBytes (c.mod % 4))] = none) :
    skimOp s x opc smallest many = runSkim s x c smallest many k := by
  have hok : decide (1 ≤ c.sb ∧ c.sb ≤ 2 ^ 32 ∧ 1 ≤ k ∧ k ≤ 2 ^ 24 ∧ k ≤ c.sb) = true := decide_eq_true ⟨hsb, hsb', hpos, hmax, hle⟩
  rw [skimOp, instr_of_stands hc hst]
  simp only [hk, hon, guarded_of_ok hok hreach, unlessPoison_of_clean 0 hclean, not_true_eq_false, if_false]

/-- MAXI and MINI store one record. -/
theorem skimOp_single_of_good {opc : Nat} {smallest : Bool} (hc : s.ctx? x = some c) (hst : standsAt s x c opc = true)
    (hon : on s SKM_CTRL.ENABLE = true) (hsb : 1 ≤ c.sb) (hsb' : c.sb ≤ 2 ^ 32)
    (hreach : rangeFault s c [(c.sa, c.sb * skimBytes (c.mod % 4)), (c.dst, 16 * 1)] = none)
    (hclean : firstPoison s c.job [(c.sa, c.sb * skimBytes (c.mod % 4))] = none) :
    skimOp s x opc smallest false = runSkim s x c smallest false 1 :=
  skimOp_of_good hc hst hon rfl hsb hsb' (Nat.le_refl 1) (by decide) hsb hreach hclean

/-- FARTHEST over as many entries as the screened cohorts have sketch entries. -/
theorem exec_farthest_of_good (hc : s.ctx? x = some c) (hst : standsAt s x c 0x74 = true) (hy : servedRound s c = some y)
    (hon : on s SKM_CTRL.ENABLE = true) (hsb : (c.sb == (screenSet s c.job y).length * polDirs (s.job c.job).policy) = true)
    (hreach : rangeFault s c [(c.sa, 8 * ((screenSet s c.job y).length * polDirs (s.job c.job).policy)),
      (c.dst, 16 * polMaxExcl (s.job c.job).policy)] = none)
    (hclean : firstPoison s c.job [(c.sa, 8 * ((screenSet s c.job y).length * polDirs (s.job c.job).policy))] = none) :
    exec (.farthest x) s = .next (
      let pol := (s.job c.job).policy
      let cs := screenSet s c.job y
      let sk := cs.zipIdx.map (fun e =>
        (e.1, (List.range (polDirs pol)).map (fun d => (jobWord s c.job (c.sa + 8 * (e.2 * polDirs pol + d))).toInt)))
      let n := cs.length * polDirs pol
      let t := pmu (count s SKM_ELEM_CNT.COUNT 0 0 n) 0x35 (some c.job) ((8 * n + 63) / 64)
      issueOp (jobStore t c.job c.dst (List.flatten ((flagged pol sk).map (fun f => toLe 8 f ++ toLe 4 f ++ toLe 4 0)))) x 0 0) := by
  change execFarthest x s = _
  rw [execFarthest, instr_of_stands hc hst]
  simp only [hy, hon, guarded_of_ok hsb hreach, unlessPoison_of_clean 0 hclean, not_true_eq_false, if_false]

end selection

section release

variable {s : State} {x : CtxId} {c : Ctx} {y : Round}

theorem finishOrPoison_of_clean {j : JobId} {r : Nat} (hlive : liveCohorts y ≠ []) (hclean : firstPoison s j (finishReads s j y) = none) :
    finishOrPoison s j r y = finishRound s j r y :=
  (if_neg hlive).trans (unlessPoison_of_clean 9 hclean)

/-- FINISH of a window that is finished or that the model has not (assumption 95). -/
theorem exec_finish_of_no_window (hc : s.ctx? x = some c) (hst : standsAt s x c 0x61 = true) (hy : servedRound s c = some y)
    (hno : c.imm < y.windowNo ∨ windowCount s c.job y.plan ≤ c.imm) : exec (.finish x) s = .next (faultAt s x c .operandMalformed) := by
  change execFinish x s = _
  rw [execFinish, instr_of_stands hc hst]
  simp only [hy, hno, if_true]

/-- FINISH of a window still to come goes on once the window is the round's next and Finish is due. -/
theorem exec_finish_of_window (hc : s.ctx? x = some c) (hst : standsAt s x c 0x61 = true) (hy : servedRound s c = some y)
    (hnew : y.windowNo ≤ c.imm) (hhas : c.imm < windowCount s c.job y.plan) :
    exec (.finish x) s =
      .next (if c.imm = y.windowNo ∧ finishDue s c.job y = true then finishOrPoison (issueOp s x 0 0) c.job y.number y else s) := by
  have hwindow : ¬ (c.imm < y.windowNo ∨ windowCount s c.job y.plan ≤ c.imm) := by omega
  change execFinish x s = _
  rw [execFinish, instr_of_stands hc hst]
  simp only [hy, hwindow, if_false]

theorem exec_master_of_staged (hc : s.ctx? x = some c) (hst : standsAt s x c 0x62 = true) (hy : servedRound s c = some y)
    (hstaged : staged s c.job y = true) (hon : on s WRP_CTRL.ENABLE = true) :
    exec (.master x) s = .next (issueOp (formCandidate s c.job y.number) x 0 0) := by
  change execMaster x s = _
  rw [execMaster, instr_of_stands hc hst]
  simp only [hy, hstaged, hon, not_true_eq_false, or_self, if_false]

end release

/-- Settles O21: each selection as `skimOp` with its direction and passes, and FINISH by whether its window is to come and Finish is due. -/
theorem selectionAndReleaseInstructionsRun : Obligations.SelectionAndReleaseInstructionsRun := by
  refine ⟨?maxi, ?mini, ?topk, ?botk, ?farthest, ?finish, ?finishWaits, ?finishMalformed, ?master⟩
  case maxi | mini =>
    intro s x c hc hst hon hsb hsb' hreach hclean
    exact congrArg Host.Outcome.next (skimOp_single_of_good hc hst hon hsb hsb' hreach hclean)
  case topk | botk =>
    intro s x c hc hst hon hsb hsb' hpos hmax hle hreach hclean
    exact congrArg Host.Outcome.next (skimOp_of_good hc hst hon rfl hsb hsb' hpos hmax hle hreach hclean)
  case farthest => exact fun _ _ _ _ => exec_farthest_of_good
  case finish =>
    intro s x c y hc hst hy hdue hnext hhas hlive hclean
    rw [exec_finish_of_window hc hst hy hnext.ge hhas, if_pos ⟨hnext, hdue⟩, finishOrPoison_of_clean hlive hclean]
  case finishWaits =>
    intro s x c y hc hst hy hwaits hnew hhas
    rw [exec_finish_of_window hc hst hy hnew hhas, if_neg (by simp [hwaits])]
  case finishMalformed => exact fun _ _ _ _ => exec_finish_of_no_window
  case master => exact fun _ _ _ _ => exec_master_of_staged

end Sys2Proof.Machine

/-! PROOFS. A member's manifest and the hash of its area (R344, R345, R346). -/

namespace Sys2Proof.Machine

/-! From the authenticated plaintext to the manifest's record. -/

section manifests

variable {s u : State} {q : Qpn} {stamp : Nat} {c pt : Bytes} {l : Look} {k : KeyRec} {g i : Nat}

/-- A member's chunk goes through the checks of every type to the manifest's own. -/
theorem exec_manifest_of_authentic (hu : takeChunk s q c = u) (hmember : memberChunk u q c = true) (hland : landed u q = true)
    (hlen : 32 ≤ c.length) (htype : hType c = 4) (hopen : judge u q stamp c = .open l) (hstand : standing l 4 = none) (hkey : l.key = some k)
    (hpt : openChunk k c = some pt) :
    exec (.manifest q stamp c) s = .next (admitManifest q c (pmu (lookupEntry u l) 0x03 (some l.job) ((hLen c + 63) / 64)) l pt) := by
  subst hu
  change Host.Outcome.next (if memberChunk (takeChunk s q c) q c then _ else _) = _
  rw [if_pos hmember, clientChunk_of_authentic hland hlen htype hopen hstand nofun hkey hpt]

/-- A manifest in form, which names its sender as member `i` of group `g` and the count of the records of that group (R345). -/
structure ManifestNames (l : Look) (pt : Bytes) (g i : Nat) : Prop where
  member : memberOf l.x.plan l.slot = some (g, i)
  length : pt.length = 64
  reserved : zeroAt pt 2 2 = true
  group : beAt pt 0 1 = g
  number : beAt pt 1 1 = i
  records : beAt pt 4 4 = (dirOf l.x g).length

theorem admitManifest_of_first {n : Nat} (hnames : ManifestNames l pt g i) (hfirst : lookup l.x.manifests l.slot = none)
    (hregion : regionOf s l.job 3 g i = some n) (hwrite : bit (fget s RDMA_REG_CFG.RIGHTS l.job n) 1 = true) :
    admitManifest q c s l pt =
      let s2 := s.modRound l.job l.r (fun x => { x with
        manifests := putN x.manifests l.slot ⟨g, i, slice pt 16 48, beAt pt 8 8, true, false, q, slice c 0 32, [], true⟩ })
      { fset s2 RDMA_REG_CFG.RIGHTS l.job n (fget s RDMA_REG_CFG.RIGHTS l.job n - 2) with
        revoking := s2.revoking ++ [(l.job.val, n, s2.now, true)]
        feOut := putN s2.feOut l.fe (readD 0 s2.feOut l.fe + 1) } := by
  obtain ⟨hmember, hlength, hreserved, hgroup, hnumber, hrecords⟩ := hnames
  simp only [admitManifest, hmember, hlength, hreserved, hgroup, hnumber, hrecords, hfirst, hregion, hwrite, fget_modRound, Option.map_none,
    Option.getD_none, ne_eq, not_true_eq_false, Bool.false_eq_true, or_self, if_false, if_true]

theorem admitManifest_of_hashing {m : Manifest} (hnames : ManifestNames l pt g i) (hprior : lookup l.x.manifests l.slot = some m)
    (hopen : m.admitted = false) (hhashing : m.hashing = true) :
    admitManifest q c s l pt =
      let s2 := s.modRound l.job l.r (fun x => { x with
        manifests := x.manifests.map (fun e => if e.1 == l.slot then (e.1, { e.2 with waiters := e.2.waiters ++ [(q.val, slice c 0 32)] }) else e) })
      { s2 with feOut := putN s2.feOut l.fe (readD 0 s2.feOut l.fe + 1) } := by
  obtain ⟨hmember, hlength, hreserved, hgroup, hnumber, hrecords⟩ := hnames
  simp only [admitManifest, hmember, hlength, hreserved, hgroup, hnumber, hrecords, hprior, hopen, hhashing, Option.map_some,
    Option.getD_some, ne_eq, not_true_eq_false, Bool.false_eq_true, or_self, if_false, if_true]

end manifests

/-! The hash of the area. -/

/-- With the revocation complete, the area's hash is judged. -/
theorem exec_manifestHashDone_of_revoked {s : State} {j : JobId} {r : Nat} {slot : Slot} {rd : Round} {m : Manifest} {x : PSet} {n : Nat}
    (hrd : s.round? j r = some rd) (hm : lookup rd.manifests slot.val = some m) (hx : pSet rd.plan = some x)
    (hregion : regionOf s j 3 m.group m.member = some n) (hhashing : m.hashing = true) (halive : s.alive j = true) (hon : rindOn s = true)
    (hrevoked : s.revoking.any (fun v => v.1 == j.val && v.2.1 == n) = false) :
    exec (.manifestHashDone j r slot) s = .next (hashDone s j r slot rd x m n) := by
  change execManifestHashDone j r slot s = _
  simp only [execManifestHashDone, hrd, hm, hx, hregion, hhashing, halive, hon, hrevoked, not_true_eq_false, Bool.false_eq_true, or_self, if_false]

/-- Settles O6: a manifest by whether one is being hashed, a hash by whether it is the digest that the manifest gives. -/
theorem manifestsAreHashed : Obligations.ManifestsAreHashed := by
  refine ⟨?first, ?waits, ?admitted, ?refused⟩
  case first =>
    intro s u q stamp c l k pt g i n hu hmember hland hlen htype hopen hstand hkey hpt hslot hlength hreserved hgroup hnumber hrecords hfirst hregion hwrite
    rw [exec_manifest_of_authentic hu hmember hland hlen htype hopen hstand hkey hpt,
      admitManifest_of_first ⟨hslot, hlength, hreserved, hgroup, hnumber, hrecords⟩ hfirst hregion hwrite]
  case waits =>
    intro s u q stamp c l k pt g i m hu hmember hland hlen htype hopen hstand hkey hpt hslot hlength hreserved hgroup hnumber hrecords hprior hnew hhashing
    rw [exec_manifest_of_authentic hu hmember hland hlen htype hopen hstand hkey hpt,
      admitManifest_of_hashing ⟨hslot, hlength, hreserved, hgroup, hnumber, hrecords⟩ hprior hnew hhashing]
  case admitted =>
    intro s j r slot rd m x n hrd hm hx hregion hhashing halive hon hrevoked hclean hdigest
    rw [exec_manifestHashDone_of_revoked hrd hm hx hregion hhashing halive hon hrevoked]
    exact congrArg Host.Outcome.next ((if_neg (Bool.eq_false_iff.1 hclean)).trans (if_pos hdigest))
  case refused =>
    intro s j r slot rd m x n hrd hm hx hregion hhashing halive hon hrevoked hclean hdigest
    rw [exec_manifestHashDone_of_revoked hrd hm hx hregion hhashing halive hon hrevoked]
    exact congrArg Host.Outcome.next ((if_neg (Bool.eq_false_iff.1 hclean)).trans (if_neg hdigest))

end Sys2Proof.Machine

/-! PROOFS. The instructions of Rind's sequencer (R326 to R328, R330, R332, R333, R338, R340, R346, R349, R387, R388). -/

namespace Sys2Proof.Machine

/-! The locks that an operation takes change no byte of a job. -/

section locked

variable {s : State} {x : CtxId} {j i : JobId} {hs : List Nat}

@[simp] theorem jobRead_takeLocks (a n : Nat) : jobRead (takeLocks s x i hs) j a n = jobRead s j a n := rfl

@[simp] theorem firstPoison_takeLocks (rs : List (Nat × Nat)) : firstPoison (takeLocks s x i hs) j rs = firstPoison s j rs := rfl

@[simp] theorem job_takeLocks : (takeLocks s x i hs).job j = s.job j := rfl

@[simp] theorem ctHead_takeLocks (a : Nat) : ctHead (takeLocks s x i hs) j a = ctHead s j a := jobRead_takeLocks a 64

@[simp] theorem loadCt_takeLocks (a : Nat) : loadCt (takeLocks s x i hs) j a = loadCt s j a := by
  simp only [loadCt, ctLimbs, ctHead_takeLocks, jobRead_takeLocks]

@[simp] theorem srcRanges_takeLocks : srcRanges (takeLocks s x i hs) j = srcRanges s j := by
  funext a
  simp only [srcRanges, ctData, ctHead_takeLocks]

@[simp] theorem loadAll_takeLocks (as : List Nat) : loadAll (takeLocks s x i hs) j as = loadAll s j as := by
  simp only [loadAll, loadCt_takeLocks, ctHead_takeLocks]

end locked

/-! An operation on handles, from its checks to its results. -/

/-- The checks of an operation on handles that come before their locks (R326, R353, R387). -/
structure RindChecked (s : State) (c : Ctx) (srcs dsts : List Nat) (extra : List (Nat × Nat)) (ok : Bool) (lev : Nat → Nat) : Prop where
  enabled : rindOn s = true
  unowned : (c.fromHost.isSome && (srcs ++ dsts).any (fun a => inReach s c.job a 64 && roundOwned s c.job a)) = false
  heads : (srcs ++ dsts).all (fun a => inReach s c.job a 64) = true
  layout : (ok && dsts.all (fun d => layoutOk (ctHead s c.job d) (((psetOf (chSet (ctHead s c.job (srcs.headD 0)))).map (·.n)).getD 0)
    (lev (chLevel (ctHead s c.job (srcs.headD 0)))))) = true
  reach : rangeFault s c (extra ++ srcs.flatMap (srcRanges s c.job) ++ dsts.flatMap (fun d => [(d, 64),
    ctData s c.job d (((psetOf (chSet (ctHead s c.job (srcs.headD 0)))).map (·.n)).getD 0) (lev (chLevel (ctHead s c.job (srcs.headD 0))))])) = none

/-- What an operation's handles and sources are as it starts: no handle locked, no line and no source poisoned, each source a ciphertext (R327, R328, R333). -/
structure RindLoaded (s : State) (x : CtxId) (c : Ctx) (srcs dsts : List Nat) (extra : List (Nat × Nat)) (cs : List (PSet × Ct)) : Prop where
  unlocked : lockBlocked s x c.job (srcs ++ dsts) = false
  clean : firstPoison s c.job (extra ++ srcs.flatMap (srcRanges s c.job)) = none
  sound : srcs.any (fun a => chPoison (ctHead s c.job a)) = false
  loads : loadAll s c.job srcs = some cs

section operations

variable {s t : State} {x : CtxId} {c : Ctx} {j : JobId} {bad : Nat} {srcs dsts : List Nat} {extra : List (Nat × Nat)} {ok : Bool}
  {lev : Nat → Nat} {work : List (PSet × Ct) → RindWork} {cs : List (PSet × Ct)} {rs : List Ct} {ntt : Bool} {f : RindCounts}

theorem withLocks_of_blocked {hs : List Nat} {go : State → State} (hlocked : lockBlocked s x j hs = true) :
    withLocks x j hs go s = awaitLocks s x j hs :=
  if_pos hlocked

theorem withLocks_of_free {hs : List Nat} {go : State → State} (hfree : lockBlocked s x j hs = false) :
    withLocks x j hs go s = go (takeLocks s x j hs) :=
  if_neg (Bool.eq_false_iff.1 hfree)

/-- An operation whose operands are in order starts, or waits for its handles. -/
theorem rindOp_of_checked (h : RindChecked s c srcs dsts extra ok lev) :
    rindOp s x c srcs dsts extra ok lev bad work = withLocks x c.job (srcs ++ dsts) (fun t =>
      unlessPoison t c.job 6 (extra ++ srcs.flatMap (srcRanges t c.job)) (rindFinish t x c.job dsts bad (onSources t c.job srcs work))) s := by
  obtain ⟨hon, hunowned, hheads, hlayout, hreach⟩ := h
  have hpublic : ¬ (c.fromHost.isSome = true ∧ (srcs ++ dsts).any (fun a => inReach s c.job a 64 && roundOwned s c.job a) = true) := by
    rw [← Bool.and_eq_true, hunowned]; decide
  simp only [rindOp, hon, if_neg hpublic, hheads, guarded_of_ok hlayout hreach, not_true_eq_false, if_false]

/-- An operation of which a handle is locked waits in its place (R327). -/
theorem rindOp_of_locked (h : RindChecked s c srcs dsts extra ok lev) (hlocked : lockBlocked s x c.job (srcs ++ dsts) = true) :
    rindOp s x c srcs dsts extra ok lev bad work = awaitLocks s x c.job (srcs ++ dsts) :=
  (rindOp_of_checked h).trans (withLocks_of_blocked hlocked)

theorem onSources_of_sound (hsound : srcs.any (fun a => chPoison (ctHead s j a)) = false) (hloads : loadAll s j srcs = some cs) :
    onSources s j srcs work = work cs := by
  simp only [onSources, hsound, hloads, Bool.false_eq_true, if_false]

theorem rindFinish_of_results (hwithin : rs.any (fun r => decide (r.budget < 0)) = false) (hpasses : bad ≠ 2) :
    rindFinish s x j dsts bad (.ok (rs, ntt, f)) =
      issueOp ((dsts.zip rs).foldl (fun t e => storeCt t j e.1 e.2) (residueRuns (rindCounts s j f bad) ntt bad)) x 0 0 := by
  simp only [rindFinish, hwithin, hpasses, Bool.false_eq_true, if_false]

/-- An operation that starts locks its handles, runs, and stores its results (R327, R330). -/
theorem rindOp_of_results (h : RindChecked s c srcs dsts extra ok lev) (hl : RindLoaded s x c srcs dsts extra cs)
    (ht : t = takeLocks s x c.job (srcs ++ dsts)) (hwork : work cs = .ok (rs, ntt, f))
    (hwithin : rs.any (fun r => decide (r.budget < 0)) = false) (hpasses : bad ≠ 2) :
    rindOp s x c srcs dsts extra ok lev bad work =
      issueOp ((dsts.zip rs).foldl (fun u e => storeCt u c.job e.1 e.2) (residueRuns (rindCounts t c.job f bad) ntt bad)) x 0 0 := by
  obtain ⟨hfree, hclean, hsound, hloads⟩ := hl
  subst ht
  have hclean' : firstPoison (takeLocks s x c.job (srcs ++ dsts)) c.job
      (extra ++ srcs.flatMap (srcRanges (takeLocks s x c.job (srcs ++ dsts)) c.job)) = none := by
    simpa only [firstPoison_takeLocks, srcRanges_takeLocks] using hclean
  have hsources : onSources (takeLocks s x c.job (srcs ++ dsts)) c.job srcs work = .ok (rs, ntt, f) := by
    rw [onSources_of_sound (cs := cs) (by simpa only [ctHead_takeLocks] using hsound) (by rwa [loadAll_takeLocks]), hwork]
  rw [rindOp_of_checked h, withLocks_of_free hfree, unlessPoison_of_clean 6 hclean', hsources, rindFinish_of_results hwithin hpasses]

/-- The same of an operation with one destination and one result. -/
theorem rindOp_of_result {d : Nat} {r : Ct} (h : RindChecked s c srcs [d] extra ok lev) (hl : RindLoaded s x c srcs [d] extra cs)
    (ht : t = takeLocks s x c.job (srcs ++ [d])) (hwork : work cs = .ok ([r], ntt, f)) (hwithin : 0 ≤ r.budget) (hpasses : bad ≠ 2) :
    rindOp s x c srcs [d] extra ok lev bad work = issueOp (storeCt (residueRuns (rindCounts t c.job f bad) ntt bad) c.job d r) x 0 0 :=
  rindOp_of_results h hl ht hwork (by simpa using hwithin) hpasses

end operations

/-! The refresh. -/

section refresh

variable {s : State} {x : CtxId} {c : Ctx}

theorem startRefresh_of_room (hsound : chPoison (ctHead s c.job c.sa) = false) (hloads : (loadCt s c.job c.sa).isNone = false)
    (hboth : chC1Only (ctHead s c.job c.sa) = false) (hroom : (s.job c.job).refresh.length < 64) : startRefresh s x c = queueRefresh s x c := by
  simp only [startRefresh, hsound, hloads, hboth, Nat.not_le.2 hroom, Bool.false_eq_true, or_self, if_false]

/-- REFRESH locks its handles and goes to the queue. -/
theorem exec_refresh_of_stands (hc : s.ctx? x = some c) (hst : standsAt s x c 0x86 = true) (hon : rindOn s = true)
    (hunowned : (c.fromHost.isSome && [c.sa, c.dst].any (fun a => inReach s c.job a 64 && roundOwned s c.job a)) = false)
    (hlayout : (decide (c.imm < 4) && layoutOk (ctHead s c.job c.dst) (((psetOf (chSet (ctHead s c.job c.sa))).map (·.n)).getD 0)
      (((psetOf (chSet (ctHead s c.job c.sa))).map (·.gam.length)).getD 0)) = true)
    (hreach : rangeFault s c (srcRanges s c.job c.sa ++ [(c.dst, 64), ctData s c.job c.dst
      (((psetOf (chSet (ctHead s c.job c.sa))).map (·.n)).getD 0) (((psetOf (chSet (ctHead s c.job c.sa))).map (·.gam.length)).getD 0)]) = none)
    (hfree : lockBlocked s x c.job [c.sa, c.dst] = false) (hclean : firstPoison s c.job (srcRanges s c.job c.sa) = none) :
    exec (.refresh x) s = .next (startRefresh (takeLocks s x c.job [c.sa, c.dst]) x c) := by
  have hpublic : ¬ (c.fromHost.isSome = true ∧ [c.sa, c.dst].any (fun a => inReach s c.job a 64 && roundOwned s c.job a) = true) := by
    rw [← Bool.and_eq_true, hunowned]; decide
  have hclean' : firstPoison (takeLocks s x c.job [c.sa, c.dst]) c.job (srcRanges (takeLocks s x c.job [c.sa, c.dst]) c.job c.sa) = none := by
    rwa [firstPoison_takeLocks, srcRanges_takeLocks]
  change execRefresh x s = _
  rw [execRefresh, instr_of_stands hc hst]
  simp only [hon, if_neg hpublic, guarded_of_ok hlayout hreach, withLocks_of_free hfree, unlessPoison_of_clean 6 hclean', not_true_eq_false, if_false]

end refresh

/-! A round's own operations on its groups. -/

section groups

variable {s : State} {x : CtxId} {c : Ctx} {y : Round} {badRuns : Fin 3} {g : Fin 4} {r : RindStat × State}

theorem exec_exportCt_of_closed (hc : s.ctx? x = some c) (hst : standsAt s x c 0x87 = true) (hy : servedRound s c = some y)
    (hon : rindOn s = true) (hculture : cultureOn s = true) (hsealed : pSealed y.plan = true) (hk : c.imm < pCohortCount y.plan)
    (hlive : (y.cohort c.imm).reason = 0) (hclosed : y.closed = true)
    (hr : (presentGroups y).foldl (exportOne c.job y.number c.imm g badRuns) (RindStat.ok, s) = r) :
    exec (.exportCt x badRuns g) s =
      .next (if r.1 = .ok then issueOp r.2 x 0 0 else issueOp (tryDecode r.2 c.job y.number) x 5 r.1.code) := by
  change execExportCt x badRuns g s = _
  rw [execExportCt, instr_of_stands hc hst]
  simp only [hy, hon, hculture, hsealed, Nat.not_le.2 hk, hlive, hclosed, hr, ne_eq, not_true_eq_false, or_self, if_false]

theorem exec_decode_of_complete (hc : s.ctx? x = some c) (hst : standsAt s x c 0x88 = true) (hy : servedRound s c = some y)
    (hsealed : pSealed y.plan = true) (hk : c.imm < pCohortCount y.plan) (hon : rindOn s = true)
    (henough : groupsWanted s y ≤ (usableGroups y).length)
    (hr : decodeCohort s c.job y.number c.imm (((usableGroups y).take (groupsWanted s y)).map (fun h => (h, badOf g badRuns h))) = r) :
    exec (.decode x badRuns g) s =
      .next (if r.1 = .ok then issueOp r.2 x 0 0 else issueOp (tryDecode r.2 c.job y.number) x 5 r.1.code) := by
  have htaken : ¬ ((usableGroups y).take (groupsWanted s y)).length < groupsWanted s y := by
    rw [List.length_take, Nat.min_eq_left henough]; exact Nat.lt_irrefl _
  change execDecode x badRuns g s = _
  rw [execDecode, instr_of_stands hc hst]
  simp only [hy, hsealed, Nat.not_le.2 hk, hon, htaken, hr, not_true_eq_false, or_self, if_false]

end groups

/-- Settles O22: each operation on handles by the same checks, sources and work, a round's own operation by its groups. -/
theorem rindInstructionsRun : Obligations.RindInstructionsRun := by
  refine ⟨?add, ?sub, ?mulc, ?padd, ?modsw, ?ksw, ?waits, ?refresh, ?exportCt, ?decode⟩
  case add =>
    intro s t x c y z a b badRuns hc hst hon hunowned hheads hlayout hreach hfree hclean hsound ht hloads hform hwithin hpasses
    refine congrArg Host.Outcome.next ((instr_of_stands hc hst).trans
      (rindOp_of_result ⟨hon, hunowned, hheads, hlayout, hreach⟩ ⟨hfree, hclean, hsound, hloads⟩ ht ?_ hwithin hpasses))
    exact if_neg (not_not_intro hform)
  case sub =>
    intro s t x c y z a b badRuns hc hst hon hunowned hheads hlayout hreach hfree hclean hsound ht hloads hform hwithin hpasses
    refine congrArg Host.Outcome.next ((instr_of_stands hc hst).trans
      (rindOp_of_result ⟨hon, hunowned, hheads, hlayout, hreach⟩ ⟨hfree, hclean, hsound, hloads⟩ ht ?_ hwithin hpasses))
    exact if_neg (not_not_intro hform)
  case mulc =>
    intro s t x c y a badRuns hc hst hon hunowned hheads hlayout hreach hfree hclean hsound ht hloads hwithin hpasses
    exact congrArg Host.Outcome.next ((instr_of_stands hc hst).trans
      (rindOp_of_result ⟨hon, hunowned, hheads, hlayout, hreach⟩ ⟨hfree, hclean, hsound, hloads⟩ ht rfl hwithin hpasses))
  case padd =>
    intro s t x c y a badRuns hc hst hon hunowned hheads hlayout hreach hfree hclean hsound ht hloads hwithin hpasses
    exact congrArg Host.Outcome.next ((instr_of_stands hc hst).trans
      (rindOp_of_result ⟨hon, hunowned, hheads, hlayout, hreach⟩ ⟨hfree, hclean, hsound, hloads⟩ ht rfl hwithin hpasses))
  case modsw =>
    intro s t x c y a badRuns hc hst hon hunowned hheads hlayout hreach hfree hclean hsound ht hloads hwithin hpasses
    exact congrArg Host.Outcome.next ((instr_of_stands hc hst).trans
      (rindOp_of_result ⟨hon, hunowned, hheads, hlayout, hreach⟩ ⟨hfree, hclean, hsound, hloads⟩ ht rfl hwithin hpasses))
  case ksw =>
    intro s t x c cs rs ntt f badRuns hc hst hon hunowned hheads hlayout hreach hfree hclean hsound ht hloads hswitch hwithin hpasses hculture hpairs
    refine congrArg Host.Outcome.next ((instr_of_stands hc hst).trans ?_)
    refine (if_neg (not_not_intro hculture)).trans ((if_neg (not_not_intro hpairs)).trans ?_)
    exact rindOp_of_results ⟨hon, hunowned, hheads, hlayout, hreach⟩ ⟨hfree, hclean, hsound, hloads⟩ ht hswitch hwithin hpasses
  case waits =>
    intro s x c n badRuns cmd hc hcmd hst hon hunowned hheads hlayout hreach hlocked
    have hchecked : RindChecked s c [c.sa, c.sb] [c.dst] [] true id := ⟨hon, hunowned, hheads, by simpa using hlayout, by simpa using hreach⟩
    obtain ⟨rfl, rfl⟩ | ⟨rfl, rfl⟩ := hcmd
    · exact congrArg Host.Outcome.next ((instr_of_stands hc hst).trans (rindOp_of_locked hchecked hlocked))
    · exact congrArg Host.Outcome.next ((instr_of_stands hc hst).trans (rindOp_of_locked hchecked hlocked))
  case refresh =>
    rintro s _ x c hc hst hon hunowned hlayout hreach hfree hclean hsound hloads hboth hroom rfl
    rw [exec_refresh_of_stands hc hst hon hunowned hlayout hreach hfree hclean,
      startRefresh_of_room (by rwa [ctHead_takeLocks]) (by rwa [loadCt_takeLocks]) (by rwa [ctHead_takeLocks]) (by rwa [job_takeLocks])]
    rfl
  case exportCt => exact fun _ _ _ _ _ _ _ => exec_exportCt_of_closed
  case decode =>
    rintro s x c y badRuns g _ r hc hst hy rfl hsealed hk hon henough hr
    exact exec_decode_of_complete hc hst hy hsealed hk hon henough hr

end Sys2Proof.Machine

/-! PROOFS. The control instructions of a recipe (R370, R371, R372, R374, R376, R391). -/

namespace Sys2Proof.Machine

section control

variable {s : State} {x : CtxId} {c : Ctx}

theorem exec_endRecipe_of_done (hc : s.ctx? x = some c) (hst : standsAt s x c 0x01 = true) (hdone : c.issued.isEmpty = true)
    (hchecked : groupPending s c = false) : exec (.endRecipe x) s = .next (endInvoke (issueWords s x c 1) x .ok 0 0 c.pc) := by
  change execEndRecipe x s = _
  rw [execEndRecipe, instr_of_stands hc hst]
  simp only [hdone, hchecked, Bool.false_eq_true, not_true_eq_false, not_false_eq_true, if_false, if_true]

/-- The passes that a LOOP opens. -/
def loopCount (c : Ctx) : Nat := if bit c.mod 0 then c.sa else c.imm % 2 ^ 24

/-- The context with a LOOP's index register at 0, where it has one. -/
def loopStart (c : Ctx) : Ctx := if bit c.mod 1 then c.setReg (iDst c.word) 0 else c

/-- LOOP of a count that it may have opens its passes, or skips past its ENDLOOP. -/
theorem exec_loop_of_count (hc : s.ctx? x = some c) (hst : standsAt s x c 0x02 = true) (hlt : loopCount c < 2 ^ 24) :
    exec (.loop x) s = .next (if loopCount c = 0 then advanceTo s x (loopStart c) (matchEnd c.words c.words.length (c.pc + 1) 0 + 1)
      else advance s x { loopStart c with
        loops := ⟨c.pc + 1, loopCount c, if bit c.mod 1 then some (iDst c.word) else none⟩ :: (loopStart c).loops }) := by
  change execLoop x s = _
  rw [execLoop, instr_of_stands hc hst]
  exact congrArg Host.Outcome.next (if_neg (Nat.not_le.2 hlt))

section endLoop

variable {f : LoopFrame} {fs : List LoopFrame}

theorem exec_endLoop_of_last (hc : s.ctx? x = some c) (hst : standsAt s x c 0x03 = true) (hloops : c.loops = f :: fs) (hidx : f.idx = none)
    (hlast : f.left ≤ 1) : exec (.endLoop x) s = .next (advance s x { c with loops := fs }) := by
  change execEndLoop x s = _
  rw [execEndLoop, instr_of_stands hc hst]
  simp only [hloops, hidx, hlast, if_true]

/-- ENDLOOP with a pass left counts its index register up and goes back to the body. -/
theorem exec_endLoop_of_left {i : Nat} (hc : s.ctx? x = some c) (hst : standsAt s x c 0x03 = true) (hloops : c.loops = f :: fs)
    (hidx : f.idx = some i) (hleft : 1 < f.left) :
    exec (.endLoop x) s =
      .next (advanceTo s x { c.setReg i (c.reg i + 1) with loops := { f with left := f.left - 1 } :: fs } f.body) := by
  change execEndLoop x s = _
  rw [execEndLoop, instr_of_stands hc hst]
  simp only [hloops, hidx, Nat.not_le.2 hleft, if_false]

end endLoop

theorem exec_ldp_of_good {a : Nat} (hc : s.ctx? x = some c) (hst : standsAt s x c 0x09 = true)
    (ha : (c.reg (iSa c.word) + BitVec.ofInt 64 (signed 32 c.imm)).toNat = a) (halign : a % 8 = 0)
    (hreach : rangeFault s c [(a, 8)] = none) (hclean : poisoned s c.job a 8 = false) :
    exec (.ldp x) s = .next (advance s x (c.setReg (iDst c.word) (jobWord s c.job a))) := by
  change execLdp x s = _
  rw [execLdp, instr_of_stands hc hst]
  simp only [Ctx.simm, ha, guarded_of_ok (beq_iff_eq.2 halign) hreach, hclean, Bool.false_eq_true, if_false, setDst]

theorem exec_waitEvt_of_fired {t : Nat} (hc : s.ctx? x = some c) (hst : standsAt s x c 0x0F = true) (hwait : c.wait = some t)
    (hfired : c.fired.contains (c.imm % 4096 + 4096) = true) : exec (.waitEvt x) s = .next (advance s x { c with wait := none }) := by
  change execWaitEvt x s = _
  rw [execWaitEvt, instr_of_stands hc hst]
  simp only [hwait, hfired, Option.isSome_some, if_true]

/-- WAIT_EVT of an event of the job that it has not seen notes the wait. -/
theorem exec_waitEvt_of_unseen (hc : s.ctx? x = some c) (hst : standsAt s x c 0x0F = true)
    (harmed : (lookup s.armed (c.imm % 4096)).map (·.job) = some c.job.val) (hwait : c.wait = none)
    (hunseen : (bit c.mod 0 && c.fired.contains (c.imm % 4096)) = false) :
    exec (.waitEvt x) s = .next (s.setCtx x { c with wait := some s.now, fired := c.fired.filter (fun n => decide (n < 4096)) }) := by
  change execWaitEvt x s = _
  rw [execWaitEvt, instr_of_stands hc hst]
  simp only [hwait, hunseen, harmed, Option.isSome_none, Bool.false_eq_true, ne_eq, not_true_eq_false, if_false]

end control

/-- Settles O17: each instruction by what it does where its context stands at it. -/
theorem controlInstructionsRun : Obligations.ControlInstructionsRun := by
  refine ⟨?nop, ?endRecipe, ?loop, ?loopNone, ?endLoopLast, ?endLoopNext, ?movi, ?movhi, ?addi, ?add, ?shli, ?ldp, ?skipz, ?skipnz, ?fence,
    ?waitCnt, ?signal, ?waitEvtFired, ?waitEvt⟩
  case nop | movi | movhi | addi | add | shli | skipz | skipnz =>
    exact fun s x c hc hst => congrArg Host.Outcome.next (instr_of_stands hc hst)
  case endRecipe => exact fun _ _ _ => exec_endRecipe_of_done
  case loop =>
    intro s x c hc hst hlt hpos
    exact (exec_loop_of_count hc hst hlt).trans (congrArg _ (if_neg hpos))
  case loopNone =>
    intro s x c hc hst hzero
    have hlt : loopCount c < 2 ^ 24 := by rw [loopCount, hzero]; decide
    exact (exec_loop_of_count hc hst hlt).trans (congrArg _ (if_pos hzero))
  case endLoopLast => exact fun _ _ _ _ _ => exec_endLoop_of_last
  case endLoopNext => exact fun _ _ _ _ _ _ => exec_endLoop_of_left
  case ldp => exact fun _ _ _ _ => exec_ldp_of_good
  case fence | signal =>
    exact fun s x c hc hst hdone => congrArg Host.Outcome.next ((instr_of_stands hc hst).trans (if_pos hdone))
  case waitCnt =>
    exact fun s x c hc hst hreached => congrArg Host.Outcome.next ((instr_of_stands hc hst).trans (if_pos hreached))
  case waitEvtFired => exact fun _ _ _ _ => exec_waitEvt_of_fired
  case waitEvt => exact fun _ _ _ => exec_waitEvt_of_unseen

end Sys2Proof.Machine

/-! PROOFS. INVOKE and the invocation watchdog (R355, R363, R364, R389, R394, R413). -/

namespace Sys2Proof.Machine

section invocations

variable {s t : State} {j : JobId} {w : Waiting} {q : Nat} {ws : List Word} {c : Fin 32}

/-- An invocation that passes the checks wakes its engine's cluster, then starts or waits behind its job's others. -/
theorem arriveInvoke_of_ok (hok : invocationCheck s w = .ok (q, ws)) (ht : wakeCluster s (seqCluster q) = t) :
    arriveInvoke s w = if waitsBehind t w then { t with waiting := t.waiting ++ [w] } else startInvoke t w := by
  simp only [arriveInvoke, hok, ht]

theorem arriveInvoke_of_error {st : RStat} (hbad : invocationCheck s w = .error st) : arriveInvoke s w = refuseInvoke s w st := by
  simp only [arriveInvoke, hbad]

theorem startInvoke_of_free (hok : invocationCheck s w = .ok (q, ws)) (hfree : freeCtx s (q - 1) w.job = some c) :
    startInvoke s w = { s with contexts := putN s.contexts ((q - 1) * 32 + c.val) (newCtx s w ws) } := by
  simp only [startInvoke, hok, hfree]

/-- An invocation that passes the checks, with no other of its job before it, starts in the lowest free context (assumption 76). -/
theorem arriveInvoke_of_free (hok : invocationCheck s w = .ok (q, ws)) (ht : wakeCluster s (seqCluster q) = t) (hfirst : waitsBehind t w = false)
    (hstill : invocationCheck t w = .ok (q, ws)) (hfree : freeCtx t (q - 1) w.job = some c) :
    arriveInvoke s w = { t with contexts := putN t.contexts ((q - 1) * 32 + c.val) (newCtx t w ws) } := by
  rw [arriveInvoke_of_ok hok ht, hfirst, if_neg Bool.false_ne_true, startInvoke_of_free hstill hfree]

/-- An INVOKE descriptor that may start names an invocation that arrives. -/
theorem exec_invoke_of_startable {d : Desc} (hrun : abortRuns s j = false) (hd : startable s (vfOf j) 0x11 = some d)
    (hj : (takeDesc s (vfOf j) d).alive j = true) :
    exec (.invoke j none) s = .next (arriveInvoke (takeDesc s (vfOf j) d) (descInvoke j d.bytes)) :=
  congrArg Host.Outcome.next (startVf_of_alive hrun hd rfl hj)

/-- A round core's invocation of a live job arrives. -/
theorem exec_invoke_of_core (i : CoreInvoke) (hj : s.alive j = true) :
    exec (.invoke j (some i)) s = .next (arriveInvoke s ⟨j, i.slot, i.args, none, some i.round⟩) :=
  congrArg Host.Outcome.next (if_pos hj)

theorem exec_invokeTimeout_of_over {x : CtxId} {c : Ctx} (hc : s.ctx? x = some c) (hhost : c.fromHost.isSome = true)
    (hlimit : get1 s HIF_RCP_WDOG.MS ≠ 0) (hover : get1 s HIF_RCP_WDOG.MS * 10 ^ 6 < s.now - c.start) (hruns : c.ending = none)
    (hj : s.alive c.job = true) :
    exec (.invokeTimeout x) s =
      .next (dropRefresh (stopWith s x .timeout 0 0 c.pc) c.job (fun o => o.ctx == ctxNo x && o.joined.isNone)) := by
  have hdesc : c.fromHost.isNone = false := by rw [← Option.not_isSome, hhost]; rfl
  change execInvokeTimeout x s = _
  simp only [execInvokeTimeout, hc, hdesc, hlimit, Nat.not_le.2 hover, hruns, hj, Option.isSome_none, Bool.false_eq_true, not_true_eq_false,
    or_self, if_false]

end invocations

/-- Settles O24: an invocation arrives from its descriptor or its round core, and starts, waits or is refused by the checks of its recipe. -/
theorem invokeStartsRecipes : Obligations.InvokeStartsRecipes := by
  refine ⟨?starts, ?refused, ?coreStarts, ?coreWaits, ?timeout⟩
  case starts =>
    rintro s j d _ q ws t c hrun hd hj rfl hok ht hfirst hstill hfree
    rw [exec_invoke_of_startable hrun hd hj]
    exact congrArg Host.Outcome.next (arriveInvoke_of_free hok ht hfirst hstill hfree)
  case refused =>
    rintro s j d _ st hrun hd hj rfl hbad
    rw [exec_invoke_of_startable hrun hd hj]
    exact congrArg Host.Outcome.next (arriveInvoke_of_error hbad)
  case coreStarts =>
    rintro s j i _ q ws t c hj rfl hok ht hfirst hstill hfree
    rw [exec_invoke_of_core i hj, arriveInvoke_of_free hok ht hfirst hstill hfree]
  case coreWaits =>
    rintro s j i _ q ws t hj rfl hok ht hbehind
    rw [exec_invoke_of_core i hj, arriveInvoke_of_ok hok ht, if_pos hbehind]
  case timeout => exact fun _ _ _ => exec_invokeTimeout_of_over

end Sys2Proof.Machine

/-! PROOFS. The end of work that an instruction issued (R369, R389, R390). -/

namespace Sys2Proof.Machine

section issuedWork

variable {s₀ s : State} {x : CtxId} {n : Nat} {c : Ctx} {o : IssuedOp}

theorem locks_macDone : (macDone s x n).locks = s.locks := by
  unfold macDone
  split <;> rfl

/-- The state with issued work gone from its arrays, its invocation's list and its locks. -/
def workGone (s : State) (x : CtxId) (n : Nat) : State :=
  { (macDone s x n).modCtx x (fun c => { c with issued := c.issued.filter (fun o => o.id != n) }) with
    locks := s.locks.filter (fun l => !(l.ctx == ctxNo x && l.op == n)) }

theorem exec_issuedWorkComplete_of_acting (hs : s = replaceFenced s₀) (hc : s.ctx? x = some c)
    (ho : c.issued.find? (fun o => o.id == n) = some o) (hacts : stillActing s c.job x n = true) :
    exec (.issuedWorkComplete x n) s₀ = .next s := by
  change execIssuedWorkComplete x n s₀ = _
  simp only [execIssuedWorkComplete, ← hs, hc, ho, hacts, if_true]

/-- Work that acts no longer is gone, and its status decides how its invocation goes on. -/
theorem exec_issuedWorkComplete_of_done (hs : s = replaceFenced s₀) (hc : s.ctx? x = some c)
    (ho : c.issued.find? (fun o => o.id == n) = some o) (hdone : stillActing s c.job x n = false) :
    exec (.issuedWorkComplete x n) s₀ = .next (if o.space = 0 ∧ o.detail = 0 then settleEnd (workGone s x n) x
      else stopWith (workGone s x n) x .engineStatus o.space o.detail o.pc) := by
  change execIssuedWorkComplete x n s₀ = _
  simp only [execIssuedWorkComplete, ← hs, hc, ho, hdone, Bool.false_eq_true, if_false, locks_macDone, workGone]

end issuedWork

/-- Settles O44: by whether the work still acts, and by its status. -/
theorem issuedWorkEnds : Obligations.IssuedWorkEnds := by
  refine ⟨?settles, ?stops, ?stays⟩
  case settles =>
    rintro s₀ s _ x n c o hs hc ho hdone rfl hspace hdetail
    exact (exec_issuedWorkComplete_of_done hs hc ho hdone).trans (congrArg _ (if_pos ⟨hspace, hdetail⟩))
  case stops =>
    rintro s₀ s _ x n c o hs hc ho hdone rfl hstatus
    exact (exec_issuedWorkComplete_of_done hs hc ho hdone).trans (congrArg _ (if_neg (by tauto)))
  case stays => exact fun _ _ _ _ _ _ => exec_issuedWorkComplete_of_acting

end Sys2Proof.Machine

/-! PROOFS. What the narrow commands leave unchanged (R370, R440, R448, R495, R558, R601, R610, R650). -/

namespace Sys2Proof.Machine

/-! A frame: the state that a command leaves, with the fields that it may change put back from the state before. -/

/-- A command answers a state that is `s` once `restore` has put the fields of a frame back. -/
def Leaves (restore : State → State → State) (s : State) (r : Res) : Prop := ∃ t, r = .next t ∧ restore s t = s

theorem Leaves.restored {restore : State → State → State} {s t : State} {r : Res} (h : Leaves restore s r) (ht : r = .next t) :
    restore s t = s := by
  obtain ⟨u, hu, hrestored⟩ := h
  cases hu.symm.trans ht
  exact hrestored

/-! The control instructions: the context's own entry and the sampling countdown. -/

/-- The contexts and the sampling countdown of `s₀` put back. -/
def restoreContexts (s₀ s : State) : State := { s with contexts := s₀.contexts, countdown := s₀.countdown }

section contexts

variable {s : State} {x : CtxId} {opc : Nat} {run : Ctx → State}

/-- A control instruction waits in its place, or moves its context on. -/
def Moves (s : State) (x : CtxId) (t : State) : Prop := t = s ∨ ∃ c pc, t = advanceTo s x c pc

theorem moves_advanceTo (c : Ctx) (pc : Nat) : Moves s x (advanceTo s x c pc) := .inr ⟨c, pc, rfl⟩

theorem moves_advance (c : Ctx) : Moves s x (advance s x c) := moves_advanceTo c _

theorem Moves.ite {p : Prop} [Decidable p] {t u : State} (ht : Moves s x t) (hu : Moves s x u) : Moves s x (if p then t else u) := by
  split
  · exact ht
  · exact hu

theorem moves_instr (h : ∀ c, Moves s x (run c)) : Moves s x (instr s x opc run) := by
  unfold instr
  split
  · exact .inl rfl
  · exact .ite (h _) (.inl rfl)

theorem moves_endLoop : ∃ t, exec (.endLoop x) s = .next t ∧ Moves s x t := by
  refine ⟨_, rfl, moves_instr fun c => ?_⟩
  dsimp only
  split
  · exact moves_advance c
  · exact .ite (moves_advance _) (moves_advanceTo _ _)

theorem restoreContexts_advanceTo (c : Ctx) (pc : Nat) : restoreContexts s (advanceTo s x c pc) = s := by
  unfold advanceTo issueWords
  split <;> rfl

theorem contexts_advanceTo (c : Ctx) (pc : Nat) : (advanceTo s x c pc).contexts = putN s.contexts (ctxNo x) { c with pc := pc } := by
  unfold advanceTo issueWords
  split <;> rfl

theorem lookup_contexts_advanceTo (c : Ctx) (pc : Nat) {y : Nat} (hy : y ≠ ctxNo x) :
    lookup (advanceTo s x c pc).contexts y = lookup s.contexts y := by
  rw [contexts_advanceTo, lookup_putN, if_neg (Ne.symm hy)]

theorem Moves.frame {t : State} (h : Moves s x t) :
    restoreContexts s t = s ∧ ∀ y, y ≠ ctxNo x → lookup t.contexts y = lookup s.contexts y := by
  obtain rfl | ⟨c, pc, rfl⟩ := h
  · exact ⟨rfl, fun _ _ => rfl⟩
  · exact ⟨restoreContexts_advanceTo c pc, fun _ => lookup_contexts_advanceTo c pc⟩

end contexts

/-! The SPDM requests: the responder, the draw counter and what is sent. -/

/-- The responder, the draw counter and the outputs of `s₀` put back. -/
def restoreSpdm (s₀ s : State) : State := { s with spdm := s₀.spdm, fresh := s₀.fresh, out := s₀.out }

section spdm

variable {s₀ s : State} {m : Bytes}

theorem restoreSpdm_emit (o : Output) : restoreSpdm s₀ (emit s o) = restoreSpdm s₀ s := rfl

theorem restoreSpdm_draw : restoreSpdm s₀ (draw s).2 = restoreSpdm s₀ s := rfl

theorem restoreSpdm_modSpdm (g : Spdm → Spdm) : restoreSpdm s₀ (modSpdm s g) = restoreSpdm s₀ s := rfl

theorem restoreSpdm_spdmError (code : Nat) : restoreSpdm s₀ (spdmError s code) = restoreSpdm s₀ s := restoreSpdm_emit _

theorem restoreSpdm_spdmReply (r : Bytes) : restoreSpdm s₀ (spdmReply s m r) = restoreSpdm s₀ s :=
  (restoreSpdm_modSpdm _).trans (restoreSpdm_emit _)

theorem restoreSpdm_modSession (g : Session → List Session) : restoreSpdm s₀ (modSession s g) = restoreSpdm s₀ s := restoreSpdm_modSpdm _

theorem leaves_getVersion : Leaves restoreSpdm s (exec (.getVersion m) s) :=
  ⟨_, rfl, (restoreSpdm_spdmReply _).trans (restoreSpdm_modSpdm _)⟩

theorem leaves_getCapabilities : Leaves restoreSpdm s (exec (.getCapabilities m) s) := by
  refine ⟨_, rfl, ?_⟩
  split
  · exact (restoreSpdm_spdmReply _).trans (restoreSpdm_modSpdm _)
  · exact restoreSpdm_spdmError _

theorem leaves_negotiateAlgorithms : Leaves restoreSpdm s (exec (.negotiateAlgorithms m) s) := by
  refine ⟨_, rfl, ?_⟩
  split
  · exact (restoreSpdm_spdmReply _).trans (restoreSpdm_modSpdm _)
  · exact restoreSpdm_spdmError _

theorem leaves_getDigests : Leaves restoreSpdm s (exec (.getDigests m) s) := by
  refine ⟨_, rfl, ?_⟩
  split
  · exact restoreSpdm_spdmReply _
  · exact restoreSpdm_spdmError _

theorem leaves_getCertificate : Leaves restoreSpdm s (exec (.getCertificate m) s) := by
  refine ⟨_, rfl, ?_⟩
  dsimp only
  split_ifs
  · exact restoreSpdm_spdmError _
  · exact restoreSpdm_spdmReply _
  · exact restoreSpdm_spdmError _

theorem leaves_challenge : Leaves restoreSpdm s (exec (.challenge m) s) := by
  refine ⟨_, rfl, ?_⟩
  split_ifs
  · exact restoreSpdm_spdmError _
  · exact (restoreSpdm_spdmReply _).trans restoreSpdm_draw
  · exact restoreSpdm_spdmError _

theorem leaves_getMeasurements : Leaves restoreSpdm s (exec (.getMeasurements m) s) := by
  refine ⟨_, rfl, ?_⟩
  split
  · exact restoreSpdm_spdmError _
  · dsimp only
    split
    · exact restoreSpdm_spdmError _
    · exact (restoreSpdm_spdmReply _).trans restoreSpdm_draw

theorem leaves_spdmFinish : Leaves restoreSpdm s (exec (.spdmFinish m) s) := by
  refine ⟨_, rfl, ?_⟩
  split
  · exact restoreSpdm_spdmError _
  · split_ifs
    · exact restoreSpdm_spdmError _
    · exact (restoreSpdm_spdmReply _).trans (restoreSpdm_modSession _)
    · exact (restoreSpdm_spdmError _).trans (restoreSpdm_modSession _)

theorem leaves_keyUpdate : Leaves restoreSpdm s (exec (.keyUpdate m) s) := by
  refine ⟨_, rfl, ?_⟩
  split
  · exact restoreSpdm_spdmError _
  · dsimp only
    split_ifs
    · exact restoreSpdm_spdmError _
    · exact restoreSpdm_emit _
    · exact (restoreSpdm_emit _).trans (restoreSpdm_modSession _)
    · exact restoreSpdm_spdmError _

theorem leaves_endSession : Leaves restoreSpdm s (exec (.endSession m) s) := by
  refine ⟨_, rfl, ?_⟩
  split
  · exact restoreSpdm_spdmError _
  · split
    · exact (restoreSpdm_emit _).trans (restoreSpdm_modSession _)
    · exact restoreSpdm_spdmError _

end spdm

/-! Ferry and Hail: registers, channels, the handshake's fields, the outage in progress, the draw counter and what is sent. -/

/-- The fields of the Ferry and Hail commands put back from `s₀`. -/
def restoreFerry (s₀ s : State) : State :=
  { s with regs := s₀.regs, channels := s₀.channels, hailCount := s₀.hailCount, hailSession := s₀.hailSession, hailDue := s₀.hailDue,
           outageFrom := s₀.outageFrom, fresh := s₀.fresh, out := s₀.out }

section ferry

variable {s₀ s : State} {e : FerryEnd} {f : Func}

theorem restoreFerry_modChan (n : Fin 64) (g : Channel → Channel) : restoreFerry s₀ (s.modChan n g) = restoreFerry s₀ s := rfl

theorem restoreFerry_coreSend (b : Bytes) : restoreFerry s₀ (coreSend s e b) = restoreFerry s₀ s := by
  unfold coreSend
  split <;> rfl

theorem restoreFerry_writeTxCtrl (v : Nat) : restoreFerry s₀ (writeTxCtrl s e v) = restoreFerry s₀ s := by
  unfold writeTxCtrl
  dsimp only
  split_ifs <;> rfl

theorem restoreFerry_writeRxTake (v : Nat) : restoreFerry s₀ (writeRxTake s e v) = restoreFerry s₀ s := by
  unfold writeRxTake
  split
  · rfl
  · dsimp only
    split
    · exact restoreFerry_modChan _ _
    · exact (restoreFerry_coreSend _).trans ((restoreFerry_modChan _ _).trans (restoreFerry_modChan _ _))

theorem restoreFerry_writeFerryCtrl (v : Nat) : restoreFerry s₀ (writeFerryCtrl s e v) = restoreFerry s₀ s := by
  unfold writeFerryCtrl
  split <;> rfl

theorem restoreFerry_hailReply (type session : Nat) : restoreFerry s₀ (hailReply s f type session) = restoreFerry s₀ s :=
  restoreFerry_coreSend _

theorem restoreFerry_endOutage : restoreFerry s₀ (endOutage s) = restoreFerry s₀ s := by
  unfold endOutage
  split
  · rfl
  · split <;> rfl

theorem leaves_ferryBlockSend {v : Word} : Leaves restoreFerry s (exec (.ferryBlockSend e v) s) := ⟨_, rfl, restoreFerry_writeTxCtrl _⟩

theorem leaves_ferryNoticeSend {v : Word} : Leaves restoreFerry s (exec (.ferryNoticeSend e v) s) := ⟨_, rfl, restoreFerry_writeTxCtrl _⟩

theorem leaves_ferryTake {v : BitVec 32} : Leaves restoreFerry s (exec (.ferryTake e v) s) := ⟨_, rfl, restoreFerry_writeRxTake _⟩

theorem leaves_ferryNoticeRead : Leaves restoreFerry s (exec (.ferryNoticeRead e) s) := ⟨_, rfl, rfl⟩

theorem leaves_ferryRxReset {v : BitVec 32} : Leaves restoreFerry s (exec (.ferryRxReset e v) s) := ⟨_, rfl, restoreFerry_writeFerryCtrl _⟩

theorem leaves_hailSend : Leaves restoreFerry s (exec (.hailSend f) s) := by
  refine ⟨_, rfl, ?_⟩
  split
  · rfl
  · exact restoreFerry_coreSend _

theorem leaves_hailAck : Leaves restoreFerry s (exec (.hailAck f) s) := by
  refine ⟨_, rfl, ?_⟩
  dsimp only
  split
  · rfl
  · split
    · rfl
    · split
      · exact restoreFerry_endOutage.trans (restoreFerry_hailReply _ _)
      · exact restoreFerry_hailReply _ _

theorem leaves_firmwareBlockTake {n : Fin 64} : Leaves restoreFerry s (exec (.firmwareBlockTake n) s) := by
  refine ⟨_, rfl, ?_⟩
  split <;> rfl

end ferry

/-! The narrowest commands: registers alone. -/

/-- The registers of `s₀` put back. -/
def restoreRegs (s₀ s : State) : State := { s with regs := s₀.regs }

section registers

variable {s₀ s : State}

theorem restoreRegs_fset (f : Fld) (a b v : Nat) : restoreRegs s₀ (fset s f a b v) = restoreRegs s₀ s := rfl

theorem restoreRegs_storeReg (r : Reg) (a b v : Nat) : restoreRegs s₀ (storeReg s r a b v) = restoreRegs s₀ s := by
  refine List.foldlRecOn (motive := fun t => restoreRegs s₀ t = restoreRegs s₀ s) r.fields _ rfl fun t ht f _ => ?_
  unfold storeField
  split
  · split <;> exact ht
  all_goals exact ht

theorem restoreRegs_setGroup (f : Fld) (a : Nat) (bs : Bytes) (n : Nat) : restoreRegs s₀ (setGroup s f a bs n) = restoreRegs s₀ s := by
  induction n with
  | zero => rfl
  | succ n ih => exact (restoreRegs_fset _ _ _ _).trans ih

theorem restoreRegs_pmuAdd (i n : Nat) : restoreRegs s₀ (pmuAdd s i n) = restoreRegs s₀ s := by
  unfold pmuAdd
  dsimp only
  split <;> rfl

theorem leaves_berthWrite {n : Fin 6} {v : Word} : Leaves restoreRegs s (exec (.berthWrite n v) s) := by
  refine ⟨_, rfl, ?_⟩
  unfold writeBerths
  dsimp only
  split_ifs <;> rfl

theorem leaves_vfGrantWrite {v : Word} : Leaves restoreRegs s (exec (.vfGrantWrite v) s) := by
  refine ⟨_, rfl, ?_⟩
  unfold writeGrant
  split
  · rfl
  · exact restoreRegs_storeReg _ _ _ _

theorem leaves_sbufRdWrite {v : BitVec 32} : Leaves restoreRegs s (exec (.sbufRdWrite v) s) := by
  refine ⟨_, rfl, ?_⟩
  unfold writeSbufRd
  split
  · exact restoreRegs_storeReg _ _ _ _
  · rfl

theorem leaves_pmuValueWrite {v : Word} : Leaves restoreRegs s (exec (.pmuValueWrite v) s) := by
  refine ⟨_, rfl, ?_⟩
  unfold writePmuValue
  split
  · exact restoreRegs_storeReg _ _ _ _
  · rfl

theorem leaves_pmuCounterWrap {i : Fin 40} {n : Nat} : Leaves restoreRegs s (exec (.pmuCounterWrap i n) s) := by
  refine ⟨_, rfl, ?_⟩
  split
  · rfl
  · exact restoreRegs_pmuAdd _ _

theorem leaves_udDatagram {p : Port} {d : Datagram} : Leaves restoreRegs s (exec (.udDatagram p d) s) := by
  refine ⟨_, rfl, ?_⟩
  split_ifs <;> rfl

theorem leaves_reinstate {v : BitVec 32} : Leaves restoreRegs s (exec (.reinstate v) s) := by
  refine ⟨_, rfl, ?_⟩
  unfold writeFeState
  dsimp only
  split <;> rfl

end registers

/-! The host's rings and logs: registers, rings, logs and what is sent. -/

/-- The registers, rings, logs and outputs of `s₀` put back. -/
def restoreHost (s₀ s : State) : State := { s with regs := s₀.regs, rings := s₀.rings, logs := s₀.logs, out := s₀.out }

section host

variable {s₀ s : State} {f : Func}

theorem restoreHost_writeEvlogCtrl (v : Nat) : restoreHost s₀ (writeEvlogCtrl s f v) = restoreHost s₀ s := by
  unfold writeEvlogCtrl
  split_ifs <;> rfl

/-- What changes registers alone changes nothing outside the host's fields. -/
theorem restoreHost_of_restoreRegs {t : State} (h : restoreRegs s t = restoreRegs s s) : restoreHost s₀ t = restoreHost s₀ s :=
  calc restoreHost s₀ t = restoreHost s₀ (restoreRegs s t) := rfl
    _ = restoreHost s₀ (restoreRegs s s) := congrArg (restoreHost s₀) h
    _ = restoreHost s₀ s := rfl

theorem restoreHost_modRing (g : Ring2 → Ring2) : restoreHost s₀ (s.modRing f g) = restoreHost s₀ s := rfl

theorem restoreHost_readResult : restoreHost s₀ (readResult s f).2 = restoreHost s₀ s := by
  unfold readResult
  split
  next => exact (restoreHost_of_restoreRegs (restoreRegs_setGroup _ _ _ _)).trans (restoreHost_modRing _)
  next => split <;> rfl

theorem restoreHost_readLog : restoreHost s₀ (readLog s f).2 = restoreHost s₀ s := by
  unfold readLog
  split <;> rfl

theorem leaves_sqTailDoorbell {v : BitVec 32} : Leaves restoreHost s (exec (.sqTailDoorbell f v) s) := by
  refine ⟨_, rfl, ?_⟩
  unfold writeSqTail
  split_ifs <;> rfl

theorem leaves_cqHeadDoorbell {v : BitVec 32} : Leaves restoreHost s (exec (.cqHeadDoorbell f v) s) := by
  refine ⟨_, rfl, ?_⟩
  unfold writeCqHead
  dsimp only
  split_ifs <;> rfl

theorem leaves_resStatRead {j : JobId} : Leaves restoreHost s (exec (.resStatRead j) s) := ⟨_, rfl, restoreHost_readResult⟩

theorem leaves_evlogDataRead : Leaves restoreHost s (exec (.evlogDataRead f) s) := ⟨_, rfl, restoreHost_readLog⟩

theorem leaves_evlogFlush {v : BitVec 32} : Leaves restoreHost s (exec (.evlogFlush f v) s) := ⟨_, rfl, restoreHost_writeEvlogCtrl _⟩

theorem leaves_evlogFlushAll {v : BitVec 32} : Leaves restoreHost s (exec (.evlogFlushAll f v) s) := ⟨_, rfl, restoreHost_writeEvlogCtrl _⟩

end host

/-! Tide's inputs and the TAP's reset. -/

/-- The registers and the time unit's choice of `s₀` put back. -/
def restoreTide (s₀ s : State) : State :=
  { s with regs := s₀.regs, lastPps := s₀.lastPps, best := s₀.best, lastAnnounce := s₀.lastAnnounce }

/-- The registers, TRST# and outputs of `s₀` put back. -/
def restoreTap (s₀ s : State) : State := { s with regs := s₀.regs, trst := s₀.trst, out := s₀.out }

section inputs

variable {s₀ s : State}

theorem leaves_ppsEdge {p : Int} : Leaves restoreTide s (exec (.ppsEdge p) s) := by
  refine ⟨_, rfl, ?_⟩
  split_ifs <;> rfl

theorem leaves_ptpAnnounce {p : Port} {a : Announce} : Leaves restoreTide s (exec (.ptpAnnounce p a) s) := by
  refine ⟨_, rfl, ?_⟩
  split
  · rfl
  · dsimp only
    split_ifs <;> rfl

theorem restoreTap_closeSession : restoreTap s₀ (closeSession s) = restoreTap s₀ s := by
  unfold closeSession
  split <;> rfl

theorem restoreTap_endDrive (was : Nat) : restoreTap s₀ (endDrive s was) = restoreTap s₀ s := by
  unfold endDrive
  split <;> rfl

theorem leaves_testLogicReset {x : Bool} : Leaves restoreTap s (exec (.testLogicReset x) s) :=
  ⟨_, rfl, (restoreTap_endDrive _).trans restoreTap_closeSession⟩

end inputs

/-- Settles O60: each command by the frame of its family. -/
theorem narrowCommandsTouchTheirOwnFields : Obligations.NarrowCommandsTouchTheirOwnFields := by
  refine ⟨?control, ?spdm, ?ferry, ?host, ?registers, ?tide, ?tap⟩
  case control =>
    intro s t c x hc ht
    obtain ⟨u, hu, hmoves⟩ : ∃ u, exec c s = .next u ∧ Moves s x u := by
      rcases hc with rfl | rfl | rfl | rfl | rfl | rfl | rfl | rfl | rfl | rfl | rfl
      · exact ⟨_, rfl, moves_instr moves_advance⟩
      · exact moves_endLoop
      · exact ⟨_, rfl, moves_instr fun _ => moves_advance _⟩
      · exact ⟨_, rfl, moves_instr fun _ => moves_advance _⟩
      · exact ⟨_, rfl, moves_instr fun _ => moves_advance _⟩
      · exact ⟨_, rfl, moves_instr fun _ => moves_advance _⟩
      · exact ⟨_, rfl, moves_instr fun _ => moves_advance _⟩
      · exact ⟨_, rfl, moves_instr fun c => .ite (moves_advanceTo c _) (moves_advance c)⟩
      · exact ⟨_, rfl, moves_instr fun c => .ite (moves_advance c) (moves_advanceTo c _)⟩
      · exact ⟨_, rfl, moves_instr fun c => .ite (moves_advance c) (.inl rfl)⟩
      · exact ⟨_, rfl, moves_instr fun c => .ite (moves_advance c) (.inl rfl)⟩
    cases hu.symm.trans ht
    exact hmoves.frame
  case spdm =>
    rintro s t c (⟨m, rfl⟩ | ⟨m, rfl⟩ | ⟨m, rfl⟩ | ⟨m, rfl⟩ | ⟨m, rfl⟩ | ⟨m, rfl⟩ | ⟨m, rfl⟩ | ⟨m, rfl⟩ | ⟨m, rfl⟩ | ⟨m, rfl⟩) ht
    · exact leaves_getVersion.restored ht
    · exact leaves_getCapabilities.restored ht
    · exact leaves_negotiateAlgorithms.restored ht
    · exact leaves_getDigests.restored ht
    · exact leaves_getCertificate.restored ht
    · exact leaves_challenge.restored ht
    · exact leaves_getMeasurements.restored ht
    · exact leaves_spdmFinish.restored ht
    · exact leaves_keyUpdate.restored ht
    · exact leaves_endSession.restored ht
  case ferry =>
    rintro s t c (⟨e, v, rfl⟩ | ⟨e, v, rfl⟩ | ⟨e, v, rfl⟩ | ⟨e, rfl⟩ | ⟨e, v, rfl⟩ | ⟨f, rfl⟩ | ⟨f, rfl⟩ | ⟨n, rfl⟩) ht
    · exact leaves_ferryBlockSend.restored ht
    · exact leaves_ferryNoticeSend.restored ht
    · exact leaves_ferryTake.restored ht
    · exact leaves_ferryNoticeRead.restored ht
    · exact leaves_ferryRxReset.restored ht
    · exact leaves_hailSend.restored ht
    · exact leaves_hailAck.restored ht
    · exact leaves_firmwareBlockTake.restored ht
  case host =>
    rintro s t c (⟨f, v, rfl⟩ | ⟨f, v, rfl⟩ | ⟨j, rfl⟩ | ⟨f, rfl⟩ | ⟨f, v, rfl⟩ | ⟨f, v, rfl⟩) ht
    · exact leaves_sqTailDoorbell.restored ht
    · exact leaves_cqHeadDoorbell.restored ht
    · exact leaves_resStatRead.restored ht
    · exact leaves_evlogDataRead.restored ht
    · exact leaves_evlogFlush.restored ht
    · exact leaves_evlogFlushAll.restored ht
  case registers =>
    rintro s t c (⟨n, v, rfl⟩ | ⟨v, rfl⟩ | ⟨v, rfl⟩ | ⟨v, rfl⟩ | ⟨i, n, rfl⟩ | ⟨p, d, rfl⟩ | ⟨v, rfl⟩) ht
    · exact leaves_berthWrite.restored ht
    · exact leaves_vfGrantWrite.restored ht
    · exact leaves_sbufRdWrite.restored ht
    · exact leaves_pmuValueWrite.restored ht
    · exact leaves_pmuCounterWrap.restored ht
    · exact leaves_udDatagram.restored ht
    · exact leaves_reinstate.restored ht
  case tide =>
    rintro s t c (⟨p, rfl⟩ | ⟨p, a, rfl⟩) ht
    · exact leaves_ppsEdge.restored ht
    · exact leaves_ptpAnnounce.restored ht
  case tap => exact fun s t x ht => leaves_testLogicReset.restored ht

end Sys2Proof.Machine

/-! PROOFS. What every command and every step keep of the machine (R442, R447, R534, R551, R606). -/

namespace Sys2Proof.Machine

/-! Every command answers, and keeps what it owes: the table of the commands, each with what its own meaning keeps. -/

theorem exec_answers {s₀ s : State} (keep : Keeps s₀ s) (c : Instr) : Answers s₀ (exec c s) :=
  match c with
  | .joinChunk .. => execJoinChunk_keeps keep
  | .sharesChunk .. => execSharesChunk_keeps keep
  | .uploadChunk .. => execUploadChunk_keeps keep
  | .sealedUploadPiece .. => execSealedUploadPiece_keeps keep
  | .unmaskSharesChunk .. => execUnmaskSharesChunk_keeps keep
  | .manifest .. => execManifest_keeps keep
  | .manifestHashDone .. => execManifestHashDone_keeps keep
  | .abortChunk .. => execAbortChunk_keeps keep
  | .fetchChunk .. => execFetchChunk_keeps keep
  | .shortSend .. => execShortSend_keeps keep
  | .admissionCommit .. => execAdmissionCommit_keeps keep
  | .reinstate .. => execReinstate_keeps keep
  | .creditRecompute => execCreditRecompute_keeps keep
  | .lndFeCfgWrite .. => execLndFeCfgWrite_keeps keep
  | .rosterFlush .. => execRosterFlush_keeps keep
  | .closeDrainExpiry .. => execCloseDrainExpiry_keeps keep
  | .closeFix .. => execCloseFix_keeps keep
  | .cohortLinearCheck .. => execCohortLinearCheck_keeps keep
  | .offerBegin .. => execOfferBegin_keeps keep
  | .joinBegin .. => execJoinBegin_keeps keep
  | .neighboursBegin .. => execNeighboursBegin_keeps keep
  | .sharesBegin .. => execSharesBegin_keeps keep
  | .uploadBegin .. => execUploadBegin_keeps keep
  | .closeBegin .. => execCloseBegin_keeps keep
  | .unmaskBegin .. => execUnmaskBegin_keeps keep
  | .unmaskDeadline .. => execUnmaskDeadline_keeps keep
  | .secretReconstruct .. => execSecretReconstruct_keeps keep
  | .cohortUnmaskDone .. => execCohortUnmaskDone_keeps keep
  | .cohortSettle .. => execCohortSettle_keeps keep
  | .screenDecision .. => execScreenDecision_keeps keep
  | .finishBegin .. => execFinishBegin_keeps keep
  | .gateDecision .. => execGateDecision_keeps keep
  | .gateOverride .. => execGateOverride_keeps keep
  | .gateHoldExpiry .. => execGateHoldExpiry_keeps keep
  | .releasePost .. => execReleasePost_keeps keep
  | .peerWaitExpiry .. => execPeerWaitExpiry_keeps keep
  | .peerDoneWrite .. => execPeerDoneWrite_keeps keep
  | .stream .. => execStream_keeps keep
  | .retract .. => execRetract_keeps keep
  | .retractDone .. => execRetractDone_keeps keep
  | .patrolScrub .. => execPatrolScrub_keeps keep
  | .berthWrite .. => execBerthWrite_keeps keep
  | .bankRead .. => execBankRead_keeps keep
  | .lineWrite .. => execLineWrite_keeps keep
  | .radd .. => execRadd_keeps keep
  | .gadd .. => execGadd_keeps keep
  | .add64 .. => execAdd64_keeps keep
  | .fadd .. => execFadd_keeps keep
  | .maxMin .. => execMaxMin_keeps keep
  | .cas64 .. => execCas64_keeps keep
  | .tileDrain .. => execTileDrain_keeps keep
  | .chainCheck .. => execChainCheck_keeps keep
  | .triFence .. => execTriFence_keeps keep
  | .triUnfence .. => execTriUnfence_keeps keep
  | .tolKatRun .. => execTolKatRun_keeps keep
  | .culKatRun .. => execCulKatRun_keeps keep
  | .prsKatRun .. => execPrsKatRun_keeps keep
  | .wrpKatRun .. => execWrpKatRun_keeps keep
  | .skmKatRun .. => execSkmKatRun_keeps keep
  | .rindKatRun .. => execRindKatRun_keeps keep
  | .triKatRun .. => execTriKatRun_keeps keep
  | .katComplete .. => execKatComplete_keeps keep
  | .tolEnableWrite .. => execTolEnableWrite_keeps keep
  | .refreshWaitExpiry .. => execRefreshWaitExpiry_keeps keep
  | .nop .. => execNop_keeps keep
  | .endRecipe .. => execEndRecipe_keeps keep
  | .loop .. => execLoop_keeps keep
  | .endLoop .. => execEndLoop_keeps keep
  | .movi .. => execMovi_keeps keep
  | .movhi .. => execMovhi_keeps keep
  | .addi .. => execAddi_keeps keep
  | .add .. => execAdd_keeps keep
  | .shli .. => execShli_keeps keep
  | .ldp .. => execLdp_keeps keep
  | .skipz .. => execSkipz_keeps keep
  | .skipnz .. => execSkipnz_keeps keep
  | .fence .. => execFence_keeps keep
  | .waitCnt .. => execWaitCnt_keeps keep
  | .signal .. => execSignal_keeps keep
  | .waitEvt .. => execWaitEvt_keeps keep
  | .mac .. => execMac_keeps keep
  | .gather .. => execGather_keeps keep
  | .drain .. => execDrain_keeps keep
  | .layer .. => execLayer_keeps keep
  | .vop .. => execVop_keeps keep
  | .vcas .. => execVcas_keeps keep
  | .vfill .. => execVfill_keeps keep
  | .vcopy .. => execVcopy_keeps keep
  | .settle .. => execSettle_keeps keep
  | .exclude .. => execExclude_keeps keep
  | .checkCohort .. => execCheckCohort_keeps keep
  | .zeroRound .. => execZeroRound_keeps keep
  | .maskSub .. => execMaskSub_keeps keep
  | .expand .. => execExpand_keeps keep
  | .ecdh .. => execEcdh_keeps keep
  | .hkdf .. => execHkdf_keeps keep
  | .recon .. => execRecon_keeps keep
  | .sign .. => execSign_keeps keep
  | .keyGen .. => execKeyGen_keeps keep
  | .wpass .. => execWpass_keeps keep
  | .finish .. => execFinish_keeps keep
  | .master .. => execMaster_keeps keep
  | .maxi .. => execMaxi_keeps keep
  | .mini .. => execMini_keeps keep
  | .topk .. => execTopk_keeps keep
  | .botk .. => execBotk_keeps keep
  | .farthest .. => execFarthest_keeps keep
  | .ctAdd .. => execCtAdd_keeps keep
  | .ctSub .. => execCtSub_keeps keep
  | .ctMulc .. => execCtMulc_keeps keep
  | .ctPadd .. => execCtPadd_keeps keep
  | .modsw .. => execModsw_keeps keep
  | .ksw .. => execKsw_keeps keep
  | .refresh .. => execRefresh_keeps keep
  | .exportCt .. => execExportCt_keeps keep
  | .decode .. => execDecode_keeps keep
  | .invokeTimeout .. => execInvokeTimeout_keeps keep
  | .nopDescriptor .. => execNopDescriptor_keeps keep
  | .jobCreate .. => execJobCreate_keeps keep
  | .jobTeardown => execJobTeardown_keeps keep
  | .jobAbort .. => execJobAbort_keeps keep
  | .abortWaitDone .. => execAbortWaitDone_keeps keep
  | .recipeLoad .. => execRecipeLoad_keeps keep
  | .roundPlan .. => execRoundPlan_keeps keep
  | .invoke .. => execInvoke_keeps keep
  | .keyLoad .. => execKeyLoad_keeps keep
  | .heldLoad .. => execHeldLoad_keeps keep
  | .descriptorFetch .. => execDescriptorFetch_keeps keep
  | .descriptorFetchFail .. => execDescriptorFetchFail_keeps keep
  | .sqTailDoorbell .. => execSqTailDoorbell_keeps keep
  | .cqHeadDoorbell .. => execCqHeadDoorbell_keeps keep
  | .sqEnable .. => execSqEnable_keeps keep
  | .cqEnable .. => execCqEnable_keeps keep
  | .resStatRead .. => execResStatRead_keeps keep
  | .evlogDataRead .. => execEvlogDataRead_keeps keep
  | .evlogFlush .. => execEvlogFlush_keeps keep
  | .evlogFlushAll .. => execEvlogFlushAll_keeps keep
  | .ferryBlockSend .. => execFerryBlockSend_keeps keep
  | .ferryNoticeSend .. => execFerryNoticeSend_keeps keep
  | .ferryTake .. => execFerryTake_keeps keep
  | .ferryNoticeRead .. => execFerryNoticeRead_keeps keep
  | .ferryRxReset .. => execFerryRxReset_keeps keep
  | .hailSend .. => execHailSend_keeps keep
  | .hailAck .. => execHailAck_keeps keep
  | .firmwareBlockTake .. => execFirmwareBlockTake_keeps keep
  | .linkTrain .. => execLinkTrain_keeps keep
  | .hdmAccess .. => execHdmAccess_keeps keep
  | .trustLoss .. => execTrustLoss_keeps keep
  | .tspLock .. => execTspLock_keeps keep
  | .vfFlr .. => execVfFlr_keeps keep
  | .pf0Flr => execPf0Flr_keeps keep
  | .portFrame .. => execPortFrame_keeps keep
  | .udDatagram .. => execUdDatagram_keeps keep
  | .rdmaWrite .. => execRdmaWrite_keeps keep
  | .rdmaRead .. => execRdmaRead_keeps keep
  | .atomicAdd .. => execAtomicAdd_keeps keep
  | .compareAndSwap .. => execCompareAndSwap_keeps keep
  | .rdmaFlush .. => execRdmaFlush_keeps keep
  | .requesterPost .. => execRequesterPost_keeps keep
  | .requesterResponse .. => execRequesterResponse_keeps keep
  | .retransmitTimeout .. => execRetransmitTimeout_keeps keep
  | .qpStateWrite .. => execQpStateWrite_keeps keep
  | .qpContextLoad .. => execQpContextLoad_keeps keep
  | .regionRegister .. => execRegionRegister_keeps keep
  | .regionRevoke .. => execRegionRevoke_keeps keep
  | .rightsLower .. => execRightsLower_keeps keep
  | .revokeComplete .. => execRevokeComplete_keeps keep
  | .revokeCutoff .. => execRevokeCutoff_keeps keep
  | .sqpGenKey .. => execSqpGenKey_keeps keep
  | .sqpApply .. => execSqpApply_keeps keep
  | .ptpAnnounce .. => execPtpAnnounce_keeps keep
  | .ptpSync .. => execPtpSync_keeps keep
  | .syncLossTimeout => execSyncLossTimeout_keeps keep
  | .holdoverLimit => execHoldoverLimit_keeps keep
  | .ppsEdge .. => execPpsEdge_keeps keep
  | .userEventFire .. => execUserEventFire_keeps keep
  | .wakeEventFire .. => execWakeEventFire_keeps keep
  | .eventArm .. => execEventArm_keeps keep
  | .eventCancel .. => execEventCancel_keeps keep
  | .modeChange .. => execModeChange_keeps keep
  | .dvfsTick .. => execDvfsTick_keeps keep
  | .pinWrite .. => execPinWrite_keeps keep
  | .placementMove .. => execPlacementMove_keeps keep
  | .domainStateDone .. => execDomainStateDone_keeps keep
  | .kstKeyWrite .. => execKstKeyWrite_keeps keep
  | .kstKeyErase .. => execKstKeyErase_keeps keep
  | .kstChallenge .. => execKstChallenge_keeps keep
  | .svnCommit .. => execSvnCommit_keeps keep
  | .unitReset .. => execUnitReset_keeps keep
  | .entropyStartupDone .. => execEntropyStartupDone_keeps keep
  | .healthWindowPass => execHealthWindowPass_keeps keep
  | .healthTestFail .. => execHealthTestFail_keeps keep
  | .drbgReseed => execDrbgReseed_keeps keep
  | .wireRequest .. => execWireRequest_keeps keep
  | .entSwDataRead .. => execEntSwDataRead_keeps keep
  | .getVersion .. => execGetVersion_keeps keep
  | .getCapabilities .. => execGetCapabilities_keeps keep
  | .negotiateAlgorithms .. => execNegotiateAlgorithms_keeps keep
  | .getDigests .. => execGetDigests_keeps keep
  | .getCertificate .. => execGetCertificate_keeps keep
  | .challenge .. => execChallenge_keeps keep
  | .getMeasurements .. => execGetMeasurements_keeps keep
  | .keyExchange .. => execKeyExchange_keeps keep
  | .spdmFinish .. => execSpdmFinish_keeps keep
  | .keyUpdate .. => execKeyUpdate_keeps keep
  | .endSession m => execEndSession_keeps (_m := m) keep
  | .ideKm .. => execIdeKm_keeps keep
  | .inputGood .. => execInputGood_keeps keep
  | .recoveryImageLoad .. => execRecoveryImageLoad_keeps keep
  | .coldResetRequest .. => execColdResetRequest_keeps keep
  | .warmRestartRequest .. => execWarmRestartRequest_keeps keep
  | .engineResetRequest .. => execEngineResetRequest_keeps keep
  | .engineResetDone .. => execEngineResetDone_keeps keep
  | .firmwareWatchdog => execFirmwareWatchdog_keeps keep
  | .mctpColdReset => execMctpColdReset_keeps keep
  | .carrierResetPin .. => execCarrierResetPin_keeps keep
  | .perstReset => execPerstReset_keeps keep
  | .brownoutTrip .. => execBrownoutTrip_keeps keep
  | .overpowerTrip .. => execOverpowerTrip_keeps keep
  | .overcurrentTrip .. => execOvercurrentTrip_keeps keep
  | .inputOvervoltage .. => execInputOvervoltage_keeps keep
  | .thermalTrip .. => execThermalTrip_keeps keep
  | .thermalHoldRelease .. => execThermalHoldRelease_keeps keep
  | .opticalOvertemp .. => execOpticalOvertemp_keeps keep
  | .portDownTimeout .. => execPortDownTimeout_keeps keep
  | .throttleStep .. => execThrottleStep_keeps keep
  | .testModeRise => execTestModeRise_keeps keep
  | .testModeFall => execTestModeFall_keeps keep
  | .tapInstructionLoad .. => execTapInstructionLoad_keeps keep
  | .testLogicReset .. => execTestLogicReset_keeps keep
  | .pmuFreeze .. => execPmuFreeze_keeps keep
  | .pmuSnapshot .. => execPmuSnapshot_keeps keep
  | .pmuClearAll .. => execPmuClearAll_keeps keep
  | .pmuValueWrite .. => execPmuValueWrite_keeps keep
  | .sampEnable .. => execSampEnable_keeps keep
  | .sampleTag .. => execSampleTag_keeps keep
  | .sampleRecordWrite .. => execSampleRecordWrite_keeps keep
  | .sbufRdWrite .. => execSbufRdWrite_keeps keep
  | .vfGrantWrite .. => execVfGrantWrite_keeps keep
  | .rclRead .. => execRclRead_keeps keep
  | .registerWrite .. => execRegisterWrite_keeps keep
  | .carrierResetRelease => execCarrierResetRelease_keeps keep
  | .inputOvervoltageRelease .. => execInputOvervoltageRelease_keeps keep
  | .fieldPortLinkChange .. => execFieldPortLinkChange_keeps keep
  | .unknownTypeChunk _ stamp _ => execUnknownTypeChunk_keeps (_stamp := stamp) keep
  | .issuedWorkComplete .. => execIssuedWorkComplete_keeps keep
  | .deniedRegisterRead .. => execDeniedRegisterRead_keeps keep
  | .pmuCounterWrap .. => execPmuCounterWrap_keeps keep
  | .failureWindowExpiry .. => execFailureWindowExpiry_keeps keep

/-- Settles O48, command by command. -/
theorem everyCommandAnswers : Obligations.EveryCommandAnswers := fun c _ => exec_answers .rfl c

/-- A step answers a state in canonical form: where a command is at the front the queue alone changes before it, and a passing nanosecond keeps the rest. -/
theorem step_keeps_canonical {s : State} (hs : s.Canonical) : ∃ t, step s = .next t ∧ t.Canonical := by
  cases hq : s.pending with
  | nil => exact ⟨tick s, by simp only [step, hq], (tick_keeps .rfl).canonical hs⟩
  | cons c rest =>
    obtain ⟨t, ht, keep⟩ := exec_answers (s := { s with pending := rest }) .rfl c
    exact ⟨t, (step_of_pending_cons hq).trans ht, keep.canonical ⟨hs.mem, hs.hdm, hs.hbm, hs.regs, hs.logs, hs.tags, hs.channels⟩⟩

/-- Settles O49: the capacities are part of the canonical form that a step keeps. -/
theorem everyStepKeepsTheCanonicalForm : Obligations.EveryStepKeepsTheCanonicalForm := by
  refine ⟨fun _ => step_keeps_canonical, fun s t hs ht => ?_⟩
  obtain ⟨u, hu, hc⟩ := step_keeps_canonical hs
  cases hu.symm.trans ht
  exact ⟨hc.logs, hc.tags, fun c b by_ hb => (hc.channels c).block (b, by_) hb⟩

end Sys2Proof.Machine

/-! PROOFS. The event logs: reads, flushes, and records that find a log full (R447 to R450). -/

namespace Sys2Proof.Machine

section eventLog

variable {s : State} {f : Func} {type round a b : Nat}

theorem exec_evlogDataRead_of_word {w : Nat} {ws : List Nat} (hl : s.log f = w :: ws) :
    exec (.evlogDataRead f) s = .next (emit (s.setLog f ws) (.readValue f 0x88 w)) := by
  change execEvlogDataRead f s = _
  simp only [execEvlogDataRead, readLog, hl]

theorem exec_evlogDataRead_of_empty (hl : s.log f = []) :
    exec (.evlogDataRead f) s = .next (emit (fset s HIF_VF_EVLOG_STAT.UNDERRUN f 0 1) (.readValue f 0x88 0)) := by
  change execEvlogDataRead f s = _
  simp only [execEvlogDataRead, readLog, hl]

/-- A full log takes no record: the record is counted, and the log is marked as one that lost some. -/
theorem logRecord_of_full (hfull : logCap f ≤ ((s.log f).length + 3) / 4) :
    logRecord s f type round a b =
      raise { fset (countSat s HIF_VF_EVLOG_STAT.LOST f 0 1) HIF_VF_EVLOG_STAT.OVERRUN f 0 1 with
        logLost := if s.logLost.contains f.val then s.logLost else f.val :: s.logLost } f 2 :=
  if_pos hfull

/-- A saturating count keeps within its field. -/
theorem fget_countSat_self (g : Fld) (x y n : Nat) : fget (countSat s g x y n) g x y = min (fget s g x y + n) (2 ^ g.width - 1) := by
  have hpos : 0 < 2 ^ g.width := Nat.two_pow_pos _
  rw [countSat, fget_fset_self, satAdd, Nat.mod_eq_of_lt (by omega)]

/-- A record that finds the log full adds one to LOST. -/
theorem fget_lost_logRecord_of_full (hfull : logCap f ≤ ((s.log f).length + 3) / 4) :
    fget (logRecord s f type round a b) HIF_VF_EVLOG_STAT.LOST f 0 =
      min (fget s HIF_VF_EVLOG_STAT.LOST f 0 + 1) (2 ^ HIF_VF_EVLOG_STAT.LOST.width - 1) := by
  rw [logRecord_of_full hfull]
  calc fget (fset (countSat s HIF_VF_EVLOG_STAT.LOST f 0 1) HIF_VF_EVLOG_STAT.OVERRUN f 0 1) HIF_VF_EVLOG_STAT.LOST f 0
      = fget (countSat s HIF_VF_EVLOG_STAT.LOST f 0 1) HIF_VF_EVLOG_STAT.LOST f 0 :=
        fget_fset_ne _ _ _ _ _ _ _ _ (Fld.key_ne (by decide) _ _ _ _)
    _ = _ := fget_countSat_self ..

theorem fget_overrun_logRecord_of_full (hfull : logCap f ≤ ((s.log f).length + 3) / 4) :
    fget (logRecord s f type round a b) HIF_VF_EVLOG_STAT.OVERRUN f 0 = 1 := by
  rw [logRecord_of_full hfull]
  exact fget_fset_self (countSat s HIF_VF_EVLOG_STAT.LOST f 0 1) HIF_VF_EVLOG_STAT.OVERRUN f 0 1

theorem mem_logLost_logRecord_of_full (hfull : logCap f ≤ ((s.log f).length + 3) / 4) :
    f.val ∈ (logRecord s f type round a b).logLost := by
  rw [logRecord_of_full hfull]
  change f.val ∈ if s.logLost.contains f.val then s.logLost else f.val :: s.logLost
  split
  next hmark => exact List.contains_iff_mem.1 hmark
  next => exact List.mem_cons_self

/-- A record that the log takes stands at its end, with LOST where the log is marked. -/
theorem log_logRecord_of_room (hroom : ((s.log f).length + 3) / 4 < logCap f) :
    (logRecord s f type round a b).log f = s.log f ++ recordWords (s.logLost.contains f.val) type round s.now a b := by
  unfold logRecord
  rw [if_neg (Nat.not_le.2 hroom)]
  dsimp only
  split <;> exact log_setLog ..

/-- A record that the log takes ends its mark. -/
theorem logLost_logRecord_of_room (hroom : ((s.log f).length + 3) / 4 < logCap f) :
    (logRecord s f type round a b).logLost.contains f.val = false := by
  unfold logRecord
  rw [if_neg (Nat.not_le.2 hroom)]
  dsimp only
  split <;> simp

end eventLog

/-- Settles O54, by whether the log has a word to read, and by whether it has room for a record. -/
theorem theEventLogKeepsItsOrder : Obligations.TheEventLogKeepsItsOrder := by
  refine ⟨?word, ?empty, ?full, ?room⟩
  case word => exact fun s f w ws hl => ⟨exec_evlogDataRead_of_word hl, log_setLog ..⟩
  case empty => exact fun s f hl => ⟨_, exec_evlogDataRead_of_empty hl, fget_fset_self .., hl⟩
  case full =>
    rintro s _ f type round a b hfull rfl
    exact ⟨congrArg (·.log f) (logRecord_of_full hfull), fget_lost_logRecord_of_full hfull, fget_overrun_logRecord_of_full hfull,
      mem_logLost_logRecord_of_full hfull⟩
  case room =>
    rintro s _ _ f type round a b type2 round2 a2 b2 hlost hroom rfl hroom2 rfl
    constructor
    · rw [log_logRecord_of_room hroom, List.contains_iff_mem.2 hlost]
    · rw [log_logRecord_of_room hroom2, logLost_logRecord_of_room hroom]

end Sys2Proof.Machine

/-! PROOFS. Descriptors: the fetch, the start, and the admin ring's jobs (R414 to R416, R423, R426, R429, R591, R662). -/

namespace Sys2Proof.Machine

theorem jobOf_vfOf (j : JobId) : jobOf (vfOf j) = some j := dif_pos j.isLt

section fetches

variable {s : State} {f : Func} {d : Bytes}

theorem exec_descriptorFetch_of_ok (hmay : mayFetch s f = true) (hok : fetchStatus s f d = none) :
    exec (.descriptorFetch f d) s = .next ((takeSlotOf s f).modRing f (fun g => { g with descs := g.descs ++ [⟨d, false, false⟩] })) := by
  change execDescriptorFetch f d s = _
  simp only [execDescriptorFetch, hmay, hok, not_true_eq_false, if_false]

/-- A descriptor without BARRIER that fails a check completes at once. -/
theorem exec_descriptorFetch_of_bad {st : HStat} (hmay : mayFetch s f = true) (hbad : fetchStatus s f d = some st)
    (hfree : dBarrier d = false) : exec (.descriptorFetch f d) s = .next (complete (takeSlotOf s f) f d st (body 0 0 0 0)) := by
  change execDescriptorFetch f d s = _
  simp only [execDescriptorFetch, hmay, hbad, hfree, Bool.false_eq_true, false_and, not_true_eq_false, if_false]

theorem exec_descriptorFetchFail (hmay : mayFetch s f = true) :
    exec (.descriptorFetchFail f) s = .next (post (takeSlotOf s f) f ⟨1, HStat.hostAccess.code, 0, zeros 16, 0, false⟩) :=
  congrArg Host.Outcome.next (if_pos hmay)

end fetches

section startedDescriptors

variable {s t : State} {j : JobId} {d : Desc} {b pol : Bytes} {host : Option Bytes}

theorem exec_nopDescriptor_pf0 : exec (.nopDescriptor pf0) s = .next (startDesc s pf0 0 (fun t d => complete t pf0 d .ok (body 0 0 0 0))) := rfl

/-- A NOP of a VF starts while no abort of its job runs. -/
theorem exec_nopDescriptor_vf (hrun : abortRuns s j = false) :
    exec (.nopDescriptor (vfOf j)) s =
      .next (startDesc s (vfOf j) 0 (fun t d => complete t (vfOf j) d (if (t.job j).aborted then .jobState else .ok) (body 0 0 0 0))) := by
  change execNopDescriptor (vfOf j) s = _
  simp only [execNopDescriptor, jobOf_vfOf, hrun, Bool.false_eq_true, if_false]

theorem exec_jobCreate_of_ready (hready : (booted s && entropyStarting s) = false) :
    exec (.jobCreate host) s = .next (startDesc s pf0 1 (fun t d => createDesc t d host)) :=
  congrArg Host.Outcome.next (if_neg fun h => Bool.false_ne_true (hready.symm.trans (Bool.and_eq_true_iff.2 h)))

theorem exec_jobAbort_pf0 : exec (.jobAbort pf0) s = .next (startDesc s pf0 3 (fun t d => abortDesc t pf0 (dJob d) d)) := rfl

theorem exec_jobAbort_vf (hrun : abortRuns s j = false) :
    exec (.jobAbort (vfOf j)) s = .next (startDesc s (vfOf j) 3 (fun t d => abortDesc t (vfOf j) j d)) := by
  change execJobAbort (vfOf j) s = _
  simp only [execJobAbort, jobOf_vfOf, hrun, Bool.false_eq_true, if_false]

theorem abortDesc_of_alive {f : Func} (hj : s.alive j = true) :
    abortDesc s f j b = abortJob (complete s f b .ok (body 0 0 0 0)) j 1 (leAt b 17 1) false :=
  if_pos hj

/-- A JOB_CREATE of an absent job that lacks no part creates it. -/
theorem createDesc_of_complete (habsent : (s.job (dJob b)).present = false) (hboot : booted s = true)
    (hpol : fetchBuf s (dJob b).val (leAt b 24 8) 128 host = .ok pol) (hok : jobRefusal s (dJob b) (leAt b 17 1 == 1) pol = none) :
    createDesc s b host = complete (createJob s (dJob b) (leAt b 17 1 == 1) pol) pf0 b .ok (body 0 0 0 0) := by
  simp only [createDesc, habsent, hboot, hpol, hok, Bool.false_eq_true, not_true_eq_false, or_self, if_false]

/-- A JOB_CREATE of an absent job is refused with the first part that is missing. -/
theorem createDesc_of_missing {why : Nat} (habsent : (s.job (dJob b)).present = false) (hboot : booted s = true)
    (hpol : fetchBuf s (dJob b).val (leAt b 24 8) 128 host = .ok pol) (hbad : jobRefusal s (dJob b) (leAt b 17 1 == 1) pol = some why) :
    createDesc s b host = complete s pf0 b .jobRefused (body 0x80 why 0 0) := by
  simp only [createDesc, habsent, hboot, hpol, hbad, Bool.false_eq_true, not_true_eq_false, or_self, if_false]

theorem exec_jobTeardown_of_startable (hd : startable s pf0 2 = some d) (hj : (s.job (dJob d.bytes)).present = true)
    (hfirst : teardownDesc s (dJob d.bytes) = none) :
    exec .jobTeardown s =
      .next (beginTeardown (s.modRing pf0 (fun g => { g with descs := g.descs.replace d { d with started := true } })) (dJob d.bytes)) := by
  change execJobTeardown s = _
  simp only [execJobTeardown, hd, hj, hfirst, Option.isSome_none, Bool.false_eq_true, not_true_eq_false, or_self, if_false]

theorem exec_abortWaitDone_of_idle (hj : (s.job j).present = true) (habort : (s.job j).aborting.isSome = true)
    (hruns : (s.job j).aborted = false) (hidle : jobBusy s j = false) :
    exec (.abortWaitDone j) s = .next (advanceTeardown (completeAbort s j) j) :=
  congrArg Host.Outcome.next (if_pos ⟨hj, habort, Bool.eq_false_iff.1 hruns, Bool.eq_false_iff.1 hidle⟩)

end startedDescriptors

/-- Settles O23: a descriptor is fetched by the checks of its bytes, and once it may start it is taken off its ring and does what its opcode says; that JOB_ABORT completes as the abort starts is the model's choice (assumption 47). -/
theorem descriptorsAreFetchedAndStarted : Obligations.DescriptorsAreFetchedAndStarted := by
  refine ⟨?fetched, ?bad, ?failed, ?nopAdmin, ?nopVf, ?created, ?refused, ?teardown, ?abortAdmin, ?abortVf, ?abortDone⟩
  case fetched => exact fun _ _ _ => exec_descriptorFetch_of_ok
  case bad => exact fun _ _ _ _ => exec_descriptorFetch_of_bad
  case failed => exact fun _ _ => exec_descriptorFetchFail
  case nopAdmin =>
    intro s d hd
    rw [exec_nopDescriptor_pf0, startDesc_of_startable hd rfl]
  case nopVf =>
    intro s j d hrun hd
    rw [exec_nopDescriptor_vf hrun, startDesc_of_startable hd rfl]
  case created =>
    intro s host d t pol hready hd ht habsent hboot hpol hok
    rw [exec_jobCreate_of_ready hready, startDesc_of_startable hd ht, createDesc_of_complete habsent hboot hpol hok]
  case refused =>
    intro s host d t pol why hready hd ht habsent hboot hpol hbad
    rw [exec_jobCreate_of_ready hready, startDesc_of_startable hd ht, createDesc_of_missing habsent hboot hpol hbad]
  case teardown => exact fun _ _ => exec_jobTeardown_of_startable
  case abortAdmin =>
    intro s d hd hj
    rw [exec_jobAbort_pf0, startDesc_of_startable hd rfl, abortDesc_of_alive hj]
  case abortVf =>
    intro s j d hrun hd hj
    rw [exec_jobAbort_vf hrun, startDesc_of_startable hd rfl, abortDesc_of_alive hj]
  case abortDone => exact fun _ _ => exec_abortWaitDone_of_idle

end Sys2Proof.Machine

/-! PROOFS. The host's accesses to its rings, results and log (R412, R431 to R433, R436 to R438, R448, R450). -/

namespace Sys2Proof.Machine

section doorbells

variable {s : State} {f : Func} {v : BitVec 32}

theorem exec_sqTailDoorbell_inside (hen : fget s HIF_VF_SQ_CFG.ENABLE f 0 ≠ 0) (hin : v.toNat % 65536 < sqSize s f) :
    exec (.sqTailDoorbell f v) s = .next (fset s HIF_VF_SQ_TAIL.TAIL f 0 (v.toNat % 65536)) :=
  congrArg Host.Outcome.next ((if_neg hen).trans (if_neg (Nat.not_le.2 hin)))

theorem exec_sqTailDoorbell_beyond (hen : fget s HIF_VF_SQ_CFG.ENABLE f 0 ≠ 0) (hout : sqSize s f ≤ v.toNat % 65536) :
    exec (.sqTailDoorbell f v) s = .next (sqError s f) :=
  congrArg Host.Outcome.next ((if_neg hen).trans (if_pos hout))

theorem exec_cqHeadDoorbell_of_written (hen : fget s HIF_VF_CQ_CFG.ENABLE f 0 ≠ 0) (hin : v.toNat % 65536 < cqSize s f)
    (hfrees : (v.toNat % 65536 + cqSize s f - fget s HIF_VF_CQ_HEAD.HEAD f 0) % cqSize s f ≤ cqUsed s f) :
    exec (.cqHeadDoorbell f v) s = .next (fset s HIF_VF_CQ_HEAD.HEAD f 0 (v.toNat % 65536)) :=
  congrArg Host.Outcome.next ((if_neg hen).trans ((if_neg (Nat.not_le.2 hin)).trans (if_neg (Nat.not_lt.2 hfrees))))

/-- A head beyond the ring, or one that frees entries not written, is an error. -/
theorem exec_cqHeadDoorbell_of_bad (hen : fget s HIF_VF_CQ_CFG.ENABLE f 0 ≠ 0)
    (hbad : cqSize s f ≤ v.toNat % 65536 ∨ cqUsed s f < (v.toNat % 65536 + cqSize s f - fget s HIF_VF_CQ_HEAD.HEAD f 0) % cqSize s f) :
    exec (.cqHeadDoorbell f v) s = .next (cqError s f) := by
  refine congrArg Host.Outcome.next ((if_neg hen).trans ?_)
  by_cases hout : cqSize s f ≤ v.toNat % 65536
  · exact if_pos hout
  · exact (if_neg hout).trans (if_pos (hbad.resolve_left hout))

end doorbells

section ringEnables

variable {s : State} {f : Func} {v : BitVec 32}

/-- A disabled submission ring opens, unless the write asks a confidential job for ABI 1 or the function may not enable. -/
theorem exec_sqEnable_opens (habi : ((jobOf f).any (fun j => s.conf j) && bits v.toNat 17 16 == 1) = false) (hset : bit v.toNat 31 = true)
    (hwas : fget s HIF_VF_SQ_CFG.ENABLE f 0 = 0) (hmay : mayEnable (storeSqCfg s f v.toNat) f = true) :
    exec (.sqEnable f v) s = .next (openSq (fset (storeSqCfg s f v.toNat) HIF_VF_SQ_CFG.ENABLE f 0 1) f) := by
  have htaken : ¬ ((jobOf f).any (fun j => s.conf j) = true ∧ bit v.toNat 31 = true ∧ bits v.toNat 17 16 = 1) := by
    rintro ⟨hconf, -, hone⟩
    simp [hconf, hone] at habi
  refine congrArg Host.Outcome.next ((if_neg htaken).trans ?_)
  simp only [hset, hwas, hmay, not_true_eq_false, Nat.zero_ne_one, or_self, if_false]

theorem exec_sqEnable_clears (hclear : bit v.toNat 31 = false) :
    exec (.sqEnable f v) s = .next (fset (storeSqCfg s f v.toNat) HIF_VF_SQ_CFG.ENABLE f 0 0) := by
  change Host.Outcome.next (writeSqCfg s f v.toNat) = _
  simp only [writeSqCfg, hclear, Bool.false_eq_true, false_and, and_false, not_false_eq_true, if_true, if_false]

theorem exec_cqEnable_opens (hset : bit v.toNat 31 = true) (hwas : fget s HIF_VF_CQ_CFG.ENABLE f 0 = 0)
    (hmay : mayEnable (storeField f 0 v.toNat s HIF_VF_CQ_CFG.LOG2_SIZE) f = true) :
    exec (.cqEnable f v) s = .next (openCq (fset (storeField f 0 v.toNat s HIF_VF_CQ_CFG.LOG2_SIZE) HIF_VF_CQ_CFG.ENABLE f 0 1) f) := by
  change Host.Outcome.next (writeCqCfg s f v.toNat) = _
  simp only [writeCqCfg, hset, hwas, hmay, not_true_eq_false, Nat.zero_ne_one, or_self, if_false]

theorem exec_cqEnable_clears (hclear : bit v.toNat 31 = false) :
    exec (.cqEnable f v) s = .next (fset (storeField f 0 v.toNat s HIF_VF_CQ_CFG.LOG2_SIZE) HIF_VF_CQ_CFG.ENABLE f 0 0) :=
  congrArg Host.Outcome.next (if_pos (Bool.eq_false_iff.1 hclear))

end ringEnables

section hostReads

variable {s : State} {f : Func} {j : JobId} {v : BitVec 32} {r : Nat × Nat × Nat × Bytes}

/-- A read of RES_STAT answers what the results' register reads. -/
theorem exec_resStatRead {t : State} {n : Nat} (h : readResult s (vfOf j) = (n, t)) :
    exec (.resStatRead j) s = .next (emit t (.readValue (vfOf j) 0x48 n)) := by
  change execResStatRead j s = _
  simp only [execResStatRead, h]

theorem readResult_of_untaken {rs : List (Nat × Nat × Nat × Bytes)} (hr : (s.ring f).results = r :: rs) :
    readResult s f = (resultWord r, setGroup (s.modRing f (fun g => { g with results := rs, taken := some r })) HIF_VF_RES_DIGEST.DIGEST f r.2.2.2 6) := by
  simp only [readResult, hr]

theorem readResult_of_taken (hr : (s.ring f).results = []) (ht : (s.ring f).taken = some r) : readResult s f = (2 ^ 62 + resultWord r, s) := by
  simp only [readResult, hr, ht]

theorem readResult_of_none (hr : (s.ring f).results = []) (ht : (s.ring f).taken = none) : readResult s f = (2 ^ 63, s) := by
  simp only [readResult, hr, ht]

theorem exec_evlogFlush_partial (hall : bit v.toNat 1 = false) (hrest : bit v.toNat 0 = true) :
    exec (.evlogFlush f v) s = .next (s.setLog f ((s.log f).drop ((s.log f).length % 4))) :=
  congrArg Host.Outcome.next ((if_neg (Bool.eq_false_iff.1 hall)).trans (if_pos hrest))

theorem exec_evlogFlushAll (hall : bit v.toNat 1 = true) : exec (.evlogFlushAll f v) s = .next (s.setLog f []) :=
  congrArg Host.Outcome.next (if_pos hall)

end hostReads

/-- Settles O26: each access by what it meets, a tail or head inside its ring, a ring that may open, a result or word that is left; that an erroneous doorbell value is not stored, and the storing of LOG2_SIZE and ABI, are the model's choice (assumption 52). -/
theorem ringsAndLogsAnswerTheHost : Obligations.RingsAndLogsAnswerTheHost := by
  refine ⟨?tail, ?badTail, ?head, ?badHead, ?sqOpens, ?sqClears, ?cqOpens, ?cqClears, ?untaken, ?stale, ?noResult, ?word, ?emptyLog, ?flush, ?flushAll⟩
  case tail => exact fun _ _ _ => exec_sqTailDoorbell_inside
  case badTail => exact fun _ _ _ => exec_sqTailDoorbell_beyond
  case head => exact fun _ _ _ => exec_cqHeadDoorbell_of_written
  case badHead => exact fun _ _ _ => exec_cqHeadDoorbell_of_bad
  case sqOpens => exact fun _ _ _ => exec_sqEnable_opens
  case sqClears => exact fun _ _ _ => exec_sqEnable_clears
  case cqOpens => exact fun _ _ _ => exec_cqEnable_opens
  case cqClears => exact fun _ _ _ => exec_cqEnable_clears
  case untaken => exact fun _ _ _ _ hr => exec_resStatRead (readResult_of_untaken hr)
  case stale => exact fun _ _ _ hr ht => exec_resStatRead (readResult_of_taken hr ht)
  case noResult => exact fun _ _ hr ht => exec_resStatRead (readResult_of_none hr ht)
  case word => exact fun _ _ _ _ => exec_evlogDataRead_of_word
  case emptyLog => exact fun _ _ => exec_evlogDataRead_of_empty
  case flush => exact fun _ _ _ => exec_evlogFlush_partial
  case flushAll => exact fun _ _ _ => exec_evlogFlushAll

end Sys2Proof.Machine

/-! PROOFS. Ferry's blocks and notices, and the Hail handshake (R440, R442 to R446, R595). -/

namespace Sys2Proof.Machine

/-! The host's ends. -/

section ferryEnds

variable {s : State} {e : FerryEnd} {v : BitVec 32} {w : Word}

theorem writeTxCtrl_of_notice {n : Nat} (hn : bit n 8 = true) :
    writeTxCtrl s e n = s.modChan (txChan e) (fun c => { c with notice := c.notice ||| n / 2 ^ 32, noticeBy := endStamp e }) :=
  if_pos hn

/-- A block of 1 to 64 bytes is stored in an empty channel, and refused with BUSY by a full one. -/
theorem writeTxCtrl_of_block {n : Nat} (hn : bit n 8 = false) (hsome : n % 128 ≠ 0) (hfits : n % 128 ≤ 64) :
    writeTxCtrl s e n = if (s.chan (txChan e)).block.isSome then fset s FERRY_TX_STAT.BUSY e 0 1
      else s.modChan (txChan e) (fun c => { c with block := some (txBlock s e (n % 128), endStamp e) }) :=
  (if_neg (Bool.eq_false_iff.1 hn)).trans (if_neg (not_or.2 ⟨hsome, Nat.not_lt.2 hfits⟩))

theorem exec_ferryBlockSend : exec (.ferryBlockSend e w) s = .next (writeTxCtrl s e w.toNat) := rfl

theorem exec_ferryNoticeSend : exec (.ferryNoticeSend e w) s = .next (writeTxCtrl s e w.toNat) := rfl

theorem exec_ferryTake : exec (.ferryTake e v) s = .next (writeRxTake s e v.toNat) := rfl

/-- A take of a held block, with no send that firmware holds behind it, empties the channel. -/
theorem writeRxTake_of_last {n : Nat} (hn : bit n 0 = true) (hheld : (s.chan (rxChan e)).block.isNone = false)
    (hnone : ((s.modChan (rxChan e) (fun c => { c with block := none })).chan (rxChan e)).waiting = []) :
    writeRxTake s e n = s.modChan (rxChan e) (fun c => { c with block := none }) := by
  simp only [writeRxTake, hn, hheld, hnone, Bool.false_eq_true, not_true_eq_false, or_self, if_false]

/-- A take of a held block delivers the oldest send that firmware holds. -/
theorem writeRxTake_of_waiting {n : Nat} {b : Bytes} {bs : List Bytes} (hn : bit n 0 = true) (hheld : (s.chan (rxChan e)).block.isNone = false)
    (hnext : ((s.modChan (rxChan e) (fun c => { c with block := none })).chan (rxChan e)).waiting = b :: bs) :
    writeRxTake s e n =
      coreSend ((s.modChan (rxChan e) (fun c => { c with block := none })).modChan (rxChan e) (fun c => { c with waiting := bs })) e b := by
  simp only [writeRxTake, hn, hheld, hnext, Bool.false_eq_true, not_true_eq_false, or_self, if_false]

theorem exec_ferryRxReset (hv : bit v.toNat 0 = true) : exec (.ferryRxReset e v) s = .next (dueHail (resetReceiver s e) (endFunc e)) :=
  congrArg Host.Outcome.next (if_pos hv)

end ferryEnds

/-! Firmware's end. -/

section hail

variable {s : State} {f : Func} {ch : Fin 64} {b : Bytes} {w : Nat}

/-- A change of a channel is known by what it makes of the channel as it is. -/
theorem modChan_congr {g h : Channel → Channel} (hg : g (s.chan ch) = h (s.chan ch)) : s.modChan ch g = s.modChan ch h := by
  simp only [State.modChan, hg]

theorem exec_hailSend_of_due (hboot : booted s = true) (hdue : s.hailDue.contains f.val = true) :
    exec (.hailSend f) s = .next (
      let t := fset s HIF_VF_STATUS.HAIL_DONE f 0 0
      let u := { t with hailDue := t.hailDue.erase f.val, hailSession := putN t.hailSession f.val s.hailCount, hailCount := (s.hailCount + 1) % 2 ^ 32 }
      coreSend u (hailEnd f) (hailMsg 1 s.hailCount u.fwVersion 6)) :=
  congrArg Host.Outcome.next (if_neg (not_or.2 ⟨not_not_intro hboot, not_not_intro hdue⟩))

/-- Firmware takes a HAIL_ACK off its channel; the handshake ends if it echoes the session and version 4, and fails otherwise. -/
theorem exec_hailAck_of_ack (hb : (s.chan (txChan (hailEnd f))).block = some (b, w)) (hboot : booted s = true) (hack : isAck b = true) :
    exec (.hailAck f) s = .next (
      if lookup s.hailSession f.val = some (leAt b 4 4) ∧ leAt b 1 1 = 4 then
        endOutage (fset (hailReply (s.modChan (txChan (hailEnd f)) (fun c => { c with block := none })) f 4 (leAt b 4 4)) HIF_VF_STATUS.HAIL_DONE f 0 1)
      else ev (hailReply (s.modChan (txChan (hailEnd f)) (fun c => { c with block := none })) f 3 (leAt b 4 4)) HIF_EVENT.HAIL_FAIL_EV) := by
  change execHailAck f s = _
  simp only [execHailAck, hb, hboot, hack, not_true_eq_false, or_self, if_false]
  rfl

/-- Firmware takes and drops what a channel holds where the block is no HAIL_ACK or the channel carries none. -/
theorem exec_firmwareBlockTake_of_dropped (hboot : booted s = true) (hch : coreReceives ch = true)
    (hdrop : ch = 34 ∨ ((s.chan ch).block.map (fun b => !isAck b.1)).getD false = true) :
    exec (.firmwareBlockTake ch) s = .next (s.modChan ch (fun c => { c with block := none, notice := 0 })) := by
  refine congrArg Host.Outcome.next ((if_neg (not_or.2 ⟨not_not_intro hboot, not_not_intro hch⟩)).trans (modChan_congr ?_))
  simp only [if_pos hdrop]

end hail

/-- Settles O27: each command by what its channel holds, and the handshake by what the acknowledgement echoes. -/
theorem ferryCarriesBlocksAndHail : Obligations.FerryCarriesBlocksAndHail := by
  refine ⟨?stored, ?busy, ?notice, ?taken, ?delivered, ?noticeRead, ?reset, ?opened, ?acked, ?nacked, ?dropped, ?dropped34⟩
  case stored =>
    intro s e v hblock hsome hfits hempty
    rw [exec_ferryBlockSend, writeTxCtrl_of_block hblock hsome hfits, hempty, if_neg Bool.false_ne_true]
  case busy =>
    intro s e v hblock hsome hfits hfull
    rw [exec_ferryBlockSend, writeTxCtrl_of_block hblock hsome hfits, if_pos hfull]
  case notice =>
    intro s e v hnotice
    rw [exec_ferryNoticeSend, writeTxCtrl_of_notice hnotice]
  case taken =>
    intro s e v hv hheld hnone
    rw [exec_ferryTake, writeRxTake_of_last hv hheld hnone]
  case delivered =>
    intro s e v b bs hv hheld hnext
    rw [exec_ferryTake, writeRxTake_of_waiting hv hheld hnext]
  case noticeRead => exact fun _ _ => rfl
  case reset => exact fun _ _ _ => exec_ferryRxReset
  case opened => exact fun _ _ => exec_hailSend_of_due
  case acked =>
    intro s f b w hb hboot hack hecho
    rw [exec_hailAck_of_ack hb hboot hack, if_pos hecho]
  case nacked =>
    intro s f b w hb hboot hack hother
    rw [exec_hailAck_of_ack hb hboot hack, if_neg hother]
  case dropped =>
    intro s ch b w hboot hch hb hother
    exact exec_firmwareBlockTake_of_dropped hboot hch (.inr (by simp [hb, hother]))
  case dropped34 => exact fun s hboot => exec_firmwareBlockTake_of_dropped hboot rfl (.inl rfl)

end Sys2Proof.Machine

/-! PROOFS. The link, the HDM window, trust and the function-level resets (R399, R401, R405, R406, R410, R560, R632, R633). -/

namespace Sys2Proof.Machine

section link

variable {s : State} {lanes a : Nat}

theorem exec_linkTrain_of_enough (h : 8 ≤ lanes) : exec (.linkTrain lanes) s =
    .next (set1 (set1 (set1 s HIF_LINK.UP 1) HIF_LINK.WIDTH (if lanes < 16 then 8 else 16)) HIF_LINK.SPEED 0x40) :=
  congrArg Host.Outcome.next (if_neg (Nat.not_lt.2 h))

theorem exec_linkTrain_of_few (h : lanes < 8) : exec (.linkTrain lanes) s =
    .next (countSat (set1 (set1 (set1 s HIF_LINK.UP 0) HIF_LINK.WIDTH 0) HIF_LINK.SPEED 0) HIF_LINK.TRAIN_FAILS 0 0 1) :=
  congrArg Host.Outcome.next (if_pos h)

/-- An access inside some job's region reads the line or writes into it. -/
theorem exec_hdmAccess_inside (hin : inSomeRegion s a = true) (w : Option Bytes) :
    exec (.hdmAccess a w) s = .next (match w with
      | none => emit s (.hdm (memRead s.hdm (a / 64 * 64) 64) false)
      | some d => { s with hdm := memWrite s.hdm a (d.take (64 - a % 64)) }) := by
  cases w <;> exact congrArg Host.Outcome.next (if_pos hin)

/-- An access outside every region is counted: a read answers poison, a write is dropped. -/
theorem exec_hdmAccess_outside (hout : inSomeRegion s a = false) (w : Option Bytes) :
    exec (.hdmAccess a w) s = .next (match w with
      | none => emit (ev (count s HIF_HDM_ERR.COUNT 0 0 1) HIF_EVENT.HDM_EV) (.hdm (zeros 64) true)
      | some _ => ev (count s HIF_HDM_ERR.COUNT 0 0 1) HIF_EVENT.HDM_EV) := by
  cases w <;> exact congrArg Host.Outcome.next (if_neg (Bool.eq_false_iff.1 hout))

/-- As IDE stops every lock ends, and every confidential job loses its trust. -/
theorem exec_trustLoss_of_ide (hide : s.ideOn = true) : exec (.trustLoss none) s =
    .next (trustLost (ev { set1 s HIF_LINK.IDE_ACTIVE 0 with ideOn := false, tspLocked := [] } HIF_EVENT.IDE_EV) (fun _ => true)) :=
  congrArg Host.Outcome.next (if_neg (not_not_intro hide))

theorem exec_trustLoss_of_locked {k : JobId} (hlock : s.tspLocked.contains k.val = true) :
    exec (.trustLoss (some k)) s = .next (trustLost (ev (tspUnlock s k) HIF_EVENT.IDE_EV) (· == k)) :=
  congrArg Host.Outcome.next (if_pos hlock)

end link

/-- Settles O28: training by its lanes, the window by its regions, trust by its locks, and the resets as their operations in turn; that failed training clears WIDTH and SPEED, and how far a function's reset goes, are the model's choice (assumptions 54 and 55). -/
theorem theLinkAndItsResets : Obligations.TheLinkAndItsResets := by
  refine ⟨?up, ?down, ?read, ?write, ?poison, ?dropped, ?ide, ?unlocked, ?lock, ?vfReset, ?pf0Reset⟩
  case up => exact fun _ _ => exec_linkTrain_of_enough
  case down => exact fun _ _ => exec_linkTrain_of_few
  case read => exact fun _ _ hin => exec_hdmAccess_inside hin none
  case write => exact fun _ _ d hin => exec_hdmAccess_inside hin (some d)
  case poison => exact fun _ _ hout => exec_hdmAccess_outside hout none
  case dropped => exact fun _ _ d hout => exec_hdmAccess_outside hout (some d)
  case ide => exact fun _ => exec_trustLoss_of_ide
  case unlocked => exact fun _ _ => exec_trustLoss_of_locked
  case lock => exact fun _ _ => rfl
  case vfReset => exact fun _ _ => rfl
  case pf0Reset => exact fun _ => rfl

end Sys2Proof.Machine

/-! PROOFS. Requester work, its responses and timeouts, queue-pair states and contexts (R457, R459 to R462, R472, R476 to R481). -/

namespace Sys2Proof.Machine

/-! Requester work. -/

section requester

variable {s : State} {q : Qpn} {w : WorkReq}

/-- Work that waits for nothing, or for another queue pair of the same job, is posted on a queue pair in RTS whose class issues it; a peer-done write needs every check group of the job to have passed. -/
theorem exec_requesterPost_of_issuable (hrts : qpState s q = 3) (hrc : fget s RDMA_QP_CFG.TYPE q 0 = 0)
    (hclass : classSends (fget s RDMA_QP_CFG.CLASS q 0) w.kind = true)
    (hwait : ∀ o x, w.waitOn = some (o, x) → qpJob s o.val = qpJob s q ∧ o ≠ q)
    (hchecked : (w.kind == .writeImm && checksPending s (qpJob s q)) = false) :
    exec (.requesterPost q w) s = .next (
      let u := (noticePosted s q w).2
      let t := u.modQp q (fun x => { x with sent := x.sent ++ [(0, (noticePosted s q w).1, 0)] })
      breakWaits t.qps.length (pumpQp (t.qp q).sent.length q t)) := by
  have hfree : ¬ (w.kind = .writeImm ∧ checksPending s (qpJob s q) = true) := by
    simpa using hchecked
  refine congrArg Host.Outcome.next (if_neg (not_or.2 ⟨not_not_intro ⟨hrts, hrc, hclass, ?_⟩, hfree⟩))
  cases hw : w.waitOn with
  | none => rfl
  | some target => exact decide_eq_true (hwait _ _ hw)

/-- Only a SEND of a PEER queue pair is a notice. -/
theorem noticePosted_of_no_notice (h : w.kind ≠ .send ∨ fget s RDMA_QP_CFG.CLASS q 0 ≠ 1) : noticePosted s q w = (w, s) := if_pos h

/-- A notice's type says what its posting brings about. -/
theorem noticePosted_of_notice (hsend : w.kind = .send) (hpeer : fget s RDMA_QP_CFG.CLASS q 0 = 1) :
    noticePosted s q w =
      if beAt w.data 0 1 = 1 then
        ({ w with data := w.data.take 12 ++ toBe 4 (nextCheckSeq s (qpJob s q)).1 ++ w.data.drop 16 }, (nextCheckSeq s (qpJob s q)).2)
      else if beAt w.data 0 1 = 2 then (w, ev s TRI_EVENT.RETRACT_EV) else (w, s) := by
  refine (if_neg (not_or.2 ⟨not_not_intro hsend, not_not_intro hpeer⟩)).trans ?_
  split
  next hstream => rw [if_pos hstream]
  next hretract => rw [hretract, if_neg (by decide), if_pos rfl]
  next hstream hretract => rw [if_neg hstream, if_neg hretract]

theorem exec_requesterResponse_of_rts (hrts : qpState s q = 3) (psn : BitVec 24) (nak : Option Nak) :
    exec (.requesterResponse q psn nak) s = .next (
      let before := (psn.toNat + 2 ^ 24 - 1) % 2 ^ 24
      match nak with
      | none => pumpAll (ackWork s q psn.toNat)
      | some .psn => pumpAll (sendAgain (ackWork s q before) q)
      | some .access => pumpAll (failOldest (ackWork s q before) q 1)
      | some .invalid => pumpAll (failOldest (ackWork s q before) q 2)
      | some .operational => pumpAll (failOldest (ackWork s q before) q 3)) :=
  congrArg Host.Outcome.next (if_neg (not_not_intro hrts))

/-- A timeout with something outstanding spends a retry, or ends the oldest request where none is left. -/
theorem exec_retransmitTimeout_of_late (hrts : qpState s q = 3) (hout : (s.qp q).sent.any (fun e => e.2.2 == 1) = true)
    (hlate : (s.qp q).lastSend + retransmitNs s q ≤ s.now) :
    exec (.retransmitTimeout q) s = .next (
      if fget s RDMA_QP_CFG.RETRY q 0 ≤ (s.qp q).retries then failOldest s q 4
      else sendAgain (s.modQp q (fun x => { x with retries := x.retries + 1, lastSend := s.now })) q) :=
  congrArg Host.Outcome.next
    (if_neg (not_or.2 ⟨not_not_intro hrts, not_or.2 ⟨not_not_intro hout, Nat.not_lt.2 hlate⟩⟩))

end requester

/-! The state of a queue pair. -/

section queuePairStates

variable {s : State} {q : Nat} {v : Word}

theorem exec_qpStateWrite : exec (.qpStateWrite v) s = .next (writeQpCfg s v.toNat) := rfl

/-- Outside RESET a write acts on the selected queue pair's STATE alone. -/
theorem writeQpCfg_outside_reset {n : Nat} (hq : get1 s RDMA_QP_SEL.QPN = q) (htwo : 2 ≤ q) (hleft : qpState s q ≠ 0) :
    writeQpCfg s n = moveQp s q (RDMA_QP_CFG.STATE.of n) := by
  subst hq
  exact (if_neg (Nat.not_lt.2 htwo)).trans (if_neg hleft)

/-- In RESET the other fields are stored first, where the class and the type agree. -/
theorem writeQpCfg_in_reset {n : Nat} (hq : get1 s RDMA_QP_SEL.QPN = q) (htwo : 2 ≤ q) (hreset : qpState s q = 0)
    (hclass : classLeft s q n = 0 ∨ RDMA_QP_CFG.TYPE.of n ≠ 1) :
    writeQpCfg s n = moveQp (configureQp s q n) q (RDMA_QP_CFG.STATE.of n) := by
  subst hq
  refine (if_neg (Nat.not_lt.2 htwo)).trans ((if_pos hreset).trans (if_neg ?_))
  rintro ⟨hother, hdatagram⟩
  exact hclass.elim hother (· hdatagram)

/-- A queue pair outside RESET moves as a write asks, unless it is in ERROR and its job aborts or has been aborted. -/
theorem moveQp_of_free {next : Nat} (hleft : qpState s q ≠ 0) (hnew : next ≠ qpState s q)
    (hfree : qpState s q = 4 → (s.job (qpJob s q)).aborting.isSome = false ∧ (s.job (qpJob s q)).aborted = false) :
    moveQp s q next =
      if next = 0 then resetQp (fset s RDMA_QP_CFG.STATE q 0 0) q
      else if next = 4 then qpError s q 8
      else if next = qpState s q + 1 ∧ next ≤ 3 then fset s RDMA_QP_CFG.STATE q 0 next
      else s := by
  refine if_neg ?_
  rintro (hsame | ⟨herr, haborts⟩ | ⟨hreset, -⟩)
  · exact hnew hsame
  · simp [hfree herr] at haborts
  · exact hleft hreset

theorem moveQp_to_next (hleft : qpState s q ≠ 0) (hrts : qpState s q + 1 ≤ 3) :
    moveQp s q (qpState s q + 1) = fset s RDMA_QP_CFG.STATE q 0 (qpState s q + 1) := by
  rw [moveQp_of_free hleft (by omega) (by omega), if_neg (by omega), if_neg (by omega), if_pos ⟨rfl, hrts⟩]

theorem moveQp_to_error (hleft : qpState s q ≠ 0) (hok : qpState s q ≠ 4) : moveQp s q 4 = qpError s q 8 := by
  rw [moveQp_of_free hleft hok.symm (absurd · hok), if_neg (by decide), if_pos rfl]

theorem moveQp_to_reset (hleft : qpState s q ≠ 0)
    (hfree : (qpState s q == 4 && ((s.job (qpJob s q)).aborting.isSome || (s.job (qpJob s q)).aborted)) = false) :
    moveQp s q 0 = resetQp (fset s RDMA_QP_CFG.STATE q 0 0) q := by
  rw [moveQp_of_free hleft hleft.symm (fun herr => by simpa [herr] using hfree), if_pos rfl]

end queuePairStates

section contexts

variable {s : State} {q : Qpn}

theorem exec_qpContextLoad_of_room (hheld : s.missQueue.contains q.val = true) (hroom : (residentQps s).length < 65536) :
    exec (.qpContextLoad q) s = .next (loadQp s q.val) :=
  congrArg Host.Outcome.next ((if_neg (not_not_intro hheld)).trans (if_pos hroom))

/-- With 65,536 contexts on the die the least recently used that may leave makes room. -/
theorem exec_qpContextLoad_of_evicted {o : Nat} (hheld : s.missQueue.contains q.val = true) (hfull : 65536 ≤ (residentQps s).length)
    (hold : s.qpUse.find? (evictable s) = some o) : exec (.qpContextLoad q) s = .next (loadQp (evictQp s o) q.val) := by
  refine congrArg Host.Outcome.next ((if_neg (not_not_intro hheld)).trans ((if_neg (Nat.not_lt.2 hfull)).trans ?_))
  simp only [hold]

end contexts

/-- Settles O29: work by what its posting notices, a response by what it acknowledges, a timeout by the retries left, a STATE write by the state that it leaves, and a context by the room on the die. -/
theorem requestersAndTheirQueuePairs : Obligations.RequestersAndTheirQueuePairs := by
  refine ⟨?free, ?waiting, ?notice, ?response, ?again, ?exceeded, ?next, ?error, ?reset, ?configured, ?loaded, ?evicted⟩
  case free =>
    intro s q w hrts hrc hclass hnone hchecked
    exact exec_requesterPost_of_issuable hrts hrc hclass (by simp [hnone]) hchecked
  case waiting =>
    intro s q w o x hrts hrc hclass hwait hjob hother hchecked
    refine exec_requesterPost_of_issuable hrts hrc hclass (fun o' x' h => ?_) hchecked
    obtain ⟨rfl, rfl⟩ := Prod.mk.inj (Option.some.inj (hwait.symm.trans h))
    exact ⟨hjob, hother⟩
  case notice =>
    intro s t q w n hseq
    refine ⟨noticePosted_of_no_notice, fun hsend hpeer hstream => ?_, fun hsend hpeer hretract => ?_, fun hsend hpeer hstream hretract => ?_⟩
    · rw [noticePosted_of_notice hsend hpeer, if_pos hstream, hseq]
    · rw [noticePosted_of_notice hsend hpeer, if_neg (by simp [hretract]), if_pos hretract]
    · rw [noticePosted_of_notice hsend hpeer, if_neg hstream, if_neg hretract]
  case response =>
    intro s q psn hrts
    have hnak := exec_requesterResponse_of_rts hrts psn
    exact ⟨hnak none, hnak (some .psn), hnak (some .access), hnak (some .invalid), hnak (some .operational)⟩
  case again =>
    intro s q hrts hout hlate hleft
    rw [exec_retransmitTimeout_of_late hrts hout hlate, if_neg (Nat.not_le.2 hleft)]
  case exceeded =>
    intro s q hrts hout hlate hspent
    rw [exec_retransmitTimeout_of_late hrts hout hlate, if_pos hspent]
  case next =>
    intro s v q hq htwo hleft hnext hrts
    rw [exec_qpStateWrite, writeQpCfg_outside_reset hq htwo hleft, hnext, moveQp_to_next hleft hrts]
  case error =>
    intro s v q hq htwo hleft hok herr
    rw [exec_qpStateWrite, writeQpCfg_outside_reset hq htwo hleft, herr, moveQp_to_error hleft hok]
  case reset =>
    intro s v q hq htwo hleft hfree hreset
    rw [exec_qpStateWrite, writeQpCfg_outside_reset hq htwo hleft, hreset, moveQp_to_reset hleft hfree, resetQp]
  case configured =>
    intro s v q hq htwo hreset hclass
    rw [exec_qpStateWrite, writeQpCfg_in_reset hq htwo hreset hclass]
  case loaded => exact fun _ _ => exec_qpContextLoad_of_room
  case evicted => exact fun _ _ _ => exec_qpContextLoad_of_evicted

end Sys2Proof.Machine

/-! PROOFS. The keys of sealed queue pairs (R487, R488, R551, R562). -/

namespace Sys2Proof.Machine

/-! The write of RDMA_SQP_CTRL. -/

section sealedControl

variable {s t : State} {q n : Nat} {v : BitVec 32}

theorem exec_sqpGenKey : exec (.sqpGenKey v) s = .next (writeSqpCtrl s v.toNat) := rfl

theorem exec_sqpApply : exec (.sqpApply v) s = .next (writeSqpCtrl s v.toNat) := rfl

theorem writeSqpCtrl_of_genKey (hq : get1 s RDMA_QP_SEL.QPN = q) (htwo : 2 ≤ q) (hgen : RDMA_SQP_CTRL.GEN_KEY.of n = 1)
    (happly : RDMA_SQP_CTRL.APPLY.of n = 0) (hrole : fset s RDMA_SQP_CTRL.ROLE q 0 (RDMA_SQP_CTRL.ROLE.of n) = t) :
    writeSqpCtrl s n = genSqpKey t q := by
  subst hq hrole
  simp only [writeSqpCtrl, Nat.not_lt.2 htwo, hgen, happly, Nat.zero_ne_one, if_true, if_false]

theorem writeSqpCtrl_of_apply (hq : get1 s RDMA_QP_SEL.QPN = q) (htwo : 2 ≤ q) (hgen : RDMA_SQP_CTRL.GEN_KEY.of n = 0)
    (happly : RDMA_SQP_CTRL.APPLY.of n = 1) (hrole : fset s RDMA_SQP_CTRL.ROLE q 0 (RDMA_SQP_CTRL.ROLE.of n) = t) :
    writeSqpCtrl s n = applySqp t q := by
  subst hq hrole
  simp only [writeSqpCtrl, Nat.not_lt.2 htwo, hgen, happly, Nat.zero_ne_one, if_true, if_false]

end sealedControl

/-! GEN_KEY and APPLY. -/

section sealedKeys

variable {s u : State} {q d : Nat}

/-- With the entropy unit READY a sealed queue pair gets its key at once. -/
theorem genSqpKey_of_ready (hsealed : qpSealed s q = true) (hready : entropyReady s = true) : genSqpKey s q = makeSqpKey s q :=
  (if_neg (not_not_intro hsealed)).trans (if_pos hready)

/-- The key waits for an entropy unit in STARTUP. -/
theorem genSqpKey_of_starting (hsealed : qpSealed s q = true) (hready : entropyReady s = false) (hstart : entropyStarting s = true) :
    genSqpKey s q = s.modQp q (fun x => { x with keyWait := true }) :=
  (if_neg (not_not_intro hsealed)).trans ((if_neg (Bool.eq_false_iff.1 hready)).trans (if_pos hstart))

theorem genSqpKey_of_failed (hsealed : qpSealed s q = true) (hready : entropyReady s = false) (hstart : entropyStarting s = false) :
    genSqpKey s q = fset s RDMA_SQP_CTRL.STATE q 0 3 :=
  (if_neg (not_not_intro hsealed)).trans ((if_neg (Bool.eq_false_iff.1 hready)).trans (if_neg (Bool.eq_false_iff.1 hstart)))

/-- The scalar drawn becomes the ephemeral key, and its point shows. -/
theorem makeSqpKey_of_drawn (hdraw : drawScalar (served s 1) = (d, u)) :
    makeSqpKey s q = (
      let w := (tollDone u (some (qpJob u q)) 1 0).modQp q (fun x => { x with priv := some d, keys := none, keyWait := false })
      let z := (List.range 13).foldl (fun (t : State) (n : Nat) => fset t RDMA_SQP_LOCAL.POINT q n (beAt (publicOf d ++ zeros 7) (8 * n) 8)) w
      fset z RDMA_SQP_CTRL.STATE q 0 1) := by
  simp only [makeSqpKey, hdraw]

/-- A confidential job's queue pair is KEYED only with a point that its guest has vouched for. -/
theorem applySqp_of_unvouched (hpriv : (s.qp q).priv = some d) (hst : fget s RDMA_SQP_CTRL.STATE q 0 = 1)
    (hconf : s.conf (qpJob s q) = true) (hvouch : vouched s q = false) :
    applySqp s q = ev (fset (s.modQp q (fun x => { x with priv := none })) RDMA_SQP_CTRL.STATE q 0 3) KST_EVENT.ORIGIN_EV := by
  simp only [applySqp, hpriv, hst, hconf, hvouch, Bool.false_eq_true, not_false_eq_true, and_self, if_true]

theorem applySqp_of_off_curve (hpriv : (s.qp q).priv = some d) (hst : fget s RDMA_SQP_CTRL.STATE q 0 = 1)
    (hvouch : s.conf (qpJob s q) = true → vouched s q = true) (hpt : decodePt (peerPoint s q) = none) :
    applySqp s q = fset (s.modQp q (fun x => { x with priv := none })) RDMA_SQP_CTRL.STATE q 0 3 := by
  have hmay : ¬ (s.conf (qpJob s q) = true ∧ ¬ vouched s q = true) := fun h => h.2 (hvouch h.1)
  simp only [applySqp, hpriv, hst, hpt, if_neg hmay]

/-- A valid point gives the keys of R488 and sends what is queued; a confidential job's vouch is used up. -/
theorem applySqp_of_valid {pt : Nat × Nat} (hpriv : (s.qp q).priv = some d) (hst : fget s RDMA_SQP_CTRL.STATE q 0 = 1)
    (hvouch : s.conf (qpJob s q) = true → vouched s q = true) (hpt : decodePt (peerPoint s q) = some pt) :
    applySqp s q = (
      let u := s.modQp q (fun x => { x with priv := none })
      let y := if s.conf (qpJob s q) = true then
          (List.range 6).foldl (fun (u : State) (n : Nat) => fset u KST_VF_PEER_HASH.HASH (qpJob s q) n 0) (fset u KST_VF_ORIGIN_QPN.QPN (qpJob s q) 0 0)
        else u
      let w := y.modQp q (fun x => { x with keys := some (sqpKeys s q d pt), txCount := 0, rxCount := 0, badTags := 0 })
      pumpQp (w.qp q).sent.length q (fset (tollDone w (some (qpJob s q)) 1 3) RDMA_SQP_CTRL.STATE q 0 2)) := by
  have hmay : ¬ (s.conf (qpJob s q) = true ∧ ¬ vouched s q = true) := fun h => h.2 (hvouch h.1)
  simp only [applySqp, hpriv, hst, hpt, if_neg hmay]

end sealedKeys

/-- Settles O30: GEN_KEY by the entropy unit's state, APPLY by the peer's point and, for a confidential job, its guest's vouch; what a key adds to Toll's counts is the model's choice (assumption 80). -/
theorem sealedQueuePairsAreKeyed : Obligations.SealedQueuePairsAreKeyed := by
  refine ⟨?made, ?waits, ?failed, ?keyed, ?keyedVouched, ?unvouched, ?offCurve⟩
  case made =>
    intro s v q t d u hq htwo hgen happly hrole hsealed hready hdraw
    rw [exec_sqpGenKey, writeSqpCtrl_of_genKey hq htwo hgen happly hrole, genSqpKey_of_ready hsealed hready, makeSqpKey_of_drawn hdraw]
  case waits =>
    intro s v q t hq htwo hgen happly hrole hsealed hready hstart
    rw [exec_sqpGenKey, writeSqpCtrl_of_genKey hq htwo hgen happly hrole, genSqpKey_of_starting hsealed hready hstart]
  case failed =>
    intro s v q t hq htwo hgen happly hrole hsealed hready hstart
    rw [exec_sqpGenKey, writeSqpCtrl_of_genKey hq htwo hgen happly hrole, genSqpKey_of_failed hsealed hready hstart]
  case keyed =>
    intro s v q t d pt hq htwo hgen happly hrole hpriv hst hconf hpt
    rw [exec_sqpApply, writeSqpCtrl_of_apply hq htwo hgen happly hrole, applySqp_of_valid hpriv hst (by simp [hconf]) hpt]
    simp only [hconf, Bool.false_eq_true, if_false]
  case keyedVouched =>
    intro s v q t d pt hq htwo hgen happly hrole hpriv hst hconf hvouch hpt
    rw [exec_sqpApply, writeSqpCtrl_of_apply hq htwo hgen happly hrole, applySqp_of_valid hpriv hst (fun _ => hvouch) hpt]
    simp only [hconf, if_true]
  case unvouched =>
    intro s v q t d hq htwo hgen happly hrole hpriv hst hconf hvouch
    rw [exec_sqpApply, writeSqpCtrl_of_apply hq htwo hgen happly hrole, applySqp_of_unvouched hpriv hst hconf hvouch]
  case offCurve =>
    intro s v q t d hq htwo hgen happly hrole hpriv hst hconf hpt
    rw [exec_sqpApply, writeSqpCtrl_of_apply hq htwo hgen happly hrole, applySqp_of_off_curve hpriv hst (by simp [hconf]) hpt]

end Sys2Proof.Machine

/-! PROOFS. Memory regions: registration, lowered rights and revocation (R464, R465, R483 to R486). -/

namespace Sys2Proof.Machine

section regionWrites

variable {s t : State} {j : JobId} {g n : Nat}

theorem exec_regionRegister {v : Word} : exec (.regionRegister v) s = .next (writeRegCfg s v.toNat) := rfl

theorem exec_regionRevoke {v : Word} : exec (.regionRevoke v) s = .next (writeRegCfg s v.toNat) := rfl

theorem exec_rightsLower {v : Word} : exec (.rightsLower v) s = .next (writeRegCfg s v.toNat) := rfl

/-- A write with REGISTER of a FREE region stores its fields, which R465 then judges. -/
theorem writeRegCfg_of_free (hj : Fin.ofNat 16 (get1 s RDMA_JOB_SEL.JOB) = j) (hg : get1 s RDMA_REG_SEL.REGION = g)
    (hfree : fget s RDMA_REG_CFG.STATE j g = 0) (hreg : RDMA_REG_CFG.REGISTER.of n = 1)
    (ht : [RDMA_REG_CFG.KIND, RDMA_REG_CFG.RIGHTS, RDMA_REG_CFG.GROUP, RDMA_REG_CFG.MEMBER, RDMA_REG_CFG.BIND_EN, RDMA_REG_CFG.BIND_QP].foldl
      (fun (u : State) (f : Fld) => fset u f j g (f.of n)) s = t) :
    writeRegCfg s n = registerRegion t j g := by
  subst hj hg ht
  simp only [writeRegCfg, hfree, hreg, if_true]

/-- A write of a LIVE region writes its RIGHTS, then revokes it where REVOKE asks so. -/
theorem writeRegCfg_of_live (hj : Fin.ofNat 16 (get1 s RDMA_JOB_SEL.JOB) = j) (hg : get1 s RDMA_REG_SEL.REGION = g)
    (hlive : fget s RDMA_REG_CFG.STATE j g = 1) :
    writeRegCfg s n =
      if RDMA_REG_CFG.REVOKE.of n = 1 then beginRevoke (writeRights s j g (RDMA_REG_CFG.RIGHTS.of n)) j g
      else writeRights s j g (RDMA_REG_CFG.RIGHTS.of n) := by
  subst hj hg
  simp only [writeRegCfg, hlive]

theorem writeRights_of_same : writeRights s j g (fget s RDMA_REG_CFG.RIGHTS j g) = s := if_pos (.inl rfl)

/-- A write that adds any right is ignored. -/
theorem writeRights_of_raise (hraise : n &&& fget s RDMA_REG_CFG.RIGHTS j g ≠ n) : writeRights s j g n = s := if_pos (.inr hraise)

theorem writeRights_of_lower (hnew : n ≠ fget s RDMA_REG_CFG.RIGHTS j g) (hlower : n &&& fget s RDMA_REG_CFG.RIGHTS j g = n) :
    writeRights s j g n = { fset s RDMA_REG_CFG.RIGHTS j g n with revoking := s.revoking ++ [(j.val, g, s.now, true)] } :=
  if_neg (not_or.2 ⟨hnew, not_not_intro hlower⟩)

theorem beginRevoke_of_live (hlive : fget s RDMA_REG_CFG.STATE j g = 1) :
    beginRevoke s j g = { fset s RDMA_REG_CFG.STATE j g 2 with revoking := s.revoking ++ [(j.val, g, s.now, false)] } :=
  if_pos hlive

end regionWrites

section revocations

variable {s : State} {j : JobId} {g : Fin 4096}

theorem exec_revokeComplete_of_finished (hruns : revocations s j g ≠ []) (hdone : unfinished s j g = []) :
    exec (.revokeComplete j g) s = .next (finishRevoke s j g) :=
  congrArg Host.Outcome.next (if_neg (not_or.2 ⟨hruns, not_not_intro hdone⟩))

/-- A WRITE unfinished when WAIT_US has passed is cut off. -/
theorem exec_revokeCutoff_of_late
    (hlate : (revocations s j g).any (fun v => decide (v.2.2.1 + 1000 * get1 s RDMA_REVOKE.WAIT_US ≤ s.now)) = true)
    (hopen : unfinished s j g ≠ []) :
    exec (.revokeCutoff j g) s = .next (
      let t := { s with openWrites := s.openWrites.map (fun w => if w.job == j && w.region == g.val then { w with cut := true } else w) }
      finishRevoke (ev t RDMA_EVENT.CUTOFF_EV) j g) :=
  congrArg Host.Outcome.next (if_neg (not_or.2 ⟨not_not_intro hlate, hopen⟩))

end revocations

/-- Settles O31: a write by the region's state and what it does to RIGHTS, a revocation by the WRITEs that it still waits for. -/
theorem regionsAreRegisteredAndRevoked : Obligations.RegionsAreRegisteredAndRevoked := by
  refine ⟨?live, ?refused, ?revoked, ?lowered, ?raised, ?complete, ?cutOff⟩
  case live =>
    intro s v j g t hj hg hfree hreg ht hok
    rw [exec_regionRegister, writeRegCfg_of_free hj hg hfree hreg ht, registerRegion, if_pos hok]
  case refused =>
    intro s v j g t hj hg hfree hreg ht hbad
    rw [exec_regionRegister, writeRegCfg_of_free hj hg hfree hreg ht, registerRegion, if_neg (Bool.eq_false_iff.1 hbad)]
  case revoked =>
    intro s v j g hj hg hlive hsame hrevoke
    rw [exec_regionRevoke, writeRegCfg_of_live hj hg hlive, if_pos hrevoke, hsame, writeRights_of_same, beginRevoke_of_live hlive]
  case lowered =>
    intro s v j g hj hg hlive hnew hlower hkeep
    rw [exec_rightsLower, writeRegCfg_of_live hj hg hlive, if_neg (by simp [hkeep]), writeRights_of_lower hnew hlower]
  case raised =>
    intro s v j g hj hg hlive hraise hkeep
    rw [exec_rightsLower, writeRegCfg_of_live hj hg hlive, if_neg (by simp [hkeep]), writeRights_of_raise hraise]
  case complete => exact fun _ _ _ => exec_revokeComplete_of_finished
  case cutOff => exact fun _ _ _ => exec_revokeCutoff_of_late

end Sys2Proof.Machine

/-! PROOFS. Tide's time: PTP, the loss of sync, holdover and 1PPS (R492, R495 to R499, R507, R509). -/

namespace Sys2Proof.Machine

section time

variable {s : State} {p : Port} {a : Announce}

/-- An Announce of the configured domain is taken where no grandmaster is chosen, or where it beats or renews the chosen one. -/
theorem exec_ptpAnnounce_of_taken (hport : ptpPort s p = true) (hdom : a.domain.toNat = get1 s TIDE_CTRL.DOMAIN)
    (htakes : s.best = none ∨ announceGone s = true ∨
      ∃ o, s.best = some o ∧ (o.1 == p.val && o.2.identity == a.identity || better p a o) = true) :
    exec (.ptpAnnounce p a) s = .next (
      let t := if get1 s TIDE_GM.ID = a.identity.toNat then s else ev s TIDE_EVENT.GM_EV
      { set1 (set1 t TIDE_GM.ID a.identity.toNat) TIDE_STATUS.PORT p.val with best := some (p.val, a), lastAnnounce := s.now }) := by
  refine congrArg Host.Outcome.next ((if_neg (not_or.2 ⟨not_not_intro hport, not_not_intro hdom⟩)).trans (if_pos ?_))
  cases hbest : s.best with
  | none => rfl
  | some o =>
    rw [hbest] at htakes
    obtain hnone | hgone | ⟨_, hsome, hbetter⟩ := htakes
    · cases hnone
    · simp only [hgone, Bool.true_or]
    · cases hsome
      simp only [Bool.or_assoc, hbetter, Bool.or_true]

/-- While the chosen grandmaster is heard, an Announce that neither renews nor beats it changes nothing. -/
theorem exec_ptpAnnounce_of_worse {o : Nat × Announce} (hbest : s.best = some o) (hheard : announceGone s = false)
    (hworse : (o.1 == p.val && o.2.identity == a.identity || better p a o) = false) : exec (.ptpAnnounce p a) s = .next s := by
  refine congrArg Host.Outcome.next (ite_eq_left_iff.2 fun _ => if_neg ?_)
  simp only [hbest, hheard, Bool.false_or, hworse, Bool.false_eq_true, not_false_eq_true]

theorem exec_ptpSync_of_accepted {m : SyncPair} (hacc : syncAccepted s p m = true) :
    exec (.ptpSync p m) s = .next (
      let t := set1 (emit s (.delayReq p)) TIDE_ERR.OFFSET (showOffset m.offset)
      let u := afterOffset (correct t m.offset) m.offset
      { u with lastSync := u.now }) :=
  congrArg Host.Outcome.next (if_neg (not_not_intro hacc))

theorem correct_of_step {o : Int} (hstep : get1 s TIDE_STATUS.STATE = 0 ∨ o < -1000000) : correct s o = stepTime s o := if_pos hstep

theorem correct_of_slew {o : Int} (hlocked : get1 s TIDE_STATUS.STATE ≠ 0) (hnear : -1000000 ≤ o) :
    correct s o = { s with slew := -o, slewTicks := 0 } :=
  if_neg (not_or.2 ⟨hlocked, Int.not_lt.2 hnear⟩)

theorem exec_syncLossTimeout_of_lost (hst : get1 s TIDE_STATUS.STATE = 1 ∨ get1 s TIDE_STATUS.STATE = 2)
    (hlost : s.lastSync + 2 * 10 ^ 9 ≤ s.now ∨ announceGone s = true) :
    exec .syncLossTimeout s = .next (setTimeState { s with holdErr := estimate s, holdStart := s.now, goodOffsets := 0 } 3) :=
  congrArg Host.Outcome.next (if_pos ⟨hst, hlost⟩)

theorem exec_holdoverLimit_of_reached (hst : get1 s TIDE_STATUS.STATE = 3) (hlimit : 1000 * get1 s TIDE_HOLD.LIMIT_US ≤ estimate s) :
    exec .holdoverLimit s = .next (setTimeState s 4) :=
  congrArg Host.Outcome.next (if_pos ⟨hst, hlimit⟩)

theorem exec_ppsEdge_of_enabled (hen : on s TIDE_CTRL.PPS_EN = true) (e : Int) :
    exec (.ppsEdge e) s = .next (if e.natAbs ≤ 1000 then { s with lastPps := some s.now } else ev s TIDE_EVENT.PPS_REJ_EV) :=
  congrArg Host.Outcome.next (if_neg (not_not_intro hen))

end time

/-- Settles O32: an Announce by the grandmaster chosen, an offset by the state and its size, a time state by what was lost or reached, and an edge by its distance; that an edge is accepted in any state, the sign of the offset and the step at the first one are the model's choice (assumption 63). -/
theorem timeIsKept : Obligations.TimeIsKept := by
  refine ⟨?taken, ?worse, ?sync, ?step, ?slew, ?lost, ?doubtful, ?edge, ?farEdge⟩
  case taken => exact fun _ _ _ => exec_ptpAnnounce_of_taken
  case worse => exact fun _ _ _ _ => exec_ptpAnnounce_of_worse
  case sync => exact fun _ _ _ => exec_ptpSync_of_accepted
  case step =>
    intro s o hstep
    rw [correct_of_step hstep, stepTime]
  case slew => exact fun _ _ => correct_of_slew
  case lost => exact fun _ => exec_syncLossTimeout_of_lost
  case doubtful => exact fun _ => exec_holdoverLimit_of_reached
  case edge =>
    intro s e hen hnear
    rw [exec_ppsEdge_of_enabled hen, if_pos hnear]
  case farEdge =>
    intro s e hen hfar
    rw [exec_ppsEdge_of_enabled hen, if_neg (Nat.not_le.2 hfar)]

end Sys2Proof.Machine

/-! PROOFS. Steps one after another: a nanosecond on an empty queue, and what a run of steps takes and keeps (R28, R494, R499, R534, R551, R598). -/

namespace Sys2Proof.Machine

/-! A nanosecond of module time. -/

section tick

variable {s : State}

theorem step_of_pending_nil (h : s.pending = []) : step s = .next (tick s) := by
  simp only [step, h]

theorem tickTime_of_still (h : s.slew = 0) : tickTime s = { s with now := s.now + 1, slewTicks := 0 } := if_pos h

theorem tickTime_of_forward (hslew : 0 < s.slew) (hlast : s.slewTicks = 9999) :
    tickTime s = { s with now := s.now + 2, slew := s.slew - 1, slewTicks := 0 } := by
  have hnear : ¬ s.slew < -1000000 := by omega
  simp [tickTime, hlast, hslew.ne', hnear, hslew]

/-- A slew backward withholds the last tick of its span, which is shorter while the module is more than 1 ms ahead. -/
theorem tickTime_of_backward (hslew : s.slew < 0) (hlast : s.slewTicks + 1 = if s.slew < -1000000 then 1000 else 10000) :
    tickTime s = { s with slew := s.slew + 1, slewTicks := 0 } := by
  simp [tickTime, hlast, hslew.ne, hslew.not_gt]

/-- Whatever the slew, time goes on by at most 2, and only the time and the slew change. -/
theorem tickTime_eq (s : State) : ∃ n l k, n ≤ 2 ∧ tickTime s = { s with now := s.now + n, slew := l, slewTicks := k } := by
  unfold tickTime
  dsimp only
  generalize (if s.slew < -1000000 then 1000 else 10000) = span
  split_ifs
  · exact ⟨1, s.slew, 0, by decide, rfl⟩
  · exact ⟨1, s.slew, s.slewTicks + 1, by decide, rfl⟩
  · exact ⟨2, s.slew - 1, 0, by decide, rfl⟩
  · exact ⟨0, s.slew + 1, 0, by decide, rfl⟩

/-- From `s` to `t` only registers change, and what the clusters' counters keep from cycle to cycle. -/
def Cycled (s t : State) : Prop := ∃ r p l, t = { s with regs := r, pmuPart := p, pmuLast := l }

theorem Cycled.refl (s : State) : Cycled s s := ⟨s.regs, s.pmuPart, s.pmuLast, rfl⟩

theorem Cycled.trans {t u : State} (h : Cycled s t) (k : Cycled t u) : Cycled s u := by
  obtain ⟨_, _, _, rfl⟩ := h
  obtain ⟨r, p, l, rfl⟩ := k
  exact ⟨r, p, l, rfl⟩

theorem Cycled.foldl {α : Type} {f : State → α → State} (hf : ∀ t a, Cycled t (f t a)) (l : List α) : Cycled s (l.foldl f s) :=
  List.foldlRecOn (motive := Cycled s) l f (.refl s) fun t ht a _ => ht.trans (hf t a)

theorem cycled_fset (s : State) (f : Fld) (a b v : Nat) : Cycled s (fset s f a b v) := ⟨_, s.pmuPart, s.pmuLast, rfl⟩

theorem cycled_pmuAdd (s : State) (i n : Nat) : Cycled s (pmuAdd s i n) := by
  unfold pmuAdd
  dsimp only
  split
  · exact ((cycled_fset ..).trans (cycled_fset ..)).trans (cycled_fset ..)
  · exact cycled_fset ..

theorem cycled_cycleCounter (s : State) (i : Nat) : Cycled s (cycleCounter s i) := by
  unfold cycleCounter
  dsimp only
  split
  · exact (cycled_pmuAdd s i _).trans ⟨_, _, _, rfl⟩
  · exact .refl s

theorem cycled_cycle (s : State) (c : Nat) : Cycled s (cycle s c) :=
  (cycled_fset ..).trans (.foldl (fun t n => cycled_cycleCounter t (8 * c + n)) (List.range 8))

theorem cycled_tickCluster (s : State) (c : Nat) : Cycled s (tickCluster s c) := by
  unfold tickCluster
  dsimp only
  split_ifs
  · exact .refl s
  · exact ⟨_, _, _, rfl⟩
  · exact .trans ⟨_, _, _, rfl⟩ (cycled_cycle _ c)

theorem cycled_tick (s : State) : Cycled { tickTime s with clock := s.clock + 1 } (tick s) := .foldl cycled_tickCluster (List.range 5)

/-- The times and the slew after a step on an empty queue are those that the tick gives. -/
theorem step_of_tickTime {t : State} (hq : s.pending = []) (ht : tickTime s = t) :
    ∃ r p l, step s = .next { t with clock := s.clock + 1, regs := r, pmuPart := p, pmuLast := l } := by
  obtain ⟨r, p, l, h⟩ := cycled_tick s
  exact ⟨r, p, l, by rw [step_of_pending_nil hq, h, ht]⟩

end tick

/-- Settles O46, by what a tick does to the time and by the frame of the clusters' cycles; that idling is a tick is the model's choice (assumption 11). -/
theorem anEmptyQueueLetsANanosecondPass : Obligations.AnEmptyQueueLetsANanosecondPass := by
  refine ⟨?passes, ?still, ?forward, ?farAhead, ?backward⟩
  case passes =>
    intro s hq
    obtain ⟨n, l, k, hn, ht⟩ := tickTime_eq s
    obtain ⟨_, _, _, h⟩ := step_of_tickTime hq ht
    exact ⟨_, h, hq, rfl, Nat.le_add_right .., Nat.add_le_add_left hn _, rfl, rfl, rfl⟩
  case still =>
    intro s hq hslew
    obtain ⟨_, _, _, h⟩ := step_of_tickTime hq (tickTime_of_still hslew)
    exact ⟨_, h, rfl, hslew⟩
  case forward =>
    intro s hq hslew hlast
    obtain ⟨_, _, _, h⟩ := step_of_tickTime hq (tickTime_of_forward hslew hlast)
    exact ⟨_, h, rfl, rfl, rfl⟩
  case farAhead =>
    intro s hq hfar hlast
    obtain ⟨_, _, _, h⟩ := step_of_tickTime hq (tickTime_of_backward (by omega) (by rw [if_pos hfar, hlast]))
    exact ⟨_, h, rfl, rfl, rfl⟩
  case backward =>
    intro s hq hnear hslew hlast
    obtain ⟨_, _, _, h⟩ := step_of_tickTime hq (tickTime_of_backward hslew (by rw [if_neg (Int.not_lt.2 hnear), hlast]))
    exact ⟨_, h, rfl, rfl, rfl⟩

/-! Runs. -/

section runs

variable {s t : State}

theorem exec_keeps {c : Instr} (h : exec c s = .next t) : Keeps s t := by
  obtain ⟨u, hu, keep⟩ := exec_answers (s := s) .rfl c
  cases hu.symm.trans h
  exact keep

/-- What a command owes the machine does not speak of which commands still wait. -/
theorem Keeps.withPending (keep : Keeps s t) (l : List Instr) : Keeps { s with pending := l } { t with pending := l } where
  pending := Eq.refl l
  out := keep.out
  fresh := keep.fresh
  clock := keep.clock
  fuse := keep.fuse
  canonical hs :=
    have ht := keep.canonical ⟨hs.mem, hs.hdm, hs.hbm, hs.regs, hs.logs, hs.tags, hs.channels⟩
    ⟨ht.mem, ht.hdm, ht.hbm, ht.regs, ht.logs, ht.tags, ht.channels⟩

/-- A step takes the front of the queue and keeps the rest of the machine. -/
theorem step_keeps (h : step s = .next t) : Keeps { s with pending := s.pending.tail } t := by
  cases hq : s.pending with
  | nil =>
    cases (step_of_pending_nil hq).symm.trans h
    have hsame : { s with pending := [] } = s := hq ▸ rfl
    exact hsame ▸ tick_keeps .rfl
  | cons c rest => exact exec_keeps ((step_of_pending_cons hq).symm.trans h)

theorem run_keeps {run : Nat → State} (hrun : ∀ i, step (run i) = .next (run (i + 1))) (n : Nat) :
    Keeps { run 0 with pending := (run 0).pending.drop n } (run n) := by
  induction n with
  | zero => exact .rfl
  | succ n ih =>
    have hstep := step_keeps (hrun n)
    rw [ih.pending, List.tail_drop] at hstep
    exact (ih.withPending _).trans hstep

end runs

/-- Settles O50, by induction on the length of the run; that no draw is used twice is said by the draw counter, which never falls. -/
theorem runsTakeTheCommandsInOrder : Obligations.RunsTakeTheCommandsInOrder := by
  intro run hrun n
  have keep := run_keeps hrun n
  exact ⟨keep.pending, keep.out, keep.fresh, keep.clock, keep.fuse,
    fun hs => keep.canonical ⟨hs.mem, hs.hdm, hs.hbm, hs.regs, hs.logs, hs.tags, hs.channels⟩⟩

/-! The fused security version. -/

section fusedVersion

variable {s : State} {v : BitVec 32}

theorem exec_svnCommit_of_newer (hv : v.toNat = get1 s KST_FW.SVN) (hnew : s.fuseSvn < v.toNat) :
    exec (.svnCommit v) s = .next { set1 s KST_FW.FUSED_SVN v.toNat with fuseSvn := v.toNat } :=
  congrArg Host.Outcome.next (if_pos ⟨hv, hnew⟩)

theorem exec_svnCommit_of_ignored (h : v.toNat ≠ get1 s KST_FW.SVN ∨ v.toNat ≤ s.fuseSvn) : exec (.svnCommit v) s = .next s :=
  congrArg Host.Outcome.next (if_neg fun hv => h.elim (· hv.1) hv.2.not_ge)

end fusedVersion

/-- Settles O53: a commit by the two conditions of R534, and every command by what it owes the machine. -/
theorem theFusedVersionNeverFalls : Obligations.TheFusedVersionNeverFalls :=
  ⟨fun _ _ => exec_svnCommit_of_newer, fun _ _ => exec_svnCommit_of_ignored, fun _ _ _ h => (exec_keeps h).fuse⟩

end Sys2Proof.Machine

/-! PROOFS. The USER and WAKE entries of the event table (R502 to R507, R525). -/

namespace Sys2Proof.Machine

section entries

variable {s : State} {e : Fin 4096}

theorem exec_userEventFire_of_due (huser : 512 ≤ e.val) (hdue : entryDue s e = true) :
    exec (.userEventFire e) s = .next (if heldEntry s e then fset s TIDE_EVT_STAT.HELD e 0 1 else fireEntry s e false) :=
  congrArg Host.Outcome.next (if_neg (not_or.2 ⟨Nat.not_lt.2 huser, not_not_intro hdue⟩))

theorem exec_wakeEventFire_of_due (hlo : 256 ≤ e.val) (hhi : e.val < 352) (hdue : entryDue s e = true) :
    exec (.wakeEventFire e) s = .next (wakeDomain (disarm (fireEntry s e false) e) (e.val - 256)) :=
  congrArg Host.Outcome.next (if_neg (not_or.2 ⟨Nat.not_lt.2 hlo, not_or.2 ⟨Nat.not_le.2 hhi, not_not_intro hdue⟩⟩))

end entries

section entryWrites

variable {s t : State} {v e : Nat} {x : Round}

theorem exec_eventArm {v : Word} : exec (.eventArm v) s = .next (writeEvtCfg s v.toNat) := rfl

theorem exec_eventCancel {v : Word} : exec (.eventCancel v) s = .next (writeEvtCfg s v.toNat) := rfl

/-- Firmware writes no PHASE or WAKE entry. -/
theorem writeEvtCfg_of_fixed (hfixed : get1 s TIDE_EVT_SEL.EVENT < 512) : writeEvtCfg s v = ev s TIDE_EVENT.TABLE_EV := if_pos hfixed

/-- A write of a USER entry stores its fields, then arms or cancels it as VALID asks. -/
theorem writeEvtCfg_of_user (he : get1 s TIDE_EVT_SEL.EVENT = e) (huser : 512 ≤ e)
    (ht : [TIDE_EVT_CFG.DOUBTFUL_OK, TIDE_EVT_CFG.JOB, TIDE_EVT_CFG.PHASE].foldl (fun (t : State) (f : Fld) => fset t f e 0 (f.of v)) s = t) :
    writeEvtCfg s v = if TIDE_EVT_CFG.VALID.of v = 1 then armUser t e else breakEventWaits (disarm t e) e := by
  subst he ht
  exact if_neg (Nat.not_lt.2 huser)

/-- A USER entry that names no round follows the newest round whose Offer has fired, and fires at once where that time is past. -/
theorem armUser_of_offered {d : Nat} (hnamed : fget s TIDE_EVT_ROUND.ROUND e 0 = 0)
    (hx : newestOffered s (Fin.ofNat 16 (fget s TIDE_EVT_CFG.JOB e 0)) = some x)
    (hd : pOfferTime x.plan + fget s TIDE_EVT_CFG.PHASE e 0 * phaseUnit = d)
    (ht : arm s e ⟨fget s TIDE_EVT_CFG.JOB e 0 % 16, 0, some x.number, fget s TIDE_EVT_CFG.PHASE e 0, some d⟩ = t) :
    armUser s e = if d < s.now then if heldEntry t e then fset t TIDE_EVT_STAT.HELD e 0 1 else fireEntry t e true else t := by
  have hnow : t.now = s.now := ht ▸ rfl
  subst hd
  simp only [armUser, hnamed, hx, if_true, Option.map_some, Fin.val_ofNat, ht, ne_eq, not_true_eq_false, false_and, if_false, Option.getD_some,
    decide_eq_true_eq, hnow]

end entryWrites

/-- Settles O33: an entry by whether it is due and held, a write by the selected entry, its VALID bit and the time at which it is due; the numbering of the WAKE entries and that one is disarmed as it fires, and that the USER entry of a single round keeps VALID, are the model's choice (assumptions 16 and 64). -/
theorem eventEntriesFire : Obligations.EventEntriesFire := by
  refine ⟨?fires, ?held, ?wakes, ?arms, ?late, ?cancels, ?fixed⟩
  case fires =>
    intro s e huser hdue hheld
    rw [exec_userEventFire_of_due huser hdue, hheld]
    rfl
  case held =>
    intro s e huser hdue hheld
    rw [exec_userEventFire_of_due huser hdue, hheld, if_pos rfl]
  case wakes => exact fun _ _ => exec_wakeEventFire_of_due
  case arms =>
    intro s v e t x he huser hvalid ht hnamed hx hlater
    rw [exec_eventArm, writeEvtCfg_of_user he huser ht, if_pos hvalid, armUser_of_offered hnamed hx rfl rfl, if_neg (Nat.not_lt.2 hlater)]
  case late =>
    intro s v e t u x he huser hvalid ht hnamed hx hpast hu
    rw [exec_eventArm, writeEvtCfg_of_user he huser ht, if_pos hvalid, armUser_of_offered hnamed hx rfl hu, if_pos hpast]
  case cancels =>
    intro s v e t he huser hvalid ht
    rw [exec_eventCancel, writeEvtCfg_of_user he huser ht, hvalid, if_neg Nat.zero_ne_one]
  case fixed =>
    intro s v hfixed
    rw [exec_eventArm, exec_eventCancel, writeEvtCfg_of_fixed hfixed]
    exact ⟨rfl, rfl⟩

end Sys2Proof.Machine

/-! PROOFS. A power domain's entry or exit completes (R618, R620 to R622). -/

namespace Sys2Proof.Machine

/-- PS_DEEP of a domain's cluster shown as the domains now are. -/
def showDeepest (s : State) (d : Nat) : State :=
  if domCluster d ≤ 4 then fset s PLT_CLU_STAT.PS_DEEP (domCluster d) 0 (psDeep s (domCluster d)) else s

section domains

variable {s u : State} {d : Fin 96} {t e : Nat}

/-- What completes when a domain's time has come: the move is over, then the counts, the wake request and the port follow, and PS_DEEP last. -/
theorem exec_domainStateDone_of_move (hmove : lookup s.domMoves d.val = some (t, e)) (hcome : e ≤ s.now)
    (hu : { fset (fset s PWR_DOM_STATE.STATE d 0 (t % 8)) PWR_DOM_STATE.CHANGING d 0 0 with domMoves := dropKey s.domMoves d.val } = u) :
    exec (.domainStateDone d) s = .next (
      let v := if t = 0 ∧ 2 ≤ fget s PWR_DOM_STATE.STATE d 0 then countSat u PWR_DOM_STATE.WAKES d 0 1 else u
      let w := if 8 ≤ t then wakeDomain v d else v
      showDeepest (if t = 0 ∧ 3 ≤ d.val ∧ d.val ≤ 18 then portAwake w (Fin.ofNat 16 (d.val - 3)) else w) d) := by
  subst hu
  change execDomainStateDone d s = _
  simp only [execDomainStateDone, hmove, if_neg (Nat.not_lt.2 hcome)]
  rfl

end domains

/-- Settles O35, by the move that completes: into a state, into one that a wake request met, or out to P0. -/
theorem domainsChangeState : Obligations.DomainsChangeState := by
  refine ⟨?entered, ?met, ?left⟩
  case entered =>
    intro s d t e u hmove hcome hpos hlt hu
    rw [exec_domainStateDone_of_move hmove hcome hu]
    simp only [hpos, false_and, if_false, if_neg (Nat.not_le.2 hlt)]
    rfl
  case met =>
    intro s d t e u v hmove hcome hmet hu hv
    have hpos : t ≠ 0 := by omega
    rw [exec_domainStateDone_of_move hmove hcome hu]
    simp only [hpos, false_and, if_false, if_pos hmet, hv]
    rfl
  case left =>
    intro s d e u v w hmove hcome hu hv hw
    rw [exec_domainStateDone_of_move hmove hcome hu]
    simp only [true_and, hv, Nat.not_le.2 (Nat.succ_pos 7), if_false, hw]
    rfl

end Sys2Proof.Machine

/-! PROOFS. PF0's key slots: clear-text keys, their erasure, challenges and the fused security version (R534, R536, R538, R539, R542, R543). -/

namespace Sys2Proof.Machine

section keyWrites

variable {s t : State} {v n : Nat}

theorem exec_kstKeyWrite {v : Word} : exec (.kstKeyWrite v) s = .next (writeKstWr s v.toNat) := rfl

theorem exec_kstKeyErase {v : Word} : exec (.kstKeyErase v) s = .next (writeKstWr s v.toNat) := rfl

/-- The fields of a write of KST_WR_CTRL stored: SLOT takes 224 to 255 only. -/
def storeKstWr (s : State) (v : Nat) : State :=
  if 224 ≤ KST_WR_CTRL.SLOT.of v then
    set1 (set1 (set1 s KST_WR_CTRL.EXPIRE (KST_WR_CTRL.EXPIRE.of v)) KST_WR_CTRL.LIMIT (KST_WR_CTRL.LIMIT.of v)) KST_WR_CTRL.SLOT (KST_WR_CTRL.SLOT.of v)
  else set1 (set1 s KST_WR_CTRL.EXPIRE (KST_WR_CTRL.EXPIRE.of v)) KST_WR_CTRL.LIMIT (KST_WR_CTRL.LIMIT.of v)

theorem writeKstWr_of_go (hgo : KST_WR_CTRL.GO.of v = 1) (herase : KST_WR_CTRL.ERASE.of v = 0) :
    writeKstWr s v = storeClearKey (storeKstWr s v) := by
  simp only [writeKstWr, hgo, herase, Nat.zero_ne_one, if_true, if_false]
  rfl

theorem writeKstWr_of_erase (hgo : KST_WR_CTRL.GO.of v = 0) (herase : KST_WR_CTRL.ERASE.of v = 1) :
    writeKstWr s v = eraseClearKey (storeKstWr s v) := by
  simp only [writeKstWr, hgo, herase, Nat.zero_ne_one, if_true, if_false]
  rfl

theorem writeStatus_ok (s : State) : writeStatus s .ok = zeroWrData (set1 s KST_OP_STAT.WR_STATUS SStat.ok.code) := rfl

theorem writeStatus_of_refused {st : SStat} (h : st ≠ .ok) :
    writeStatus s st = ev (zeroWrData (set1 s KST_OP_STAT.WR_STATUS st.code)) KST_EVENT.DENIED_EV :=
  if_neg h

/-- An EMPTY slot takes the key while no confidential job exists. -/
theorem storeClearKey_of_empty (hn : get1 t KST_WR_CTRL.SLOT = n) (hempty : fget t KST_SLOT_INFO.STATE n 0 = 0)
    (hclear : on t KST_STATUS.CONF_ACTIVE = false) :
    storeClearKey t =
      writeStatus (set1 (fillSlot t n 3 17 8 (get1 t KST_WR_CTRL.EXPIRE) (get1 t KST_WR_CTRL.LIMIT) (writtenKey t)) KST_STATUS.CLEAR_WRITTEN 1) .ok := by
  subst hn
  exact if_pos ⟨hempty, Bool.eq_false_iff.1 hclear⟩

theorem storeClearKey_of_denied (hn : get1 t KST_WR_CTRL.SLOT = n)
    (hdenied : (fget t KST_SLOT_INFO.STATE n 0 == 0 && !on t KST_STATUS.CONF_ACTIVE) = false) : storeClearKey t = writeStatus t .slotDenied := by
  subst hn
  refine if_neg fun ⟨hempty, hclear⟩ => ?_
  rw [hempty, Bool.eq_false_iff.2 hclear] at hdenied
  cases hdenied

theorem eraseClearKey_of_good (hn : get1 t KST_WR_CTRL.SLOT = n) (hgood : fget t KST_SLOT_INFO.STATE n 0 ≠ 2) :
    eraseClearKey t = writeStatus (eraseSlot t n) .ok := by
  subst hn
  exact if_neg hgood

theorem eraseClearKey_of_bad (hn : get1 t KST_WR_CTRL.SLOT = n) (hbad : fget t KST_SLOT_INFO.STATE n 0 = 2) :
    eraseClearKey t = writeStatus t .slotBad := by
  subst hn
  exact if_pos hbad

end keyWrites

/-- A challenge uses the key of the slot that its write leaves selected. -/
theorem exec_kstChallenge_of_go {s t u : State} {v : BitVec 32} {n : Nat} {st : SStat} (hgo : KST_CHAL_CTRL.GO.of v.toNat = 1)
    (ht : (if 224 ≤ KST_CHAL_CTRL.SLOT.of v.toNat then set1 s KST_CHAL_CTRL.SLOT (KST_CHAL_CTRL.SLOT.of v.toNat) else s) = t)
    (hn : get1 t KST_CHAL_CTRL.SLOT = n) (huse : takeSlot t n 17 3 3 = (st, u)) :
    exec (.kstChallenge v) s = .next (
      let resp := if st = .ok then hmac (readD [] u.keyMat n) (challengeText u) else zeros 48
      set1 (set1 (setGroup u KST_RESP.RESP 0 resp 6) KST_OP_STAT.CHAL_STATUS st.code) KST_CHAL_CTRL.DONE 1) := by
  change Host.Outcome.next (writeChal s v.toNat) = _
  simp only [writeChal, ht, hgo, hn, huse, if_true]

/-- Settles O36: a write by its GO and ERASE bits and the slot's state, a challenge by the use of its slot, a commit by its value; that ERASE of a BAD slot answers SLOT_BAD with DENIED_EV is the model's choice (assumption 68). -/
theorem keySlotsOfPf0 : Obligations.KeySlotsOfPf0 := by
  refine ⟨?stored, ?denied, ?erased, ?bad, ?challenge, ?commit, ?ignored⟩
  case stored =>
    intro s v t n hgo herase ht hn hempty hclear
    rw [exec_kstKeyWrite, writeKstWr_of_go hgo herase, storeKstWr, ht, storeClearKey_of_empty hn hempty hclear, writeStatus_ok]
  case denied =>
    intro s v t n hgo herase ht hn hdenied
    rw [exec_kstKeyWrite, writeKstWr_of_go hgo herase, storeKstWr, ht, storeClearKey_of_denied hn hdenied, writeStatus_of_refused (by decide)]
  case erased =>
    intro s v t n hgo herase ht hn hgood
    rw [exec_kstKeyErase, writeKstWr_of_erase hgo herase, storeKstWr, ht, eraseClearKey_of_good hn hgood, writeStatus_ok]
  case bad =>
    intro s v t n hgo herase ht hn hbad
    rw [exec_kstKeyErase, writeKstWr_of_erase hgo herase, storeKstWr, ht, eraseClearKey_of_bad hn hbad, writeStatus_of_refused (by decide)]
  case challenge => exact fun _ _ _ _ _ _ => exec_kstChallenge_of_go
  case commit => exact fun _ _ => exec_svnCommit_of_newer
  case ignored => exact fun _ _ => exec_svnCommit_of_ignored

end Sys2Proof.Machine

/-! PROOFS. The entropy unit (R545 to R551, R553, R554, R567). -/

namespace Sys2Proof.Machine

section entropy

variable {s t : State}

theorem exec_unitReset {v : BitVec 32} : exec (.unitReset v) s = .next (writeEntCtrl s v.toNat) := rfl

/-- A write of ENT_CTRL stores an enable mask of at least four latches, then starts the unit afresh where it may. -/
theorem writeEntCtrl_of_stored {v : Nat}
    (ht : (if 4 ≤ latchCount (ENT_CTRL.LATCH_EN.of v) then set1 s ENT_CTRL.LATCH_EN (ENT_CTRL.LATCH_EN.of v) else s) = t) :
    writeEntCtrl s v = if ENT_CTRL.UNIT_RESET.of v = 1 ∧ ¬ on t ENT_STATUS.PERM_FAIL = true then showWires (entropyStartup t) else t := by
  subst ht
  rfl

theorem exec_entropyStartupDone_of_starting (hstart : entropyStarting s = true) (b : BitVec 8) (k : Bool) :
    exec (.entropyStartupDone b k) s =
      .next (if b.toNat &&& s.latches = 0 ∧ k = true then entropyPasses s else startupFails s (b.toNat &&& s.latches)) :=
  congrArg Host.Outcome.next (if_neg (not_not_intro hstart))

theorem exec_healthWindowPass_of_ready (hready : entropyReady s = true) :
    exec .healthWindowPass s = .next (
      let t := s.staged.foldl serveWire (countSat s ENT_HEALTH.WINDOWS 0 0 1)
      showWires { served t ((4096 - t.swBytes + 63) / 64) with staged := [], swBytes := 4096 }) :=
  congrArg Host.Outcome.next (if_neg (not_not_intro hready))

theorem exec_healthTestFail_of_enabled {l : Fin 8} (hready : entropyReady s = true) (hen : bit s.latches l.val = true) (a : Bool) :
    exec (.healthTestFail l a) s =
      .next (entropyFails (set1 (countSat s (if a then ENT_HEALTH.APT_FAILS else ENT_HEALTH.RCT_FAILS) 0 0 1) ENT_STATUS.LATCH_FAIL (2 ^ l.val))) := by
  refine congrArg Host.Outcome.next ((if_neg (not_or.2 ⟨not_not_intro hready, not_not_intro hen⟩)).trans ?_)
  cases a <;> rfl

theorem exec_drbgReseed_of_due (hready : entropyReady s = true) (hdue : s.reseedAt ≤ s.now ∨ 2 ^ 20 ≤ s.genCount) :
    exec .drbgReseed s = .next { count s ENT_DRBG.RESEEDS 0 0 1 with reseedAt := s.now + 1000000, genCount := 0 } :=
  congrArg Host.Outcome.next (if_pos ⟨hready, hdue⟩)

section wires

variable {w : Fin 8} {n : Nat}

theorem exec_wireRequest_of_ready (hready : entropyReady s = true) :
    exec (.wireRequest w n) s = .next (showWires { s with staged := s.staged ++ [⟨w.val, n⟩] }) :=
  congrArg Host.Outcome.next (if_pos hready)

theorem exec_wireRequest_of_starting (hready : entropyReady s = false) (hstart : entropyStarting s = true) :
    exec (.wireRequest w n) s = .next (showWires { s with wireWait := s.wireWait ++ [⟨w.val, n⟩] }) :=
  congrArg Host.Outcome.next ((if_neg (Bool.eq_false_iff.1 hready)).trans (if_pos hstart))

theorem exec_wireRequest_of_failed (hready : entropyReady s = false) (hstart : entropyStarting s = false) :
    exec (.wireRequest w n) s = .next (emit s (.wire w.val none)) :=
  congrArg Host.Outcome.next ((if_neg (Bool.eq_false_iff.1 hready)).trans (if_neg (Bool.eq_false_iff.1 hstart)))

end wires

theorem exec_entSwDataRead {f : Func} {x : Nat} (h : readSwData s = (x, t)) :
    exec (.entSwDataRead f) s = .next (emit t (.readValue f (if f = pf0 then 0xF00028 else 0x1000) x)) := by
  change execEntSwDataRead f s = _
  simp only [execEntSwDataRead, h]

theorem readSwData_of_full {d : BitVec 512} (hstart : entropyStarting s = false) (hready : entropyReady s = true) (hfull : 6 ≤ s.swBytes)
    (hdraw : draw s = (d, t)) : readSwData s = (d.toNat % 2 ^ 48, { t with swBytes := s.swBytes - 6 }) := by
  simp only [readSwData, hstart, hready, Nat.not_lt.2 hfull, hdraw, Bool.false_eq_true, not_true_eq_false, if_false]

/-- A read that finds no fresh bits says why: NOT_READY in STARTUP, ERR in FAILED, EMPTY in READY. -/
theorem readSwData_of_none (hnone : (entropyStarting s || !entropyReady s || decide (s.swBytes < 6)) = true) :
    readSwData s = (if entropyStarting s then 2 ^ 63 else if entropyReady s then 2 ^ 61 else 2 ^ 62, s) := by
  unfold readSwData
  cases hstart : entropyStarting s
  case true => rfl
  case false =>
    cases hready : entropyReady s
    case false => rfl
    case true =>
      rw [hstart, hready] at hnone
      simp only [Bool.false_eq_true, not_true_eq_false, if_false, if_true, if_pos (of_decide_eq_true hnone)]

end entropy

/-- Settles O37: each command by the state of the unit, the end of STARTUP by what the tests found; the refill of the software port and the staging are the model's choice (assumption 69). -/
theorem theEntropyUnitServes : Obligations.TheEntropyUnitServes := by
  refine ⟨?restarts, ?stores, ?passes, ?fails, ?window, ?latch, ?reseed, ?staged, ?waits, ?refused, ?bits, ?noBits⟩
  case restarts =>
    intro s v t hreset ht hfail
    rw [exec_unitReset, writeEntCtrl_of_stored ht, if_pos ⟨hreset, Bool.eq_false_iff.1 hfail⟩]
  case stores =>
    intro s v t hkeep ht
    rw [exec_unitReset, writeEntCtrl_of_stored ht, if_neg fun h => hkeep.elim (fun hclear => by simp [hclear] at h) h.2]
  case passes =>
    intro s b hstart hgood
    rw [exec_entropyStartupDone_of_starting hstart, if_pos ⟨hgood, rfl⟩]
    rfl
  case fails =>
    intro s b k hstart hbad
    rw [exec_entropyStartupDone_of_starting hstart, if_neg fun h => hbad.elim (· h.1) fun hk => by simp [hk] at h]
    rfl
  case window => exact fun _ => exec_healthWindowPass_of_ready
  case latch => exact fun _ _ a hready hen => exec_healthTestFail_of_enabled hready hen a
  case reseed => exact fun _ => exec_drbgReseed_of_due
  case staged => exact fun _ _ _ => exec_wireRequest_of_ready
  case waits => exact fun _ _ _ => exec_wireRequest_of_starting
  case refused => exact fun _ _ _ => exec_wireRequest_of_failed
  case bits => exact fun _ _ _ _ hstart hready hfull hdraw => exec_entSwDataRead (readSwData_of_full hstart hready hfull hdraw)
  case noBits =>
    intro s f x hx hnone
    rw [exec_entSwDataRead (readSwData_of_none hnone), hx]

end Sys2Proof.Machine

/-! PROOFS. The SPDM responder, its sessions and the IDE keys (R534, R551, R554, R556, R558, R559). -/

namespace Sys2Proof.Machine

/-! Negotiation, certificates and signatures. -/

section responder

variable {s t : State} {m : Bytes}

theorem exec_getCapabilities_of_version (h : s.spdm.versionDone = true) :
    exec (.getCapabilities m) s =
      .next (spdmReply (modSpdm s (fun p => { p with capsDone := true })) m ([0x12, 0x61, 0, 0] ++ Config.spdmField 0x61 0)) :=
  congrArg Host.Outcome.next (if_pos h)

theorem exec_negotiateAlgorithms_of_capabilities (h : s.spdm.capsDone = true) :
    exec (.negotiateAlgorithms m) s =
      .next (spdmReply (modSpdm s (fun p => { p with algsDone := true })) m ([0x12, 0x63, 0, 0] ++ Config.spdmField 0x63 0)) :=
  congrArg Host.Outcome.next (if_pos h)

theorem exec_getDigests_of_algorithms (h : s.spdm.algsDone = true) :
    exec (.getDigests m) s = .next (spdmReply s m ([0x12, 0x01, 0, 1] ++ digestBytes (sha384 (certChain s)))) :=
  congrArg Host.Outcome.next (if_pos h)

/-- A portion of the chain of slot 0 from an offset inside it. -/
theorem exec_getCertificate_of_portion (h : s.spdm.algsDone = true) (hslot : leAt m 2 1 % 16 = 0) (hoff : leAt m 4 2 < (certChain s).length) :
    exec (.getCertificate m) s = .next (
      let off := leAt m 4 2
      let n := min (leAt m 6 2) ((certChain s).length - off)
      spdmReply s m ([0x12, 0x02, 0, 0] ++ toLe 2 n ++ toLe 2 ((certChain s).length - off - n) ++ slice (certChain s) off n)) :=
  congrArg Host.Outcome.next ((if_neg (not_not_intro h)).trans (if_neg (not_or.2 ⟨not_not_intro hslot, Nat.not_le.2 hoff⟩)))

theorem exec_challenge_of_slot0 {d : BitVec 512} (h : s.spdm.algsDone = true) (hslot : leAt m 2 1 = 0) (hdraw : draw s = (d, t)) :
    exec (.challenge m) s = .next (
      let r := List.flatten [[0x12, 0x03, 0, 1], digestBytes (sha384 (certChain t)), (toBe 64 d.toNat).take 32, summaryHash t (leAt m 3 1), zeros 2]
      spdmReply t m (r ++ spdmSign t 0x03 m r)) := by
  change execChallenge m s = _
  simp only [execChallenge, h, hslot, hdraw, not_true_eq_false, ne_eq, if_false]

/-- A listed index is answered, and signed where the request asks for it. -/
theorem exec_getMeasurements_of_listed {n : Nat} {r : Bytes} {d : BitVec 512} (h : s.spdm.algsDone = true)
    (hrec : measurementRecord s (if bit (leAt m 2 1) 0 then slice m 4 32 else zeros 32) (leAt m 3 1) = some (n, r)) (hdraw : draw s = (d, t)) :
    exec (.getMeasurements m) s = .next (
      let total := if leAt m 3 1 = 0 then measurementIndices.length else 0
      let x := List.flatten [[0x12, 0x60], toLe 1 total, [0], toLe 1 n, toLe 3 r.length, r, (toBe 64 d.toNat).take 32, zeros 2]
      spdmReply t m (if bit (leAt m 2 1) 0 then x ++ spdmSign t 0x60 m x else x)) := by
  change execGetMeasurements m s = _
  simp only [execGetMeasurements, h, hrec, hdraw, not_true_eq_false, if_false]

/-- What asks for a connection whose algorithms are not negotiated yet is answered with an error. -/
theorem exec_of_no_algorithms (h : s.spdm.algsDone = false) :
    exec (.getDigests m) s = .next (spdmError s 4) ∧ exec (.getCertificate m) s = .next (spdmError s 4) ∧
      exec (.challenge m) s = .next (spdmError s 4) ∧ exec (.getMeasurements m) s = .next (spdmError s 4) ∧
      exec (.keyExchange m) s = .next (spdmError s 4) := by
  have hnone : ¬ s.spdm.algsDone = true := Bool.eq_false_iff.1 h
  exact ⟨congrArg Host.Outcome.next (if_neg hnone), congrArg Host.Outcome.next (if_pos hnone), congrArg Host.Outcome.next (if_pos hnone),
    congrArg Host.Outcome.next (if_pos hnone), congrArg Host.Outcome.next (if_pos hnone)⟩

end responder

/-! Sessions and IDE keys. -/

section sessions

variable {s t u : State} {m : Bytes} {x : Session}

theorem exec_keyExchange_of_ready (h : s.spdm.algsDone = true) (hready : entropyReady s = true) :
    exec (.keyExchange m) s = .next (openSession s m) :=
  congrArg Host.Outcome.next ((if_neg (not_not_intro h)).trans (if_pos hready))

theorem exec_keyExchange_of_starting (h : s.spdm.algsDone = true) (hready : entropyReady s = false) (hstart : entropyStarting s = true) :
    exec (.keyExchange m) s = .next (modSpdm s (fun p => { p with waiting := p.waiting ++ [m] })) :=
  congrArg Host.Outcome.next ((if_neg (not_not_intro h)).trans ((if_neg (Bool.eq_false_iff.1 hready)).trans (if_pos hstart)))

/-- The scalar drawn is the responder's ephemeral key, and the session's secret its product with the requester's point. -/
theorem openSession_of_drawn {d : Nat} {e : BitVec 512} (hcurve : onCurve (beAt m 40 48) (beAt m 88 48) = true) (hslot : leAt m 3 1 = 0)
    (hscalar : drawScalar (served s 1) = (d, t)) (hnonce : draw (tollDone t none 2 0) = (e, u)) :
    openSession s m = (
      let own := u.spdm.sessions.length + 1
      let r := List.flatten [[0x12, 0x64, 0, 0], toLe 2 own, [0, 0], (toBe 64 e.toNat).take 32, (publicOf d).drop 1, summaryHash u (leAt m 2 1), zeros 2]
      let w := spdmReply u m (r ++ spdmSign u 0x64 m r ++ Config.spdmField 0x64 1)
      modSpdm w (fun p => { p with sessions := p.sessions ++ [⟨leAt m 4 2 + 2 ^ 16 * own, ecdhX d (beAt m 40 48, beAt m 88 48), false, 0⟩] })) := by
  simp only [openSession, hcurve, hslot, hscalar, hnonce, not_true_eq_false, ne_eq, or_self, if_false]

theorem exec_spdmFinish_of_open (hx : s.spdm.sessions.getLast? = some x) (hopen : x.done = false) :
    exec (.spdmFinish m) s = .next (
      if Config.spdmVerify x.secret s.spdm.transcript m then
        spdmReply (modSession s (fun y => [{ y with done := true }])) m ([0x12, 0x65, 0, 0] ++ Config.spdmField 0x65 0)
      else spdmError (modSession s (fun _ => [])) 6) := by
  change execSpdmFinish m s = _
  simp only [execSpdmFinish, hx, hopen, Bool.false_eq_true, if_false]

theorem exec_keyUpdate_of_done (hx : s.spdm.sessions.getLast? = some x) (hdone : x.done = true) (hlo : 1 ≤ leAt m 2 1) (hhi : leAt m 2 1 ≤ 3) :
    exec (.keyUpdate m) s = .next (
      emit (if leAt m 2 1 = 3 then s else modSession s (fun y => [{ y with updates := y.updates + 1 }])) (.spdm ([0x12, 0x69] ++ slice m 2 2))) := by
  change execKeyUpdate m s = _
  simp only [execKeyUpdate, hx, hdone, not_true_eq_false, if_false, if_neg (not_or.2 ⟨Nat.ne_of_gt hlo, Nat.not_lt.2 hhi⟩)]

theorem exec_endSession_of_done (hx : s.spdm.sessions.getLast? = some x) (hdone : x.done = true) :
    exec (.endSession m) s = .next (emit (modSession s (fun _ => [])) (.spdm [0x12, 0x6C, 0, 0])) := by
  change execEndSession m s = _
  simp only [execEndSession, hx, hdone, if_true]

theorem exec_ideKm_in_session {m : IdeKey} (h : s.spdm.sessions.any (fun x => x.id == m.session && x.done) = true) :
    exec (.ideKm m) s = .next (
      let t := modSpdm s (fun p => { p with ideKeys := p.ideKeys.filter (fun k => k.1 != m.stream) ++ [(m.stream, m.key)] })
      if m.allStreams then { set1 t HIF_LINK.IDE_ACTIVE 1 with ideOn := true } else t) :=
  congrArg Host.Outcome.next (if_pos h)

end sessions

/-- Settles O38: each request by the progress of the connection, a session's by its newest session; the layouts and what Toll counts are the model's choice (assumptions 9 and 80). -/
theorem spdmAnswersAndSessions : Obligations.SpdmAnswersAndSessions := by
  refine ⟨?version, ?capabilities, ?algorithms, ?digests, ?certificate, ?challenge, ?measurements, ?opened, ?waits, ?finish, ?update, ?ends, ?ide, ?early⟩
  case version => exact fun _ _ => rfl
  case capabilities => exact fun _ _ => exec_getCapabilities_of_version
  case algorithms => exact fun _ _ => exec_negotiateAlgorithms_of_capabilities
  case digests => exact fun _ _ => exec_getDigests_of_algorithms
  case certificate => exact fun _ _ => exec_getCertificate_of_portion
  case challenge => exact fun _ _ _ _ => exec_challenge_of_slot0
  case measurements => exact fun _ _ _ _ _ _ => exec_getMeasurements_of_listed
  case opened =>
    intro s m d e t u halgs hready hcurve hslot hscalar hnonce
    rw [exec_keyExchange_of_ready halgs hready, openSession_of_drawn hcurve hslot hscalar hnonce]
  case waits => exact fun _ _ => exec_keyExchange_of_starting
  case finish => exact fun _ _ _ => exec_spdmFinish_of_open
  case update => exact fun _ _ _ => exec_keyUpdate_of_done
  case ends => exact fun _ _ _ => exec_endSession_of_done
  case ide => exact fun _ _ => exec_ideKm_in_session
  case early => exact fun _ _ => exec_of_no_algorithms

end Sys2Proof.Machine

/-! PROOFS. The resets and what starts them (R533, R592, R593, R624, R628 to R631, R634, R646, R647, R651). -/

namespace Sys2Proof.Machine

section starts

variable {s t : State}

/-- A rise while the input is on is a loss of input first (assumption 70); the module then starts afresh. -/
theorem exec_inputGood (b : Boot) (ht : (if s.inputOn then startOutage s false else s) = t) :
    exec (.inputGood b) s = .next (
      let u := { coldClear t with inputOn := true, holds := t.holds.filter (fun h => h == .pin || h == .test), trips := [], lastBoot := some b }
      emit (leaveCold u 0) (.faultPin false)) := by
  subst ht
  rfl

/-- In the loader a good image is stored in bank A and started; the free value drawn for FW_MS does not change what the boot finds. -/
theorem exec_recoveryImageLoad_in_loader {i : Bytes} (hrun : running s = true) (hstage : get1 s PWR_STATUS.BOOT_STAGE = 15) :
    exec (.recoveryImageLoad i) s = .next (
      let t := { s with flash := s.flash.set 0 i }
      if imageOk s.fuseSvn i then startImage (freeValue t).2 0 (bootFindings t) ((freeValue t).1.toNat % 65536) else s) := by
  refine congrArg Host.Outcome.next ?_
  cases hok : imageOk s.fuseSvn i
  case true => exact if_pos ⟨hrun, hstage, rfl⟩
  case false => exact if_neg fun h => Bool.false_ne_true h.2.2

theorem exec_firmwareWatchdog_in_service (h : inService s = true) : exec .firmwareWatchdog s = .next (warmRestart s 9 false) :=
  congrArg Host.Outcome.next (if_pos h)

/-- PERST restarts warmly where the firmware runs, then takes down the link and discards its IDE keys. -/
theorem exec_perstReset (ht : (if inService s then warmRestart s 8 true else s) = t) :
    exec .perstReset s = .next (
      let u := if t.ideOn then ev t HIF_EVENT.IDE_EV else t
      let w := set1 (set1 (set1 (set1 u HIF_LINK.UP 0) HIF_LINK.WIDTH 0) HIF_LINK.SPEED 0) HIF_LINK.IDE_ACTIVE 0
      modSpdm { w with ideOn := false, tspLocked := [] } (fun p => { p with ideKeys := [] })) := by
  subst ht
  rfl

theorem exec_carrierResetPin (n : Nat) :
    exec (.carrierResetPin n) s = .next (if n < 10000 then s else coldReset (addHold s .pin) 2 true) := rfl

/-- The work of the engine has ended as its reset is done; Press, Wrap and Trier then lose what they alone hold. -/
theorem exec_engineResetDone_of_busy {e : Fin 9} (hbusy : bit (get1 s PWR_STATUS.ENG_BUSY) e.val = true)
    (hmay : (e.val == 8 && entropyStarting s) = false)
    (ht : endEngineWork (set1 s PWR_STATUS.ENG_BUSY (get1 s PWR_STATUS.ENG_BUSY - 2 ^ e.val)) e.val = t) :
    exec (.engineResetDone e) s = .next (
      if e.val = 4 then { t with arrays := Vector.replicate 8 .idle } else if e.val = 5 then { t with noiseFifo := none }
      else if e.val = 8 then redrawPressKeys t else t) := by
  subst ht
  have hready : ¬ (e.val = 8 ∧ entropyStarting s = true) := fun ⟨h8, hstart⟩ => by
    rw [h8, hstart] at hmay
    cases hmay
  exact congrArg Host.Outcome.next (if_neg (not_or.2 ⟨not_not_intro hbusy, hready⟩))

end starts

/-! A write of PWR_CTRL. -/

section pwrCtrl

variable {s : State} {v : Nat}

theorem exec_coldResetRequest {v : BitVec 32} : exec (.coldResetRequest v) s = .next (writePwrCtrl s v.toNat) := rfl

theorem exec_warmRestartRequest {v : BitVec 32} : exec (.warmRestartRequest v) s = .next (writePwrCtrl s v.toNat) := rfl

theorem exec_engineResetRequest {v : BitVec 32} : exec (.engineResetRequest v) s = .next (writePwrCtrl s v.toNat) := rfl

/-- A write without the key, or that does not ask for one reset alone, or that names no engine, is only an event. -/
theorem writePwrCtrl_of_bad (h : PWR_CTRL.KEY.of v ≠ 0xB7 ∨ PWR_CTRL.COLD_RESET.of v + PWR_CTRL.WARM_RESTART.of v + PWR_CTRL.ENGINE_RESET.of v ≠ 1 ∨
      (PWR_CTRL.ENGINE_RESET.of v = 1 ∧ (PWR_CTRL.ENGINE.of v = 0 ∨ 8 < PWR_CTRL.ENGINE.of v))) :
    writePwrCtrl s v = ev s PWR_EVENT.CTRL_EV :=
  if_pos h

variable (hkey : PWR_CTRL.KEY.of v = 0xB7)
include hkey

theorem writePwrCtrl_of_cold (hcold : PWR_CTRL.COLD_RESET.of v = 1) (hwarm : PWR_CTRL.WARM_RESTART.of v = 0)
    (hengine : PWR_CTRL.ENGINE_RESET.of v = 0) : writePwrCtrl s v = coldReset s 1 true := by
  simp [writePwrCtrl, hkey, hcold, hwarm, hengine]

theorem writePwrCtrl_of_warm (hcold : PWR_CTRL.COLD_RESET.of v = 0) (hwarm : PWR_CTRL.WARM_RESTART.of v = 1)
    (hengine : PWR_CTRL.ENGINE_RESET.of v = 0) : writePwrCtrl s v = if inService s then warmRestart s 1 true else s := by
  simp [writePwrCtrl, restart, hkey, hcold, hwarm, hengine]

theorem writePwrCtrl_of_engine (hcold : PWR_CTRL.COLD_RESET.of v = 0) (hwarm : PWR_CTRL.WARM_RESTART.of v = 0)
    (hengine : PWR_CTRL.ENGINE_RESET.of v = 1) (hlo : 1 ≤ PWR_CTRL.ENGINE.of v) (hhi : PWR_CTRL.ENGINE.of v ≤ 8)
    (hidle : bit (get1 s PWR_STATUS.ENG_BUSY) (PWR_CTRL.ENGINE.of v) = false) :
    writePwrCtrl s v = set1 s PWR_STATUS.ENG_BUSY (get1 s PWR_STATUS.ENG_BUSY + 2 ^ PWR_CTRL.ENGINE.of v) := by
  have hnamed : ¬ (PWR_CTRL.ENGINE.of v = 0 ∨ 8 < PWR_CTRL.ENGINE.of v) := by omega
  simp only [writePwrCtrl, hkey, hcold, hwarm, hengine, hnamed, hidle, ne_eq, not_true_eq_false, Nat.zero_ne_one, and_false, or_self,
    Nat.zero_add, Bool.false_eq_true, if_false]

end pwrCtrl

/-- Settles O39: a write of PWR_CTRL by its key and the reset it asks for, the pins and the watchdog by the state they find, an engine by its number; what an engine number outside 1 to 8 does and that tiles are zeroed, the loss of input before INPUT_GOOD, the start of a recovery image at once and the absorbed restart are the model's choice (assumptions 70 and 71). -/
theorem resetsActOnTheirDomains : Obligations.ResetsActOnTheirDomains := by
  refine ⟨?rise, ?riseWhileOn, ?image, ?cold, ?warm, ?absorbed, ?engine, ?bad, ?engineDone, ?watchdog, ?perst, ?pins, ?longLow, ?shortLow⟩
  case rise => exact fun s b hoff => exec_inputGood b (if_neg (Bool.eq_false_iff.1 hoff))
  case riseWhileOn => exact fun s b t hon ht => exec_inputGood b ((if_pos hon).trans ht)
  case image => exact fun _ _ => exec_recoveryImageLoad_in_loader
  case cold =>
    intro s v hkey hcold hwarm hengine
    rw [exec_coldResetRequest, writePwrCtrl_of_cold hkey hcold hwarm hengine]
  case warm =>
    intro s v hkey hcold hwarm hengine hserves
    rw [exec_warmRestartRequest, writePwrCtrl_of_warm hkey hcold hwarm hengine, if_pos hserves]
  case absorbed =>
    intro s v hkey hcold hwarm hengine hserves
    rw [exec_warmRestartRequest, writePwrCtrl_of_warm hkey hcold hwarm hengine, if_neg (Bool.eq_false_iff.1 hserves)]
  case engine =>
    intro s v hkey hcold hwarm hengine hlo hhi hidle
    rw [exec_engineResetRequest, writePwrCtrl_of_engine hkey hcold hwarm hengine hlo hhi hidle]
  case bad =>
    intro s v hbad
    rw [exec_coldResetRequest, exec_warmRestartRequest, exec_engineResetRequest, writePwrCtrl_of_bad hbad]
    exact ⟨rfl, rfl, rfl⟩
  case engineDone => exact fun _ _ _ => exec_engineResetDone_of_busy
  case watchdog => exact fun _ => exec_firmwareWatchdog_in_service
  case perst => exact fun _ _ => exec_perstReset
  case pins => exact fun _ => ⟨rfl, rfl, rfl, rfl⟩
  case longLow =>
    intro s n hlong
    rw [exec_carrierResetPin, if_neg (Nat.not_lt.2 hlong)]
  case shortLow =>
    intro s n hshort
    rw [exec_carrierResetPin, if_pos hshort]

end Sys2Proof.Machine

/-! PROOFS. Trips, thermal holds, field ports and the failure window (R581, R587, R588, R615, R617, R627, R645). -/

namespace Sys2Proof.Machine

section trips

variable {s u : State}

theorem exec_brownoutTrip_of_low {mv us : Nat} (hrun : running s = true) (hlow : mv < 38000) (hlong : 100 ≤ us) :
    exec (.brownoutTrip mv us) s = .next (trip s 4) :=
  congrArg Host.Outcome.next (if_pos ⟨hrun, hlow, hlong⟩)

theorem exec_brownoutTrip_of_none {mv us : Nat} (h : running s = false ∨ 38000 ≤ mv ∨ us < 100) : exec (.brownoutTrip mv us) s = .next s := by
  refine congrArg Host.Outcome.next (if_neg ?_)
  rintro ⟨hrun, hlow, hlong⟩
  obtain hoff | hhigh | hshort := h
  · exact Bool.false_ne_true (hoff.symm.trans hrun)
  · exact hhigh.not_gt hlow
  · exact hshort.not_ge hlong

theorem exec_overpowerTrip_of_high {w : Nat} (hrun : running s = true) (hhigh : 2800 ≤ w) : exec (.overpowerTrip w) s = .next (trip s 5) :=
  congrArg Host.Outcome.next (if_pos ⟨hrun, hhigh⟩)

theorem exec_overcurrentTrip_of_high {ma us : Nat} (hrun : running s = true) (hhigh : 70000 ≤ ma) (hlong : 50 ≤ us) :
    exec (.overcurrentTrip ma us) s = .next (trip s 6) :=
  congrArg Host.Outcome.next (if_pos ⟨hrun, hhigh, hlong⟩)

theorem exec_inputOvervoltage_of_high {mv : Nat} (hon : s.inputOn = true) (hhigh : 63000 < mv) :
    exec (.inputOvervoltage mv) s = .next (coldReset (addHold s .overvoltage) 0 false) :=
  congrArg Host.Outcome.next (if_pos ⟨hon, hhigh⟩)

theorem exec_inputOvervoltageRelease_of_low {mv : Nat} (hlow : mv < 60000) :
    exec (.inputOvervoltageRelease mv) s = .next (dropHold s .overvoltage 0) :=
  congrArg Host.Outcome.next (if_pos hlow)

/-- A thermal trip holds the module, for good at the third within an hour. -/
theorem exec_thermalTrip_of_hot {t : Temps} {trips : List Nat} (hrun : running s = true) (hhot : tooHot t = true)
    (htrips : s.trips.filter (fun c => decide (s.clock < c + hourNs)) ++ [s.clock] = trips)
    (hu : { addHold s (if 3 ≤ trips.length then .thermalLatched else .thermal) with trips := trips } = u) :
    exec (.thermalTrip t) s = .next (trip u 7) := by
  subst htrips hu
  exact congrArg Host.Outcome.next (if_neg (not_or.2 ⟨not_not_intro hrun, not_not_intro hhot⟩))

theorem exec_thermalHoldRelease_of_cool {t : Temps} (hheld : s.holds.contains .thermal = true) (hdie : t.die < 85000) (hinlet : t.inlet ≤ 40000)
    (hu : dropHold s .thermal 7 = u) : exec (.thermalHoldRelease t) s = .next (if running u then emit u (.faultPin false) else u) := by
  subst hu
  exact congrArg Host.Outcome.next (if_pos ⟨hheld, hdie, hinlet⟩)

end trips

section ports

variable {s : State} {p : Port}

theorem exec_opticalOvertemp_of_hot {c : Int} (hhot : 80000 ≤ c) : exec (.opticalOvertemp p c) s = .next (fence (ev s PWR_EVENT.TRIP_EV) 1 p 0) :=
  congrArg Host.Outcome.next (if_neg (Int.not_lt.2 hhot))

theorem exec_portDownTimeout_of_late {t : Nat} (hdown : lookup s.portDown p.val = some t) (hen : bit (get1 s LND_CTRL.PORT_EN) p.val = true)
    (hlate : t + 10 * 10 ^ 9 ≤ s.now) : exec (.portDownTimeout p) s = .next { fence s 1 p 5 with portDown := dropKey s.portDown p.val } := by
  change execPortDownTimeout p s = _
  simp only [execPortDownTimeout, hdown]
  exact congrArg Host.Outcome.next (if_pos ⟨hen, hlate⟩)

/-- The link of an enabled port that was down comes up, unless the port is fenced. -/
theorem exec_fieldPortLinkChange_up (hon : portOn s p = true) (hwas : bit (get1 s LND_STATUS.PORT_UP) p.val = false)
    (hfree : unitState s 1 p.val ≠ 1) :
    exec (.fieldPortLinkChange p true) s =
      .next { set1 s LND_STATUS.PORT_UP (get1 s LND_STATUS.PORT_UP + 2 ^ p.val) with portDown := dropKey s.portDown p.val } := by
  have hacts : ¬ (¬ portOn s p = true ∨ bit (get1 s LND_STATUS.PORT_UP) p.val = true ∨ (true = true ∧ unitState s 1 p = 1)) := by
    rw [hon, hwas]
    exact fun h => h.elim (· rfl) (·.elim Bool.false_ne_true (hfree ·.2))
  exact congrArg Host.Outcome.next ((if_neg hacts).trans (if_pos rfl))

/-- As the link of an enabled port goes down its 10 s begin. -/
theorem exec_fieldPortLinkChange_down (hon : portOn s p = true) (hwas : bit (get1 s LND_STATUS.PORT_UP) p.val = true) :
    exec (.fieldPortLinkChange p false) s =
      .next { set1 s LND_STATUS.PORT_UP (get1 s LND_STATUS.PORT_UP - 2 ^ p.val) with portDown := putN s.portDown p.val s.now } := by
  have hacts : ¬ (¬ portOn s p = true ∨ bit (get1 s LND_STATUS.PORT_UP) p.val = false ∨ (false = true ∧ unitState s 1 p = 1)) := by
    rw [hon, hwas]
    exact fun h => h.elim (· rfl) (·.elim Bool.false_ne_true.symm (Bool.false_ne_true ·.1))
  exact congrArg Host.Outcome.next ((if_neg hacts).trans (if_neg Bool.false_ne_true))

end ports

theorem exec_failureWindowExpiry_of_old {s : State} {j : JobId} {keep : List Nat}
    (hkeep : (s.job j).failTimes.filter (fun t => decide (s.now < t + 24 * hourNs)) = keep) (hold : keep.length ≠ (s.job j).failTimes.length) :
    exec (.failureWindowExpiry j) s = .next (
      trierLoop (fset (s.modJob j (fun J => { J with failTimes := keep })) TRI_JOB_CHECK.FAILS_24H j 0 (min keep.length 255)) j) := by
  subst hkeep
  exact congrArg Host.Outcome.next (if_neg hold)

/-- Settles O40: each trip by what was measured, each port by its state; that the trips fire at 2,800 W and 70 A themselves, the cause of the optical fence and the overvoltage without FAULT# are the model's choice (assumptions 66 and 72). -/
theorem tripsAndPortsAreGuarded : Obligations.TripsAndPortsAreGuarded := by
  refine ⟨?brownout, ?overpower, ?overcurrent, ?noTrip, ?overvoltage, ?released, ?thermal, ?cooled, ?optical, ?portDown, ?linkUp, ?linkDown, ?window⟩
  case brownout =>
    intro s mv us hrun hlow hlong
    rw [exec_brownoutTrip_of_low hrun hlow hlong, trip]
  case overpower =>
    intro s w hrun hhigh
    rw [exec_overpowerTrip_of_high hrun hhigh, trip]
  case overcurrent =>
    intro s ma us hrun hhigh hlong
    rw [exec_overcurrentTrip_of_high hrun hhigh hlong, trip]
  case noTrip => exact fun _ _ _ => exec_brownoutTrip_of_none
  case overvoltage => exact fun _ _ => exec_inputOvervoltage_of_high
  case released =>
    intro s mv hlow
    rw [exec_inputOvervoltageRelease_of_low hlow, dropHold]
  case thermal =>
    intro s t trips u hrun hhot htrips hu
    rw [exec_thermalTrip_of_hot hrun hhot htrips hu, trip]
  case cooled => exact fun _ _ _ => exec_thermalHoldRelease_of_cool
  case optical => exact fun _ _ _ => exec_opticalOvertemp_of_hot
  case portDown => exact fun _ _ _ => exec_portDownTimeout_of_late
  case linkUp => exact fun _ _ => exec_fieldPortLinkChange_up
  case linkDown => exact fun _ _ => exec_fieldPortLinkChange_down
  case window => exact fun _ _ _ => exec_failureWindowExpiry_of_old

end Sys2Proof.Machine

/-! PROOFS. The test port: instructions, scans, the pins that boundary scan holds, debug sessions and test-logic reset (R650 to R652, R654 to R657). -/

namespace Sys2Proof.Machine

/-! Debug sessions. -/

section sessions

variable {s t : State} {i : Byte}

theorem closeSession_eq (s : State) :
    closeSession s = if on s TST_STATUS.SESSION then ev (set1 s TST_STATUS.SESSION 0) TST_EVENT.CLOSE_EV else s := rfl

/-- Any instruction but DEBUG_ACCESS closes an open session. -/
theorem loadInstruction_of_other (hi : i ≠ 0x20) (ht : set1 { s with trst := true } TST_STATUS.IR i.toNat = t) :
    loadInstruction i s = closeSession t := by
  subst ht
  exact if_pos hi

theorem loadInstruction_of_locked (ht : set1 { s with trst := true } TST_STATUS.IR 0x20 = t) (hlocked : on t KST_STATUS.DEBUG_LOCKED = true) :
    loadInstruction 0x20 s = ev t TST_EVENT.LOCK_BYPASS_EV := by
  subst ht
  exact if_pos hlocked

theorem loadInstruction_of_unlocked (ht : set1 { s with trst := true } TST_STATUS.IR 0x20 = t) (hopen : on t KST_STATUS.DEBUG_LOCKED = false) :
    loadInstruction 0x20 s =
      if on t TST_CTRL.DBG_EN ∧ ¬ on t TST_STATUS.SESSION then ev (set1 t TST_STATUS.SESSION 1) TST_EVENT.OPEN_EV else t := by
  subst ht
  exact if_neg (Bool.eq_false_iff.1 hopen)

theorem exec_tapInstructionLoad_no_scan : exec (.tapInstructionLoad i none) s = .next (driveCells (loadInstruction i s) (tapActs s)) := rfl

/-- A scan is made under the instruction that the load leaves. -/
theorem exec_tapInstructionLoad_scan (d : TapScan) (h : exec (.tapInstructionLoad i none) s = .next t) :
    exec (.tapInstructionLoad i (some d)) s = .next (scanData t d) := by
  cases h
  rfl

end sessions

/-! Scans and the pins. -/

section scans

variable {s : State} {d : TapScan}

@[simp] theorem tapActs_emit (s : State) (o : Output) : tapActs (emit s o) = tapActs s := rfl

@[simp] theorem tapActs_with_cells (s : State) (c : BitVec 63) : tapActs { s with cells := c } = tapActs s := rfl

theorem isBoundary_iff {code : Nat} : isBoundary code = true ↔ 2 ≤ code ∧ code ≤ 5 := decide_eq_true_iff

theorem holdsPins_iff {code : Nat} : holdsPins code = true ↔ 3 ≤ code ∧ code ≤ 7 := decide_eq_true_iff

theorem captured_of_boundary (hlo : 2 ≤ tapActs s) (hhi : tapActs s ≤ 5) : captured s d.pins = ((List.range 63).map d.pins.getLsbD, s) :=
  (if_neg (Nat.ne_of_gt hlo)).trans (if_pos (isBoundary_iff.2 ⟨hlo, hhi⟩))

/-- Off the boundary register and the debug port: the identity under IDCODE, else the bypass bit. -/
theorem captured_of_other (hother : tapActs s = 1 ∨ 6 ≤ tapActs s) (hdebug : tapActs s ≠ 0x20) :
    captured s d.pins = (if tapActs s = 1 then (List.range 32).map (bit (get1 s TST_IDCODE.IDCODE)) else [false], s) := by
  by_cases hone : tapActs s = 1
  · exact (if_pos hone).trans (by rw [if_pos hone])
  · have hbeyond : ¬ (2 ≤ tapActs s ∧ tapActs s ≤ 5) := by omega
    simp only [captured, isBoundary_iff, hone, hbeyond, hdebug, if_false]

/-- A scan under a boundary instruction: the pins shift out, the last 63 bits become the cells, and the forms of EXTEST drive them. -/
theorem scanData_of_boundary (hlo : 2 ≤ tapActs s) (hhi : tapActs s ≤ 5) :
    scanData s d = (
      let q := (List.range 63).map d.pins.getLsbD ++ d.tdi
      let u := { emit s (.tdo (q.take d.tdi.length)) with cells := BitVec.ofNat 63 (ofBits (q.drop d.tdi.length)) }
      if 3 ≤ tapActs s then driveCells u (tapActs s) else u) := by
  have hhighz : tapActs s ≤ 7 := by omega
  simp only [scanData, captured_of_boundary hlo hhi, tapActs_emit, tapActs_with_cells, isBoundary_iff, holdsPins_iff, hlo, hhi, hhighz, and_true,
    if_true]

/-- A scan of another register only shifts it out. -/
theorem scanData_of_other (hother : tapActs s = 1 ∨ 6 ≤ tapActs s) (hdebug : tapActs s ≠ 0x20) :
    scanData s d = (
      let q := (if tapActs s = 1 then (List.range 32).map (bit (get1 s TST_IDCODE.IDCODE)) else [false]) ++ d.tdi
      emit s (.tdo (q.take d.tdi.length))) := by
  have hbeyond : ¬ (2 ≤ tapActs s ∧ tapActs s ≤ 5) := by omega
  simp only [scanData, captured_of_other hother hdebug, tapActs_emit, isBoundary_iff, hbeyond, if_false]

/-- HIGHZ releases the pins; the forms of EXTEST and CLAMP drive them from the cells. -/
theorem driveCells_of_holding (was : Nat) (hlo : 3 ≤ tapActs s) (hhi : tapActs s ≤ 7) :
    driveCells s was = emit s (
      if tapActs s = 7 then .scanPins 7 none [false, false, false, false] else .scanPins (tapActs s) (txCells s) (lowCells s)) := by
  by_cases hhighz : tapActs s = 7
  · exact (if_pos hhighz).trans (by rw [if_pos hhighz])
  · simp only [driveCells, hhighz, holdsPins_iff.2 ⟨hlo, hhi⟩, if_true, if_false]

/-- An instruction that holds no pin gives back those that the one before it held. -/
theorem driveCells_of_idle (was : Nat) (hidle : tapActs s < 3 ∨ 7 < tapActs s) :
    driveCells s was = if 3 ≤ was ∧ was ≤ 7 then emit s (.scanPins 0xFF none []) else s := by
  have hhighz : tapActs s ≠ 7 := by omega
  have hnone : ¬ (3 ≤ tapActs s ∧ tapActs s ≤ 7) := by omega
  simp only [driveCells, hhighz, holdsPins_iff, hnone, if_false]

end scans

/-- Test-logic reset loads IDCODE, which holds no pin, and closes the session. -/
theorem exec_testLogicReset {s t : State} (x : Bool) (ht : set1 { s with trst := x } TST_STATUS.IR 1 = t) :
    exec (.testLogicReset x) s = .next (
      if 3 ≤ tapActs s ∧ tapActs s ≤ 7 then emit (closeSession t) (.scanPins 0xFF none []) else closeSession t) := by
  subst ht
  change Host.Outcome.next (endDrive _ _) = _
  simp only [endDrive, holdsPins_iff]

/-- Settles O41: an instruction by what it does to the session and to the pins, a scan by the register that it shifts; the shape of the carried scan is the model's choice (assumptions 3 and 73). -/
theorem theTestPortObeysTheLock : Obligations.TheTestPortObeysTheLock := by
  refine ⟨?other, ?locked, ?unlocked, ?boundary, ?register, ?driven, ?released, ?reset⟩
  case other =>
    intro s i t hi ht
    rw [exec_tapInstructionLoad_no_scan, loadInstruction_of_other hi ht, closeSession_eq]
  case locked =>
    intro s t ht hlocked
    rw [exec_tapInstructionLoad_no_scan, loadInstruction_of_locked ht hlocked]
  case unlocked =>
    intro s t ht hopen
    rw [exec_tapInstructionLoad_no_scan, loadInstruction_of_unlocked ht hopen]
  case boundary =>
    intro s t i d hload hlo hhi
    rw [exec_tapInstructionLoad_scan d hload, scanData_of_boundary hlo hhi]
  case register =>
    intro s t i d hload hother hdebug
    rw [exec_tapInstructionLoad_scan d hload, scanData_of_other hother hdebug]
  case driven => exact fun _ was => driveCells_of_holding was
  case released => exact fun _ was => driveCells_of_idle was
  case reset =>
    intro s x t ht
    rw [exec_testLogicReset x ht, closeSession_eq]

end Sys2Proof.Machine

/-! PROOFS. The PMU's control, counters and sampling, and the grants to VFs (R601, R603 to R606, R608 to R612). -/

namespace Sys2Proof.Machine

section counters

variable {s : State}

theorem exec_pmuValueWrite (v : Word) :
    exec (.pmuValueWrite v) s = .next (if on s PMU_CTRL.FREEZE then storeSel s .PMU_CNT_VALUE v.toNat else s) := rfl

theorem exec_sbufRdWrite (v : BitVec 32) :
    exec (.sbufRdWrite v) s =
      .next (if v.toNat < 2 ^ get1 s PMU_SBUF_CFG.LOG2_RECORDS then storeReg s .PMU_SBUF_RD 0 0 v.toNat else s) := rfl

theorem exec_vfGrantWrite {v : Word} {j : JobId} (hj : Fin.ofNat 16 (get1 s PMU_VF_SEL.VF) = j) :
    exec (.vfGrantWrite v) s = .next (if s.conf j then s else storeReg s .PMU_VF_GRANT (get1 s PMU_VF_SEL.VF) 0 v.toNat) := by
  subst hj
  rfl

theorem pmuAdd_of_wrap {i n : Nat} (hwrap : 2 ^ 48 ≤ fget s PMU_CNT_VALUE.VALUE i 0 + n) :
    pmuAdd s i n =
      ev (fset (fset s PMU_CNT_VALUE.VALUE i 0 (fget s PMU_CNT_VALUE.VALUE i 0 + n)) PMU_CNT_VALUE.OVF i 0 1) PMU_EVENT.OVF_EV :=
  if_pos hwrap

theorem exec_pmuCounterWrap_of_running {i : Fin 40} {n : Nat} (hruns : on s PMU_CTRL.FREEZE = false) (hen : fget s PMU_CNT_CFG.EN i 0 ≠ 0)
    (hwrap : 2 ^ 48 ≤ fget s PMU_CNT_VALUE.VALUE i 0 + n) : exec (.pmuCounterWrap i n) s = .next (pmuAdd s i n) :=
  congrArg Host.Outcome.next (if_neg (not_or.2 ⟨Bool.eq_false_iff.1 hruns, not_or.2 ⟨hen, Nat.not_lt.2 hwrap⟩⟩))

end counters

section sampling

variable {s t : State}

/-- A sampled instruction whose word brought the countdown to 0 is tagged, or skipped with 16 in flight. -/
theorem exec_sampleTag_of_due {x : CtxId} {c : Ctx} {p : Fin 1024} (hc : s.ctx? x = some c) (hsampled : sampled s x c = true)
    (hdue : s.countdown = 0) (ht : reload { s with tags := s.tags ++ [newTag s x c p], tagNo := (s.tagNo + 1) % 2 ^ 32 } = t) :
    exec (.sampleTag x p) s =
      .next (if 16 ≤ s.tags.length then reload (countSat s PMU_SAMP_STAT.SKIPPED 0 0 1) else set1 t PMU_SAMP_STAT.INFLIGHT t.tags.length) := by
  subst ht
  change execSampleTag x p s = _
  simp only [execSampleTag, hc, hsampled, hdue, ne_eq, not_true_eq_false, or_self, if_false]

/-- The record of a tag whose latency has ended is lost where the buffer is full or its write fails, and else goes to the next entry. -/
theorem exec_sampleRecordWrite_of_tag {n : Nat} {m : SampleMeasure} {g : Tag} (hg : s.tags.find? (fun t => t.number == n) = some g)
    (ht : set1 { s with tags := s.tags.filter (fun u => u.number != n) } PMU_SAMP_STAT.INFLIGHT (s.tags.filter (fun u => u.number != n)).length = t) :
    exec (.sampleRecordWrite n m) s = .next (
      if (get1 t PMU_SBUF_WR.WR + 1) % 2 ^ get1 t PMU_SBUF_CFG.LOG2_RECORDS = get1 t PMU_SBUF_RD.RD ∨ ¬ m.written then
        { ev (countSat t PMU_SAMP_STAT.LOST 0 0 1) PMU_EVENT.SBUF_EV with sampleLost := true }
      else
        let wr := get1 t PMU_SBUF_WR.WR
        let u := hostPut t (get1 t PMU_SBUF_BASE.ADDR * 4096 + 32 * wr) (sampleBytes g m t.sampleLost)
        { set1 u PMU_SBUF_WR.WR ((wr + 1) % 2 ^ get1 t PMU_SBUF_CFG.LOG2_RECORDS) with sampleLost := false }) := by
  subst ht
  change execSampleRecordWrite n m s = _
  simp only [execSampleRecordWrite, hg]

end sampling

/-- Settles O42: a write by the bits and the state that it meets, a sampled instruction and its record by the room left; the order of the parts of one write of PMU_CTRL is the model's choice (assumption 29). -/
theorem thePmuCountsAndSamples : Obligations.ThePmuCountsAndSamples := by
  refine ⟨?control, ?frozen, ?running, ?wrap, ?tagged, ?skipped, ?written, ?lost, ?freed, ?beyond, ?granted, ?confidential⟩
  case control => exact fun _ _ => ⟨rfl, rfl, rfl, rfl⟩
  case frozen =>
    intro s v hfrozen
    rw [exec_pmuValueWrite, if_pos hfrozen]
  case running =>
    intro s v hruns
    rw [exec_pmuValueWrite, if_neg (Bool.eq_false_iff.1 hruns)]
  case wrap =>
    intro s i n hruns hen hwrap
    rw [exec_pmuCounterWrap_of_running hruns hen hwrap, pmuAdd_of_wrap hwrap]
  case tagged =>
    intro s x c p t hc hsampled hdue hroom ht
    rw [exec_sampleTag_of_due hc hsampled hdue ht, if_neg (Nat.not_le.2 hroom)]
  case skipped =>
    intro s x c p hc hsampled hdue hfull
    rw [exec_sampleTag_of_due hc hsampled hdue rfl, if_pos hfull]
  case written =>
    intro s n m g t hg ht hroom hwritten
    rw [exec_sampleRecordWrite_of_tag hg ht, if_neg (not_or.2 ⟨hroom, not_not_intro hwritten⟩)]
  case lost =>
    intro s n m g t hg ht hlost
    rw [exec_sampleRecordWrite_of_tag hg ht, if_pos (hlost.imp_right Bool.eq_false_iff.1)]
  case freed =>
    intro s v hin
    rw [exec_sbufRdWrite, if_pos hin]
  case beyond =>
    intro s v hout
    rw [exec_sbufRdWrite, if_neg (Nat.not_lt.2 hout)]
  case granted =>
    intro s v j hj hopen
    rw [exec_vfGrantWrite hj, if_neg (Bool.eq_false_iff.1 hopen)]
  case confidential =>
    intro s v j hj hconf
    rw [exec_vfGrantWrite hj, if_pos hconf]

end Sys2Proof.Machine
